-- ==== Sys2Proof/Word.lean ====
section
/-! DEFINITION. The word types of the block (R6, R207): 64-bit registers and command words, bytes, 32-bit codes. -/

namespace Sys2Proof

/-- A register, a command word, a descriptor word (R6, R207). -/
abbrev W64 := BitVec 64

/-- One byte of Mica, of a message or of an image. -/
abbrev Byte := BitVec 8

/-- A 32-bit code: an FP32 value, a CRC-32C, a sequence number. -/
abbrev W32 := BitVec 32

end Sys2Proof
end

