-- ==== Sys2Proof/Syntax.lean ====
section
/-! DEFINITION. The commands of the block: one constructor of Instr for each row of spec/opcode_table.json, and the
data that arrives at a port with an event. What Tourmaline or the physics chooses (which arrays a claim takes, what a
sensor or a current monitor reads, which check fails) is an operand of the event that shows it. -/

namespace Sys2Proof

/-- What a Deep port answers to a queue or tail read of a vein (R196). -/
inductive DeepSlot where
  | words (ws : List W64)   -- the 64-bit words read, in ascending address order
  | poison                  -- a poisoned response
  | error                   -- DPp_RD_ERR
  deriving DecidableEq, Repr

/-- What a Deep port answers to a stream read (R413, R414). -/
inductive DeepRead where
  | data (bytes : List Byte) (poison : List Nat)  -- the burst; the 64-byte lines of it that are marked poisoned
  | error                                         -- DPp_RD_ERR
  deriving DecidableEq, Repr

/-- An error of the physics in one sum: the logical column it stands in, and m · 2^e, which is added to the sum.
(DESIGN CHOICE, log 11) -/
structure SumErr where
  col : Nat
  m   : Int
  e   : Int
  deriving DecidableEq, Repr

/-- An ECC event: none, a single bit, two bits. -/
inductive Ecc where
  | clean | single | double
  deriving DecidableEq, Repr

/-- Faults of the physics in one row of a pass and sub-pass; the comparators of R366 decide what they are worth.
(DESIGN CHOICE, log 11) -/
structure RowFault where
  pass      : Nat
  sub       : Nat
  cxs       : List SumErr         -- errors in the CX values that leave the columns
  check     : List SumErr         -- errors in the row check value T of the Touchstone column
  tally     : List SumErr         -- errors in the column check values U
  specDup   : List Nat            -- logical columns whose special-value copies disagree (SPEC_DUP)
  drainDup  : List Nat            -- and those whose duplicated drain arithmetic disagrees (DRAIN_DUP)
  drainEcc  : Ecc                 -- DRAIN_ECC
  talusEcc  : Ecc                 -- TALUS_ECC
  deriving DecidableEq, Repr

/-- A row without a fault. -/
def RowFault.none : RowFault := ⟨0, 0, [], [], [], [], [], .clean, .clean⟩

/-- A flit of a link beat (R286): the tag's fields and the payload. -/
structure Flit where
  tag     : BitVec 128
  payload : List Byte
  deriving DecidableEq, Repr

/-- A chain message as it arrives (R303, R304): header, body and received CRC-32C. -/
structure ChainMsg where
  hdr  : W64
  body : List Byte
  crc  : W32
  deriving DecidableEq, Repr

/-- The static inputs of the block (R412, R422). -/
structure Pins where
  head    : Bool          -- STRATA_HEAD
  bypass  : Bool          -- STRATA_BYPASS
  loden   : Bool          -- LODESTONE_EN
  sigreq  : Bool          -- SIG_REQUIRED
  clamp   : BitVec 16     -- CLAMP_group, in the order of R415
  keyhash : BitVec 384    -- KEYHASH
  pcap    : List (BitVec 16)  -- DPp_PCAP of the four Deep ports (R414)
  scap    : BitVec 4      -- UPD_SCAP (R414)
  deriving DecidableEq, Repr

/-- Header fields of a routed write, its acknowledgement or its refusal (R292). -/
structure RoutedHdr where
  dst    : Nat
  src    : Nat
  tenant : Nat
  offset : Nat
  lenM1  : Nat
  deriving DecidableEq, Repr

/-- Header fields of a multicast data message (R292). -/
structure McHdr where
  group  : Nat
  root   : Nat
  parcel : Nat
  first  : Nat
  last   : Bool
  sq     : Nat
  deriving DecidableEq, Repr

/-- What a memory word read by the scrubber or a stream shows (R142, R375). (DESIGN CHOICE, log 11) -/
inductive EccEvent where
  | single (offset : Nat)   -- MICA_CE at a Mica byte offset
  | double (offset : Nat)   -- MICA_UE or TABLE_UE at a Mica byte offset
  deriving DecidableEq, Repr

/-- How the head's flash read ended (R313 to R316): a read did not complete, or what the flash holds: its JEDEC
identifier, its SFDP parameter space, the bytes from 0 on, and those from 0x100_0000 on. -/
inductive FlashResult where
  | fail
  | read (jedec : BitVec 24) (sfdp image second : List Byte)
  deriving DecidableEq, Repr

/-- The part a fence or a return concerns (R380). -/
structure Part where
  kind   : Nat    -- 0 array, 1 bank group, 2 vein set, 3 link
  target : Nat
  deriving DecidableEq, Repr

/-- The instruments of the IEEE 1687 network (R425). -/
inductive Instrument where
  | status | temp | droop | mbist | arraybist | pswHold (on : Bool) | pllobs
  deriving DecidableEq, Repr

/-- The commands of the block: the rows of spec/opcode_table.json, in its order. -/
inductive Instr where
  -- issue of the head command of vein v (R200)
  | nop (v : Fin 16)
  | tile (v : Fin 16) (pick : Fin 4)
  | sptile (v : Fin 16) (pick : Fin 4)
  | wload (v : Fin 16)
  | elemwise (v : Fin 16) (pick : Fin 4)
  | streamArm (v : Fin 16)
  | streamRearm (v : Fin 16)
  | semPost (v : Fin 16)
  | semWait (v : Fin 16)
  | mark (v : Fin 16)
  | barrier (v : Fin 16)
  | yieldCmd (v : Fin 16)
  | scaleCommit (v : Fin 16)
  | gradEmit (v : Fin 16) (pick : Fin 4)
  | saveState (v : Fin 16)
  | restoreState (v : Fin 16)
  | calibrate (v : Fin 16)
  | cleave (v : Fin 16)
  -- veins
  | veinFetch (v : Fin 16) (deep : DeepSlot) (drawn : Nat)
  | doorbell (v : Fin 16) (value : W64)
  | doorbellPoll (v : Fin 16) (deep : DeepSlot)
  | resumeNext (v : Fin 16)
  | resumeRetry (v : Fin 16) (deep : DeepSlot)
  | reset (v : Fin 16)
  | yieldExpiry (v : Fin 16)
  | fillerUnblock
  | bubbleEnd
  -- arrays, lanes, drains, the ladder
  | tileEntry (array : Fin 4)
  | laneItemEnd (array : Fin 4) (lane : Fin 64)
  | rowDrain (array : Fin 4) (row : Nat) (flt : RowFault)
  | ladderStepEnd (array : Fin 4) (rows : List Nat) (flts : List RowFault)
  | strikeWindowEnd (array : Fin 4) (col : Nat)
  | commandComplete (v : Fin 16) (seq : W32)
  | frameDoneToken
  -- streams, multicast, semaphores
  | streamEngineTransfer (stream : Fin 64)
  | deepReadResponse (port : Fin 4) (tag : Nat) (rsp : DeepRead)
  | deepWriteResponse (port : Fin 4) (tag : Nat) (err : Bool)
  | mcParcelSend (group : Fin 64)
  | mcCreditGrant (group : Fin 64)
  | mcStall (group : Fin 64) (blocker : Nat)
  | mcdata (link : Fin 6) (hdr : McHdr) (bytes : List Byte)
  | mccred (link : Fin 6) (group : Fin 64) (sq : Nat) (parcel : Nat)
  | post (link : Fin 6) (dst src tenant sem value : Nat)
  | semTimeout (v : Fin 16)
  | write (link : Fin 6) (hdr : RoutedHdr) (bytes : List Byte)
  | wack (link : Fin 6) (hdr : RoutedHdr)
  | wnak (link : Fin 6) (hdr : RoutedHdr)
  | routedForward (index : Nat)
  -- links
  | beatReceive (link : Fin 6) (beat : List Flit)
  | linkctl (link : Fin 6) (op : Nat) (p0 p1 : W64)
  | linkDetect (link : Fin 6) (width : BitVec 3) (div : BitVec 3)
  | linkLoss (link : Fin 6)
  | capabilityWord (link : Fin 6) (w : W64)
  | modeWord (link : Fin 6) (w : W64)
  | trainingTimeout (link : Fin 6)
  | retrain (link : Fin 6)
  | disable (link : Fin 6)
  -- Cairn
  | syncSend
  | sync (link : Fin 6) (src lode hops epoch : Nat) (t1 : W64) (frame : Nat)
  | dreq (link : Fin 6) (src : Nat) (t3 : W64)
  | dresp (link : Fin 6) (src : Nat) (t3 t4 : W64)
  | syncLoss
  | tickAnnounce
  | tick (link : Fin 6) (epoch : Nat) (grid : W64) (frame : Nat) (timeStep : W64)
  | hold (link : Fin 6) (epoch : Nat) (grid : W64) (frame : Nat)
  | tickFire (drawn : Nat)
  | gridMiss
  | takeover (link : Fin 6) (src lode epoch frame : Nat)
  | token (link : Fin 6) (src frame blocks : Nat) (late : Bool) (lowest : Nat)
  | tokenTimeout (link : Fin 6)
  | ready (link : Fin 6) (blocks : Nat)
  | readyTimeout (link : Fin 6)
  | tickIn
  | discPps
  | ppsLost
  | timeReq
  | timeReqFall
  | timeStep (value : W64)
  -- Tourmaline
  | vackWatchStart
  | vackRise
  | vackTimeout
  | oppSlewDone
  | sensorSample (readings : List Int)
  | thermalStepdown
  | thermalStepup
  -- the lowest of the local readings of VDD_PX; a trip shown without one counts as one at 0 mV
  | droopTrip (mv : Nat := 0)
  | droopEnd
  | keeperLimit (array : Fin 4)
  | rampDownDone (array : Fin 4)
  | switchOpen (array : Fin 4)
  | switchCloseDone (array : Fin 4)
  | rampUpDone (array : Fin 4)
  | preRamp
  | preRampTimeout
  | autocalStart (domain : Nat)
  | autocalDone (coeffs : List Nat)
  -- Mica, cleave, microcode, evacuation
  | patrolScrub (events : List EccEvent)
  | bankCopyDone (bank : Nat)
  | cleaveFenceDone (part : Part)
  | cleaveReturnDone (part : Part) (failed : List Nat)
  | ucodePar (slot : Fin 2)
  | ctrlPar
  | pllLock
  | evacuate (value : W64)
  | evacImageWrite
  -- the training system
  | updCreditGrant (n : Nat)
  | updErr
  | gradRecordSend (v : Fin 16)
  | pgtSnapshot
  | pgtCommit (value : W64)
  | schedEvaluate (value : W64)
  -- the register port, debug, trace, injection
  | dbgMicaRead (value : W64)
  | dbgMicaReadDone
  | traceEnable (value : W64)
  | traceRecord
  | traceDrop
  | injectorArm (injector : Fin 8) (value : W64)
  | registerWrite (addr : BitVec 20) (value : W64)
  | badAccess (addr : BitVec 20) (isWrite : Bool) (strobes : BitVec 8) (value : W64)
  -- start-up, pins, the chain
  | vddAonOn (pins : Pins)
  | pxRstNLow
  | pxRstNHigh
  | pgoodLoss (mica : Bool)
  | resetDone (badBanks : List Nat)
  | flashReadDone (r : FlashResult)
  | slateCheckDone
  | selftestDone (failing : List (List Nat))
  | enum (m : ChainMsg)
  | image (m : ChainMsg)
  | bcastChain (m : ChainMsg)
  | bcastCand (m : ChainMsg)
  | bcastPhase (m : ChainMsg)
  | bcastReload (m : ChainMsg)
  | pollElig (m : ChainMsg)
  | pollState (m : ChainMsg)
  | pollAlive (m : ChainMsg)
  | strataReturn (m : ChainMsg)
  | strataReturnTimeout
  | headPoll
  | phaseTimeout
  | enumRequest
  | slateReload
  | testHoldRise
  | testHoldFall
  | wirUpdate (code : BitVec 8)
  | ijtagAccess (ins : Instrument) (unit : Nat) (findings : List Nat)
  | vddAonLoss
  -- rows that close the table
  | overspend (drawn : Nat)
  | gridSlip
  | exactCaptureDone
  | schedValueReady
  | strataBadlen (m : ChainMsg)
  deriving DecidableEq, Repr

end Sys2Proof
end

