-- ==== Sys2Proof/Decode.lean ====
section
/-! DEFINITION. The block has no encoding of its commands: spec/opcode_table.json gives no row a bit, so no word spells
a command. -/

namespace Sys2Proof

/-- No row of the table gives bits, so no word names a command. (DESIGN CHOICE, log 13) -/
def decodeTableWord (_nbits _w : Nat) : Option Instr := none

end Sys2Proof
end

