-- ==== Sys2Proof/Machine/Bits.lean ====
section
/-! DEFINITION. Bit and byte helpers of the block: bit fields of numbers, little-endian bytes (R6), the link checks
CRC-32C and CRC-16 (R287), the mixing function of the stochastic random number (R52), and sparse maps in one canonical
form. -/

namespace Sys2Proof.Machine

/-- Bits [lo+w-1:lo] of a number. -/
def bits (x lo w : Nat) : Nat := (x >>> lo) % 2 ^ w

/-- Bit i of a number. -/
def bit (x i : Nat) : Bool := (x >>> i) % 2 == 1

/-- x with bits [lo+w-1:lo] replaced by v mod 2^w. -/
def setBits (x lo w v : Nat) : Nat :=
  (x - (bits x lo w) <<< lo) + (v % 2 ^ w) <<< lo

/-- 1 or 0. -/
def b2n (b : Bool) : Nat := if b then 1 else 0

/-- ⌈a / b⌉ for b > 0. -/
def cdiv (a b : Nat) : Nat := (a + b - 1) / b

/-- The low n bytes of x, least significant first (R6). -/
def leBytes : Nat → Nat → List Byte
  | 0, _ => []
  | n + 1, x => BitVec.ofNat 8 x :: leBytes n (x / 256)

/-- The number whose bytes these are, least significant first (R6). -/
def leNat : List Byte → Nat
  | [] => 0
  | b :: bs => b.toNat + 256 * leNat bs

/-- A byte list cut into 64-bit little-endian words; a last partial word is filled with zero bytes. -/
def leWordsAux : Nat → List Byte → List W64
  | 0, _ => []
  | _, [] => []
  | n + 1, bs => BitVec.ofNat 64 (leNat (bs.take 8)) :: leWordsAux n (bs.drop 8)

/-- The 64-bit words of a byte list. -/
def leWords (bs : List Byte) : List W64 := leWordsAux bs.length bs

/-- The bytes of a list of 64-bit words, in order. -/
def wordBytes (ws : List W64) : List Byte := ws.flatMap (fun w => leBytes 8 w.toNat)

/-- A signed reading of the low w bits. -/
def toSigned (w x : Nat) : Int :=
  let y := x % 2 ^ w
  if 2 * y ≥ 2 ^ w then (y : Int) - (2 ^ w : Nat) else (y : Int)

/-- Two's complement code of width w. -/
def fromSigned (w : Nat) (x : Int) : Nat := (x % ((2 ^ w : Nat) : Int)).toNat

/-- The positions of the set bits among the low n bits, ascending. -/
def setBitsOf (x n : Nat) : List Nat := (List.range n).filter (fun i => bit x i)

/-- How many of the low n bits are set. -/
def popcount (x n : Nat) : Nat := (setBitsOf x n).length

/-- The number with exactly these bits set. -/
def maskOf (l : List Nat) : Nat := l.foldl (fun acc i => acc ||| (1 <<< i)) 0

/-! ## Checks -/

/-- One byte into a reflected CRC register of polynomial poly. -/
def crcByte (poly : Nat) : Nat → Nat → Nat
  | 0, r => r
  | n + 1, r => crcByte poly n (if r % 2 = 1 then (r / 2) ^^^ poly else r / 2)

/-- CRC-32C (reflected 0x1EDC6F41 = 0x82F63B78, initial and final value all ones) (R287, R304). -/
def crc32c (bs : List Byte) : Nat :=
  (bs.foldl (fun r b => crcByte 0x82F63B78 8 (r ^^^ b.toNat)) 0xFFFFFFFF) ^^^ 0xFFFFFFFF

/-- One byte, most significant bit first, into a 16-bit CRC register of polynomial 0x1021. -/
def crc16Step : Nat → Nat → Nat
  | 0, r => r
  | n + 1, r => crc16Step n (if r ≥ 0x8000 then ((r * 2) % 0x10000) ^^^ 0x1021 else r * 2)

/-- CRC-16 of polynomial 0x1021 over bytes, most significant bit of each byte first (R287). -/
def crc16From (init : Nat) (bs : List Byte) : Nat :=
  bs.foldl (fun r b => crc16Step 8 (r ^^^ (b.toNat * 256))) init

/-! ## The stochastic random number (R52) -/

/-- mix of R52. -/
def mix64 (x : Nat) : Nat :=
  let x := x ^^^ (x >>> 31)
  let x := (x * 0xD1B54A32D192ED03) % 2 ^ 64
  let x := x ^^^ (x >>> 29)
  let x := (x * 0x8CB92BA72F3D8DD7) % 2 ^ 64
  x ^^^ (x >>> 32)

/-- sr_random of R52. -/
def srRandom (seed sstratum step tensor row col : Nat) : Nat :=
  let h := mix64 (seed ^^^ (sstratum <<< 40) ^^^ (step % 2 ^ 40))
  let h := mix64 (h ^^^ (tensor <<< 32) ^^^ (row % 2 ^ 32))
  let h := mix64 (h ^^^ (col % 2 ^ 32))
  h % 65536

/-! ## Sparse maps

A map from numbers is a list of pairs with rising keys that lists no entry equal to the default. -/

/-- The value at a key, or the default. -/
def mapGet {α : Type} (d : α) : List (Nat × α) → Nat → α
  | [], _ => d
  | (k, v) :: m, a => if k = a then v else mapGet d m a

/-- Insert before the first greater key. -/
def mapIns {α : Type} (k : Nat) (v : α) : List (Nat × α) → List (Nat × α)
  | [] => [(k, v)]
  | (k', v') :: m => if k < k' then (k, v) :: (k', v') :: m else (k', v') :: mapIns k v m

/-- Drop every entry of a key. -/
def mapDel {α : Type} (k : Nat) : List (Nat × α) → List (Nat × α)
  | [] => []
  | (k', v') :: m => if k' = k then mapDel k m else (k', v') :: mapDel k m

/-- Write a value at a key; a value equal to the default removes the entry. -/
def mapPut {α : Type} [DecidableEq α] (d : α) (m : List (Nat × α)) (k : Nat) (v : α) : List (Nat × α) :=
  if v = d then mapDel k m else mapIns k v (mapDel k m)

/-- Keys strictly rise, and no entry holds the default of its key. -/
def mapWf {α : Type} [DecidableEq α] (d : Nat → α) : List (Nat × α) → Bool
  | [] => true
  | [(k, v)] => v != d k
  | (k, v) :: (k', v') :: m => v != d k && decide (k < k') && mapWf d ((k', v') :: m)

end Sys2Proof.Machine
end

