-- ==== Sys2Proof/Machine/Flags.lean ====
section
/-! DEFINITION. Exact values, the sixteen formats, rounding, overflow, conversion to every output format and the sticky
flags they set (R24, R29 to R37, R44 to R51, R54 to R57, R82). An exact finite value is a sign, a magnitude and a
power of two. -/

namespace Sys2Proof.Machine

/-- The formats, in the order of their codes (R24). -/
inductive Fmt where
  | fp32 | fp16 | bf16 | c19 | f8e5 | f8e4 | f6e3 | f6e2 | f4e2 | int8 | int4 | int32 | e8m0 | ax64 | u8 | u10
  deriving DecidableEq, Repr

/-- The format of a code (R24). -/
def fmtOf (c : Nat) : Fmt :=
  match c % 16 with
  | 0 => .fp32 | 1 => .fp16 | 2 => .bf16 | 3 => .c19 | 4 => .f8e5 | 5 => .f8e4 | 6 => .f6e3 | 7 => .f6e2
  | 8 => .f4e2 | 9 => .int8 | 10 => .int4 | 11 => .int32 | 12 => .e8m0 | 13 => .ax64 | 14 => .u8 | _ => .u10

/-- Bits of one stored element (R24). -/
def fmtBits : Fmt → Nat
  | .fp32 => 32 | .fp16 => 16 | .bf16 => 16 | .c19 => 32 | .f8e5 => 8 | .f8e4 => 8 | .f6e3 => 6 | .f6e2 => 6
  | .f4e2 => 4 | .int8 => 8 | .int4 => 4 | .int32 => 32 | .e8m0 => 8 | .ax64 => 64 | .u8 => 8 | .u10 => 10

/-- A floating layout: exponent bits, fraction bits, bias, and whether it is a short float (R29, R32). -/
structure FltP where
  ew    : Nat
  mw    : Nat
  bias  : Nat
  short : Bool
  deriving DecidableEq, Repr

/-- The floating layout of a format, if it is floating (R29, R32). -/
def fmtFlt : Fmt → Option FltP
  | .fp32 => some ⟨8, 23, 127, false⟩
  | .fp16 => some ⟨5, 10, 15, false⟩
  | .bf16 => some ⟨8, 7, 127, false⟩
  | .c19  => some ⟨8, 10, 127, false⟩
  | .f8e5 => some ⟨5, 2, 15, true⟩
  | .f8e4 => some ⟨4, 3, 7, true⟩
  | .f6e3 => some ⟨3, 2, 3, true⟩
  | .f6e2 => some ⟨2, 3, 1, true⟩
  | .f4e2 => some ⟨2, 1, 1, true⟩
  | _ => none

/-- Short float? (R32) -/
def isShort (f : Fmt) : Bool := match fmtFlt f with | some p => p.short | none => false

/-- Long float? (R29) -/
def isLong (f : Fmt) : Bool := match fmtFlt f with | some p => !p.short | none => false

/-! ## Exact values -/

/-- A dyadic number m · 2^e. -/
structure Dy where
  m : Int
  e : Int
  deriving DecidableEq, Repr

/-- x · 2^k for k ≥ 0, as an integer shift. -/
def shlInt (x : Int) (k : Int) : Int := x * ((1 <<< k.toNat : Nat) : Int)

def dyZero : Dy := ⟨0, 0⟩

def dyAdd (a b : Dy) : Dy :=
  if a.m = 0 then b else if b.m = 0 then a else
  if a.e ≤ b.e then ⟨a.m + shlInt b.m (b.e - a.e), a.e⟩ else ⟨shlInt a.m (a.e - b.e) + b.m, b.e⟩

def dyNeg (a : Dy) : Dy := ⟨-a.m, a.e⟩

def dySub (a b : Dy) : Dy := dyAdd a (dyNeg b)

def dyMul (a b : Dy) : Dy := ⟨a.m * b.m, a.e + b.e⟩

def dyScale (a : Dy) (k : Int) : Dy := ⟨a.m, a.e + k⟩

/-- a ≤ b as numbers. -/
def dyLe (a b : Dy) : Bool := (dySub b a).m ≥ 0

def dyLt (a b : Dy) : Bool := (dySub b a).m > 0

/-- ⌊log2 (m · 2^e)⌋ of a positive magnitude. -/
def log2Mag (m : Nat) (e : Int) : Int := (Nat.log2 m : Nat) + e

/-- ⌊|d| / 2^l⌋ and whether something was discarded. -/
def truncMag (m : Nat) (e l : Int) : Nat × Bool :=
  if e ≥ l then (m <<< (e - l).toNat, false)
  else let d := (l - e).toNat
       (m >>> d, m % (1 <<< d) ≠ 0)

/-- The value of an element or of a result. A NaN remembers whether it is signalling (R31). -/
inductive Val where
  | fin (neg : Bool) (m : Nat) (e : Int)
  | inf (neg : Bool)
  | nan (signalling : Bool)
  deriving DecidableEq, Repr

/-- A finite value from a dyadic number; zero is +0. -/
def valOfDy (d : Dy) : Val := .fin (d.m < 0) d.m.natAbs d.e

/-- The dyadic number of a finite value. -/
def valDy : Val → Dy
  | .fin neg m e => ⟨if neg then -(m : Int) else (m : Int), e⟩
  | _ => dyZero

def valIsZero : Val → Bool
  | .fin _ m _ => m == 0
  | _ => false

def valIsNan : Val → Bool
  | .nan _ => true
  | _ => false

def valIsSnan : Val → Bool
  | .nan s => s
  | _ => false

def valNeg : Val → Bool
  | .fin neg _ _ => neg
  | .inf neg => neg
  | .nan _ => false

/-- Times 2^k, exactly. -/
def valScale (v : Val) (k : Int) : Val :=
  match v with
  | .fin neg m e => .fin neg m (e + k)
  | v => v

/-! ## Reading codes (R29 to R35, R37, R40, R41) -/

/-- The value of a floating code. Bits above the layout are ignored (R30). -/
def fltVal (p : FltP) (c : Nat) : Val :=
  let s := bit c (p.ew + p.mw)
  let ef := bits c p.mw p.ew
  let f := bits c 0 p.mw
  if p.short && s && ef == 0 && f == 0 then .nan false
  else if !p.short && ef == 2 ^ p.ew - 1 then
    if f = 0 then .inf s else .nan (!bit f (p.mw - 1))
  else if ef = 0 then .fin s f (1 - (p.bias : Int) - (p.mw : Int))
  else .fin s (2 ^ p.mw + f) ((ef : Int) - (p.bias : Int) - (p.mw : Int))

/-- The operand exponent of a floating code, before scales (R65). -/
def fltOexp (p : FltP) (c : Nat) : Int :=
  let ef := bits c p.mw p.ew
  if ef = 0 then 1 - (p.bias : Int) else (ef : Int) - (p.bias : Int)

/-- The value of an integer. -/
def valOfInt (i : Int) : Val := .fin (i < 0) i.natAbs 0

/-- AX64's value of a finite word (R40). -/
def axDy (w : Nat) : Dy :=
  let sig := bits w 0 53
  let e := bits w 53 10
  ⟨if bit w 63 then -(sig : Int) else (sig : Int), if e = 0 then -562 else (e : Int) - 563⟩

/-- The value of an AX64 word (R40). -/
def axVal (w : Nat) : Val :=
  let sig := bits w 0 53
  if bits w 53 10 = 0x3FF then (if sig = 0 then .inf (bit w 63) else .nan false)
  else .fin (bit w 63) sig (if bits w 53 10 = 0 then -562 else (bits w 53 10 : Int) - 563)

/-- The value of one element code in its format (R29 to R37). -/
def codeVal (f : Fmt) (c : Nat) : Val :=
  match fmtFlt f with
  | some p => fltVal p c
  | none =>
    match f with
    | .int8 => valOfInt (toSigned 8 c)
    | .int4 => valOfInt (toSigned 4 c)
    | .int32 => valOfInt (toSigned 32 c)
    | .e8m0 => if c % 256 = 255 then .nan false else .fin false 1 ((c % 256 : Nat) - 127)
    | .ax64 => axVal c
    | .u8 => .fin false (c % 256) 0
    | _ => .fin false (c % 1024) 0

/-! ## Rounding (R46) -/

inductive RMode where
  | rne | rtz | ru | rd | sr
  deriving DecidableEq, Repr

/-- RMODE's code; the reserved codes name no mode (R27). -/
def rmodeOf (c : Nat) : Option RMode :=
  match c with
  | 0 => some .rne | 1 => some .rtz | 2 => some .ru | 3 => some .rd | 4 => some .sr | _ => none

/-- Does the magnitude (rem / 2^d of a unit above n) round up? (R46) -/
def roundsUp (rm : RMode) (neg : Bool) (n rem d r : Nat) : Bool :=
  match rm with
  | .rne => 2 * rem > 1 <<< d || (2 * rem == 1 <<< d && n % 2 == 1)
  | .rtz => false
  | .ru => rem > 0 && !neg
  | .rd => rem > 0 && neg
  | .sr => (rem <<< 16) >>> d + r % 65536 ≥ 65536

/-- Round m · 2^e to a multiple of 2^ue: the multiple, and whether the value was on the grid. -/
def roundUnit (rm : RMode) (neg : Bool) (m : Nat) (e ue : Int) (r : Nat) : Nat × Bool :=
  if e ≥ ue then (m <<< (e - ue).toNat, true)
  else
    let d := (ue - e).toNat
    let n := m >>> d
    let rem := m % (1 <<< d)
    (if roundsUp rm neg n rem d r then n + 1 else n, rem == 0)

/-- round_to_grid of R46: the multiple of the unit, the unit's exponent, and whether nothing was discarded. -/
def roundToGrid (neg : Bool) (m : Nat) (e : Int) (p : Nat) (emin : Int) (rm : RMode) (r : Nat) : Nat × Int × Bool :=
  if m = 0 then (0, emin, true)
  else
    let ue := max (log2Mag m e) emin - ((p : Int) - 1)
    let (n, ex) := roundUnit rm neg m e ue r
    (n, ue, ex)

/-! ## Flags (R54), as a mask of PX_NUM_FLAGS bits (R60) -/

def flInexact : Nat := 1
def flUnderflow : Nat := 2
def flOverflow : Nat := 4
def flInvalid : Nat := 8
def flSat : Nat := 16
def flWrap : Nat := 32
def flSnan : Nat := 64
def flOcpnan : Nat := 128

/-- The flags that reading a value sets: a signalling NaN sets INVALID and SNAN (R31). -/
def snanFlags (v : Val) : Nat := if valIsSnan v then flInvalid ||| flSnan else 0

/-! ## Writing codes -/

/-- The code of the canonical NaN, or of the only NaN (R31, R32). -/
def fltNan (p : FltP) : Nat :=
  if p.short then 2 ^ (p.ew + p.mw) else ((2 ^ p.ew - 1) <<< p.mw) + 2 ^ (p.mw - 1)

def fltSign (p : FltP) (neg : Bool) : Nat := if neg then 2 ^ (p.ew + p.mw) else 0

def fltInf (p : FltP) (neg : Bool) : Nat := fltSign p neg + (2 ^ p.ew - 1) <<< p.mw

/-- The largest finite code of a sign (R34). -/
def fltMax (p : FltP) (neg : Bool) : Nat :=
  fltSign p neg + (if p.short then 2 ^ (p.ew + p.mw) - 1 else ((2 ^ p.ew - 1) <<< p.mw) - 1)

/-- The largest finite exponent (R34). -/
def fltEmax (p : FltP) : Int := (2 ^ p.ew : Nat) - (if p.short then 1 else 2) - (p.bias : Int)

def fltEmin (p : FltP) : Int := 1 - (p.bias : Int)

/-- The code of n · 2^ue, a value on the grid within range; a short float writes zero as +0 (R48). -/
def fltEncode (p : FltP) (neg : Bool) (n : Nat) (ue : Int) : Nat :=
  if n = 0 then (if p.short then 0 else fltSign p neg)
  else
    let e := log2Mag n ue
    let k := Nat.log2 n
    if e < fltEmin p then
      fltSign p neg + (n <<< (ue - (fltEmin p - (p.mw : Int))).toNat)
    else
      let sig := if k ≥ p.mw then n >>> (k - p.mw) else n <<< (p.mw - k)
      fltSign p neg + ((e + (p.bias : Int)).toNat <<< p.mw) + (sig - 2 ^ p.mw)

/-- The result of an overflow of a floating destination (R47): code and flags. -/
def overflowResult (p : FltP) (neg : Bool) (rm : RMode) (strict : Bool) : Nat × Nat :=
  let away := match rm with
    | .rne => true | .sr => true | .rtz => false | .ru => !neg | .rd => neg
  let base := flOverflow ||| flInexact
  if !p.short then (if away then fltInf p neg else fltMax p neg, base)
  else if strict && away then (fltNan p, base ||| flInvalid)
  else (fltMax p neg, base ||| flSat)

/-- Conversion to a floating format (R45 to R48, R54): code and flags. -/
def convFlt (p : FltP) (rm : RMode) (strict : Bool) (r : Nat) (v : Val) : Nat × Nat :=
  match v with
  | .nan _ => (fltNan p, 0)
  | .inf neg =>
    if !p.short then (fltInf p neg, 0)
    else if strict then (fltNan p, flInvalid) else (fltMax p neg, flSat)
  | .fin neg m e =>
    if m = 0 then (if p.short then 0 else fltSign p neg, 0)
    else
      let (n, ue, ex) := roundToGrid neg m e (p.mw + 1) (fltEmin p) rm r
      let ovf := n ≠ 0 && decide (log2Mag n ue > fltEmax p)
      if ovf then overflowResult p neg rm strict
      else
        -- tiny: rounded with unbounded exponent range, the magnitude lies below the smallest normal (R54)
        let ueU := log2Mag m e - (p.mw : Int)
        let (nU, _) := roundUnit rm neg m e ueU r
        let tiny := decide (log2Mag nU ueU < fltEmin p)
        (fltEncode p neg n ue,
          (if ex then 0 else flInexact) ||| (if !ex && tiny then flUnderflow else 0))

/-- Conversion to INT8 (R49): code and flags. -/
def convInt8 (rm : RMode) (r : Nat) (v : Val) : Nat × Nat :=
  match v with
  | .nan _ => (0, flInvalid)
  | .inf neg => (if neg then 0x80 else 0x7F, flInvalid ||| flSat)
  | .fin neg m e =>
    let (n, ex) := roundUnit rm neg m e 0 r
    let i : Int := if neg then -(n : Int) else n
    let fl := if ex then 0 else flInexact
    if i > 127 then (0x7F, fl ||| flInvalid ||| flSat)
    else if i < -128 then (0x80, fl ||| flInvalid ||| flSat)
    else (fromSigned 8 i, fl)

/-- Conversion to INT32, an output of integer tiles only (R49): code and flags. -/
def convInt32 (rm : RMode) (wrap : Bool) (r : Nat) (v : Val) : Nat × Nat :=
  match v with
  | .nan _ => (0, flInvalid)
  | .inf neg => (if neg then 0x80000000 else 0x7FFFFFFF, flInvalid ||| flSat)
  | .fin neg m e =>
    let (n, ex) := roundUnit rm neg m e 0 r
    let i : Int := if neg then -(n : Int) else n
    let fl := if ex then 0 else flInexact
    let inRange := decide (-(2 ^ 31 : Int) ≤ i) && decide (i < 2 ^ 31)
    if inRange then (fromSigned 32 i, fl)
    else if wrap then (fromSigned 32 i, fl ||| flWrap)
    else (if neg then 0x80000000 else 0x7FFFFFFF, fl ||| flSat)

/-- Conversion to any output format (R45 to R50). -/
def convTo (f : Fmt) (rm : RMode) (strict wrap : Bool) (r : Nat) (v : Val) : Nat × Nat :=
  match fmtFlt f with
  | some p => convFlt p rm strict r v
  | none => match f with
    | .int32 => convInt32 rm wrap r v
    | _ => convInt8 rm r v

/-- OCP export of an element code (R56): code, flags, and whether the block's scale byte becomes 0xFF. -/
def ocpExport (f : Fmt) (strict : Bool) (c : Nat) : Nat × Nat × Bool :=
  match f with
  | .f8e5 =>
    if c = 0x80 then (0x7F, 0, false)
    else if c % 128 ≥ 0x7C then
      if strict then (0x7F, flInvalid, false) else ((if c ≥ 128 then 0xFB else 0x7B), flSat, false)
    else (c, 0, false)
  | .f8e4 =>
    if c = 0x80 then (0x7F, 0, false)
    else if c % 128 = 0x7F then
      if strict then (0x7F, flInvalid, false) else ((if c ≥ 128 then 0xFE else 0x7E), flSat, false)
    else (c, 0, false)
  | .f6e3 => if c = 0x20 then (0, flInvalid ||| flOcpnan, true) else (c, 0, false)
  | .f6e2 => if c = 0x20 then (0, flInvalid ||| flOcpnan, true) else (c, 0, false)
  | .f4e2 => if c = 0x8 then (0, flInvalid ||| flOcpnan, true) else (c, 0, false)
  | _ => (c, 0, false)

/-- OCP import of an element code (R55): code and flags. -/
def ocpImport (f : Fmt) (istrict : Bool) (c : Nat) : Nat × Nat :=
  match f with
  | .f8e5 =>
    if c = 0x80 then (0, 0)
    else if c % 128 = 0x7C then
      if istrict then (0x80, flInvalid) else ((if c ≥ 128 then 0xFB else 0x7B), 0)
    else if c % 128 > 0x7C then (0x80, 0)
    else (c, 0)
  | .f8e4 => if c = 0x80 then (0, 0) else if c % 128 = 0x7F then (0x80, 0) else (c, 0)
  | .f6e3 => if c = 0x20 then (0, 0) else (c, 0)
  | .f6e2 => if c = 0x20 then (0, 0) else (c, 0)
  | .f4e2 => if c = 0x8 then (0, 0) else (c, 0)
  | _ => (c, 0)

/-! ## FP32 in C19 (R51) -/

def pC19 : FltP := ⟨8, 10, 127, false⟩
def pFp32 : FltP := ⟨8, 23, 127, false⟩

/-- CONV = 0: to nearest even; an overflow gives the largest finite C19. -/
def fp32ToC19 (c : Nat) : Nat :=
  let v := fltVal pFp32 c
  let (code, fl) := convFlt pC19 .rne false 0 v
  if fl &&& flOverflow ≠ 0 then fltMax pC19 (valNeg v) else code

/-- CONV = 1: truncation keeps sign, exponent and the upper ten fraction bits. -/
def fp32TruncC19 (c : Nat) : Nat :=
  if valIsNan (fltVal pFp32 c) then fltNan pC19
  else (bits c 31 1 <<< 18) + (bits c 23 8 <<< 10) + bits c 13 10

/-- CONV = 2: the lo part. For an infinite or NaN source it is +0. -/
def fp32LoC19 (c : Nat) : Nat :=
  match fltVal pFp32 c with
  | .fin neg m e =>
    let d := dySub (valDy (.fin neg m e)) (valDy (fltVal pC19 (fp32ToC19 c)))
    (convFlt pC19 .rne false 0 (valOfDy d)).1
  | _ => 0

/-! ## Maximum, minimum, addition and multiplication of values (R59, R82) -/

/-- Is a taken before b by minimum: −0 is less than +0. -/
def valLt (a b : Val) : Bool :=
  match a, b with
  | .inf na, .inf nb => na && !nb
  | .inf na, _ => na
  | _, .inf nb => !nb
  | a, b =>
    if valIsZero a && valIsZero b then valNeg a && !valNeg b else dyLt (valDy a) (valDy b)

/-- maximum of IEEE 754-2019: result and flags. -/
def valMax (a b : Val) : Val × Nat :=
  let fl := snanFlags a ||| snanFlags b
  if valIsNan a || valIsNan b then (.nan false, fl) else (if valLt a b then b else a, fl)

/-- minimum of IEEE 754-2019: result and flags. -/
def valMin (a b : Val) : Val × Nat :=
  let fl := snanFlags a ||| snanFlags b
  if valIsNan a || valIsNan b then (.nan false, fl) else (if valLt b a then b else a, fl)

/-- Exact sum before one rounding. The sign of an exact zero sum of opposite operands follows the rounding mode, as
IEEE 754-2019 has it: +0 but for rounding toward −∞. -/
def valAdd (rm : RMode) (a b : Val) : Val × Nat :=
  let fl := snanFlags a ||| snanFlags b
  match a, b with
  | .nan _, _ => (.nan false, fl)
  | _, .nan _ => (.nan false, fl)
  | .inf na, .inf nb => if na = nb then (.inf na, fl) else (.nan false, fl ||| flInvalid)
  | .inf na, _ => (.inf na, fl)
  | _, .inf nb => (.inf nb, fl)
  | a, b =>
    let s := dyAdd (valDy a) (valDy b)
    if s.m = 0 then
      let neg := if valIsZero a && valIsZero b && valNeg a == valNeg b then valNeg a else rm == .rd
      (.fin neg 0 0, fl)
    else (valOfDy s, fl)

/-- Exact product before one rounding. -/
def valMul (a b : Val) : Val × Nat :=
  let fl := snanFlags a ||| snanFlags b
  let s := valNeg a != valNeg b
  match a, b with
  | .nan _, _ => (.nan false, fl)
  | _, .nan _ => (.nan false, fl)
  | .inf _, b => if valIsZero b then (.nan false, fl ||| flInvalid) else (.inf s, fl)
  | a, .inf _ => if valIsZero a then (.nan false, fl ||| flInvalid) else (.inf s, fl)
  | .fin _ ma ea, .fin _ mb eb => (.fin s (ma * mb) (ea + eb), fl)

end Sys2Proof.Machine
end

