-- ==== Sys2Proof/Machine/Operands.lean ====
section
/-! DEFINITION. Operand and output format words and what decode refuses in them (R24 to R28), packing (R36, R41, R42),
and how Talus turns an element code into what the array sees: OCP import, declared conversion, K-direction scale,
operand exponent (R26, R37, R51, R55, R57, R65). -/

namespace Sys2Proof.Machine

/-- An operand format word (R25). -/
structure OpFmt where
  fmt     : Fmt
  scale   : Nat
  sdir    : Bool
  pack    : Nat
  conv    : Nat
  ocp     : Bool
  istrict : Bool
  rsvd    : Nat
  deriving DecidableEq, Repr

def opFmtOf (w : Nat) : OpFmt :=
  ⟨fmtOf (bits w 12 4), bits w 9 3, bit w 8, bits w 6 2, bits w 4 2, bit w 3, bit w 2, bits w 0 2⟩

/-- An output format word (R27). -/
structure OutFmt where
  fmt     : Fmt
  scale   : Nat
  sdir    : Bool
  rmode   : Nat
  strict  : Bool
  ocp     : Bool
  intwrap : Bool
  rsvd    : Nat
  deriving DecidableEq, Repr

def outFmtOf (w : Nat) : OutFmt :=
  ⟨fmtOf (bits w 12 4), bits w 9 3, bit w 8, bits w 5 3, bit w 4, bit w 3, bit w 2, bits w 0 2⟩

/-- The rounding mode of an output word that decode accepted. -/
def outRm (o : OutFmt) : RMode := (rmodeOf o.rmode).getD .rne

/-- Block size of a SCALE code (R25); 0: no block scale. -/
def blockSize (sc : Nat) : Nat :=
  match sc with
  | 1 => 8 | 2 => 16 | 3 => 32 | 4 => 64 | _ => 0

/-- Formats that may carry a block scale, and the only ones with an OCP encoding (R28, R38). -/
def mayScale : Fmt → Bool
  | .f8e5 => true | .f8e4 => true | .f6e3 => true | .f6e2 => true | .f4e2 => true | .int8 => true | _ => false

/-- Formats that always carry a block scale (R38). -/
def mustScale : Fmt → Bool
  | .f6e3 => true | .f6e2 => true | .f4e2 => true | _ => false

/-- The scale and OCP rules common to both words (R25, R27, R28). -/
def scaleOk (f : Fmt) (scale : Nat) (sdir ocp : Bool) : Bool :=
  decide (scale ≤ 4) && (!mustScale f || scale != 0) && (scale == 0 || mayScale f) && (!ocp || mayScale f) &&
  (scale != 0 || !sdir)

/-- May this format be an operand; U8 and U10 only in Patch mode (R24, R28). -/
def operandRole (f : Fmt) (patch : Bool) : Bool :=
  match f with
  | .int32 => false | .e8m0 => false | .ax64 => false | .u8 => patch | .u10 => patch | _ => true

/-- The combinations of R26. -/
def convOk (f : Fmt) (conv : Nat) : Bool :=
  match f with
  | .fp32 => conv ≤ 2 | .int4 => conv ≤ 1 | .u10 => conv ≤ 1 | _ => conv == 0

/-- An operand word that decode accepts (R25, R26, R28). -/
def opFmtOk (o : OpFmt) (patch : Bool) : Bool :=
  operandRole o.fmt patch && scaleOk o.fmt o.scale o.sdir o.ocp && convOk o.fmt o.conv &&
  (o.pack == 0 || o.fmt == .u10) && (!o.istrict || (o.ocp && o.fmt == .f8e5)) && o.rsvd == 0

/-- May this format be an output. INT32 is the output of integer tiles only (R28, R49). -/
def outputRole (f : Fmt) (intTile : Bool) : Bool :=
  match f with
  | .int4 => false | .e8m0 => false | .ax64 => false | .u8 => false | .u10 => false | .int32 => intTile | _ => true

/-- An output word that decode accepts (R27, R28). -/
def outFmtOk (o : OutFmt) (intTile : Bool) : Bool :=
  outputRole o.fmt intTile && scaleOk o.fmt o.scale o.sdir o.ocp && (rmodeOf o.rmode).isSome &&
  (!o.strict || isShort o.fmt) && (!o.intwrap || o.fmt == .int32) && !(o.ocp && o.fmt == .int8) && o.rsvd == 0

/-- The effective format at the array (R26). -/
def effFmt (o : OpFmt) : Fmt :=
  match o.fmt with
  | .fp32 => .c19
  | .int4 => if o.conv = 1 then .int8 else .int4
  | .u8 => .bf16
  | .u10 => if o.conv = 1 then .c19 else .fp16
  | f => f

def isIntFmt (f : Fmt) : Bool := f == .int8 || f == .int4

/-! ## Packing (R36, R41) -/

/-- A packing group: its bytes, the lowest bit of each element in it, and the element's width. -/
structure PackGrp where
  bytes : Nat
  pos   : List Nat
  width : Nat
  deriving DecidableEq, Repr

def packGrp (f : Fmt) (pack : Nat) : PackGrp :=
  match f with
  | .fp32 => ⟨4, [0], 32⟩ | .c19 => ⟨4, [0], 32⟩ | .int32 => ⟨4, [0], 32⟩
  | .fp16 => ⟨2, [0], 16⟩ | .bf16 => ⟨2, [0], 16⟩
  | .ax64 => ⟨8, [0], 64⟩
  | .int4 => ⟨1, [0, 4], 4⟩ | .f4e2 => ⟨1, [0, 4], 4⟩
  | .f6e3 => ⟨3, [0, 6, 12, 18], 6⟩ | .f6e2 => ⟨3, [0, 6, 12, 18], 6⟩
  | .u10 => match pack with
    | 0 => ⟨2, [0], 10⟩ | 1 => ⟨2, [6], 10⟩ | 2 => ⟨4, [0, 10, 20], 10⟩ | _ => ⟨5, [0, 10, 20, 30], 10⟩
  | _ => ⟨1, [0], 8⟩

/-- Bytes of a row of n elements (R36, R42). -/
def rowBytes (f : Fmt) (pack n : Nat) : Nat :=
  let g := packGrp f pack
  cdiv n g.pos.length * g.bytes

def unpackGroups (g : PackGrp) : Nat → List Byte → List Nat
  | 0, _ => []
  | k + 1, bs =>
    let x := leNat (bs.take g.bytes)
    g.pos.map (fun p => bits x p g.width) ++ unpackGroups g k (bs.drop g.bytes)

/-- The codes of a row of n elements; bytes that are missing read as zero. -/
def unpackRow (f : Fmt) (pack n : Nat) (bs : List Byte) : List Nat :=
  let g := packGrp f pack
  (unpackGroups g (cdiv n g.pos.length) bs).take n

def packGroups (g : PackGrp) : Nat → List Nat → List Byte
  | 0, _ => []
  | k + 1, cs =>
    let x := ((g.pos.zip cs).map (fun pc => (pc.2 % 2 ^ g.width) <<< pc.1)).foldl (· + ·) 0
    leBytes g.bytes x ++ packGroups g k (cs.drop g.pos.length)

/-- A row of codes as bytes, its last byte or group padded with zero codes (R36). -/
def packRow (f : Fmt) (cs : List Nat) : List Byte :=
  let g := packGrp f 0
  packGroups g (cdiv cs.length g.pos.length) cs

/-! ## Elements at the array -/

/-- One operand element as the array sees it: its exact value with its K-direction scale applied, its operand exponent
(R65), and what it came from. -/
structure Elem where
  val     : Val
  oe      : Int
  special : Bool   -- the original operand was infinite or NaN (R81)
  flags   : Nat    -- flags that reading it sets (R31, R51, R55)
  zero    : Bool   -- a zero code (R37)
  deriving DecidableEq, Repr

/-- The operand exponent of a finite non-zero code of an effective format (R65). For INT4, whose tiles are never
scaled, no exponent is ever used. -/
def effOexp (f : Fmt) (mx : Bool) (c : Nat) : Int :=
  match fmtFlt f with
  | some p => fltOexp p c
  | none => if mx then 1 else 7

/-- The code at the array after OCP import and the declared conversion, and the flags of reading it (R26, R51, R55). -/
def importCode (o : OpFmt) (c : Nat) : Nat × Nat :=
  let (c, fl) := if o.ocp then ocpImport o.fmt o.istrict c else (c, 0)
  let fl := fl ||| snanFlags (codeVal o.fmt c)
  match o.fmt with
  | .fp32 => (if o.conv = 1 then fp32TruncC19 c else fp32ToC19 c, fl)
  | .int4 => (if o.conv = 1 then fromSigned 8 (toSigned 4 c) else c, fl)
  | .u8 => ((convFlt ⟨8, 7, 127, false⟩ .rne false 0 (.fin false (c % 256) 0)).1, fl)
  | .u10 => ((convFlt (if o.conv = 1 then pC19 else ⟨5, 10, 15, false⟩) .rne false 0 (.fin false (c % 1024) 0)).1, fl)
  | _ => (c, fl)

/-- MXINT8 elements carry a factor 2^-6, applied with their scale (R57). (DEDUCED, log 123) -/
def mxInt8 (o : OpFmt) : Bool := o.ocp && o.fmt == .int8 && o.scale != 0

/-- An element at the array from a code of the effective format and its K-direction scale code, if any. -/
def elemOfEff (f : Fmt) (mx : Bool) (c : Nat) (fl : Nat) (ks : Option Nat) : Elem :=
  let v := codeVal f c
  let v := if mx then valScale v (-6) else v
  let z := valIsZero v
  match ks with
  | none => ⟨v, effOexp f mx c, valIsNan v || (match v with | .inf _ => true | _ => false), fl, z⟩
  | some s =>
    if s = 255 then ⟨.nan false, 0, true, fl, false⟩
    else ⟨valScale v ((s : Int) - 127), effOexp f mx c + ((s : Int) - 127),
          valIsNan v || (match v with | .inf _ => true | _ => false), fl, z⟩

/-- An operand element from its stored code (the hi part of a split one); mx: in a scaled-integer tile the factor of
MXINT8 enters here (R65), in an integer tile the drain applies it with the outer scale. Whether it is a zero code is
asked of the stored code, not of what the array takes it for (R37). -/
def elemOf (o : OpFmt) (mx : Bool) (c : Nat) (ks : Option Nat) : Elem :=
  let (c', fl) := importCode o c
  { elemOfEff (effFmt o) (mx && mxInt8 o) c' fl ks with zero := ks != some 255 && valIsZero (codeVal o.fmt c) }

/-- The lo part of a split FP32 element (R51, R81). -/
def elemLo (c : Nat) : Elem :=
  let e := elemOfEff .c19 false (fp32LoC19 c) 0 none
  { e with special := match fltVal pFp32 c with | .fin _ _ _ => false | _ => true }

/-- A zero element: what the block reads where a row has no element. -/
def elemZero : Elem := ⟨.fin false 0 0, 0, false, 0, true⟩

end Sys2Proof.Machine
end

