-- ==== Sys2Proof/Machine/Dot.lean ====
section
/-! DEFINITION. Dot-product arithmetic (R61 to R81): ceilings, the segment window, CX carries, the AX64 accumulator, the
special values, outer scales and signed zeros. A group is the list of its terms, each an activation and a weight. -/

namespace Sys2Proof.Machine

/-- A term: activation and weight (R63). -/
abbrev Term := Elem × Elem

def finNonzero (v : Val) : Bool :=
  match v with
  | .fin _ m _ => m != 0
  | _ => false

def maxO (a : Option Int) (e : Int) : Option Int :=
  match a with
  | none => some e
  | some x => some (max x e)

/-- group_ceiling of R66. -/
def groupCeiling (g : List Term) : Option Int :=
  let ea := g.foldl (fun a t => if finNonzero t.1.val then maxO a t.1.oe else a) none
  let ew := g.foldl (fun a t => if finNonzero t.2.val then maxO a t.2.oe else a) none
  match ea, ew with
  | some x, some y => some (x + y)
  | _, _ => none

/-- The exact product of two values; not finite: none. -/
def finProd (a w : Val) : Option Dy :=
  match a, w with
  | .fin _ _ _, .fin _ _ _ => some (dyMul (valDy a) (valDy w))
  | _, _ => none

/-- segment_sum of R67 for a window whose least bit is 2^l: the sum and the sticky bit. -/
def segmentSum (g : List Term) (l : Int) : Int × Bool :=
  g.foldl (fun (acc : Int × Bool) t =>
    match finProd t.1.val t.2.val with
    | none => acc
    | some p =>
      let (m, d) := truncMag p.m.natAbs p.e l
      (acc.1 + (if p.m < 0 then -(m : Int) else (m : Int)), acc.2 || d)) (0, false)

/-- A zero product of negative sign (R68). -/
def negZeroProd (t : Term) : Bool :=
  match t.1.val, t.2.val with
  | .fin na ma _, .fin nb mb _ => (ma == 0 || mb == 0) && (na != nb)
  | _, _ => false

/-- The negative-zero flag of a group (R68). -/
def groupZ (g : List Term) : Bool := g.all negZeroProd

/-- A CX carry (R68, R69). -/
structure Cx where
  s   : Bool
  x   : Nat
  sig : Nat
  t   : Bool
  deriving DecidableEq, Repr

def cxDy (c : Cx) : Dy := ⟨if c.s then -(c.sig : Int) else (c.sig : Int), (c.x : Int) - 550⟩

/-- cx_merge of R69. -/
def cxMerge (c : Option Cx) (s : Int) (l : Int) (t z : Bool) : Cx :=
  let (v, st, zz) : Dy × Bool × Bool := match c with
    | none => (⟨s, l⟩, t, z)
    | some c => (dyAdd (if c.sig = 0 then dyZero else cxDy c) ⟨s, l⟩, c.t || t, (c.sig == 0 && c.s) && z)
  if v.m = 0 then ⟨zz, 0, 0, st⟩
  else
    let e := log2Mag v.m.natAbs v.e
    let (sig, d) := truncMag v.m.natAbs v.e (e - 39)
    ⟨v.m < 0, (e + 511).toNat, sig, st || d⟩

/-- One group onto the carry of its pass (R67 to R69). A group without a ceiling contributes an exact zero (R66). -/
def cxGroup (c : Option Cx) (g : List Term) : Option Cx :=
  if g.isEmpty then c else
  match groupCeiling g with
  | none => some (cxMerge c 0 0 false (groupZ g))
  | some ce =>
    let (s, t) := segmentSum g (ce - 34)
    some (cxMerge c s (ce - 34) t (groupZ g))

/-- The CX of a pass from its groups in order; none: a pass without terms (R63, R69). -/
def passCx (gs : List (List Term)) : Option Cx := gs.foldl cxGroup none

/-- The exact integer sum of a pass of an integer tile without K-direction scales (R78). -/
def passInt (gs : List (List Term)) : Dy :=
  gs.foldl (fun acc g => g.foldl (fun (a : Dy) t => match finProd t.1.val t.2.val with
    | none => a
    | some p => dyAdd a p) acc) dyZero

/-! ## AX64 (R40, R70) -/

def axZeroNeg : Nat := 1 <<< 63
def axNan : Nat := 0x7FE8000000000000
def axInf (neg : Bool) : Nat := (if neg then 1 <<< 63 else 0) + (0x3FF <<< 53)

def axIsInf (w : Nat) : Bool := bits w 53 10 == 0x3FF && bits w 0 53 == 0
def axIsNan (w : Nat) : Bool := bits w 53 10 == 0x3FF && bits w 0 53 != 0

/-- ax_add of R70 on a finite accumulator, with the two further cases. -/
def axAdd (acc : Nat) (vIn : Dy) (zIn t : Bool) : Nat :=
  let v := dyAdd (axDy acc) vIn
  if v.m = 0 then (if bit acc 63 && bits acc 0 53 == 0 && zIn then axZeroNeg else 0)
  else
    let neg := decide (v.m < 0)
    let m := v.m.natAbs
    let sgn := if neg then 1 <<< 63 else 0
    let e := log2Mag m v.e
    let ue := max e (-510) - 52
    let (n, up) :=
      if v.e ≥ ue then (m <<< (v.e - ue).toNat, false)
      else
        let d := (ue - v.e).toNat
        let n := m >>> d
        let rem := m % (1 <<< d)
        (n, 2 * rem > 1 <<< d || (2 * rem == 1 <<< d && (t || n % 2 == 1)))
    let n := if up then n + 1 else n
    let (n, ue) := if n = 2 ^ 53 then (2 ^ 52, ue + 1) else (n, ue)
    if n = 0 then 0
    else if n < 2 ^ 52 then sgn + n
    else if ue + 52 > 511 then axInf neg
    else sgn + ((ue + 52 + 511).toNat <<< 53) + n

/-- What an element's terms and other inputs have shown so far: the finite accumulator and the special inputs of R75. -/
structure AccSt where
  acc     : Nat
  nanIn   : Bool
  infZero : Bool
  pinf    : Bool
  ninf    : Bool
  flags   : Nat
  deriving DecidableEq, Repr

/-- A finite word as the block writes it: SIG[52] is set exactly in a normal value (R40). -/
def axNorm (w : Nat) : Nat :=
  if bits w 0 53 = 0 then (if bit w 63 then axZeroNeg else 0) else axAdd 0 (axDy w) false false

/-- The starting content (R70, R75). -/
def accStart (w : Nat) : AccSt :=
  if axIsNan w then ⟨axZeroNeg, true, false, false, false, 0⟩
  else if axIsInf w then ⟨axZeroNeg, false, false, !bit w 63, bit w 63, 0⟩
  else ⟨axNorm w, false, false, false, false, 0⟩

/-- A cleared accumulator: −0, the empty sum (R70). -/
def accClear : AccSt := accStart axZeroNeg

/-- An exact addition to the finite accumulator; once it overflows it counts as an infinite value (R70, R75). -/
def accAddDy (a : AccSt) (v : Dy) (z t : Bool) : AccSt :=
  if axIsInf a.acc then a
  else
    let w := axAdd a.acc v z t
    { a with acc := w, pinf := a.pinf || (axIsInf w && !bit w 63), ninf := a.ninf || (axIsInf w && bit w 63) }

/-- A split-K partial sum or a merge accumulator joins (R71, R75). -/
def accAddWord (a : AccSt) (w : Nat) : AccSt :=
  if axIsNan w then { a with nanIn := true }
  else if axIsInf w then { a with pinf := a.pinf || !bit w 63, ninf := a.ninf || bit w 63 }
  else accAddDy a (axDy w) (bit w 63 && bits w 0 53 == 0) false

/-- The special values among a term's operands (R75), and the flags of reading them. -/
def accTerm (a : AccSt) (t : Term) : AccSt :=
  let a := { a with flags := a.flags ||| t.1.flags ||| t.2.flags }
  match t.1.val, t.2.val with
  | .nan _, _ => { a with nanIn := true }
  | _, .nan _ => { a with nanIn := true }
  | .fin _ _ _, .fin _ _ _ => a
  | x, y =>
    if valIsZero x || valIsZero y then { a with infZero := true }
    else if valNeg x != valNeg y then { a with ninf := true } else { a with pinf := true }

/-- One pass or sub-pass of a floating or scaled-integer tile (R69, R70, R75, R79). -/
def accPass (a : AccSt) (gs : List (List Term)) : AccSt :=
  let a := gs.foldl (fun a g => g.foldl accTerm a) a
  match passCx gs with
  | none => a
  | some c => accAddDy a (if c.sig = 0 then dyZero else cxDy c) (c.s && c.sig == 0) c.t

/-- One pass of an integer tile without K-direction scales (R78). -/
def accPassInt (a : AccSt) (gs : List (List Term)) : AccSt :=
  let a := gs.foldl (fun a g => g.foldl accTerm a) a
  if gs.all (·.isEmpty) then a else accAddDy a (passInt gs) (gs.all groupZ) false

/-- The terms of a hi·lo or lo·hi sub-pass: a zero product and a product of an infinite or NaN original are none
(R81). -/
def loTerms (g : List Term) : List Term :=
  g.filter (fun t => !t.1.special && !t.2.special &&
    (match finProd t.1.val t.2.val with | some p => p.m != 0 | none => false))

/-- The outcome of an element (R75): its value, and whether a NaN was generated. -/
def accVal (a : AccSt) : Val × Bool :=
  if a.nanIn then (.nan false, false)
  else if a.infZero || (a.pinf && a.ninf) then (.nan false, true)
  else if a.pinf then (.inf false, false)
  else if a.ninf then (.inf true, false)
  else (axVal a.acc, false)

/-- The AX64 word that holds the outcome (R40, R75). -/
def accWord (a : AccSt) : Nat :=
  match accVal a with
  | (.nan _, _) => axNan
  | (.inf n, _) => axInf n
  | _ => a.acc

/-- The flags of a dot product: a generated NaN sets INVALID, a signalling NaN operand INVALID and SNAN (R75). -/
def accFlags (a : AccSt) : Nat := a.flags ||| (if (accVal a).2 then flInvalid else 0)

/-- Outer scales (R73): a code 0xFF makes the element NaN of origin input, any other multiplies exactly. mxa, mxw: the
factor 2^-6 of an MXINT8 operand comes with its scale (R57). -/
def outerScale (a : AccSt) (sa sw : Option Nat) (mxa mxw : Bool) : Val × Bool :=
  if sa = some 255 || sw = some 255 then (.nan false, false)
  else
    let (v, g) := accVal a
    let k (s : Option Nat) (mx : Bool) : Int := match s with
      | none => 0
      | some c => (c : Int) - 127 - (if mx then 6 else 0)
    (valScale v (k sa mxa + k sw mxw), g)

/-! ## Check carriers (R364, R365) -/

/-- A check carrier: a sign, an exponent and a significand of at most 56 bits, sig · 2^x. -/
structure Chk where
  neg : Bool
  x   : Int
  sig : Nat
  deriving DecidableEq, Repr

def Chk.zero : Chk := ⟨false, 0, 0⟩

def Chk.dy (c : Chk) : Dy := ⟨if c.neg then -(c.sig : Int) else (c.sig : Int), c.x⟩

/-- A sum held as a check carrier: truncated toward zero to 56 bits (R364). -/
def chkOf (d : Dy) : Chk :=
  if d.m = 0 then Chk.zero
  else
    let e := log2Mag d.m.natAbs d.e
    if e - 55 ≤ d.e then ⟨decide (d.m < 0), d.e, d.m.natAbs⟩
    else ⟨decide (d.m < 0), e - 55, (truncMag d.m.natAbs d.e (e - 55)).1⟩

/-- The exact sum of values; zeros, infinities and NaNs contribute nothing (R364). -/
def finSum (vs : List Val) : Dy := vs.foldl (fun a v => dyAdd a (valDy v)) dyZero

/-- A check carrier as an operand; its operand exponent is that of its leading bit. (DEDUCED, log 11) -/
def Chk.elem (c : Chk) : Elem := ⟨valOfDy c.dy, log2Mag c.sig c.x, false, 0, c.sig == 0⟩

/-- Groups by the procedure of R66 to R69 with windows and carries of 56 bits (R365). -/
def chkSum (gs : List (List Term)) : Dy :=
  (gs.foldl (fun (c : Chk) g => match groupCeiling g with
    | none => c
    | some ce => chkOf (dyAdd c.dy ⟨(segmentSum g (ce - 50)).1, ce - 50⟩)) Chk.zero).dy

/-- The magnitude bound G of a pass's groups (R365). -/
def chkBound (gs : List (List Term)) : Dy :=
  gs.foldl (fun b g => match groupCeiling g with | none => b | some ce => dyAdd b ⟨1, ce + 6⟩) dyZero

def dyAbs (d : Dy) : Dy := ⟨d.m.natAbs, d.e⟩

/-- The comparison of R366: sums that must be equal, or lie within 2^-TAUEXP of the magnitude bound. -/
def chkPass (exact : Bool) (tau : Nat) (r t g : Dy) : Bool :=
  if exact then (dySub r t).m == 0 else dyLe (dyAbs (dySub r t)) (dyScale g (-(tau : Int)))

end Sys2Proof.Machine
end

