-- ==== Sys2Proof/Config.lean ====
section
/-! DEFINITION. What the spec leaves open: opaque constants that no proof can evaluate. Each is named in the
assumption log. -/

namespace Sys2Proof.Config

/-- Free values: the n-th value the spec leaves open in a run. (DESIGN CHOICE, log 3) -/
opaque freeValue : Nat → Nat

/-- Does the microcode of a UCODE section identify stepping A2? Its form is the block's own (R383).
(DESIGN CHOICE, log 22) -/
opaque ucodeFits : List Byte → Bool

end Sys2Proof.Config
end

