-- ==== Sys2Proof/Machine/State.lean ====
section
/-! DEFINITION. The state of the block as plain data: its registers, Mica, veins, streams, arrays, links, time, and the
queue of commands that wait. Register contents live in one sparse store keyed by byte address; what the spec gives the
block without a register stands beside it. -/

namespace Sys2Proof.Machine

/-- A register field: its lowest bit and its width. -/
structure Field where
  lo    : Nat
  width : Nat
  deriving DecidableEq, Repr

/-- A row of the register index (R411): base address, stride and count of a repeated group, the masks of RW, RWL, W1C
and WO bits (R7), and the reset value. -/
structure RegRow where
  base   : Nat
  stride : Nat
  count  : Nat
  rw     : Nat
  rwl    : Nat
  w1c    : Nat
  wo     : Nat
  reset  : Nat
  deriving DecidableEq, Repr

/-- Faults of the model. No rule of the spec halts the block itself, so no meaning raises one. -/
inductive Fault where
  /-- Raised by no command; kept so that the type has a name for a state that no rule reaches. Safe. -/
  | impossible
  deriving DecidableEq, Repr

/-- Refusals of the model. -/
inductive Refusal where
  /-- A command without a meaning yet; raised by Dispatch only. Safe: the model stops. -/
  | notModelled (mnemonic : String)
  deriving DecidableEq, Repr

/-- Start-up states (R335). -/
inductive Su where
  | off | clamped | reset | load | selftest | linkup | linkupDone | timelock | ready | run | safe | fatal
  deriving DecidableEq, Repr

/-! ## Veins -/

/-- A fetched command: the slot count it was read at, its words (4, or 8 for a two-slot command). -/
structure Cmd where
  slot  : Nat
  words : List W64
  deriving DecidableEq, Repr

/-- A command group of a vein (R197): commands read into it, commands issued from it, whether its last command has been
read, whether it is admitted, and its history of deferrals (R11, R268). -/
structure VGroup where
  size     : Nat
  issued   : Nat
  closed   : Bool
  mark     : Bool    -- a MARK FRAME or NEXT by itself (R199)
  work     : Bool    -- it holds work commands that decode accepts (R198)
  admitted : Bool
  deferred : Nat     -- consecutive ticks at which it was deferred (R268)
  waited   : Nat     -- ticks at which it was deferred, eligible or not (R266)
  since    : Nat     -- when it was first deferred: the number of that consideration; 0: it is not deferred (R11)
  back     : Bool    -- deferred: it is considered again at the next tick (R11)
  frame    : Nat     -- the frame into which it was admitted (R10)
  late     : Nat     -- the frame ended before its commands issued: 1 under CONTINUE, 2 under ABANDON (R243)
  ests     : List (Option (Nat × Nat))  -- for each command that has not issued its estimate (nJ, clocks); none: no
                     -- work command, or one that decode will refuse (R198)
  deriving DecidableEq, Repr

/-- What a vein's last issued command waits for (R161, R216 to R218). -/
inductive Wait where
  | sem (sem count timeout ticks order : Nat)   -- ticks counted so far; order of issue among waiters
  | barrier (num mask : Nat)
  | markFrame (frame : Nat)
  | markNext
  | yield (clocks : Nat)
  deriving DecidableEq, Repr

/-- An item of a lane (R118, R123): element (row, col), segment seg with its first and last chunk. -/
structure Item where
  row  : Nat
  col  : Nat
  seg  : Nat
  deriving DecidableEq, Repr

/-- A lane of an array in lane mode (R118, R119, R126). -/
structure Lane where
  array : Nat
  lane  : Nat
  queue : List Item
  cur   : Option Item
  ended : List Item
  deriving DecidableEq, Repr

/-- Parts of a compressed operand as taken from its streams (R109, R110): absolute start positions. -/
structure SpRd where
  ptr   : Nat
  idx   : Nat
  val   : Nat
  clist : Nat
  cval  : Nat
  scl   : Nat
  deriving DecidableEq, Repr

/-- A weight tile in the weight registers of an array (R87, R91): for each K row the stored code and the K-direction
scale code of every unmasked column, no entry for a row that the mask skipped (R130), and the weight check of each row
in column 64 (R364). -/
structure WTile where
  vein : Nat
  seq  : Nat
  nt   : Nat
  corr : Bool
  pass : Nat
  sub  : Nat
  cls  : Nat              -- its MAC class and its unmasked columns, for the dummy rows that meet it (R263)
  cols : Nat
  rows : List (List (Nat × Option Nat))
  sums : List Chk
  deriving DecidableEq, Repr

/-- What the checks of a tile have to work on once its rows are through (R364, R365): the elements of each row as its
feeder gave them, and the weight registers of each array with column 64's sums. -/
structure PassRec where
  pass : Nat
  sub  : Nat
  acts : List (Nat × List Elem)
  regs : List (Nat × WTile)
  deriving DecidableEq, Repr

/-- Errors of the physics in a row's sums of one pass and sub-pass, and whether its row check failed there (R366,
R369). -/
structure RowErr where
  row   : Nat
  pass  : Nat
  sub   : Nat
  cxs   : List SumErr
  check : List SumErr
  tally : List SumErr
  fails : Bool
  deriving DecidableEq, Repr

/-- An N tile in flight: its rows checked and held, committed, void. -/
structure NtSt where
  nt      : Nat
  corr    : Bool          -- it runs in the correction pass (R132)
  sparse  : Bool          -- lane mode (R121)
  auxIn   : Bool          -- its split-K partial sums have been waited for (R71, R208)
  auxOrd  : Option Nat    -- it waits for them: the order of its wait among those on its semaphore (R161, R208)
  summed  : Bool          -- and they have been added to its accumulators
  full    : Bool          -- every pass has entered
  checked : List Nat      -- rows that passed their check and wait for their row group (R180)
  done    : List Nat      -- rows committed
  failed  : List Nat      -- rows in the ladder (R370)
  voided  : List Nat      -- void rows that have drained (R131)
  lanes   : List Lane
  accs    : List (Nat × List AccSt)  -- drain accumulators of its rows (R70, R177)
  cur     : Option (Nat × Nat)       -- pass and sub-pass whose tile its arrays hold and whose rows have not been added
  drained : List (Nat × Nat)         -- rows that an array's drain has taken: row, array (R188)
  spill   : Option (List Nat × Nat × Nat)  -- preempted: the arrays that spilled it, and where it goes on (R225)
  tiles   : List PassRec             -- its tiles that are through, for the checks (R365)
  errs    : List RowErr              -- errors in the sums of rows that have drained (R366)
  deriving DecidableEq, Repr

/-- A retry ladder of a command on one array (R370 to R372). -/
structure Ladder where
  nt    : Nat
  corr  : Bool
  rows  : List Nat        -- failing rows
  array : Nat             -- array that computed them
  step  : Nat             -- 0: rows of the array still drain. 1: they run again on the same array. 2: on another
  other : Option Nat      -- array of step 2; none: it waits for one
  sus   : List Nat        -- suspects: physical columns, 67 the array (R369)
  det   : Nat             -- detector that began it
  pass  : Nat             -- first pass that failed
  inj   : Bool            -- caused by Flint
  deriving DecidableEq, Repr

/-- A command in flight, or complete and not retired (R201). -/
structure Job where
  op      : Nat
  seq     : Nat
  slot    : Nat
  words   : List W64
  tenant  : Nat
  inFrame : Bool          -- counts toward the current frame's token (R16)
  frame   : Nat           -- frame of admission or, for control commands, of issue (R410)
  tissue  : Nat           -- timestamp of issue
  step    : Nat           -- the vein's step number at issue (R52)
  estE    : Nat           -- energy estimate, nJ
  estT    : Nat           -- time estimate, clocks
  conds   : List Nat      -- status codes of the conditions it met (R226)
  fin     : Bool          -- nothing more of it runs; it completes at its COMMAND_COMPLETE
  done    : Bool          -- complete (R15)
  arrays  : List Nat      -- claim set, ascending (R202)
  nt      : Nat           -- next tile to enter: N tile, pass, sub-pass
  pass    : Nat
  sub     : Nat
  corr    : Bool          -- the normal tiles have all entered; the correction pass runs (R132)
  entered : Bool          -- a tile of it has entered
  nts     : List NtSt
  ntDone  : Nat           -- N tiles committed in full
  hValid  : Bool          -- latched VALID and COUNT ≥ 1 of the scale history (R186)
  hMax    : Nat           -- latched HMAX, FP32
  mask    : Nat           -- latched predictor mask (R128)
  amax    : Option Nat    -- amax of the committed elements, FP32 (R183)
  any     : Bool          -- some element has committed
  nonzero : Nat           -- OBSERVE: bit g set when a committed output of group g is not a zero code (R127)
  oPos    : Nat           -- first position of its output in the output stream
  osPos   : Nat           -- and in the scale output stream
  prog    : Nat           -- elements or records done (ELEMWISE, GRAD_EMIT), parts or domains done
  aPos    : Nat           -- stream positions at which its linear operands or rows begin
  aScl    : Nat
  bPos    : Nat
  bScl    : Nat
  xPos    : Nat           -- and its accumulator input
  dscW    : List Nat      -- its Patch or sparse descriptor as read at issue (R171, R211)
  spA     : SpRd
  spW     : SpRd
  voids   : List (Nat × Nat)  -- void rows: (N tile, row) (R131)
  holds   : List (Nat × Nat × Nat)  -- bytes still needed: (N tile, stream, lowest position) (R150)
  starts  : List (Nat × Nat)  -- streams it reads or writes, and where it began (R204)
  rerun   : Bool          -- the drain arithmetic has disagreed once (R375, DRAIN_DUP)
  beat    : Nat           -- beats of the present gradient record that have left (R341)
  ladders : List Ladder
  spilled : Bool          -- preempted: it holds no arrays until the filler may run again (R225)
  preempt : Bool          -- a ready non-filler command waits for its arrays (R225)
  redo    : List Nat      -- N tiles still to enter again after ABANDON or a lost array (R243, R380)
  resume  : Option Nat    -- and the N tile that follows them
  missed  : List (Nat × Nat)  -- void rows that PX_SHL_MISS has counted: (N tile, row) (R131)
  skips   : List Nat      -- N tiles whose skipped weight rows PX_SHL_SKIP has counted (R130)
  served  : List Nat      -- arrays that have served it (R410)
  dup     : Bool          -- the duplicated drain arithmetic disagrees in the range or record at hand (R375)
  payload : List Byte     -- the gradient record that has begun to leave (R347)
  deriving DecidableEq, Repr

/-- A vein beside its registers. -/
structure VeinSt where
  held     : List Cmd        -- read, not issued: the prefetch, and behind it what the scan of the group read (R196, R197)
  fresh    : Nat             -- how many of them are in the prefetch; the others are read again as issue proceeds (R197)
  groups   : List VGroup     -- head group first
  fetchBad : Option (Nat × Nat)  -- fetching halted: status and expected SEQ (R194, R196, R204)
  restart  : Bool            -- SEQ mode after RESET: polling waits for a write of TAIL (R204)
  emptied  : Bool            -- MEM mode: the tail word is to be read
  left     : Nat             -- the state that SUSPENDED or FENCED left (R206)
  suspended : Bool
  fenced   : Bool
  wait     : Option Wait
  lost     : Bool            -- a grid point was missed while it waited on a tick (R246)
  jobs     : List Job        -- issued, not retired, in SEQ order
  retry    : Bool            -- the head is a command of RESUME_RETRY
  retryAt  : List (Nat × Nat)  -- streams and positions that the retried command had (R204)
  stale    : Bool            -- a WGEN_STALE waits for MARK LAYER or MARK STEP (R352)
  stamp    : Nat             -- when it issued last (R269)
  wrote    : List (Nat × Nat)  -- streams its commands wrote and the positions reached (R164)
  stepBack : Bool            -- YIELD 0: behind every other ready vein once (R218)
  waitOn   : Nat             -- what the head command was found to wait for at issue: 4 claim, 5 stream slot, 8 filler
  deriving DecidableEq, Repr

/-! ## Streams, multicast -/

/-- A sequence of a stream: its first position in the byte FIFO, its length and its base address. -/
structure SeqRec where
  start : Nat
  len   : Nat
  xbase : Nat
  deriving DecidableEq, Repr

/-- A filled or filling half, or a whole landing buffer: positions start to start + len (R149). -/
structure Chunk where
  start  : Nat
  len    : Nat
  half   : Nat
  filled : Nat     -- bytes that landed, or that the producer has written
  deriving DecidableEq, Repr

/-- A request of a stream at a Deep port or on a link: positions pos to pos + len. -/
structure Req where
  port : Nat
  tag  : Nat
  pos  : Nat
  len  : Nat
  deriving DecidableEq, Repr

/-- A stream beside its descriptor registers. -/
structure StreamSt where
  seqs   : List SeqRec
  asked  : Nat         -- positions below have been asked for, or sent
  outst  : List Req
  taken  : Nat         -- positions below have been given to a consumer, or written by a producer's command
  chunks : List Chunk
  half   : Nat         -- half of the next chunk
  rearm  : Option Nat  -- held re-arm: its XBASE (R151)
  stamp  : Option (Nat × Nat × Bool)  -- WLOAD: parameter group, generation, stale (R212)
  nextStamp : Option (Nat × Nat × Bool) -- stamp of the held re-arm
  seen   : Bool        -- Talus has read bytes of the current sequence (R258)
  act    : Nat × Nat   -- operand bits that changed and that were compared over the sequence (R258)
  lanes  : List (Nat × List Nat)  -- the last elements on the lanes of each array's feeder (R258)
  rot    : Nat         -- rotation over the Deep ports (R148)
  mcSent : Nat         -- positions below have been sent to the multicast group
  next   : Nat         -- the first position that has been given no room yet (R149)
  turn   : List (Nat × Byte × Bool)  -- bytes in its turn unit: FIFO position, byte, poisoned (R144)
  bad    : List Nat    -- words that a burst of the present fill has poisoned (R143, R414)
  skip   : List (Nat × Nat)  -- positions that were not fetched, since the mask skips them: first, length (R130)
  deriving DecidableEq, Repr

/-- A multicast group beside its register (R155 to R158). Credit counts parcels. -/
structure McSt where
  stream  : Option Nat      -- root: the stream whose sequence is being sent
  sq      : Nat             -- root: its sequence count. member: the sequence it receives
  parcel  : Nat             -- parcel being sent or received, modulo 2^24 (R292)
  fill    : Nat             -- bytes of that parcel sent or received
  creds   : List (Nat × Nat × Nat)   -- credit from each forwarding link: link, sequence, first parcel not credited
  sentUp  : Option (Nat × Nat)       -- credit returned upstream: sequence, first parcel not credited
  queue   : List Byte       -- member: bytes received that wait for room
  stallTicks : Nat          -- ticks without credit
  deriving DecidableEq, Repr

/-! ## Arrays -/

/-- Power state of an array (R104 to R107, R280); waiting: its switch is to close once another has closed (R418). -/
inductive Pow where
  | full | rampDown | idle | opened | waiting | closing | rampUp
  deriving DecidableEq, Repr

/-- An array beside its registers. -/
structure ArrSt where
  pow      : Pow
  gap      : Bool           -- a gap has run for the keeper limit (R106, R264)
  fenced   : Bool           -- out of service by cleave, AUTOCLEAVE or SELFTEST
  fencing  : Option (Option (Nat × Nat))   -- a cleave in progress: its command, or none when it is automatic
  returning : Option (Nat × Nat)
  resident : Bool           -- its active registers hold a tile
  active   : Option WTile   -- the tile in its active registers, and in its shadow registers (R91, R92)
  shadow   : Option WTile
  random   : Bool           -- the keeper has written random patterns into the active registers (R104)
  dummies  : Bool           -- the keeper may have entered dummy rows since the tick (R263)
  preramp  : Bool           -- held at full admission for the next tick (R108)
  spareReq : List (Nat × Nat)     -- (spare, column): mapped at the next tile boundary (R373)
  strikes  : List (Nat × Nat × Nat)  -- strikes of a suspect, with the frame of its first one; 67: the array (R372)
  level    : Nat            -- previous activity level, in 1/256 (R104)
  lfsr     : Nat            -- dummy row generator (R104)
  cEnd     : Nat            -- committed clocks c[a] (R266)
  deriving DecidableEq, Repr

/-! ## Outputs -/

/-- What the block drives at its ports, oldest first: the model's own record. While a port's group stands at its strap
level, or the wrapper governs it, nothing that the block drives beneath is recorded (R415, R423). (DESIGN CHOICE, log 2) -/
inductive Out where
  | deepRead (port tag addr lenM1 : Nat) (turned : Bool) (esz : Nat)   -- LEN: bytes minus 1 (R413)
  | deepWrite (port tag addr : Nat) (bytes : List Byte)
  | link (l : Nat) (kind : Nat) (hdr : List Nat) (bytes : List Byte)
  | beat (l : Nat) (flits : List Flit)
  | chain (nibbles : List Nat)      -- STRATA_OUT_D at each chain clock of one message, with VLD high (R303)
  | update (sor : Bool) (bytes : List Byte)   -- a beat, with UPD_SOR (R414)
  | vreq (code : Nat)
  | tickOut (g : Nat)
  | tickFall
  | timeAck (v : Bool)
  | flash (cmd : Nat)
  | ijtag (bits : List Nat)
  deriving DecidableEq, Repr

/-- The clamp group of a port, in the order of R415. -/
def Out.group : Out → Nat
  | .deepRead p .. => p
  | .deepWrite p .. => p
  | .update .. => 4
  | .link l .. => 5 + l
  | .beat l _ => 5 + l
  | .chain _ => 11
  | .flash _ => 12
  | .tickOut _ => 13
  | .tickFall => 13
  | .timeAck _ => 13
  | .vreq _ => 14
  | .ijtag _ => 15

/-- What an output stands at: what the block drives, its strap's level, or the cells of the boundary register (R415,
R423). -/
inductive Drive where
  | block
  | strap (high : Bool)
  | boundary (cells : Nat)
  deriving DecidableEq, Repr

/-- What the wrapper connects between WSI and WSO; the internal scan runs over WPI and WPO (R423). -/
inductive WrapPath where
  | bypass | boundary | scan | network
  deriving DecidableEq, Repr

/-! ## Time -/

/-- A frame that has closed here before every child's token of it came: this block's own lateness, and the tokens by
link as CairnSt.tokens has them (R241). -/
structure Closing where
  frame : Nat
  late  : Bool
  got   : List (Nat × Nat × Bool × Nat)
  deriving DecidableEq, Repr

/-- Cairn beside its registers (R228 to R251). -/
structure CairnSt where
  time     : Nat            -- 96 bits, 2^-32 of 1/16 ns (R228)
  inc      : Nat            -- added at each time clock: 8 · 2^32 at nominal frequency, and the discipline
  slew     : Int            -- time still to be slewed away, same units: ahead when positive (R234)
  slewOnly : Bool           -- ACQUIRE entered from HOLDOVER: without steps (R235)
  wasLocked : Bool          -- ACQUIRE entered from LOCKED: no step while the block is in RUN (R235)
  clocks   : Nat            -- time clocks since reset
  rate     : Option (Nat × Nat)  -- parent's time and own time clocks at the last SYNC from it (R234)
  tick     : Option (Nat × Nat × Nat × Nat)  -- announced TICK: frame, grid point, epoch, time step (0: none)
  decided  : Bool           -- the Lodestone has sent its message for the next grid point (R238)
  heard    : Bool           -- TICK or HOLD was heard, or sent, for the next grid point (R245)
  missed   : Nat            -- grid points missed in a row (R245)
  lastG    : Option Nat     -- grid point of the last fired tick (R237)
  nbrs     : List (Nat × Nat × Nat)  -- link, hops and Lodestone its last SYNC advertised (R233)
  good     : Nat            -- SYNCs in a row within 20 ps (R235)
  bad      : Nat            -- SYNCs in a row beyond 100 ps
  xch      : Option (Nat × Nat × Nat)  -- exchange over a link: link, t1, t2 (R234)
  kids     : List Nat       -- links to children in the tick tree
  excluded : List Nat       -- children left out of the accounting (R242)
  overdue  : List (Nat × Nat)   -- grid points passed without a child's token
  withheld : List Nat       -- children whose token an injection withheld (R389)
  tokens   : List (Nat × Nat × Bool × Nat)  -- token of the current frame by link: blocks, late, lowest stratum
  early    : List (Nat × Nat × Nat × Bool × Nat)  -- tokens of frames that have not opened here: link, frame, and as above
  token    : Option (Bool × Nat × Nat)  -- this block's token is sent: late, lowest, blocks
  closing  : Option Closing -- the token of the frame just closed awaits children (R241)
  tree     : Nat            -- Lodestone: blocks in its tree, as READY and then the last complete count told (R241); 0: not known
  short    : Nat            -- grid points in a row that passed with fewer blocks counted (R241, R242)
  owed     : Nat            -- grid points in a row that passed without this block's token (R242)
  readies  : List (Nat × Nat)   -- READY received by link: blocks (R247)
  readySent : Bool
  readyLate : Bool          -- the 10 ms of R247 have passed
  anchored : Bool           -- ANCHOR is fixed
  opened   : Bool           -- a frame is open in this block
  splitAt  : Bool           -- joins another Lodestone at its next tick (R246)
  splitInj : Bool           -- because an injection presented it
  splitStep : Bool          -- its time has not been compared with the winner's yet (R246)
  step     : Nat            -- Lodestone: time step to announce (R251); 0: none
  pps      : Option Nat     -- timestamp of the last DISC_PPS edge (R250)
  ack      : Bool           -- TIME_ACK is high
  capture  : Option Nat     -- a capture that has not reached PX_CRN_CAP
  tsOut    : Nat            -- TS_OUT (R249, R250)
  tickUp   : Option Nat     -- TICK_OUT is high since this timestamp (R249)
  deriving DecidableEq, Repr

/-! ## Tourmaline -/

/-- A change of operating point under way (R273). -/
structure Trans where
  src   : Nat
  dst   : Nat
  phase : Nat      -- 0: VREQ driven, VACK ignored. 1: VACK watched. 2: slewing. 3, 4: as 0 and 1 after a lower.
  deriving DecidableEq, Repr

/-- Tourmaline beside its registers (R253 to R281). -/
structure TrmSt where
  drawn     : Nat            -- S of the frame, nJ, as the monitors last showed it (R255)
  tickAt    : Nat            -- timestamp of the tick clock
  budget    : Nat            -- B (R254)
  horizon   : Nat            -- horizon, core clocks from the tick clock (R254)
  tenants   : List (Nat × Nat)   -- energy admitted per tenant (R266)
  nAdmitted : Nat            -- groups admitted into this frame
  defers    : Nat            -- moments at which groups have been considered (R11)
  oversize  : Bool           -- an oversized group holds the frame (R267)
  domains   : List (Nat × Nat)   -- estimated energy per domain of the frame's work (R263)
  model     : Nat            -- modelled energy of the frame so far, nJ
  marked    : List Nat       -- domains marked for recalibration (R262)
  autocal   : Option Nat     -- automatic calibration of a domain runs (R264)
  cal       : List Nat       -- CALIBRATE of SCOPE 2: operating points still to measure, the present one first (R265)
  calAt     : Nat            -- timestamp at which measuring at the present point began
  idle      : Nat            -- time of the frame with no admitted work running, 1/16 ns (R263)
  trans     : Option Trans
  nextOpp   : Option Nat     -- operating point wanted after the present transition
  hot       : Bool           -- T_max stands at or above THROT + HOT (R276)
  cool      : Bool           -- T_max stands below THROT − HYST
  tband     : Nat            -- temperature band at the tick (R259)
  droopOn   : Bool           -- every core clock runs at twice its period (R278)
  droopFrm  : Nat            -- stretch events of the frame
  preramp   : Bool           -- a pre-ramp holds arrays for the next tick (R108)
  bubbles   : List (Nat × Nat)   -- open bubble windows: vein, timestamp at which it ends (R224)
  blocked   : Bool           -- no non-filler vein has been READY for BLOCK clocks (R224)
  tripped   : Bool           -- thermal trip (R277)
  overspent : Bool           -- Q has fallen below zero in this frame (R256)
  injVack   : Bool           -- an injection keeps VACK away from the present transition (R389)
  deriving DecidableEq, Repr

/-! ## Links, the chain, the Slate image, training, faults: see State below -/

/-- A link beside its registers (R283 to R301). Queued flits carry channel, kind, run length and header in their
tags; the beat that sends them fills in the rest. -/
structure LinkSt where
  q0      : List Flit        -- the four virtual channels, oldest flit first
  q1      : List Flit
  q2      : List Flit
  q3      : List Flit
  kept    : List Flit        -- flits of kept beats to send again after retraining (R300)
  cred    : List Nat         -- credits held, per channel
  ret     : List Nat         -- credits to return, per channel
  turn    : Nat              -- flits of VC2 (first half) or VC3 served in this turn (R290)
  txSeq   : Nat              -- SEQ of the next new beat
  unacked : List (Nat × List Flit)   -- beats kept (R288)
  replay  : List (Nat × List Flit)   -- beats to resend, first one next
  repCnt  : Nat              -- times in a row that the first kept beat was replayed
  rxSeq   : Nat              -- SEQ of the next beat expected
  rxAny   : Bool             -- a beat has been delivered: ACK is valid
  nak     : Bool             -- beats are discarded until the replay arrives
  rejects : List Nat         -- timestamps of rejected beats within the window of R300
  rx      : List (Flit × Bool)   -- receive buffers, oldest flit first; with it: from a replayed beat (R288, R289, R293)
  repTo   : Option Nat       -- SEQ of the last beat discarded before a replay: accepted beats up to it are replayed
  head2   : Nat              -- MHDR of the last VC2 message whose HEAD the partner has acknowledged (R301)
  phys    : Nat              -- widths and divisors the physical link offers (R285): [5:3] and [2:0]
  mode    : Nat              -- mode word sent in SELECT
  resume  : Option Nat       -- RESUME of the partner's capability word in retraining
  probes  : List Nat         -- round trips of the probe pairs, 1/16 ns (R298)
  fence   : Option (Nat × Nat)   -- CLEAVE in progress: vein and SEQ
  fenceTx : Bool             -- our fence is sent
  fenceAck : Bool            -- the partner has acknowledged it
  fenceRx : Bool             -- the partner has fenced
  fenceAt : Nat              -- timestamp at which a fence of the link was asked for (R302)
  unfence : Option (Nat × Nat)   -- CLEAVE return in progress
  retrained : Bool           -- the present pass began in ACTIVE or FENCED: held traffic is kept (R300)
  deriving DecidableEq, Repr

/-- A routed message in transit or waiting at its source (R292, R294): kind 1 POST, 2 WACK, 3 WNAK, 4 WRITE. -/
structure Routed where
  kind    : Nat
  hdr     : RoutedHdr        -- for POST: offset is the semaphore, lenM1 the amount
  bytes   : List Byte
  arrived : Option Nat       -- the link it arrived on
  vein    : Option (Nat × Nat)   -- a SEM_POST that waits for it: vein and SEQ
  stream  : Option Nat           -- the OUT_LINK stream it belongs to
  deriving DecidableEq, Repr

/-- A WRITE of an OUT_LINK stream that waits for its reply (R292). -/
structure OutWrite where
  stream : Nat
  dst    : Nat
  tenant : Nat
  offset : Nat
  pos    : Nat
  len    : Nat
  link   : Nat
  deriving DecidableEq, Repr

/-- The Slate image and the Strata chain beside their registers (R303 to R340). -/
structure SltSt where
  rx       : List (Nat × List Byte)  -- pieces of the present image stream, by offset
  whole    : Bool             -- no byte of the stream is missing
  hdrTab   : List Byte        -- header and section table of the image in force
  ts0      : Nat              -- TS0 and FRAME0 of the GLOBAL preamble (R323)
  frame0   : Nat
  claims   : List (Nat × Nat × Nat × Nat)  -- explicit claims in force: class, feature, first, count (R331)
  phase    : Bool             -- PHASE has been received (R335)
  outst    : List (Nat × List Byte)  -- head: messages on the chain, oldest first: header, body
  job      : Nat              -- head: 0 none. 1 flash read for its own load. 2, 3 checking and sending pass of a reload.
                              -- 4, 5 the same for a block in LOAD. 6 distribution. 7 STATE poll of a reload. 8 stopped: a message did not return.
  isRld    : Bool             -- head: the distribution belongs to a reload
  ref      : List Byte        -- head: header and section table as the checking pass read them (R316)
  refCrc   : List Nat         -- head: the CRC-32C of every section
  refDig   : List Byte        -- head: the SHA-384 digest
  refSec   : Bool             -- head: it is the secondary image
  want     : Bool             -- head: a reload waits for the present distribution (R337)
  chainOk  : Bool             -- head: CHAIN has come back: the flash may be read
  phaseSent : Bool            -- head: PHASE is sent
  seen6    : Bool             -- head: some block has reported LINKUP, done
  rldOpen  : Bool             -- a reload stream is open (R337)
  rldNo    : Nat              -- head: reload count
  rldSt    : Nat              -- 0 none. 1 staged. 2 refused (R335, R338)
  staged   : List (Nat × Nat × Nat)  -- changed sections of a reload: section index, Mica offset, length
  stagedHdr : List Byte       -- header and table of that image
  rldClaims : List (Nat × Nat × Nat × Nat)  -- explicit claims of that image
  rldAt    : Option Nat       -- frame at which the staged sections apply
  polLater : List (Nat × W64) -- link policies that wait for the link's next training pass (R338)
  mcLater  : List (Nat × W64) -- MCAST registers that wait for their group's last stream (R338)
  deriving DecidableEq, Repr

/-- A copy of a bank under way: logical bank, spare bank, the detector that caused it (0: a fence), and whether Flint
did (R382). -/
structure BankCopy where
  bank  : Nat
  spare : Nat
  det   : Nat
  inj   : Bool
  deriving DecidableEq, Repr

/-- Mica banks, evacuation and test access beside their registers (R142, R382, R385, R424, R425). -/
structure SvcSt where
  ceCount  : List (Nat × Nat)        -- MICA_CE events of each physical bank in this patrol pass
  line     : Nat                     -- line of every bank that the scrubber visits next
  copies   : List BankCopy           -- copies under way
  retired  : List Nat                -- physical banks found failing
  homes    : List (Nat × List Nat)   -- fenced bank groups: the physical banks that they left, in order
  repair   : List Nat                -- repair map of MBIST: physical banks that RESET spares
  evacAddr : Nat                     -- Deep address of the next byte of the evacuation image
  evacImg  : List Byte               -- bytes of that image not yet sent
  testHold : Bool                    -- TEST_HOLD is high
  testWait : Bool                    -- it has been high: the block leaves RESET only through CLAMPED
  wir      : Nat                     -- wrapper instruction in effect
  refused  : Bool                    -- STATUS: a wrapper instruction was refused
  busy     : Bool                    -- STATUS: an access ended with RESOURCE_BUSY
  boundary : Nat                     -- boundary register, one bit for each cell (R423)
  pxOn     : Bool                    -- VDD_PX is in range in CLAMPED (R417, R425)
  pswHold  : Nat                     -- arrays whose power switch test access holds closed, one bit each
  deriving DecidableEq, Repr

/-- The state of the block. -/
structure State where
  regs    : List (Nat × W64)     -- registers by byte address, only those that differ from their reset value
  mica    : List Host.Cell       -- Mica by byte offset, only bytes that are not zero
  poison  : List Nat             -- poisoned 16-byte words, by word index, rising
  su      : Su
  locked  : Bool                 -- the Slate load has completed (R401)
  pins    : Pins                 -- the static inputs as now driven
  strap   : Pins                 -- the static inputs as sampled (R422)
  veins   : List (Nat × VeinSt)
  streams : List (Nat × StreamSt)
  groups  : List (Nat × McSt)
  arrays  : List (Nat × ArrSt)
  stamp   : Nat                  -- counts issues, for least-recently-issued (R269) and the order of waits (R161)
  crn     : CairnSt
  trm     : TrmSt
  detCount : List (Nat × Nat)    -- events of each detector since reset (R377, COUNT)
  recWrap : Bool                 -- RECNO has passed 2^32 (R377)
  links   : List (Nat × LinkSt)
  transit : List Routed
  writes  : List OutWrite        -- unanswered WRITEs, oldest first
  lostTags : List (Nat × Nat)    -- Deep tags whose stream has left them: port, tag
  dpMode  : List Nat             -- DPp_MODE of the four Deep ports (R414)
  traceQ  : List (List Byte)     -- trace records not yet written (R410)
  injSeen : List (Nat × Nat)     -- matching events an injector has counted since it was armed (R388)
  sched   : List Byte            -- body of the SCHED section in force; empty when there is none (R356)
  updStop : Bool                 -- the update sink has reported an error: no further beat leaves (R342)
  schedBusy : Bool               -- an evaluation started by PX_VN_SCHED_ARG is under way (R363)
  pgtHold : Nat                  -- bytes written to DATA0 to DATA2 and held (R349)
  evacReqs : List (Nat × Nat)    -- writes of the evacuation image without a response: port, tag
  slt     : SltSt
  svc     : SvcSt
  free    : Nat                  -- the model's own: free values used so far
  out     : List Out             -- the model's own: what the ports have driven, oldest first
  pending : List Instr           -- commands that wait, first in, first out
  deriving DecidableEq, Repr

/-- (DESIGN CHOICE, log 5) -/
def VeinSt.init : VeinSt :=
  ⟨[], 0, [], none, false, false, 0, false, false, none, false, [], false, [], false, 0, [], false, 0⟩

def StreamSt.init : StreamSt := ⟨[], 0, [], 0, [], 0, none, none, none, false, (0, 0), [], 0, 0, 0, [], [], []⟩

def LinkSt.init : LinkSt :=
  { q0 := [], q1 := [], q2 := [], q3 := [], kept := [], cred := [0, 0, 0, 0], ret := [0, 0, 0, 0], turn := 0, txSeq := 0,
    unacked := [], replay := [], repCnt := 0, rxSeq := 0, rxAny := false, nak := false, rejects := [], rx := [],
    repTo := none, head2 := 0, phys := 0,
    mode := 0, resume := none, probes := [], fence := none, fenceTx := false, fenceAck := false, fenceRx := false,
    fenceAt := 0, unfence := none, retrained := false }

def McSt.init : McSt := ⟨none, 0, 0, 0, [], none, [], 0⟩

def ArrSt.init : ArrSt := ⟨.idle, false, false, none, none, false, none, none, false, false, false, [], [], 0, 1, 0⟩

def CairnSt.init : CairnSt :=
  { time := 0, inc := 8 <<< 32, slew := 0, slewOnly := false, wasLocked := false, clocks := 0, rate := none,
    tick := none, decided := false, heard := false, missed := 0, lastG := none, nbrs := [], good := 0, bad := 0,
    xch := none, kids := [], excluded := [], overdue := [], withheld := [], tokens := [], token := none, closing := none,
    tree := 0, short := 0, owed := 0, readies := [], readySent := false, readyLate := false, anchored := false, opened := false,
    early := [], splitAt := false, splitInj := false, splitStep := false, step := 0, pps := none,
    ack := false, capture := none, tsOut := 0, tickUp := none }

def TrmSt.init : TrmSt :=
  { drawn := 0, tickAt := 0, budget := 0, horizon := 0, tenants := [], nAdmitted := 0, defers := 0, oversize := false,
    domains := [],
    model := 0, marked := [], autocal := none, cal := [], calAt := 0, idle := 0, trans := none,
    nextOpp := none, hot := false, cool := false, tband := 0,
    droopOn := false, droopFrm := 0, preramp := false, bubbles := [], blocked := false, tripped := false,
    overspent := false, injVack := false }

def SltSt.init : SltSt :=
  { rx := [], whole := false, hdrTab := [], ts0 := 0, frame0 := 0, claims := [],
    phase := false, outst := [], job := 0, isRld := false, ref := [], refCrc := [], refDig := [], refSec := false,
    want := false, chainOk := false, phaseSent := false, seen6 := false, rldOpen := false, rldNo := 0, rldSt := 0,
    staged := [], stagedHdr := [], rldClaims := [], rldAt := none,
    polLater := [], mcLater := [] }

def SvcSt.init : SvcSt :=
  { ceCount := [], line := 0, copies := [], retired := [], homes := [], repair := [], evacAddr := 0, evacImg := [],
    testHold := false, testWait := false, wir := 0, refused := false, busy := false, boundary := 0, pxOn := false, pswHold := 0 }

/-- (DESIGN CHOICE, log 6) -/
def Pins.zero : Pins := ⟨false, false, false, false, 0, 0, [0, 0, 0, 0], 0⟩

/-- Right after reset: the start-up state RESET, every register at its reset value (R402, R411), Mica clear (R335).
(DESIGN CHOICE, log 5, 6) -/
def State.reset : State where
  regs := []
  mica := []
  poison := []
  su := .reset
  locked := false
  pins := Pins.zero
  strap := Pins.zero
  veins := []
  streams := []
  groups := []
  arrays := []
  stamp := 0
  crn := CairnSt.init
  trm := TrmSt.init
  detCount := []
  recWrap := false
  links := []
  transit := []
  writes := []
  lostTags := []
  dpMode := [0, 0, 0, 0]
  traceQ := []
  injSeen := []
  sched := []
  updStop := false
  schedBusy := false
  pgtHold := 0
  evacReqs := []
  slt := SltSt.init
  svc := SvcSt.init
  free := 0
  out := []
  pending := []

end Sys2Proof.Machine
end

