-- ==== Sys2Proof/Machine/RegMap.lean ====
section
/-! DEFINITION. The register map: every register of R411 by its byte address, the fields of every field map
(R60, R136, R147, R166, R190, R227, R252, R282, R310, R311, R340, R363, R392, R405 to R410) as a lowest bit and a
width, and the table of access masks (R7) and reset values (R411). A register of a repeated group is a function of
its index. -/

namespace Sys2Proof.Machine
namespace Reg

/-- PX_ID_PART (R405-R410). -/
def idPart : Nat := 0x00000
/-- PX_ID_CAP0 (R405-R410). -/
def idCap0 : Nat := 0x00008
/-- PX_ID_CAP1 (R405-R410). -/
def idCap1 : Nat := 0x00010
/-- PX_ID_CAP2 (R405-R410). -/
def idCap2 : Nat := 0x00018
/-- PX_ID_STRAPS (R405-R410). -/
def idStraps : Nat := 0x00020
/-- PX_ID_KEYHASH, 6 of them (R405-R410). -/
def idKeyhash (i : Nat) : Nat := 0x00040 + 0x8 * i
/-- PX_ID_GCTL (R405-R410). -/
def idGctl : Nat := 0x00100
/-- PX_ID_GSTAT (R405-R410). -/
def idGstat : Nat := 0x00108
/-- PX_ID_BADADDR (R405-R410). -/
def idBadaddr : Nat := 0x00110
/-- PX_ID_SCRATCH (R405-R410). -/
def idScratch : Nat := 0x00118
/-- PX_SLT_STATE (R340). -/
def sltState : Nat := 0x10000
/-- PX_SLT_CTRL (R340). -/
def sltCtrl : Nat := 0x10008
/-- PX_SLT_CMD (R340). -/
def sltCmd : Nat := 0x10010
/-- PX_SLT_IMAGE (R340). -/
def sltImage : Nat := 0x10018
/-- PX_SLT_INFO (R340). -/
def sltInfo : Nat := 0x10020
/-- PX_SLT_APPLIED (R340). -/
def sltApplied : Nat := 0x10028
/-- PX_SLT_STAT (R340). -/
def sltStat : Nat := 0x10030
/-- PX_SLT_CONFLICT (R340). (DEDUCED, log 61) -/
def sltConflict : Nat := 0x10038
/-- PX_SLT_RLD (R340). -/
def sltRld : Nat := 0x10040
/-- PX_SLT_FLASH (R340). -/
def sltFlash : Nat := 0x10048
/-- PX_STR_ID (R310/R311). -/
def strId : Nat := 0x18000
/-- PX_STR_CTRL (R310/R311). -/
def strCtrl : Nat := 0x18008
/-- PX_STR_STAT (R310/R311). -/
def strStat : Nat := 0x18010
/-- PX_VN_QBASE of vein v, 16 of them (R227). -/
def vnQbase (i : Nat) : Nat := 0x20000 + 0x80 * i
/-- PX_VN_QCFG of vein v, 16 of them (R227). -/
def vnQcfg (i : Nat) : Nat := 0x20008 + 0x80 * i
/-- PX_VN_TAILADDR of vein v, 16 of them (R227). -/
def vnTailaddr (i : Nat) : Nat := 0x20010 + 0x80 * i
/-- PX_VN_TAIL of vein v, 16 of them (R227). -/
def vnTail (i : Nat) : Nat := 0x20018 + 0x80 * i
/-- PX_VN_SEQ of vein v, 16 of them (R227). -/
def vnSeq (i : Nat) : Nat := 0x20020 + 0x80 * i
/-- PX_VN_STAT of vein v, 16 of them (R227). -/
def vnStat (i : Nat) : Nat := 0x20028 + 0x80 * i
/-- PX_VN_CTRL of vein v, 16 of them (R227). -/
def vnCtrl (i : Nat) : Nat := 0x20030 + 0x80 * i
/-- PX_VN_STEP of vein v, 16 of them (R227). -/
def vnStep (i : Nat) : Nat := 0x20038 + 0x80 * i
/-- PX_VN_DEADLINE of vein v, 16 of them (R227). -/
def vnDeadline (i : Nat) : Nat := 0x20040 + 0x80 * i
/-- PX_VN_TENANT_T0 .., 4 of them (R227). -/
def vnTenant (i : Nat) : Nat := 0x21000 + 0x8 * i
/-- PX_VN_FILLER (R227). -/
def vnFiller : Nat := 0x21020
/-- PX_VN_SCHED_ARG (R363). -/
def vnSchedArg : Nat := 0x21100
/-- PX_VN_SCHED_VAL (R363). -/
def vnSchedVal : Nat := 0x21108
/-- PX_VN_UCODE (R392). -/
def vnUcode : Nat := 0x21200
/-- PX_STM_DESCs_W0, 64 of them (R166). -/
def stmDescW0 (i : Nat) : Nat := 0x30000 + 0x40 * i
/-- PX_STM_DESCs_W1, 64 of them (R166). -/
def stmDescW1 (i : Nat) : Nat := 0x30008 + 0x40 * i
/-- PX_STM_DESCs_W2, 64 of them (R166). -/
def stmDescW2 (i : Nat) : Nat := 0x30010 + 0x40 * i
/-- PX_STM_DESCs_W3, 64 of them (R166). -/
def stmDescW3 (i : Nat) : Nat := 0x30018 + 0x40 * i
/-- PX_STM_DESCs_W4, 64 of them (R166). -/
def stmDescW4 (i : Nat) : Nat := 0x30020 + 0x40 * i
/-- PX_STM_DESCs_W5, 64 of them (R166). -/
def stmDescW5 (i : Nat) : Nat := 0x30028 + 0x40 * i
/-- PX_STM_DESCs_W6, 64 of them (R166). -/
def stmDescW6 (i : Nat) : Nat := 0x30030 + 0x40 * i
/-- PX_STM_DESCs_W7, 64 of them (R166). -/
def stmDescW7 (i : Nat) : Nat := 0x30038 + 0x40 * i
/-- PX_STM_MICA_MAP (R166). -/
def stmMicaMap : Nat := 0x31000
/-- PX_STM_CTRL (R166). -/
def stmCtrl : Nat := 0x31008
/-- PX_STM_RANGE_T0 .., 4 of them (R166). -/
def stmRange (i : Nat) : Nat := 0x31010 + 0x8 * i
/-- PX_STM_MCAS, 64 of them (R166). -/
def stmMcast (i : Nat) : Nat := 0x31200 + 0x8 * i
/-- PX_SEM_VAL, 256 of them (R166). -/
def semVal (i : Nat) : Nat := 0x40000 + 0x8 * i
/-- PX_SEM_RANGE_T0 .., 4 of them (R166). -/
def semRange (i : Nat) : Nat := 0x40800 + 0x8 * i
/-- PX_SEM_OVF (R166). -/
def semOvf : Nat := 0x40820
/-- PX_SEM_REFUSED (R166). -/
def semRefused : Nat := 0x40828
/-- PX_CRN_CTRL (R252). -/
def crnCtrl : Nat := 0x50000
/-- PX_CRN_PERIOD (R252). -/
def crnPeriod : Nat := 0x50008
/-- PX_CRN_STATE (R252). -/
def crnState : Nat := 0x50010
/-- PX_CRN_TS (R252). -/
def crnTs : Nat := 0x50018
/-- PX_CRN_FRAME (R252). -/
def crnFrame : Nat := 0x50020
/-- PX_CRN_GRID (R252). -/
def crnGrid : Nat := 0x50028
/-- PX_CRN_ANCHOR (R252). -/
def crnAnchor : Nat := 0x50030
/-- PX_CRN_STEPTO (R252). -/
def crnStepto : Nat := 0x50038
/-- PX_CRN_CAP (R252). -/
def crnCap : Nat := 0x50040
/-- PX_CRN_CNT (R252). -/
def crnCnt : Nat := 0x50048
/-- PX_CRN_STAT (R252). -/
def crnStat : Nat := 0x50050
/-- PX_CRN_LATE (R252). -/
def crnLate : Nat := 0x50058
/-- PX_CRN_DISC (R252). -/
def crnDisc : Nat := 0x50060
/-- PX_CRN_ASYM, 6 of them (R252). -/
def crnAsym (i : Nat) : Nat := 0x50080 + 0x8 * i
/-- PX_CRN_CAND, 16 of them (R252). -/
def crnCand (i : Nat) : Nat := 0x50100 + 0x8 * i
/-- PX_TRM_CTRL (R282). -/
def trmCtrl : Nat := 0x60000
/-- PX_TRM_CAP (R282). -/
def trmCap : Nat := 0x60008
/-- PX_TRM_BUDGET (R282). -/
def trmBudget : Nat := 0x60010
/-- PX_TRM_KEEP (R282). -/
def trmKeep : Nat := 0x60018
/-- PX_TRM_THERM (R282). -/
def trmTherm : Nat := 0x60020
/-- PX_TRM_DROOP (R282). -/
def trmDroop : Nat := 0x60028
/-- PX_TRM_OPPSEL (R282). -/
def trmOppsel : Nat := 0x60030
/-- PX_TRM_COST_CFG (R282). -/
def trmCostCfg : Nat := 0x60038
/-- PX_TRM_PRED (R282). -/
def trmPred : Nat := 0x60040
/-- PX_TRM_STAT (R282). -/
def trmStat : Nat := 0x60048
/-- PX_TRM_OPP, 16 of them (R282). -/
def trmOpp (i : Nat) : Nat := 0x60080 + 0x8 * i
/-- PX_TRM_TEMP, 4 of them (R282). -/
def trmTemp (i : Nat) : Nat := 0x60100 + 0x8 * i
/-- PX_TRM_AC, 8 of them (R282). -/
def trmAct (i : Nat) : Nat := 0x60140 + 0x8 * i
/-- PX_TRM_MPART, 16 of them (R282). -/
def trmMpart (i : Nat) : Nat := 0x60200 + 0x8 * i
/-- PX_TRM_TEN, 4 of them (R282). -/
def trmTen (i : Nat) : Nat := 0x60280 + 0x8 * i
/-- PX_XL_CTRL (R310/R311). -/
def xlCtrl : Nat := 0x70000
/-- PX_XL_DROP (R310/R311). -/
def xlDrop : Nat := 0x70008
/-- PX_XL_LNKl_POL, 6 of them (R310/R311). -/
def xlLnkPol (i : Nat) : Nat := 0x70100 + 0x80 * i
/-- PX_XL_LNKl_CAP, 6 of them (R310/R311). -/
def xlLnkCap (i : Nat) : Nat := 0x70108 + 0x80 * i
/-- PX_XL_LNKl_PEER, 6 of them (R310/R311). -/
def xlLnkPeer (i : Nat) : Nat := 0x70110 + 0x80 * i
/-- PX_XL_LNKl_MODE, 6 of them (R310/R311). -/
def xlLnkMode (i : Nat) : Nat := 0x70118 + 0x80 * i
/-- PX_XL_LNKl_STATE, 6 of them (R310/R311). -/
def xlLnkState (i : Nat) : Nat := 0x70120 + 0x80 * i
/-- PX_XL_LNKl_CMD, 6 of them (R310/R311). -/
def xlLnkCmd (i : Nat) : Nat := 0x70128 + 0x80 * i
/-- PX_XL_LNKl_ERR, 6 of them (R310/R311). -/
def xlLnkErr (i : Nat) : Nat := 0x70130 + 0x80 * i
/-- PX_XL_LNKl_CNT, 6 of them (R310/R311). -/
def xlLnkCnt (i : Nat) : Nat := 0x70138 + 0x80 * i
/-- PX_XL_LNKl_STAT, 6 of them (R310/R311). -/
def xlLnkStat (i : Nat) : Nat := 0x70140 + 0x80 * i
/-- PX_XL_ROUTE, 128 of them (R310/R311). -/
def xlRoute (i : Nat) : Nat := 0x71000 + 0x8 * i
/-- PX_NUM_SR_SEED (R60). -/
def numSrSeed : Nat := 0x80000
/-- PX_NUM_SR_STRATUM (R60). -/
def numSrStratum : Nat := 0x80008
/-- PX_NUM_FLAGS_T0 .., 4 of them (R60). -/
def numFlags (i : Nat) : Nat := 0x80010 + 0x8 * i
/-- PX_NUM_CTRL (R190). -/
def numCtrl : Nat := 0x80030
/-- PX_NUM_HIST_CFG (R190). -/
def numHistCfg : Nat := 0x80038
/-- PX_NUM_HIST_STAT (R190). -/
def numHistStat : Nat := 0x80040
/-- PX_NUM_NAN_W0, 4 of them (R190). -/
def numNanW0 (i : Nat) : Nat := 0x80100 + 0x20 * i
/-- PX_NUM_NAN_W1, 4 of them (R190). -/
def numNanW1 (i : Nat) : Nat := 0x80108 + 0x20 * i
/-- PX_NUM_NAN_W2, 4 of them (R190). -/
def numNanW2 (i : Nat) : Nat := 0x80110 + 0x20 * i
/-- PX_NUM_NAN_W3, 4 of them (R190). -/
def numNanW3 (i : Nat) : Nat := 0x80118 + 0x20 * i
/-- PX_NUM_PGT_IDX (R363). -/
def numPgtIdx : Nat := 0x80200
/-- PX_NUM_PGT_DATA0 .., 4 of them (R363). -/
def numPgtData (i : Nat) : Nat := 0x80208 + 0x8 * i
/-- PX_NUM_GEN_STAT (R363). -/
def numGenStat : Nat := 0x80228
/-- PX_NUM_GEN_LAST (R363). -/
def numGenLast : Nat := 0x80230
/-- PX_NUM_UPD_STAT (R363). -/
def numUpdStat : Nat := 0x80238
/-- PX_NUM_UPD_CNT (R363). -/
def numUpdCnt : Nat := 0x80240
/-- PX_NUM_FROZEN_T0 .., 4 of them (R363). -/
def numFrozen (i : Nat) : Nat := 0x80248 + 0x8 * i
/-- PX_NUM_RST_STAT (R363). -/
def numRstStat : Nat := 0x80268
/-- PX_SHL_CTRL (R136). -/
def shlCtrl : Nat := 0x90000
/-- PX_SHL_MASK_CFG (R136). -/
def shlMaskCfg : Nat := 0x90008
/-- PX_SHL_DROP_T0 .., 4 of them (R136). -/
def shlDrop (i : Nat) : Nat := 0x90010 + 0x8 * i
/-- PX_SHL_SKIP_T0 .., 4 of them (R136). -/
def shlSkip (i : Nat) : Nat := 0x90030 + 0x8 * i
/-- PX_SHL_MISS_T0 .., 4 of them (R136). -/
def shlMiss (i : Nat) : Nat := 0x90050 + 0x8 * i
/-- PX_SHL_TILES (R136). -/
def shlTiles : Nat := 0x90070
/-- PX_SHL_LAST_DROP (R136). -/
def shlLastDrop : Nat := 0x90078
/-- PX_TCH_CTRL (R392). -/
def tchCtrl : Nat := 0xA0000
/-- PX_TCH_SPARE, 4 of them (R392). -/
def tchSpare (i : Nat) : Nat := 0xA0008 + 0x8 * i
/-- PX_TCH_ARRAYS (R392). -/
def tchArrays : Nat := 0xA0028
/-- PX_TCH_STAT (R392). -/
def tchStat : Nat := 0xA0030
/-- PX_ERR_CTRL (R392). -/
def errCtrl : Nat := 0xA0100
/-- PX_ERR_RING_CFG (R392). -/
def errRingCfg : Nat := 0xA0108
/-- PX_ERR_RING_PTR (R392). -/
def errRingPtr : Nat := 0xA0110
/-- PX_ERR_ATN (R392). -/
def errAtn : Nat := 0xA0118
/-- PX_ERR_ATNEN (R392). -/
def errAtnen : Nat := 0xA0120
/-- PX_ERR_SUMMARY (R392). -/
def errSummary : Nat := 0xA0128
/-- PX_ERR_CNT (R392). -/
def errCnt : Nat := 0xA0130
/-- PX_ERR_CNT_CE (R392). -/
def errCntCe : Nat := 0xA0138
/-- PX_ERR_BANKMAP, 24 of them (R392). -/
def errBankmap (i : Nat) : Nat := 0xA0200 + 0x8 * i
/-- PX_ERR_EVAC (R392). -/
def errEvac : Nat := 0xA0300
/-- PX_ERR_EVSTAT (R392). -/
def errEvstat : Nat := 0xA0308
/-- PX_ERR_LAST, 64 of them (R392). -/
def errLast (i : Nat) : Nat := 0xA0400 + 0x8 * i
/-- PX_FLT_POLICY (R392). -/
def fltPolicy : Nat := 0xB0000
/-- PX_FLT_ALLOW (R392). -/
def fltAllow : Nat := 0xB0008
/-- PX_FLT_INJ_W0, 8 of them (R392). -/
def fltInjW0 (i : Nat) : Nat := 0xB0100 + 0x20 * i
/-- PX_FLT_INJ_W1, 8 of them (R392). -/
def fltInjW1 (i : Nat) : Nat := 0xB0108 + 0x20 * i
/-- PX_FLT_INJ_W2, 8 of them (R392). -/
def fltInjW2 (i : Nat) : Nat := 0xB0110 + 0x20 * i
/-- PX_FLT_INJ_W3, 8 of them (R392). -/
def fltInjW3 (i : Nat) : Nat := 0xB0118 + 0x20 * i
/-- PX_DBG_MICA_CMD (R405-R410). -/
def dbgMicaCmd : Nat := 0xF0000
/-- PX_DBG_MICA_DATA, 8 of them (R405-R410). -/
def dbgMicaData (i : Nat) : Nat := 0xF0008 + 0x8 * i
/-- PX_DBG_TRACE_CFG (R405-R410). -/
def dbgTraceCfg : Nat := 0xF0100
/-- PX_DBG_TRACE_BASE (R405-R410). -/
def dbgTraceBase : Nat := 0xF0108
/-- PX_DBG_TRACE_PTR (R405-R410). -/
def dbgTracePtr : Nat := 0xF0110

end Reg

namespace Fl

/-- VENDOR (RO). -/
def idPart_VENDOR : Field := ⟨48, 16⟩
/-- PARTID (RO). -/
def idPart_PARTID : Field := ⟨32, 16⟩
/-- FAMILY (RO). -/
def idPart_FAMILY : Field := ⟨24, 8⟩
/-- STEPIDX (RO). -/
def idPart_STEPIDX : Field := ⟨20, 4⟩
/-- ARRAYS (RO). -/
def idCap0_ARRAYS : Field := ⟨60, 4⟩
/-- SPARECOLS (RO). -/
def idCap0_SPARECOLS : Field := ⟨56, 4⟩
/-- SEGMENTS (RO). -/
def idCap0_SEGMENTS : Field := ⟨48, 8⟩
/-- COLS (RO). -/
def idCap0_COLS : Field := ⟨40, 8⟩
/-- BANKGRPS (RO). -/
def idCap0_BANKGRPS : Field := ⟨32, 8⟩
/-- SPAREBANKS (RO). -/
def idCap0_SPAREBANKS : Field := ⟨28, 4⟩
/-- VEINSM1 (RO). -/
def idCap0_VEINSM1 : Field := ⟨24, 4⟩
/-- TENANTSM1 (RO). -/
def idCap0_TENANTSM1 : Field := ⟨22, 2⟩
/-- STREAMSM1 (RO). -/
def idCap0_STREAMSM1 : Field := ⟨16, 6⟩
/-- SEMSM1 (RO). -/
def idCap0_SEMSM1 : Field := ⟨8, 8⟩
/-- MCASTM1 (RO). -/
def idCap0_MCASTM1 : Field := ⟨2, 6⟩
/-- FORMATS (RO). -/
def idCap1_FORMATS : Field := ⟨48, 16⟩
/-- MESH (RO). -/
def idCap1_MESH : Field := ⟨45, 3⟩
/-- RISE (RO). -/
def idCap1_RISE : Field := ⟨43, 2⟩
/-- DEEP (RO). -/
def idCap1_DEEP : Field := ⟨40, 3⟩
/-- FMAX (RO). -/
def idCap1_FMAX : Field := ⟨32, 8⟩
/-- FMIN (RO). -/
def idCap1_FMIN : Field := ⟨24, 8⟩
/-- PMAX (RO). -/
def idCap1_PMAX : Field := ⟨12, 12⟩
/-- UCIE (RO). -/
def idCap1_UCIE : Field := ⟨8, 4⟩
/-- FEAT (RO). -/
def idCap1_FEAT : Field := ⟨0, 8⟩
/-- PGTM1 (RO). -/
def idCap2_PGTM1 : Field := ⟨52, 12⟩
/-- HISTMAX (RO). -/
def idCap2_HISTMAX : Field := ⟨41, 11⟩
/-- MASKMAX (RO). -/
def idCap2_MASKMAX : Field := ⟨32, 9⟩
/-- SLATEL2 (RO). -/
def idCap2_SLATEL2 : Field := ⟨24, 8⟩
/-- SLATEVER (RO). -/
def idCap2_SLATEVER : Field := ⟨16, 8⟩
/-- STATEVER (RO). -/
def idCap2_STATEVER : Field := ⟨8, 8⟩
/-- GRADVER (RO). -/
def idCap2_GRADVER : Field := ⟨0, 8⟩
/-- KEYSET (RO). -/
def idStraps_KEYSET : Field := ⟨63, 1⟩
/-- CLAMP (RO). -/
def idStraps_CLAMP : Field := ⟨20, 16⟩
/-- SIGREQ (RO). -/
def idStraps_SIGREQ : Field := ⟨3, 1⟩
/-- LODEN (RO). -/
def idStraps_LODEN : Field := ⟨2, 1⟩
/-- BYPASS (RO). -/
def idStraps_BYPASS : Field := ⟨1, 1⟩
/-- HEAD (RO). -/
def idStraps_HEAD : Field := ⟨0, 1⟩
/-- HASH (RO). -/
def idKeyhash_HASH : Field := ⟨0, 64⟩
/-- REGLOCK (RWL). -/
def idGctl_REGLOCK : Field := ⟨1, 1⟩
/-- DBG_EN (RWL). -/
def idGctl_DBG_EN : Field := ⟨0, 1⟩
/-- STATE (RO). -/
def idGstat_STATE : Field := ⟨60, 4⟩
/-- ATNFATAL (RO). -/
def idGstat_ATNFATAL : Field := ⟨59, 1⟩
/-- ATNERR (RO). -/
def idGstat_ATNERR : Field := ⟨58, 1⟩
/-- ATNNOTE (RO). -/
def idGstat_ATNNOTE : Field := ⟨57, 1⟩
/-- ATNFRAME (RO). -/
def idGstat_ATNFRAME : Field := ⟨56, 1⟩
/-- PXOFF (RO). -/
def idGstat_PXOFF : Field := ⟨55, 1⟩
/-- LOCKED (RO). -/
def idGstat_LOCKED : Field := ⟨54, 1⟩
/-- BADACC (W1C). -/
def idGstat_BADACC : Field := ⟨53, 1⟩
/-- FATALCODE (RO). -/
def idGstat_FATALCODE : Field := ⟨40, 8⟩
/-- WRITE (RO). -/
def idBadaddr_WRITE : Field := ⟨62, 1⟩
/-- REASON (RO). -/
def idBadaddr_REASON : Field := ⟨60, 2⟩
/-- ADDR (RO). -/
def idBadaddr_ADDR : Field := ⟨0, 20⟩
/-- DATA (RW). -/
def idScratch_DATA : Field := ⟨0, 64⟩
/-- STATE (RO). -/
def sltState_STATE : Field := ⟨60, 4⟩
/-- SIGREQ (RO). -/
def sltState_SIGREQ : Field := ⟨59, 1⟩
/-- SIGNED (RO). -/
def sltState_SIGNED : Field := ⟨58, 1⟩
/-- BUSY (RO). -/
def sltState_BUSY : Field := ⟨57, 1⟩
/-- FMODE (RO). -/
def sltState_FMODE : Field := ⟨55, 2⟩
/-- CODE (RO). -/
def sltState_CODE : Field := ⟨40, 8⟩
/-- PHTO (RWL). -/
def sltCtrl_PHTO : Field := ⟨48, 16⟩
/-- POLLINT (RWL). -/
def sltCtrl_POLLINT : Field := ⟨32, 16⟩
/-- RLDLEAD (RWL). -/
def sltCtrl_RLDLEAD : Field := ⟨24, 8⟩
/-- RELOAD (WO). -/
def sltCmd_RELOAD : Field := ⟨0, 1⟩
/-- IMGID (RO). -/
def sltImage_IMGID : Field := ⟨0, 64⟩
/-- IMGLEN (RO). -/
def sltInfo_IMGLEN : Field := ⟨39, 25⟩
/-- NSECT (RO). -/
def sltInfo_NSECT : Field := ⟨32, 7⟩
/-- VERSION (RO). -/
def sltInfo_VERSION : Field := ⟨0, 32⟩
/-- SECT (RO). -/
def sltApplied_SECT : Field := ⟨0, 64⟩
/-- LOADFAIL (W1C). -/
def sltStat_LOADFAIL : Field := ⟨63, 1⟩
/-- UNSIGNED (W1C). -/
def sltStat_UNSIGNED : Field := ⟨62, 1⟩
/-- FALLBACK (W1C). -/
def sltStat_FALLBACK : Field := ⟨61, 1⟩
/-- RLDFAIL (W1C). -/
def sltStat_RLDFAIL : Field := ⟨60, 1⟩
/-- RLDLATE (W1C). -/
def sltStat_RLDLATE : Field := ⟨59, 1⟩
/-- EXCLUDED (W1C). -/
def sltStat_EXCLUDED : Field := ⟨58, 1⟩
/-- RELOADS (RO). -/
def sltStat_RELOADS : Field := ⟨32, 16⟩
/-- CLASS (RO). -/
def sltConflict_CLASS : Field := ⟨56, 8⟩
/-- FEATA (RO). -/
def sltConflict_FEATA : Field := ⟨48, 8⟩
/-- FEATB (RO). -/
def sltConflict_FEATB : Field := ⟨40, 8⟩
/-- SECT (RO). -/
def sltConflict_SECT : Field := ⟨32, 8⟩
/-- INDEX (RO). -/
def sltConflict_INDEX : Field := ⟨0, 32⟩
/-- SIZE (RWL). -/
def sltRld_SIZE : Field := ⟨32, 14⟩
/-- BASE (RWL). -/
def sltRld_BASE : Field := ⟨12, 14⟩
/-- JEDECID (RO). -/
def sltFlash_JEDECID : Field := ⟨40, 24⟩
/-- DENSITY (RO). -/
def sltFlash_DENSITY : Field := ⟨32, 8⟩
/-- VALID (RO). -/
def strId_VALID : Field := ⟨63, 1⟩
/-- HEAD (RO). -/
def strId_HEAD : Field := ⟨62, 1⟩
/-- CHAINLEN (RO). -/
def strId_CHAINLEN : Field := ⟨32, 11⟩
/-- STRATUM (RO). -/
def strId_STRATUM : Field := ⟨0, 10⟩
/-- ENUM (WO). -/
def strCtrl_ENUM : Field := ⟨63, 1⟩
/-- RETRY (RWL). -/
def strCtrl_RETRY : Field := ⟨16, 4⟩
/-- RTO (RWL). -/
def strCtrl_RTO : Field := ⟨0, 16⟩
/-- OVF (W1C). -/
def strStat_OVF : Field := ⟨63, 1⟩
/-- ENUMMIS (W1C). -/
def strStat_ENUMMIS : Field := ⟨62, 1⟩
/-- NORET (W1C). -/
def strStat_NORET : Field := ⟨61, 1⟩
/-- BADLEN (RO). -/
def strStat_BADLEN : Field := ⟨32, 16⟩
/-- CRCERR (RO). -/
def strStat_CRCERR : Field := ⟨0, 32⟩
/-- SPACE (RWL). -/
def vnQbase_SPACE : Field := ⟨63, 1⟩
/-- BASE (RWL). -/
def vnQbase_BASE : Field := ⟨6, 42⟩
/-- DBMODE (RWL). -/
def vnQcfg_DBMODE : Field := ⟨62, 2⟩
/-- LOG2SZ (RWL). -/
def vnQcfg_LOG2SZ : Field := ⟨56, 5⟩
/-- TENANT (RWL). -/
def vnQcfg_TENANT : Field := ⟨54, 2⟩
/-- ENABLE (RWL). -/
def vnQcfg_ENABLE : Field := ⟨53, 1⟩
/-- POLL (RWL). -/
def vnQcfg_POLL : Field := ⟨32, 16⟩
/-- SPACE (RWL). -/
def vnTailaddr_SPACE : Field := ⟨63, 1⟩
/-- ADDR (RWL). -/
def vnTailaddr_ADDR : Field := ⟨2, 46⟩
/-- HEAD (RO). -/
def vnTail_HEAD : Field := ⟨32, 32⟩
/-- TAIL (RW). -/
def vnTail_TAIL : Field := ⟨0, 32⟩
/-- NEXT (RWL). -/
def vnSeq_NEXT : Field := ⟨32, 32⟩
/-- DONE (RO). -/
def vnSeq_DONE : Field := ⟨0, 32⟩
/-- STATE (RO). -/
def vnStat_STATE : Field := ⟨60, 4⟩
/-- INFLIGHT (RO). -/
def vnStat_INFLIGHT : Field := ⟨56, 4⟩
/-- LASTSTAT (RO). -/
def vnStat_LASTSTAT : Field := ⟨48, 8⟩
/-- HALTSTAT (RO). -/
def vnStat_HALTSTAT : Field := ⟨40, 8⟩
/-- WAITON (RO). -/
def vnStat_WAITON : Field := ⟨36, 4⟩
/-- HALTSEQ (RO). -/
def vnStat_HALTSEQ : Field := ⟨0, 32⟩
/-- CMD (WO). -/
def vnCtrl_CMD : Field := ⟨0, 3⟩
/-- STEP (RO). -/
def vnStep_STEP : Field := ⟨0, 40⟩
/-- CLOCKS (RO). -/
def vnDeadline_CLOCKS : Field := ⟨0, 32⟩
/-- VALID (RWL). -/
def vnTenant_VALID : Field := ⟨63, 1⟩
/-- FILLER (RWL). -/
def vnTenant_FILLER : Field := ⟨62, 1⟩
/-- P_CLEAVE (RWL). -/
def vnTenant_P_CLEAVE : Field := ⟨61, 1⟩
/-- P_CAL (RWL). -/
def vnTenant_P_CAL : Field := ⟨60, 1⟩
/-- P_SVC (RWL). -/
def vnTenant_P_SVC : Field := ⟨59, 1⟩
/-- PRIO (RWL). -/
def vnTenant_PRIO : Field := ⟨52, 4⟩
/-- SLICEP (RWL). -/
def vnTenant_SLICEP : Field := ⟨48, 4⟩
/-- SLICEMASK (RWL). -/
def vnTenant_SLICEMASK : Field := ⟨32, 16⟩
/-- BLOCK (RWL). -/
def vnFiller_BLOCK : Field := ⟨48, 16⟩
/-- SPILL (RWL). -/
def vnFiller_SPILL : Field := ⟨12, 14⟩
/-- ID (RW). -/
def vnSchedArg_ID : Field := ⟨40, 3⟩
/-- STEP (RW). -/
def vnSchedArg_STEP : Field := ⟨0, 40⟩
/-- NSCHED (RO). -/
def vnSchedVal_NSCHED : Field := ⟨36, 4⟩
/-- BADID (RO). -/
def vnSchedVal_BADID : Field := ⟨33, 1⟩
/-- VALID (RO). -/
def vnSchedVal_VALID : Field := ⟨32, 1⟩
/-- VALUE (RO). -/
def vnSchedVal_VALUE : Field := ⟨0, 32⟩
/-- AVALID (RO). -/
def vnUcode_AVALID : Field := ⟨63, 1⟩
/-- BVALID (RO). -/
def vnUcode_BVALID : Field := ⟨62, 1⟩
/-- ABAD (RO). -/
def vnUcode_ABAD : Field := ⟨61, 1⟩
/-- BBAD (RO). -/
def vnUcode_BBAD : Field := ⟨60, 1⟩
/-- INUSE (RO). -/
def vnUcode_INUSE : Field := ⟨32, 16⟩
/-- REQ (RW). -/
def vnUcode_REQ : Field := ⟨0, 16⟩
/-- XSTRATUM (RO). -/
def stmDescW0_XSTRATUM : Field := ⟨48, 10⟩
/-- XBASE (RO). -/
def stmDescW0_XBASE : Field := ⟨0, 48⟩
/-- CNT3M1 (RO). -/
def stmDescW1_CNT3M1 : Field := ⟨48, 16⟩
/-- CNT2M1 (RO). -/
def stmDescW1_CNT2M1 : Field := ⟨32, 16⟩
/-- CNT1M1 (RO). -/
def stmDescW1_CNT1M1 : Field := ⟨16, 16⟩
/-- LEN0M1 (RO). -/
def stmDescW1_LEN0M1 : Field := ⟨0, 16⟩
/-- STRIDE (RO). -/
def stmDescW2_STRIDE : Field := ⟨0, 40⟩
/-- STRIDE (RO). -/
def stmDescW3_STRIDE : Field := ⟨0, 40⟩
/-- STRIDE (RO). -/
def stmDescW4_STRIDE : Field := ⟨0, 40⟩
/-- HALFL (RO). -/
def stmDescW5_HALFL : Field := ⟨32, 20⟩
/-- BUF (RO). -/
def stmDescW5_BUF : Field := ⟨0, 26⟩
/-- KIND (RO). -/
def stmDescW6_KIND : Field := ⟨60, 4⟩
/-- PORTMASK (RO). -/
def stmDescW6_PORTMASK : Field := ⟨56, 4⟩
/-- MC (RO). -/
def stmDescW6_MC : Field := ⟨55, 1⟩
/-- LOOP (RO). -/
def stmDescW6_LOOP : Field := ⟨54, 1⟩
/-- GROUP (RO). -/
def stmDescW6_GROUP : Field := ⟨48, 6⟩
/-- SEM (RO). -/
def stmDescW6_SEM : Field := ⟨40, 8⟩
/-- SEMEV (RO). -/
def stmDescW6_SEMEV : Field := ⟨38, 2⟩
/-- TURN (RO). -/
def stmDescW6_TURN : Field := ⟨37, 1⟩
/-- ESZ (RO). -/
def stmDescW6_ESZ : Field := ⟨35, 2⟩
/-- BUFMODE (RO). -/
def stmDescW6_BUFMODE : Field := ⟨34, 1⟩
/-- STATE (RO). -/
def stmDescW7_STATE : Field := ⟨60, 4⟩
/-- PENDING (RO). -/
def stmDescW7_PENDING : Field := ⟨59, 1⟩
/-- STARVED (RO). -/
def stmDescW7_STARVED : Field := ⟨58, 1⟩
/-- TENANT (RO). -/
def stmDescW7_TENANT : Field := ⟨56, 2⟩
/-- LASTSTAT (RO). -/
def stmDescW7_LASTSTAT : Field := ⟨48, 8⟩
/-- BYTES (RO). -/
def stmDescW7_BYTES : Field := ⟨0, 48⟩
/-- SPARE_FREE (RO). -/
def stmMicaMap_SPARE_FREE : Field := ⟨32, 4⟩
/-- S_GROUPS (RO). -/
def stmMicaMap_S_GROUPS : Field := ⟨24, 5⟩
/-- X_GROUPS (RO). -/
def stmMicaMap_X_GROUPS : Field := ⟨16, 5⟩
/-- W_GROUPS (RO). -/
def stmMicaMap_W_GROUPS : Field := ⟨8, 5⟩
/-- A_GROUPS (RO). -/
def stmMicaMap_A_GROUPS : Field := ⟨0, 5⟩
/-- SCRUB (RWL). -/
def stmCtrl_SCRUB : Field := ⟨16, 16⟩
/-- MCTO (RWL). -/
def stmCtrl_MCTO : Field := ⟨8, 8⟩
/-- COUNT (RWL). -/
def stmRange_COUNT : Field := ⟨8, 7⟩
/-- BASE (RWL). -/
def stmRange_BASE : Field := ⟨0, 6⟩
/-- MEMBER (RWL). -/
def stmMcast_MEMBER : Field := ⟨63, 1⟩
/-- ROOT (RWL). -/
def stmMcast_ROOT : Field := ⟨62, 1⟩
/-- CONSUME (RWL). -/
def stmMcast_CONSUME : Field := ⟨61, 1⟩
/-- UPLINK (RWL). -/
def stmMcast_UPLINK : Field := ⟨56, 3⟩
/-- DOWN (RWL). -/
def stmMcast_DOWN : Field := ⟨48, 6⟩
/-- STALLED (RO). -/
def stmMcast_STALLED : Field := ⟨26, 1⟩
/-- BLOCKER (RO). -/
def stmMcast_BLOCKER : Field := ⟨16, 10⟩
/-- WAITERS (RO). -/
def semVal_WAITERS : Field := ⟨32, 4⟩
/-- VALUE (RO). -/
def semVal_VALUE : Field := ⟨0, 16⟩
/-- COUNT (RWL). -/
def semRange_COUNT : Field := ⟨8, 9⟩
/-- BASE (RWL). -/
def semRange_BASE : Field := ⟨0, 8⟩
/-- COUNT (RO). -/
def semOvf_COUNT : Field := ⟨0, 48⟩
/-- COUNT (RO). -/
def semRefused_COUNT : Field := ⟨0, 48⟩
/-- POLICY (RWL). -/
def crnCtrl_POLICY : Field := ⟨62, 2⟩
/-- ELIG (RWL). -/
def crnCtrl_ELIG : Field := ⟨61, 1⟩
/-- TICKIN_EN (RWL). -/
def crnCtrl_TICKIN_EN : Field := ⟨60, 1⟩
/-- DISC_EN (RWL). -/
def crnCtrl_DISC_EN : Field := ⟨59, 1⟩
/-- FRATN (RW). -/
def crnCtrl_FRATN : Field := ⟨58, 1⟩
/-- FREEZE (RW). -/
def crnCtrl_FREEZE : Field := ⟨57, 1⟩
/-- TOKTO (RWL). -/
def crnCtrl_TOKTO : Field := ⟨48, 8⟩
/-- LEAD (RWL). -/
def crnCtrl_LEAD : Field := ⟨32, 16⟩
/-- SYNCINT (RWL). -/
def crnCtrl_SYNCINT : Field := ⟨16, 16⟩
/-- NS (RWL). -/
def crnPeriod_NS : Field := ⟨0, 24⟩
/-- LOCK (RO). -/
def crnState_LOCK : Field := ⟨62, 2⟩
/-- ROLE (RO). -/
def crnState_ROLE : Field := ⟨61, 1⟩
/-- ELIGIBLE (RO). -/
def crnState_ELIGIBLE : Field := ⟨60, 1⟩
/-- LODE (RO). -/
def crnState_LODE : Field := ⟨48, 10⟩
/-- EPOCH (RO). -/
def crnState_EPOCH : Field := ⟨32, 16⟩
/-- HOPS (RO). -/
def crnState_HOPS : Field := ⟨28, 4⟩
/-- UPLINK (RO). -/
def crnState_UPLINK : Field := ⟨25, 3⟩
/-- OFFSET (RO). -/
def crnState_OFFSET : Field := ⟨0, 16⟩
/-- TS (RO). -/
def crnTs_TS : Field := ⟨0, 64⟩
/-- FRAME (RO). -/
def crnFrame_FRAME : Field := ⟨0, 48⟩
/-- NEXT (RO). -/
def crnGrid_NEXT : Field := ⟨0, 64⟩
/-- ANCHOR (RO). -/
def crnAnchor_ANCHOR : Field := ⟨0, 64⟩
/-- OFFSET (WO). -/
def crnStepto_OFFSET : Field := ⟨0, 64⟩
/-- CAP (RO). -/
def crnCap_CAP : Field := ⟨0, 64⟩
/-- SLIPS (RO). -/
def crnCnt_SLIPS : Field := ⟨48, 16⟩
/-- OVERRUNS (RO). -/
def crnCnt_OVERRUNS : Field := ⟨32, 16⟩
/-- TAKEOVERS (RO). -/
def crnCnt_TAKEOVERS : Field := ⟨16, 16⟩
/-- LATETICK (RO). -/
def crnCnt_LATETICK : Field := ⟨0, 16⟩
/-- OVR (W1C). -/
def crnStat_OVR : Field := ⟨63, 1⟩
/-- WRAP (W1C). -/
def crnStat_WRAP : Field := ⟨62, 1⟩
/-- EXCL (W1C). -/
def crnStat_EXCL : Field := ⟨61, 1⟩
/-- DISCLIM (W1C). -/
def crnStat_DISCLIM : Field := ⟨60, 1⟩
/-- PPSLOST (W1C). -/
def crnStat_PPSLOST : Field := ⟨59, 1⟩
/-- SPLIT (W1C). -/
def crnStat_SPLIT : Field := ⟨58, 1⟩
/-- NOCAND (W1C). -/
def crnStat_NOCAND : Field := ⟨57, 1⟩
/-- LASTOVR (RO). -/
def crnStat_LASTOVR : Field := ⟨0, 48⟩
/-- STRAT (RO). -/
def crnLate_STRAT : Field := ⟨48, 10⟩
/-- FRAME (RO). -/
def crnLate_FRAME : Field := ⟨0, 48⟩
/-- PPB (RO). -/
def crnDisc_PPB : Field := ⟨0, 32⟩
/-- ASYM (RWL). -/
def crnAsym_ASYM : Field := ⟨0, 16⟩
/-- CAND (RO). -/
def crnCand_CAND : Field := ⟨0, 64⟩
/-- CORR (RWL). -/
def trmCtrl_CORR : Field := ⟨32, 8⟩
/-- GUARD (RWL). -/
def trmCtrl_GUARD : Field := ⟨16, 16⟩
/-- STARVE (RWL). -/
def trmCtrl_STARVE : Field := ⟨8, 8⟩
/-- AUTOCAL (RWL). -/
def trmCtrl_AUTOCAL : Field := ⟨5, 1⟩
/-- LOWPREF (RWL). -/
def trmCtrl_LOWPREF : Field := ⟨4, 1⟩
/-- EFFECTIVE (RO). -/
def trmCap_EFFECTIVE : Field := ⟨32, 16⟩
/-- SW (RW). -/
def trmCap_SW : Field := ⟨16, 16⟩
/-- SLATE (RWL). -/
def trmCap_SLATE : Field := ⟨0, 16⟩
/-- BUDGET (RO). -/
def trmBudget_BUDGET : Field := ⟨32, 32⟩
/-- REMAIN (RO). -/
def trmBudget_REMAIN : Field := ⟨0, 32⟩
/-- PSW_EN (RWL). -/
def trmKeep_PSW_EN : Field := ⟨48, 1⟩
/-- PSWDLY (RWL). -/
def trmKeep_PSWDLY : Field := ⟨32, 16⟩
/-- RAMPDN (RWL). -/
def trmKeep_RAMPDN : Field := ⟨24, 7⟩
/-- RAMPUP (RWL). -/
def trmKeep_RAMPUP : Field := ⟨16, 7⟩
/-- LIMIT (RWL). -/
def trmKeep_LIMIT : Field := ⟨0, 16⟩
/-- THROT (RWL). -/
def trmTherm_THROT : Field := ⟨56, 8⟩
/-- HOT (RWL). -/
def trmTherm_HOT : Field := ⟨52, 4⟩
/-- HYST (RWL). -/
def trmTherm_HYST : Field := ⟨48, 4⟩
/-- LOWHEAD (RWL). -/
def trmTherm_LOWHEAD : Field := ⟨44, 4⟩
/-- LIMOPP (RO). -/
def trmTherm_LIMOPP : Field := ⟨40, 4⟩
/-- TCAP (RO). -/
def trmTherm_TCAP : Field := ⟨16, 16⟩
/-- TMAX (RO). -/
def trmTherm_TMAX : Field := ⟨0, 16⟩
/-- TOTAL (RO). -/
def trmDroop_TOTAL : Field := ⟨32, 32⟩
/-- LASTFRAME (RO). -/
def trmDroop_LASTFRAME : Field := ⟨16, 16⟩
/-- MV (RWL). -/
def trmDroop_MV : Field := ⟨0, 8⟩
/-- ACTIVE (RO). -/
def trmOppsel_ACTIVE : Field := ⟨48, 4⟩
/-- FRAME (RO). -/
def trmOppsel_FRAME : Field := ⟨40, 4⟩
/-- TARGET (RW). -/
def trmOppsel_TARGET : Field := ⟨32, 4⟩
/-- VTO (RWL). -/
def trmOppsel_VTO : Field := ⟨16, 16⟩
/-- BUSY (RO). -/
def trmOppsel_BUSY : Field := ⟨0, 1⟩
/-- BASE (RWL). -/
def trmCostCfg_BASE : Field := ⟨12, 14⟩
/-- DOMAIN (RO). -/
def trmPred_DOMAIN : Field := ⟨44, 10⟩
/-- ERR (RO). -/
def trmPred_ERR : Field := ⟨16, 16⟩
/-- RECALS (RO). -/
def trmPred_RECALS : Field := ⟨0, 16⟩
/-- OVERSIZE (W1C). -/
def trmStat_OVERSIZE : Field := ⟨7, 1⟩
/-- OVERSPEND (W1C). -/
def trmStat_OVERSPEND : Field := ⟨6, 1⟩
/-- FALLBACK (W1C). -/
def trmStat_FALLBACK : Field := ⟨5, 1⟩
/-- RECALFORCED (W1C). -/
def trmStat_RECALFORCED : Field := ⟨4, 1⟩
/-- THROTTLE (W1C). -/
def trmStat_THROTTLE : Field := ⟨3, 1⟩
/-- HOT (W1C). -/
def trmStat_HOT : Field := ⟨2, 1⟩
/-- VTIMEOUT (W1C). -/
def trmStat_VTIMEOUT : Field := ⟨1, 1⟩
/-- SENSOR (W1C). -/
def trmStat_SENSOR : Field := ⟨0, 1⟩
/-- VALID (RWL). -/
def trmOpp_VALID : Field := ⟨63, 1⟩
/-- BAD (RO). -/
def trmOpp_BAD : Field := ⟨62, 1⟩
/-- VREQ (RWL). -/
def trmOpp_VREQ : Field := ⟨40, 8⟩
/-- FCODE (RWL). -/
def trmOpp_FCODE : Field := ⟨32, 7⟩
/-- MV (RWL). -/
def trmOpp_MV : Field := ⟨16, 10⟩
/-- S3 (RO). -/
def trmTemp_S3 : Field := ⟨48, 16⟩
/-- S2 (RO). -/
def trmTemp_S2 : Field := ⟨32, 16⟩
/-- S1 (RO). -/
def trmTemp_S1 : Field := ⟨16, 16⟩
/-- S0 (RO). -/
def trmTemp_S0 : Field := ⟨0, 16⟩
/-- LIMIT (RWL). -/
def trmMpart_LIMIT : Field := ⟨32, 14⟩
/-- BASE (RWL). -/
def trmMpart_BASE : Field := ⟨0, 14⟩
/-- SHARE (RWL). -/
def trmTen_SHARE : Field := ⟨0, 7⟩
/-- TRAINTO (RWL). -/
def xlCtrl_TRAINTO : Field := ⟨48, 16⟩
/-- ERRLIM (RWL). -/
def xlCtrl_ERRLIM : Field := ⟨40, 8⟩
/-- REPLIM (RWL). -/
def xlCtrl_REPLIM : Field := ⟨36, 4⟩
/-- WDATA (RWL). -/
def xlCtrl_WDATA : Field := ⟨24, 8⟩
/-- WMC (RWL). -/
def xlCtrl_WMC : Field := ⟨16, 8⟩
/-- COUNT (RO). -/
def xlDrop_COUNT : Field := ⟨0, 48⟩
/-- ENABLE (RWL). -/
def xlLnkPol_ENABLE : Field := ⟨63, 1⟩
/-- ALLOW (RWL). -/
def xlLnkPol_ALLOW : Field := ⟨30, 16⟩
/-- REQ (RWL). -/
def xlLnkPol_REQ : Field := ⟨0, 4⟩
/-- WORD (RO). -/
def xlLnkCap_WORD : Field := ⟨0, 64⟩
/-- WORD (RO). -/
def xlLnkPeer_WORD : Field := ⟨0, 64⟩
/-- WORD (RO). -/
def xlLnkMode_WORD : Field := ⟨0, 64⟩
/-- STATE (RO). -/
def xlLnkState_STATE : Field := ⟨60, 4⟩
/-- FAILS (RO). -/
def xlLnkState_FAILS : Field := ⟨58, 2⟩
/-- DLY (RO). -/
def xlLnkState_DLY : Field := ⟨0, 32⟩
/-- DISABLE (WO). -/
def xlLnkCmd_DISABLE : Field := ⟨1, 1⟩
/-- RETRAIN (WO). -/
def xlLnkCmd_RETRAIN : Field := ⟨0, 1⟩
/-- CRCERR (RO). -/
def xlLnkErr_CRCERR : Field := ⟨32, 32⟩
/-- REPLAYS (RO). -/
def xlLnkErr_REPLAYS : Field := ⟨0, 32⟩
/-- RETRAINS (RO). -/
def xlLnkCnt_RETRAINS : Field := ⟨48, 16⟩
/-- LOST (RO). -/
def xlLnkCnt_LOST : Field := ⟨32, 16⟩
/-- PROTO (RO). -/
def xlLnkCnt_PROTO : Field := ⟨16, 16⟩
/-- REQFAIL (W1C). -/
def xlLnkStat_REQFAIL : Field := ⟨5, 1⟩
/-- NOTIME (W1C). -/
def xlLnkStat_NOTIME : Field := ⟨4, 1⟩
/-- LOOP (W1C). -/
def xlLnkStat_LOOP : Field := ⟨3, 1⟩
/-- BADMSG (W1C). -/
def xlLnkStat_BADMSG : Field := ⟨2, 1⟩
/-- LOST (W1C). -/
def xlLnkStat_LOST : Field := ⟨1, 1⟩
/-- DOWN (W1C). -/
def xlLnkStat_DOWN : Field := ⟨0, 1⟩
/-- SEED (RWL). -/
def numSrSeed_SEED : Field := ⟨0, 64⟩
/-- SSTRATUM (RW). -/
def numSrStratum_SSTRATUM : Field := ⟨0, 10⟩
/-- OCPNAN (W1C). -/
def numFlags_OCPNAN : Field := ⟨7, 1⟩
/-- SNAN (W1C). -/
def numFlags_SNAN : Field := ⟨6, 1⟩
/-- WRAP (W1C). -/
def numFlags_WRAP : Field := ⟨5, 1⟩
/-- SAT (W1C). -/
def numFlags_SAT : Field := ⟨4, 1⟩
/-- INVALID (W1C). -/
def numFlags_INVALID : Field := ⟨3, 1⟩
/-- OVERFLOW (W1C). -/
def numFlags_OVERFLOW : Field := ⟨2, 1⟩
/-- UNDERFLOW (W1C). -/
def numFlags_UNDERFLOW : Field := ⟨1, 1⟩
/-- INEXACT (W1C). -/
def numFlags_INEXACT : Field := ⟨0, 1⟩
/-- COLDATN (RW). -/
def numCtrl_COLDATN : Field := ⟨11, 1⟩
/-- MARGIN (RWL). -/
def numCtrl_MARGIN : Field := ⟨8, 3⟩
/-- NANATN (RW). -/
def numCtrl_NANATN : Field := ⟨0, 1⟩
/-- COUNT (RWL). -/
def numHistCfg_COUNT : Field := ⟨32, 11⟩
/-- BASE (RWL). -/
def numHistCfg_BASE : Field := ⟨12, 14⟩
/-- COLDUNITS (RO). -/
def numHistStat_COLDUNITS : Field := ⟨32, 32⟩
/-- COLDSEEN (W1C). -/
def numHistStat_COLDSEEN : Field := ⟨15, 1⟩
/-- LASTCOLD (RO). -/
def numHistStat_LASTCOLD : Field := ⟨0, 10⟩
/-- VALID (W1C). -/
def numNanW0_VALID : Field := ⟨63, 1⟩
/-- ORIGIN (RO). -/
def numNanW0_ORIGIN : Field := ⟨62, 1⟩
/-- STREAM (RO). -/
def numNanW0_STREAM : Field := ⟨56, 6⟩
/-- VEIN (RO). -/
def numNanW0_VEIN : Field := ⟨52, 4⟩
/-- ARRAY (RO). -/
def numNanW0_ARRAY : Field := ⟨50, 2⟩
/-- TENSOR (RO). -/
def numNanW0_TENSOR : Field := ⟨40, 10⟩
/-- SEQ (RO). -/
def numNanW0_SEQ : Field := ⟨0, 32⟩
/-- ROW (RO). -/
def numNanW1_ROW : Field := ⟨32, 32⟩
/-- COL (RO). -/
def numNanW1_COL : Field := ⟨0, 32⟩
/-- MORE (RO). -/
def numNanW2_MORE : Field := ⟨48, 16⟩
/-- FRAME (RO). -/
def numNanW2_FRAME : Field := ⟨0, 48⟩
/-- TIMESTAMP (RO). -/
def numNanW3_TIMESTAMP : Field := ⟨0, 64⟩
/-- INDEX (RW). -/
def numPgtIdx_INDEX : Field := ⟨0, 12⟩
/-- DATA (RW). -/
def numPgtData_DATA : Field := ⟨0, 64⟩
/-- REPLAY (W1C). -/
def numGenStat_REPLAY : Field := ⟨63, 1⟩
/-- BADWR (W1C). -/
def numGenStat_BADWR : Field := ⟨62, 1⟩
/-- ACCEPTED (RO). -/
def numGenStat_ACCEPTED : Field := ⟨40, 16⟩
/-- REPLAYSTEP (RO). -/
def numGenStat_REPLAYSTEP : Field := ⟨0, 40⟩
/-- PGROUP (RO). -/
def numGenLast_PGROUP : Field := ⟨48, 12⟩
/-- GENREC (RO). -/
def numGenLast_GENREC : Field := ⟨32, 16⟩
/-- GENNEW (RO). -/
def numGenLast_GENNEW : Field := ⟨16, 16⟩
/-- SEQLO (RO). -/
def numGenLast_SEQLO : Field := ⟨0, 16⟩
/-- ERR (W1C). -/
def numUpdStat_ERR : Field := ⟨63, 1⟩
/-- CROVF (W1C). -/
def numUpdStat_CROVF : Field := ⟨62, 1⟩
/-- CREDITS (RO). -/
def numUpdStat_CREDITS : Field := ⟨0, 12⟩
/-- RECORDS (RO). -/
def numUpdCnt_RECORDS : Field := ⟨32, 32⟩
/-- OMIT (RO). -/
def numUpdCnt_OMIT : Field := ⟨0, 32⟩
/-- COUNT (RO). -/
def numFrozen_COUNT : Field := ⟨0, 48⟩
/-- COLD (W1C). -/
def numRstStat_COLD : Field := ⟨63, 1⟩
/-- MISSING (W1C). -/
def numRstStat_MISSING : Field := ⟨62, 1⟩
/-- STRATUM (RO). -/
def numRstStat_STRATUM : Field := ⟨48, 10⟩
/-- EPOCH (RO). -/
def numRstStat_EPOCH : Field := ⟨32, 16⟩
/-- LASTSTAT (RO). -/
def numRstStat_LASTSTAT : Field := ⟨0, 8⟩
/-- SPLIT (RWL). -/
def shlCtrl_SPLIT : Field := ⟨16, 16⟩
/-- THR (RWL). -/
def shlCtrl_THR : Field := ⟨12, 4⟩
/-- PRED_EN (RWL). -/
def shlCtrl_PRED_EN : Field := ⟨9, 1⟩
/-- STEAL_EN (RWL). -/
def shlCtrl_STEAL_EN : Field := ⟨8, 1⟩
/-- SLOTS (RWL). -/
def shlMaskCfg_SLOTS : Field := ⟨32, 9⟩
/-- BASE (RWL). -/
def shlMaskCfg_BASE : Field := ⟨12, 14⟩
/-- COUNT (RO). -/
def shlDrop_COUNT : Field := ⟨0, 48⟩
/-- COUNT (RO). -/
def shlSkip_COUNT : Field := ⟨0, 48⟩
/-- COUNT (RO). -/
def shlMiss_COUNT : Field := ⟨0, 48⟩
/-- SPARSE (RO). -/
def shlTiles_SPARSE : Field := ⟨32, 32⟩
/-- DENSE (RO). -/
def shlTiles_DENSE : Field := ⟨0, 32⟩
/-- REASON (RO). -/
def shlLastDrop_REASON : Field := ⟨60, 4⟩
/-- VEIN (RO). -/
def shlLastDrop_VEIN : Field := ⟨56, 4⟩
/-- OPND (RO). -/
def shlLastDrop_OPND : Field := ⟨48, 1⟩
/-- ROW (RO). -/
def shlLastDrop_ROW : Field := ⟨32, 16⟩
/-- SEQ (RO). -/
def shlLastDrop_SEQ : Field := ⟨0, 32⟩
/-- TAUEXP (RWL). -/
def tchCtrl_TAUEXP : Field := ⟨56, 8⟩
/-- STRIKES (RWL). -/
def tchCtrl_STRIKES : Field := ⟨48, 8⟩
/-- WINDOW (RWL). -/
def tchCtrl_WINDOW : Field := ⟨32, 16⟩
/-- AUTOCLEAVE (RWL). -/
def tchCtrl_AUTOCLEAVE : Field := ⟨2, 1⟩
/-- AUTOSPARE (RWL). -/
def tchCtrl_AUTOSPARE : Field := ⟨1, 1⟩
/-- RETRY2 (RWL). -/
def tchCtrl_RETRY2 : Field := ⟨0, 1⟩
/-- V65 (RW). -/
def tchSpare_V65 : Field := ⟨15, 1⟩
/-- COL65 (RW). -/
def tchSpare_COL65 : Field := ⟨8, 7⟩
/-- V66 (RW). -/
def tchSpare_V66 : Field := ⟨7, 1⟩
/-- COL66 (RW). -/
def tchSpare_COL66 : Field := ⟨0, 7⟩
/-- AUTO (RO). -/
def tchArrays_AUTO : Field := ⟨8, 4⟩
/-- FENCED (RO). -/
def tchArrays_FENCED : Field := ⟨4, 4⟩
/-- INSERVICE (RO). -/
def tchArrays_INSERVICE : Field := ⟨0, 4⟩
/-- STEP1 (RO). -/
def tchStat_STEP1 : Field := ⟨48, 16⟩
/-- STEP2 (RO). -/
def tchStat_STEP2 : Field := ⟨32, 16⟩
/-- FAILED (RO). -/
def tchStat_FAILED : Field := ⟨16, 16⟩
/-- BADWR (W1C). -/
def tchStat_BADWR : Field := ⟨0, 1⟩
/-- BANKLIM (RWL). -/
def errCtrl_BANKLIM : Field := ⟨48, 16⟩
/-- CEREC (RWL). -/
def errCtrl_CEREC : Field := ⟨0, 1⟩
/-- ENABLE (RWL). -/
def errRingCfg_ENABLE : Field := ⟨63, 1⟩
/-- BASE (RWL). -/
def errRingCfg_BASE : Field := ⟨12, 14⟩
/-- WRITTEN (RO). -/
def errRingPtr_WRITTEN : Field := ⟨32, 32⟩
/-- READ (RW). -/
def errRingPtr_READ : Field := ⟨0, 32⟩
/-- FATAL (RO). -/
def errAtn_FATAL : Field := ⟨2, 1⟩
/-- ERR (W1C). -/
def errAtn_ERR : Field := ⟨1, 1⟩
/-- NOTE (W1C). -/
def errAtn_NOTE : Field := ⟨0, 1⟩
/-- ERR (RW). -/
def errAtnen_ERR : Field := ⟨1, 1⟩
/-- NOTE (RW). -/
def errAtnen_NOTE : Field := ⟨0, 1⟩
/-- UNITS (W1C). -/
def errSummary_UNITS : Field := ⟨0, 13⟩
/-- FATAL (RO). -/
def errCnt_FATAL : Field := ⟨48, 16⟩
/-- FRAME (RO). -/
def errCnt_FRAME : Field := ⟨32, 16⟩
/-- CONTAINED (RO). -/
def errCnt_CONTAINED : Field := ⟨0, 32⟩
/-- COUNT (RO). -/
def errCntCe_COUNT : Field := ⟨0, 48⟩
/-- GO (WO). -/
def errEvac_GO : Field := ⟨63, 1⟩
/-- ADDR (WO). -/
def errEvac_ADDR : Field := ⟨6, 42⟩
/-- STATE (RO). -/
def errEvstat_STATE : Field := ⟨60, 4⟩
/-- STATUS (RO). -/
def errEvstat_STATUS : Field := ⟨48, 8⟩
/-- BYTES (RO). -/
def errEvstat_BYTES : Field := ⟨0, 32⟩
/-- REC (RO). -/
def errLast_REC : Field := ⟨0, 64⟩
/-- ARM_EN (RWL). -/
def fltPolicy_ARM_EN : Field := ⟨63, 1⟩
/-- FATAL_EN (RWL). -/
def fltPolicy_FATAL_EN : Field := ⟨62, 1⟩
/-- DET (RWL). -/
def fltAllow_DET : Field := ⟨0, 64⟩
/-- ARMED (RW). -/
def fltInjW0_ARMED : Field := ⟨63, 1⟩
/-- MODE (RW). -/
def fltInjW0_MODE : Field := ⟨61, 2⟩
/-- DET (RW). -/
def fltInjW0_DET : Field := ⟨48, 8⟩
/-- COUNT (RW). -/
def fltInjW0_COUNT : Field := ⟨32, 16⟩
/-- PERIOD (RW). -/
def fltInjW0_PERIOD : Field := ⟨0, 32⟩
/-- UNIT (RW). -/
def fltInjW1_UNIT : Field := ⟨56, 8⟩
/-- INDEX (RW). -/
def fltInjW1_INDEX : Field := ⟨48, 8⟩
/-- TENMASK (RW). -/
def fltInjW1_TENMASK : Field := ⟨44, 4⟩
/-- VEINMASK (RW). -/
def fltInjW1_VEINMASK : Field := ⟨28, 16⟩
/-- LOC (RW). -/
def fltInjW1_LOC : Field := ⟨0, 28⟩
/-- PATTERN (RW). -/
def fltInjW2_PATTERN : Field := ⟨0, 64⟩
/-- FIRED (RO). -/
def fltInjW3_FIRED : Field := ⟨32, 32⟩
/-- LASTSTAT (RO). -/
def fltInjW3_LASTSTAT : Field := ⟨24, 8⟩
/-- BUSY (RO). -/
def dbgMicaCmd_BUSY : Field := ⟨63, 1⟩
/-- DONE (RO). -/
def dbgMicaCmd_DONE : Field := ⟨62, 1⟩
/-- POISON (RO). -/
def dbgMicaCmd_POISON : Field := ⟨58, 4⟩
/-- LINE (RW). -/
def dbgMicaCmd_LINE : Field := ⟨6, 20⟩
/-- DATA (RO). -/
def dbgMicaData_DATA : Field := ⟨0, 64⟩
/-- ENABLE (RW). -/
def dbgTraceCfg_ENABLE : Field := ⟨63, 1⟩
/-- BADCFG (RO). -/
def dbgTraceCfg_BADCFG : Field := ⟨62, 1⟩
/-- SEM (RW). -/
def dbgTraceCfg_SEM : Field := ⟨48, 8⟩
/-- VEINMASK (RW). -/
def dbgTraceCfg_VEINMASK : Field := ⟨32, 16⟩
/-- LOG2N (RW). -/
def dbgTraceCfg_LOG2N : Field := ⟨0, 5⟩
/-- PORTMASK (RW). -/
def dbgTraceBase_PORTMASK : Field := ⟨56, 4⟩
/-- BASE (RW). -/
def dbgTraceBase_BASE : Field := ⟨6, 42⟩
/-- WRITTEN (RO). -/
def dbgTracePtr_WRITTEN : Field := ⟨32, 32⟩
/-- LOST (RO). -/
def dbgTracePtr_LOST : Field := ⟨0, 32⟩

end Fl

/-- The rows of R411: base address, stride, how many, the bits of each access code (R7), the reset value. -/
def regTableA : List RegRow := [
  ⟨0x00000, 0x0, 1, 0x0, 0x0, 0x0, 0x0, 0x4F5A583401200000⟩,
  ⟨0x00008, 0x0, 1, 0x0, 0x0, 0x0, 0x0, 0x421040188FFFFFFC⟩,
  ⟨0x00010, 0x0, 1, 0x0, 0x0, 0x0, 0x0, 0xFFFF9450142D017F⟩,
  ⟨0x00018, 0x0, 1, 0x0, 0x0, 0x0, 0x0, 0xFFF8010018010101⟩,
  ⟨0x00020, 0x0, 1, 0x0, 0x0, 0x0, 0x0, 0x0⟩,
  ⟨0x00040, 0x8, 6, 0x0, 0x0, 0x0, 0x0, 0x0⟩,
  ⟨0x00100, 0x0, 1, 0x0, 0x3, 0x0, 0x0, 0x0⟩,
  ⟨0x00108, 0x0, 1, 0x0, 0x0, 0x20000000000000, 0x0, 0x2000000000000000⟩,
  ⟨0x00110, 0x0, 1, 0x0, 0x0, 0x0, 0x0, 0x0⟩,
  ⟨0x00118, 0x0, 1, 0xFFFFFFFFFFFFFFFF, 0x0, 0x0, 0x0, 0x0⟩,
  ⟨0x10000, 0x0, 1, 0x0, 0x0, 0x0, 0x0, 0x2000000000000000⟩,
  ⟨0x10008, 0x0, 1, 0x0, 0xFFFFFFFFFF000000, 0x0, 0x0, 0x64006404000000⟩,
  ⟨0x10010, 0x0, 1, 0x0, 0x0, 0x0, 0x1, 0x0⟩,
  ⟨0x10018, 0x0, 1, 0x0, 0x0, 0x0, 0x0, 0x0⟩,
  ⟨0x10020, 0x0, 1, 0x0, 0x0, 0x0, 0x0, 0x0⟩,
  ⟨0x10028, 0x0, 1, 0x0, 0x0, 0x0, 0x0, 0x0⟩,
  ⟨0x10030, 0x0, 1, 0x0, 0x0, 0xFC00000000000000, 0x0, 0x0⟩,
  ⟨0x10038, 0x0, 1, 0x0, 0x0, 0x0, 0x0, 0xFF00000000⟩,
  ⟨0x10040, 0x0, 1, 0x0, 0x3FFF03FFF000, 0x0, 0x0, 0x0⟩,
  ⟨0x10048, 0x0, 1, 0x0, 0x0, 0x0, 0x0, 0x0⟩,
  ⟨0x18000, 0x0, 1, 0x0, 0x0, 0x0, 0x0, 0x0⟩,
  ⟨0x18008, 0x0, 1, 0x0, 0xFFFFF, 0x0, 0x8000000000000000, 0x30100⟩,
  ⟨0x18010, 0x0, 1, 0x0, 0x0, 0xE000000000000000, 0x0, 0x0⟩,
  ⟨0x20000, 0x80, 16, 0x0, 0x8000FFFFFFFFFFC0, 0x0, 0x0, 0x0⟩,
  ⟨0x20008, 0x80, 16, 0x0, 0xDFE0FFFF00000000, 0x0, 0x0, 0x400010000000000⟩,
  ⟨0x20010, 0x80, 16, 0x0, 0x8000FFFFFFFFFFFC, 0x0, 0x0, 0x0⟩,
  ⟨0x20018, 0x80, 16, 0xFFFFFFFF, 0x0, 0x0, 0x0, 0x0⟩,
  ⟨0x20020, 0x80, 16, 0x0, 0xFFFFFFFF00000000, 0x0, 0x0, 0x0⟩,
  ⟨0x20028, 0x80, 16, 0x0, 0x0, 0x0, 0x0, 0x0⟩,
  ⟨0x20030, 0x80, 16, 0x0, 0x0, 0x0, 0x7, 0x0⟩,
  ⟨0x20038, 0x80, 16, 0x0, 0x0, 0x0, 0x0, 0x0⟩,
  ⟨0x20040, 0x80, 16, 0x0, 0x0, 0x0, 0x0, 0x0⟩,
  ⟨0x21000, 0x8, 4, 0x0, 0xF8FFFFFF00000000, 0x0, 0x0, 0xFFFF00000000⟩,
  ⟨0x21020, 0x0, 1, 0x0, 0xFFFF000003FFF000, 0x0, 0x0, 0x200000000000000⟩,
  ⟨0x21100, 0x0, 1, 0x7FFFFFFFFFF, 0x0, 0x0, 0x0, 0x0⟩,
  ⟨0x21108, 0x0, 1, 0x0, 0x0, 0x0, 0x0, 0x0⟩]

/-- Continuation of the rows of R411. -/
def regTableB : List RegRow := [
  ⟨0x21200, 0x0, 1, 0xFFFF, 0x0, 0x0, 0x0, 0x8000000000000000⟩,
  ⟨0x30000, 0x40, 64, 0x0, 0x0, 0x0, 0x0, 0x0⟩,
  ⟨0x30008, 0x40, 64, 0x0, 0x0, 0x0, 0x0, 0x0⟩,
  ⟨0x30010, 0x40, 64, 0x0, 0x0, 0x0, 0x0, 0x0⟩,
  ⟨0x30018, 0x40, 64, 0x0, 0x0, 0x0, 0x0, 0x0⟩,
  ⟨0x30020, 0x40, 64, 0x0, 0x0, 0x0, 0x0, 0x0⟩,
  ⟨0x30028, 0x40, 64, 0x0, 0x0, 0x0, 0x0, 0x0⟩,
  ⟨0x30030, 0x40, 64, 0x0, 0x0, 0x0, 0x0, 0x0⟩,
  ⟨0x30038, 0x40, 64, 0x0, 0x0, 0x0, 0x0, 0x0⟩,
  ⟨0x31000, 0x0, 1, 0x0, 0x0, 0x0, 0x0, 0x80206040C⟩,
  ⟨0x31008, 0x0, 1, 0x0, 0xFFFFFF00, 0x0, 0x0, 0x10000400⟩,
  ⟨0x31010, 0x8, 4, 0x0, 0x7F3F, 0x0, 0x0, 0x0⟩,
  ⟨0x31200, 0x8, 64, 0x0, 0xE73F000000000000, 0x0, 0x0, 0x700000000000000⟩,
  ⟨0x40000, 0x8, 256, 0x0, 0x0, 0x0, 0x0, 0x0⟩,
  ⟨0x40800, 0x8, 4, 0x0, 0x1FFFF, 0x0, 0x0, 0x0⟩,
  ⟨0x40820, 0x0, 1, 0x0, 0x0, 0x0, 0x0, 0x0⟩,
  ⟨0x40828, 0x0, 1, 0x0, 0x0, 0x0, 0x0, 0x0⟩,
  ⟨0x50000, 0x0, 1, 0x600000000000000, 0xF8FFFFFFFFFF0000, 0x0, 0x0, 0x2408020003E80000⟩,
  ⟨0x50008, 0x0, 1, 0x0, 0xFFFFFF, 0x0, 0x0, 0x3D090⟩,
  ⟨0x50010, 0x0, 1, 0x0, 0x0, 0x0, 0x0, 0xFE000000⟩,
  ⟨0x50018, 0x0, 1, 0x0, 0x0, 0x0, 0x0, 0x0⟩,
  ⟨0x50020, 0x0, 1, 0x0, 0x0, 0x0, 0x0, 0x0⟩,
  ⟨0x50028, 0x0, 1, 0x0, 0x0, 0x0, 0x0, 0x0⟩,
  ⟨0x50030, 0x0, 1, 0x0, 0x0, 0x0, 0x0, 0x0⟩,
  ⟨0x50038, 0x0, 1, 0x0, 0x0, 0x0, 0xFFFFFFFFFFFFFFFF, 0x0⟩,
  ⟨0x50040, 0x0, 1, 0x0, 0x0, 0x0, 0x0, 0x0⟩,
  ⟨0x50048, 0x0, 1, 0x0, 0x0, 0x0, 0x0, 0x0⟩,
  ⟨0x50050, 0x0, 1, 0x0, 0x0, 0xFE00000000000000, 0x0, 0x0⟩,
  ⟨0x50058, 0x0, 1, 0x0, 0x0, 0x0, 0x0, 0x0⟩,
  ⟨0x50060, 0x0, 1, 0x0, 0x0, 0x0, 0x0, 0x0⟩,
  ⟨0x50080, 0x8, 6, 0x0, 0xFFFF, 0x0, 0x0, 0x0⟩,
  ⟨0x50100, 0x8, 16, 0x0, 0x0, 0x0, 0x0, 0x0⟩,
  ⟨0x60000, 0x0, 1, 0x0, 0xFFFFFFFF30, 0x0, 0x0, 0x404000230⟩,
  ⟨0x60008, 0x0, 1, 0xFFFF0000, 0xFFFF, 0x0, 0x0, 0x2D002D002D0⟩,
  ⟨0x60010, 0x0, 1, 0x0, 0x0, 0x0, 0x0, 0x0⟩,
  ⟨0x60018, 0x0, 1, 0x0, 0x1FFFF7F7FFFFF, 0x0, 0x0, 0x1004004040400⟩]

/-- Continuation of the rows of R411. -/
def regTableC : List RegRow := [
  ⟨0x60020, 0x0, 1, 0x0, 0xFFFFF00000000000, 0x0, 0x0, 0x5F535F0002D00000⟩,
  ⟨0x60028, 0x0, 1, 0x0, 0xFF, 0x0, 0x0, 0x28⟩,
  ⟨0x60030, 0x0, 1, 0xF00000000, 0xFFFF0000, 0x0, 0x0, 0x320000⟩,
  ⟨0x60038, 0x0, 1, 0x0, 0x3FFF000, 0x0, 0x0, 0x0⟩,
  ⟨0x60040, 0x0, 1, 0x0, 0x0, 0x0, 0x0, 0x0⟩,
  ⟨0x60048, 0x0, 1, 0x0, 0x0, 0xFF, 0x0, 0x0⟩,
  ⟨0x60080, 0x8, 16, 0x0, 0x8000FF7F03FF0000, 0x0, 0x0, 0x0⟩,
  ⟨0x60100, 0x8, 4, 0x0, 0x0, 0x0, 0x0, 0x0⟩,
  ⟨0x60140, 0x8, 8, 0x0, 0x0, 0x0, 0x0, 0x8080808080808080⟩,
  ⟨0x60200, 0x8, 16, 0x0, 0x3FFF00003FFF, 0x0, 0x0, 0x0⟩,
  ⟨0x60280, 0x8, 4, 0x0, 0x7F, 0x0, 0x0, 0x40⟩,
  ⟨0x70000, 0x0, 1, 0x0, 0xFFFFFFF0FFFF0000, 0x0, 0x0, 0x64104001010000⟩,
  ⟨0x70008, 0x0, 1, 0x0, 0x0, 0x0, 0x0, 0x0⟩,
  ⟨0x70100, 0x80, 6, 0x0, 0x80003FFFC000000F, 0x0, 0x0, 0x0⟩,
  ⟨0x70108, 0x80, 6, 0x0, 0x0, 0x0, 0x0, 0x0⟩,
  ⟨0x70110, 0x80, 6, 0x0, 0x0, 0x0, 0x0, 0x0⟩,
  ⟨0x70118, 0x80, 6, 0x0, 0x0, 0x0, 0x0, 0x0⟩,
  ⟨0x70120, 0x80, 6, 0x0, 0x0, 0x0, 0x0, 0x0⟩,
  ⟨0x70128, 0x80, 6, 0x0, 0x0, 0x0, 0x3, 0x0⟩,
  ⟨0x70130, 0x80, 6, 0x0, 0x0, 0x0, 0x0, 0x0⟩,
  ⟨0x70138, 0x80, 6, 0x0, 0x0, 0x0, 0x0, 0x0⟩,
  ⟨0x70140, 0x80, 6, 0x0, 0x0, 0x3F, 0x0, 0x0⟩,
  ⟨0x71000, 0x8, 128, 0x0, 0xFFFFFFFFFFFFFFFF, 0x0, 0x0, 0xFFFFFFFFFFFFFFFF⟩,
  ⟨0x80000, 0x0, 1, 0x0, 0xFFFFFFFFFFFFFFFF, 0x0, 0x0, 0x0⟩,
  ⟨0x80008, 0x0, 1, 0x3FF, 0x0, 0x0, 0x0, 0x0⟩,
  ⟨0x80010, 0x8, 4, 0x0, 0x0, 0xFF, 0x0, 0x0⟩,
  ⟨0x80030, 0x0, 1, 0x801, 0x700, 0x0, 0x0, 0x901⟩,
  ⟨0x80038, 0x0, 1, 0x0, 0x7FF03FFF000, 0x0, 0x0, 0x0⟩,
  ⟨0x80040, 0x0, 1, 0x0, 0x0, 0x8000, 0x0, 0x0⟩,
  ⟨0x80100, 0x20, 4, 0x0, 0x0, 0x8000000000000000, 0x0, 0x0⟩,
  ⟨0x80108, 0x20, 4, 0x0, 0x0, 0x0, 0x0, 0x0⟩,
  ⟨0x80110, 0x20, 4, 0x0, 0x0, 0x0, 0x0, 0x0⟩,
  ⟨0x80118, 0x20, 4, 0x0, 0x0, 0x0, 0x0, 0x0⟩,
  ⟨0x80200, 0x0, 1, 0xFFF, 0x0, 0x0, 0x0, 0x0⟩,
  ⟨0x80208, 0x8, 4, 0xFFFFFFFFFFFFFFFF, 0x0, 0x0, 0x0, 0x0⟩,
  ⟨0x80228, 0x0, 1, 0x0, 0x0, 0xC000000000000000, 0x0, 0x0⟩]

/-- Continuation of the rows of R411. -/
def regTableD : List RegRow := [
  ⟨0x80230, 0x0, 1, 0x0, 0x0, 0x0, 0x0, 0x0⟩,
  ⟨0x80238, 0x0, 1, 0x0, 0x0, 0xC000000000000000, 0x0, 0x0⟩,
  ⟨0x80240, 0x0, 1, 0x0, 0x0, 0x0, 0x0, 0x0⟩,
  ⟨0x80248, 0x8, 4, 0x0, 0x0, 0x0, 0x0, 0x0⟩,
  ⟨0x80268, 0x0, 1, 0x0, 0x0, 0xC000000000000000, 0x0, 0x0⟩,
  ⟨0x90000, 0x0, 1, 0x0, 0xFFFFF300, 0x0, 0x0, 0x4009300⟩,
  ⟨0x90008, 0x0, 1, 0x0, 0x1FF03FFF000, 0x0, 0x0, 0x0⟩,
  ⟨0x90010, 0x8, 4, 0x0, 0x0, 0x0, 0x0, 0x0⟩,
  ⟨0x90030, 0x8, 4, 0x0, 0x0, 0x0, 0x0, 0x0⟩,
  ⟨0x90050, 0x8, 4, 0x0, 0x0, 0x0, 0x0, 0x0⟩,
  ⟨0x90070, 0x0, 1, 0x0, 0x0, 0x0, 0x0, 0x0⟩,
  ⟨0x90078, 0x0, 1, 0x0, 0x0, 0x0, 0x0, 0x0⟩,
  ⟨0xA0000, 0x0, 1, 0x0, 0xFFFFFFFF00000007, 0x0, 0x0, 0x1E03040000000007⟩,
  ⟨0xA0008, 0x8, 4, 0xFFFF, 0x0, 0x0, 0x0, 0x0⟩,
  ⟨0xA0028, 0x0, 1, 0x0, 0x0, 0x0, 0x0, 0xF⟩,
  ⟨0xA0030, 0x0, 1, 0x0, 0x0, 0x1, 0x0, 0x0⟩,
  ⟨0xA0100, 0x0, 1, 0x0, 0xFFFF000000000001, 0x0, 0x0, 0x40000000000000⟩,
  ⟨0xA0108, 0x0, 1, 0x0, 0x8000000003FFF000, 0x0, 0x0, 0x0⟩,
  ⟨0xA0110, 0x0, 1, 0xFFFFFFFF, 0x0, 0x0, 0x0, 0x0⟩,
  ⟨0xA0118, 0x0, 1, 0x0, 0x0, 0x3, 0x0, 0x0⟩,
  ⟨0xA0120, 0x0, 1, 0x3, 0x0, 0x0, 0x0, 0x3⟩,
  ⟨0xA0128, 0x0, 1, 0x0, 0x0, 0x1FFF, 0x0, 0x0⟩,
  ⟨0xA0130, 0x0, 1, 0x0, 0x0, 0x0, 0x0, 0x0⟩,
  ⟨0xA0138, 0x0, 1, 0x0, 0x0, 0x0, 0x0, 0x0⟩,
  ⟨0xA0200, 0x8, 24, 0x0, 0x0, 0x0, 0x0, 0x0⟩,
  ⟨0xA0300, 0x0, 1, 0x0, 0x0, 0x0, 0x8000FFFFFFFFFFC0, 0x0⟩,
  ⟨0xA0308, 0x0, 1, 0x0, 0x0, 0x0, 0x0, 0x0⟩,
  ⟨0xA0400, 0x8, 64, 0x0, 0x0, 0x0, 0x0, 0x0⟩,
  ⟨0xB0000, 0x0, 1, 0x0, 0xC000000000000000, 0x0, 0x0, 0x0⟩,
  ⟨0xB0008, 0x0, 1, 0x0, 0xFFF7FFE, 0x0, 0x0, 0x0⟩,
  ⟨0xB0100, 0x20, 8, 0xE0FFFFFFFFFFFFFF, 0x0, 0x0, 0x0, 0x0⟩,
  ⟨0xB0108, 0x20, 8, 0xFFFFFFFFFFFFFFFF, 0x0, 0x0, 0x0, 0xFFFFFFFFF0000000⟩,
  ⟨0xB0110, 0x20, 8, 0xFFFFFFFFFFFFFFFF, 0x0, 0x0, 0x0, 0x1⟩,
  ⟨0xB0118, 0x20, 8, 0x0, 0x0, 0x0, 0x0, 0x0⟩,
  ⟨0xF0000, 0x0, 1, 0x3FFFFC0, 0x0, 0x0, 0x0, 0x0⟩,
  ⟨0xF0008, 0x8, 8, 0x0, 0x0, 0x0, 0x0, 0x0⟩]

/-- Continuation of the rows of R411. -/
def regTableE : List RegRow := [
  ⟨0xF0100, 0x0, 1, 0x80FFFFFF0000001F, 0x0, 0x0, 0x0, 0xFFFF00000000⟩,
  ⟨0xF0108, 0x0, 1, 0xF00FFFFFFFFFFC0, 0x0, 0x0, 0x0, 0x100000000000000⟩,
  ⟨0xF0110, 0x0, 1, 0x0, 0x0, 0x0, 0x0, 0x0⟩]

/-- Every register of stepping A2 (R411). -/
def regTable : List RegRow := regTableA ++ regTableB ++ regTableC ++ regTableD ++ regTableE

/-- Does the row hold a register at this byte address? -/
def rowHas (r : RegRow) (a : Nat) : Bool :=
  r.base ≤ a && (if r.stride = 0 then a == r.base
    else (a - r.base) % r.stride == 0 && (a - r.base) / r.stride < r.count)

/-- The row of the register at a byte address; none: unmapped (R394). -/
def regRow (a : Nat) : Option RegRow := regTable.find? (fun r => rowHas r a)

/-- The byte address 0xA_0200 + 8·g of PX_ERR_BANKMAP resets to the identity map (R392, R411). -/
def bankmapReset (g : Nat) : W64 :=
  BitVec.ofNat 64 (((List.range 8).map (fun b => (8 * g + b) * 2 ^ (8 * b))).foldl (· + ·) 0)

/-- The value of a register right after PX_RST_N (R402, R411). -/
def regReset (a : Nat) : W64 :=
  match regRow a with
  | none => 0
  | some r => if r.base = 0xA0200 then bankmapReset ((a - 0xA0200) / 8) else BitVec.ofNat 64 r.reset

end Sys2Proof.Machine
end

