-- ==== Sys2Proof/Machine/Ops.lean ====
section
/-! DEFINITION. The named operations over registers, Mica, time, error records and attention that every command shares
(R6 to R9, R137 to R143, R226, R228, R375 to R379, R427). -/

namespace Sys2Proof.Machine

/-! ## Registers -/

/-- The stored value of the register at a byte address. (DESIGN CHOICE, log 1) -/
def rd (s : State) (a : Nat) : W64 := mapGet (regReset a) s.regs a

/-- Store a register's value. (DESIGN CHOICE, log 1) -/
def wr (s : State) (a : Nat) (v : W64) : State := { s with regs := mapPut (regReset a) s.regs a v }

/-- A field of a register. -/
def fld (s : State) (a : Nat) (f : Field) : Nat := bits (rd s a).toNat f.lo f.width

/-- Write a field of a register, modulo its width. -/
def setFld (s : State) (a : Nat) (f : Field) (v : Nat) : State :=
  wr s a (BitVec.ofNat 64 (setBits (rd s a).toNat f.lo f.width v))

/-- A one-bit field. -/
def flag (s : State) (a : Nat) (f : Field) : Bool := fld s a f != 0

def setFlag (s : State) (a : Nat) (f : Field) (b : Bool) : State := setFld s a f (b2n b)

/-- A counter field counts modulo its width (R9). -/
def incFld (s : State) (a : Nat) (f : Field) (n : Nat) : State := setFld s a f (fld s a f + n)

/-- A counter field that saturates. -/
def satFld (s : State) (a : Nat) (f : Field) (n : Nat) : State :=
  setFld s a f (min (fld s a f + n) (2 ^ f.width - 1))

/-- Set bits of a register by a mask. -/
def orReg (s : State) (a m : Nat) : State := wr s a (rd s a ||| BitVec.ofNat 64 m)

/-- A signed field. -/
def sfld (s : State) (a : Nat) (f : Field) : Int := toSigned f.width (fld s a f)

/-! ## Tables of plain data -/

def tabGet {α : Type} (d : α) (m : List (Nat × α)) (k : Nat) : α := mapGet d m k

def tabSet {α : Type} (m : List (Nat × α)) (k : Nat) (v : α) : List (Nat × α) := mapIns k v (mapDel k m)

def vein (s : State) (v : Nat) : VeinSt := tabGet VeinSt.init s.veins v
def setVein (s : State) (v : Nat) (x : VeinSt) : State := { s with veins := tabSet s.veins v x }
def strm (s : State) (i : Nat) : StreamSt := tabGet StreamSt.init s.streams i
def setStrm (s : State) (i : Nat) (x : StreamSt) : State := { s with streams := tabSet s.streams i x }
def mcg (s : State) (g : Nat) : McSt := tabGet McSt.init s.groups g
def setMcg (s : State) (g : Nat) (x : McSt) : State := { s with groups := tabSet s.groups g x }
def arr (s : State) (a : Nat) : ArrSt := tabGet ArrSt.init s.arrays a
def setArr (s : State) (a : Nat) (x : ArrSt) : State := { s with arrays := tabSet s.arrays a x }

/-! ## Output groups (R415, R423) -/

/-- The outputs of the TIME group are out of their clamp (R415). -/
def timeUnclamped (s : State) : Bool :=
  match s.su with | .ready => true | .run => true | .fatal => true | _ => false

/-- The units on VDD_PX work: the block is past CLAMPED, and neither refused nor fatal (R329, R335, R415). -/
def pxRuns (s : State) : Bool :=
  match s.su with
  | .off => false | .clamped => false | .safe => false | .fatal => false | _ => true

/-- A link in OFF, FENCED, ABSENT or DOWN (R299). -/
def linkDark (s : State) (l : Nat) : Bool :=
  [0, 6, 7, 8].contains (fld s (Reg.xlLnkState l) Fl.xlLnkState_STATE)

/-- The head reads its flash: at the load, a reload or a re-send, before RUN too (R312, R316, R334, R415).
(DESIGN CHOICE, log 137) -/
def flashOn (s : State) : Bool := s.strap.head && 1 ≤ s.slt.job && s.slt.job ≤ 5 && pxRuns s

/-- From RESET until the OPP section is applied: the load raises the point as it ends (R415, R419). -/
def beforeOpp (s : State) : Bool := s.su == .reset || (s.su == .load && s.trm.trans.isNone)

/-- A group of outputs is clamped by the block's state (R415). -/
def groupClamped (s : State) (g : Nat) : Bool :=
  if g < 5 then !pxRuns s
  else if g < 11 then !pxRuns s || linkDark s (g - 5)
  else if g = 12 then !flashOn s
  else if g = 13 then !timeUnclamped s
  else if g = 14 then !pxRuns s || beforeOpp s
  else s.su == .off

/-- A wrapper instruction governs the outputs: WS_CLAMP until the next instruction (R426), WS_EXTEST while TEST_HOLD is
high (R424). -/
def wrapGoverns (s : State) : Bool := s.svc.wir == 4 || (s.svc.wir == 1 && s.svc.testHold)

/-- What the outputs of a group stand at. WS_EXTEST drives a group that the block's state clamps as well.
(DESIGN CHOICE, log 149) -/
def driveOf (s : State) (g : Nat) : Drive :=
  if s.svc.wir == 1 && s.svc.testHold then .boundary s.svc.boundary
  else if s.svc.wir == 4 || groupClamped s g then .strap (bit s.strap.clamp.toNat g)
  else .block

/-- What the block drives at a port is seen there. -/
def portLive (s : State) (g : Nat) : Bool := !wrapGoverns s && !groupClamped s g

/-- Something is driven at a port; beneath a clamp it is not seen (R415, R426). (DESIGN CHOICE, log 2) -/
def emit (s : State) (o : Out) : State := { s with out := if portLive s o.group then s.out ++ [o] else s.out }

def emits (s : State) (os : List Out) : State := { s with out := s.out ++ os.filter (fun o => portLive s o.group) }

/-- A free value of w bits: a value the spec leaves open. (DESIGN CHOICE, log 3) -/
def takeFree (s : State) (w : Nat) : Nat × State :=
  (Config.freeValue s.free % 2 ^ w, { s with free := s.free + 1 })

/-! ## Mica (R137 to R143) -/

/-- Bytes of Mica software can address (R137). -/
def micaSize : Nat := 0x3000000

/-- A byte of Mica; a byte nothing has written since RESET cleared Mica reads 0 (R335). (DESIGN CHOICE, log 7) -/
def micaByte (s : State) (x : Nat) : Byte := mapGet 0 s.mica x

def micaPutByte (s : State) (x : Nat) (b : Byte) : State := { s with mica := mapPut 0 s.mica x b }

/-- The cells of a run of bytes; zero bytes are not listed. -/
def newCells : Nat → List Byte → List Host.Cell
  | _, [] => []
  | x, b :: bs => if b = 0 then newCells (x + 1) bs else (x, b) :: newCells (x + 1) bs

/-- A run of bytes replaces what the list held at its offsets. -/
def micaPutBytes (m : List Host.Cell) (x : Nat) (bs : List Byte) : List Host.Cell :=
  m.filter (fun c => decide (c.1 < x)) ++ newCells x bs ++ m.filter (fun c => decide (x + bs.length ≤ c.1))

/-- n bytes from an offset. -/
def micaRead (s : State) (x n : Nat) : List Byte :=
  let near := s.mica.filter (fun c => decide (x ≤ c.1) && decide (c.1 < x + n))
  (List.range n).map (fun i => mapGet 0 near (x + i))

/-- Word indices of the 16-byte words that a write covers whole (R375: such a write clears poison). -/
def coveredWords (x n : Nat) : List Nat :=
  (List.range (n / 16 + 1)).filterMap (fun i =>
    let w := cdiv x 16 + i
    if x ≤ 16 * w && 16 * w + 16 ≤ x + n then some w else none)

/-- Write bytes at an offset. -/
def micaWrite (s : State) (x : Nat) (bs : List Byte) : State :=
  { s with
    mica := micaPutBytes s.mica x bs
    poison := s.poison.filter (fun w => !(coveredWords x bs.length).contains w) }

/-- A little-endian number in Mica. -/
def micaNat (s : State) (x n : Nat) : Nat := leNat (micaRead s x n)

/-- A 64-bit word in Mica. -/
def micaWord (s : State) (x : Nat) : W64 := BitVec.ofNat 64 (micaNat s x 8)

/-- Is some word of the range poisoned? (R143) -/
def poisoned (s : State) (x n : Nat) : Bool := n != 0 && s.poison.any (fun w => x < 16 * w + 16 && 16 * w < x + n)

/-- Insert into a rising list without repeats. -/
def insNat (x : Nat) : List Nat → List Nat
  | [] => [x]
  | y :: ys => if x < y then x :: y :: ys else if x = y then y :: ys else y :: insNat x ys

/-- Insert before the first entry that le does not put earlier. -/
def insertBy {α : Type} (le : α → α → Bool) (x : α) : List α → List α
  | [] => [x]
  | y :: ys => if le x y then x :: y :: ys else y :: insertBy le x ys

/-- In the order of le; entries that le does not tell apart keep theirs. -/
def sortBy {α : Type} (le : α → α → Bool) (l : List α) : List α := l.foldr (insertBy le) []

/-- Poison the word that holds an offset (R143). -/
def poisonAt (s : State) (x : Nat) : State := { s with poison := insNat (x / 16) s.poison }

/-- The canonical form of Mica: rising offsets, no zero byte listed, poison marks rising. -/
def Memory.wf (s : State) : Bool :=
  mapWf (fun _ => (0 : Byte)) s.mica && decide (s.poison.Pairwise (· < ·))

/-- First byte offset of a region and its end (R138, R139): 0 A-Mica, 1 W-Mica, 2 X-Mica, 3 S-Mica. -/
def regionGroups (s : State) (r : Nat) : Nat :=
  match r with
  | 0 => fld s Reg.stmMicaMap Fl.stmMicaMap_A_GROUPS
  | 1 => fld s Reg.stmMicaMap Fl.stmMicaMap_W_GROUPS
  | 2 => fld s Reg.stmMicaMap Fl.stmMicaMap_X_GROUPS
  | _ => fld s Reg.stmMicaMap Fl.stmMicaMap_S_GROUPS

def regionBase (s : State) (r : Nat) : Nat :=
  ((List.range r).map (fun i => regionGroups s i)).foldl (· + ·) 0 * 0x200000

def regionEnd (s : State) (r : Nat) : Nat := regionBase s r + regionGroups s r * 0x200000

/-- The range [x, x+n) lies within one region. -/
def inRegion (s : State) (r x n : Nat) : Bool := regionBase s r ≤ x && x + n ≤ regionEnd s r

/-- A tenant's partition of a region in bytes (R281). -/
def partRange (s : State) (t r : Nat) : Nat × Nat :=
  let a := Reg.trmMpart (4 * t + r)
  (fld s a Fl.trmMpart_BASE * 4096, fld s a Fl.trmMpart_LIMIT * 4096)

/-- [x, x+n) lies in the tenant's partition of region r. -/
def inPart (s : State) (t r x n : Nat) : Bool :=
  let (b, l) := partRange s t r
  b ≤ x && x + n ≤ l

/-- [x, x+n) lies in one region and in the tenant's partition of it (R140). -/
def inTenant (s : State) (t x n : Nat) : Bool :=
  (List.range 4).any (fun r => inRegion s r x n && inPart s t r x n)

/-- Logical bank and line of an offset (R138). -/
def micaPlace (s : State) (x : Nat) : Nat × Nat :=
  match (List.range 4).find? (fun r => inRegion s r x 1) with
  | none => (0, 0)
  | some r =>
    let b := 8 * regionGroups s r
    let n := (x - regionBase s r) / 64
    (regionBase s r / 0x40000 + n % b, n / b)

/-- Physical bank that serves a logical bank (R382). -/
def physBank (s : State) (b : Nat) : Nat := bits (rd s (Reg.errBankmap (b / 8))).toNat (8 * (b % 8)) 8

/-! ## Identity and time -/

def stratum (s : State) : Nat := fld s Reg.strId Fl.strId_STRATUM
def frameNo (s : State) : Nat := fld s Reg.crnFrame Fl.crnFrame_FRAME
def epochNo (s : State) : Nat := fld s Reg.crnState Fl.crnState_EPOCH

/-- The timestamp: the upper 64 bits of time (R228). -/
def tstamp (s : State) : Nat := (s.crn.time / 2 ^ 32) % 2 ^ 64

/-- serial_cmp of R230: 0 SAME, 1 BEFORE, 2 AFTER, 3 UNORDERED. -/
def serialCmp (a b w : Nat) : Nat :=
  let d := (b + 2 ^ w - a % 2 ^ w) % 2 ^ w
  if d = 0 then 0 else if d < 2 ^ (w - 1) then 1 else if d > 2 ^ (w - 1) then 2 else 3

/-- seq_before of R194. -/
def seqBefore (a b : Nat) : Bool := serialCmp a b 32 == 1

/-- a − b of two timestamps, by their serial order (R229, R230). -/
def tsDiff (a b : Nat) : Int := toSigned 64 ((a + 2 ^ 64 - b % 2 ^ 64) % 2 ^ 64)

def isRun (s : State) : Bool := s.su == .run

/-! ## Status codes (R226) -/

namespace St
def ok : Nat := 0x00
def okCorrected : Nat := 0x01
def okReplayed : Nat := 0x02
def predCorrected : Nat := 0x03
def coldScale : Nat := 0x04
def frozenSkipped : Nat := 0x05
def opUnknown : Nat := 0x10
def fieldReserved : Nat := 0x11
def formatMismatch : Nat := 0x12
def shapeIllegal : Nat := 0x13
def seqMismatch : Nat := 0x14
def queueOverrun : Nat := 0x15
def stateIllegal : Nat := 0x20
def resourceBusy : Nat := 0x21
def claimShort : Nat := 0x22
def privDenied : Nat := 0x23
def wgenStale : Nat := 0x30
def indexDropped : Nat := 0x31
def micaPoison : Nat := 0x32
def checkFailed : Nat := 0x33
def endpointError : Nat := 0x34
def stateCrc : Nat := 0x35
def stateStep : Nat := 0x36
def frameOverrun : Nat := 0x40
def tickLost : Nat := 0x41
def semTimeout : Nat := 0x42
def calAborted : Nat := 0x50
def calDomain : Nat := 0x51
def linkDown : Nat := 0x60
def routeNone : Nat := 0x61
def slateConflict : Nat := 0x70
def slateCrc : Nat := 0x71
def slateSig : Nat := 0x72
def slateFormat : Nat := 0x73
def slateFlash : Nat := 0x74
def fatalInternal : Nat := 0x80
def fatalUcode : Nat := 0x81
def fatalTable : Nat := 0x82
def fatalThermal : Nat := 0x83
end St

/-- Statuses whose row says halt (R226). WGEN_STALE halts later, at a mark (R352). -/
def halts (c : Nat) : Bool :=
  (0x10 ≤ c && c ≤ 0x15) || (0x20 ≤ c && c ≤ 0x23) || c == 0x32 || c == 0x33 || c == 0x34 || c == 0x42 ||
  c == 0x60 || c == 0x61

def maxOf (l : List Nat) : Nat := l.foldl max 0

/-! ## Attention and error records (R376 to R379, R427) -/

/-! Summary bits of R427. -/

namespace Unit
def num : Nat := 0
def stm : Nat := 2
def sem : Nat := 3
def vn : Nat := 4
def crn : Nat := 5
def trm : Nat := 6
def xl : Nat := 7
def str : Nat := 8
def slt : Nat := 9
def tch : Nat := 10
def err : Nat := 11
def flt : Nat := 12
end Unit

def summarize (s : State) (u : Nat) : State :=
  setFld s Reg.errSummary Fl.errSummary_UNITS (fld s Reg.errSummary Fl.errSummary_UNITS ||| (1 <<< u))

/-- A notice on ATN_NOTE (R379, R427). -/
def notice (s : State) (u : Nat) : State := summarize (setFlag s Reg.errAtn Fl.errAtn_NOTE true) u

/-- ERR of PX_ERR_ATN, by a CONTAINED or FRAME record or a vein halt (R379). -/
def attnErr (s : State) (u : Nat) : State := summarize (setFlag s Reg.errAtn Fl.errAtn_ERR true) u

/-- The unit of a detector (R427). (DEDUCED, log 116) -/
def detUnit (d : Nat) : Nat :=
  match d with
  | 0x01 => Unit.stm | 0x02 => Unit.stm | 0x0D => Unit.stm
  | 0x03 => Unit.err | 0x0B => Unit.err | 0x0C => Unit.err
  | 0x04 => Unit.tch | 0x05 => Unit.tch | 0x06 => Unit.tch | 0x07 => Unit.tch | 0x08 => Unit.tch | 0x09 => Unit.tch
  | 0x0A => Unit.vn
  | 0x0E => Unit.num
  | 0x10 => Unit.xl | 0x11 => Unit.xl | 0x12 => Unit.xl | 0x13 => Unit.xl | 0x14 => Unit.xl
  | 0x15 => Unit.sem
  | 0x16 => Unit.crn | 0x17 => Unit.crn
  | 0x18 => Unit.str
  | 0x19 => Unit.trm | 0x1A => Unit.trm | 0x1B => Unit.trm
  | _ => Unit.vn

/-- The contents of an error record that its cause gives (R377). (DESIGN CHOICE, log 29) -/
structure ErrRec where
  sev    : Nat                 -- 0 CORRECTED, 1 CONTAINED, 2 FRAME, 3 FATAL
  det    : Nat
  status : Nat
  tenant : Option Nat
  seq    : Nat
  vein   : Option Nat
  lkind  : Nat
  loc    : Nat
  d0     : Nat
  d1     : Nat
  inj    : Bool
  unit   : Nat                 -- summary bit; for detectors detUnit
  always : Bool                -- written whatever CEREC says (R378)
  snap   : Bool                -- DETAIL0 is a snapshot of registers that the spec does not name
  deriving DecidableEq, Repr

/-- A record of a detector with nothing but its severity. -/
def ErrRec.ofDet (sev det : Nat) : ErrRec :=
  ⟨sev, det, 0, none, 0, none, 0, 0, 0, 0, false, detUnit det, false, det ≠ 0⟩

/-- The first 60 bytes of a record (R377). -/
def recBytes (s : State) (r : ErrRec) (gap : Bool) (count recno : Nat) : List Byte :=
  leBytes 1 (r.sev + 4 * b2n r.inj + 8 * b2n gap) ++ leBytes 1 r.det ++ leBytes 1 r.status ++
  leBytes 1 (match r.tenant with | none => 0 | some t => t % 4 + 4) ++
  leBytes 4 r.seq ++ leBytes 8 (tstamp s) ++ leBytes 6 (frameNo s) ++ leBytes 2 (epochNo s) ++
  leBytes 2 (stratum s) ++ leBytes 1 (match r.vein with | none => 0 | some v => v % 16 + 128) ++
  leBytes 1 r.lkind ++ leBytes 4 r.loc ++ leBytes 8 r.d0 ++ leBytes 8 r.d1 ++ leBytes 8 count ++ leBytes 4 recno

/-- The mirror registers move down by one record (R378). -/
def shiftMirror (s : State) : Nat → State
  | 0 => s
  | n + 1 =>
    -- record n goes to place n + 1, highest first
    (List.range 8).foldl (fun (s : State) w => wr s (Reg.errLast (8 * (n + 1) + w)) (rd s (Reg.errLast (8 * n + w))))
      s |> fun s => shiftMirror s n

/-- Has software written READ past this record number? (R378) (DEDUCED, log 117) -/
def recRead (s : State) (n : Nat) : Bool := serialCmp n (fld s Reg.errRingPtr Fl.errRingPtr_READ) 32 == 1

/-- Write a record to the ring and the mirror (R378). (DEDUCED, log 117) -/
def writeRec (s : State) (r : ErrRec) (count : Nat) : State :=
  let recno := fld s Reg.errRingPtr Fl.errRingPtr_WRITTEN
  let ring := flag s Reg.errRingCfg Fl.errRingCfg_ENABLE
  let back := if ring then 256 else 8
  let gap := (s.recWrap || recno ≥ back) && !recRead s ((recno + 2 ^ 32 - back) % 2 ^ 32)
  let body := recBytes s r gap count recno
  let bytes := body ++ leBytes 4 (crc32c body)
  let s := shiftMirror s 7
  let s := ((leWords bytes).zip (List.range 8)).foldl (fun (s : State) p => wr s (Reg.errLast p.2) p.1) s
  let s := if ring then micaWrite s (fld s Reg.errRingCfg Fl.errRingCfg_BASE * 4096 + 64 * (recno % 256)) bytes else s
  let s := setFld s Reg.errRingPtr Fl.errRingPtr_WRITTEN (recno + 1)
  { s with recWrap := s.recWrap || recno + 1 == 2 ^ 32 }

/-- Write a record; DETAIL0 of a detector whose register snapshot the spec does not name is a free value (R377).
(DESIGN CHOICE, log 29) -/
def snapRec (s : State) (r : ErrRec) (count : Nat) : State :=
  let (d0, s) := if r.snap then takeFree s 64 else (r.d0, s)
  writeRec s { r with d0 := d0 } count

/-- The start-up states that follow a state (R335). Power and PX_RST_N move the block by themselves; SAFE and FATAL are
held until then. (DEDUCED, log 105, 106) -/
def suNext : Su → List Su
  | .reset => [.load, .fatal]
  | .load => [.selftest, .safe, .fatal]
  | .selftest => [.linkup, .fatal]
  | .linkup => [.linkupDone, .fatal]
  | .linkupDone => [.timelock, .fatal]
  | .timelock => [.ready, .fatal]
  | .ready => [.run, .fatal]
  | .run => [.fatal]
  | .off | .clamped | .safe | .fatal => []

/-- The block enters a start-up state that follows the present one; else it stays. SAFE and FATAL are clamped states: the
clamp straps take effect there (R415, R422). (DEDUCED, log 106) -/
def enterSu (s : State) (x : Su) : State :=
  if x ∈ suNext s.su then
    { s with su := x, strap := if x = .safe ∨ x = .fatal then { s.strap with clamp := s.pins.clamp } else s.strap }
  else s

/-- Everything that a FATAL status does (R376): every vein enters OFF, the block enters FATAL, ATN_FATAL rises.
(DEDUCED, log 105) -/
def goFatal (s : State) (code : Nat) : State :=
  if s.su == .fatal then s
  else
    let s := enterSu s .fatal
    let s := setFlag s Reg.errAtn Fl.errAtn_FATAL true
    let s := setFld s Reg.idGstat Fl.idGstat_FATALCODE code
    (List.range 16).foldl (fun (s : State) v =>
      let s := setFld s (Reg.vnStat v) Fl.vnStat_STATE 0
      setVein s v { VeinSt.init with stamp := (vein s v).stamp }) s

/-- An event of a detector or a record without one: counted, recorded and raised by its severity.
(DESIGN CHOICE, log 29; DEDUCED, log 116) -/
def recordErr (s : State) (r : ErrRec) : State :=
  let count := (mapGet 0 s.detCount r.det) + 1
  let s := if r.det = 0 then s else { s with detCount := tabSet s.detCount r.det count }
  let s := match r.sev with
    | 0 => incFld s Reg.errCntCe Fl.errCntCe_COUNT 1
    | 1 => incFld s Reg.errCnt Fl.errCnt_CONTAINED 1
    | 2 => incFld s Reg.errCnt Fl.errCnt_FRAME 1
    | _ => incFld s Reg.errCnt Fl.errCnt_FATAL 1
  let s := if r.sev ≠ 0 || r.always || flag s Reg.errCtrl Fl.errCtrl_CEREC then
      snapRec s r (if r.det = 0 then 0 else count)
    else s
  let s := if r.sev = 1 || r.sev = 2 then attnErr s r.unit else s
  -- a record with INJ set, of whatever severity but FATAL, shows under FLT as well (R427)
  let s := if r.inj && r.sev < 3 then summarize s Unit.flt else s
  if r.sev = 3 then goFatal s r.status else s

/-- Set flags of a tenant's sticky register (R54). -/
def setFlags (s : State) (t m : Nat) : State := if m = 0 then s else orReg s (Reg.numFlags t) (m % 256)

end Sys2Proof.Machine
end

