-- ==== Sys2Proof/Machine/LinkOps.lean ====
section
/-! DEFINITION. Sending over the Xiulil links: states, modes, messages as flits, routes (R283 to R294). -/

namespace Sys2Proof.Machine

def link (s : State) (l : Nat) : LinkSt := tabGet LinkSt.init s.links l
def setLink (s : State) (l : Nat) (x : LinkSt) : State := { s with links := tabSet s.links l x }

/-! States of PX_XL_LNKn_STATE (R310). -/

namespace Lk
def off : Nat := 0
def detect : Nat := 1
def announce : Nat := 2
def select : Nat := 3
def calibrate : Nat := 4
def active : Nat := 5
def fenced : Nat := 6
def absent : Nat := 7
def down : Nat := 8
end Lk

def linkState (s : State) (l : Nat) : Nat := fld s (Reg.xlLnkState l) Fl.xlLnkState_STATE
def setLinkState (s : State) (l st : Nat) : State := setFld s (Reg.xlLnkState l) Fl.xlLnkState_STATE st
/-- Is the link group unclamped as far as the block's state goes? (R415) -/
def linksDriven (s : State) : Bool := pxRuns s

def linkActive (s : State) (l : Nat) : Bool := decide (l < 6) && linkState s l == Lk.active && linksDriven s

/-- A bit of the mode word in force (R296). -/
def modeBit (s : State) (l b : Nat) : Bool := (rd s (Reg.xlLnkMode l)).toNat.testBit b

def tickCarriage (s : State) (l : Nat) : Bool := modeBit s l 30

/-- Does the link's mode carry a channel? (R289) LINKCTL needs nothing. -/
def carries (s : State) (l vc : Nat) : Bool :=
  match vc with
  | 0 => modeBit s l 30 | 1 => modeBit s l 31 | 2 => true | _ => modeBit s l 35

/-- The negotiated maximum payload in bytes (R296). (DESIGN CHOICE, log 42) -/
def maxPayload (s : State) (l : Nat) : Nat :=
  if modeBit s l 38 then 4096 else if modeBit s l 37 then 1024 else 256

/-- Flit lanes of the mode (R283). -/
def laneCount (s : State) (l : Nat) : Nat :=
  let full := if l < 4 then 4 else 2
  if modeBit s l 44 then full else if modeBit s l 43 then full / 2 else 1

/-- A queued flit: channel, kind, run length, header, payload. -/
def mkFlit (vc kind zcnt mhdr : Nat) (payload : List Byte) : Flit :=
  ⟨BitVec.ofNat 128 ((vc <<< 70) + (kind <<< 67) + (zcnt <<< 64) + mhdr % 2 ^ 64), payload⟩

def pad64 (bs : List Byte) : List Byte := bs ++ List.replicate (64 - bs.length) 0

/-- 64-byte lines of a byte list. -/
def linesAux : Nat → List Byte → List (List Byte)
  | 0, _ => []
  | _, [] => []
  | n + 1, bs => pad64 (bs.take 64) :: linesAux n (bs.drop 64)

def linesOf (bs : List Byte) : List (List Byte) := linesAux bs.length bs

/-- A message as flits: HEAD first, then BODY flits, with runs of zero lines as ZBODY when the mode has it. -/
def bodyFlits (zrc : Bool) (vc : Nat) : List (List Byte) → Nat → List Flit
  | [], 0 => []
  | [], z + 1 => [mkFlit vc 3 z 0 (List.replicate 64 0)]
  | l :: ls, z =>
    if zrc && l.all (· == 0) then
      if z = 7 then mkFlit vc 3 7 0 (List.replicate 64 0) :: bodyFlits zrc vc ls 0
      else bodyFlits zrc vc ls (z + 1)
    else
      (if z = 0 then [] else [mkFlit vc 3 (z - 1) 0 (List.replicate 64 0)]) ++ mkFlit vc 2 0 0 l :: bodyFlits zrc vc ls 0

def msgFlits (zrc : Bool) (vc mhdr : Nat) (bytes : List Byte) : List Flit :=
  match linesOf bytes with
  | [] => [mkFlit vc 1 0 mhdr (List.replicate 64 0)]
  | l :: ls => mkFlit vc 1 0 mhdr l :: bodyFlits zrc vc ls 0

/-- Put a message into a channel's queue of a link. -/
def sendMsg (s : State) (l vc mhdr : Nat) (bytes : List Byte) : State :=
  let k := link s l
  let fs := msgFlits (modeBit s l 34) vc mhdr bytes
  setLink s l (match vc with
    | 0 => { k with q0 := k.q0 ++ fs }
    | 1 => { k with q1 := k.q1 ++ fs }
    | 2 => { k with q2 := k.q2 ++ fs }
    | _ => { k with q3 := k.q3 ++ fs })

/-! ## Tags (R286) -/

def tg (f : Flit) (lo n : Nat) : Nat := bits f.tag.toNat lo n
def fVc (f : Flit) : Nat := tg f 70 2
def fKind (f : Flit) : Nat := tg f 67 3
def fZcnt (f : Flit) : Nat := tg f 64 3
def fMhdr (f : Flit) : Nat := tg f 0 64

/-- Credits a flit costs (R289). -/
def fCost (f : Flit) : Nat := if (fKind f) == 0 then 0 else if (fKind f) == 3 then (fZcnt f) + 1 else 1

/-! ## Receive buffers (R288, R289) -/

/-- Divide a receive buffer into the flits of the oldest message of a channel whose header a test accepts, and the rest.
on: inside that message; past: behind it. -/
def splitMsg (vc : Nat) (is : Nat → Bool) : Bool → Bool → List (Flit × Bool) → List (Flit × Bool) × List (Flit × Bool)
  | _, _, [] => ([], [])
  | on, past, x :: xs =>
    let head := fKind x.1 == 1
    if fVc x.1 == vc && !past && ((on && !head) || (!on && head && is (fMhdr x.1))) then
      let r := splitMsg vc is true false xs
      (x :: r.1, r.2)
    else
      let r := splitMsg vc is on (past || (on && head && fVc x.1 == vc)) xs
      (r.1, x :: r.2)

/-- A message leaves the receive buffer of its channel, and its credits go back (R289). -/
def drainMsg (s : State) (l vc : Nat) (is : Nat → Bool) : State :=
  let k := link s l
  let (m, rest) := splitMsg vc is false false k.rx
  let n := (m.map (fun x => fCost x.1)).foldl (· + ·) 0
  setLink s l { k with rx := rest, ret := k.ret.set vc (k.ret.getD vc 0 + n) }

/-- A header of a message type. -/
def msgType (t m : Nat) : Bool := m / 2 ^ 60 == t

/-- Did the oldest message of a type come in a replayed beat? Then its timing counts for nothing (R293). -/
def fromReplay (s : State) (l vc t : Nat) : Bool := (splitMsg vc (msgType t) false false (link s l).rx).1.any (·.2)

/-! ## Messages (R291 to R293) -/

def vc0Hdr (s : State) (mtype low : Nat) : Nat := (mtype <<< 60) + (stratum s <<< 50) + low

def payloadOf (ps : List Nat) : List Byte := ps.flatMap (leBytes 8)

def sendLinkctl (s : State) (l op p0 p1 : Nat) : State := sendMsg s l 0 (vc0Hdr s 0 op) (payloadOf [p0, p1])

def sendSync (s : State) (l lode hops epoch t1 frame : Nat) : State :=
  sendMsg s l 0 (vc0Hdr s 1 ((lode <<< 40) + (hops <<< 36) + (epoch <<< 20))) (payloadOf [t1, frame])

def sendDreq (s : State) (l t3 : Nat) : State := sendMsg s l 0 (vc0Hdr s 2 0) (payloadOf [t3])

def sendDresp (s : State) (l t3 t4 : Nat) : State := sendMsg s l 0 (vc0Hdr s 3 0) (payloadOf [t3, t4])

def sendTick (s : State) (l epoch g frame step : Nat) : State :=
  sendMsg s l 0 (vc0Hdr s 4 (epoch <<< 20)) (payloadOf [g, frame, step])

def sendHold (s : State) (l epoch g frame : Nat) : State :=
  sendMsg s l 0 (vc0Hdr s 5 (epoch <<< 20)) (payloadOf [g, frame])

def sendTakeover (s : State) (l lode epoch frame : Nat) : State :=
  sendMsg s l 0 (vc0Hdr s 6 ((lode <<< 40) + (epoch <<< 20))) (payloadOf [0, frame])

def sendTokenMsg (s : State) (l frame blocks : Nat) (late : Bool) (lowest : Nat) : State :=
  sendMsg s l 0 (vc0Hdr s 7 0) (payloadOf [0, frame, blocks + (b2n late <<< 16) + (lowest <<< 32)])

def sendReady (s : State) (l blocks : Nat) : State := sendMsg s l 0 (vc0Hdr s 8 0) (payloadOf [blocks])

/-- Header of a routed message (R292): 1 POST, 2 WACK, 3 WNAK, 4 WRITE. -/
def routedMhdr (kind : Nat) (h : RoutedHdr) : Nat :=
  if kind = 1 then
    (1 <<< 60) + (h.dst <<< 50) + (h.src <<< 40) + (h.tenant <<< 38) + (h.offset <<< 30) + (h.lenM1 <<< 14)
  else
    ((if kind = 4 then 1 else kind) <<< 60) + (h.dst <<< 50) + (h.src <<< 40) + (h.tenant <<< 38) +
      (h.offset <<< 12) + h.lenM1

def routedVc (kind : Nat) : Nat := if kind = 4 then 2 else 1

/-- A WRITE's payload lies at its place within its 64-byte lines (R292). -/
def writePayload (h : RoutedHdr) (bs : List Byte) : List Byte := List.replicate (h.offset % 64) 0 ++ bs

def sendRouted (s : State) (l : Nat) (r : Routed) : State :=
  sendMsg s l (routedVc r.kind) (routedMhdr r.kind r.hdr) (if r.kind = 4 then writePayload r.hdr r.bytes else [])

def sendMcdata (s : State) (l group root parcel first : Nat) (last : Bool) (sq : Nat) (bs : List Byte) : State :=
  sendMsg s l 3 ((1 <<< 60) + (group <<< 54) + (root <<< 44) + ((parcel % 2 ^ 24) <<< 20) + (first <<< 14) +
    (b2n last <<< 13) + ((sq % 16) <<< 9)) bs

def sendMccred (s : State) (l group sq parcel : Nat) : State :=
  sendMsg s l 3 ((2 <<< 60) + (group <<< 54) + ((sq % 16) <<< 50) + ((parcel % 2 ^ 24) <<< 20)) []

/-! ## Routes (R294) -/

inductive Hop where
  | via (l : Nat)
  | wait
  | fail
  deriving DecidableEq, Repr

def routeEntry (s : State) (dst : Nat) : Nat := bits (rd s (Reg.xlRoute (dst / 8))).toNat (8 * (dst % 8)) 8

/-- next_link of R294. -/
def nextLink (s : State) (dst vc : Nat) (arrived : Option Nat) : Hop :=
  let e := routeEntry s dst
  let ls := [e % 16, e / 16]
  match ls.find? (fun l => l != 0xF && some l != arrived && linkActive s l && carries s l vc) with
  | some l => .via l
  | none =>
    if ls.any (fun l => l != 0xF && some l != arrived &&
        [Lk.announce, Lk.select, Lk.calibrate, Lk.detect].contains (linkState s l)) then .wait
    else .fail

/-- The route names the link that the message arrived on. -/
def routesBack (s : State) (dst : Nat) (arrived : Option Nat) : Bool :=
  let e := routeEntry s dst
  match arrived with
  | none => false
  | some l => e % 16 == l || e / 16 == l

/-- A routed message from a link leaves the receive buffer in which it stood until now (R289, R294). -/
def releaseMsg (s : State) (r : Routed) : State :=
  match r.arrived with
  | none => s
  | some l => drainMsg s l (routedVc r.kind) (· == routedMhdr r.kind r.hdr)

end Sys2Proof.Machine
end

