-- ==== Sys2Proof/Machine/Flint.lean ====
section
/-! DEFINITION. Flint injection (R387 to R390): which armed injector corrupts an event of a detector. -/

namespace Sys2Proof.Machine

/-- The target of an event, as the selector of W1 names it (R388). A location that the detector's kind does not have is
none, and then LOC names nothing. (DEDUCED, log 100) -/
structure InjSel where
  unit   : Nat
  index  : List Nat       -- the indices that the event has (physical columns in use, a bank, a slot); none: any index
  tenant : Option Nat
  vein   : Option Nat
  loc    : Option Nat
  deriving DecidableEq, Repr

def InjSel.ofUnit (u : Nat) : InjSel := ⟨u, [], none, none, none⟩

def injDet (s : State) (n : Nat) : Nat := fld s (Reg.fltInjW0 n) Fl.fltInjW0_DET
def injArmed (s : State) (n : Nat) : Bool := flag s (Reg.fltInjW0 n) Fl.fltInjW0_ARMED

/-- Unit and index match, 0xFF meaning any. -/
def injUnit (s : State) (n : Nat) (x : InjSel) : Bool :=
  let a := Reg.fltInjW1 n
  let u := fld s a Fl.fltInjW1_UNIT
  let i := fld s a Fl.fltInjW1_INDEX
  (u == 0xFF || u == x.unit) && (x.index.isEmpty || i == 0xFF || x.index.contains i)

/-- The whole selector matches. (DEDUCED, log 100) -/
def injWhole (s : State) (n : Nat) (x : InjSel) : Bool :=
  let a := Reg.fltInjW1 n
  injUnit s n x &&
    (match x.tenant with | none => true | some t => bit (fld s a Fl.fltInjW1_TENMASK) t) &&
    (match x.vein with | none => true | some v => bit (fld s a Fl.fltInjW1_VEINMASK) v) &&
    (match x.loc with | none => true | some l => fld s a Fl.fltInjW1_LOC == l % 2 ^ 28)

/-- One injector meets an event: does it fire, and what it becomes (R388, R390). (DEDUCED, log 101) -/
def injOne (det : Nat) (x : InjSel) (busy : Bool) (acc : Option Nat × State) (n : Nat) : Option Nat × State :=
  let (hit, s) := acc
  let mode := fld s (Reg.fltInjW0 n) Fl.fltInjW0_MODE
  let m := if mode = 0 then injUnit s n x else injWhole s n x
  if !injArmed s n || injDet s n != det || !m then (hit, s)
  else if busy then (hit, setFld s (Reg.fltInjW3 n) Fl.fltInjW3_LASTSTAT St.resourceBusy)
  else
    let seen := mapGet 0 s.injSeen n + 1
    let period := max 1 (fld s (Reg.fltInjW0 n) Fl.fltInjW0_PERIOD)
    let s := { s with injSeen := tabSet s.injSeen n seen }
    if mode = 1 && seen % period != 0 then (hit, s)
    else
      let s := incFld s (Reg.fltInjW3 n) Fl.fltInjW3_FIRED 1
      let cnt := fld s (Reg.fltInjW0 n) Fl.fltInjW0_COUNT
      let s := if mode != 1 || (cnt != 0 && seen / period ≥ cnt)
        then setFlag s (Reg.fltInjW0 n) Fl.fltInjW0_ARMED false else s
      (match hit with | some h => some h | none => some n, s)

/-- The injector that fires on an event of a detector: the lower one is applied, all that fire count (R391).
(DEDUCED, log 101) -/
def flintHit (s : State) (det : Nat) (x : InjSel) (busy : Bool) : Option Nat × State :=
  (List.range 8).foldl (injOne det x busy) (none, s)

/-- Does an injector fire on this event of a detector? -/
def flint (s : State) (det : Nat) (x : InjSel) (busy : Bool) : Bool × State :=
  let hitR := flintHit s det x busy
  let hit := hitR.1
  let s := hitR.2
  (hit.isSome, s)

def injPattern (s : State) (n : Nat) : Nat := fld s (Reg.fltInjW2 n) Fl.fltInjW2_PATTERN

/-- The physical column that an injection names, of those in use; any: the first of them. -/
def injCol (s : State) (n : Nat) (used : List Nat) : Nat :=
  let i := fld s (Reg.fltInjW1 n) Fl.fltInjW1_INDEX
  if i = 0xFF then used.headD 0 else i

/-- The physical column that carries a compute column or column 64 of an array (R373). -/
def physCol (s : State) (a c : Nat) : Nat :=
  let r := Reg.tchSpare a
  if flag s r Fl.tchSpare_V65 && fld s r Fl.tchSpare_COL65 == c then 65
  else if flag s r Fl.tchSpare_V66 && fld s r Fl.tchSpare_COL66 == c then 66
  else c

/-- Physical columns in use for n logical columns (R101, R369); column 64 makes the row check value. -/
def usedCols (s : State) (a n : Nat) : List Nat := (List.range (min 64 n)).map (physCol s a) ++ [physCol s a 64]

end Sys2Proof.Machine
end

