-- ==== Sys2Proof/Machine/Cmd.lean ====
section
/-! DEFINITION. Command layouts and the decode checks that need no stream, semaphore or array (R207 to R221): reserved
fields, format words, shapes and limits, in the order of R200. -/

namespace Sys2Proof.Machine

/-! ## Command words (R207) -/

def wordAt (ws : List W64) (i : Nat) : Nat := (ws.getD i 0).toNat
def cmdOp (ws : List W64) : Nat := bits (wordAt ws 0) 0 8
def cmdSeq (ws : List W64) : Nat := bits (wordAt ws 0) 32 32
def cmdGend (ws : List W64) : Bool := bit (wordAt ws 0) 8

/-- The opcodes of R207. -/
def knownOp (op : Nat) : Bool :=
  [0, 1, 2, 3, 4, 8, 9, 0xC, 0xD, 0x10, 0x11, 0x12, 0x14, 0x15, 0x18, 0x19, 0x1C, 0x1D].contains op

def isWork (op : Nat) : Bool := [1, 2, 3, 4, 0x14, 0x15, 0x18, 0x19, 0x1C].contains op

/-- A field of a command word. -/
def cf (ws : List W64) (w lo n : Nat) : Nat := bits (wordAt ws w) lo n
def cb (ws : List W64) (w lo : Nat) : Bool := bit (wordAt ws w) lo

/-- The first check that fails decides the status (R200). (DEDUCED, log 33) -/
def firstFail (l : List (Bool × Nat)) : Option Nat := (l.find? (·.1)).map (·.2)

def orFail (a b : Option Nat) : Option Nat := match a with | some c => some c | none => b

/-! ## Shapes (R88, R98) -/

/-- Logical columns of a tile (R88). -/
def logCols (f : Fmt) : Nat :=
  match f with
  | .c19 => 64 | .fp32 => 64 | .fp16 => 64 | .bf16 => 64 | .f4e2 => 256 | .int4 => 256 | _ => 128

/-- Weights per cell, ρ and L (R88). -/
def cellW (f : Fmt) : Nat := logCols f / 64
def rhoOf (f : Fmt) : Nat := if f == .c19 then 2 else 1
def loadClk (f : Fmt) : Nat := if f == .c19 then 128 else 64

/-- Nominal arrays of a SHARE code (R94). -/
def shareN (c : Nat) : Nat := match c with | 0 => 1 | 1 => 2 | _ => 4

/-- The limits of R98: rows per array, N tiles, passes. -/
def shapeOk (shape r nts passes : Nat) : Bool :=
  match shape with
  | 0 => r ≤ 256 && nts == 1 && passes == 1
  | 1 => r ≤ 4096 && nts == 1 && passes == 1
  | 2 => r ≤ 4096 && nts == 1 && passes ≤ 4096
  | 3 => r ≤ 4096 && 2 ≤ nts && nts ≤ 256 && passes ≤ 4096
  | 4 => r ≤ 64 && nts ≤ 256 && passes ≤ 4096
  | 5 => r ≤ 8 && nts ≤ 256 && passes ≤ 4096
  | 6 => r ≤ 4096 && nts ≤ 256 && passes ≤ 4096
  | _ => false

/-! ## TILE and SPTILE (R208, R211) -/

structure TileF where
  sparse : Bool
  tensor : Nat
  track  : Bool
  scsrc  : Bool
  turn   : Bool
  load   : Bool
  spill  : Bool
  shape  : Nat
  subp   : Nat
  share  : Nat
  m      : Nat
  n      : Nat
  k      : Nat
  ow     : Nat
  ww     : Nat
  aw     : Nat
  xsel   : Nat
  psem   : Nat
  psumat : Nat
  dsc    : Nat     -- Patch or sparse descriptor, in 64 B units
  pgroup : Nat
  path   : Nat
  pslot  : Nat
  oslot  : Nat
  pred   : Bool
  obs    : Bool
  aux    : Nat
  oscl   : Nat
  ostr   : Nat
  wscl   : Nat
  ascl   : Nat
  wstr   : Nat
  astr   : Nat
  deriving DecidableEq, Repr

def tileOf (ws : List W64) : TileF :=
  let sp := cmdOp ws == 2
  let x := if sp then 0 else cf ws 2 62 2
  { sparse := sp, tensor := cf ws 0 22 10, track := cb ws 0 21, scsrc := cb ws 0 20, turn := cb ws 0 19,
    load := cb ws 0 18, spill := cb ws 0 17, shape := cf ws 0 14 3, subp := cf ws 0 12 2, share := cf ws 0 10 2,
    m := cf ws 1 48 16 + 1, ow := cf ws 1 32 16, ww := cf ws 1 16 16, aw := cf ws 1 0 16, xsel := x,
    psem := if x = 1 then cf ws 2 48 8 else 0, psumat := if x = 1 then cf ws 2 36 12 else 0,
    dsc := if sp then cf ws 2 38 20 else if x = 2 then cf ws 2 36 20 else 0,
    pgroup := if x = 3 then cf ws 2 36 12 else 0, path := if sp then cf ws 2 36 2 else 0,
    k := cf ws 2 16 20 + 1, n := cf ws 2 0 16 + 1, pslot := cf ws 3 52 8, oslot := cf ws 3 44 8, pred := cb ws 3 43,
    obs := cb ws 3 42, aux := cf ws 3 36 6, oscl := cf ws 3 30 6, ostr := cf ws 3 24 6,
    wscl := if sp then 0 else cf ws 3 18 6, ascl := if sp then 0 else cf ws 3 12 6,
    wstr := if sp then 0 else cf ws 3 6 6, astr := if sp then 0 else cf ws 3 0 6 }

def TileF.aof (t : TileF) : OpFmt := opFmtOf t.aw
def TileF.wof (t : TileF) : OpFmt := opFmtOf t.ww
def TileF.oof (t : TileF) : OutFmt := outFmtOf t.ow
def TileF.patch (t : TileF) : Bool := t.xsel == 2
def TileF.psum (t : TileF) : Bool := t.xsel == 1
def TileF.wgrad (t : TileF) : Bool := t.xsel == 3
/-- The effective format at the array (R26). -/
def TileF.eff (t : TileF) : Fmt := effFmt t.aof
def TileF.cols (t : TileF) : Nat := logCols t.eff
def TileF.passes (t : TileF) : Nat := cdiv t.k 256
def TileF.nts (t : TileF) : Nat := cdiv t.n t.cols
def TileF.isInt (t : TileF) : Bool := isIntFmt t.eff
/-- A scaled-integer tile (R79): INT8 with a K-direction scale on some operand. -/
def TileF.scaledInt (t : TileF) : Bool :=
  (t.aof.scale != 0 && !t.aof.sdir) || (t.wof.scale != 0 && !t.wof.sdir)
def TileF.splitA (t : TileF) : Bool := t.aof.fmt == .fp32 && t.aof.conv == 2
def TileF.splitW (t : TileF) : Bool := t.wof.fmt == .fp32 && t.wof.conv == 2

/-- The sub-passes of a pass in order: lo part of the activation, lo part of the weight (R80, R81). -/
def TileF.subs (t : TileF) : List (Bool × Bool) :=
  [(false, false)] ++ (if t.subp ≥ 1 && t.splitW then [(false, true)] else []) ++
    (if t.subp ≥ 2 && t.splitA then [(true, false)] else [])

/-- Columns of an N tile that are not masked (R101). -/
def TileF.ncols (t : TileF) (nt : Nat) : Nat := min t.cols (t.n - nt * t.cols)

/-- K positions of a pass. -/
def TileF.kcount (t : TileF) (p : Nat) : Nat := min 256 (t.k - 256 * p)

/-- Does the drain accumulate beyond one addition per element (R99)? A command of one pass counts as one that does where
it adds partial sums under PSUM or runs sub-passes of a split. (DESIGN CHOICE, log 132) -/
def TileF.accumulates (t : TileF) : Bool :=
  t.sparse || t.passes > 1 || t.subs.length > 1 || t.load || t.psum

/-- The limits of R98 and R99 on n arrays. -/
def TileF.fits (t : TileF) (n : Nat) : Bool :=
  let r := cdiv t.m n
  shapeOk t.shape r t.nts t.passes && (!t.accumulates || r * t.cols ≤ 131072)

/-- Bits that no field of the command uses (R207). -/
def unusedBits (ws : List W64) : Bool :=
  let op := cmdOp ws
  let z (w lo n : Nat) : Bool := cf ws w lo n != 0
  let w0 (lo : Nat) : Bool := z 0 9 1 || z 0 lo (32 - lo)
  match op with
  | 0x00 => w0 10 || z 1 0 64 || z 2 0 64 || z 3 0 64
  | 0x01 => z 0 9 1 || z 3 60 4 ||
      (match cf ws 2 62 2 with
        | 0 => z 2 36 26 | 1 => z 2 56 6 | 2 => z 2 56 6 | _ => z 2 48 14)
  | 0x02 => z 0 9 1 || z 3 60 4 || z 2 58 6 || z 3 0 24 || z 0 19 1 || z 3 52 8 || z 3 44 8 || z 3 43 1 || z 3 42 1
  | 0x03 => w0 17 || z 1 48 16 || z 2 28 36 || z 3 0 64
  | 0x04 => w0 16 || z 1 48 16 || z 2 40 24 || z 3 48 16
  | 0x08 => w0 16
  | 0x09 => w0 16 || z 1 48 16 || z 2 0 64 || z 3 0 64
  | 0x0C => w0 19 || z 1 32 32 || z 1 10 6 || z 2 0 64 || z 3 0 64
  | 0x0D => w0 18 || z 1 32 32 || z 2 0 64 || z 3 0 64
  | 0x10 => w0 14 || z 2 0 64 || z 3 0 64
  | 0x11 => w0 14 || z 1 16 48 || z 2 0 64 || z 3 0 64
  | 0x12 => w0 10 || z 1 32 32 || z 2 0 64 || z 3 0 64
  | 0x14 => w0 10 || z 1 21 43 || z 2 0 64 || z 3 0 64
  | 0x15 => w0 19 || z 1 54 10
  | 0x18 => w0 16 || z 0 9 1 || z 1 16 48 || z 2 0 64 || z 3 0 64
  | 0x19 => w0 16 || z 1 16 48 || z 2 0 64 || z 3 0 64
  | 0x1C => w0 14 || z 1 32 32 || z 2 0 64 || z 3 0 64
  | 0x1D => w0 15 || z 1 16 48 || z 2 0 64 || z 3 0 64
  | _ => false

/-- Fields that must be zero because the command's settings do not use them, and reserved codes (R207 to R221). Under
SPILL nothing is converted, so TENSOR without TRACK seeds, tracks and names nothing; SPILL with TRACK is refused by its
shape (R209). -/
def reservedFields (ws : List W64) : Bool :=
  let op := cmdOp ws
  match op with
  | 0x01 =>
    let t := tileOf ws
    t.share == 3 || t.subp == 3 || (t.aof.scale == 0 && t.ascl != 0) || (t.wof.scale == 0 && t.wscl != 0) ||
      (t.oof.scale == 0 && t.oscl != 0) || (!t.load && !t.psum && t.aux != 0) || (!t.pred && t.pslot != 0) ||
      (!t.obs && t.oslot != 0) || (t.patch && t.astr != 0) || (t.spill && !t.track && t.tensor != 0)
  | 0x02 =>
    let t := tileOf ws
    t.share == 3 || t.subp == 3 || (t.oof.scale == 0 && t.oscl != 0) || (!t.load && t.aux != 0) ||
      (t.spill && !t.track && t.tensor != 0)
  | 0x04 =>
    let ewop := cf ws 0 12 4
    let two := 1 ≤ ewop && ewop ≤ 4
    cf ws 0 10 2 == 3 || ewop > 5 || (!two && (cf ws 1 16 16 != 0 || cf ws 3 6 6 != 0)) ||
      ((opFmtOf (cf ws 1 0 16)).scale == 0 && cf ws 3 12 6 != 0) ||
      ((opFmtOf (cf ws 1 16 16)).scale == 0 && cf ws 3 18 6 != 0) ||
      (ewop == 5 && (cf ws 1 32 16 != 0 || cf ws 3 24 6 != 0)) ||
      ((outFmtOf (cf ws 1 32 16)).scale == 0 && cf ws 3 30 6 != 0)
  | 0x0C => !cb ws 0 18 && cf ws 1 0 10 != 0
  | 0x10 =>
    (match cf ws 0 10 4 with
      | 0 => cf ws 1 40 24 != 0 | 1 => cf ws 1 48 16 != 0 | 2 => cf ws 1 0 64 != 0 | 3 => cf ws 1 32 32 != 0
      | 4 => cf ws 1 0 64 != 0 | 5 => cf ws 1 32 32 != 0 | _ => true)
  | 0x15 => cf ws 0 10 2 == 3 || (cb ws 0 18 && cf ws 3 0 32 != 0)
  | 0x18 => cf ws 1 7 9 != 0
  | 0x19 => cf ws 1 7 9 != 0
  | 0x1C => cf ws 0 10 4 > 3
  | 0x1D => cf ws 0 10 4 > 3
  | _ => false

/-- What decode refuses in the format words (R24 to R28, R43, R111, R186). Under SPILL nothing is converted, so OFMT is
not judged as an output format. (DEDUCED, log 34) -/
def tileFmtBad (t : TileF) : Bool :=
  !opFmtOk t.aof t.patch || !opFmtOk t.wof false || effFmt t.aof != effFmt t.wof ||
    (t.patch && !(t.aof.fmt == .u8 || t.aof.fmt == .u10)) ||
    (t.sparse && (t.splitA || t.splitW)) ||
    (!t.spill && (!outFmtOk t.oof t.isInt || (t.isInt != (t.oof.fmt == .int8 || t.oof.fmt == .int32)))) ||
    (t.scsrc && (!t.track || t.oof.scale == 0))

/-- Shapes and limits of a tile that need nothing but the command and the tables' sizes (R98, R99, R111, R128, R182,
R209 to R211). -/
def tileShapeBad (s : State) (t : TileF) : Bool :=
  let hist := min 1024 (fld s Reg.numHistCfg Fl.numHistCfg_COUNT)
  let slots := min 256 (fld s Reg.shlMaskCfg Fl.shlMaskCfg_SLOTS)
  t.shape == 7 || (t.shape == 6) != t.patch || (t.load && t.psum) ||
    (t.spill && (t.track || t.scsrc || t.turn || t.obs || t.ow != 0)) || (t.psum && t.psumat ≥ t.passes) ||
    (t.subp != 0 && !t.splitA && !t.splitW) || (t.pred && t.shape != 2 && t.shape != 3) ||
    (t.pred && t.pslot ≥ slots) || (t.obs && t.oslot ≥ slots) || !t.fits (shareN t.share) ||
    (t.sparse && (t.k > 65536 || (t.shape != 2 && t.shape != 3) || t.path == 3)) ||
    ((t.track || t.scsrc) && t.tensor ≥ hist) ||
    (t.turn && (!([8, 16, 32].contains (fmtBits t.oof.fmt)) || (t.oof.scale != 0 && !t.oof.sdir)))

/-! ## The other commands -/

structure EwF where
  ewop   : Nat
  share  : Nat
  ow     : Nat
  w2     : Nat
  w1     : Nat
  count  : Nat
  track  : Bool
  scsrc  : Bool
  tensor : Nat
  dscl   : Nat
  dst    : Nat
  s2scl  : Nat
  s1scl  : Nat
  src2   : Nat
  src1   : Nat
  deriving DecidableEq, Repr

def ewOf (ws : List W64) : EwF :=
  { ewop := cf ws 0 12 4, share := cf ws 0 10 2, ow := cf ws 1 32 16, w2 := cf ws 1 16 16, w1 := cf ws 1 0 16,
    count := cf ws 2 0 40, track := cb ws 3 47, scsrc := cb ws 3 46, tensor := cf ws 3 36 10, dscl := cf ws 3 30 6,
    dst := cf ws 3 24 6, s2scl := cf ws 3 18 6, s1scl := cf ws 3 12 6, src2 := cf ws 3 6 6, src1 := cf ws 3 0 6 }

def EwF.two (e : EwF) : Bool := 1 ≤ e.ewop && e.ewop ≤ 4

structure GradF where
  schedsrc : Bool
  src      : Nat
  share    : Nat
  pgroup   : Nat
  off      : Nat
  pw       : Nat
  sw       : Nat
  count    : Nat
  gscale   : Nat
  sched    : Nat
  deriving DecidableEq, Repr

def gradOf (ws : List W64) : GradF :=
  { schedsrc := cb ws 0 18, src := cf ws 0 12 6, share := cf ws 0 10 2, pgroup := cf ws 1 42 12, off := cf ws 1 0 42,
    pw := cf ws 2 48 16, sw := cf ws 2 32 16, count := cf ws 2 0 32, gscale := cf ws 3 32 32, sched := cf ws 3 0 32 }

/-- Format words of every command (R28, R213, R220, R344). -/
def fmtBad (ws : List W64) : Bool :=
  match cmdOp ws with
  | 0x01 => tileFmtBad (tileOf ws)
  | 0x02 => tileFmtBad (tileOf ws)
  | 0x04 =>
    let e := ewOf ws
    let f1 := opFmtOf e.w1
    let f2 := opFmtOf e.w2
    let o := outFmtOf e.ow
    !opFmtOk f1 false || (e.two && !opFmtOk f2 false) || (e.ewop != 5 && !outFmtOk o false) ||
      f1.sdir || (e.two && f2.sdir) || o.sdir || (e.scsrc && (!e.track || o.scale == 0))
  | 0x15 =>
    let g := gradOf ws
    let o := outFmtOf g.pw
    !opFmtOk (opFmtOf g.sw) false || (opFmtOf g.sw).scale != 0 || !outFmtOk o false ||
      !(o.fmt == .fp32 || o.fmt == .bf16 || o.fmt == .f8e5) ||
      (o.fmt == .f8e5 && (o.scale != 3 || o.sdir))
  | _ => false

/-- Commands that need the scale history (R222). -/
def needsHist (ws : List W64) : Bool :=
  match cmdOp ws with
  | 0x01 => (tileOf ws).track || (tileOf ws).scsrc
  | 0x02 => (tileOf ws).track || (tileOf ws).scsrc
  | 0x04 => (ewOf ws).track || (ewOf ws).scsrc
  | 0x14 => true
  | _ => false

/-- Shapes and limits that need nothing but the command and the tables' sizes. -/
def shapeBad (s : State) (ws : List W64) : Bool :=
  let hist := min 1024 (fld s Reg.numHistCfg Fl.numHistCfg_COUNT)
  match cmdOp ws with
  | 0x01 => tileShapeBad s (tileOf ws)
  | 0x02 => tileShapeBad s (tileOf ws)
  | 0x04 =>
    let e := ewOf ws
    e.count == 0 || (e.ewop == 5 && !e.track) || ((e.track || e.scsrc) && e.tensor ≥ hist)
  | 0x0C => cf ws 1 16 16 == 0
  | 0x0D => cf ws 1 0 16 == 0
  | 0x14 =>
    let n := cf ws 1 10 11
    n == 0 || n > 1024 || cf ws 1 0 10 + n > hist
  | 0x15 => (gradOf ws).count == 0
  | 0x1D =>
    (match cf ws 0 10 4 with
      | 0 => cf ws 1 0 16 > 3 | 1 => cf ws 1 0 16 > 23 | 2 => false | _ => cf ws 1 0 16 > 5)
  | _ => false

/-- A GRAD_EMIT whose payload format the update sink does not accept (R414). -/
def sinkRefuses (s : State) (ws : List W64) : Bool :=
  cmdOp ws == 0x15 && (match (outFmtOf (gradOf ws).pw).fmt with
    | .fp32 => !bit s.pins.scap.toNat 0
    | .bf16 => !bit s.pins.scap.toNat 1
    | .f8e5 => !bit s.pins.scap.toNat 2
    | _ => false)

end Sys2Proof.Machine
end

