-- ==== Sys2Proof/Machine/VeinOps.lean ====
section
/-! DEFINITION. Veins and their commands in flight: states, completion, retirement, halts (R13 to R16, R201 to R206,
R226, R409). -/

namespace Sys2Proof.Machine

/-! Vein states (R206, R227). -/

namespace Vs
def off : Nat := 0
def empty : Nat := 1
def pending : Nat := 2
def ready : Nat := 3
def wait : Nat := 4
def halting : Nat := 5
def halted : Nat := 6
def suspended : Nat := 7
def fenced : Nat := 8
end Vs

def vState (s : State) (v : Nat) : Nat := fld s (Reg.vnStat v) Fl.vnStat_STATE
def setVState (s : State) (v st : Nat) : State := setFld s (Reg.vnStat v) Fl.vnStat_STATE st

/-- A vein in SUSPENDED or FENCED keeps the state it left (R206). (DEDUCED, log 82) -/
def vMasked (s : State) (v : Nat) : Bool := vState s v == Vs.suspended || vState s v == Vs.fenced

/-- The state of a vein, or the one it left for SUSPENDED or FENCED. -/
def vBase (s : State) (v : Nat) : Nat := if vMasked s v then (vein s v).left else vState s v

/-- Change that state. -/
def setVBase (s : State) (v st : Nat) : State :=
  if vMasked s v then setVein s v { vein s v with left := st } else setVState s v st
def setWaiton (s : State) (v w : Nat) : State := setFld s (Reg.vnStat v) Fl.vnStat_WAITON w
def vTenant (s : State) (v : Nat) : Nat := fld s (Reg.vnQcfg v) Fl.vnQcfg_TENANT
def isFiller (s : State) (t : Nat) : Bool := flag s (Reg.vnTenant t) Fl.vnTenant_FILLER
def vStep (s : State) (v : Nat) : Nat := fld s (Reg.vnStep v) Fl.vnStep_STEP

/-- Is the tenant eligible in this frame? (R223) -/
def eligible (s : State) (t : Nat) : Bool :=
  let p := fld s (Reg.vnTenant t) Fl.vnTenant_SLICEP + 1
  bit (fld s (Reg.vnTenant t) Fl.vnTenant_SLICEMASK) (frameNo s % p)

/-! ## Jobs -/

def SpRd.init : SpRd := ⟨0, 0, 0, 0, 0, 0⟩

/-- A command as it issues. -/
def mkJob (s : State) (v : Nat) (c : Cmd) (inFrame : Bool) : Job :=
  { op := cmdOp c.words, seq := cmdSeq c.words, slot := c.slot, words := c.words, tenant := vTenant s v,
    inFrame := inFrame, frame := frameNo s, tissue := tstamp s, step := vStep s v, estE := 0, estT := 0, conds := [],
    fin := false, done := false, arrays := [], nt := 0, pass := 0, sub := 0, corr := false, entered := false, nts := [],
    ntDone := 0, hValid := false, hMax := 0, mask := 0, amax := none, any := false, nonzero := 0, oPos := 0, osPos := 0,
    prog := 0, aPos := 0, aScl := 0, bPos := 0, bScl := 0, xPos := 0, dscW := [], spA := SpRd.init, spW := SpRd.init,
    voids := [], holds := [], starts := [], rerun := false, beat := 0, ladders := [], spilled := false, preempt := false,
    redo := [], resume := none, missed := [], skips := [], served := [], dup := false, payload := [] }

def findJob (s : State) (v seq : Nat) : Option Job := (vein s v).jobs.find? (fun j => j.seq == seq)

def mapJobs (s : State) (v : Nat) (f : Job → Job) : State :=
  let x := vein s v
  setVein s v { x with jobs := x.jobs.map f }

def updJob (s : State) (v seq : Nat) (f : Job → Job) : State :=
  mapJobs s v (fun j => if j.seq == seq then f j else j)

def updNt (j : Job) (nt : Nat) (corr : Bool) (f : NtSt → NtSt) : Job :=
  { j with nts := j.nts.map (fun x => if x.nt = nt ∧ x.corr = corr then f x else x) }

/-- A condition the command met (R226). -/
def addCond (s : State) (v seq code : Nat) : State :=
  updJob s v seq (fun j => if j.conds.contains code then j else { j with conds := j.conds ++ [code] })

/-- A command finds its gather stale: its vein is to halt before the next MARK LAYER or MARK STEP (R226, R352). -/
def staleCond (s : State) (v seq : Nat) : State :=
  let s := addCond s v seq St.wgenStale
  setVein s v { vein s v with stale := true }

/-- Nothing more of the command runs. -/
def finJob (s : State) (v seq : Nat) : State := updJob s v seq (fun j => { j with fin := true })

def jobStatus (j : Job) : Nat := maxOf j.conds
/-- A halting condition. WGEN_STALE halts a MARK (R352), not the command that found it. -/
def condHalts (j : Job) (c : Nat) : Bool := halts c || (c == St.wgenStale && j.op == 0x10)
def jobHalts (j : Job) : Bool := j.conds.any (condHalts j)
def jobHaltStat (j : Job) : Nat := maxOf (j.conds.filter (condHalts j))

/-- Commands in flight, with their veins. -/
def allJobs (s : State) : List (Nat × Job) :=
  (List.range 16).flatMap (fun v => (vein s v).jobs.filterMap (fun j => if j.done then none else some (v, j)))

/-- The command that holds an array (R202). -/
def arrayHolder (s : State) (a : Nat) : Option (Nat × Job) := (allJobs s).find? (fun p => p.2.arrays.contains a)

/-! ## Trace (R409, R410) -/

def traceBytes (s : State) (v : Nat) (j : Job) : List Byte :=
  leBytes 4 j.seq ++ leBytes 1 j.op ++ leBytes 1 (v + 16 * j.tenant) ++ leBytes 1 (jobStatus j) ++
  leBytes 1 (maskOf (j.served ++ j.arrays)) ++ leBytes 8 j.tissue ++ leBytes 8 (tstamp s) ++ leBytes 6 j.frame ++
  leBytes 2 (epochNo s)

def traceRetire (s : State) (v : Nat) (j : Job) : State :=
  if flag s Reg.dbgTraceCfg Fl.dbgTraceCfg_ENABLE && bit (fld s Reg.dbgTraceCfg Fl.dbgTraceCfg_VEINMASK) v
  then { s with traceQ := s.traceQ ++ [traceBytes s v j] } else s

/-! ## States of a vein -/

/-- Commands a vein may issue from: its prefetch. -/
def headCmd (s : State) (v : Nat) : Option Cmd := (vein s v).held.head?

def headGroup (s : State) (v : Nat) : Option VGroup := (vein s v).groups.head?

/-- The state that its queue, its wait and its group give a vein that runs (R206). -/
def runState (s : State) (v : Nat) : Nat × Nat :=
  let x := vein s v
  match x.wait with
  | some (.sem ..) => (Vs.wait, 1)
  | some (.barrier ..) => (Vs.wait, 2)
  | some (.markFrame _) => (Vs.wait, 3)
  | some .markNext => (Vs.wait, 3)
  | some (.yield _) => (Vs.wait, 6)
  | none =>
    match x.held, x.groups with
    | [], _ => (Vs.empty, 0)
    | _, [] => (Vs.empty, 0)
    | _ :: _, g :: _ =>
      if !g.admitted then (Vs.pending, 7) else if x.waitOn != 0 then (Vs.wait, x.waitOn) else (Vs.ready, 0)

/-- Bring STATE, WAITON and INFLIGHT of a vein up to date (R206, R227). -/
def refreshVein (s : State) (v : Nat) : State :=
  let x := vein s v
  let n := (x.jobs.filter (fun j => !j.done)).length
  let s := setFld s (Reg.vnStat v) Fl.vnStat_INFLIGHT (min n 15)
  let st := vBase s v
  if st == Vs.off then s
  else
    let live := st != Vs.halted && st != Vs.halting
    let (a, w) := if live then runState s v else (st, 0)
    if x.fenced || x.suspended then
      let s := setVein s v { x with left := a }
      setWaiton (setVState s v (if x.fenced then Vs.fenced else Vs.suspended)) v 0
    else
      let s := if a == Vs.ready && !isFiller s (vTenant s v) && eligible s (vTenant s v)
        then { s with trm := { s.trm with blocked := false } } else s
      setWaiton (setVState s v a) v w

/-- Fence a vein, or lift its fence (R206). (DEDUCED, log 82) -/
def fenceVein (s : State) (v : Nat) (on : Bool) : State :=
  if vBase s v == Vs.off then s else refreshVein (setVein s v { vein s v with fenced := on }) v

/-! ## Retirement and halts (R201, R204) -/

def retireOne (s : State) (v : Nat) (j : Job) : State :=
  let s := setFld s (Reg.vnSeq v) Fl.vnSeq_DONE j.seq
  let s := setFld s (Reg.vnStat v) Fl.vnStat_LASTSTAT (jobStatus j)
  traceRetire s v j

/-- Retire complete commands in SEQ order up to the first that is incomplete or halts. -/
def retireList (v : Nat) : List Job → State → State × List Job
  | [], s => (s, [])
  | j :: js, s => if j.done && !jobHalts j then retireList v js (retireOne s v j) else (s, j :: js)

def retire (s : State) (v : Nat) : State :=
  let x := vein s v
  let (s, js) := retireList v x.jobs s
  setVein s v { vein s v with jobs := js }

/-- Commands that were admitted and have not issued leave the frame (R204). -/
def leaveFrame (s : State) (v : Nat) : State :=
  let x := vein s v
  setVein s v { x with groups := x.groups.map (fun g => { g with admitted := false, ests := [] }) }

/-- A halting vein whose issued commands are all complete enters HALTED (R204). -/
def settleHalt (s : State) (v : Nat) : State :=
  let x := vein s v
  if vBase s v == Vs.halting && x.jobs.all (·.done) then
    let (seq, stat, ten) := match x.jobs.find? jobHalts with
      | some j => (j.seq, jobHaltStat j, j.tenant)
      | none => match x.fetchBad with
        | some (st, sq) => (sq, st, vTenant s v)
        | none => (0, 0, vTenant s v)
    let s := setFld s (Reg.vnStat v) Fl.vnStat_HALTSTAT stat
    let s := setFld s (Reg.vnStat v) Fl.vnStat_HALTSEQ seq
    let s := setWaiton (setVBase s v Vs.halted) v 0
    recordErr s { ErrRec.ofDet 1 0 with status := stat, tenant := some ten, seq := seq, vein := some v,
                                        unit := Unit.vn, always := true }
  else s

/-- The vein begins to halt (R204, R206). -/
def beginHalt (s : State) (v : Nat) : State :=
  if vBase s v == Vs.off || vBase s v == Vs.halted then s
  else settleHalt (setVBase (leaveFrame s v) v Vs.halting) v

/-! ## Arrays in service -/

def inService (s : State) (a : Nat) : Bool := bit (fld s Reg.tchArrays Fl.tchArrays_INSERVICE) a
def arraysIn (s : State) : List Nat := (List.range 4).filter (inService s)

/-! ## What head commands wait for (R200, R202, R203, R206) -/

/-- The claim set of a SHARE code; pick is the block's choice of array or pair, which falls on an array in service and on
an intact pair where there is one (R202). -/
def claimSet (s : State) (share pick : Nat) : List Nat :=
  match share with
  | 0 => if inService s pick then [pick] else (arraysIn s).take 1
  | 1 =>
    let pair (p : Nat) : List Nat := [2 * p, 2 * p + 1].filter (inService s)
    let mine := pair (pick % 2)
    let other := pair (1 - pick % 2)
    if mine.length = 2 then mine else if other.length = 2 then other else if mine.isEmpty then other else mine
  | _ => arraysIn s

/-- A dense tile command. -/
def denseTile (j : Job) : Bool := j.op == 1

/-- Every tile of a command has entered, and no ladder of it runs. -/
def allEntered (j : Job) : Bool :=
  j.fin || ((j.op == 1 || j.op == 2) && j.nt ≥ (tileOf j.words).nts && (j.corr || !(tileOf j.words).pred) &&
    j.ladders.isEmpty && j.nts.all (·.full))

/-- Commands in flight that hold an array. -/
def holdersOf (s : State) (a : Nat) : List (Nat × Job) := (allJobs s).filter (fun p => p.2.arrays.contains a)

/-- Step 2 of a ladder has borrowed the array, or waits for its current command to complete (R371). -/
def borrowed (s : State) (a : Nat) : Bool :=
  (allJobs s).any (fun p => p.2.ladders.any (fun l => l.step == 2 && l.other == some a && !p.2.arrays.contains a))

/-- May a waiter take an array from this holder? It follows when both are dense, with the same SHARE mode and the same
effective format, and every tile of the holder has entered (R203). (DEDUCED, log 107) -/
def mayFollow (h : Job) (ws : List W64) : Bool :=
  denseTile h && cmdOp ws == 1 && allEntered h &&
    (tileOf h.words).share == (tileOf ws).share &&
    logCols (tileOf h.words).eff == logCols (tileOf ws).eff && rhoOf (tileOf h.words).eff == rhoOf (tileOf ws).eff

/-- (R202, R203) -/
def claimFree (s : State) (as : List Nat) (ws : List W64) : Bool :=
  as.all (fun a => !borrowed s a && (holdersOf s a).all (fun p => mayFollow p.2 ws))

/-- Some claim set of a SHARE code is available (R202, R203). -/
def claimReady (s : State) (share : Nat) (ws : List W64) (short : Nat → Bool) : Bool :=
  (List.range 4).any (fun p =>
    let as := claimSet s share p
    !as.isEmpty && !short as.length && claimFree s as ws)

/-! Stream states of W7 (R152). -/

namespace Ss
def idle : Nat := 0
def running : Nat := 1
def ended : Nat := 2
def halted : Nat := 3
end Ss

def sState (s : State) (i : Nat) : Nat := fld s (Reg.stmDescW7 i) Fl.stmDescW7_STATE
/-- A re-arm must wait: one is held already (R151). (DEDUCED, log 104) -/
def rearmBusy (s : State) (i : Nat) : Bool := sState s i == Ss.running && (strm s i).rearm.isSome

/-- Every earlier command of the vein is complete. -/
def earlierDone (s : State) (v : Nat) : Bool := (vein s v).jobs.all (·.done)

/-- The veins that have arrived at a barrier, with their masks. -/
def barrierAt (s : State) (num : Nat) : List (Nat × Nat) :=
  (List.range 16).filterMap (fun v => match (vein s v).wait with
    | some (.barrier n m) => if n = num then some (v, m) else none
    | _ => none)

/-- A BARRIER must wait before it issues: another tenant uses its number, or DRAIN awaits earlier commands (R217). -/
def barrierBusy (s : State) (v : Nat) (ws : List W64) : Bool :=
  (barrierAt s (cf ws 0 10 3)).any (fun p => vTenant s p.1 != vTenant s v) || (cb ws 0 13 && !earlierDone s v)

/-- What the head command of a vein waits for before it issues is there: its claim set, its stream's re-arm slot, its
barrier (R206). -/
def headMet (s : State) (v : Nat) : Bool :=
  match headCmd s v with
  | none => false
  | some c =>
    let ws := c.words
    match cmdOp ws with
    | 0x01 => claimReady s (tileOf ws).share ws (fun n => !(tileOf ws).fits n)
    | 0x02 => claimReady s (tileOf ws).share ws (fun n => !(tileOf ws).fits n)
    | 0x03 => !rearmBusy s (cf ws 0 10 6)
    | 0x04 => claimReady s (ewOf ws).share ws (fun _ => false)
    | 0x09 => !rearmBusy s (cf ws 0 10 6)
    | 0x11 => !barrierBusy s v ws
    | 0x15 => claimReady s (gradOf ws).share ws (fun _ => false)
    | 0x1C => claimFree s (arraysIn s) ws
    | _ => true

/-- Veins whose wait for a claim, a stream slot or a barrier is satisfied leave WAIT (R206); a filler command that waits
for a bubble (8) is judged where one opens. -/
def settleWaits (s : State) : State :=
  (List.range 16).foldl (fun (s : State) v =>
    if (vein s v).waitOn != 0 && (vein s v).waitOn != 8 && headMet s v
    then refreshVein (setVein s v { vein s v with waitOn := 0 }) v else s) s

/-- A command is complete (R15): it retires in order, or halts its vein. -/
def completeJob (s : State) (v seq : Nat) : State :=
  let s := updJob s v seq (fun j => { j with fin := true, done := true, nts := [], holds := [], ladders := [] })
  let s := match findJob s v seq with
    | some j => if jobHalts j && vBase s v != Vs.halting then beginHalt s v else s
    | none => s
  -- its arrays are free, and the earlier commands that DRAIN awaits may be over (R206, R217)
  settleWaits (refreshVein (settleHalt (retire s v) v) v)

/-- A control command that completes with OK as it issues. -/
def completeNow (s : State) (v seq : Nat) : State := completeJob s v seq

/-- Admitted, not complete work of the frame (R16): some command or some unissued command of an admitted group. -/
def veinBusy (s : State) (v : Nat) : Bool :=
  let x := vein s v
  x.jobs.any (fun j => j.inFrame && !j.done) || x.groups.any (fun g => g.admitted && g.work && g.issued < g.size &&
    !isFiller s (vTenant s v))

/-- The block's own condition of R16 holds. -/
def frameIdle (s : State) : Bool := (List.range 16).all (fun v => !veinBusy s v)

end Sys2Proof.Machine
end

