-- ==== Sys2Proof/Machine/StreamOps.lean ====
section
/-! DEFINITION. Semaphores (R159 to R161) and streams: descriptors, the address generator, byte FIFOs over halves,
landing buffers and RESIDENT ranges, sequence ends, halts (R144 to R154). -/

namespace Sys2Proof.Machine

/-! ## Semaphores -/

def semValue (s : State) (k : Nat) : Nat := fld s (Reg.semVal k) Fl.semVal_VALUE

def inSemRange (s : State) (t k : Nat) : Bool :=
  let b := fld s (Reg.semRange t) Fl.semRange_BASE
  let n := fld s (Reg.semRange t) Fl.semRange_COUNT
  b ≤ k && k < b + n && k < 256

/-- N tiles of commands in flight that wait on a semaphore for their partial sums, with count 1 (R208). -/
def psumWaiters (s : State) (k : Nat) : List (Nat × Nat × Nat × Option (Nat × Nat)) :=
  (allJobs s).flatMap (fun p => if (tileOf p.2.words).psem != k then [] else
    p.2.nts.filterMap (fun x => x.auxOrd.map (fun o => (o, p.1, 1, some (p.2.seq, x.nt)))))

/-- What waits on a semaphore, in the order in which the waits were issued: order, vein, count, and for a wait of an N tile
its command and the tile (R161, R208). -/
def semWaiters (s : State) (k : Nat) : List (Nat × Nat × Nat × Option (Nat × Nat)) :=
  let l := (List.range 16).filterMap (fun v => match (vein s v).wait with
    | some (.sem k' c _ _ o) => if k' = k then some (o, v, c, none) else none
    | _ => none)
  sortBy (fun a b => a.1 ≤ b.1) (l ++ psumWaiters s k)

/-- The field shows at most 15 waiters; a wait of an N tile is none of a vein. (DESIGN CHOICE, log 125) -/
def setWaiters (s : State) (k : Nat) : State :=
  setFld s (Reg.semVal k) Fl.semVal_WAITERS (min ((semWaiters s k).filter (fun w => w.2.2.2.isNone)).length 15)

/-- The command a vein waits in is over: the wait ends and the command completes (R161, R216). -/
def endWait (s : State) (v : Nat) (code : Nat) : State :=
  let x := vein s v
  let lost := x.lost && (match x.wait with
    | some (.sem _ _ tmo _ _) => tmo != 0
    | some (.markFrame _) => true
    | some .markNext => true
    | _ => false)
  let s := setVein s v { x with wait := none, lost := false }
  match x.jobs.find? (fun j => !j.done && [0x0D, 0x10, 0x11, 0x12].contains j.op) with
  | none => refreshVein s v
  | some j =>
    let s := if code = 0 then s else addCond s v j.seq code
    let s := if lost then addCond s v j.seq St.tickLost else s
    completeJob s v j.seq

/-- Wake waiters in order while the value meets their counts (R161). -/
def semWake (k : Nat) : Nat → State → State
  | 0, s => s
  | n + 1, s =>
    match semWaiters s k with
    | [] => s
    | (_, v, c, tile) :: _ =>
      if semValue s k ≥ c then
        let s := setFld s (Reg.semVal k) Fl.semVal_VALUE (semValue s k - c)
        semWake k n (match tile with
          | none => endWait s v 0
          | some (q, nt) => updJob s v q (fun j => updNt j nt false (fun x => { x with auxIn := true, auxOrd := none })))
      else s

/-- Wake what can be woken, and show the waiters. -/
def semSettle (s : State) (k : Nat) : State := setWaiters (semWake k (semWaiters s k).length s) k

/-- The value rises; above 65,535 it saturates and the excess is counted and recorded (R160). -/
def semRaise (s : State) (k val src : Nat) (t : Option Nat) : State :=
  let n := semValue s k + val
  let s := setFld s (Reg.semVal k) Fl.semVal_VALUE (min n 65535)
  let s := if n > 65535 then
      recordErr (incFld s Reg.semOvf Fl.semOvf_COUNT 1)
        { ErrRec.ofDet 1 0x15 with tenant := t, lkind := 6, loc := k + (src <<< 16) }
    else s
  semSettle s k

/-- A post that its target discards: counted and recorded (R160). -/
def semRefuse (s : State) (k src : Nat) (t : Option Nat) (inj : Bool) : State :=
  recordErr (incFld s Reg.semRefused Fl.semRefused_COUNT 1)
    { ErrRec.ofDet 1 0x15 with tenant := t, lkind := 6, loc := k % 256 + (src <<< 16), inj := inj }

/-- A post is applied or refused at its target (R160); an injection marks it refused (R389).
(DESIGN CHOICE, log 39) -/
def semPost (s : State) (k val t src : Nat) (v : Option Nat) : State :=
  let injR := flint s 0x15 { InjSel.ofUnit (k % 256) with tenant := some t, vein := v } false
  let inj := injR.1
  let s := injR.2
  if inj || !inSemRange s t k then semRefuse s k src (some t) inj else semRaise s k val src (some t)

/-- A post of the block itself without a tenant (trace, R409): not checked against ranges.
(DESIGN CHOICE, log 39) -/
def semPostLocal (s : State) (k val : Nat) : State :=
  let injR := flint s 0x15 (InjSel.ofUnit (k % 256)) false
  let inj := injR.1
  let s := injR.2
  if inj then semRefuse s k (stratum s) none true else semRaise s k val (stratum s) none

/-! ## Descriptors (R147) -/

structure Desc where
  xstratum : Nat
  xbase    : Nat
  cnt3 : Nat
  cnt2 : Nat
  cnt1 : Nat
  len0 : Nat
  str1 : Int
  str2 : Int
  str3 : Int
  halfl    : Nat
  buf      : Nat
  kind     : Nat
  portmask : Nat
  mc       : Bool
  loop     : Bool
  group    : Nat
  sem      : Nat
  semev    : Nat
  turn     : Bool
  esz      : Nat
  landing  : Bool
  rsvd     : Bool       -- some reserved bit is non-zero
  deriving DecidableEq, Repr

/-- Descriptor words W0 to W6. -/
def descOf (w0 w1 w2 w3 w4 w5 w6 : Nat) : Desc :=
  { xstratum := bits w0 48 10, xbase := bits w0 0 48, cnt3 := bits w1 48 16 + 1, cnt2 := bits w1 32 16 + 1,
    cnt1 := bits w1 16 16 + 1, len0 := bits w1 0 16 + 1, str1 := toSigned 40 w2, str2 := toSigned 40 w3,
    str3 := toSigned 40 w4, halfl := bits w5 32 20, buf := bits w5 0 26, kind := bits w6 60 4, portmask := bits w6 56 4,
    mc := bit w6 55, loop := bit w6 54, group := bits w6 48 6, sem := bits w6 40 8, semev := bits w6 38 2,
    turn := bit w6 37, esz := bits w6 35 2, landing := bit w6 34,
    rsvd := bits w0 58 6 != 0 || bits w2 40 24 != 0 || bits w3 40 24 != 0 || bits w4 40 24 != 0 || bits w5 52 12 != 0 ||
      bits w5 26 6 != 0 || bits w6 0 34 != 0 }

/-- The descriptor of a stream as its registers hold it. -/
def desc (s : State) (i : Nat) : Desc :=
  descOf (rd s (Reg.stmDescW0 i)).toNat (rd s (Reg.stmDescW1 i)).toNat (rd s (Reg.stmDescW2 i)).toNat
    (rd s (Reg.stmDescW3 i)).toNat (rd s (Reg.stmDescW4 i)).toNat (rd s (Reg.stmDescW5 i)).toNat
    (rd s (Reg.stmDescW6 i)).toNat

def setSState (s : State) (i st : Nat) : State := setFld s (Reg.stmDescW7 i) Fl.stmDescW7_STATE st
def sTenant (s : State) (i : Nat) : Nat := fld s (Reg.stmDescW7 i) Fl.stmDescW7_TENANT

def Desc.isResident (d : Desc) : Bool := d.kind == 4
def Desc.isInbound (d : Desc) : Bool := d.kind == 0 || d.kind == 1
def Desc.isOutbound (d : Desc) : Bool := d.kind == 2 || d.kind == 3
def Desc.isDeep (d : Desc) : Bool := d.kind == 0 || d.kind == 2
def Desc.remote (d : Desc) : Bool := d.kind == 3 && !d.mc

/-- Bytes of a sequence (R148). -/
def Desc.total (d : Desc) : Nat := d.len0 * d.cnt1 * d.cnt2 * d.cnt3

/-- Outside address of byte q of a sequence (R148). -/
def Desc.addr (d : Desc) (xbase q : Nat) : Int :=
  let i1 := q / d.len0 % d.cnt1
  let i2 := q / (d.len0 * d.cnt1) % d.cnt2
  let i3 := q / (d.len0 * d.cnt1 * d.cnt2)
  (xbase : Int) + i1 * d.str1 + i2 * d.str2 + i3 * d.str3 + (q % d.len0 : Nat)

/-- Lowest and highest address the generator can produce (R148). -/
def Desc.span (d : Desc) (xbase : Nat) : Int × Int :=
  let t (n : Nat) (st : Int) : Int := ((n : Int) - 1) * st
  let lo := (xbase : Int) + min 0 (t d.cnt1 d.str1) + min 0 (t d.cnt2 d.str2) + min 0 (t d.cnt3 d.str3)
  let hi := (xbase : Int) + max 0 (t d.cnt1 d.str1) + max 0 (t d.cnt2 d.str2) + max 0 (t d.cnt3 d.str3) + d.len0 - 1
  (lo, hi)

/-- Bytes of a half, or of the landing buffer. -/
def Desc.halfBytes (d : Desc) : Nat := d.halfl * 64

/-- The turn of 64 × 64 blocks: FIFO position to position in the outside sequence, and back (R144). -/
def turnPos (d : Desc) (p : Nat) : Nat :=
  if !d.turn then p
  else
    let e := 1 <<< d.esz
    let blk := 4096 * e
    let x := p % blk / e
    p / blk * blk + (x % 64 * 64 + x / 64) * e + p % e

/-! ## The byte FIFO -/

/-- The sequence that holds a position. -/
def seqAt (x : StreamSt) (p : Nat) : Option SeqRec :=
  x.seqs.foldl (fun acc r => if r.start ≤ p then some r else acc) none

/-- The current sequence. -/
def curSeq (x : StreamSt) : Option SeqRec := x.seqs.getLast?

def seqEndPos (x : StreamSt) : Nat := match curSeq x with | none => 0 | some r => r.start + r.len

/-- Bytes of a block of the turn unit (R144). -/
def Desc.block (d : Desc) : Nat := 4096 <<< d.esz

/-- The Mica offset of a position of the FIFO; none: no room is assigned to it. -/
def posAddr (s : State) (i p : Nat) : Option Nat :=
  let d := desc s i
  let x := strm s i
  if d.isResident then
    match seqAt x p with
    | none => none
    | some r =>
      if p < r.start + r.len || d.loop then
        some (d.addr r.xbase (turnPos d ((p - r.start) % r.len))).toNat
      else none
  else
    match x.chunks.find? (fun c => c.start ≤ p && p < c.start + c.len) with
    | none => none
    | some c => some (d.buf + c.half * d.halfBytes + (p - c.start))

/-- The FIFO position of the byte that the outside sequence has at a position (R144). -/
def fifoPos (s : State) (i p : Nat) : Nat :=
  match seqAt (strm s i) p with
  | none => p
  | some r => r.start + turnPos (desc s i) (p - r.start)

/-- Positions from the sequence's start rounded down to whole blocks of a turned stream (R144). -/
def turnFloor (s : State) (i p : Nat) : Nat :=
  let d := desc s i
  match seqAt (strm s i) p with
  | none => p
  | some r => if d.turn then r.start + (p - r.start) / d.block * d.block else p

/-- And up to whole blocks. -/
def turnCeil (s : State) (i p : Nat) : Nat :=
  if (desc s i).turn && turnFloor s i p < p then turnFloor s i p + (desc s i).block else p

/-- A Deep port is in use: its mode names no error (R414). -/
def portUsable (s : State) (p : Nat) : Bool := bits (s.dpMode.getD p 0) 5 3 == 0

/-- The ports that serve a Deep stream (R148, R414). -/
def deepPorts (s : State) (d : Desc) : List Nat := (List.range 4).filter (fun p => bit d.portmask p && portUsable s p)

/-- The ports of an inbound stream turn its data, so that it arrives in FIFO order: all of them do. Otherwise the plain
blocks of every port are turned on landing (R145). (DEDUCED, log 126) -/
def direct (s : State) (i : Nat) : Bool :=
  let d := desc s i
  !d.turn || (d.kind == 0 && (deepPorts s d).all (fun p => bit (s.dpMode.getD p 0) 3))

/-- Positions below this have arrived in order; of a stream that a turn unit turns, in whole blocks (R144, R145). -/
def arrived (s : State) (i : Nat) : Nat :=
  let x := strm s i
  let m := x.outst.foldl (fun m r => min m r.pos) x.asked
  if direct s i then m else turnFloor s i m

/-- Positions that the mask left out of the fetch (R130). -/
def skipped (x : StreamSt) (p n : Nat) : Bool := x.skip.any (fun k => k.1 < p + n && p < k.1 + k.2)

/-- Are positions p to p + n available to a consumer? A LOOP stream with a held re-arm waits for the end of its round
(R151, R153). -/
def availRange (s : State) (i p n : Nat) : Bool :=
  let d := desc s i
  let x := strm s i
  if n = 0 then true
  else if d.isResident then
    match curSeq x with
    | none => false
    | some r => (d.loop && x.rearm.isNone) || p + n ≤ r.start + r.len
  else p + n ≤ arrived s i && (posAddr s i p).isSome && (posAddr s i (p + n - 1)).isSome && !skipped x p n

/-- The bytes at positions p to p + n, and whether a poisoned word was reached (R143). -/
def readRange (s : State) (i p n : Nat) : List Byte × Bool :=
  ((List.range n).map (fun k => match posAddr s i (p + k) with | some a => micaByte s a | none => 0),
   !s.poison.isEmpty && (List.range n).any (fun k => match posAddr s i (p + k) with
     | some a => s.poison.contains (a / 16) | none => false))

/-- The lowest position of a stream that a command in flight still needs (R150). -/
def lowHeld (s : State) (i : Nat) : Option Nat :=
  ((allJobs s).flatMap (fun p => p.2.holds)).foldl (fun m h =>
    if h.2.1 = i then (match m with | none => some h.2.2 | some q => some (min q h.2.2)) else m) none

/-- Is a half that has been read wholly free again? (R150) (DEDUCED, log 109) -/
def chunkFree (s : State) (i : Nat) (c : Chunk) : Bool :=
  let d := desc s i
  let x := strm s i
  if d.isOutbound && d.turn then
    -- emptied into the turn unit, or sent
    c.filled ≥ c.len && (x.turn.any (fun b => b.1 + 1 ≥ c.start + c.len) || c.start + c.len ≤ x.asked)
  else if d.isOutbound then
    -- emptied: all of it sent, and acknowledged unless it went to a group
    c.filled ≥ c.len && c.start + c.len ≤ (if d.mc then x.asked else arrived s i)
  else
    c.filled ≥ c.len && c.start + c.len ≤ x.taken && (!(d.mc && d.isDeep) || c.start + c.len ≤ x.mcSent) &&
      (match lowHeld s i with | none => true | some q => c.start + c.len ≤ q)

/-- Release the halves that are free (R150). A landing buffer has no consumer and is kept (R149).
(DEDUCED, log 109) -/
def release (s : State) (i : Nat) : State :=
  let x := strm s i
  if (desc s i).landing then s
  else setStrm s i { x with chunks := x.chunks.filter (fun c => !chunkFree s i c) }

/-- Bytes into the chunks that hold positions p to p + n. -/
def fillChunks (cs : List Chunk) (p n : Nat) : List Chunk :=
  cs.map (fun c => { c with filled := c.filled + (min (c.start + c.len) (p + n) - max c.start p) })

/-- A byte that a burst brings: the word it lies in is clean again, unless another burst of the present fill has
poisoned it (R143, R414). -/
def putByte (s : State) (i a : Nat) (b : Byte) (bad : Bool) : State :=
  let x := strm s i
  let w := a / 16
  if bad then poisonAt (setStrm s i { x with bad := (x.bad.filter (· != w)) ++ [w] }) a
  else if x.bad.contains w then micaPutByte s a b
  else micaPutByte { s with poison := s.poison.filter (· != w) } a b

/-- The turn unit of an inbound stream writes the bytes that have a place now (R144). -/
def turnOut (s : State) (i : Nat) : State :=
  let x := strm s i
  if x.turn.isEmpty || (desc s i).isOutbound then s
  else
    let go := x.turn.filter (fun b => (posAddr s i b.1).isSome)
    let s := setStrm s i { x with turn := x.turn.filter (fun b => (posAddr s i b.1).isNone) }
    go.foldl (fun s b => match posAddr s i b.1 with
      | some a =>
        let s := putByte s i a b.2.1 b.2.2
        setStrm s i { strm s i with chunks := fillChunks (strm s i).chunks b.1 1 }
      | none => s) s

/-- What the turn unit of an outbound stream takes next: the bytes of its present block from halves that their producer
has closed; first position and number (R144, R149). -/
def turnRange (s : State) (i : Nat) : Nat × Nat :=
  let d := desc s i
  let x := strm s i
  let from_ := match x.turn.getLast? with | some b => b.1 + 1 | none => x.asked
  let upto := x.chunks.foldl (fun e c => if c.start ≤ e && e < c.start + c.len && c.filled ≥ c.len
    then c.start + c.len else e) from_
  if d.turn && d.isOutbound then (from_, min upto (turnFloor s i x.asked + d.block) - from_) else (from_, 0)

/-- The turn unit takes them; a block that has left it is dropped. -/
def turnIn (s : State) (i : Nat) : State :=
  let x := strm s i
  let s := setStrm s i { x with turn := if (desc s i).isOutbound then x.turn.filter (fun b => b.1 ≥ turnFloor s i x.asked)
                                        else x.turn }
  let (p, n) := turnRange s i
  setStrm s i { strm s i with turn := (strm s i).turn ++ (List.range n).map (fun k => match posAddr s i (p + k) with
    | some a => (p + k, micaByte s a, s.poison.contains (a / 16))
    | none => (p + k, 0, false)) }

/-- Assign room to the next chunk of the current sequence when a half is free (R149). -/
def extendOne (s : State) (i : Nat) : State :=
  let d := desc s i
  let x := strm s i
  match curSeq x with
  | none => s
  | some r =>
    let p := max r.start x.next
    if d.isResident || d.halfBytes = 0 || p ≥ r.start + r.len then s
    else if d.landing then setStrm s i { x with chunks := [⟨r.start, r.len, 0, 0⟩], next := r.start + r.len, bad := [] }
    else if x.chunks.any (fun c => c.half == x.half) then s
    else
      let n := min d.halfBytes (r.start + r.len - p)
      let lo := (d.buf + x.half * d.halfBytes) / 16
      turnOut (setStrm s i { x with
        chunks := x.chunks ++ [⟨p, n, x.half, 0⟩]
        next := p + n
        bad := x.bad.filter (fun w => w < lo || w ≥ lo + cdiv d.halfBytes 16)
        half := 1 - x.half }) i

/-! ## Sequences -/

/-- Add bytes to BYTES (R147). -/
def countBytes (s : State) (i n : Nat) : State := incFld s (Reg.stmDescW7 i) Fl.stmDescW7_BYTES n

/-- Bits that differ between two codes of a width. -/
def bitsChanged (w a b : Nat) : Nat := ((List.range w).filter (fun k => bit a k != bit b k)).length

/-- Talus reads elements of a width of a stream, one on each lane of an array's feeder: what changes from the elements
before them on those lanes counts (R258). (DEDUCED, log 24) -/
def measure (s : State) (i array w : Nat) (codes : List Nat) : State :=
  let x := strm s i
  let old := match x.lanes.find? (fun l => l.1 == array) with | some l => l.2 | none => []
  let ps := old.zip codes
  setStrm s i { x with
    seen := true
    act := (x.act.1 + (ps.map (fun p => bitsChanged w p.1 p.2)).foldl (· + ·) 0, x.act.2 + w * ps.length)
    lanes := x.lanes.filter (fun l => l.1 != array) ++ [(array, codes ++ old.drop codes.length)] }

/-- A run of elements on one lane. -/
def measureRun (s : State) (i w : Nat) (codes : List Nat) : State :=
  codes.foldl (fun s c => measure s i 0 w [c]) s

/-- The activity measured over a sequence (R258). Where no two elements followed each other the spec gives no value,
and it is free. (DESIGN CHOICE, log 24) -/
def writeActivity (s : State) (i : Nat) : State :=
  let x := strm s i
  if x.seen then
    let s := setStrm s i { x with seen := false, act := (0, 0), lanes := [] }
    if x.act.2 = 0 then
      let (v, s) := takeFree s 8
      setFld s (Reg.trmAct (i / 8)) ⟨8 * (i % 8), 8⟩ v
    else setFld s (Reg.trmAct (i / 8)) ⟨8 * (i % 8), 8⟩ (min 255 (256 * x.act.1 / x.act.2))
  else s

/-- Sequences that some position below or at the present one may still lie in. -/
def trimSeqs (s : State) (i : Nat) : List SeqRec :=
  let x := strm s i
  let low := (x.outst.map (·.pos) ++ x.chunks.map (·.start) ++ [x.taken, x.asked]).foldl min
    ((lowHeld s i).getD x.asked)
  let dead (r : SeqRec) : Bool := x.seqs.any (fun q => r.start < q.start && q.start ≤ low)
  x.seqs.filter (fun r => !dead r)

/-- A sequence begins at a position (R149, R151). -/
def startSeq (s : State) (i start xbase : Nat) : State :=
  let d := desc s i
  let s := setFld s (Reg.stmDescW0 i) Fl.stmDescW0_XBASE xbase
  setStrm s i { strm s i with seqs := trimSeqs s i ++ [⟨start, d.total, xbase⟩], next := start }

/-- Post at the end of a sequence (R154): local, or in the target block of an OUT_LINK stream. -/
def endPost (s : State) (i : Nat) : State :=
  let d := desc s i
  if d.semev != 1 then s
  else if d.remote then
    if d.xstratum = stratum s then semPost s d.sem 1 (sTenant s i) (stratum s) none
    else
      { s with transit := s.transit ++ [⟨1, ⟨d.xstratum, stratum s, sTenant s i, d.sem, 1⟩, [], none, none, none⟩] }
  else semPost s d.sem 1 (sTenant s i) (stratum s) none

/-- RW and RWL bits of a register: what a Slate record writes (R322). -/
def loadMask (a : Nat) : Nat := match regRow a with | none => 0 | some r => r.rw ||| r.rwl

/-- A record writes the RW and RWL fields of its register. -/
def applyRec (s : State) (r : Nat × Nat) : State :=
  let m := loadMask r.1
  wr s r.1 (BitVec.ofNat 64 (((rd s r.1).toNat &&& (2 ^ 64 - 1 - m)) ||| (r.2 &&& m)))

/-- Some stream of a multicast group runs. -/
def groupBusy (s : State) (g : Nat) : Bool :=
  (List.range 64).any (fun i => sState s i == Ss.running && (desc s i).mc && (desc s i).group == g)

/-- Reloaded MCAST registers whose group has come to rest take their new values (R338). (DEDUCED, log 76) -/
def settleMcast (s : State) : State :=
  match s.slt.mcLater.filter (fun p => !groupBusy s p.1) with
  | [] => s
  | go =>
    let s := { s with slt := { s.slt with mcLater := s.slt.mcLater.filter (fun p => groupBusy s p.1) } }
    go.foldl (fun s p => applyRec s (Reg.stmMcast p.1, p.2.toNat)) s

/-- The current sequence ends: the post, then the held re-arm, the next round of a LOOP stream, or ENDED (R148, R151,
R152). -/
def seqEnd (s : State) (i : Nat) : State :=
  let s := writeActivity s i
  let s := endPost s i
  let x := strm s i
  match x.rearm with
  | some xb =>
    let s := setStrm s i { x with rearm := none, stamp := x.nextStamp, nextStamp := none }
    let s := setFlag s (Reg.stmDescW7 i) Fl.stmDescW7_PENDING false
    settleWaits (startSeq s i (seqEndPos x) xb)
  | none =>
    match (desc s i).isResident && (desc s i).loop, curSeq x with
    | true, some r => startSeq s i (seqEndPos x) r.xbase
    | _, _ => settleMcast (settleWaits (setSState s i Ss.ended))

/-- Has every byte of the current sequence moved? Inbound: arrived in its half, with none left in the turn unit. Outbound:
acknowledged. RESIDENT: read or written (R144, R152, R154). -/
def seqDone (s : State) (i : Nat) : Bool :=
  let d := desc s i
  let x := strm s i
  match curSeq x with
  | none => false
  | some r =>
    if d.isResident then x.asked ≥ r.start + r.len
    else x.asked ≥ r.start + r.len && x.outst.isEmpty &&
      (!d.isInbound || (arrived s i ≥ r.start + r.len && x.turn.isEmpty)) &&
      (!(d.mc && d.isDeep) || x.mcSent ≥ r.start + r.len)

/-- End sequences while all their bytes have moved, at most so many. -/
def endSeqs : Nat → State → Nat → State
  | 0, s, _ => s
  | k + 1, s, i => if sState s i == Ss.running && seqDone s i then endSeqs k (seqEnd s i) i else s

/-- End the sequence, and every further round of a LOOP stream, when all its bytes have moved. -/
def checkEnd (s : State) (i : Nat) : State :=
  let n := match curSeq (strm s i) with
    | some r => ((strm s i).asked - r.start) / max 1 r.len + 1
    | none => 0
  endSeqs n s i

/-- Room for up to both halves (R149). A turn unit that so gives up its last byte may end the sequence (R144). -/
def extend (s : State) (i : Nat) : State :=
  let t := extendOne (extendOne (release s i) i) i
  if !(strm s i).turn.isEmpty && (strm t i).turn.isEmpty then checkEnd t i else t

/-- A stream halts (R152): its status, and its requests are left to return unused. -/
def haltStream (s : State) (i code : Nat) : State :=
  let x := strm s i
  let s := settleMcast (setSState s i Ss.halted)
  let s := setFld s (Reg.stmDescW7 i) Fl.stmDescW7_LASTSTAT code
  let s := setFlag s (Reg.stmDescW7 i) Fl.stmDescW7_PENDING false
  let deep := (desc s i).isDeep
  let s := { s with
    lostTags := if deep then s.lostTags ++ x.outst.map (fun r => (r.port, r.tag)) else s.lostTags
    writes := s.writes.map (fun w => if w.stream = i then { w with stream := 64 } else w)
    transit := s.transit.filter (fun r => r.stream != some i) }
  setStrm s i { x with outst := [], rearm := none, nextStamp := none }

/-- Take n bytes of a stream for a consumer or a producer: the first position. -/
def takeBytes (s : State) (i n : Nat) : Nat × State :=
  let x := strm s i
  (x.taken, setStrm s i { x with taken := x.taken + n })

/-- A consumer has read up to a position: a RESIDENT stream moves on. -/
def consumed (s : State) (i upto : Nat) : State :=
  let x := strm s i
  let s := setStrm s i { x with seen := true }
  if (desc s i).isResident && upto > x.asked then
    let s := setStrm s i { strm s i with asked := upto }
    checkEnd (countBytes s i (upto - x.asked)) i
  else s

/-- May positions p to p + n be written by a producer? -/
def writable (s : State) (i p n : Nat) : Bool :=
  if n = 0 then true
  else if (desc s i).isResident then
    match curSeq (strm s i) with
    | none => false
    | some r => r.start ≤ p && (((desc s i).loop && (strm s i).rearm.isNone) || p + n ≤ r.start + r.len)
  else (List.range n).all (fun k => (posAddr s i (p + k)).isSome)

/-- Runs of rising addresses. -/
def runsOf : List (Nat × Byte) → List (Nat × List Byte)
  | [] => []
  | (a, b) :: rest =>
    match runsOf rest with
    | (a', bs) :: rs => if a' = a + 1 then (a, b :: bs) :: rs else (a, [b]) :: (a', bs) :: rs
    | [] => [(a, [b])]

/-- Write bytes where positions p onward of a stream lie. -/
def putAt (s : State) (i p : Nat) (bs : List Byte) : State :=
  (runsOf ((bs.zip (List.range bs.length)).filterMap (fun b => (posAddr s i (p + b.2)).map (fun a => (a, b.1))))).foldl
    (fun s r => micaWrite s r.1 r.2) s

/-- A producer writes bytes at a position (R178): the half that holds them fills. -/
def writeRange (s : State) (i p : Nat) (bs : List Byte) : State :=
  let s := putAt s i p bs
  let x := strm s i
  if (desc s i).isResident then
    -- every position is written once, in any order: the sequence ends with its last byte
    let s := setStrm s i { x with asked := x.asked + bs.length }
    checkEnd (countBytes s i bs.length) i
  else setStrm s i { x with chunks := fillChunks x.chunks p bs.length }

/-- The stream is one that serves: RUNNING or ENDED (R222). -/
def streamLive (s : State) (i : Nat) : Bool := sState s i == Ss.running || sState s i == Ss.ended

def inStreamRange (s : State) (t i : Nat) : Bool :=
  let b := fld s (Reg.stmRange t) Fl.stmRange_BASE
  let n := fld s (Reg.stmRange t) Fl.stmRange_COUNT
  b ≤ i && i < b + n

/-! ## Deep ports (R413, R414) -/

/-- Tags of a port whose response has not returned (R413). -/
def tagsUsed (s : State) (p : Nat) : List Nat :=
  (s.streams.flatMap (fun kx => if (desc s kx.1).isDeep then
    kx.2.outst.filterMap (fun r => if r.port = p then some r.tag else none) else [])) ++
  (s.lostTags ++ s.evacReqs).filterMap (fun t => if t.1 = p then some t.2 else none)

def freeTag (s : State) (p : Nat) : Option Nat := (List.range 512).find? (fun t => !(tagsUsed s p).contains t)

end Sys2Proof.Machine
end

