-- ==== Sys2Proof/Machine/CairnOps.lean ====
section
/-! DEFINITION. Operations of Cairn that several events share (R228 to R251): the grid, the tick tree, parents, tokens,
READY, the lock state and time. -/

namespace Sys2Proof.Machine

def setCrn (s : State) (f : CairnSt → CairnSt) : State := { s with crn := f s.crn }

/-- The frame period in units of 1/16 ns (R237). -/
def periodTs (s : State) : Nat := 16 * fld s Reg.crnPeriod Fl.crnPeriod_NS

/-- LEAD in units of 1/16 ns; below 256 ns it acts as 256 ns (R252). -/
def leadTs (s : State) : Nat := 16 * max 256 (fld s Reg.crnCtrl Fl.crnCtrl_LEAD)

def policy (s : State) : Nat := fld s Reg.crnCtrl Fl.crnCtrl_POLICY
def isLode (s : State) : Bool := flag s Reg.crnState Fl.crnState_ROLE
def lode (s : State) : Nat := fld s Reg.crnState Fl.crnState_LODE
def uplink (s : State) : Nat := fld s Reg.crnState Fl.crnState_UPLINK

/-- Lock states of R235: 0 FREE, 1 ACQUIRE, 2 LOCKED, 3 HOLDOVER. -/
def lockSt (s : State) : Nat := fld s Reg.crnState Fl.crnState_LOCK
def setLock (s : State) (k : Nat) : State :=
  setCrn (setFld s Reg.crnState Fl.crnState_LOCK k) (fun c => { c with good := 0, bad := 0 })

def gridNext (s : State) : Nat := fld s Reg.crnGrid Fl.crnGrid_NEXT

/-- Blocks that the tokens of the children and this block's own cover (R241). (DEDUCED, log 135) -/
def counted (tokens : List (Nat × Nat × Bool × Nat)) : Nat := tokens.foldl (fun n t => n + t.2.1) 1

/-- A grid point passes: the next one, with nothing heard or decided for it; a child without its token is one more
overdue, and so are this block to its parent and a count below the tree's (R237, R241, R242). -/
def passGrid (s : State) : State :=
  let s := setFld s Reg.crnGrid Fl.crnGrid_NEXT (gridNext s + periodTs s)
  setCrn s (fun c => { c with
    heard := false
    decided := false
    owed := if c.token.isSome then 0 else c.owed + 1
    short := if counted c.tokens < c.tree then c.short + 1 else 0
    overdue := c.kids.foldl (fun o l =>
      if c.tokens.any (fun t => t.1 == l) then tabSet o l 0 else tabSet o l (mapGet 0 o l + 1)) c.overdue })

/-- Its parent leaves this block out of the frame accounting, as far as it can tell itself: TOKTO grid points have passed
without its token (R242). (DEDUCED, log 80) -/
def leftOut (s : State) : Bool :=
  let n := fld s Reg.crnCtrl Fl.crnCtrl_TOKTO
  !isLode s && n != 0 && decide (s.crn.owed ≥ n)

/-- Links that carry ticks. -/
def tickLinks (s : State) : List Nat := (List.range 6).filter (fun l => linkActive s l && tickCarriage s l)

/-- Children that take part. -/
def liveKids (s : State) : List Nat := s.crn.kids.filter (fun l => !s.crn.excluded.contains l)

def addKid (s : State) (l : Nat) : State := setCrn s (fun c => { c with kids := insNat l c.kids })

/-! ## Tokens (R16, R241) -/

/-- Every child that takes part has sent its token. (DEDUCED, log 135) -/
def allIn (s : State) (tokens : List (Nat × Nat × Bool × Nat)) : Bool :=
  (liveKids s).all (fun l => tokens.any (fun t => t.1 == l))

def kidsIn (s : State) : Bool := allIn s s.crn.tokens

/-- Lateness, lowest late stratum and blocks of this block and of some tokens of its children. (DEDUCED, log 135) -/
def tokenOver (s : State) (tokens : List (Nat × Nat × Bool × Nat)) (late : Bool) : Bool × Nat × Nat :=
  tokens.foldl (fun a t => (a.1 || t.2.2.1, if t.2.2.1 then min a.2.1 t.2.2.2 else a.2.1, a.2.2 + t.2.1))
    (late, if late then stratum s else 1023, 1)

/-- A token on its way to the parent. A tripped block sends none (R277). -/
def tokenUp (s : State) (frame : Nat) (x : Bool × Nat × Nat) : State :=
  if uplink s ≥ 6 || s.trm.tripped then s
  else sendTokenMsg s (uplink s) frame x.2.2 x.1 (if x.1 then x.2.1 else 0)

/-- Send the token of the current frame to the parent; the Lodestone keeps it. -/
def sendToken (s : State) (late : Bool) : State :=
  let x := tokenOver s s.crn.tokens late
  let s := setCrn s (fun c => { c with token := some x })
  if isLode s then s else tokenUp s (frameNo s) x

/-- Send the token of the frame before, as far as the children's tokens of it have come (R241). -/
def sendClosing (s : State) : State :=
  match s.crn.closing with
  | none => s
  | some c =>
    let s := setCrn s (fun x => { x with closing := none })
    if isLode s then s else tokenUp s c.frame (tokenOver s c.got c.late)

/-- After re-parenting a block sends the token of the current frame again (R241). -/
def resendToken (s : State) : State :=
  match s.crn.token with
  | some x => tokenUp s (frameNo s) x
  | none => s

/-! ## Parents (R233) -/

/-- The best neighbour of the current Lodestone: lowest hops, then the link order. -/
def bestParent (s : State) : Option (Nat × Nat) :=
  (tickLinks s).foldl (fun b l =>
    match s.crn.nbrs.find? (fun n => n.1 == l && n.2.2 == lode s) with
    | none => b
    | some (_, h, _) => (match b with
      | none => some (l, h)
      | some (l', h') => if h < h' then some (l, h) else some (l', h'))) none

/-- Choose the parent and the hop count. -/
def reparent (s : State) : State :=
  if isLode s then s
  else
    let old := uplink s
    match bestParent s with
    | none => setFld (setFld s Reg.crnState Fl.crnState_UPLINK 7) Reg.crnState Fl.crnState_HOPS 15
    | some (l, h) =>
      let s := setFld (setFld s Reg.crnState Fl.crnState_UPLINK l) Reg.crnState Fl.crnState_HOPS (min 15 (h + 1))
      let s := setCrn s (fun c => { c with kids := c.kids.filter (· != l), tokens := c.tokens.filter (fun t => t.1 != l) })
      if old = l then s else resendToken (setCrn s (fun c => { c with rate := none }))

/-- A link no longer carries ticks: parent, child and exchange over it are gone (R233, R302). -/
def linkGone (s : State) (l : Nat) : State :=
  let s := setCrn s (fun c => { c with
    nbrs := c.nbrs.filter (fun n => n.1 != l)
    kids := c.kids.filter (· != l)
    excluded := c.excluded.filter (· != l)
    overdue := c.overdue.filter (fun o => o.1 != l)
    tokens := c.tokens.filter (fun t => t.1 != l)
    readies := c.readies.filter (fun r => r.1 != l)
    xch := match c.xch with | some (k, a, b) => if k = l then none else some (k, a, b) | none => none })
  if !isLode s && uplink s = l then
    setFld (setFld s Reg.crnState Fl.crnState_UPLINK 7) Reg.crnState Fl.crnState_HOPS 15
  else s

/-! ## The Lodestone -/

/-- This block becomes Lodestone (R235, R245). -/
def becomeLode (s : State) : State :=
  let a := Reg.crnState
  let s := setFlag s a Fl.crnState_ROLE true
  let s := setFld s a Fl.crnState_LODE (stratum s)
  let s := setFld s a Fl.crnState_HOPS 0
  let s := setFld s a Fl.crnState_UPLINK 7
  setCrn (setLock s 2) (fun c => { c with nbrs := [], xch := none, slew := 0, closing := none, tree := 0 })

/-- This block follows a Lodestone from now on; its parent is found by the SYNCs of that Lodestone. -/
def becomeFollower (s : State) (l : Nat) : State :=
  let a := Reg.crnState
  let s := setFlag s a Fl.crnState_ROLE false
  let s := setFld s a Fl.crnState_LODE l
  let s := setFld s a Fl.crnState_HOPS 15
  let s := setFld s a Fl.crnState_UPLINK 7
  setCrn s (fun c => { c with
    xch := none, rate := none, kids := [], tokens := [], closing := none, excluded := [], overdue := [], step := 0 })

/-- Lowest stratum of a candidate set held in PX_CRN_CAND0 to PX_CRN_CAND15 (R232). -/
def candidates (s : State) : List Nat :=
  (List.range 1024).filter (fun n => (rd s (Reg.crnCand (n / 64))).toNat.testBit (n % 64))

/-! ## Time -/

/-- Add a signed amount, in 2^-32 of 1/16 ns, to time (R228, R234, R251). -/
def addTime (s : State) (d : Int) : State :=
  setCrn s (fun c => { c with time := (((c.time : Int) + d) % (2 ^ 96 : Nat)).toNat })

/-! ## READY (R247, R248) -/

/-- Blocks that this block's READY covers. -/
def readyBlocks (s : State) : Nat := s.crn.readies.foldl (fun a r => a + r.2) 1

/-- The READY of every child that takes part is in. -/
def kidsReady (s : State) : Bool := (liveKids s).all (fun l => s.crn.readies.any (fun r => r.1 == l))

/-- At the Lodestone: the last READY token is in, from the whole chain or from what 10 ms have shown. -/
def allReady (s : State) : Bool :=
  kidsReady s && (s.crn.readyLate || readyBlocks s ≥ fld s Reg.strId Fl.strId_CHAINLEN)

/-- Fix ANCHOR: the grid begins there (R237, R248). -/
def fixAnchor (s : State) (g : Nat) : State :=
  let s := setFld s Reg.crnAnchor Fl.crnAnchor_ANCHOR g
  let s := setFld s Reg.crnGrid Fl.crnGrid_NEXT g
  setCrn s (fun c => { c with anchored := true, heard := false, decided := false, tree := readyBlocks s })

/-- READY goes up the tree, or fixes the anchor at the Lodestone (R247, R248). (DESIGN CHOICE, log 56) -/
def tryReady (s : State) : State :=
  if s.su != .timelock then s
  else if isLode s then
    if !s.crn.anchored && allReady s && !flag s Reg.crnCtrl Fl.crnCtrl_TICKIN_EN then
      fixAnchor s (cdiv (tstamp s + leadTs s + 16000) 16000 * 16000)
    else s
  else if lockSt s == 2 && kidsReady s && uplink s < 6 && !s.crn.readySent then
    sendReady (setCrn s (fun c => { c with readySent := true })) (uplink s) (readyBlocks s)
  else s

/-- Cairn works in these states; its own domain stays up in FATAL (R277, R376). -/
def crnLive (s : State) : Bool :=
  match s.su with | .timelock => true | .ready => true | .run => true | .fatal => true | _ => false

/-- Stratum of the block at the other end of a link, from its capability word (R296). -/
def peerStratum (s : State) (l : Nat) : Nat := bits (rd s (Reg.xlLnkPeer l)).toNat 46 10

/-! ## TIMELOCK -/

/-- Eligible to be Lodestone (R232). -/
def lodeEligible (s : State) : Bool :=
  s.strap.loden && flag s Reg.crnCtrl Fl.crnCtrl_ELIG &&
    (match s.su with
      | .linkup => true | .linkupDone => true | .timelock => true | .ready => true | .run => true | _ => false)

def showEligible (s : State) : State := setFlag s Reg.crnState Fl.crnState_ELIGIBLE (lodeEligible s)

end Sys2Proof.Machine
end

