-- ==== Sys2Proof/Machine/Port.lean ====
section
/-! DEFINITION. The register port's rules that every write shares: domains, locks, and the record of what is ignored or
refused (R7, R393 to R401). -/

namespace Sys2Proof.Machine

/-- A register on VDD_AON (R399). -/
def aonReg (a : Nat) : Bool :=
  a < 0x10000 || a == Reg.sltState || (0x18000 ≤ a && a < 0x20000) || (0x50000 ≤ a && a < 0x60000) ||
    a == Reg.errAtn || a == Reg.errAtnen || a == Reg.errSummary || (Reg.errLast 0 ≤ a && a < Reg.errLast 64)

/-- A register of the DBG block. -/
def dbgReg (a : Nat) : Bool := 0xF0000 ≤ a && a < 0x100000

/-- An access that was ignored or refused, and why (R395): 0 unmapped, 1 unaligned or partial, 2 locked, 3 domain. -/
def badAccess (s : State) (a : Nat) (write : Bool) (reason : Nat) : State :=
  let s := setFlag s Reg.idGstat Fl.idGstat_BADACC true
  let b := Reg.idBadaddr
  let s := setFlag s b Fl.idBadaddr_WRITE write
  let s := setFld s b Fl.idBadaddr_REASON reason
  setFld s b Fl.idBadaddr_ADDR a

/-- Bits of a register that a write may change now: RW and WO, and RWL before the Slate load completes (R7, R401). -/
def openMask (s : State) (r : RegRow) : Nat := r.rw ||| r.wo ||| (if s.locked then 0 else r.rwl)

/-- Bits that stay writable under REGLOCK (R400), W1C bits apart. (DEDUCED, log 83) -/
def freeMask (a : Nat) : Nat :=
  if (List.range 16).any (fun v => a == Reg.vnTail v) then 0xFFFFFFFF
  else if (List.range 16).any (fun v => a == Reg.vnCtrl v) then 7
  else if a == Reg.vnSchedArg then 2 ^ 43 - 1
  else if a == Reg.trmCap then 0xFFFF0000
  else if a == Reg.trmOppsel then 0xF00000000
  else if a == Reg.errRingPtr then 0xFFFFFFFF
  else if a == Reg.errAtnen then 3
  else if a == Reg.numPgtIdx then 0xFFF
  else if a == Reg.idScratch then 2 ^ 64 - 1
  else 0

def regLocked (s : State) : Bool := flag s Reg.idGctl Fl.idGctl_REGLOCK
def dbgOn (s : State) : Bool := flag s Reg.idGctl Fl.idGctl_DBG_EN

/-- Under REGLOCK some fields of a register that are otherwise open are closed (R400). (DEDUCED, log 83) -/
def closedPart (s : State) (a : Nat) (r : RegRow) : Bool :=
  regLocked s && (openMask s r &&& (2 ^ 64 - 1 - freeMask a)) != 0

/-- Why a well-formed access to a mapped register is refused as a whole; none: it is not (R399, R400, R407). Under REGLOCK
a register that keeps a field open, a W1C bit among them, is not refused. (DEDUCED, log 83) -/
def refusal (s : State) (a : Nat) (r : RegRow) (write : Bool) : Option Nat :=
  if s.su == .clamped && !aonReg a then some 3
  else if !write || s.su == .safe then none
  else if dbgReg a && !dbgOn s then some 2
  else if closedPart s a r && (openMask s r &&& freeMask a) = 0 && r.w1c = 0 then some 2
  else none

/-- The value of a register after a write of v that takes effect (R7). In SAFE only W1C bits take effect (R329). Under
REGLOCK a register keeps what R400 does not free. -/
def written (s : State) (a : Nat) (r : RegRow) (v : Nat) : Nat :=
  let old := (rd s a).toNat
  let m := if s.su == .safe then 0 else r.rw ||| (if s.locked then 0 else r.rwl)
  let m := if regLocked s then m &&& freeMask a else m
  ((old &&& (2 ^ 64 - 1 - m)) ||| (v &&& m)) &&& (2 ^ 64 - 1 - (v &&& r.w1c))

/-- A write whose register has an action of its own: it acts unless the port refuses or ignores it. -/
def portAct (s : State) (a : Nat) (go : State → State) : State :=
  match regRow a with
  | none => s
  | some r =>
    if s.su == .off then s
    else
      match refusal s a r true with
      | some k => badAccess s a true k
      | none => if s.su == .safe then s else go s

end Sys2Proof.Machine
end

