-- ==== Sys2Proof/Machine/Tables.lean ====
section
/-! DEFINITION. The block tables in S-Mica: the parameter group table (R348), the scale history (R184), the predictor
masks (R127) and the cost table (R259). -/

namespace Sys2Proof.Machine

/-- The lowest 128 KiB of S-Mica hold the parameter group table (R348). -/
def pgtAddr (s : State) (g : Nat) : Nat := regionBase s 3 + 32 * g

/-- Bytes of an entry as a number, and the fields of it that the block reads. -/
def pgtRaw (s : State) (g : Nat) : Nat := micaNat s (pgtAddr s g) 32
def pgtPut (s : State) (g raw : Nat) : State := micaWrite s (pgtAddr s g) (leBytes 32 raw)

def pgtValid (e : Nat) : Bool := bit e 0
def pgtFrozen (e : Nat) : Bool := bit e 1
def pgtSparse (e : Nat) : Bool := bit e 2
def pgtAccept (e : Nat) : Bool := bit e 3
def pgtZmark (e : Nat) : Bool := bit e 4
def pgtGenv (e : Nat) : Bool := bit e 5
def pgtVoid (e : Nat) : Bool := bit e 6
def pgtStaleacc (e : Nat) : Bool := bit e 7
def pgtSchedid (e : Nat) : Nat := bits e 8 3
def pgtGen (e : Nat) : Nat := bits e 16 16
def pgtRowlen (e : Nat) : Nat := bits e 32 16 + 1
def pgtShardlen (e : Nat) : Nat := bits e 64 42
def pgtGenbwd (e : Nat) : Nat := bits e 112 16
def pgtGenstep (e : Nat) : Nat := bits e 128 40
def pgtMarkstep (e : Nat) : Nat := bits e 192 40

/-- Reserved bits of an entry (R348): a write that sets one is ignored (R349). -/
def pgtReserved (e : Nat) : Bool :=
  bits e 11 5 != 0 || bits e 106 6 != 0 || bits e 168 24 != 0 || bits e 232 24 != 0

/-! ## Scale history -/

def histCount (s : State) : Nat := min 1024 (fld s Reg.numHistCfg Fl.numHistCfg_COUNT)
def histAddr (s : State) (n : Nat) : Nat := fld s Reg.numHistCfg Fl.numHistCfg_BASE * 4096 + 128 * n

structure Hist where
  hist     : List Nat
  pending  : Nat
  hmax     : Nat
  step     : Nat
  head     : Nat
  count    : Nat
  valid    : Bool
  measured : Bool
  coldseen : Bool
  deriving DecidableEq, Repr

def histGet (s : State) (n : Nat) : Hist :=
  let r := micaNat s (histAddr s n) 128
  { hist := (List.range 16).map (fun i => bits r (32 * i) 32), pending := bits r 512 32, hmax := bits r 544 32,
    step := bits r 576 40, head := bits r 616 4, count := bits r 624 5, valid := bit r 632, measured := bit r 633,
    coldseen := bit r 634 }

def histPut (s : State) (n : Nat) (h : Hist) : State :=
  micaWrite s (histAddr s n)
    (h.hist.flatMap (leBytes 4) ++ leBytes 4 h.pending ++ leBytes 4 h.hmax ++ leBytes 5 h.step ++ leBytes 1 h.head ++
      leBytes 1 h.count ++ leBytes 1 (b2n h.valid + 2 * b2n h.measured + 4 * b2n h.coldseen) ++ List.replicate 48 0)

/-- The larger of two non-negative FP32 codes: their codes order as their values do. -/
def fpMax (a b : Nat) : Nat := max a b

/-- One update of SCALE_COMMIT (R185). -/
def histCommit (s : State) (n step : Nat) : State :=
  let h := histGet s n
  if !h.measured then s
  else
    let hist := h.hist.set h.head h.pending
    let head := (h.head + 1) % 16
    let count := min (h.count + 1) 16
    -- the COUNT most recent entries lie before HEAD
    let hmax := (List.range count).foldl (fun m i => fpMax m (hist.getD ((head + 16 - 1 - i) % 16) 0)) 0
    histPut s n { h with hist := hist, head := head, count := count, hmax := hmax, pending := 0, measured := false,
                         step := step, valid := true }

/-- At completion the measured amax joins PENDING (R183). -/
def histMeasure (s : State) (n amax : Nat) : State :=
  let h := histGet s n
  histPut s n { h with pending := fpMax h.pending amax, measured := true }

/-! ## Predictor masks -/

def maskSlots (s : State) : Nat := min 256 (fld s Reg.shlMaskCfg Fl.shlMaskCfg_SLOTS)
def maskAddr (s : State) (slot : Nat) : Nat := fld s Reg.shlMaskCfg Fl.shlMaskCfg_BASE * 4096 + 512 * slot
def maskGet (s : State) (slot : Nat) : Nat := micaNat s (maskAddr s slot) 512
def maskPut (s : State) (slot m : Nat) : State := micaWrite s (maskAddr s slot) (leBytes 512 m)

/-! ## The cost table -/

def costAddr (s : State) (d : Nat) : Nat := fld s Reg.trmCostCfg Fl.trmCostCfg_BASE * 4096 + 64 * d

structure Cost where
  flags  : Nat
  misses : Nat
  pidle  : Nat
  pstat  : Nat
  emica  : Nat
  elink  : Nat
  eel    : Nat
  calfrm : Nat
  emac   : List Nat
  deriving DecidableEq, Repr

def costGet (s : State) (d : Nat) : Cost :=
  let r := micaNat s (costAddr s d) 64
  { flags := bits r 0 8, misses := bits r 8 8, pidle := bits r 16 16, pstat := bits r 32 16, emica := bits r 48 16,
    elink := bits r 64 16, eel := bits r 80 16, calfrm := bits r 96 32,
    emac := (List.range 7).map (fun i => bits r (128 + 16 * i) 16) }

def costPut (s : State) (d : Nat) (c : Cost) : State :=
  micaWrite s (costAddr s d)
    (leBytes 1 c.flags ++ leBytes 1 c.misses ++ leBytes 2 c.pidle ++ leBytes 2 c.pstat ++ leBytes 2 c.emica ++
      leBytes 2 c.elink ++ leBytes 2 c.eel ++ leBytes 4 c.calfrm ++ ((List.range 7).flatMap fun i =>
        leBytes 2 (c.emac.getD i 0)) ++ List.replicate 34 0)

/-- An entry that may be used (R261). -/
def Cost.usable (c : Cost) : Bool := bit c.flags 0 && !bit c.flags 1

end Sys2Proof.Machine
end

