-- ==== Sys2Proof/Machine/MicaOps.lean ====
section
/-! DEFINITION. Errors of Mica words, the retirement of banks, and injection into reads (R142, R143, R375, R382, R389). -/

namespace Sys2Proof.Machine

def setSvc (s : State) (f : SvcSt → SvcSt) : State := { s with svc := f s.svc }

/-- A record that is no event of its detector; with INJ set it shows under FLT (R427). -/
def noteRec (s : State) (r : ErrRec) : State :=
  let s := snapRec s r (mapGet 0 s.detCount r.det)
  if r.inj then summarize s Unit.flt else s

/-- Spare banks that neither serve a logical bank, nor are being filled, nor have failed; lowest first. -/
def freeBanks (s : State) : List Nat :=
  let used := (List.range 192).map (physBank s)
  ((List.range 8).map (· + 192)).filter (fun p =>
    !used.contains p && !s.svc.copies.any (fun c => c.spare == p) && !s.svc.retired.contains p)

/-- A physical bank serves a logical bank from now on. -/
def mapBank (s : State) (b p : Nat) : State := setFld s (Reg.errBankmap (b / 8)) ⟨8 * (b % 8), 8⟩ p

def spareFree (s : State) : Nat := fld s Reg.stmMicaMap Fl.stmMicaMap_SPARE_FREE
def setSpareFree (s : State) (n : Nat) : State := setFld s Reg.stmMicaMap Fl.stmMicaMap_SPARE_FREE n

/-- The record of a retirement; its snapshot is free but for bit 63, set where no spare was free (R377, R382).
(DEDUCED, log 91; DESIGN CHOICE, log 29) -/
def bankRec (s : State) (det p : Nat) (noSpare inj : Bool) : State :=
  let (d0, s) := takeFree s 63
  noteRec s { ErrRec.ofDet 0 det with
    lkind := 3, loc := p, d0 := d0 % 2 ^ 63 + (if noSpare then 2 ^ 63 else 0), snap := false, unit := Unit.err, inj := inj }

/-- A logical bank's physical bank is to be retired: its copy to the lowest free spare begins. With no spare free it stays
in use, and its next event finds it so (R382). -/
def retireBank (s : State) (b det : Nat) (inj : Bool) : State :=
  let p := physBank s b
  if s.svc.copies.any (fun c => c.bank == b) then s
  else match freeBanks s with
    | [] => notice (bankRec s det p true inj) Unit.err
    | q :: _ => setSvc s (fun x => { x with
        retired := (x.retired ++ [p]).eraseDups, copies := x.copies ++ [⟨b, q, det, inj⟩] })

/-- Block tables and areas: feature, first byte, length. t: registers in force. -/
def blockAreas (t : State) : List (Nat × Nat × Nat) :=
  let at4k (a : Nat) (f : Field) : Nat := fld t a f * 4096
  [(1, regionBase t 3, 0x20000)] ++
  (if histCount t = 0 then [] else [(2, at4k Reg.numHistCfg Fl.numHistCfg_BASE, 128 * histCount t)]) ++
  (if maskSlots t = 0 then [] else [(3, at4k Reg.shlMaskCfg Fl.shlMaskCfg_BASE, 512 * maskSlots t)]) ++
  (if flag t Reg.errRingCfg Fl.errRingCfg_ENABLE then [(4, at4k Reg.errRingCfg Fl.errRingCfg_BASE, 0x4000)] else []) ++
  [(5, at4k Reg.trmCostCfg Fl.trmCostCfg_BASE, 50176)] ++
  (if fld t Reg.sltRld Fl.sltRld_SIZE = 0 then []
   else [(6, at4k Reg.sltRld Fl.sltRld_BASE, at4k Reg.sltRld Fl.sltRld_SIZE)])

/-- The command whose read meets an error, and the status that it will end with. -/
structure Reader where
  vein   : Option Nat
  tenant : Option Nat
  seq    : Nat
  status : Nat
  counts : Bool          -- its errors count toward the retirement of a bank
  deriving DecidableEq, Repr

def noReader : Reader := ⟨none, none, 0, 0, true⟩

/-- A debug read never counts toward the retirement of a bank (R408). -/
def debugReader : Reader := ⟨none, none, 0, 0, false⟩

/-- The reader in an error record (R377). -/
def Reader.mark (r : Reader) (e : ErrRec) : ErrRec := { e with vein := r.vein, tenant := r.tenant, seq := r.seq }

/-- A command of a vein that reads a poisoned word. (DEDUCED, log 103) -/
def jobReader (v : Nat) (j : Job) : Reader := ⟨some v, some j.tenant, j.seq, St.micaPoison, true⟩

/-- The byte offset lies in a block table. -/
def inTable (s : State) (x : Nat) : Bool := (blockAreas s).any (fun a => a.2.1 ≤ x && x < a.2.1 + a.2.2)

/-- Location of a memory event: physical bank and line. -/
def bankLoc (s : State) (x : Nat) : Nat :=
  let (b, n) := micaPlace s x
  physBank s b + (n <<< 8)

/-- A single-bit error: corrected, counted per bank in this pass. (DEDUCED, log 92) -/
def micaCe (s : State) (x : Nat) (who : Reader) (inj : Bool) : State :=
  let s := recordErr s { who.mark (ErrRec.ofDet 0 0x01) with lkind := 3, loc := bankLoc s x, inj := inj }
  if !who.counts then s
  else
  let b := (micaPlace s x).1
  let p := physBank s b
  let n := mapGet 0 s.svc.ceCount p + 1
  let s := setSvc s (fun x => { x with ceCount := tabSet x.ceCount p n })
  if n > fld s Reg.errCtrl Fl.errCtrl_BANKLIM then retireBank s b 0x01 inj else s

/-- An uncorrectable error: FATAL in a block table, poison elsewhere. -/
def micaUe (s : State) (x : Nat) (who : Reader) (inj : Bool) : State :=
  if inTable s x then
    recordErr s { who.mark (ErrRec.ofDet 3 0x03) with status := St.fatalTable, lkind := 3, loc := bankLoc s x, inj := inj }
  else
    let s := recordErr (poisonAt s x) { who.mark { ErrRec.ofDet 1 0x02 with status := who.status } with lkind := 3, loc := bankLoc s x, inj := inj }
    if who.counts then retireBank s (micaPlace s x).1 0x02 inj else s

/-! ## Injection into reads (R389) -/

/-- Some injector is armed for a detector of Mica words. -/
def memArmed (s : State) : Bool :=
  (List.range 8).any (fun n => injArmed s n && 1 ≤ injDet s n && injDet s n ≤ 3)

/-- Bits set in a pattern. -/
def bitCount (n : Nat) : Nat := ((List.range 64).filter (bit n)).length

/-- A bank group that is fenced or being fenced, or a bank that is being retired, is no target of an injection (R390). -/
def bankHeld (s : State) (b : Nat) : Bool :=
  s.svc.homes.any (fun h => h.1 == b / 8) || s.svc.copies.any (fun c => c.bank == b || (c.det == 0 && c.bank / 8 == b / 8))

/-- A read of the word at an offset gives the injectors of its detectors an opportunity. One bit of the pattern is flipped
for MICA_CE, two for MICA_UE and TABLE_UE; a pattern of one bit flips one, one of none flips nothing (R389).
(DEDUCED, log 100) -/
def touchLine (s : State) (x : Nat) (who : Reader) : State :=
  let b := (micaPlace s x).1
  let sel : InjSel := ⟨b / 8, [b % 8], who.tenant, who.vein, some (x / 64)⟩
  [0x01, 0x02, 0x03].foldl (fun s d =>
    if (d = 0x02 && inTable s x) || (d = 0x03 && !inTable s x) then s
    else
      let hitR := flintHit s d sel (bankHeld s b)
      let s := hitR.2
      match hitR.1 with
      | none => s
      | some n =>
        let k := min (bitCount (injPattern s n)) (if d = 0x01 then 1 else 2)
        if k = 0 then s else if k = 1 then micaCe s x who true else micaUe s x who true) s

/-- The first offset of each line that a run of offsets enters. -/
def lineStarts : Option Nat → List Nat → List Nat
  | _, [] => []
  | l, a :: as => if l = some (a / 64) then lineStarts l as else a :: lineStarts (some (a / 64)) as

/-- A read of the bytes at some offsets. -/
def touchAt (s : State) (as : List Nat) (who : Reader) : State :=
  if !memArmed s then s else (lineStarts none as).foldl (fun s x => touchLine s x who) s

/-- MICA_UE events so far: a read that raises the count has met one. -/
def ueCount (s : State) : Nat := mapGet 0 s.detCount 0x02

/-- A read of n bytes from an offset. -/
def touchRange (s : State) (x n : Nat) (who : Reader) : State := touchAt s ((List.range n).map (x + ·)) who

/-- A read of stream positions p to p + n. -/
def touchStream (s : State) (i p n : Nat) (who : Reader) : State :=
  if !memArmed s then s else touchAt s ((List.range n).filterMap (fun k => posAddr s i (p + k))) who

end Sys2Proof.Machine
end

