-- ==== Sys2Proof/Machine/Checks.lean ====
section
/-! DEFINITION. What a work command names and where its bytes lie: places in its streams (R39, R62, R91, R100, R168,
R169, R178), Patch and sparse descriptors (R171 to R174, R211), and the checks of decode that need streams and
descriptors (R140, R146, R152, R173, R178, R182, R209, R222). -/

namespace Sys2Proof.Machine

/-! ## Streams a command names -/

/-- The Mica range of a stream: its halves, its landing buffer, or a RESIDENT generator's range. -/
def bufRange (d : Desc) : Int × Int :=
  if d.isResident then let (lo, hi) := d.span d.xbase; (lo, hi + 1)
  else ((d.buf : Int), (d.buf : Int) + d.halfBytes * (if d.landing then 1 else 2))

/-- The buffer lies in region r. -/
def streamInRegion (s : State) (r i : Nat) : Bool :=
  let (lo, hi) := bufRange (desc s i)
  lo ≥ 0 && inRegion s r lo.toNat (hi - lo).toNat

/-- Stream number in the tenant's range (R146). -/
def rangeBad (s : State) (v i : Nat) : Bool := !inStreamRange s (vTenant s v) i

/-- A stream that a work command names must be RUNNING or ENDED, belong to the tenant and lie in region r (R140, R152,
R222). -/
def useBad (s : State) (v : Nat) (u : Nat × Nat) : Bool :=
  rangeBad s v u.1 || !streamLive s u.1 || sTenant s u.1 != vTenant s v || !streamInRegion s u.2 u.1

def usesBad (s : State) (v : Nat) (us : List (Nat × Nat)) : Option Nat :=
  firstFail [(us.any (useBad s v), St.stateIllegal)]

/-- The privilege of the parameter group named: an entry without VALID refuses the command (R349). -/
def pgtBad (s : State) (g : Nat) : Option Nat := firstFail [(!pgtValid (pgtRaw s g), St.stateIllegal)]

def sumTo (n : Nat) (f : Nat → Nat) : Nat := ((List.range n).map f).foldl (· + ·) 0

/-! ## Places in the streams

The activation stream presents, for each pass and each sub-pass, the M rows of the pass's K positions; every N tile reads
those same bytes, whether Talus holds the rows or reads them again (R85, R169). The weight stream presents 256 stored
rows for each N tile, pass and sub-pass (R62, R91, R100, R168). (DEDUCED, log 16) -/

def TileF.aRowB (t : TileF) (p : Nat) : Nat := rowBytes t.aof.fmt t.aof.pack (t.kcount p)
def TileF.aPresent (t : TileF) : Nat := sumTo t.passes (fun p => t.subs.length * (t.m * t.aRowB p))
def TileF.aOff (t : TileF) (p sub i : Nat) : Nat :=
  sumTo p (fun q => t.subs.length * (t.m * t.aRowB q)) + sub * (t.m * t.aRowB p) + i * t.aRowB p

/-- Scale bytes of one outer index in a pass (R39). -/
def kBlocks (o : OpFmt) (kc : Nat) : Nat := if o.scale = 0 || o.sdir then 0 else cdiv kc (blockSize o.scale)

def TileF.asPresent (t : TileF) : Nat := sumTo t.passes (fun p => t.m * kBlocks t.aof (t.kcount p))
def TileF.asOff (t : TileF) (p i : Nat) : Nat :=
  sumTo p (fun q => t.m * kBlocks t.aof (t.kcount q)) + i * kBlocks t.aof (t.kcount p)
def TileF.asLen (t : TileF) : Nat :=
  if t.aof.scale = 0 then 0 else if t.aof.sdir then cdiv t.m (blockSize t.aof.scale) else t.asPresent

def TileF.wRowB (t : TileF) : Nat := rowBytes t.wof.fmt 0 t.cols
def TileF.wTileB (t : TileF) : Nat := 256 * t.wRowB
def TileF.wOff (t : TileF) (nt p sub : Nat) : Nat := ((nt * t.passes + p) * t.subs.length + sub) * t.wTileB
def TileF.wLen (t : TileF) : Nat := t.nts * t.passes * t.subs.length * t.wTileB
def TileF.wsPresent (t : TileF) : Nat := sumTo t.passes (fun p => t.cols * kBlocks t.wof (t.kcount p))
def TileF.wsOff (t : TileF) (nt p : Nat) : Nat :=
  nt * t.wsPresent + sumTo p (fun q => t.cols * kBlocks t.wof (t.kcount q))
def TileF.wsLen (t : TileF) : Nat :=
  if t.wof.scale = 0 then 0 else if t.wof.sdir then cdiv t.n (blockSize t.wof.scale) else t.nts * t.wsPresent

/-- AX64 words of an N tile's row: rows in output order, unmasked columns (R178). -/
def TileF.xOff (t : TileF) (nt i : Nat) : Nat := 8 * (sumTo nt (fun q => t.m * t.ncols q) + i * t.ncols nt)
def TileF.xLen (t : TileF) : Nat := 8 * (t.m * t.n)

/-- Bytes of an output row of an N tile (R178). -/
def TileF.oRowB (t : TileF) (nt : Nat) : Nat :=
  if t.spill then 8 * t.ncols nt else rowBytes t.oof.fmt 0 (t.ncols nt)
def TileF.oOff (t : TileF) (nt i : Nat) : Nat := sumTo nt (fun q => t.m * t.oRowB q) + i * t.oRowB nt
def TileF.oLen (t : TileF) : Nat :=
  if t.turn then t.m * t.n * (fmtBits t.oof.fmt / 8) else sumTo t.nts (fun q => t.m * t.oRowB q)

/-- Scale bytes of an N tile (R179), and of the whole output. -/
def TileF.osTile (t : TileF) (nt : Nat) : Nat :=
  if t.spill || t.oof.scale = 0 then 0
  else if t.oof.sdir then cdiv t.m (blockSize t.oof.scale) * t.ncols nt
  else t.m * cdiv (t.ncols nt) (blockSize t.oof.scale)
def TileF.osLen (t : TileF) : Nat :=
  if t.spill || t.oof.scale = 0 then 0
  else if t.turn then t.n * cdiv t.m (blockSize t.oof.scale)
  else sumTo t.nts t.osTile

/-! ## Patch descriptors (R171 to R174) -/

/-- Geometry of a Patch descriptor. -/
structure PatchD where
  t : Nat
  h : Nat
  w : Nat
  sx : Nat
  sy : Nat
  width : Nat
  height : Nat
  norm : Bool
  bases : List Nat
  lines : List Nat
  frames : List Nat
  first : Nat
  gx : Nat
  gy : Nat
  gt : Nat
  norms : List Nat      -- words W6 to W8
  rsvd : Bool
  badCode : Bool
  deriving DecidableEq, Repr

def patchSize (c : Nat) : Nat := match c with | 0 => 8 | 1 => 14 | 2 => 16 | _ => 32

def patchOf (ws : List Nat) : PatchD :=
  let g (i lo n : Nat) : Nat := bits (ws.getD i 0) lo n
  { t := 2 ^ g 4 34 2, h := patchSize (g 4 36 3), w := patchSize (g 4 39 3), sx := if g 4 32 2 = 2 then 1 else 2,
    sy := if g 4 32 2 = 0 then 2 else 1, width := g 4 0 16, height := g 4 16 16, norm := g 4 42 1 == 1,
    bases := [g 0 0 26, g 0 26 26, g 1 0 26], lines := [g 2 0 20, g 2 20 20, g 2 20 20],
    frames := [g 3 0 26, g 3 26 26, g 3 26 26], first := g 5 32 24, gx := g 5 0 12, gy := g 5 12 12, gt := g 5 24 8,
    norms := [ws.getD 6 0, ws.getD 7 0, ws.getD 8 0],
    rsvd := g 0 52 12 != 0 || g 1 26 38 != 0 || g 2 40 24 != 0 || g 3 52 12 != 0 || g 4 43 21 != 0 || g 5 56 8 != 0,
    badCode := g 4 39 3 > 3 || g 4 36 3 > 3 || g 4 34 2 = 3 || g 4 32 2 = 3 }

/-- K of a tubelet (R174). -/
def PatchD.k (d : PatchD) : Nat := d.t * (d.h * d.w + 2 * (d.h / d.sy) * (d.w / d.sx))

/-- Position k of a tubelet: plane, frame, line and sample (R172, R174). -/
def PatchD.at (d : PatchD) (i k : Nat) : Nat × Nat × Nat × Nat :=
  let n := d.first + i
  let x0 := n % max 1 d.gx * d.w
  let y0 := n / max 1 d.gx % max 1 d.gy * d.h
  let f0 := n / max 1 (d.gx * d.gy) * d.t
  let hc := d.h / d.sy
  let wc := d.w / d.sx
  let per := d.h * d.w + 2 * hc * wc
  let q := k % per
  if q < d.h * d.w then (0, f0 + k / per, y0 + q / d.w, x0 + q % d.w)
  else
    let r := q - d.h * d.w
    let pl := if r < hc * wc then 1 else 2
    let r := r % (hc * wc)
    (pl, f0 + k / per, y0 / d.sy + r / wc, x0 / d.sx + r % wc)

/-- Mica offset of the packing group of a sample (R172). -/
def PatchD.addr (d : PatchD) (o : OpFmt) (p : Nat × Nat × Nat × Nat) : Nat :=
  let g := packGrp o.fmt o.pack
  d.bases.getD p.1 0 + p.2.1 * d.frames.getD p.1 0 + p.2.2.1 * d.lines.getD p.1 0 + p.2.2.2 / g.pos.length * g.bytes

/-! ## Sparse descriptors (R211) -/

/-- One half of a sparse descriptor (R211). -/
structure SpHalf where
  store  : Nat
  ncoord : Nat
  scl    : Nat
  cval   : Nat
  clist  : Nat
  val    : Nat
  idx    : Nat
  ptr    : Nat
  crow   : List Nat
  rsvd   : Bool
  deriving DecidableEq, Repr

/-- (DEDUCED, log 17) -/
def spHalf (ws : List Nat) (b : Nat) (scaled : Bool) : SpHalf :=
  let d := ws.getD b 0
  let c := (List.range 8).map (fun i => bits (ws.getD (b + 1 + i / 4) 0) (16 * (i % 4)) 16)
  let st := bits d 0 2
  let nc := bits d 56 4
  let r := bits d 60 4 != 0 || bits d 54 2 != 0 || bits d 46 2 != 0 || bits d 38 2 != 0 || bits d 30 2 != 0 ||
    bits d 22 2 != 0 || bits d 14 2 != 0 || bits d 2 6 != 0 || st ≥ 2 ||
    (List.range 5).any (fun i => ws.getD (b + 3 + i) 0 != 0) ||
    (st = 0 && (nc != 0 || bits d 40 6 != 0 || bits d 32 6 != 0 || bits d 16 6 != 0 || bits d 8 6 != 0)) ||
    (nc = 0 && (bits d 40 6 != 0 || bits d 32 6 != 0)) || (!scaled && bits d 48 6 != 0) ||
    (List.range 8).any (fun i => decide (i ≥ nc) && c.getD i 0 != 0)
  ⟨st, nc, bits d 48 6, bits d 40 6, bits d 32 6, bits d 24 6, bits d 16 6, bits d 8 6, c.take nc, r⟩

/-! ## Checks at decode that need streams and descriptors -/

/-- Streams of a dense tile with the regions that serve them (R140). -/
def tileUses (t : TileF) : List (Nat × Nat) :=
  (if t.sparse || t.patch then [] else [(t.astr, 0)]) ++ (if t.sparse then [] else [(t.wstr, 1)]) ++
    (if !t.sparse && t.aof.scale != 0 then [(t.ascl, 3)] else []) ++
    (if !t.sparse && t.wof.scale != 0 then [(t.wscl, 3)] else []) ++
    (if t.load || t.psum then [(t.aux, 2)] else []) ++ [(t.ostr, if t.spill then 2 else 0)] ++
    (if t.spill || t.oof.scale = 0 then [] else [(t.oscl, 3)])

def spHalfUses (h : SpHalf) (region : Nat) (scaled : Bool) : List (Nat × Nat) :=
  [(h.val, region)] ++ (if scaled then [(h.scl, 3)] else []) ++
    (if h.store = 1 then [(h.ptr, 3), (h.idx, 3)] else []) ++
    (if h.ncoord = 0 then [] else [(h.clist, 3), (h.cval, region)])

/-- Output stream forms of R178; bytes is what one N tile puts into it at most. -/
def outFormBad (s : State) (i bytes : Nat) : Bool :=
  let d := desc s i
  streamLive s i && !(d.isResident || d.landing || (d.isOutbound && d.halfBytes ≥ bytes))

/-- Turned writes go to RESIDENT or landing streams in A-Mica (R182). -/
def turnFormBad (s : State) (i : Nat) : Bool :=
  let d := desc s i
  streamLive s i && !((d.isResident || d.landing) && streamInRegion s 0 i)

/-- LOAD and SPILL streams lie in X-Mica (R209). -/
def notXMica (s : State) (i : Nat) : Bool := streamLive s i && !streamInRegion s 2 i

/-- Bytes of the largest N tile of the output. -/
def TileF.oTile (t : TileF) : Nat := (List.range t.nts).foldl (fun m q => max m (t.m * t.oRowB q)) 0
def TileF.osTileMax (t : TileF) : Nat := (List.range t.nts).foldl (fun m q => max m (t.osTile q)) 0

/-- Words of a descriptor in S-Mica. -/
def descWords (s : State) (a n : Nat) : List Nat := (List.range n).map (fun i => micaNat s (a + 8 * i) 8)

def descPlaced (s : State) (v a n : Nat) : Bool := inRegion s 3 a n && inPart s (vTenant s v) 3 a n

/-- Checks of a Patch descriptor (R173). -/
def patchShapeBad (d : PatchD) (t : TileF) : Bool :=
  let g := packGrp t.aof.fmt t.aof.pack
  let line (w p : Nat) : Bool := p % g.bytes != 0 || p < cdiv w g.pos.length * g.bytes
  d.rsvd || d.badCode || d.gx * d.w > d.width || d.gy * d.h > d.height || d.first + t.m > d.gx * d.gy * d.gt ||
    line d.width (d.lines.getD 0 0) || line (cdiv d.width d.sx) (d.lines.getD 1 0) || t.k != d.k ||
    (d.norm && d.norms.any (fun w => bits w 23 8 == 0xFF || bits w 55 8 == 0xFF))

/-- Some sample of the highest tubelet lies outside the tenant's A-Mica partition (R173). -/
def patchAddrBad (s : State) (v : Nat) (d : PatchD) (t : TileF) : Bool :=
  let g := packGrp t.aof.fmt t.aof.pack
  (List.range t.k).any (fun k =>
    let a := d.addr t.aof (d.at (t.m - 1) k)
    !(inRegion s 0 a g.bytes && inPart s (vTenant s v) 0 a g.bytes))

/-- A descriptor of n bytes can be read: it lies in the tenant's partition and holds no poisoned word. -/
def descReadable (s : State) (v a n : Nat) : Bool := descPlaced s v a n && !poisoned s a n

/-- The halves of an SPTILE's descriptor. -/
def spHalves (s : State) (t : TileF) : SpHalf × SpHalf :=
  let ws := descWords s (64 * t.dsc) 16
  (spHalf ws 0 (t.aof.scale != 0), spHalf ws 8 (t.wof.scale != 0))

/-- Reserved fields of a sparse descriptor (R211). -/
def dscReserved (s : State) (v : Nat) (ws : List W64) : Bool :=
  let t := tileOf ws
  cmdOp ws == 2 && descReadable s v (64 * t.dsc) 128 && ((spHalves s t).1.rsvd || (spHalves s t).2.rsvd)

/-- Shapes and limits of a sparse or a Patch descriptor (R173, R211). -/
def dscShapeBad (s : State) (v : Nat) (ws : List W64) : Bool :=
  let t := tileOf ws
  if cmdOp ws = 2 then
    let (ha, hw) := spHalves s t
    descReadable s v (64 * t.dsc) 128 && ((ha.store = 0 && hw.store = 0) || ha.ncoord > 8 || hw.ncoord > 8)
  else
    cmdOp ws == 1 && t.patch && descReadable s v (64 * t.dsc) 72 &&
      patchShapeBad (patchOf (descWords s (64 * t.dsc) 9)) t

/-- The decode checks up to shapes and limits, in the order of R200. (DEDUCED, log 30) -/
def staticBad (s : State) (v : Nat) (ws : List W64) : Option Nat :=
  firstFail [
    (!knownOp (cmdOp ws), St.opUnknown),
    (unusedBits ws || reservedFields ws || dscReserved s v ws, St.fieldReserved),
    (fmtBad ws || sinkRefuses s ws, St.formatMismatch),
    (needsHist ws && fld s Reg.numHistCfg Fl.numHistCfg_COUNT == 0, St.stateIllegal),
    (shapeBad s ws || dscShapeBad s v ws, St.shapeIllegal)]

def patchCheck (s : State) (v : Nat) (t : TileF) : Option Nat :=
  if !t.patch then none
  else
    let a := 64 * t.dsc
    firstFail [
      (!descPlaced s v a 72, St.stateIllegal),
      (poisoned s a 72, St.micaPoison),
      (patchAddrBad s v (patchOf (descWords s a 9)) t, St.stateIllegal)]

def spCheck (s : State) (v : Nat) (t : TileF) : Option Nat :=
  if !t.sparse then none
  else
    let a := 64 * t.dsc
    firstFail [(!descPlaced s v a 128, St.stateIllegal), (poisoned s a 128, St.micaPoison)]

/-- Every stream a tile command names (R222). -/
def allUses (s : State) (t : TileF) : List (Nat × Nat) :=
  if t.sparse then
    spHalfUses (spHalves s t).1 0 (t.aof.scale != 0) ++ spHalfUses (spHalves s t).2 1 (t.wof.scale != 0) ++ tileUses t
  else tileUses t

def tileCheck (s : State) (v : Nat) (ws : List W64) : Option Nat :=
  let t := tileOf ws
  orFail (firstFail [
    (t.load && notXMica s t.aux, St.shapeIllegal),
    (t.spill && notXMica s t.ostr, St.shapeIllegal),
    (t.turn && turnFormBad s t.ostr, St.shapeIllegal),
    (outFormBad s t.ostr t.oTile, St.shapeIllegal),
    (!t.spill && t.oof.scale != 0 && outFormBad s t.oscl t.osTileMax, St.shapeIllegal)])
  (orFail (patchCheck s v t) (orFail (spCheck s v t) (orFail (usesBad s v (allUses s t))
    (orFail (firstFail [(t.psum && !inSemRange s (vTenant s v) t.psem, St.stateIllegal)])
      (if t.wgrad then pgtBad s t.pgroup else none)))))

/-! ## ELEMWISE -/

def ewUses (e : EwF) : List (Nat × Nat) :=
  [(e.src1, 0)] ++ (if (opFmtOf e.w1).scale = 0 then [] else [(e.s1scl, 3)]) ++
    (if e.two then [(e.src2, 0)] ++ (if (opFmtOf e.w2).scale = 0 then [] else [(e.s2scl, 3)]) else []) ++
    (if e.ewop = 5 then [] else [(e.dst, 0)] ++ (if (outFmtOf e.ow).scale = 0 then [] else [(e.dscl, 3)]))

/-- Any stream that can take output serves an ELEMWISE: RESIDENT, landing, or an outbound double buffer (R189). -/
def ewCheck (s : State) (v : Nat) (ws : List W64) : Option Nat :=
  let e := ewOf ws
  orFail (firstFail [
    (e.ewop != 5 && outFormBad s e.dst 0, St.shapeIllegal),
    (e.ewop != 5 && (outFmtOf e.ow).scale != 0 && outFormBad s e.dscl 0, St.shapeIllegal)])
    (usesBad s v (ewUses e))

/-- Privilege for the block-wide parts (R222, R360). -/
def partsPriv (s : State) (v parts : Nat) : Bool :=
  (bit parts 4 || bit parts 6) && !flag s (Reg.vnTenant (vTenant s v)) Fl.vnTenant_P_SVC

/-- Will decode refuse a work command, as far as its words, its descriptor and the tenant's ranges and privileges tell
before the commands ahead of it have run? (R198) (DEDUCED, log 30) -/
def scanBad (s : State) (v : Nat) (ws : List W64) : Bool :=
  let op := cmdOp ws
  let t := tileOf ws
  let us := if op = 1 || op = 2 then (allUses s t).map (·.1)
    else if op = 4 then (ewUses (ewOf ws)).map (·.1)
    else if op = 0x15 then [(gradOf ws).src]
    else if op = 3 || op = 0x18 || op = 0x19 then [cf ws 0 10 6] else []
  (staticBad s v ws).isSome || (op == 2 && (spCheck s v t).isSome) ||
    (op == 1 && (patchCheck s v t).isSome) || us.any (rangeBad s v) ||
    ((op == 1 || op == 2) && t.psum && !inSemRange s (vTenant s v) t.psem) ||
    ((op == 0x18 || op == 0x19) && partsPriv s v (cf ws 1 0 16)) ||
    (op == 0x1C && !flag s (Reg.vnTenant (vTenant s v)) Fl.vnTenant_P_CAL)

end Sys2Proof.Machine
end

