-- ==== Sys2Proof/Machine/Cost.lean ====
section
/-! DEFINITION. Tourmaline's estimates (R257 to R262), the frame budget (R253 to R256) and admission (R266 to R268). -/

namespace Sys2Proof.Machine

/-- Arrays that the claim set of a SHARE code provides (R202); a claim with no array in service counts as nominal. -/
def claimN (s : State) (share : Nat) : Nat :=
  match share with
  | 0 => 1
  | 1 => if (inService s 0 && inService s 1) || (inService s 2 && inService s 3) || (arraysIn s).isEmpty then 2 else 1
  | _ => if (arraysIn s).isEmpty then 4 else (arraysIn s).length

/-! ## Sizes of images and streams -/

def streamTotal (s : State) (i : Nat) : Nat := (desc s i).total

/-- The SCHED body in force in bytes; its 16-byte header when none is (R360). -/
def schedBytes (s : State) : Nat := 16 + 48 * fld s Reg.vnSchedVal Fl.vnSchedVal_NSCHED

/-- Body length of a state part (R360). -/
def partLen (s : State) (p : Nat) : Nat :=
  match p with
  | 0 => 128 * histCount s | 1 => 131072 | 2 => 128 | 3 => 512 * maskSlots s | 4 => 16 | 5 => schedBytes s
  | _ => 50176

/-- Length of an image of the requested parts (R359, R360). -/
def imageLen (s : State) (parts : Nat) : Nat :=
  64 + ((setBitsOf parts 7).map (fun p => 16 + partLen s p)).foldl (· + ·) 0

/-! ## Counted quantities (R260) -/

structure Qty where
  t     : Nat
  macs  : Nat
  elems : Nat
  mica  : Nat
  lnk   : Nat
  cls   : Option Nat
  srcs  : List Nat     -- streams whose activity counts (R258)
  claim : Nat
  /-- 1/64 units: the reserve for a correction pass scales time and MACs. -/
  factor : Nat
  deriving DecidableEq, Repr

def Qty.zero : Qty := ⟨0, 0, 0, 0, 0, none, [], 0, 64⟩

/-- MAC class (R259). -/
def macClass (f : Fmt) : Nat :=
  match f with
  | .c19 => 0 | .fp32 => 0 | .fp16 => 1 | .bf16 => 1 | .f8e5 => 2 | .f8e4 => 2 | .f6e3 => 3 | .f6e2 => 3 | .f4e2 => 4
  | .int8 => 5 | _ => 6

/-- Clocks that the mapped spare columns add to D and F (R96, R97): the most of any array in service, since the estimate
does not know which of them will serve. (DESIGN CHOICE, log 124) -/
def spareClk (s : State) : Nat :=
  (arraysIn s).foldl (fun m a =>
    max m (if flag s (Reg.tchSpare a) Fl.tchSpare_V66 then 2
      else if flag s (Reg.tchSpare a) Fl.tchSpare_V65 then 1 else 0)) 0

/-- Time of a chain of equal tiles from an isolated start without stalls (R97); spare: the spare-column increase of F.
(DESIGN CHOICE, log 124) -/
def chainTime (f : Fmt) (spare r tiles : Nat) : Nat :=
  let sl := rhoOf f * r
  if tiles = 0 then 0
  else (if f == .c19 then 348 else 344) + spare + (tiles - 1) * max sl (loadClk f) + sl

/-- Passes that a latched or current mask leaves to run (R130). -/
def runPasses (s : State) (t : TileF) (mask : Nat) : List Nat :=
  (List.range t.passes).filter (fun p =>
    !(t.pred && flag s Reg.shlCtrl Fl.shlCtrl_PRED_EN && bits mask (16 * p) 16 == 0xFFFF))

/-- Half bytes of an element in the staging buffer (R169). -/
def stageHalves (f : Fmt) : Nat :=
  match f with
  | .c19 => 8 | .fp32 => 8 | .fp16 => 4 | .bf16 => 4 | .f4e2 => 1 | .int4 => 1 | _ => 2

/-- Does the feeder hold the rows across N tiles? It changes traffic and timing only (R169). -/
def heldRows (t : TileF) (n : Nat) : Bool :=
  (t.shape == 4 || t.shape == 5) &&
    decide (cdiv t.m n * (cdiv t.k 16 * 16) * stageHalves t.eff ≤ 2 * 262144)

/-- Bytes of the scale blocks of one presentation of P outer indices and kc K positions. -/
def scaleBytes (o : OpFmt) (p kc : Nat) : Nat := if o.scale = 0 || o.sdir then 0 else p * cdiv kc (blockSize o.scale)

/-- Mica bytes of a tile command: streams read, each as often as it is read, and what the drains write. -/
def tileMica (s : State) (t : TileF) (n : Nat) (passes : List Nat) : Nat :=
  let sum (l : List Nat) : Nat := l.foldl (· + ·) 0
  let subs := t.subs.length
  let reads := if heldRows t n then 1 else t.nts
  let act := if t.patch then 0 else
    sum (passes.map (fun p => t.m * rowBytes t.aof.fmt t.aof.pack (t.kcount p) + scaleBytes t.aof t.m (t.kcount p)))
  let wt := sum (passes.map (fun p => 256 * rowBytes t.wof.fmt 0 t.cols + scaleBytes t.wof t.cols (t.kcount p)))
  let outer (o : OpFmt) (p : Nat) : Nat := if o.scale != 0 && o.sdir then cdiv p (blockSize o.scale) else 0
  let opn :=
    if t.sparse then
      let h (w : Nat) (o : OpFmt) (rows : Nat) : Nat :=
        let d := micaNat s (w) 64
        let st := bits d 0 2
        let use (lo : Nat) : Nat := streamTotal s (bits d lo 6)
        if st = 0 then 0 else use 8 + use 16 + use 24 + (if bits d 56 4 = 0 then 0 else use 32 + use 40) +
          scaleBytes o rows t.k
      let a0 := bits (micaNat s (64 * t.dsc) 8) 0 2
      let w0 := bits (micaNat s (64 * t.dsc + 64) 8) 0 2
      h (64 * t.dsc) t.aof t.m + h (64 * t.dsc + 64) t.wof t.n + (if a0 = 0 then act * reads else 0) + (if w0 = 0 then wt * t.nts else 0)
    else act * reads * subs + wt * t.nts * subs
  let nel := t.m * t.n
  let out := sum ((List.range t.nts).map (fun nt =>
    let c := t.ncols nt
    if t.spill then 8 * t.m * c
    else t.m * rowBytes t.oof.fmt 0 c +
      (if t.oof.scale = 0 then 0
       else if t.oof.sdir then cdiv t.m (blockSize t.oof.scale) * c else t.m * cdiv c (blockSize t.oof.scale))))
  opn + outer t.aof t.m + outer t.wof t.n + (if t.load || t.psum then 8 * nel else 0) + out

def tileQty (s : State) (t : TileF) : Qty :=
  let n := claimN s t.share
  let frozen := t.wgrad && pgtFrozen (pgtRaw s t.pgroup)
  if frozen then { Qty.zero with claim := n, cls := some (macClass t.eff), srcs := [t.astr, t.wstr] }
  else
    let ps := if t.pred then runPasses s t (maskGet s t.pslot) else List.range t.passes
    let r := cdiv t.m n
    let tiles := t.nts * ps.length * t.subs.length
    let time := chainTime t.eff (spareClk s) r tiles + (if t.sparse && t.path == 2 then 96 * t.nts + 280 else 0)
    let srcs :=
      if t.sparse then [bits (micaNat s (64 * t.dsc) 8) 24 6, bits (micaNat s (64 * t.dsc + 64) 8) 24 6]
      else if t.patch then [t.wstr] else [t.astr, t.wstr]
    { t := time, macs := t.m * t.n * (256 * ps.length) * t.subs.length, elems := 0, mica := tileMica s t n ps, lnk := 0,
      cls := some (macClass t.eff), srcs := srcs, claim := n,
      factor := if t.pred then 64 + fld s Reg.trmCtrl Fl.trmCtrl_CORR else 64 }

/-- Record bytes of an emit on the update port (R343 to R345). -/
def gradPaylen (g : GradF) (n : Nat) : Nat :=
  match (outFmtOf g.pw).fmt with
  | .fp32 => 4 * n | .bf16 => 2 * n | _ => n + cdiv n 32

def gradLink (s : State) (g : GradF) : Nat :=
  let rl := pgtRowlen (pgtRaw s g.pgroup)
  let rec128 (n : Nat) : Nat := 128 * cdiv (64 + gradPaylen g n) 128
  g.count / rl * rec128 rl + (if g.count % rl = 0 then 0 else rec128 (g.count % rl))

def cmdQty (s : State) (ws : List W64) : Qty :=
  match cmdOp ws with
  | 0x01 => tileQty s (tileOf ws)
  | 0x02 => tileQty s (tileOf ws)
  | 0x04 =>
    let e := ewOf ws
    let n := claimN s e.share
    let o := outFmtOf e.ow
    let rd1 (w : Nat) : Nat :=
      let f := opFmtOf w
      rowBytes f.fmt f.pack e.count + (if f.scale = 0 then 0 else cdiv e.count (blockSize f.scale))
    { t := cdiv e.count (64 * n) + 64, macs := 0, elems := e.count,
      mica := rd1 e.w1 + (if e.two then rd1 e.w2 else 0) +
        (if e.ewop = 5 then 0
         else rowBytes o.fmt 0 e.count + (if o.scale = 0 then 0 else cdiv e.count (blockSize o.scale))),
      lnk := 0, cls := none, srcs := if e.two then [e.src1, e.src2] else [e.src1], claim := n, factor := 64 }
  | 0x14 => { Qty.zero with t := 8 * cf ws 1 10 11, mica := 128 * cf ws 1 10 11 }
  | 0x15 =>
    let g := gradOf ws
    let n := claimN s g.share
    let f := opFmtOf g.sw
    { t := cdiv g.count (64 * n) + 64, macs := 0, elems := g.count, mica := rowBytes f.fmt f.pack g.count,
      lnk := gradLink s g, cls := none, srcs := [g.src], claim := n, factor := 64 }
  | 0x18 => { Qty.zero with t := cdiv (imageLen s (cf ws 1 0 16)) 1024 + 64, mica := 2 * imageLen s (cf ws 1 0 16) }
  | 0x19 => { Qty.zero with t := cdiv (imageLen s (cf ws 1 0 16)) 1024 + 64, mica := 2 * imageLen s (cf ws 1 0 16) }
  | 0x1C => { Qty.zero with t := cf ws 1 0 32, claim := max 1 (arraysIn s).length }
  | _ => Qty.zero

/-! ## Estimates -/

/-- The frame's operating point, and its core clock in 25 MHz units (R272). -/
def frameOpp (s : State) : Nat := fld s Reg.trmOppsel Fl.trmOppsel_FRAME
def frameF (s : State) : Nat := max 1 (fld s (Reg.trmOpp (frameOpp s)) Fl.trmOpp_FCODE)

/-- Activity of a command: the sum of its streams' bytes and their number; 0.5 without streams (R258). -/
def activity (s : State) (srcs : List Nat) : Nat × Nat :=
  if srcs.isEmpty then (128, 1)
  else (srcs.foldl (fun a i => a + fld s (Reg.trmAct (i / 8)) ⟨8 * (i % 8), 8⟩) 0, srcs.length)

/-- E of R257 in units of 1/(64 · 256 · c · 10^6 · 25 · F) nJ, and those units per nJ. -/
def energyNum (s : State) (q : Qty) (c : Cost) : Nat × Nat :=
  let (a, n) := activity s q.srcs
  let f := frameF s
  let emac := match q.cls with | some k => c.emac.getD k 0 | none => 0
  let fj := emac * q.macs * a * q.factor + (c.eel * q.elems + c.emica * q.mica + c.elink * q.lnk) * (64 * 256 * n)
  -- PSTAT · 4 mW · t / (25 MHz · F) = PSTAT · t · 4 / (25 · F) nJ
  (fj * (25 * f) + c.pstat * q.t * q.factor * 4 * (256 * n * 1000000), 64 * 256 * n * 1000000 * (25 * f))

def domainOf (s : State) (q : Qty) : Nat :=
  let (a, n) := activity s q.srcs
  48 * frameOpp s + 4 * s.trm.tband + min 3 (a / n / 64)

/-- The entry a fallback estimate uses (R262); of entries that tie the lowest one. (DESIGN CHOICE, log 147) -/
def fallbackEntry (s : State) (q : Qty) : Cost :=
  let es := ((List.range 48).map (fun i => costGet s (48 * frameOpp s + i))).filter Cost.usable
  let key (c : Cost) : Nat := match q.cls with | some k => c.emac.getD k 0 | none => (energyNum s q c).1
  match es with
  | [] => costGet s (768 + frameOpp s)
  | e :: es => es.foldl (fun b c => if key c > key b then c else b) e

structure Est where
  e     : Nat
  t     : Nat
  dom   : Nat
  fb    : Bool
  claim : Nat
  deriving DecidableEq, Repr

/-- Effective cap of the frame in 1/8 W (R253). -/
def effCap (s : State) : Nat := fld s Reg.trmCap Fl.trmCap_EFFECTIVE

/-- The energy of some quantities, from the entry of their domain or as a fallback estimate, and whether it is one
(R257, R262). -/
def energyOf (s : State) (q : Qty) : Nat × Bool :=
  let c := costGet s (domainOf s q)
  if c.usable then
    let (n, u) := energyNum s q c
    (cdiv n u, false)
  else
    let (n, u) := energyNum s q (fallbackEntry s q)
    (cdiv (5 * n) (4 * u), true)

/-- The estimate of a work command. The time of a PRED command, raised by its reserve, is rounded up for admission; its
energy takes the product as it is. (DESIGN CHOICE, log 146) -/
def estimate (s : State) (ws : List W64) : Est :=
  let q := cmdQty s ws
  let t := cdiv (q.t * q.factor) 64
  let d := domainOf s q
  if cmdOp ws = 0x1C then
    -- effective cap · LIMIT clocks: cap/8 W · t / (25 MHz · F)
    ⟨cdiv (effCap s * t * 5) (frameF s), t, d, false, q.claim⟩
  else
    let (e, fb) := energyOf s q
    ⟨e, t, d, fb, q.claim⟩

/-- The model's estimate of an array's dummy rows: their resident class at activity 0.5 (R263). Random patterns, which are
of no class, cost a free amount. (DESIGN CHOICE, log 27) -/
def dummyEnergy (s : State) (a n : Nat) : Nat × State :=
  match (arr s a).active with
  | some w => ((energyOf s { Qty.zero with macs := n * (256 * w.cols), cls := some w.cls }).1, s)
  | none => if (arr s a).random then takeFree s 32 else (0, s)

/-- Every fallback estimate is shown and marks its domain (R262). -/
def noteFallback (s : State) (e : Est) : State :=
  if e.fb then
    let s := setFlag s Reg.trmStat Fl.trmStat_FALLBACK true
    { s with trm := { s.trm with marked := insNat e.dom s.trm.marked } }
  else s

/-! ## The budget -/

/-- Core clocks of the frame's operating point from the tick clock to now. -/
def frameNow (s : State) : Nat := (tstamp s + 2 ^ 64 - s.trm.tickAt) % 2 ^ 64 * frameF s / 640

/-- The part of a command's estimate that is still to be spent (R255). -/
def remaining (j : Job) : Nat :=
  if j.done || j.estE = 0 then 0
  else if j.op = 1 || j.op = 2 then
    let n := (tileOf j.words).nts
    cdiv (j.estE * (n - min n j.ntDone)) n
  else j.estE

/-- U: what issued commands have left to spend, and the estimates of admitted commands that have not issued. -/
def usedU (s : State) : Nat :=
  ((List.range 16).map (fun v =>
    let x := vein s v
    (x.jobs.map remaining).foldl (· + ·) 0 +
      ((x.groups.filter (·.admitted)).flatMap (fun g => (g.ests.filterMap id).map (·.1))).foldl (· + ·) 0)).foldl (· + ·) 0

/-- Q = B − S − U (R255). -/
def liveQ (s : State) : Int := (s.trm.budget : Int) - s.trm.drawn - usedU s

def showQ (s : State) : State :=
  let s := setFld s Reg.trmBudget Fl.trmBudget_BUDGET s.trm.budget
  setFld s Reg.trmBudget Fl.trmBudget_REMAIN (fromSigned 32 (liveQ s))

/-- PIDLE of the reserve (R266). -/
def idleDraw (s : State) : Nat :=
  let c := costGet s (48 * frameOpp s + 4 * s.trm.tband + 2)
  if c.usable then c.pidle else (costGet s (768 + frameOpp s)).pidle

/-- PIDLE · clocks / f_core in nJ, rounded up. -/
def idleEnergy (s : State) (clocks : Nat) : Nat := cdiv (idleDraw s * clocks * 4) (25 * frameF s)

/-! ## Admission -/

/-- Words of a vein's head group, from the commands read so far. -/
def groupWords (s : State) (v : Nat) : List (List W64) :=
  let x := vein s v
  match x.groups with
  | [] => []
  | g :: _ => (x.held.take (g.size - g.issued)).map (·.words)

/-- The estimates of the commands of a vein's head group that have not issued; none: a control command, or one that
decode will refuse (R198). -/
def groupEsts (s : State) (v : Nat) : List (Option Est) :=
  (groupWords s v).map (fun ws => if isWork (cmdOp ws) && !scanBad s v ws then some (estimate s ws) else none)

/-- The estimates that count. -/
def workEsts (es : List (Option Est)) : List Est := es.filterMap id

def sumE (es : List (Option Est)) : Nat := ((workEsts es).map (·.e)).foldl (· + ·) 0
def sumT (es : List (Option Est)) : Nat := ((workEsts es).map (·.t)).foldl (· + ·) 0

/-- The vein waits in a MARK FRAME or NEXT: the next group is presented at its tick (R199). -/
def markWaits (x : VeinSt) : Bool :=
  match x.wait with
  | some (.markFrame _) => true
  | some .markNext => true
  | _ => false

/-- A vein holds a group, scanned to its end, that is not admitted (R108, R280). -/
def holdsGroup (s : State) (v : Nat) : Bool :=
  let x := vein s v
  let st := vBase s v
  match x.groups with
  | [] => false
  | g :: _ => g.closed && !g.admitted && !markWaits x && st != Vs.off && st != Vs.halting && st != Vs.halted && !x.held.isEmpty

/-- A vein with a head group that is presented and not admitted: a fenced one presents none (R206). -/
def presented (s : State) (v : Nat) : Bool := !(vein s v).fenced && holdsGroup s v

def starved (s : State) (v : Nat) : Bool :=
  let st := fld s Reg.trmCtrl Fl.trmCtrl_STARVE
  match headGroup s v with
  | some g => st != 0 && g.work && g.deferred ≥ st
  | none => false

def prio (s : State) (v : Nat) : Nat := fld s (Reg.vnTenant (vTenant s v)) Fl.vnTenant_PRIO
/-- Ticks that the group has spent deferred (R266). -/
def waitedOf (s : State) (v : Nat) : Nat := match headGroup s v with | some g => g.waited | none => 0
def sinceOf (s : State) (v : Nat) : Nat := match headGroup s v with | some g => g.since | none => 0

/-- A deferred group goes ahead of one that its tenant presents later (R11). -/
def deferredFirst (s : State) (a b : Nat) : Bool :=
  vTenant s a == vTenant s b && sinceOf s a != 0 && (sinceOf s b == 0 || sinceOf s a < sinceOf s b)

/-- Deadline with none last. -/
def deadlineKey (s : State) (v : Nat) : Nat :=
  let d := fld s (Reg.vnDeadline v) Fl.vnDeadline_CLOCKS
  if d = 0 then 2 ^ 32 else d

/-- The five criteria of R266. -/
def keyBefore (s : State) (a b : Nat) : Bool :=
  let ka := (b2n (!starved s a), 15 - prio s a, 2 ^ 32 - waitedOf s a, deadlineKey s a, a)
  let kb := (b2n (!starved s b), 15 - prio s b, 2 ^ 32 - waitedOf s b, deadlineKey s b, b)
  let lt (x y : Nat) (r : Bool) : Bool := x < y || (x == y && r)
  lt ka.1 kb.1 (lt ka.2.1 kb.2.1 (lt ka.2.2.1 kb.2.2.1 (lt ka.2.2.2.1 kb.2.2.2.1 (ka.2.2.2.2 ≤ kb.2.2.2.2))))

/-- The order of R266, with that of R11 among the groups of one tenant. -/
def admitBefore (s : State) (a b : Nat) : Bool := deferredFirst s a b || !deferredFirst s b a && keyBefore s a b

/-- The groups considered on one clock in turn: the first by R266 of those that no group of their tenant goes ahead of
(R11, R266). (DEDUCED, log 40) -/
def admitOrder (s : State) : Nat → List Nat → List Nat
  | 0, _ => []
  | k + 1, vs =>
    match vs.filter (fun v => !vs.any (fun w => deferredFirst s w v)) with
    | [] => []
    | c :: cs =>
      let v := cs.foldl (fun m w => if keyBefore s m w then m else w) c
      v :: admitOrder s k (vs.filter (· != v))

def mapHeadGroup (s : State) (v : Nat) (f : VGroup → VGroup) : State :=
  let x := vein s v
  match x.groups with
  | [] => s
  | g :: gs => setVein s v { x with groups := f g :: gs }

def setCEnd (s : State) (as : List Nat) (t : Nat) : State :=
  as.foldl (fun (s : State) a => setArr s a { arr s a with cEnd := t }) s

/-- Admit the head group of a vein into the present frame and account for it (R10, R266). -/
def admitGroup (s : State) (v : Nat) (es : List (Option Est)) (as : List Nat) (tEnd : Nat) : State :=
  let e := sumE es
  let t := vTenant s v
  let s := setCEnd s as tEnd
  let s := mapHeadGroup s v (fun g => { g with
    admitted := true, deferred := 0, waited := 0, since := 0, back := false, frame := frameNo s
    ests := es.map (fun o => o.map (fun x => (x.e, x.t))) })
  let doms := (workEsts es).foldl (fun m x => tabSet m x.dom (mapGet 0 m x.dom + x.e)) s.trm.domains
  let s := { s with trm := { s.trm with
    tenants := tabSet s.trm.tenants t (mapGet 0 s.trm.tenants t + e), nAdmitted := s.trm.nAdmitted + 1, domains := doms,
    model := s.trm.model + e } }
  showQ (refreshVein s v)

/-- What a group's consideration found. -/
inductive Verdict where
  | take (es : List (Option Est)) (arrays : List Nat) (tEnd : Nat)
  | oversize (es : List (Option Est))
  | free
  | defer
  deriving DecidableEq, Repr

/-- try_admit of R266, and the oversized group of R267 (DEDUCED, log 40). Where covered lies beyond the horizon nothing of
it is left to reserve for: h − covered counts as 0 (DESIGN CHOICE, log 158). -/
def tryAdmit (s : State) (v now : Nat) (atTick : Bool) : Verdict :=
  let es := groupEsts s v
  if (workEsts es).isEmpty then .free
  else
    let t := vTenant s v
    let e := sumE es
    let time := sumT es
    let claim := ((workEsts es).map (·.claim)).foldl max 0
    let h := s.trm.horizon
    if !isRun s || fld s Reg.errEvstat Fl.errEvstat_STATE ≥ 2 || !eligible s t || isFiller s t || s.trm.oversize || s.trm.overspent || liveQ s < 0 then .defer
    else if time > h || e > s.trm.budget then
      if atTick && s.trm.nAdmitted = 0 then .oversize es else .defer
    else if 64 * (mapGet 0 s.trm.tenants t + e) > min 64 (fld s (Reg.trmTen t) Fl.trmTen_SHARE) * s.trm.budget then .defer
    else
      let cs := (arraysIn s).map (fun a => ((arr s a).cEnd, a))
      let set := ((sortBy (fun a b => a.1 < b.1 || (a.1 == b.1 && a.2 ≤ b.2)) cs).take claim).map (·.2)
      let tEnd := (if claim > 0 then set.foldl (fun m a => max m (arr s a).cEnd) now else now) + time
      if tEnd > h then .defer
      else
        let covered := (List.range 4).foldl (fun m a => max m (arr s a).cEnd) tEnd
        let reserve := idleEnergy s (h - covered)
        if (e : Int) > liveQ s - reserve then .defer else .take es set tEnd

/-- The head group of a vein stands deferred. -/
def standsBack (s : State) (v : Nat) : Bool := match headGroup s v with | some g => presented s v && g.back | none => false

/-- While a starved group remains deferred no group of its priority or below is admitted, but for a starved one that
precedes it (R268). -/
def barred (s : State) (v : Nat) : Bool :=
  (List.range 16).any (fun w => w != v && standsBack s w && starved s w && prio s v ≤ prio s w &&
    !(starved s v && admitBefore s v w))

/-- The group at the head of a vein waits for the next tick (R11). -/
def deferHead (s : State) (v : Nat) (atTick : Bool) : State :=
  let n := if atTick && eligible s (vTenant s v) then 1 else 0
  refreshVein (mapHeadGroup s v (fun g => { g with
    deferred := g.deferred + n, waited := if atTick then g.waited + 1 else g.waited
    since := if g.since = 0 then s.trm.defers else g.since, back := true })) v

/-- A group whose estimate no frame can hold takes a frame of its own (R267). -/
def admitOversize (s : State) (v now : Nat) (es : List (Option Est)) : State :=
  let s := setFlag s Reg.trmStat Fl.trmStat_OVERSIZE true
  let s := notice s Unit.trm
  let s := admitGroup s v es (arraysIn s) (now + sumT es)
  { s with trm := { s.trm with oversize := true } }

/-- What follows from the verdict on the head group of a vein. -/
def settleHead (s : State) (v now : Nat) (atTick : Bool) : Verdict → State
  | .free => refreshVein (mapHeadGroup s v (fun g => { g with admitted := true, since := 0, back := false })) v
  | .oversize es => if barred s v then deferHead s v atTick else admitOversize s v now es
  | .take es as tEnd => if barred s v then deferHead s v atTick else admitGroup s v es as tEnd
  | .defer => deferHead s v atTick

/-- Consider one vein's head group. (DEDUCED, log 40) -/
def considerOne (now : Nat) (atTick : Bool) (s : State) (v : Nat) : State :=
  let s := (workEsts (groupEsts s v)).foldl noteFallback s
  settleHead s v now atTick (tryAdmit s v now atTick)

/-- One more moment at which groups are considered. -/
def nextConsider (s : State) : State := { s with trm := { s.trm with defers := s.trm.defers + 1 } }

/-- Consider every presented group at clock 2 of a tick, in the order of R266. -/
def considerAll (s : State) (now : Nat) : State :=
  let s := nextConsider s
  (admitOrder s 16 ((List.range 16).filter (presented s))).foldl (considerOne now true) s

/-- A group is presented: it alone is considered at once, unless the frame's token has left or it stands deferred
already (R11, R16, R266); one without work is admitted at once whatever (R198). -/
def present (s : State) (v : Nat) : State :=
  if !presented s v then refreshVein s v
  else if (workEsts (groupEsts s v)).isEmpty then
    refreshVein (mapHeadGroup s v (fun g => { g with admitted := true, work := false })) v
  else
    let s := mapHeadGroup s v (fun g => { g with work := true })
    if isFiller s (vTenant s v) then
      -- filler groups are never admitted into a frame; they are ready under R224 alone
      refreshVein (mapHeadGroup s v (fun g => { g with admitted := true, work := true })) v
    else if s.crn.token.isSome || !s.crn.opened || standsBack s v then refreshVein s v
    else considerOne (frameNow s) false (nextConsider s) v

end Sys2Proof.Machine
end

