-- ==== Sys2Proof/Machine/Veins.lean ====
section
/-! DEFINITION. Ring queues and the control of veins: fetch and sequence checks (R191 to R197), doorbells (R193), restart
of a halted vein (R204), the filler rule and bubbles (R218, R224). -/

namespace Sys2Proof.Machine

def qslots (s : State) (v : Nat) : Nat := 2 ^ fld s (Reg.vnQcfg v) Fl.vnQcfg_LOG2SZ
def qHead (s : State) (v : Nat) : Nat := fld s (Reg.vnTail v) Fl.vnTail_HEAD
def qTail (s : State) (v : Nat) : Nat := fld s (Reg.vnTail v) Fl.vnTail_TAIL
def qNext (s : State) (v : Nat) : Nat := fld s (Reg.vnSeq v) Fl.vnSeq_NEXT
def dbMode (s : State) (v : Nat) : Nat := fld s (Reg.vnQcfg v) Fl.vnQcfg_DBMODE

/-- TAIL − HEAD modulo 2^32 (R192). -/
def qFill (s : State) (v : Nat) : Nat := (qTail s v + 2 ^ 32 - qHead s v) % 2 ^ 32

/-- Byte address of a slot count (R192). -/
def slotAddr (s : State) (v x : Nat) : Nat :=
  fld s (Reg.vnQbase v) Fl.vnQbase_BASE * 64 + 32 * (x % qslots s v)

/-- What reading memory for a vein gave. -/
inductive Read where
  | words (ws : List W64)
  | fail (status : Nat)
  deriving DecidableEq, Repr

/-- A read of a queue or of a tail word in Deep space: the request, at the lowest usable port that has a free tag (R196,
R413). Without one the read fails. (DESIGN CHOICE, log 129) -/
def askQueue (s : State) (a n : Nat) : Option State :=
  match (List.range 4).find? (fun p => portUsable s p && (freeTag s p).isSome) with
  | none => none
  | some p => some (emit s (.deepRead p ((freeTag s p).getD 0) a (n - 1) false 0))

/-- Every tag of every usable port is out: a read of Deep space waits for a response (R413).
(DESIGN CHOICE, log 129) -/
def tagsOut (s : State) : Bool :=
  (List.range 4).any (portUsable s) && !(List.range 4).any (fun p => portUsable s p && (freeTag s p).isSome)

/-- Words from Mica, unless a poisoned word is met (R196). -/
def readMica (s : State) (a n : Nat) : Read :=
  if poisoned s a (8 * n) then .fail St.micaPoison
  else .words ((List.range n).map (fun i => micaWord s (a + 8 * i)))

def readDeep (deep : DeepSlot) : Read :=
  match deep with
  | .words ws => .words ws
  | _ => .fail St.endpointError

/-- The words of the command at a slot count: one slot, and the second of a two-slot command. -/
def readSlot (s : State) (v x : Nat) (deep : DeepSlot) : Read :=
  if fld s (Reg.vnQbase v) Fl.vnQbase_SPACE = 1 then
    match readMica s (slotAddr s v x) 4 with
    | .words ws =>
      if cmdOp ws = 8 then
        match readMica s (slotAddr s v (x + 1)) 4 with
        | .words w2 => .words (ws ++ w2)
        | .fail c => .fail c
      else .words ws
    | .fail c => .fail c
  else
    match readDeep deep with
    | .words ws => .words (ws.take (if cmdOp ws = 8 then 8 else 4))
    | .fail c => .fail c

/-- The groups of the first n commands that have not issued. -/
def keepGroups : Nat → List VGroup → List VGroup
  | _, [] => []
  | n, g :: gs =>
    if n ≥ g.size - g.issued then g :: keepGroups (n - (g.size - g.issued)) gs
    else if n = 0 then [] else [{ g with size := g.issued + n, ests := g.ests.take n }]

/-- Fetching ends at the command of number seq: the vein halts in command order (R204). -/
def fetchFail (s : State) (v seq status : Nat) (told : Bool := false) : State :=
  let s := if status = St.micaPoison then if told then s else
      recordErr s { ErrRec.ofDet 1 0x02 with status := status, tenant := some (vTenant s v), seq := seq,
                                             vein := some v }
    else if status = St.endpointError then
      recordErr s { ErrRec.ofDet 1 0x0D with status := status, tenant := some (vTenant s v), seq := seq,
                                             vein := some v }
    else s
  let x := vein s v
  -- the commands read so far close their group
  let s := setVein s v { x with fetchBad := some (status, seq)
                                groups := x.groups.map (fun g => { g with closed := true }) }
  let s := present s v
  if (vein s v).held.isEmpty then beginHalt s v else s

/-- A MARK that waits for time forms a group by itself (R199). -/
def isTimeMark (ws : List W64) : Bool := cmdOp ws == 0x10 && (cf ws 0 10 4 == 1 || cf ws 0 10 4 == 2)

def newGroup (ws : List W64) (mark : Bool) : VGroup :=
  { size := 1, issued := 0, closed := mark || cmdGend ws, mark := mark, work := false, admitted := false, deferred := 0,
    waited := 0, since := 0, back := false, frame := 0, late := 0, ests := [] }

/-- Add a fetched command to the vein's groups (R197, R199). -/
def addToGroups (gs : List VGroup) (ws : List W64) : List VGroup :=
  let m := isTimeMark ws
  match gs.getLast? with
  | none => [newGroup ws m]
  | some g =>
    if g.closed then gs ++ [newGroup ws m]
    else if m then gs.dropLast ++ [{ g with closed := true }, newGroup ws m]
    else gs.dropLast ++ [{ g with size := g.size + 1, closed := cmdGend ws || g.size + 1 ≥ 64 }]

/-- The vein fetches at all: it runs, and no time mark is its head. -/
def fetchLive (s : State) (v : Nat) : Bool :=
  let x := vein s v
  let st := vBase s v
  isRun s && st != Vs.off && st != Vs.halted && x.fetchBad.isNone && !x.restart && !markWaits x &&
    decide (fld s Reg.errEvstat Fl.errEvstat_STATE < 2)

/-- A command of the group that was scanned, but is not in the prefetch, is to be read again (R197). -/
def rereads (x : VeinSt) : Bool := x.fresh < min 8 x.held.length

/-- The vein may fetch the next slot: it reads its head group whole, or has room in its prefetch (R196, R197). -/
def mayFetch (s : State) (v : Nat) : Bool :=
  let x := vein s v
  fetchLive s v && !rereads x &&
    (match x.groups with
      | [] => true
      | g :: _ => !g.closed || (!g.mark && x.held.length < 8))

/-- Take a command that passed its sequence check: the first eight stay in the prefetch. (DEDUCED, log 31) -/
def takeCmd (s : State) (v : Nat) (ws : List W64) : State :=
  let slots := if cmdOp ws = 8 then 2 else 1
  let x := vein s v
  let s := setVein s v { x with held := x.held ++ [⟨qHead s v, ws⟩], groups := addToGroups x.groups ws
                                fresh := if x.fresh = x.held.length && x.fresh < 8 then x.fresh + 1 else x.fresh }
  let s := setFld s (Reg.vnTail v) Fl.vnTail_HEAD (qHead s v + slots)
  let s := setFld s (Reg.vnSeq v) Fl.vnSeq_NEXT (qNext s v + 1)
  let s := setVein s v { vein s v with emptied := dbMode s v == 1 && qFill s v == 0 }
  present s v

/-- A vein that reads its queue. -/
def queueReader (s : State) (v : Nat) : Reader := ⟨some v, some (vTenant s v), qNext s v, St.micaPoison, true⟩

/-- Read the command at a slot count: its request, or its words in Mica with their ECC events.
(DESIGN CHOICE, log 129) -/
def readCmd (s : State) (v x : Nat) (deep : DeepSlot) : State × Read × Bool :=
  let ues := ueCount s
  if fld s (Reg.vnQbase v) Fl.vnQbase_SPACE = 1 then
    let s := touchRange s (slotAddr s v x) 32 (queueReader s v)
    (s, readSlot s v x deep, ueCount s != ues)
  else match askQueue s (slotAddr s v x) 32 with
    | none => (s, .fail St.endpointError, false)
    | some s =>
      let r := readSlot s v x deep
      match r with
      | .words ws => ((if cmdOp ws = 8 then (askQueue s (slotAddr s v (x + 1)) 32).getD s else s), r, false)
      | .fail _ => (s, r, false)

/-- A command that the scan of its group read is read again into the prefetch: the vein executes what it then reads
(R195, R197). -/
def rereadOne (s : State) (v : Nat) (deep : DeepSlot) : State :=
  let x := vein s v
  match x.held[x.fresh]? with
  | none => s
  | some c =>
    match readCmd s v c.slot deep with
    | (s, .fail code, told) =>
      let x := vein s v
      -- fetching goes on at this slot
      let s := setVein s v { x with held := x.held.take x.fresh, groups := keepGroups x.fresh x.groups }
      let s := setFld s (Reg.vnTail v) Fl.vnTail_HEAD c.slot
      let s := setFld s (Reg.vnSeq v) Fl.vnSeq_NEXT (cmdSeq c.words)
      fetchFail s v (cmdSeq c.words) code told
    | (s, .words ws, _) =>
      if ws.length < 4 || (cmdOp ws = 8 && ws.length < 8) then s
      else
        let x := vein s v
        refreshVein (setVein s v { x with held := x.held.set x.fresh ⟨c.slot, ws⟩, fresh := x.fresh + 1 }) v

/-- One fetch (R192 to R197). -/
def fetchOne (s : State) (v : Nat) (deep : DeepSlot) : State :=
  let waits := fld s (Reg.vnQbase v) Fl.vnQbase_SPACE != 1 && tagsOut s
  if fetchLive s v && rereads (vein s v) then (if waits then s else rereadOne s v deep)
  else if !mayFetch s v then s
  else
    let sq := dbMode s v == 2
    if !sq && qFill s v > qslots s v then fetchFail s v (qNext s v) St.queueOverrun
    else if !sq && qFill s v = 0 || waits then s
    else
      match readCmd s v (qHead s v) deep with
      | (s, .fail c, told) => fetchFail s v (qNext s v) c told
      | (s, .words ws, _) =>
        if ws.length < 4 || (cmdOp ws = 8 && ws.length < 8) then s
        else if !sq && cmdOp ws = 8 && qFill s v < 2 then s
        else if cmdSeq ws = qNext s v then takeCmd s v ws
        else if sq && seqBefore (cmdSeq ws) (qNext s v) then s
        else fetchFail s v (qNext s v) St.seqMismatch

/-- VEIN_FETCH: a vein fetches the next slot of its ring queue. -/
def execVeinFetch (v : Fin 16) (deep : DeepSlot) (drawn : Nat) (s : State) : Host.Outcome State Fault Refusal :=
  .next (showQ (fetchOne { s with trm := { s.trm with drawn := drawn } } v deep))

/-- DOORBELL: a write of PX_VN_TAIL (R193, R204). -/
def execDoorbell (v : Fin 16) (value : W64) (s : State) : Host.Outcome State Fault Refusal :=
  .next (portAct s (Reg.vnTail v) (fun s =>
    if dbMode s v = 0 then
      let s := setFld s (Reg.vnTail v) Fl.vnTail_TAIL (bits value.toNat 0 32)
      -- the difference exceeds the queue: that is held, whatever the producer writes next
      if vBase s v != Vs.off && (vein s v).fetchBad.isNone && qFill s v > qslots s v then
        fetchFail s v (qNext s v) St.queueOverrun
      else s
    else if dbMode s v = 2 && (vein s v).restart then setVein s v { vein s v with restart := false }
    else s))

/-- The tail word of a vein in MEM mode (R193). (DEDUCED, log 31) -/
def readTail (s : State) (v : Nat) (deep : DeepSlot) : Read :=
  let a := fld s (Reg.vnTailaddr v) Fl.vnTailaddr_ADDR * 4
  if fld s (Reg.vnTailaddr v) Fl.vnTailaddr_SPACE = 1 then
    if poisoned s a 4 then .fail St.micaPoison else .words [BitVec.ofNat 64 (micaNat s a 4)]
  else readDeep deep

/-- DOORBELL_POLL: the POLL interval expires. -/
def execDoorbellPoll (v : Fin 16) (deep : DeepSlot) (s : State) : Host.Outcome State Fault Refusal :=
  let st := vBase s v
  let s :=
    if dbMode s v = 2 then fetchOne s v deep
    else if dbMode s v = 1 && isRun s && st != Vs.off && st != Vs.halted && (vein s v).fetchBad.isNone &&
        fld s Reg.errEvstat Fl.errEvstat_STATE < 2 && qFill s v = 0 then
      let a := Reg.vnTailaddr v
      let ues := ueCount s
      let mica := fld s a Fl.vnTailaddr_SPACE = 1
      let w := fld s a Fl.vnTailaddr_ADDR * 4
      if !mica && tagsOut s then s else
      match (if mica then some (touchRange s w 4 (queueReader s v)) else askQueue s w 4) with
      | none => fetchFail s v (qNext s v) St.endpointError
      | some s =>
        match readTail s v deep with
        | .fail c => fetchFail s v (qNext s v) c (mica && ueCount s != ues)
        | .words [] => s
        | .words (w :: _) =>
          let s := setFld s (Reg.vnTail v) Fl.vnTail_TAIL (bits w.toNat 0 32)
          let s := setVein s v { vein s v with emptied := false }
          if qFill s v > qslots s v then fetchFail s v (qNext s v) St.queueOverrun else s
    else s
  .next s

/-! ## Restart (R204) -/

/-- Retire every unretired command, each with its own status. -/
def retireAll (s : State) (v : Nat) : State :=
  let s := (vein s v).jobs.foldl (fun (s : State) j => retireOne s v j) s
  setVein s v { vein s v with jobs := [] }

/-- A vein leaves HALTED: EMPTY, then as fetched. -/
def leaveHalt (s : State) (v : Nat) : State := present (setVBase s v Vs.empty) v

/-- RESUME_NEXT: the halting command and those behind it retire; the vein goes on. -/
def execResumeNext (v : Fin 16) (s : State) : Host.Outcome State Fault Refusal :=
  .next (portAct s (Reg.vnCtrl v) (fun s =>
    if vState s v != Vs.halted then s
    else
      let s := retireAll s v
      leaveHalt (setVein s v { vein s v with fetchBad := none }) v))

/-- A retried command reads RESIDENT streams and landing buffers from where it began, and keeps the places of its
output; other streams it reads onward (R204). (DEDUCED, log 32) -/
def keepsPlace (s : State) (j : Job) (st : Nat) : Bool :=
  let d := desc s st
  let outs := match j.op with
    | 1 => [(tileOf j.words).ostr, (tileOf j.words).oscl]
    | 2 => [(tileOf j.words).ostr, (tileOf j.words).oscl]
    | 4 => [(ewOf j.words).dst, (ewOf j.words).dscl]
    | _ => []
  d.isResident || d.landing || (d.isOutbound && outs.contains st)

/-- RESUME_RETRY: the halting command is read again and issues afresh; commands behind it keep waiting.
(DEDUCED, log 32) -/
def retryHead (s : State) (v : Nat) (deep : DeepSlot) : State :=
  if vState s v != Vs.halted then s
  else
    let x := vein s v
    match x.jobs.find? jobHalts with
    | none => leaveHalt (setVein s v { x with fetchBad := none }) v
    | some j =>
      match readCmd s v j.slot deep with
      | (s, .fail c, told) =>
        let s := setFld s (Reg.vnStat v) Fl.vnStat_HALTSTAT c
        if told then s else recordErr s { ErrRec.ofDet 1 (if c = St.micaPoison then 0x02 else 0x0D) with
          status := c, tenant := some j.tenant, seq := j.seq, vein := some v }
      | (s, .words ws, _) =>
        let g := { newGroup ws (isTimeMark ws) with closed := true }
        let s := setVein s v { x with
          jobs := x.jobs.filter (fun k => k.seq != j.seq)
          held := ⟨j.slot, ws⟩ :: x.held
          fresh := x.fresh + 1
          groups := g :: x.groups
          retry := true
          retryAt := j.starts.filter (fun p => keepsPlace s j p.1) }
        leaveHalt s v

/-- RESUME_RETRY (R204, R400). -/
def execResumeRetry (v : Fin 16) (deep : DeepSlot) (s : State) : Host.Outcome State Fault Refusal :=
  .next (portAct s (Reg.vnCtrl v) (fun s => retryHead s v deep))

/-- RESET: held commands retire, the prefetch is discarded, NEXT and HEAD are set. -/
def resetVein (s : State) (v : Nat) : State :=
  if vState s v != Vs.halted then s
  else
    let x := vein s v
    let lastJob := x.jobs.getLast?
    let next := match lastJob with
      | some j => j.seq + 1
      | none => match x.fetchBad with | some (_, q) => q | none => qNext s v
    let head := if dbMode s v = 2 then
        (match lastJob with
          | some j => j.slot + (if cmdOp j.words = 8 then 2 else 1)
          | none => qHead s v)
      else qTail s v
    let s := retireAll s v
    let s := setVein s v { vein s v with held := [], fresh := 0, groups := [], fetchBad := none, retry := false,
                                         restart := dbMode s v == 2 }
    let s := setFld s (Reg.vnSeq v) Fl.vnSeq_NEXT next
    let s := setFld s (Reg.vnTail v) Fl.vnTail_HEAD head
    leaveHalt s v

/-- RESET (R204, R400). -/
def execReset (v : Fin 16) (s : State) : Host.Outcome State Fault Refusal :=
  .next (portAct s (Reg.vnCtrl v) (fun s => resetVein s v))

/-! ## YIELD, the filler rule, bubbles -/

/-- YIELD_EXPIRY: the yield interval ends. -/
def execYieldExpiry (v : Fin 16) (s : State) : Host.Outcome State Fault Refusal :=
  match (vein s v).wait with
  | some (.yield _) => .next (endWait s v 0)
  | _ => .next s

/-- Every vein of every eligible non-filler tenant is other than READY (R224). -/
def nonFillerBlocked (s : State) : Bool :=
  (List.range 16).all (fun v =>
    vState s v != Vs.ready || isFiller s (vTenant s v) || !eligible s (vTenant s v))

/-- May a filler command issue? (R224, R256, R269) -/
def fillerMay (s : State) (est : Nat) : Bool :=
  isRun s && (!s.trm.bubbles.isEmpty || (s.trm.blocked && nonFillerBlocked s)) && !s.trm.overspent && liveQ s ≥ 0 &&
    decide ((est : Int) ≤ liveQ s - idleEnergy s (s.trm.horizon - (List.range 4).foldl (fun m a => max m (arr s a).cEnd) (frameNow s))) &&
    decide (fld s Reg.errEvstat Fl.errEvstat_STATE < 2)

/-- Filler commands that may issue now leave WAIT (R206, R224). -/
def settleFillers (s : State) : State :=
  (List.range 16).foldl (fun (s : State) v =>
    if (vein s v).waitOn = 8 && (match headCmd s v with | some c => fillerMay s (estimate s c.words).e | none => false)
    then refreshVein (setVein s v { vein s v with waitOn := 0 }) v else s) s

/-- FILLER_UNBLOCK: the non-filler veins have been blocked for BLOCK clocks. -/
def execFillerUnblock (s : State) : Host.Outcome State Fault Refusal :=
  if nonFillerBlocked s then .next (settleFillers { s with trm := { s.trm with blocked := true } }) else .next s

/-- BUBBLE_END: the bubble window that ends first closes; end timestamps stand in serial order (R229). -/
def execBubbleEnd (s : State) : Host.Outcome State Fault Refusal :=
  match s.trm.bubbles with
  | [] => .next s
  | b :: bs =>
    let first := bs.foldl (fun m x => if serialCmp x.2 m.2 64 = 1 then x else m) b
    .next { s with trm := { s.trm with bubbles := s.trm.bubbles.erase first } }

end Sys2Proof.Machine
end

