-- ==== Sys2Proof/Machine/Issue.lean ====
section
/-! DEFINITION. Issue of a vein's head command (R200, R201): the order of checks, refusal, the waits at the head, and
the checks of streams (R140, R146, R152, R155, R222). -/

namespace Sys2Proof.Machine

/-- The vein's head command may issue as far as its state goes: its group is admitted, the vein runs, and nothing it
issued last still waits. -/
def issuable (s : State) (v : Nat) : Bool :=
  let x := vein s v
  let st := vState s v
  isRun s && x.wait.isNone && !x.held.isEmpty && x.fresh != 0 && (st == Vs.ready || (st == Vs.wait && x.waitOn != 0))

/-- The head command of a vein when an issue of opcode op meets it. A head with an opcode outside the table meets every
issue: decode refuses it. (DESIGN CHOICE, log 9; DEDUCED, log 30) -/
def headOf (s : State) (v op : Nat) : Option Cmd :=
  if issuable s v then
    match headCmd s v with
    | none => none
    | some c => if cmdOp c.words = op || !knownOp (cmdOp c.words) then some c else none
  else none

/-- The head command leaves the prefetch and becomes a command in flight. -/
def leavePrefetch (s : State) (v : Nat) (c : Cmd) : State :=
  let x := vein s v
  let filler := isFiller s (vTenant s v)
  let (est, g, groups) : Option (Nat × Nat) × Option VGroup × List VGroup := match x.groups with
    | [] => (none, none, [])
    | g :: gs =>
      let g' := { g with issued := g.issued + 1, ests := g.ests.drop 1 }
      (g.ests.headD none, some g, if g'.closed && g'.issued ≥ g'.size then gs else g' :: gs)
  let op := cmdOp c.words
  let late := match g with | some g => g.late | none => 0
  let grpWork := match g with | some g => g.work | none => false
  let overrun := late = 1 || (late = 2 && op != 1 && op != 2)
  let j0 := mkJob s v c (grpWork && !filler)
  let j := { j0 with
    frame := match g with
      | some g => if isWork op && g.work && !filler then g.frame else j0.frame
      | none => j0.frame
    estE := if filler then 0 else (est.getD (0, 0)).1
    estT := (est.getD (0, 0)).2
    conds := if overrun then [St.frameOverrun] else [] }
  let s := setVein s v { x with
    held := x.held.drop 1
    fresh := x.fresh - 1
    groups := groups
    jobs := if x.retry then j :: x.jobs else x.jobs ++ [j]
    retry := false
    retryAt := if x.retry then x.retryAt else []
    stamp := s.stamp + 1
    stepBack := false
    waitOn := 0 }
  { s with stamp := s.stamp + 1 }

/-- Filler work that issues counts by its estimate in the frame's modelled energy (R263). (DEDUCED, log 27) -/
def fillerModel (s : State) (v : Nat) (c : Cmd) : Nat :=
  if isFiller s (vTenant s v) && isWork (cmdOp c.words) then (estimate s c.words).e else 0

/-- A command issues: it preempts an automatic calibration (R264, R265). -/
def startIssue (s : State) (v : Nat) (c : Cmd) : State :=
  let m := fillerModel s v c
  let s := leavePrefetch s v c
  { s with trm := { s.trm with autocal := none, model := s.trm.model + m } }

/-- After an issue: the next group is presented, or the vein halts at a slot that failed to fetch (R204). -/
def afterIssue (s : State) (v : Nat) : State :=
  let x := vein s v
  if x.held.isEmpty && x.fetchBad.isSome then beginHalt s v else present s v

/-- A refused command ends with its status and without side effects; its vein halts (R200). With it ends the wait for a
mark of a stale gather (R352). -/
def refuse (s : State) (v : Nat) (c : Cmd) (code : Nat) : State :=
  let s := leavePrefetch s v c
  let s := if code = St.wgenStale then setVein s v { vein s v with stale := false } else s
  completeJob (addCond s v (cmdSeq c.words) code) v (cmdSeq c.words)

/-- The head command was found to wait. -/
def headWaits (s : State) (v w : Nat) : State := refreshVein (setVein s v { vein s v with waitOn := w }) v

/-- Issue the head command of a vein: checks in the order of R200, then its own effect.
(DESIGN CHOICE, log 9; DEDUCED, log 33, 104) -/
def issueWith (s : State) (v op : Nat) (chk : State → Nat → List W64 → Option Nat) (go : State → Nat → Cmd → State) :
    State :=
  match headOf s v op with
  | none => s
  | some c =>
    let filler := isFiller s (vTenant s v)
    let bad := orFail (staticBad s v c.words) (chk s v c.words)
    -- a fallback estimate of a filler command shows and marks its domain too, unless the command is refused (R262)
    let s := if filler && isWork (cmdOp c.words) && bad.isNone then noteFallback s (estimate s c.words) else s
    if filler && !fillerMay s (estimate s c.words).e then headWaits s v 8
    else
      match bad with
      | some code => refuse s v c code
      | none => go s v c

def noCheck (_ : State) (_ : Nat) (_ : List W64) : Option Nat := none

/-- A control command whose effect is over as it issues. -/
def issueNow (s : State) (v : Nat) (c : Cmd) (f : State → State) : State :=
  let s := f (startIssue s v c)
  afterIssue (completeNow s v (cmdSeq c.words)) v

/-! ## Arming (R140, R144, R147 to R155) -/

/-- Fields that the kind and settings do not use, and reserved codes (R147, R154). MC = 1 on a kind that has no multicast
side is such a field. (DESIGN CHOICE, log 128) -/
def descReserved (d : Desc) : Bool :=
  d.rsvd || (d.xstratum != 0 && !(d.kind == 3 && !d.mc)) || (d.portmask != 0 && !d.isDeep) ||
    (d.loop && !d.isResident) || (d.esz != 0 && !d.turn) || d.esz == 3 || (d.group != 0 && !d.mc) ||
    (d.sem != 0 && d.semev == 0) || (d.halfl != 0 && d.isResident) || d.semev ≥ 2 ||
    (d.mc && (d.kind == 2 || d.kind == 4))

/-- The generator's range (R148). -/
def spanBad (s : State) (t : Nat) (d : Desc) (xbase : Nat) : Bool :=
  let (lo, hi) := d.span xbase
  if d.isDeep then lo < 0 || hi ≥ 2 ^ 48
  else if d.isResident then lo < 0 || !inTenant s t lo.toNat (hi + 1 - lo).toNat
  else if d.remote then lo < 0 || hi ≥ micaSize
  else false

/-- The buffer within one region and the tenant's partition (R140). -/
def bufBad (s : State) (t : Nat) (d : Desc) : Bool :=
  !d.isResident && !inTenant s t d.buf (d.halfBytes * (if d.landing then 1 else 2))

def turnBad (d : Desc) : Bool :=
  let e := 1 <<< d.esz
  d.turn && (d.len0 != 64 * e || d.cnt1 % 64 != 0 ||
    (d.isResident && (d.xbase % 64 != 0 || d.str1 % 64 != 0 || (d.cnt2 != 1 && d.str2 % 64 != 0) ||
      (d.cnt3 != 1 && d.str3 % 64 != 0))))

/-- Shapes and limits of a descriptor. An IN_LINK stream with MC = 0 is one of them: there is no such kind
(DESIGN CHOICE, log 128). HALFL = 0 on a kind that must have it is refused with them (DESIGN CHOICE, log 153). -/
def descShapeBad (s : State) (t : Nat) (d : Desc) : Bool :=
  d.kind > 4 || (d.kind == 1 && !d.mc) || (d.isDeep && d.portmask == 0) || d.buf % 64 != 0 ||
    (!d.isResident && d.halfl == 0) || (!d.isResident && d.landing && d.total > d.halfBytes) || turnBad d ||
    spanBad s t d d.xbase || bufBad s t d

/-- May this block send to, or receive from, the group? (R155) -/
def mcRoleBad (s : State) (d : Desc) : Bool :=
  let a := Reg.stmMcast d.group
  d.mc && (if d.kind == 1 then !flag s a Fl.stmMcast_MEMBER || !flag s a Fl.stmMcast_CONSUME || flag s a Fl.stmMcast_ROOT
    else !flag s a Fl.stmMcast_ROOT)

/-- A half of an ENDED double buffer is still held (R152). -/
def halfHeld (s : State) (i : Nat) : Bool :=
  let d := desc s i
  !d.isResident && !d.landing && !(strm (release s i) i).chunks.isEmpty

def armDesc (ws : List W64) : Desc :=
  descOf (wordAt ws 1) (wordAt ws 2) (wordAt ws 3) (wordAt ws 4) (wordAt ws 5) (wordAt ws 6) (wordAt ws 7)

def armCheck (s : State) (v : Nat) (ws : List W64) : Option Nat :=
  let d := armDesc ws
  let i := cf ws 0 10 6
  let t := vTenant s v
  firstFail [
    (descReserved d, St.fieldReserved),
    (descShapeBad s t d, St.shapeIllegal),
    (rangeBad s v i, St.stateIllegal),
    (d.semev == 1 && !d.remote && !inSemRange s t d.sem, St.stateIllegal),
    (mcRoleBad s d, St.stateIllegal),
    (sState s i == Ss.running || (sState s i == Ss.ended && halfHeld s i), St.stateIllegal)]

/-- A multicast sequence that its stream leaves behind is given up: the next begins at parcel 0 of the same count. -/
def mcAbandon (s : State) (i : Nat) : State :=
  (List.range 64).foldl (fun s g =>
    if (mcg s g).stream = some i then setMcg s g { mcg s g with stream := none, parcel := 0, fill := 0, stallTicks := 0 } else s) s

/-- Load the descriptor and start the stream (R152). -/
def armStream (s : State) (i t : Nat) (ws : List W64) : State :=
  let s := (List.range 7).foldl (fun (s : State) w =>
    wr s (Reg.stmDescW0 i + 8 * w) (BitVec.ofNat 64 (wordAt ws (1 + w)))) s
  let a := Reg.stmDescW7 i
  let s := setSState s i Ss.running
  let s := setFld s a Fl.stmDescW7_TENANT t
  let s := setFld s a Fl.stmDescW7_LASTSTAT St.ok
  let s := setFlag s a Fl.stmDescW7_PENDING false
  let s := setFlag s a Fl.stmDescW7_STARVED false
  let s := setStrm (mcAbandon s i) i StreamSt.init
  let s := extend (startSeq s i 0 (desc s i).xbase) i
  if (desc s i).isDeep && (deepPorts s (desc s i)).isEmpty then haltStream s i St.endpointError else s

/-- What refuses a re-arm (R151). That a turned RESIDENT stream's base be 64-byte aligned is a rule of the arm (R144): the
new base of a re-arm is not checked for it. (DESIGN CHOICE, log 151) -/
def rearmCheck (s : State) (v i xbase : Nat) : Option Nat :=
  let d := desc s i
  let t := vTenant s v
  firstFail [
    (streamLive s i && (spanBad s t d xbase || bufBad s t d), St.shapeIllegal),
    (rangeBad s v i, St.stateIllegal),
    (!streamLive s i || sTenant s i != t || mcRoleBad s d, St.stateIllegal)]

/-- Re-arm an ENDED stream at once, or hold the re-arm of a RUNNING one (R151). -/
def rearmStream (s : State) (i xbase : Nat) (stamp : Option (Nat × Nat × Bool)) : State :=
  let a := Reg.stmDescW7 i
  let s := setFld s a Fl.stmDescW7_LASTSTAT St.ok
  let s := writeActivity s i
  let x := strm s i
  if sState s i == Ss.ended then
    let s := setStrm s i { x with stamp := stamp }
    let s := setSState s i Ss.running
    extend (startSeq s i (seqEndPos x) xbase) i
  else
    let s := setStrm s i { x with rearm := some xbase, nextStamp := stamp }
    setFlag s a Fl.stmDescW7_PENDING true


end Sys2Proof.Machine
end

