-- ==== Sys2Proof/Machine/Control.lean ====
section
/-! DEFINITION. Control commands of a vein and the small work commands that complete as they issue: NOP, STREAM_ARM,
STREAM_REARM, WLOAD, SEM_POST, SEM_WAIT, MARK, BARRIER, YIELD, SCALE_COMMIT (R151, R161, R164, R185, R207 to R219, R351
to R353), and the end of a wait by its timeout. -/

namespace Sys2Proof.Machine

/-- NOP (R207). -/
def atHeadNop (v : Fin 16) (s : State) : Host.Outcome State Fault Refusal :=
  .next (issueWith s v 0x00 noCheck (fun s v c => issueNow s v c id))

/-- STREAM_ARM (R214, R152). -/
def atHeadStreamArm (v : Fin 16) (s : State) : Host.Outcome State Fault Refusal :=
  .next (issueWith s v 0x08 armCheck (fun s v c =>
    issueNow s v c (fun s => armStream s (cf c.words 0 10 6) (vTenant s v) c.words)))

/-- The checks of STREAM_REARM on its stream (R151, R214). -/
def rearmOk (s : State) (v : Nat) (ws : List W64) : Option Nat := rearmCheck s v (cf ws 0 10 6) (cf ws 1 0 48)

/-- STREAM_REARM (R151, R214). -/
def atHeadStreamRearm (v : Fin 16) (s : State) : Host.Outcome State Fault Refusal :=
  .next (issueWith s v 0x09 rearmOk (fun s v c =>
    let i := cf c.words 0 10 6
    if rearmBusy s i then headWaits s v 5
    else issueNow s v c (fun s => rearmStream s i (cf c.words 1 0 48) none)))

/-! ## WLOAD (R212, R351 to R353) -/

/-- wload_check of R351: is the gather stale? -/
def wloadStale (e dir gen step : Nat) : Bool :=
  if dir = 0 then pgtGenv e && (serialCmp (pgtGen e) gen 16 == 2 || serialCmp (pgtGen e) gen 16 == 3)
  else !pgtGenv e || pgtGenstep e != step || serialCmp (pgtGen e) gen 16 != 0

/-- The entry with a forward generation recorded. -/
def pgtForward (e gen step : Nat) : Nat := setBits (setBits (setBits e 16 16 gen) 128 40 step) 5 1 1

/-- The entry update, status condition and registers of a WLOAD. -/
def wloadStamp (s : State) (v seq g dir gen : Nat) : State :=
  let e := pgtRaw s g
  let step := vStep s v
  if !wloadStale e dir gen step then
    if dir = 0 then pgtPut s g (pgtForward e gen step) else s
  else if pgtAccept e then
    let s := incFld s Reg.numGenStat Fl.numGenStat_ACCEPTED 1
    if dir = 0 then pgtPut s g (pgtForward e gen step)
    else pgtPut s g (setBits (setBits (setBits e 7 1 1) 112 16 gen) 192 40 step)
  else
    let s := pgtPut s g (setBits (setBits e 6 1 1) 192 40 step)
    let a := Reg.numGenLast
    let s := setFld s a Fl.numGenLast_PGROUP g
    let s := setFld s a Fl.numGenLast_GENREC (pgtGen e)
    let s := setFld s a Fl.numGenLast_GENNEW gen
    let s := setFld s a Fl.numGenLast_SEQLO seq
    let s := setFlag s Reg.numGenStat Fl.numGenStat_REPLAY true
    let s := setFld s Reg.numGenStat Fl.numGenStat_REPLAYSTEP step
    staleCond s v seq

/-- The checks of WLOAD on its stream and its parameter group (R212, R349). -/
def wloadCheck (s : State) (v : Nat) (ws : List W64) : Option Nat :=
  let i := cf ws 0 10 6
  orFail (rearmCheck s v i (cf ws 1 0 48)) (orFail (usesBad s v [(i, 1)]) (pgtBad s (cf ws 2 16 12)))

/-- WLOAD (R212): the weight stream is re-armed and stamped; the command is over when the re-arm is accepted. -/
def atHeadWload (v : Fin 16) (s : State) : Host.Outcome State Fault Refusal :=
  .next (issueWith s v 0x03 wloadCheck
    (fun s v c =>
      let ws := c.words
      let i := cf ws 0 10 6
      if rearmBusy s i then headWaits s v 5
      else
        let g := cf ws 2 16 12
        let gen := cf ws 2 0 16
        issueNow s v c (fun s =>
          let st := wloadStale (pgtRaw s g) (cf ws 0 16 1) gen (vStep s v)
          wloadStamp (rearmStream s i (cf ws 1 0 48) (some (g, gen, st))) v (cmdSeq ws) g (cf ws 0 16 1) gen)))

/-! ## Semaphores -/

/-- Every byte that earlier commands of the vein wrote is visible at its destination (R164, R154).
(DEDUCED, log 111) -/
def bytesVisible (s : State) (v : Nat) : Bool :=
  (vein s v).wrote.all (fun w =>
    let d := desc s w.1
    !d.isOutbound || sState s w.1 == Ss.halted || sState s w.1 == Ss.idle || arrived s w.1 ≥ w.2)

/-- Send a routed message, hold it, or fail (R294). (DEDUCED, log 118) -/
def routeMsg (s : State) (r : Routed) : State × Hop :=
  match nextLink s r.hdr.dst (routedVc r.kind) r.arrived with
  | .via l => (sendRouted s l r, .via l)
  | .wait => ({ s with transit := s.transit ++ [r] }, .wait)
  | .fail => (s, .fail)

/-- A post in this block names a semaphore of its tenant (R159, R215). -/
def semPostCheck (s : State) (v : Nat) (ws : List W64) : Option Nat :=
  firstFail [(!cb ws 0 18 && !inSemRange s (vTenant s v) (cf ws 0 10 8), St.stateIllegal)]

/-- SEM_POST (R215, R164). (DEDUCED, log 111) -/
def atHeadSemPost (v : Fin 16) (s : State) : Host.Outcome State Fault Refusal :=
  .next (issueWith s v 0x0C semPostCheck
    (fun s v c =>
      let ws := c.words
      if !(earlierDone s v && bytesVisible s v) then s
      else
        let k := cf ws 0 10 8
        let val := cf ws 1 16 16
        let t := vTenant s v
        let q := cmdSeq ws
        let s := setVein s v { vein s v with wrote := [] }
        if !cb ws 0 18 || cf ws 1 0 10 = stratum s then issueNow s v c (fun s => semPost s k val t (stratum s) (some v))
        else
          let s := startIssue s v c
          let (s, h) := routeMsg s ⟨1, ⟨cf ws 1 0 10, stratum s, t, k, val⟩, [], none, some (v, q), none⟩
          match h with
          | .via _ => afterIssue (completeNow s v q) v
          | .wait => afterIssue s v
          | .fail => afterIssue (completeJob (addCond s v q St.routeNone) v q) v))

/-- A wait names a semaphore of its tenant (R159, R215). -/
def semWaitCheck (s : State) (v : Nat) (ws : List W64) : Option Nat :=
  firstFail [(!inSemRange s (vTenant s v) (cf ws 0 10 8), St.stateIllegal)]

/-- SEM_WAIT (R161, R215). -/
def atHeadSemWait (v : Fin 16) (s : State) : Host.Outcome State Fault Refusal :=
  .next (issueWith s v 0x0D semWaitCheck
    (fun s v c =>
      let ws := c.words
      let k := cf ws 0 10 8
      let o := s.stamp
      let s := startIssue s v c
      let s := setVein s v { vein s v with wait := some (.sem k (cf ws 1 0 16) (cf ws 1 16 16) 0 o) }
      afterIssue (semSettle s k) v))

/-- A wait that has counted its last tick ends (R161). -/
def expireWait (s : State) (v : Nat) : State :=
  match (vein s v).wait with
  | some (.sem k _ n t _) => if n ≠ 0 ∧ t ≥ n then semSettle (endWait s v St.semTimeout) k else s
  | _ => s

/-- SEM_TIMEOUT: a wait has counted its last tick, or slipped grid point (R161). -/
def execSemTimeout (v : Fin 16) (s : State) : Host.Outcome State Fault Refusal := .next (expireWait s v)

/-! ## MARK, BARRIER, YIELD -/

/-- A frame that a MARK FRAME names has been reached; a frame without order to the present one counts as reached (R216,
R230). -/
def frameReached (s : State) (f : Nat) : Bool := serialCmp f (frameNo s) 48 != 2

/-- Core clocks as a span of the timestamp. -/
def clocksTs (s : State) (n : Nat) : Nat := n * 640 / frameF s

/-- A stale gather halts at MARK LAYER and MARK STEP (R352). -/
def markCheck (s : State) (v : Nat) (ws : List W64) : Option Nat :=
  firstFail [((vein s v).stale && (cf ws 0 10 4 == 0 || cf ws 0 10 4 == 4), St.wgenStale)]

/-- MARK (R216, R352). -/
def atHeadMark (v : Fin 16) (s : State) : Host.Outcome State Fault Refusal :=
  .next (issueWith s v 0x10 markCheck
    (fun s v c =>
      let ws := c.words
      match cf ws 0 10 4 with
      | 0 => issueNow s v c (fun s => setFld s (Reg.vnStep v) Fl.vnStep_STEP (cf ws 1 0 40))
      | 1 =>
        if frameReached s (cf ws 1 0 48) then issueNow s v c id
        else
          let s := startIssue s v c
          afterIssue (setVein s v { vein s v with wait := some (.markFrame (cf ws 1 0 48)) }) v
      | 2 =>
        let s := startIssue s v c
        afterIssue (setVein s v { vein s v with wait := some .markNext }) v
      | 3 => issueNow s v c (fun s => setFld s (Reg.vnDeadline v) Fl.vnDeadline_CLOCKS (cf ws 1 0 32))
      | 5 =>
        issueNow s v c (fun s =>
          if isFiller s (vTenant s v) then s
          else settleFillers { s with trm := { s.trm with
            bubbles := s.trm.bubbles ++ [(v, (tstamp s + clocksTs s (cf ws 1 0 32)) % 2 ^ 64)] } })
      | _ => issueNow s v c id))

/-- Pass a barrier when every vein of the mask has arrived (R217). -/
def barrierPass (s : State) (num mask : Nat) : State :=
  let here := (barrierAt s num).map (·.1)
  if (setBitsOf mask 16).all (fun v => here.contains v) then
    settleWaits ((setBitsOf mask 16).foldl (fun s v => endWait s v 0) s)
  else s

/-- The mask of a BARRIER names its own vein and veins of its tenant, and where it arrives it agrees with the masks of
those that have come; while it waits, the barrier that goes before may still pass (R217). -/
def barrierCheck (s : State) (v : Nat) (ws : List W64) : Option Nat :=
  let mask := cf ws 1 0 16
  firstFail [
    (!bit mask v || (setBitsOf mask 16).any (fun w => vTenant s w != vTenant s v), St.stateIllegal),
    (!barrierBusy s v ws && (barrierAt s (cf ws 0 10 3)).any (fun p => p.2 != mask), St.stateIllegal)]

/-- BARRIER (R217). -/
def atHeadBarrier (v : Fin 16) (s : State) : Host.Outcome State Fault Refusal :=
  .next (issueWith s v 0x11 barrierCheck
    (fun s v c =>
      let ws := c.words
      let num := cf ws 0 10 3
      let mask := cf ws 1 0 16
      if barrierBusy s v ws then headWaits s v 2
      else
        let s := startIssue s v c
        let s := setVein s v { vein s v with wait := some (.barrier num mask) }
        afterIssue (barrierPass s num mask) v))

/-- YIELD (R218). -/
def atHeadYield (v : Fin 16) (s : State) : Host.Outcome State Fault Refusal :=
  .next (issueWith s v 0x12 noCheck (fun s v c =>
    let n := cf c.words 1 0 32
    if n = 0 then issueNow s v c (fun s => setVein s v { vein s v with stepBack := true })
    else
      let s := startIssue s v c
      afterIssue (setVein s v { vein s v with wait := some (.yield n) }) v))

/-- SCALE_COMMIT (R185, R219). -/
def atHeadScaleCommit (v : Fin 16) (s : State) : Host.Outcome State Fault Refusal :=
  .next (issueWith s v 0x14 noCheck (fun s v c =>
    issueNow s v c (fun s =>
      (List.range (cf c.words 1 10 11)).foldl (fun s i => histCommit s (cf c.words 1 0 10 + i) (vStep s v)) s)))

end Sys2Proof.Machine
end

