-- ==== Sys2Proof/Machine/Rows.lean ====
section
/-! DEFINITION. The rows of a tile: where a command's operand bytes lie in its streams (R39, R62, R91, R100, R168, R169),
Patch samples (R171 to R175), compressed operands (R109 to R117, R122, R123), and the accumulator of an output element
(R63 to R81, R117 to R125, R129). -/

namespace Sys2Proof.Machine

/-! ## Reading -/

/-- Bytes of a stream and whether poison was met. -/
abbrev Got := List Byte × Bool

/-- The codes of one stored row, and whether poison was met. -/
def readCodes (s : State) (st pos : Nat) (f : Fmt) (pack n : Nat) : List Nat × Bool :=
  let (bs, bad) := readRange s st pos (rowBytes f pack n)
  (unpackRow f pack n bs, bad)

def byteAt (s : State) (st pos : Nat) : Nat := leNat (readRange s st pos 1).1

/-! ## Patch (R171 to R175) -/

/-- The layout of an effective floating format. -/
def effP (f : Fmt) : FltP := (fmtFlt f).getD pC19

/-- A sample as the array sees it (R43, R175), and whether poison was met: ordinary data of A-Mica, read at the address
of its descriptor and through no stream (R176). A normalised sample that is exactly zero is +0, whatever the sign of
SCALE. (DESIGN CHOICE, log 154) -/
def patchElem (s : State) (o : OpFmt) (d : PatchD) (i k : Nat) : Elem × Bool :=
  let p := d.at i k
  let g := packGrp o.fmt o.pack
  let a := d.addr o p
  let c := bits (micaNat s a g.bytes) (g.pos.getD (p.2.2.2 % g.pos.length) 0) g.width
  let e :=
    if d.norm then
      let w := d.norms.getD p.1 0
      let x := dyMul (dySub ⟨c, 0⟩ (valDy (fltVal pFp32 (bits w 0 32)))) (valDy (fltVal pFp32 (bits w 32 32)))
      let f := effFmt o
      elemOfEff f false (convFlt (effP f) .rne false 0 (valOfDy x)).1 0 none
    else elemOf o false c none
  (e, poisoned s a g.bytes)

/-! ## Dense operands -/

/-- The mask bits of a pass whose weight rows are skipped: those of a PRED command outside its correction pass (R130). -/
def skipBits (j : Job) (t : TileF) (corr : Bool) (p : Nat) : Nat :=
  if t.pred && !corr then bits j.mask (16 * p) 16 else 0

/-- Row i of an activation in a pass and sub-pass (lo: its lo parts), and whether poison was met. An element under an
outer scale of 0xFF is no zero code (R37). -/
def aRow (s : State) (j : Job) (t : TileF) (st scl : Nat) (p sub : Nat) (lo : Bool) (i : Nat) : List Elem × Bool :=
  let kc := t.kcount p
  if t.patch then
    let d := patchOf j.dscW
    let es := (List.range kc).map (fun k => patchElem s t.aof d i (256 * p + k))
    (es.map (·.1), es.any (·.2))
  else
    let (cs, bad) := readCodes s st (j.aPos + t.aOff p sub i) t.aof.fmt t.aof.pack kc
    let kb := kBlocks t.aof kc
    if lo then (cs.map elemLo, bad)
    else if kb = 0 then
      let es := cs.map (fun c => elemOf t.aof t.scaledInt c none)
      if t.aof.scale != 0 && byteAt s scl (j.aScl + i / blockSize t.aof.scale) = 255
      then (es.map (fun e => { e with zero := false }), bad) else (es, bad)
    else
      let (sb, bad2) := readRange s scl (j.aScl + t.asOff p i) kb
      ((cs.zip (List.range kc)).map (fun ck =>
        elemOf t.aof t.scaledInt ck.1 (some (sb.getD (ck.2 / blockSize t.aof.scale) 0).toNat)), bad || bad2)

/-- The stored codes of a weight tile, each with its K-direction scale code: kcount rows of the unmasked columns, no
entry in a row that the mask skips, and whether poison was met (R91, R101, R130). -/
def wRows (s : State) (j : Job) (t : TileF) (st scl : Nat) (skip nt p sub : Nat) :
    List (List (Nat × Option Nat)) × Bool :=
  let kc := t.kcount p
  let nc := t.ncols nt
  let kb := kBlocks t.wof kc
  let rows := (List.range kc).map (fun r =>
    if bit skip (r / 16) then ([], false)
    else
      let (cs, bad) := readCodes s st (j.bPos + t.wOff nt p sub + r * t.wRowB) t.wof.fmt 0 nc
      if kb = 0 then (cs.map (fun c => (c, none)), bad)
      else
        let (sb, bad2) := readRange s scl (j.bScl + t.wsOff nt p + r / blockSize t.wof.scale * t.cols) nc
        ((cs.zip sb).map (fun (x : Nat × Byte) => (x.1, some x.2.toNat)), bad || bad2))
  (rows.map (·.1), rows.any (·.2))

/-- A weight as the array sees it. -/
def wElem (t : TileF) (lo : Bool) (c : Nat × Option Nat) : Elem :=
  if lo then elemLo c.1 else elemOf t.wof t.scaledInt c.1 c.2

/-! ## Compressed operands (R109 to R117) -/

def spA (j : Job) (t : TileF) : SpHalf := spHalf j.dscW 0 (t.aof.scale != 0)
def spW (j : Job) (t : TileF) : SpHalf := spHalf j.dscW 8 (t.wof.scale != 0)

/-- Bytes from a position to the end of the sequence, or of the round of a LOOP stream, that it lies in: the extent of
R113. -/
def extentFrom (s : State) (st pos : Nat) : Nat :=
  match seqAt (strm s st) pos with
  | some r => if (desc s st).loop then r.len - (pos - r.start) % r.len else r.start + r.len - pos
  | none => 0

/-- The sequence that a position belongs to has begun. -/
def begun (s : State) (st pos : Nat) : Bool := extentFrom s st pos != 0

/-- Elements of a width that lie whole within the extent. -/
def extentElems (s : State) (st pos w : Nat) : Nat := extentFrom s st pos * 8 / w

/-- The code of element e of a packed value stream (R36). -/
def packedCode (s : State) (st pos : Nat) (f : Fmt) (e : Nat) : Nat :=
  let w := fmtBits f
  let b := w * e
  bits (leNat (readRange s st (pos + b / 8) (cdiv (b % 8 + w) 8)).1) (b % 8) w

def u32At (s : State) (st pos : Nat) : Nat := leNat (readRange s st pos 4).1
def u16At (s : State) (st pos : Nat) : Nat := leNat (readRange s st pos 2).1

/-- A kept entry: K position and code; a drop: its reason and row, as many as it counts. -/
structure RowEnt where
  kept  : List (Nat × Nat)
  drops : List (Nat × Nat × Nat)
  deriving DecidableEq, Repr

/-- Entries of a row from the row pointers: kept entries and drops (R113). Where two cases apply to an entry one reason
counts: 4 before 5, 5 before 0, 0 before 1. (DESIGN CHOICE, log 143) -/
def ptrRow (s : State) (h : SpHalf) (r : SpRd) (f : Fmt) (k i : Nat) : RowEnt :=
  let lo := u32At s h.ptr (r.ptr + 4 * i)
  let hi := u32At s h.ptr (r.ptr + 4 * (i + 1))
  if hi < lo then ⟨[], [(3, i, 1)]⟩
  else
    let n := min (extentElems s h.idx r.idx 16) (extentElems s h.val r.val (fmtBits f))
    let decl := h.crow.contains i
    let step (acc : RowEnt × Option Nat) (e : Nat) : RowEnt × Option Nat :=
      let (x, last) := acc
      let kk := u16At s h.idx (r.idx + 2 * e)
      let drop (c : Nat) : RowEnt × Option Nat := (⟨x.kept, x.drops ++ [(c, i, 1)]⟩, last)
      if decl then drop 5
      else if kk ≥ k then drop 0
      else match last with
        | some l => if kk ≤ l then drop 1
                    else (⟨x.kept ++ [(kk, packedCode s h.val r.val f e)], x.drops⟩, some kk)
        | none => (⟨x.kept ++ [(kk, packedCode s h.val r.val f e)], x.drops⟩, some kk)
    let e1 := min hi n
    let (x, _) := ((List.range (e1 - lo)).map (· + lo)).foldl step (⟨[], []⟩, none)
    if hi > max lo n then ⟨x.kept, x.drops ++ [(4, i, hi - max lo n)]⟩ else x

/-- A row number that no operand has: the entry's list bytes do not exist. -/
def unknownRow : Nat := 65536

/-- The coordinate list: kept entries (row, K position, code) and drops (R110, R113). Where two cases apply to an entry
one reason counts: 4 before 2, 2 before 0. The sort order is judged against the last entry that was kept.
(DESIGN CHOICE, log 143) -/
def coordList (s : State) (h : SpHalf) (r : SpRd) (f : Fmt) (rows k : Nat) :
    List (Nat × Nat × Nat) × List (Nat × Nat × Nat) :=
  if h.ncoord = 0 then ([], [])
  else
    let cnt := u32At s h.clist r.clist
    let listed := min cnt ((extentFrom s h.clist r.clist - 4) / 4)
    let cap := min (min listed (2 ^ 24)) (extentElems s h.cval r.cval (fmtBits f))
    let step (acc : (List (Nat × Nat × Nat) × List (Nat × Nat × Nat)) × Option (Nat × Nat)) (q : Nat) :
        (List (Nat × Nat × Nat) × List (Nat × Nat × Nat)) × Option (Nat × Nat) :=
      let ((ks, ds), prev) := acc
      let e := u32At s h.clist (r.clist + 4 + 4 * q)
      let row := e / 65536
      let kk := e % 65536
      let order := match prev with
        | some (pr, pk) => pr < row || (pr == row && pk < kk)
        | none => true
      if row ≥ rows || !h.crow.contains row || !order then ((ks, ds ++ [(2, row, 1)]), prev)
      else if kk ≥ k then ((ks, ds ++ [(0, row, 1)]), prev)
      else ((ks ++ [(row, kk, packedCode s h.cval r.cval f q)], ds), some (row, kk))
    let ((ks, ds), _) := (List.range cap).foldl step (([], []), none)
    -- an entry past the cap has a row where its list bytes exist; where they do not, its row is not known
    let late := (List.range (listed - cap)).map (fun q =>
      (4, u32At s h.clist (r.clist + 4 + 4 * (cap + q)) / 65536, 1))
    (ks, ds ++ late ++ (if cnt > listed then [(4, unknownRow, cnt - listed)] else []))

/-- Kept entries of row i: from the coordinate list for a declared row (R110). -/
def compRow (s : State) (h : SpHalf) (r : SpRd) (f : Fmt) (rows k i : Nat) : List (Nat × Nat) :=
  if h.crow.contains i then ((coordList s h r f rows k).1.filter (fun x => x.1 == i)).map (·.2)
  else (ptrRow s h r f k i).kept

/-- Every drop of a compressed operand (R113, R114). -/
def compDrops (s : State) (h : SpHalf) (r : SpRd) (f : Fmt) (rows k : Nat) : List (Nat × Nat × Nat) :=
  if h.store = 0 then []
  else (List.range rows).flatMap (fun i => (ptrRow s h r f k i).drops) ++ (coordList s h r f rows k).2

/-- The K-direction scale code of position k of row i of a compressed operand (R109). -/
def compScale (s : State) (h : SpHalf) (r : SpRd) (o : OpFmt) (k i kk : Nat) : Option Nat :=
  if o.scale = 0 || o.sdir then none
  else some (byteAt s h.scl (r.scl + i * cdiv k (blockSize o.scale) + kk / blockSize o.scale))

/-- The elements of activation row i with their K positions (R115): of a dense operand, every position below K. -/
def spRowA (s : State) (j : Job) (t : TileF) (i : Nat) : List (Nat × Elem) :=
  let h := spA j t
  if h.store = 0 then
    (List.range t.passes).flatMap (fun p =>
      ((aRow s j t h.val h.scl p 0 false i).1.zip (List.range (t.kcount p))).map (fun e => (256 * p + e.2, e.1)))
  else (compRow s h j.spA t.aof.fmt t.m t.k i).map (fun e =>
    (e.1, elemOf t.aof t.scaledInt e.2 (compScale s h j.spA t.aof t.k i e.1)))

/-- The elements of weight channel c of an N tile. -/
def spColW (s : State) (j : Job) (t : TileF) (nt c : Nat) : List (Nat × Elem) :=
  let h := spW j t
  if h.store = 0 then
    (List.range t.passes).flatMap (fun p =>
      ((wRows s j t h.val h.scl 0 nt p 0).1.zip (List.range (t.kcount p))).map (fun e =>
        (256 * p + e.2, match e.1[c]? with | some x => wElem t false x | none => elemZero)))
  else
    let ch := nt * t.cols + c
    (compRow s h j.spW t.wof.fmt t.n t.k ch).map (fun e =>
      (e.1, elemOf t.wof t.scaledInt e.2 (compScale s h j.spW t.wof t.k ch e.1)))

/-- Dense expansion of an activation row (R122): absent positions are elements of code +0. -/
def expandRow (o : OpFmt) (mx : Bool) (es : List (Nat × Elem)) (ks : Nat → Option Nat) (p kc : Nat) : List Elem :=
  (List.range kc).map (fun r =>
    match es.find? (fun e => e.1 == 256 * p + r) with
    | some e => e.2
    | none => elemOf o mx 0 (ks (256 * p + r)))

/-- Dense expansion of the weights of a pass (R122). -/
def expandCols (s : State) (j : Job) (t : TileF) (nt p : Nat) : List (List (Nat × Option Nat)) :=
  let h := spW j t
  let cols := (List.range (t.ncols nt)).map (fun c =>
    let ch := nt * t.cols + c
    (ch, compRow s h j.spW t.wof.fmt t.n t.k ch))
  (List.range (t.kcount p)).map (fun r => cols.map (fun c =>
    (match c.2.find? (fun e => e.1 == 256 * p + r) with | some e => e.2 | none => 0,
     compScale s h j.spW t.wof t.k c.1 (256 * p + r))))

/-- Activation row i of a pass and sub-pass as an array takes it. -/
def actRow (s : State) (j : Job) (t : TileF) (p sub i : Nat) : List Elem × Bool :=
  if !t.sparse then aRow s j t t.astr t.ascl p sub (t.subs.getD sub (false, false)).1 i
  else
    let h := spA j t
    if h.store = 0 then aRow s j t h.val h.scl p 0 false i
    else (expandRow t.aof t.scaledInt (spRowA s j t i) (compScale s h j.spA t.aof t.k i) p (t.kcount p), false)

/-- The weight tile of a pass and sub-pass as it is loaded. -/
def weightTile (s : State) (j : Job) (t : TileF) (corr : Bool) (nt p sub : Nat) :
    List (List (Nat × Option Nat)) × Bool :=
  if !t.sparse then wRows s j t t.wstr t.wscl (skipBits j t corr p) nt p sub
  else
    let h := spW j t
    if h.store = 0 then wRows s j t h.val h.scl 0 nt p 0 else (expandCols s j t nt p, false)

/-! ## Which array takes a row (R95, R132) -/

/-- The array that takes row i (R95): rows of a normal tile, or the k-th void row of the correction pass (R132). -/
def shareArray (as : List Nat) (total k : Nat) : Nat := as.getD (k / cdiv total (max 1 as.length)) 0

/-- Rows an N tile computes in the present pass of the command. -/
def ntRows (j : Job) (t : TileF) (nt : Nat) (corr : Bool) : List Nat :=
  if corr then (j.voids.filter (fun x => x.1 == nt)).map (·.2) else List.range t.m

/-- The array that computes a row (R95, R132). -/
def rowArray (j : Job) (t : TileF) (nt : Nat) (corr : Bool) (i : Nat) : Nat :=
  if corr then
    let rs := ntRows j t nt true
    shareArray j.arrays rs.length (rs.idxOf i)
  else shareArray j.arrays t.m i

/-! ## Groups and accumulators -/

/-- Groups of 16 (R62, R117). -/
def groups16 {α : Type} : Nat → List α → List (List α)
  | 0, _ => []
  | _, [] => []
  | n + 1, l => l.take 16 :: groups16 n (l.drop 16)

def grp {α : Type} (l : List α) : List (List α) := groups16 l.length l

/-- A group whose activations are all zero codes is outside the arithmetic of a PRED command (R129). -/
def predGroup (pred : Bool) (g : List Term) : List Term :=
  if pred && g.all (fun x => x.1.zero) then [] else g

/-- A pass or sub-pass of one element onto its accumulator. -/
def addPass (t : TileF) (lo : Bool) (a : AccSt) (ts : List Term) : AccSt :=
  let gs := (grp ts).map (predGroup t.pred)
  if lo then accPass a (gs.map loTerms)
  else if t.isInt && !t.scaledInt then accPassInt a gs
  else accPass a gs

/-- The accumulator of a later segment joins its element's; a NaN in it is one of origin input (R75, R124). -/
def accMerge (a b : AccSt) : AccSt := accAddWord { a with flags := a.flags ||| b.flags } (accWord b)

/-- The AX64 word of stream AUX for element (i, c) of an N tile. -/
def auxWord (s : State) (j : Job) (t : TileF) (nt i c : Nat) : Nat :=
  leNat (readRange s t.aux (j.xPos + t.xOff nt i + 8 * c) 8).1

/-- The passes that run: in the normal pass of a PRED command those that are not wholly masked (R130). -/
def livePasses (j : Job) (t : TileF) (corr : Bool) : List Nat :=
  (List.range t.passes).filter (fun p => skipBits j t corr p != 0xFFFF)

/-- The tiles of an N tile in order: pass and sub-pass. -/
def tileSteps (j : Job) (t : TileF) (corr : Bool) : List (Nat × Nat) :=
  (livePasses j t corr).flatMap (fun p => (List.range t.subs.length).map (fun x => (p, x)))

/-- What a row's operands gave: one accumulator per unmasked column, and whether poison was met. -/
structure RowAcc where
  accs   : List AccSt
  poison : Bool
  deriving DecidableEq, Repr

/-- A word of the filler spill area of an array (R225): row i of an N tile, column c. -/
def spillAddr (s : State) (t : TileF) (as : List Nat) (nt i c : Nat) : Nat :=
  let per := cdiv t.m (max 1 as.length)
  fld s Reg.vnFiller Fl.vnFiller_SPILL * 4096 + 0x100000 * as.getD (i / per) 0 + 8 * (i % per * t.ncols nt + c)

/-- The starting content of a row's accumulators: −0, the LOAD content or the filler spill (R70, R209, R371). -/
def startAccs (s : State) (j : Job) (t : TileF) (x : NtSt) (i : Nat) : List AccSt :=
  (List.range (t.ncols x.nt)).map (fun c => match x.spill with
    | some (as, _, _) => accStart (micaNat s (spillAddr s t as x.nt i c) 8)
    | none => if t.load then accStart (auxWord s j t x.nt i c) else accClear)

/-- A tile adds to the accumulators of a row: the terms of one pass and sub-pass, column by column. -/
def addTile (t : TileF) (sub : Nat) (accs : List AccSt) (a : List Elem) (w : List (List (Nat × Option Nat))) :
    List AccSt :=
  let (loA, loW) := t.subs.getD sub (false, false)
  (accs.zip (List.range accs.length)).map (fun ac =>
    addPass t (loA || loW) ac.1 (a.zip (w.map (fun r => match r[ac.2]? with
      | some x => wElem t loW x
      | none => elemZero))))

/-- The split-K partial sums of a row join its accumulators (R71). -/
def addAux (s : State) (j : Job) (t : TileF) (nt i : Nat) (accs : List AccSt) : List AccSt :=
  (accs.zip (List.range accs.length)).map (fun ac => accAddWord ac.1 (auxWord s j t nt i ac.2))

/-- Was a place reached before another? -/
def placeBefore (a b : Nat × Nat) : Bool := a.1 < b.1 || (a.1 == b.1 && a.2 < b.2)

/-- Row i of an N tile of dense tiles, from its starting content over every pass and sub-pass, with its bytes read from
Mica: what a step of the ladder computes (R62 to R81, R101, R129, R371). -/
def denseRow (s : State) (j : Job) (t : TileF) (x : NtSt) (i : Nat) : RowAcc :=
  let steps := tileSteps j t x.corr
  let at_ := match x.spill with | some (_, p, b) => (p, b) | none => (0, 0)
  let late (st : Nat × Nat) : Bool := t.psum && st.1 > t.psumat
  let summed := (steps.filter (fun st => placeBefore st at_)).any late
  let (r, summed) := (steps.filter (fun st => !placeBefore st at_)).foldl (fun (acc : RowAcc × Bool) st =>
    let (r, summed) := acc
    let add := late st && !summed
    let r := if add then ⟨addAux s j t x.nt i r.accs, r.poison⟩ else r
    let (a, badA) := actRow s j t st.1 st.2 i
    let (w, badW) := weightTile s j t x.corr x.nt st.1 st.2
    (⟨addTile t st.2 r.accs a w, r.poison || badA || badW⟩, summed || add))
    (⟨startAccs s j t x i, (t.load || t.psum) && (readRange s t.aux (j.xPos + t.xOff x.nt i) (8 * t.ncols x.nt)).2⟩, summed)
  if t.psum && !summed then ⟨addAux s j t x.nt i r.accs, r.poison⟩ else r

/-- split_row of R123: chunk ranges of a row from its counts per chunk. -/
def splitRow (cnt : List Nat) (lim : Nat) : List (Nat × Nat) :=
  let n := cnt.length
  let (segs, first, _) := (cnt.zip (List.range n)).foldl (fun (a : List (Nat × Nat) × Nat × Nat) x =>
    let (segs, first, acc) := a
    if acc + x.1 > lim && x.2 > first then (segs ++ [(first, x.2 - 1)], x.2, x.1)
    else (segs, first, acc + x.1)) ([], 0, 0)
  segs ++ [(first, n - 1)]

/-- Kept entries per chunk. -/
def chunkCounts {α : Type} (passes : Nat) (es : List (Nat × α)) : List Nat :=
  (List.range passes).map (fun c => (es.filter (fun e => e.1 / 256 == c)).length)

def splitLim (s : State) : Nat := max 256 (fld s Reg.shlCtrl Fl.shlCtrl_SPLIT)

/-- The segments of activation row i: one unless the row is hot (R123). A row that is stored dense counts each of its
positions below K as an entry. (DESIGN CHOICE, log 144) -/
def rowSegs (s : State) (t : TileF) (es : List (Nat × Elem)) : List (Nat × Nat) :=
  if es.length ≤ splitLim s then [(0, t.passes - 1)] else splitRow (chunkCounts t.passes es) (splitLim s)

/-- Matched pairs of a chunk in ascending order (R116). -/
def chunkPairs (a w : List (Nat × Elem)) (c : Nat) : List Term :=
  (a.filter (fun e => e.1 / 256 == c)).filterMap (fun e =>
    (w.find? (fun f => f.1 == e.1)).map (fun f => (e.2, f.2)))

/-- A segment onto an accumulator, chunk by chunk (R117). -/
def segAcc (t : TileF) (a w : List (Nat × Elem)) (acc : AccSt) (seg : Nat × Nat) : AccSt :=
  ((List.range (seg.2 + 1 - seg.1)).map (· + seg.1)).foldl (fun acc c => addPass t false acc (chunkPairs a w c)) acc

/-- Row i of a sparse tile in lane mode (R117 to R125). -/
def laneRow (s : State) (j : Job) (t : TileF) (x : NtSt) (i : Nat) : RowAcc :=
  let a := spRowA s j t i
  let accs := ((startAccs s j t x i).zip (List.range (t.ncols x.nt))).map (fun ac =>
    let w := spColW s j t x.nt ac.2
    match rowSegs s t a with
    | [] => ac.1
    | g :: gs => gs.foldl (fun acc g => accMerge acc (segAcc t a w accClear g)) (segAcc t a w ac.1 g))
  ⟨accs, t.load && (readRange s t.aux (j.xPos + t.xOff x.nt i) (8 * t.ncols x.nt)).2⟩

/-- Row i of an N tile, computed anew from Mica. (DESIGN CHOICE, log 19) -/
def tileRow (s : State) (j : Job) (t : TileF) (x : NtSt) (i : Nat) : RowAcc :=
  if x.sparse then laneRow s j t x i else denseRow s j t x i

/-- The accumulators that the drains hold of a row of an N tile. -/
def heldAccs (j : Job) (nt i : Nat) : List AccSt :=
  match j.nts.findSome? (fun x => if x.nt == nt && x.checked.contains i then x.accs.find? (fun a => a.1 == i) else none) with
  | some a => a.2
  | none => []

/-- Outer scale codes of row i and column c of an N tile (R39, R73). -/
def outerCodes (s : State) (j : Job) (t : TileF) (nt i c : Nat) : Option Nat × Option Nat :=
  let (sa, pa) := if t.sparse then ((spA j t).scl, if (spA j t).store = 0 then j.aScl else j.spA.scl)
    else (t.ascl, j.aScl)
  let (sw, pw) := if t.sparse then ((spW j t).scl, if (spW j t).store = 0 then j.bScl else j.spW.scl)
    else (t.wscl, j.bScl)
  (if t.aof.scale != 0 && t.aof.sdir then some (byteAt s sa (pa + i / blockSize t.aof.scale)) else none,
   if t.wof.scale != 0 && t.wof.sdir then
     some (byteAt s sw (pw + (nt * t.cols + c) / blockSize t.wof.scale)) else none)

/-- An element under an outer scale of 0xFF is NaN of origin input, whatever its terms are (R73, R75). -/
def markOuter (s : State) (j : Job) (t : TileF) (nt i : Nat) (accs : List AccSt) : List AccSt :=
  (accs.zip (List.range accs.length)).map (fun ac =>
    let (sa, sw) := outerCodes s j t nt i ac.2
    if sa = some 255 || sw = some 255 then { ac.1 with nanIn := true } else ac.1)

/-! ## Prediction (R128 to R132) -/

/-- Does activation row i hold a non-zero element in a group whose weight rows the mask skipped? (R131) -/
def rowVoid (s : State) (j : Job) (t : TileF) (i : Nat) : Bool :=
  t.pred && (List.range t.passes).any (fun p =>
    let m := skipBits j t false p
    m != 0 && ((aRow s j t t.astr t.ascl p 0 false i).1.zip (List.range 256)).any (fun e =>
      bit m (e.2 / 16) && !e.1.zero))

/-- The void rows of a command, ascending. (DEDUCED, log 120) -/
def voidRows (s : State) (j : Job) (t : TileF) : List Nat := (List.range t.m).filter (rowVoid s j t)

end Sys2Proof.Machine
end

