-- ==== Sys2Proof/Machine/Check.lean ====
section
/-! DEFINITION. Touchstone's checks of a tile (R364 to R369): the weight and activation checks, the row and column check
values, their magnitude bound, and the comparators. A fault of the physics is an error in one of these sums. -/

namespace Sys2Proof.Machine

/-- The weight check W of each stored row of a tile: the sum over the unmasked columns (R364). Column 64 holds it. -/
def weightSums (t : TileF) (lo : Bool) (rows : List (List (Nat × Option Nat))) : List Chk :=
  rows.map (fun r => chkOf (finSum (r.map (fun c => (wElem t lo c).val))))

/-- Operands of one row in one pass and sub-pass, or in one chunk of a lane-mode tile: K positions with their elements,
of the row and of every unmasked column, and the weight checks that column 64 holds. -/
structure PassOps where
  a    : List (Nat × Elem)
  cols : List (List (Nat × Elem))
  sums : List (Nat × Chk)
  deriving DecidableEq, Repr

/-- Operands of a row and the weight registers that it met. -/
def tileOps (t : TileF) (nt p sub : Nat) (es : List Elem) (ws : List (List (Nat × Option Nat))) (sums : List Chk) : PassOps :=
  let lo := (t.subs.getD sub (false, false)).2
  let ks := List.range (t.kcount p)
  ⟨ks.zip es, (List.range (t.ncols nt)).map (fun c => (ks.zip ws).filterMap (fun w =>
    (w.2[c]?).map (fun e => (w.1, wElem t lo e)))), ks.zip sums⟩

/-- What the checks of a row work on in a pass: for a tile that went through the arrays the elements that its feeder gave
and the weight registers of the row's array (R90, R364); for a step of the ladder the bytes read again from Mica (R371);
in lane mode the kept entries (R368). -/
def passOps (s : State) (j : Job) (t : TileF) (x : NtSt) (row p sub : Nat) : PassOps :=
  if x.sparse then
    let chunk (l : List (Nat × Elem)) : List (Nat × Elem) := l.filter (fun e => e.1 / 256 == p)
    let cols := (List.range (t.ncols x.nt)).map (fun c => chunk (spColW s j t x.nt c))
    let a := chunk (spRowA s j t row)
    ⟨a, cols, a.map (fun e => (e.1, chkOf (finSum (cols.filterMap (fun c =>
      (c.find? (fun f => f.1 == e.1)).map (fun f => f.2.val))))))⟩
  else match x.tiles.find? (fun r => r.pass == p && r.sub == sub) with
    | some r =>
      let w := (r.regs.find? (fun g => g.1 == rowArray j t x.nt x.corr row)).map (·.2)
      tileOps t x.nt p sub (mapGet [] r.acts row) ((w.map (·.rows)).getD []) ((w.map (·.sums)).getD [])
    | none =>
      let ws := (weightTile s j t x.corr x.nt p sub).1
      tileOps t x.nt p sub (actRow s j t p sub row).1 ws (weightSums t (t.subs.getD sub (false, false)).2 ws)

/-- The terms of a row and a column where both have an element, in groups, as the arithmetic takes them (R62, R116,
R129). -/
def pairGroups (t : TileF) (sub : Nat) (a w : List (Nat × Elem)) : List (List Term) :=
  let ts := a.filterMap (fun e => (w.find? (fun f => f.1 == e.1)).map (fun f => (e.2, f.2)))
  let (loA, loW) := t.subs.getD sub (false, false)
  let gs := (grp ts).map (predGroup t.pred)
  if loA || loW then gs.map loTerms else gs

/-- An integer tile without K-direction scales, whose check values are exact (R364). -/
def TileF.exact (t : TileF) : Bool := t.isInt && !t.scaledInt

/-- The CX value that leaves a column (R69, R78). -/
def cxValue (t : TileF) (gs : List (List Term)) : Dy :=
  if t.exact then passInt gs else match passCx gs with | none => dyZero | some c => cxDy c

/-- A check value: sums of check carriers times operand elements (R365). -/
def chkValue (t : TileF) (gs : List (List Term)) : Dy := if t.exact then passInt gs else chkSum gs

def sumDy (ds : List Dy) : Dy := ds.foldl dyAdd dyZero

/-- The errors that stand in some column. -/
def errSum (es : List SumErr) (p : Nat → Bool) : Dy := sumDy ((es.filter (fun e => p e.col)).map (fun e => ⟨e.m, e.e⟩))

/-- The row check value T: the row's elements times the weight checks that column 64 holds (R365). -/
def rowCheckValue (t : TileF) (sub : Nat) (o : PassOps) : Dy :=
  chkValue t (pairGroups t sub o.a (o.sums.map (fun w => (w.1, w.2.elem))))

/-- The column check value U of a column: the activation checks of the array's rows times its weights (R365). -/
def colCheckValue (t : TileF) (sub : Nat) (os : List PassOps) (w : List (Nat × Elem)) : Dy :=
  let a (k : Nat) : Chk := chkOf (finSum (os.filterMap (fun o => (o.a.find? (fun f => f.1 == k)).map (fun f => f.2.val))))
  chkValue t (pairGroups t sub (w.map (fun e => (e.1, (a e.1).elem))) w)

/-- Columns of a row whose outcome is finite (R75, R366). -/
def finCols (accs : List AccSt) : List Bool := accs.map (fun a => match (accVal a).1 with | .fin _ _ _ => true | _ => false)

def tauExp (s : State) : Nat := fld s Reg.tchCtrl Fl.tchCtrl_TAUEXP

/-- Does the row check of a row fail in a pass? Without an error in a sum none does (R366). -/
def rowMismatch (s : State) (j : Job) (t : TileF) (x : NtSt) (accs : List AccSt) (e : RowErr) : Bool :=
  if e.cxs.isEmpty && e.check.isEmpty then false
  else
    let o := passOps s j t x e.row e.pass e.sub
    let gs := o.cols.map (pairGroups t e.sub o.a)
    let fin := finCols accs
    let r := dyAdd (sumDy ((gs.zip fin).filterMap (fun g => if g.2 then some (cxValue t g.1) else none)))
      (errSum e.cxs (fun c => fin.getD c false))
    let v := dyAdd (rowCheckValue t e.sub o) (errSum e.check (fun _ => true))
    !chkPass t.exact (tauExp s) r v (sumDy (gs.map chkBound))

/-- Logical columns whose column checks fail on an array in a pass and sub-pass. rows: the array's rows of the tile, each
with its accumulators; es: the errors in their CX values and in the column check values (R366). -/
def colMismatches (s : State) (j : Job) (t : TileF) (x : NtSt) (rows : List (Nat × List AccSt)) (p sub : Nat)
    (es : List RowErr) : List Nat :=
  let errs := es.flatMap (fun e => (e.cxs.map (fun c => (e.row, c))))
  let tally := es.flatMap (·.tally)
  if errs.isEmpty && tally.isEmpty then []
  else
    let os := rows.map (fun r => (r.1, passOps s j t x r.1 p sub, finCols r.2))
    ((errs.map (·.2) ++ tally).map (·.col)).eraseDups.filter (fun c =>
      let gs := os.map (fun o => pairGroups t sub o.2.1.a (o.2.1.cols.getD c []))
      let fin (i : Nat) : Bool := os.any (fun o => o.1 == i && o.2.2.getD c false)
      let sum := dyAdd (sumDy ((gs.zip os).filterMap (fun g => if g.2.2.2.getD c false then some (cxValue t g.1) else none)))
        (errSum ((errs.filter (fun e => fin e.1)).map (·.2)) (· == c))
      let u := dyAdd (colCheckValue t sub (os.map (·.2.1)) ((os.map (fun o => o.2.1.cols.getD c [])).headD []))
        (errSum tally (· == c))
      !chkPass t.exact (tauExp s) sum u (sumDy (gs.map chkBound)))

/-- Physical columns of logical ones (R369). -/
def physOf (cols : List Nat) : List Nat := (cols.map (· % 64)).eraseDups

/-- An error that no check finds stays in the sums. -/
def errAccs (accs : List AccSt) (es : List SumErr) : List AccSt :=
  (accs.zip (List.range accs.length)).map (fun ac => (es.filter (fun e => e.col == ac.2)).foldl
    (fun a e => accAddDy a ⟨e.m, e.e⟩ false false) ac.1)

end Sys2Proof.Machine
end

