-- ==== Sys2Proof/Machine/Drain.lean ====
section
/-! DEFINITION. The drains (R177 to R188): outer scales, output block scales, conversion, amax, the first-NaN trap, and
the commit of rows. -/

namespace Sys2Proof.Machine

/-! ## Output scales -/

/-- emax of a scaled output format (R181). -/
def emaxOf (f : Fmt) : Int :=
  match f with
  | .f8e5 => 16 | .f8e4 => 8 | .f6e3 => 4 | .f6e2 => 2 | .f4e2 => 2 | _ => 6

def clampScale (x : Int) : Nat := (min 254 (max 0 x)).toNat

/-- The largest magnitude of the finite values; none when there is none but zero. -/
def maxMag (xs : List Val) : Option (Nat × Int) :=
  xs.foldl (fun (m : Option (Nat × Int)) x => match x with
    | .fin _ k e =>
      if k = 0 then m
      else match m with
        | none => some (k, e)
        | some (k0, e0) => if dyLt ⟨k0, e0⟩ ⟨k, e⟩ then some (k, e) else m
    | _ => m) none

/-- block_scale of R181. -/
def blockScale (f : Fmt) (xs : List Val) : Nat :=
  match maxMag xs with
  | none => 127
  | some (k, e) => clampScale (log2Mag k e - emaxOf f + 127)

/-- tracked_scale of R186. An HMAX that is a NaN pattern, as an image may restore it, gives 127. (DESIGN CHOICE, log 155) -/
def trackedScale (h : Nat) (f : Fmt) (margin : Nat) : Nat :=
  match fltVal pFp32 h with
  | .inf _ => 254
  | .fin _ k e => if k = 0 then 127 else clampScale (log2Mag k e - emaxOf f + margin + 127)
  | .nan _ => 127

/-! ## Elements -/

/-- An element before its conversion: x of R177 and whether a NaN was generated. -/
structure Pre where
  x   : Val
  gen : Bool
  deriving DecidableEq, Repr

/-- An element as it commits. -/
structure OutEl where
  code : Nat
  nan  : Bool
  gen  : Bool
  zero : Bool
  fl   : Nat
  ff   : Bool      -- its block's scale byte becomes 0xFF (R56)
  deriving DecidableEq, Repr

/-- Conversion of one element (R74, R177, R188): divided by its block scale, rounded once, exported. -/
def convertEl (o : OutFmt) (sc : Option Nat) (r : Nat) (p : Pre) : OutEl :=
  let y := match sc with | none => p.x | some c => valScale p.x (127 - (c : Int))
  let (c, fl) := convTo o.fmt (outRm o) o.strict o.intwrap r y
  let nan := valIsNan (codeVal o.fmt c)
  let (c2, fl2, ff) := if o.ocp then ocpExport o.fmt o.strict c else (c, 0, false)
  ⟨c2, nan, nan && (!valIsNan p.x || p.gen), valIsZero (codeVal o.fmt c), fl ||| fl2, ff⟩

/-- |x| rounded up to FP32 (R183); NaN has none. -/
def amaxEl (x : Val) : Option Nat :=
  match x with
  | .nan _ => none
  | .inf _ => some (fltInf pFp32 false)
  | .fin _ k e => some (convFlt pFp32 .ru false 0 (.fin false k e)).1

def amaxMax (a b : Option Nat) : Option Nat :=
  match a, b with
  | none, y => y
  | x, none => x
  | some x, some y => some (fpMax x y)

def srOf (s : State) (step tensor row col : Nat) : Nat :=
  srRandom (rd s Reg.numSrSeed).toNat (fld s Reg.numSrStratum Fl.numSrStratum_SSTRATUM) step tensor row col

/-! ## The first-NaN trap (R188) -/

/-- A NaN as it commits: array, column and row for the order on one clock, row and column to record. -/
structure NanAt where
  array : Nat
  col   : Nat
  row   : Nat
  gen   : Bool
  deriving DecidableEq, Repr

def nanBefore (a b : NanAt) : Bool :=
  a.array < b.array || (a.array == b.array && (a.col < b.col || (a.col == b.col && a.row ≤ b.row)))

/-- (DEDUCED, log 84) -/
def trapMore (s : State) (t n : Nat) : State := satFld s (Reg.numNanW2 t) Fl.numNanW2_MORE n

/-- NaNs that commit on one clock. (DEDUCED, log 84) -/
def trapNans (s : State) (v : Nat) (j : Job) (stream tensor : Nat) (ns : List NanAt) : State :=
  let t := j.tenant
  match sortBy nanBefore ns with
  | [] => s
  | n :: rest =>
    let w0 := Reg.numNanW0 t
    if flag s w0 Fl.numNanW0_VALID then trapMore s t ns.length
    else
      let s := setFld s w0 Fl.numNanW0_ORIGIN (b2n n.gen)
      let s := setFld s w0 Fl.numNanW0_STREAM stream
      let s := setFld s w0 Fl.numNanW0_VEIN v
      let s := setFld s w0 Fl.numNanW0_ARRAY n.array
      let s := setFld s w0 Fl.numNanW0_TENSOR tensor
      let s := setFld s w0 Fl.numNanW0_SEQ j.seq
      let s := setFlag s w0 Fl.numNanW0_VALID true
      let s := setFld s (Reg.numNanW1 t) Fl.numNanW1_ROW n.row
      let s := setFld s (Reg.numNanW1 t) Fl.numNanW1_COL n.col
      let s := setFld s (Reg.numNanW2 t) Fl.numNanW2_MORE 0
      let s := setFld s (Reg.numNanW2 t) Fl.numNanW2_FRAME (frameNo s)
      let s := setFld s (Reg.numNanW3 t) Fl.numNanW3_TIMESTAMP (tstamp s)
      let s := trapMore s t rest.length
      if flag s Reg.numCtrl Fl.numCtrl_NANATN then notice s Unit.num else s

/-- A cold unit has converted (R187). -/
def coldUnit (s : State) (tensor : Nat) : State :=
  let s := incFld s Reg.numHistStat Fl.numHistStat_COLDUNITS 1
  let s := setFld s Reg.numHistStat Fl.numHistStat_LASTCOLD tensor
  let h := histGet s tensor
  if h.coldseen then s
  else
    let s := histPut s tensor { h with coldseen := true }
    let s := setFlag s Reg.numHistStat Fl.numHistStat_COLDSEEN true
    if flag s Reg.numCtrl Fl.numCtrl_COLDATN then notice s Unit.num else s

/-! ## Rows -/

/-- Rows that commit together (R180). -/
def groupRows (j : Job) (t : TileF) : Nat :=
  max (if t.oof.scale != 0 && t.oof.sdir && !t.spill then blockSize t.oof.scale else 1)
    (max (if t.turn then 64 else 1) (if t.scsrc && !j.hValid then 256 else 1))

/-- Is the command in cold-scale mode? (R187) -/
def coldMode (j : Job) (scsrc : Bool) : Bool := scsrc && !j.hValid

/-- The drain applies an MXINT8 operand's 2^-6 with its outer scale where the array took plain integers (R57, R78).
(DEDUCED, log 123) -/
def mxOuter (t : TileF) (o : OpFmt) : Bool := mxInt8 o && !t.scaledInt

def preRow (s : State) (j : Job) (t : TileF) (nt i : Nat) (accs : List AccSt) : List Pre :=
  (accs.zip (List.range accs.length)).map (fun ac =>
    let (sa, sw) := outerCodes s j t nt i ac.2
    let (x, g) := outerScale ac.1 sa sw (mxOuter t t.aof) (mxOuter t t.wof)
    ⟨x, g⟩)

/-- The output scale code of element (i, c) among rows that commit together (R181, R186, R187). -/
def elScale (s : State) (j : Job) (t : TileF) (m : List (Nat × List Pre)) (i c : Nat) : Option Nat :=
  let o := t.oof
  if o.scale = 0 then none
  else if t.scsrc then
    if j.hValid then some (trackedScale j.hMax o.fmt (fld s Reg.numCtrl Fl.numCtrl_MARGIN))
    else some (blockScale o.fmt ((m.filter (fun r => r.1 / 256 == i / 256)).flatMap (fun r => r.2.map (·.x))))
  else
    let b := blockSize o.scale
    if o.sdir then
      some (blockScale o.fmt ((m.filter (fun r => r.1 / b == i / b)).map (fun r => (r.2.getD c ⟨.fin false 0 0, false⟩).x)))
    else
      some (blockScale o.fmt (((m.filter (fun r => r.1 == i)).flatMap (fun r => (r.2.drop (c / b * b)).take b)).map (·.x)))

/-- Bytes written at places of a stream. -/
def writePieces (s : State) (st : Nat) (ps : List (Nat × List Byte)) : State :=
  ps.foldl (fun s p => writeRange s st p.1 p.2) s

/-- Where row i of an N tile goes: pieces of its element stream. -/
def rowPieces (j : Job) (t : TileF) (nt i : Nat) (codes : List Nat) : List (Nat × List Byte) :=
  if t.turn then
    let e := fmtBits t.oof.fmt / 8
    (codes.zip (List.range codes.length)).map (fun x =>
      (j.oPos + ((nt * t.cols + x.2) * t.m + i) * e, leBytes e x.1))
  else [(j.oPos + t.oOff nt i, packRow t.oof.fmt codes)]

/-- Where the scale bytes of the rows go (R179, R182): place and byte. -/
def scalePieces (j : Job) (t : TileF) (nt : Nat) (rows : List (Nat × List (Nat × Bool))) : List (Nat × List Byte) :=
  if t.oof.scale = 0 then []
  else
    let b := blockSize t.oof.scale
    let nc := t.ncols nt
    let base := j.osPos + sumTo nt t.osTile
    let one (p c : Nat) (ff : Bool) : Nat × List Byte := (p, leBytes 1 (if ff then 255 else c))
    if t.oof.sdir then
      (rows.filter (fun r => r.1 % b == 0)).flatMap (fun r =>
        (List.range nc).map (fun c =>
          let ff := (rows.filter (fun q => q.1 / b == r.1 / b)).any (fun q => (q.2.getD c (0, false)).2)
          let p := if t.turn then j.osPos + (nt * t.cols + c) * cdiv t.m b + r.1 / b
            else base + r.1 / b * nc + c
          one p (r.2.getD c (127, false)).1 ff))
    else
      rows.flatMap (fun r => (List.range (cdiv nc b)).map (fun k =>
        let blk := (r.2.drop (k * b)).take b
        one (base + r.1 * cdiv nc b + k) (r.2.getD (k * b) (127, false)).1 (blk.any (·.2))))

/-- Every piece can be written now (R178). -/
def piecesFit (s : State) (st : Nat) (ps : List (Nat × Nat)) : Bool := ps.all (fun p => writable s st p.1 p.2)

/-- Places the rows of a group will take, without their values. -/
def groupPlaces (j : Job) (t : TileF) (nt : Nat) (rows : List Nat) : List (Nat × Nat) :=
  rows.flatMap (fun i =>
    if t.turn then (rowPieces j t nt i (List.replicate (t.ncols nt) 0)).map (fun p => (p.1, p.2.length))
    else [(j.oPos + t.oOff nt i, t.oRowB nt)])

/-- Rows committed so far in an N tile, over its normal and its correction pass. -/
def ntDoneRows (j : Job) (nt : Nat) : List Nat := (j.nts.filter (fun x => x.nt == nt)).flatMap (·.done)

/-- The array whose drain took a row of an N tile (R188). -/
def drainedBy (j : Job) (nt i : Nat) : Nat :=
  ((j.nts.filter (fun x => x.nt == nt && x.checked.contains i)).findSome? (fun x =>
    (x.drained.find? (fun d => d.1 == i)).map (·.2))).getD 0

/-- The element of a block whose output scale byte becomes 0xFF reads as NaN and is no zero code (R37, R56). -/
def blockFf (o : OutFmt) (els : List (Nat × List (Option Nat × OutEl))) (i c : Nat) : Bool :=
  let b := blockSize o.scale
  if o.scale = 0 then false
  else if o.sdir then (els.filter (fun q => q.1 / b == i / b)).any (fun q => match q.2[c]? with
    | some e => e.2.ff | none => false)
  else (els.filter (fun q => q.1 == i)).any (fun q => ((q.2.drop (c / b * b)).take b).any (·.2.ff))

/-- Commit rows of an N tile that go together: stages 3 to 8 of R177. -/
def commitRows (s : State) (v : Nat) (j : Job) (t : TileF) (x : NtSt) (rows : List Nat) : State :=
  let accs := rows.map (fun i => (i, heldAccs j x.nt i))
  let dflags := accs.foldl (fun f r => r.2.foldl (fun f a => f ||| accFlags a) f) 0
  let nt := x.nt
  let arrayOf (i : Nat) : Nat := drainedBy j nt i
  let s := setFlags s j.tenant dflags
  let (s, am, nz) :=
    if t.spill then
      (writePieces s t.ostr (accs.map (fun r => (j.oPos + t.oOff nt r.1, r.2.flatMap (fun a => leBytes 8 (accWord a))))),
        none, 0)
    else
      let m := accs.map (fun r => (r.1, preRow s j t nt r.1 r.2))
      let els := m.map (fun r => (r.1, (r.2.zip (List.range r.2.length)).map (fun pc =>
        let sc := elScale s j t m r.1 pc.2
        let rnd := if outRm t.oof == .sr then srOf s j.step t.tensor r.1 (nt * t.cols + pc.2) else 0
        (sc, convertEl t.oof sc rnd pc.1))))
      let fl := els.foldl (fun f r => r.2.foldl (fun f e => f ||| e.2.fl) f) 0
      let s := setFlags s j.tenant fl
      let nans := els.flatMap (fun r => (r.2.zip (List.range r.2.length)).filterMap (fun e =>
        if e.1.2.nan then some ⟨arrayOf r.1, nt * t.cols + e.2, r.1, e.1.2.gen⟩ else none))
      let s := trapNans s v j t.ostr t.tensor nans
      let s := if coldMode j t.scsrc
        then ((rows.map (· / 256)).eraseDups).foldl (fun s _ => coldUnit s t.tensor) s else s
      let s := writePieces s t.ostr (els.flatMap (fun r => rowPieces j t nt r.1 (r.2.map (fun e => e.2.code))))
      let s := writePieces s t.oscl (scalePieces j t nt (els.map (fun r =>
        (r.1, r.2.map (fun e => (e.1.getD 127, e.2.ff))))))
      let am := m.foldl (fun a r => r.2.foldl (fun a p => amaxMax a (amaxEl p.x)) a) none
      let nz := els.foldl (fun n r => (r.2.zip (List.range r.2.length)).foldl (fun n e =>
        if e.1.2.zero && !blockFf t.oof els r.1 e.2 then n
        else n ||| (1 <<< ((nt * t.cols + e.2) / 16))) n) 0
      (s, am, nz)
  let s := updJob s v j.seq (fun j =>
    let j := { j with nts := j.nts.map (fun (y : NtSt) =>
      if y.nt = nt then { y with done := y.done ++ y.checked.filter (fun i => rows.contains i)
                                 checked := y.checked.filter (fun i => !rows.contains i)
                                 accs := y.accs.filter (fun a => !(y.checked.contains a.1 && rows.contains a.1)) }
      else y) }
    { j with amax := if t.track then amaxMax j.amax am else j.amax, any := true, nonzero := j.nonzero ||| nz })
  let s := if coldMode j t.scsrc then addCond s v j.seq St.coldScale else s
  match findJob s v j.seq with
  | none => s
  | some j2 =>
    if (ntDoneRows j2 nt).length ≥ t.m then
      updJob s v j.seq (fun j => { j with
        ntDone := j.ntDone + 1
        nts := j.nts.filter (fun y => y.nt != nt)
        holds := j.holds.filter (fun h => h.1 != nt) })
    else s

/-! ## Ends of a command with results -/

/-- What completion writes beside its status: the measured amax and the predictor slot (R127, R183). -/
def settleJob (s : State) (v seq : Nat) : State :=
  match findJob s v seq with
  | none => s
  | some j =>
    let (track, tensor, obs, slot) :=
      if j.op = 1 || j.op = 2 then
        let t := tileOf j.words
        (t.track, t.tensor, t.obs, t.oslot)
      else if j.op = 4 then
        let e := ewOf j.words
        (e.track, e.tensor, false, 0)
      else (false, 0, false, 0)
    let s := if track && j.any then histMeasure s tensor (j.amax.getD 0) else s
    if obs && !jobHalts j then
      let n := (tileOf j.words).n
      let m := maskOf ((List.range (min 4096 (cdiv n 16))).filter (fun g => !bit j.nonzero g))
      maskPut s slot m
    else s

/-- Let the halves go that a finished command held. -/
def releaseJob (s : State) (j : Job) : State :=
  ((j.starts.map (·.1)).eraseDups).foldl (fun s i => extend s i) s

/-- A command with results completes. -/
def closeJob (s : State) (v seq : Nat) : State :=
  match findJob s v seq with
  | none => s
  | some j => releaseJob (completeJob (settleJob s v seq) v seq) j

/-- A command ends with a status; what it has not committed is dropped. -/
def endJob (s : State) (v seq code : Nat) : State := closeJob (addCond s v seq code) v seq

/-- A command reached a poisoned word of its operands (R143, R375): it commits nothing more and ends with MICA_POISON. The
event has been recorded already where its own read met the error. (DEDUCED, log 103) -/
def poisonJob (s : State) (v : Nat) (j : Job) (told : Bool) : State :=
  let s := if told then s else recordErr s { (jobReader v j).mark (ErrRec.ofDet 1 0x02) with status := St.micaPoison }
  endJob s v j.seq St.micaPoison

end Sys2Proof.Machine
end

