-- ==== Sys2Proof/Machine/Tiles.lean ====
section
/-! DEFINITION. Claims (R202, R203, R225) and the issue of TILE and SPTILE (R171, R173, R178, R182, R208 to R211, R222,
R350). -/

namespace Sys2Proof.Machine

/-! ## Claims -/

/-- A preempted command's arrays are free (R225). -/
def giveUp (s : State) (v : Nat) (j : Job) : State :=
  settleWaits (updJob s v j.seq (fun j => { j with arrays := [], spilled := true, preempt := false }))

/-- Filler commands that hold arrays of the claim set are to give them up: tiles that have entered run on, an ELEMWISE
between two ranges and a GRAD_EMIT between two records give them up at once, whatever they wait for (R225, R347, R355).
(DEDUCED, log 36) -/
def preemptFillers (s : State) (as : List Nat) : State :=
  (allJobs s).foldl (fun s p =>
    if isFiller s p.2.tenant && p.2.arrays.any (fun a => as.contains a) && !p.2.done then
      if (p.2.op == 4 || p.2.op == 0x15) && p.2.beat = 0 then giveUp s p.1 p.2
      else updJob s p.1 p.2.seq (fun j => { j with preempt := true })
    else s) s

/-- Ramp-up begins; its dummy rows meet random patterns where no tile is resident (R104, R107). -/
def rampUp (x : ArrSt) : ArrSt := { x with pow := .rampUp, dummies := true, random := x.random || x.active.isNone }

/-- A power switch closes, or waits while another closes: switches close one at a time (R418). -/
def closeSwitch (s : State) (a : Nat) : State :=
  let busy := (List.range 4).any (fun b => (arr s b).pow == .closing)
  setArr s a { arr s a with pow := if busy then .waiting else .closing }

/-- When no switch closes, the lowest array that waits closes its own (R418). -/
def nextSwitch (s : State) : State :=
  if (List.range 4).any (fun b => (arr s b).pow == .closing) then s
  else match (List.range 4).find? (fun b => (arr s b).pow == .waiting) with
    | some b => setArr s b { arr s b with pow := .closing }
    | none => s

/-- An array is woken by a tile that arrives (R106, R107). A gap lasts until a real row takes a slot (R104), and a pre-ramp
until the tick (R108). -/
def wakeArray (s : State) (a : Nat) : State :=
  match (arr s a).pow with
  | .idle => setArr s a (rampUp (arr s a))
  | .opened => closeSwitch s a
  | .rampDown => setArr s a { arr s a with pow := .full }
  | _ => s

/-- Every array of a set stands at full admission. -/
def allFull (s : State) (as : List Nat) : Bool := as.all (fun a => (arr s a).pow == .full)

def wakeAll (s : State) (as : List Nat) : State := as.foldl wakeArray s

/-- Issue of a command that claims arrays: it waits for them, or takes them (R200, R202, R203, R225).
(DEDUCED, log 107) -/
def claimThen (s : State) (v : Nat) (c : Cmd) (share pick : Nat) (short : Nat → Bool)
    (go : State → List Nat → State) : State :=
  let as := claimSet s share pick
  if as.isEmpty then headWaits s v 4
  else if short as.length then refuse s v c St.claimShort
  else
    let s := if claimFree s as c.words || isFiller s (vTenant s v) then s else preemptFillers s as
    if claimFree s as c.words then go (wakeAll s as) as else headWaits s v 4

/-! ## Issue -/

/-- Reserve n bytes of a stream for a command: where they begin is kept for a retry (R204). -/
def reserve (s : State) (v seq st n : Nat) (set : Job → Nat → Job) : State :=
  if n = 0 then s
  else
    let x := strm s st
    let next := max x.taken (match x.seqs.head? with | some r => r.start | none => 0)
    let p := match (vein s v).retryAt.find? (fun q => q.1 == st) with | some q => q.2 | none => next
    let s := setStrm s st { x with taken := max x.taken (p + n) }
    updJob s v seq (fun j => set { j with starts := j.starts ++ [(st, p)] } p)

/-- Holds of every N tile on a stream: the lowest byte each still needs (R150). -/
def holdAll (s : State) (v seq st : Nat) (nts : Nat) (low : Nat → Nat) : State :=
  updJob s v seq (fun j => { j with holds := j.holds ++ (List.range nts).map (fun n => (n, st, low n)) })

/-- Streams of a tile command: the places of all its bytes follow the places of the commands issued before it. Every N
tile reads the activation again, so each holds all of it (R85, R150, R169). -/
def reserveTile (s : State) (v seq : Nat) (t : TileF) : State :=
  match findJob s v seq with
  | none => s
  | some j =>
    let ha := spA j t
    let hw := spW j t
    let (ast, asc, dA) := if t.sparse then (ha.val, ha.scl, ha.store == 0) else (t.astr, t.ascl, !t.patch)
    let (wst, wsc, dW) := if t.sparse then (hw.val, hw.scl, hw.store == 0) else (t.wstr, t.wscl, true)
    let s := if dA then
        let s := reserve s v seq ast t.aPresent (fun j p => { j with aPos := p })
        let s := reserve s v seq asc t.asLen (fun j p => { j with aScl := p })
        s
      else s
    let s := if dW then
        let s := reserve s v seq wst t.wLen (fun j p => { j with bPos := p })
        reserve s v seq wsc t.wsLen (fun j p => { j with bScl := p })
      else s
    let s := if t.load || t.psum then reserve s v seq t.aux t.xLen (fun j p => { j with xPos := p }) else s
    let s := reserve s v seq t.ostr t.oLen (fun j p => { j with oPos := p })
    let s := reserve s v seq t.oscl t.osLen (fun j p => { j with osPos := p })
    match findJob s v seq with
    | none => s
    | some j =>
      let s := if dA then
          let s := holdAll s v seq ast t.nts (fun _ => j.aPos)
          if t.aof.scale = 0 then s
          else holdAll s v seq asc t.nts (fun _ => j.aScl)
        else s
      let s := if dW then
          let s := holdAll s v seq wst t.nts (fun n => j.bPos + t.wOff n 0 0)
          if t.wof.scale = 0 then s
          else holdAll s v seq wsc t.nts (fun n =>
            j.bScl + (if t.wof.sdir then n * t.cols / blockSize t.wof.scale else t.wsOff n 0))
        else s
      let s := if t.load || t.psum then holdAll s v seq t.aux t.nts (fun n => j.xPos + t.xOff n 0) else s
      let wrote := [(t.ostr, j.oPos + t.oLen)] ++ (if t.osLen = 0 then [] else [(t.oscl, j.osPos + t.osLen)])
      let s := setVein s v { vein s v with wrote := (vein s v).wrote ++ wrote }
      let s := extend s t.ostr
      if t.osLen = 0 then s else extend s t.oscl

/-- Latches of a tile command at its first issue (R128, R186). PRED_EN is taken with the mask: with 0 no group is skipped
(R130). (DEDUCED, log 145) -/
def latchTile (s : State) (t : TileF) (as : List Nat) (j : Job) : Job :=
  let h := histGet s t.tensor
  { j with
    arrays := as
    dscW := if t.sparse then descWords s (64 * t.dsc) 16 else if t.patch then descWords s (64 * t.dsc) 9 else []
    hValid := t.scsrc && h.valid && decide (h.count ≥ 1)
    hMax := if t.scsrc then h.hmax else 0
    mask := if t.pred && flag s Reg.shlCtrl Fl.shlCtrl_PRED_EN then maskGet s t.pslot else 0
    served := as }

/-- A frozen group skips the command (R210, R350). Nothing commits, so a command with OBSERVE leaves its mask slot as it
is. (DESIGN CHOICE, log 150) -/
def frozenSkip (s : State) (v seq : Nat) : State :=
  addCond (incFld s (Reg.numFrozen (vTenant s v)) Fl.numFrozen_COUNT 1) v seq St.frozenSkipped

/-- Issue of TILE or SPTILE. -/
def issueTile (s : State) (v op pick : Nat) : State :=
  issueWith s v op tileCheck (fun s v c =>
    let t := tileOf c.words
    let seq := cmdSeq c.words
    claimThen s v c t.share pick (fun n => !t.fits n) (fun s as =>
      if t.wgrad && pgtFrozen (pgtRaw s t.pgroup) then
        issueNow s v c (fun s => frozenSkip s v seq)
      else
        let s := startIssue s v c
        let s := updJob s v seq (latchTile s t as)
        let s := reserveTile s v seq t
        afterIssue (refreshVein s v) v))

/-- TILE (R208 to R210). -/
def atHeadTile (v : Fin 16) (pick : Fin 4) (s : State) : Host.Outcome State Fault Refusal :=
  .next (issueTile s v 0x01 pick)

/-- SPTILE (R211). -/
def atHeadSptile (v : Fin 16) (pick : Fin 4) (s : State) : Host.Outcome State Fault Refusal :=
  .next (issueTile s v 0x02 pick)

end Sys2Proof.Machine
end

