-- ==== Sys2Proof/Machine/Calib.lean ====
section
/-! DEFINITION. Operating points and their changes (R271 to R274); CALIBRATE (R202, R222, R265): issue, measurement and
its interruptions. -/

namespace Sys2Proof.Machine

def setTrm (s : State) (f : TrmSt → TrmSt) : State := { s with trm := f s.trm }

/-! ## Operating points -/

def oppActive (s : State) : Nat := fld s Reg.trmOppsel Fl.trmOppsel_ACTIVE
/-- (DEDUCED, log 51) -/
def limOpp (s : State) : Nat := fld s Reg.trmTherm Fl.trmTherm_LIMOPP

/-- The point may be used: defined and not BAD (R272, R274). -/
def oppGood (s : State) (o : Nat) : Bool := flag s (Reg.trmOpp o) Fl.trmOpp_VALID && !flag s (Reg.trmOpp o) Fl.trmOpp_BAD

/-- The highest good point at or below o; point 0 when there is none (R272, R274). -/
def skipBad (s : State) : Nat → Nat
  | 0 => 0
  | o + 1 => if oppGood s (o + 1) then o + 1 else skipBad s o

/-- The operating point of a frame that begins now (R272). (DEDUCED, log 51) -/
def chooseOpp (s : State) : Nat := skipBad s (min (fld s Reg.trmOppsel Fl.trmOppsel_TARGET) (limOpp s))

/-- The point that the present frame runs at while the thermal limit stands where it does (R272, R276). -/
def homeOpp (s : State) : Nat := skipBad s (min (frameOpp s) (limOpp s))

/-- VREQ as it stands: the strap's level on every bit while PWR is clamped, the regulator's boot code (R415, R419), else
the code of the point that the block last drove. (DEDUCED, log 67) -/
def vreqNow (s : State) : Nat :=
  match driveOf s 14 with
  | .strap h => if h then 0xFF else 0
  | _ =>
    let o := match s.trm.trans with
      | some t => if t.dst > t.src || t.src = 16 || t.phase ≥ 3 then t.dst else t.src
      | none => oppActive s
    fld s (Reg.trmOpp o) Fl.trmOpp_VREQ

/-- Drive a point's code; point 16 is the clamp level, the regulator's boot code (R415, R419). (DEDUCED, log 67) -/
def driveVreq (s : State) (o : Nat) : State :=
  emit s (.vreq (if o < 16 then fld s (Reg.trmOpp o) Fl.trmOpp_VREQ else if bit s.strap.clamp.toNat 14 then 0xFF else 0))

/-- Begin a transition to a point, or note it for when the present one ends (R273). A lower may begin while VACK of an
earlier lower is awaited; a raise may not. (DEDUCED, log 50) -/
def moveOpp (s : State) (dst : Nat) : State :=
  let src := oppActive s
  let settling := match s.trm.trans with | none => false | some t => t.phase ≥ 3
  if s.trm.trans.isSome && !(settling && dst < src) then setTrm s (fun t => { t with nextOpp := some dst })
  else if dst = src then s
  else
    let s := setFlag s Reg.trmOppsel Fl.trmOppsel_BUSY true
    if dst > src then setTrm (driveVreq s dst) (fun t => { t with trans := some ⟨src, dst, 0⟩, nextOpp := none })
    else setTrm s (fun t => { t with trans := some ⟨src, dst, 2⟩, nextOpp := none })

/-- A transition is over; one that waits begins. A calibration at the new point counts from here.
(DEDUCED, log 50) -/
def nextMove (s : State) : State :=
  let s := setTrm s (fun t => { t with trans := none, calAt := tstamp s })
  match s.trm.nextOpp with
  | none => s
  | some o => moveOpp (setTrm s (fun t => { t with nextOpp := none })) o

/-! ## CALIBRATE -/

/-- Temperature band of a temperature in quarters of a degree (R259). -/
def bandOf (t : Int) : Nat := min 11 (max 0 (t / 40)).toNat

/-- Temperature band of the hottest valid sensor now. -/
def bandNow (s : State) : Nat := bandOf (sfld s Reg.trmTherm Fl.trmTherm_TMAX)

/-- The measurements of the four activity bands at a point, each the entry it fills and its nominal clocks (R265). -/
def calFour (o band : Nat) : List (List Nat × Nat) :=
  (List.range 4).map (fun a => ([48 * o + 4 * band + a], 49152))

/-- Measurements of a scope in order; those of scope 2 at the present operating point (R265). -/
def calPlan (s : State) (scope band : Nat) : List (List Nat × Nat) :=
  let o := frameOpp s
  match scope with
  | 0 => [([48 * o + 4 * band + 2], 49152)]
  | 1 => calFour o band
  | 2 => calFour (oppActive s) band
  | _ => [((List.range 4).map (fun a => 48 * o + 4 * band + a), 16384)]

/-- Measurements that end within a number of clocks. -/
def calWithin : Nat → List (List Nat × Nat) → List (List Nat)
  | _, [] => []
  | n, (ds, t) :: ms => if t ≤ n then ds :: calWithin (n - t) ms else []

/-- Free values, one for each measured coefficient: the measurement is the hardware's own. -/
def takeFrees : Nat → State → List Nat × State
  | 0, s => ([], s)
  | n + 1, s =>
    let (x, s) := takeFree s 16
    let (xs, s) := takeFrees n s
    (x :: xs, s)

/-- An entry measured in full (R264). Coefficients: PIDLE, PSTAT, EMICA, ELINK, EEL, EMAC0 to EMAC6. -/
def writeEntry (s : State) (d : Nat) (xs : List Nat) : State :=
  costPut s d { flags := 1, misses := 0, pidle := xs.getD 0 0, pstat := xs.getD 1 0, emica := xs.getD 2 0,
                elink := xs.getD 3 0, eel := xs.getD 4 0, calfrm := frameNo s % 2 ^ 32, emac := xs.drop 5 }

/-- Write what one measurement gave (R265). -/
def calWrite (scope : Nat) (s : State) (ds : List Nat) : State :=
  if scope = 3 then
    let (xs, s) := takeFrees 2 s
    ds.foldl (fun s d => costPut s d { costGet s d with
      pidle := xs.getD 0 0, pstat := xs.getD 1 0, calfrm := frameNo s % 2 ^ 32 }) s
  else
    let (xs, s) := takeFrees 12 s
    let s := setTrm s (fun t => { t with marked := t.marked.filter (fun m => !ds.contains m) })
    ds.foldl (fun s d => writeEntry s d xs) s

def calScope (j : Job) : Nat := cf j.words 0 10 4

/-- Clocks that LIMIT leaves at the present point: under scope 2 each point measured in full took its nominal time
(R265). (DEDUCED, log 52) -/
def calLeft (j : Job) : Nat := cf j.words 1 0 32 - 196608 * j.nt

/-- The entries of the measurements that end within n clocks at the present point. (DESIGN CHOICE, log 26) -/
def calRun (s : State) (j : Job) (n : Nat) : State :=
  (calWithin (min n (calLeft j)) (calPlan s (calScope j) j.prog)).foldl (calWrite (calScope j)) s

/-- The CALIBRATE in progress. -/
def calJob (s : State) : Option (Nat × Job) := (allJobs s).find? (fun p => p.2.op == 0x1C)

/-- A CALIBRATE that moves through the operating points runs: the tick leaves the point to it. (DESIGN CHOICE, log 26) -/
def calMoves (s : State) : Bool := match calJob s with | some (_, j) => calScope j == 2 | none => false

/-- Back to the frame's operating point, with no point left to measure (R265). -/
def calHome (s : State) : State := moveOpp (setTrm s (fun t => { t with cal := [] })) (homeOpp s)

/-- Core clocks that the measurement under way has run. -/
def calClocks (s : State) (j : Job) : Nat :=
  if calScope j = 2 then
    if s.trm.trans.isSome || s.trm.cal.head? != some (oppActive s) then 0
    else (tstamp s + 2 ^ 64 - s.trm.calAt) % 2 ^ 64 * fld s (Reg.trmOpp (oppActive s)) Fl.trmOpp_FCODE / 640
  else (tstamp s + 2 ^ 64 - j.tissue) % 2 ^ 64 * frameF s / 640

/-- A thermal event, a droop or a cleave ends a CALIBRATE; a new temperature band ends it with CAL_DOMAIN (R265). What
was measured by then stays. (DEDUCED, log 52) -/
def calStop (s : State) (code : Nat) : State :=
  match calJob s with
  | none => s
  | some (v, j) =>
    let s := calRun s j (calClocks s j)
    endJob (if calScope j = 2 then calHome s else s) v j.seq code

/-- The measurement at an operating point is over: on to the next one, and from the last one back to the frame's; with
the block there CALIBRATE ends. A point that could not be reached is passed over (R265, R274). (DEDUCED, log 52) -/
def calPoint (s : State) (v : Nat) (j : Job) : State :=
  if s.trm.trans.isSome then s
  else match s.trm.cal with
    | [] => closeJob s v j.seq
    | o :: rest =>
      let there := oppActive s == o
      let s := if there then calRun s j (calLeft j) else s
      if there && calLeft j < 196608 then endJob (calHome s) v j.seq St.calAborted
      else
        let s := setTrm s (fun t => { t with cal := rest, calAt := tstamp s })
        let s := updJob s v j.seq (fun j => { j with nt := if there then j.nt + 1 else j.nt })
        let s := match rest with | [] => calHome s | p :: _ => moveOpp s p
        if rest.isEmpty && s.trm.trans.isNone then closeJob s v j.seq else s

/-- The measurement is over: by its own end, or by LIMIT (R265). (DEDUCED, log 52) -/
def calEnd (s : State) (v : Nat) (j : Job) : State :=
  if calScope j = 2 then calPoint s v j
  else
    let need := ((calPlan s (calScope j) j.prog).map (·.2)).foldl (· + ·) 0
    let s := calRun s j (calLeft j)
    if need > calLeft j then endJob s v j.seq St.calAborted else closeJob s v j.seq

def calCheck (s : State) (v : Nat) (_ : List W64) : Option Nat :=
  firstFail [
    (!flag s (Reg.vnTenant (vTenant s v)) Fl.vnTenant_P_CAL, St.privDenied),
    ((calJob s).isSome, St.resourceBusy)]

/-- Scope 2 begins at the lowest operating point that may be used (R265). -/
def calBegin (s : State) : State :=
  let ps := (List.range 16).filter (oppGood s)
  let s := setTrm s (fun t => { t with cal := ps, calAt := tstamp s })
  match ps with
  | [] => s
  | p :: _ => moveOpp s p

/-- CALIBRATE (R202, R265). -/
def atHeadCalibrate (v : Fin 16) (s : State) : Host.Outcome State Fault Refusal :=
  .next (issueWith s v 0x1C calCheck (fun s v c =>
    let as := arraysIn s
    if as.isEmpty then
      let s := startIssue s v c
      afterIssue (completeJob (addCond s v (cmdSeq c.words) St.calAborted) v (cmdSeq c.words)) v
    else if !claimFree s as c.words then
      headWaits (if isFiller s (vTenant s v) then s else preemptFillers s as) v 4
    else
      let s := startIssue (wakeAll s as) v c
      let s := updJob s v (cmdSeq c.words) (fun j => { j with arrays := as, prog := bandNow s })
      let s := if cf c.words 0 10 4 = 2 then calBegin s else s
      afterIssue (refreshVein s v) v))

end Sys2Proof.Machine
end

