-- ==== Sys2Proof/Machine/Entry.lean ====
section
/-! DEFINITION. Tiles as they enter the arrays (R93, R100, R120 to R132), the lanes (R118 to R126), and filler
preemption (R225). -/

namespace Sys2Proof.Machine

/-- The command whose next tile enters an array. -/
def entryJob (s : State) (a : Nat) : Option (Nat × Job) :=
  (holdersOf s a).find? (fun p => (p.2.op == 1 || p.2.op == 2) && !allEntered p.2)

/-! ## Availability -/

/-- A need of a command: stream, first position, bytes. -/
abbrev Need := Nat × Nat × Nat

def needMet (s : State) (n : Need) : Bool := availRange s n.1 n.2.1 n.2.2

/-- Do some needs meet poison? -/
def needsBad (s : State) (ns : List Need) : Bool := ns.any (fun n => (readRange s n.1 n.2.1 n.2.2).2)

/-- Show the streams that keep a command waiting (R153). (DEDUCED, log 108) -/
def starve (s : State) (ns : List Need) : State :=
  ns.foldl (fun s n => if needMet s n then s else setFlag s (Reg.stmDescW7 n.1) Fl.stmDescW7_STARVED true) s

/-- (DEDUCED, log 108) -/
def fed (s : State) (ns : List Need) : State :=
  ns.foldl (fun s n => consumed (setFlag s (Reg.stmDescW7 n.1) Fl.stmDescW7_STARVED false) n.1 (n.2.1 + n.2.2)) s

/-- Streams of a job's dense operands: activation, its scales, weight, its scales. -/
def opStreams (j : Job) (t : TileF) : Nat × Nat × Nat × Nat :=
  if t.sparse then ((spA j t).val, (spA j t).scl, (spW j t).val, (spW j t).scl) else (t.astr, t.ascl, t.wstr, t.wscl)

/-- (DEDUCED, log 16) -/
def denseA (j : Job) (t : TileF) : Bool := if t.sparse then (spA j t).store == 0 else !t.patch
/-- (DEDUCED, log 16) -/
def denseW (j : Job) (t : TileF) : Bool := if t.sparse then (spW j t).store == 0 else true

/-! ### Compressed operands (R109, R110, R113, R120) -/

/-- Entries that a stored row has within the extents: first, and one past the last (R113). -/
def entRange (s : State) (h : SpHalf) (r : SpRd) (f : Fmt) (i : Nat) : Nat × Nat :=
  let lo := u32At s h.ptr (r.ptr + 4 * i)
  let hi := u32At s h.ptr (r.ptr + 4 * (i + 1))
  let n := min (extentElems s h.idx r.idx 16) (extentElems s h.val r.val (fmtBits f))
  (lo, max lo (min hi n))

/-- Entries of the coordinate list whose list bytes exist: each shows its row, also one that is dropped for its index or
its value (R110, R113). -/
def listHave (s : State) (h : SpHalf) (r : SpRd) : Nat :=
  min (u32At s h.clist r.clist) ((extentFrom s h.clist r.clist - 4) / 4)

/-- Entries of the coordinate list within the extents (R110). -/
def listLen (s : State) (h : SpHalf) (r : SpRd) (f : Fmt) : Nat :=
  min (min (listHave s h r) (2 ^ 24)) (extentElems s h.cval r.cval (fmtBits f))

/-- A stream that an entry lies in must have begun its sequence: only then is its extent known. -/
def beginNeed (s : State) (st pos : Nat) (any : Bool) : List Need := if any && !begun s st pos then [(st, pos, 1)] else []

/-- The row pointers and the coordinate list of a compressed operand. -/
def headNeeds (s : State) (h : SpHalf) (r : SpRd) (rows : Nat) : List Need :=
  if h.store = 0 then []
  else
    let ptr : Need := (h.ptr, r.ptr, 4 * (rows + 1))
    let cnt : List Need := if h.ncoord = 0 then [] else [(h.clist, r.clist, 4)]
    if !needMet s ptr || !cnt.all (needMet s) then ptr :: cnt
    else
      let any := (List.range rows).any (fun i => u32At s h.ptr (r.ptr + 4 * i) < u32At s h.ptr (r.ptr + 4 * (i + 1)))
      [ptr] ++ beginNeed s h.idx r.idx any ++ beginNeed s h.val r.val any ++
        (if h.ncoord = 0 then []
         else beginNeed s h.cval r.cval (u32At s h.clist r.clist != 0) ++ [(h.clist, r.clist, 4 + 4 * listHave s h r)])

/-- The column indices of a stored row. -/
def idxNeeds (s : State) (h : SpHalf) (r : SpRd) (o : OpFmt) (i : Nat) : List Need :=
  if h.store = 0 then []
  else
    let (lo, hi) := entRange s h r o.fmt i
    if hi ≤ lo then [] else [(h.idx, r.idx + 2 * lo, 2 * (hi - lo))]

/-- The values and scales of a stored row: what a lane or a dense expansion of it waits for. -/
def valNeeds (s : State) (h : SpHalf) (r : SpRd) (o : OpFmt) (k i : Nat) : List Need :=
  if h.store = 0 then []
  else
    let w := fmtBits o.fmt
    let (lo, hi) := entRange s h r o.fmt i
    (if h.crow.contains i then
      let n := listLen s h r o.fmt
      if n = 0 then [] else [(h.cval, r.cval, cdiv (w * n) 8)]
     else if hi ≤ lo then [] else [(h.val, r.val + w * lo / 8, cdiv (w * hi) 8 - w * lo / 8)]) ++
      (if o.scale = 0 then []
       else if o.sdir then [(h.scl, r.scl + i / blockSize o.scale, 1)]
       else let nb := cdiv k (blockSize o.scale); [(h.scl, r.scl + i * nb, nb)])

/-- Bytes of activation row i in pass p and sub-pass, with its scales. -/
def rowNeeds (s : State) (j : Job) (t : TileF) (p sub i : Nat) : List Need :=
  if !denseA j t then (if t.sparse then valNeeds s (spA j t) j.spA t.aof t.k i else [])
  else
    let (a, sc, _, _) := opStreams j t
    [(a, j.aPos + t.aOff p sub i, t.aRowB p)] ++
      (if t.aof.scale = 0 then []
       else if t.aof.sdir then [(sc, j.aScl + i / blockSize t.aof.scale, 1)]
       else [(sc, j.aScl + t.asOff p i, kBlocks t.aof (t.kcount p))])

/-- The bytes that some needs name are read. -/
def touchNeeds (s : State) (ns : List Need) (who : Reader) : State :=
  if !memArmed s then s else ns.foldl (fun s n => touchStream s n.1 n.2.1 n.2.2 who) s

/-- Bytes of the weight tile of a pass and sub-pass, with its scales, without the rows that the mask skips (R130). -/
def weightNeeds (s : State) (j : Job) (t : TileF) (corr : Bool) (nt p sub : Nat) : List Need :=
  if !denseW j t then
    (List.range (t.ncols nt)).flatMap (fun c => valNeeds s (spW j t) j.spW t.wof t.k (nt * t.cols + c))
  else
    let (_, _, w, sc) := opStreams j t
    let m := if t.sparse then 0 else skipBits j t corr p
    let at_ := j.bPos + t.wOff nt p sub
    (if m = 0 then [(w, at_, t.wTileB)]
     else ((List.range 256).filter (fun r => !bit m (r / 16))).map (fun r => (w, at_ + r * t.wRowB, t.wRowB))) ++
      (if t.wof.scale = 0 then []
       else if t.wof.sdir then [(sc, j.bScl + nt * t.cols / blockSize t.wof.scale, cdiv (t.ncols nt) (blockSize t.wof.scale))]
       else [(sc, j.bScl + t.wsOff nt p, t.cols * kBlocks t.wof (t.kcount p))])

/-- Every byte of activation row i, over all passes and sub-passes. -/
def wholeRowNeeds (s : State) (j : Job) (t : TileF) (i : Nat) : List Need :=
  (List.range t.passes).flatMap (fun p => (List.range t.subs.length).flatMap (fun x => rowNeeds s j t p x i))

/-- The AX64 words of an N tile in stream AUX. -/
def auxNeed (j : Job) (t : TileF) (nt : Nat) : Need := (t.aux, j.xPos + t.xOff nt 0, 8 * (t.m * t.ncols nt))

/-! ## Cursor -/

/-- The N tile after nt: in the correction pass the next one with void rows. -/
def nextNt (j : Job) (t : TileF) (from_ : Nat) : Nat :=
  if j.corr then ((List.range t.nts).find? (fun n => n ≥ from_ && j.voids.any (fun x => x.1 == n))).getD t.nts
  else from_

/-- The pass to run next at or after p. -/
def nextPass (j : Job) (t : TileF) (p : Nat) : Option Nat :=
  (livePasses j t j.corr).find? (fun q => q ≥ p)

/-- After the last normal tile of a PRED command: its void rows, once every activation is there (R131, R132). Only N
tiles that have a record still are looked at: one that has committed in full had no void row. (DEDUCED, log 120) -/
def toCorr (s : State) (v : Nat) (j : Job) (t : TileF) : State :=
  if !t.pred || j.corr || j.nt < t.nts then s
  else if !j.nts.isEmpty && !((List.range t.m).all (fun i => (wholeRowNeeds s j t i).all (needMet s))) then s
  else
    let rows := if j.nts.isEmpty then [] else voidRows s j t
    let vs := ((List.range t.nts).filter (fun n => j.nts.any (fun x => x.nt == n))).flatMap (fun n =>
      rows.map (fun i => (n, i)))
    let s := updJob s v j.seq (fun j =>
      let j := { j with corr := true, voids := vs, pass := 0, sub := 0 }
      { j with nt := nextNt j t 0 })
    if vs.isEmpty then s else addCond s v j.seq St.predCorrected

/-- Every row of every N tile has committed: nothing more of the command runs. -/
def checkFin (s : State) (v seq : Nat) : State :=
  match findJob s v seq with
  | none => s
  | some j =>
    if !j.done && (j.op = 1 || j.op = 2) && allEntered j && j.nts.isEmpty then finJob s v seq else s

/-- An N tile whose passes have entered has rows that have neither committed nor turned out void. -/
def tileOut (j : Job) (t : TileF) (x : NtSt) : Bool :=
  x.full && (ntRows j t x.nt x.corr).any (fun i => !(ntDoneRows j x.nt).contains i && !x.voided.contains i)

def tilesOut (j : Job) : Bool := j.nts.any (tileOut j (tileOf j.words))

/-! ## The tile in the arrays (R87, R91, R92) -/

/-- Codes of a stored element's width, for the activity of its stream (R258). -/
def measureCodes (s : State) (st a : Nat) (f : Fmt) (cs : List Nat) : State := measure s st a (fmtBits f) cs

/-- The stored codes of row i of a compressed operand in a chunk of K, and the stream that they come from. -/
def chunkCodes (s : State) (h : SpHalf) (r : SpRd) (f : Fmt) (rows k p i : Nat) : Nat × List Nat :=
  (if h.crow.contains i then h.cval else h.val,
   ((compRow s h r f rows k i).filter (fun e => e.1 / 256 == p)).map (·.2))

/-- The activity of row i's elements as the feeder of its array reads them in a pass: one lane for each K position of a
dense operand, one for each kept entry of a compressed one (R258). (DEDUCED, log 24) -/
def measureRow (s : State) (j : Job) (t : TileF) (nt : Nat) (corr : Bool) (p sub i : Nat) : State :=
  let a := rowArray j t nt corr i
  if denseA j t then
    let st := (opStreams j t).1
    measureCodes s st a t.aof.fmt (readCodes s st (j.aPos + t.aOff p sub i) t.aof.fmt t.aof.pack (t.kcount p)).1
  else if t.sparse then
    let c := chunkCodes s (spA j t) j.spA t.aof.fmt t.m t.k p i
    measureCodes s c.1 a t.aof.fmt c.2
  else s

/-- The activity of a pass of a weight tile: of a dense operand one lane for each column, of a compressed one one for each
kept entry of a channel (R258). (DEDUCED, log 24) -/
def measureTile (s : State) (j : Job) (t : TileF) (nt p : Nat) (rows : List (List (Nat × Option Nat))) : State :=
  if denseW j t then rows.foldl (fun s r => measureCodes s (opStreams j t).2.2.1 0 t.wof.fmt (r.map (·.1))) s
  else (List.range (t.ncols nt)).foldl (fun s c =>
    let x := chunkCodes s (spW j t) j.spW t.wof.fmt t.n t.k p (nt * t.cols + c)
    measureCodes s x.1 0 t.wof.fmt x.2) s

def WTile.is (w : WTile) (v seq nt : Nat) (corr : Bool) (p sub : Nat) : Bool :=
  w.vein == v && w.seq == seq && w.nt == nt && w.corr == corr && w.pass == p && w.sub == sub

/-- Every array of the command has the tile in its shadow registers. -/
def inShadow (s : State) (v : Nat) (j : Job) (p : Nat) : Bool :=
  j.arrays.all (fun a => match (arr s a).shadow with | some w => w.is v j.seq j.nt j.corr p j.sub | none => false)

/-- The tile at the command's place is loaded into the shadow registers, once its bytes are there and unless a word of
them is poisoned (R91, R92); column 64 takes its row sums (R87, R364). -/
def loadShadow (s : State) (v : Nat) (j : Job) (t : TileF) (p : Nat) : State :=
  let ns := weightNeeds s j t j.corr j.nt p j.sub
  if inShadow s v j p || !ns.all (needMet s) then s
  else
    let s := touchNeeds s ns (jobReader v j)
    let (rows, bad) := weightTile s j t j.corr j.nt p j.sub
    if (bad || needsBad s ns) && !s.poison.isEmpty then s
    else
      let lo := (t.subs.getD j.sub (false, false)).2
      let w : WTile := ⟨v, j.seq, j.nt, j.corr, p, j.sub, macClass t.eff, t.ncols j.nt, rows, weightSums t lo rows⟩
      j.arrays.foldl (fun s a => setArr s a { arr s a with shadow := some w }) (fed (measureTile s j t j.nt p rows) ns)

/-- The shadow registers become active, and the accumulators of the N tile's rows wait for the tile's sums (R92). -/
def swapTile (s : State) (v : Nat) (j : Job) (p : Nat) : State :=
  let s := j.arrays.foldl (fun s a =>
    setArr s a { arr s a with active := (arr s a).shadow, shadow := none, random := false }) s
  updJob s v j.seq (fun j => updNt j j.nt j.corr (fun x => { x with cur := some (p, j.sub) }))

/-- The weights that row i meets: those in its array's active registers. -/
def activeRows (s : State) (v : Nat) (j : Job) (t : TileF) (x : NtSt) (p sub i : Nat) : List (List (Nat × Option Nat)) :=
  match (arr s (rowArray j t x.nt x.corr i)).active with
  | some w => if w.is v j.seq x.nt x.corr p sub then w.rows else (weightTile s j t x.corr x.nt p sub).1
  | none => (weightTile s j t x.corr x.nt p sub).1

/-- How a part of a command's work went: it waits for bytes, its command ended on a poisoned word, or it is done. -/
inductive Went where
  | waits (s : State)
  | ended (s : State)
  | done (s : State)

/-- The state that it left. -/
def Went.st : Went → State
  | .waits s => s
  | .ended s => s
  | .done s => s

/-- Needs that must have arrived and be free of poison: they are read (R143, R153, R170). -/
def readNeeds (s : State) (v : Nat) (j : Job) (ns : List Need) (bad : State → Bool) (go : State → State) : Went :=
  if !ns.all (needMet s) then .waits (starve s ns)
  else
    let n := ueCount s
    let s := touchNeeds s ns (jobReader v j)
    if !s.poison.isEmpty && bad s then .ended (poisonJob s v j (ueCount s != n)) else .done (go (fed s ns))

/-- What an item reads: the row's entries and the column's, values and scales. -/
def itemNeeds (s : State) (j : Job) (t : TileF) (x : NtSt) (row col : Nat) : List Need :=
  wholeRowNeeds s j t row ++
    (if denseW j t then (List.range t.passes).flatMap (fun p => weightNeeds s j t x.corr x.nt p 0)
     else valNeeds s (spW j t) j.spW t.wof t.k (x.nt * t.cols + col))

/-- What the items of a lane-mode tile read in all. -/
def laneNeeds (s : State) (j : Job) (t : TileF) (x : NtSt) : List Need :=
  ((List.range t.m).flatMap (wholeRowNeeds s j t) ++
    (List.range (t.ncols x.nt)).flatMap (fun c => itemNeeds s j t x 0 c)).eraseDups

/-- The activity of a lane-mode tile's operand values, chunk by chunk (R258). -/
def measureLanes (s : State) (j : Job) (t : TileF) (x : NtSt) : State :=
  (List.range t.passes).foldl (fun s p =>
    let s := (List.range t.m).foldl (fun s i => measureRow s j t x.nt x.corr p 0 i) s
    measureTile s j t x.nt p (weightTile s j t x.corr x.nt p 0).1) s

/-- Every row of the tile that the arrays hold has been read and adds to its accumulators, and what the checks have to
work on stands (R70, R92, R170, R177, R364). A tile that reads a poisoned word commits nothing, so no row drains before all
are read: of a lane-mode tile, before every value of its items is there (R143). (DEDUCED, log 103) -/
def closeTile (s : State) (v : Nat) (j : Job) (t : TileF) (x : NtSt) : Went :=
  match x.cur with
  | none => .done s
  | some (p, b) =>
    let rows := ntRows j t x.nt x.corr
    if x.sparse then
      let ns := laneNeeds s j t x
      readNeeds s v j ns (fun s => needsBad s ns) (fun s =>
        updJob (measureLanes s j t x) v j.seq (fun j => updNt j x.nt x.corr (fun y => { y with cur := none })))
    else
      let ns := rows.flatMap (rowNeeds s j t p b)
      readNeeds s v j ns (fun s => needsBad s ns || rows.any (fun i => (actRow s j t p b i).2)) (fun s =>
        let acts := rows.map (fun i => (i, (actRow s j t p b i).1))
        let regs := j.arrays.filterMap (fun a => (arr s a).active.map (fun w => (a, w)))
        let accs := x.accs.map (fun a => (a.1, addTile t b a.2 (mapGet [] acts a.1) (activeRows s v j t x p b a.1)))
        let s := rows.foldl (fun s i => measureRow s j t x.nt x.corr p b i) s
        updJob s v j.seq (fun j => updNt j x.nt x.corr (fun y =>
          { y with accs := accs, cur := none, tiles := y.tiles ++ [⟨p, b, acts, regs⟩] })))

/-- Tiles that arrays hold, of any command. -/
def heldTiles (s : State) (as : List Nat) : List (Nat × Job × NtSt) :=
  (allJobs s).flatMap (fun p => if p.2.arrays.any (fun a => as.contains a)
    then (p.2.nts.filter (·.cur.isSome)).map (fun x => (p.1, p.2, x)) else [])

/-- Every tile that some arrays hold is closed (R92). -/
def closeAll (s : State) (as : List Nat) : Went :=
  (heldTiles s as).foldl (fun w h => match w with
    | .done s => closeTile s h.1 h.2.1 (tileOf h.2.1.words) h.2.2
    | w => w) (.done s)

/-- Lanes of the arrays that still hold items (R120). -/
def lanesBusy (s : State) (as : List Nat) : Bool :=
  (allJobs s).any (fun p => p.2.nts.any (fun x => x.lanes.any (fun l =>
    as.contains l.array && (l.cur.isSome || !l.queue.isEmpty))))

/-! ## Preemption of a filler command (R225) -/

/-- The accumulators of an N tile whose passes have not all entered, as AX64 words into the spill area of each array; the
flags that their operands raised are set. (DEDUCED, log 36) -/
def spillJob (s : State) (v : Nat) (j : Job) (t : TileF) : State :=
  match j.nts.find? (fun x => !x.full) with
  | none => s
  | some x =>
    let s := setFlags s j.tenant (x.accs.foldl (fun f r => r.2.foldl (fun f a => f ||| accFlags a) f) 0)
    let s := x.accs.foldl (fun s r => (r.2.zip (List.range r.2.length)).foldl (fun s a =>
      micaWrite s (spillAddr s t j.arrays x.nt r.1 a.2) (leBytes 8 (accWord a.1))) s) s
    updJob s v j.seq (fun k => updNt k x.nt x.corr (fun y =>
      { y with accs := [], spill := some (j.arrays, j.pass, j.sub) }))

/-- A preempted filler command gives its arrays up once the tiles that have entered are done. (DEDUCED, log 36) -/
def tryYield (s : State) (v : Nat) (j : Job) : State :=
  if !j.preempt || j.done then s
  else if j.op = 1 || j.op = 2 then
    if tilesOut j || !j.ladders.isEmpty then s
    else match closeAll s j.arrays with
      | .done s =>
        (match findJob s v j.seq with
        | some j => giveUp (spillJob s v j (tileOf j.words)) v j
        | none => s)
      | .waits s => s
      | .ended s => s
  else if (j.op = 0x15 || j.op = 4) && j.beat = 0 then giveUp s v j
  else s

/-- The accumulators of a command that takes arrays again are reloaded from the spill area (R225). -/
def reload (s : State) (v : Nat) (j : Job) : State :=
  let t := tileOf j.words
  match j.nts.find? (fun x => !x.full && x.spill.isSome) with
  | none => s
  | some x =>
    let as := match x.spill with | some (as, _, _) => as | none => []
    let rows := ntRows j t x.nt x.corr
    if rows.any (fun i => poisoned s (spillAddr s t as x.nt i 0) (8 * t.ncols x.nt)) then poisonJob s v j false
    else updJob s v j.seq (fun k => updNt k x.nt x.corr (fun y =>
      { y with accs := rows.map (fun i => (i, startAccs s j t x i)) }))

/-- A command that lost its arrays takes arrays again; a filler command when the filler may run (R202, R224, R225). -/
def resumeJob (s : State) (a : Nat) : State :=
  match (allJobs s).find? (fun p => p.2.spilled) with
  | none => s
  | some (v, j) =>
    let share := cf j.words 0 10 2
    let as := claimSet s share (if share = 0 then a else a / 2)
    if as.isEmpty || !as.contains a || !as.all (fun b => (holdersOf s b).isEmpty && !borrowed s b) ||
        (isFiller s j.tenant && !fillerMay s 0) then s
    else wakeAll (reload (updJob s v j.seq (fun j => { j with
      arrays := as, spilled := false, served := (j.served ++ as).eraseDups })) v j) as

/-! ## Sparse tiles -/

/-- First positions of the parts of a compressed operand that begins where its streams stand. (DEDUCED, log 17) -/
def spAt (s : State) (h : SpHalf) : SpRd :=
  let at_ (i : Nat) : Nat :=
    max (strm s i).taken (match (strm s i).seqs.head? with | some r => r.start | none => 0)
  ⟨at_ h.ptr, at_ h.idx, at_ h.val, at_ h.clist, at_ h.cval, at_ h.scl⟩

/-- What must have arrived before the first tile of a sparse command: the pointers and coordinate lists of both operands,
and the activation's column indices. Values are waited for by the lanes that need them (R120). -/
def firstNeeds (s : State) (t : TileF) (ha hw : SpHalf) (ra rw : SpRd) : List Need :=
  let heads := headNeeds s ha ra t.m ++ headNeeds s hw rw t.n
  if !heads.all (needMet s) then heads
  else heads ++ (if ha.store = 0 then [] else (List.range t.m).flatMap (idxNeeds s ha ra t.aof))

/-- The column indices of the weight channels of an N tile. -/
def channelNeeds (s : State) (j : Job) (t : TileF) (nt : Nat) : List Need :=
  (List.range (t.ncols nt)).flatMap (fun c => idxNeeds s (spW j t) j.spW t.wof (nt * t.cols + c))

/-- Drops are counted and shown: of the operand (0 activation, 1 weight), each with its reason and row. The last one in
this order is the one that LAST_DROP shows: the activation's rows, its coordinate list, then N tile by N tile the
weight's channels, and its coordinate list with the first. An entry whose list bytes do not exist has no row that the spec
gives: ROW is a free 16-bit value then. (DESIGN CHOICE, log 130) -/
def noteDrops (s : State) (v : Nat) (j : Job) (ds : List (Nat × Nat × Nat × Nat)) : State :=
  match ds.getLast? with
  | none => s
  | some (o, r, row, _) =>
    let s := incFld s (Reg.shlDrop j.tenant) Fl.shlDrop_COUNT ((ds.map (fun d => d.2.2.2)).foldl (· + ·) 0)
    let (row, s) := if row = unknownRow then takeFree s 16 else (row, s)
    let a := Reg.shlLastDrop
    let s := setFld s a Fl.shlLastDrop_REASON r
    let s := setFld s a Fl.shlLastDrop_VEIN v
    let s := setFld s a Fl.shlLastDrop_OPND o
    let s := setFld s a Fl.shlLastDrop_ROW row
    let s := setFld s a Fl.shlLastDrop_SEQ j.seq
    addCond s v j.seq St.indexDropped

/-- The bytes of a compressed operand follow those of the commands before it; low n is the first row that N tile n
reads (R150). -/
def reserveSparse (s : State) (v : Nat) (j : Job) (h : SpHalf) (r : SpRd) (o : OpFmt) (rows k nts : Nat) (low : Nat → Nat) :
    State :=
  if h.store = 0 then s
  else
    let w := fmtBits o.fmt
    let ent (i : Nat) : Nat := (List.range (rows - i)).foldl (fun m q => min m (entRange s h r o.fmt (i + q)).1)
      (entRange s h r o.fmt i).1
    let n := (List.range rows).foldl (fun m i => max m (entRange s h r o.fmt i).2) 0
    let c := listLen s h r o.fmt
    let lows := (List.range nts).map (fun q => ent (low q))
    let one (s : State) (st len : Nat) (at_ : Nat → Nat) : State :=
      holdAll (reserve s v j.seq st len (fun j _ => j)) v j.seq st nts at_
    let s := one s h.ptr (4 * (rows + 1)) (fun _ => r.ptr)
    let s := one s h.idx (2 * n) (fun q => r.idx + 2 * lows.getD q 0)
    let s := one s h.val (cdiv (w * n) 8) (fun q => r.val + w * lows.getD q 0 / 8)
    let s := if o.scale = 0 then s
      else one s h.scl (if o.sdir then cdiv rows (blockSize o.scale) else rows * cdiv k (blockSize o.scale)) (fun _ => r.scl)
    if h.ncoord = 0 then s
    else one (one s h.clist (4 + 4 * c) (fun _ => r.clist)) h.cval (cdiv (w * c) 8) (fun _ => r.cval)

/-- The command takes its compressed operands: their places, and the drops of the activation and of the coordinate lists
(R113, R114). (DESIGN CHOICE, log 130) -/
def takeSparse (s : State) (v : Nat) (j : Job) (t : TileF) : State :=
  let ha := spA j t
  let hw := spW j t
  let ra := spAt s ha
  let rw := spAt s hw
  let ns := firstNeeds s t ha hw ra rw
  let drops := (compDrops s ha ra t.aof.fmt t.m t.k).map (fun d => (0, d)) ++
    (if hw.store = 0 then [] else (coordList s hw rw t.wof.fmt t.n t.k).2.map (fun d => (1, d)))
  let s := reserveSparse s v j ha ra t.aof t.m t.k t.nts (fun _ => 0)
  let s := reserveSparse s v j hw rw t.wof t.n t.k t.nts (fun q => q * t.cols)
  let s := updJob s v j.seq (fun j => { j with spA := ra, spW := rw })
  noteDrops (fed s ns) v j drops

/-- choose_path of R121: does this N tile run in lane mode? In the last chunk a dense operand counts the positions below K.
(DEDUCED, log 119; DESIGN CHOICE, log 131) -/
def laneMode (s : State) (j : Job) (t : TileF) (nt : Nat) : Bool :=
  if t.path = 1 then false
  else if t.path = 2 then true
  else
    let n := shareN t.share
    let r := cdiv t.m n
    let ca := (List.range t.m).map (fun i =>
      if (spA j t).store = 0 then (List.range t.passes).map t.kcount
      else chunkCounts t.passes (compRow s (spA j t) j.spA t.aof.fmt t.m t.k i))
    let cw := (List.range (t.ncols nt)).map (fun c =>
      if (spW j t).store = 0 then (List.range t.passes).map t.kcount
      else chunkCounts t.passes (compRow s (spW j t) j.spW t.wof.fmt t.n t.k (nt * t.cols + c)))
    let d := t.passes * max (rhoOf t.eff * r) (loadClk t.eff)
    let w := sumTo t.passes (fun c =>
      let a := (ca.map (fun x => x.getD c 0)).foldl (· + ·) 0
      let b := (cw.map (fun x => x.getD c 0)).foldl (· + ·) 0
      max (cdiv (a * b) 256) (32 * t.m * t.ncols nt))
    let est := 96 + cdiv (w * rhoOf t.eff) (n * 16384 * cellW t.eff)
    decide (10 * est < min 10 (fld s Reg.shlCtrl Fl.shlCtrl_THR) * d)

/-- The lane queues of an N tile (R118): the first item of each has started. (DEDUCED, log 119) -/
def ownLanes (s : State) (j : Job) (t : TileF) (nt : Nat) : List Lane :=
  let segs := (List.range t.m).map (fun i => (i, (rowSegs s t (spRowA s j t i)).length))
  j.arrays.flatMap (fun a =>
    let rows := segs.filter (fun x => shareArray j.arrays t.m x.1 == a)
    (List.range 64).map (fun l =>
      let cols := (List.range (t.ncols nt)).filter (fun c => c % 64 == l)
      let q := rows.flatMap (fun x => cols.flatMap (fun c => (List.range x.2).map (fun g => (⟨x.1, c, g⟩ : Item))))
      ⟨a, l, q.drop 1, q.head?, []⟩))

/-! ## Lanes -/

/-- Items that lanes of an array have ended. -/
def endedOn (x : NtSt) (a : Nat) : List Item := (x.lanes.filter (fun l => l.array == a)).flatMap (·.ended)

/-- Merge accumulators of an array in use: later segments that have started and are not merged; a segment is merged when
it and every earlier one have ended (R124). -/
def mergeUsed (x : NtSt) (a : Nat) : Nat :=
  let es := endedOn x a
  let cur := (x.lanes.filter (fun l => l.array == a)).filter (fun l => match l.cur with
    | some it => decide (it.seg > 0) | none => false)
  cur.length + (es.filter (fun it => decide (it.seg > 0) &&
    !(List.range (it.seg + 1)).all (fun g => es.contains { it with seg := g }))).length

def setLane (x : NtSt) (l : Lane) : NtSt :=
  { x with lanes := x.lanes.map (fun y => if y.array = l.array ∧ y.lane = l.lane then l else y) }

def laneAt (x : NtSt) (a l : Nat) : Option Lane := x.lanes.find? (fun y => y.array == a && y.lane == l)

/-- The lane starts an item of its own queue, unless it needs a merge accumulator and none is free. -/
def takeOwn (x : NtSt) (l : Lane) : NtSt :=
  match l.queue with
  | [] => x
  | it :: q => if it.seg > 0 && mergeUsed x l.array ≥ 4096 then x else setLane x { l with queue := q, cur := some it }

/-- Neighbours in the order of R126. -/
def neighbours (l : Nat) : List Nat := ([l + 1] ++ (if l ≥ 1 then [l - 1] else []) ++ [l + 2] ++
  (if l ≥ 2 then [l - 2] else [])).filter (· < 64)

/-- A steal (R124, R126). -/
def steal (x : NtSt) (l : Lane) : NtSt :=
  let qs := (neighbours l.lane).filterMap (laneAt x l.array)
  let room := decide (mergeUsed x l.array + 64 < 4096)
  let pick (y : Lane) (it : Item) : NtSt :=
    setLane (setLane x { y with queue := y.queue.erase it }) { l with cur := some it }
  match qs.find? (fun y => !y.queue.isEmpty) with
  | none => x
  | some y =>
    match y.queue.getLast? with
    | none => x
    | some it =>
      if it.seg = 0 || room then pick y it
      else
        match qs.find? (fun y => y.queue.any (fun i => i.seg == 0)) with
        | none => x
        | some y =>
          match (y.queue.filter (fun i => i.seg == 0)).getLast? with
          | some it => pick y it
          | none => x

/-- The lane's next item, and own items of lanes that waited for a merge accumulator. -/
def laneNext (stealOn : Bool) (x : NtSt) (l : Lane) : NtSt :=
  let x := if l.queue.isEmpty then (if stealOn then steal x l else x) else takeOwn x l
  (x.lanes.filter (fun y => y.array == l.array && y.cur.isNone && !y.queue.isEmpty)).foldl (fun x y =>
    match laneAt x y.array y.lane with
    | some y => if y.cur.isNone then takeOwn x y else x
    | none => x) x

/-- The lanes of an N tile as its setup ends: a lane without an item of its own steals (R126). (DEDUCED, log 119) -/
def mkLanes (s : State) (j : Job) (t : TileF) (x : NtSt) : NtSt :=
  let x := { x with lanes := ownLanes s j t x.nt }
  if flag s Reg.shlCtrl Fl.shlCtrl_STEAL_EN then
    x.lanes.foldl (fun x l => if l.cur.isNone && l.queue.isEmpty then steal x l else x) x
  else x

/-! ## TILE_ENTRY -/

/-- What a tile needs before its first row enters: its weights, the first row of each array (of a Slab, which Talus stages
whole, every row), and with LOAD the N tile's accumulators (R93, R98, R169). -/
def entryNeeds (s : State) (j : Job) (t : TileF) (p : Nat) (rows : List Nat) (first : Bool) : List Need :=
  let heads := if t.shape = 0 then rows
    else j.arrays.filterMap (fun a => rows.find? (fun i => rowArray j t j.nt j.corr i == a))
  weightNeeds s j t j.corr j.nt p j.sub ++ heads.flatMap (fun i => rowNeeds s j t p j.sub i) ++
    (if first && t.load then [auxNeed j t j.nt] else [])

/-- The split-K partial sums of an N tile are to be added before a tile of this pass (R71, R93, R208). -/
def auxDue (t : TileF) (x : NtSt) (p : Nat) : Bool := t.psum && !x.summed && p > t.psumat

/-- An N tile begins its wait for its partial sums, behind the waits issued before it (R161, R208). -/
def waitAux (s : State) (v : Nat) (j : Job) (t : TileF) (x : NtSt) : State :=
  let o := s.stamp
  semSettle (updJob { s with stamp := o + 1 } v j.seq (fun j => updNt j x.nt false (fun y => { y with auxOrd := some o })))
    t.psem

/-- The partial sums of an N tile join its accumulators: in the normal pass once the semaphore has counted them, in its
turn among those that wait on it; in the correction pass they are read again (R71, R93, R161, R208, R371). -/
def sumAux (s : State) (v : Nat) (j : Job) (t : TileF) (x : NtSt) : Went :=
  let s := if x.auxIn || x.corr || x.auxOrd.isSome then s else waitAux s v j t x
  let in_ := x.corr || (((findJob s v j.seq).getD j).nts.any (fun y => y.nt == x.nt && !y.corr && y.auxIn))
  if !in_ then .waits (starve s [auxNeed j t x.nt])
  else
    readNeeds s v j [auxNeed j t x.nt]
      (fun s => (readRange s t.aux (j.xPos + t.xOff x.nt 0) (8 * (t.m * t.ncols x.nt))).2) (fun s =>
      let accs := x.accs.map (fun a => (a.1, addAux s j t x.nt a.1 a.2))
      updJob s v j.seq (fun j => updNt j x.nt x.corr (fun y => { y with accs := accs, summed := true, auxIn := true })))

/-- The drain accumulators that an accumulating pass needs are free: on its arrays no row of another N tile waits in them
for its group. A normal N tile of the command itself that holds void rows waits for its correction pass, which must enter
(R93, R100, R132, R180). -/
def accFree (s : State) (v : Nat) (j : Job) (t : TileF) : Bool :=
  !t.accumulates ||
    (allJobs s).all (fun p => !(p.2.arrays.any (fun a => j.arrays.contains a)) ||
      p.2.nts.all (fun x => x.checked.isEmpty ||
        (p.1 == v && p.2.seq == j.seq && (x.nt == j.nt || (!x.corr && !x.voided.isEmpty)))))

/-- A tile has entered: its arrays hold it, and a spare mapped takes effect (R92, R373). -/
def arraysEnter (s : State) (as : List Nat) : State :=
  as.foldl (fun s a =>
    let x := arr s a
    let s := x.spareReq.foldl (fun s m =>
      if m.1 = 65 then
        setFld (setFlag s (Reg.tchSpare a) Fl.tchSpare_V65 true) (Reg.tchSpare a) Fl.tchSpare_COL65 m.2
      else
        setFld (setFlag s (Reg.tchSpare a) Fl.tchSpare_V66 true) (Reg.tchSpare a) Fl.tchSpare_COL66 m.2) s
    setArr s a { x with resident := true, gap := false, spareReq := [] }) s

/-- Weight rows skipped in an N tile of a PRED command; each row and N tile counts once, also where ABANDON enters the tile
again. The root of a multicast group brings every row (R130, R157). (DEDUCED, log 120) -/
def skippedRows (s : State) (j : Job) (t : TileF) : Nat :=
  if t.pred && !((desc s t.wstr).kind == 0 && (desc s t.wstr).mc) then 16 * ((List.range (cdiv t.k 16)).filter (fun g => bit j.mask g)).length else 0

/-- The N tile record for the tile that enters, with the starting content of its rows' accumulators. -/
def openNt (s : State) (v : Nat) (j : Job) (t : TileF) (nt : Nat) (sparse : Bool) : State :=
  if j.nts.any (fun x => x.nt == nt && x.corr == j.corr) then s
  else
    let x : NtSt := ⟨nt, j.corr, sparse, false, none, false, false, [], [], [], [], [], [],
      if sparse then some (0, 0) else none, [], none, [], []⟩
    let x := if sparse then mkLanes s j t x
      else { x with accs := (ntRows j t nt j.corr).map (fun i => (i, startAccs s j t x i)) }
    let s := updJob s v j.seq (fun j => { j with nts := j.nts ++ [x], skips := (j.skips ++ [nt]).eraseDups })
    let s := if j.corr || j.skips.contains nt then s else incFld s (Reg.shlSkip j.tenant) Fl.shlSkip_COUNT (skippedRows s j t)
    if t.sparse then
      (if sparse then incFld s Reg.shlTiles Fl.shlTiles_SPARSE 1 else incFld s Reg.shlTiles Fl.shlTiles_DENSE 1)
    else s

/-- The cursor moves past the tile that entered. -/
def advance (s : State) (v : Nat) (j : Job) (t : TileF) (sparse : Bool) : State :=
  let done (j : Job) : Job :=
    let j := updNt j j.nt j.corr (fun x => { x with full := true })
    match j.redo with
    | r :: rs => { j with nt := r, redo := rs, pass := 0, sub := 0 }
    | [] => { j with nt := nextNt j t (j.resume.getD (j.nt + 1)), resume := none, pass := 0, sub := 0 }
  let lastSub := j.sub + 1 ≥ t.subs.length
  updJob s v j.seq (fun j =>
    let j := { j with entered := true }
    if sparse then done j
    else match nextPass j t j.pass with
      | none => done j
      | some p =>
        if !lastSub then { j with pass := p, sub := j.sub + 1 }
        else match nextPass j t (p + 1) with
          | none => done j
          | some q => { j with pass := q, sub := 0 })

/-- The weight channels of an N tile of a sparse command are expanded: their drops (R113, R114). -/
def takeChannels (s : State) (v : Nat) (j : Job) (t : TileF) : State :=
  let h := spW j t
  if !t.sparse || h.store = 0 || j.nts.any (fun x => x.nt == j.nt && x.corr == j.corr) then s
  else
    let ns := channelNeeds s j t j.nt
    noteDrops (fed s ns) v j ((List.range (t.ncols j.nt)).flatMap (fun c =>
      (ptrRow s h j.spW t.wof.fmt t.k (j.nt * t.cols + c)).drops.map (fun d => (1, d))))

/-- The tile that follows on an array loads beneath the one that has entered, where its weights are there: of the same
command or of the one that follows it (R92). A tile that runs in lane mode takes no weight registers. -/
def loadNext (s : State) (a : Nat) : State :=
  match entryJob s a with
  | none => s
  | some (v, j) =>
    let t := tileOf j.words
    if j.nt ≥ t.nts || !j.ladders.isEmpty || !j.arrays.all (inService s) then s
    else
      let open_ := j.nts.find? (fun x => x.nt == j.nt && x.corr == j.corr)
      let ready := !t.sparse || open_.isSome || (j.entered && (channelNeeds s j t j.nt).all (needMet s))
      let lane := match open_ with | some x => x.sparse | none => t.sparse && ready && laneMode s j t j.nt
      if !ready || lane then s
      else match nextPass j t j.pass with
        | some q => loadShadow s v j t q
        | none => s

/-- The tile at a command's place enters arrays that are ready for it. (DEDUCED, log 18) -/
def enterNow (s : State) (v : Nat) (j : Job) (t : TileF) : State :=
  let sparse := match j.nts.find? (fun x => x.nt == j.nt && x.corr == j.corr) with
    | some x => x.sparse
    | none => t.sparse && laneMode s j t j.nt
  let place := nextPass j t j.pass
  let p := place.getD 0
  let rows := ntRows j t j.nt j.corr
  let first := !j.nts.any (fun x => x.nt == j.nt && x.corr == j.corr)
  let ns := if sparse then (if first && t.load then [auxNeed j t j.nt] else [])
    else if place.isNone then [] else entryNeeds s j t p rows first
  if !ns.all (needMet s) then starve s ns
  else if !allFull (wakeAll s j.arrays) j.arrays then wakeAll s j.arrays
  else
    let s := wakeAll s j.arrays
    let s := touchNeeds s (if first && t.load then [auxNeed j t j.nt] else []) (jobReader v j)
    if first && t.load && (readRange s t.aux (j.xPos + t.xOff j.nt 0) (8 * (t.m * t.ncols j.nt))).2 then
      poisonJob s v j true
    else
      let s := if first && t.load then fed s [auxNeed j t j.nt] else s
      let s := openNt (takeChannels s v j t) v j t j.nt sparse
      let j := (findJob s v j.seq).getD j
      let summed := match j.nts.find? (fun x => x.nt == j.nt && x.corr == j.corr) with
        | some x => if !sparse && place.isSome && auxDue t x p then sumAux s v j t x else .done s
        | none => .done s
      match summed with
      | .waits s => s
      | .ended s => s
      | .done s =>
        let j := (findJob s v j.seq).getD j
        if sparse || place.isNone then
          let s := if sparse then
              j.arrays.foldl (fun s a => setArr s a { arr s a with active := none, shadow := none, random := false })
                (arraysEnter s j.arrays)
            else s
          let s := advance s v j t sparse
          settleWaits (checkFin (toCorr s v ((findJob s v j.seq).getD j) t) v j.seq)
        else
          let n := ueCount s
          let s := loadShadow s v { j with pass := p } t p
          if !inShadow s v j p then poisonJob s v j (ueCount s != n)
          else
            let s := arraysEnter (swapTile s v j p) j.arrays
            let s := advance s v ((findJob s v j.seq).getD j) t false
            let s := match j.arrays with | a :: _ => loadNext s a | [] => s
            settleWaits (checkFin (toCorr s v ((findJob s v j.seq).getD j) t) v j.seq)

/-- The next tile of a command enters, if nothing holds it back: every row of the tiles that its arrays hold is in, no
lane of them has an item, its operands are there and the accumulators are free (R92, R93, R100, R120).
(DEDUCED, log 18) -/
def enterTile (s : State) (v : Nat) (j : Job) : State :=
  let t := tileOf j.words
  if !isRun s || !j.ladders.isEmpty then s
  else
    match closeAll s j.arrays with
    | .waits s => s
    | .ended s => s
    | .done s =>
      match findJob (toCorr s v ((findJob s v j.seq).getD j) t) v j.seq with
      | none => s
      | some j =>
        let s := toCorr s v ((findJob s v j.seq).getD j) t
        if j.nt ≥ t.nts then checkFin s v j.seq
        else if !accFree s v j t || lanesBusy s j.arrays then s
        else if t.sparse && !j.entered then
          let ns := firstNeeds s t (spA j t) (spW j t) (spAt s (spA j t)) (spAt s (spW j t))
          if !ns.all (needMet s) then starve s ns
          else
            let s := touchNeeds s ns (jobReader v j)
            if needsBad s ns then poisonJob s v j true
            else
              let s := takeSparse s v j t
              let j := { (findJob s v j.seq).getD j with entered := true }
              let s := updJob s v j.seq (fun j => { j with entered := true })
              let cs := channelNeeds s j t j.nt
              if !cs.all (needMet s) then starve s cs else enterNow s v j t
        else
          let first := !j.nts.any (fun x => x.nt == j.nt && x.corr == j.corr)
          let cs := if t.sparse && first then channelNeeds s j t j.nt else []
          if !cs.all (needMet s) then starve s cs else enterNow s v j t

/-- An array that is being fenced takes no further row of a command: once the command's entered tiles are done it goes
on with the arrays left, from the first pass of its present N tile (R202, R380). -/
def dropFenced (s : State) (v : Nat) (j : Job) : State :=
  if j.arrays.all (inService s) || j.done || !(j.op == 1 || j.op == 2) || tilesOut j || !j.ladders.isEmpty ||
      allEntered j then s
  else
    match closeAll s j.arrays with
    | .waits s => s
    | .ended s => s
    | .done s =>
      let left := j.arrays.filter (inService s)
      let t := tileOf j.words
      updJob s v j.seq (fun j => { j with
        arrays := left, spilled := left.isEmpty, pass := 0, sub := 0
        nts := j.nts.map (fun x => if x.full then x
          else
            let x := { x with spill := none, summed := false, tiles := [], errs := [] }
            { x with accs := x.accs.map (fun a => (a.1, startAccs s j t x a.1)) }) })

/-- TILE_ENTRY: the next tile of the command that holds an array enters it, and its other arrays on the same clock.
(DEDUCED, log 18) -/
def execTileEntry (array : Fin 4) (s : State) : Host.Outcome State Fault Refusal :=
  .next (match entryJob s array with
    | none => resumeJob s array
    | some (v, j) =>
      if j.preempt then tryYield s v j
      else if !j.arrays.all (inService s) then dropFenced s v j
      else enterTile s v j)

/-! ## LANE_ITEM_END -/

/-- LANE_ITEM_END: a lane finishes its item, for which every value has arrived, and takes the next (R118, R120, R126). -/
def execLaneItemEnd (array : Fin 4) (lane : Fin 64) (s : State) : Host.Outcome State Fault Refusal :=
  let busy (x : NtSt) : Bool := match laneAt x array lane with | some l => l.cur.isSome | none => false
  .next (
    match (holdersOf s array).find? (fun p => p.2.nts.any busy) with
    | none => s
    | some (v, j) =>
      let t := tileOf j.words
      match j.nts.find? busy with
      | none => s
      | some x =>
        match (laneAt x array lane).bind (fun l => l.cur.map (fun it => (l, it))) with
        | none => s
        | some (l, it) =>
          let ns := itemNeeds s j t x it.row it.col
          match readNeeds s v j ns (fun s => needsBad s ns) id with
          | .waits s => s
          | .ended s => s
          | .done s =>
            let on := flag s Reg.shlCtrl Fl.shlCtrl_STEAL_EN
            let l := { l with cur := none, ended := l.ended ++ [it] }
            updJob s v j.seq (fun j => updNt j x.nt x.corr (fun x => laneNext on (setLane x l) l)))

end Sys2Proof.Machine
end

