-- ==== Sys2Proof/Machine/Ladder.lean ====
section
/-! DEFINITION. Rows as they drain (R177), the Touchstone checks' outcomes, the retry ladder, strikes and repair (R366 to
R373), and the completion of a command (R15). -/

namespace Sys2Proof.Machine

/-! ## Commit of checked rows -/

def scalePlaces (j : Job) (t : TileF) (nt : Nat) (rows : List Nat) : List (Nat × Nat) :=
  if t.spill then []
  else (scalePieces j t nt (rows.map (fun i => (i, List.replicate (t.ncols nt) (127, false))))).map (fun p => (p.1, 1))

/-- Rows of the group of row i (R180). (DEDUCED, log 110) -/
def rowGroup (j : Job) (t : TileF) (i : Nat) : List Nat :=
  let g := groupRows j t
  ((List.range g).map (fun k => i / g * g + k)).filter (· < t.m)

/-- Rows of an N tile that have passed their check or committed. -/
def ntPassed (j : Job) (nt : Nat) : List Nat :=
  (j.nts.filter (fun x => x.nt == nt)).flatMap (fun x => x.done ++ x.checked)

/-- Commit the group of row i when all of it has passed; none: its output has no room yet. (DEDUCED, log 110) -/
def tryCommit (s : State) (v seq nt i : Nat) : Option State :=
  match findJob s v seq with
  | none => some s
  | some j =>
    let t := tileOf j.words
    let rows := (rowGroup j t i).filter (fun r => !(ntDoneRows j nt).contains r)
    if !rows.all (fun r => (ntPassed j nt).contains r) then some s
    else
      match j.nts.find? (fun x => x.nt == nt && rows.any (fun r => x.checked.contains r)) with
      | none => some s
      | some x =>
        let s := extend (extend s t.ostr) t.oscl
        if piecesFit s t.ostr (groupPlaces j t nt rows) && piecesFit s t.oscl (scalePlaces j t nt rows)
        then some (commitRows s v j t x rows) else none

/-- Rows pass their check: they wait for their groups, or commit. -/
def passRows (s : State) (v seq nt : Nat) (corr : Bool) (rows : List Nat) : Option State :=
  rows.foldl (fun (acc : Option State) i => match acc with
    | none => none
    | some s =>
      tryCommit (updJob s v seq (fun j => updNt j nt corr (fun x => { x with checked := x.checked ++ [i] }))) v seq nt i)
    (some s)

/-! ## Suspects (R369, R372) -/

/-- Suspects of a pass in which some row check fails, from the physical columns whose column checks fail: 67 is the array,
and with none it is column 64 (R369). -/
def suspects (cols : List Nat) : List Nat :=
  let c := cols.eraseDups
  if c.isEmpty then [64] else if c.length ≤ 2 then c else [67]

def strikeLim (s : State) : Nat := max 1 (fld s Reg.tchCtrl Fl.tchCtrl_STRIKES)
/-- The strike window in frames, which acts as 1 for 0 (R392). -/
def strikeWindow (s : State) : Nat := max 1 (fld s Reg.tchCtrl Fl.tchCtrl_WINDOW)

/-- A window that began in frame f is open: it closes WINDOW frames later (R372). -/
def windowOpen (s : State) (f : Nat) : Bool := decide ((frameNo s + 2 ^ 48 - f) % 2 ^ 48 < strikeWindow s)

/-- Strikes of a suspect in its current window (R372). -/
def strikesOf (s : State) (a c : Nat) : Nat :=
  let x := mapGet (0, 0) (arr s a).strikes c
  if windowOpen s x.2 then x.1 else 0

/-- One more strike of a suspect; the first begins its window (R372). -/
def addStrike (s : State) (a c : Nat) : State :=
  let n := strikesOf s a c
  let first := if n = 0 then frameNo s else (mapGet (0, 0) (arr s a).strikes c).2
  setArr s a { arr s a with strikes := tabSet (arr s a).strikes c (n + 1, first) }

def retry2 (s : State) : Bool := flag s Reg.tchCtrl Fl.tchCtrl_RETRY2

/-- The ladder skips step 1 when a suspect already holds all but one of its strikes (R370). -/
def firstStep (s : State) (a : Nat) (sus : List Nat) : Nat :=
  if retry2 s && sus.any (fun c => strikesOf s a c + 1 ≥ strikeLim s) then 2 else 1

/-- A failing row joins the ladder of its array and N tile. (DEDUCED, log 35) -/
def joinLadder (s : State) (v seq nt : Nat) (corr : Bool) (a row pass : Nat) (sus : List Nat) (det : Nat) (inj : Bool) :
    State :=
  updJob s v seq (fun j =>
    let j := updNt j nt corr (fun x => { x with failed := x.failed ++ [row] })
    if j.ladders.any (fun l => l.nt == nt && l.corr == corr && l.array == a) then
      { j with ladders := j.ladders.map (fun l =>
        if l.nt == nt && l.corr == corr && l.array == a then
          { l with rows := l.rows ++ [row], sus := (l.sus ++ sus).eraseDups, inj := l.inj || inj }
        else l) }
    else { j with ladders := j.ladders ++ [⟨nt, corr, [row], a, 0, none, sus.eraseDups, det, pass, inj⟩] })

/-! ## Repair (R373) -/

/-- Free spares of an array, column 65 first. -/
def freeSpares (s : State) (a : Nat) : List Nat :=
  let taken := (arr s a).spareReq.map (·.1)
  ((if flag s (Reg.tchSpare a) Fl.tchSpare_V65 then [] else [65]) ++
    (if flag s (Reg.tchSpare a) Fl.tchSpare_V66 then [] else [66])).filter (fun p => !taken.contains p)

/-- DETAIL1 of a ladder record. -/
def detail1 (sus : List Nat) (spare : Nat) : Nat :=
  let g (i : Nat) : Nat := match sus[i]? with | some c => if c < 67 then c else 0x7F | none => 0x7F
  g 0 + (g 1 <<< 8) + (spare <<< 16)

/-- Map a column onto a spare at the next tile boundary. (DEDUCED, log 102) -/
def mapSpare (s : State) (v : Nat) (j : Job) (a : Nat) (inj : Bool) (m : Nat × Nat) : State :=
  let x := arr s a
  let s := setArr s a { x with spareReq := x.spareReq ++ [m] }
  noteRec s { ErrRec.ofDet 0 0x06 with tenant := some j.tenant, seq := j.seq, vein := some v, lkind := 1,
                                       loc := a + (m.2 <<< 8), d1 := 0x7F + (0x7F <<< 8) + (m.1 <<< 16), inj := inj }

/-- An array leaves service: no new row enters it (R380). -/
def fenceArray (s : State) (a : Nat) (by_ : Option (Nat × Nat)) : State :=
  let m := fld s Reg.tchArrays Fl.tchArrays_INSERVICE
  let s := setFld s Reg.tchArrays Fl.tchArrays_INSERVICE (m - (if bit m a then 1 <<< a else 0))
  setArr s a { arr s a with fencing := some by_ }

/-- The end of a CLEAVE, if one asked for it. -/
def endCleave (s : State) (c : Option (Nat × Nat)) (code : Nat) : State :=
  match c with
  | none => s
  | some (v, q) => completeJob (if code = 0 then s else addCond s v q code) v q

/-- A ladder repairs an array that a CLEAVE is fencing: the CLEAVE ends with RESOURCE_BUSY and the array stays in service
(R381, R391). -/
def yieldCleave (s : State) (a : Nat) : State :=
  match (arr s a).fencing with
  | some (some c) =>
    let s := setArr s a { arr s a with fencing := none }
    let s := setFld s Reg.tchArrays Fl.tchArrays_INSERVICE (fld s Reg.tchArrays Fl.tchArrays_INSERVICE ||| (1 <<< a))
    endCleave s (some c) St.resourceBusy
  | _ => s

/-- Repair the suspects of an array: outcome 0 nothing to repair, 1 spared, 2 cleaved, 4 not repaired; the first spare
used. (DEDUCED, log 102) -/
def repair (s : State) (v : Nat) (j : Job) (a : Nat) (sus : List Nat) (inj : Bool) : Nat × Nat × State :=
  let free := freeSpares s a
  if sus.isEmpty then (0, 0x7F, s)
  else if flag s Reg.tchCtrl Fl.tchCtrl_AUTOSPARE && sus.all (· ≤ 64) && sus.length ≤ free.length then
    (1, free.headD 0x7F, (free.zip sus).foldl (fun s m => mapSpare s v j a inj m) (yieldCleave s a))
  else if flag s Reg.tchCtrl Fl.tchCtrl_AUTOCLEAVE then
    let s := fenceArray (yieldCleave s a) a none
    (2, 0x7F, setFld s Reg.tchArrays Fl.tchArrays_AUTO (fld s Reg.tchArrays Fl.tchArrays_AUTO ||| (1 <<< a)))
  else (4, 0x7F, s)

/-- The record of a ladder's outcome (R377). -/
def ladderRec (s : State) (v : Nat) (j : Job) (l : Ladder) (outcome spare status : Nat) : State :=
  let sus := l.sus
  recordErr s { ErrRec.ofDet (if outcome = 3 then 1 else 0) l.det with
    status := status, tenant := some j.tenant, seq := j.seq, vein := some v, lkind := 1,
    loc := l.array + ((match sus.head? with | some c => if c < 67 then c else 0x7F | none => 0x7F) <<< 8),
    d0 := l.pass % 4096 + ((maxOf [l.rows.headD 0] % 4096) <<< 16) + (l.step <<< 32) + (outcome <<< 36),
    d1 := detail1 sus spare, inj := l.inj, always := true, snap := false }

/-! ## ROW_DRAIN -/

/-- Has the row left the lanes: no item of it waits or runs? -/
def rowOut (x : NtSt) (row : Nat) : Bool :=
  x.lanes.all (fun l => l.queue.all (fun i => i.row != row) && (match l.cur with | some i => i.row != row | none => true))

/-- Does this N tile wait for the row on this array? -/
def rowPending (j : Job) (t : TileF) (x : NtSt) (a row : Nat) : Bool :=
  x.full && (ntRows j t x.nt x.corr).contains row && rowArray j t x.nt x.corr row == a &&
    !x.checked.contains row && !(ntDoneRows j x.nt).contains row && !x.failed.contains row && !x.voided.contains row && rowOut x row

/-- The command and N tile whose row drains. -/
def drainOf (s : State) (a row : Nat) : Option (Nat × Job × NtSt) :=
  (allJobs s).findSome? (fun p =>
    if (p.2.op == 1 || p.2.op == 2) && p.2.arrays.contains a then
      (p.2.nts.find? (fun x => rowPending p.2 (tileOf p.2.words) x a row)).map (fun x => (p.1, p.2, x))
    else none)

/-- Columns of the row check events of a row: those of its N tile's unmasked columns. -/
def rowCols (s : State) (j : Job) (x : NtSt) (a : Nat) : List Nat := usedCols s a ((tileOf j.words).ncols x.nt)

/-- The passes of the row checks of a row, one for each tile or chunk that it runs through (R365, R367, R368). -/
def checkSteps (j : Job) (t : TileF) (x : NtSt) : List (Nat × Nat) :=
  if x.sparse then (List.range t.passes).map (fun p => (p, 0)) else tileSteps j t x.corr

/-- The target of an injection is fenced, being fenced, or in a ladder (R390). -/
def injBusy (s : State) (a : Nat) : Bool :=
  !inService s a || (arr s a).fencing.isSome ||
    (allJobs s).any (fun p => p.2.ladders.any (fun l => l.array == a || (l.step == 2 && l.other == some a)))

/-- The injector that fires on an event of an array detector (R388, R390). -/
def arrayHit (s : State) (det a : Nat) (cols : List Nat) (v : Nat) (j : Job) (row : Option Nat) : Option Nat × State :=
  flintHit s det ⟨a, cols, some j.tenant, some v, row⟩ (injBusy s a)

/-- Logical columns of a row in the physical column c of an array. -/
def logOf (s : State) (a n c : Nat) : List Nat := (List.range n).filter (fun k => physCol s a (k % 64) == c)

/-- The CX of a column with a pattern XORed into its significand, as an error in its value (R389). -/
def cxError (t : TileF) (gs : List (List Term)) (col pat : Nat) : SumErr :=
  if t.exact then
    let d := passInt gs
    let m := if d.e < 0 then d.m else d.m * 2 ^ d.e.toNat
    ⟨col, ((BitVec.ofInt 64 m ^^^ BitVec.ofNat 64 pat).toInt) - (BitVec.ofInt 64 m).toInt, min d.e 0⟩
  else
    match passCx gs with
    | none => ⟨col, (pat : Int), -550⟩
    | some c =>
      let d : Int := ((c.sig ^^^ pat : Nat) : Int) - (c.sig : Int)
      ⟨col, if c.s then -d else d, (c.x : Int) - 550⟩

/-- A row check value with a pattern XORed into its significand, as an error in its value (R389). -/
def chkError (d : Dy) (pat : Nat) : SumErr :=
  let c := chkOf d
  let e : Int := ((c.sig ^^^ pat : Nat) : Int) - (c.sig : Int)
  ⟨64, if c.neg then -e else e, c.x⟩

/-- Flint on the CX values of a row, pass by pass (TCH_ROW): the errors that it makes (R388, R389). -/
def passInject (s : State) (v : Nat) (j : Job) (t : TileF) (x : NtSt) (a row : Nat) : List RowErr × State :=
  (checkSteps j t x).foldl (fun (acc : List RowErr × State) p =>
    let hitR := arrayHit acc.2 0x06 a (rowCols acc.2 j x a) v j (some row)
    match hitR.1 with
    | none => (acc.1, hitR.2)
    | some n =>
      let s := hitR.2
      let o := passOps s j t x row p.1 p.2
      let es := ((logOf s a (t.ncols x.nt) (injCol s n (rowCols s j x a))).take 1).map (fun c =>
        cxError t (pairGroups t p.2 o.a (o.cols.getD c [])) c (injPattern s n))
      -- in column 64 or a spare that carries it the row check value is hit
      if injPattern s n = 0 then (acc.1, s)
      else if es.isEmpty then (acc.1 ++ [⟨row, p.1, p.2, [], [chkError (rowCheckValue t p.2 o) (injPattern s n)], [], false⟩], s)
      else (acc.1 ++ [⟨row, p.1, p.2, es, [], [], false⟩], s)) ([], s)

/-- Flint on the special-value copies (0x08) or the duplicated drain arithmetic (0x09) of a row: the physical columns. -/
def dupInject (s : State) (det v : Nat) (j : Job) (x : NtSt) (a row : Nat) : List Nat × State :=
  let cols := rowCols s j x a
  let hitR := arrayHit s det a cols v j (some row)
  match hitR.1 with
  | none => ([], hitR.2)
  | some n => (if injPattern hitR.2 n = 0 then [] else [injCol hitR.2 n cols], hitR.2)

/-- An ECC event of a row, real or injected, is one event, and its record has INJ set where Flint took part (R375, R389,
R391). A double-bit error of the staging buffer is read again from Mica. -/
def eccNote (s : State) (v : Nat) (j : Job) (t : TileF) (x : NtSt) (a row det : Nat) (e : Ecc) : State :=
  let hitR := arrayHit s det a (rowCols s j x a) v j (some row)
  let s := hitR.2
  let inj := match hitR.1 with | some n => injPattern s n != 0 | none => false
  if e = .clean && !inj then s
  else
    let s := recordErr s { ErrRec.ofDet 0 det with tenant := some j.tenant, seq := j.seq, vein := some v, lkind := 1,
                                                   loc := a, inj := inj }
    if det = 0x05 && e = .double then touchNeeds s (wholeRowNeeds s j t row) (jobReader v j) else s

/-- A pass of a row of the checks has errors of its own in what an event shows; an error in a tile that the command does
not run through is none. (DEDUCED, log 19) -/
def ownErrs (j : Job) (t : TileF) (x : NtSt) (row : Nat) (flt : RowFault) : List RowErr :=
  if (flt.cxs.isEmpty && flt.check.isEmpty && flt.tally.isEmpty) || !(checkSteps j t x).contains (flt.pass, flt.sub)
  then [] else [⟨row, flt.pass, flt.sub, flt.cxs, flt.check, flt.tally, false⟩]

/-- Errors of one pass are one. -/
def joinErrs (es : List RowErr) : List RowErr :=
  es.foldl (fun acc e =>
    if acc.any (fun f => f.row == e.row && f.pass == e.pass && f.sub == e.sub) then
      acc.map (fun f => if f.row == e.row && f.pass == e.pass && f.sub == e.sub
        then { f with cxs := f.cxs ++ e.cxs, check := f.check ++ e.check, tally := f.tally ++ e.tally } else f)
    else acc ++ [e]) []

/-- The row checks of a row, pass by pass (R364 to R367). -/
def rowChecks (s : State) (j : Job) (t : TileF) (x : NtSt) (accs : List AccSt) (es : List RowErr) : List RowErr :=
  (joinErrs es).map (fun e => { e with fails := rowMismatch s j t x accs e })

/-- The column checks of a pass on an array: the physical columns that fail (R366, R369). rows: the rows that the array
ran, with their accumulators. -/
def passCols (s : State) (j : Job) (t : TileF) (x : NtSt) (a : Nat) (rows : List (Nat × List AccSt)) (p : Nat × Nat)
    (es : List RowErr) : List Nat :=
  (physOf (colMismatches s j t x rows p.1 p.2 (es.filter (fun e => e.pass == p.1 && e.sub == p.2)))).map (physCol s a)

/-- The suspects of the passes in which some row check fails (R369). -/
def passSuspects (s : State) (j : Job) (t : TileF) (x : NtSt) (a : Nat) (rows : List (Nat × List AccSt))
    (es : List RowErr) : List Nat :=
  ((checkSteps j t x).filter (fun p => es.any (fun e => e.pass == p.1 && e.sub == p.2 && e.fails))).flatMap (fun p =>
    suspects (passCols s j t x a rows p es))

/-- The accumulators that a row drains with: of a lane-mode tile its items' sums, else those that its tiles left. -/
def drainAccs (s : State) (j : Job) (t : TileF) (x : NtSt) (row : Nat) : List AccSt :=
  markOuter s j t x.nt row (if x.sparse then (laneRow s j t x row).accs
    else match x.accs.find? (fun p => p.1 == row) with
      | some p => p.2
      | none => [])

/-- The drain of an array takes rows' accumulators (R177, R188). -/
def putAccs (s : State) (v seq nt : Nat) (corr : Bool) (a : Nat) (rs : List (Nat × List AccSt)) : State :=
  updJob s v seq (fun j => updNt j nt corr (fun x =>
    { x with accs := x.accs.filter (fun p => !rs.any (fun r => r.1 == p.1)) ++ rs
             drained := x.drained.filter (fun p => !rs.any (fun r => r.1 == p.1)) ++ rs.map (fun r => (r.1, a)) }))

/-- Rows of a PRED command's normal pass that hold a miss take no further part (R131). -/
def voidNow (s : State) (v seq nt : Nat) (rows : List Nat) : State :=
  updJob s v seq (fun j => updNt j nt false (fun y => { y with voided := y.voided ++ rows }))

/-- The end of a row's drain: the correction pass may begin, the command may be done, its arrays may be given up. -/
def afterRow (s : State) (v seq : Nat) (t : TileF) : State :=
  match findJob s v seq with
  | none => s
  | some j =>
    let s := checkFin (toCorr s v j t) v seq
    match findJob s v seq with
    | some j => tryYield s v j
    | none => s

/-- Rows of an N tile on an array that neither have drained nor failed nor turned out void. -/
def rowsLeftOn (j : Job) (t : TileF) (x : NtSt) (a : Nat) : List Nat :=
  (ntRows j t x.nt x.corr).filter (fun i => rowArray j t x.nt x.corr i == a && !x.checked.contains i &&
    !(ntDoneRows j x.nt).contains i && !x.failed.contains i && !x.voided.contains i)

/-- The rows that an array ran of an N tile, with their accumulators. -/
def arrayRows (s : State) (j : Job) (t : TileF) (x : NtSt) (a : Nat) : List (Nat × List AccSt) :=
  ((ntRows j t x.nt x.corr).filter (fun i => rowArray j t x.nt x.corr i == a)).map (fun i => (i, drainAccs s j t x i))

/-- A column-only mismatch: its record, a strike, and the repair of a suspect that has become permanent (R369, R372). -/
def tallyStrike (s : State) (v : Nat) (j : Job) (a : Nat) (inj : Bool) (c : Nat) : State :=
  let s := addStrike (recordErr s { ErrRec.ofDet 0 0x07 with tenant := some j.tenant, seq := j.seq, vein := some v,
                                                             lkind := 1, loc := a + (c <<< 8), inj := inj }) a c
  if strikesOf s a c ≥ strikeLim s then (repair s v j a [c] inj).2.2 else s

/-- One pass's column checks on an array are complete: the pass's suspects where some row check failed, else a column-only
mismatch (R369). Flint may corrupt the tally-path result of a column (R389). -/
def classPass (v : Nat) (j : Job) (t : TileF) (x : NtSt) (a : Nat) (rows : List (Nat × List AccSt))
    (acc : List Nat × State) (p : Nat × Nat) : List Nat × State :=
  let s := acc.2
  let used := rowCols s j x a
  let hitR := arrayHit s 0x07 a used v j none
  let s := hitR.2
  let inj := match hitR.1 with | some n => [injCol s n used] | none => []
  let es := x.errs.filter (fun e => e.pass == p.1 && e.sub == p.2 && rows.any (fun r => r.1 == e.row))
  let cols := (passCols s j t x a rows p es ++ inj).eraseDups
  if es.any (·.fails) then (acc.1 ++ suspects cols, s)
  else (acc.1, cols.foldl (fun s c => tallyStrike s v j a (inj.contains c) c) s)

/-- The array of step 2: the lowest other array of the claim set that is in no ladder step; a command with one array
borrows the lowest other array in service (R371, R391). (DEDUCED, log 35) -/
def stepTwo (s : State) (j : Job) (l : Ladder) : Option Nat :=
  if j.arrays.length > 1 then
    j.arrays.find? (fun a => a != l.array && !(j.ladders.any (fun k =>
      (k.step ≤ 1 && k.array == a) || (k.step == 2 && k.other == some a))))
  else (arraysIn s).find? (fun a => a != l.array && !borrowed s a)

/-- A ladder of a command changes. -/
def setLadder (s : State) (v seq : Nat) (l : Ladder) : State :=
  updJob s v seq (fun j => { j with
    ladders := j.ladders.map (fun k => if k.nt == l.nt && k.corr == l.corr && k.array == l.array then l else k)
    served := match l.other with | some b => (j.served ++ [b]).eraseDups | none => j.served })

/-- Ladders that wait for an array of step 2 take one, in the order of their arrays (R371, R391). -/
def assignTwo (s : State) (v seq : Nat) : State :=
  (List.range 4).foldl (fun s a =>
    match findJob s v seq with
    | none => s
    | some j => match j.ladders.find? (fun l => l.array == a && l.step == 2 && l.other.isNone) with
      | none => s
      | some l => match stepTwo s j l with
        | some b => setLadder s v seq { l with other := some b }
        | none => s) s

/-- The last row of an array has drained: its column checks are classified pass by pass, and its ladder begins at the step
that its suspects allow (R369, R370). -/
def classify (s : State) (v seq nt : Nat) (corr : Bool) (a : Nat) : State :=
  match findJob s v seq with
  | none => s
  | some j => match j.nts.find? (fun y => y.nt == nt && y.corr == corr) with
    | none => s
    | some x =>
      let t := tileOf j.words
      if !(rowsLeftOn j t x a).isEmpty then s
      else
        let c := (checkSteps j t x).foldl (classPass v j t x a (arrayRows s j t x a)) ([], s)
        let s := c.2
        match j.ladders.find? (fun l => l.nt == nt && l.corr == corr && l.array == a && l.step == 0) with
        | none => s
        | some l =>
          let l := { l with sus := (l.sus ++ c.1).eraseDups }
          assignTwo (setLadder s v seq { l with step := firstStep s a l.sus }) v seq

/-- What the checks of a row show: the errors of its passes, the columns on which duplicates disagree, the detector that
a failure names first, and whether Flint took part. -/
structure RowShow where
  errs  : List RowErr
  dups  : List Nat
  det   : Option Nat
  inj   : Bool
  deriving DecidableEq, Repr

/-- The checks of a row (R364 to R368, R375): its row checks, the special-value copies, the duplicated drain arithmetic,
and an error of two bits in its accumulator entries. -/
def rowShow (s : State) (v : Nat) (j : Job) (t : TileF) (x : NtSt) (a row : Nat) (accs : List AccSt) (flt : RowFault) :
    RowShow × State :=
  let real := rowChecks s j t x accs (ownErrs j t x row flt)
  let ie := passInject s v j t x a row
  let both := rowChecks s j t x accs (ownErrs j t x row flt ++ ie.1)
  let spec := dupInject ie.2 0x08 v j x a row
  let dup := dupInject spec.2 0x09 v j x a row
  let phys (cs : List Nat) : List Nat := (physOf cs).map (physCol s a)
  let specs := phys flt.specDup ++ spec.1
  let dups := phys flt.drainDup ++ dup.1
  let det := if both.any (·.fails) then some 0x06 else if !specs.isEmpty then some 0x08 else if !dups.isEmpty then some 0x09
    else if flt.drainEcc = .double then some 0x04 else none
  (⟨both, specs ++ dups, det, (both.any (·.fails) && !real.any (·.fails)) || !spec.1.isEmpty || !dup.1.isEmpty⟩, dup.2)

/-- A row whose sums are complete meets its checks (R131, R177, R367, R370). A void row counts as a miss whatever its
checks show, once for each N tile. (DESIGN CHOICE, log 19) -/
def checkRow (s0 : State) (v : Nat) (j : Job) (t : TileF) (x : NtSt) (a row : Nat) (flt : RowFault) : State :=
  let accs := drainAccs s0 j t x row
  let s := eccNote (eccNote s0 v j t x a row 0x04 flt.drainEcc) v j t x a row 0x05 flt.talusEcc
  let shownR := rowShow s v j t x a row accs flt
  let shown := shownR.1
  let s := shownR.2
  let void := !x.corr && rowVoid s0 j t row
  let s := if void && !j.missed.contains (x.nt, row) then incFld s (Reg.shlMiss j.tenant) Fl.shlMiss_COUNT 1 else s
  let s := updJob s v j.seq (fun k =>
    let k := updNt k x.nt x.corr (fun y => { y with errs := y.errs ++ shown.errs })
    if void then { k with missed := (k.missed ++ [(x.nt, row)]).eraseDups } else k)
  match shown.det with
  | some det =>
    let pass := ((shown.errs.filter (·.fails)).map (·.pass)).headD flt.pass
    let sus := if shown.dups.length > 2 then [67] else shown.dups
    classify (joinLadder s v j.seq x.nt x.corr a row pass sus det shown.inj) v j.seq x.nt x.corr a
  | none =>
    if void then afterRow (classify (voidNow s v j.seq x.nt [row]) v j.seq x.nt x.corr a) v j.seq t
    else
      -- an error that no check finds stays in the sums; one that Flint made changes no result (R389)
      let real := (ownErrs j t x row flt).flatMap (·.cxs)
      let s := putAccs s v j.seq x.nt x.corr a [(row, errAccs accs real)]
      let s := updJob s v j.seq (fun k => updNt k x.nt x.corr (fun y => { y with checked := y.checked ++ [row] }))
      let s := classify s v j.seq x.nt x.corr a
      match tryCommit s v j.seq x.nt row with
      | none => s0
      | some s => afterRow s v j.seq t

/-- A row drains: the tile that its array still holds is complete, the split-K sums that come last have joined, and in a
PRED command the row has been read in every pass (R71, R131, R177). (DESIGN CHOICE, log 19) -/
def drainRow (s : State) (v : Nat) (j : Job) (x : NtSt) (a row : Nat) (flt : RowFault) : State :=
  let t := tileOf j.words
  let again (s : State) (k : State → Job → NtSt → State) : State :=
    match findJob s v j.seq with
    | none => s
    | some j => match j.nts.find? (fun y => y.nt == x.nt && y.corr == x.corr) with
      | none => s
      | some x => k s j x
  match closeTile s v j t x with
  | .waits s => s
  | .ended s => s
  | .done s => again s (fun s j x =>
    match (if t.psum && !x.summed then sumAux s v j t x else .done s) with
    | .waits s => s
    | .ended s => s
    | .done s => again s (fun s j x =>
      let ns := if t.pred && !x.corr then wholeRowNeeds s j t row else []
      match readNeeds s v j ns (fun s => needsBad s ns) id with
      | .waits s => s
      | .ended s => s
      | .done s => checkRow s v j t x a row flt))

/-- A linear command whose results go through the drains of an array: ELEMWISE or GRAD_EMIT. -/
def linearOn (s : State) (a : Nat) : Option (Nat × Job) :=
  (holdersOf s a).find? (fun p => (p.2.op == 4 || p.2.op == 0x15) && !p.2.done && !p.2.fin)

/-- ROW_DRAIN: a row's last addition reaches the drain. Where a linear command has the array, its results at hand go
through the duplicated drain arithmetic, which may disagree (R367, R375). -/
def execRowDrain (array : Fin 4) (row : Nat) (flt : RowFault) (s : State) : Host.Outcome State Fault Refusal :=
  .next (if !isRun s then s
    else match drainOf s array row with
    | none => match linearOn s array with
      | some (v, j) => if flt.drainDup.isEmpty then s else updJob s v j.seq (fun j => { j with dup := true })
      | none => s
    | some (v, j, x) => drainRow s v j x array row flt)

/-! ## The ladder (R370 to R372) -/

/-- Every row that the array takes of the ladder's N tile has drained. -/
def ladderReady (j : Job) (t : TileF) (l : Ladder) : Bool :=
  l.step ≥ 1 && j.nts.any (fun x => x.nt == l.nt && x.corr == l.corr && x.full &&
    (ntRows j t x.nt x.corr).all (fun i => rowArray j t x.nt x.corr i != l.array || x.checked.contains i ||
      x.done.contains i || x.failed.contains i || x.voided.contains i))

def dropLadder (s : State) (v seq : Nat) (l : Ladder) : State :=
  settleWaits (updJob s v seq (fun j => { j with
    ladders := j.ladders.filter (fun k => !(k.nt == l.nt && k.corr == l.corr && k.array == l.array)) }))

/-- The N tile of a ladder. -/
def ladderNt (j : Job) (l : Ladder) : Option NtSt := j.nts.find? (fun x => x.nt == l.nt && x.corr == l.corr)

/-- What a step of the ladder reads again from Mica: the rows that it runs, and every weight tile (R150, R371). -/
def ladderNeeds (s : State) (j : Job) (t : TileF) (x : NtSt) (l : Ladder) : List Need :=
  l.rows.flatMap (wholeRowNeeds s j t) ++
    (tileSteps j t x.corr).flatMap (fun p => weightNeeds s j t x.corr x.nt p.1 p.2) ++
    (if t.load || t.psum then [auxNeed j t x.nt] else [])

/-- The rows of a ladder that has passed on array b: a void row stays uncommitted, the others commit (R131, R371). An error
that no check found stays in a row's sums. -/
def ladderPass (s : State) (v : Nat) (j : Job) (l : Ladder) (b : Nat) (flts : List (Nat × RowFault)) : Option State :=
  match ladderNt j l with
  | none => none
  | some x =>
    let t := tileOf j.words
    let x := { x with tiles := [] }
    let void (i : Nat) : Bool := !l.corr && rowVoid s j t i
    let good := l.rows.filter (fun i => !void i)
    let rs := good.map (fun i => (i, errAccs (markOuter s j t l.nt i (tileRow s j t x i).accs)
      (ownErrs j t x i (mapGet RowFault.none flts i) |>.flatMap (·.cxs))))
    let s := dropLadder s v j.seq l
    let s := updJob s v j.seq (fun j => updNt j l.nt l.corr (fun x => { x with failed := x.failed.filter (fun i => !l.rows.contains i) }))
    let s := voidNow s v j.seq l.nt (l.rows.filter void)
    let s := putAccs s v j.seq l.nt l.corr b rs
    (passRows s v j.seq l.nt l.corr good).map (fun s =>
      afterRow (assignTwo (addCond s v j.seq St.okCorrected) v j.seq) v j.seq t)

/-- The ladder ends with CHECK_FAILED (R370). -/
def ladderFail (s : State) (v : Nat) (j : Job) (l : Ladder) : State :=
  let s := incFld s Reg.tchStat Fl.tchStat_FAILED 1
  endJob (ladderRec s v j l 3 0x7F St.checkFailed) v j.seq St.checkFailed

/-- The checks of a step of the ladder, whose rows ran again from Mica: does some row fail, and the suspects of its passes
(R367 to R370). -/
def stepShow (s : State) (j : Job) (t : TileF) (x : NtSt) (l : Ladder) (b : Nat) (flts : List (Nat × RowFault)) :
    Bool × List Nat :=
  let x := { x with tiles := [] }
  let rows := l.rows.map (fun i => (i, markOuter s j t l.nt i (tileRow s j t x i).accs))
  let es := rows.flatMap (fun r => rowChecks s j t x r.2 (ownErrs j t x r.1 (mapGet RowFault.none flts r.1)))
  let mine := flts.filter (fun f => l.rows.contains f.1)
  let dups := ((physOf (mine.flatMap (fun f => f.2.specDup ++ f.2.drainDup))).map (physCol s b)).eraseDups
  (es.any (·.fails) || !dups.isEmpty || mine.any (fun f => f.2.drainEcc == .double),
   passSuspects s j t x b rows es ++ (if dups.length > 2 then [67] else dups))

/-- The outcome of a ladder's step (R370 to R373); again: some row failed again, sus: the suspects that the step shows. -/
def ladderEnd (s : State) (v : Nat) (j : Job) (l : Ladder) (b : Nat) (again : Bool) (sus : List Nat)
    (flts : List (Nat × RowFault)) : State :=
  let a := l.array
  -- an array in the ladder is no target: the injectors that match see RESOURCE_BUSY (R390)
  let s1 := l.rows.foldl (fun s r => [0x06, 0x08, 0x09].foldl (fun s d =>
    (flintHit s d ⟨b, usedCols s b 64, some j.tenant, some v, some r⟩ true).2) s) s
  if l.step = 1 then
    let l := { l with sus := (l.sus ++ sus).eraseDups }
    if again then
      if !retry2 s then ladderFail s1 v j l
      else assignTwo (setLadder s1 v j.seq { l with step := 2 }) v j.seq
    else
      match ladderPass s1 v j l a flts with
      | none => s
      | some s2 =>
        let s2 := incFld s2 Reg.tchStat Fl.tchStat_STEP1 1
        let s2 := l.sus.foldl (fun s c => addStrike s a c) s2
        let (o, sp, s3) := repair s2 v j a (l.sus.filter (fun c => strikesOf s2 a c ≥ strikeLim s2)) l.inj
        ladderRec s3 v j l o sp St.okCorrected
  else if again then ladderFail s1 v j l
  else
    match ladderPass s1 v j l b flts with
    | none => s
    | some s2 =>
      let s2 := incFld s2 Reg.tchStat Fl.tchStat_STEP2 1
      let (o, sp, s3) := repair s2 v j a l.sus l.inj
      ladderRec s3 v j l o sp St.okCorrected

/-- A step of the ladder ends on array b, which has read its rows again: a poisoned word ends the command (R143, R371).
Errors of a single bit and of the staging buffer leave its result alone (R375). -/
def ladderStep (s : State) (v : Nat) (j : Job) (l : Ladder) (b : Nat) (flts : List (Nat × RowFault)) : State :=
  match ladderNt j l with
  | none => s
  | some x =>
    let t := tileOf j.words
    let ns := ladderNeeds s j t x l
    let n := ueCount s
    let s1 := touchNeeds s ns (jobReader v j)
    if !s1.poison.isEmpty && (needsBad s1 ns || l.rows.any (fun i => (tileRow s1 j t x i).poison)) then
      poisonJob s1 v j (ueCount s1 != n)
    else
      let s2 := l.rows.foldl (fun s i =>
        let f := mapGet RowFault.none flts i
        eccNote (eccNote s v j t x b i 0x04 f.drainEcc) v j t x b i 0x05 f.talusEcc) s1
      let shown := stepShow s2 j t x l b flts
      ladderEnd s2 v j l b shown.1 shown.2 flts

/-- LADDER_STEP_END: the step of an array's ladder ends, with the faults that its rows met. Step 2 ends on the array that it ran
on, once that array is free; with no other array in service there is none (R370, R371). (DEDUCED, log 35) -/
def execLadderStepEnd (array : Fin 4) (rows : List Nat) (flts : List RowFault) (s : State) : Host.Outcome State Fault Refusal :=
  let flts := rows.zip flts
  let here (p : Nat × Job) : Option (Nat × Job × Ladder) :=
    (p.2.ladders.find? (fun l => l.array == array.val && ladderReady p.2 (tileOf p.2.words) l)).map (fun l => (p.1, p.2, l))
  .next (match (allJobs s).findSome? here with
    | none => s
    | some (v, j, l) =>
      if l.step = 1 then ladderStep s v j l l.array flts
      else match l.other with
        | some b =>
          if (holdersOf s b).all (fun p => p.1 == v && p.2.seq == j.seq) then ladderStep s v j l b flts else s
        | none => if (arraysIn s).all (· == l.array) then ladderFail s v j l else assignTwo s v j.seq)

/-- STRIKE_WINDOW_END: the window of a suspect has closed, WINDOW frames after its first strike, and its strikes are
cleared (R372). -/
def execStrikeWindowEnd (array : Fin 4) (col : Nat) (s : State) : Host.Outcome State Fault Refusal :=
  .next (if windowOpen s (mapGet (0, 0) (arr s array).strikes col).2 then s
    else setArr s array { arr s array with strikes := mapDel col (arr s array).strikes })

end Sys2Proof.Machine
end

