-- ==== Sys2Proof/Machine/Sched.lean ====
section
/-! DEFINITION. The schedule engine (R356, R357): exact values, rounded once to FP32. -/

namespace Sys2Proof.Machine

/-- A schedule record. -/
structure SchedRec where
  kind    : Nat
  restart : Bool
  warm    : Nat
  period  : Nat
  vstart  : Nat
  vpeak   : Nat
  vend    : Nat
  gamma   : Nat
  step0   : Nat
  rsvd    : Bool
  deriving DecidableEq, Repr

def schedOf (bs : List Byte) : SchedRec :=
  let g (o n : Nat) : Nat := leNat ((bs.drop o).take n)
  ⟨g 0 1 % 4, bit (g 0 1) 2, g 4 4, g 8 4, g 12 4, g 16 4, g 20 4, g 24 4, g 28 5,
   g 0 1 / 8 != 0 || g 1 3 != 0 || g 33 15 != 0⟩

def nSched (s : State) : Nat := if s.sched.isEmpty then 0 else leNat (s.sched.take 1)

def schedRec (s : State) (id : Nat) : SchedRec := schedOf ((s.sched.drop (16 + 48 * id)).take 48)

/-- The largest power of two leaves a magnitude: the same value with an odd m. -/
def dyOdd : Nat → Dy → Dy
  | 0, d => d
  | n + 1, d => if d.m = 0 then ⟨0, 0⟩ else if d.m % 2 = 0 then dyOdd n ⟨d.m / 2, d.e + 1⟩ else d

/-- N / den rounded once to FP32 in RNE: the quotient to many bits and one sticky bit. -/
def roundQuot (n : Dy) (den : Nat) : Nat :=
  let k := 64 + Nat.log2 den
  let x := n.m.natAbs <<< k
  let q := 2 * (x / den) + b2n (x % den != 0)
  (convFlt pFp32 .rne false 0 (valOfDy ⟨if n.m < 0 then -(q : Int) else (q : Int), n.e - k - 1⟩)).1

def dyMulNat (a : Dy) (n : Nat) : Dy := ⟨a.m * n, a.e⟩

/-! Fixed point with 256 fraction bits for the cosine. -/

def fxOne : Nat := 1 <<< 256

/-- atan(1/k) by its series: n terms from the j-th on. -/
def atanInv (k : Nat) : Nat → Nat → Nat → Int → Int
  | 0, _, _, acc => acc
  | n + 1, j, pow, acc =>
    let t : Int := ((pow / (2 * j + 1) : Nat) : Int)
    atanInv k n (j + 1) (pow / (k * k)) (if j % 2 = 0 then acc + t else acc - t)

/-- π in fixed point (Machin). -/
def fxPi : Nat := (16 * atanInv 5 60 0 (fxOne / 5) 0 - 4 * atanInv 239 20 0 (fxOne / 239) 0).toNat

/-- Taylor terms of sine (first = 1) or cosine (first = 0) of x ≤ 1. -/
def trig (x : Nat) : Nat → Nat → Nat → Int → Int
  | 0, _, _, acc => acc
  | n + 1, k, t, acc =>
    trig x n (k + 2) (t * x / fxOne * x / fxOne / ((k + 1) * (k + 2)))
      (if k / 2 % 2 = 0 then acc + (t : Int) else acc - (t : Int))

/-- cos(π · m / p) for m ≤ p, within 2^-200. (DEDUCED, log 20) -/
def fxCos (m p : Nat) : Int :=
  let c (a b : Nat) : Int :=   -- cos(π a / b), a / b ≤ 1/2
    if 4 * a ≤ b then trig (fxPi * a / b) 30 0 fxOne 0
    else
      let x := fxPi * (b - 2 * a) / (2 * b)
      trig x 30 1 x 0
  if 2 * m ≤ p then c m p else -(c (p - m) p)

/-- cos(π · m / p) where it is rational: in halves (Niven). -/
def niven (m p : Nat) : Option Int :=
  if m = 0 then some 2 else if 3 * m = p then some 1 else if 2 * m = p then some 0
  else if 3 * m = 2 * p then some (-1) else if m = p then some (-2) else none

/-! Where 200 bits do not decide the rounding of a cosine it is decided exactly: cos(π k / p) for k = 1, …, p − 1 are the
roots of the Chebyshev polynomial U of degree p − 1, and those above a number are counted by the sign changes of U_0, …,
U_(p−1) there. -/

/-- Sign changes among k of the polynomials at a / b, from the one with value w on; v: the one before it. Each is scaled by
the power of b that makes it whole. -/
def chebChanges (a bb : Int) : Nat → Int → Int → Bool → Nat → Nat
  | 0, _, _, _, n => n
  | k + 1, v, w, pos, n =>
    let z := 2 * a * w - bb * v
    if w = 0 then chebChanges a bb k w z pos n
    else
      let q := decide (0 < w)
      chebChanges a bb k w z q (if q == pos then n else n + 1)

/-- cos(π · m / p) > a / b, for 0 < m < p and 0 < b: at least m of the roots lie above. -/
def cosAbove (m p : Nat) (a b : Int) : Bool :=
  if b ≤ a then false else if a ≤ -b then true else decide (m ≤ chebChanges a (b * b) (p - 1) 1 (2 * a) true 0)

/-- The FP32 code in place i of the rising order of finite codes; place 0 is zero. -/
def fpCode (i : Int) : Nat := if i < 0 then 2 ^ 31 + (-i).toNat else i.toNat

/-- A finite FP32 code in units of 2^-150. -/
def fpInt (c : Nat) : Int :=
  let d := valDy (fltVal pFp32 c)
  if d.e < -150 then 0 else d.m * 2 ^ (d.e + 150).toNat

/-- The first place from lo to hi above whose upper boundary the value does not lie. -/
def firstPlace (above : Int → Bool) : Nat → Int → Int → Int
  | 0, lo, _ => lo
  | k + 1, lo, hi =>
    if lo ≥ hi then lo
    else
      let mid := (lo + hi) / 2
      if above mid then firstPlace above k (mid + 1) hi else firstPlace above k lo mid

/-- VEND + (VPEAK − VEND) · (1 + cos(π · m / p)) / 2 rounded to FP32, for 0 < m < p and an irrational cosine: no such value
lies on a boundary. -/
def cosRound (vp ve m p : Nat) : Nat :=
  let d := fpInt vp - fpInt ve
  -- is the value above t / 2, in units of 2^-150?
  let over_ (t : Int) : Bool :=
    let q := t - 2 * fpInt ve - d
    if 0 < d then cosAbove m p q d else !cosAbove m p (-q) (-d)
  let i := firstPlace (fun i => over_ (fpInt (fpCode i) + fpInt (fpCode (i + 1)))) 33 (-0x7F7FFFFF) 0x7F7FFFFF
  if i = 0 && !over_ 0 then 2 ^ 31 else fpCode i

/-- sched_value of R357 as an FP32 code. (DEDUCED, log 20) -/
def schedValue (r : SchedRec) (step : Nat) : Nat :=
  let d (c : Nat) : Dy := dyOdd 300 (valDy (fltVal pFp32 c))
  let vs := d r.vstart
  let vp := d r.vpeak
  let ve := d r.vend
  if serialCmp r.step0 step 40 = 2 || serialCmp r.step0 step 40 = 3 then roundQuot vs 1
  else
    let n := (step + 2 ^ 40 - r.step0) % 2 ^ 40
    if n < r.warm then roundQuot (dyAdd (dyMulNat vs r.warm) (dyMulNat (dySub vp vs) n)) r.warm
    else
      let m := n - r.warm
      let m := if r.restart then m % max 1 r.period else if r.kind != 3 then min m r.period else m
      match r.kind with
      | 0 => roundQuot vp 1
      | 1 => roundQuot (dyAdd (dyMulNat vp r.period) (dyMulNat (dySub ve vp) m)) (max 1 r.period)
      | 2 =>
        let dv := dySub vp ve
        match niven m r.period with
        | some h => roundQuot (dyAdd ve (dyScale ⟨dv.m * (2 + h), dv.e⟩ (-2))) 1
        | none =>
          let c := fxCos m r.period
          let at_ (x : Int) : Nat := roundQuot (dyAdd ve (dyMul dv ⟨(fxOne : Int) + x, -257⟩)) 1
          let lo := at_ (c - (1 <<< 56 : Nat))
          let hi := at_ (c + (1 <<< 56 : Nat))
          if lo = hi then lo else cosRound r.vpeak r.vend m r.period
      | _ =>
        let g := d r.gamma
        let x := dyMul vp ⟨g.m ^ m, g.e * m⟩
        roundQuot (if dyLt x ve then ve else x) 1

/-- The value of a schedule at a step. -/
def schedAt (s : State) (id step : Nat) : Nat := schedValue (schedRec s id) step

/-- What a SCHED body must obey (R356). -/
def schedRecBad (r : SchedRec) : Bool :=
  let inf (c : Nat) : Bool := bits c 23 8 == 0xFF
  r.rsvd || inf r.vstart || inf r.vpeak || inf r.vend || inf r.gamma ||
    (r.period = 0 && (r.kind = 1 || r.kind = 2 || r.restart)) ||
    (r.kind = 3 && (bit r.gamma 31 || r.gamma = 0 || r.gamma > 0x3F800000))

def schedBodyBad (bs : List Byte) : Bool :=
  let n := leNat (bs.take 1)
  n < 1 || n > 8 || bs.length != 16 + 48 * n || ((bs.drop 1).take 15).any (· != 0) ||
    (List.range n).any (fun i => schedRecBad (schedOf ((bs.drop (16 + 48 * i)).take 48)))

end Sys2Proof.Machine
end

