-- ==== Sys2Proof/Machine/Linear.lean ====
section
/-! DEFINITION. ELEMWISE (R189, R213), GRAD_EMIT with its records and the update port (R220, R341 to R353), and the
completion of a command (R15). -/

namespace Sys2Proof.Machine

/-! ## ELEMWISE -/

/-- Where the packing groups of n elements from element p begin, and their bytes (R36). -/
def ewBytes (w p n : Nat) : Nat × Nat :=
  let f := opFmtOf w
  let g := packGrp f.fmt f.pack
  let l := max 1 g.pos.length
  (p / l * g.bytes, if n = 0 then 0 else (cdiv (p + n) l - p / l) * g.bytes)

def ewScl (w p n : Nat) : Nat × Nat :=
  let b := max 1 (blockSize (opFmtOf w).scale)
  (p / b, if n = 0 then 0 else cdiv (p + n) b - p / b)

/-- The codes of elements p to p + n from the bytes of their groups. -/
def ewCodes (o : OpFmt) (p n : Nat) (bs : List Byte) : List Nat :=
  let i := p % max 1 (packGrp o.fmt o.pack).pos.length
  ((unpackRow o.fmt o.pack (i + n) bs).drop i).take n

/-- The value of an operand element: unpacked and imported, its block scale applied (R37, R167, R189). -/
def ewVal (o : OpFmt) (c : Nat) (ks : Option Nat) : Val × Nat :=
  let (c, fl) := if o.ocp then ocpImport o.fmt o.istrict c else (c, 0)
  let v := codeVal o.fmt c
  let fl := fl ||| snanFlags v
  let v := if mxInt8 o then valScale v (-6) else v
  match ks with
  | none => (v, fl)
  | some k => if k = 255 then (.nan false, fl) else (valScale v ((k : Int) - 127), fl)

/-- Operand elements p to p + n. -/
def ewOperand (s : State) (w st scl pos spos p n : Nat) : List (Val × Nat) × Bool :=
  let o := opFmtOf w
  let (a, l) := ewBytes w p n
  let (bs, bad) := readRange s st (pos + a) l
  let cs := ewCodes o p n bs
  if o.scale = 0 then (cs.map (fun c => ewVal o c none), bad)
  else
    let (b, m) := ewScl w p n
    let (sb, bad2) := readRange s scl (spos + b) m
    ((cs.zip (List.range n)).map (fun ci => ewVal o ci.1 (some (sb.getD ((p + ci.2) / blockSize o.scale - b) 0).toNat)), bad || bad2)

/-- The result before rounding (R82, R189): value, flags, and whether a NaN was generated. -/
def ewResult (op : Nat) (rm : RMode) (a b : Val × Nat) : Pre × Nat :=
  let two (r : Val × Nat) : Pre × Nat :=
    (⟨r.1, valIsNan r.1 && !valIsNan a.1 && !valIsNan b.1⟩, a.2 ||| b.2 ||| r.2)
  match op with
  | 1 => two (valAdd rm a.1 b.1)
  | 2 => two (valMul a.1 b.1)
  | 3 => two (valMax a.1 b.1)
  | 4 => two (valMin a.1 b.1)
  | _ => (⟨a.1, false⟩, a.2)

/-- What elements p to p + n read. -/
def ewNeeds (j : Job) (e : EwF) (p n : Nat) : List Need :=
  let one (w st scl pos spos : Nat) : List Need :=
    let (a, l) := ewBytes w p n
    [(st, pos + a, l)] ++ (if (opFmtOf w).scale = 0 then [] else let (b, m) := ewScl w p n; [(scl, spos + b, m)])
  one e.w1 e.src1 e.s1scl j.aPos j.aScl ++ (if e.two then one e.w2 e.src2 e.s2scl j.bPos j.bScl else [])

/-- The activity of the elements that a linear command reads, 64 on each clock (R189, R258). (DEDUCED, log 24) -/
def measureLinear (s : State) (st : Nat) (f : Fmt) (p : Nat) (cs : List Nat) : State :=
  (cs.zip (List.range cs.length)).foldl (fun s c => measure s st ((p + c.2) % 64) (fmtBits f) [c.1]) s

def ewMeasure (s : State) (j : Job) (e : EwF) (p n : Nat) : State :=
  let one (s : State) (w st pos : Nat) : State :=
    let (a, l) := ewBytes w p n
    measureLinear s st (opFmtOf w).fmt p (ewCodes (opFmtOf w) p n (readRange s st (pos + a) l).1)
  let s := one s e.w1 e.src1 j.aPos
  if e.two then one s e.w2 e.src2 j.bPos else s

/-- Elements whose results have one scale: a cold unit, an output block, or one (R181, R187, R189). -/
def ewBlock (j : Job) (e : EwF) : Nat :=
  let o := outFmtOf e.ow
  if e.ewop = 5 || o.scale = 0 then 1 else if coldMode j e.scsrc then 256 else max 1 (blockSize o.scale)

/-- The elements that results p to p + n depend on: from, and how many. -/
def ewSpan (j : Job) (e : EwF) (p n : Nat) : Nat × Nat :=
  let b := ewBlock j e
  (p / b * b, min e.count (cdiv (p + n) b * b) - p / b * b)

/-- Where results p to p + n go: their bytes, and the scale bytes of the blocks that begin among them. -/
def ewPlaces (j : Job) (e : EwF) (p n : Nat) : List (Nat × Nat × Nat) :=
  if e.ewop = 5 then []
  else
    let (a, l) := ewBytes e.ow p n
    let b := max 1 (blockSize (outFmtOf e.ow).scale)
    [(e.dst, j.oPos + a, l)] ++
      (if (outFmtOf e.ow).scale = 0 then [] else [(e.dscl, j.osPos + cdiv p b, cdiv (p + n) b - cdiv p b)])

/-- Can results p to p + n be formed and written now? -/
def ewFits (s : State) (j : Job) (e : EwF) (p n : Nat) : Bool :=
  let (q, m) := ewSpan j e p n
  (ewNeeds j e q m).all (needMet s) && (ewPlaces j e p n).all (fun w => writable s w.1 w.2.1 w.2.2)

/-- How many results can go on now: to the end of a unit of 256, or fewer where a half of a buffer ends; no packing group
is divided (R36, R189). -/
def ewSizes (j : Job) (e : EwF) : List Nat :=
  let m := min (256 - j.prog % 256) (e.count - j.prog)
  [m] ++ [128, 64, 32, 16, 8, 4].filter (· < m)

/-- Results p to p + n are formed from the elements that they depend on, and commit (R189). -/
def ewUnit (s : State) (v : Nat) (j : Job) (e : EwF) (n : Nat) : State :=
  let p := j.prog
  let o := outFmtOf e.ow
  let ues := ueCount s
  let (q, m) := ewSpan j e p n
  let s := touchNeeds s (ewNeeds j e q m) (jobReader v j)
  let (xa, badA) := ewOperand s e.w1 e.src1 e.s1scl j.aPos j.aScl q m
  let (xb, badB) := if e.two then ewOperand s e.w2 e.src2 e.s2scl j.bPos j.bScl q m
    else (List.replicate m (.fin false 0 0, 0), false)
  if badA || badB then poisonJob s v j (ueCount s != ues)
  else
    let s := ewMeasure s j e p n
    let res := (xa.zip xb).map (fun ab => ewResult e.ewop (outRm o) ab.1 ab.2)
    let pres := res.map (·.1)
    let mine {α : Type} (l : List α) : List α := (l.drop (p - q)).take n
    let am := (mine pres).foldl (fun a p => amaxMax a (amaxEl p.x)) none
    let rfl_ := (mine res).foldl (fun f r => f ||| r.2) 0
    let s :=
      if e.ewop = 5 then setFlags s j.tenant rfl_
      else
        let b := blockSize o.scale
        let sc (i : Nat) : Option Nat :=
          if o.scale = 0 then none
          else if e.scsrc then
            if j.hValid then some (trackedScale j.hMax o.fmt (fld s Reg.numCtrl Fl.numCtrl_MARGIN))
            else some (blockScale o.fmt (pres.map (·.x)))
          else some (blockScale o.fmt (((pres.drop (i / b * b)).take b).map (·.x)))
        let els := (pres.zip (List.range m)).map (fun pi =>
          let ix := q + pi.2
          let rnd := if outRm o == .sr then srOf s j.step e.tensor (ix >>> 32) (ix % 2 ^ 32) else 0
          convertEl o (sc pi.2) rnd pi.1)
        let s := setFlags s j.tenant ((mine els).foldl (fun f x => f ||| x.fl) rfl_)
        let nans := ((mine els).zip (List.range n)).filterMap (fun x =>
          if x.1.nan then some ⟨j.arrays.headD 0, (p + x.2) % 2 ^ 32, (p + x.2) >>> 32, x.1.gen⟩ else none)
        let s := trapNans s v j e.dst e.tensor nans
        let s := if coldMode j e.scsrc && p % 256 = 0 then addCond (coldUnit s e.tensor) v j.seq St.coldScale else s
        match ewPlaces j e p n with
        | [] => s
        | d :: ds =>
          let s := writeRange s d.1 d.2.1 (packRow o.fmt ((mine els).map (·.code)))
          ds.foldl (fun s d => writeRange s d.1 d.2.1 ((List.range d.2.2).map (fun k =>
            let i := (cdiv p b + k) * b - q
            if ((els.drop i).take b).any (·.ff) then 255 else BitVec.ofNat 8 ((sc i).getD 127)))) s
    let at_ := (ewSpan j e (p + n) 0).1
    updJob s v j.seq (fun j => { j with
      prog := p + n, any := true, rerun := false, amax := if e.track then amaxMax j.amax am else j.amax,
      holds := [(0, e.src1, j.aPos + (ewBytes e.w1 at_ 0).1)] ++
        (if (opFmtOf e.w1).scale = 0 then [] else [(0, e.s1scl, j.aScl + (ewScl e.w1 at_ 0).1)]) ++
        (if e.two then [(0, e.src2, j.bPos + (ewBytes e.w2 at_ 0).1)] ++
          (if (opFmtOf e.w2).scale = 0 then [] else [(0, e.s2scl, j.bScl + (ewScl e.w2 at_ 0).1)]) else []) })

/-- DRAIN_DUP on a range or record of a linear command, real or by Flint: it is rerun once, and ends with CHECK_FAILED
where it disagrees again (R367, R375). -/
def linearDup (s : State) (v : Nat) (j : Job) : State × Bool :=
  let a := j.arrays.headD 0
  let hitR := arrayHit s 0x09 a [] v j none
  let inj := match hitR.1 with | some n => injPattern hitR.2 n != 0 | none => false
  let s := updJob hitR.2 v j.seq (fun j => { j with dup := false })
  let r := { ErrRec.ofDet 0 0x09 with tenant := some j.tenant, seq := j.seq, vein := some v, lkind := 1, loc := a, inj := inj }
  if !inj && !j.dup then (s, true)
  else if j.rerun then
    (endJob (recordErr s { r with sev := 1, status := St.checkFailed }) v j.seq St.checkFailed, false)
  else (addCond (updJob (recordErr s r) v j.seq (fun j => { j with rerun := true })) v j.seq St.okCorrected, false)

/-- Process an ELEMWISE as far as its operands and its output let it; a preempted filler command gives its arrays up
between two ranges (R189, R225). -/
def pumpEw : Nat → State → Nat → Nat → State
  | 0, s, _, _ => s
  | k + 1, s, v, seq =>
    match findJob s v seq with
    | none => s
    | some j =>
      let e := ewOf j.words
      if j.done || j.fin || j.op != 4 || !isRun s || j.arrays.isEmpty then s
      else if j.prog ≥ e.count then finJob s v seq
      else if j.preempt then tryYield s v j
      else
        let s := if e.ewop = 5 then s else
          let s := extend s e.dst
          if (outFmtOf e.ow).scale = 0 then s else extend s e.dscl
        let sizes := ewSizes j e
        let needs (n : Nat) : List Need := ewNeeds j e (ewSpan j e j.prog n).1 (ewSpan j e j.prog n).2
        match sizes.find? (ewFits s j e j.prog) with
        | none => starve s (needs (sizes.getLastD 0))
        | some n =>
          let s := wakeAll s j.arrays
          if !allFull s j.arrays then s
          else
            let goR := linearDup s v j
            let s := goR.1
            let go := goR.2
            if !go then s
            else pumpEw k (((ewUses e).map (·.1)).foldl (fun s i => extend s i) (ewUnit (fed s (needs n)) v j e n)) v seq

def pumpJob (s : State) (v : Nat) (j : Job) : State :=
  if j.op = 4 then pumpEw ((ewOf j.words).count + 2) s v j.seq else s

/-- Linear commands go on as data arrive and buffers empty. -/
def pumpAll (s : State) : State := (allJobs s).foldl (fun s p => pumpJob s p.1 p.2) s

/-- ELEMWISE (R213). (DEDUCED, log 37) -/
def atHeadElemwise (v : Fin 16) (pick : Fin 4) (s : State) : Host.Outcome State Fault Refusal :=
  .next (issueWith s v 0x04 ewCheck (fun s v c =>
    let e := ewOf c.words
    let seq := cmdSeq c.words
    claimThen s v c e.share pick (fun _ => false) (fun s as =>
      let s := startIssue s v c
      let h := histGet s e.tensor
      let s := updJob s v seq (fun j => { j with
        arrays := as, hValid := e.scsrc && h.valid && decide (h.count ≥ 1), hMax := if e.scsrc then h.hmax else 0 })
      let len (w : Nat) : Nat := (ewBytes w 0 e.count).2
      let slen (w : Nat) : Nat := if (opFmtOf w).scale = 0 then 0 else (ewScl w 0 e.count).2
      let s := reserve s v seq e.src1 (len e.w1) (fun j p => { j with aPos := p })
      let s := reserve s v seq e.s1scl (slen e.w1) (fun j p => { j with aScl := p })
      let s := if e.two then
          reserve (reserve s v seq e.src2 (len e.w2) (fun j p => { j with bPos := p })) v seq e.s2scl (slen e.w2)
            (fun j p => { j with bScl := p })
        else s
      let o := outFmtOf e.ow
      let s := if e.ewop = 5 then s
        else
          let n := rowBytes o.fmt 0 e.count
          let m := if o.scale = 0 then 0 else cdiv e.count (blockSize o.scale)
          let s := reserve s v seq e.dst n (fun j p => { j with oPos := p })
          let s := reserve s v seq e.dscl m (fun j p => { j with osPos := p })
          match findJob s v seq with
          | some j =>
            let ends := [(e.dst, j.oPos + n)] ++ (if m = 0 then [] else [(e.dscl, j.osPos + m)])
            setVein s v { vein s v with wrote := (vein s v).wrote ++ ends }
          | none => s
      let s := match findJob s v seq with
        | some j =>
          let hs := (ewNeeds j e 0 0).map (fun x => (0, x.1, x.2.1))
          pumpJob (updJob s v seq (fun j => { j with holds := hs })) v j
        | none => s
      afterIssue (refreshVein s v) v)))

/-! ## GRAD_EMIT -/

/-- What a GRAD_EMIT sends: its payload, or one marker record (R350, R352). -/
def emitKind (e step : Nat) : Nat :=
  if pgtFrozen e then 1 else if pgtVoid e && pgtMarkstep e == step % 2 ^ 40 then 2 else 0

def gradCheck (s : State) (v : Nat) (ws : List W64) : Option Nat :=
  let g := gradOf ws
  let e := pgtRaw s g.pgroup
  orFail (firstFail [(pgtValid e && g.off + g.count > pgtShardlen e, St.shapeIllegal)])
    (orFail (usesBad s v [(g.src, 0)]) (orFail (pgtBad s g.pgroup)
      (firstFail [(g.schedsrc && pgtSchedid e ≥ nSched s, St.stateIllegal)])))

/-- GRAD_EMIT (R220, R350, R352). (DEDUCED, log 37) -/
def atHeadGradEmit (v : Fin 16) (pick : Fin 4) (s : State) : Host.Outcome State Fault Refusal :=
  .next (issueWith s v 0x15 gradCheck (fun s v c =>
    let g := gradOf c.words
    let seq := cmdSeq c.words
    let e := pgtRaw s g.pgroup
    let kind := emitKind e (vStep s v)
    claimThen s v c g.share pick (fun _ => false) (fun s as =>
      let sched := if g.schedsrc then schedAt s (pgtSchedid e) (vStep s v) else g.sched
      if kind = 1 && !pgtZmark e then issueNow s v c (fun s => frozenSkip s v seq)
      else
        let s := startIssue s v c
        let s := updJob s v seq (fun j => { j with arrays := as, dscW := [e, kind, sched] })
        let s := if kind = 1 then frozenSkip s v seq else if kind = 2 then staleCond s v seq
          else
            let s := reserve s v seq g.src (ewBytes g.sw 0 g.count).2 (fun j p => { j with aPos := p })
            updJob s v seq (fun j => { j with holds := [(0, g.src, j.aPos)] })
        afterIssue (refreshVein s v) v)))

/-- Codes of the source elements p to p + n. -/
def gradCodes (s : State) (j : Job) (g : GradF) (p n : Nat) : List Nat :=
  (List.range n).map (fun i => packedCode s g.src j.aPos (opFmtOf g.sw).fmt (p + i))

def gradNeed (j : Job) (g : GradF) (p n : Nat) : Need :=
  let w := fmtBits (opFmtOf g.sw).fmt
  (g.src, j.aPos + w * p / 8, cdiv (w * (p + n)) 8 - w * p / 8)

/-- A record of the emit under way: its chunk's bounds, and whether it is a marker. -/
structure GradRecD where
  part   : Nat
  first  : Nat
  n      : Nat
  last   : Bool
  marker : Bool
  deriving DecidableEq, Repr

/-- Header and payload of a record, padded to whole beats (R343). -/
def gradRecord (s : State) (v : Nat) (j : Job) (g : GradF) (d : GradRecD) (payload : List Byte) : List Byte :=
  let e := j.dscW.getD 0 0
  let kind := j.dscW.getD 1 0
  let acc := pgtStaleacc e && pgtMarkstep e == j.step % 2 ^ 40
  let flags := b2n (kind = 1) + (if d.last then 0 else 2) + 4 * b2n acc + 8 * b2n (kind = 2)
  let h := leBytes 2 0x4752 ++ leBytes 1 1 ++ leBytes 1 flags ++ leBytes 2 g.pgroup ++
    leBytes 2 (if acc then pgtGenbwd e else pgtGen e) ++ leBytes 6 (g.off + d.first) ++
    leBytes 2 (if acc then pgtGen e else 0) ++ leBytes 4 (if d.marker then 0 else d.n) ++ leBytes 5 j.step ++
    leBytes 1 (j.tenant % 4) ++ leBytes 2 g.pw ++ leBytes 4 (j.dscW.getD 2 0) ++ leBytes 4 g.gscale ++
    leBytes 2 (stratum s) ++ leBytes 2 0 ++ leBytes 4 j.seq ++ leBytes 4 d.part ++ leBytes 4 payload.length ++
    leBytes 4 0 ++ leBytes 4 (if payload.isEmpty then 0 else crc32c payload)
  let r := h ++ leBytes 4 (crc32c h) ++ payload
  let _ := v
  r ++ List.replicate ((128 - r.length % 128) % 128) 0

/-- Elements of a payload, converted (R344). -/
def gradEls (s : State) (j : Job) (g : GradF) (first : Nat) (cs : List Nat) : List (Option Nat × OutEl) :=
  let o := outFmtOf g.pw
  let f := opFmtOf g.sw
  let vs := cs.map (fun c => (ewVal f c none).1)
  (vs.zip (List.range vs.length)).map (fun x =>
    let sc := if o.scale = 0 then none else some (blockScale o.fmt ((vs.drop (x.2 / 32 * 32)).take 32))
    let ix := g.pgroup * 2 ^ 42 + g.off + first + x.2
    let rnd := if outRm o == .sr then srOf s j.step (g.pgroup % 1024) (ix >>> 32) (ix % 2 ^ 32) else 0
    (sc, convertEl o sc rnd ⟨x.1, false⟩))

def gradPayload (g : GradF) (els : List (Option Nat × OutEl)) : List Byte :=
  let o := outFmtOf g.pw
  packRow o.fmt (els.map (·.2.code)) ++
    (if o.scale = 0 then []
     else (List.range (cdiv els.length 32)).map (fun k =>
       if ((els.drop (32 * k)).take 32).any (·.2.ff) then 255
       else BitVec.ofNat 8 (((els.getD (32 * k) (none, ⟨0, false, false, true, 0, false⟩)).1).getD 127)))

/-- Every element of the chunk is a zero code (R346). -/
def chunkZero (g : GradF) (cs : List Nat) : Bool :=
  let f := opFmtOf g.sw
  cs.all (fun c => valIsZero (ewVal f c none).1)

/-- Effects of a payload's commit: the tenant's flags and the trap (R344). -/
def gradCommit (s : State) (v : Nat) (j : Job) (g : GradF) (first : Nat) (cs : List Nat)
    (els : List (Option Nat × OutEl)) : State :=
  let f := opFmtOf g.sw
  let s := measureLinear s g.src f.fmt first cs
  let fl := cs.foldl (fun a c => a ||| (ewVal f c none).2) 0
  let s := setFlags s j.tenant (els.foldl (fun a x => a ||| x.2.fl) fl)
  let nans := (els.zip (List.range els.length)).filterMap (fun x =>
    let ix := g.pgroup * 2 ^ 42 + g.off + first + x.2
    if x.1.2.nan then some ⟨j.arrays.headD 0, ix % 2 ^ 32, (ix >>> 32) % 2 ^ 32, x.1.2.gen⟩ else none)
  trapNans s v j 0 (g.pgroup % 1024) nans

/-- Beats of a byte list. -/
def beatsOf (bs : List Byte) : List (List Byte) :=
  (List.range (bs.length / 128)).map (fun i => (bs.drop (128 * i)).take 128)

/-- Send as many beats of a record as there are credits for; UPD_SOR marks the first (R341, R414). What has begun to leave is
kept as it committed (R347). (DEDUCED, log 113) -/
def sendBeats (s : State) (v : Nat) (j : Job) (bytes : List Byte) (last : Bool) (n : Nat) : State :=
  let bs := beatsOf bytes
  let cred := fld s Reg.numUpdStat Fl.numUpdStat_CREDITS
  let k := min cred (bs.length - j.beat)
  let s := setFld s Reg.numUpdStat Fl.numUpdStat_CREDITS (cred - k)
  let s := emits s (((bs.zip (List.range bs.length)).drop j.beat |>.take k).map (fun b => Out.update (b.2 == 0) b.1))
  if j.beat + k < bs.length then updJob s v j.seq (fun j => { j with beat := j.beat + k, payload := bytes })
  else
    let s := incFld s Reg.numUpdCnt Fl.numUpdCnt_RECORDS 1
    let g := gradOf j.words
    let s := updJob s v j.seq (fun j => { j with
      beat := 0, payload := [], prog := j.prog + 1, fin := last, any := true, rerun := false,
      holds := if j.holds.isEmpty then [] else [(0, g.src, (gradNeed j g n 0).2.1)] })
    let s := extend s g.src
    match findJob s v j.seq with
    | some j => tryYield s v j
    | none => s

/-- The record that a GRAD_EMIT sends next. -/
def gradNext (j : Job) (g : GradF) : GradRecD :=
  let rl := pgtRowlen (j.dscW.getD 0 0)
  if j.dscW.getD 1 0 != 0 then ⟨0, 0, 0, true, true⟩
  else
    let first := j.prog * rl
    let n := min rl (g.count - first)
    ⟨j.prog, first, n, first + n ≥ g.count, false⟩

/-- One record, or one more part of it: a record that has begun goes on as it committed, whatever its source holds now
(R347). (DEDUCED, log 113) -/
def gradSend (s : State) (v : Nat) (j : Job) : State :=
  let g := gradOf j.words
  let d := gradNext j g
  if j.beat != 0 then sendBeats s v j j.payload d.last (d.first + d.n)
  else if d.marker then sendBeats s v j (gradRecord s v j g d []) true 0
  else
    let need := gradNeed j g d.first d.n
    if !needMet s need then starve s [need]
    else
    let ues := ueCount s
    let s := touchNeeds s [need] (jobReader v j)
    if (readRange s need.1 need.2.1 need.2.2).2 then poisonJob s v j (ueCount s != ues)
    else
      let cs := gradCodes s j g d.first d.n
      let omitted := pgtSparse (j.dscW.getD 0 0) && chunkZero g cs
      if omitted && !d.last then
        let s := incFld (measureLinear (fed s [need]) g.src (opFmtOf g.sw).fmt d.first cs) Reg.numUpdCnt Fl.numUpdCnt_OMIT 1
        updJob s v j.seq (fun j => { j with prog := j.prog + 1, holds := [(0, g.src, (gradNeed j g (d.first + d.n) 0).2.1)] })
      else
        let cred := fld s Reg.numUpdStat Fl.numUpdStat_CREDITS
        if cred = 0 then s
        else if omitted then
          let s := incFld (measureLinear (fed s [need]) g.src (opFmtOf g.sw).fmt d.first cs) Reg.numUpdCnt Fl.numUpdCnt_OMIT 1
          sendBeats s v j (gradRecord s v j g { d with n := 0, marker := true } []) true (d.first + d.n)
        else
          let goR := linearDup s v j
          let s := goR.1
          let go := goR.2
          if !go then s
          else
            let els := gradEls s j g d.first cs
            let s := gradCommit (fed s [need]) v j g d.first cs els
            sendBeats s v j (gradRecord s v j g d (gradPayload g els)) d.last (d.first + d.n)

/-- The GRAD_EMIT of a vein that sends: the first in flight (R345). -/
def emitJob (s : State) (v : Nat) : Option Job :=
  (vein s v).jobs.find? (fun j => j.op == 0x15 && !j.done && !j.fin)

/-- GRAD_RECORD_SEND: a record whose payload has committed leaves (R341, R345, R347). -/
def execGradRecordSend (v : Fin 16) (s : State) : Host.Outcome State Fault Refusal :=
  .next (match emitJob s v with
    | none => s
    | some j =>
      if s.updStop then endJob s v j.seq St.endpointError
      else if j.preempt && j.beat = 0 then tryYield s v j
      else if !isRun s || j.arrays.isEmpty ||
          fld s Reg.numUpdStat Fl.numUpdStat_CREDITS = 0 && (gradNext j (gradOf j.words)).last ||
          (allJobs s).any (fun p => p.2.beat != 0 && !(p.1 == v.val && p.2.seq == j.seq)) then s
      else
        let s := wakeAll s j.arrays
        if !allFull s j.arrays then s else gradSend s v j)

/-! ## The update port -/

/-- The sink reports an error: no further beat leaves, and every command with a record to send ends (R342, R362).
(DEDUCED, log 112) -/
def updError (s : State) (inj : Bool) : State :=
  let s := setFlag { s with updStop := true } Reg.numUpdStat Fl.numUpdStat_ERR true
  let es := (List.range 16).filterMap (fun v => (emitJob s v).map (fun j => (v, j)))
  let s := match (es.find? (fun p => p.2.beat != 0)).orElse (fun _ => es.head?) with
    | none => recordErr s { ErrRec.ofDet 1 0x0E with inj := inj }
    | some (v, j) =>
      recordErr s { ErrRec.ofDet 1 0x0E with status := St.endpointError, tenant := some j.tenant, seq := j.seq,
                                             vein := some v, inj := inj }
  es.foldl (fun s p => endJob s p.1 p.2.seq St.endpointError) s

/-- UPD_CREDIT_GRANT: beats granted on UPD_CRGNT; grants beyond 4,095 are discarded (R341). -/
def execUpdCreditGrant (n : Nat) (s : State) : Host.Outcome State Fault Refusal :=
  if !pxRuns s then .next s
  else
  let hitR := flint s 0x0E (InjSel.ofUnit 0xFF) false
  let hit := hitR.1
  let s := hitR.2
  if hit then .next (updError s true)
  else
    let c := fld s Reg.numUpdStat Fl.numUpdStat_CREDITS + n
    let s := setFld s Reg.numUpdStat Fl.numUpdStat_CREDITS (min c 4095)
    .next (if c > 4095 then setFlag s Reg.numUpdStat Fl.numUpdStat_CROVF true else s)

/-- UPD_ERR: the sink reports an error and the port stops (R342). -/
def execUpdErr (s : State) : Host.Outcome State Fault Refusal := .next (if pxRuns s then updError s false else s)

/-! ## COMMAND_COMPLETE -/

/-- COMMAND_COMPLETE: a command all of whose results have committed completes (R15). -/
def execCommandComplete (v : Fin 16) (seq : W32) (s : State) : Host.Outcome State Fault Refusal :=
  .next (match findJob s v seq.toNat with
    | none => s
    | some j =>
      let s := if j.op = 0x1C && !j.done then calEnd s v j else pumpJob s v j
      match findJob s v seq.toNat with
      | some j => if j.fin && !j.done then closeJob s v seq.toNat else s
      | none => s)

end Sys2Proof.Machine
end

