-- ==== Sys2Proof/Machine/StreamEv.lean ====
section
/-! DEFINITION. Stream engines at the Deep ports and on the links (R144 to R154, R413, R414), multicast groups (R155 to
R158), posts that arrive (R160), remote Mica writes and their replies (R292), and routed messages in transit (R294). -/

namespace Sys2Proof.Machine

/-! ## Places of a stream -/

/-- Bytes of the outside sequence land at their places; lines: the 64-byte lines of the burst that are poisoned (R144,
R145, R414). -/
def land (s : State) (i p : Nat) (bs : List Byte) (lines : List Nat) : State :=
  let n := bs.length
  if direct s i then
    let s := putAt s i p bs
    let s := setStrm s i { strm s i with chunks := fillChunks (strm s i).chunks p n }
    if lines.isEmpty then s
    else (List.range n).foldl (fun s k => if lines.contains (k / 64) then
      match posAddr s i (p + k) with | some a => poisonAt s a | none => s
      else s) s
  else
    turnOut (setStrm s i { strm s i with turn := (strm s i).turn ++ (bs.zip (List.range n)).map (fun b =>
      (fifoPos s i (p + b.2), b.1, lines.contains (b.2 / 64))) }) i

/-- The stream has room up to here; a turn unit takes the whole of a block that has begun. -/
def roomEnd (s : State) (i : Nat) : Nat :=
  let x := strm s i
  match x.chunks.getLast?, curSeq x with
  | some c, some r =>
    let e := c.start + c.len
    if e > r.start then (if direct s i then e else turnCeil s i e) else x.asked
  | _, _ => x.asked

/-- Bytes that their producer has closed, from the bytes already sent onward; of a turned stream the whole blocks in its
turn unit (R144, R149, R178). -/
def closedEnd (s : State) (i : Nat) : Nat :=
  let x := strm s i
  if (desc s i).turn then
    match x.turn.getLast? with | some b => turnFloor s i (b.1 + 1) | none => x.asked
  else x.chunks.foldl (fun e c => if c.start ≤ e && e < c.start + c.len && c.filled ≥ c.len then c.start + c.len else e)
    x.asked

/-! ## Deep ports -/

def portBurst (s : State) (p : Nat) : Nat := 64 <<< bits (s.dpMode.getD p 0) 0 3
def portPoison (s : State) (p : Nat) : Bool := bit (s.dpMode.getD p 0) 4

/-- The stream whose request a response answers. -/
def tagOwner (s : State) (p t : Nat) (out : Bool) : Option (Nat × Req) :=
  s.streams.findSome? (fun kx =>
    let d := desc s kx.1
    if d.isDeep && d.isOutbound == out then (kx.2.outst.find? (fun r => r.port = p && r.tag = t)).map (fun r => (kx.1, r))
    else none)

/-- The next piece of the outside sequence, within one contiguous run (R148). -/
def pieceLen (s : State) (i limit most : Nat) : Nat :=
  let d := desc s i
  let x := strm s i
  match curSeq x with
  | none => 0
  | some r => min (min most (d.len0 - (x.asked - r.start) % d.len0)) (limit - x.asked)

/-- Outside address of the byte at a position. A turned read names the address of the first byte that it brings, and as
many bytes as a plain read would. (DESIGN CHOICE, log 126) -/
def outAddr (s : State) (i p : Nat) (turned : Bool) : Nat :=
  let d := desc s i
  match seqAt (strm s i) p with
  | none => 0
  | some r => (d.addr r.xbase (if turned then turnPos d (p - r.start) else p - r.start)).toNat

/-- Outside address of the stream's next byte. (DESIGN CHOICE, log 126) -/
def nextAddr (s : State) (i : Nat) (turned : Bool) : Nat := outAddr s i (strm s i).asked turned

def askedMore (s : State) (i n : Nat) (r : Req) : State :=
  let x := strm s i
  setStrm s i { x with asked := x.asked + n, outst := x.outst ++ [r], rot := x.rot + 1 }

/-- Do one step after another while they say to go on, at most so many. -/
def repeatWhile (f : State → State × Bool) : Nat → State → State
  | 0, s => s
  | k + 1, s =>
    match f s with
    | (t, true) => repeatWhile f k t
    | (t, false) => t

/-- The weight row at a position of a stream belongs to a group that the latched mask of a PRED command skips: the
position where the row ends (R130). -/
def maskedAt (s : State) (i p : Nat) : Option Nat :=
  (allJobs s).findSome? (fun vj =>
    let j := vj.2
    let t := tileOf j.words
    if j.op != 1 || !t.pred || t.wstr != i || j.corr || j.done || p < j.bPos || p ≥ j.bPos + t.wLen then none
    else
      let q := p - j.bPos
      let r := q % t.wTileB / t.wRowB
      if bit (skipBits j t false (q / t.wTileB / t.subs.length % t.passes)) (r / 16)
      then some (p - q % t.wTileB % t.wRowB + t.wRowB) else none)

/-- Does the mask of some command leave rows of the stream out? The root of a group brings every row, which its members
receive (R157). (DEDUCED, log 120) -/
def maskUsed (s : State) (i : Nat) : Bool :=
  let d := desc s i
  d.kind == 0 && !d.mc &&
    (allJobs s).any (fun vj => vj.2.op == 1 && (tileOf vj.2.words).pred && (tileOf vj.2.words).wstr == i)

/-- The FIFO position of the byte that is asked for at a position: the same, unless a turn unit turns the stream (R144,
R145). -/
def askedPos (s : State) (i p : Nat) : Nat := if direct s i then p else fifoPos s i p

/-- The next n positions are weight rows that are not fetched: the stream passes over them (R130). -/
def passOver (s : State) (i n : Nat) : State :=
  let x := strm s i
  let p := askedPos s i x.asked
  checkEnd (setStrm s i { x with
    asked := x.asked + n, skip := x.skip ++ [(p, n)], chunks := fillChunks x.chunks p n }) i

/-- Bytes of a masked row that follow each other in the outside sequence: one element where a turn unit turns them, and
otherwise those up to the row's end. -/
def maskedRun (s : State) (i limit e : Nat) : Nat :=
  if direct s i then min e limit - (strm s i).asked else min (1 <<< (desc s i).esz) (limit - (strm s i).asked)

/-- One read request: the state, and whether another may follow (R148). Weight rows that a mask skips are passed over
(R130). -/
def askOne (i limit : Nat) (s : State) : State × Bool :=
  let d := desc s i
  let x := strm s i
  let ps := deepPorts s d
  let mu := maskUsed s i
  match (if mu && x.asked < limit then maskedAt s i (askedPos s i x.asked) else none) with
  | some e => (passOver s i (maskedRun s i limit e), sState s i == Ss.running)
  | none =>
    match ps[x.rot % max 1 ps.length]? with
    | none => (s, false)
    | some p =>
      let n := pieceLen s i limit (portBurst s p)
      let n := if mu then ((List.range n).takeWhile (fun k => (maskedAt s i (askedPos s i (x.asked + k))).isNone)).length else n
      match freeTag s p with
      | none => (s, false)
      | some t =>
        if n = 0 then (s, false)
        else
          let tu := d.turn && direct s i
          let s := emit s (.deepRead p t (nextAddr s i tu) (n - 1) tu (if tu then d.esz else 0))
          (askedMore s i n ⟨p, t, x.asked, n⟩, true)

/-- Weight rows that were not fetched and that a correction pass needs: first position and length (R132). -/
def skipDue (s : State) (i : Nat) : Option (Nat × Nat) :=
  (strm s i).skip.find? (fun k => (allJobs s).any (fun vj =>
    let j := vj.2
    let t := tileOf j.words
    j.op == 1 && t.wstr == i && j.corr && !j.done && j.bPos < k.1 + k.2 && k.1 < j.bPos + t.wLen))

/-- One read request for them. -/
def refetchOne (i : Nat) (s : State) : State × Bool :=
  let d := desc s i
  let x := strm s i
  let ps := deepPorts s d
  match skipDue s i, ps[x.rot % max 1 ps.length]? with
  | some (q, len), some p =>
    match freeTag s p, seqAt x q with
    | some t, some r =>
      let o := askedPos s i q
      let n := min (min len (portBurst s p)) (d.len0 - (o - r.start) % d.len0)
      let n := if direct s i then n else min n (1 <<< d.esz)
      let tu := d.turn && direct s i
      let s := emit s (.deepRead p t (outAddr s i o tu) (n - 1) tu (if tu then d.esz else 0))
      (setStrm s i { x with
        outst := x.outst ++ [⟨p, t, o, n⟩], rot := x.rot + 1
        skip := (x.skip.erase (q, len)) ++ (if n < len then [(q + n, len - n)] else []) }, true)
    | _, _ => (s, false)
  | _, _ => (s, false)

/-- Read requests up to a limit, over the ports in rotation (R148). (DESIGN CHOICE, log 41) -/
def askReads (k : Nat) (s : State) (i limit : Nat) : State := repeatWhile (askOne i limit) k s

/-- A stream that reads Mica. -/
def streamReader (s : State) (i : Nat) : Reader := ⟨none, some (sTenant s i), 0, St.micaPoison, true⟩

/-- The next n bytes of an outbound stream are read: those of a turned one when its turn unit takes them. -/
def touchOut (s : State) (i n : Nat) : State :=
  if !memArmed s || (desc s i).turn then s
  else touchStream s i (strm s i).asked n (streamReader s i)

/-- The turn unit of an outbound stream takes what it can (R144). -/
def turnFill (s : State) (i : Nat) : State :=
  let (p, n) := turnRange s i
  turnIn (if n = 0 || !memArmed s then s else touchStream s i p n (streamReader s i)) i

/-- Bytes p to p + n of the outside sequence of an outbound stream, cut before the line of a poisoned word (R143). -/
def outAt (s : State) (i p n : Nat) : List Byte :=
  if (desc s i).turn then
    let bs := (List.range n).map (fun k => ((strm s i).turn.find? (fun b => b.1 == fifoPos s i (p + k))).getD (0, 0, false))
    let clean := (bs.takeWhile (fun b => !b.2.2)).length
    (bs.take (if clean < n then clean / 64 * 64 else n)).map (·.2.1)
  else
    let as := (List.range n).map (fun k => (posAddr s i (p + k)).getD 0)
    (as.takeWhile (fun a => !s.poison.any (fun w => w / 4 = a / 64))).map (micaByte s)

/-- The next n bytes of an outbound stream as they leave. -/
def outBytes (s : State) (i n : Nat) : List Byte := outAt s i (strm s i).asked n

def poisonHalt (s : State) (i : Nat) : State := haltStream s i St.micaPoison

/-- One write request of an OUT_DEEP stream: the state, and whether another may follow. -/
def sendDeepOne (i limit : Nat) (s : State) : State × Bool :=
  let x := strm s i
  let ps := deepPorts s (desc s i)
  match ps[x.rot % max 1 ps.length]? with
  | none => (s, false)
  | some p =>
    let n := pieceLen s i limit (portBurst s p)
    match freeTag s p with
    | none => (s, false)
    | some t =>
      if n = 0 then (s, false)
      else
        let s := touchOut s i n
        let bs := outBytes s i n
        if bs.isEmpty then (poisonHalt s i, false)
        else
          let s := emit s (.deepWrite p t (nextAddr s i false) bs)
          (countBytes (askedMore s i bs.length ⟨p, t, x.asked, bs.length⟩) i bs.length, true)

/-- Write requests of an OUT_DEEP stream up to a limit. (DESIGN CHOICE, log 41) -/
def sendDeep (k : Nat) (s : State) (i limit : Nat) : State := repeatWhile (sendDeepOne i limit) k s

/-! ## Remote Mica writes -/

/-- The bytes of a request have been accepted at the destination. -/
def ackPos (s : State) (i p : Nat) : State :=
  let x := strm s i
  extend (checkEnd (setStrm s i { x with outst := x.outst.filter (fun r => r.pos != p) }) i) i

/-- A stream waits with a message that no link serves yet (R294). -/
def heldBack (s : State) (i : Nat) : Bool := s.transit.any (fun r => r.stream == some i)

/-- A WRITE enters the list of those that wait for a reply. -/
def noteWrite (s : State) (i l : Nat) (h : RoutedHdr) (p : Nat) : State :=
  { s with writes := s.writes ++ [⟨i, h.dst, h.tenant, h.offset, p, h.lenM1 + 1, l⟩] }

/-- One message of an OUT_LINK stream to a target block: the state, and whether another may follow (R154, R292, R294).
(DESIGN CHOICE, log 42) -/
def sendRemoteOne (i limit : Nat) (s : State) : State × Bool :=
  let d := desc s i
  let x := strm s i
  let off := nextAddr s i false
  let hop := nextLink s d.xstratum 2 none
  let most := match hop with | .via l => maxPayload s l | _ => 256
  let n := pieceLen s i limit (most - off % 64)
  if n = 0 || heldBack s i then (s, false)
  else
    let s := touchOut s i n
    let bs := outBytes s i n
    if bs.isEmpty then (poisonHalt s i, false)
    else
      let n := bs.length
      let h : RoutedHdr := ⟨d.xstratum, stratum s, sTenant s i, off, n - 1⟩
      let p := x.asked
      if d.xstratum = stratum s then
        if inTenant s (sTenant s i) off n then
          let s := micaWrite s off bs
          let s := setStrm s i { strm s i with asked := p + n }
          (countBytes s i n, true)
        else (haltStream s i St.stateIllegal, false)
      else
        match hop with
        | .fail => (haltStream s i St.linkDown, false)
        | .wait =>
          let s := { s with transit := s.transit ++ [⟨4, h, bs, none, none, some i⟩] }
          (countBytes (askedMore s i n ⟨6, 0, p, n⟩) i n, false)
        | .via l =>
          let s := sendRouted s l ⟨4, h, bs, none, none, some i⟩
          let s := noteWrite s i l h p
          (countBytes (askedMore s i n ⟨l, 0, p, n⟩) i n, true)

/-- Messages of an OUT_LINK stream to a target block. -/
def sendRemote (k : Nat) (s : State) (i limit : Nat) : State := repeatWhile (sendRemoteOne i limit) k s

/-! ## Multicast groups -/

def mcDown (s : State) (g : Nat) : List Nat :=
  (List.range 6).filter (fun l => bit (fld s (Reg.stmMcast g) Fl.stmMcast_DOWN) l)
def mcMember (s : State) (g : Nat) : Bool := flag s (Reg.stmMcast g) Fl.stmMcast_MEMBER
def mcRoot (s : State) (g : Nat) : Bool := flag s (Reg.stmMcast g) Fl.stmMcast_ROOT
def mcConsume (s : State) (g : Nat) : Bool := flag s (Reg.stmMcast g) Fl.stmMcast_CONSUME

/-- The running stream that receives, or sends, for a group. -/
def mcStream (s : State) (g : Nat) (send : Bool) : Option Nat :=
  (List.range 64).find? (fun i =>
    let d := desc s i
    sState s i == Ss.running && d.mc && d.group == g && (d.kind == 1) != send)

/-- Positions a root stream has sent to its group, and positions it could have sent. -/
def mcFrom (s : State) (i : Nat) : Nat := if (desc s i).isDeep then (strm s i).mcSent else (strm s i).asked
def mcReady (s : State) (i : Nat) : Nat := if (desc s i).isDeep then arrived s i else closedEnd s i

/-- Parcels from the present one onward that a credit of the sequence allows: parcel numbers compare by serial order
(R9, R292). -/
def creditAhead (x : McSt) (c : Option (Nat × Nat)) : Nat :=
  match c with
  | some (q, n) => if q = x.sq && serialCmp x.parcel n 24 == 1 then (n + 2 ^ 24 - x.parcel) % 2 ^ 24 else 0
  | none => 0

/-- Parcels from the present one onward that a forwarding link has credited. -/
def linkCredit (x : McSt) (l : Nat) : Nat := creditAhead x ((x.creds.find? (fun c => c.1 == l)).map (·.2))

/-- Room of the member's own stream in parcels from the present one onward: whole parcels, and for a landing buffer its
whole sequence (R157). (DEDUCED, log 47) -/
def ownCredit (s : State) (g : Nat) : Nat :=
  let x := mcg s g
  match mcStream s g false with
  | none => 0
  | some i =>
    let room := roomEnd s i - (strm s i).asked - x.queue.length
    let rest := seqEndPos (strm s i) - (strm s i).asked - x.queue.length
    if (desc s i).landing && rest != 0 && room ≥ rest then cdiv (rest + x.fill) 4096 else (room + x.fill) / 4096

/-- Credit that a member may return: its own, if it consumes, and every forwarding link's. (DEDUCED, log 47) -/
def treeCredit (s : State) (g : Nat) : Nat :=
  let x := mcg s g
  let own := if mcConsume s g then [ownCredit s g] else []
  match own ++ (mcDown s g).map (linkCredit x) with
  | [] => 0
  | c :: cs => cs.foldl min c

/-- Data for the group on one link, cut to the payload that the link takes. -/
def mcOnLink (s : State) (l : Nat) (h : McHdr) (bs : List Byte) : State :=
  let most := maxPayload s l
  let n := cdiv bs.length most
  (List.range n).foldl (fun s k =>
    sendMcdata s l h.group h.root h.parcel (h.first + k * (most / 64)) (h.last && k + 1 == n) h.sq
      ((bs.drop (k * most)).take most)) s

/-- Sequences of a root that every forwarding link has acknowledged: credit for the following sequence is the
acknowledgement (R154). (DESIGN CHOICE, log 127) -/
def mcAck (s : State) (g : Nat) : State :=
  let x := mcg s g
  if (mcDown s g).all (fun l => match x.creds.find? (fun c => c.1 == l) with | some (_, q, _) => q == x.sq | none => false)
  then
    (List.range 64).foldl (fun s i =>
      let d := desc s i
      if d.kind == 3 && d.mc && d.group == g && (strm s i).outst.any (fun r => r.tag != x.sq) then
        let y := strm s i
        extend (checkEnd (setStrm s i { y with outst := y.outst.filter (fun r => r.tag == x.sq) }) i) i
      else s) s
  else s

/-- The root has sent n bytes of a stream; at the end of its sequence the count moves on. -/
def mcSentMore (s : State) (g i n : Nat) : State :=
  let x := mcg s g
  let y := strm s i
  let p := mcFrom s i
  let s := if (desc s i).isDeep then setStrm s i { y with mcSent := p + n }
    else countBytes (setStrm s i { y with asked := p + n, outst := y.outst ++ [⟨6, x.sq, p, n⟩] }) i n
  let s :=
    if p + n ≥ seqEndPos y then
      mcAck (setMcg s g { x with stream := none, sq := (x.sq + 1) % 16, parcel := 0, fill := 0 }) g
    else
      let f := x.fill + n
      setMcg s g { x with stream := some i, parcel := (x.parcel + f / 4096) % 2 ^ 24, fill := f % 4096 }
  extend (checkEnd s i) i

/-- MC_PARCEL_SEND (R157): the root sends what it has of the next parcel that the tree has credited. A turned IN_DEEP
stream sends its bytes as they lie in Mica, turned. (DESIGN CHOICE, log 152) -/
def execMcParcelSend (group : Fin 64) (s : State) : Host.Outcome State Fault Refusal :=
  .next (
    let g := group.val
    let x := mcg s g
    match (match x.stream with | some i => some i | none => mcStream s g true) with
    | none => s
    | some i =>
      let ls := mcDown s g
      if !mcRoot s g || sState s i != Ss.running ||
          !ls.all (fun l => linkActive s l && carries s l 3 && linkCredit x l != 0) then s
      else
        let p := mcFrom s i
        let e := seqEndPos (strm s i)
        let n := min (min (mcReady s i) e - p) (4096 - x.fill)
        let n := if p + n < e then n / 64 * 64 else n
        let s := if (desc s i).turn && (desc s i).isOutbound then s else touchStream s i p n (streamReader s i)
        let (bs, bad) := readRange s i p n
        let clean := ((List.range (cdiv n 64)).takeWhile (fun k => !(readRange s i (p + 64 * k) (min 64 (n - 64 * k))).2)).length
        let bs := if (desc s i).isOutbound then outAt s i p n else if bad then bs.take (64 * clean) else bs
        if n = 0 then s
        else if bs.isEmpty then poisonHalt s i
        else
          let h : McHdr := ⟨g, stratum s, x.parcel, x.fill / 64, p + bs.length ≥ e, x.sq⟩
          let s := setMcg s g { x with stallTicks := 0 }
          mcSentMore (ls.foldl (fun s l => mcOnLink s l h bs) s) g i bs.length)

/-- MC_CREDIT_GRANT (R157): a member returns credit upstream. -/
def execMcCreditGrant (group : Fin 64) (s : State) : Host.Outcome State Fault Refusal :=
  .next (
    let g := group.val
    let x := mcg s g
    let up := fld s (Reg.stmMcast g) Fl.stmMcast_UPLINK
    let n := treeCredit s g
    let upto := (x.parcel + n) % 2 ^ 24
    if !mcMember s g || mcRoot s g || n ≤ creditAhead x x.sentUp || !linkActive s up || !carries s up 3 then s
    else sendMccred (setMcg s g { x with sentUp := some (x.sq, upto) }) up g x.sq ((upto + 2 ^ 24 - 1) % 2 ^ 24))

/-- A root has parcels to send and lacks credit (R158). -/
def mcStarved (s : State) (g : Nat) : Bool :=
  let x := mcg s g
  mcRoot s g && (match (match x.stream with | some i => some i | none => mcStream s g true) with
    | none => false
    | some i => sState s i == Ss.running && mcFrom s i < mcReady s i && (mcDown s g).any (fun l => linkCredit x l == 0))

/-- MC_STALL (R158): no credit for MCTO ticks. -/
def execMcStall (group : Fin 64) (blocker : Nat) (s : State) : Host.Outcome State Fault Refusal :=
  .next (
    let g := group.val
    let a := Reg.stmMcast g
    let lim := fld s Reg.stmCtrl Fl.stmCtrl_MCTO
    if mcStarved s g && lim != 0 && (mcg s g).stallTicks ≥ lim && !flag s a Fl.stmMcast_STALLED then
      notice (setFld (setFlag s a Fl.stmMcast_STALLED true) a Fl.stmMcast_BLOCKER blocker) Unit.stm
    else s)

/-- Place what waits at a consuming member as far as its stream has room (R157). (DEDUCED, log 48) -/
def placeQueue : Nat → State → Nat → State
  | 0, s, _ => s
  | k + 1, s, g =>
    let x := mcg s g
    match mcStream s g false with
    | none => s
    | some i =>
      let s := extend s i
      let p := (strm s i).asked
      let n := min x.queue.length (roomEnd s i - p)
      if n = 0 then s
      else
        let s := setMcg s g { x with queue := x.queue.drop n }
        let s := land s i p (x.queue.take n) []
        let s := setStrm s i { strm s i with asked := p + n }
        placeQueue k (extend (checkEnd (countBytes s i n) i) i) g

/-! ## Messages that arrive on links -/

/-- A malformed or unexpected flit (R291). -/
def badMsg (s : State) (l : Nat) (inj : Bool) : State :=
  let s := incFld s (Reg.xlLnkCnt l) Fl.xlLnkCnt_PROTO 1
  let s := setFlag s (Reg.xlLnkStat l) Fl.xlLnkStat_BADMSG true
  recordErr s { ErrRec.ofDet 1 0x12 with lkind := 2, loc := l, inj := inj }

/-- A message on a channel of a link: only ACTIVE carries messages, and only on the channels of its mode (R289, R291,
R299). -/
def onChannel (s : State) (l vc : Nat) (go : State → State) : State :=
  if !linkActive s l then s else if !carries s l vc then badMsg s l false else go s

/-- A message of a type that its receiver consumes at once: it leaves the receive buffer (R289). (DEDUCED, log 134) -/
def onLink (s : State) (l vc t : Nat) (go : State → State) : State :=
  onChannel s l vc (fun s => go (drainMsg s l vc (msgType t)))

/-- MCDATA (R156, R157): forwarded on every forwarding link, and placed if this member consumes it.
(DEDUCED, log 48) -/
def execMcdata (l : Fin 6) (h : McHdr) (bytes : List Byte) (s : State) : Host.Outcome State Fault Refusal :=
  .next (onLink s l.val 3 1 (fun s =>
    let g := h.group % 64
    if !mcMember s g || mcRoot s g || fld s (Reg.stmMcast g) Fl.stmMcast_UPLINK != l.val then s
    else
      let s := (mcDown s g).foldl (fun s d => mcOnLink s d h bytes) s
      let x := mcg s g
      let f := 64 * h.first + bytes.length
      let x := if h.last then { x with sq := (h.sq + 1) % 16, parcel := 0, fill := 0 }
        else { x with sq := h.sq % 16, parcel := (h.parcel + f / 4096) % 2 ^ 24, fill := f % 4096 }
      if mcConsume s g then
        pumpAll (placeQueue (bytes.length + 1) (setMcg s g { x with queue := x.queue ++ bytes }) g)
      else setMcg s g x))

/-- MCCRED (R157, R158): credit from downstream. -/
def execMccred (l : Fin 6) (group : Fin 64) (sq parcel : Nat) (s : State) : Host.Outcome State Fault Refusal :=
  .next (onLink s l.val 3 2 (fun s =>
    let g := group.val
    if !mcMember s g || !(mcDown s g).contains l.val then s
    else
      let x := mcg s g
      let s := setMcg s g { x with
        creds := x.creds.filter (fun c => c.1 != l.val) ++ [(l.val, sq % 16, (parcel + 1) % 2 ^ 24)]
        stallTicks := 0 }
      let s := setFlag s (Reg.stmMcast g) Fl.stmMcast_STALLED false
      if mcRoot s g then mcAck s g else s))

/-- A transit message is discarded (R294). -/
def dropTransit (s : State) (r : Routed) (inj : Bool) : State :=
  let s := incFld s Reg.xlDrop Fl.xlDrop_COUNT 1
  let s := match r.arrived with
    | some l => if routesBack s r.hdr.dst r.arrived then setFlag s (Reg.xlLnkStat l) Fl.xlLnkStat_LOOP true else s
    | none => s
  recordErr s { ErrRec.ofDet 2 0x14 with tenant := some r.hdr.tenant, lkind := 2, loc := r.arrived.getD 0, inj := inj }

/-- Forward a message that is not for this block, hold it, or discard it (R294). (DEDUCED, log 118) -/
def forwardMsg (s : State) (r : Routed) : State :=
  let (inj, s) := match r.arrived with
    | some l => flint s 0x14 { InjSel.ofUnit l with tenant := some r.hdr.tenant } false
    | none => (false, s)
  if inj then dropTransit (releaseMsg s r) r true
  else
    match nextLink s r.hdr.dst (routedVc r.kind) r.arrived with
    | .via l => sendRouted (releaseMsg s r) l r
    | .wait => { s with transit := s.transit ++ [r] }
    | .fail => dropTransit (releaseMsg s r) r false

/-- A routed message arrives on a channel of a link: delivered here it leaves the receive buffer, otherwise as it is
forwarded (R289, R294). (DEDUCED, log 134) -/
def onRoute (s : State) (r : Routed) (go : State → State) : State :=
  onChannel s (r.arrived.getD 0) (routedVc r.kind) (fun s =>
    if r.hdr.dst = stratum s then go (releaseMsg s r) else forwardMsg s r)

/-- POST (R160, R292, R294). -/
def execPost (l : Fin 6) (dst src tenant sem value : Nat) (s : State) : Host.Outcome State Fault Refusal :=
  let h : RoutedHdr := ⟨dst % 1024, src % 1024, tenant % 4, sem % 256, value % 65536⟩
  .next (onRoute s ⟨1, h, [], some l.val, none, none⟩ (fun s => semPost s h.offset h.lenM1 h.tenant h.src none))

/-- The target answers a WRITE: 2 WACK, 3 WNAK (R292). -/
def replyWrite (s : State) (kind : Nat) (h : RoutedHdr) : State :=
  forwardMsg s ⟨kind, { h with dst := h.src, src := stratum s }, [], none, none, none⟩

/-- WRITE (R292): the whole range is checked against the partition of the tenant it names. -/
def execWrite (l : Fin 6) (hdr : RoutedHdr) (bytes : List Byte) (s : State) : Host.Outcome State Fault Refusal :=
  .next (if bytes.length != hdr.lenM1 + 1 then s
    else
      onRoute s ⟨4, hdr, bytes, some l.val, none, none⟩ (fun s =>
        if inTenant s (hdr.tenant % 4) hdr.offset bytes.length then
          replyWrite (micaWrite s hdr.offset bytes) 2 hdr
        else replyWrite s 3 hdr))

/-- The oldest outstanding WRITE that a reply matches: same target, tenant and offset (R292). (DEDUCED, log 49) -/
def takeWrite (h : RoutedHdr) : List OutWrite → Option (OutWrite × List OutWrite)
  | [] => none
  | w :: ws =>
    if w.dst = h.src ∧ w.tenant = h.tenant ∧ w.offset = h.offset then some (w, ws)
    else (takeWrite h ws).map (fun r => (r.1, w :: r.2))

/-- WACK (R154, R292). (DEDUCED, log 49) -/
def execWack (l : Fin 6) (hdr : RoutedHdr) (s : State) : Host.Outcome State Fault Refusal :=
  .next (onRoute s ⟨2, hdr, [], some l.val, none, none⟩ (fun s =>
    match takeWrite hdr s.writes with
    | none => s
    | some (w, ws) =>
      let s := { s with writes := ws }
      if w.stream < 64 then ackPos s w.stream w.pos else s))

/-- WNAK: the writer's stream halts (R292, R152). -/
def execWnak (l : Fin 6) (hdr : RoutedHdr) (s : State) : Host.Outcome State Fault Refusal :=
  .next (onRoute s ⟨3, hdr, [], some l.val, none, none⟩ (fun s =>
    match takeWrite hdr s.writes with
    | none => s
    | some (w, ws) =>
      let s := { s with writes := ws }
      if w.stream < 64 then haltStream s w.stream St.stateIllegal else s))

/-- ROUTED_FORWARD (R294): a held message is sent once a link can carry it; when none ever can, the post, the stream or
the message fails. -/
def execRoutedForward (index : Nat) (s : State) : Host.Outcome State Fault Refusal :=
  .next (
    match s.transit[index]? with
    | none => s
    | some r =>
      let s' := { s with transit := s.transit.eraseIdx index }
      match nextLink s r.hdr.dst (routedVc r.kind) r.arrived with
      | .wait => s
      | .via l =>
        let s := sendRouted (releaseMsg s' r) l r
        (match r.vein, r.stream with
        | some (v, q), _ => completeJob s v q
        | none, some i =>
          let x := strm s i
          match x.outst.find? (fun q => q.port == 6) with
          | some q => noteWrite (setStrm s i { x with outst := x.outst.map (fun y =>
              if y.port = 6 then { y with port := l } else y) }) i l r.hdr q.pos
          | none => s
        | none, none => s)
      | .fail =>
        (match r.vein, r.stream with
        | some (v, q), _ => completeJob (addCond s' v q St.routeNone) v q
        | none, some i => haltStream s' i St.linkDown
        | none, none => dropTransit (releaseMsg s' r) r false))

/-! ## Deep ports and the stream engines -/

/-- STREAM_ENGINE_TRANSFER (R148, R149): requests for room, or writes of closed halves; weight rows that a correction
pass needs are fetched although they were passed over (R130, R132). Where the Deep and link groups are clamped nothing is
asked or sent (R415). -/
def execStreamEngineTransfer (stream : Fin 64) (s : State) : Host.Outcome State Fault Refusal :=
  .next (
    let i := stream.val
    if !streamLive s i || !pxRuns s then s
    else if (skipDue s i).isSome then repeatWhile (refetchOne i) (seqEndPos (strm s i)) s
    else if sState s i != Ss.running then s
    else
      let s := extend (turnFill s i) i
      let d := desc s i
      let x := strm s i
      match d.kind with
      | 0 =>
        let half := match x.chunks.find? (fun c => x.asked < c.start + c.len) with
          | some c => if direct s i then c.start + c.len else turnCeil s i (c.start + c.len)
          | none => x.asked
        let lim := if half > x.asked then half else roomEnd s i
        extend (askReads (lim - x.asked) s i lim) i
      | 1 => pumpAll (placeQueue ((mcg s d.group).queue.length + 1) s d.group)
      | 2 => extend (sendDeep (closedEnd s i - x.asked) s i (closedEnd s i)) i
      | 3 =>
        if d.mc then s
        else extend (checkEnd (sendRemote (closedEnd s i - x.asked) s i (closedEnd s i)) i) i
      | _ => s)

/-- DEEP_ERR: the stream halts with ENDPOINT_ERROR (R375, R414). -/
def deepErr (s : State) (i : Nat) (inj : Bool) : State :=
  let s := recordErr s { ErrRec.ofDet 1 0x0D with status := St.endpointError, tenant := some (sTenant s i), lkind := 5,
                                                  loc := i, inj := inj }
  haltStream s i St.endpointError

def dropTag (s : State) (p t : Nat) : State := { s with lostTags := s.lostTags.filter (fun x => !(x.1 == p && x.2 == t)) }

/-- DEEP_READ_RESPONSE (R145, R413, R414): data is placed by its tag. -/
def execDeepReadResponse (port : Fin 4) (tag : Nat) (rsp : DeepRead) (s : State) : Host.Outcome State Fault Refusal :=
  .next (
    match tagOwner s port.val tag false with
    | none => dropTag s port.val tag
    | some (i, r) =>
      match rsp with
      | .error =>
        let x := strm s i
        deepErr (setStrm s i { x with outst := x.outst.filter (fun y => y != r) }) i false
      | .data bytes lines =>
        if bytes.length != r.len then s
        else
          let injR := flint s 0x0D { InjSel.ofUnit i with tenant := some (sTenant s i) } false
          let inj := injR.1
          let s := injR.2
          let x := strm s i
          let s := setStrm s i { x with outst := x.outst.filter (fun y => y != r) }
          if inj then deepErr s i true
          else
            let s := land s i r.pos bytes (if portPoison s port.val then lines else [])
            pumpAll (extend (checkEnd (countBytes s i r.len) i) i))

/-- Every vein is fenced as evacuation ends (R385). -/
def fenceAll (s : State) : State := (List.range 16).foldl (fun s v => fenceVein s v true) s

/-- A write of the evacuation image has been answered (R385). -/
def evacAnswered (s : State) (p t : Nat) (err : Bool) : State :=
  let left := s.evacReqs.filter (fun x => !(x.1 == p && x.2 == t))
  let a := Reg.errEvstat
  if err then
    let s := recordErr s { ErrRec.ofDet 1 0x0D with status := St.endpointError }
    let s := fenceAll { s with evacReqs := [], svc := { s.svc with evacImg := [] }, lostTags := s.lostTags ++ left }
    setFld (setFld s a Fl.errEvstat_STATE 5) a Fl.errEvstat_STATUS St.endpointError
  else
    let s := { s with evacReqs := left }
    if left.isEmpty && s.svc.evacImg.isEmpty then notice (setFld (fenceAll s) a Fl.errEvstat_STATE 4) Unit.err else s

/-- DEEP_WRITE_RESPONSE (R154, R413, R414, R385). -/
def execDeepWriteResponse (port : Fin 4) (tag : Nat) (err : Bool) (s : State) : Host.Outcome State Fault Refusal :=
  .next (
    let p := port.val
    if s.evacReqs.any (fun x => x.1 == p && x.2 == tag) then evacAnswered s p tag err
    else
      match tagOwner s p tag true with
      | none => dropTag s p tag
      | some (i, r) =>
        let injR := flint s 0x0D { InjSel.ofUnit i with tenant := some (sTenant s i) } false
        let inj := injR.1
        let s := injR.2
        if err || inj then
          let x := strm s i
          deepErr (setStrm s i { x with outst := x.outst.filter (fun y => y != r) }) i inj
        else pumpAll (ackPos s i r.pos))

end Sys2Proof.Machine
end

