-- ==== Sys2Proof/Machine/CairnEv.lean ====
section
/-! DEFINITION. Cairn's events but for the tick itself: following the Lodestone (R234, R235), announcements (R238, R239),
tokens and exclusion (R241, R242), takeovers and partitions (R245, R246), READY (R247, R248), discipline, capture and
time steps (R250, R251). -/

namespace Sys2Proof.Machine

/-! ## Following -/

/-- SYNC_SEND: the Lodestone starts a SYNC (R234). -/
def execSyncSend (s : State) : Host.Outcome State Fault Refusal :=
  .next (if isLode s && crnLive s then
      (tickLinks s).foldl (fun s l => sendSync s l (stratum s) 0 (epochNo s) (tstamp s) (frameNo s)) s
    else s)

/-- The block joins the Lodestone of the other side of a partition: at its next tick (R246). -/
def joinSplit (s : State) (inj : Bool) : State :=
  let s := setFlag s Reg.crnStat Fl.crnStat_SPLIT true
  let s := recordErr s { ErrRec.ofDet 2 0x17 with inj := inj }
  setCrn s (fun c => { c with splitAt := true })

/-- This block follows another Lodestone from now on; an open frame makes it a partition's losing side, whose grid is now
the winner's; a tick that the old Lodestone announced is off. A Lodestone that has opened no frame yet is FREE as a follower (R235). (DEDUCED, log 55) -/
def adoptLode (s : State) (l : Nat) : State :=
  let was := isLode s
  let s := setCrn (becomeFollower s l) (fun c => { c with tick := none, heard := false, decided := false })
  if s.crn.opened then
    joinSplit (setCrn s (fun c => { c with splitStep := true, missed := 0, lastG := none })) false
  else if was then setLock s 0
  else s

/-- Should this block take the Lodestone that a SYNC names? A lower stratum wins; a block that follows none takes any. -/
def takesLode (s : State) (l : Nat) : Bool :=
  l != lode s && (l < lode s || (!isLode s && lockSt s == 0 && !(s.crn.nbrs.any (fun n => n.2.2 == lode s))))

/-- Flood a TAKEOVER (R245): it names this block's Lodestone and epoch. -/
def floodTakeover (s : State) (from_ : Nat) : State :=
  (tickLinks s).foldl (fun s l =>
    if l = from_ then s else sendTakeover s l (lode s) (epochNo s) (frameNo s)) s

/-- The other side of a partition will step its time: the winner's epoch rises once, and is flooded (R246).
(DEDUCED, log 55) -/
def meetLoser (s : State) (l loser t1 : Nat) : State :=
  let known := s.crn.nbrs.any (fun n => n.2.2 == loser)
  let s := setCrn s (fun c => { c with nbrs := tabSet c.nbrs l (15, loser) })
  if isLode s && s.crn.opened && !known && (tsDiff (tstamp s) t1).natAbs > 16000 then
    floodTakeover (setFld s Reg.crnState Fl.crnState_EPOCH (epochNo s + 1)) 6
  else s

/-- The nominal increment of a time clock, 8 units in 2^-32 of a unit, and 100 ppm of it (R228, R250). -/
def incNominal : Nat := 8 * 2 ^ 32
def incSpan : Nat := incNominal / 10000

/-- The parent's rate as two SYNCs show it: its time that has passed over this block's time clocks, within 100 ppm of
nominal. It is the rate at which this block's own time then runs (R234, R250). (DESIGN CHOICE, log 136) -/
def followRate (s : State) (t1 : Nat) : State :=
  let inc := match s.crn.rate with
    | none => s.crn.inc
    | some (t, n) =>
      let d := (tsDiff t1 t).toNat
      if s.crn.clocks ≤ n || d = 0 then s.crn.inc
      else max (incNominal - incSpan) (min (incNominal + incSpan) (d * 2 ^ 32 / (s.crn.clocks - n)))
  setCrn s (fun c => { c with inc := inc, rate := some (t1, c.clocks) })

/-- A SYNC from the parent: it goes on down, and a delay exchange starts, unless its beat was replayed (R234, R235,
R293). (DEDUCED, log 54) -/
def followSync (s : State) (l epoch t1 frame : Nat) (replayed : Bool) : State :=
  let s := (tickLinks s).foldl (fun s k =>
    if k = l then s else sendSync s k (lode s) (fld s Reg.crnState Fl.crnState_HOPS) epoch (tstamp s) frame) s
  let s := match lockSt s with
    | 0 => setCrn (setLock s 1) (fun c => { c with slewOnly := false, wasLocked := false })
    | 3 => setCrn (setLock s 1) (fun c => { c with slewOnly := true, wasLocked := false })
    | _ => s
  if replayed then s
  else
    let s := followRate s t1
    sendDreq (setCrn s (fun c => { c with xch := some (l, t1, tstamp s) })) l (tstamp s)

/-- SYNC (R233, R234, R246). An injection of TIME_SPLIT presents a foreign Lodestone (R389). -/
def execSync (link : Fin 6) (src lodeN hops epoch : Nat) (t1 : W64) (frame : Nat) (s : State) :
    Host.Outcome State Fault Refusal :=
  let rep := fromReplay s link.val 0 1
  .next (onLink s link.val 0 1 (fun s =>
    if !crnLive s then s
    else
      let l := link.val
      let m := lodeN % 1024
      let injR := flint s 0x17 (InjSel.ofUnit l) false
      let inj := injR.1
      let s := injR.2
      let s := if inj then setCrn (joinSplit s true) (fun c => { c with splitInj := true }) else s
      let s := if takesLode s m then adoptLode s m else s
      if m != lode s then meetLoser s l m t1.toNat
      else if isLode s then s
      else
        let _ := src
        let s := setCrn s (fun c => { c with nbrs := tabSet c.nbrs l (hops % 16, m) })
        let s := reparent s
        if uplink s = l then followSync s l (epoch % 65536) t1.toNat (frame % 2 ^ 48) rep else s))

/-- DREQ: the parent answers, unless its beat was replayed (R234, R293). -/
def execDreq (link : Fin 6) (src : Nat) (t3 : W64) (s : State) : Host.Outcome State Fault Refusal :=
  let rep := fromReplay s link.val 0 2
  .next (onLink s link.val 0 2 (fun s =>
    let _ := src
    if !crnLive s then s
    else
      let s := addKid s link.val
      if rep then s else sendDresp s link.val t3.toNat (tstamp s)))

/-- The offset of follow in 2^-32 of 1/16 ns (R234). -/
def followOffset (t1 t2 t3 t4 : Nat) (asym : Int) : Int :=
  let x := tsDiff t4 t1 - tsDiff t3 t2
  tsDiff t2 t1 * 2 ^ 32 - x * 2 ^ 31 - asym * 2 ^ 27

/-- Show an offset in 1/256 ns, saturating (R252). -/
def showOffset (s : State) (off : Int) : State :=
  setFld s Reg.crnState Fl.crnState_OFFSET (fromSigned 16 (max (-32768) (min 32767 (off / 2 ^ 28))))

/-- Counts and transitions of the lock state for one offset (R235): 20 ps and 100 ps. -/
def lockStep (s : State) (off : Int) : State :=
  let a := off.natAbs
  let s := setCrn s (fun c => { c with
    good := if 100 * a ≤ 32 * 2 ^ 32 then c.good + 1 else 0
    bad := if 10 * a > 16 * 2 ^ 32 then c.bad + 1 else 0 })
  if lockSt s == 1 && s.crn.good ≥ 16 then setLock s 2
  else if lockSt s == 2 && s.crn.bad ≥ 4 then
    setCrn (setLock s 1) (fun c => { c with slewOnly := false, wasLocked := true })
  else s

/-- Does an offset step the time? In FREE, and in ACQUIRE, unless it was entered from HOLDOVER, or from LOCKED with the block in RUN;
and once for a block that has joined another Lodestone more than 1 µs away (R234, R235, R246). -/
def stepsTime (s : State) (off : Int) : Bool :=
  (s.crn.splitStep && off.natAbs > 16000 * 2 ^ 32) ||
    lockSt s == 0 || (lockSt s == 1 && !s.crn.slewOnly && !(s.crn.wasLocked && isRun s))

/-- DRESP: the follower measures its offset, and steps or slews; a replayed beat ends the exchange (R234, R235, R246,
R293). -/
def execDresp (link : Fin 6) (src : Nat) (t3 t4 : W64) (s : State) : Host.Outcome State Fault Refusal :=
  let rep := fromReplay s link.val 0 3
  .next (onLink s link.val 0 3 (fun s =>
    let _ := src
    match s.crn.xch with
    | none => s
    | some (l, t1, t2) =>
      if l != link.val || uplink s != l || !crnLive s then s
      else if rep then setCrn s (fun c => { c with xch := none })
      else
        let off := followOffset t1 t2 t3.toNat t4.toNat (sfld s (Reg.crnAsym l) Fl.crnAsym_ASYM)
        let s := showOffset (setCrn s (fun c => { c with xch := none })) off
        let steps := stepsTime s off
        let s := setCrn s (fun c => { c with splitStep := false })
        let s := if steps then setCrn (addTime s (-off)) (fun c => { c with slew := 0, rate := none })
          else setCrn s (fun c => { c with slew := off })
        tryReady (lockStep s off)))

/-- SYNC_LOSS: no SYNC for 8 intervals (R233, R235). -/
def execSyncLoss (s : State) : Host.Outcome State Fault Refusal :=
  .next (if isLode s then s
    else match lockSt s with
      | 1 => setLock s 0
      | 2 => setCrn (setLock s 3) (fun c => { c with xch := none })
      | _ => s)

/-! ## Announcements -/

/-- The count of the tokens against the blocks of the Lodestone's tree; blocks that are still missing when TOKTO grid
points have passed are left out (R241, R242). (DEDUCED, log 135) -/
def countMet (s : State) : Bool :=
  let n := fld s Reg.crnCtrl Fl.crnCtrl_TOKTO
  decide (s.crn.tree ≤ counted s.crn.tokens) || (n != 0 && decide (n ≤ s.crn.short))

/-- Every block of the Lodestone's tree has sent the current frame's token (R238). (DEDUCED, log 135) -/
def tokensComplete (s : State) : Bool := s.crn.token.isSome && kidsIn s && countMet s

/-- The lowest stratum that failed to close the frame, as the Lodestone sees it (R243). -/
def lowestLate (s : State) : Nat :=
  let own := if frameIdle s then [] else [stratum s]
  let kids := ((liveKids s).filter (fun l => !s.crn.tokens.any (fun t => t.1 == l))).map (peerStratum s)
  (own ++ kids).foldl min 1023

/-- TICK_ANNOUNCE: the Lodestone decides on the next grid point (R238, R247, R251). -/
def execTickAnnounce (s : State) : Host.Outcome State Fault Refusal :=
  .next (if !(isLode s && crnLive s && s.crn.anchored) || s.crn.decided || s.crn.tick.isSome then s
    else
      let g := gridNext s
      let frozen := flag s Reg.crnCtrl Fl.crnCtrl_FREEZE
      if s.crn.opened && policy s == 0 && (frozen || !tokensComplete s) then
        let s := incFld s Reg.crnCnt Fl.crnCnt_SLIPS 1
        let s := if frozen then s
          else
            let s := setFlag s Reg.crnStat Fl.crnStat_OVR true
            let s := setFld s Reg.crnLate Fl.crnLate_FRAME (frameNo s)
            setFld s Reg.crnLate Fl.crnLate_STRAT (lowestLate s)
        let s := setCrn s (fun c => { c with decided := true, heard := true })
        s.crn.kids.foldl (fun s l => sendHold s l (epochNo s) g (frameNo s)) s
      else
        let f := if s.crn.opened then (frameNo s + 1) % 2 ^ 48 else s.slt.frame0 % 2 ^ 48
        let st := s.crn.step
        let e := if st = 0 then epochNo s else (epochNo s + 1) % 65536
        let s := setCrn s (fun c => { c with
          decided := true, heard := true, tick := some (f, g, e, st), step := 0, short := 0
          tree := if c.opened && tokensComplete s then counted c.tokens else c.tree })
        s.crn.kids.foldl (fun s l => sendTick s l e g f st) s)

/-- The announced grid point, as a block takes it from TICK or HOLD; the first one heard anchors a follower. -/
def takeGrid (s : State) (g : Nat) : State :=
  let s := if s.crn.anchored then s
    else setCrn (setFld s Reg.crnAnchor Fl.crnAnchor_ANCHOR g) (fun c => { c with anchored := true })
  setCrn (setFld s Reg.crnGrid Fl.crnGrid_NEXT g) (fun c => { c with heard := true, missed := 0 })

/-- A grid point has passed in this block already: a tick has fired at it, or at a later one (R237). -/
def gridOver (s : State) (g : Nat) : Bool := match s.crn.lastG with | some x => tsDiff g x ≤ 0 | none => false

/-- TICK (R239, R246). (DEDUCED, log 54) -/
def execTick (link : Fin 6) (epoch : Nat) (grid : W64) (frame : Nat) (timeStep : W64) (s : State) :
    Host.Outcome State Fault Refusal :=
  .next (onLink s link.val 0 4 (fun s =>
    if !crnLive s || isLode s || uplink s != link.val then s
    else
      let e := epoch % 65536
      let f := frame % 2 ^ 48
      let g := grid.toNat
      let s := s.crn.kids.foldl (fun s l => sendTick s l e g f timeStep.toNat) s
      if s.crn.tick.isSome || gridOver s g || (s.su == .timelock && lockSt s != 2) then s
      else
        let s := takeGrid s g
        let s := if tsDiff g (tstamp s) < 0 then incFld s Reg.crnCnt Fl.crnCnt_LATETICK 1 else s
        let s := if s.crn.opened && timeStep.toNat = 0 && e != epochNo s && !s.crn.splitAt then joinSplit s false else s
        setCrn s (fun c => { c with tick := some (f, g, e, timeStep.toNat) })))

/-- HOLD (R239). -/
def execHold (link : Fin 6) (epoch : Nat) (grid : W64) (frame : Nat) (s : State) : Host.Outcome State Fault Refusal :=
  .next (onLink s link.val 0 5 (fun s =>
    if !crnLive s || isLode s || uplink s != link.val then s
    else
      let s := s.crn.kids.foldl (fun s l => sendHold s l (epoch % 65536) grid.toNat (frame % 2 ^ 48)) s
      if gridOver s grid.toNat || (s.su == .timelock && lockSt s != 2) then s else takeGrid s grid.toNat))

/-! ## Slips and missed grid points -/

/-- Count a tick, or a slip, for SEM_WAIT timeouts (R161). -/
def countWaits (s : State) (slip : Bool) : State :=
  (List.range 16).foldl (fun s v =>
    let x := vein s v
    match x.wait with
    | some (.sem k c n t o) =>
      if n = 0 || (slip && !x.jobs.any (fun j => !j.done && j.op == 0x0D && j.inFrame)) then s
      else setVein s v { x with wait := some (.sem k c n (t + 1) o) }
    | _ => s) s

/-- GRID_SLIP: a grid point is reached at which no tick fires after a HOLD (R161, R237, R254). A block whose first frame
has not opened only moves on to the next grid point. -/
def execGridSlip (s : State) : Host.Outcome State Fault Refusal :=
  .next (if !(s.crn.anchored && s.crn.heard && s.crn.tick.isNone && policy s == 0) then s
    else if !s.crn.opened then passGrid s
    else
      let s := if isLode s then s else incFld s Reg.crnCnt Fl.crnCnt_SLIPS 1
      let s := passGrid s
      let ns := fld s Reg.crnPeriod Fl.crnPeriod_NS
      let s := { s with trm := { s.trm with
        budget := s.trm.budget + effCap s * ns / 8
        horizon := s.trm.horizon + ns * frameF s / 40 } }
      showQ (countWaits s true))

/-- Position of this block among the successors of its Lodestone, from 1 on; 0: it is none (R232). -/
def successorNo (s : State) : Nat :=
  let cs := (candidates s).filter (fun c => c > lode s)
  if cs.contains (stratum s) then cs.idxOf (stratum s) + 1 else 0

/-- Veins that wait on a tick have lost one (R246). -/
def loseTicks (s : State) : State :=
  (List.range 16).foldl (fun s v =>
    let x := vein s v
    match x.wait with
    | some (.sem _ _ n _ _) => if n = 0 then s else setVein s v { x with lost := true }
    | some (.markFrame _) => setVein s v { x with lost := true }
    | some .markNext => setVein s v { x with lost := true }
    | _ => s) s

/-- GRID_MISS: a grid point passes with nothing heard for it (R245, R246). -/
def execGridMiss (s : State) : Host.Outcome State Fault Refusal :=
  .next (if !(crnLive s && s.crn.anchored) || s.crn.heard || s.crn.tick.isSome then s
    else
      let s := passGrid s
      if isLode s then s
      else
        let s := loseTicks (setCrn s (fun c => { c with missed := c.missed + 1 }))
        let i := successorNo s
        if i ≠ 0 && s.crn.missed ≥ 3 * i && s.su != .fatal then
          let s := becomeLode s
          let s := setCrn s (fun c => { c with missed := 0 })
          floodTakeover (incFld s Reg.crnCnt Fl.crnCnt_TAKEOVERS 1) 6
        else s)

/-- TAKEOVER: the lowest Lodestone heard of is adopted, and the message floods on; a former Lodestone joins as a follower
without a parent. From the block's own Lodestone it brings a new epoch (R235, R245, R246). (DEDUCED, log 55) -/
def execTakeover (link : Fin 6) (src lodeN epoch frame : Nat) (s : State) : Host.Outcome State Fault Refusal :=
  .next (onLink s link.val 0 6 (fun s =>
    let _ := (src, frame)
    let m := lodeN % 1024
    if !crnLive s then s
    else if m = lode s then
      if !isLode s && serialCmp epoch (epochNo s) 16 == 2 then
        floodTakeover (setFld s Reg.crnState Fl.crnState_EPOCH epoch) link.val
      else s
    else if !(m < lode s || s.crn.missed > 0) then s
    else
      let was := isLode s
      -- with no grid point missed two Lodestones meet
      let s := if s.crn.missed = 0 then adoptLode s m else becomeFollower s m
      let s := if was then setLock s 0 else s
      let s := setCrn s (fun c => { c with missed := 0 })
      floodTakeover (incFld s Reg.crnCnt Fl.crnCnt_TAKEOVERS 1) link.val))

/-! ## Tokens -/

/-- FRAME_DONE_TOKEN: this block and its children have closed the frame (R16, R241). -/
def execFrameDoneToken (s : State) : Host.Outcome State Fault Refusal :=
  .next (if (s.su == .run || s.su == .ready) && s.crn.opened && s.crn.token.isNone && frameIdle s && kidsIn s
    then sendToken s false else s)

/-- The Lodestone notes the last late token (R243). -/
def noteLate (s : State) (frame lowest : Nat) (late : Bool) : State :=
  if late && isLode s then
    setFld (setFld s Reg.crnLate Fl.crnLate_FRAME frame) Reg.crnLate Fl.crnLate_STRAT lowest
  else s

/-- A child's token of the frame that is open here; it brings an excluded child back (R241, R242). -/
def takeToken (s : State) (l blocks : Nat) (late : Bool) (lowest : Nat) : State :=
  setCrn s (fun c => { c with
    tokens := tabSet c.tokens l (blocks, late, lowest)
    excluded := c.excluded.filter (· != l)
    overdue := tabSet c.overdue l 0 })

/-- A child's token of a frame that has closed here: where this block's own still waits for it, it counts towards that
one, which leaves with the last of them (R241). (DEDUCED, log 135) -/
def closedToken (s : State) (l f blocks : Nat) (late : Bool) (lowest : Nat) : State :=
  match s.crn.closing with
  | none => s
  | some c =>
    if c.frame ≠ f then s
    else
      let got := tabSet c.got l (blocks, late, lowest)
      let s := setCrn s (fun x => { x with closing := some { c with got := got } })
      if allIn s got then sendClosing s else s

/-- TOKEN (R241, R242). An injection of TOKEN_EXCL withholds it (R389). -/
def execToken (link : Fin 6) (src frame blocks : Nat) (late : Bool) (lowest : Nat) (s : State) :
    Host.Outcome State Fault Refusal :=
  .next (onLink s link.val 0 7 (fun s =>
    let _ := src
    let l := link.val
    if !crnLive s || uplink s = l then s
    else
      let s := addKid s l
      let injR := flint s 0x16 (InjSel.ofUnit l) false
      let inj := injR.1
      let s := injR.2
      if inj then setCrn s (fun c => { c with withheld := insNat l c.withheld })
      else
        let f := frame % 2 ^ 48
        let s := noteLate s f (lowest % 1024) late
        match serialCmp f (frameNo s) 48 with
        | 0 => takeToken s l (blocks % 2048) late (lowest % 1024)
        | 2 => setCrn s (fun c => { c with early := tabSet c.early l (f, blocks % 2048, late, lowest % 1024) })
        | _ => closedToken s l f (blocks % 2048) late (lowest % 1024)))

/-- A child's subtree leaves the frame accounting (R242, R247). -/
def excludeKid (s : State) (l : Nat) : State :=
  let inj := s.crn.withheld.contains l
  let s := setCrn s (fun c => { c with excluded := insNat l c.excluded, withheld := c.withheld.filter (· != l) })
  let s := setFlag s Reg.crnStat Fl.crnStat_EXCL true
  recordErr s { ErrRec.ofDet 2 0x16 with lkind := 2, loc := l, inj := inj }

/-- TOKEN_TIMEOUT: TOKTO grid points have passed without a child's token (R242). -/
def execTokenTimeout (link : Fin 6) (s : State) : Host.Outcome State Fault Refusal :=
  let l := link.val
  let n := fld s Reg.crnCtrl Fl.crnCtrl_TOKTO
  .next (if crnLive s && n ≠ 0 && (liveKids s).contains l && !s.crn.tokens.any (fun t => t.1 == l) &&
      mapGet 0 s.crn.overdue l ≥ n then excludeKid s l else s)

/-! ## READY -/

/-- READY: a child's subtree is LOCKED (R247). -/
def execReady (link : Fin 6) (blocks : Nat) (s : State) : Host.Outcome State Fault Refusal :=
  .next (onLink s link.val 0 8 (fun s =>
    if s.su != .timelock || uplink s = link.val then s
    else
      let s := addKid s link.val
      let s := setCrn s (fun c => { c with readies := tabSet c.readies link.val (blocks % 2048) })
      -- a child that comes after this block's own READY makes it send again
      tryReady (if s.crn.readySent && !isLode s then setCrn s (fun c => { c with readySent := false }) else s)))

/-- READY_TIMEOUT: a child's subtree is not READY within 10 ms and is excluded; what has come by then will do (R247).
(DESIGN CHOICE, log 56) -/
def execReadyTimeout (link : Fin 6) (s : State) : Host.Outcome State Fault Refusal :=
  let l := link.val
  .next (if s.su != .timelock then s
    else
      let s := if (liveKids s).contains l && !s.crn.readies.any (fun r => r.1 == l) then excludeKid s l else s
      tryReady (setCrn s (fun c => { c with readyLate := true })))

/-- TICK_IN: the first edge after the last READY fixes the anchor at the Lodestone (R248). -/
def execTickIn (s : State) : Host.Outcome State Fault Refusal :=
  .next (if isLode s && s.su == .timelock && flag s Reg.crnCtrl Fl.crnCtrl_TICKIN_EN && !s.crn.anchored && allReady s
    then fixAnchor s ((tstamp s + periodTs s) % 2 ^ 64) else s)

/-! ## Discipline -/

/-- Rate steering in parts per billion: the increment of each time clock follows (R228, R250).
(DESIGN CHOICE, log 23) -/
def setPpb (s : State) (ppb : Int) : State :=
  let s := setFld s Reg.crnDisc Fl.crnDisc_PPB (fromSigned 32 ppb)
  setCrn s (fun c => { c with inc := ((incNominal : Int) * (1000000000 + ppb) / 1000000000).toNat })

/-- Steer after one measured second that was diff units too long: beyond the limit exactly to it, otherwise by a free
amount toward the rate that would have removed the difference (R250 gives no gain). (DESIGN CHOICE, log 23) -/
def steer (s : State) (diff : Int) : State :=
  let cur := sfld s Reg.crnDisc Fl.crnDisc_PPB
  let want := cur - diff / 16
  if want > 100000 || want < -100000 then
    let s := setPpb s (if want > 0 then 100000 else -100000)
    notice (setFlag s Reg.crnStat Fl.crnStat_DISCLIM true) Unit.crn
  else if want = cur then s
  else
    let (x, s) := takeFree s 32
    let n : Int := ((1 + x % (want - cur).natAbs : Nat) : Int)
    setPpb s (if want > cur then cur + n else cur - n)

/-- DISC_PPS: an edge is captured and compared with the one before (R250). -/
def execDiscPps (s : State) : Host.Outcome State Fault Refusal :=
  .next (if !(isLode s && crnLive s && flag s Reg.crnCtrl Fl.crnCtrl_DISC_EN) then s
    else
      let t := tstamp s
      let last := s.crn.pps
      let s := setCrn s (fun c => { c with pps := some t })
      match last with
      | none => s
      | some p => steer s (tsDiff t p - 16000000000))

/-- PPS_LOST: no edge for 2 s; the rate is held (R250). -/
def execPpsLost (s : State) : Host.Outcome State Fault Refusal :=
  .next (if !(isLode s && crnLive s && flag s Reg.crnCtrl Fl.crnCtrl_DISC_EN) then s
    else
      let s := setCrn s (fun c => { c with pps := none })
      notice (setFlag s Reg.crnStat Fl.crnStat_PPSLOST true) Unit.crn)

/-! ## Capture -/

/-- TIME_REQ rises: the timestamp of the edge is captured; ignored while TIME_ACK is high (R250). -/
def execTimeReq (s : State) : Host.Outcome State Fault Refusal :=
  .next (if s.crn.ack then s else setCrn s (fun c => { c with capture := some (tstamp s) }))

/-- EXACT_CAPTURE_DONE: the capture reaches PX_CRN_CAP; where the TIME group is not clamped TIME_ACK rises and TS_OUT
shows it (R249, R250). In SAFE the register keeps its reset value (R329). -/
def execExactCaptureDone (s : State) : Host.Outcome State Fault Refusal :=
  .next (match s.crn.capture with
    | none => s
    | some t =>
      let s := if s.su == .safe then s else setFld s Reg.crnCap Fl.crnCap_CAP t
      let up := timeUnclamped s
      let s := setCrn s (fun c => { c with capture := none, ack := up, tsOut := if up then t else c.tsOut })
      if up then emit s (.timeAck true) else s)

/-- TIME_REQ falls: TS_OUT is live again (R250). Where it falls before TIME_ACK has risen the capture is dropped.
(DESIGN CHOICE, log 156) -/
def execTimeReqFall (s : State) : Host.Outcome State Fault Refusal :=
  let was := s.crn.ack
  let s := setCrn s (fun c => { c with capture := none, ack := false, tsOut := if was then tstamp s else c.tsOut })
  .next (if was then emit s (.timeAck false) else s)

/-! ## Time steps -/

/-- TIME_STEP: a write of PX_CRN_STEPTO at the Lodestone; one step at a time, until the tick that carries it has fired
(R251). -/
def execTimeStep (value : W64) (s : State) : Host.Outcome State Fault Refusal :=
  .next (portAct s Reg.crnStepto (fun s =>
    let due := match s.crn.tick with | some (_, _, _, st) => st | none => 0
    if isLode s && crnLive s && s.crn.step = 0 && due = 0 then setCrn s (fun c => { c with step := value.toNat }) else s))

end Sys2Proof.Machine
end

