-- ==== Sys2Proof/Machine/ChainOps.lean ====
section
/-! DEFINITION. Messages of the Strata chain as a block sends and forwards them (R303 to R308), the gates of start-up
that several events reach (R335), and the entry to TIMELOCK (R247). -/

namespace Sys2Proof.Machine

def setSlt (s : State) (f : SltSt → SltSt) : State := { s with slt := f s.slt }

/-! ## Chain headers (R304) -/

def chType (h : Nat) : Nat := bits h 60 4
def chTry (h : Nat) : Nat := bits h 56 4
def chLen (h : Nat) : Nat := bits h 32 24
def chKind (h : Nat) : Nat := bits h 24 8
def chArg (h : Nat) : Nat := bits h 0 24

def mkHdr (type kind arg len : Nat) : Nat := (type <<< 60) + (len <<< 32) + (kind <<< 24) + arg

namespace Ch
def enum : Nat := 1
def image : Nat := 2
def bcast : Nat := 3
def poll : Nat := 4
end Ch

/-- CRC-32C over header and body (R303). -/
def chainCrc (h : Nat) (body : List Byte) : Nat := crc32c (leBytes 8 h ++ body)

/-- The received CRC holds (R308). -/
def crcGood (m : ChainMsg) : Bool := m.crc.toNat == chainCrc m.hdr.toNat m.body

/-- A message as its nibbles on the chain: the header's 8 little-endian bytes, the body and the CRC-32C, each byte low
nibble first (R303). good: with its CRC, otherwise with the CRC inverted (R308). -/
def chainFrame (h : Nat) (body : List Byte) (good : Bool) : List Nat :=
  let c := chainCrc h body
  (leBytes 8 h ++ body ++ leBytes 4 (if good then c else 2 ^ 32 - 1 - c)).flatMap
    (fun b => [b.toNat % 16, b.toNat / 16])

/-- A message on STRATA_OUT. -/
def chainOut (h : Nat) (body : List Byte) (good : Bool) : Out := .chain (chainFrame h body good)

/-- A message leaves on the chain. An injection of STRATA_CRC inverts its CRC (R389). -/
def putChain (s : State) (h : Nat) (body : List Byte) (good : Bool) : State :=
  let injR := flint s 0x18 (InjSel.ofUnit 0) false
  let inj := injR.1
  let s := injR.2
  emit s (chainOut h body (good != inj))

/-- The head sends a message and awaits its return (R308). -/
def sendChain (s : State) (h : Nat) (body : List Byte) : State :=
  putChain (setSlt s (fun x => { x with outst := x.outst ++ [(h, body)] })) h body true

/-- Is this block the head? -/
def isHead (s : State) : Bool := s.strap.head

/-! ## Tables of a POLL (R307) -/

/-- Entry n of a table of w-bit entries. -/
def pollEntry (body : List Byte) (w n : Nat) : Nat := bits (body.getD (w * n / 8) 0).toNat (w * n % 8) w

def pollPut (body : List Byte) (w n v : Nat) : List Byte :=
  let k := w * n / 8
  body.set k (BitVec.ofNat 8 (setBits (body.getD k 0).toNat (w * n % 8) w v))

/-- State codes of R335 as a block reports them. -/
def suCode (s : State) : Nat :=
  match s.su with
  | .off => 0 | .clamped => 1 | .reset => 2 | .load => 3 | .selftest => 4 | .linkup => 5 | .linkupDone => 6
  | .timelock => 7 | .ready => 8 | .safe => 0xE | .fatal => 0xF
  | .run => if s.slt.rldSt = 1 then 0xA else if s.slt.rldSt = 2 then 0xB else 9

/-- The entry a block puts into a poll of a kind: width in bits and value; none: the table has no such kind. -/
def ownEntry (s : State) (kind : Nat) : Option (Nat × Nat) :=
  match kind with
  | 1 => some (1, b2n (lodeEligible s))
  | 2 => some (4, suCode s)
  | 3 => some (1, 1)
  | _ => none

def hasStratum (s : State) : Bool := flag s Reg.strId Fl.strId_VALID

/-- A poll's body after this block has filled in its entry. -/
def fillPoll (s : State) (kind : Nat) (body : List Byte) : List Byte :=
  match ownEntry s kind with
  | some (w, v) => if hasStratum s then pollPut body w (stratum s) v else body
  | none => body

/-- The head sends a poll with its own entry filled in. -/
def sendPoll (s : State) (kind : Nat) : State :=
  let (w, code) := match kind with | 2 => (4, 2) | _ => (1, 0)
  let body := fillPoll s kind (List.replicate (128 * w) 0)
  sendChain s (mkHdr Ch.poll kind (code <<< 16) body.length) body

/-! ## Gates of start-up -/

/-- LODESTONE_EN takes effect at an election (R422). (DEDUCED, log 79) -/
def sampleLoden (s : State) : State :=
  showEligible { s with strap := { s.strap with loden := s.pins.loden } }

/-- The candidate set elects the Lodestone (R232, R247). A block that already follows one keeps it.
(DEDUCED, log 79) -/
def elect (s : State) : State :=
  if s.su != .timelock || lockSt s != 0 then s
  else
    match candidates s with
    | [] =>
      let s := setFlag s Reg.crnStat Fl.crnStat_NOCAND true
      recordErr s { ErrRec.ofDet 1 0 with unit := Unit.crn }
    | c :: _ =>
      let s := setFld s Reg.crnState Fl.crnState_EPOCH 0
      if c = stratum s then
        tryReady (becomeLode (setCrn s (fun x => { x with time := s.slt.ts0 * 2 ^ 32 })))
      else becomeFollower s c

/-- Entry to TIMELOCK (R247): eligibility is shown, and the head asks the chain for it. A candidate set that has come
before then elects at once. -/
def enterTimelock (s : State) : State :=
  let s := sampleLoden (enterSu s .timelock)
  let s := if (candidates s).isEmpty then s else elect s
  if isHead s then sendPoll s 1 else s

/-- Every enabled link is ACTIVE, ABSENT or DOWN (R335). -/
def linksUp (s : State) : Bool :=
  (List.range 6).all (fun l => !flag s (Reg.xlLnkPol l) Fl.xlLnkPol_ENABLE ||
    [Lk.active, Lk.absent, Lk.down].contains (linkState s l))

/-- LINKUP ends when its links are settled; a PHASE heard before then leads on (R335, R336). -/
def checkLinkup (s : State) : State :=
  if s.su == .linkup && linksUp s then
    let s := showEligible (enterSu s .linkupDone)
    if s.slt.phase then enterTimelock s else s
  else s

end Sys2Proof.Machine
end

