-- ==== Sys2Proof/Machine/Crypto.lean ====
section
/-! DEFINITION. SHA-384 and the verification of an ECDSA signature over the curve P-384, which a signed Slate image needs
(R327). FIPS 180-4 and FIPS 186-5, which the rule names, define both. -/

namespace Sys2Proof.Machine

/-! ## SHA-384 -/

/-- The round constants. -/
def shaK : List W64 :=
  [0x428A2F98D728AE22, 0x7137449123EF65CD, 0xB5C0FBCFEC4D3B2F, 0xE9B5DBA58189DBBC,
   0x3956C25BF348B538, 0x59F111F1B605D019, 0x923F82A4AF194F9B, 0xAB1C5ED5DA6D8118] ++
  [0xD807AA98A3030242, 0x12835B0145706FBE, 0x243185BE4EE4B28C, 0x550C7DC3D5FFB4E2,
   0x72BE5D74F27B896F, 0x80DEB1FE3B1696B1, 0x9BDC06A725C71235, 0xC19BF174CF692694] ++
  [0xE49B69C19EF14AD2, 0xEFBE4786384F25E3, 0x0FC19DC68B8CD5B5, 0x240CA1CC77AC9C65,
   0x2DE92C6F592B0275, 0x4A7484AA6EA6E483, 0x5CB0A9DCBD41FBD4, 0x76F988DA831153B5] ++
  [0x983E5152EE66DFAB, 0xA831C66D2DB43210, 0xB00327C898FB213F, 0xBF597FC7BEEF0EE4,
   0xC6E00BF33DA88FC2, 0xD5A79147930AA725, 0x06CA6351E003826F, 0x142929670A0E6E70] ++
  [0x27B70A8546D22FFC, 0x2E1B21385C26C926, 0x4D2C6DFC5AC42AED, 0x53380D139D95B3DF,
   0x650A73548BAF63DE, 0x766A0ABB3C77B2A8, 0x81C2C92E47EDAEE6, 0x92722C851482353B] ++
  [0xA2BFE8A14CF10364, 0xA81A664BBC423001, 0xC24B8B70D0F89791, 0xC76C51A30654BE30,
   0xD192E819D6EF5218, 0xD69906245565A910, 0xF40E35855771202A, 0x106AA07032BBD1B8] ++
  [0x19A4C116B8D2D0C8, 0x1E376C085141AB53, 0x2748774CDF8EEB99, 0x34B0BCB5E19B48A8,
   0x391C0CB3C5C95A63, 0x4ED8AA4AE3418ACB, 0x5B9CCA4F7763E373, 0x682E6FF3D6B2B8A3] ++
  [0x748F82EE5DEFB2FC, 0x78A5636F43172F60, 0x84C87814A1F0AB72, 0x8CC702081A6439EC,
   0x90BEFFFA23631E28, 0xA4506CEBDE82BDE9, 0xBEF9A3F7B2C67915, 0xC67178F2E372532B] ++
  [0xCA273ECEEA26619C, 0xD186B8C721C0C207, 0xEADA7DD6CDE0EB1E, 0xF57D4F7FEE6ED178,
   0x06F067AA72176FBA, 0x0A637DC5A2C898A6, 0x113F9804BEF90DAE, 0x1B710B35131C471B] ++
  [0x28DB77F523047D84, 0x32CAAB7B40C72493, 0x3C9EBE0A15C9BEBC, 0x431D67C49C100D4C,
   0x4CC5D4BECB3E42B6, 0x597F299CFC657E2A, 0x5FCB6FAB3AD6FAEC, 0x6C44198C4A475817]

/-- The initial hash value. -/
def shaIv : List W64 :=
  [0xCBBB9D5DC1059ED8, 0x629A292A367CD507, 0x9159015A3070DD17, 0x152FECD8F70E5939,
   0x67332667FFC00B31, 0x8EB44A8768581511, 0xDB0C2E0D64F98FA7, 0x47B5481DBEFA4FA4]

def rotr (x : W64) (n : Nat) : W64 := x.rotateRight n

/-- A big-endian number from bytes. -/
def beNat (bs : List Byte) : Nat := bs.foldl (fun a b => 256 * a + b.toNat) 0

/-- The low n bytes of x, most significant first. -/
def beBytes (n x : Nat) : List Byte := (leBytes n x).reverse

/-- The message schedule, newest word first. -/
def shaExpand : Nat → List W64 → List W64
  | 0, w => w
  | n + 1, w =>
    let g (i : Nat) : W64 := w.getD (i - 1) 0
    let s0 := rotr (g 15) 1 ^^^ rotr (g 15) 8 ^^^ (g 15 >>> 7)
    let s1 := rotr (g 2) 19 ^^^ rotr (g 2) 61 ^^^ (g 2 >>> 6)
    shaExpand n ((g 16 + s0 + g 7 + s1) :: w)

/-- The eight working variables. -/
structure ShaVars where
  a : W64
  b : W64
  c : W64
  d : W64
  e : W64
  f : W64
  g : W64
  h : W64
  deriving DecidableEq, Repr

/-- One round with its constant and its word. -/
def shaRound (v : ShaVars) (kw : W64 × W64) : ShaVars :=
  let s1 := rotr v.e 14 ^^^ rotr v.e 18 ^^^ rotr v.e 41
  let ch := (v.e &&& v.f) ^^^ ((~~~ v.e) &&& v.g)
  let t1 := v.h + s1 + ch + kw.1 + kw.2
  let s0 := rotr v.a 28 ^^^ rotr v.a 34 ^^^ rotr v.a 39
  let mj := (v.a &&& v.b) ^^^ (v.a &&& v.c) ^^^ (v.b &&& v.c)
  ⟨t1 + s0 + mj, v.a, v.b, v.c, v.d + t1, v.e, v.f, v.g⟩

def beWords : Nat → List Byte → List W64
  | 0, _ => []
  | n + 1, bs => BitVec.ofNat 64 (beNat (bs.take 8)) :: beWords n (bs.drop 8)

def shaBlock (h : ShaVars) (blk : List Byte) : ShaVars :=
  let w := (shaExpand 64 (beWords 16 blk).reverse).reverse
  let v := (shaK.zip w).foldl shaRound h
  ⟨h.a + v.a, h.b + v.b, h.c + v.c, h.d + v.d, h.e + v.e, h.f + v.f, h.g + v.g, h.h + v.h⟩

def shaBlocks : Nat → ShaVars → List Byte → ShaVars
  | 0, h, _ => h
  | n + 1, h, bs => shaBlocks n (shaBlock h (bs.take 128)) (bs.drop 128)

def shaInit : ShaVars :=
  ⟨shaIv.getD 0 0, shaIv.getD 1 0, shaIv.getD 2 0, shaIv.getD 3 0, shaIv.getD 4 0, shaIv.getD 5 0, shaIv.getD 6 0,
   shaIv.getD 7 0⟩

/-- The digest as a 384-bit number, its first bit most significant. (PRESUMED, log 21) -/
def sha384 (m : List Byte) : Nat :=
  let l := m.length
  let z := (128 - (l + 17) % 128) % 128
  let p := m ++ [0x80] ++ List.replicate z 0 ++ beBytes 16 (8 * l)
  let v := shaBlocks (p.length / 128) shaInit p
  [v.a, v.b, v.c, v.d, v.e, v.f].foldl (fun x w => x * 2 ^ 64 + w.toNat) 0

/-! ## P-384 -/

def ecP : Nat := 2 ^ 384 - 2 ^ 128 - 2 ^ 96 + 2 ^ 32 - 1
def ecB : Nat :=
  0xB3312FA7E23EE7E4988E056BE3F82D19181D9C6EFE8141120314088F5013875AC656398D8A2ED19D2A85C8EDD3EC2AEF
def ecN : Nat :=
  0xFFFFFFFFFFFFFFFFFFFFFFFFFFFFFFFFFFFFFFFFFFFFFFFFC7634D81F4372DDF581A0DB248B0A77AECEC196ACCC52973
def ecGx : Nat :=
  0xAA87CA22BE8B05378EB1C71EF320AD746E1D3B628BA79B9859F741E082542A385502F25DBF55296C3A545E3872760AB7
def ecGy : Nat :=
  0x3617DE4A96262C6F5D9E98BF9292DC29F8F41DBD289A147CE9DA3113B5F0B8C00A60B1CE1D7E819D7A431D7C90EA0E5F

def subMod (a b m : Nat) : Nat := (a + m - b % m) % m

/-- x^e mod m for the low n bits of e. -/
def powMod (x m : Nat) : Nat → Nat → Nat
  | 0, _ => 1 % m
  | n + 1, e =>
    let h := powMod x m n (e / 2)
    let q := h * h % m
    if e % 2 = 1 then q * x % m else q

/-- The inverse modulo a prime. -/
def invMod (x m : Nat) : Nat := powMod x m 384 (m - 2)

/-- A point in Jacobian coordinates; z = 0 is the point at infinity. -/
structure Jac where
  x : Nat
  y : Nat
  z : Nat
  deriving DecidableEq, Repr

def jacDbl (p : Jac) : Jac :=
  if p.z = 0 || p.y = 0 then ⟨1, 1, 0⟩
  else
    let m := ecP
    let yy := p.y * p.y % m
    let s := 4 * p.x * yy % m
    let zz := p.z * p.z % m
    let w := 3 * subMod p.x zz m * (p.x + zz) % m
    let x := subMod (w * w) (2 * s) m
    ⟨x, subMod (w * subMod s x m) (8 * yy * yy) m, 2 * p.y * p.z % m⟩

def jacAdd (p q : Jac) : Jac :=
  if p.z = 0 then q
  else if q.z = 0 then p
  else
    let m := ecP
    let z1 := p.z * p.z % m
    let z2 := q.z * q.z % m
    let u1 := p.x * z2 % m
    let u2 := q.x * z1 % m
    let s1 := p.y * z2 % m * q.z % m
    let s2 := q.y * z1 % m * p.z % m
    if u1 = u2 then (if s1 = s2 then jacDbl p else ⟨1, 1, 0⟩)
    else
      let h := subMod u2 u1 m
      let r := subMod s2 s1 m
      let hh := h * h % m
      let hhh := hh * h % m
      let v := u1 * hh % m
      let x := subMod (r * r) (hhh + 2 * v) m
      ⟨x, subMod (r * subMod v x m) (s1 * hhh) m, p.z * q.z % m * h % m⟩

/-- k · p for the low n bits of k. -/
def jacMul (p : Jac) : Nat → Nat → Jac
  | 0, _ => ⟨1, 1, 0⟩
  | n + 1, k =>
    let d := jacDbl (jacMul p n (k / 2))
    if k % 2 = 1 then jacAdd d p else d

/-- Is (x, y) a point of the curve? -/
def onCurve (x y : Nat) : Bool :=
  decide (x < ecP) && decide (y < ecP) && y * y % ecP == (x * x % ecP * x + 3 * (ecP - x) + ecB) % ecP

/-- ECDSA over P-384 with SHA-384: does (r, s) sign the message under the public key (qx, qy)? (PRESUMED, log 21) -/
def ecdsaOk (qx qy r s : Nat) (m : List Byte) : Bool :=
  if !onCurve qx qy || r = 0 || r ≥ ecN || s = 0 || s ≥ ecN then false
  else
    let w := invMod s ecN
    let p := jacAdd (jacMul ⟨ecGx, ecGy, 1⟩ 384 (sha384 m * w % ecN)) (jacMul ⟨qx, qy, 1⟩ 384 (r * w % ecN))
    if p.z = 0 then false
    else
      let zi := invMod p.z ecP
      p.x * (zi * zi % ecP) % ecP % ecN == r

end Sys2Proof.Machine
end

