-- ==== Sys2Proof/Machine/Power.lean ====
section
/-! DEFINITION. Tourmaline's events: transitions of the operating point (R273, R274), sensors, throttling and the
trip (R275 to R277), droop (R278), the current keeper and the power switches (R104 to R108, R279, R280), automatic
calibration (R264), overspend (R256). -/

namespace Sys2Proof.Machine

/-! ## Transitions of the operating point -/

/-- VREQ has changed: VACK is watched from 100 ns on. -/
def execVackWatchStart (s : State) : Host.Outcome State Fault Refusal :=
  .next (match s.trm.trans with
    | some ⟨a, b, 0⟩ => setTrm s (fun t => { t with trans := some ⟨a, b, 1⟩ })
    | some ⟨a, b, 3⟩ => setTrm s (fun t => { t with trans := some ⟨a, b, 4⟩ })
    | _ => s)

/-- VACK_RISE: the supply has settled; a raise slews its clock (R273). An injection may keep VACK away (R389). -/
def execVackRise (s : State) : Host.Outcome State Fault Refusal :=
  .next (match s.trm.trans with
    | some ⟨a, b, 1⟩ =>
      let hitR := flint s 0x1A (InjSel.ofUnit 0) false
      let hit := hitR.1
      let s := hitR.2
      if hit || s.trm.injVack then setTrm s (fun t => { t with injVack := true })
      else setTrm s (fun t => { t with trans := some ⟨a, b, 2⟩ })
    | some ⟨_, _, 4⟩ =>
      let hitR := flint s 0x1A (InjSel.ofUnit 0) false
      let hit := hitR.1
      let s := hitR.2
      if hit || s.trm.injVack then setTrm s (fun t => { t with injVack := true }) else nextMove s
    | _ => s)

/-- VACK_TIMEOUT: the requested point is BAD; a raise goes back to where it came from (R274).
(DESIGN CHOICE, log 10) -/
def execVackTimeout (s : State) : Host.Outcome State Fault Refusal :=
  .next (match s.trm.trans with
    | none => s
    | some t =>
      if t.phase = 2 then s
      else
        let s := setFlag s (Reg.trmOpp t.dst) Fl.trmOpp_BAD true
        let s := setFlag s Reg.trmStat Fl.trmStat_VTIMEOUT true
        let s := recordErr s { ErrRec.ofDet 1 0x1A with inj := s.trm.injVack }
        let s := setTrm s (fun t => { t with injVack := false })
        let s := if t.phase < 3 then setFlag (driveVreq s t.src) Reg.trmOppsel Fl.trmOppsel_BUSY false else s
        nextMove s)

/-- OPP_SLEW_DONE: the clock has reached its new frequency (R273). -/
def execOppSlewDone (s : State) : Host.Outcome State Fault Refusal :=
  .next (match s.trm.trans with
    | some ⟨a, b, 2⟩ =>
      let s := setFld s Reg.trmOppsel Fl.trmOppsel_ACTIVE b
      let s := setFlag s Reg.trmOppsel Fl.trmOppsel_BUSY false
      if b > a || a = 16 then nextMove s else setTrm (driveVreq s b) (fun t => { t with trans := some ⟨a, b, 3⟩ })
    | _ => s)

/-! ## Temperature -/

def throt (s : State) : Int := (fld s Reg.trmTherm Fl.trmTherm_THROT : Int)
def tMax (s : State) : Int := sfld s Reg.trmTherm Fl.trmTherm_TMAX

/-- The field of sensor i. -/
def sensorVal (s : State) (i : Nat) : Nat := fld s (Reg.trmTemp (i / 4)) ⟨16 * (i % 4), 16⟩
def setSensor (s : State) (i v : Nat) : State := setFld s (Reg.trmTemp (i / 4)) ⟨16 * (i % 4), 16⟩ v
def sensorOut (s : State) (i : Nat) : Bool := sensorVal s i == 0x8000
def sensorsOut (s : State) : Nat := ((List.range 16).filter (sensorOut s)).length

/-- One sensor's sample: a value out of range excludes it until reset (R275). -/
def sampleOne (s : State) (x : Int × Nat) : State :=
  let (v, i) := x
  if sensorOut s i then s
  else
    let hitR := flint s 0x19 (InjSel.ofUnit i) false
    let hit := hitR.1
    let s := hitR.2
    if hit || v < -160 || v > 600 then
      let s := setSensor s i 0x8000
      let s := setFlag s Reg.trmStat Fl.trmStat_SENSOR true
      recordErr s { ErrRec.ofDet 1 0x19 with lkind := 4, loc := i, inj := hit }
    else setSensor s i (fromSigned 16 v)

/-- Lower or raise LIMOPP by one point; the operating point follows a lower one at once (R276). -/
def limDown (s : State) : State :=
  let s := setFld s Reg.trmTherm Fl.trmTherm_LIMOPP (limOpp s - 1)
  let s := setFlag s Reg.trmStat Fl.trmStat_HOT true
  let s := calStop s St.calAborted
  if homeOpp s < oppActive s || s.trm.trans.isSome then moveOpp s (homeOpp s) else s

def isHot (s : State) : Bool := tMax s ≥ 4 * (throt s + (fld s Reg.trmTherm Fl.trmTherm_HOT : Int))
def isCool (s : State) : Bool := tMax s < 4 * (throt s - (fld s Reg.trmTherm Fl.trmTherm_HYST : Int))

/-- An array whose power switch is open: its weight registers have lost their contents (R106). -/
def openSwitch (x : ArrSt) : ArrSt :=
  { x with pow := .opened, resident := false, active := none, shadow := none, random := false }

/-- The thermal trip (R277): nothing more enters or commits, every switch opens, every vein is off. It comes in a block
that another fault has stopped as well. -/
def trip (s : State) (i : Nat) (inj : Bool) : State :=
  let s := setTrm s (fun t => { t with tripped := true, autocal := none, cal := [] })
  let s := (List.range 4).foldl (fun s a => setArr s a (openSwitch (arr s a))) s
  recordErr s { ErrRec.ofDet 3 0x1B with status := St.fatalThermal, lkind := 4, loc := i % 16, inj := inj }

/-- SENSOR_SAMPLE: the sixteen sensors are read (R275 to R277). -/
def execSensorSample (readings : List Int) (s : State) : Host.Outcome State Fault Refusal :=
  if s.su != .fatal && !pxRuns s then .next s
  else
  let before := sensorsOut s
  let s := (readings.zip (List.range 16)).foldl sampleOne s
  let valid := (List.range 16).filter (fun i => !sensorOut s i)
  let s := if before < 16 && valid.isEmpty then recordErr s (ErrRec.ofDet 1 0x19) else s
  let t : Int := match valid.map (fun i => toSigned 16 (sensorVal s i)) with
    | [] => 4 * throt s
    | x :: xs => xs.foldl max x
  let s := setFld s Reg.trmTherm Fl.trmTherm_TMAX (fromSigned 16 t)
  let s := if valid.length ≤ 12 && fld s Reg.trmTherm Fl.trmTherm_TCAP > 360
    then setFld s Reg.trmTherm Fl.trmTherm_TCAP 360 else s
  let injR := flint s 0x1B (InjSel.ofUnit 0) false
  let inj := injR.1
  let s := injR.2
  let hotAt := valid.find? (fun i => toSigned 16 (sensorVal s i) ≥ 440)
  let s := match s.trm.autocal with
    | some d => if d % 48 / 4 != bandNow s then setTrm s (fun t => { t with autocal := none }) else s
    | none => s
  if s.trm.tripped then .next s
  else if inj || hotAt.isSome then .next (trip s (hotAt.getD (valid.headD 16)) inj)
  else if s.su == .fatal then .next s
  else
    let s := match calJob s with
      | some (_, j) => if bandNow s != j.prog then calStop s St.calDomain else s
      | none => s
    let was := s.trm.hot
    let s := setTrm s (fun t => { t with hot := isHot s, cool := isCool s })
    .next (if isHot s && !was then limDown s else s)

/-- THERMAL_STEPDOWN: 50 µs more above THROT + HOT (R276). -/
def execThermalStepdown (s : State) : Host.Outcome State Fault Refusal :=
  .next (if s.trm.hot then limDown s else s)

/-- THERMAL_STEPUP: 1 ms below THROT − HYST (R276). -/
def execThermalStepup (s : State) : Host.Outcome State Fault Refusal :=
  .next (if s.trm.cool then setFld s Reg.trmTherm Fl.trmTherm_LIMOPP (min 15 (limOpp s + 1)) else s)

/-! ## Droop -/

/-- What the droop detectors compare VDD_PX with, in mV: the active point's voltage, in a transition the lower of the two
points', less PX_TRM_DROOP.MV, which acts as 10 below 10 (R278). -/
def droopMv (s : State) : Int :=
  let mv (o : Nat) : Nat := if o < 16 then fld s (Reg.trmOpp o) Fl.trmOpp_MV else 0
  let at_ := match s.trm.trans with
    | some t => min (mv t.src) (mv t.dst)
    | none => mv (oppActive s)
  (at_ : Int) - max 10 (fld s Reg.trmDroop Fl.trmDroop_MV)

/-- DROOP_TRIP: a detector reads VDD_PX, in mV, below the level compared with; core clocks are stretched, and a stretch
under way goes on (R278). -/
def execDroopTrip (s : State) (mv : Nat := 0) : Host.Outcome State Fault Refusal :=
  .next (if s.trm.droopOn || !pxRuns s || !decide ((mv : Int) < droopMv s) then s
    else
      let s := incFld s Reg.trmDroop Fl.trmDroop_TOTAL 1
      calStop (setTrm s (fun t => { t with droopOn := true, droopFrm := t.droopFrm + 1 })) St.calAborted)

/-- DROOP_END: no detector has tripped for 16 clocks (R278). -/
def execDroopEnd (s : State) : Host.Outcome State Fault Refusal := .next (setTrm s (fun t => { t with droopOn := false }))

/-! ## Current keeper -/

/-- Some vein holds a deferred or pending group (R108, R280). -/
def groupWaits (s : State) : Bool := (List.range 16).any (holdsGroup s)

/-- The level that the keeper has held through a gap, 3/4 of the level before it or more, in 1/256: before the first gap
real rows ran at a level that only the hardware knows, and a gap that follows a gap goes on from what was held (R104).
(DESIGN CHOICE, log 25) -/
def keeperLevel (s : State) (x : ArrSt) : Nat × State :=
  let (real, s) := if x.gap then (x.level, s) else takeFree s 8
  let low := cdiv (3 * real) 4
  let (more, s) := takeFree s 8
  (low + more % (256 - low), s)

/-- KEEPER_LIMIT: a gap has exceeded the keeper limit; the array ramps down (R106). Its dummy rows came from a generator
whose rule the spec does not give, and ran against random patterns where no tile was resident (R104).
(DESIGN CHOICE, log 25) -/
def execKeeperLimit (a : Fin 4) (s : State) : Host.Outcome State Fault Refusal :=
  let x := arr s a
  .next (if x.pow == .full && !x.preramp then
      let (lv, s) := keeperLevel s x
      let (g, s) := takeFree s 32
      setArr s a { x with pow := .rampDown, gap := true, level := lv, lfsr := g, random := x.active.isNone || x.random }
    else s)

/-- RAMP_DOWN_DONE: the array is idle (R106). -/
def execRampDownDone (a : Fin 4) (s : State) : Host.Outcome State Fault Refusal :=
  .next (if (arr s a).pow == .rampDown then setArr s a { arr s a with pow := .idle } else s)

/-- SWITCH_OPEN: an idle array's switch opens and its registers lose their contents (R106, R280). A fenced array's opens
whatever PSW_EN says (R380). Test access may hold a switch closed (R425). -/
def execSwitchOpen (a : Fin 4) (s : State) : Host.Outcome State Fault Refusal :=
  .next (if (arr s a).pow == .idle && !bit s.svc.pswHold a &&
      ((arr s a).fenced || (flag s Reg.trmKeep Fl.trmKeep_PSW_EN && !groupWaits s)) then
      setArr s a (openSwitch (arr s a))
    else s)

/-- SWITCH_CLOSE_DONE: ramp-up begins, and the next switch closes (R107, R418). -/
def execSwitchCloseDone (a : Fin 4) (s : State) : Host.Outcome State Fault Refusal :=
  .next (if (arr s a).pow == .closing then nextSwitch (setArr s a (rampUp (arr s a))) else s)

/-- RAMP_UP_DONE: every column is admitted (R107). -/
def execRampUpDone (a : Fin 4) (s : State) : Host.Outcome State Fault Refusal :=
  .next (if (arr s a).pow == .rampUp then setArr s a { arr s a with pow := .full } else s)

/-- PRE_RAMP: idle arrays in service are made ready for the next tick (R108). -/
def execPreRamp (s : State) : Host.Outcome State Fault Refusal :=
  .next (if groupWaits s then
      (arraysIn s).foldl (fun s a => match (arr s a).pow with
        | .idle => setArr s a { rampUp (arr s a) with preramp := true }
        | .opened => closeSwitch (setArr s a { arr s a with preramp := true }) a
        | _ => s) s
    else s)

/-- PRE_RAMP_TIMEOUT: no tick came within a period; the keeper ramps down (R108). An array whose switch is still closing
has nothing to ramp down from: its switch opens again, unless test access holds it closed (R425).
(DESIGN CHOICE, log 133) -/
def execPreRampTimeout (s : State) : Host.Outcome State Fault Refusal :=
  .next (nextSwitch ((List.range 4).foldl (fun s a =>
    let x := arr s a
    if x.preramp then
      setArr s a { x with preramp := false, pow := (match x.pow with
        | .closing => if bit s.svc.pswHold a then .closing else .opened
        | .waiting => .opened
        | .opened => .opened
        | .idle => .idle
        | _ => .rampDown) }
    else s) s))

/-! ## Automatic calibration -/

/-- An idle window: no admitted work, no array held, and no real row on any for the keeper limit, which also holds of an array
that has taken no tile since it was switched on (R264). (DEDUCED, log 26) -/
def idleWindow (s : State) : Bool :=
  frameIdle s && (allJobs s).all (fun p => p.2.arrays.isEmpty) &&
    (arraysIn s).all (fun a => (arr s a).gap || !(arr s a).resident) &&
    decide ((tsDiff (fld s Reg.crnGrid Fl.crnGrid_NEXT) (tstamp s)).toNat * frameF s / 640 ≥ 65536) &&
    decide (liveQ s > 0) && !s.trm.overspent

/-- A filler command stands ready: it goes first (R270). -/
def fillerReady (s : State) : Bool :=
  (List.range 16).any (fun v => isFiller s (vTenant s v) && vState s v == Vs.ready &&
    (match headCmd s v with | some c => fillerMay s (estimate s c.words).e | none => false))

/-- AUTOCAL_START: a marked domain of the frame's operating point and temperature band is measured (R264). -/
def execAutocalStart (domain : Nat) (s : State) : Host.Outcome State Fault Refusal :=
  .next (if isRun s && flag s Reg.trmCtrl Fl.trmCtrl_AUTOCAL && s.trm.autocal.isNone && idleWindow s && !fillerReady s &&
      s.trm.marked.contains domain && domain / 48 == frameOpp s && domain % 48 / 4 == bandNow s then
    setTrm s (fun t => { t with autocal := some domain })
  else s)

/-- AUTOCAL_DONE: every coefficient is measured; the entry is written unless the temperature band has changed (R264).
(DESIGN CHOICE, log 26) -/
def execAutocalDone (coeffs : List Nat) (s : State) : Host.Outcome State Fault Refusal :=
  .next (match s.trm.autocal with
    | none => s
    | some d =>
      let s := setTrm s (fun t => { t with autocal := none })
      if d % 48 / 4 != bandNow s then s
      else setTrm (writeEntry s d coeffs) (fun t => { t with marked := t.marked.filter (· != d) }))

/-! ## Overspend -/

/-- OVERSPEND: Q has fallen below zero (R256). (DEDUCED, log 53) -/
def execOverspend (drawn : Nat) (s : State) : Host.Outcome State Fault Refusal :=
  let s := showQ (setTrm s (fun t => { t with drawn := drawn }))
  .next (if liveQ s < 0 then
      let s := setTrm s (fun t => { t with overspent := true, autocal := none })
      notice (setFlag s Reg.trmStat Fl.trmStat_OVERSPEND true) Unit.trm
    else s)

end Sys2Proof.Machine
end

