-- ==== Sys2Proof/Machine/Slate.lean ====
section
/-! DEFINITION. The Slate image: parsing (R317 to R323), signatures (R326 to R328), refusals (R329), claims (R330, R331),
the field checks of every chapter, and application (R324, R325). -/

namespace Sys2Proof.Machine

/-! ## Refusals (R329) -/

/-- A refusal and what it names: section, register block, index, register; for a claim conflict the contents of
PX_SLT_CONFLICT. -/
structure SltFail where
  status   : Nat
  sect     : Nat
  block    : Nat
  index    : Nat
  reg      : Nat
  conflict : Option (Nat × Nat × Nat × Nat × Nat)   -- class, earlier feature, later feature, section, unit
  deriving DecidableEq, Repr

/-- A refusal that names nothing but perhaps a section. -/
def sltFail (status sect : Nat) : SltFail := ⟨status, sect, 0, 0xFF, 0, none⟩

/-- SLATE_CONFLICT about a field: it names the register's block (R404). (DEDUCED, log 61) -/
def sltConflict (index reg : Nat) : SltFail := ⟨St.slateConflict, 0xFF, reg / 0x10000, index, reg, none⟩

/-- (DEDUCED, log 61) -/
def SltFail.detail (f : SltFail) : Nat := f.sect + f.block <<< 8 + f.index <<< 16 + f.reg <<< 24

/-! ## Layout -/

def imgNat (img : List Byte) (o n : Nat) : Nat := leNat ((img.drop o).take n)
def imgBytes (img : List Byte) (o n : Nat) : List Byte := (img.drop o).take n
def imgAny (img : List Byte) (o n : Nat) : Bool := (imgBytes img o n).any (· != 0)

def imgLen (img : List Byte) : Nat := imgNat img 8 4
def imgSects (img : List Byte) : Nat := imgNat img 6 1
def imgSigned (img : List Byte) : Bool := bit (imgNat img 7 1) 0

/-- A section-table entry (R318). -/
structure Sect where
  idx   : Nat
  type  : Nat
  first : Nat
  last  : Nat
  off   : Nat
  len   : Nat
  crc   : Nat
  deriving DecidableEq, Repr

/-- Entry i of a table that begins with the image's header. -/
def sectAt (img : List Byte) (i : Nat) : Sect :=
  let o := 0x100 + 32 * i
  ⟨i, imgNat img o 1, imgNat img (o + 4) 2, imgNat img (o + 6) 2, imgNat img (o + 8) 4, imgNat img (o + 12) 4,
   imgNat img (o + 16) 4⟩

/-- SVER, and the reserved bits of an entry. -/
def sectFormBad (img : List Byte) (i : Nat) : Bool :=
  let o := 0x100 + 32 * i
  let e := sectAt img i
  e.type = 0 || e.type > 0x0C || imgNat img (o + 1) 1 != 1 || imgAny img (o + 2) 2 || e.first ≥ 1024 || e.last ≥ 1024 ||
    imgAny img (o + 20) 12

def sectsOverlap (a b : Sect) : Bool := max a.off b.off < min (a.off + a.len) (b.off + b.len)

/-- The entries in order; the first bad one refuses the image (R319). -/
def parseEntries (img : List Byte) : List Nat → List Sect → Except SltFail (List Sect)
  | [], acc => .ok acc
  | i :: is, acc =>
    let e := sectAt img i
    if sectFormBad img i || e.off % 64 != 0 || e.off < 0x900 || e.off + e.len > imgLen img || e.first > e.last ||
        acc.any (sectsOverlap e) then .error (sltFail St.slateFormat i)
    else parseEntries img is (acc ++ [e])

def sectBody (img : List Byte) (e : Sect) : List Byte := imgBytes img e.off e.len

/-- How many kept sections have a type. -/
def typeCount (keep : List Sect) (t : Nat) : Nat := (keep.filter (fun e => e.type == t)).length

/-- Destinations of the UCODE sections. -/
def ucodeSlots (img : List Byte) (keep : List Sect) : List Nat :=
  (keep.filter (fun e => e.type == 3)).map (fun e => imgNat img (e.off + 8) 4)

/-- The multiplicity rules of R320 and R321. -/
def multiplicityBad (img : List Byte) (keep : List Sect) : Bool :=
  let all (e : Sect) : Bool := e.first == 0 && e.last == 1023
  [1, 4, 5, 8].any (fun t => typeCount keep t != 1) || [6, 7, 0xA, 0xB].any (fun t => typeCount keep t > 1) ||
    [0, 1].any (fun k => ((ucodeSlots img keep).filter (· == k)).length > 1) ||
    keep.any (fun e => e.type == 1 && !all e) || typeCount keep 0xC != b2n (imgSigned img) ||
    keep.any (fun e => e.type == 0xC && (!all e || e.off + e.len != imgLen img))

/-- slate_parse of R319 for this block's stratum; room: bytes from the image's start to the end of the flash (R314).
An image that ends before IMGLEN is a read that did not complete. (DEDUCED, log 57) -/
def slateParse (s : State) (room : Nat) (img : List Byte) : Except SltFail (List Sect) :=
  let no (c : Nat) : Except SltFail (List Sect) := .error (sltFail c 0xFF)
  let n := imgSects img
  let len := imgLen img
  if img.length < 0x100 then no St.slateFlash
  else if imgNat img 0 4 != 0x534C4154 || imgNat img 4 2 != 1 then no St.slateFormat
  else if crc32c (imgBytes img 0 0xFC) != imgNat img 0xFC 4 then no St.slateCrc
  else if n = 0 || n > 64 || len < 0x900 || len > 2 ^ 24 || imgNat img 7 1 > 1 || imgAny img 0x1C 4 ||
      imgAny img 0x24 0xD8 then no St.slateFormat
  else if len > room then no St.slateFormat
  else if img.length < len then no St.slateFlash
  else if crc32c (imgBytes img 0x100 (32 * n)) != imgNat img 0x20 4 then no St.slateCrc
  else if imgNat img 0x0C 2 != fld s Reg.idPart Fl.idPart_PARTID ||
      !bit (imgNat img 0x0E 2) (fld s Reg.idPart Fl.idPart_STEPIDX) then no St.slateConflict
  else
    match parseEntries img (List.range n) [] with
    | .error f => .error f
    | .ok es =>
      let keep := es.filter (fun e => e.first ≤ stratum s && stratum s ≤ e.last)
      if multiplicityBad img keep then no St.slateFormat
      else
        match keep.find? (fun e => crc32c (sectBody img e) != e.crc) with
        | some e => .error (sltFail St.slateCrc e.idx)
        | none => .ok keep

/-! ## Signature (R327, R328) -/

/-- The SIG body signs the image under the fused key. -/
def sigGood (s : State) (img : List Byte) (e : Sect) : Bool :=
  let b := sectBody img e
  let key := s.strap.keyhash.toNat
  key != 0 && sha384 (b.take 97) == key && imgNat b 0 1 == 4 &&
    ecdsaOk (beNat (imgBytes b 1 48)) (beNat (imgBytes b 49 48)) (beNat (imgBytes b 144 48))
      (beNat (imgBytes b 192 48)) (img.take e.off)

/-- The outcome of the table in R328; a SIG body is 256 B long. -/
def sigFail (s : State) (img : List Byte) (keep : List Sect) : Option SltFail :=
  match keep.find? (fun e => e.type == 0xC) with
  | some e =>
    if e.len != 256 then some (sltFail St.slateFormat e.idx)
    else if sigGood s img e then none else some (sltFail St.slateSig e.idx)
  | none => if s.strap.sigreq then some (sltFail St.slateSig 0xFF) else none

/-! ## Bodies (R321, R322, R331) -/

structure SBody where
  nrec  : Nat
  recs  : List (Nat × Nat)     -- bytes 0 to 7 and the value
  data  : List Byte
  ddest : Nat
  deriving DecidableEq, Repr

/-- A body of the form of R322. (DEDUCED, log 59) -/
def sbodyOf (b : List Byte) : SBody :=
  let n := imgNat b 0 4
  ⟨n, (List.range (min n (b.length / 16))).map (fun i => (imgNat b (16 + 16 * i) 8, imgNat b (24 + 16 * i) 8)),
   b.drop (16 + 16 * n), imgNat b 8 4⟩

/-- Register sets of GLOBAL and STRATUM (R321, R392). -/
def globalRegs : List Nat :=
  [Reg.numSrSeed, Reg.numCtrl, Reg.numHistCfg, Reg.shlCtrl, Reg.shlMaskCfg, Reg.stmCtrl, Reg.crnCtrl, Reg.trmCtrl,
   Reg.trmCap, Reg.trmKeep, Reg.trmTherm, Reg.trmDroop, Reg.trmCostCfg, Reg.xlCtrl, Reg.strCtrl, Reg.sltCtrl, Reg.sltRld,
   Reg.vnFiller, Reg.tchCtrl, Reg.errCtrl, Reg.errRingCfg, Reg.fltPolicy, Reg.fltAllow]

/-- One of n registers of a group. -/
def oneOf (n : Nat) (r : Nat → Nat) (a : Nat) : Bool := (List.range n).any (fun i => r i == a)

/-- May a record of this type write the register? (R321) -/
def typeWrites (t a : Nat) : Bool :=
  match t with
  | 1 => globalRegs.contains a || a == Reg.crnPeriod
  | 2 => globalRegs.contains a
  | 4 => oneOf 6 Reg.crnAsym a || oneOf 4 Reg.tchSpare a
  | 5 => oneOf 16 Reg.trmOpp a || a == Reg.trmOppsel
  | 6 => oneOf 6 Reg.xlLnkPol a || oneOf 128 Reg.xlRoute a
  | 7 => oneOf 64 Reg.stmMcast a
  | 8 => oneOf 4 Reg.vnTenant a || oneOf 4 Reg.stmRange a || oneOf 4 Reg.semRange a || oneOf 16 Reg.trmMpart a ||
      oneOf 4 Reg.trmTen a
  | 0xB => oneOf 16 Reg.vnQbase a || oneOf 16 Reg.vnQcfg a || oneOf 16 Reg.vnTailaddr a || oneOf 16 Reg.vnSeq a ||
      oneOf 16 Reg.vnTail a
  | _ => false

def recBad (t : Nat) (r : Nat × Nat) : Bool := !typeWrites t r.1 || (r.2 &&& loadMask r.1) != r.2

/-- A claim record (R331). -/
structure Claim where
  cls   : Nat
  feat  : Nat
  sect  : Nat
  first : Nat
  count : Nat
  deriving DecidableEq, Repr

def claimsOf (e : Sect) (data : List Byte) : List Claim :=
  (List.range (data.length / 16)).map (fun i =>
    ⟨imgNat data (16 * i) 1, imgNat data (16 * i + 1) 1, e.idx, imgNat data (16 * i + 4) 4, imgNat data (16 * i + 8) 4⟩)

def claimBad (c : Claim) : Bool :=
  let tenant := 0x10 ≤ c.feat && c.feat ≤ 0x13
  c.count = 0 || (match c.cls with
    | 2 => !(tenant || c.feat == 0x21)
    | 3 => !(tenant || c.feat == 0x20 || c.feat == 0x21)
    | 4 => !(tenant || c.feat == 0x21)
    | 5 => !tenant
    | _ => true)

/-- What R321, R322, R323, R331 and R356 refuse about one section. (DEDUCED, log 59) -/
def bodyFail (img : List Byte) (e : Sect) : Option SltFail :=
  let raw := sectBody img e
  let no (reg : Nat) : Option SltFail :=
    some ⟨St.slateFormat, e.idx, if reg = 0 then 0 else reg / 0x10000, 0xFF, reg, none⟩
  match e.type with
  | 0xC => none
  | 0xA => if schedBodyBad raw then no 0 else none
  | t =>
    let b := sbodyOf raw
    let n := b.data.length
    if e.len < 16 || e.len != 16 + 16 * b.nrec + imgNat raw 4 4 || imgAny raw 12 4 then no 0
    else match b.recs.find? (recBad t) with
      | some r => no (bits r.1 0 20)
      | none =>
        let bad := match t with
          | 1 => n != 64 || imgAny b.data 4 4 || imgAny b.data 22 42
          | 3 => b.ddest > 1
          | 4 => n != 50176 || b.ddest % 64 != 0 || b.ddest + n > micaSize
          | 9 => n % 16 != 0 || (claimsOf e b.data).any claimBad ||
              (List.range (n / 16)).any (fun i => imgAny b.data (16 * i + 2) 2 || imgAny b.data (16 * i + 12) 4)
          | 0xB => b.ddest % 64 != 0 || b.ddest ≥ micaSize || b.ddest + n > micaSize
          | _ => n != 0
        if bad then no 0 else none

/-! ## Registers in force after all records -/

/-- Sections of a type, in table order. -/
def ofType (es : List Sect) (t : Nat) : List Sect := es.filter (fun e => e.type == t)

/-- Table index of the first kept section of a type. -/
def firstIdx (keep : List Sect) (t : Nat) : Nat := ((ofType keep t).head?.map (·.idx)).getD 0xFF

/-- Order of application (R324). (DEDUCED, log 65) -/
def applyOrder (es : List Sect) : List Sect := [1, 2, 8, 5, 6, 7, 4, 0xA, 0xB, 3].flatMap (ofType es)

def sectRecs (img : List Byte) (e : Sect) : List (Nat × Nat) :=
  if e.type = 0xA then [] else (sbodyOf (sectBody img e)).recs

/-- The preamble's partition goes into PX_STM_MICA_MAP (R139, R323). -/
def applyMap (s : State) (data : List Byte) : State :=
  let a := Reg.stmMicaMap
  let s := setFld s a Fl.stmMicaMap_A_GROUPS (imgNat data 0 1)
  let s := setFld s a Fl.stmMicaMap_W_GROUPS (imgNat data 1 1)
  let s := setFld s a Fl.stmMicaMap_X_GROUPS (imgNat data 2 1)
  setFld s a Fl.stmMicaMap_S_GROUPS (imgNat data 3 1)

/-- The records of a section apply; a STRATUM record that sets another POLICY refuses the image (R244, R321). -/
def applySectRecs (img : List Byte) (acc : Except SltFail State) (e : Sect) : Except SltFail State :=
  (sectRecs img e).foldl (fun acc r => match acc with
    | .error f => .error f
    | .ok s =>
      if e.type = 2 && r.1 == Reg.crnCtrl && bits r.2 Fl.crnCtrl_POLICY.lo 2 != policy s then
        .error { sltConflict 0xFF Reg.crnCtrl with sect := e.idx }
      else .ok (applyRec s r)) acc

/-- Registers after the records of some sections. -/
def tentative (s : State) (img : List Byte) (es : List Sect) : Except SltFail State :=
  (applyOrder es).foldl (applySectRecs img) (.ok s)

def preamble (img : List Byte) (keep : List Sect) : List Byte :=
  match ofType keep 1 with
  | e :: _ => (sbodyOf (sectBody img e)).data
  | [] => []

/-! ## Claims (R330) -/

/-- Filler tenants. -/
def fillers (t : State) : List Nat :=
  (List.range 4).filter (fun n => flag t (Reg.vnTenant n) Fl.vnTenant_VALID && isFiller t n)

def spillBase (t : State) : Nat := fld t Reg.vnFiller Fl.vnFiller_SPILL * 4096

/-- The claim list: implicit claims, then the RESCLAIM records. staged: length of the load staging range. -/
def claimList (t : State) (img : List Byte) (keep : List Sect) (staged : Nat) : List Claim :=
  let areas := blockAreas t ++ (if (fillers t).isEmpty then [] else [(7, spillBase t, 0x400000)]) ++
    (ofType keep 0xB).map (fun e =>
      let b := sbodyOf (sectBody img e)
      (8, b.ddest, b.data.length)) ++ [(9, 0, staged)]
  let imp := (areas.filter (fun a => a.2.2 != 0)).map (fun (f, b, n) =>
    (⟨1, f, 0xFF, b / 64, cdiv (b + n) 64 - b / 64⟩ : Claim))
  imp ++ (ofType keep 9).flatMap (fun e => claimsOf e (sbodyOf (sectBody img e)).data)

def claimsMeet (a b : Claim) : Bool :=
  a.cls == b.cls && max a.first b.first < min (a.first + a.count) (b.first + b.count)

/-- The first conflict in list order. -/
def claimConflict : List Claim → List Claim → Option (Claim × Claim)
  | _, [] => none
  | before, c :: cs => match before.find? (fun b => claimsMeet b c) with
    | some b => some (b, c)
    | none => claimConflict (before ++ [c]) cs

/-- The refusal that a conflict of claims gives: a table that meets the cost table names Tourmaline (R259). -/
def conflictFail (a b : Claim) : SltFail :=
  let unit := max a.first b.first
  let block := match a.cls with
    | 1 => if a.feat = 5 || b.feat = 5 then 6 else 3
    | 3 => 4
    | 5 => 2
    | _ => 3
  ⟨St.slateConflict, b.sect, block, if a.cls = 5 then unit % 256 else 0xFF, 0, some (a.cls, a.feat, b.feat, b.sect, unit)⟩

/-! ## Field checks (R322) -/

/-- Some frame makes both tenants eligible (R223). -/
def slicesMeet (t : State) (m n : Nat) : Bool :=
  let per (k : Nat) : Nat := fld t (Reg.vnTenant k) Fl.vnTenant_SLICEP + 1
  let on (k f : Nat) : Bool := bit (fld t (Reg.vnTenant k) Fl.vnTenant_SLICEMASK) (f % per k)
  (List.range (per m * per n)).any (fun f => on m f && on n f)

def rangesMeet (a b : Nat × Nat) : Bool := max a.1 b.1 < min a.2 b.2

/-- What two tenants must not share in one frame, in the order of R223, with the register that names it. -/
def sharedRegs (t : State) (m n : Nat) : List Nat :=
  let span (a : Nat → Nat) (fb fc : Field) (k : Nat) : Nat × Nat := (fld t (a k) fb, fld t (a k) fb + fld t (a k) fc)
  ((List.range 4).filter (fun r => rangesMeet (partRange t m r) (partRange t n r))).map (fun r => Reg.trmMpart (4 * n + r)) ++
  (if rangesMeet (span Reg.stmRange Fl.stmRange_BASE Fl.stmRange_COUNT m)
      (span Reg.stmRange Fl.stmRange_BASE Fl.stmRange_COUNT n) then [Reg.stmRange n] else []) ++
  (if rangesMeet (span Reg.semRange Fl.semRange_BASE Fl.semRange_COUNT m)
      (span Reg.semRange Fl.semRange_BASE Fl.semRange_COUNT n) then [Reg.semRange n] else [])

/-- Bytes of a vein's queue in its space (R191). -/
def queueSpan (t : State) (v : Nat) : Nat × Nat :=
  let b := fld t (Reg.vnQbase v) Fl.vnQbase_BASE * 64
  (b, b + 32 * 2 ^ fld t (Reg.vnQcfg v) Fl.vnQcfg_LOG2SZ)

def queueBad (t : State) (v : Nat) : Bool :=
  let on (w : Nat) : Bool := flag t (Reg.vnQcfg w) Fl.vnQcfg_ENABLE
  let mica (w : Nat) : Bool := flag t (Reg.vnQbase w) Fl.vnQbase_SPACE
  let (b, e) := queueSpan t v
  on v && ((mica v && !inTenant t (vTenant t v) b (e - b)) ||
    (List.range v).any (fun w => on w && mica w == mica v && rangesMeet (queueSpan t w) (b, e)))

/-- A valid point of the OPP section breaks R271. (DEDUCED, log 60) -/
def oppBad (t : State) (o : Nat) : Bool :=
  let a := Reg.trmOpp o
  let f (k : Nat) : Nat := fld t (Reg.trmOpp k) Fl.trmOpp_FCODE
  let mv (k : Nat) : Nat := fld t (Reg.trmOpp k) Fl.trmOpp_MV
  flag t a Fl.trmOpp_VALID &&
    (f o < 20 || f o > 80 || mv o < 550 || mv o > 850 ||
      (o != 0 && (!flag t (Reg.trmOpp (o - 1)) Fl.trmOpp_VALID || f o ≤ f (o - 1) || mv o < mv (o - 1))))

/-- The CALIB data leaves a valid point without an entry to estimate from (R262). -/
def oppBlind (t : State) (cost : List Byte) (o : Nat) : Bool :=
  let flags (d : Nat) : Nat := imgNat cost (64 * d) 1
  flag t (Reg.trmOpp o) Fl.trmOpp_VALID &&
    !((List.range 48).any (fun k => bits (flags (48 * o + k)) 0 2 == 1) || bit (flags (768 + o)) 0)

/-- Register whose base places a block table. -/
def areaReg (f : Nat) : Nat :=
  match f with
  | 2 => Reg.numHistCfg | 3 => Reg.shlMaskCfg | 4 => Reg.errRingCfg | 5 => Reg.trmCostCfg | 6 => Reg.sltRld | _ => 0

/-- The checks that the registers' own chapters make at load, in one fixed order; the first that fails decides.
(DEDUCED, log 58, 60) -/
def fieldFail (t : State) (img : List Byte) (keep : List Sect) : Option SltFail :=
  let four := List.range 4
  let firstOf (n : Nat) (r : Nat → Nat) (bad : Nat → Bool) : Option SltFail :=
    ((List.range n).find? bad).map (fun i => sltConflict i (r i))
  let one (reg : Nat) (bad : Bool) : Option SltFail := if bad then some (sltConflict 0xFF reg) else none
  let cal := match ofType keep 4 with | e :: _ => sbodyOf (sectBody img e) | [] => ⟨0, [], [], 0⟩
  let ofCal (f : SltFail) : SltFail := { f with sect := firstIdx keep 4 }
  let ofOpp (f : SltFail) : SltFail := { f with sect := firstIdx keep 5 }
  let ns := fld t Reg.crnPeriod Fl.crnPeriod_NS
  let th := fld t Reg.trmTherm Fl.trmTherm_THROT
  let tau := fld t Reg.tchCtrl Fl.tchCtrl_TAUEXP
  let s0 := regionBase t 3
  let outside := (blockAreas t).find? (fun (_, b, n) => b < s0 || b + n > regionEnd t 3)
  let mpartBad (k : Nat) : Bool :=
    let (b, l) := partRange t (k / 4) (k % 4)
    b < l && (b < regionBase t (k % 4) || l > regionEnd t (k % 4) ||
      (k % 4 == 3 && (blockAreas t).any (fun (f, x, n) => f ≤ 5 && rangesMeet (b, l) (x, x + n))))
  let valid := four.filter (fun n => flag t (Reg.vnTenant n) Fl.vnTenant_VALID)
  let shared := valid.flatMap (fun n => (valid.filter (· < n)).flatMap (fun m =>
    if slicesMeet t m n then (sharedRegs t m n).map (fun a => (n, a)) else []))
  (outside.map (fun (f, _, _) =>
      if f = 5 then sltConflict 0xFF Reg.trmCostCfg else { sltConflict 0xFF (areaReg f) with block := 3 }))
  <|> one Reg.tchCtrl (tau < 20 || tau > 32)
  <|> one Reg.crnCtrl (policy t == 3)
  <|> one Reg.crnPeriod (ns < 4000 || ns > 16000000)
  <|> one Reg.crnCtrl (2 * max 256 (fld t Reg.crnCtrl Fl.crnCtrl_LEAD) ≥ ns)
  <|> one Reg.trmTherm (th < 70 || th > 105)
  <|> (firstOf 16 Reg.trmOpp (oppBad t)).map ofOpp
  <|> (if flag t (Reg.trmOpp 0) Fl.trmOpp_VALID then none else some (ofOpp (sltConflict 0 (Reg.trmOpp 0))))
  <|> (one Reg.trmCostCfg (cal.ddest != fld t Reg.trmCostCfg Fl.trmCostCfg_BASE * 4096)).map ofCal
  <|> (((List.range 16).find? (oppBlind t cal.data)).map (fun o => ofCal { sltConflict o 0 with block := 6 }))
  <|> ((fillers t).drop 1).head?.map (fun n => sltConflict n (Reg.vnTenant n))
  <|> firstOf 4 Reg.stmRange (fun n =>
        fld t (Reg.stmRange n) Fl.stmRange_BASE + fld t (Reg.stmRange n) Fl.stmRange_COUNT > 64)
  <|> firstOf 4 Reg.semRange (fun n =>
        fld t (Reg.semRange n) Fl.semRange_BASE + fld t (Reg.semRange n) Fl.semRange_COUNT > 256)
  <|> (((List.range 16).find? mpartBad).map (fun k => sltConflict (k / 4) (Reg.trmMpart k)))
  <|> (shared.head?.map (fun (n, a) => sltConflict n a))
  <|> firstOf 16 Reg.vnQcfg (fun v => fld t (Reg.vnQcfg v) Fl.vnQcfg_LOG2SZ < 4 ||
        fld t (Reg.vnQcfg v) Fl.vnQcfg_LOG2SZ > 16 || fld t (Reg.vnQcfg v) Fl.vnQcfg_DBMODE == 3)
  <|> firstOf 16 Reg.vnQbase (queueBad t)
  <|> (((List.range 128).find? (fun i => (List.range 16).any (fun k =>
        let x := bits (rd t (Reg.xlRoute i)).toNat (4 * k) 4
        6 ≤ x && x ≤ 14))).map (fun i => sltConflict 0xFF (Reg.xlRoute i)))
  <|> one Reg.vnFiller (!(fillers t).isEmpty && !inRegion t 2 (spillBase t) 0x400000)

/-- A UCODE section of another stepping (R383). (DESIGN CHOICE, log 22) -/
def ucodeFail (img : List Byte) (keep : List Sect) : Option SltFail :=
  ((ofType keep 3).find? (fun e => !Config.ucodeFits (sbodyOf (sectBody img e)).data)).map (fun e =>
    { sltConflict 0xFF 0 with sect := e.idx, block := 2 })

/-! ## The whole check -/

/-- Partition, claims and fields of an image whose registers would be t (R326, R330). -/
def placesCheck (t : State) (img : List Byte) (keep : List Sect) (staged : Nat) : Option SltFail :=
  let g (i : Nat) : Nat := imgNat (preamble img keep) i 1
  if (List.range 4).any (fun i => g i == 0) || g 0 + g 1 + g 2 + g 3 != 24 then
    some { sltConflict 0xFF Reg.stmMicaMap with sect := firstIdx keep 1 }
  else (claimConflict [] (claimList t img keep staged)).map (fun p => conflictFail p.1 p.2) <|>
    fieldFail t img keep <|> ucodeFail img keep

/-- The registers that would be in force, unless a check fails on them. -/
def judged (img : List Byte) (keep : List Sect) (staged : Nat) : Except SltFail State → Except SltFail State
  | .error f => .error f
  | .ok t => match placesCheck t img keep staged with
    | some f => .error f
    | none => .ok t

/-- Every check on the bodies, the claims and the fields. es: the sections whose records apply; s: the registers they
apply to; staged: the load staging range. It answers the registers that would be in force. (DEDUCED, log 58) -/
def bodiesCheck (s : State) (img : List Byte) (keep es : List Sect) (staged : Nat) : Except SltFail State :=
  match keep.findSome? (bodyFail img) with
  | some f => .error f
  | none => judged img keep staged
      (tentative (if (ofType es 1).isEmpty then s else applyMap s (preamble img keep)) img es)

/-- Length of what a block stages in LOAD: the image in the head, its bodies in a follower (R315, R332).
(DEDUCED, log 64) -/
def stagedLen (s : State) (img : List Byte) (keep : List Sect) : Nat :=
  if isHead s then imgLen img else (keep.map (·.len)).foldl (· + ·) 0

/-- The check of a load (R326): the sections kept, and the registers that would be in force. -/
def loadCheck (s : State) (room : Nat) (img : List Byte) : Except SltFail (List Sect × State) :=
  match slateParse s room img with
  | .error f => .error f
  | .ok keep =>
    match sigFail s img keep with
    | some f => .error f
    | none =>
      match bodiesCheck s img keep keep (stagedLen s img keep) with
      | .error f => .error f
      | .ok t => .ok (keep, t)

/-! ## Refusal and application -/

/-- What a refusal leaves of the registers: the stratum fields, attention and error-record registers (R329).
(DEDUCED, log 62) -/
def keptOnRefusal (a : Nat) : Bool :=
  a == Reg.strId || a == Reg.errAtn || a == Reg.errAtnen || a == Reg.errSummary || a == Reg.errRingPtr ||
    a == Reg.errCnt || a == Reg.errCntCe || oneOf 64 Reg.errLast a

/-- A Slate status shows in PX_SLT_STATE.CODE, a conflict of claims in PX_SLT_CONFLICT (R330, R340). -/
def showFail (s : State) (f : SltFail) : State :=
  let s := setFld s Reg.sltState Fl.sltState_CODE f.status
  match f.conflict with
  | none => s
  | some (c, a, b, i, u) =>
    let r := Reg.sltConflict
    let s := setFld (setFld s r Fl.sltConflict_CLASS c) r Fl.sltConflict_FEATA a
    setFld (setFld (setFld s r Fl.sltConflict_FEATB b) r Fl.sltConflict_SECT i) r Fl.sltConflict_INDEX u

/-- A refusal at start-up (R329). (DEDUCED, log 62) -/
def slateRefuse (s : State) (f : SltFail) : State :=
  let s := enterSu { s with regs := s.regs.filter (fun p => keptOnRefusal p.1) } .safe
  let s := setSlt s (fun x => { x with rx := [], whole := false, job := 0 })
  let s := setFlag (showFail s f) Reg.sltStat Fl.sltStat_LOADFAIL true
  recordErr s { ErrRec.ofDet 1 0 with status := f.status, unit := Unit.slt, d0 := f.detail }

/-- Bytes of Mica become zero. -/
def micaZero (s : State) (x n : Nat) : State :=
  { s with mica := s.mica.filter (fun c => !(x ≤ c.1 && c.1 < x + n)) }

/-- The microcode slot of a UCODE section is loaded: valid, and no longer BAD (R383, R384).
(DESIGN CHOICE, log 63) -/
def loadSlot (s : State) (k : Nat) : State :=
  let a := Reg.vnUcode
  if k = 0 then setFlag (setFlag s a Fl.vnUcode_AVALID true) a Fl.vnUcode_ABAD false
  else setFlag (setFlag s a Fl.vnUcode_BVALID true) a Fl.vnUcode_BBAD false

/-- What a section does beside its records: CALIB and BOOTQ data go to Mica, SCHED and UCODE into their place.
(DESIGN CHOICE, log 63; DEDUCED, log 65) -/
def applyData (s : State) (e : Sect) (raw : List Byte) : State :=
  let b := sbodyOf raw
  match e.type with
  | 3 => loadSlot s b.ddest
  | 4 => micaWrite s b.ddest b.data
  | 0xB => micaWrite s b.ddest b.data
  | 0xA => setFld { s with sched := raw } Reg.vnSchedVal Fl.vnSchedVal_NSCHED (leNat (raw.take 1))
  | _ => s

/-- Explicit claims as SltSt keeps them. -/
def claimsInForce (img : List Byte) (keep : List Sect) : List (Nat × Nat × Nat × Nat) :=
  (ofType keep 9).flatMap (fun e => (claimsOf e (sbodyOf (sectBody img e)).data).map (fun c =>
    (c.cls, c.feat, c.first, c.count)))

/-- Identity of the image in force (R340). -/
def showImage (s : State) (img : List Byte) (keep : List Sect) : State :=
  let s := setFld s Reg.sltImage Fl.sltImage_IMGID (imgNat img 0x10 8)
  let s := setFld s Reg.sltInfo Fl.sltInfo_IMGLEN (imgLen img)
  let s := setFld s Reg.sltInfo Fl.sltInfo_NSECT (imgSects img)
  let s := setFld s Reg.sltInfo Fl.sltInfo_VERSION (imgNat img 0x18 4)
  setFld s Reg.sltApplied Fl.sltApplied_SECT (maskOf ((applyOrder keep).map (·.idx)))

/-- The first raise from the boot code to TARGET (R417, R419). Source 16 stands for the boot point.
(DEDUCED, log 67) -/
def bootRaise (s : State) : State :=
  let o := chooseOpp s
  let s := setTrm s (fun t => { t with trans := some ⟨16, o, 0⟩, nextOpp := none })
  setFlag (driveVreq s o) Reg.trmOppsel Fl.trmOppsel_BUSY true

/-- Mica as an image leaves it: the staged bytes, tables cleared, then the data of its sections. -/
def slateData (s : State) (img : List Byte) (keep : List Sect) : State :=
  let stage := if isHead s then img.take (imgLen img) else keep.flatMap (sectBody img)
  let s := micaWrite s 0 stage
  let s := micaZero s (regionBase s 3) 0x20000
  let s := micaZero s (histAddr s 0) (128 * histCount s)
  (applyOrder keep).foldl (fun s e => applyData s e (sectBody img e)) s

/-- What shows that an image is in force; the load is over (R340, R401). -/
def slateMarks (s : State) (img : List Byte) (keep : List Sect) : State :=
  let pre := preamble img keep
  let s := setFlag s Reg.sltState Fl.sltState_SIGNED (imgSigned img)
  let s := if imgSigned img then s else setFlag s Reg.sltStat Fl.sltStat_UNSIGNED true
  let s := showImage s img keep
  let s := setSlt s (fun x => { x with
    rx := [], whole := false, hdrTab := img.take (0x100 + 32 * imgSects img), ts0 := imgNat pre 8 8,
    frame0 := imgNat pre 16 6, claims := claimsInForce img keep })
  { s with locked := true }

/-- Enabled veins of valid tenants are EMPTY. (DEDUCED, log 66) -/
def startVeins (s : State) : State :=
  (List.range 16).foldl (fun s v =>
    if flag s (Reg.vnQcfg v) Fl.vnQcfg_ENABLE && flag s (Reg.vnTenant (vTenant s v)) Fl.vnTenant_VALID then
      setVState s v Vs.empty else s) s

/-- An image that has passed applies whole (R324, R325). t: the registers in force. -/
def slateApply (s : State) (img : List Byte) (keep : List Sect) (t : State) : State :=
  bootRaise (startVeins (slateMarks (slateData { s with regs := t.regs } img keep) img keep))

end Sys2Proof.Machine
end

