-- ==== Sys2Proof/Machine/Reload.lean ====
section
/-! DEFINITION. Live reload (R337 to R339): what changes, whether it may, staging, and application at the tick clock. -/

namespace Sys2Proof.Machine

/-- The section of a new image was in force before as it stands (R338). (DEDUCED, log 74) -/
def unchanged (s : State) (e : Sect) : Bool :=
  let tab := s.slt.hdrTab
  let o := sectAt tab e.idx
  e.idx < imgSects tab && o.type == e.type && o.off == e.off && o.len == e.len && o.crc == e.crc &&
    o.first ≤ stratum s && stratum s ≤ o.last

/-- Sections that a reload brings; the signature is no section to apply. (DEDUCED, log 74) -/
def changedSects (s : State) (keep : List Sect) : List Sect := keep.filter (fun e => e.type != 0xC && !unchanged s e)

/-- A microcode slot that no vein uses or requests (R338, R383). -/
def slotIdle (s : State) (k : Nat) : Bool :=
  let u := fld s Reg.vnUcode Fl.vnUcode_INUSE
  let r := fld s Reg.vnUcode Fl.vnUcode_REQ
  (List.range 16).all (fun v => bit u v != (k == 1) && bit r v != (k == 1))

/-- A field of a register differs. -/
def fieldMoves (s t : State) (a : Nat) (f : Field) : Bool := fld s a f != fld t a f

/-- A change of GLOBAL or STRATUM that the table of R338 does not permit: t holds the registers that would be in force. -/
def reloadForbidden (s t : State) : Bool :=
  fieldMoves s t Reg.crnCtrl Fl.crnCtrl_POLICY || fieldMoves s t Reg.crnCtrl Fl.crnCtrl_LEAD ||
  fieldMoves s t Reg.crnPeriod Fl.crnPeriod_NS ||
  (List.range 4).any (fun r => regionGroups s r != regionGroups t r)

/-- Bytes of the staging area (R338). -/
def rldBase (s : State) : Nat := fld s Reg.sltRld Fl.sltRld_BASE * 4096
def rldSize (s : State) : Nat := fld s Reg.sltRld Fl.sltRld_SIZE * 4096

def sumLen (es : List Sect) : Nat := (es.map (·.len)).foldl (· + ·) 0

/-- Bodies one behind another in the staging area. (DEDUCED, log 64) -/
def stageAll (img : List Byte) : List Sect → Nat → State → State × List (Nat × Nat × Nat)
  | [], _, s => (s, [])
  | e :: es, x, s =>
    let (s, l) := stageAll img es (x + e.len) (micaWrite s x (sectBody img e))
    (s, (e.idx, x, e.len) :: l)

/-- What has been staged is given up, unless it is committed: that still applies at its frame (R337, R338). -/
def dropStaged (s : State) : State :=
  if s.slt.rldAt.isSome then s else setSlt s (fun x => { x with staged := [] })

/-- The block will report 0xB (R338). (DEDUCED, log 75) -/
def reloadRefuse (s : State) (f : Option SltFail) : State :=
  let s := match f with | some f => showFail s f | none => s
  setSlt (dropStaged s) (fun x => { x with rldSt := 2 })

/-- A whole new image in RUN: its changed sections are staged, or it is refused; while committed sections wait in the staging
area there is no room for others (R338). (DEDUCED, log 75) -/
def reloadStage (s : State) (img : List Byte) : State :=
  match slateParse s (2 ^ 24) img with
  | .error f => reloadRefuse s (some f)
  | .ok keep =>
    match sigFail s img keep with
    | some f => reloadRefuse s (some f)
    | none =>
      let es := changedSects s keep
      match bodiesCheck s img keep es 0 with
      | .error f => reloadRefuse s (some f)
      | .ok t =>
        if (List.range 4).any (fun r => regionGroups s r != regionGroups t r) then
          reloadRefuse s (some (sltConflict 0xFF Reg.stmMicaMap))
        else if (ucodeSlots img es).any (fun k => !slotIdle s k) then
          reloadRefuse s (some { sltConflict 0xFF 0 with sect := firstIdx es 3, block := 2 })
        else if reloadForbidden s t || es.any (fun e => e.type == 8 || e.type == 0xB) || rldSize s = 0 ||
            s.slt.rldAt.isSome || sumLen es > rldSize s then reloadRefuse s none
        else
          let (s, l) := stageAll img es (rldBase s) s
          setSlt s (fun x => { x with
            rldSt := 1, staged := l, stagedHdr := img.take (0x100 + 32 * imgSects img),
            rldClaims := claimsInForce img keep })

/-- Records of a staged section at the tick clock of F: routes then, a link's policy at its next training pass, and a group's
register once no stream of it runs (R338). -/
def applyStagedRecs (s : State) (e : Sect) (raw : List Byte) : State :=
  if e.type = 0xA then s
  else
    let b := sbodyOf raw
    if e.type = 7 then
      settleMcast (setSlt s (fun x => { x with mcLater := b.recs.foldl (fun m r =>
        tabSet m ((r.1 - Reg.stmMcast 0) / 8) (BitVec.ofNat 64 r.2)) x.mcLater }))
    else if e.type = 6 then
      let pol (r : Nat × Nat) : Option Nat := (List.range 6).find? (fun l => r.1 == Reg.xlLnkPol l)
      b.recs.foldl (fun s r => match pol r with
        | some l => setSlt s (fun x => { x with polLater := tabSet x.polLater l (BitVec.ofNat 64 r.2) })
        | none => applyRec s r) s
    else
      let s := if e.type = 4 then calStop s St.calAborted else s
      b.recs.foldl applyRec s

/-- A staged reload applies (R338, R339). late: its frame has begun already. (DEDUCED, log 76) -/
def reloadApply (s : State) (late : Bool) : State :=
  let hdr := s.slt.stagedHdr
  let es := s.slt.staged.map (fun p => (sectAt hdr p.1, micaRead s p.2.1 p.2.2))
  let ord := [1, 2, 5, 6, 7, 4, 0xA, 3].flatMap (fun t => es.filter (fun p => p.1.type == t))
  let s := ord.foldl (fun s p => applyData (applyStagedRecs s p.1 p.2) p.1 p.2) s
  let keep := ((List.range (imgSects hdr)).map (sectAt hdr)).filter (fun e => e.first ≤ stratum s && stratum s ≤ e.last)
  let signed := imgSigned hdr
  let s := setFlag s Reg.sltState Fl.sltState_SIGNED signed
  let s := if signed then s else setFlag s Reg.sltStat Fl.sltStat_UNSIGNED true
  let s := showImage s hdr keep
  let s := incFld s Reg.sltStat Fl.sltStat_RELOADS 1
  let s := if late then setFlag s Reg.sltStat Fl.sltStat_RLDLATE true else s
  setSlt s (fun x => { x with
    hdrTab := hdr, claims := x.rldClaims, staged := [], stagedHdr := [], rldClaims := [], rldAt := none,
    rldSt := if x.rldOpen then x.rldSt else 0 })

/-- At the tick clock that opens a frame: a committed reload whose frame has come applies before admission. -/
def reloadAtTick (s : State) (frame : Nat) : State :=
  match s.slt.rldAt with
  | none => s
  | some f =>
    let c := serialCmp f frame 48
    if c = 0 then reloadApply s false else if c = 1 then reloadApply s true else s

end Sys2Proof.Machine
end

