-- ==== Sys2Proof/Machine/Sfdp.lean ====
section
/-! DEFINITION. What the head reads from the flash's SFDP parameter space (R313). The spec names JESD216's tables; their
layout is that standard's. (PRESUMED, log 139) -/

namespace Sys2Proof.Machine

/-- A number of n bytes at o of the parameter space. -/
def sfdpNat (b : List Byte) (o n : Nat) : Nat := leNat ((b.drop o).take n)

/-- Parameter headers: identifier, pointer and length in bytes of each table. -/
def sfdpHeaders (b : List Byte) : List (Nat × Nat × Nat) :=
  (List.range (sfdpNat b 6 1 + 1)).map (fun i =>
    let o := 8 + 8 * i
    (256 * sfdpNat b (o + 7) 1 + sfdpNat b o 1, sfdpNat b (o + 4) 3, 4 * sfdpNat b (o + 3) 1))

/-- Where a table lies; of several with one identifier the last listed, its latest revision. (PRESUMED, log 139) -/
def sfdpTable (b : List Byte) (id : Nat) : Option Nat :=
  ((sfdpHeaders b).reverse.find? (fun h => h.1 == id && h.2.2 != 0)).map (fun h => h.2.1)

/-- What discovery finds: octal DTR or quad I/O, the size in bytes, and whether 4-byte addresses are supported. -/
structure Flash where
  octal    : Bool
  size     : Nat
  fourByte : Bool
  deriving DecidableEq, Repr

/-- Flash size from the second double word of the Basic Flash Parameter Table. -/
def flashSize (d : Nat) : Nat := (if bit d 31 then 2 ^ bits d 0 31 else d + 1) / 8

/-- Discovery (R313): the signature, the tables, and the first read mode that the flash declares: octal DTR with an
xSPI Profile 1.0 table and an octal DDR sequence, else quad I/O. None: SLATE_FLASH. (PRESUMED, log 139) -/
def discover (b : List Byte) : Option Flash :=
  if sfdpNat b 0 4 != 0x50444653 then none
  else match sfdpTable b 0xFF00 with
    | none => none
    | some p =>
      let d := sfdpNat b p 4
      let octal := (sfdpTable b 0xFF05).isSome && (sfdpTable b 0xFF0A).isSome
      if octal || bit d 21 then some ⟨octal, flashSize (sfdpNat b (p + 4) 4), bits d 17 2 == 1 || bits d 17 2 == 2⟩
      else none

end Sys2Proof.Machine
end

