-- ==== Sys2Proof/Machine/Chain.lean ====
section
/-! DEFINITION. Events of the Strata chain and of Slate's distribution (R303 to R309, R313 to R316, R332 to R339). A
follower forwards every message that passes it; the head receives what returns. -/

namespace Sys2Proof.Machine

/-! ## Messages that pass a follower -/

/-- LEN matches the message's type and kind (R304, R307). A type or kind that no table lists has no length to match but
the bound of its type. -/
def lenFits (h : Nat) : Bool :=
  let n := chLen h
  match chType h with
  | 1 => n == 0
  | 2 => 1 ≤ n && n ≤ 4096
  | 3 => (match chKind h with | 1 => n == 2 | 2 => n == 128 | 3 => n == 8 | 4 => n == 8 | _ => n ≤ 1024)
  | 4 => (match chKind h with | 1 => n == 128 | 2 => n == 512 | 3 => n == 128 | _ => n ≤ 1024)
  | _ => true

/-- A type and kind that the tables list. (DEDUCED, log 77) -/
def kindListed (h : Nat) : Bool :=
  match chType h with
  | 1 => true
  | 2 => true
  | 3 => 1 ≤ chKind h && chKind h ≤ 4
  | 4 => 1 ≤ chKind h && chKind h ≤ 3
  | _ => false

/-- A register of the chain changes, but not in SAFE, where it keeps its reset value (R329, R399). -/
def strNote (s : State) (f : State → State) : State := if s.su == .safe then s else f s

/-- A message that failed its CRC is counted (R308, R375). -/
def countCrc (s : State) : State :=
  recordErr (strNote s (fun s => incFld s Reg.strStat Fl.strStat_CRCERR 1)) (ErrRec.ofDet 0 0x18)

/-- A message passes a follower (R307, R308). fwd: header and body as they go on; eff: what it does here, when its CRC
checks. The Strata interface works in every state but OFF. (DEDUCED, log 69) -/
def passMsg (s : State) (m : ChainMsg) (type kind : Nat) (fwd : State → Nat → List Byte → Nat × List Byte)
    (eff : State → Nat → List Byte → State) : State :=
  let h := m.hdr.toNat
  if s.su == .off || isHead s then s
  else if !lenFits h || m.body.length != chLen h then
    if crcGood m then putChain (strNote s (fun s => incFld s Reg.strStat Fl.strStat_BADLEN 1)) h m.body true
    else putChain (countCrc s) h m.body false
  else
    let mine := chType h == type && (type == Ch.enum || type == Ch.image || chKind h == kind)
    let (h', b') := if mine then fwd s h m.body else (h, m.body)
    if crcGood m then (fun s => putChain s h' b' true) (if mine then eff s h m.body else s)
    else putChain (countCrc s) h' b' false

/-- A message goes on as it came. -/
def fwdSame (_ : State) (h : Nat) (b : List Byte) : Nat × List Byte := (h, b)

/-! ### ENUM (R305) -/

def enumNext (h : Nat) : Nat := chArg h % 2048

/-- NEXT as a block sends it on. -/
def enumOut (s : State) (n : Nat) : Nat :=
  if hasStratum s then stratum s + 1 else min 2047 (n + 1)

def fwdEnum (s : State) (h : Nat) (b : List Byte) : Nat × List Byte := (setBits h 0 11 (enumOut s (enumNext h)), b)

/-- A stratum becomes valid, and seeds the stochastic rounding (R53, R305). -/
def takeStratum (s : State) (n : Nat) : State :=
  let s := setFld (setFlag s Reg.strId Fl.strId_VALID true) Reg.strId Fl.strId_STRATUM n
  strNote s (fun s => setFld s Reg.numSrStratum Fl.numSrStratum_SSTRATUM n)

def effEnum (s : State) (h : Nat) (_ : List Byte) : State :=
  let n := enumNext h
  if hasStratum s then (if n = stratum s then s else strNote s (fun s => setFlag s Reg.strStat Fl.strStat_ENUMMIS true))
  else if n < 1024 then takeStratum s n
  else strNote s (fun s => setFlag s Reg.strStat Fl.strStat_OVF true)

/-- ENUM: it passes and assigns a stratum. -/
def execEnum (m : ChainMsg) (s : State) : Host.Outcome State Fault Refusal :=
  .next (passMsg s m Ch.enum 0 fwdEnum effEnum)

/-! ### IMAGE (R333, R334, R339) -/

/-- The pieces that follow one another from offset 0, as one string. -/
def joinPieces : Nat → List (Nat × List Byte) → List Byte
  | _, [] => []
  | pos, (o, bs) :: ps => if o = pos then bs ++ joinPieces (pos + bs.length) ps else []

/-- The whole image, once no byte is missing. (DEDUCED, log 68) -/
def wholeImage (ps : List (Nat × List Byte)) : Option (List Byte) :=
  let img := joinPieces 0 ps
  if img.length ≥ 0x900 && img.length ≥ imgLen img then some img else none

/-- A piece of the image. A first copy that does not come behind all others begins a new stream.
(DEDUCED, log 68) -/
def takePiece (s : State) (h : Nat) (b : List Byte) : State :=
  if s.su == .load || (s.su == .run && s.slt.rldOpen) then
    let fresh := chTry h == 0 && s.slt.rx.any (fun p => chArg h ≤ p.1)
    let rx := tabSet (if fresh then [] else s.slt.rx) (chArg h) b
    setSlt s (fun x => { x with rx := rx, whole := (wholeImage rx).isSome })
  else s

/-- IMAGE: a block that takes the stream keeps the piece. -/
def execImage (m : ChainMsg) (s : State) : Host.Outcome State Fault Refusal :=
  .next (passMsg s m Ch.image 0 fwdSame takePiece)

/-! ### BCAST (R305, R232, R336, R337) -/

/-- CHAIN: the length of the chain. -/
def effChain (s : State) (_ : Nat) (b : List Byte) : State :=
  setFld s Reg.strId Fl.strId_CHAINLEN (leNat b)

/-- CAND: the candidate set, and in TIMELOCK the election; in SAFE the registers keep their reset values (R329). -/
def effCand (s : State) (_ : Nat) (b : List Byte) : State :=
  if s.su == .safe then s
  else elect ((List.range 16).foldl (fun s i => wr s (Reg.crnCand i) (BitVec.ofNat 64 (leNat ((b.drop (8 * i)).take 8)))) s)

/-- PHASE (TIMELOCK): heard now or before, it leads from LINKUP, done, on (R335). (DEDUCED, log 78) -/
def effPhase (s : State) (_ : Nat) (b : List Byte) : State :=
  if leNat b % 16 != 7 then s
  else
    let s := setSlt s (fun x => { x with phase := true })
    if s.su == .linkupDone then enterTimelock s else s

/-- RELOAD: OPEN, COMMIT or ABANDON (R337). The head stages in its checking pass and ignores its own OPEN.
(DEDUCED, log 75) -/
def effReload (s : State) (_ : Nat) (b : List Byte) : State :=
  let w := leNat b
  if s.su != .run then s
  else match bits w 62 2 with
    | 0 =>
      if isHead s then s
      else setSlt (dropStaged s) (fun x => { x with rldOpen := true, rx := [], whole := false, rldSt := 0 })
    | 1 =>
      if s.slt.rldSt = 1 then setSlt s (fun x => { x with rldOpen := false, rldAt := some (bits w 0 48) })
      else setSlt s (fun x => { x with rldOpen := false })
    | 2 => setSlt (dropStaged s) (fun x => { x with rldOpen := false, rx := [], whole := false, rldSt := 0 })
    | _ => s

def execBcastChain (m : ChainMsg) (s : State) : Host.Outcome State Fault Refusal :=
  .next (passMsg s m Ch.bcast 1 fwdSame effChain)

def execBcastCand (m : ChainMsg) (s : State) : Host.Outcome State Fault Refusal :=
  .next (passMsg s m Ch.bcast 2 fwdSame effCand)

def execBcastPhase (m : ChainMsg) (s : State) : Host.Outcome State Fault Refusal :=
  .next (passMsg s m Ch.bcast 3 fwdSame effPhase)

def execBcastReload (m : ChainMsg) (s : State) : Host.Outcome State Fault Refusal :=
  .next (passMsg s m Ch.bcast 4 fwdSame effReload)

/-! ### POLL (R307) -/

def fwdPoll (kind : Nat) (s : State) (h : Nat) (b : List Byte) : Nat × List Byte := (h, fillPoll s kind b)

def effNone (s : State) (_ : Nat) (_ : List Byte) : State := s

/-- POLL ELIG: LODESTONE_EN takes effect, and the block fills in whether it is eligible (R232, R422). -/
def execPollElig (m : ChainMsg) (s : State) : Host.Outcome State Fault Refusal :=
  .next (passMsg (if s.su == .off || isHead s then s else sampleLoden s) m Ch.poll 1 (fwdPoll 1) effNone)

def execPollState (m : ChainMsg) (s : State) : Host.Outcome State Fault Refusal :=
  .next (passMsg s m Ch.poll 2 (fwdPoll 2) effNone)

def execPollAlive (m : ChainMsg) (s : State) : Host.Outcome State Fault Refusal :=
  .next (passMsg s m Ch.poll 3 (fwdPoll 3) effNone)

/-- STRATA_BADLEN: a message of an unlisted kind, or whose LEN does not match, goes on unchanged. Only the second is
counted (R307). (DEDUCED, log 77) -/
def execStrataBadlen (m : ChainMsg) (s : State) : Host.Outcome State Fault Refusal :=
  .next (if lenFits m.hdr.toNat && m.body.length == chLen m.hdr.toNat && kindListed m.hdr.toNat then s
    else passMsg s m 0 0 fwdSame effNone)

/-! ## The head: sending -/

def setJob (s : State) (j : Nat) : State := setSlt s (fun x => { x with job := j })

/-- The head takes stratum 0 and sends ENUM (R305). -/
def sendEnum (s : State) : State := sendChain (takeStratum s 0) (mkHdr Ch.enum 0 1 0) []

def sendBcast (s : State) (kind : Nat) (body : List Byte) : State := sendChain s (mkHdr Ch.bcast kind 0 body.length) body

/-- The head reads the flash; the SLATE group is released (R415). -/
def readFlash (s : State) (j : Nat) : State := emit (setJob s j) (.flash j)

/-- Pieces of up to 4,096 B. -/
def imagePieces : Nat → Nat → List Byte → List (Nat × List Byte)
  | 0, _, _ => []
  | n + 1, o, bs => if bs.isEmpty then [] else (o, bs.take 4096) :: imagePieces n (o + 4096) (bs.drop 4096)

/-- Pieces go out as IMAGE messages, in ascending order, back to back (R333). -/
def sendPieces (s : State) (ps : List (Nat × List Byte)) : State :=
  ps.foldl (fun s p => sendChain s (mkHdr Ch.image 0 p.1 p.2.length) p.2) s

/-- Distribution of an image begins (R333). -/
def distribute (s : State) (img : List Byte) : State :=
  let s := setFlag (setJob s 6) Reg.sltState Fl.sltState_BUSY true
  let body := img.take (imgLen img)
  sendPieces s (imagePieces (body.length / 4096 + 1) 0 body)

/-- A reload ends without effect (R316, R337). told: the chain has been told to open it. (DEDUCED, log 71) -/
def reloadFail (s : State) (told : Bool) : State :=
  let s := setFlag s Reg.sltStat Fl.sltStat_RLDFAIL true
  let s := attnErr s Unit.slt
  let s := if told then sendBcast s 4 (leBytes 8 ((2 <<< 62) + (s.slt.rldNo % 2 ^ 14) <<< 48)) else s
  setSlt (dropStaged s) (fun x => { x with rldSt := 0 })

/-- A reload begins (R337). -/
def startReload (s : State) : State :=
  readFlash (setSlt s (fun x => { x with want := false, isRld := true, rldNo := x.rldNo + 1 })) 2

/-- A reload that was held begins once nothing is being distributed, in RUN (R337). (DEDUCED, log 71) -/
def heldReload (s : State) : State :=
  if isHead s && s.slt.want && s.slt.job = 0 && s.su == .run then startReload s else s

/-- The head's work with the flash or the chain is over; a held reload begins (R337). -/
def endJobHead (s : State) : State :=
  let s := setFlag (setSlt s (fun x => { x with job := 0, isRld := false, ref := [] })) Reg.sltState Fl.sltState_BUSY false
  heldReload s

/-! ## The head: flash reads (R313 to R316) -/

/-- What the discovery shows (R313, R340). -/
def showFlash (s : State) (jedec : Nat) (f : Flash) : State :=
  let s := setFld s Reg.sltState Fl.sltState_FMODE (if f.octal then 2 else 1)
  setFld (setFld s Reg.sltFlash Fl.sltFlash_JEDECID jedec) Reg.sltFlash Fl.sltFlash_DENSITY (Nat.log2 f.size)

/-- The secondary image may be tried (R314). (DEDUCED, log 72) -/
def mayFallBack (fl : Flash) (f : SltFail) : Bool :=
  2 ^ 25 ≤ fl.size && fl.fourByte && [St.slateFormat, St.slateCrc, St.slateSig].contains f.status

/-- R319 and R327 for this block's stratum. -/
def passCheck (s : State) (room : Nat) (img : List Byte) : Except SltFail (List Sect) :=
  match slateParse s room img with
  | .error f => .error f
  | .ok keep => match sigFail s img keep with | some f => .error f | none => .ok keep

/-- The image that a check accepts: the primary, or after its refusal the secondary. (DEDUCED, log 72) -/
def pickImage {α : Type} (check : Nat → List Byte → Except SltFail α) (fl : Flash)
    (image second : List Byte) : Except SltFail (List Byte × Bool × α) :=
  match check fl.size image with
  | .ok x => .ok (image, false, x)
  | .error f =>
    if mayFallBack fl f then
      match check (fl.size - 0x1000000) second with
      | .ok x => .ok (second, true, x)
      | .error _ => .error f
    else .error f

/-- SIG_REQUIRED takes effect at each load (R422). -/
def sampleSigreq (s : State) : State := { s with strap := { s.strap with sigreq := s.pins.sigreq } }

/-- The head's own load: check, application, distribution (R315, R333). -/
def headLoad (s : State) (jedec : Nat) (fl : Flash) (image second : List Byte) : State :=
  let s := showFlash (sampleSigreq s) jedec fl
  match pickImage (loadCheck s) fl image second with
  | .error f => slateRefuse s f
  | .ok (img, sec, keep, t) =>
    let s := slateApply s img keep t
    let s := if sec then setFlag s Reg.sltStat Fl.sltStat_FALLBACK true else s
    distribute s img

/-- Bytes of an image's header and section table. -/
def refHead (img : List Byte) : Nat := 0x100 + 32 * imgSects img

/-- Sections of the table tab, the signature too. -/
def sectsOf (tab : List Byte) : List Sect := (List.range (imgSects tab)).map (sectAt tab)

/-- CRC-32C of every section of the table tab, over the bytes of img (R316). -/
def sectCrcs (tab img : List Byte) : List Nat := (sectsOf tab).map (fun e => crc32c (sectBody img e))

/-- Bytes that the SHA-384 digest covers: those before the signature (R327), of an unsigned image all.
(DEDUCED, log 138) -/
def digestLen (tab : List Byte) : Nat :=
  match (sectsOf tab).find? (fun e => e.type == 0xC) with | some e => e.off | none => imgLen tab

/-- The digest of R316. -/
def digestOf (tab img : List Byte) : List Byte := beBytes 48 (sha384 (img.take (digestLen tab)))

/-- The checking pass of a reload or of a re-send (R316). -/
def headCheck (s : State) (fl : Flash) (image second : List Byte) : State :=
  let s := sampleSigreq s
  match pickImage (passCheck s) fl image second with
  | .error f => endJobHead (if s.slt.isRld then reloadFail (showFail s f) false else s)
  | .ok (img, sec, _) =>
    let s := if sec then setFlag s Reg.sltStat Fl.sltStat_FALLBACK true else s
    let s := setSlt s (fun x => { x with
      ref := img.take (refHead img), refCrc := sectCrcs img img, refDig := digestOf img img, refSec := sec })
    if s.slt.isRld then
      let s := reloadStage s img
      readFlash (sendBcast s 4 (leBytes 8 ((s.slt.rldNo % 2 ^ 14) <<< 48))) 3
    else readFlash s 5

/-- Bytes in which two strings agree from the start. -/
def commonLen : List Byte → List Byte → Nat
  | a :: as, b :: bs => if a = b then commonLen as bs + 1 else 0
  | _, _ => 0

/-- Where the sending pass meets a value that differs from the checking pass: a byte of the header or of the section
table, the last byte of a section whose CRC differs, the last byte that the digest covers, the end of a short read; none:
the image is the same (R316). (DEDUCED, log 138) -/
def changedAt (s : State) (img : List Byte) : Option Nat :=
  let tab := s.slt.ref
  let crcs := (sectsOf tab).zip ((sectCrcs tab img).zip s.slt.refCrc)
  let at1 := if img.take tab.length = tab then [] else [commonLen img tab]
  let at2 := (crcs.filter (fun p => p.2.1 != p.2.2)).map (fun p => p.1.off + p.1.len - 1)
  let at3 := if digestOf tab img = s.slt.refDig then [] else [digestLen tab - 1]
  let at4 := if img.length < imgLen tab then [img.length] else []
  (at1 ++ at2 ++ at3 ++ at4).min?

/-- The sending pass: the image goes out piece by piece as it arrives, until a value differs; then the head stops
(R316). A piece that holds the byte where it shows does not leave. (DEDUCED, log 138) -/
def headSend (s : State) (image second : List Byte) : State :=
  let img := if s.slt.refSec then second else image
  match changedAt s img with
  | none => distribute s img
  | some k =>
    let s := sendPieces s ((imagePieces (k / 4096 + 1) 0 (img.take (imgLen s.slt.ref))).take (k / 4096))
    endJobHead (if s.slt.isRld then reloadFail s true else s)

/-- A read of the flash ended without an image: SLATE_FLASH (R313). -/
def flashFail (s : State) : State :=
  let f := sltFail St.slateFlash 0xFF
  match s.slt.job with
  | 1 => if s.su == .load then slateRefuse s f else s
  | 2 => endJobHead (reloadFail (showFail s f) false)
  | 3 => endJobHead (reloadFail (showFail s f) true)
  | 4 => endJobHead s
  | 5 => endJobHead s
  | _ => s

/-- A read of the flash has given an image. -/
def flashRead (s : State) (jedec : Nat) (fl : Flash) (image second : List Byte) : State :=
  match s.slt.job with
  | 1 => if s.su == .load then headLoad s jedec fl image second else s
  | 2 => headCheck s fl image second
  | 3 => headSend s image second
  | 4 => headCheck s fl image second
  | 5 => headSend s image second
  | _ => s

/-- FLASH_READ_DONE: a read of the flash has ended. The head discovers the flash before it. -/
def execFlashReadDone (r : FlashResult) (s : State) : Host.Outcome State Fault Refusal :=
  .next (if !isHead s then s
    else match r with
      | .fail => flashFail s
      | .read jedec sfdp image second => match discover sfdp with
        | none => flashFail s
        | some fl => flashRead s jedec.toNat fl image second)

/-! ## A follower's check -/

/-- SLATE_CHECK_DONE: a whole image is checked, and applied, staged or refused (R326, R333, R338). -/
def execSlateCheckDone (s : State) : Host.Outcome State Fault Refusal :=
  .next (match wholeImage s.slt.rx with
    | none => s
    | some img =>
      if isHead s then s
      else if s.su == .load && hasStratum s then
        let s := sampleSigreq s
        match loadCheck s (2 ^ 24) img with
        | .error f => slateRefuse s f
        | .ok (keep, t) => enterSu (slateApply s img keep t) .selftest
      else if s.su == .run && s.slt.rldOpen && s.slt.rldSt = 0 then
        setSlt (reloadStage (sampleSigreq s) img) (fun x => { x with rx := [], whole := false })
      else s)

/-! ## The head: what returns (R305, R308, R334 to R337) -/

/-- Codes of the strata below CHAINLEN in a STATE table. -/
def pollCodes (s : State) (b : List Byte) : List Nat :=
  (List.range (fld s Reg.strId Fl.strId_CHAINLEN)).map (fun n => pollEntry b 4 n)

/-- The head broadcasts PHASE (TIMELOCK) (R336). -/
def sendPhase (s : State) : State :=
  sendBcast (setSlt s (fun x => { x with phaseSent := true })) 3 (leBytes 8 7)

/-- A STATE table decides a reload: COMMIT when every block in RUN has staged it, else ABANDON (R337). -/
def decideReload (s : State) (codes : List Nat) : State :=
  if codes.all (fun c => c != 9 && c != 0xB) then
    let f := (frameNo s + max 1 (fld s Reg.sltCtrl Fl.sltCtrl_RLDLEAD)) % 2 ^ 48
    endJobHead (sendBcast s 4 (leBytes 8 ((1 <<< 62) + (s.slt.rldNo % 2 ^ 14) <<< 48 + f)))
  else endJobHead (reloadFail s true)

/-- A STATE table at the head: a reload's decision, the phase gate, and a block that waits in LOAD while no distribution
is in progress: the image is read again (R334), before RUN too by the two passes of R316. (DESIGN CHOICE, log 137) -/
def gotState (s : State) (b : List Byte) : State :=
  let codes := pollCodes s b
  if s.slt.job = 7 then decideReload s codes
  else
    let s := if codes.contains 6 then setSlt s (fun x => { x with seen6 := true }) else s
    let s := if !s.slt.phaseSent && !codes.isEmpty && codes.all (fun c => c == 6 || c == 0xE || c == 0xF)
      then sendPhase s else s
    if s.su != .load && s.slt.job = 0 && codes.contains 3 then readFlash s 4 else s

/-- The last IMAGE message of a distribution has returned. -/
def distributed (s : State) : State :=
  if s.slt.job != 6 || s.slt.outst.any (fun o => chType o.1 == Ch.image) then s
  else if s.su == .load then endJobHead (enterSu s .selftest)
  else if s.slt.isRld then sendPoll (setJob s 7) 2
  else endJobHead s

/-- A message that returned whole does its work in the head too (R307). (DEDUCED, log 69) -/
def headApply (s : State) (m : ChainMsg) : State :=
  let h := m.hdr.toNat
  if s.slt.job = 8 then s
  else match chType h, chKind h with
  | 1, _ =>
    let n := enumNext h
    if n > 1024 then strNote s (fun s => setFlag s Reg.strStat Fl.strStat_OVF true) else sendBcast s 1 (leBytes 2 n)
  | 2, _ => distributed s
  | 3, 1 =>
    let s := setSlt (effChain s h m.body) (fun x => { x with chainOk := true })
    if s.su == .load && s.slt.job = 0 then readFlash s 1 else s
  | 3, 2 => effCand s h m.body
  | 3, 3 => effPhase s h m.body
  | 3, 4 => effReload s h m.body
  | 4, 1 => sendBcast s 2 (m.body.take 128)
  | 4, 2 => gotState s m.body
  | _, _ => s

/-- A message was sent RETRY + 1 times in vain (R308). (DEDUCED, log 71) -/
def noReturn (s : State) (h : Nat) : State :=
  let s := strNote s (fun s => setFlag s Reg.strStat Fl.strStat_NORET true)
  let s := recordErr s (ErrRec.ofDet 1 0x18)
  if s.su == .run then
    if s.slt.isRld then endJobHead (reloadFail s true)
    else if chType h == Ch.image then endJobHead s else s
  else setJob s 8

/-- Send a message again with TRY + 1, or give it up. -/
def resend (s : State) (o : Nat × List Byte) : State :=
  let t := chTry o.1
  if t ≥ fld s Reg.strCtrl Fl.strCtrl_RETRY then noReturn s o.1
  else sendChain s (setBits o.1 56 4 (t + 1)) o.2

/-- Two headers are of the same message. (DEDUCED, log 70) -/
def sameMsg (a b : Nat) : Bool :=
  chType a == chType b && chKind a == chKind b && chTry a == chTry b && (chType a != Ch.image || chArg a == chArg b)

def dropOutst (s : State) (h : Nat) : State := setSlt s (fun x => { x with outst := x.outst.eraseP (fun o => sameMsg o.1 h) })

/-- STRATA_RETURN: a message comes back to the head. One that fails its CRC is the oldest that is out.
(DEDUCED, log 70) -/
def execStrataReturn (m : ChainMsg) (s : State) : Host.Outcome State Fault Refusal :=
  .next (if s.su == .off || !isHead s then s
    else if crcGood m then
      if s.slt.outst.any (fun o => sameMsg o.1 m.hdr.toNat) then headApply (dropOutst s m.hdr.toNat) m else s
    else match s.slt.outst with
      | [] => countCrc s
      | o :: _ => resend (dropOutst (countCrc s) o.1) o)

/-- STRATA_RETURN_TIMEOUT: no copy of the oldest message returned within RTO. -/
def execStrataReturnTimeout (s : State) : Host.Outcome State Fault Refusal :=
  .next (if s.su == .off || !isHead s then s
    else match s.slt.outst with
      | [] => s
      | o :: _ => resend (dropOutst s o.1) o)

/-- The head works through its start-up or in service. (DESIGN CHOICE, log 73) -/
def headLive (s : State) : Bool :=
  isHead s && s.slt.job != 8 && (match s.su with
    | .load => s.slt.chainOk | .selftest => true | .linkup => true | .linkupDone => true | .timelock => true
    | .ready => true | .run => true | _ => false)

/-- HEAD_POLL: the poll interval has passed (R334). (DESIGN CHOICE, log 73) -/
def execHeadPoll (s : State) : Host.Outcome State Fault Refusal := .next (if headLive s then sendPoll s 2 else s)

/-- PHASE_TIMEOUT: PHTO has passed since a block first reported LINKUP, done (R336). -/
def execPhaseTimeout (s : State) : Host.Outcome State Fault Refusal :=
  .next (if headLive s && s.slt.seen6 && !s.slt.phaseSent && fld s Reg.sltCtrl Fl.sltCtrl_PHTO != 0 then
      sendPhase (setFlag s Reg.sltStat Fl.sltStat_EXCLUDED true)
    else s)

/-- ENUM_REQUEST: software makes the head enumerate (R309). SAFE ignores the write (R329). -/
def execEnumRequest (s : State) : Host.Outcome State Fault Refusal :=
  .next (portAct s Reg.strCtrl (fun s => if isHead s then sendEnum s else s))

/-- SLATE_RELOAD: software starts a reload in the head; during a distribution it waits (R337). -/
def execSlateReload (s : State) : Host.Outcome State Fault Refusal :=
  .next (portAct s Reg.sltCmd (fun s =>
    if !isHead s then s
    else if s.slt.job != 0 then setSlt s (fun x => { x with want := true })
    else if s.su == .run then startReload s else s))

end Sys2Proof.Machine
end

