-- ==== Sys2Proof/Machine/Links.lean ====
section
/-! DEFINITION. The Xiulil link layer (R283 to R302): beats and their acknowledgement, negotiation, training, retraining,
fences, and what is lost with a link. -/

namespace Sys2Proof.Machine

/-! ## Tags (R286, R287) -/

/-- The 76 bytes a CRC covers. -/
def crcBytes (f : Flit) : List Byte := leBytes 12 (f.tag.toNat % 2 ^ 96) ++ pad64 (f.payload.take 64)

def flitCrc (wide : Bool) (f : Flit) : Nat := if wide then crc32c (crcBytes f) else crc16From 0xFFFF (crcBytes f)

def flitCrcOk (wide : Bool) (f : Flit) : Bool := tg f 96 32 == flitCrc wide f

/-- Does the link's mode use CRC-32? -/
def wideCrc (s : State) (l : Nat) : Bool := modeBit s l 33

def bufSize (vc : Nat) : Nat := match vc with | 0 => 16 | 1 => 64 | _ => 256

def queueOf (k : LinkSt) (vc : Nat) : List Flit := match vc with | 0 => k.q0 | 1 => k.q1 | 2 => k.q2 | _ => k.q3
def dropHead (k : LinkSt) (vc : Nat) : LinkSt :=
  match vc with
  | 0 => { k with q0 := k.q0.drop 1 } | 1 => { k with q1 := k.q1.drop 1 } | 2 => { k with q2 := k.q2.drop 1 }
  | _ => { k with q3 := k.q3.drop 1 }

/-- A flit of a channel that may leave: the first of its queue, when credit allows. -/
def mayLeave (k : LinkSt) (vc : Nat) : Option Flit :=
  match queueOf k vc with
  | f :: _ => if (fCost f) ≤ k.cred.getD vc 0 then some f else none
  | [] => none

/-- Which of VC2 and VC3 has its turn (R290). -/
def turnVc (s : State) (k : LinkSt) : Nat :=
  let w := max 1 (fld s Reg.xlCtrl Fl.xlCtrl_WDATA)
  let m := max 1 (fld s Reg.xlCtrl Fl.xlCtrl_WMC)
  if k.turn % (w + m) < w then 2 else 3

/-- A turn given away moves on to the other channel. -/
def nextTurn (s : State) (k : LinkSt) : Nat :=
  let w := max 1 (fld s Reg.xlCtrl Fl.xlCtrl_WDATA)
  let m := max 1 (fld s Reg.xlCtrl Fl.xlCtrl_WMC)
  if k.turn % (w + m) < w then w else 0

def spend (k : LinkSt) (f : Flit) : LinkSt :=
  { dropHead k (fVc f) with cred := k.cred.set (fVc f) (k.cred.getD (fVc f) 0 - (fCost f)) }

/-- One lane takes a flit by strict priority: flits kept across retraining, then VC0, VC1, then VC2 and VC3 by weight
(R290, R300). -/
def pickFlit (s : State) (k : LinkSt) : Flit × LinkSt :=
  match k.kept with
  | f :: fs => (f, { k with kept := fs })
  | [] =>
    match mayLeave k 0, mayLeave k 1 with
    | some f, _ => (f, spend k f)
    | none, some f => (f, spend k f)
    | none, none =>
      let a := turnVc s k
      match mayLeave k a with
      | some f => (f, { spend k f with turn := k.turn + 1 })
      | none =>
        match mayLeave k (5 - a) with
        | some f => (f, { spend k f with turn := nextTurn s k + 1 })
        | none => (mkFlit 0 0 0 0 (List.replicate 64 0), k)

def pickFlits (s : State) : Nat → LinkSt → List Flit × LinkSt
  | 0, k => ([], k)
  | n + 1, k =>
    let (f, k) := pickFlit s k
    let (fs, k) := pickFlits s n k
    (f :: fs, k)

/-- The channel whose credits a lane returns, and how many (R286). -/
def takeRet (k : LinkSt) : (Nat × Nat) × LinkSt :=
  match (List.range 4).find? (fun v => k.ret.getD v 0 != 0) with
  | none => ((0, 0), k)
  | some v =>
    let n := min 63 (k.ret.getD v 0)
    ((v, n), { k with ret := k.ret.set v (k.ret.getD v 0 - n) })

/-- A flit's payload with the transmit timestamps of R293 written in: t1, t3, and that of a probe or its reply. -/
def stampFlit (s : State) (f : Flit) : Flit :=
  let t := (fMhdr f) / 2 ^ 60
  let probe := t == 0 && (bits (fMhdr f) 0 8 == 4 || bits (fMhdr f) 0 8 == 5)
  if (fKind f) == 1 && (fVc f) == 0 && (t == 1 || t == 2 || probe) then
    { f with payload := leBytes 8 (tstamp s) ++ f.payload.drop 8 }
  else f

def idleFlit : Flit := mkFlit 0 0 0 0 (List.replicate 64 0)

/-- The flits of a new beat take credits to return, each lane those of one channel (R286, R289). -/
def giveCredits : List Flit → LinkSt → List Flit × LinkSt
  | [], k => ([], k)
  | f :: fs, k =>
    let ((v, n), k) := takeRet k
    let r := giveCredits fs k
    (⟨BitVec.ofNat 128 (f.tag.toNat % 2 ^ 72 + (n <<< 72) + (v <<< 78)), f.payload⟩ :: r.1, r.2)

/-- Complete a tag: sequence, acknowledgement and CRC; the credits stand in it. -/
def tagFlit (wide : Bool) (sq : Nat) (k : LinkSt) (f : Flit) : Flit :=
  let t := f.tag.toNat % 2 ^ 80 + (b2n k.nak <<< 80) + (b2n k.rxAny <<< 81) + (((k.rxSeq + 127) % 128) <<< 82) +
    ((sq % 128) <<< 89)
  ⟨BitVec.ofNat 128 (t + (flitCrc wide ⟨BitVec.ofNat 128 t, f.payload⟩ <<< 96)), f.payload⟩

/-- A new beat of flits already taken from their queues leaves, and is kept until it is acknowledged (R288). -/
def newBeat (s : State) (l : Nat) (k : LinkSt) (fs : List Flit) : State :=
  let r := giveCredits (fs.map (stampFlit s)) k
  let k := r.2
  let gs := r.1.map (tagFlit (wideCrc s l) k.txSeq k)
  emit (setLink s l { k with unacked := k.unacked ++ [(k.txSeq, r.1)], txSeq := (k.txSeq + 1) % 128 }) (.beat l gs)

/-- A beat of an IDLE flit on each lane that has no new number; it only acknowledges (R288). -/
def ackBeat (s : State) (l : Nat) : State :=
  let k := link s l
  emit s (.beat l (List.replicate (laneCount s l) (tagFlit (wideCrc s l) (k.txSeq + 127) k idleFlit)))

/-- The oldest beat still to be resent leaves once more (R288). -/
def resendBeat (s : State) (l : Nat) : State :=
  let k := link s l
  match k.replay with
  | [] => s
  | (q, fs) :: rest =>
    let first := k.unacked.head?.any (fun b => b.1 == q)
    let s := setLink s l { k with replay := rest, repCnt := k.repCnt + b2n first }
    emit (incFld s (Reg.xlLnkErr l) Fl.xlLnkErr_REPLAYS 1) (.beat l (fs.map (tagFlit (wideCrc s l) q k)))

/-! ## Fences of a link (R299, R380) -/

/-- A LINKCTL message that waits to leave. -/
def ctlWaits (k : LinkSt) : Bool := (k.q0 ++ k.kept).any (fun f => fKind f == 1 && fVc f == 0 && msgType 0 (fMhdr f))

/-- A fenced link is a resource that a stream uses: its multicast group receives or sends over it, or it writes to a
stratum whose route names the link and no longer leads on (R152). (DESIGN CHOICE, log 140) -/
def usesLink (s : State) (l i : Nat) : Bool :=
  let d := desc s i
  let a := Reg.stmMcast d.group
  if d.mc then
    if d.kind == 1 then fld s a Fl.stmMcast_UPLINK == l else bit (fld s a Fl.stmMcast_DOWN) l
  else d.remote && routesBack s d.xstratum (some l) && nextLink s d.xstratum 2 none == .fail

/-- Streams that use a fenced link halt (R152). (DESIGN CHOICE, log 140) -/
def haltUsers (s : State) (l : Nat) : State :=
  (List.range 64).foldl (fun s i =>
    if (sState s i == Ss.running || sState s i == Ss.ended) && usesLink s l i then haltStream s i St.linkDown else s) s

/-- Both sides have exchanged fence and fence acknowledged: the link is FENCED (R299). -/
def checkFenced (s : State) (l : Nat) : State :=
  let k := link s l
  if linkActive s l && k.fenceTx && k.fenceAck && k.fenceRx && !ctlWaits k then
    let s := setLink s l { k with fenceTx := false, fenceAck := false, fenceRx := false, retrained := true }
    haltUsers (linkGone (setLinkState s l Lk.fenced) l) l
  else s

/-- One beat slot of an ACTIVE link: a replayed beat, an IDLE beat while 64 wait for acknowledgement, or a new beat
(R283, R288, R290). (DEDUCED, log 45) -/
def sendBeat (s : State) (l : Nat) : State :=
  let k := link s l
  if !linkActive s l then s
  else if !k.replay.isEmpty then resendBeat s l
  else if k.unacked.length ≥ 64 then ackBeat s l
  else
    let r := pickFlits s (laneCount s l) k
    checkFenced (newBeat s l r.2 r.1) l

/-- A LINKCTL message in a beat of its own: CALIBRATE sends its probes so, outside the numbering of ACTIVE (R298).
(DESIGN CHOICE, log 44) -/
def ctlBeat (s : State) (l op p0 p1 : Nat) : State :=
  let f := mkFlit 0 1 0 (vc0Hdr s 0 op) (pad64 (payloadOf [p0, p1]))
  emit s (.beat l ((f :: List.replicate (laneCount s l - 1) idleFlit).map (tagFlit (wideCrc s l) 0 LinkSt.init)))

/-! ## Negotiation (R296, R297) -/

/-- What the hardware offers on a link, with the widths and divisors that its physical layer has (R285). -/
def hwCaps (s : State) (l : Nat) : Nat :=
  let p := if l < 4 then 0x3F else (link s l).phys % 64
  let width := if l < 4 then bits p 3 3 else bits p 3 3 / 2 * 2
  -- MCR, ZRC, CRC-32 and CRC-16, SEMT, TICKC: [35:30] all offered; PAYLOAD [38:36] all
  (width <<< 42) + (bits p 0 3 <<< 39) + (7 <<< 36) + (0x3F <<< 30)

/-- The capability word (R296). (DESIGN CHOICE, log 43) -/
def capWord (s : State) (l : Nat) : Nat :=
  let allow := bits (fld s (Reg.xlLnkPol l) Fl.xlLnkPol_ALLOW) 0 15 <<< 30
  let k := link s l
  (1 <<< 56) + (stratum s <<< 46) + (b2n (decide (4 ≤ l)) <<< 45) + (hwCaps s l &&& allow) +
    (if k.retrained then (1 <<< 23) + (k.rxSeq <<< 16) else 0)

/-- The highest bit of a group that both offer; none: nothing common. -/
def pickGroup (c lo n : Nat) : Option Nat :=
  ((List.range n).reverse.find? (fun i => bit c (lo + i))).map (fun i => 1 <<< (lo + i))

/-- select of R297: a and b the two capability words. -/
def selectMode (s : State) (l a b : Nat) : Option Nat :=
  let b := if bits b 56 8 = 1 then b else bits b 45 1 <<< 45
  let c := a &&& b
  if bit a 45 != bit b 45 then none
  else
    match pickGroup c 42 3, pickGroup c 39 3, pickGroup c 36 3, pickGroup c 32 2 with
    | some w, some d, some p, some q =>
      let m := (1 <<< 56) + (stratum s <<< 46) + (bits a 45 1 <<< 45) + w + d + p + q + (bits c 35 1 <<< 35) +
        (bits c 34 1 <<< 34) + (bits c 31 1 <<< 31) + (bits c 30 1 <<< 30)
      let req := fld s (Reg.xlLnkPol l) Fl.xlLnkPol_REQ
      if (bit req 3 && !bit m 33) || (bit req 2 && !bit m 30) || (bit req 1 && !bit m 31) || (bit req 0 && !bit m 35)
      then none else some m
    | _, _, _, _ => none

/-! ## What is lost with a link (R301) -/

/-- Flits that a link still holds, in the order in which they would leave. -/
def heldFlits (k : LinkSt) : List Flit := k.unacked.flatMap (·.2) ++ k.kept ++ k.q1 ++ k.q2

/-- Headers of the routed messages that are lost with a link: those whose HEAD it holds, and the WRITE whose HEAD has
been delivered while flits of it are still held (R301). -/
def lostHdrs (k : LinkSt) : List (Nat × Nat) :=
  let fs := (heldFlits k).filter (fun f => fKind f != 0 && (fVc f == 1 || fVc f == 2))
  let cut := match fs.find? (fun f => fVc f == 2) with
    | some f => if fKind f == 1 then [] else [(2, k.head2)]
    | none => []
  cut ++ (fs.filter (fun f => fKind f == 1)).map (fun f => (fVc f, fMhdr f))

/-- The stream whose WRITE has a header. -/
def lostWrite (s : State) (l : Nat) (h : Nat × Nat) : Option Nat :=
  let m := h.2
  if h.1 == 2 && bits m 40 10 == stratum s then
    (s.writes.find? (fun w => w.link = l && w.dst = bits m 50 10 && w.tenant = bits m 38 2 && w.offset = bits m 12 26 &&
      w.stream < 64)).map (·.stream)
  else none

/-- Held traffic of a link is given up (R301). (DEDUCED, log 46) -/
def loseTraffic (s : State) (l : Nat) (inj : Bool) : State :=
  let k := link s l
  let hs := lostHdrs k
  let n := hs.length
  let streams := (hs.filterMap (lostWrite s l)).eraseDups
  let s := setLink s l { LinkSt.init with phys := k.phys, fence := k.fence, unfence := k.unfence }
  let s := if n = 0 && !inj then s else
    let s := incFld s (Reg.xlLnkCnt l) Fl.xlLnkCnt_LOST n
    let s := setFlag s (Reg.xlLnkStat l) Fl.xlLnkStat_LOST true
    recordErr s { ErrRec.ofDet 2 0x13 with lkind := 2, loc := l, inj := inj }
  streams.foldl (fun s i => haltStream s i St.linkDown) s

/-- A CLEAVE return over a link that cannot come back ends with LINK_DOWN (R380). -/
def unfenceFailed (s : State) (l : Nat) : State :=
  let ends (c : Option (Nat × Nat)) (s : State) : State :=
    match c with
    | some (v, q) => completeJob (addCond s v q St.linkDown) v q
    | none => s
  let k := link s l
  let s := setLink s l { k with unfence := none, fence := none }
  ends k.fence (ends k.unfence s)

/-- The link leaves service: traffic and its part in the tick tree are gone. (DEDUCED, log 46) -/
def linkOut (s : State) (l st : Nat) (inj : Bool) : State :=
  let s := linkGone (loseTraffic (setLinkState s l st) l inj) l
  checkLinkup (unfenceFailed s l)

/-- Entry to DOWN (R299, R301). -/
def linkToDown (s : State) (l : Nat) (inj : Bool) : State :=
  linkOut (setFlag s (Reg.xlLnkStat l) Fl.xlLnkStat_DOWN true) l Lk.down inj

/-! ## Training (R299) -/

/-- ANNOUNCE: the capability word is sent. -/
def announce (s : State) (l : Nat) : State :=
  let s := setLinkState s l Lk.announce
  let w := capWord s l
  emit (wr s (Reg.xlLnkCap l) (BitVec.ofNat 64 w)) (.link l 1 [w] [])

/-- A training pass begins: a reloaded policy of the link takes effect (R338). -/
def trainPol (s : State) (l : Nat) : State :=
  match s.slt.polLater.find? (fun p => p.1 == l) with
  | none => s
  | some p => applyRec { s with slt := { s.slt with polLater := s.slt.polLater.filter (fun q => q.1 != l) } }
      (Reg.xlLnkPol l, p.2.toNat)

def toDetect (s : State) (l : Nat) : State := setLinkState (trainPol s l) l Lk.detect

/-- LINKUP begins: every enabled link starts to train (R299). -/
def linksStart (s : State) : State :=
  checkLinkup ((List.range 6).foldl (fun s l =>
    if flag s (Reg.xlLnkPol l) Fl.xlLnkPol_ENABLE && linkState s l == Lk.off then toDetect s l else s) s)

/-- A beat's flits without IDLE ones and without the request for the retraining that is over (R300). -/
def stripIdle (fs : List Flit) : List Flit :=
  (fs.filter (fun f => fKind f != 0 && !(fKind f == 1 && fVc f == 0 && fMhdr f / 2 ^ 60 == 0 && bits (fMhdr f) 0 8 == 1))).map
    (fun f => ⟨BitVec.ofNat 128 (f.tag.toNat % 2 ^ 72), f.payload⟩)

/-- Beats that the partner has not delivered, from the SEQ that it expects on (R300). -/
def undelivered (k : LinkSt) : List (Nat × List Flit) :=
  match k.resume with
  | none => k.unacked
  | some q => k.unacked.dropWhile (fun b => (b.1 + 128 - q) % 128 ≥ 64)

/-- Flits to send again before anything new, oldest first (R300). (DEDUCED, log 45) -/
def keptFrom (k : LinkSt) : List Flit := stripIdle ((undelivered k).flatMap (·.2)) ++ k.kept

/-- The credits that undelivered beats carried are still to be returned, and the request's own credit is unspent (R289,
R300). -/
def backCredits (k : LinkSt) : LinkSt :=
  (undelivered k).foldl (fun k b => b.2.foldl (fun k f =>
    let v := tg f 78 2
    let k := { k with ret := k.ret.set v (k.ret.getD v 0 + tg f 72 6) }
    if fKind f == 0 || !(stripIdle [f]).isEmpty then k else { k with cred := k.cred.set 0 (k.cred.getD 0 0 + 1) }) k) k

/-- What triggers a retraining: this block, the partner's request, or the loss of the physical link (R300). -/
inductive Retrain where
  | own
  | partner
  | lost
  deriving DecidableEq, Repr

/-- A request to retrain leaves for the partner, where a beat may be sent at all (R293, R300).
(DESIGN CHOICE, log 45) -/
def askPartner (s : State) (l : Nat) : State :=
  let k := link s l
  let f := mkFlit 0 1 0 (vc0Hdr s 0 1) (List.replicate 64 0)
  if k.replay.isEmpty && k.unacked.length < 64 && k.cred.getD 0 0 != 0 then
    newBeat s l { k with cred := k.cred.set 0 (k.cred.getD 0 0 - 1) } (f :: List.replicate (laneCount s l - 1) idleFlit)
  else s

/-- A fence of the link was asked for on this clock (R302). (DEDUCED, log 141) -/
def fencedNow (s : State) (l : Nat) : Bool :=
  let k := link s l
  (k.fence.isSome || k.fenceTx) && k.fenceAt == tstamp s

/-- A retrain trigger of an ACTIVE link (R300): one retraining, recorded and counted. A fence asked for on the same clock
wins against this block's own trigger (R302). (DEDUCED, log 141) -/
def retrainNow (s : State) (l : Nat) (why : Retrain) (inj : Bool) : State :=
  if !linkActive s l || (why == .own && fencedNow s l) then s
  else
    let s := if why == .own then askPartner s l else s
    let s := incFld s (Reg.xlLnkCnt l) Fl.xlLnkCnt_RETRAINS 1
    let s := recordErr s { ErrRec.ofDet 0 0x11 with lkind := 2, loc := l, inj := inj }
    let k := link s l
    let s := setLink s l { k with retrained := true, nak := false, replay := [], repCnt := 0, rejects := [], probes := [] }
    let s := linkGone s l
    if why == .lost then toDetect s l else announce (trainPol s l) l

/-- A link's state as ACTIVE begins (R298, R300): numbering begins anew; what was kept leaves first. Without a retraining
every buffer is empty, and its whole size granted (R289). -/
def activeSt (k : LinkSt) : LinkSt :=
  let b := if k.retrained then { backCredits k with kept := keptFrom k }
    else { k with kept := [], cred := [16, 64, 256, 256], ret := [0, 0, 0, 0], rx := [], head2 := 0 }
  { b with
    txSeq := 0, unacked := [], replay := [], rxSeq := 0, rxAny := false, nak := false, repTo := none, repCnt := 0
    rejects := [], retrained := false, resume := none, probes := [] }

/-- Entry to ACTIVE. A fence that waited for the retraining is sent now (R302). -/
def toActive (s : State) (l : Nat) : State :=
  let k := activeSt (link s l)
  let s := setLink s l k
  let s := setFld (setLinkState s l Lk.active) (Reg.xlLnkState l) Fl.xlLnkState_FAILS 0
  let s := if k.fence.isSome && !k.fenceTx then sendLinkctl (setLink s l { k with fenceTx := true }) l 2 0 0 else s
  checkLinkup s

/-- The next probe of CALIBRATE (R298). (DEDUCED, log 44) -/
def sendProbe (s : State) (l : Nat) : State := ctlBeat s l 4 (tstamp s) 0

/-- Both mode words agree: CALIBRATE begins. -/
def calibrateLink (s : State) (l : Nat) : State :=
  let k := link s l
  let s := wr s (Reg.xlLnkMode l) (BitVec.ofNat 64 k.mode)
  sendProbe (setLinkState (setLink s l { k with probes := [] }) l Lk.calibrate) l

/-- Sixteen probe pairs are complete (R298): the mean delay in 1/256 ns, and tick carriage unless they spread. A round
trip of d units of 1/16 ns is a one-way delay of d/2. (DEDUCED, log 44) -/
def finishProbes (s : State) (l : Nat) : State :=
  let ps := (link s l).probes
  let s := setFld s (Reg.xlLnkState l) Fl.xlLnkState_DLY (ps.foldl (· + ·) 0 / 2)
  let wide := ps.foldl max 0 - ps.foldl min (ps.headD 0) > 16
  let s := if wide then
      let s := setFlag s (Reg.xlLnkStat l) Fl.xlLnkStat_NOTIME true
      wr s (Reg.xlLnkMode l) (BitVec.ofNat 64 (setBits (rd s (Reg.xlLnkMode l)).toNat 30 1 0))
    else s
  toActive s l

/-- Divisors of a rise link: ÷4 always, and ÷2 wherever ÷1 (R285). -/
def riseDivs (d : Nat) : Nat := if bit d 2 then 7 else if bit d 1 then 3 else 1

/-- LINK_DETECT (R285, R299). (DESIGN CHOICE, log 43) -/
def execLinkDetect (l : Fin 6) (width div : BitVec 3) (s : State) : Host.Outcome State Fault Refusal :=
  .next (
    if linkState s l.val != Lk.detect then s
    else
      let k := link s l.val
      let d := if l.val < 4 then div.toNat else riseDivs div.toNat
      announce (setLink s l.val { k with phys := 8 * width.toNat + d }) l.val)

/-- LINK_LOSS: the physical link of an ACTIVE link is lost (R299). -/
def execLinkLoss (l : Fin 6) (s : State) : Host.Outcome State Fault Refusal := .next (retrainNow s l.val .lost false)

/-- CAPABILITY_WORD (R296, R297, R299). -/
def execCapabilityWord (l : Fin 6) (w : W64) (s : State) : Host.Outcome State Fault Refusal :=
  .next (
    let l := l.val
    if linkState s l != Lk.announce then s
    else
      let s := wr s (Reg.xlLnkPeer l) w
      let n := w.toNat
      let k := link s l
      let s := setLink s l { k with resume := if bit n 23 then some (bits n 16 7) else none }
      match selectMode s l (rd s (Reg.xlLnkCap l)).toNat n with
      | none => linkToDown (setFlag s (Reg.xlLnkStat l) Fl.xlLnkStat_REQFAIL true) l false
      | some m =>
        let s := setLink s l { link s l with mode := m }
        emit (setLinkState s l Lk.select) (.link l 2 [m] []))

/-- MODE_WORD (R297, R299): the link proceeds when bits [45:24] agree. -/
def execModeWord (l : Fin 6) (w : W64) (s : State) : Host.Outcome State Fault Refusal :=
  .next (
    let l := l.val
    if linkState s l != Lk.select then s
    else if bits w.toNat 24 22 = bits (link s l).mode 24 22 then calibrateLink s l
    else announce s l)

/-- TRAINING_TIMEOUT (R299): nothing seen leads to ABSENT; any other pass fails, and the third in a row leads to DOWN.
(DESIGN CHOICE, log 10) -/
def execTrainingTimeout (l : Fin 6) (s : State) : Host.Outcome State Fault Refusal :=
  .next (
    let l := l.val
    let st := linkState s l
    let a := Reg.xlLnkState l
    if st == Lk.detect then linkOut s l Lk.absent false
    else if st == Lk.announce || st == Lk.select || st == Lk.calibrate then
      let n := fld s a Fl.xlLnkState_FAILS + 1
      let s := setFld s a Fl.xlLnkState_FAILS n
      if n ≥ 3 then linkToDown s l false else toDetect s l
    else s)

/-- The link trains at all: the block has reached LINKUP. -/
def linksRun (s : State) : Bool :=
  match s.su with
  | .linkup => true | .linkupDone => true | .timelock => true | .ready => true | .run => true | _ => false

/-- A write of RETRAIN (R299, R300). -/
def doRetrain (s : State) (l : Nat) : State :=
  if !linksRun s then s
  else if linkActive s l then retrainNow s l .own false
  else if linkState s l == Lk.absent || linkState s l == Lk.down then
    toDetect (setFld s (Reg.xlLnkState l) Fl.xlLnkState_FAILS 0) l
  else s

/-- A write of DISABLE (R299). -/
def doDisable (s : State) (l : Nat) : State := if linksRun s then linkOut s l Lk.off false else s

def execRetrain (l : Fin 6) (s : State) : Host.Outcome State Fault Refusal :=
  .next (portAct s (Reg.xlLnkCmd l) (fun s => doRetrain s l.val))

def execDisable (l : Fin 6) (s : State) : Host.Outcome State Fault Refusal :=
  .next (portAct s (Reg.xlLnkCmd l) (fun s => doDisable s l.val))

/-! ## LINKCTL (R293) -/

/-- A LINKCTL message that came in ACTIVE has left its receive buffer (R289). -/
def drainCtl (s : State) (l op : Nat) : State := drainMsg s l 0 (fun m => msgType 0 m && m % 256 == op)

/-- The partner's fence: it is acknowledged, and answered with this side's own (R299). -/
def fenceHeard (s : State) (l : Nat) : State :=
  let s := sendLinkctl s l 3 0 0
  let s := if (link s l).fenceTx then s else sendLinkctl s l 2 0 0
  setLink s l { link s l with fenceRx := true, fenceTx := true, fenceAt := tstamp s }

/-- A probe's reply in CALIBRATE: the pair's round trip is taken (R298). -/
def probePair (s : State) (l p1 : Nat) : State :=
  let k := link s l
  let d := (tstamp s + 2 ^ 64 - p1) % 2 ^ 64
  let s := setLink s l { k with probes := k.probes ++ [d] }
  if k.probes.length + 1 ≥ 16 then finishProbes s l else sendProbe s l

/-- LINKCTL: retrain request, fence, fence acknowledged, probe, probe reply (R293, R298 to R300). -/
def execLinkctl (l : Fin 6) (op : Nat) (p0 p1 : W64) (s : State) : Host.Outcome State Fault Refusal :=
  .next (
    let l := l.val
    let act := linkActive s l
    let cal := linkState s l == Lk.calibrate
    let s := if act then drainCtl s l op else s
    match op with
    | 1 => retrainNow s l .partner false
    | 2 => if act then checkFenced (fenceHeard s l) l else s
    | 3 => if act && (link s l).fenceTx then checkFenced (setLink s l { link s l with fenceAck := true }) l else s
    | 4 => if act then sendLinkctl s l 5 0 p0.toNat else if cal then ctlBeat s l 5 (tstamp s) p0.toNat else s
    | 5 => if cal then probePair s l p1.toNat else s
    | _ => if act then badMsg s l false else s)

/-! ## BEAT_RECEIVE (R288) -/

/-- A flit that R291 discards: a reserved kind or type, a non-zero reserved field, a channel the mode lacks. -/
def flitBad (s : State) (l : Nat) (f : Flit) : Bool :=
  let m := (fMhdr f)
  let t := m / 2 ^ 60
  let resv : Bool := match (fVc f), t with
    | 0, 0 => bits m 8 42 != 0 || bits m 0 8 == 0 || bits m 0 8 > 5
    | 0, 1 => bits m 0 20 != 0
    | 0, 4 => bits m 0 20 != 0 || bits m 36 14 != 0
    | 0, 5 => bits m 0 20 != 0 || bits m 36 14 != 0
    | 0, 6 => bits m 0 20 != 0 || bits m 36 4 != 0
    | 0, 2 => bits m 0 50 != 0
    | 0, 3 => bits m 0 50 != 0
    | 0, 7 => bits m 0 50 != 0
    | 0, 8 => bits m 0 50 != 0
    | 1, 1 => bits m 0 14 != 0
    | 1, 2 => false
    | 1, 3 => false
    | 2, 1 => false
    | 3, 1 => bits m 0 9 != 0
    | 3, 2 => bits m 0 20 != 0 || bits m 44 6 != 0
    | _, _ => true
  match (fKind f) with
  | 0 => m != 0 || (fZcnt f) != 0
  | 1 => resv || (fZcnt f) != 0 || (!carries s l (fVc f) && !((fVc f) == 0 && t == 0))
  | 2 => m != 0 || (fZcnt f) != 0 || !carries s l (fVc f)
  | 3 => m != 0 || f.payload.any (· != 0) || !carries s l (fVc f)
  | _ => true

/-- A beat is rejected: NAK, and a note of those within the last 65,536 link clocks (R300): 1.6 GHz, ten units of 1/16 ns
a clock. sq: its number, as far as it can be known; it and those before it will come again. -/
def noteReject (s : State) (l sq : Nat) : State :=
  let k := link s l
  let now := tstamp s
  setLink s l { k with nak := true, repTo := some sq, rejects := k.rejects.filter (fun t => (now + 2 ^ 64 - t) % 2 ^ 64 < 655360) ++ [now] }

def tooMany (s : State) (l : Nat) : Bool := (link s l).rejects.length > fld s Reg.xlCtrl Fl.xlCtrl_ERRLIM

/-- Beats up to an acknowledged one are dropped; none: it lies beyond what was sent. -/
def ackBeats (k : LinkSt) (q : Nat) : Option LinkSt :=
  if k.unacked.any (fun b => b.1 == q) then
    let rest := (k.unacked.dropWhile (fun b => b.1 != q)).drop 1
    let gone := (k.unacked.takeWhile (fun b => b.1 != q) ++ k.unacked.filter (fun b => b.1 == q)).flatMap (·.2)
    let head := (gone.filter (fun f => fKind f == 1 && fVc f == 2)).getLast?
    some { k with
      unacked := rest, repCnt := 0, replay := k.replay.filter (fun b => rest.any (fun c => c.1 == b.1))
      head2 := match head with | some f => fMhdr f | none => k.head2 }
  else if (q + 1) % 128 == (match k.unacked with | b :: _ => b.1 | [] => k.txSeq) then some k
  else none

/-- The acknowledgement, the NAK and the credits that a beat's first flit carries; true: the link must retrain. -/
def takeAck (s : State) (l : Nat) (f : Flit) : State × Bool :=
  let k := link s l
  let ack := tg f 82 7
  match (if bit f.tag.toNat 81 then ackBeats k ack else some k) with
  | none => (s, true)
  | some k =>
    -- a NAK during the replay that it asks for says nothing new
    if bit f.tag.toNat 80 && k.replay.isEmpty then
      (setLink s l { k with replay := k.unacked },
        !k.unacked.isEmpty && k.repCnt ≥ max 1 (fld s Reg.xlCtrl Fl.xlCtrl_REPLIM))
    else (setLink s l k, false)

def takeCredit (s : State) (l : Nat) (f : Flit) : State :=
  let k := link s l
  let v := tg f 78 2
  setLink s l { k with cred := k.cred.set v (min (bufSize v) (k.cred.getD v 0 + tg f 72 6)) }

/-- Buffer space of a channel that is held: flits not yet drained, and credits not yet returned (R289). -/
def heldRx (k : LinkSt) (vc : Nat) : Nat :=
  ((k.rx.filter (fun x => fVc x.1 == vc)).map (fun x => fCost x.1)).foldl (· + ·) (k.ret.getD vc 0)

/-- A flit that no message will take: a body flit of a channel whose buffer holds no HEAD. (DESIGN CHOICE, log 134) -/
def orphan (k : LinkSt) (f : Flit) : Bool := fKind f != 1 && !k.rx.any (fun x => fVc x.1 == fVc f && fKind x.1 == 1)

/-- One flit of an accepted beat goes into its channel's buffer; a malformed one is discarded, and its credit goes back.
rep: the beat is a replay. True: it came without credit (R288, R289, R291). -/
def takeFlit (s : State) (l : Nat) (f : Flit) (rep inj : Bool) : State × Bool :=
  let s := takeCredit s l f
  let k := link s l
  let v := fVc f
  let bad := inj || flitBad s l f
  let back : LinkSt := { k with ret := k.ret.set v (k.ret.getD v 0 + fCost f) }
  if heldRx k v + fCost f > bufSize v then (s, true)
  else if bad then (badMsg (setLink s l back) l inj, false)
  else if fKind f == 0 then (s, false)
  else (setLink s l (if orphan k f then back else { k with rx := k.rx ++ [(f, rep)] }), false)

/-- The flits of an accepted beat, lane 0 first. inj: an injection spoils the first. True: one came without credit. -/
def takeFlits (l : Nat) (rep : Bool) : List Flit → Bool → State → State × Bool
  | [], _, s => (s, false)
  | f :: fs, inj, s =>
    let r := takeFlit s l f rep inj
    let t := takeFlits l rep fs false r.1
    (t.1, r.2 || t.2)

/-- A rejected beat may be one too many (R300). -/
def rejected (s : State) (l sq : Nat) : State :=
  let s := noteReject s l sq
  if tooMany s l then retrainNow s l .own false else s

/-- The number of a beat whose CRC failed: the one expected, or the one behind those already discarded.
(DEDUCED, log 45) -/
def guessSeq (k : LinkSt) : Nat :=
  match k.nak, k.repTo with | true, some q => (q + 1) % 128 | _, _ => k.rxSeq

/-- A beat whose CRCs hold is delivered when its number is the one expected. The first beat with another number is
rejected; those behind it are discarded until the replay comes (R288). An IDLE beat without a new number only
acknowledges. -/
def goodBeat (s : State) (l : Nat) (f : Flit) (beat : List Flit) : State :=
  let sq := tg f 89 7
  let k := link s l
  let idle := beat.all (fun f => (fKind f) == 0) && (sq + 1) % 128 == k.rxSeq
  if sq != k.rxSeq && !idle then
    if k.nak then setLink s l { k with repTo := some sq } else rejected s l sq
  else
    let r := takeAck s l f
    let s := r.1
    if r.2 then retrainNow s l .own false
    else if idle then checkFenced s l
    else
      let k := link s l
      let rep := match k.repTo with | some q => decide ((q + 128 - sq) % 128 < 64) | none => false
      let s := setLink s l { k with
        rxSeq := (k.rxSeq + 1) % 128, rxAny := true, nak := false
        repTo := if rep && k.repTo != some sq then k.repTo else none }
      let injR := flint s 0x12 (InjSel.ofUnit l) false
      let t := takeFlits l rep beat injR.1 injR.2
      if t.2 then retrainNow t.1 l .own false else checkFenced t.1 l

/-- A beat with failed CRCs, n of them, is rejected (R288, R300). -/
def crcBeat (s : State) (l n : Nat) (inj : Bool) : State :=
  let s := incFld s (Reg.xlLnkErr l) Fl.xlLnkErr_CRCERR n
  let s := recordErr s { ErrRec.ofDet 0 0x10 with lkind := 2, loc := l, inj := inj }
  rejected s l (guessSeq (link s l))

/-- BEAT_RECEIVE (R288 to R291, R300): a beat is checked, acknowledged and delivered, or rejected with NAK. -/
def execBeatReceive (l : Fin 6) (beat : List Flit) (s : State) : Host.Outcome State Fault Refusal :=
  .next (
    let l := l.val
    match beat with
    | [] => s
    | f :: _ =>
      if !linkActive s l || beat.length != laneCount s l then s
      else
        let downR := flint s 0x13 (InjSel.ofUnit l) false
        let crcR := flint downR.2 0x10 (InjSel.ofUnit l) false
        let repR := flint crcR.2 0x11 (InjSel.ofUnit l) false
        let s := repR.2
        let bad := (beat.filter (fun f => !flitCrcOk (wideCrc s l) f)).length
        let nBad := if bad = 0 && crcR.1 then 1 else bad
        if downR.1 then linkToDown s l true
        else if repR.1 then retrainNow s l .own true
        else if nBad != 0 then crcBeat s l nBad crcR.1
        else goodBeat s l f beat)

end Sys2Proof.Machine
end

