-- ==== Sys2Proof/Machine/RegPort.lean ====
section
/-! DEFINITION. The register port (R393 to R403), debug reads of Mica (R408), trace (R409, R410) and the arming of
injectors (R387, R390). -/

namespace Sys2Proof.Machine

/-! ## What a read returns -/

/-- PX_ID_GSTAT as it reads: the levels of the attention outputs and the start-up state (R379, R407).
(DEDUCED, log 14) -/
def gstatView (s : State) : Nat :=
  let b (f : Field) (x : Bool) (n : Nat) : Nat := setBits n f.lo 1 (b2n x)
  let n := (rd s Reg.idGstat).toNat
  let n := setBits n 60 4 (suCode s)
  let n := b Fl.idGstat_ATNFATAL (flag s Reg.errAtn Fl.errAtn_FATAL) n
  let n := b Fl.idGstat_ATNERR (flag s Reg.errAtn Fl.errAtn_ERR && flag s Reg.errAtnen Fl.errAtnen_ERR) n
  let n := b Fl.idGstat_ATNNOTE (flag s Reg.errAtn Fl.errAtn_NOTE && flag s Reg.errAtnen Fl.errAtnen_NOTE) n
  let n := b Fl.idGstat_ATNFRAME (flag s Reg.crnStat Fl.crnStat_OVR && flag s Reg.crnCtrl Fl.crnCtrl_FRATN) n
  let n := b Fl.idGstat_PXOFF (s.su == .clamped) n
  b Fl.idGstat_LOCKED s.locked n

/-- PX_ID_STRAPS shows the pins as they are now (R402, R422). -/
def strapsView (s : State) : Nat :=
  (if s.pins.keyhash.toNat = 0 then 0 else 2 ^ 63) + s.pins.clamp.toNat * 2 ^ 20 + 8 * b2n s.pins.sigreq +
    4 * b2n s.pins.loden + 2 * b2n s.pins.bypass + b2n s.pins.head

/-- WO bits read zero (R7); so does the DBG block while DBG_EN is 0 (R407), an unmapped or unaligned address (R393,
R394), and a VDD_PX register in CLAMPED (R399). REMAIN shows Q as it stands
(R255). In SAFE time and REMAIN read their reset values (R329). (DEDUCED, log 14) -/
def portRead (s : State) (a : Nat) : W64 :=
  match regRow a with
  | none => 0
  | some r =>
    if s.su == .off || (s.su == .clamped && !aonReg a) || (dbgReg a && !dbgOn s) then 0
    else
      let v :=
        if a == Reg.idGstat then gstatView s
        else if a == Reg.idStraps then strapsView s
        else if (List.range 6).any (fun i => a == Reg.idKeyhash i) then
          bits s.strap.keyhash.toNat (64 * ((a - Reg.idKeyhash 0) / 8)) 64
        else if a == Reg.strId then setBits (rd s a).toNat 62 1 (b2n s.pins.head)
        else if a == Reg.sltState then setBits (setBits (rd s a).toNat 60 4 (suCode s)) 59 1 (b2n s.pins.sigreq)
        else if a == Reg.crnTs then (if s.su == .safe then 0 else tstamp s)
        else if a == Reg.trmBudget && s.su != .safe then (rd (showQ s) a).toNat
        else (rd s a).toNat
      BitVec.ofNat 64 (v &&& (2 ^ 64 - 1 - r.wo))

/-! ## Writes -/

/-- Registers whose writes have rows of their own. -/
def ownRow (a : Nat) : Bool :=
  (List.range 16).any (fun v => a == Reg.vnTail v || a == Reg.vnCtrl v) || a == Reg.vnSchedArg || a == Reg.crnStepto ||
    (List.range 6).any (fun l => a == Reg.xlLnkCmd l) || a == Reg.numPgtData 3 || a == Reg.sltCmd ||
    a == Reg.dbgMicaCmd || a == Reg.dbgTraceCfg || (List.range 8).any (fun n => a == Reg.fltInjW0 n) || a == Reg.errEvac

/-- Plain effect of a write on a register, its own conditions included (R349, R390, R392, R409); MORE of a NaN trap is
cleared with its VALID (R190). -/
def writeReg (s : State) (a : Nat) (r : RegRow) (v : Nat) : State :=
  let put (s : State) : State := wr s a (BitVec.ofNat 64 (written s a r v))
  match (List.range 3).find? (fun k => a == Reg.numPgtData k) with
  | some k => if s.su == .safe then s else { s with pgtHold := setBits s.pgtHold (64 * k) 64 v }
  | none =>
    match (List.range 4).find? (fun k => a == Reg.tchSpare k) with
    | some k =>
      if s.su == .safe then s
      else if s.locked && !(arr s k).fenced then setFlag s Reg.tchStat Fl.tchStat_BADWR true else put s
    | none =>
      if (List.range 8).any (fun n => (a == Reg.fltInjW1 n || a == Reg.fltInjW2 n) &&
          flag s (Reg.fltInjW0 n) Fl.fltInjW0_ARMED) then s
      else if a == Reg.dbgTraceBase && flag s Reg.dbgTraceCfg Fl.dbgTraceCfg_ENABLE then s
      else if a == Reg.crnCtrl then showEligible (put s)
      else if let some k := (List.range 4).find? (fun k => a == Reg.numNanW0 k && bit v 63) then
        setFld (put s) (Reg.numNanW2 k) Fl.numNanW2_MORE 0
      else put s

/-- REGISTER_WRITE: a well-formed write takes effect on its write clock (R7, R395, R397 to R401). The fields that REGLOCK
closes are ignored, with reason 2 (R400). (DEDUCED, log 83) -/
def execRegisterWrite (addr : BitVec 20) (value : W64) (s : State) : Host.Outcome State Fault Refusal :=
  let a := addr.toNat
  .next (if s.su == .off then s
    else if a % 8 != 0 then badAccess s a true 1
    else match regRow a with
    | none => badAccess s a true 0
    | some r =>
      match refusal s a r true with
      | some k => badAccess s a true k
      | none =>
        if ownRow a then s
        else
          let t := writeReg s a r value.toNat
          if closedPart s a r && s.su != .safe then badAccess t a true 2 else t)

/-- BAD_ACCESS: an access that is ill-formed, unmapped or refused is recorded, and does nothing else (R393 to R395,
R399, R400). -/
def execBadAccess (addr : BitVec 20) (isWrite : Bool) (strobes : BitVec 8) (value : W64) (s : State) :
    Host.Outcome State Fault Refusal :=
  let a := addr.toNat
  let _ := value
  .next (if s.su == .off then s
    else if a % 8 != 0 || (isWrite && strobes != 0xFF) then badAccess s a isWrite 1
    else match regRow a with
    | none => badAccess s a isWrite 0
    | some r =>
      match refusal s a r isWrite with
      | some k => badAccess s a isWrite k
      | none => s)

/-! ## Debug reads of Mica (R408) -/

/-- DBG_MICA_READ: a write of LINE starts the read of one line. (DEDUCED, log 85) -/
def execDbgMicaRead (value : W64) (s : State) : Host.Outcome State Fault Refusal :=
  let a := Reg.dbgMicaCmd
  .next (portAct s a (fun s =>
    if flag s a Fl.dbgMicaCmd_BUSY then s
    else
      let n := bits value.toNat 6 20
      let s := setFlag (setFld s a Fl.dbgMicaCmd_LINE n) a Fl.dbgMicaCmd_DONE false
      if 64 * n < micaSize then setFlag s a Fl.dbgMicaCmd_BUSY true else s))

/-- DBG_MICA_READ_DONE: the line is there; poisoned words read zero, and no error counts toward a retirement. -/
def execDbgMicaReadDone (s : State) : Host.Outcome State Fault Refusal :=
  let a := Reg.dbgMicaCmd
  .next (if !flag s a Fl.dbgMicaCmd_BUSY then s
    else
      let x := 64 * fld s a Fl.dbgMicaCmd_LINE
      let s := touchRange s x 64 debugReader
      let bad := (List.range 4).filter (fun q => s.poison.contains (x / 16 + q))
      let s' := (List.range 8).foldl (fun s w =>
        wr s (Reg.dbgMicaData w) (if bad.contains (w / 2) then 0 else micaWord s (x + 8 * w))) s
      let s' := setFld s' a Fl.dbgMicaCmd_POISON (maskOf bad)
      setFlag (setFlag s' a Fl.dbgMicaCmd_BUSY false) a Fl.dbgMicaCmd_DONE true)

/-! ## Trace (R409, R410) -/

/-- A claim of the image in force covers a unit. -/
def claimed (s : State) (cls feat unit : Nat) : Bool :=
  s.slt.claims.any (fun c => c.1 == cls && c.2.1 == feat && c.2.2.1 ≤ unit && unit < c.2.2.1 + c.2.2.2)

/-- VDD_PX registers are there (R399). -/
def pxRegs (s : State) : Bool := s.su != .off && s.su != .clamped

/-- TRACE_ENABLE: a write of PX_DBG_TRACE_CFG. With DBG_EN at 0 the port refuses it with reason 2 (R407), and ENABLE = 1
has not taken effect, so BADCFG is set (R409). (DEDUCED, log 148) -/
def execTraceEnable (value : W64) (s : State) : Host.Outcome State Fault Refusal :=
  let a := Reg.dbgTraceCfg
  let n := value.toNat
  .next (if pxRegs s && !dbgOn s && s.su != .safe && bit n 63 then setFlag (badAccess s a true 2) a Fl.dbgTraceCfg_BADCFG true
    else portAct s a (fun s =>
    let s := setFld s a Fl.dbgTraceCfg_VEINMASK (bits n 32 16)
    let s := if flag s a Fl.dbgTraceCfg_ENABLE then s
      else setFld (setFld s a Fl.dbgTraceCfg_SEM (bits n 48 8)) a Fl.dbgTraceCfg_LOG2N (bits n 0 5)
    let k := fld s a Fl.dbgTraceCfg_LOG2N
    let ok := 10 ≤ k && k ≤ 24 && claimed s 3 0x20 (fld s a Fl.dbgTraceCfg_SEM)
    let want := bit n 63
    setFlag (setFlag s a Fl.dbgTraceCfg_ENABLE (want && ok)) a Fl.dbgTraceCfg_BADCFG (want && !ok)))

/-- A stream write waits for a Deep port: bytes of closed halves of an OUT_DEEP stream whose next port it is (R410). -/
def writeWaits (s : State) (p : Nat) : Bool :=
  (List.range 64).any (fun i =>
    let d := desc s i
    let x := strm s i
    let ps := deepPorts s d
    streamLive s i && sState s i == Ss.running && d.kind == 2 && x.asked < closedEnd s i &&
      ps[x.rot % max 1 ps.length]? == some p)

/-- A Deep port that trace may use, with a free tag: one that no stream write waits for (R410).
(DESIGN CHOICE, log 86) -/
def tracePort (s : State) : Option (Nat × Nat) :=
  let m := fld s Reg.dbgTraceBase Fl.dbgTraceBase_PORTMASK
  let m := if m = 0 then 1 else m
  (List.range 4).findSome? (fun p =>
    if bit m p && portUsable s p && !writeWaits s p then (freeTag s p).map (fun t => (p, t)) else none)

/-- TRACE_RECORD: the oldest record is written, and half a ring is posted. (DESIGN CHOICE, log 86) -/
def execTraceRecord (s : State) : Host.Outcome State Fault Refusal :=
  .next (match s.traceQ, tracePort s with
    | r :: rs, some (p, t) =>
      if s.su != .run then s
      else
        let k := fld s Reg.dbgTraceCfg Fl.dbgTraceCfg_LOG2N
        let w := fld s Reg.dbgTracePtr Fl.dbgTracePtr_WRITTEN
        let addr := (64 * fld s Reg.dbgTraceBase Fl.dbgTraceBase_BASE + 32 * (w % 2 ^ k)) % 2 ^ 48
        let s := emit { s with traceQ := rs, lostTags := s.lostTags ++ [(p, t)] } (.deepWrite p t addr r)
        let s := incFld s Reg.dbgTracePtr Fl.dbgTracePtr_WRITTEN 1
        if k ≥ 1 && (w + 1) % 2 ^ (k - 1) == 0 then semPostLocal s (fld s Reg.dbgTraceCfg Fl.dbgTraceCfg_SEM) 1 else s
    | _, _ => s)

/-- TRACE_DROP: the oldest record has waited 64 clocks; it is lost. -/
def execTraceDrop (s : State) : Host.Outcome State Fault Refusal :=
  .next (match s.traceQ with
    | [] => s
    | _ :: rs => incFld { s with traceQ := rs } Reg.dbgTracePtr Fl.dbgTracePtr_LOST 1)

/-! ## Arming an injector (R387, R390) -/

/-- Detectors of the catalogue whose severity is FATAL alone. -/
def detFatal (d : Nat) : Bool := d == 0x03 || d == 0x0B || d == 0x0C || d == 0x1B

/-- Does policy let a detector be armed? (DEDUCED, log 87) -/
def armAllowed (s : State) (d : Nat) : Bool :=
  flag s Reg.fltPolicy Fl.fltPolicy_ARM_EN && d < 64 && bit (fld s Reg.fltAllow Fl.fltAllow_DET) d &&
    (!detFatal d || flag s Reg.fltPolicy Fl.fltPolicy_FATAL_EN)

/-- A target that is a stream or a semaphore lies under a claim of Flint; a target named "any" is every unit.
(DEDUCED, log 87) -/
def armClaimed (s : State) (i d : Nat) : Bool :=
  let u := fld s (Reg.fltInjW1 i) Fl.fltInjW1_UNIT
  let all (cls n : Nat) : Bool :=
    if u = 0xFF then (List.range n).all (claimed s cls 0x21) else claimed s cls 0x21 u
  if d = 0x0D then all 2 64 else if d = 0x15 then all 3 256 else true

/-- INJECTOR_ARM: a write of W0 arms the injector under policy, or disarms it. -/
def execInjectorArm (injector : Fin 8) (value : W64) (s : State) : Host.Outcome State Fault Refusal :=
  let i := injector.val
  let a := Reg.fltInjW0 i
  let n := value.toNat
  .next (portAct s a (fun s =>
    let s := wr s a (BitVec.ofNat 64 (n &&& 0x60FFFFFFFFFFFFFF))
    let last (s : State) (c : Nat) : State := setFld s (Reg.fltInjW3 i) Fl.fltInjW3_LASTSTAT c
    if !bit n 63 || bits n 61 2 = 3 then s
    else if !armAllowed s (bits n 48 8) then last s St.privDenied
    else if !armClaimed s i (bits n 48 8) then last s St.resourceBusy
    else setFlag (last { s with injSeen := tabSet s.injSeen i 0 } 0) a Fl.fltInjW0_ARMED true))

end Sys2Proof.Machine
end

