-- ==== Sys2Proof/Machine/TickEv.lean ====
section
/-! DEFINITION. The tick (R17, R18, R239, R240): what the closing frame leaves behind (R243, R263), the opening of the
frame, and what each part of the block does on its first clocks. -/

namespace Sys2Proof.Machine

/-! ## The cost model looks back (R263) -/

/-- The domain with the largest share of the frame's estimated work. -/
def dominant (s : State) : Option Nat :=
  match s.trm.domains with
  | [] => none
  | x :: xs => some (xs.foldl (fun m y => if y.2 > m.2 then y else m) x).1

/-- One more dominant frame missed by more than 10%: at 8 the entry is STALE. (DESIGN CHOICE, log 27) -/
def costMiss (s : State) (d : Nat) : State :=
  let c := costGet s d
  let m := min 255 (c.misses + 1)
  let stale := m ≥ 8 && !bit c.flags 1
  let s := costPut s d { c with misses := m, flags := if m ≥ 8 then c.flags ||| 2 else c.flags }
  if stale then
    let s := setFlag s Reg.trmStat Fl.trmStat_RECALFORCED true
    notice (incFld s Reg.trmPred Fl.trmPred_RECALS 1) Unit.trm
  else s

/-- S of the closed frame against its modelled energy: the estimates of its work as far as it ran, filler work by its
estimates, PIDLE while no admitted work ran, and the keeper's dummy rows. How many of the frame's clocks took one only
the hardware knows: that number is free. (DESIGN CHOICE, log 27; DEDUCED, log 81) -/
def judgeModel (s : State) : State :=
  let (x, s) := (List.range 4).foldl (fun (p : Nat × State) a =>
    if !(inService p.2 a && (arr p.2 a).dummies) then p
    else
      let (n, s) := takeFree p.2 32
      let (e, s) := dummyEnergy s a (n % (frameNow s + 1))
      (p.1 + e, s)) (0, s)
  let m := s.trm.model - usedU s + idleEnergy s (s.trm.idle * frameF s / 640) + x
  let d := s.trm.drawn
  let diff : Int := (d : Int) - m
  match dominant s with
  | none => s
  | some k =>
    let s := if diff.natAbs * 10 > m then costMiss s k else costPut s k { costGet s k with misses := 0 }
    let e : Int := if m = 0 then 0 else diff * 4096 / m
    let s := setFld s Reg.trmPred Fl.trmPred_DOMAIN k
    setFld s Reg.trmPred Fl.trmPred_ERR (fromSigned 16 (max (-32768) (min 32767 e)))

/-! ## Overrun (R243) -/

/-- An N tile that is discarded: some of its rows have neither committed nor turned out void, and none has committed.
A tile of which a row has committed runs on (R19). (DEDUCED, log 80) -/
def discards (j : Job) (t : TileF) (nt : Nat) : Bool :=
  (ntDoneRows j nt).isEmpty &&
    (j.nts.filter (fun x => x.nt == nt && !x.corr)).any (fun x => (List.range t.m).any (fun i => !x.voided.contains i))

/-- What an N tile keeps when it is discarded: nothing; the others stay as they are (R19). -/
def discardNt (s : State) (j : Job) (t : TileF) (again : List Nat) (x : NtSt) : NtSt :=
  if !again.contains x.nt then x
  else
    let x := { x with
      checked := [], failed := [], voided := [], full := false, summed := false, cur := if x.sparse then some (0, 0) else none
      drained := [], spill := none, tiles := [], errs := [] }
    if x.sparse then mkLanes s j t x
    else { x with accs := (ntRows j t x.nt x.corr).map (fun i => (i, startAccs s j t x i)) }

/-- A condition is met. -/
def withCond (j : Job) (c : Nat) : Job := if j.conds.contains c then j else { j with conds := j.conds ++ [c] }

/-- Some N tiles of the present pass of a command are discarded and enter again, one after the other; then the command
goes on where it stood (R19, R243). -/
def replayTiles (s : State) (j : Job) (t : TileF) (again : List Nat) : Job :=
  match again with
  | [] => j
  | r :: rs =>
    let at_ := if j.nts.any (fun x => x.nt == j.nt && x.corr == j.corr) then j.nt + 1 else j.nt
    withCond { j with
      nts := j.nts.map (fun x => if x.corr == j.corr then discardNt s j t again x else x)
      nt := r, redo := rs, resume := some (j.resume.getD at_), pass := 0, sub := 0
      ladders := j.ladders.filter (fun l => !(l.corr == j.corr && again.contains l.nt)) } St.okReplayed

/-- ABANDON: the uncommitted tiles of a command are discarded and enter again; a command all of whose tiles run on is an
overrun (R19, R243). (DEDUCED, log 80) -/
def abandonTiles (s : State) (j : Job) : Job :=
  let t := tileOf j.words
  let normal := ((j.nts.filter (fun x => !x.corr)).map (·.nt)).filter (discards j t)
  let corr := ((j.nts.filter (·.corr)).map (·.nt)).filter (fun n =>
    (ntRows j t n true).all (fun i => !(ntDoneRows j n).contains i))
  if j.nts.isEmpty then j
  else if !j.corr then
    if normal.isEmpty then withCond j St.frameOverrun else replayTiles s j t normal
  else if normal.isEmpty then
    if corr.isEmpty then withCond j St.frameOverrun else replayTiles s j t corr
  else
    -- normal tiles run again first; the correction pass begins afresh after them
    let keep := (j.nts.filter (fun x => !x.corr)).map (fun x => { x with done := (ntDoneRows j x.nt).eraseDups })
    replayTiles s { j with nts := keep, voids := [], nt := t.nts, resume := none, corr := false } t normal

/-- A command of the frame that is not complete, at the tick clock. (DEDUCED, log 80) -/
def overrunJob (s : State) (abandon : Bool) (j : Job) : Job :=
  if j.done || !j.inFrame then j
  else if abandon && (j.op == 1 || j.op == 2) then (if j.fin then j else abandonTiles s j)
  else if j.conds.contains St.frameOverrun then j
  else { j with conds := j.conds ++ [St.frameOverrun] }

/-- Overrun handling of the closing frame in every vein (R243). (DEDUCED, log 80) -/
def overrunVeins (s : State) (abandon : Bool) : State :=
  (List.range 16).foldl (fun s v =>
    let x := vein s v
    setVein s v { x with
      jobs := x.jobs.map (overrunJob s abandon)
      groups := x.groups.map (fun g =>
        if g.admitted && g.work && !isFiller s (vTenant s v) then { g with late := if abandon then 2 else 1 } else g) }) s

/-- The token of the closing frame that has not left: it leaves now, late when work of the frame is not complete here, or
with the children's tokens that are still to come (R16, R241, R243). -/
def closeToken (s : State) (busy : Bool) : State :=
  if s.crn.token.isSome then s
  else
    let s := noteLate s (frameNo s) (if busy then stratum s else 1023) busy
    if kidsIn s || isLode s then sendToken s busy
    else setCrn s (fun c => { c with closing := some ⟨frameNo s, busy, c.tokens⟩ })

/-- The closing frame at the tick clock: its token leaves if it has not left, and an overrun is noted and handled; in a
block that its parent has excluded as under CONTINUE (R242, R243, R246). -/
def closeFrame (s : State) : State :=
  if !s.crn.opened then s
  else
    let busy := !frameIdle s
    let s := closeToken (sendClosing s) busy
    if !busy && !s.crn.splitAt then s
    else
      let s := setFlag s Reg.crnStat Fl.crnStat_OVR true
      let s := setFld s Reg.crnStat Fl.crnStat_LASTOVR (frameNo s)
      let s := incFld s Reg.crnCnt Fl.crnCnt_OVERRUNS 1
      overrunVeins s (policy s == 1 && !leftOut s)

/-! ## The frame opens -/

/-- Frame number, epoch, grid and the time step take effect (R231, R237, R239, R251). -/
def openFrame (s : State) (f g e step : Nat) : State :=
  let wrap := f = 0 && frameNo s = 2 ^ 48 - 1
  let s := setFld s Reg.crnFrame Fl.crnFrame_FRAME f
  let s := setFld s Reg.crnState Fl.crnState_EPOCH e
  let s := if wrap then notice (setFlag s Reg.crnStat Fl.crnStat_WRAP true) Unit.crn else s
  let s := addTime s (toSigned 64 step * 2 ^ 32)
  let s := setFld s Reg.crnAnchor Fl.crnAnchor_ANCHOR (fld s Reg.crnAnchor Fl.crnAnchor_ANCHOR + step)
  let s := passGrid s
  let s := setCrn s (fun c => { c with
    lastG := some ((g + step) % 2 ^ 64), rate := if step = 0 then c.rate else none })
  setFld s Reg.crnGrid Fl.crnGrid_NEXT (gridNext s + step)

/-- Tokens of the new frame that came early, and nothing else of the old frame's account (R241). -/
def newTokens (s : State) (f : Nat) : State :=
  let early := s.crn.early
  let s := setCrn s (fun c => { c with
    tokens := [], token := none, tick := none, splitAt := false, splitInj := false, missed := 0,
    decided := false, heard := false,
    early := c.early.filter (fun t => serialCmp t.2.1 f 48 == 2) })
  (early.filter (fun t => t.2.1 == f)).foldl (fun s t => takeToken s t.1 t.2.2.1 t.2.2.2.1 t.2.2.2.2) s

/-- TIMELOCK ends at the first tick, READY at the next (R335); a reload that was asked for before RUN begins then (R337). -/
def tickState (s : State) : State :=
  match s.su with
  | .timelock => setCrn (enterSu s .ready) (fun c => { c with opened := true })
  | .ready => heldReload (enterSu s .run)
  | _ => s

/-- Waits that the tick ends: MARK FRAME reached, MARK NEXT (R216, R240). -/
def releaseMarks (s : State) : State :=
  (List.range 16).foldl (fun s v =>
    match (vein s v).wait with
    | some (.markFrame f) => if frameReached s f then endWait s v 0 else s
    | some .markNext => endWait s v 0
    | _ => s) s

/-- Tenant eligibility in the new frame (R223). -/
def setEligible (s : State) : State :=
  (List.range 16).foldl (fun s v =>
    if vState s v == Vs.off then s
    else refreshVein (setVein s v { vein s v with suspended := !eligible s (vTenant s v) }) v) s

/-- Head groups that are presented at the tick: those without work, and a filler's, are admitted outright. -/
def presentQuiet (s : State) : State :=
  (List.range 16).foldl (fun s v =>
    if !presented s v then s
    else
      let work := !(workEsts (groupEsts s v)).isEmpty
      let free := !work || isFiller s (vTenant s v)
      refreshVein (mapHeadGroup s v (fun g => { g with admitted := free, work := work })) v) s

/-- A microcode slot may be used (R384). -/
def slotGood (s : State) (k : Nat) : Bool :=
  if k = 0 then flag s Reg.vnUcode Fl.vnUcode_AVALID && !flag s Reg.vnUcode Fl.vnUcode_ABAD
  else flag s Reg.vnUcode Fl.vnUcode_BVALID && !flag s Reg.vnUcode Fl.vnUcode_BBAD

/-- Veins switch to the microcode slots they request (R384); each switch writes a record (R378). (DEDUCED, log 91) -/
def switchUcode (s : State) : State :=
  (List.range 16).foldl (fun s v =>
    let u := fld s Reg.vnUcode Fl.vnUcode_INUSE
    let r := b2n (bit (fld s Reg.vnUcode Fl.vnUcode_REQ) v)
    if b2n (bit u v) != r && slotGood s r && (vein s v).jobs.all (·.done) then
      noteRec (setFld s Reg.vnUcode Fl.vnUcode_INUSE (setBits u v 1 r))
        { ErrRec.ofDet 0 0x0A with vein := some v, lkind := 8, loc := r }
    else s) s

/-- The thermal cap at a tick (R275, R276). -/
def tickTcap (s : State) : State :=
  let cap := fld s Reg.trmTherm Fl.trmTherm_TCAP
  let s :=
    if tMax s ≥ 4 * throt s then
      let s := setFld s Reg.trmTherm Fl.trmTherm_TCAP (max 72 (cap - 36))
      calStop (setFlag s Reg.trmStat Fl.trmStat_THROTTLE true) St.calAborted
    else if isCool s then setFld s Reg.trmTherm Fl.trmTherm_TCAP (min 720 (cap + 36))
    else s
  if sensorsOut s ≥ 4 && fld s Reg.trmTherm Fl.trmTherm_TCAP > 360
    then setFld s Reg.trmTherm Fl.trmTherm_TCAP 360 else s

def clampCap (x : Nat) : Nat := max 8 (min 720 x)

/-- The effective cap of the frame (R253). -/
def tickCap (s : State) : State :=
  let c := min (clampCap (fld s Reg.trmCap Fl.trmCap_SLATE)) (min (clampCap (fld s Reg.trmCap Fl.trmCap_SW))
    (clampCap (fld s Reg.trmTherm Fl.trmTherm_TCAP)))
  setFld s Reg.trmCap Fl.trmCap_EFFECTIVE c

/-- The operating point of the frame (R272). A CALIBRATE that moves through the points keeps the clock until it goes back
(R265). (DESIGN CHOICE, log 26) -/
def tickOpp (s : State) : State :=
  let o := chooseOpp s
  let s := setFld s Reg.trmOppsel Fl.trmOppsel_FRAME o
  if calMoves s then s else moveOpp s o

/-- Clocks that a carried command still holds its arrays for. -/
def timeLeft (j : Job) : Nat :=
  if j.done || !j.inFrame then 0
  else if j.op = 1 || j.op = 2 then
    let n := (tileOf j.words).nts
    cdiv (j.estT * (n - min n j.ntDone)) n
  else j.estT

/-- Committed clocks at the tick: what carried commands still take of each array, and on every array what admitted
commands that have not issued will take (R266). -/
def carriedClocks (s : State) : State :=
  let waiting := ((List.range 16).map (fun v =>
    ((vein s v).groups.filter (·.admitted)).foldl (fun a g => (g.ests.filterMap id).foldl (fun a e => a + e.2) a) 0)).foldl (· + ·) 0
  (List.range 4).foldl (fun s a =>
    let own := ((holdersOf s a).map (fun p => timeLeft p.2)).foldl (· + ·) 0
    setArr s a { arr s a with cEnd := own + (if inService s a then waiting else 0) }) s

/-- Core clocks from now to the next grid point, less GUARD (R254). -/
def tickHorizon (s : State) : Nat :=
  (tsDiff (gridNext s) (tstamp s)).toNat * frameF s / 640 - fld s Reg.trmCtrl Fl.trmCtrl_GUARD

/-- The new frame's budget and account (R253 to R256, R278). An automatic calibration that still runs ends: its idle window
was the frame's. (DESIGN CHOICE, log 157) -/
def openBudget (s : State) : State :=
  let s := setFld s Reg.trmDroop Fl.trmDroop_LASTFRAME (min 65535 s.trm.droopFrm)
  let s := setTrm s (fun t => { t with
    tband := bandNow s, budget := effCap s * fld s Reg.crnPeriod Fl.crnPeriod_NS / 8, horizon := tickHorizon s,
    tickAt := tstamp s, drawn := 0, tenants := [], nAdmitted := 0, oversize := false, overspent := false, domains := [],
    autocal := none, droopFrm := 0, preramp := false, model := usedU s, idle := 0 })
  let s := (List.range 4).foldl (fun s a =>
    let x := arr s a
    setArr s a { x with preramp := false, dummies := x.pow == .full || x.pow == .rampDown || x.pow == .rampUp }) s
  showQ (carriedClocks s)

/-- Ticks that multicast groups have spent without credit (R158). -/
def countStalls (s : State) : State :=
  (List.range 64).foldl (fun s g =>
    if mcStarved s g then setMcg s g { mcg s g with stallTicks := (mcg s g).stallTicks + 1 }
    else if (mcg s g).stallTicks != 0 then setMcg s g { mcg s g with stallTicks := 0 } else s) s

/-- Evacuation that was asked for begins (R385). -/
def tickEvac (s : State) : State :=
  if fld s Reg.errEvstat Fl.errEvstat_STATE = 1 then setFld s Reg.errEvstat Fl.errEvstat_STATE 2 else s

/-- Waits that have counted their last tick end, before the new frame is admitted (R161, R240). -/
def expireWaits (s : State) : State := (List.range 16).foldl expireWait s

/-- Clocks 0 to 2 of a tick in a block that works. -/
def tickWork (s : State) (f g e step : Nat) : State :=
  let s := if isRun s then judgeModel s else s
  let s := closeFrame s
  let s := tickState (openFrame s f g e step)
  let s := newTokens s f
  let s := tickEvac s
  let s := expireWaits (countWaits s false)
  let s := releaseMarks s
  let s := setEligible s
  let s := switchUcode s
  let s := reloadAtTick s f
  let s := tickOpp (tickCap (tickTcap s))
  let s := openBudget (countStalls s)
  let s := presentQuiet s
  if isRun s && fld s Reg.errEvstat Fl.errEvstat_STATE < 2 then considerAll s 2 else s

/-- TICK_FIRE: the tick clock (R239, R240); drawn is S of the frame that closes. TICK_OUT rises (R249). -/
def execTickFire (drawn : Nat) (s : State) : Host.Outcome State Fault Refusal :=
  .next (match s.crn.tick with
    | none => s
    | some (f, g, e, step) =>
      if !crnLive s then s
      else
        let up := timeUnclamped s
        let s := if up then emit s (.tickOut g) else s
        let s := if s.su == .fatal then newTokens (openFrame s f g e step) f
          else tickWork (setTrm s (fun t => { t with drawn := drawn })) f g e step
        if up then setCrn s (fun c => { c with tickUp := some (tstamp s) }) else s)

end Sys2Proof.Machine
end

