-- ==== Sys2Proof/Machine/Training.lean ====
section
/-! DEFINITION. Saving and restoring state (R358 to R361), the register operations on the parameter group table (R349)
and on the schedule engine (R357, R363). -/

namespace Sys2Proof.Machine

/-! ## State images -/

/-- Registers of part CNT in order (R360). -/
def cntRegs : List Nat :=
  (List.range 4).flatMap (fun t => [Reg.shlDrop t, Reg.shlSkip t, Reg.shlMiss t, Reg.numFrozen t])

/-- Body of a part (R360). -/
def partBody (s : State) (p : Nat) : List Byte :=
  match p with
  | 0 => micaRead s (histAddr s 0) (128 * histCount s)
  | 1 => micaRead s (regionBase s 3) 131072
  | 2 => cntRegs.flatMap (fun a => leBytes 8 (rd s a).toNat)
  | 3 => micaRead s (maskAddr s 0) (512 * maskSlots s)
  | 4 => leBytes 8 (rd s Reg.numSrSeed).toNat ++ leBytes 2 (fld s Reg.numSrStratum Fl.numSrStratum_SSTRATUM) ++
    List.replicate 6 0
  | 5 => if s.sched.isEmpty then List.replicate 16 0 else s.sched
  | _ => micaRead s (costAddr s 0) 50176

/-- Poison in the tables that a part reads. -/
def partPoison (s : State) (p : Nat) : Bool :=
  match p with
  | 0 => poisoned s (histAddr s 0) (128 * histCount s)
  | 1 => poisoned s (regionBase s 3) 131072
  | 3 => poisoned s (maskAddr s 0) (512 * maskSlots s)
  | 6 => poisoned s (costAddr s 0) 50176
  | _ => false

/-- The image of the requested parts, with a step number in its header (R359). -/
def imageWith (s : State) (step parts : Nat) : List Byte :=
  let body := (setBitsOf parts 7).flatMap (fun p =>
    let b := partBody s p
    leBytes 1 p ++ leBytes 1 1 ++ leBytes 2 0 ++ leBytes 4 b.length ++ leBytes 8 0 ++ b)
  let h := leBytes 4 0x53545058 ++ leBytes 2 1 ++ leBytes 2 parts ++ leBytes 5 step ++ leBytes 3 0 ++
    leBytes 6 (frameNo s) ++ leBytes 2 (epochNo s) ++ leBytes 2 (stratum s) ++ leBytes 2 0 ++
    leBytes 4 (64 + body.length) ++ leBytes 8 (rd s Reg.sltImage).toNat ++ List.replicate 20 0
  h ++ leBytes 4 (crc32c (h ++ body)) ++ body

/-- The image that a vein saves. -/
def stateImage (s : State) (v parts : Nat) : List Byte := imageWith s (vStep s v) parts

/-- Mica offset of byte q of an image in its stream's buffer. (DEDUCED, log 38) -/
def imageAddr (s : State) (st q : Nat) : Nat :=
  let d := desc s st
  if d.isResident then
    let xb := match curSeq (strm s st) with | some r => r.xbase | none => d.xbase
    (d.addr xb (turnPos d q)).toNat
  else d.buf + q

/-- Bytes that the buffer of an image stream holds. -/
def imageRoom (s : State) (st : Nat) : Nat :=
  let d := desc s st
  if d.isResident then d.total else d.halfBytes

def imageCheck (save : Bool) (s : State) (v : Nat) (ws : List W64) : Option Nat :=
  let st := cf ws 0 10 6
  let parts := cf ws 1 0 16
  let d := desc s st
  firstFail [
    (streamLive s st && !(d.isResident || d.landing), St.shapeIllegal),
    (save && streamLive s st && imageLen s parts > imageRoom s st, St.shapeIllegal),
    (rangeBad s v st || !streamLive s st || sTenant s st != vTenant s v, St.stateIllegal),
    (!save && (List.range 16).any (fun w => w != v &&
      ((vein s w).jobs.any (fun j => !j.done) || vState s w == Vs.ready)), St.stateIllegal),
    (partsPriv s v parts, St.privDenied)]

/-- Put an image into a stream's buffer; an outbound stream then sends it. (DEDUCED, log 38) -/
def putImage (s : State) (st : Nat) (bs : List Byte) : State :=
  let d := desc s st
  let s := if d.isResident then
      (bs.zip (List.range bs.length)).foldl (fun s b => micaWrite s (imageAddr s st b.2) [b.1]) s
    else micaWrite s d.buf bs
  let x := strm s st
  match curSeq x with
  | none => s
  | some r =>
    let n := min bs.length r.len
    if d.isResident then
      checkEnd (countBytes (setStrm s st { x with asked := max x.asked (r.start + n) }) st n) st
    else if d.isOutbound then
      setStrm s st { x with taken := max x.taken (r.start + n), chunks := fillChunks x.chunks r.start n }
    else s

/-- SAVE_STATE (R358). -/
def atHeadSaveState (v : Fin 16) (s : State) : Host.Outcome State Fault Refusal :=
  .next (issueWith s v 0x18 (imageCheck true) (fun s v c =>
    let st := cf c.words 0 10 6
    let parts := cf c.words 1 0 16
    if !earlierDone s v then s
    else if (setBitsOf parts 7).any (partPoison s) then
      -- an uncorrectable word of a block table (R375, TABLE_UE)
      recordErr s { ErrRec.ofDet 3 0x03 with status := St.fatalTable, lkind := 3 }
    else issueNow s v c (fun s => putImage s st (stateImage s v parts))))

/-- Parts of an image: number, body. -/
def imageParts : Nat → List Byte → List (Nat × List Byte)
  | 0, _ => []
  | n + 1, bs =>
    if bs.length < 16 then []
    else
      let len := leNat ((bs.drop 4).take 4)
      (leNat (bs.take 1), (bs.drop 16).take len) :: imageParts n (bs.drop (16 + len))

/-- Is the image whole? (R359, R361) -/
def imageBad (bs : List Byte) : Bool :=
  let g (o n : Nat) : Nat := leNat ((bs.drop o).take n)
  let len := g 28 4
  g 0 4 != 0x53545058 || g 4 2 != 1 || len < 64 || len > bs.length ||
    crc32c (bs.take 60 ++ (bs.take len).drop 64) != g 60 4

def clearHist (s : State) : State :=
  let s := micaWrite s (histAddr s 0) (List.replicate (128 * histCount s) 0)
  setFlag s Reg.numRstStat Fl.numRstStat_COLD true

/-- A table takes as much of a body as both have, and clears the rest (R361). -/
def putTable (s : State) (a len : Nat) (body : List Byte) : State :=
  micaWrite s a ((body ++ List.replicate len 0).take len)

def restorePart (s : State) (p : Nat) (body : List Byte) : State :=
  match p with
  | 0 => putTable s (histAddr s 0) (128 * histCount s) body
  | 1 => putTable s (regionBase s 3) 131072 body
  | 2 => (cntRegs.zip (leWords body)).foldl (fun s x => wr s x.1 (BitVec.ofNat 64 (x.2.toNat % 2 ^ 48))) s
  | 3 => putTable s (maskAddr s 0) (512 * maskSlots s) body
  | 4 =>
    let s := wr s Reg.numSrSeed (BitVec.ofNat 64 (leNat (body.take 8)))
    setFld s Reg.numSrStratum Fl.numSrStratum_SSTRATUM (leNat ((body.drop 8).take 2))
  | 5 =>
    let n := leNat (body.take 1)
    let s := { s with sched := if n = 0 then [] else body }
    setFld s Reg.vnSchedVal Fl.vnSchedVal_NSCHED n
  | _ => putTable s (costAddr s 0) 50176 body

/-- The restore of R361: the new state and the status. -/
def restoreImage (s : State) (v parts : Nat) (bs : List Byte) : State × Nat :=
  let g (o n : Nat) : Nat := leNat ((bs.drop o).take n)
  let a := Reg.numRstStat
  if imageBad bs then
    (setFld (if bit parts 0 then clearHist s else s) a Fl.numRstStat_LASTSTAT St.stateCrc, St.stateCrc)
  else
    let have_ := imageParts 8 ((bs.take (g 28 4)).drop 64)
    let want := setBitsOf parts 7
    let stepBad := g 8 5 != vStep s v
    let missing := want.any (fun p => !have_.any (fun h => h.1 == p))
    let s := want.foldl (fun s p =>
      match have_.find? (fun h => h.1 == p) with
      | none => if p = 0 then clearHist s else s
      | some h => if p = 0 && stepBad then clearHist s else restorePart s p h.2) s
    let code := if stepBad || missing then St.stateStep else 0
    let s := if missing then setFlag s a Fl.numRstStat_MISSING true else s
    let s := setFld s a Fl.numRstStat_STRATUM (g 24 2)
    let s := setFld s a Fl.numRstStat_EPOCH (g 22 2)
    (setFld s a Fl.numRstStat_LASTSTAT code, code)

/-- The whole sequence that carries an image has arrived (R361). -/
def imageThere (s : State) (st : Nat) : Bool :=
  (desc s st).isResident || !(desc s st).isInbound || arrived s st ≥ seqEndPos (strm s st)

/-- RESTORE_STATE (R361). -/
def atHeadRestoreState (v : Fin 16) (s : State) : Host.Outcome State Fault Refusal :=
  .next (issueWith s v 0x19 (imageCheck false) (fun s v c =>
    let st := cf c.words 0 10 6
    let parts := cf c.words 1 0 16
    let n := imageRoom s st
    if !imageThere s st then setFlag s (Reg.stmDescW7 st) Fl.stmDescW7_STARVED true
    else
      let s := setFlag s (Reg.stmDescW7 st) Fl.stmDescW7_STARVED false
      let bs := (List.range n).map (fun q => micaByte s (imageAddr s st q))
      let poison := (List.range n).any (fun q => s.poison.contains (imageAddr s st q / 16))
      if !s.poison.isEmpty && poison then
        let s := startIssue s v c
        match findJob s v (cmdSeq c.words) with
        | some j => poisonJob s v j false
        | none => s
      else
        issueNow s v c (fun s =>
          let (s, code) := restoreImage s v parts bs
          if code = 0 then s else addCond s v (cmdSeq c.words) code)))

/-! ## Registers of the parameter group table (R349) -/

/-- PGT_SNAPSHOT: a read of PX_NUM_PGT_DATA0; DATA0 to DATA3 then show the entry as it was. (DEDUCED, log 115) -/
def execPgtSnapshot (s : State) : Host.Outcome State Fault Refusal :=
  .next (match s.su with
    | .off => s
    | .clamped => badAccess s (Reg.numPgtData 0) false 3
    | .safe => s
    | _ =>
      let e := pgtRaw s (fld s Reg.numPgtIdx Fl.numPgtIdx_INDEX)
      (List.range 4).foldl (fun s k => wr s (Reg.numPgtData k) (BitVec.ofNat 64 (bits e (64 * k) 64))) s)

/-- PGT_COMMIT: a write of PX_NUM_PGT_DATA3 writes the whole entry. (DEDUCED, log 115) -/
def execPgtCommit (value : W64) (s : State) : Host.Outcome State Fault Refusal :=
  let e := s.pgtHold % 2 ^ 192 + value.toNat * 2 ^ 192
  .next (portAct s (Reg.numPgtData 3) (fun s =>
    if pgtReserved e then setFlag s Reg.numGenStat Fl.numGenStat_BADWR true
    else pgtPut s (fld s Reg.numPgtIdx Fl.numPgtIdx_INDEX) e))

/-! ## The schedule engine's registers (R357, R363) -/

/-- SCHED_EVALUATE: a write of PX_VN_SCHED_ARG starts an evaluation. (DEDUCED, log 114) -/
def execSchedEvaluate (value : W64) (s : State) : Host.Outcome State Fault Refusal :=
  .next (portAct s Reg.vnSchedArg (fun s =>
    let s := wr s Reg.vnSchedArg (BitVec.ofNat 64 (bits value.toNat 0 43))
    let s := setFlag s Reg.vnSchedVal Fl.vnSchedVal_VALID false
    { s with schedBusy := true }))

/-- SCHED_VALUE_READY: the evaluation completes. (DEDUCED, log 114) -/
def execSchedValueReady (s : State) : Host.Outcome State Fault Refusal :=
  if !s.schedBusy then .next s
  else
    let id := fld s Reg.vnSchedArg Fl.vnSchedArg_ID
    let bad := decide (id ≥ nSched s)
    let x := if bad then 0 else schedAt s id (fld s Reg.vnSchedArg Fl.vnSchedArg_STEP)
    let s := setFld s Reg.vnSchedVal Fl.vnSchedVal_VALUE x
    let s := setFlag s Reg.vnSchedVal Fl.vnSchedVal_BADID bad
    let s := setFlag s Reg.vnSchedVal Fl.vnSchedVal_VALID true
    .next { s with schedBusy := false }

end Sys2Proof.Machine
end

