-- ==== Sys2Proof/Machine/Faults.lean ====
section
/-! DEFINITION. Faults that no other part owns: cleave (R380, R381), Mica banks and the scrubber (R142, R382), microcode
slots and parity (R375, R384), and evacuation (R385). -/

namespace Sys2Proof.Machine

/-! ## Mica banks (R137, R382) -/

/-- BANK_COPY_DONE: the copy of a retired physical bank is over. -/
def execBankCopyDone (bank : Nat) (s : State) : Host.Outcome State Fault Refusal :=
  .next (match s.svc.copies.find? (fun c => c.det != 0 && physBank s c.bank == bank) with
    | none => s
    | some k =>
      let s := setSvc s (fun x => { x with copies := x.copies.filter (fun c => c.bank != k.bank) })
      let s := setSpareFree (mapBank s k.bank k.spare) (spareFree s - 1)
      bankRec s k.det bank false k.inj)

/-! ## The patrol scrubber (R142, R375) -/

/-- The byte offset of a line of a logical bank (R138). -/
def bankLine (s : State) (b n : Nat) : Option Nat :=
  (List.range 4).findSome? (fun r =>
    let f := regionBase s r / 0x40000
    let k := 8 * regionGroups s r
    if f ≤ b && b < f + k then some (regionBase s r + 64 * (n * k + (b - f))) else none)

/-- Injections that the lines of one visit give an opportunity. -/
def scrubInject (s : State) : State :=
  if !memArmed s then s
  else
    (List.range 192).foldl (fun s b =>
      match bankLine s b s.svc.line with
      | none => s
      | some x => touchLine s x noReader) s

/-- Mica and its scrubber run. -/
def micaRuns (s : State) : Bool :=
  match s.su with
  | .off => false | .clamped => false | .reset => false | .safe => false | .fatal => false | _ => true

/-- PATROL_SCRUB: the next line of every bank is visited; events are what the visit finds. PX_STM_CTRL.SCRUB = 0 disables
patrol scrubbing (R166). (DEDUCED, log 92) -/
def execPatrolScrub (events : List EccEvent) (s : State) : Host.Outcome State Fault Refusal :=
  .next (if !micaRuns s || fld s Reg.stmCtrl Fl.stmCtrl_SCRUB = 0 then s
    else
      let s := events.foldl (fun s e => match e with
        | .single x => micaCe s x noReader false
        | .double x => micaUe s x noReader false) s
      let s := scrubInject s
      setSvc s (fun x => { x with
        line := (x.line + 1) % 4096, ceCount := if x.line = 4095 then [] else x.ceCount }))

/-! ## Cleave (R380, R381) -/

def clKind (j : Job) : Nat := cf j.words 0 10 4
def clBack (j : Job) : Bool := cb j.words 0 14
def clTarget (j : Job) : Nat := cf j.words 1 0 16

/-- A CLEAVE in progress. -/
def clFind (s : State) (back : Bool) (kind target : Nat) : Option (Nat × Job) :=
  (allJobs s).find? (fun p => p.2.op == 0x1D && clBack p.2 == back && clKind p.2 == kind && clTarget p.2 == target)

/-- An array in a ladder, being spared, fenced or returned (R381). -/
def arrayBusy (s : State) (a : Nat) : Bool :=
  let x := arr s a
  x.fencing.isSome || x.returning.isSome || !x.spareReq.isEmpty ||
    (allJobs s).any (fun p => p.2.ladders.any (fun l => l.array == a || (l.step == 2 && l.other == some a)))

def groupFenced (s : State) (g : Nat) : Bool := s.svc.homes.any (fun h => h.1 == g)

/-- The target is held by Touchstone, a retirement or another cleave. The fence of a group whose bank is being retired is
not busy: it follows the retirement, which leaves it fewer than 8 spares (R381, R391). (DEDUCED, log 89) -/
def cleaveBusy (s : State) (back : Bool) (kind target : Nat) : Bool :=
  match kind with
  | 0 => arrayBusy s target
  | 1 => s.svc.copies.any (fun c => c.bank / 8 == target && (back || c.det == 0)) || (clFind s true 1 target).isSome
  | 2 => (allJobs s).any (fun p => p.2.op == 0x1D && clKind p.2 == 2 && clTarget p.2 &&& target != 0)
  | _ => (link s target).fence.isSome || (link s target).unfence.isSome

/-- (DEDUCED, log 89) -/
def cleaveCheck (s : State) (v : Nat) (ws : List W64) : Option Nat :=
  let k := cf ws 0 10 4
  let t := cf ws 1 0 16
  firstFail [
    (!flag s (Reg.vnTenant (vTenant s v)) Fl.vnTenant_P_CLEAVE, St.privDenied),
    (cleaveBusy s (cb ws 0 14) k t, St.resourceBusy),
    (k == 2 && bit t v, St.stateIllegal),
    (k == 1 && !cb ws 0 14 && !groupFenced s t && (freeBanks s).length < 8, St.stateIllegal)]

/-- The fence of a part begins, or is over at once; none: nothing is to be done. (DEDUCED, log 90) -/
def cleaveFence (s : State) (v q kind t : Nat) : Option State :=
  match kind with
  | 0 =>
    if !inService s t then none
    else
      let s := match calJob s with
        | some (_, j) => if j.arrays.contains t then calStop s St.calAborted else s
        | none => s
      some (settleWaits (fenceArray s t (some (v, q))))
  | 1 =>
    if groupFenced s t then none
    else
      let cs := ((List.range 8).map (fun i => 8 * t + i)).zip (freeBanks s)
      some (setSvc s (fun x => { x with copies := x.copies ++ cs.map (fun c => ⟨c.1, c.2, 0, false⟩) }))
  | 2 =>
    if (setBitsOf t 16).all (fun w => (vein s w).fenced || vBase s w == Vs.off) then none
    else some ((setBitsOf t 16).foldl (fun s w => fenceVein s w true) s)
  | _ =>
    let st := linkState s t
    let k := link s t
    if st == Lk.fenced then none
    else if st == Lk.off || st == Lk.absent || st == Lk.down then some (completeJob (addCond s v q St.linkDown) v q)
    else if st == Lk.active then
      let s := if k.fenceTx then s else sendLinkctl s t 2 0 0
      some (checkFenced (setLink s t { link s t with fence := some (v, q), fenceTx := true, fenceAt := tstamp s }) t)
    else some (setLink s t { k with fence := some (v, q) })

/-- The return of a part begins, or is over at once; none: the part is in service. (DEDUCED, log 90) -/
def cleaveReturn (s : State) (v q kind t : Nat) : Option State :=
  match kind with
  | 0 =>
    if inService s t then none
    else
      let x := arr s t
      let s := setArr s t { x with returning := some (v, q) }
      some (if x.pow == .opened then closeSwitch s t else s)
  | 1 => if groupFenced s t then some s else none
  | 2 =>
    if (setBitsOf t 16).all (fun w => !(vein s w).fenced) then none
    else
      let s := (setBitsOf t 16).foldl (fun s w => present (fenceVein s w false) w) s
      some (completeJob s v q)
  | _ =>
    let st := linkState s t
    let s := setLink s t { link s t with unfence := some (v, q) }
    if st == Lk.active then none
    else if st == Lk.fenced then some (announce (trainPol s t) t)
    else if st == Lk.absent || st == Lk.down then some (toDetect (setFld s (Reg.xlLnkState t) Fl.xlLnkState_FAILS 0) t)
    else if st == Lk.off then
      let s := setLink s t { link s t with unfence := none }
      some (completeJob (addCond s v q St.linkDown) v q)
    else some s

/-- CLEAVE (R221, R380). -/
def atHeadCleave (v : Fin 16) (s : State) : Host.Outcome State Fault Refusal :=
  .next (issueWith s v 0x1D cleaveCheck (fun s v c =>
    let q := cmdSeq c.words
    let k := cf c.words 0 10 4
    let t := cf c.words 1 0 16
    let s := startIssue s v c
    match (if cb c.words 0 14 then cleaveReturn s v q k t else cleaveFence s v q k t) with
    | none => afterIssue (completeNow s v q) v
    | some s => afterIssue (refreshVein s v) v))

/-- Nothing that has entered an array is still to commit, and no other command holds it. -/
def arrayEmpty (s : State) (a : Nat) : Bool :=
  !borrowed s a && (holdersOf s a).all (fun p => (p.2.op == 1 || p.2.op == 2) && !tilesOut p.2 && p.2.ladders.isEmpty && !allEntered p.2)

/-- An array's fence is complete: the keeper releases it (R380); test access may hold its switch closed (R425). -/
def arrayFenced (s : State) (a : Nat) : State :=
  match (arr s a).fencing with
  | none => s
  | some by_ =>
    if !arrayEmpty s a then s
    else
      let s := (holdersOf s a).foldl (fun s p => dropFenced s p.1 p.2) s
      let x := arr s a
      let x := match x.pow with
        | .idle => x
        | .opened => x
        | .waiting => openSwitch x
        | .closing => if bit s.svc.pswHold a then { x with pow := .idle } else openSwitch x
        | _ => { x with pow := .rampDown }
      let s := nextSwitch (setArr s a { x with fencing := none, fenced := true, preramp := false })
      let s := setFld s Reg.tchArrays Fl.tchArrays_FENCED (fld s Reg.tchArrays Fl.tchArrays_FENCED ||| (1 <<< a))
      endCleave s by_ 0

/-- A bank group's copy is done. -/
def bankFenced (s : State) (g : Nat) : State :=
  match clFind s false 1 g with
  | none => s
  | some (v, j) =>
    let mine := s.svc.copies.filter (fun c => c.bank / 8 == g && c.det == 0)
    let s := setSvc s (fun x => { x with
      homes := tabSet x.homes g ((List.range 8).map (fun i => physBank s (8 * g + i)))
      copies := x.copies.filter (fun c => !(c.bank / 8 == g && c.det == 0)) })
    let s := mine.foldl (fun s c => mapBank s c.bank c.spare) s
    completeJob (setSpareFree s (spareFree s - mine.length)) v j.seq

/-- CLEAVE_FENCE_DONE: a fenced part carries no more work. -/
def execCleaveFenceDone (part : Part) (s : State) : Host.Outcome State Fault Refusal :=
  let t := part.target
  .next (match part.kind with
    | 0 => if t < 4 then arrayFenced s t else s
    | 1 => bankFenced s t
    | 2 =>
      (match clFind s false 2 t with
      | none => s
      | some (v, j) =>
        if (setBitsOf t 16).all (fun w => vBase s w == Vs.off || (vState s w == Vs.fenced && (vein s w).jobs.all (·.done)))
        then completeJob s v j.seq else s)
    | 3 =>
      let k := link s t
      if linkState s t == Lk.fenced && k.fence.isSome then endCleave (setLink s t { k with fence := none }) k.fence 0 else s
    | _ => s)

/-- An array's known-answer tiles are over. -/
def arrayBack (s : State) (a : Nat) (failed : Bool) : State :=
  let x := arr s a
  match x.returning with
  | none => s
  | some c =>
    if failed then
      endCleave (setArr s a { x with
        returning := none, pow := .idle, resident := false, active := none, shadow := none, random := false }) (some c) St.checkFailed
    else
      let pow := match x.pow with | .full => Pow.full | .rampUp => .rampUp | .waiting => .waiting | .closing => .closing | _ => .idle
      let s := setArr s a { x with
        returning := none, fenced := false, resident := false, active := none, shadow := none, random := false, pow := pow }
      let r := Reg.tchArrays
      let clr (n : Nat) : Nat := n - (if bit n a then 1 <<< a else 0)
      let s := setFld s r Fl.tchArrays_FENCED (clr (fld s r Fl.tchArrays_FENCED))
      let s := setFld s r Fl.tchArrays_AUTO (clr (fld s r Fl.tchArrays_AUTO))
      let s := setFld s r Fl.tchArrays_INSERVICE (fld s r Fl.tchArrays_INSERVICE ||| (1 <<< a))
      endCleave (settleWaits s) (some c) 0

/-- A bank group comes back: banks that failed the march stay on their spares. -/
def bankBack (s : State) (g : Nat) (failed : List Nat) : State :=
  match clFind s true 1 g with
  | none => s
  | some (v, j) =>
    let home := mapGet [] s.svc.homes g
    let good := (home.zip (List.range 8)).filter (fun h => !failed.contains h.1)
    let s := good.foldl (fun s h => mapBank s (8 * g + h.2) h.1) s
    let s := setSvc s (fun x => { x with
      homes := mapDel g x.homes, retired := x.retired ++ (home.filter (fun p => failed.contains p && !x.retired.contains p)) })
    completeJob (setSpareFree s (spareFree s + good.length)) v j.seq

/-- CLEAVE_RETURN_DONE: a part is back after its tests, or stays fenced. -/
def execCleaveReturnDone (part : Part) (failed : List Nat) (s : State) : Host.Outcome State Fault Refusal :=
  let t := part.target
  .next (match part.kind with
    | 0 => if t < 4 then arrayBack s t (!failed.isEmpty) else s
    | 1 => bankBack s t failed
    | 3 =>
      let k := link s t
      if linkState s t == Lk.active && k.unfence.isSome then endCleave (setLink s t { k with unfence := none }) k.unfence 0
      else s
    | _ => s)

/-! ## Microcode slots, parity, PLLs (R375, R384) -/

/-- Parity of a microcode slot has failed: it is BAD, and the veins that use it switch to the other, or the block fails
(R384). The record of a switch is written whatever CEREC says (R378). (DEDUCED, log 91) -/
def ucodePar (s : State) (k : Nat) (inj : Bool) : State :=
  let a := Reg.vnUcode
  let s := setFlag s a (if k = 0 then Fl.vnUcode_ABAD else Fl.vnUcode_BBAD) true
  let u := fld s a Fl.vnUcode_INUSE
  let users := (List.range 16).filter (fun v => bit u v == (k == 1))
  let r := { ErrRec.ofDet 0 0x0A with lkind := 8, loc := k, inj := inj }
  if users.isEmpty then recordErr s r
  else if slotGood s (1 - k) then
    let s := setFld s a Fl.vnUcode_INUSE (users.foldl (fun n v => setBits n v 1 (1 - k)) u)
    recordErr s { r with always := true }
  else recordErr s { r with sev := 3, status := St.fatalUcode }

/-- UCODE_PAR. -/
def execUcodePar (slot : Fin 2) (s : State) : Host.Outcome State Fault Refusal :=
  .next (if !pxRuns s then s
    else
      let injR := flint s 0x0A ⟨0xFF, [slot.val], none, none, none⟩ false
      ucodePar injR.2 slot.val injR.1)

/-- A detector's event makes the block fatal with FATAL_INTERNAL (R375). -/
def failInternal (s : State) (det : Nat) (inj : Bool) : State :=
  recordErr s { ErrRec.ofDet 3 det with status := St.fatalInternal, inj := inj }

/-- CTRL_PAR (R375). -/
def execCtrlPar (s : State) : Host.Outcome State Fault Refusal :=
  .next (if !pxRuns s then s
    else
      let injR := flint s 0x0B (InjSel.ofUnit 0xFF) false
      failInternal injR.2 0x0B injR.1)

/-- PLL_LOCK (R375, R420). -/
def execPllLock (s : State) : Host.Outcome State Fault Refusal :=
  .next (if !pxRuns s then s
    else
      let injR := flint s 0x0C (InjSel.ofUnit 0xFF) false
      failInternal injR.2 0x0C injR.1)

/-- Parity of the microcode slots and of the control state, and the lock of the PLLs, are watched at every clock, so an
armed injector of one of them meets its opportunity there and causes the event (R389). (DEDUCED, log 100) -/
def watchInject (s : State) : State :=
  if !pxRuns s || !(List.range 8).any (fun n => injArmed s n && 0x0A ≤ injDet s n && injDet s n ≤ 0x0C) then s
  else
    let s := [0, 1].foldl (fun s k =>
      let hitR := flint s 0x0A ⟨0xFF, [k], none, none, none⟩ false
      if hitR.1 then ucodePar hitR.2 k true else hitR.2) s
    [0x0B, 0x0C].foldl (fun s d =>
      let hitR := flint s d (InjSel.ofUnit 0xFF) false
      if hitR.1 then failInternal hitR.2 d true else hitR.2) s

/-! ## Evacuation (R385) -/

/-- EVACUATE: a write of PX_ERR_EVAC; GO during an evacuation is ignored. (DEDUCED, log 88) -/
def execEvacuate (value : W64) (s : State) : Host.Outcome State Fault Refusal :=
  let n := value.toNat
  let a := Reg.errEvstat
  .next (portAct s Reg.errEvac (fun s =>
    let st := fld s a Fl.errEvstat_STATE
    if !bit n 63 || (1 ≤ st && st ≤ 3) then s
    else
      let s := setFld (setFld (setFld s a Fl.errEvstat_STATE 1) a Fl.errEvstat_STATUS 0) a Fl.errEvstat_BYTES 0
      setSvc s (fun x => { x with evacAddr := 64 * bits n 6 42, evacImg := [] })))

/-- The evacuation image. No vein saves its state part: the step in that part's header is a free value.
(DESIGN CHOICE, log 28) -/
def evacImage (s : State) : List Byte × State :=
  let (step, s) := takeFree s 40
  let veins := (List.range 16).flatMap (fun v =>
    [Reg.vnQbase v, Reg.vnQcfg v, Reg.vnTailaddr v, Reg.vnTail v, Reg.vnSeq v, Reg.vnStat v, Reg.vnStep v,
      Reg.vnDeadline v].flatMap (fun a => leBytes 8 (rd s a).toNat))
  let streams := (List.range 64).flatMap (fun i =>
    (List.range 8).flatMap (fun w => leBytes 8 (rd s (Reg.stmDescW0 i + 8 * w)).toNat))
  let sems := (List.range 256).flatMap (fun k => leBytes 2 (semValue s k))
  let body := veins ++ streams ++ sems ++ imageWith s step 0x7F
  let h := leBytes 4 0x45564143 ++ leBytes 2 1 ++ leBytes 2 (stratum s) ++ leBytes 6 (frameNo s) ++ leBytes 2 0 ++
    leBytes 4 (64 + body.length) ++ List.replicate 40 0
  (h ++ leBytes 4 (crc32c (h ++ leBytes 4 0 ++ body)) ++ body, s)

/-- Bursts of the image while tags are free: ports in turn, each at its burst. (DEDUCED, log 88) -/
def evacSend : Nat → State → State
  | 0, s => s
  | k + 1, s =>
    let ports := (List.range 4).filter (portUsable s)
    match ports.findSome? (fun p => (freeTag s p).map (fun t => (p, t))) with
    | none => s
    | some (p, t) =>
      if s.svc.evacImg.isEmpty then s
      else
        let x := s.svc.evacAddr
        let n := portBurst s p - x % portBurst s p
        let bs := s.svc.evacImg.take n
        let s := emit s (.deepWrite p t x bs)
        let s := { s with evacReqs := s.evacReqs ++ [(p, t)],
                          svc := { s.svc with evacAddr := (x + bs.length) % 2 ^ 48, evacImg := s.svc.evacImg.drop n } }
        evacSend k (incFld s Reg.errEvstat Fl.errEvstat_BYTES bs.length)

/-- EVAC_IMAGE_WRITE: once every issued command is complete the image leaves over the Deep ports, as far as tags are
free; the rest follows at the next such event. -/
def execEvacImageWrite (s : State) : Host.Outcome State Fault Refusal :=
  let a := Reg.errEvstat
  let st := fld s a Fl.errEvstat_STATE
  .next (if !isRun s then s
    else if st = 2 && (allJobs s).isEmpty then
      if !(List.range 4).any (portUsable s) then
        setFld (setFld (fenceAll s) a Fl.errEvstat_STATE 5) a Fl.errEvstat_STATUS St.endpointError
      else
        let (img, s) := evacImage s
        let s := setFld s a Fl.errEvstat_STATE 3
        evacSend img.length (setSvc s (fun x => { x with evacImg := img }))
    else if st = 3 then evacSend s.svc.evacImg.length s
    else s)

end Sys2Proof.Machine
end

