-- ==== Sys2Proof/Machine/Startup.lean ====
section
/-! DEFINITION. Power, reset, self-test and test access (R335, R374, R402, R416 to R425). -/

namespace Sys2Proof.Machine

/-! ## Power and reset (R335, R402, R417, R421, R422) -/

/-- What PX_STR_ID keeps until VDD_AON goes (R309, R402). (DEDUCED, log 95) -/
def keptStratum (s t : State) : State :=
  let a := Reg.strId
  let t := setFld t a Fl.strId_VALID (fld s a Fl.strId_VALID)
  let t := setFld t a Fl.strId_STRATUM (fld s a Fl.strId_STRATUM)
  setFld t a Fl.strId_CHAINLEN (fld s a Fl.strId_CHAINLEN)

/-- Everything the block loses at a reset is at its reset value. Test access, which has its own port and supply, the
contents of Mica, which RESET clears, and the pins stay. (DEDUCED, log 95) -/
def wiped (s : State) : State :=
  { State.reset with
    mica := s.mica
    poison := s.poison
    pins := s.pins
    strap := s.strap
    svc := { SvcSt.init with
      repair := s.svc.repair, testHold := s.svc.testHold, wir := s.svc.wir, refused := s.svc.refused,
      busy := s.svc.busy, boundary := s.svc.boundary, pswHold := s.svc.pswHold }
    free := s.free
    out := s.out
    pending := s.pending }

/-- VDD_PX is in range: the block has left CLAMPED, or PX_RST_N has put it back there while PGOOD_PX stood (R417, R425).
Before PX_RST_N first rises no command says so. (DEDUCED, log 149) -/
def pxGood (s : State) : Bool := (s.su != .off && s.su != .clamped) || (s.su == .clamped && s.svc.pxOn)

/-- CLAMPED: registers are reset but for the stratum, the clamp straps take effect, and TIME_ACK goes to its strap's level,
so that it falls where that is 0 (R402, R415, R422, R426). That PHASE has been heard is not forgotten (R335). (DEDUCED, log 78, 94) -/
def enterClamped (s : State) : State :=
  if s.su == .off then s
  else
    let t := keptStratum s { wiped s with
      su := .clamped
      strap := { s.strap with clamp := s.pins.clamp }
      slt := { SltSt.init with phase := s.slt.phase } }
    let t := setSvc t (fun x => { x with pxOn := pxGood s })
    if s.crn.ack && portLive s 13 && !bit s.pins.clamp.toNat 13 then { t with out := t.out ++ [.timeAck false] } else t

/-- VDD_AON_ON: the block powers up; STRATA_HEAD takes effect (R422). (DEDUCED, log 94) -/
def execVddAonOn (pins : Pins) (s : State) : Host.Outcome State Fault Refusal :=
  .next (if s.su != .off then s
    else
      { wiped s with su := .clamped, pins := pins, strap := { Pins.zero with head := pins.head, clamp := pins.clamp } })

/-- VDD_AON_LOSS: nothing stays but what other supplies hold (R309, R335). -/
def execVddAonLoss (s : State) : Host.Outcome State Fault Refusal :=
  .next { wiped s with
    su := .off
    strap := Pins.zero
    svc := { SvcSt.init with testHold := s.svc.testHold } }

/-- PX_RST_N_LOW (R421). (DESIGN CHOICE, log 93) -/
def execPxRstNLow (s : State) : Host.Outcome State Fault Refusal := .next (enterClamped s)

/-- PGOOD_LOSS: PGOOD_PX or PGOOD_MICA falls; with VDD_MICA the contents of Mica go (R417, R426). No command reads Mica
before RESET has cleared it. (DESIGN CHOICE, log 121) -/
def execPgoodLoss (mica : Bool) (s : State) : Host.Outcome State Fault Refusal :=
  .next (if s.su == .off then s
    else
      let s := enterClamped s
      if mica then { s with mica := [], poison := [] } else setSvc s (fun x => { x with pxOn := false }))

/-- PX_RST_N_HIGH: CLAMPED ends and RESET begins; Mica is cleared (R335, R418). (DESIGN CHOICE, log 7, 93) -/
def execPxRstNHigh (s : State) : Host.Outcome State Fault Refusal :=
  .next (if s.su != .clamped then s
    else { s with su := .reset, mica := [], poison := [], svc := { s.svc with testWait := s.svc.testHold } })

/-! ## RESET (R335, R382) -/

/-- Spare failing banks that serve a logical bank, lowest first, each with its record. (DEDUCED, log 97) -/
def resetSpare (s : State) (b : Nat) : State :=
  match freeBanks s with
  | [] => s
  | q :: _ =>
    let p := physBank s b
    let s := setSpareFree (mapBank s b q) (spareFree s - 1)
    bankRec s 0 p false false

/-- Failing physical banks: those of this test and those of the repair map (R425). -/
def failingBanks (s : State) (bad : List Nat) : List Nat :=
  (List.range 200).filter (fun p => bad.contains p || s.svc.repair.contains p)

/-- LOAD begins; a stratum kept from before seeds the stochastic rounding (R53), and the head numbers the chain
(R334). -/
def enterLoad (s : State) : State :=
  let s := enterSu s .load
  let s := setFld s Reg.numSrStratum Fl.numSrStratum_SSTRATUM (stratum s)
  if isHead s then sendEnum s else s

/-- RESET_DONE: the key hash is read, Mica is tested and spared; more than eight failing banks are fatal. TEST_HOLD holds
the block in RESET, and after it only CLAMPED leads on (R424). (DEDUCED, log 97) -/
def execResetDone (badBanks : List Nat) (s : State) : Host.Outcome State Fault Refusal :=
  .next (if s.su != .reset || s.svc.testHold || s.svc.testWait then s
    else
      let s := { s with strap := { s.strap with keyhash := s.pins.keyhash } }
      let bad := failingBanks s badBanks
      if bad.length > 8 then
        recordErr s { ErrRec.ofDet 3 0 with status := St.fatalInternal, unit := Unit.err }
      else
        let s := setSvc s (fun x => { x with retired := bad })
        enterLoad ((bad.filter (· < 192)).foldl resetSpare s))

/-! ## SELFTEST (R374, R414) -/

/-- Put an array's failing columns on its spares, or leave the array cleaved. (DEDUCED, log 98) -/
def selftestArray (s : State) (a : Nat) (failing : List Nat) : State :=
  let r := Reg.tchSpare a
  let used65 := flag s r Fl.tchSpare_V65
  let used66 := flag s r Fl.tchSpare_V66
  let covered (c : Nat) : Bool :=
    (used65 && fld s r Fl.tchSpare_COL65 == c) || (used66 && fld s r Fl.tchSpare_COL66 == c)
  let lost := (used65 && failing.contains 65) || (used66 && failing.contains 66)
  let need := (List.range 65).filter (fun c => failing.contains c && !covered c)
  let spares := (freeSpares s a).filter (fun p => !failing.contains p)
  if lost || need.length > spares.length then
    let t := Reg.tchArrays
    let m := fld s t Fl.tchArrays_INSERVICE
    let s := setFld s t Fl.tchArrays_INSERVICE (m - (if bit m a then 1 <<< a else 0))
    let s := setFld s t Fl.tchArrays_FENCED (fld s t Fl.tchArrays_FENCED ||| (1 <<< a))
    let s := setFld s t Fl.tchArrays_AUTO (fld s t Fl.tchArrays_AUTO ||| (1 <<< a))
    setArr s a { arr s a with fenced := true }
  else
    (spares.zip need).foldl (fun s m =>
      let s := if m.1 = 65 then setFld (setFlag s r Fl.tchSpare_V65 true) r Fl.tchSpare_COL65 m.2
        else setFld (setFlag s r Fl.tchSpare_V66 true) r Fl.tchSpare_COL66 m.2
      noteRec s { ErrRec.ofDet 0 0x06 with lkind := 1, loc := a + (m.2 <<< 8),
                                           d1 := 0x7F + (0x7F <<< 8) + (m.1 <<< 16) }) s

/-- DPp_MODE for a capability word: the largest burst offered, turned reads and pass-through where offered; 0x20: the
port is unusable. -/
def portMode (pcap : Nat) : Nat :=
  if bits pcap 7 9 != 0 || bits pcap 0 5 == 0 then 0x20
  else Nat.log2 (bits pcap 0 5) + 8 * bits pcap 5 1 + 16 * bits pcap 6 1

/-- The four capability words are sampled (R414). -/
def samplePorts (s : State) : State :=
  (List.range 4).foldl (fun s p =>
    let c := s.pins.pcap.getD p 0
    let m := portMode c.toNat
    let s := { s with strap := { s.strap with pcap := s.pins.pcap }, dpMode := s.dpMode.set p m }
    if m = 0x20 then recordErr s { ErrRec.ofDet 1 0x0D with d0 := p, snap := false } else s) s

/-- SELFTEST_DONE: failing names, for each array, the physical columns that failed their known-answer tiles.
(DEDUCED, log 98) -/
def execSelftestDone (failing : List (List Nat)) (s : State) : Host.Outcome State Fault Refusal :=
  .next (if s.su != .selftest then s
    else
      let s := (List.range 4).foldl (fun s a => selftestArray s a (failing.getD a [])) s
      if fld s Reg.tchArrays Fl.tchArrays_INSERVICE == 0 then
        recordErr s { ErrRec.ofDet 3 0 with status := St.fatalInternal, unit := Unit.tch }
      else linksStart (samplePorts (enterSu s .linkup)))

/-! ## Test access (R423 to R425) -/

/-- TEST_HOLD_RISE: a block in RESET stays there. (DEDUCED, log 96) -/
def execTestHoldRise (s : State) : Host.Outcome State Fault Refusal :=
  .next (setSvc s (fun x => { x with testHold := true, testWait := x.testWait || s.su == .reset }))

/-- TEST_HOLD_FALL: a block that it held leaves RESET only through CLAMPED. WS_EXTEST and WS_INTEST_SCAN, which take
effect only while it is high, give way to WS_BYPASS (R424). (DEDUCED, log 96) -/
def execTestHoldFall (s : State) : Host.Outcome State Fault Refusal :=
  .next (setSvc s (fun x => { x with testHold := false, wir := if x.wir == 1 || x.wir == 3 then 0 else x.wir }))

/-- Cells of the boundary register: one for each bit of the ports of R412, in the order of their table.
(DESIGN CHOICE, log 149) -/
def boundaryCells : Nat :=
  4 * (2 + 72 + 1026 + 2058 + 5 + 11 + 24) + (1028 + 9 - 1) + 4 * 5122 + 2 * 2592 + 6 + 6 + 2 + 8 + 1 + 88 + 65 + 5 + 3 + 2 +
    64 + 9 + 2 + 2 + 1 + 20 + 384 + 8 + 1 + 64

/-- The register between WSI and WSO (R423). -/
def wrapPath (s : State) : WrapPath :=
  if s.svc.wir == 1 || s.svc.wir == 2 then .boundary
  else if s.svc.wir == 3 then .scan
  else if s.svc.wir == 0x10 then .network
  else .bypass

/-- PX_ALIVE: 1 whenever VDD_AON is good (R412), its strap's level under a clamp (R415). -/
def pxAlive (s : State) : Bool :=
  match driveOf s 15 with
  | .strap h => h
  | _ => s.su != .off

/-- WIR_UPDATE: a wrapper instruction takes effect, or loads as WS_BYPASS. WS_PRELOAD and WS_EXTEST put the boundary
register between WSI and WSO: what is shifted into it is outside the commands, a free value. WS_CLAMP, and WS_EXTEST
while TEST_HOLD is high, govern the outputs through emit until the next instruction. (DESIGN CHOICE, log 149) -/
def execWirUpdate (code : BitVec 8) (s : State) : Host.Outcome State Fault Refusal :=
  let c := code.toNat
  let s := if c == 2 || (c == 1 && s.svc.testHold) then
      let r := takeFree s boundaryCells
      setSvc r.2 (fun x => { x with boundary := r.1 })
    else s
  .next (setSvc s (fun x =>
    if c == 1 || c == 3 then
      if x.testHold then { x with wir := c } else { x with wir := 0, refused := true }
    else if c == 0 || c == 2 || c == 4 || c == 0x10 then { x with wir := c }
    else { x with wir := 0 }))

/-- An instrument's access is not performed because Touchstone, thermal action or a cleave in progress holds its part. -/
def instrumentHeld (s : State) (ins : Instrument) (unit : Nat) : Bool :=
  match ins with
  | .mbist => !s.svc.copies.isEmpty || s.trm.tripped
  | .arraybist => arrayBusy s unit || s.trm.tripped
  | .pswHold _ => arrayBusy s unit || s.trm.tripped
  | _ => false

/-- An instrument is permitted (R425). -/
def instrumentOk (s : State) (ins : Instrument) (unit : Nat) : Bool :=
  match ins with
  | .temp => pxGood s
  | .droop => pxGood s
  | .mbist => s.svc.testHold && s.su == .reset
  | .arraybist => unit < 4 && ((s.svc.testHold && s.su == .reset) || (arr s unit).fenced)
  | .pswHold _ => unit < 4
  | _ => true

/-- IJTAG_ACCESS: the IEEE 1687 network is read through PX_IJTAG. findings is what the physics shows the instrument:
PGOOD inputs and PLL locks, failing banks, failing columns, or observed clocks. -/
def execIjtagAccess (ins : Instrument) (unit : Nat) (findings : List Nat) (s : State) :
    Host.Outcome State Fault Refusal :=
  .next (if s.su == .off || s.svc.wir != 0x10 || !instrumentOk s ins unit then s
    else if instrumentHeld s ins unit then setSvc s (fun x => { x with busy := true })
    else match ins with
      | .status => emit s (.ijtag ([suCode s, b2n s.svc.refused, b2n s.svc.busy] ++ findings))
      | .temp => emit s (.ijtag ((List.range 16).map (sensorVal s)))
      | .droop => emit s (.ijtag [(rd s Reg.trmDroop).toNat])
      | .mbist => emit (setSvc s (fun x => { x with repair := findings })) (.ijtag findings)
      | .arraybist => emit (setArr s unit { arr s unit with resident := false, active := none, shadow := none, random := false }) (.ijtag findings)
      | .pswHold on => setSvc s (fun x => { x with pswHold := setBits x.pswHold unit 1 (b2n on) })
      | .pllobs => emit s (.ijtag findings))

end Sys2Proof.Machine
end

