-- ==== Sys2Proof/Machine/Turn.lean ====
section
/-! DEFINITION. Tourmaline's selection among ready commands (R200, R269), and the issue of each command of a vein in its
turn. -/

namespace Sys2Proof.Machine

/-- The checks of a command on streams, semaphores, slots and state, by opcode. -/
def checkOf (op : Nat) : State → Nat → List W64 → Option Nat :=
  match op with
  | 0x01 => tileCheck
  | 0x02 => tileCheck
  | 0x03 => wloadCheck
  | 0x04 => ewCheck
  | 0x08 => armCheck
  | 0x09 => rearmOk
  | 0x0C => semPostCheck
  | 0x0D => semWaitCheck
  | 0x10 => markCheck
  | 0x11 => barrierCheck
  | 0x15 => gradCheck
  | 0x18 => imageCheck true
  | 0x19 => imageCheck false
  | 0x1C => calCheck
  | 0x1D => cleaveCheck
  | _ => noCheck

/-- What a command waits for before it issues is there: its claim set, its stream's re-arm slot, the commands before it,
its image (conditions 4 and 5 of R200). -/
def waitsOver (s : State) (v : Nat) (ws : List W64) : Bool :=
  match cmdOp ws with
  | 0x01 => claimReady s (tileOf ws).share ws (fun n => !(tileOf ws).fits n)
  | 0x02 => claimReady s (tileOf ws).share ws (fun n => !(tileOf ws).fits n)
  | 0x03 => !rearmBusy s (cf ws 0 10 6)
  | 0x04 => claimReady s (ewOf ws).share ws (fun _ => false)
  | 0x09 => !rearmBusy s (cf ws 0 10 6)
  | 0x0C => earlierDone s v && bytesVisible s v
  | 0x11 => !barrierBusy s v ws
  | 0x15 => claimReady s (gradOf ws).share ws (fun _ => false)
  | 0x18 => earlierDone s v
  | 0x19 => imageThere s (cf ws 0 10 6)
  | 0x1C => claimFree s (arraysIn s) ws
  | _ => true

/-- The head command of a vein is ready: it meets conditions 1 to 5 of R200, and as filler those of R224 (R269). -/
def readyHead (s : State) (v : Nat) : Bool :=
  issuable s v &&
  match headCmd s v with
  | none => false
  | some c =>
    (orFail (staticBad s v c.words) (checkOf (cmdOp c.words) s v c.words)).isNone && waitsOver s v c.words &&
      (!isFiller s (vTenant s v) || fillerMay s (estimate s c.words).e)

/-- The estimate of a vein's head command, energy and clocks: the one it was admitted with, for a filler command its
own, and none for a command that does no work. (DEDUCED, log 122) -/
def headEst (s : State) (v : Nat) : Nat × Nat :=
  match headCmd s v with
  | none => (0, 0)
  | some c =>
    if !isWork (cmdOp c.words) then (0, 0)
    else if isFiller s (vTenant s v) then ((estimate s c.words).e, (estimate s c.words).t)
    else match headGroup s v with
      | some g => (g.ests.headD none).getD (0, 0)
      | none => (0, 0)

/-- LOWPREF acts: the hottest sensor stands within LOWHEAD of THROT (R269, R276). -/
def lowPref (s : State) : Bool :=
  flag s Reg.trmCtrl Fl.trmCtrl_LOWPREF && decide (tMax s ≥ 4 * (throt s - (fld s Reg.trmTherm Fl.trmTherm_LOWHEAD : Int)))

/-- Of two ready veins a comes before b by the keys of R269; a vein that stepped back by YIELD 0 comes behind (R218).
Veins that tie are the block's choice. (DEDUCED, log 122) -/
def turnBefore (s : State) (a b : Nat) : Bool :=
  let ea := headEst s a
  let eb := headEst s b
  let over_ (e : Nat × Nat) : Nat := b2n (decide ((e.1 : Int) > liveQ s))
  let power : Nat × Nat := if lowPref s then (ea.1 * max 1 eb.2, eb.1 * max 1 ea.2) else (0, 0)
  let keys : List (Nat × Nat) := [
    (b2n (vein s a).stepBack, b2n (vein s b).stepBack),
    (prio s b, prio s a),
    (deadlineKey s a, deadlineKey s b),
    (over_ ea, over_ eb),
    power,
    ((vein s a).stamp, (vein s b).stamp)]
  match keys.find? (fun k => k.1 != k.2) with
  | some k => decide (k.1 < k.2)
  | none => false

/-- Another vein's ready command comes before the ready command of vein v: Tourmaline does not select it (R200, R269).
(DEDUCED, log 122) -/
def outranked (s : State) (v : Nat) : Bool :=
  (List.range 16).any (fun w => w != v && issuable s w && readyHead s w && turnBefore s w v) && readyHead s v

/-- An issue in its turn; a ready command that Tourmaline does not select stays where it is. (DEDUCED, log 122) -/
def inTurn (s : State) (v : Nat) (o : Host.Outcome State Fault Refusal) : Host.Outcome State Fault Refusal :=
  if outranked s v then .next s else o

/-- NOP (R207). -/
def execNop (v : Fin 16) (s : State) : Host.Outcome State Fault Refusal :=
  inTurn s v (atHeadNop v s)

/-- TILE (R208 to R210). -/
def execTile (v : Fin 16) (pick : Fin 4) (s : State) : Host.Outcome State Fault Refusal :=
  inTurn s v (atHeadTile v pick s)

/-- SPTILE (R211). -/
def execSptile (v : Fin 16) (pick : Fin 4) (s : State) : Host.Outcome State Fault Refusal :=
  inTurn s v (atHeadSptile v pick s)

/-- WLOAD (R212). -/
def execWload (v : Fin 16) (s : State) : Host.Outcome State Fault Refusal :=
  inTurn s v (atHeadWload v s)

/-- ELEMWISE (R213). (DEDUCED, log 37) -/
def execElemwise (v : Fin 16) (pick : Fin 4) (s : State) : Host.Outcome State Fault Refusal :=
  inTurn s v (atHeadElemwise v pick s)

/-- STREAM_ARM (R214). -/
def execStreamArm (v : Fin 16) (s : State) : Host.Outcome State Fault Refusal :=
  inTurn s v (atHeadStreamArm v s)

/-- STREAM_REARM (R214). -/
def execStreamRearm (v : Fin 16) (s : State) : Host.Outcome State Fault Refusal :=
  inTurn s v (atHeadStreamRearm v s)

/-- SEM_POST (R215). (DEDUCED, log 111) -/
def execSemPost (v : Fin 16) (s : State) : Host.Outcome State Fault Refusal :=
  inTurn s v (atHeadSemPost v s)

/-- SEM_WAIT (R215). -/
def execSemWait (v : Fin 16) (s : State) : Host.Outcome State Fault Refusal :=
  inTurn s v (atHeadSemWait v s)

/-- MARK (R216). -/
def execMark (v : Fin 16) (s : State) : Host.Outcome State Fault Refusal :=
  inTurn s v (atHeadMark v s)

/-- BARRIER (R217). -/
def execBarrier (v : Fin 16) (s : State) : Host.Outcome State Fault Refusal :=
  inTurn s v (atHeadBarrier v s)

/-- YIELD (R218). -/
def execYield (v : Fin 16) (s : State) : Host.Outcome State Fault Refusal :=
  inTurn s v (atHeadYield v s)

/-- SCALE_COMMIT (R219). -/
def execScaleCommit (v : Fin 16) (s : State) : Host.Outcome State Fault Refusal :=
  inTurn s v (atHeadScaleCommit v s)

/-- GRAD_EMIT (R220). (DEDUCED, log 37) -/
def execGradEmit (v : Fin 16) (pick : Fin 4) (s : State) : Host.Outcome State Fault Refusal :=
  inTurn s v (atHeadGradEmit v pick s)

/-- SAVE_STATE (R358). -/
def execSaveState (v : Fin 16) (s : State) : Host.Outcome State Fault Refusal :=
  inTurn s v (atHeadSaveState v s)

/-- RESTORE_STATE (R361). -/
def execRestoreState (v : Fin 16) (s : State) : Host.Outcome State Fault Refusal :=
  inTurn s v (atHeadRestoreState v s)

/-- CALIBRATE (R265). -/
def execCalibrate (v : Fin 16) (s : State) : Host.Outcome State Fault Refusal :=
  inTurn s v (atHeadCalibrate v s)

/-- CLEAVE (R380). -/
def execCleave (v : Fin 16) (s : State) : Host.Outcome State Fault Refusal :=
  inTurn s v (atHeadCleave v s)

end Sys2Proof.Machine
end

