-- ==== Sys2Proof/Machine/Dispatch.lean ====
section
/-! DEFINITION. One arm for each row of spec/opcode_table.json. -/

namespace Sys2Proof.Machine

def exec (i : Instr) (s : State) : Host.Outcome State Fault Refusal :=
  match i with
  | .nop v => Sys2Proof.Machine.execNop v s
  | .tile v pick => Sys2Proof.Machine.execTile v pick s
  | .sptile v pick => Sys2Proof.Machine.execSptile v pick s
  | .wload v => Sys2Proof.Machine.execWload v s
  | .elemwise v pick => Sys2Proof.Machine.execElemwise v pick s
  | .streamArm v => Sys2Proof.Machine.execStreamArm v s
  | .streamRearm v => Sys2Proof.Machine.execStreamRearm v s
  | .semPost v => Sys2Proof.Machine.execSemPost v s
  | .semWait v => Sys2Proof.Machine.execSemWait v s
  | .mark v => Sys2Proof.Machine.execMark v s
  | .barrier v => Sys2Proof.Machine.execBarrier v s
  | .yieldCmd v => Sys2Proof.Machine.execYield v s
  | .scaleCommit v => Sys2Proof.Machine.execScaleCommit v s
  | .gradEmit v pick => Sys2Proof.Machine.execGradEmit v pick s
  | .saveState v => Sys2Proof.Machine.execSaveState v s
  | .restoreState v => Sys2Proof.Machine.execRestoreState v s
  | .calibrate v => Sys2Proof.Machine.execCalibrate v s
  | .cleave v => Sys2Proof.Machine.execCleave v s
  | .veinFetch v deep drawn => Sys2Proof.Machine.execVeinFetch v deep drawn s
  | .doorbell v value => Sys2Proof.Machine.execDoorbell v value s
  | .doorbellPoll v deep => Sys2Proof.Machine.execDoorbellPoll v deep s
  | .resumeNext v => Sys2Proof.Machine.execResumeNext v s
  | .resumeRetry v deep => Sys2Proof.Machine.execResumeRetry v deep s
  | .reset v => Sys2Proof.Machine.execReset v s
  | .yieldExpiry v => Sys2Proof.Machine.execYieldExpiry v s
  | .fillerUnblock => Sys2Proof.Machine.execFillerUnblock s
  | .bubbleEnd => Sys2Proof.Machine.execBubbleEnd s
  | .tileEntry array => Sys2Proof.Machine.execTileEntry array s
  | .laneItemEnd array lane => Sys2Proof.Machine.execLaneItemEnd array lane s
  | .rowDrain array row flt => Sys2Proof.Machine.execRowDrain array row flt s
  | .ladderStepEnd array rows flts => Sys2Proof.Machine.execLadderStepEnd array rows flts s
  | .strikeWindowEnd array col => Sys2Proof.Machine.execStrikeWindowEnd array col s
  | .commandComplete v seq => Sys2Proof.Machine.execCommandComplete v seq s
  | .frameDoneToken => Sys2Proof.Machine.execFrameDoneToken s
  | .streamEngineTransfer stream => Sys2Proof.Machine.execStreamEngineTransfer stream s
  | .deepReadResponse port tag rsp => Sys2Proof.Machine.execDeepReadResponse port tag rsp s
  | .deepWriteResponse port tag err => Sys2Proof.Machine.execDeepWriteResponse port tag err s
  | .mcParcelSend group => Sys2Proof.Machine.execMcParcelSend group s
  | .mcCreditGrant group => Sys2Proof.Machine.execMcCreditGrant group s
  | .mcStall group blocker => Sys2Proof.Machine.execMcStall group blocker s
  | .mcdata link hdr bytes => Sys2Proof.Machine.execMcdata link hdr bytes s
  | .mccred link group sq parcel => Sys2Proof.Machine.execMccred link group sq parcel s
  | .post link dst src tenant sem value => Sys2Proof.Machine.execPost link dst src tenant sem value s
  | .semTimeout v => Sys2Proof.Machine.execSemTimeout v s
  | .write link hdr bytes => Sys2Proof.Machine.execWrite link hdr bytes s
  | .wack link hdr => Sys2Proof.Machine.execWack link hdr s
  | .wnak link hdr => Sys2Proof.Machine.execWnak link hdr s
  | .routedForward index => Sys2Proof.Machine.execRoutedForward index s
  | .beatReceive link beat => Sys2Proof.Machine.execBeatReceive link beat s
  | .linkctl link op p0 p1 => Sys2Proof.Machine.execLinkctl link op p0 p1 s
  | .linkDetect link width div => Sys2Proof.Machine.execLinkDetect link width div s
  | .linkLoss link => Sys2Proof.Machine.execLinkLoss link s
  | .capabilityWord link w => Sys2Proof.Machine.execCapabilityWord link w s
  | .modeWord link w => Sys2Proof.Machine.execModeWord link w s
  | .trainingTimeout link => Sys2Proof.Machine.execTrainingTimeout link s
  | .retrain link => Sys2Proof.Machine.execRetrain link s
  | .disable link => Sys2Proof.Machine.execDisable link s
  | .syncSend => Sys2Proof.Machine.execSyncSend s
  | .sync link src lode hops epoch t1 frame => Sys2Proof.Machine.execSync link src lode hops epoch t1 frame s
  | .dreq link src t3 => Sys2Proof.Machine.execDreq link src t3 s
  | .dresp link src t3 t4 => Sys2Proof.Machine.execDresp link src t3 t4 s
  | .syncLoss => Sys2Proof.Machine.execSyncLoss s
  | .tickAnnounce => Sys2Proof.Machine.execTickAnnounce s
  | .tick link epoch grid frame timeStep => Sys2Proof.Machine.execTick link epoch grid frame timeStep s
  | .hold link epoch grid frame => Sys2Proof.Machine.execHold link epoch grid frame s
  | .tickFire drawn => Sys2Proof.Machine.execTickFire drawn s
  | .gridMiss => Sys2Proof.Machine.execGridMiss s
  | .takeover link src lode epoch frame => Sys2Proof.Machine.execTakeover link src lode epoch frame s
  | .token link src frame blocks late lowest => Sys2Proof.Machine.execToken link src frame blocks late lowest s
  | .tokenTimeout link => Sys2Proof.Machine.execTokenTimeout link s
  | .ready link blocks => Sys2Proof.Machine.execReady link blocks s
  | .readyTimeout link => Sys2Proof.Machine.execReadyTimeout link s
  | .tickIn => Sys2Proof.Machine.execTickIn s
  | .discPps => Sys2Proof.Machine.execDiscPps s
  | .ppsLost => Sys2Proof.Machine.execPpsLost s
  | .timeReq => Sys2Proof.Machine.execTimeReq s
  | .timeReqFall => Sys2Proof.Machine.execTimeReqFall s
  | .timeStep value => Sys2Proof.Machine.execTimeStep value s
  | .vackWatchStart => Sys2Proof.Machine.execVackWatchStart s
  | .vackRise => Sys2Proof.Machine.execVackRise s
  | .vackTimeout => Sys2Proof.Machine.execVackTimeout s
  | .oppSlewDone => Sys2Proof.Machine.execOppSlewDone s
  | .sensorSample readings => Sys2Proof.Machine.execSensorSample readings s
  | .thermalStepdown => Sys2Proof.Machine.execThermalStepdown s
  | .thermalStepup => Sys2Proof.Machine.execThermalStepup s
  | .droopTrip mv => Sys2Proof.Machine.execDroopTrip s mv
  | .droopEnd => Sys2Proof.Machine.execDroopEnd s
  | .keeperLimit array => Sys2Proof.Machine.execKeeperLimit array s
  | .rampDownDone array => Sys2Proof.Machine.execRampDownDone array s
  | .switchOpen array => Sys2Proof.Machine.execSwitchOpen array s
  | .switchCloseDone array => Sys2Proof.Machine.execSwitchCloseDone array s
  | .rampUpDone array => Sys2Proof.Machine.execRampUpDone array s
  | .preRamp => Sys2Proof.Machine.execPreRamp s
  | .preRampTimeout => Sys2Proof.Machine.execPreRampTimeout s
  | .autocalStart domain => Sys2Proof.Machine.execAutocalStart domain s
  | .autocalDone coeffs => Sys2Proof.Machine.execAutocalDone coeffs s
  | .patrolScrub events => Sys2Proof.Machine.execPatrolScrub events s
  | .bankCopyDone bank => Sys2Proof.Machine.execBankCopyDone bank s
  | .cleaveFenceDone part => Sys2Proof.Machine.execCleaveFenceDone part s
  | .cleaveReturnDone part failed => Sys2Proof.Machine.execCleaveReturnDone part failed s
  | .ucodePar slot => Sys2Proof.Machine.execUcodePar slot s
  | .ctrlPar => Sys2Proof.Machine.execCtrlPar s
  | .pllLock => Sys2Proof.Machine.execPllLock s
  | .evacuate value => Sys2Proof.Machine.execEvacuate value s
  | .evacImageWrite => Sys2Proof.Machine.execEvacImageWrite s
  | .updCreditGrant n => Sys2Proof.Machine.execUpdCreditGrant n s
  | .updErr => Sys2Proof.Machine.execUpdErr s
  | .gradRecordSend v => Sys2Proof.Machine.execGradRecordSend v s
  | .pgtSnapshot => Sys2Proof.Machine.execPgtSnapshot s
  | .pgtCommit value => Sys2Proof.Machine.execPgtCommit value s
  | .schedEvaluate value => Sys2Proof.Machine.execSchedEvaluate value s
  | .dbgMicaRead value => Sys2Proof.Machine.execDbgMicaRead value s
  | .dbgMicaReadDone => Sys2Proof.Machine.execDbgMicaReadDone s
  | .traceEnable value => Sys2Proof.Machine.execTraceEnable value s
  | .traceRecord => Sys2Proof.Machine.execTraceRecord s
  | .traceDrop => Sys2Proof.Machine.execTraceDrop s
  | .injectorArm injector value => Sys2Proof.Machine.execInjectorArm injector value s
  | .registerWrite addr value => Sys2Proof.Machine.execRegisterWrite addr value s
  | .badAccess addr isWrite strobes value => Sys2Proof.Machine.execBadAccess addr isWrite strobes value s
  | .vddAonOn pins => Sys2Proof.Machine.execVddAonOn pins s
  | .pxRstNLow => Sys2Proof.Machine.execPxRstNLow s
  | .pxRstNHigh => Sys2Proof.Machine.execPxRstNHigh s
  | .pgoodLoss mica => Sys2Proof.Machine.execPgoodLoss mica s
  | .resetDone badBanks => Sys2Proof.Machine.execResetDone badBanks s
  | .flashReadDone r => Sys2Proof.Machine.execFlashReadDone r s
  | .slateCheckDone => Sys2Proof.Machine.execSlateCheckDone s
  | .selftestDone failing => Sys2Proof.Machine.execSelftestDone failing s
  | .enum m => Sys2Proof.Machine.execEnum m s
  | .image m => Sys2Proof.Machine.execImage m s
  | .bcastChain m => Sys2Proof.Machine.execBcastChain m s
  | .bcastCand m => Sys2Proof.Machine.execBcastCand m s
  | .bcastPhase m => Sys2Proof.Machine.execBcastPhase m s
  | .bcastReload m => Sys2Proof.Machine.execBcastReload m s
  | .pollElig m => Sys2Proof.Machine.execPollElig m s
  | .pollState m => Sys2Proof.Machine.execPollState m s
  | .pollAlive m => Sys2Proof.Machine.execPollAlive m s
  | .strataReturn m => Sys2Proof.Machine.execStrataReturn m s
  | .strataReturnTimeout => Sys2Proof.Machine.execStrataReturnTimeout s
  | .headPoll => Sys2Proof.Machine.execHeadPoll s
  | .phaseTimeout => Sys2Proof.Machine.execPhaseTimeout s
  | .enumRequest => Sys2Proof.Machine.execEnumRequest s
  | .slateReload => Sys2Proof.Machine.execSlateReload s
  | .testHoldRise => Sys2Proof.Machine.execTestHoldRise s
  | .testHoldFall => Sys2Proof.Machine.execTestHoldFall s
  | .wirUpdate code => Sys2Proof.Machine.execWirUpdate code s
  | .ijtagAccess ins unit findings => Sys2Proof.Machine.execIjtagAccess ins unit findings s
  | .vddAonLoss => Sys2Proof.Machine.execVddAonLoss s
  | .overspend drawn => Sys2Proof.Machine.execOverspend drawn s
  | .gridSlip => Sys2Proof.Machine.execGridSlip s
  | .exactCaptureDone => Sys2Proof.Machine.execExactCaptureDone s
  | .schedValueReady => Sys2Proof.Machine.execSchedValueReady s
  | .strataBadlen m => Sys2Proof.Machine.execStrataBadlen m s

end Sys2Proof.Machine
end

