-- ==== Sys2Proof/Machine/Idle.lean ====
section
/-! DEFINITION. What happens at a clock while no command waits: time runs on, the TIME outputs follow it, and every
ACTIVE link sends a beat in its slots (R228, R234, R249, R263, R283). -/

namespace Sys2Proof.Machine

/-- The greatest steering of one time clock: 10 ppm of the parent's rate (R234). (DEDUCED, log 99) -/
def slewMax (s : State) : Int := s.crn.inc / 100000

/-- The part of the slew that one time clock takes away. (DEDUCED, log 99) -/
def slewPart (s : State) : Int := max (-slewMax s) (min (slewMax s) s.crn.slew)

/-- Admitted work runs in the open frame. -/
def workRuns (s : State) : Bool := (allJobs s).any (fun p => p.2.inFrame && isWork p.2.op)

/-- Time of the open frame in which no admitted work runs (R263): one time clock is 8 units of 1/16 ns. -/
def countIdle (s : State) : State :=
  if s.crn.opened && !workRuns s then { s with trm := { s.trm with idle := s.trm.idle + 8 } } else s

/-- TS_OUT shows the timestamp of each rising edge of CLK_REF, one in 20 time clocks, but a captured one while TIME_ACK is
high (R249, R250). (DESIGN CHOICE, log 142) -/
def sampleTs (s : State) : State :=
  if timeUnclamped s && !s.crn.ack && s.crn.clocks % 20 = 0 then setCrn s (fun c => { c with tsOut := tstamp s }) else s

/-- TICK_OUT falls 16 ns after it rose (R249). -/
def fallTick (s : State) : State :=
  match s.crn.tickUp with
  | some t => if (tstamp s + 2 ^ 64 - t) % 2 ^ 64 ≥ 256 then setCrn (emit s .tickFall) (fun c => { c with tickUp := none }) else s
  | none => s

/-- One time clock: time advances by the increment, steered towards the parent. -/
def timeClock (s : State) : State :=
  match s.su with
  | .off => s
  | .clamped => s
  | .reset => s
  | _ =>
    let d := slewPart s
    let s := setCrn (addTime s ((s.crn.inc : Int) - d)) (fun c => { c with slew := c.slew - d, clocks := c.clocks + 1 })
    fallTick (sampleTs (countIdle s))

/-- The rate divisor of a link's mode (R283). -/
def linkDiv (s : State) (l : Nat) : Nat := if modeBit s l 41 then 1 else if modeBit s l 40 then 2 else 4

/-- A beat slot of a link begins within the time clock that has just ended: a slot is d link clocks of 1.6 GHz, 10 d
units of 1/16 ns, a time clock 8 (R283). (DESIGN CHOICE, log 4) -/
def slotNow (s : State) (l : Nat) : Bool :=
  8 * s.crn.clocks / (10 * linkDiv s l) != 8 * (s.crn.clocks - 1) / (10 * linkDiv s l)

/-- The idle block at one clock: a time clock, a beat of every link whose slot begins, and the detectors that Flint may
force at any clock. (DESIGN CHOICE, log 4) -/
def idleClock (s : State) : State :=
  watchInject ((List.range 6).foldl (fun s l => if slotNow s l then sendBeat s l else s) (timeClock s))

end Sys2Proof.Machine
end

