-- ==== Sys2Proof/Machine/Step.lean ====
section
/-! DEFINITION. One step: the command at the front of the queue, or one clock of the idle block. -/

namespace Sys2Proof.Machine

/-- Take the command at the front of the queue and run it on the rest; with an empty queue one clock passes.
(DESIGN CHOICE, log 4, 8, 12) -/
def step (s : State) : Host.Outcome State Fault Refusal :=
  match s.pending with
  | [] => .next (idleClock s)
  | c :: cs => exec c { s with pending := cs }

/-- The command a word spells, at the front of the queue. No word spells one. -/
def State.withFetchWord (s : State) (nbits w : Nat) : State :=
  match Sys2Proof.decodeTableWord nbits w with
  | some c => { s with pending := c :: s.pending }
  | none => s

end Sys2Proof.Machine
end

