-- ==== Sys2Proof/Safety.lean ====
section
/-! DEFINITION. The terms of the claims: a sound state, and what commands may change beside their own effect: the books
in which the issue and the end of commands, their admission and their errors are kept. -/

namespace Sys2Proof

open Machine

/-- Registers and Mica are listed in rising order, and nothing is listed that an unlisted address reads as. -/
def Sound (s : State) : Prop := mapWf regReset s.regs = true ∧ Memory.wf s = true

/-- Registers of error records, counts and attention (R376 to R378, R427). -/
def errBook (a : Nat) : Bool :=
  [Reg.errCnt, Reg.errCntCe, Reg.errAtn, Reg.errSummary, Reg.errRingPtr].contains a ||
    (decide (Reg.errLast 0 ≤ a) && decide (a < Reg.errLast 64))

/-- The books of commands: status and sequence of the veins, the live budget, and the registers of errBook. -/
def bookReg (a : Nat) : Bool :=
  (List.range 16).any (fun v => a == Reg.vnStat v || a == Reg.vnSeq v) || a == Reg.trmBudget || a == Reg.trmStat ||
    errBook a

/-- A byte of the error ring in Mica, while the ring is on (R378). -/
def ringByte (s : State) (x : Nat) : Bool :=
  flag s Reg.errRingCfg Fl.errRingCfg_ENABLE &&
    decide (fld s Reg.errRingCfg Fl.errRingCfg_BASE * 4096 ≤ x ∧ x < fld s Reg.errRingCfg Fl.errRingCfg_BASE * 4096 + 16384)

/-- A vein without its books: groups, commands in flight, the state that a mask hides, what its head waits for. -/
def veinPlain (x : VeinSt) : VeinSt := { x with groups := [], jobs := [], left := 0, waitOn := 0 }

/-- An array without its committed clocks. -/
def arrPlain (x : ArrSt) : ArrSt := { x with cEnd := 0 }

/-- Tourmaline without its books of admission. -/
def trmPlain (x : TrmSt) : TrmSt :=
  { x with tenants := [], nAdmitted := 0, defers := 0, oversize := false, domains := [], model := 0, marked := [],
           blocked := false }

/-- The rest of the state, which the books do not touch. -/
def restOf (s : State) : State :=
  { s with regs := [], mica := [], poison := [], veins := [], arrays := [], trm := TrmSt.init, detCount := [],
           recWrap := false, traceQ := [] }

/-- From s to t nothing changes but the books, and of the registers those of R. -/
structure Books (R : Nat → Bool) (s t : State) : Prop where
  regs   : ∀ a, R a = false → rd t a = rd s a
  mica   : ∀ x, ringByte s x = false → micaByte t x = micaByte s x
  veins  : ∀ v, veinPlain (vein t v) = veinPlain (vein s v)
  arrays : ∀ a, arrPlain (arr t a) = arrPlain (arr s a)
  trm    : trmPlain t.trm = trmPlain s.trm
  rest   : restOf t = restOf s

/-! ## Issue -/

/-- Command c stands at the head of vein v, has the opcode op, passes the decode checks that need nothing but the
command and the tables, no rule of the filler holds it back (R200, R224), and no other vein's ready command comes before
it (R269). -/
structure Head (s : State) (v : Nat) (c : Cmd) (op : Nat) : Prop where
  may  : issuable s v = true
  head : headCmd s v = some c
  op   : cmdOp c.words = op
  good : staticBad s v c.words = none
  fill : isFiller s (vTenant s v) = false ∨ fillerMay s (estimate s c.words).e = true
  turn : outranked s v = false

/-- The state as the head command of vein v leaves the prefetch, its books apart: one issue more is counted, an
automatic calibration is preempted (R264), and a place in the queue given up by YIELD 0 is taken again (R218). -/
def leftPrefetch (s : State) (v : Nat) : State :=
  { setVein s v { vein s v with
      held := (vein s v).held.drop 1
      fresh := (vein s v).fresh - 1
      retry := false
      retryAt := if (vein s v).retry then (vein s v).retryAt else []
      stamp := s.stamp + 1
      stepBack := false } with
    stamp := s.stamp + 1
    trm := { s.trm with autocal := none } }

/-- A command that issued with nothing in flight before it has retired: PX_VN_SEQ.DONE is its SEQ. -/
def Retired (s t : State) (v : Nat) (c : Cmd) : Prop :=
  (vein s v).jobs = [] → fld t (Reg.vnSeq v) Fl.vnSeq_DONE = cmdSeq c.words

/-! ## Conditions -/

/-- No error injector is armed (R387). -/
def injOff (s : State) : Prop := ∀ n < 8, injArmed s n = false

/-- The descriptor registers of a stream (R147). -/
def descReg (i a : Nat) : Prop := Reg.stmDescW0 i ≤ a ∧ a ≤ Reg.stmDescW7 i

/-- The port lets a write of a register act: the block is powered and out of SAFE, and nothing refuses it (R7, R399). -/
def PortOpen (s : State) (a : Nat) : Prop :=
  s.su ≠ .off ∧ s.su ≠ .safe ∧ ∃ r, regRow a = some r ∧ refusal s a r true = none

end Sys2Proof
end

