-- ==== Sys2Proof/Certificates/Slice0/Obligations.lean ====
section
/-! DEFINITION. The statements for the provers. -/

open Sys2Proof Sys2Proof.Machine

/-- For every command c and state s, step of s with c at the front of its queue is exec of c on s with the rest of
the queue. (spec/INDEX.md, R1) -/
def Obligations.StepRunsFront : Prop :=
  ∀ (c : Instr) (cs : List Instr) (s : State), step { s with pending := c :: cs } = exec c { s with pending := cs }

/-- At reset every sparse store of the model is in its canonical form, and the queue of commands is empty. It rests
on readings of the model's own, log entries 5, 6. (R335, R402) -/
def Obligations.ResetSound : Prop := Sound State.reset ∧ State.reset.pending = []

/-- From every sound state, whatever command stands at the front of the queue, a step that answers a next state
answers a sound one: register and Mica entries rise strictly, none is listed that an unlisted address reads as, and
poison marks rise. It rests on readings of the model's own, log entries 1, 7. (R6, R137, R143, R411) -/
def Obligations.StepKeepsSound : Prop := ∀ s t : State, Sound s → step s = .next t → Sound t

/-- Every command answers a next state whose queue is that of the state it ran on, whose outputs begin with the
outputs that were there, and whose count of used free values has not fallen (outputs and free values are the model's
own record, log entries 2 and 3). (R1, R412) -/
def Obligations.CommandsKeepQueueAndOutputs : Prop :=
  ∀ (c : Instr) (s : State), ∃ t, exec c s = .next t ∧ t.pending = s.pending ∧ s.out <+: t.out ∧ s.free ≤ t.free

/-- With an empty queue a step leaves an unpowered or clamped block as it is; where the time clock runs, time has
moved by its increment less the part of the offset that one clock slews away, modulo 2^96. With no injector armed
(those of parity and lock have their opportunity at every clock) no vein, array or byte of Mica changes, and, unless
a beat completes the fence of a link, no stream and no register but the replay counts of the links, whose beats
leave in their slots (the empty-queue step as one time clock is the model's choice, log entry 4). (R228, R234, R283,
R288, R389) -/
def Obligations.IdleStepIsOneClock : Prop :=
  ∀ s : State, s.pending = [] → ∃ t, step s = .next t ∧ t.pending = [] ∧
    (injOff s → t.veins = s.veins ∧ t.arrays = s.arrays ∧ t.mica = s.mica ∧ t.su = s.su ∧
      ((∀ l < 6, ((link s l).fenceTx && (link s l).fenceAck && (link s l).fenceRx) = false) →
        t.streams = s.streams ∧ ∀ a, (∀ l < 6, a ≠ Reg.xlLnkErr l) → rd t a = rd s a)) ∧
    (s.su = .off ∨ s.su = .clamped → t = s) ∧
    (s.su ≠ .off → s.su ≠ .clamped → s.su ≠ .reset →
      t.crn.time = (((s.crn.time : Int) + ((s.crn.inc : Int) - slewPart s)) % (2 ^ 96 : Nat)).toNat ∧
      t.crn.slew = s.crn.slew - slewPart s)

/-- A NOP, a YIELD of 0 and a SCALE_COMMIT at the head of a vein issue and complete at once: the command leaves the
prefetch and, with nothing in flight before it, retires with its SEQ in PX_VN_SEQ.DONE. NOP changes nothing else but
the books of commands; YIELD 0 puts the vein behind the others once; SCALE_COMMIT commits each history entry of its
range, and no other byte of Mica changes beyond those entries and the error ring. A MARK at the head of a vein
issues. STEP and DEADLINE write the vein's step number and deadline; LAYER and a FRAME that has been reached change
nothing; BUBBLE of a vein that is no filler opens a bubble window of the given core clocks: each completes at once.
FRAME of a later frame (one without order to the present counts as reached) and NEXT leave the vein waiting. While a
WGEN_STALE waits, LAYER and STEP are refused with it and the vein halts, and it waits no longer. (R201, R207, R216,
R218, R219, R224, R230, R352, R185) -/
def Obligations.QuickControlCompletes : Prop :=
  (∀ (s : State) (v : Fin 16) (c : Cmd),
     (Head s v c 0x00 → ∃ t, exec (.nop v) s = .next t ∧ Books bookReg (leftPrefetch s v) t ∧ Retired s t v c) ∧
     (Head s v c 0x12 → cf c.words 1 0 32 = 0 → ∃ t, exec (.yieldCmd v) s = .next t ∧
       Books bookReg (setVein (leftPrefetch s v) v { vein (leftPrefetch s v) v with stepBack := true }) t ∧
       Retired s t v c) ∧
     (Head s v c 0x14 → ∃ t, exec (.scaleCommit v) s = .next t ∧
       Books bookReg ((List.range (cf c.words 1 10 11)).foldl
         (fun u i => histCommit u (cf c.words 1 0 10 + i) (vStep s v)) (leftPrefetch s v)) t ∧ Retired s t v c)) ∧
  ∀ (s : State) (v : Fin 16) (c : Cmd), Head s v c 0x10 →
    let u := leftPrefetch s v
    let done (u : State) : Prop := ∃ t, exec (.mark v) s = .next t ∧ Books bookReg u t ∧ Retired s t v c
    let waits (w : Wait) : Prop := ∃ t, exec (.mark v) s = .next t ∧
      Books bookReg (setVein u v { vein u v with wait := some w }) t
    ((vein s v).stale = false →
      (cf c.words 0 10 4 = 0 → done (setFld u (Reg.vnStep v) Fl.vnStep_STEP (cf c.words 1 0 40))) ∧
      (cf c.words 0 10 4 = 4 → done u)) ∧
    (cf c.words 0 10 4 = 1 → frameReached s (cf c.words 1 0 48) = true → done u) ∧
    (cf c.words 0 10 4 = 1 → frameReached s (cf c.words 1 0 48) = false → waits (.markFrame (cf c.words 1 0 48))) ∧
    (cf c.words 0 10 4 = 2 → waits .markNext) ∧
    (cf c.words 0 10 4 = 3 → done (setFld u (Reg.vnDeadline v) Fl.vnDeadline_CLOCKS (cf c.words 1 0 32))) ∧
    (cf c.words 0 10 4 = 5 → isFiller s (vTenant s v) = false → done { u with trm := { u.trm with
      bubbles := u.trm.bubbles ++ [(v.val, (tstamp s + clocksTs s (cf c.words 1 0 32)) % 2 ^ 64)] } }) ∧
    (cf c.words 0 10 4 = 5 → isFiller s (vTenant s v) = true → done u) ∧
    ((vein s v).stale = true → (cf c.words 0 10 4 = 0 ∨ cf c.words 0 10 4 = 4) →
      (vein s v).fenced = false → (vein s v).suspended = false → (vein s v).jobs = [] →
      ∃ t, exec (.mark v) s = .next t ∧ vState t v = Vs.halted ∧
        fld t (Reg.vnStat v) Fl.vnStat_HALTSTAT = St.wgenStale ∧
        fld t (Reg.vnStat v) Fl.vnStat_HALTSEQ = cmdSeq c.words ∧ (vein t v).stale = false)

/-- A SEM_WAIT whose semaphore stands below its count leaves the vein waiting with count, timeout and place in the
order of waits, and the semaphore shows its waiters; one whose semaphore, with nobody before it, reaches the count
takes it away and completes. A BARRIER that meets no other tenant and no other mask at its number, and whose mask
still lacks a vein, leaves the vein waiting; the last to arrive lets every vein of the mask go on. A YIELD of n
clocks waits for them. (R161, R215, R217, R218) -/
def Obligations.WaitCommandsWaitOrPass : Prop :=
  ∀ (s : State) (v : Fin 16) (c : Cmd),
    let u := leftPrefetch s v
    let k := cf c.words 0 10 8
    let mask := cf c.words 1 0 16
    let num := cf c.words 0 10 3
    let sem : Wait := .sem k (cf c.words 1 0 16) (cf c.words 1 16 16) 0 s.stamp
    (Head s v c 0x0D → inSemRange s (vTenant s v) k = true → semValue s k < cf c.words 1 0 16 → semWaiters s k = [] →
      ∃ t, exec (.semWait v) s = .next t ∧
        Books bookReg (setFld (setVein u v { vein u v with wait := some sem }) (Reg.semVal k) Fl.semVal_WAITERS 1) t) ∧
    (Head s v c 0x0D → inSemRange s (vTenant s v) k = true → cf c.words 1 0 16 ≤ semValue s k → semWaiters s k = [] →
      ∃ t, exec (.semWait v) s = .next t ∧ semValue t k = semValue s k - cf c.words 1 0 16 ∧ (vein t v).wait = none ∧
        Retired s t v c ∧ ∀ a, bookReg a = false → a ≠ Reg.semVal k → rd t a = rd s a) ∧
    (Head s v c 0x11 → (∀ w < 16, bit mask w = true → vTenant s w = vTenant s v) → bit mask v = true →
      (∀ p ∈ barrierAt s num, vTenant s p.1 = vTenant s v ∧ p.2 = mask) →
      (cb c.words 0 13 = true → earlierDone s v = true) →
      (∃ w < 16, bit mask w = true ∧ w ≠ v.val ∧ w ∉ (barrierAt s num).map (·.1)) →
      ∃ t, exec (.barrier v) s = .next t ∧
        Books bookReg (setVein u v { vein u v with wait := some (.barrier num mask) }) t) ∧
    (Head s v c 0x11 → (∀ w < 16, bit mask w = true → vTenant s w = vTenant s v) → bit mask v = true →
      (∀ p ∈ barrierAt s num, vTenant s p.1 = vTenant s v ∧ p.2 = mask) →
      (cb c.words 0 13 = true → earlierDone s v = true) →
      (∀ w < 16, bit mask w = true → w ≠ v.val → w ∈ (barrierAt s num).map (·.1)) →
      ∃ t, exec (.barrier v) s = .next t ∧ (∀ w < 16, bit mask w = true → (vein t w).wait = none) ∧
        ∀ a, bookReg a = false → rd t a = rd s a) ∧
    (Head s v c 0x12 → cf c.words 1 0 32 ≠ 0 → ∃ t, exec (.yieldCmd v) s = .next t ∧
      Books bookReg (setVein u v { vein u v with wait := some (.yield (cf c.words 1 0 32)) }) t)

/-- A STREAM_ARM that passes its checks, for a stream that does not read Deep Slate or has a usable port, writes the
descriptor words into the stream's registers, sets its tenant, LASTSTAT OK and state RUNNING, begins its first
sequence at position 0, completes, and changes no other stream and no register but the stream's own and the books of
commands. (R147, R148, R152, R214) -/
def Obligations.StreamArmStartsStream : Prop :=
  ∀ (s : State) (v : Fin 16) (c : Cmd), Head s v c 0x08 → armCheck s v c.words = none →
    let i := cf c.words 0 10 6
    let d := armDesc c.words
    (d.isDeep = true → deepPorts s d ≠ []) →
    ∃ t, exec (.streamArm v) s = .next t ∧ Retired s t v c ∧
      sState t i = Ss.running ∧ sTenant t i = vTenant s v ∧ fld t (Reg.stmDescW7 i) Fl.stmDescW7_LASTSTAT = St.ok ∧
      fld t (Reg.stmDescW7 i) Fl.stmDescW7_PENDING = 0 ∧
      fld t (Reg.stmDescW0 i) Fl.stmDescW0_XBASE = d.xbase ∧
      fld t (Reg.stmDescW0 i) Fl.stmDescW0_XSTRATUM = d.xstratum ∧
      (∀ w, 1 ≤ w → w ≤ 6 → rd t (Reg.stmDescW0 i + 8 * w) = BitVec.ofNat 64 (wordAt c.words (1 + w))) ∧
      (strm t i).seqs = [⟨0, d.total, d.xbase⟩] ∧ (strm t i).asked = 0 ∧ (strm t i).taken = 0 ∧
      (∀ j, j ≠ i → strm t j = strm s j) ∧
      (∀ a, bookReg a = false → ¬ descReg i a → rd t a = rd s a) ∧
      (∀ x, ringByte s x = false → micaByte t x = micaByte s x)

/-- A STREAM_REARM or WLOAD of an ENDED stream (its turn unit is empty, as a sequence ends only so) starts its next
sequence where the last one ended, at the new XBASE; of a RUNNING stream without a held re-arm it holds the new
XBASE and shows PENDING; while a re-arm is held the command stays at the head and waits. A WLOAD stamps the stream
with its parameter group and generation. No other stream changes. It rests on readings of the model's own, log entry
104. (R151, R212, R214) -/
def Obligations.RearmAndWloadStartOrHold : Prop :=
  ∀ (s : State) (v : Fin 16) (c : Cmd),
    let i := cf c.words 0 10 6
    let x := strm s i
    let d := desc s i
    let xb := cf c.words 1 0 48
    let g := cf c.words 2 16 12
    let gen := cf c.words 2 0 16
    let st := wloadStale (pgtRaw s g) (cf c.words 0 16 1) gen (vStep s v)
    let starts (t : State) : Prop := sState t i = Ss.running ∧
      curSeq (strm t i) = some ⟨seqEndPos x, d.total, xb⟩ ∧ fld t (Reg.stmDescW0 i) Fl.stmDescW0_XBASE = xb
    let holds (t : State) : Prop := sState t i = Ss.running ∧ (strm t i).rearm = some (xb) ∧
      (strm t i).seqs = x.seqs ∧ fld t (Reg.stmDescW7 i) Fl.stmDescW7_PENDING = 1
    let others (t : State) : Prop := Retired s t v c ∧ fld t (Reg.stmDescW7 i) Fl.stmDescW7_LASTSTAT = St.ok ∧
      ∀ j, j ≠ i → strm t j = strm s j
    (Head s v c 0x09 → rearmCheck s v i xb = none →
      (sState s i = Ss.ended → x.turn = [] → ∃ t, exec (.streamRearm v) s = .next t ∧ starts t ∧ others t) ∧
      (sState s i = Ss.running → x.rearm = none → ∃ t, exec (.streamRearm v) s = .next t ∧ holds t ∧ others t) ∧
      (sState s i = Ss.running → x.rearm ≠ none → ∃ t, exec (.streamRearm v) s = .next t ∧ Books bookReg s t ∧
        (vein t v).waitOn = 5 ∧ (vein t v).held = (vein s v).held)) ∧
    (Head s v c 0x03 → rearmCheck s v i xb = none → usesBad s v [(i, 1)] = none → pgtBad s g = none →
      (sState s i = Ss.ended → x.turn = [] → ∃ t, exec (.wload v) s = .next t ∧ starts t ∧ others t ∧
        (strm t i).stamp = some (g, gen, st)) ∧
      (sState s i = Ss.running → x.rearm = none → ∃ t, exec (.wload v) s = .next t ∧ holds t ∧ others t ∧
        (strm t i).nextStamp = some (g, gen, st)) ∧
      (sState s i = Ss.running → x.rearm ≠ none → ∃ t, exec (.wload v) s = .next t ∧ Books bookReg s t ∧
        (vein t v).waitOn = 5 ∧ (vein t v).held = (vein s v).held))

/-- A WLOAD that is accepted (its stream, where ENDED, has an empty turn unit, as a sequence ends only so) records
its generation: a forward gather that is not stale, or is stale and accepted by the entry, writes generation and
step into the entry; a stale one that the entry does not accept marks the entry void for the step, shows the replay
in PX_NUM_GENLAST and PX_NUM_GENSTAT, and leaves a WGEN_STALE that waits for the vein's next MARK LAYER or STEP; an
accepted stale gather is counted. A backward gather that is not stale writes nothing. (R212, R351, R352, R353) -/
def Obligations.WloadRecordsGeneration : Prop :=
  ∀ (s : State) (v : Fin 16) (c : Cmd),
    let i := cf c.words 0 10 6
    let g := cf c.words 2 16 12
    let gen := cf c.words 2 0 16
    let dir := cf c.words 0 16 1
    let e := pgtRaw s g
    let stale := wloadStale e dir gen (vStep s v)
    Head s v c 0x03 → rearmCheck s v i (cf c.words 1 0 48) = none → usesBad s v [(i, 1)] = none → pgtBad s g = none →
    rearmBusy s i = false →
    (sState s i = Ss.ended → (strm s i).turn = []) → (∀ k < 32, ringByte s (pgtAddr s g + k) = false) →
    ∃ t, exec (.wload v) s = .next t ∧
      (stale = false → dir = 0 → pgtRaw t g = pgtForward e gen (vStep s v)) ∧
      (stale = false → dir = 1 → pgtRaw t g = e) ∧
      (stale = true → pgtAccept e = true →
        fld t Reg.numGenStat Fl.numGenStat_ACCEPTED =
          (fld s Reg.numGenStat Fl.numGenStat_ACCEPTED + 1) % 2 ^ Fl.numGenStat_ACCEPTED.width ∧
        (dir = 0 → pgtRaw t g = pgtForward e gen (vStep s v)) ∧
        (dir = 1 → pgtStaleacc (pgtRaw t g) = true ∧ pgtGenbwd (pgtRaw t g) = gen ∧
          pgtMarkstep (pgtRaw t g) = vStep s v)) ∧
      (stale = true → pgtAccept e = false → pgtVoid (pgtRaw t g) = true ∧ pgtMarkstep (pgtRaw t g) = vStep s v ∧
        (vein t v).stale = true ∧ fld t Reg.numGenLast Fl.numGenLast_PGROUP = g ∧
        fld t Reg.numGenLast Fl.numGenLast_GENNEW = gen ∧ fld t Reg.numGenLast Fl.numGenLast_GENREC = pgtGen e ∧
        flag t Reg.numGenStat Fl.numGenStat_REPLAY = true)

/-- A SEM_POST whose vein has work in flight, or bytes not yet visible at their destination, stays at the head and
changes nothing. Once they are, a post to a semaphore of this block in the tenant's range that nobody waits for adds
its amount, saturating at 65,535, retires, and changes no other register but the books of commands (no injector
armed). It rests on readings of the model's own, log entry 111. (R160, R164, R215) -/
def Obligations.SemPostAddsToSemaphore : Prop :=
  ∀ (s : State) (v : Fin 16) (c : Cmd), Head s v c 0x0C →
    let k := cf c.words 0 10 8
    let n := semValue s k + cf c.words 1 16 16
    (cb c.words 0 18 = false → inSemRange s (vTenant s v) k = true) →
    (earlierDone s v = false ∨ bytesVisible s v = false → exec (.semPost v) s = .next s) ∧
    (earlierDone s v = true → bytesVisible s v = true → (cb c.words 0 18 = false ∨ cf c.words 1 0 10 = stratum s) →
      injOff s → inSemRange s (vTenant s v) k = true → semWaiters s k = [] → n ≤ 65535 →
      ∃ t, exec (.semPost v) s = .next t ∧ semValue t k = n ∧ Retired s t v c ∧
        (∀ a, bookReg a = false → a ≠ Reg.semVal k → rd t a = rd s a)) ∧
    (earlierDone s v = true → bytesVisible s v = true → (cb c.words 0 18 = false ∨ cf c.words 1 0 10 = stratum s) →
      injOff s → inSemRange s (vTenant s v) k = true → semWaiters s k = [] → 65535 < n →
      ∃ t, exec (.semPost v) s = .next t ∧ semValue t k = 65535 ∧ Retired s t v c ∧
        fld t Reg.semOvf Fl.semOvf_COUNT = (fld s Reg.semOvf Fl.semOvf_COUNT + 1) % 2 ^ Fl.semOvf_COUNT.width) ∧
    (earlierDone s v = true → bytesVisible s v = true → cb c.words 0 18 = true → cf c.words 1 0 10 ≠ stratum s →
      nextLink s (cf c.words 1 0 10) 1 none = .fail → (vein s v).jobs = [] → (vein s v).fenced = false →
      (vein s v).suspended = false →
      ∃ t, exec (.semPost v) s = .next t ∧ vState t v = Vs.halted ∧
        fld t (Reg.vnStat v) Fl.vnStat_HALTSTAT = St.routeNone)

/-- A TILE or SPTILE that passes its checks waits at the head while no array of its set is in service, or while
another command holds one that it may not follow; is refused with CLAIM_SHORT when the arrays in service are too few
for its shape; and otherwise is in flight, holds its arrays and wakes each of them (an idle one ramps up, the switch
of an opened one closes or waits while another closes), with no register changed but the books of commands and no
byte of Mica beyond the error ring. A filler command that holds arrays of the set of a command that is no filler is
preempted: a tile command is to give them up as its tiles end, an ELEMWISE or GRAD_EMIT between two ranges or
records gives them up at once. A frozen parameter group skips the command: it is counted and the command completes.
It rests on readings of the model's own, log entries 36, 107. (R106, R107, R200, R202, R203, R208, R210, R211, R225,
R350, R418) -/
def Obligations.TileClaimsArrays : Prop :=
  ∀ (s : State) (v : Fin 16) (pick : Fin 4) (c : Cmd) (i : Instr) (op : Nat),
    (i = .tile v pick ∧ op = 0x01 ∨ i = .sptile v pick ∧ op = 0x02) → Head s v c op → tileCheck s v c.words = none →
    let f := tileOf c.words
    let as := claimSet s f.share pick
    let frozen := f.wgrad && pgtFrozen (pgtRaw s f.pgroup)
    let filler (p : Nat × Job) : Prop := isFiller s p.2.tenant = true ∧ p.2.done = false ∧ ∃ a ∈ as, a ∈ p.2.arrays
    let closing (x : State) (a : Nat) : Prop := a < 4 ∧ (arr x a).pow = .closing
    let woken (t : State) (a : Nat) : Prop := match (arr s a).pow with
      | .idle => (arr t a).pow = .rampUp
      | .opened => (arr t a).pow = .waiting ∨ ((arr t a).pow = .closing ∧ ∀ b, b ≠ a → ¬ closing t b)
      | .rampDown => (arr t a).pow = .full
      | q => (arr t a).pow = q
    (as = [] → ∃ t, exec i s = .next t ∧ Books bookReg s t ∧ (vein t v).waitOn = 4) ∧
    (as ≠ [] → f.fits as.length = true → claimFree s as c.words = false →
      (isFiller s (vTenant s v) = true ∨ ∀ p ∈ allJobs s, ¬ filler p) →
      ∃ t, exec i s = .next t ∧ Books bookReg s t ∧ (vein t v).waitOn = 4) ∧
    (as ≠ [] → f.fits as.length = true → claimFree s as c.words = false → isFiller s (vTenant s v) = false →
      ∀ p ∈ allJobs s, filler p → p.1 ≠ v.val → (∀ q ∈ (vein s p.1).jobs, q.seq = p.2.seq → q = p.2) →
      ∃ t, exec i s = .next t ∧ ∃ k ∈ (vein t p.1).jobs, k.seq = p.2.seq ∧
        (if (p.2.op = 4 ∨ p.2.op = 0x15) ∧ p.2.beat = 0 then k.arrays = [] ∧ k.spilled = true
         else k.arrays = p.2.arrays ∧ k.preempt = true)) ∧
    (as ≠ [] → f.fits as.length = false → (vein s v).jobs = [] → (vein s v).fenced = false →
      (vein s v).suspended = false → ∃ t, exec i s = .next t ∧ Books bookReg { leftPrefetch s v with trm := s.trm } t ∧
        vState t v = Vs.halted ∧ fld t (Reg.vnStat v) Fl.vnStat_HALTSTAT = St.claimShort) ∧
    (as ≠ [] → f.fits as.length = true → claimFree s as c.words = true → frozen = false →
      ∃ t, exec i s = .next t ∧
        (∃ j ∈ (vein t v).jobs, j.op = op ∧ j.seq = cmdSeq c.words ∧ j.arrays = as ∧ j.done = false) ∧
        (∀ a ∈ as, woken t a ∧ (arr t a).gap = (arr s a).gap ∧ (arr t a).preramp = (arr s a).preramp ∧
          (arr t a).resident = (arr s a).resident) ∧
        ((∃ a ∈ as, (arr s a).pow = .opened) → ∃ b, closing t b) ∧
        (∀ a, a ∉ as → arrPlain (arr t a) = arrPlain (arr s a)) ∧
        (∀ a, bookReg a = false → rd t a = rd s a) ∧ (∀ x, ringByte s x = false → micaByte t x = micaByte s x)) ∧
    (as ≠ [] → f.fits as.length = true → claimFree s as c.words = true → frozen = true →
      ∃ t, exec i s = .next t ∧ Retired s t v c ∧
        fld t (Reg.numFrozen (vTenant s v)) Fl.numFrozen_COUNT =
          (fld s (Reg.numFrozen (vTenant s v)) Fl.numFrozen_COUNT + 1) % 2 ^ Fl.numFrozen_COUNT.width ∧
        ∀ a, bookReg a = false → a ≠ Reg.numFrozen (vTenant s v) → rd t a = rd s a)

/-- An ELEMWISE that passes its checks, and whose free arrays must still wake or none of whose ranges has its
operands there, is in flight and holds its arrays; no register changes but the books of commands and the STARVED
marks of streams, and no byte of Mica beyond the error ring. One whose arrays stand at full admission, whose
operands are there and whose output has room is over at once, up to 256 elements, and its output holds the results
of R189 in order, each rounded once into the output format (no block scales on the output, distinct streams, no
tracking; no injector armed, no poisoned word, nothing in a turn unit). A GRAD_EMIT whose arrays are free is in
flight with the entry it found, what it will send (its payload, or one marker record of a frozen or void group) and
its schedule value, that of the schedule at the vein's step where SCHEDSRC asks for it; one of a frozen group
without zero markers is skipped, counted and complete. It rests on readings of the model's own, log entries 37, 107.
(R82, R153, R189, R202, R213, R220, R345, R350, R352, R357) -/
def Obligations.ElemwiseAndGradEmitStart : Prop :=
  ∀ (s : State) (v : Fin 16) (pick : Fin 4) (c : Cmd),
    (let e := ewOf c.words
     let as := claimSet s e.share pick
     let o := outFmtOf e.ow
     let h := histGet s e.tensor
     let from_ (i : Nat) : Nat := max (strm s i).taken (match (strm s i).seqs.head? with | some r => r.start | none => 0)
     -- the command as it begins: where its bytes lie in its streams
     let j : Job := { mkJob s v c false with
       arrays := as, hValid := e.scsrc && h.valid && decide (h.count ≥ 1), hMax := if e.scsrc then h.hmax else 0,
       aPos := from_ e.src1, aScl := from_ e.s1scl, bPos := from_ e.src2, bScl := from_ e.s2scl, oPos := from_ e.dst }
     let there (p n : Nat) : Bool := (ewNeeds j e p n).all (needMet s)
     let inFlight (t : State) : Prop := ∃ k ∈ (vein t v).jobs, k.op = 0x04 ∧ k.seq = cmdSeq c.words ∧ k.arrays = as ∧
       k.done = false
     Head s v c 0x04 → ewCheck s v c.words = none → as ≠ [] → claimFree s as c.words = true →
      (∀ q ∈ (vein s v).jobs, q.seq ≠ cmdSeq c.words) →
      (allFull (wakeAll s as) as = false ∨ (0 < e.count ∧ (vein s v).retryAt = [] ∧
          ((ewUses e).map (·.1)).Nodup ∧ ∀ n ∈ ewSizes j e, there (ewSpan j e 0 n).1 (ewSpan j e 0 n).2 = false) →
        ∃ t, exec (.elemwise v pick) s = .next t ∧ inFlight t ∧
          (∀ a, bookReg a = false → (∀ i < 64, a ≠ Reg.stmDescW7 i) → rd t a = rd s a) ∧
          (∀ i < 64, ∀ b, b ≠ Fl.stmDescW7_STARVED.lo →
            (rd t (Reg.stmDescW7 i)).toNat.testBit b = (rd s (Reg.stmDescW7 i)).toNat.testBit b) ∧
          (∀ x, ringByte s x = false → micaByte t x = micaByte s x)) ∧
      (allFull (wakeAll s as) as = true → injOff s → s.poison = [] → (∀ i, (strm s i).turn = []) →
        (vein s v).retryAt = [] → ((ewUses e).map (·.1)).Nodup → e.ewop ≠ 5 → o.scale = 0 →
        e.scsrc = false → e.track = false → e.count ≤ 256 → there 0 e.count = true →
        let xs := (ewOperand s e.w1 e.src1 e.s1scl j.aPos j.aScl 0 e.count).1
        let ys := if e.two then (ewOperand s e.w2 e.src2 e.s2scl j.bPos j.bScl 0 e.count).1
          else List.replicate e.count (.fin false 0 0, 0)
        let rnd (k : Nat) : Nat := if outRm o == .sr then srOf s j.step e.tensor (k >>> 32) (k % 2 ^ 32) else 0
        let codes := (xs.zip ys).zipIdx.map (fun x =>
          (convertEl o none (rnd x.2) (ewResult e.ewop (outRm o) x.1.1 x.1.2).1).code)
        let bs := packRow o.fmt codes
        let place (k : Nat) : Option Nat := posAddr (extend s e.dst) e.dst (j.oPos + k)
        writable (extend s e.dst) e.dst j.oPos (ewBytes e.ow 0 e.count).2 = true →
        (∀ k k', k < bs.length → k' < bs.length → place k = place k' → k = k') →
        ∃ t, exec (.elemwise v pick) s = .next t ∧
          (∃ k ∈ (vein t v).jobs, k.seq = cmdSeq c.words ∧ k.fin = true ∧ k.done = false) ∧
          ∀ k < bs.length, ∀ a, place k = some a → ringByte s a = false → micaByte t a = bs.getD k 0)) ∧
    (let g := gradOf c.words
     let as := claimSet s g.share pick
     let e := pgtRaw s g.pgroup
     let kind := emitKind e (vStep s v)
     let fr := Reg.numFrozen (vTenant s v)
     let x := if g.schedsrc then schedAt s (pgtSchedid e) (vStep s v) else g.sched
     Head s v c 0x15 → gradCheck s v c.words = none → as ≠ [] → claimFree s as c.words = true →
      (¬(kind = 1 ∧ pgtZmark e = false) → ∃ t, exec (.gradEmit v pick) s = .next t ∧
        (∃ j ∈ (vein t v).jobs, j.op = 0x15 ∧ j.seq = cmdSeq c.words ∧ j.arrays = as ∧ j.dscW = [e, kind, x] ∧
          j.done = false) ∧
        (∀ a, bookReg a = false → ¬(kind = 1 ∧ a = fr) → rd t a = rd s a)) ∧
      (kind = 1 → pgtZmark e = false → ∃ t, exec (.gradEmit v pick) s = .next t ∧ Retired s t v c ∧
        fld t fr Fl.numFrozen_COUNT = (fld s fr Fl.numFrozen_COUNT + 1) % 2 ^ Fl.numFrozen_COUNT.width ∧
        ∀ a, bookReg a = false → a ≠ fr → rd t a = rd s a))

/-- A SAVE_STATE whose vein has nothing in flight and whose parts meet no poison puts the image of the requested
parts into its stream's buffer and completes. A RESTORE_STATE whose image has arrived without poison completes;
PX_NUM_RSTSTAT shows STATE_CRC for an image that is not whole, and otherwise the image's stratum and epoch, with
STATE_STEP when its step is another or a requested part is missing and OK when not. Every requested part that the
image has is restored: a table takes as much of it as both have and the rest is cleared, counters, seed and stratum,
and schedules take its values; HIST is cleared, with COLD set, where the image is not whole, is of another step, or
lacks it (the requested tables lie apart). It rests on readings of the model's own, log entry 38. (R53, R358, R359,
R360, R361) -/
def Obligations.SaveAndRestoreState : Prop :=
  ∀ (s : State) (v : Fin 16) (c : Cmd),
    let st := cf c.words 0 10 6
    let parts := cf c.words 1 0 16
    let img := stateImage s v parts
    (Head s v c 0x18 → imageCheck true s v c.words = none → earlierDone s v = true →
      (setBitsOf parts 7).any (partPoison s) = false →
      (∀ j k, j < img.length → k < img.length → imageAddr s st j = imageAddr s st k → j = k) →
      ∃ t, exec (.saveState v) s = .next t ∧ Retired s t v c ∧
        ∀ k < img.length, ringByte s (imageAddr s st k) = false → micaByte t (imageAddr s st k) = img.getD k 0) ∧
    (let d := desc s st
     let n := imageRoom s st
     let bs := (List.range n).map (fun q => micaByte s (imageAddr s st q))
     let g (o n : Nat) : Nat := leNat ((bs.drop o).take n)
     let missing := (setBitsOf parts 7).any (fun p =>
       !(imageParts 8 ((bs.take (g 28 4)).drop 64)).any (fun h => h.1 == p))
     let parts_ := imageParts 8 ((bs.take (g 28 4)).drop 64)
     let area (p : Nat) : Nat × Nat := match p with
       | 0 => (histAddr s 0, 128 * histCount s) | 1 => (regionBase s 3, 131072)
       | 3 => (maskAddr s 0, 512 * maskSlots s) | 6 => (costAddr s 0, 50176) | _ => (0, 0)
     let apart : Prop := ∀ p q, p < q → q < 7 → bit parts p = true → bit parts q = true →
       (area p).1 + (area p).2 ≤ (area q).1 ∨ (area q).1 + (area q).2 ≤ (area p).1
     let takes (t : State) (p : Nat) (b : List Byte) : Prop := match p with
       | 2 => ∀ i < 16, 8 * i + 8 ≤ b.length →
         (rd t (cntRegs.getD i 0)).toNat = leNat ((b.drop (8 * i)).take 8) % 2 ^ 48
       | 4 => (rd t Reg.numSrSeed).toNat = leNat (b.take 8) ∧
         fld t Reg.numSrStratum Fl.numSrStratum_SSTRATUM = leNat ((b.drop 8).take 2) % 2 ^ 10
       | 5 => t.sched = (if leNat (b.take 1) = 0 then [] else b) ∧
         fld t Reg.vnSchedVal Fl.vnSchedVal_NSCHED = leNat (b.take 1) % 2 ^ 4
       | q => ∀ k < (area q).2, ringByte s ((area q).1 + k) = false → micaByte t ((area q).1 + k) = b.getD k 0
     let clears (t : State) : Prop := flag t Reg.numRstStat Fl.numRstStat_COLD = true ∧
       ∀ k < (area 0).2, ringByte s ((area 0).1 + k) = false → micaByte t ((area 0).1 + k) = 0
     Head s v c 0x19 → imageCheck false s v c.words = none →
      (d.isResident = true ∨ d.isInbound = false ∨ seqEndPos (strm s st) ≤ arrived s st) →
      (∀ q < n, imageAddr s st q / 16 ∉ s.poison) →
      ∃ t, exec (.restoreState v) s = .next t ∧ Retired s t v c ∧
        (imageBad bs = true → fld t Reg.numRstStat Fl.numRstStat_LASTSTAT = St.stateCrc ∧
          (bit parts 0 = true → clears t)) ∧
        (imageBad bs = false → fld t Reg.numRstStat Fl.numRstStat_STRATUM = g 24 2 % 2 ^ Fl.numRstStat_STRATUM.width ∧
          fld t Reg.numRstStat Fl.numRstStat_EPOCH = g 22 2 % 2 ^ Fl.numRstStat_EPOCH.width ∧
          fld t Reg.numRstStat Fl.numRstStat_LASTSTAT =
            (if g 8 5 ≠ vStep s v ∨ missing = true then St.stateStep else St.ok) ∧
          (apart → ∀ p < 7, bit parts p = true → match parts_.find? (fun h => h.1 == p) with
            | none => p = 0 → clears t
            | some h => if p = 0 ∧ g 8 5 ≠ vStep s v then clears t else takes t p h.2)))

/-- A CALIBRATE that passes its checks claims every array in service, wakes them and is in flight with the
temperature band of its issue; scope 2 is to go through every operating point that may be used, and only it touches
PX_TRM_OPPSEL, whose BUSY shows the move to the lowest of them (where no other move is under way); with no array in
service it completes with CAL_ABORTED. A CLEAVE of an array in service that no calibration holds takes it out of
PX_TCH_ARRAYS.INSERVICE and leaves its fence to be completed; one of an array that is out of service, or the return
of one in service, completes at once. A CLEAVE of a set of veins fences each of them that is not OFF. It rests on
readings of the model's own, log entries 89, 90. (R202, R221, R265, R273, R380) -/
def Obligations.CalibrateAndCleaveBegin : Prop :=
  ∀ (s : State) (v : Fin 16) (c : Cmd),
    let a := cf c.words 1 0 16
    (Head s v c 0x1C → calCheck s v c.words = none → arraysIn s ≠ [] → claimFree s (arraysIn s) c.words = true →
      ∃ t, exec (.calibrate v) s = .next t ∧ (∃ j ∈ (vein t v).jobs, j.op = 0x1C ∧ j.seq = cmdSeq c.words ∧
        j.arrays = arraysIn s ∧ j.prog = bandNow s ∧ j.done = false) ∧
        allFull t (arraysIn s) = allFull (wakeAll s (arraysIn s)) (arraysIn s) ∧
        (cf c.words 0 10 4 = 2 → t.trm.cal = (List.range 16).filter (oppGood s)) ∧
        (cf c.words 0 10 4 = 2 → s.trm.trans = none → ∀ p ps, (List.range 16).filter (oppGood s) = p :: ps →
          (p ≠ oppActive s → flag t Reg.trmOppsel Fl.trmOppsel_BUSY = true ∧
            t.trm.trans = some ⟨oppActive s, p, if oppActive s < p then 0 else 2⟩) ∧
          (p = oppActive s → rd t Reg.trmOppsel = rd s Reg.trmOppsel ∧ t.trm.trans = none)) ∧
        ∀ b, bookReg b = false → (cf c.words 0 10 4 = 2 → b ≠ Reg.trmOppsel) → rd t b = rd s b) ∧
    (Head s v c 0x1C → calCheck s v c.words = none → arraysIn s = [] →
      ∃ t, exec (.calibrate v) s = .next t ∧ Books bookReg (leftPrefetch s v) t ∧ Retired s t v c ∧
        ((vein s v).jobs = [] →
          fld t (Reg.vnStat v) Fl.vnStat_LASTSTAT = St.calAborted)) ∧
    (Head s v c 0x1D → cleaveCheck s v c.words = none → cf c.words 0 10 4 = 0 → cb c.words 0 14 = false →
      inService s a = true → calJob s = none →
      ∃ t, exec (.cleave v) s = .next t ∧ (arr t a).fencing = some (some (v.val, cmdSeq c.words)) ∧
        inService t a = false ∧ (∀ b, b ≠ a → inService t b = inService s b) ∧
        (∃ j ∈ (vein t v).jobs, j.op = 0x1D ∧ j.seq = cmdSeq c.words ∧ j.done = false) ∧
        ∀ b, bookReg b = false → b ≠ Reg.tchArrays → rd t b = rd s b) ∧
    (Head s v c 0x1D → cleaveCheck s v c.words = none → cf c.words 0 10 4 = 0 → cb c.words 0 14 = inService s a →
      ∃ t, exec (.cleave v) s = .next t ∧ Books bookReg (leftPrefetch s v) t ∧ Retired s t v c) ∧
    (Head s v c 0x1D → cleaveCheck s v c.words = none → cf c.words 0 10 4 = 2 → cb c.words 0 14 = false →
      ∃ t, exec (.cleave v) s = .next t ∧
        ∀ w < 16, bit a w = true → vBase s w ≠ Vs.off → (vein s w).fenced = false → (vein t w).fenced = true ∧ vState t w = Vs.fenced)

/-- While another vein has a ready command that comes before its own by the keys of R269 (a vein that stepped back
by YIELD 0 last, then higher priority, earlier deadline, an estimate not above Q, under LOWPREF lower estimated
power, least recent issue), the issue of a ready command of any opcode changes nothing. Otherwise it is not held
back; and if any vein's command is ready, some ready command is not held back. It rests on readings of the model's
own, log entry 122. (R200, R218, R269) -/
def Obligations.ReadyCommandsIssueInOrder : Prop :=
  ∀ (s : State),
    let step (a : Nat) : Bool := (vein s a).stepBack
    let above (a : Nat) : Prop := liveQ s < ((headEst s a).1 : Int)
    let clocks (a : Nat) : Nat := max 1 (headEst s a).2
    let power (a b : Nat) : Prop := lowPref s = true ∧ (headEst s a).1 * clocks b < (headEst s b).1 * clocks a
    let before (a b : Nat) : Prop :=
      (step a = false ∧ step b = true) ∨ (step a = step b ∧ (prio s b < prio s a ∨ (prio s a = prio s b ∧
        (deadlineKey s a < deadlineKey s b ∨ (deadlineKey s a = deadlineKey s b ∧
          ((¬ above a ∧ above b) ∨ ((above a ↔ above b) ∧
            (power a b ∨ (¬ power b a ∧ (vein s a).stamp < (vein s b).stamp)))))))))
    (∀ (v : Fin 16) (p : Fin 4), readyHead s v = true →
      ((∃ w < 16, w ≠ v.val ∧ readyHead s w = true ∧ before w v) →
        ∀ i ∈ [Instr.nop v, .tile v p, .sptile v p, .wload v, .elemwise v p, .streamArm v, .streamRearm v, .semPost v,
          .semWait v, .mark v, .barrier v, .yieldCmd v, .scaleCommit v, .gradEmit v p, .saveState v, .restoreState v,
          .calibrate v, .cleave v], exec i s = .next s) ∧
      ((∀ w < 16, w ≠ v.val → readyHead s w = true → ¬ before w v) → outranked s v = false)) ∧
    ((∃ v < 16, readyHead s v = true) → ∃ v < 16, readyHead s v = true ∧ outranked s v = false)

/-- A vein that may fetch takes the command at its head slot when its SEQ is the one expected: the command joins the
commands held, HEAD moves by its slots and NEXT by one, and no register changes but these and the books of commands.
A command with another SEQ ends fetching with SEQ_MISMATCH (SEQ mode waits on an older one). A command that the scan
of its group read beyond the prefetch is read again, and what is then read stands in its place. A doorbell write
sets TAIL in REG mode; a poll in MEM mode reads the tail word; a tail beyond the ring ends fetching with
QUEUE_OVERRUN at once (no injector armed; the memory read is Mica, or a usable Deep port has a free tag). While
every tag of the usable ports is out, a fetch from Deep Slate waits. It rests on readings of the model's own, log
entries 31 and 129. (R191, R192, R193, R194, R195, R196, R197) -/
def Obligations.FetchAndDoorbells : Prop :=
  ∀ (s : State) (v : Fin 16) (deep : DeepSlot) (drawn : Nat) (ws : List W64), injOff s →
    let port : Prop := ∃ p < 4, portUsable s p = true ∧ freeTag s p ≠ none
    let there : Prop := fld s (Reg.vnQbase v) Fl.vnQbase_SPACE = 1 ∨ port
    (mayFetch s v = true → there → readSlot s v (qHead s v) deep = .words ws →
      (dbMode s v = 2 ∨ (qFill s v ≠ 0 ∧ qFill s v ≤ qslots s v)) → 4 ≤ ws.length →
      (cmdOp ws = 8 → 8 ≤ ws.length ∧ (dbMode s v = 2 ∨ 2 ≤ qFill s v)) →
      (cmdSeq ws = qNext s v → ∃ t, exec (.veinFetch v deep drawn) s = .next t ∧
        (vein t v).held = (vein s v).held ++ [⟨qHead s v, ws⟩] ∧
        qHead t v = (qHead s v + (if cmdOp ws = 8 then 2 else 1)) % 2 ^ 32 ∧ qNext t v = (qNext s v + 1) % 2 ^ 32 ∧
        t.trm.drawn = drawn ∧ ∀ a, bookReg a = false → a ≠ Reg.vnTail v → rd t a = rd s a) ∧
      (cmdSeq ws ≠ qNext s v → ¬(dbMode s v = 2 ∧ seqBefore (cmdSeq ws) (qNext s v) = true) →
        ∃ t, exec (.veinFetch v deep drawn) s = .next t ∧ (vein t v).fetchBad = some (St.seqMismatch, qNext s v) ∧
        (vein t v).held = (vein s v).held)) ∧
    (fld s (Reg.vnQbase v) Fl.vnQbase_SPACE ≠ 1 → tagsOut s = true → fetchLive s v = true →
      (dbMode s v = 2 ∨ qFill s v ≤ qslots s v) →
      exec (.veinFetch v deep drawn) s = .next (showQ { s with trm := { s.trm with drawn := drawn } })) ∧
    (∀ c, fetchLive s v = true → rereads (vein s v) = true → (vein s v).held[(vein s v).fresh]? = some c → there →
      readSlot s v c.slot deep = .words ws → 4 ≤ ws.length → (cmdOp ws = 8 → 8 ≤ ws.length) →
      ∃ t, exec (.veinFetch v deep drawn) s = .next t ∧
        (vein t v).held = (vein s v).held.set (vein s v).fresh ⟨c.slot, ws⟩ ∧
        (vein t v).fresh = (vein s v).fresh + 1 ∧ ∀ a, bookReg a = false → rd t a = rd s a) ∧
    (∀ value : W64, PortOpen s (Reg.vnTail v) → dbMode s v = 0 →
      let u := setFld s (Reg.vnTail v) Fl.vnTail_TAIL (value.toNat % 2 ^ 32)
      let over_ : Prop := vBase s v ≠ Vs.off ∧ (vein s v).fetchBad = none ∧ qslots s v < qFill u v
      (¬over_ → exec (.doorbell v value) s = .next u) ∧
      (over_ → ∃ t, exec (.doorbell v value) s = .next t ∧
        (vein t v).fetchBad = some (St.queueOverrun, qNext s v))) ∧
    (dbMode s v = 1 → isRun s = true → vBase s v ≠ Vs.off → vBase s v ≠ Vs.halted → (vein s v).fetchBad = none →
      fld s Reg.errEvstat Fl.errEvstat_STATE < 2 → qFill s v = 0 →
      (fld s (Reg.vnTailaddr v) Fl.vnTailaddr_SPACE = 1 ∨ port) → ∀ w : W64, readTail s v deep = .words [w] →
      let u := setVein (setFld s (Reg.vnTail v) Fl.vnTail_TAIL (w.toNat % 2 ^ 32)) v { vein s v with emptied := false }
      ∃ t, exec (.doorbellPoll v deep) s = .next t ∧
        (qFill u v ≤ qslots s v → { t with out := [] } = { u with out := [] }) ∧
        (qslots s v < qFill u v → (vein t v).fetchBad = some (St.queueOverrun, qNext s v)))

/-- Each command of PX_VN_CTRL is ignored unless its vein is HALTED. RESUME_NEXT retires every unretired command,
forgets a failed fetch and leaves HALTED. RESUME_RETRY puts the halting command, read again from its slot, back at
the head and takes it from the commands in flight. RESET retires every command, empties the prefetch, sets HEAD to
TAIL (outside SEQ mode) and NEXT to the SEQ after the last command issued. It rests on readings of the model's own,
log entry 32 (the read again: no injector armed, and the queue lies in Mica or a usable Deep port has a free tag).
(R204, R206, R400) -/
def Obligations.HaltedVeinRestarts : Prop :=
  ∀ (s : State) (v : Fin 16) (deep : DeepSlot), PortOpen s (Reg.vnCtrl v) →
    (vState s v ≠ Vs.halted → exec (.resumeNext v) s = .next s ∧ exec (.resumeRetry v deep) s = .next s ∧
      exec (.reset v) s = .next s) ∧
    (vState s v = Vs.halted →
      (∃ t, exec (.resumeNext v) s = .next t ∧ (vein t v).jobs = [] ∧ (vein t v).fetchBad = none ∧
        vState t v ≠ Vs.halted ∧ (vein t v).held = (vein s v).held ∧
        (∀ j, (vein s v).jobs.getLast? = some j → fld t (Reg.vnSeq v) Fl.vnSeq_DONE = j.seq % 2 ^ 32) ∧
        ∀ a, bookReg a = false → rd t a = rd s a) ∧
      (∀ j ws, (vein s v).jobs.find? jobHalts = some j → readSlot s v j.slot deep = .words ws → injOff s →
        (fld s (Reg.vnQbase v) Fl.vnQbase_SPACE = 1 ∨ ∃ p < 4, portUsable s p = true ∧ freeTag s p ≠ none) →
        ∃ t, exec (.resumeRetry v deep) s = .next t ∧ (vein t v).held = ⟨j.slot, ws⟩ :: (vein s v).held ∧
        (vein t v).jobs = (vein s v).jobs.filter (fun k => k.seq != j.seq) ∧ (vein t v).retry = true ∧
        vState t v ≠ Vs.halted ∧ ∀ a, bookReg a = false → rd t a = rd s a) ∧
      (∃ t, exec (.reset v) s = .next t ∧ (vein t v).jobs = [] ∧ (vein t v).held = [] ∧ (vein t v).groups = [] ∧
        vState t v ≠ Vs.halted ∧ (dbMode s v ≠ 2 → qHead t v = qTail s v) ∧
        (∀ j, (vein s v).jobs.getLast? = some j → qNext t v = (j.seq + 1) % 2 ^ 32) ∧
        ∀ a, bookReg a = false → a ≠ Reg.vnTail v → rd t a = rd s a))

/-- A yield that ends lets its vein go on, and nothing changes but the books. A SEM_WAIT that has counted its last
tick ends with SEM_TIMEOUT and halts its vein. When every eligible non-filler vein is other than READY,
FILLER_UNBLOCK opens the way for the filler, whose veins wait no longer for it where their head command may issue
now; otherwise it changes nothing. BUBBLE_END closes the bubble window that ends first, by the serial order of end
timestamps that lie ahead, and changes nothing else. (R161, R204, R218, R224, R229) -/
def Obligations.WaitsOfVeinsEnd : Prop :=
  ∀ (s : State) (v : Fin 16),
    (∀ n, (vein s v).wait = some (.yield n) → ∃ t, exec (.yieldExpiry v) s = .next t ∧
      Books bookReg (setVein s v { vein s v with wait := none, lost := false }) t) ∧
    (∀ k c n m o j, (vein s v).wait = some (.sem k c n m o) → n ≠ 0 → n ≤ m → (vein s v).jobs = [j] → j.op = 0x0D →
      j.done = false → j.conds = [] → vState s v = Vs.wait → (vein s v).fenced = false → (vein s v).suspended = false →
      ∃ t, exec (.semTimeout v) s = .next t ∧ (vein t v).wait = none ∧ vState t v = Vs.halted ∧
        fld t (Reg.vnStat v) Fl.vnStat_HALTSTAT = St.semTimeout ∧
        fld t (Reg.vnStat v) Fl.vnStat_HALTSEQ = j.seq % 2 ^ 32) ∧
    (nonFillerBlocked s = true → (∀ w < 16, (vein s w).waitOn = 8 → isFiller s (vTenant s w) = true) →
      let u : State := { s with trm := { s.trm with blocked := true } }
      ∃ t, exec .fillerUnblock s = .next t ∧ Books bookReg s t ∧ t.trm.blocked = true ∧
        ∀ w < 16, ∀ c, (vein s w).waitOn = 8 → headCmd s w = some c →
          fillerMay u (estimate u c.words).e = true → (vein t w).waitOn = 0) ∧
    (nonFillerBlocked s = false → exec .fillerUnblock s = .next s) ∧
    (let left (b : Nat × Nat) : Nat := (b.2 + 2 ^ 64 - tstamp s) % 2 ^ 64
     s.trm.bubbles ≠ [] → (∀ x ∈ s.trm.bubbles, x.2 < 2 ^ 64 ∧ left x < 2 ^ 63) →
      ∃ b ∈ s.trm.bubbles, (∀ x ∈ s.trm.bubbles, left b ≤ left x) ∧
      exec .bubbleEnd s = .next { s with trm := { s.trm with bubbles := s.trm.bubbles.erase b } })

/-- When every operand byte that the next tile of a command needs is there, no lane and no other tile of its arrays
is under way, the accumulators are free and its arrays stand at full admission, TILE_ENTRY enters it: the command
has entered, each of its arrays holds the tile in its active registers, is out of its gap and has its asked spares
mapped; a command of one pass then stands at its next N tile. When a byte is missing nothing enters, and the stream
that lacks it shows STARVED; arrays that are not full are woken. A sparse command takes its operands at its first
tile; its N tiles run in the lanes of the arrays, which hold no weights then, or as dense ones, and are counted. An
N tile of a PRED command whose passes are all skipped is full without a tile. An N tile with PSUM whose pass comes
after PSUMAT waits on its semaphore with count 1, behind the waits before it, and enters when it has been served and
its words are there. LANE_ITEM_END, once the item's values are there, ends the item that the lane was on and changes
no array; while one is missing it only shows the stream STARVED (no injector armed, no poisoned word). It rests on
readings of the model's own, log entries 16, 18. (R71, R92, R93, R107, R118, R121, R123, R124, R130, R153, R161,
R373) -/
def Obligations.TilesEnterAndLaneItemsEnd : Prop :=
  ∀ (s : State) (array : Fin 4), injOff s → s.poison = [] →
    let stalls (i : Instr) (ns : List Need) : Prop := ∃ t, exec i s = .next t ∧ t.veins = s.veins ∧
      t.arrays = s.arrays ∧ t.streams = s.streams ∧ t.mica = s.mica ∧
      ∀ n ∈ ns, needMet s n = false → flag t (Reg.stmDescW7 n.1) Fl.stmDescW7_STARVED = true
    (∀ v j, entryJob s array = some (v, j) → (∀ k ∈ (vein s v).jobs, k.seq = j.seq → k = j) → isRun s = true →
      j.preempt = false → j.arrays.all (inService s) = true → j.ladders = [] →
      heldTiles s j.arrays = [] → lanesBusy s j.arrays = false →
      let f := tileOf j.words
      let rec_ := j.nts.find? (fun x => x.nt == j.nt && x.corr == j.corr)
      let chans := channelNeeds s j f j.nt
      let lane := match rec_ with | some x => x.sparse | none => f.sparse && laneMode s j f j.nt
      let full := allFull (wakeAll s j.arrays) j.arrays
      let begun_ : Prop := f.sparse = true → j.entered = true ∧ (rec_ = none → chans.all (needMet s) = true)
      let job (t : State) (P : Job → Prop) : Prop := ∃ k ∈ (vein t v).jobs, k.seq = j.seq ∧ k.entered = true ∧ P k
      let tile (k : Job) (P : NtSt → Prop) : Prop := ∃ y ∈ k.nts, y.nt = j.nt ∧ y.corr = j.corr ∧ P y
      let spared (t : State) (a : Nat) : Prop := ∀ ms, (arr s a).spareReq = ms →
        (∀ m ∈ ms, (m.1 = 65 ∨ m.1 = 66) ∧ m.2 ≤ 64) → ∀ m ∈ ms, (∀ q ∈ ms, q.1 = m.1 ∨ q.2 = m.2 → q = m) →
        physCol s a m.2 = m.2 → physCol t a m.2 = m.1
      let enters (t : State) (p : Nat) : Prop :=
        job t (fun k => j.corr = false → f.pred = false → f.passes = 1 → f.subs.length = 1 → j.redo = [] →
          j.resume = none → k.nt = j.nt + 1) ∧
        ∀ a ∈ j.arrays, (arr t a).resident = true ∧ (arr t a).gap = false ∧ (arr t a).spareReq = [] ∧
          (∃ w, (arr t a).active = some w ∧ w.is v j.seq j.nt j.corr p j.sub = true) ∧ spared t a
      j.nt < f.nts → accFree s v j f = true →
      (f.sparse = true → j.entered = false →
        let ns := firstNeeds s f (spA j f) (spW j f) (spAt s (spA j f)) (spAt s (spW j f))
        (ns.all (needMet s) = false → stalls (.tileEntry array) ns) ∧
        (ns.all (needMet s) = true → ∃ t, exec (.tileEntry array) s = .next t ∧
          job t (fun k => k.spA = spAt s (spA j f) ∧ k.spW = spAt s (spW j f)))) ∧
      (f.sparse = true → j.entered = true → rec_ = none → chans.all (needMet s) = false →
        stalls (.tileEntry array) chans) ∧
      (begun_ → lane = true → rec_ = none → (f.load = true → needMet s (auxNeed j f j.nt) = true) → full = true →
        ∃ t, exec (.tileEntry array) s = .next t ∧
          job t (fun k => tile k (fun y => y.sparse = true ∧ y.full = true ∧ y.lanes.length = 64 * j.arrays.length)) ∧
          fld t Reg.shlTiles Fl.shlTiles_SPARSE = (fld s Reg.shlTiles Fl.shlTiles_SPARSE + 1) % 2 ^ 32 ∧
          ∀ a ∈ j.arrays, (arr t a).resident = true ∧ (arr t a).active = none ∧ (arr t a).spareReq = [] ∧ spared t a) ∧
      (begun_ → lane = false → nextPass j f j.pass = none → full = true → ∃ t, exec (.tileEntry array) s = .next t ∧
        job t (fun k => tile k (fun y => y.full = true)) ∧ ∀ a ∈ j.arrays, (arr t a).active = (arr s a).active) ∧
      (∀ p, begun_ → lane = false → nextPass j f j.pass = some p →
        let needs := entryNeeds s j f p (ntRows j f j.nt j.corr) rec_.isNone
        (needs.all (needMet s) = false → stalls (.tileEntry array) needs) ∧
        (needs.all (needMet s) = true → full = false → exec (.tileEntry array) s = .next (wakeAll s j.arrays)) ∧
        (needs.all (needMet s) = true → full = true →
          (f.psum = false ∨ p ≤ f.psumat ∨ (∃ x, rec_ = some x ∧ x.summed = true) →
            ∃ t, exec (.tileEntry array) s = .next t ∧ enters t p ∧ (f.sparse = true → rec_ = none →
              fld t Reg.shlTiles Fl.shlTiles_DENSE = (fld s Reg.shlTiles Fl.shlTiles_DENSE + 1) % 2 ^ 32)) ∧
          (∀ x, f.psum = true → f.psumat < p → rec_ = some x → j.corr = false → x.summed = false → x.auxIn = false →
            x.auxOrd = none → semWaiters s f.psem = [] →
            (semValue s f.psem = 0 → ∃ t, exec (.tileEntry array) s = .next t ∧
              (∃ k ∈ (vein t v).jobs, k.seq = j.seq ∧ tile k (fun y => y.auxOrd = some s.stamp ∧ y.summed = false)) ∧
              ∀ a ∈ j.arrays, (arr t a).active = (arr s a).active) ∧
            (0 < semValue s f.psem → needMet s (auxNeed j f j.nt) = true → ∃ t, exec (.tileEntry array) s = .next t ∧
              enters t p ∧ job t (fun k => tile k (fun y => y.summed = true)) ∧
              semValue t f.psem = semValue s f.psem - 1))))) ∧
    (∀ (lane : Fin 64) v j x l it, holdersOf s array = [(v, j)] → (∀ k ∈ (vein s v).jobs, k.seq = j.seq → k = j) →
      j.nts = [x] → laneAt x array lane = some l → l.cur = some it →
      let needs := itemNeeds s j (tileOf j.words) x it.row it.col
      (needs.all (needMet s) = true → ∃ t, exec (.laneItemEnd array lane) s = .next t ∧ t.arrays = s.arrays ∧
        ∃ k ∈ (vein t v).jobs, k.seq = j.seq ∧ ∃ y ∈ k.nts, y.nt = x.nt ∧
          ∃ m ∈ y.lanes, m.array = array.val ∧ m.lane = lane.val ∧ it ∈ m.ended) ∧
      (needs.all (needMet s) = false → stalls (.laneItemEnd array lane) needs))

/-- A tile whose operands are there is read when one of its rows drains: its terms are added to the rows'
accumulators, and the row then drains as one whose tile has been read. A row of a dense or sparse command that
drains when its tile has been read, and that passes its checks, waits for its row group or commits with it; the
command stays in flight. The rows that commit write their elements, each divided by its block scale and rounded
once, and the scale bytes, or with SPILL their AX64 words, and nothing else of Mica; without room nothing changes.
When the row check fails, or one of the duplicated copies disagrees, or its accumulator entries show an error of two
bits, the row joins a ladder of its array and commits nothing; while other rows of the array are still to drain
nothing changes but the command. A row of a tile that the arrays still hold, and of which a byte is missing, shows
the stream STARVED and no more. A disagreement of the duplicated drain arithmetic under ELEMWISE or GRAD_EMIT is
noted for that command, and nothing else changes (no injector armed, no poisoned word). The sums: an integer pass
adds its products exactly; a group's products are each cut at the window's least bit; the carry keeps 40 bits of the
sum, cut toward zero, and remembers what it lost; the accumulator is the sum rounded once to nearest even, a tie
with something lost going away from zero; NaN, infinity times zero and infinities of both signs give NaN, an
infinity otherwise stays. It rests on readings of the model's own, log entries 16, 19, 110. (R67, R69, R70, R75,
R78, R153, R177, R178, R180, R366, R370, R375) -/
def Obligations.RowDrainsOrJoinsLadder : Prop :=
  (∀ (s : State) (array : Fin 4) (row : Nat) (v : Nat) (j : Job) (x : NtSt), injOff s → isRun s = true → s.poison = [] →
    drainOf s array row = some (v, j, x) → (∀ k ∈ (vein s v).jobs, k.seq = j.seq → k = j) →
    (∀ y ∈ j.nts, y.nt = x.nt → y.corr = x.corr → y = x) →
    let f := tileOf j.words
    f.pred = false → f.psum = false →
    let accs := drainAccs s j f x row
    let passed := updJob (putAccs s v j.seq x.nt x.corr array [(row, accs)]) v j.seq (fun k =>
      updNt k x.nt x.corr (fun y => { y with checked := y.checked ++ [row] }))
    let S := extend (extend passed f.ostr) f.oscl
    (x.cur = none → j.ladders = [] → x.errs = [] → j.preempt = false → ∀ k, findJob passed v j.seq = some k →
      let rows := (rowGroup k f row).filter (fun r => !(ntDoneRows k x.nt).contains r)
      let whole := rows.all (fun r => (ntPassed k x.nt).contains r)
      let fit := piecesFit S f.ostr (groupPlaces k f x.nt rows) && piecesFit S f.oscl (scalePlaces k f x.nt rows)
      let held := rows.map (fun i => (i, heldAccs k x.nt i))
      let pre := held.map (fun r => (r.1, preRow S k f x.nt r.1 r.2))
      let els := pre.map (fun r => (r.1, (r.2.zip (List.range r.2.length)).map (fun p =>
        let sc := elScale S k f pre r.1 p.2
        let rnd := if outRm f.oof == .sr then srOf S k.step f.tensor r.1 (x.nt * f.cols + p.2) else 0
        (sc, convertEl f.oof sc rnd p.1))))
      let wrote : State := if f.spill
        then writePieces S f.ostr (held.map (fun r => (k.oPos + f.oOff x.nt r.1, r.2.flatMap (fun a => leBytes 8 (accWord a)))))
        else writePieces (writePieces S f.ostr (els.flatMap (fun r => rowPieces k f x.nt r.1 (r.2.map (·.2.code))))) f.oscl
          (scalePieces k f x.nt (els.map (fun r => (r.1, r.2.map (fun e => (e.1.getD 127, e.2.ff))))))
      (whole = false → ∃ t, exec (.rowDrain array row RowFault.none) s = .next t ∧ t.mica = s.mica ∧
        ∃ q ∈ (vein t v).jobs, q.seq = j.seq ∧ ∃ y ∈ q.nts, y.nt = x.nt ∧ y.corr = x.corr ∧ row ∈ y.checked) ∧
      (whole = true → fit = false → exec (.rowDrain array row RowFault.none) s = .next s) ∧
      (whole = true → fit = true → ∃ t, exec (.rowDrain array row RowFault.none) s = .next t ∧ t.mica = wrote.mica ∧
        ∃ q ∈ (vein t v).jobs, q.seq = j.seq ∧ (q.ntDone = j.ntDone + 1 ∨
          ∃ y ∈ q.nts, y.nt = x.nt ∧ y.corr = x.corr ∧ row ∈ y.done))) ∧
    (x.cur = none → (arr s array).fencing = none → ∀ flt : RowFault, flt.talusEcc = .clean →
      (flt.drainEcc = .double ∨ (flt.drainEcc = .clean ∧ (rowShow s v j f x array row accs flt).1.det ≠ none)) →
      ∃ t, exec (.rowDrain array row flt) s = .next t ∧
        (flt.drainEcc = .clean → (∃ i ∈ rowsLeftOn j f x array, i ≠ row) → { t with veins := s.veins } = s) ∧
        ∃ k ∈ (vein t v).jobs, k.seq = j.seq ∧ (∃ y ∈ k.nts, y.nt = x.nt ∧ y.corr = x.corr ∧ row ∈ y.failed ∧
            y.checked = x.checked ∧ y.done = x.done) ∧
          ∃ l ∈ k.ladders, l.nt = x.nt ∧ l.array = array.val ∧ row ∈ l.rows) ∧
    (∀ p b flt, x.cur = some (p, b) → x.sparse = false →
      let tile := ntRows j f x.nt x.corr
      let needs := tile.flatMap (rowNeeds s j f p b)
      (needs.all (needMet s) = false → ∃ t, exec (.rowDrain array row flt) s = .next t ∧ t.veins = s.veins ∧
        t.arrays = s.arrays ∧ t.streams = s.streams ∧ t.mica = s.mica ∧
        ∀ n ∈ needs, needMet s n = false → flag t (Reg.stmDescW7 n.1) Fl.stmDescW7_STARVED = true) ∧
      (needs.all (needMet s) = true → ∃ s', exec (.rowDrain array row flt) s = exec (.rowDrain array row flt) s' ∧
        s'.mica = s.mica ∧ s'.arrays = s.arrays ∧ ∃ k ∈ (vein s' v).jobs, k.seq = j.seq ∧ ∃ y ∈ k.nts, y.nt = x.nt ∧
          y.corr = x.corr ∧ y.cur = none ∧ y.accs = x.accs.map (fun a => (a.1, addTile f b a.2
            (if tile.contains a.1 then (actRow s j f p b a.1).1 else []) (activeRows s v j f x p b a.1)))))) ∧
  (∀ (s : State) (array : Fin 4) (row : Nat) (flt : RowFault) v j, isRun s = true → drainOf s array row = none →
    linearOn s array = some (v, j) → (∀ k ∈ (vein s v).jobs, k.seq = j.seq → k = j) → flt.drainDup ≠ [] →
    ∃ t, exec (.rowDrain array row flt) s = .next t ∧ { t with veins := s.veins } = s ∧
      { j with dup := true } ∈ (vein t v).jobs) ∧
  (let value (d : Dy) : ℚ := d.m * 2 ^ d.e
   let product (t : Term) : ℚ := match finProd t.1.val t.2.val with | none => 0 | some p => value p
   let total (g : List Term) : ℚ := (g.map product).sum
   let isNan (w : Val) : Prop := ∃ q, w = .nan q
   let isInf (w : Val) : Prop := ∃ n, w = .inf n
   (∀ gs, value (passInt gs) = (gs.map total).sum) ∧
   (∀ g l, let r := segmentSum g l
     |r.1 * (2 : ℚ) ^ l - total g| ≤ g.length * 2 ^ l ∧ (r.2 = false → r.1 * (2 : ℚ) ^ l = total g)) ∧
   (∀ (c : Option Cx) (n l : Int) (lost z : Bool) (k : Int),
     let before : ℚ := match c with | none => 0 | some c => if c.sig = 0 then 0 else value (cxDy c)
     let x : ℚ := before + n * 2 ^ l
     let r := cxMerge c n l lost z
     (x = 0 → value (cxDy r) = 0) ∧
     ((2 : ℚ) ^ k ≤ |x| → |x| < 2 ^ (k + 1) → -511 ≤ k →
       |value (cxDy r)| = ⌊|x| / 2 ^ (k - 39)⌋ * 2 ^ (k - 39) ∧ (r.s = true ↔ x < 0) ∧
       (r.t = true ↔ lost = true ∨ (∃ d, c = some d ∧ d.t = true) ∨ value (cxDy r) ≠ x))) ∧
   (∀ (acc : Nat) (d : Dy) (z lost : Bool) (k : Int),
     let x : ℚ := value (axDy acc) + value d
     let r := axAdd acc d z lost
     let y := value (axDy r)
     let u : ℚ := 2 ^ (max k (-510) - 52)
     (2 : ℚ) ^ k ≤ |x| → |x| < 2 ^ (k + 1) → axIsInf r = false →
       |y - x| ≤ u / 2 ∧ ((∃ i : Int, x = i * u) → y = x) ∧
       (|y - x| = u / 2 → if lost then |x| < |y| else ∃ i : Int, y = 2 * i * u)) ∧
   (∀ (a : AccSt) (gs : List (List Term)),
     let r := accPass a gs
     let term (P : Val → Val → Prop) : Prop := ∃ g ∈ gs, ∃ t ∈ g, P t.1.val t.2.val
     (r.nanIn = true ↔ a.nanIn = true ∨ term (fun p q => isNan p ∨ isNan q)) ∧
     (r.infZero = true ↔ a.infZero = true ∨
       term (fun p q => (isInf p ∧ valIsZero q = true) ∨ (valIsZero p = true ∧ isInf q))) ∧
     (term (fun p q => ¬ isNan p ∧ ¬ isNan q ∧ (isInf p ∨ isInf q) ∧ valIsZero p = false ∧ valIsZero q = false ∧
         valNeg p = valNeg q) → r.pinf = true) ∧
     (term (fun p q => ¬ isNan p ∧ ¬ isNan q ∧ (isInf p ∨ isInf q) ∧ valIsZero p = false ∧ valIsZero q = false ∧
         valNeg p ≠ valNeg q) → r.ninf = true)) ∧
   ∀ a : AccSt,
     (a.nanIn = true → accVal a = (.nan false, false)) ∧
     (a.nanIn = false → a.infZero = true ∨ (a.pinf = true ∧ a.ninf = true) → accVal a = (.nan false, true)) ∧
     (a.nanIn = false → a.infZero = false → a.pinf = true → a.ninf = false → accVal a = (.inf false, false)) ∧
     (a.nanIn = false → a.infZero = false → a.pinf = false → a.ninf = true → accVal a = (.inf true, false)) ∧
     (a.nanIn = false → a.infZero = false → a.pinf = false → a.ninf = false → accVal a = (axVal a.acc, false)))

/-- When the rows of a ladder fail again in step 1 the ladder goes on to step 2 on another array if
PX_TCH_CTRL.RETRY2 allows it; without it, or when they fail in step 2 or no other array is in service, the ladder is
counted as failed, the command ends with CHECK_FAILED and its vein halts with it. A step that passes is counted in
PX_TCH_STAT, the command has OK_CORRECTED and the ladder is over. STRIKE_WINDOW_END within the window changes
nothing; once WINDOW frames have passed it clears the strikes of that suspect and nothing else. A command of which
nothing more runs completes: it retires with its status; one of which something still runs does not. A CALIBRATE
completes as its measurement ends, that of scope 2 once it is back from the last operating point (no injector armed,
no poisoned word, no error of the memories in the rows, no cleave of the array). It rests on readings of the model's
own, log entries 19, 35. (R15, R226, R265, R370, R371, R372, R392) -/
def Obligations.LadderStepsAndCompletion : Prop :=
  ∀ (s : State),
    (∀ (array : Fin 4) (rows : List Nat) (fs : List RowFault) v j l x, let flts := rows.zip fs
      injOff s → s.poison = [] → allJobs s = [(v, j)] →
      (∀ k ∈ (vein s v).jobs, k.seq = j.seq → k = j) →
      j.ladders.find? (fun l => l.array == array.val && ladderReady j (tileOf j.words) l) = some l →
      ladderNt j l = some x → (arr s l.array).fencing = none → j.preempt = false →
      (∀ i ∈ l.rows, (mapGet RowFault.none flts i).drainEcc = .clean ∧ (mapGet RowFault.none flts i).talusEcc = .clean) →
      let shown (b : Nat) := stepShow s j (tileOf j.words) x l b flts
      let fails : Prop := ∃ t, exec (.ladderStepEnd array rows fs) s = .next t ∧
        fld t Reg.tchStat Fl.tchStat_FAILED = (fld s Reg.tchStat Fl.tchStat_FAILED + 1) % 2 ^ Fl.tchStat_FAILED.width ∧
        (∃ k ∈ (vein t v).jobs, k.seq = j.seq ∧ k.done = true ∧ St.checkFailed ∈ k.conds) ∧
        ((vein s v).jobs = [j] → j.conds = [] → vBase s v ≠ Vs.off → vBase s v ≠ Vs.halting → vBase s v ≠ Vs.halted →
          vBase t v = Vs.halted ∧ fld t (Reg.vnStat v) Fl.vnStat_HALTSTAT = St.checkFailed)
      let passes (b : Nat) (f : Field) : Prop := ladderPass s v j l b flts ≠ none →
        ∃ t, exec (.ladderStepEnd array rows fs) s = .next t ∧
          fld t Reg.tchStat f = (fld s Reg.tchStat f + 1) % 2 ^ f.width ∧
          ∃ k ∈ (vein t v).jobs, k.seq = j.seq ∧ St.okCorrected ∈ k.conds ∧
            ∀ m ∈ k.ladders, ¬ (m.nt = l.nt ∧ m.corr = l.corr ∧ m.array = l.array)
      (l.step = 1 →
        ((shown l.array).1 = true → retry2 s = true →
          ∃ t, exec (.ladderStepEnd array rows fs) s = .next t ∧ { t with veins := s.veins } = s ∧
            ∃ k ∈ (vein t v).jobs, k.seq = j.seq ∧ ∃ m ∈ k.ladders, m.array = l.array ∧ m.rows = l.rows ∧ m.step = 2) ∧
        ((shown l.array).1 = true → retry2 s = false → fails) ∧
        ((shown l.array).1 = false → passes l.array Fl.tchStat_STEP1)) ∧
      (∀ b, l.step = 2 → l.other = some b → (∀ p ∈ holdersOf s b, p.1 = v ∧ p.2.seq = j.seq) →
        ((shown b).1 = true → fails) ∧ ((shown b).1 = false → passes b Fl.tchStat_STEP2)) ∧
      (l.step = 2 → l.other = none → (∀ a ∈ arraysIn s, a = l.array) → fails)) ∧
    (∀ (array : Fin 4) (col : Nat),
      (windowOpen s (mapGet (0, 0) (arr s array).strikes col).2 = true → exec (.strikeWindowEnd array col) s = .next s) ∧
      (windowOpen s (mapGet (0, 0) (arr s array).strikes col).2 = false →
        ∃ t, exec (.strikeWindowEnd array col) s = .next t ∧ { t with arrays := s.arrays } = s ∧
          strikesOf t array col = 0 ∧ (∀ c, c ≠ col → strikesOf t array c = strikesOf s array c) ∧
          ∀ a, a ≠ array.val → arr t a = arr s a)) ∧
    (∀ (v : Fin 16) (seq : W32) j, (vein s v).jobs = [j] → j.seq = seq.toNat → j.op ≠ 0x04 → j.op ≠ 0x1C →
      j.done = false → jobHalts j = false → vBase s v ≠ Vs.halting →
      (j.fin = true → ∃ t, exec (.commandComplete v seq) s = .next t ∧ (vein t v).jobs = [] ∧
        fld t (Reg.vnSeq v) Fl.vnSeq_DONE = seq.toNat ∧
        fld t (Reg.vnStat v) Fl.vnStat_LASTSTAT = jobStatus j % 256) ∧
      (j.fin = false → exec (.commandComplete v seq) s = .next s)) ∧
    (∀ (v : Fin 16) (seq : W32) j, (vein s v).jobs = [j] → j.seq = seq.toNat → j.op = 0x1C → j.done = false →
      jobHalts j = false → vBase s v ≠ Vs.halting → (calScope j = 2 → s.trm.trans = none ∧ s.trm.cal = []) →
      ∃ t, exec (.commandComplete v seq) s = .next t ∧
        (vein t v).jobs = [] ∧ fld t (Reg.vnSeq v) Fl.vnSeq_DONE = seq.toNat)

/-- KEEPER_LIMIT takes a full array that is not held for a tick into ramp-down: it is in a gap, its dummy rows ran
at no less than 3/4 of the level before a gap that it was in, against random patterns where no tile is active;
RAMP_DOWN_DONE leaves it idle; SWITCH_OPEN opens the switch of an idle array that is fenced, or of any when PSW_EN
is set and no group waits, and its registers lose their contents; SWITCH_CLOSE_DONE begins its ramp-up with dummy
rows, and the lowest array that waits closes its switch when no other closes; RAMP_UP_DONE leaves it full. Nothing
else changes, and in any other power state nothing happens. While a vein holds a deferred or pending group, PRE_RAMP
ramps up every idle array in service and closes the switches of the switched-off ones, one at a time from the
lowest, holding them for the tick; without one, and for any other array, it changes nothing. PRE_RAMP_TIMEOUT lets
go of every array held: one whose switch is open, waits or is closing is left switched off unless test access holds
its switch closed, an idle one stays idle, any other ramps down; then the lowest array that waits may close its
switch. Nothing else changes. It rests on readings of the model's own, log entry 25 (DESIGN CHOICE) and, for an
array whose switch is closing or waits at the timeout, log entry 133 (DESIGN CHOICE): R108 names no such array.
(R104, R106, R107, R108, R280, R418, R425) -/
def Obligations.ArraysRampAndSwitch : Prop :=
  let lowest (s : State) (a : Nat) : Prop := (arr s a).pow = .waiting ∧ ∀ b < a, (arr s b).pow ≠ .waiting
  (∀ (s : State) (a : Fin 4),
      ((arr s a).pow = .full → (arr s a).preramp = false → ∃ t, exec (.keeperLimit a) s = .next t ∧
        (arr t a).pow = .rampDown ∧ (arr t a).gap = true ∧ (arr t a).resident = (arr s a).resident ∧
        ((arr s a).active = none → (arr t a).random = true) ∧ (arr t a).active = (arr s a).active ∧
        ((arr s a).gap = true → (arr s a).level < 256 →
          3 * (arr s a).level ≤ 4 * (arr t a).level ∧ (arr t a).level < 256) ∧
        (∀ b, b ≠ a.val → arr t b = arr s b) ∧ { t with arrays := s.arrays, free := s.free } = s) ∧
      ((arr s a).pow = .rampDown →
        exec (.rampDownDone a) s = .next (setArr s a { arr s a with pow := .idle })) ∧
      ((arr s a).pow = .idle → bit s.svc.pswHold a = false →
        ((arr s a).fenced = true ∨ (flag s Reg.trmKeep Fl.trmKeep_PSW_EN = true ∧ groupWaits s = false)) →
        exec (.switchOpen a) s = .next (setArr s a { arr s a with
          pow := .opened, resident := false, active := none, shadow := none, random := false })) ∧
      ((arr s a).pow = .closing → ∃ t, exec (.switchCloseDone a) s = .next t ∧ { t with arrays := s.arrays } = s ∧
        (arr t a).pow = .rampUp ∧ (arr t a).dummies = true ∧ (arr t a).preramp = (arr s a).preramp ∧
        ((arr s a).active = none → (arr t a).random = true) ∧
        ∀ b, b ≠ a.val → ((b < 4 ∧ lowest s b ∧ ∀ c < 4, c ≠ a.val → (arr s c).pow ≠ .closing) →
            arr t b = { arr s b with pow := .closing }) ∧
          (¬ (b < 4 ∧ lowest s b ∧ ∀ c < 4, c ≠ a.val → (arr s c).pow ≠ .closing) → arr t b = arr s b)) ∧
      ((arr s a).pow = .rampUp → exec (.rampUpDone a) s = .next (setArr s a { arr s a with pow := .full })) ∧
      ((arr s a).pow ≠ .full ∨ (arr s a).preramp = true → exec (.keeperLimit a) s = .next s) ∧
      ((arr s a).pow ≠ .rampDown → exec (.rampDownDone a) s = .next s) ∧
      ((arr s a).pow ≠ .idle ∨ bit s.svc.pswHold a = true → exec (.switchOpen a) s = .next s) ∧
      ((arr s a).pow ≠ .closing → exec (.switchCloseDone a) s = .next s) ∧
      ((arr s a).pow ≠ .rampUp → exec (.rampUpDone a) s = .next s)) ∧
  ∀ (s : State),
      (groupWaits s = false → exec .preRamp s = .next s) ∧
      (groupWaits s = true → ∃ t, exec .preRamp s = .next t ∧ { t with arrays := s.arrays } = s ∧ ∀ a,
        (inService s a = true → a < 4 → (arr s a).pow = .idle → (arr t a).pow = .rampUp ∧ (arr t a).preramp = true ∧
          (arr t a).dummies = true ∧ (arr t a).resident = (arr s a).resident ∧ (arr t a).active = (arr s a).active) ∧
        (inService s a = true → a < 4 → (arr s a).pow = .opened →
          let first : Prop := (∀ b < 4, (arr s b).pow ≠ .closing) ∧ ∀ b < a, inService s b = true → (arr s b).pow ≠ .opened
          (first → arr t a = { arr s a with pow := .closing, preramp := true }) ∧
          (¬ first → arr t a = { arr s a with pow := .waiting, preramp := true })) ∧
        (inService s a = false ∨ 4 ≤ a ∨ ((arr s a).pow ≠ .idle ∧ (arr s a).pow ≠ .opened) → arr t a = arr s a)) ∧
      (∃ t, exec .preRampTimeout s = .next t ∧ { t with arrays := s.arrays } = s ∧ ∀ a,
        (a < 4 → (arr s a).preramp = true → (arr t a).preramp = false ∧ (arr t a).resident = (arr s a).resident ∧
          ((arr s a).pow = .closing → (arr t a).pow = if bit s.svc.pswHold a then .closing else .opened) ∧
          ((arr s a).pow = .waiting ∨ (arr s a).pow = .opened → (arr t a).pow = .opened) ∧
          ((arr s a).pow = .idle → (arr t a).pow = .idle) ∧
          ((arr s a).pow ∈ [.full, .rampUp, .rampDown] → (arr t a).pow = .rampDown)) ∧
        ((arr s a).preramp = false ∨ 4 ≤ a → arr t a = arr s a ∨
          ((arr s a).pow = .waiting ∧ arr t a = { arr s a with pow := .closing } ∧
            ∀ b < 4, b ≠ a → (arr t b).pow ≠ .closing)))

/-- Each of these commands answers a next state with its own effect wherever the state allows it.
STREAM_ENGINE_TRANSFER of a running IN_DEEP stream with room, a port and a free tag sends a read request (no wrapper
instruction over the outputs). DEEP_READ_RESPONSE with the data of a request counts them and frees it,
DEEP_WRITE_RESPONSE frees its write (no injector armed). THERMAL_STEPDOWN while T_max is at or above THROT + HOT
lowers LIMOPP, THERMAL_STEPUP while it is below THROT − HYST raises it. DROOP_TRIP with VDD_PX below the level
begins a stretch, DROOP_END ends it. OVERSPEND with Q below zero is shown. AUTOCAL_START begins a measurement,
AUTOCAL_DONE writes its entry. PATROL_SCRUB visits a line, BANK_COPY_DONE puts a bank on its spare.
CLEAVE_FENCE_DONE fences an array, CLEAVE_RETURN_DONE takes it back. EVACUATE asks for an evacuation,
EVAC_IMAGE_WRITE begins to write its image. It rests on readings of the model's own, log entries 26, 41, 51, 53, 88,
90, 91, 92. (R148, R413, R414, R276, R278, R256, R264, R142, R382, R380, R385) -/
def Obligations.EventsCompleteWithTheirEffect : Prop :=
  ∀ (s : State),
    (∀ (i : Fin 64), sState s i = Ss.running → (desc s i).kind = 0 → skipDue s i = none → maskUsed s i = false →
      (strm s i).turn = [] → (strm s i).asked < roomEnd (extend (turnFill s i) i) i → deepPorts s (desc s i) ≠ [] →
      (∀ p ∈ deepPorts s (desc s i), freeTag s p ≠ none) → pxRuns s = true → wrapGoverns s = false →
      ∃ t p tag a n b e os, exec (.streamEngineTransfer i) s = .next t ∧ t.out = s.out ++ .deepRead p tag a n b e :: os ∧
        p ∈ deepPorts s (desc s i) ∧ (strm s i).asked + n + 1 ≤ (strm t i).asked) ∧
    (∀ (p : Fin 4) (tag i : Nat) (r : Req) (bytes : List Byte) (lines : List Nat), tagOwner s p tag false = some (i, r) →
      i < 64 → injOff s → bytes.length = r.len → ∃ t, exec (.deepReadResponse p tag (.data bytes lines)) s = .next t ∧
        r ∉ (strm t i).outst ∧ fld t (Reg.stmDescW7 i) Fl.stmDescW7_BYTES =
          (fld s (Reg.stmDescW7 i) Fl.stmDescW7_BYTES + r.len) % 2 ^ 48) ∧
    (∀ (p : Fin 4) (tag i : Nat) (r : Req), tagOwner s p tag true = some (i, r) → i < 64 → injOff s →
      (∀ x ∈ s.evacReqs, x ≠ (p.val, tag)) →
      ∃ t, exec (.deepWriteResponse p tag false) s = .next t ∧ r ∉ (strm t i).outst) ∧
    (s.trm.hot = true → ∃ t, exec .thermalStepdown s = .next t ∧ limOpp t = limOpp s - 1 ∧
      flag t Reg.trmStat Fl.trmStat_HOT = true) ∧
    (s.trm.cool = true → ∃ t, exec .thermalStepup s = .next t ∧ limOpp t = min 15 (limOpp s + 1)) ∧
    (∀ mv : Nat, s.trm.droopOn = false → pxRuns s = true → (mv : Int) < droopMv s → ∃ t, exec (.droopTrip mv) s = .next t ∧
      t.trm.droopOn = true ∧ t.trm.droopFrm = s.trm.droopFrm + 1) ∧
    (∃ t, exec .droopEnd s = .next t ∧ t.trm.droopOn = false ∧ t.regs = s.regs) ∧
    (∀ d, liveQ { s with trm := { s.trm with drawn := d } } < 0 → ∃ t, exec (.overspend d) s = .next t ∧
      t.trm.overspent = true ∧ flag t Reg.trmStat Fl.trmStat_OVERSPEND = true ∧ flag t Reg.errAtn Fl.errAtn_NOTE = true) ∧
    (∀ d, isRun s = true → flag s Reg.trmCtrl Fl.trmCtrl_AUTOCAL = true → s.trm.autocal = none →
      idleWindow s = true → fillerReady s = false → d ∈ s.trm.marked → d / 48 = frameOpp s → d % 48 / 4 = bandNow s →
      ∃ t, exec (.autocalStart d) s = .next t ∧ t.trm.autocal = some d) ∧
    (∀ d xs, s.trm.autocal = some d → d % 48 / 4 = bandNow s → ∃ t, exec (.autocalDone xs) s = .next t ∧
      t.trm.autocal = none ∧ d ∉ t.trm.marked ∧ (costGet t d).flags = 1 ∧ (costGet t d).misses = 0) ∧
    (micaRuns s = true → fld s Reg.stmCtrl Fl.stmCtrl_SCRUB ≠ 0 → injOff s →
      ∃ t, exec (.patrolScrub []) s = .next t ∧ t.svc.line = (s.svc.line + 1) % 4096 ∧ t.regs = s.regs) ∧
    (∀ (p : Nat) k, s.svc.copies.find? (fun c => c.det != 0 && physBank s c.bank == p) = some k → k.bank < 192 →
      k.spare < 256 → ∃ t, exec (.bankCopyDone p) s = .next t ∧ physBank t k.bank = k.spare ∧
        ∀ c ∈ t.svc.copies, c.bank ≠ k.bank) ∧
    (∀ (a : Fin 4) by_, (arr s a).fencing = some by_ → arrayEmpty s a = true →
      ∃ t, exec (.cleaveFenceDone ⟨0, a⟩) s = .next t ∧ (arr t a).fenced = true ∧ (arr t a).fencing = none ∧
        bit (fld t Reg.tchArrays Fl.tchArrays_FENCED) a = true) ∧
    (∀ (a : Fin 4) c, (arr s a).returning = some c → ∃ t, exec (.cleaveReturnDone ⟨0, a⟩ []) s = .next t ∧
      (arr t a).fenced = false ∧ (arr t a).returning = none ∧
      bit (fld t Reg.tchArrays Fl.tchArrays_FENCED) a = false) ∧
    (let st := fld s Reg.errEvstat Fl.errEvstat_STATE
     (∀ w : W64, PortOpen s Reg.errEvac → w.toNat.testBit 63 = true → (st = 0 ∨ 3 < st) →
       ∃ t, exec (.evacuate w) s = .next t ∧ fld t Reg.errEvstat Fl.errEvstat_STATE = 1 ∧
         t.svc.evacAddr = 64 * bits w.toNat 6 42) ∧
     (isRun s = true → st = 2 → allJobs s = [] → (∃ p < 4, portUsable s p = true) →
       ∃ t, exec .evacImageWrite s = .next t ∧ fld t Reg.errEvstat Fl.errEvstat_STATE = 3))

/-- With every sensor valid and every reading in range and below 110 °C, SENSOR_SAMPLE stores each reading and
leaves the highest as T_max; the block then stands hot when T_max is at or above THROT + HOT, and the first such
sample lowers LIMOPP by one and sets PX_TRM_STAT.HOT; it stands cool when T_max is below THROT − HYST (no injector
armed). A reading outside −40 °C to 150 °C excludes its sensor for good and sets PX_TRM_STAT.SENSOR. A reading of
110 °C or more trips a block that has not tripped yet: it enters FATAL with FATAL_THERMAL, ATN_FATAL rises, every
array's switch opens and every vein is OFF. (R275, R276, R277, R376, R387) -/
def Obligations.SensorsAreSampled : Prop :=
  ∀ (s : State) (rs : List Int), rs.length = 16 → pxRuns s = true →
    (injOff s → (∀ i < 16, sensorOut s i = false) → (∀ r ∈ rs, -160 ≤ r ∧ r < 440) →
      ∃ t, exec (.sensorSample rs) s = .next t ∧ (∀ i < 16, toSigned 16 (sensorVal t i) = rs.getD i 0) ∧
        tMax t ∈ rs ∧ (∀ r ∈ rs, r ≤ tMax t) ∧ (s.trm.tripped = false →
          let hot := 4 * ((fld s Reg.trmTherm Fl.trmTherm_THROT : Int) + fld s Reg.trmTherm Fl.trmTherm_HOT) ≤ tMax t
          (t.trm.hot = true ↔ hot) ∧
          (t.trm.cool = true ↔
            tMax t < 4 * ((fld s Reg.trmTherm Fl.trmTherm_THROT : Int) - fld s Reg.trmTherm Fl.trmTherm_HYST)) ∧
          (hot → s.trm.hot = false → limOpp t = limOpp s - 1 ∧ flag t Reg.trmStat Fl.trmStat_HOT = true) ∧
          (¬ hot ∨ s.trm.hot = true → limOpp t = limOpp s))) ∧
    (∀ i < 16, sensorOut s i = false → (rs.getD i 0 < -160 ∨ 600 < rs.getD i 0) →
      ∃ t, exec (.sensorSample rs) s = .next t ∧ sensorOut t i = true ∧
        flag t Reg.trmStat Fl.trmStat_SENSOR = true) ∧
    (injOff s → s.trm.tripped = false → (∀ i < 16, sensorOut s i = false) → (∀ r ∈ rs, -160 ≤ r ∧ r ≤ 600) →
      (∃ r ∈ rs, 440 ≤ r) →
      ∃ t, exec (.sensorSample rs) s = .next t ∧ t.su = .fatal ∧ t.trm.tripped = true ∧
        fld t Reg.idGstat Fl.idGstat_FATALCODE = St.fatalThermal ∧ flag t Reg.errAtn Fl.errAtn_FATAL = true ∧
        (∀ a < 4, (arr t a).pow = .opened ∧ (arr t a).resident = false) ∧
        ∀ v < 16, fld t (Reg.vnStat v) Fl.vnStat_STATE = Vs.off ∧ (vein t v).jobs = [])

/-- While the block stands hot (T_max at or above THROT + HOT) a step lowers LIMOPP by one (0 stays) and sets
PX_TRM_STAT.HOT; while it stands cool (below THROT − HYST) a step raises it by one up to 15 and changes nothing
else; otherwise the steps do nothing. A droop trip while none is under way, with Paxte running and VDD_PX below the
level it is compared with (the active point's MV, in a transition the lower one, less PX_TRM_DROOP.MV but at least
10 mV), stretches the clocks and is counted in the frame and in PX_TRM_DROOP.TOTAL; any other changes nothing;
DROOP_END ends the stretch. OVERSPEND with Q below zero sets PX_TRM_STAT.OVERSPEND, ends an automatic calibration
and raises ATN_NOTE; with Q not below zero it only shows the live budget. It rests on readings of the model's own,
log entries 51, 53. (R255, R256, R276, R278) -/
def Obligations.ThermalStepsDroopAndOverspend : Prop :=
  ∀ (s : State),
    (s.trm.hot = true → ∃ t, exec .thermalStepdown s = .next t ∧ limOpp t = limOpp s - 1 ∧
      flag t Reg.trmStat Fl.trmStat_HOT = true ∧ tMax t = tMax s) ∧
    (s.trm.hot = false → exec .thermalStepdown s = .next s) ∧
    (s.trm.cool = true → ∃ t, exec .thermalStepup s = .next t ∧ limOpp t = min 15 (limOpp s + 1) ∧
      { t with regs := s.regs } = s ∧ (∀ a, a ≠ Reg.trmTherm → rd t a = rd s a) ∧ tMax t = tMax s ∧
      fld t Reg.trmTherm Fl.trmTherm_TCAP = fld s Reg.trmTherm Fl.trmTherm_TCAP) ∧
    (s.trm.cool = false → exec .thermalStepup s = .next s) ∧
    (∀ mv : Nat, s.trm.droopOn = false → pxRuns s = true → (mv : Int) < droopMv s →
      ∃ t, exec (.droopTrip mv) s = .next t ∧ t.trm.droopOn = true ∧
      t.trm.droopFrm = s.trm.droopFrm + 1 ∧
      fld t Reg.trmDroop Fl.trmDroop_TOTAL = (fld s Reg.trmDroop Fl.trmDroop_TOTAL + 1) % 2 ^ 32) ∧
    (∀ mv : Nat, s.trm.droopOn = true ∨ pxRuns s = false ∨ droopMv s ≤ mv → exec (.droopTrip mv) s = .next s) ∧
    (exec .droopEnd s = .next { s with trm := { s.trm with droopOn := false } }) ∧
    ∀ (d : Nat),
      let s' : State := { s with trm := { s.trm with drawn := d } }
      (liveQ s' < 0 → ∃ t, exec (.overspend d) s = .next t ∧ t.trm.overspent = true ∧ t.trm.autocal = none ∧
        flag t Reg.trmStat Fl.trmStat_OVERSPEND = true ∧ flag t Reg.errAtn Fl.errAtn_NOTE = true ∧
        (∀ a, a ≠ Reg.trmStat → a ≠ Reg.errAtn → a ≠ Reg.errSummary → a ≠ Reg.trmBudget → rd t a = rd s a)) ∧
      (0 ≤ liveQ s' → exec (.overspend d) s = .next (showQ s') ∧
        fld (showQ s') Reg.trmBudget Fl.trmBudget_REMAIN = fromSigned 32 (liveQ s'))

/-- VACK is watched once the watch has started. VACK of a raise lets the clock slew (no injector armed); VACK of a
lower ends the change. The end of a slew makes the new point ACTIVE and clears BUSY: after a raise the change is
over and no output moves; after a lower the lower point's code is driven on VREQ and its VACK awaited. A VACK that
does not come in time marks the point BAD, sets VTIMEOUT, and writes a CONTAINED record with ATN_ERR; the change is
over and ACTIVE stays, after a raise with BUSY clear and the code of the point that was left driven, after a lower
with no output moving. It rests on readings of the model's own, log entries 10, 50. (R273, R274, R377, R378, R379)
-/
def Obligations.OperatingPointsChangeInOrder : Prop :=
  ∀ (s : State) (a b : Nat),
    let tr (x : Option Trans) : State := { s with trm := { s.trm with trans := x } }
    (s.trm.trans = some ⟨a, b, 0⟩ → exec .vackWatchStart s = .next (tr (some ⟨a, b, 1⟩))) ∧
    (s.trm.trans = some ⟨a, b, 3⟩ → exec .vackWatchStart s = .next (tr (some ⟨a, b, 4⟩))) ∧
    (s.trm.trans = some ⟨a, b, 1⟩ → injOff s → s.trm.injVack = false →
      exec .vackRise s = .next (tr (some ⟨a, b, 2⟩))) ∧
    (s.trm.trans = some ⟨a, b, 4⟩ → injOff s → s.trm.injVack = false → s.trm.nextOpp = none →
      exec .vackRise s = .next { s with trm := { s.trm with trans := none, calAt := tstamp s } }) ∧
    (s.trm.trans = some ⟨a, b, 2⟩ → a < b → b < 16 → s.trm.nextOpp = none → ∃ t, exec .oppSlewDone s = .next t ∧
      oppActive t = b ∧ flag t Reg.trmOppsel Fl.trmOppsel_BUSY = false ∧ t.trm.trans = none ∧
      { t with regs := s.regs, trm := s.trm } = s ∧ ∀ x, x ≠ Reg.trmOppsel → rd t x = rd s x) ∧
    (s.trm.trans = some ⟨a, b, 2⟩ → b < a → a < 16 → portLive s 14 = true → ∃ t, exec .oppSlewDone s = .next t ∧
      oppActive t = b ∧ flag t Reg.trmOppsel Fl.trmOppsel_BUSY = false ∧ t.trm.trans = some ⟨a, b, 3⟩ ∧
      t.out = s.out ++ [.vreq (fld s (Reg.trmOpp b) Fl.trmOpp_VREQ)]) ∧
    (∀ p, s.trm.trans = some ⟨a, b, p⟩ → p ≠ 2 → a < 16 → b < 16 → s.trm.nextOpp = none → portLive s 14 = true →
      ∃ t, exec .vackTimeout s = .next t ∧
        flag t (Reg.trmOpp b) Fl.trmOpp_BAD = true ∧ flag t Reg.trmStat Fl.trmStat_VTIMEOUT = true ∧
        oppActive t = oppActive s ∧ t.trm.trans = none ∧ flag t Reg.errAtn Fl.errAtn_ERR = true ∧
        fld t Reg.errCnt Fl.errCnt_CONTAINED = (fld s Reg.errCnt Fl.errCnt_CONTAINED + 1) % 2 ^ Fl.errCnt_CONTAINED.width ∧
        bits (rd t (Reg.errLast 0)).toNat 0 2 = 1 ∧ bits (rd t (Reg.errLast 0)).toNat 8 8 = 0x1A ∧
        (p < 3 → flag t Reg.trmOppsel Fl.trmOppsel_BUSY = false ∧
          t.out = s.out ++ [.vreq (fld s (Reg.trmOpp a) Fl.trmOpp_VREQ)]) ∧
        (3 ≤ p → t.out = s.out))

/-- With AUTOCAL set, in an idle window, with no filler command ready and no calibration under way, AUTOCAL_START of
a marked domain of the frame's operating point and the present band starts it and changes nothing else; where one of
these fails it changes nothing. AUTOCAL_DONE in the same band writes the entry with the measured coefficients, VALID
and not STALE, and no other byte of Mica; the mark is gone. If the band has changed, nothing is written. It rests on
readings of the model's own, log entry 26. (R257, R260, R264, R270) -/
def Obligations.AutocalMeasuresMarkedDomain : Prop :=
  ∀ (s : State) (d : Nat),
    (isRun s = true → flag s Reg.trmCtrl Fl.trmCtrl_AUTOCAL = true → s.trm.autocal = none → idleWindow s = true →
      fillerReady s = false → d ∈ s.trm.marked → d / 48 = frameOpp s → d % 48 / 4 = bandNow s →
      exec (.autocalStart d) s = .next { s with trm := { s.trm with autocal := some d } }) ∧
    (isRun s = false ∨ flag s Reg.trmCtrl Fl.trmCtrl_AUTOCAL = false ∨ idleWindow s = false ∨ d ∉ s.trm.marked →
      exec (.autocalStart d) s = .next s) ∧
    (∀ xs : List Nat, xs.length = 12 → (∀ x ∈ xs, x < 2 ^ 16) → s.trm.autocal = some d →
      (d % 48 / 4 = bandNow s → ∃ t, exec (.autocalDone xs) s = .next t ∧ t.trm.autocal = none ∧
        d ∉ t.trm.marked ∧ (∀ x, x ≠ d → (x ∈ t.trm.marked ↔ x ∈ s.trm.marked)) ∧
        costGet t d = ⟨1, 0, xs.getD 0 0, xs.getD 1 0, xs.getD 2 0, xs.getD 3 0, xs.getD 4 0, frameNo s % 2 ^ 32,
          xs.drop 5⟩ ∧
        (∀ x, (x < costAddr s d ∨ costAddr s d + 64 ≤ x) → micaByte t x = micaByte s x) ∧
        { t with mica := s.mica, poison := s.poison, trm := s.trm } = s) ∧
      (d % 48 / 4 ≠ bandNow s → exec (.autocalDone xs) s = .next { s with trm := { s.trm with autocal := none } })) ∧
    (∀ xs, s.trm.autocal = none → exec (.autocalDone xs) s = .next s)

/-- The Lodestone starts a SYNC on every link that carries ticks and nothing else changes; any other block sends
none. A SYNC of the Lodestone that is followed, heard over the link with the fewest hops, makes that link the
UPLINK, sets HOPS, leaves the epoch alone, enters ACQUIRE from FREE or HOLDOVER and, unless its beat was replayed,
starts a delay exchange from its own timestamp. A SYNC that names a lower Lodestone than the one followed is
adopted, and a tick that the old one announced is off; in an open frame that sets PX_CRN_STAT.SPLIT, raises ATN_ERR,
and the block joins at the next tick and may step its time once (no injector armed). Losing SYNC takes a follower
from ACQUIRE to FREE and from LOCKED to HOLDOVER. It rests on readings of the model's own, log entries 54, 55.
(R232, R233, R234, R235, R246) -/
def Obligations.FollowersTakeSync : Prop :=
  ∀ (s : State),
    (isLode s = true → crnLive s = true → ∃ t, exec .syncSend s = .next t ∧ { t with links := s.links } = s ∧
      (∀ l ∈ tickLinks s,
        link t l = link (sendSync s l (stratum s) 0 (epochNo s) (tstamp s) (frameNo s)) l) ∧
      ∀ l, l ∉ tickLinks s → link t l = link s l) ∧
    (isLode s = false → exec .syncSend s = .next s) ∧
    (∀ (l : Fin 6) (src m hops epoch : Nat) (t1 : W64) (frame : Nat), injOff s → linkActive s l = true →
      carries s l 0 = true → crnLive s = true →
      (m % 1024 = lode s → isLode s = false →
        (∀ n ∈ s.crn.nbrs, n.1 ≠ l.val → n.2.2 = lode s → hops % 16 < n.2.1) →
        ∃ t, exec (.sync l src m hops epoch t1 frame) s = .next t ∧ uplink t = l ∧ lode t = lode s ∧
          fld t Reg.crnState Fl.crnState_HOPS = min 15 (hops % 16 + 1) ∧
          epochNo t = epochNo s ∧
          t.crn.xch = (if fromReplay s l.val 0 1 then s.crn.xch else some (l.val, t1.toNat, tstamp s)) ∧
          l.val ∉ t.crn.kids ∧
          lockSt t = if lockSt s = 2 then 2 else 1) ∧
      (m % 1024 < lode s → ∃ t, exec (.sync l src m hops epoch t1 frame) s = .next t ∧ lode t = m % 1024 ∧
        isLode t = false ∧ t.crn.tick = none ∧ (s.crn.opened = true → t.crn.splitAt = true ∧ t.crn.splitStep = true ∧
          flag t Reg.crnStat Fl.crnStat_SPLIT = true ∧ flag t Reg.errAtn Fl.errAtn_ERR = true))) ∧
    (isLode s = true → exec .syncLoss s = .next s) ∧
    (isLode s = false → ∃ t, exec .syncLoss s = .next t ∧
      lockSt t = (if lockSt s = 1 then 0 else if lockSt s = 2 then 3 else lockSt s) ∧
      (∀ a, a ≠ Reg.crnState → rd t a = rd s a) ∧ lode t = lode s ∧ uplink t = uplink s ∧ t.crn.time = s.crn.time)

/-- A block that gets DREQ takes the link as one to a child and, unless its beat was replayed, answers with the two
timestamps; nothing else changes. A follower that gets the DRESP of its exchange, from a beat that was not replayed,
forms the offset of R234: in FREE and in ACQUIRE it steps its time by it, and in LOCKED, or in an ACQUIRE without
steps (one from HOLDOVER, or one from LOCKED in a block in RUN), it slews instead; a block that has joined another
Lodestone more than 1 µs away steps once in any case. The exchange is over, with a replayed beat too, which moves no
time. Sixteen offsets in a row within 20 ps take ACQUIRE to LOCKED. It rests on readings of the model's own, log
entries 54, 55. (R233, R234, R235, R246, R293) -/
def Obligations.DelayExchangeMovesTime : Prop :=
  ∀ (s : State) (l : Fin 6) (src : Nat) (t3 t4 : W64), linkActive s l = true → carries s l 0 = true →
    crnLive s = true →
    (∃ t, exec (.dreq l src t3) s = .next t ∧ l.val ∈ t.crn.kids ∧ (∀ k, k ≠ l.val → (k ∈ t.crn.kids ↔ k ∈ s.crn.kids)) ∧
      (let d := drainMsg s l.val 0 (msgType 2)
       if fromReplay s l.val 0 2 then t.links = d.links
       else link t l = link (sendDresp d l t3.toNat (tstamp s)) l ∧ ∀ k, k ≠ l.val → link t k = link d k) ∧
      { t with links := s.links, crn := s.crn } = s ∧ { t.crn with kids := s.crn.kids } = s.crn) ∧
    ∀ t1 t2, s.crn.xch = some (l.val, t1, t2) → uplink s = l →
      let off := followOffset t1 t2 t3.toNat t4.toNat (sfld s (Reg.crnAsym l) Fl.crnAsym_ASYM)
      let far : Prop := s.crn.splitStep = true ∧ 16000 * 2 ^ 32 < off.natAbs
      (fromReplay s l.val 0 3 = true → ∃ t, exec (.dresp l src t3 t4) s = .next t ∧ t.crn.xch = none ∧
        t.crn.time = s.crn.time ∧ t.crn.slew = s.crn.slew ∧ lockSt t = lockSt s) ∧
      (fromReplay s l.val 0 3 = false →
        far ∨ lockSt s = 0 ∨ (lockSt s = 1 ∧ s.crn.slewOnly = false ∧ (s.crn.wasLocked = false ∨ isRun s = false)) →
        ∃ t, exec (.dresp l src t3 t4) s = .next t ∧ (t.crn.time : Int) = ((s.crn.time : Int) - off) % 2 ^ 96 ∧
          t.crn.slew = 0 ∧ t.crn.xch = none ∧ t.crn.splitStep = false ∧
          (lockSt s = 1 → 100 * off.natAbs ≤ 32 * 2 ^ 32 → 15 ≤ s.crn.good → lockSt t = 2)) ∧
      (fromReplay s l.val 0 3 = false → ¬ far →
        lockSt s = 2 ∨ (lockSt s = 1 ∧ (s.crn.slewOnly = true ∨ (s.crn.wasLocked = true ∧ isRun s = true))) →
        ∃ t, exec (.dresp l src t3 t4) s = .next t ∧ t.crn.time = s.crn.time ∧ t.crn.slew = off ∧ t.crn.xch = none ∧
          (lockSt s = 2 → 10 * off.natAbs > 16 * 2 ^ 32 → 3 ≤ s.crn.bad → lockSt t = 1))

/-- Under STRETCH a Lodestone whose tokens are not complete slips the grid point: SLIPS counts, OVR is set,
PX_CRN_LATE shows the frame, and no tick is announced; with FREEZE set it slips it too, and only SLIPS shows it.
With the tokens complete, or before the first frame, it announces the next frame, or FRAME0, at the next grid point,
with the epoch, plus one with a time step. It decides once for each grid point. A follower takes a TICK of its
parent as its next tick and a HOLD as a sign of life; both set the next grid point and clear the count of missed
ones. One for a grid point at which a tick has fired already, or an earlier one, changes nothing of its own time and
frames. It rests on readings of the model's own, log entries 54, 135. (R238, R239, R241, R245, R247, R251) -/
def Obligations.TickIsAnnouncedAndTaken : Prop :=
  ∀ (s : State),
    (isLode s = true → crnLive s = true → s.crn.anchored = true → s.crn.decided = false → s.crn.tick = none →
      (s.crn.opened = true → policy s = 0 → flag s Reg.crnCtrl Fl.crnCtrl_FREEZE = false → tokensComplete s = false →
        ∃ t, exec .tickAnnounce s = .next t ∧ t.crn.tick = none ∧ t.crn.decided = true ∧ t.crn.heard = true ∧
          fld t Reg.crnCnt Fl.crnCnt_SLIPS = (fld s Reg.crnCnt Fl.crnCnt_SLIPS + 1) % 2 ^ 16 ∧
          flag t Reg.crnStat Fl.crnStat_OVR = true ∧ fld t Reg.crnLate Fl.crnLate_FRAME = frameNo s ∧
          gridNext t = gridNext s ∧ t.crn.time = s.crn.time) ∧
      (s.crn.opened = true → policy s = 0 → flag s Reg.crnCtrl Fl.crnCtrl_FREEZE = true →
        ∃ t, exec .tickAnnounce s = .next t ∧ t.crn.tick = none ∧ t.crn.decided = true ∧ t.crn.heard = true ∧
          fld t Reg.crnCnt Fl.crnCnt_SLIPS = (fld s Reg.crnCnt Fl.crnCnt_SLIPS + 1) % 2 ^ 16 ∧
          (∀ a, a ≠ Reg.crnCnt → rd t a = rd s a) ∧ gridNext t = gridNext s ∧ t.crn.time = s.crn.time) ∧
      (s.crn.opened = false ∨ policy s ≠ 0 ∨
          (flag s Reg.crnCtrl Fl.crnCtrl_FREEZE = false ∧ tokensComplete s = true) →
        ∃ t, exec .tickAnnounce s = .next t ∧ t.crn.decided = true ∧ t.crn.heard = true ∧ t.crn.tick = some
          (if s.crn.opened then (frameNo s + 1) % 2 ^ 48 else s.slt.frame0 % 2 ^ 48, gridNext s,
           if s.crn.step = 0 then epochNo s else (epochNo s + 1) % 65536, s.crn.step) ∧
          ∀ a, rd t a = rd s a)) ∧
    (isLode s = false ∨ s.crn.decided = true ∨ s.crn.anchored = false → exec .tickAnnounce s = .next s) ∧
    ∀ (l : Fin 6) (epoch : Nat) (g : W64) (frame : Nat) (st : W64), linkActive s l = true → carries s l 0 = true →
      crnLive s = true → isLode s = false → uplink s = l →
      (gridOver s g.toNat = true → (∃ t, exec (.tick l epoch g frame st) s = .next t ∧ t.crn = s.crn ∧ t.regs = s.regs) ∧
        ∃ t, exec (.hold l epoch g frame) s = .next t ∧ t.crn = s.crn ∧ t.regs = s.regs) ∧
      (gridOver s g.toNat = false → (s.su ≠ .timelock ∨ lockSt s = 2) →
      (s.crn.tick = none → ∃ t, exec (.tick l epoch g frame st) s = .next t ∧
        t.crn.tick = some (frame % 2 ^ 48, g.toNat, epoch % 65536, st.toNat) ∧ gridNext t = g.toNat ∧
        t.crn.anchored = true ∧ t.crn.heard = true ∧ t.crn.missed = 0 ∧ frameNo t = frameNo s ∧
        epochNo t = epochNo s) ∧
      (∃ t, exec (.hold l epoch g frame) s = .next t ∧ t.crn.tick = s.crn.tick ∧ gridNext t = g.toNat ∧
        t.crn.anchored = true ∧ t.crn.heard = true ∧ t.crn.missed = 0 ∧ frameNo t = frameNo s))

/-- At the tick clock the frame number and the epoch become those of the announced tick and the grid moves on by one
period and the time step. The tick, the token and the count of missed grid points are gone, the time step is added
to time, a step accepted since the announcement waits for the next tick, TIMELOCK ends in READY and READY in RUN.
Where TICK_OUT is not clamped it rises at the grid point. The new frame has the budget of the effective cap and
nothing drawn. From frame 2^48 − 1 to 0 the block sets PX_CRN_STAT.WRAP and raises ATN_NOTE. A fatal block opens the
frame and does nothing else with it: only the frame's registers, WRAP's notice and the TIME group move. In RUN (no
wait, no CALIBRATE to abort): an overrun is counted with the closed frame in LASTOVR; its commands that are not
complete meet FRAME_OVERRUN under CONTINUE, as do under ABANDON those that are no tiles and those of whose N tiles
none is without a committed row; other N tiles are discarded, what they held is gone and they enter again, with
OK_REPLAYED. A SEM_WAIT with a timeout counts the tick, and the last one ends it with its timeout status. A vein
with nothing in flight switches to the microcode slot it requests where that is good. In an idle block the head
group of one vein is admitted by the tests of energy, share, time and reserve of R266, or as OVERSIZE where no frame
could hold it, else deferred and counted; while a starved group stays deferred no other group of its priority or
below that is not starved is admitted. Without an announced tick nothing happens. (No reload waits for a frame.) It
rests on readings of the model's own, log entries 40, 80, 91, 147, 158. (R161, R231, R239, R240, R243, R251, R253,
R254, R266, R267, R268, R384) -/
def Obligations.TickFireOpensFrame : Prop :=
  ∀ (s : State) (d f g e st : Nat), s.crn.tick = some (f, g, e, st) → s.slt.rldAt = none → f < 2 ^ 48 → e < 2 ^ 16 →
    (crnLive s = true → ∃ t, exec (.tickFire d) s = .next t ∧ frameNo t = f ∧ epochNo t = e ∧ t.crn.tick = none ∧
      t.crn.token = none ∧ t.crn.missed = 0 ∧ t.crn.step = s.crn.step ∧
      gridNext t = (gridNext s + periodTs s + st) % 2 ^ 64 ∧
      (t.crn.time : Int) = (s.crn.time + toSigned 64 st * 2 ^ 32) % 2 ^ 96 ∧
      t.su = (match s.su with | .timelock => .ready | .ready => .run | x => x) ∧
      (portLive s 13 = true → ∃ os, t.out = s.out ++ .tickOut g :: os) ∧
      (f = 0 → frameNo s = 2 ^ 48 - 1 →
        flag t Reg.crnStat Fl.crnStat_WRAP = true ∧ flag t Reg.errAtn Fl.errAtn_NOTE = true) ∧
      (s.su ≠ .fatal → t.trm.drawn = 0 ∧ t.trm.overspent = false ∧
        t.trm.budget = effCap t * fld t Reg.crnPeriod Fl.crnPeriod_NS / 8) ∧
      -- a fatal block
      (s.su = .fatal → { t with regs := s.regs, crn := s.crn, out := s.out } = s ∧
        ∀ a, a ∉ [Reg.crnFrame, Reg.crnState, Reg.crnAnchor, Reg.crnGrid, Reg.crnStat, Reg.errAtn, Reg.errSummary] →
          rd t a = rd s a) ∧
      (s.su = .run → (∀ v < 16, (vein s v).wait = none) → tMax s < 4 * throt s →
        -- the overrun
        (frameIdle s = false → flag t Reg.crnStat Fl.crnStat_OVR = true ∧
          fld t Reg.crnStat Fl.crnStat_LASTOVR = frameNo s ∧
          fld t Reg.crnCnt Fl.crnCnt_OVERRUNS = (fld s Reg.crnCnt Fl.crnCnt_OVERRUNS + 1) % 2 ^ 16 ∧
          ∀ v < 16, ∀ j ∈ (vein s v).jobs, j.done = false → j.inFrame = true →
            let lost (x : NtSt) : Bool := discards j (tileOf j.words) x.nt
            (policy s ≠ 1 ∨ leftOut s = true ∨ (j.op ≠ 1 ∧ j.op ≠ 2) →
              { j with conds := if j.conds.contains St.frameOverrun then j.conds else j.conds ++ [St.frameOverrun] } ∈
                (vein t v).jobs) ∧
            (policy s = 1 → leftOut s = false → j.op = 1 ∨ j.op = 2 → j.fin = false → j.nts ≠ [] → j.corr = false →
              (∀ x ∈ j.nts, x.corr = false) →
              ((∀ x ∈ j.nts, lost x = false) → ∃ k ∈ (vein t v).jobs, k.seq = j.seq ∧ k.nts = j.nts ∧
                St.frameOverrun ∈ k.conds) ∧
              ((∃ x ∈ j.nts, lost x = true) → ∃ k ∈ (vein t v).jobs, k.seq = j.seq ∧ St.okReplayed ∈ k.conds ∧
                k.pass = 0 ∧ k.sub = 0 ∧ discards j (tileOf j.words) k.nt = true ∧
                (∀ x ∈ j.nts, lost x = false → x ∈ k.nts) ∧
                ∀ x ∈ k.nts, lost x = true → x.checked = [] ∧ x.drained = [] ∧ x.voided = [] ∧ x.failed = [] ∧
                  x.tiles = [] ∧ x.spill = none))) ∧
        -- the slots
        (∀ v < 16, (vein s v).jobs.all (·.done) = true →
          let r := bit (fld s Reg.vnUcode Fl.vnUcode_REQ) v
          bit (fld t Reg.vnUcode Fl.vnUcode_INUSE) v =
            if slotGood s (b2n r) then r else bit (fld s Reg.vnUcode Fl.vnUcode_INUSE) v) ∧
        -- the starved group
        (∀ v < 16, ∀ w < 16, v ≠ w → standsBack s w = true → starved s w = true →
          (∀ x, headGroup s v = some x → x.deferred < fld s Reg.trmCtrl Fl.trmCtrl_STARVE) → prio s v ≤ prio s w → presented s v = true → isFiller s (vTenant s v) = false →
          workEsts (groupEsts t v) ≠ [] → (∀ x, headGroup t w = some x → x.admitted = false) →
          ∀ x, headGroup t v = some x → x.admitted = false) ∧
        -- admission of one group
        (∀ v < 16, ∀ a, fld s Reg.errEvstat Fl.errEvstat_STATE = 0 → (∀ w < 16, (vein s w).jobs = []) →
          (∀ w < 16, w ≠ v → (vein s w).groups = []) → (vein s v).groups = [a] → presented s v = true →
          isFiller s (vTenant s v) = false → workEsts (groupEsts t v) ≠ [] →
          let en := sumE (groupEsts t v)
          let τ := sumT (groupEsts t v)
          let h := t.trm.horizon
          let b := t.trm.budget
          let share := min 64 (fld s (Reg.trmTen (vTenant s v)) Fl.trmTen_SHARE)
          ∃ x, headGroup t v = some x ∧ (x.admitted = true → x.frame = f) ∧
            (x.admitted = false → x.deferred = a.deferred + if eligible t (vTenant s v) then 1 else 0) ∧
            (eligible t (vTenant s v) = false → x.admitted = false) ∧
            (eligible t (vTenant s v) = true →
              (h < τ ∨ b < en → x.admitted = true ∧ t.trm.oversize = true ∧
                flag t Reg.trmStat Fl.trmStat_OVERSIZE = true) ∧
              (τ ≤ h → en ≤ b → (x.admitted = true ↔ 64 * en ≤ share * b ∧ 2 + τ ≤ h ∧
                (en : Int) ≤ b - idleEnergy t (h - (2 + τ))))))) ∧
      -- a SEM_WAIT with a timeout
      (s.su = .run → ∀ v < 16, ∀ k c n w o, (vein s v).wait = some (.sem k c n w o) → n ≠ 0 →
        (∀ u < 16, u ≠ v → (vein s u).wait = none) →
        (w + 1 < n → (vein t v).wait = some (.sem k c n (w + 1) o)) ∧ (n ≤ w + 1 → (vein t v).wait = none))) ∧
    (crnLive s = false → exec (.tickFire d) s = .next s) ∧
    (∀ u : State, u.crn.tick = none → exec (.tickFire d) u = .next u)

/-- At a slipped grid point the grid moves on, the budget grows by that of one more period, and the frame stays
open; before the first frame only the grid moves on. A follower that heard nothing for a grid point counts it as
missed; successor i becomes Lodestone at 3i in a row, keeping its time and frame, and counts the takeover. A
TAKEOVER of a lower Lodestone, or of any while grid points are missed, is adopted and counted; a former Lodestone is
FREE then, any other block keeps its lock state. With no grid point missed two Lodestones meet: in an open frame the
losing side sets SPLIT, raises ATN_ERR and joins at its next tick. One of the block's own Lodestone with a later
epoch brings that epoch to a follower; else it only leaves the receive buffer. It rests on readings of the model's
own, log entry 55. (R161, R232, R245, R246, R254) -/
def Obligations.SlipsMissesAndTakeovers : Prop :=
  ∀ (s : State),
    (s.crn.anchored = true → s.crn.opened = true → s.crn.heard = true → s.crn.tick = none → policy s = 0 →
      ∃ t, exec .gridSlip s = .next t ∧ gridNext t = (gridNext s + periodTs s) % 2 ^ 64 ∧ frameNo t = frameNo s ∧
        t.crn.opened = true ∧ t.crn.heard = false ∧ t.crn.decided = false ∧
        t.trm.budget = s.trm.budget + effCap s * fld s Reg.crnPeriod Fl.crnPeriod_NS / 8 ∧
        fld t Reg.crnCnt Fl.crnCnt_SLIPS =
          (fld s Reg.crnCnt Fl.crnCnt_SLIPS + if isLode s then 0 else 1) % 2 ^ 16) ∧
    (s.crn.anchored = true → s.crn.opened = false → s.crn.heard = true → s.crn.tick = none → policy s = 0 →
      exec .gridSlip s = .next (passGrid s)) ∧
    (s.crn.heard = false ∨ policy s ≠ 0 → exec .gridSlip s = .next s) ∧
    (crnLive s = true → s.crn.anchored = true → s.crn.heard = false → s.crn.tick = none →
      (isLode s = true → exec .gridMiss s = .next (passGrid s)) ∧
      (isLode s = false → let i := successorNo s
        ∃ t, exec .gridMiss s = .next t ∧ gridNext t = (gridNext s + periodTs s) % 2 ^ 64 ∧
        t.crn.time = s.crn.time ∧ frameNo t = frameNo s ∧ epochNo t = epochNo s ∧
        (i = 0 ∨ s.crn.missed + 1 < 3 * i → isLode t = false ∧ t.crn.missed = s.crn.missed + 1) ∧
        (i ≠ 0 → 3 * i ≤ s.crn.missed + 1 → s.su ≠ .fatal → isLode t = true ∧ lode t = stratum s ∧ lockSt t = 2 ∧
          t.crn.missed = 0 ∧
          fld t Reg.crnCnt Fl.crnCnt_TAKEOVERS = (fld s Reg.crnCnt Fl.crnCnt_TAKEOVERS + 1) % 2 ^ 16))) ∧
    (s.crn.heard = true → exec .gridMiss s = .next s) ∧
    ∀ (l : Fin 6) (src m epoch frame : Nat), linkActive s l = true → carries s l 0 = true → crnLive s = true →
      (m % 1024 ≠ lode s → (m % 1024 < lode s ∨ 0 < s.crn.missed) →
        ∃ t, exec (.takeover l src m epoch frame) s = .next t ∧ lode t = m % 1024 ∧ isLode t = false ∧
          t.crn.missed = 0 ∧ t.crn.time = s.crn.time ∧ epochNo t = epochNo s ∧ frameNo t = frameNo s ∧
          lockSt t = (if isLode s then 0 else lockSt s) ∧
          (s.crn.missed = 0 → t.crn.tick = none) ∧
          (s.crn.missed = 0 → s.crn.opened = true → t.crn.splitAt = true ∧ t.crn.splitStep = true ∧
            flag t Reg.crnStat Fl.crnStat_SPLIT = true ∧ flag t Reg.errAtn Fl.errAtn_ERR = true) ∧
          fld t Reg.crnCnt Fl.crnCnt_TAKEOVERS = (fld s Reg.crnCnt Fl.crnCnt_TAKEOVERS + 1) % 2 ^ 16) ∧
      (m % 1024 = lode s → (isLode s = true ∨ serialCmp epoch (epochNo s) 16 ≠ 2) →
        exec (.takeover l src m epoch frame) s = .next (drainMsg s l.val 0 (msgType 6))) ∧
      (m % 1024 = lode s → isLode s = false → serialCmp epoch (epochNo s) 16 = 2 →
        ∃ t, exec (.takeover l src m epoch frame) s = .next t ∧ epochNo t = epoch % 2 ^ 16 ∧ t.crn = s.crn ∧
          ∀ a, a ≠ Reg.crnState → rd t a = rd s a)

/-- Once no work of the open frame is left and every child's token is in, the block's own token leaves once, to the
parent unless the block is the Lodestone, with the blocks it covers, and nothing else changes (a tripped block sends
none). A child's token of the open frame is kept and ends its exclusion; one of a later frame waits for that frame;
one of an earlier frame changes neither account; where this block's own token of that frame still waits for its
children's, it counts towards it, and the last of them lets it leave (no injector armed). A child without its token
for TOKTO grid points is excluded: PX_CRN_STAT.EXCL, a record of severity FRAME, ATN_ERR; with TOKTO 0 none is. It
rests on readings of the model's own, log entries 54, 135. (R16, R241, R242, R243) -/
def Obligations.TokensCloseFrames : Prop :=
  ∀ (s : State),
    ((s.su = .run ∨ s.su = .ready) → s.crn.opened = true → s.crn.token = none → frameIdle s = true → kidsIn s = true →
      ∃ t, exec .frameDoneToken s = .next t ∧ t.crn.token = some (tokenOver s s.crn.tokens false) ∧
        { t with links := s.links, crn := s.crn } = s ∧ { t.crn with token := none } = s.crn ∧
        (isLode s = true ∨ s.trm.tripped = true → t.links = s.links) ∧
        (isLode s = false → s.trm.tripped = false → uplink s < 6 → link t (uplink s) = link (sendTokenMsg s (uplink s) (frameNo s)
          (tokenOver s s.crn.tokens false).2.2 (tokenOver s s.crn.tokens false).1
          (if (tokenOver s s.crn.tokens false).1 then (tokenOver s s.crn.tokens false).2.1 else 0)) (uplink s))) ∧
    (s.crn.opened = false ∨ s.crn.token ≠ none ∨ frameIdle s = false ∨ kidsIn s = false →
      exec .frameDoneToken s = .next s) ∧
    (∀ (l : Fin 6) (src frame blocks : Nat) (late : Bool) (lowest : Nat), injOff s → linkActive s l = true →
      carries s l 0 = true → crnLive s = true → uplink s ≠ l →
      ∃ t, exec (.token l src frame blocks late lowest) s = .next t ∧ l.val ∈ t.crn.kids ∧
        (frame % 2 ^ 48 = frameNo s → t.crn.tokens.find? (fun x => x.1 == l.val) =
          some (l.val, blocks % 2048, late, lowest % 1024) ∧ l.val ∉ t.crn.excluded) ∧
        (serialCmp (frame % 2 ^ 48) (frameNo s) 48 = 2 → t.crn.tokens = s.crn.tokens ∧
          t.crn.early.find? (fun x => x.1 == l.val) = some (l.val, frame % 2 ^ 48, blocks % 2048, late, lowest % 1024)) ∧
        (serialCmp (frame % 2 ^ 48) (frameNo s) 48 = 1 →
          t.crn.tokens = s.crn.tokens ∧ t.crn.early = s.crn.early ∧
          ∀ c, s.crn.closing = some c → c.frame = frame % 2 ^ 48 →
            let got := tabSet c.got l.val (blocks % 2048, late, lowest % 1024)
            t.crn.closing = if (t.crn.kids.filter (fun k => !s.crn.excluded.contains k)).all
              (fun k => got.any (fun x => x.1 == k)) then none else some { c with got := got }) ∧
        (late = true → isLode s = true → fld t Reg.crnLate Fl.crnLate_FRAME = frame % 2 ^ 48 ∧
          fld t Reg.crnLate Fl.crnLate_STRAT = lowest % 1024)) ∧
    ∀ (l : Fin 6), let n := fld s Reg.crnCtrl Fl.crnCtrl_TOKTO
      (crnLive s = true → n ≠ 0 → l.val ∈ liveKids s → (∀ x ∈ s.crn.tokens, x.1 ≠ l.val) →
        n ≤ mapGet 0 s.crn.overdue l → ∃ t, exec (.tokenTimeout l) s = .next t ∧ l.val ∈ t.crn.excluded ∧
          flag t Reg.crnStat Fl.crnStat_EXCL = true ∧ flag t Reg.errAtn Fl.errAtn_ERR = true ∧
          fld t Reg.errCnt Fl.errCnt_FRAME = (fld s Reg.errCnt Fl.errCnt_FRAME + 1) % 2 ^ Fl.errCnt_FRAME.width) ∧
      (n = 0 → exec (.tokenTimeout l) s = .next s)

/-- In TIMELOCK a child's READY is kept with the blocks it covers. When it is the last one at the Lodestone and
TICKIN_EN is 0, ANCHOR is the first whole microsecond at least LEAD + 1 µs away. A child not READY in time is
excluded with PX_CRN_STAT.EXCL. With TICKIN_EN, the first TICK_IN after the last READY fixes ANCHOR one period after
it; later edges, and edges at followers, change nothing. It rests on readings of the model's own, log entry 56.
(R237, R247, R248) -/
def Obligations.ReadyFixesAnchor : Prop :=
  ∀ (s : State),
    (∀ (l : Fin 6) (blocks : Nat), linkActive s l = true → carries s l 0 = true → s.su = .timelock → uplink s ≠ l →
      let s' : State := { s with crn := { s.crn with kids := insNat l s.crn.kids, readies := tabSet s.crn.readies l (blocks % 2048) } }
      ∃ t, exec (.ready l blocks) s = .next t ∧ l.val ∈ t.crn.kids ∧ t.su = .timelock ∧
        t.crn.readies = tabSet s.crn.readies l (blocks % 2048) ∧
        (isLode s = true → s.crn.anchored = false → flag s Reg.crnCtrl Fl.crnCtrl_TICKIN_EN = false → allReady s' = true →
          let a := cdiv (tstamp s + leadTs s + 16000) 16000 * 16000
          t.crn.anchored = true ∧ fld t Reg.crnAnchor Fl.crnAnchor_ANCHOR = a % 2 ^ 64 ∧ gridNext t = a % 2 ^ 64) ∧
        (isLode s = true → allReady s' = false → t.crn.anchored = s.crn.anchored)) ∧
    (∀ (l : Fin 6), s.su = .timelock → ∃ t, exec (.readyTimeout l) s = .next t ∧ t.crn.readyLate = true ∧
      (l.val ∈ liveKids s → (∀ r ∈ s.crn.readies, r.1 ≠ l.val) → l.val ∈ t.crn.excluded ∧
        flag t Reg.crnStat Fl.crnStat_EXCL = true ∧ flag t Reg.errAtn Fl.errAtn_ERR = true)) ∧
    (∀ (l : Fin 6), s.su ≠ .timelock → exec (.readyTimeout l) s = .next s) ∧
    (isLode s = true → s.su = .timelock → flag s Reg.crnCtrl Fl.crnCtrl_TICKIN_EN = true → s.crn.anchored = false →
      allReady s = true → let a := (tstamp s + periodTs s) % 2 ^ 64
      ∃ t, exec .tickIn s = .next t ∧ t.crn.anchored = true ∧ fld t Reg.crnAnchor Fl.crnAnchor_ANCHOR = a ∧
        gridNext t = a ∧ (∀ x, x ≠ Reg.crnAnchor → x ≠ Reg.crnGrid → rd t x = rd s x) ∧
        { t with regs := s.regs, crn := s.crn } = s) ∧
    (isLode s = false ∨ s.crn.anchored = true ∨ s.su ≠ .timelock → exec .tickIn s = .next s)

/-- With DISC_EN the Lodestone captures each DISC_PPS edge. After a second of exactly 16·10^9 units the rate stays;
one that would need more than 100 ppm is clamped there, with DISCLIM and ATN_NOTE. A lost edge holds the rate, with
PPSLOST and ATN_NOTE; other blocks ignore both. TIME_REQ captures the timestamp unless TIME_ACK is high; the capture
reaches PX_CRN_CAP and, where the TIME group is not clamped, TIME_ACK rises and TS_OUT shows the capture (seen at
the pins unless a wrapper instruction governs them; in SAFE PX_CRN_CAP stays); with TIME_REQ TIME_ACK falls and
TS_OUT is live again, and a capture not yet done is dropped. A write of PX_CRN_STEPTO at the Lodestone is kept for
the next tick; at a follower, or while one waits or its announced tick has not fired, it changes nothing. It rests
on readings of the model's own, log entries 23, 156. (R250, R251, R329, R415) -/
def Obligations.DisciplineCaptureAndStep : Prop :=
  ∀ (s : State),
    let on : Prop := isLode s = true ∧ crnLive s = true ∧ flag s Reg.crnCtrl Fl.crnCtrl_DISC_EN = true
    let c (x : CairnSt) : State := { s with crn := x }
    let cur := sfld s Reg.crnDisc Fl.crnDisc_PPB
    (on → s.crn.pps = none → exec .discPps s = .next (c { s.crn with pps := some (tstamp s) })) ∧
    (∀ p, on → s.crn.pps = some p → let want := cur - (tsDiff (tstamp s) p - 16000000000) / 16
      ∃ t, exec .discPps s = .next t ∧ t.crn.pps = some (tstamp s) ∧ t.crn.time = s.crn.time ∧
        (∀ a, a ≠ Reg.crnDisc → a ≠ Reg.crnStat → a ≠ Reg.errAtn → a ≠ Reg.errSummary → rd t a = rd s a) ∧
        (want = cur → -100000 ≤ cur → cur ≤ 100000 → sfld t Reg.crnDisc Fl.crnDisc_PPB = cur) ∧
        (100000 < want → sfld t Reg.crnDisc Fl.crnDisc_PPB = 100000) ∧
        (want < -100000 → sfld t Reg.crnDisc Fl.crnDisc_PPB = -100000) ∧
        (100000 < want ∨ want < -100000 →
          flag t Reg.crnStat Fl.crnStat_DISCLIM = true ∧ flag t Reg.errAtn Fl.errAtn_NOTE = true)) ∧
    (on → ∃ t, exec .ppsLost s = .next t ∧ t.crn = { s.crn with pps := none } ∧
      flag t Reg.crnStat Fl.crnStat_PPSLOST = true ∧ flag t Reg.errAtn Fl.errAtn_NOTE = true ∧
      rd t Reg.crnDisc = rd s Reg.crnDisc) ∧
    (¬ on → exec .discPps s = .next s ∧ exec .ppsLost s = .next s) ∧
    (s.crn.ack = false → exec .timeReq s = .next (c { s.crn with capture := some (tstamp s) })) ∧
    (s.crn.ack = true → exec .timeReq s = .next s) ∧
    (∀ x, x < 2 ^ 64 → s.crn.capture = some x → ∃ t, exec .exactCaptureDone s = .next t ∧
      fld t Reg.crnCap Fl.crnCap_CAP = (if s.su = .safe then fld s Reg.crnCap Fl.crnCap_CAP else x) ∧ t.crn = { s.crn with capture := none, ack := timeUnclamped s, tsOut := if timeUnclamped s then x else s.crn.tsOut } ∧
      (∀ a, a ≠ Reg.crnCap → rd t a = rd s a) ∧
      t.out = if portLive s 13 then s.out ++ [.timeAck true] else s.out) ∧
    (s.crn.capture = none → exec .exactCaptureDone s = .next s) ∧
    (∃ t, exec .timeReqFall s = .next t ∧ t.crn = { s.crn with capture := none, ack := false, tsOut := if s.crn.ack then tstamp s else s.crn.tsOut } ∧
      t.out = (if s.crn.ack && portLive s 13 then s.out ++ [.timeAck false] else s.out) ∧ { t with crn := s.crn, out := s.out } = s) ∧
    ∀ (v : W64), PortOpen s Reg.crnStepto →
      (isLode s = true → crnLive s = true → s.crn.step = 0 → (∀ x, s.crn.tick = some x → x.2.2.2 = 0) →
        exec (.timeStep v) s = .next (c { s.crn with step := v.toNat })) ∧
      (isLode s = false ∨ s.crn.step ≠ 0 ∨ (∃ x, s.crn.tick = some x ∧ x.2.2.2 ≠ 0) → exec (.timeStep v) s = .next s)

/-- Each of the three commands answers a next state. STREAM_ENGINE_TRANSFER of a stream that does not run, or where
the Deep and link groups are clamped, sends nothing. A running IN_DEEP stream (no PRED mask in use, nothing in its
turn unit) sends read requests on the ports it may use, none above the port's burst, for just the bytes by which its
asked position advances, each with the outside address of its first byte, its length less one and, turned, the
element size; it sends at least one where it has room and its ports have free tags, and no register or byte of Mica
changes. Weight rows that were passed over and that a correction pass needs are asked for again at their own
addresses, first. A running OUT_DEEP stream writes the bytes that its buffer or its turn unit holds next, in order,
at the outside addresses of their places, at least one burst where closed bytes are due and its ports have free
tags, and counts them in BYTES. A running OUT_LINK stream to a target block sends them as WRITE messages on the link
of the route, each within the link's largest payload, and notes them until they are answered; it holds its message
while no link serves yet, and halts with LINK_DOWN when none can (no poison, no injector armed, no wrapper
instruction over the outputs). DEEP_READ_RESPONSE with the data of a request puts each byte at its place, counts
them, frees the request, and leaves every other byte of Mica alone but the error ring (no turn unit holds anything).
DEEP_WRITE_RESPONSE frees its request and changes no byte of Mica but the error ring. An error halts the stream with
ENDPOINT_ERROR; a response that no stream waits for only frees its tag. (No ELEMWISE in flight.) It rests on
readings of the model's own, log entries 2, 41, 42, 109, 120, 126. (R132, R145, R148, R149, R150, R154, R292, R294,
R413, R414, R415) -/
def Obligations.DeepPortsMoveStreams : Prop :=
  ∀ (s : State),
    (∀ (i : Fin 64),
      let d := desc s i
      let x := strm s i
      let tu := d.turn && direct s i
      let ask (r : Req) : Out := .deepRead r.port r.tag (outAddr s i r.pos tu) (r.len - 1) tu (if tu then d.esz else 0)
      let ports : Prop := deepPorts s d ≠ [] ∧ ∀ p ∈ deepPorts s d, freeTag s p ≠ none
      let onPorts (rs : List Req) : Prop := ∀ r ∈ rs, r.port ∈ deepPorts s d ∧ 0 < r.len ∧ r.len ≤ portBurst s r.port
      let inOrder (rs : List Req) : Prop := ∀ k r, rs[k]? = some r → r.pos = x.asked + ((rs.take k).map (·.len)).sum
      (pxRuns s = false → exec (.streamEngineTransfer i) s = .next s) ∧
      (skipDue s i = none → sState s i ≠ Ss.running → exec (.streamEngineTransfer i) s = .next s) ∧
      (∀ q len, skipDue s i = some (q, len) → pxRuns s = true → wrapGoverns s = false → streamLive s i = true → ports →
        seqAt x q ≠ none → 0 < seqEndPos x → (∀ k ∈ x.skip, 0 < k.2) →
        ∃ t rs, exec (.streamEngineTransfer i) s = .next t ∧ t.out = s.out ++ rs.map ask ∧ onPorts rs ∧
          (∃ r, rs.head? = some r ∧ r.pos = askedPos s i q) ∧ (strm t i).outst = x.outst ++ rs ∧
          (strm t i).asked = x.asked ∧ { t with streams := s.streams, out := s.out } = s) ∧
      (skipDue s i = none → sState s i = Ss.running → d.kind = 0 → maskUsed s i = false → x.turn = [] →
        pxRuns s = true → wrapGoverns s = false →
        ∃ t rs, exec (.streamEngineTransfer i) s = .next t ∧ t.out = s.out ++ rs.map ask ∧ onPorts rs ∧ inOrder rs ∧
          (strm t i).outst = x.outst ++ rs ∧ (strm t i).asked = x.asked + (rs.map (·.len)).sum ∧
          (x.asked < roomEnd (extend (turnFill s i) i) i → ports → rs ≠ []) ∧
          (∀ j, j ≠ i.val → strm t j = strm s j) ∧ { t with streams := s.streams, out := s.out } = s) ∧
      (skipDue s i = none → sState s i = Ss.running → injOff s → s.poison = [] → (∀ b ∈ x.turn, b.2.2 = false) →
        pxRuns s = true → wrapGoverns s = false →
        let u := extend (turnFill s i) i
        let due : Prop := x.asked < closedEnd u i ∧ curSeq x ≠ none
        (d.kind = 2 → ∃ t rs, exec (.streamEngineTransfer i) s = .next t ∧
          t.out = s.out ++ rs.map (fun r => .deepWrite r.port r.tag (outAddr s i r.pos false) (outAt u i r.pos r.len)) ∧
          onPorts rs ∧ inOrder rs ∧ (strm t i).outst = x.outst ++ rs ∧
          (strm t i).asked = x.asked + (rs.map (·.len)).sum ∧ (due → ports → rs ≠ []) ∧
          fld t (Reg.stmDescW7 i) Fl.stmDescW7_BYTES =
            (fld s (Reg.stmDescW7 i) Fl.stmDescW7_BYTES + (rs.map (·.len)).sum) % 2 ^ 48 ∧
          ∀ a, a ≠ Reg.stmDescW7 i → rd t a = rd s a) ∧
        (d.kind = 3 → d.mc = false → d.xstratum ≠ stratum s → heldBack s i = false → due →
          let hdr (r : Req) : RoutedHdr := ⟨d.xstratum, stratum s, sTenant s i, outAddr s i r.pos false, r.len - 1⟩
          let msg (r : Req) : Routed := ⟨4, hdr r, outAt u i r.pos r.len, none, none, some i.val⟩
          (∀ l, nextLink s d.xstratum 2 none = .via l →
            ∃ t rs, exec (.streamEngineTransfer i) s = .next t ∧ rs ≠ [] ∧ inOrder rs ∧
              (∀ r ∈ rs, r.port = l ∧ 0 < r.len ∧ outAddr s i r.pos false % 64 + r.len ≤ maxPayload s l) ∧
              t.writes = s.writes ++ rs.map (fun r => ⟨i, d.xstratum, sTenant s i, outAddr s i r.pos false, r.pos, r.len, l⟩) ∧
              link t l = link (rs.foldl (fun q r => sendRouted q l (msg r)) s) l ∧
              (strm t i).outst = x.outst ++ rs ∧ (strm t i).asked = x.asked + (rs.map (·.len)).sum) ∧
          (nextLink s d.xstratum 2 none = .wait → ∃ t r, exec (.streamEngineTransfer i) s = .next t ∧
            r.pos = x.asked ∧ 0 < r.len ∧ t.transit = s.transit ++ [msg r] ∧ (strm t i).outst = x.outst ++ [r]) ∧
          (nextLink s d.xstratum 2 none = .fail → ∃ t, exec (.streamEngineTransfer i) s = .next t ∧
            sState t i = Ss.halted ∧ fld t (Reg.stmDescW7 i) Fl.stmDescW7_LASTSTAT = St.linkDown)))) ∧
    (∀ (p : Fin 4) (tag i : Nat) (r : Req) (bytes : List Byte) (lines : List Nat), tagOwner s p tag false = some (i, r) →
      i < 64 → injOff s → (∀ x ∈ allJobs s, x.2.op ≠ 4) →
      (bytes.length = r.len → direct s i = true → (∀ j, (strm s j).turn = []) → (portPoison s p = false ∨ lines = []) →
        (∀ k k', k < r.len → k' < r.len → posAddr s i (r.pos + k) = posAddr s i (r.pos + k') → k = k') →
        ∃ t, exec (.deepReadResponse p tag (.data bytes lines)) s = .next t ∧ r ∉ (strm t i).outst ∧
          (∀ k < r.len, ∀ a, posAddr s i (r.pos + k) = some a → ringByte s a = false →
            micaByte t a = bytes.getD k 0) ∧
          (∀ a, (∀ k < r.len, posAddr s i (r.pos + k) ≠ some a) → ringByte s a = false → micaByte t a = micaByte s a) ∧
          fld t (Reg.stmDescW7 i) Fl.stmDescW7_BYTES = (fld s (Reg.stmDescW7 i) Fl.stmDescW7_BYTES + r.len) % 2 ^ 48) ∧
      (∃ t, exec (.deepReadResponse p tag .error) s = .next t ∧ sState t i = Ss.halted ∧ (strm t i).outst = [] ∧
        fld t (Reg.stmDescW7 i) Fl.stmDescW7_LASTSTAT = St.endpointError ∧
        flag t Reg.errAtn Fl.errAtn_ERR = true)) ∧
    (∀ (p : Fin 4) (tag i : Nat) (r : Req), tagOwner s p tag true = some (i, r) →
      i < 64 → injOff s → (∀ x ∈ allJobs s, x.2.op ≠ 4) → (∀ x ∈ s.evacReqs, x ≠ (p.val, tag)) →
      ((∀ j, (strm s j).turn = []) → ∃ t, exec (.deepWriteResponse p tag false) s = .next t ∧ r ∉ (strm t i).outst ∧
        ∀ a, ringByte s a = false → micaByte t a = micaByte s a) ∧
      (∃ t, exec (.deepWriteResponse p tag true) s = .next t ∧ sState t i = Ss.halted ∧
        fld t (Reg.stmDescW7 i) Fl.stmDescW7_LASTSTAT = St.endpointError)) ∧
    ∀ (p : Fin 4) (tag : Nat) (rsp : DeepRead) (err : Bool),
      let u : State := { s with lostTags := s.lostTags.filter (fun x => !(x.1 == p.val && x.2 == tag)) }
      (tagOwner s p tag false = none → exec (.deepReadResponse p tag rsp) s = .next u) ∧
      (tagOwner s p tag true = none → (∀ x ∈ s.evacReqs, x ≠ (p.val, tag)) →
        exec (.deepWriteResponse p tag err) s = .next u)

/-- Parcels are numbered modulo 2^24 and compare by serial order. A root whose parcel every forwarding link has
credited sends the next bytes of its stream on each of them (no poison in Mica or the turn unit, no injector armed),
and without credit sends nothing. A member that may return more credit for the sequence than it has returns it on
its uplink, and nothing else changes. A root without credit for MCTO ticks sets STALLED, records BLOCKER and raises
ATN_NOTE, and drops nothing. A member forwards data of its uplink unchanged on each forwarding link, and if it
consumes them and its running stream has room, each byte is placed once and in order (no ELEMWISE in flight, nothing
in any turn unit); data on any other link only leave the receive buffer. Credit from a forwarding link is kept and
clears STALLED. It rests on readings of the model's own, log entries 47, 48, 127, 134. (R9, R155, R156, R157, R158,
R292) -/
def Obligations.MulticastMovesParcelsOnCredit : Prop :=
  ∀ (s : State) (g : Fin 64),
    let x := mcg s g
    let credited (l c : Nat) : Prop := x.creds.find? (fun c => c.1 == l) = some (l, x.sq, c) ∧ serialCmp x.parcel c 24 = 1
    (∀ i, mcRoot s g = true → x.stream = none → mcStream s g true = some i → injOff s → s.poison = [] →
      (∀ b ∈ (strm s i).turn, b.2.2 = false) →
      (∀ l ∈ mcDown s g, linkActive s l = true ∧ carries s l 3 = true ∧ ∃ c, credited l c) → x.parcel < 2 ^ 24 →
      let p := mcFrom s i
      let e := seqEndPos (strm s i)
      let m := min (min (mcReady s i) e - p) (4096 - x.fill)
      let n := if p + m < e then m / 64 * 64 else m
      let h : McHdr := ⟨g, stratum s, x.parcel, x.fill / 64, decide (p + n ≥ e), x.sq⟩
      (n = 0 → exec (.mcParcelSend g) s = .next s) ∧
      (n ≠ 0 → ∃ t, exec (.mcParcelSend g) s = .next t ∧ mcFrom t i = p + n ∧
        (∀ l ∈ mcDown s g, link t l =
          link (mcOnLink s l h (if (desc s i).isOutbound then outAt s i p n else (readRange s i p n).1)) l) ∧
        (p + n < e → (mcg t g).sq = x.sq ∧ (mcg t g).parcel = (x.parcel + (x.fill + n) / 4096) % 2 ^ 24 ∧
          (mcg t g).fill = (x.fill + n) % 4096) ∧
        (e ≤ p + n → (mcg t g).sq = (x.sq + 1) % 16 ∧ (mcg t g).parcel = 0 ∧ (mcg t g).fill = 0))) ∧
    (∀ l ∈ mcDown s g, (∀ c, ¬ credited l c) → exec (.mcParcelSend g) s = .next s) ∧
    (let up := fld s (Reg.stmMcast g) Fl.stmMcast_UPLINK;
      mcMember s g = true → mcRoot s g = false → linkActive s up = true → carries s up 3 = true →
      let upto := (x.parcel + treeCredit s g) % 2 ^ 24
      (creditAhead x x.sentUp < treeCredit s g → exec (.mcCreditGrant g) s =
        .next (sendMccred (setMcg s g { x with sentUp := some (x.sq, upto) }) up g x.sq ((upto + 2 ^ 24 - 1) % 2 ^ 24))) ∧
      (treeCredit s g ≤ creditAhead x x.sentUp → exec (.mcCreditGrant g) s = .next s)) ∧
    (∀ b, mcStarved s g = true → fld s Reg.stmCtrl Fl.stmCtrl_MCTO ≠ 0 → fld s Reg.stmCtrl Fl.stmCtrl_MCTO ≤ x.stallTicks →
      flag s (Reg.stmMcast g) Fl.stmMcast_STALLED = false → ∃ t, exec (.mcStall g b) s = .next t ∧
        flag t (Reg.stmMcast g) Fl.stmMcast_STALLED = true ∧
        fld t (Reg.stmMcast g) Fl.stmMcast_BLOCKER = b % 2 ^ 10 ∧ flag t Reg.errAtn Fl.errAtn_NOTE = true ∧
        { t with regs := s.regs } = s) ∧
    (∀ b, mcStarved s g = false → exec (.mcStall g b) s = .next s) ∧
    (∀ (l : Fin 6) (h : McHdr) (bytes : List Byte), h.group = g → linkActive s l = true → carries s l 3 = true →
      mcMember s g = true → mcRoot s g = false →
      (fld s (Reg.stmMcast g) Fl.stmMcast_UPLINK ≠ l →
        exec (.mcdata l h bytes) s = .next (drainMsg s l.val 3 (msgType 1))) ∧
      (fld s (Reg.stmMcast g) Fl.stmMcast_UPLINK = l → (∀ y ∈ allJobs s, y.2.op ≠ 4) →
        ∃ t, exec (.mcdata l h bytes) s = .next t ∧
          (∀ d ∈ mcDown s g, link t d = link (mcOnLink (drainMsg s l.val 3 (msgType 1)) d h bytes) d) ∧
          (mcConsume s g = false → (mcg t g).queue = x.queue ∧ t.streams = s.streams ∧ t.mica = s.mica) ∧
          (∀ i, mcConsume s g = true → mcStream s g false = some i → x.queue = [] → bytes ≠ [] → direct s i = true →
            (∀ j, (strm s j).turn = []) →
            (strm s i).asked + bytes.length ≤ roomEnd (extend s i) i →
            (∀ k k', k < bytes.length → k' < bytes.length → posAddr (extend s i) i ((strm s i).asked + k) =
              posAddr (extend s i) i ((strm s i).asked + k') → k = k') →
            (strm t i).asked = (strm s i).asked + bytes.length ∧ (mcg t g).queue = [] ∧
            ∀ k < bytes.length, ∀ a, posAddr (extend s i) i ((strm s i).asked + k) = some a → ringByte s a = false →
              micaByte t a = bytes.getD k 0))) ∧
    ∀ (l : Fin 6) (sq parcel : Nat), linkActive s l = true → carries s l 3 = true → mcMember s g = true →
      (l.val ∈ mcDown s g → ∃ t, exec (.mccred l g sq parcel) s = .next t ∧
        (mcg t g).creds.find? (fun c => c.1 == l.val) = some (l.val, sq % 16, (parcel + 1) % 2 ^ 24) ∧ (mcg t g).stallTicks = 0 ∧
        flag t (Reg.stmMcast g) Fl.stmMcast_STALLED = false) ∧
      (l.val ∉ mcDown s g → exec (.mccred l g sq parcel) s = .next (drainMsg s l.val 3 (msgType 2)))

/-- A POST for this block, in the poster's range and with nobody waiting, adds its amount to the semaphore and
changes no other register; one out of range is counted in PX_SEM_REFUSED and changes no semaphore. A WRITE for this
block inside the tenant's partition stores its bytes and nothing else in Mica, and is answered with WACK; one
outside stores nothing and is answered with WNAK. A WACK takes its WRITE off the list and off its stream; a WNAK
halts the stream with STATE_ILLEGAL. A message for another block goes out on the link of its route; one that no link
can carry is dropped, counted and recorded, with LOOP where its route names the link that it came on. A message that
is delivered, forwarded or dropped leaves the receive buffer; a held one stays in it. A held message is sent when a
link serves it, stays while one may come, and fails when none can (no injector armed). It rests on readings of the
model's own, log entries 42, 49, 118, 134. (R160, R152, R154, R292, R294) -/
def Obligations.RoutedMessagesAreServed : Prop :=
  ∀ (s : State) (l : Fin 6), injOff s → linkActive s l = true →
    let in_ (kind : Nat) (h : RoutedHdr) (bs : List Byte) : Routed := ⟨kind, h, bs, some l.val, none, none⟩
    (∀ (src t k n : Nat), carries s l 1 = true → t < 4 → k < 256 → n < 65536 →
      (inSemRange s t k = true → semWaiters s k = [] → semValue s k + n ≤ 65535 →
        ∃ u, exec (.post l (stratum s) src t k n) s = .next u ∧ semValue u k = semValue s k + n ∧
          ({ u with regs := s.regs } = releaseMsg s (in_ 1 ⟨stratum s, src % 1024, t, k, n⟩ []) ∧
            ∀ a, a ≠ Reg.semVal k → rd u a = rd s a)) ∧
      (inSemRange s t k = false → ∃ u, exec (.post l (stratum s) src t k n) s = .next u ∧
        (∀ j, j < 256 → semValue u j = semValue s j) ∧
        fld u Reg.semRefused Fl.semRefused_COUNT =
          (fld s Reg.semRefused Fl.semRefused_COUNT + 1) % 2 ^ Fl.semRefused_COUNT.width)) ∧
    (∀ (dst src t k n d : Nat), carries s l 1 = true → dst < 1024 → src < 1024 → t < 4 → k < 256 → n < 65536 →
      dst ≠ stratum s →
      (nextLink s dst 1 (some l.val) = .via d → exec (.post l dst src t k n) s =
        .next (let r := in_ 1 ⟨dst, src, t, k, n⟩ []; sendRouted (releaseMsg s r) d r)) ∧
      (nextLink s dst 1 (some l.val) = .wait → exec (.post l dst src t k n) s =
        .next { s with transit := s.transit ++ [in_ 1 ⟨dst, src, t, k, n⟩ []] }) ∧
      (nextLink s dst 1 (some l.val) = .fail → ∃ u, exec (.post l dst src t k n) s = .next u ∧
        fld u Reg.xlDrop Fl.xlDrop_COUNT = (fld s Reg.xlDrop Fl.xlDrop_COUNT + 1) % 2 ^ Fl.xlDrop_COUNT.width ∧
        u.transit = s.transit ∧ flag u Reg.errAtn Fl.errAtn_ERR = true ∧
        (routesBack s dst (some l.val) = true → flag u (Reg.xlLnkStat l) Fl.xlLnkStat_LOOP = true))) ∧
    (∀ (h : RoutedHdr) (bs : List Byte) (d : Nat), h.dst = stratum s → h.tenant < 4 → bs.length = h.lenM1 + 1 →
      carries s l 2 = true → nextLink s h.src 1 none = .via d →
      (inTenant s h.tenant h.offset bs.length = true → ∃ u, exec (.write l h bs) s = .next u ∧
        (∀ k < bs.length, micaByte u (h.offset + k) = bs.getD k 0) ∧
        (∀ a, (a < h.offset ∨ h.offset + bs.length ≤ a) → micaByte u a = micaByte s a) ∧
        link u d = link (sendRouted (releaseMsg s (in_ 4 h bs)) d ⟨2, { h with dst := h.src, src := stratum s }, [], none, none, none⟩) d ∧
        { u with mica := s.mica, poison := s.poison, links := s.links } = s) ∧
      (inTenant s h.tenant h.offset bs.length = false → exec (.write l h bs) s =
        .next (sendRouted (releaseMsg s (in_ 4 h bs)) d ⟨3, { h with dst := h.src, src := stratum s }, [], none, none, none⟩))) ∧
    (∀ (h : RoutedHdr) w ws, carries s l 1 = true → h.dst = stratum s → takeWrite h s.writes = some (w, ws) →
      w.stream < 64 →
      (∃ u, exec (.wack l h) s = .next u ∧ u.writes = ws ∧ ∀ r ∈ (strm u w.stream).outst, r.pos ≠ w.pos) ∧
      (∃ u, exec (.wnak l h) s = .next u ∧ sState u w.stream = Ss.halted ∧ (strm u w.stream).outst = [] ∧
        fld u (Reg.stmDescW7 w.stream) Fl.stmDescW7_LASTSTAT = St.stateIllegal)) ∧
    (∀ (h : RoutedHdr), carries s l 1 = true → h.dst = stratum s → takeWrite h s.writes = none →
      exec (.wack l h) s = .next (releaseMsg s (in_ 2 h [])) ∧ exec (.wnak l h) s = .next (releaseMsg s (in_ 3 h []))) ∧
    ∀ (n : Nat), (s.transit[n]? = none → exec (.routedForward n) s = .next s) ∧
      ∀ r, s.transit[n]? = some r → let hop := nextLink s r.hdr.dst (routedVc r.kind) r.arrived
        (hop = .wait → exec (.routedForward n) s = .next s) ∧
        (∀ d, hop = .via d → r.vein = none → r.stream = none →
          exec (.routedForward n) s = .next (sendRouted (releaseMsg { s with transit := s.transit.eraseIdx n } r) d r)) ∧
        (hop = .fail → r.vein = none → r.stream = none → ∃ u, exec (.routedForward n) s = .next u ∧
          u.transit = s.transit.eraseIdx n ∧
          fld u Reg.xlDrop Fl.xlDrop_COUNT = (fld s Reg.xlDrop Fl.xlDrop_COUNT + 1) % 2 ^ Fl.xlDrop_COUNT.width) ∧
        (∀ i, hop = .fail → r.vein = none → r.stream = some i → i < 64 → ∃ u, exec (.routedForward n) s = .next u ∧
          sState u i = Ss.halted ∧ fld u (Reg.stmDescW7 i) Fl.stmDescW7_LASTSTAT = St.linkDown)

/-- LINK_DETECT leads DETECT to ANNOUNCE and sends the capability word, which offers only what the physical layer
has; a rise link always offers ÷4, and ÷2 wherever ÷1. A capability word leads to SELECT with the mode that R297
selects, or to DOWN with REQFAIL when it selects none. Mode words that agree in [45:24] lead to CALIBRATE, with the
mode in force and a probe sent, others back to ANNOUNCE. A timeout in DETECT leads to ABSENT; a failed pass starts
again at DETECT, and the third in a row enters DOWN and gives up what the link held. In other states these events
change nothing. A word is seen where the link's outputs are not clamped. The two sides of a link that require
nothing select modes that agree in [45:24], or both none. It rests on readings of the model's own, log entries 43,
46. (R285, R296, R297, R299, R301) -/
def Obligations.LinksTrainByStates : Prop :=
  (∀ (s : State) (l : Fin 6),
    (∀ (w d : BitVec 3),
      let u := setLink s l { link s l with phys := 8 * w.toNat + if l.val < 4 then d.toNat else riseDivs d.toNat }
      (linkState s l = Lk.detect → ∃ t, exec (.linkDetect l w d) s = .next t ∧ linkState t l = Lk.announce ∧
        link t l = link u l ∧ rd t (Reg.xlLnkCap l) = BitVec.ofNat 64 (capWord u l) ∧
        (portLive t (5 + l) = true → t.out = s.out ++ [.link l 1 [capWord u l] []])) ∧
      (linkState s l ≠ Lk.detect → exec (.linkDetect l w d) s = .next s)) ∧
    (∀ (w : W64), let r := selectMode s l (rd s (Reg.xlLnkCap l)).toNat w.toNat
      (∀ m, linkState s l = Lk.announce → r = some m → ∃ t, exec (.capabilityWord l w) s = .next t ∧
        linkState t l = Lk.select ∧ rd t (Reg.xlLnkPeer l) = w ∧ (link t l).mode = m ∧
        (link t l).resume = (if w.toNat.testBit 23 then some (bits w.toNat 16 7) else none) ∧
        (portLive t (5 + l) = true → t.out = s.out ++ [.link l 2 [m] []])) ∧
      (linkState s l = Lk.announce → r = none → ∃ t, exec (.capabilityWord l w) s = .next t ∧
        linkState t l = Lk.down ∧ flag t (Reg.xlLnkStat l) Fl.xlLnkStat_REQFAIL = true ∧
        flag t (Reg.xlLnkStat l) Fl.xlLnkStat_DOWN = true) ∧
      (linkState s l ≠ Lk.announce → exec (.capabilityWord l w) s = .next s) ∧
      (linkState s l = Lk.select → bits w.toNat 24 22 = bits (link s l).mode 24 22 →
        ∃ t, exec (.modeWord l w) s = .next t ∧ linkState t l = Lk.calibrate ∧
          rd t (Reg.xlLnkMode l) = BitVec.ofNat 64 (link s l).mode ∧ (link t l).probes = [] ∧
          t.out = s.out ++ (ctlBeat { t with out := [] } l 4 (tstamp s) 0).out) ∧
      (linkState s l = Lk.select → bits w.toNat 24 22 ≠ bits (link s l).mode 24 22 →
        ∃ t, exec (.modeWord l w) s = .next t ∧ linkState t l = Lk.announce) ∧
      (linkState s l ≠ Lk.select → exec (.modeWord l w) s = .next s)) ∧
    (let n := fld s (Reg.xlLnkState l) Fl.xlLnkState_FAILS;
      (linkState s l = Lk.detect → ∃ t, exec (.trainingTimeout l) s = .next t ∧ linkState t l = Lk.absent) ∧
      (linkState s l = Lk.announce ∨ linkState s l = Lk.select ∨ linkState s l = Lk.calibrate →
        (n < 2 → ∃ t, exec (.trainingTimeout l) s = .next t ∧ linkState t l = Lk.detect ∧ link t l = link s l ∧
          fld t (Reg.xlLnkState l) Fl.xlLnkState_FAILS = n + 1) ∧
        (2 ≤ n → ∃ t, exec (.trainingTimeout l) s = .next t ∧ linkState t l = Lk.down ∧
          flag t (Reg.xlLnkStat l) Fl.xlLnkStat_DOWN = true ∧ (link t l).unacked = [] ∧ (link t l).kept = [] ∧
          (link t l).q1 = [] ∧ (link t l).q2 = [])) ∧
      (linkState s l = Lk.active → exec (.trainingTimeout l) s = .next s))) ∧
  ∀ (s s' : State) (l l' a b : Nat), bits a 56 8 = 1 → bits b 56 8 = 1 →
    fld s (Reg.xlLnkPol l) Fl.xlLnkPol_REQ = 0 → fld s' (Reg.xlLnkPol l') Fl.xlLnkPol_REQ = 0 →
    (selectMode s l a b).map (fun m => bits m 24 22) = (selectMode s' l' b a).map (fun m => bits m 24 22)

/-- A retrain trigger of an ACTIVE link is counted and keeps its queues and unacknowledged beats: a lost physical
link leads to DETECT, a write of RETRAIN or the partner's request to ANNOUNCE. A write of RETRAIN first sends the
partner a request where a new beat may leave; on the clock on which a fence was asked for it does nothing; both are
seen where no wrapper instruction governs the outputs. RETRAIN takes an ABSENT or DOWN link to DETECT with no failed
pass; DISABLE takes any to OFF. The partner's fence is acknowledged, and answered with a fence where none was sent;
the acknowledgement of this side's makes the link FENCED once the partner has fenced too and no LINKCTL waits to
leave. A probe is answered, in CALIBRATE with the timestamp in a beat of its own; the sixteenth reply leads
CALIBRATE to ACTIVE with the mean one-way delay, and without tick carriage when the delays spread by more than 500
ps. An unknown LINKCTL is counted as a bad message. It rests on readings of the model's own, log entries 44, 45, 46,
134, 141. (R291, R293, R298, R299, R300, R302) -/
def Obligations.LinksRetrainFenceAndProbe : Prop :=
  ∀ (s : State) (l : Fin 6),
    let queues (t : State) : Prop := (link t l).q0 = (link s l).q0 ∧ (link t l).q1 = (link s l).q1 ∧
      (link t l).q2 = (link s l).q2 ∧ (link t l).q3 = (link s l).q3 ∧ (link t l).rxSeq = (link s l).rxSeq ∧
      (link t l).retrained = true ∧
      fld t (Reg.xlLnkCnt l) Fl.xlLnkCnt_RETRAINS = (fld s (Reg.xlLnkCnt l) Fl.xlLnkCnt_RETRAINS + 1) % 2 ^ 16
    let kept (t : State) : Prop := queues t ∧ (link t l).cred = (link s l).cred ∧ (link t l).unacked = (link s l).unacked
    (linkActive s l = true → ∃ t, exec (.linkLoss l) s = .next t ∧ linkState t l = Lk.detect ∧ kept t) ∧
    (linkActive s l = false → exec (.linkLoss l) s = .next s) ∧
    (linkActive s l = true → ∀ p0 p1, ∃ t, exec (.linkctl l 1 p0 p1) s = .next t ∧ linkState t l = Lk.announce ∧
      kept t) ∧
    (PortOpen s (Reg.xlLnkCmd l) → linksRun s = true →
      (linkActive s l = true → fencedNow s l = false → ∃ t, exec (.retrain l) s = .next t ∧
        linkState t l = Lk.announce ∧ queues t ∧ (link s l).unacked <+: (link t l).unacked ∧
        ((link s l).replay = [] → (link s l).unacked.length < 64 → (link s l).cred.getD 0 0 ≠ 0 →
          wrapGoverns s = false → ∃ f fs w, t.out = s.out ++ [.beat l (f :: fs), .link l 1 [w] []] ∧
            fMhdr f = vc0Hdr s 0 1)) ∧
      (linkActive s l = true → fencedNow s l = true → exec (.retrain l) s = .next s) ∧
      (linkState s l = Lk.absent ∨ linkState s l = Lk.down → ∃ t, exec (.retrain l) s = .next t ∧
        linkState t l = Lk.detect ∧ fld t (Reg.xlLnkState l) Fl.xlLnkState_FAILS = 0 ∧ t.links = s.links) ∧
      (∃ t, exec (.disable l) s = .next t ∧ linkState t l = Lk.off)) ∧
    (∀ p0 p1, linkActive s l = true →
      ((link s l).fenceTx = true → ∃ t, exec (.linkctl l 2 p0 p1) s = .next t ∧
        linkState t l = Lk.active ∧ (link t l).fenceRx = true ∧
        (link t l).q0 = (link (sendLinkctl s l 3 0 0) l).q0) ∧
      ((link s l).fenceTx = false → ∃ t, exec (.linkctl l 2 p0 p1) s = .next t ∧
        linkState t l = Lk.active ∧ (link t l).fenceRx = true ∧ (link t l).fenceTx = true ∧
        (link t l).q0 = (link (sendLinkctl (sendLinkctl s l 3 0 0) l 2 0 0) l).q0) ∧
      ((link s l).fenceTx = true → (link s l).fenceRx = true → ctlWaits (link s l) = false →
        ∃ t, exec (.linkctl l 3 p0 p1) s = .next t ∧ linkState t l = Lk.fenced) ∧
      ((link s l).fenceTx = true → (link s l).fenceRx = false ∨ ctlWaits (link s l) = true →
        ∃ t, exec (.linkctl l 3 p0 p1) s = .next t ∧ linkState t l = Lk.active ∧ (link t l).fenceAck = true) ∧
      (exec (.linkctl l 4 p0 p1) s = .next (sendLinkctl (drainCtl s l 4) l 5 0 p0.toNat)) ∧
      (∀ n, (n = 0 ∨ 5 < n) → ∃ t, exec (.linkctl l n p0 p1) s = .next t ∧ linkState t l = Lk.active ∧
        fld t (Reg.xlLnkCnt l) Fl.xlLnkCnt_PROTO = (fld s (Reg.xlLnkCnt l) Fl.xlLnkCnt_PROTO + 1) % 2 ^ 16 ∧
        flag t (Reg.xlLnkStat l) Fl.xlLnkStat_BADMSG = true)) ∧
    ∀ (p0 p1 : W64), linkState s l = Lk.calibrate →
      let d := (tstamp s + 2 ^ 64 - p1.toNat) % 2 ^ 64
      let ps := (link s l).probes ++ [d]
      (exec (.linkctl l 4 p0 p1) s = .next (ctlBeat s l 5 (tstamp s) p0.toNat)) ∧
      (ps.length < 16 → ∃ t, exec (.linkctl l 5 p0 p1) s = .next t ∧ linkState t l = Lk.calibrate ∧
        (link t l).probes = ps ∧ t.out = s.out ++ (ctlBeat { t with out := [] } l 4 (tstamp s) 0).out) ∧
      (16 ≤ ps.length → ∃ t, exec (.linkctl l 5 p0 p1) s = .next t ∧ linkState t l = Lk.active ∧
        fld t (Reg.xlLnkState l) Fl.xlLnkState_DLY = ps.foldl (· + ·) 0 / 2 % 2 ^ 32 ∧
        fld t (Reg.xlLnkState l) Fl.xlLnkState_FAILS = 0 ∧ (link t l).txSeq = 0 ∧ (link t l).rxSeq = 0 ∧
        ((∃ a ∈ ps, ∃ b ∈ ps, b + 16 < a) → tickCarriage t l = false ∧
          flag t (Reg.xlLnkStat l) Fl.xlLnkStat_NOTIME = true) ∧
        ((∀ a ∈ ps, ∀ b ∈ ps, a ≤ b + 16) → tickCarriage t l = tickCarriage s l))

/-- On an ACTIVE link, a beat of the mode's lanes whose flits pass their CRC, come with the expected SEQ, within the
room that was granted, well-formed, and whose acknowledgement, where it has one, names a beat that waits for it, is
accepted: the next SEQ is expected, NAK is clear, the beats up to the acknowledged one are dropped, HEAD flits go
into the receive buffer, IDLE ones do not, and nothing changes but the link (it carries no NAK; no fence is complete
but for it). The first beat out of order is rejected with NAK, and a beat with a failed CRC is counted and recorded
as corrected too; while rejects are few the link stays ACTIVE and expects the same SEQ. Until the replay arrives,
other beats are discarded; only the number of the last is kept. A link that is not ACTIVE, or a beat of another
width, takes nothing (no injector armed). It rests on readings of the model's own, log entries 45, 134. (R287, R288,
R289, R291, R293, R300) -/
def Obligations.BeatsAreAcceptedInOrder : Prop :=
  ∀ (s : State) (l : Fin 6) (f : Flit) (fs : List Flit), injOff s →
    let beat := f :: fs
    let k := link s l
    let w := wideCrc s l
    let sq := bits f.tag.toNat 89 7
    let ack := bits f.tag.toNat 82 7
    (linkActive s l = false ∨ beat.length ≠ laneCount s l → exec (.beatReceive l beat) s = .next s) ∧
    (linkActive s l = true → beat.length = laneCount s l → (∀ x ∈ beat, flitCrcOk w x = true) →
      (sq = k.rxSeq → bits f.tag.toNat 80 1 = 0 →
        (bits f.tag.toNat 81 1 = 1 → ∃ b ∈ k.unacked, b.1 = ack) → (∀ x ∈ beat, flitBad s l x = false) →
        (∀ v < 4, heldRx k v + ((beat.filter (fun x => fVc x == v)).map fCost).foldl (· + ·) 0 ≤ bufSize v) →
        k.fenceTx = false ∨ k.fenceAck = false ∨ k.fenceRx = false →
        ∃ t, exec (.beatReceive l beat) s = .next t ∧ (link t l).rxSeq = (k.rxSeq + 1) % 128 ∧
          (link t l).rxAny = true ∧ (link t l).nak = false ∧
          (link t l).unacked = (if bits f.tag.toNat 81 1 = 1 then (k.unacked.dropWhile (fun b => b.1 != ack)).drop 1
            else k.unacked) ∧
          (k.repTo = none → (∀ x ∈ beat, fKind x ≤ 1) →
            (link t l).rx = k.rx ++ (beat.filter (fun x => fKind x == 1)).map (fun x => (x, false))) ∧
          (∀ j, j ≠ l.val → link t j = link s j) ∧ { t with links := s.links } = s) ∧
      (sq ≠ k.rxSeq → (sq + 1) % 128 ≠ k.rxSeq →
        (k.nak = true → exec (.beatReceive l beat) s = .next (setLink s l { k with repTo := some sq })) ∧
        (k.nak = false → k.rejects.length < fld s Reg.xlCtrl Fl.xlCtrl_ERRLIM →
          ∃ t, exec (.beatReceive l beat) s = .next t ∧ linkState t l = Lk.active ∧ (link t l).nak = true ∧
            (link t l).rxSeq = k.rxSeq ∧ (link t l).rx = k.rx ∧ { t with links := s.links } = s))) ∧
    (linkActive s l = true → beat.length = laneCount s l → (∃ x ∈ beat, flitCrcOk w x = false) →
      k.rejects.length < fld s Reg.xlCtrl Fl.xlCtrl_ERRLIM →
      ∃ t, exec (.beatReceive l beat) s = .next t ∧ linkState t l = Lk.active ∧ (link t l).nak = true ∧
        (link t l).rxSeq = k.rxSeq ∧ (link t l).rx = k.rx ∧ (link t l).rejects.length ≤ k.rejects.length + 1 ∧
        fld t (Reg.xlLnkErr l) Fl.xlLnkErr_CRCERR = (fld s (Reg.xlLnkErr l) Fl.xlLnkErr_CRCERR +
          (beat.filter (fun x => !flitCrcOk w x)).length) % 2 ^ 32 ∧
        fld t Reg.errCntCe Fl.errCntCe_COUNT =
          (fld s Reg.errCntCe Fl.errCntCe_COUNT + 1) % 2 ^ Fl.errCntCe_COUNT.width)

/-- With PX_STM_CTRL.SCRUB 0 nothing is scrubbed. A visit of the scrubber that finds nothing moves on to the next
line and changes nothing else; the count of each bank starts afresh after a pass. A single-bit error is counted as
corrected, and one beyond BANKLIM in a pass starts a copy of its bank to the lowest free spare; with none free the
bank stays in use and ATN_NOTE rises. An uncorrectable error poisons its word and raises ATN_ERR, or makes the block
FATAL when it lies in a block table. When a copy ends, the spare serves the logical bank, SPARE_FREE counts down,
and every other bank stays where it was (no injector armed). It rests on readings of the model's own, log entries
91, 92. (R142, R143, R375, R376, R382) -/
def Obligations.BanksAreScrubbedAndSpared : Prop :=
  ∀ (s : State),
    (micaRuns s = true → fld s Reg.stmCtrl Fl.stmCtrl_SCRUB ≠ 0 → injOff s →
      (exec (.patrolScrub []) s = .next { s with svc := { s.svc with
        line := (s.svc.line + 1) % 4096, ceCount := if s.svc.line = 4095 then [] else s.svc.ceCount } }) ∧
      (∀ x, let b := (micaPlace s x).1
        let n := mapGet 0 s.svc.ceCount (physBank s b) + 1
        b < 192 → ∃ t, exec (.patrolScrub [.single x]) s = .next t ∧ t.su = s.su ∧
          t.svc.line = (s.svc.line + 1) % 4096 ∧ (∀ y, ringByte s y = false → micaByte t y = micaByte s y) ∧
          fld t Reg.errCntCe Fl.errCntCe_COUNT =
            (fld s Reg.errCntCe Fl.errCntCe_COUNT + 1) % 2 ^ Fl.errCntCe_COUNT.width ∧
          (n ≤ fld s Reg.errCtrl Fl.errCtrl_BANKLIM → t.svc.copies = s.svc.copies ∧ t.svc.retired = s.svc.retired) ∧
          (fld s Reg.errCtrl Fl.errCtrl_BANKLIM < n → (∀ c ∈ s.svc.copies, c.bank ≠ b) →
            (∀ q qs, freeBanks s = q :: qs →
              t.svc.copies = s.svc.copies ++ [⟨b, q, 1, false⟩] ∧ physBank s b ∈ t.svc.retired) ∧
            (freeBanks s = [] → t.svc.copies = s.svc.copies ∧ t.svc.retired = s.svc.retired ∧
              flag t Reg.errAtn Fl.errAtn_NOTE = true))) ∧
      (∀ x, inTable s x = false → ∃ t, exec (.patrolScrub [.double x]) s = .next t ∧ x / 16 ∈ t.poison ∧ t.su = s.su ∧
        flag t Reg.errAtn Fl.errAtn_ERR = true ∧ ∀ y, ringByte s y = false → micaByte t y = micaByte s y) ∧
      (∀ x, inTable s x = true → ∃ t, exec (.patrolScrub [.double x]) s = .next t ∧ t.su = .fatal ∧
        fld t Reg.idGstat Fl.idGstat_FATALCODE = St.fatalTable ∧ flag t Reg.errAtn Fl.errAtn_FATAL = true)) ∧
    (micaRuns s = false ∨ fld s Reg.stmCtrl Fl.stmCtrl_SCRUB = 0 → ∀ es, exec (.patrolScrub es) s = .next s) ∧
    (∀ (p : Nat) k, s.svc.copies.find? (fun c => c.det != 0 && physBank s c.bank == p) = some k → k.bank < 192 →
      k.spare < 256 → ∃ t, exec (.bankCopyDone p) s = .next t ∧ physBank t k.bank = k.spare ∧
        (∀ c ∈ t.svc.copies, c.bank ≠ k.bank) ∧
        spareFree t = spareFree s - 1 ∧ (∀ c, c < 192 → c ≠ k.bank → physBank t c = physBank s c) ∧
        (∀ y, ringByte s y = false → micaByte t y = micaByte s y)) ∧
    (∀ p, (∀ c ∈ s.svc.copies, c.det = 0 ∨ physBank s c.bank ≠ p) → exec (.bankCopyDone p) s = .next s)

/-- An array whose fence has begun and that holds nothing to commit is fenced: its FENCED bit is set, the next
switch that waits may close, and the CLEAVE that asked for it completes; while something is still to commit, nothing
changes. Its known-answer tiles bring it back to service with FENCED and AUTO clear, or leave it fenced and end the
CLEAVE with CHECK_FAILED, which halts the vein. A link's fence is complete when it is FENCED and its return when it
is ACTIVE; a bank group's copies take effect when they are done, and the old banks serve again on return. It rests
on readings of the model's own, log entry 90. (R204, R221, R374, R380, R381, R382, R418) -/
def Obligations.CleavesComplete : Prop :=
  ∀ (s : State) (v : Fin 16) (q : Nat),
    let lone : Prop := ∃ j, (vein s v).jobs = [j] ∧ j.seq = q ∧ j.op = 0x1D ∧ j.done = false ∧ j.conds = [] ∧ q < 2 ^ 32
    let finished (t : State) : Prop := (vein t v).jobs = [] ∧ fld t (Reg.vnSeq v) Fl.vnSeq_DONE = q
    let live : Prop := vMasked s v = false ∧ (vein s v).suspended = false ∧ (vein s v).fenced = false ∧
      vState s v ≠ Vs.off ∧ vState s v ≠ Vs.halted ∧ vState s v ≠ Vs.halting
    (∀ (a : Fin 4) (w : Nat),
      ((arr s a).fencing = some (some (v.val, q)) → arrayEmpty s a = true → lone →
        ∃ t, exec (.cleaveFenceDone ⟨0, a⟩) s = .next t ∧ (arr t a).fenced = true ∧ (arr t a).fencing = none ∧
          bit (fld t Reg.tchArrays Fl.tchArrays_FENCED) a = true ∧ finished t ∧ ∀ b, b ≠ a.val →
            arr t b = arr s b ∨ ((arr s b).pow = .waiting ∧ arr t b = { arr s b with pow := .closing })) ∧
      ((arr s a).fencing = none ∨ arrayEmpty s a = false → exec (.cleaveFenceDone ⟨0, a⟩) s = .next s) ∧
      ((arr s a).returning = some (v.val, q) → lone →
        (∃ t, exec (.cleaveReturnDone ⟨0, a⟩ []) s = .next t ∧ (arr t a).fenced = false ∧ (arr t a).returning = none ∧
          inService t a = true ∧ bit (fld t Reg.tchArrays Fl.tchArrays_FENCED) a = false ∧
          bit (fld t Reg.tchArrays Fl.tchArrays_AUTO) a = false ∧ finished t ∧ ∀ b, b ≠ a.val → arr t b = arr s b) ∧
        (live → ∃ t, exec (.cleaveReturnDone ⟨0, a⟩ [w]) s = .next t ∧ (arr t a).fenced = (arr s a).fenced ∧
          (arr t a).returning = none ∧ rd t Reg.tchArrays = rd s Reg.tchArrays ∧ vState t v = Vs.halted ∧
          fld t (Reg.vnStat v) Fl.vnStat_HALTSTAT = St.checkFailed)) ∧
      ((arr s a).returning = none → exec (.cleaveReturnDone ⟨0, a⟩ [w]) s = .next s)) ∧
    (∀ (l : Fin 6), lone →
      (linkState s l = Lk.fenced → (link s l).fence = some (v.val, q) →
        ∃ t, exec (.cleaveFenceDone ⟨3, l⟩) s = .next t ∧ finished t ∧ link t l = { link s l with fence := none }) ∧
      (linkState s l = Lk.active → (link s l).unfence = some (v.val, q) →
        ∃ t, exec (.cleaveReturnDone ⟨3, l⟩ []) s = .next t ∧ finished t ∧ link t l = { link s l with unfence := none })) ∧
    (∀ (g : Fin 24) (j : Job), lone → j.seq = q →
      (clFind s false 1 g = some (v.val, j) → (s.svc.copies.map (·.bank)).Nodup →
        ∃ t, exec (.cleaveFenceDone ⟨1, g⟩) s = .next t ∧ finished t ∧ groupFenced t g = true ∧
          (∀ c ∈ s.svc.copies, c.bank / 8 = g → c.det = 0 → physBank t c.bank = c.spare % 256) ∧
          (∀ b, b < 192 → b / 8 ≠ g → physBank t b = physBank s b)) ∧
      (clFind s true 1 g = some (v.val, j) → (mapGet [] s.svc.homes g).length = 8 →
        ∃ t, exec (.cleaveReturnDone ⟨1, g⟩ []) s = .next t ∧ finished t ∧
          (∀ i < 8, physBank t (8 * g + i) = (mapGet [] s.svc.homes g).getD i 0 % 256) ∧
          (∀ b, b < 192 → b / 8 ≠ g → physBank t b = physBank s b))) ∧
    (∀ (m : Nat) (j : Job), lone → j.seq = q → clFind s false 2 m = some (v.val, j) →
      (∀ w < 16, bit m w = true → vState s w = Vs.fenced ∧ (vein s w).jobs = []) →
      ∃ t, exec (.cleaveFenceDone ⟨2, m⟩) s = .next t ∧ finished t)

/-- Every address of the blocks 0xC_0000 to 0xE_FFFF, and every address that the register index does not list, is
unmapped: a read returns zero, and a write changes no register but the record of the access in PX_ID_GSTAT and
PX_ID_BADADDR, and nothing else. (R394) -/
def Obligations.UnmappedAddressesReadZero : Prop :=
  (∀ a, 0xC0000 ≤ a → a ≤ 0xEFFFF → regRow a = none) ∧
  ∀ (s : State) (a : BitVec 20), regRow a.toNat = none →
    portRead s a.toNat = 0 ∧
    ∀ (v : W64), ∃ t, exec (.registerWrite a v) s = .next t ∧ { t with regs := s.regs } = s ∧
      ∀ b, b ≠ Reg.idGstat → b ≠ Reg.idBadaddr → rd t b = rd s b

/-- A write of a mapped register that the port does not refuse changes its RW bits, its RWL bits until the Slate
load, clears its W1C bits written as 1, and leaves every other bit and register as they were; under REGLOCK or in
SAFE only what these leave free, and where REGLOCK closes some of the register's fields the write is recorded with
reason 2 as well. A write of PX_CRN_CTRL shows the eligibility anew. One of PX_TCH_SPARE after the load is ignored
and sets BADWR unless the array is fenced; W1 and W2 of an armed injector, and PX_DBG_TRACE_BASE while trace is on,
ignore it. A write that clears VALID of a NaN trap clears its MORE too. One that is refused changes only the record
of the access: BADACC, and the reason, the direction and the address. So does an access that is unaligned or
partial, or unmapped. It rests on readings of the model's own, log entry 83. (R7, R190, R232, R390, R392, R393,
R394, R395, R399, R400, R401, R409) -/
def Obligations.RegisterWritesTakeEffect : Prop :=
  ∀ (s : State) (a : BitVec 20) (v : W64), s.su ≠ .off →
    let n := a.toNat
    let plain : Prop := ownRow n = false ∧ n ≠ Reg.crnCtrl ∧ n ≠ Reg.dbgTraceBase ∧
      (∀ k < 4, n ≠ Reg.numPgtData k ∧ (n = Reg.numNanW0 k → v.toNat.testBit 63 = false)) ∧
      (∀ k < 4, n ≠ Reg.tchSpare k) ∧ ∀ k < 8, n ≠ Reg.fltInjW1 k ∧ n ≠ Reg.fltInjW2 k
    let record (t : State) (w : Bool) (reason : Nat) : Prop := flag t Reg.idGstat Fl.idGstat_BADACC = true ∧
      flag t Reg.idBadaddr Fl.idBadaddr_WRITE = w ∧ fld t Reg.idBadaddr Fl.idBadaddr_REASON = reason ∧
      fld t Reg.idBadaddr Fl.idBadaddr_ADDR = n
    let noted (t : State) (w : Bool) (reason : Nat) : Prop := { t with regs := s.regs } = s ∧
      (∀ b, b ≠ Reg.idGstat → b ≠ Reg.idBadaddr → rd t b = rd s b) ∧ record t w reason
    -- the register after a write that takes effect
    let wrote (t : State) (r : RegRow) : Prop := ∀ i < 64, (rd t n).toNat.testBit i =
      if r.w1c.testBit i ∧ v.toNat.testBit i then false
      else if (r.rw.testBit i = true ∨ (s.locked = false ∧ r.rwl.testBit i = true)) ∧ s.su ≠ .safe ∧
        (regLocked s = true → (freeMask n).testBit i = true) then v.toNat.testBit i
      else (rd s n).toNat.testBit i
    let takes (r : RegRow) : Prop := n % 8 = 0 ∧ regRow n = some r ∧ refusal s n r true = none
    let part (r : RegRow) : Bool := closedPart s n r && s.su != .safe
    -- only the register itself has changed
    let alone (t : State) : Prop := { t with regs := s.regs } = s ∧ ∀ b, b ≠ n → rd t b = rd s b
    (∀ r, takes r → plain → (part r = true → n ≠ Reg.idGstat ∧ n ≠ Reg.idBadaddr) →
      ∃ t, exec (.registerWrite a v) s = .next t ∧ wrote t r ∧ (part r = false → alone t) ∧
        (part r = true → { t with regs := s.regs } = s ∧ record t true 2 ∧
          ∀ b, b ≠ n → b ≠ Reg.idGstat → b ≠ Reg.idBadaddr → rd t b = rd s b)) ∧
    (∀ r, takes r → n = Reg.crnCtrl → part r = false → ∃ t, exec (.registerWrite a v) s = .next t ∧ wrote t r ∧
      { t with regs := s.regs } = s ∧ flag t Reg.crnState Fl.crnState_ELIGIBLE = lodeEligible t ∧
      ∀ b, b ≠ n → b ≠ Reg.crnState → rd t b = rd s b) ∧
    (∀ r, ∀ k < 4, takes r → n = Reg.tchSpare k → part r = false → s.su ≠ .safe →
      (s.locked = true → (arr s k).fenced = false → ∃ t, exec (.registerWrite a v) s = .next t ∧
        { t with regs := s.regs } = s ∧ flag t Reg.tchStat Fl.tchStat_BADWR = true ∧
        ∀ b, b ≠ Reg.tchStat → rd t b = rd s b) ∧
      (s.locked = false ∨ (arr s k).fenced = true →
        ∃ t, exec (.registerWrite a v) s = .next t ∧ wrote t r ∧ alone t)) ∧
    (∀ r, ∀ k < 8, takes r → n = Reg.fltInjW1 k ∨ n = Reg.fltInjW2 k → part r = false →
      (injArmed s k = true → exec (.registerWrite a v) s = .next s) ∧
      (injArmed s k = false → ∃ t, exec (.registerWrite a v) s = .next t ∧ wrote t r ∧ alone t)) ∧
    (∀ r, takes r → n = Reg.dbgTraceBase → part r = false →
      (flag s Reg.dbgTraceCfg Fl.dbgTraceCfg_ENABLE = true → exec (.registerWrite a v) s = .next s) ∧
      (flag s Reg.dbgTraceCfg Fl.dbgTraceCfg_ENABLE = false →
        ∃ t, exec (.registerWrite a v) s = .next t ∧ wrote t r ∧ alone t)) ∧
    (∀ r, ∀ k < 4, takes r → n = Reg.numNanW0 k → part r = false → v.toNat.testBit 63 = true →
      ∃ t, exec (.registerWrite a v) s = .next t ∧ { t with regs := s.regs } = s ∧ (rd t n).toNat.testBit 63 = false ∧
        fld t (Reg.numNanW2 k) Fl.numNanW2_MORE = 0 ∧ ∀ b, b ≠ n → b ≠ Reg.numNanW2 k → rd t b = rd s b) ∧
    (∀ r k, n % 8 = 0 → regRow n = some r → refusal s n r true = some k →
      ∃ t, exec (.registerWrite a v) s = .next t ∧ noted t true k) ∧
    (∀ (w : Bool) (st : BitVec 8),
      (n % 8 ≠ 0 ∨ (w = true ∧ st ≠ 0xFF) → ∃ t, exec (.badAccess a w st v) s = .next t ∧ noted t w 1) ∧
      (n % 8 = 0 → (w = true → st = 0xFF) → regRow n = none →
        ∃ t, exec (.badAccess a w st v) s = .next t ∧ noted t w 0) ∧
      (∀ r k, n % 8 = 0 → (w = true → st = 0xFF) → regRow n = some r → refusal s n r w = some k →
        ∃ t, exec (.badAccess a w st v) s = .next t ∧ noted t w k))

/-- A write of GO while no evacuation is under way asks for one at its address; during one it changes nothing. Once
every issued command is complete, the image leaves in order over the Deep ports as far as tags are free, each byte
once, at the address that EVACUATE gave plus the bytes already sent, and BYTES counts it (no wrapper instruction
over the outputs). Without a usable port every vein is fenced and the evacuation fails with ENDPOINT_ERROR. The last
answer fences every vein, shows STATE 4 and raises ATN_NOTE; an error shows STATE 5. It rests on readings of the
model's own, log entries 2, 28, 88. (R385, R413) -/
def Obligations.EvacuationWritesImage : Prop :=
  ∀ (s : State),
    let st := fld s Reg.errEvstat Fl.errEvstat_STATE
    let sent (os : List Out) : List Byte := os.flatMap (fun o => match o with | .deepWrite _ _ _ x => x | _ => [])
    let writes (os : List Out) : Prop := ∀ (k : Nat) (o : Out), os[k]? = some o → ∃ p tag bs,
      o = .deepWrite p tag ((s.svc.evacAddr + (sent (os.take k)).length) % 2 ^ 48) bs ∧ portUsable s p = true ∧
      bs ≠ [] ∧ bs.length ≤ portBurst s p
    let open_ : Prop := wrapGoverns s = false ∧ s.svc.evacAddr < 2 ^ 48
    let fencedAll (t : State) : Prop := ∀ v < 16, vBase s v ≠ Vs.off → vState t v = Vs.fenced
    let spent (t : State) : Prop := t.svc.evacImg = [] ∨ ∀ p < 4, portUsable t p = true → freeTag t p = none
    (∀ (w : W64), PortOpen s Reg.errEvac →
      (w.toNat.testBit 63 = true → (st = 0 ∨ 3 < st) → ∃ t, exec (.evacuate w) s = .next t ∧
        fld t Reg.errEvstat Fl.errEvstat_STATE = 1 ∧ fld t Reg.errEvstat Fl.errEvstat_BYTES = 0 ∧
        t.svc.evacAddr = 64 * bits w.toNat 6 42 ∧ t.svc.evacImg = [] ∧
        ∀ a, a ≠ Reg.errEvstat → rd t a = rd s a) ∧
      (w.toNat.testBit 63 = false ∨ (1 ≤ st ∧ st ≤ 3) → exec (.evacuate w) s = .next s)) ∧
    (isRun s = true → st = 2 → allJobs s = [] → (∃ p < 4, portUsable s p = true) → open_ →
      ∃ t os, exec .evacImageWrite s = .next t ∧ t.out = s.out ++ os ∧ writes os ∧
        sent os ++ t.svc.evacImg = (evacImage s).1 ∧ fld t Reg.errEvstat Fl.errEvstat_STATE = 3 ∧
        (∀ y, micaByte t y = micaByte s y) ∧ spent t ∧
        t.svc.evacAddr = (s.svc.evacAddr + (sent os).length) % 2 ^ 48 ∧
        fld t Reg.errEvstat Fl.errEvstat_BYTES =
          (fld s Reg.errEvstat Fl.errEvstat_BYTES + (sent os).length) % 2 ^ Fl.errEvstat_BYTES.width) ∧
    (isRun s = true → st = 2 → allJobs s = [] → (∀ p < 4, portUsable s p = false) →
      ∃ t, exec .evacImageWrite s = .next t ∧ fld t Reg.errEvstat Fl.errEvstat_STATE = 5 ∧
        fld t Reg.errEvstat Fl.errEvstat_STATUS = St.endpointError ∧ fencedAll t) ∧
    (isRun s = true → st = 3 → open_ → ∃ t os, exec .evacImageWrite s = .next t ∧ t.out = s.out ++ os ∧ writes os ∧
      sent os ++ t.svc.evacImg = s.svc.evacImg ∧ spent t ∧ t.svc.evacAddr = (s.svc.evacAddr + (sent os).length) % 2 ^ 48 ∧ fld t Reg.errEvstat Fl.errEvstat_STATE = 3) ∧
    (isRun s = false ∨ st < 2 ∨ 3 < st ∨ (st = 2 ∧ allJobs s ≠ []) → exec .evacImageWrite s = .next s) ∧
    ∀ (p : Fin 4) (tag : Nat), (p.val, tag) ∈ s.evacReqs →
      ((∃ x ∈ s.evacReqs, x ≠ (p.val, tag)) → ∃ t, exec (.deepWriteResponse p tag false) s = .next t ∧
        (∀ x, x ∈ t.evacReqs ↔ x ∈ s.evacReqs ∧ x ≠ (p.val, tag)) ∧ { t with evacReqs := s.evacReqs } = s) ∧
      ((∀ x ∈ s.evacReqs, x = (p.val, tag)) → s.svc.evacImg = [] →
        ∃ t, exec (.deepWriteResponse p tag false) s = .next t ∧ t.evacReqs = [] ∧ fencedAll t ∧
          fld t Reg.errEvstat Fl.errEvstat_STATE = 4 ∧ flag t Reg.errAtn Fl.errAtn_NOTE = true) ∧
      (∃ t, exec (.deepWriteResponse p tag true) s = .next t ∧ t.evacReqs = [] ∧ t.svc.evacImg = [] ∧ fencedAll t ∧
        fld t Reg.errEvstat Fl.errEvstat_STATE = 5 ∧ fld t Reg.errEvstat Fl.errEvstat_STATUS = St.endpointError)

/-- Granted beats are added to CREDITS, at most 4,095 are held, and a grant beyond them sets CROVF (no injector
armed). An error of the sink stops the port for good and is recorded; the command that was sending ends with
ENDPOINT_ERROR and its vein halts. A GRAD_EMIT that may send drives the next beats of its record, in order and the
first marked by UPD_SOR, as many as it has credits for, and spends one for each; a record that has begun goes on as
it committed, whatever its source holds; RECORDS counts a record whose last beat left. A chunk of zeros that SPARSE
omits and that is not the last counts in OMIT and sends nothing. A preempted filler command that has no record begun
gives its arrays up. It rests on readings of the model's own, log entries 112, 113. (R341, R342, R343, R344, R345,
R346, R347, R225, R414) -/
def Obligations.UpdatePortMovesRecords : Prop :=
  ∀ (s : State),
    let a := Reg.numUpdStat
    let cred (x : State) : Nat := fld x a Fl.numUpdStat_CREDITS
    let ups (x : State) : List (Bool × List Byte) :=
      x.out.filterMap (fun o => match o with | .update sor b => some (sor, b) | _ => none)
    (∀ n, pxRuns s = true → injOff s → ∃ t, exec (.updCreditGrant n) s = .next t ∧ cred t = min (cred s + n) 4095 ∧
      flag t a Fl.numUpdStat_CROVF = (flag s a Fl.numUpdStat_CROVF || decide (4095 < cred s + n)) ∧
      flag t a Fl.numUpdStat_ERR = flag s a Fl.numUpdStat_ERR ∧
      (∀ b, b ≠ a → rd t b = rd s b) ∧ { t with regs := s.regs } = s) ∧
    (pxRuns s = true → ∃ t, exec .updErr s = .next t ∧ t.updStop = true ∧ flag t a Fl.numUpdStat_ERR = true ∧
      ups t = ups s ∧ ((∀ v < 16, emitJob s v = none) → flag t Reg.errAtn Fl.errAtn_ERR = true ∧
        fld t Reg.errCnt Fl.errCnt_CONTAINED =
          (fld s Reg.errCnt Fl.errCnt_CONTAINED + 1) % 2 ^ Fl.errCnt_CONTAINED.width)) ∧
    ∀ (v : Fin 16) (j : Job), emitJob s v = some j →
      ((vein s v).jobs = [j] → j.conds = [] → 1 ≤ vState s v → vState s v ≤ 4 → (vein s v).fenced = false →
        (vein s v).suspended = false →
        let ended (t : State) : Prop := vState t v = Vs.halted ∧
          fld t (Reg.vnStat v) Fl.vnStat_HALTSTAT = St.endpointError ∧
          fld t (Reg.vnStat v) Fl.vnStat_HALTSEQ = j.seq % 2 ^ 32
        (pxRuns s = true → (∀ w < 16, w ≠ v.val → emitJob s w = none) →
          ∃ t, exec .updErr s = .next t ∧ ended t) ∧
        (s.updStop = true → ∃ t, exec (.gradRecordSend v) s = .next t ∧ ended t ∧ ups t = ups s)) ∧
      (s.updStop = false → j.preempt = true → j.beat = 0 → (vein s v).jobs = [j] → j.done = false →
        ∃ t, exec (.gradRecordSend v) s = .next t ∧ ups t = ups s ∧ (∀ k ∈ (vein t v).jobs, k.arrays = [])) ∧
      (s.updStop = false → isRun s = true → wrapGoverns s = false → j.arrays ≠ [] → allFull s j.arrays = true →
        injOff s → s.poison = [] → j.dup = false → j.preempt = false ∨ j.beat ≠ 0 →
        (∀ p ∈ allJobs s, p.2.beat ≠ 0 → p.1 = v.val ∧ p.2.seq = j.seq) →
        let g := gradOf j.words
        let d := gradNext j g
        let cs := gradCodes s j g d.first d.n
        let zero : Bool := !d.marker && pgtSparse (j.dscW.getD 0 0) && chunkZero g cs
        let bs := beatsOf (if j.beat ≠ 0 then j.payload else if d.marker || zero then gradRecord s v j g { d with n := 0, marker := true } []
          else gradRecord s v j g d (gradPayload g (gradEls s j g d.first cs)))
        let k := min (cred s) (bs.length - j.beat)
        let whole := bs.zipIdx.map (fun b => (b.2 == 0, b.1))
        (d.marker = false → j.beat = 0 → needMet s (gradNeed j g d.first d.n) = true) →
        ((j.beat ≠ 0 ∨ zero = false ∨ d.last = true) → 1 ≤ cred s → ∃ t, exec (.gradRecordSend v) s = .next t ∧
          ups t = ups s ++ (whole.drop j.beat).take k ∧ cred t = cred s - k ∧
          fld t Reg.numUpdCnt Fl.numUpdCnt_RECORDS = (fld s Reg.numUpdCnt Fl.numUpdCnt_RECORDS +
            (if j.beat + k < bs.length then 0 else 1)) % 2 ^ 32) ∧
        (zero = true → j.beat = 0 → d.last = false → ∃ t, exec (.gradRecordSend v) s = .next t ∧ ups t = ups s ∧ cred t = cred s ∧
          fld t Reg.numUpdCnt Fl.numUpdCnt_OMIT = (fld s Reg.numUpdCnt Fl.numUpdCnt_OMIT + 1) % 2 ^ 32))

/-- A read of DATA0 shows the indexed entry in DATA0 to DATA3. Writes to DATA0 to DATA2 are held; a write to DATA3
writes the whole entry and no other, unless a reserved bit is set: then BADWR is set and no byte of Mica changes. A
write of PX_VN_SCHED_ARG clears VALID and starts an evaluation; when it completes VALID is set, with the value of
R357, or with zero and BADID where the ID is at or above NSCHED. It rests on readings of the model's own, log
entries 20, 114, 115. (R348, R349, R357, R363) -/
def Obligations.TableEntriesAndSchedulesAnswer : Prop :=
  ∀ (s : State),
    let g := fld s Reg.numPgtIdx Fl.numPgtIdx_INDEX
    let val := Reg.vnSchedVal
    (pxRuns s = true → ∃ t, exec .pgtSnapshot s = .next t ∧ { t with regs := s.regs } = s ∧
      (∀ k < 4, (rd t (Reg.numPgtData k)).toNat = bits (pgtRaw s g) (64 * k) 64) ∧
      ∀ a, (∀ k < 4, a ≠ Reg.numPgtData k) → rd t a = rd s a) ∧
    (∀ k < 3, ∀ w : W64, PortOpen s (Reg.numPgtData k) →
      ∃ t, exec (.registerWrite (BitVec.ofNat 20 (Reg.numPgtData k)) w) s = .next t ∧
        bits t.pgtHold (64 * k) 64 = w.toNat ∧ { t with pgtHold := s.pgtHold } = s ∧
        ∀ j < 3, j ≠ k → bits t.pgtHold (64 * j) 64 = bits s.pgtHold (64 * j) 64) ∧
    (∀ w : W64, PortOpen s (Reg.numPgtData 3) →
      let e := s.pgtHold % 2 ^ 192 + w.toNat * 2 ^ 192
      (pgtReserved e = false → ∃ t, exec (.pgtCommit w) s = .next t ∧ pgtRaw t g = e ∧
        (∀ x, x < pgtAddr s g ∨ pgtAddr s g + 32 ≤ x → micaByte t x = micaByte s x) ∧
        { t with mica := s.mica, poison := s.poison } = s) ∧
      (pgtReserved e = true → ∃ t, exec (.pgtCommit w) s = .next t ∧
        flag t Reg.numGenStat Fl.numGenStat_BADWR = true ∧ (∀ a, a ≠ Reg.numGenStat → rd t a = rd s a) ∧
        { t with regs := s.regs } = s)) ∧
    (∀ w : W64, PortOpen s Reg.vnSchedArg → ∃ t, exec (.schedEvaluate w) s = .next t ∧ t.schedBusy = true ∧
      fld t Reg.vnSchedArg Fl.vnSchedArg_ID = bits w.toNat 40 3 ∧
      fld t Reg.vnSchedArg Fl.vnSchedArg_STEP = bits w.toNat 0 40 ∧ flag t val Fl.vnSchedVal_VALID = false ∧
      (∀ a, a ≠ Reg.vnSchedArg → a ≠ val → rd t a = rd s a) ∧ { t with regs := s.regs, schedBusy := s.schedBusy } = s) ∧
    (s.schedBusy = false → exec .schedValueReady s = .next s) ∧
    (s.schedBusy = true →
      let id := fld s Reg.vnSchedArg Fl.vnSchedArg_ID
      let x := (schedAt s id (fld s Reg.vnSchedArg Fl.vnSchedArg_STEP))
      ∃ t, exec .schedValueReady s = .next t ∧ t.schedBusy = false ∧ flag t val Fl.vnSchedVal_VALID = true ∧
        flag t val Fl.vnSchedVal_BADID = decide (nSched s ≤ id) ∧
        fld t val Fl.vnSchedVal_VALUE = (if nSched s ≤ id then 0 else x % 2 ^ 32) ∧
        fld t val Fl.vnSchedVal_NSCHED = fld s val Fl.vnSchedVal_NSCHED ∧ ∀ a, a ≠ val → rd t a = rd s a)

/-- DBG_MICA_READ starts the read of a line below 0x300_0000, is ignored while BUSY, and DBG_MICA_READ_DONE shows
the line, poisoned words as zero with their POISON bits, and changes no other register (no injector armed).
TRACE_ENABLE takes ENABLE only with LOG2N from 10 to 24 and a claim on SEM, and only VEINMASK while trace is on;
without DBG_EN an ENABLE sets BADCFG and changes no ENABLE. TRACE_RECORD writes the oldest record to its slot of the
ring, TRACE_DROP loses it and counts it. INJECTOR_ARM writes W0 and arms only where policy and the claims allow it;
LASTSTAT says why not. It rests on readings of the model's own, log entries 85, 86, 87, 148. (R387, R390, R407,
R408, R409, R410) -/
def Obligations.DebugTraceAndInjectorsAct : Prop :=
  ∀ (s : State),
    let m := Reg.dbgMicaCmd
    let c := Reg.dbgTraceCfg
    let p := Reg.dbgTracePtr
    (∀ w : W64, PortOpen s m →
      (flag s m Fl.dbgMicaCmd_BUSY = true → exec (.dbgMicaRead w) s = .next s) ∧
      (flag s m Fl.dbgMicaCmd_BUSY = false → 64 * bits w.toNat 6 20 < 0x3000000 →
        ∃ t, exec (.dbgMicaRead w) s = .next t ∧ fld t m Fl.dbgMicaCmd_LINE = bits w.toNat 6 20 ∧
          flag t m Fl.dbgMicaCmd_DONE = false ∧ flag t m Fl.dbgMicaCmd_BUSY = true ∧
          (∀ a, a ≠ m → rd t a = rd s a) ∧ { t with regs := s.regs } = s)) ∧
    (flag s m Fl.dbgMicaCmd_BUSY = false → exec .dbgMicaReadDone s = .next s) ∧
    (flag s m Fl.dbgMicaCmd_BUSY = true → injOff s →
      let x := 64 * fld s m Fl.dbgMicaCmd_LINE
      let bad (q : Nat) : Bool := s.poison.contains (x / 16 + q)
      ∃ t, exec .dbgMicaReadDone s = .next t ∧
        (∀ w < 8, rd t (Reg.dbgMicaData w) = if bad (w / 2) then 0 else micaWord s (x + 8 * w)) ∧
        (∀ q < 4, (fld t m Fl.dbgMicaCmd_POISON).testBit q = bad q) ∧ flag t m Fl.dbgMicaCmd_BUSY = false ∧
        flag t m Fl.dbgMicaCmd_DONE = true ∧ fld t m Fl.dbgMicaCmd_LINE = fld s m Fl.dbgMicaCmd_LINE ∧
        (∀ a, a ≠ m → (∀ w < 8, a ≠ Reg.dbgMicaData w) → rd t a = rd s a) ∧ { t with regs := s.regs } = s) ∧
    (∀ w : W64, PortOpen s c →
      let on := flag s c Fl.dbgTraceCfg_ENABLE
      let sem := if on then fld s c Fl.dbgTraceCfg_SEM else bits w.toNat 48 8
      let k := if on then fld s c Fl.dbgTraceCfg_LOG2N else bits w.toNat 0 5
      let ok : Prop := 10 ≤ k ∧ k ≤ 24 ∧ claimed s 3 0x20 sem = true
      ∃ t, exec (.traceEnable w) s = .next t ∧ fld t c Fl.dbgTraceCfg_VEINMASK = bits w.toNat 32 16 ∧
        fld t c Fl.dbgTraceCfg_SEM = sem ∧ fld t c Fl.dbgTraceCfg_LOG2N = k ∧
        (flag t c Fl.dbgTraceCfg_ENABLE = true ↔ w.toNat.testBit 63 = true ∧ ok) ∧
        (flag t c Fl.dbgTraceCfg_BADCFG = true ↔ w.toNat.testBit 63 = true ∧ ¬ ok) ∧
        (∀ a, a ≠ c → rd t a = rd s a) ∧ { t with regs := s.regs } = s) ∧
    (∀ w : W64, pxRegs s = true → dbgOn s = false → s.su ≠ .safe → w.toNat.testBit 63 = true →
      ∃ t, exec (.traceEnable w) s = .next t ∧ flag t c Fl.dbgTraceCfg_BADCFG = true ∧
        flag t c Fl.dbgTraceCfg_ENABLE = flag s c Fl.dbgTraceCfg_ENABLE) ∧
    (∀ r rs q tag, s.traceQ = r :: rs → s.su = .run → tracePort s = some (q, tag) →
      let k := fld s c Fl.dbgTraceCfg_LOG2N
      let n := fld s p Fl.dbgTracePtr_WRITTEN
      let addr := (64 * fld s Reg.dbgTraceBase Fl.dbgTraceBase_BASE + 32 * (n % 2 ^ k)) % 2 ^ 48
      ∃ t, exec .traceRecord s = .next t ∧
        (wrapGoverns s = false → Out.deepWrite q tag addr r ∈ t.out.drop s.out.length) ∧ rs <+: t.traceQ ∧
        (q, tag) ∈ t.lostTags ∧ fld t p Fl.dbgTracePtr_WRITTEN = (n + 1) % 2 ^ 32 ∧
        fld t p Fl.dbgTracePtr_LOST = fld s p Fl.dbgTracePtr_LOST ∧
        ((n + 1) % 2 ^ (k - 1) ≠ 0 → t.traceQ = rs ∧ ∀ a, a ≠ p → rd t a = rd s a)) ∧
    (s.traceQ = [] → exec .traceRecord s = .next s ∧ exec .traceDrop s = .next s) ∧
    (∀ r rs, s.traceQ = r :: rs → ∃ t, exec .traceDrop s = .next t ∧ t.traceQ = rs ∧
      fld t p Fl.dbgTracePtr_LOST = (fld s p Fl.dbgTracePtr_LOST + 1) % 2 ^ 32 ∧
      fld t p Fl.dbgTracePtr_WRITTEN = fld s p Fl.dbgTracePtr_WRITTEN ∧ (∀ a, a ≠ p → rd t a = rd s a) ∧
      { t with regs := s.regs, traceQ := s.traceQ } = s) ∧
    ∀ (i : Fin 8) (w : W64), PortOpen s (Reg.fltInjW0 i) →
      let a := Reg.fltInjW0 i
      let b := Reg.fltInjW3 i
      let det := bits w.toNat 48 8
      let wants : Prop := w.toNat.testBit 63 = true ∧ bits w.toNat 61 2 ≠ 3
      ∃ t, exec (.injectorArm i w) s = .next t ∧ fld t a Fl.fltInjW0_MODE = bits w.toNat 61 2 ∧
        fld t a Fl.fltInjW0_DET = det ∧ fld t a Fl.fltInjW0_COUNT = bits w.toNat 32 16 ∧
        fld t a Fl.fltInjW0_PERIOD = bits w.toNat 0 32 ∧
        (flag t a Fl.fltInjW0_ARMED = true ↔ wants ∧ armAllowed s det = true ∧ armClaimed s i det = true) ∧
        (¬ wants → rd t b = rd s b) ∧
        (wants → armAllowed s det = false → fld t b Fl.fltInjW3_LASTSTAT = St.privDenied) ∧
        (wants → armAllowed s det = true → armClaimed s i det = false →
          fld t b Fl.fltInjW3_LASTSTAT = St.resourceBusy) ∧
        fld t b Fl.fltInjW3_FIRED = fld s b Fl.fltInjW3_FIRED ∧ (∀ x, x ≠ a → x ≠ b → rd t x = rd s x) ∧
        { t with regs := s.regs, injSeen := s.injSeen } = s

/-- VDD_AON_ON leads from OFF to CLAMPED with everything at its reset value; VDD_AON_LOSS leads to OFF. A low
PX_RST_N, or a lost PGOOD, leads to CLAMPED from every state but OFF: everything is at its reset value, the chain's
messages, reload, evacuation, bank copies, retired banks and scrub counters included, but the pins, Mica (VDD_MICA
gone, it reads zero), the mark that PHASE has been heard, the repair map and the test access state (TEST_HOLD, the
wrapper instruction and its refusals, the boundary register, PSW_HOLD), and the stratum in PX_STR_ID. From CLAMPED,
PX_RST_N_HIGH begins RESET with Mica clear. TEST_HOLD holds a block in RESET; a wrapper instruction that needs it
loads as WS_BYPASS without it and gives way to it when it falls; WS_CLAMP holds every output at its strap, WS_EXTEST
drives it from the boundary register. An instrument answers over PX_IJTAG where it is permitted, and one whose part
is held only records RESOURCE_BUSY. It rests on readings of the model's own, log entries 78, 93, 94, 95, 96, 149.
(R309, R335, R402, R421, R422, R423, R424, R425, R426) -/
def Obligations.PowerAndTestAccessAct : Prop :=
  ∀ (s : State),
    let z := State.reset
    let x := s.svc
    -- what test access keeps
    let svcOf (on : Bool) : SvcSt := { SvcSt.init with
      repair := x.repair, testHold := x.testHold, wir := x.wir, refused := x.refused, busy := x.busy,
      boundary := x.boundary, pswHold := x.pswHold, pxOn := on }
    let base (su : Su) (pins strap : Pins) (svc : SvcSt) (slt : SltSt) : State := { z with
      mica := s.mica, poison := s.poison, su := su, pins := pins, strap := strap, svc := svc, slt := slt,
      free := s.free, out := s.out, pending := s.pending }
    let down (on : Bool) : State := base .clamped s.pins { s.strap with clamp := s.pins.clamp } (svcOf on)
      { SltSt.init with phase := s.slt.phase }
    let clamped (t u : State) : Prop := { t with regs := z.regs, out := s.out } = u ∧
      (∀ a, a ≠ Reg.strId → rd t a = regReset a) ∧
      fld t Reg.strId Fl.strId_VALID = fld s Reg.strId Fl.strId_VALID ∧
      fld t Reg.strId Fl.strId_STRATUM = fld s Reg.strId Fl.strId_STRATUM ∧
      fld t Reg.strId Fl.strId_CHAINLEN = fld s Reg.strId Fl.strId_CHAINLEN ∧
      t.out = s.out ++ (if s.crn.ack && portLive s 13 && !bit s.pins.clamp.toNat 13 then [.timeAck false] else [])
    (∀ p, (s.su = .off → exec (.vddAonOn p) s =
        .next (base .clamped p { Pins.zero with head := p.head, clamp := p.clamp } (svcOf false) SltSt.init)) ∧
      (s.su ≠ .off → exec (.vddAonOn p) s = .next s)) ∧
    exec .vddAonLoss s = .next (base .off s.pins Pins.zero { SvcSt.init with testHold := x.testHold } SltSt.init) ∧
    (s.su ≠ .off → (∃ t, exec .pxRstNLow s = .next t ∧ clamped t (down (pxGood s))) ∧
      (∃ t, exec (.pgoodLoss false) s = .next t ∧ clamped t (down false)) ∧
      ∃ t, exec (.pgoodLoss true) s = .next t ∧ clamped t { down (pxGood s) with mica := [], poison := [] }) ∧
    (s.su = .off → exec .pxRstNLow s = .next s ∧ ∀ b, exec (.pgoodLoss b) s = .next s) ∧
    (s.su ≠ .clamped → exec .pxRstNHigh s = .next s) ∧
    (s.su = .clamped → ∃ t, exec .pxRstNHigh s = .next t ∧ t.su = .reset ∧ (∀ x, micaByte t x = 0) ∧ t.poison = [] ∧
      t.svc = { x with testWait := x.testHold } ∧
      { t with su := s.su, mica := s.mica, poison := s.poison, svc := s.svc } = s) ∧
    (exec .testHoldRise s =
      .next { s with svc := { x with testHold := true, testWait := x.testWait || s.su == .reset } }) ∧
    exec .testHoldFall s = .next { s with svc := { x with
      testHold := false, wir := if x.wir = 1 ∨ x.wir = 3 then 0 else x.wir } } ∧
    (∀ b, s.su = .reset → (s.svc.testHold = true ∨ s.svc.testWait = true) → exec (.resetDone b) s = .next s) ∧
    (∀ c : BitVec 8, ∃ t, exec (.wirUpdate c) s = .next t ∧ { t with svc := s.svc, free := s.free } = s ∧
      (c ∈ [0, 4, 0x10] ∨ (c = 3 ∧ x.testHold = true) → t.svc = { s.svc with wir := c.toNat }) ∧
      (c = 2 ∨ (c = 1 ∧ x.testHold = true) → t.svc = { s.svc with wir := c.toNat, boundary := t.svc.boundary }) ∧
      (c = 4 → ∀ g, driveOf t g = .strap (bit s.strap.clamp.toNat g)) ∧
      (c = 1 → x.testHold = true → ∀ g, driveOf t g = .boundary t.svc.boundary) ∧
      (c ∈ [1, 3] → s.svc.testHold = false → t.svc = { s.svc with wir := 0, refused := true }) ∧
      (c ∉ [0, 1, 2, 3, 4, 0x10] → t.svc = { s.svc with wir := 0 })) ∧
    ∀ (u : Nat) (fs : List Nat),
      let tells (x : Instrument) (t : State) (o : List Nat) : Prop := exec (.ijtagAccess x u fs) s = .next (emit t (.ijtag o))
      (∀ x, s.su = .off ∨ s.svc.wir ≠ 0x10 ∨ instrumentOk s x u = false → exec (.ijtagAccess x u fs) s = .next s) ∧
      (s.su ≠ .off → s.svc.wir = 0x10 →
        (∀ x, instrumentOk s x u = true → instrumentHeld s x u = true →
          exec (.ijtagAccess x u fs) s = .next { s with svc := { s.svc with busy := true } }) ∧
        tells .status s ([suCode s, b2n s.svc.refused, b2n s.svc.busy] ++ fs) ∧ tells .pllobs s fs ∧
        (pxGood s = true → tells .temp s ((List.range 16).map (sensorVal s)) ∧
          tells .droop s [(rd s Reg.trmDroop).toNat]) ∧
        (s.svc.testHold = true → s.su = .reset → s.svc.copies = [] → s.trm.tripped = false →
          tells .mbist { s with svc := { s.svc with repair := fs } } fs) ∧
        (u < 4 → arrayBusy s u = false → s.trm.tripped = false →
          ((s.svc.testHold = true ∧ s.su = .reset) ∨ (arr s u).fenced = true →
            tells .arraybist (setArr s u
              { arr s u with resident := false, active := none, shadow := none, random := false }) fs) ∧
          ∀ on, ∃ t, exec (.ijtagAccess (.pswHold on) u fs) s = .next t ∧ { t with svc := s.svc } = s ∧
            (∀ i < 4, bit t.svc.pswHold i = if i = u then on else bit s.svc.pswHold i) ∧
            { t.svc with pswHold := s.svc.pswHold } = s.svc))

/-- With at most eight failing banks RESET ends in LOAD: every failing bank that serves is replaced by a sound spare
of its own and all others stay; with more the block is FATAL. SELFTEST maps failing columns of an array onto its
sound spares, or takes the array out of service with AUTO; with no array left the block is FATAL, else links begin
to train and the ports' capabilities are taken. In LOAD a refused image leads to SAFE with its status; an accepted
one is applied: a follower enters SELFTEST, and the head sends the whole image down the chain in pieces, each as the
nibbles of its message (with no injector armed by it and no wrapper instruction governing the outputs). A flash
whose discovery tables name no mode is as one that does not answer. It rests on readings of the model's own, log
entries 57, 58, 62, 97, 98. (R313, R314, R329, R333, R335, R374, R376, R382, R414, R418) -/
def Obligations.StartUpMovesOn : Prop :=
  ∀ (s : State),
    (s.su = .reset → s.svc.testHold = false → s.svc.testWait = false →
      ∀ bad, let f := failingBanks s bad
      (8 < f.length → ∃ t, exec (.resetDone bad) s = .next t ∧ t.su = .fatal ∧
        fld t Reg.idGstat Fl.idGstat_FATALCODE = St.fatalInternal ∧ ∀ v < 16, vState t v = Vs.off) ∧
      (f.length ≤ 8 → (∀ b < 192, physBank s b = b) → s.svc.copies = [] →
        ∃ t, exec (.resetDone bad) s = .next t ∧ t.su = .load ∧ t.strap.keyhash = s.pins.keyhash ∧ t.svc.retired = f ∧
          (∀ b < 192, b ∉ f → physBank t b = b) ∧
          (∀ b < 192, b ∈ f → 192 ≤ physBank t b ∧ physBank t b < 200 ∧ physBank t b ∉ f) ∧
          (∀ b < 192, ∀ c < 192, b ≠ c → physBank t b ≠ physBank t c) ∧
          spareFree t = spareFree s - (f.filter (· < 192)).length ∧
          (s.strap.head = false → t.out = s.out) ∧
          (s.strap.head = true → injOff s → wrapGoverns s = false → t.out = s.out ++ [chainOut (mkHdr Ch.enum 0 1 0) [] true] ∧
            flag t Reg.strId Fl.strId_VALID = true ∧ stratum t = 0))) ∧
    (∀ failing, s.su = .selftest → (∀ a < 4, (arr s a).spareReq = [] ∧
        flag s (Reg.tchSpare a) Fl.tchSpare_V65 = false ∧ flag s (Reg.tchSpare a) Fl.tchSpare_V66 = false) →
      let cols (a : Nat) : List Nat := failing.getD a []
      let need (a : Nat) : List Nat := (List.range 65).filter (fun c => (cols a).contains c)
      let good (a : Nat) : List Nat := [65, 66].filter (fun c => !(cols a).contains c)
      let live (x : State) (a : Nat) : Bool := bit (fld x Reg.tchArrays Fl.tchArrays_INSERVICE) a
      ∃ t, exec (.selftestDone failing) s = .next t ∧
        (∀ a < 4, (need a).length ≤ (good a).length → live t a = live s a ∧ ∀ c ∈ need a, physCol t a c ∈ good a) ∧
        (∀ a < 4, (good a).length < (need a).length → live t a = false ∧ (arr t a).fenced = true ∧
          bit (fld t Reg.tchArrays Fl.tchArrays_FENCED) a = true ∧ bit (fld t Reg.tchArrays Fl.tchArrays_AUTO) a = true) ∧
        ((∀ a < 4, live t a = false) → t.su = .fatal) ∧
        (∀ a < 4, live t a = true → t.su ∈ [.linkup, .linkupDone, .timelock] ∧ t.strap.pcap = s.pins.pcap ∧
          (s.dpMode.length = 4 → ∀ p < 4, t.dpMode.getD p 0 = portMode (s.pins.pcap.getD p 0).toNat) ∧
          ∀ l < 6, flag s (Reg.xlLnkPol l) Fl.xlLnkPol_ENABLE = true → linkState s l = Lk.off →
            linkState t l = Lk.detect)) ∧
    (∀ failing, s.su ≠ .selftest → exec (.selftestDone failing) s = .next s) ∧
    (let refused (t : State) (code : Nat) : Prop := t.su = .safe ∧ fld t Reg.sltState Fl.sltState_CODE = code % 256 ∧
      flag t Reg.sltStat Fl.sltStat_LOADFAIL = true ∧ flag t Reg.errAtn Fl.errAtn_ERR = true
     (∀ r, isHead s = false ∨ s.slt.job ∉ [1, 2, 3, 4, 5] → exec (.flashReadDone r) s = .next s) ∧
     (isHead s = true → s.slt.job = 1 → s.su = .load →
      (∀ r, r = .fail ∨ (∃ j d i x, r = .read j d i x ∧ discover d = none) →
        ∃ t, exec (.flashReadDone r) s = .next t ∧ refused t St.slateFlash) ∧
      ∀ j d i x fl, discover d = some fl → let u := showFlash (sampleSigreq s) (BitVec.toNat j) fl
        (∀ f, pickImage (loadCheck u) fl i x = .error f →
          ∃ t, exec (.flashReadDone (.read j d i x)) s = .next t ∧ refused t f.status) ∧
        ∀ p, pickImage (loadCheck u) fl i x = .ok p →
          ∃ t, exec (.flashReadDone (.read j d i x)) s = .next t ∧ t.su = .load ∧ t.locked = true ∧ t.slt.job = 6 ∧
            flag t Reg.sltState Fl.sltState_BUSY = true ∧ (p.2.1 = true → flag t Reg.sltStat Fl.sltStat_FALLBACK = true) ∧
            let body := p.1.take (imgLen p.1)
            (injOff (slateApply u p.1 p.2.2.1 p.2.2.2) → wrapGoverns s = false → (t.out.drop s.out.length).filter (fun y => match y with | .chain _ => true | _ => false) =
              (imagePieces (body.length / 4096 + 1) 0 body).map
                (fun q => chainOut (mkHdr Ch.image 0 q.1 q.2.length) q.2 true))) ∧
     (wholeImage s.slt.rx = none ∨ isHead s = true → exec .slateCheckDone s = .next s) ∧
     (∀ img, wholeImage s.slt.rx = some img → isHead s = false → s.su = .load → hasStratum s = true →
      (∀ f, loadCheck (sampleSigreq s) (2 ^ 24) img = .error f →
        ∃ t, exec .slateCheckDone s = .next t ∧ refused t f.status) ∧
      ∀ p, loadCheck (sampleSigreq s) (2 ^ 24) img = .ok p →
        ∃ t, exec .slateCheckDone s = .next t ∧ t.su = .selftest ∧ t.locked = true ∧ t.slt.rx = [] ∧
          fld t Reg.sltImage Fl.sltImage_IMGID = imgNat img 0x10 8))

/-- A follower sends on every message, with its own NEXT in an ENUM and its own entry in a POLL, the rest as it
came; no injector is armed and no wrapper instruction governs the outputs. ENUM gives a stratum to a block that has
none, or sets OVF or ENUMMIS; IMAGE pieces are kept in LOAD and during a reload; CHAIN, CAND, PHASE and RELOAD do
what their kinds say; a committed reload whose frame has not come stays through OPEN and ABANDON. In SAFE the
registers but PX_STR_ID keep their values. A message whose CRC fails is counted, applied not at all and sent on as
failed; one whose LEN does not match goes on unchanged and is counted in BADLEN; an unlisted kind goes on unchanged
and is not. It rests on readings of the model's own, log entries 68, 75, 77, 78, 79. (R53, R232, R303, R304, R305,
R307, R308, R333, R329, R335, R337) -/
def Obligations.ChainMessagesPassFollowers : Prop :=
  ∀ (s : State) (m : ChainMsg), s.su ≠ .off → isHead s = false → injOff s → wrapGoverns s = false →
    let h := m.hdr.toNat
    let b := m.body
    let id := Reg.strId
    let st := Reg.strStat
    let rows : List Instr := [.enum m, .image m, .bcastChain m, .bcastCand m, .bcastPhase m, .bcastReload m, .pollElig m,
      .pollState m, .pollAlive m]
    let fits : Prop := lenFits h = true ∧ b.length = chLen h
    let sent (t : State) (h' : Nat) (b' : List Byte) : Prop := chainOut h' b' true ∈ t.out.drop s.out.length
    let is (t k : Nat) : Prop := fits ∧ crcGood m = true ∧ chType h = t ∧ (k = 0 ∨ chKind h = k)
    let next := if hasStratum s then stratum s + 1 else min 2047 (enumNext h + 1)
    (is 1 0 → ∃ t, exec (.enum m) s = .next t ∧ t.out = s.out ++ [chainOut (setBits h 0 11 next) b true] ∧
      (hasStratum s = true → rd t id = rd s id ∧
        (s.su ≠ .safe →
          flag t st Fl.strStat_ENUMMIS = (flag s st Fl.strStat_ENUMMIS || decide (enumNext h ≠ stratum s)))) ∧
      (hasStratum s = false → enumNext h < 1024 → hasStratum t = true ∧ stratum t = enumNext h ∧ rd t st = rd s st ∧
        (s.su ≠ .safe → fld t Reg.numSrStratum Fl.numSrStratum_SSTRATUM = enumNext h)) ∧
      (hasStratum s = false → 1024 ≤ enumNext h → rd t id = rd s id ∧
        (s.su ≠ .safe → flag t st Fl.strStat_OVF = true)) ∧
      (s.su = .safe → ∀ a, a ≠ id → rd t a = rd s a) ∧
      ∀ a, a ≠ id → a ≠ st → a ≠ Reg.numSrStratum → rd t a = rd s a) ∧
    (is 2 0 → ∃ t, exec (.image m) s = .next t ∧ t.out = s.out ++ [chainOut h b true] ∧ t.regs = s.regs ∧
      (s.su = .load ∨ (s.su = .run ∧ s.slt.rldOpen = true) → mapGet [] t.slt.rx (chArg h) = b ∧
        ((chTry h ≠ 0 ∨ ∀ p ∈ s.slt.rx, p.1 < chArg h) →
          ∀ o, o ≠ chArg h → mapGet [] t.slt.rx o = mapGet [] s.slt.rx o)) ∧
      (s.su ≠ .load → s.su ≠ .run → t.slt = s.slt)) ∧
    (is 3 1 → ∃ t, exec (.bcastChain m) s = .next t ∧ t.out = s.out ++ [chainOut h b true] ∧
      fld t id Fl.strId_CHAINLEN = leNat b % 2 ^ Fl.strId_CHAINLEN.width ∧ stratum t = stratum s ∧
      ∀ a, a ≠ id → rd t a = rd s a) ∧
    (is 3 2 → s.su ≠ .timelock → s.su ≠ .safe → ∃ t, exec (.bcastCand m) s = .next t ∧ t.out = s.out ++ [chainOut h b true] ∧
      (∀ i < 16, (rd t (Reg.crnCand i)).toNat = leNat ((b.drop (8 * i)).take 8)) ∧
      ∀ a, (∀ i < 16, a ≠ Reg.crnCand i) → rd t a = rd s a) ∧
    (is 3 3 → leNat b % 16 = 7 → ∃ t, exec (.bcastPhase m) s = .next t ∧ sent t h b ∧ t.slt.phase = true ∧
      (s.su = .linkupDone → t.su = .timelock) ∧ (s.su ≠ .linkupDone → t.su = s.su ∧ t.regs = s.regs)) ∧
    (is 3 4 → s.su = .run → ∃ t, exec (.bcastReload m) s = .next t ∧ t.out = s.out ++ [chainOut h b true] ∧
      (bits (leNat b) 62 2 = 0 → t.slt.rldOpen = true ∧ t.slt.rx = [] ∧ t.slt.rldAt = s.slt.rldAt ∧ t.slt.rldSt = 0 ∧
        (s.slt.rldAt ≠ none → t.slt.staged = s.slt.staged)) ∧
      (bits (leNat b) 62 2 = 1 → t.slt.rldOpen = false ∧
        t.slt.rldAt = if s.slt.rldSt = 1 then some (bits (leNat b) 0 48) else s.slt.rldAt) ∧
      (bits (leNat b) 62 2 = 2 → t.slt.rldOpen = false ∧ t.slt.rldAt = s.slt.rldAt ∧ t.slt.rldSt = 0 ∧
        t.slt.staged = if s.slt.rldAt = none then [] else s.slt.staged) ∧
      t.regs = s.regs) ∧
    (∀ k w v i, (k, w, v, i) ∈ [(1, 1, b2n (lodeEligible (sampleLoden s)), Instr.pollElig m),
        (2, 4, suCode s, .pollState m), (3, 1, 1, .pollAlive m)] →
      is 4 k → ∃ t b', exec i s = .next t ∧ t.out = s.out ++ [chainOut h b' true] ∧ b'.length = b.length ∧
        (hasStratum s = false → b' = b) ∧ (hasStratum s = true → pollEntry b' w (stratum s) = v ∧
          ∀ n, n ≠ stratum s → pollEntry b' w n = pollEntry b w n)) ∧
    (crcGood m = false → ∀ i ∈ rows, ∃ t h' b', exec i s = .next t ∧ t.out = s.out ++ [chainOut h' b' false] ∧
      t.su = s.su ∧ t.slt = s.slt ∧ rd t id = rd s id ∧
      (s.su ≠ .safe → fld t st Fl.strStat_CRCERR = (fld s st Fl.strStat_CRCERR + 1) % 2 ^ Fl.strStat_CRCERR.width)) ∧
    (crcGood m = true → ¬ fits → ∀ i ∈ .strataBadlen m :: rows, ∃ t, exec i s = .next t ∧
      t.out = s.out ++ [chainOut h b true] ∧ t.su = s.su ∧ t.slt = s.slt ∧ rd t id = rd s id ∧
      (s.su ≠ .safe → fld t st Fl.strStat_BADLEN = (fld s st Fl.strStat_BADLEN + 1) % 2 ^ Fl.strStat_BADLEN.width)) ∧
    (crcGood m = true → fits → kindListed h = false →
      exec (.strataBadlen m) s = .next (emit s (chainOut h b true)))

/-- What returns whole leads the head on: ENUM to CHAIN, or to OVF beyond 1,024; CHAIN in LOAD to the read of the
flash; the last IMAGE in LOAD to SELFTEST; POLL ELIG to CAND; POLL STATE to PHASE, to a re-send for a block that
waits in LOAD while no distribution is in progress, or to COMMIT or ABANDON of a reload. A message that returns
damaged or not at all is sent again with TRY + 1, up to RETRY, then NORET and ATN_ERR rise; a start-up that stopped
so does nothing more with what returns. The poll interval, PHTO, a write of ENUM and a write of RELOAD start what
their rules say; a RELOAD written during a distribution, in LOAD too, is held. No injector is armed and no wrapper
instruction governs the outputs. It rests on readings of the model's own, log entries 69, 70, 71, 72, 73, 137.
(R305, R307, R308, R309, R334, R335, R336, R337) -/
def Obligations.HeadLeadsTheChain : Prop :=
  ∀ (s : State), isHead s = true → injOff s → wrapGoverns s = false →
    let bc (k : Nat) (b : List Byte) : Out := chainOut (mkHdr 3 k 0 b.length) b true
    let again (x : State) (o : Nat × List Byte) (os : List (Nat × List Byte)) (i : Instr) : Prop :=
      let hdr := setBits o.1 56 4 (chTry o.1 + 1)
      (chTry o.1 < fld s Reg.strCtrl Fl.strCtrl_RETRY → ∃ t, exec i s = .next t ∧
        t.out = s.out ++ [chainOut hdr o.2 true] ∧ t.slt = { s.slt with outst := os ++ [(hdr, o.2)] } ∧
        ∀ a, rd t a = rd x a) ∧
      (fld s Reg.strCtrl Fl.strCtrl_RETRY ≤ chTry o.1 → ∃ t, exec i s = .next t ∧
        (s.su ≠ .safe → flag t Reg.strStat Fl.strStat_NORET = true) ∧ flag t Reg.errAtn Fl.errAtn_ERR = true ∧ t.su = s.su)
    (∀ m : ChainMsg, s.su ≠ .off → s.slt.job ≠ 8 → crcGood m = true →
      s.slt.outst.any (fun o => sameMsg o.1 m.hdr.toNat) = true →
      let h := m.hdr.toNat
      let codes := pollCodes s m.body
      let goes (P : State → Prop) : Prop := ∃ t, exec (.strataReturn m) s = .next t ∧ P t
      let rldHdr (op : Nat) : Nat := (op <<< 62) + (s.slt.rldNo % 2 ^ 14) <<< 48
      let frame := (frameNo s + max 1 (fld s Reg.sltCtrl Fl.sltCtrl_RLDLEAD)) % 2 ^ 48
      (chType h = 1 → (enumNext h ≤ 1024 → goes (fun t => t.out = s.out ++ [bc 1 (leBytes 2 (enumNext h))])) ∧
        (1024 < enumNext h → goes (fun t => (s.su ≠ .safe → flag t Reg.strStat Fl.strStat_OVF = true) ∧ t.out = s.out))) ∧
      (chType h = 2 → s.slt.job = 6 → s.su = .load →
        ((dropOutst s h).slt.outst.all (fun o => chType o.1 != 2) = true →
          goes (fun t => t.su = .selftest ∧ t.slt.job = 0 ∧ flag t Reg.sltState Fl.sltState_BUSY = false)) ∧
        ((dropOutst s h).slt.outst.any (fun o => chType o.1 == 2) = true → goes (fun t => t = dropOutst s h))) ∧
      (chType h = 3 → chKind h = 1 → goes (fun t => t.slt.chainOk = true ∧
        fld t Reg.strId Fl.strId_CHAINLEN = leNat m.body % 2 ^ Fl.strId_CHAINLEN.width ∧
        (s.su = .load → s.slt.job = 0 → t.out = s.out ++ [.flash 1] ∧ t.slt.job = 1))) ∧
      (chType h = 4 → chKind h = 1 → goes (fun t => t.out = s.out ++ [bc 2 (m.body.take 128)])) ∧
      (chType h = 4 → chKind h = 2 → s.slt.job = 7 →
        ((∀ c ∈ codes, c ≠ 9 ∧ c ≠ 0xB) → goes (fun t => bc 4 (leBytes 8 (rldHdr 1 + frame)) ∈ t.out.drop s.out.length)) ∧
        ((∃ c ∈ codes, c = 9 ∨ c = 0xB) → goes (fun t => bc 4 (leBytes 8 (rldHdr 2)) ∈ t.out.drop s.out.length ∧
          flag t Reg.sltStat Fl.sltStat_RLDFAIL = true ∧ flag t Reg.errAtn Fl.errAtn_ERR = true))) ∧
      (chType h = 4 → chKind h = 2 → s.slt.job ≠ 7 →
        (s.slt.phaseSent = false → codes ≠ [] → (∀ c ∈ codes, c ∈ [6, 0xE, 0xF]) →
          goes (fun t => t.slt.phaseSent = true ∧ t.out = s.out ++ [bc 3 (leBytes 8 7)])) ∧
        (s.su ≠ .load → pxRuns s = true → s.slt.job = 0 → 3 ∈ codes →
          goes (fun t => t.out = s.out ++ [.flash 4] ∧ t.slt.job = 4)) ∧
        ((∃ c ∈ codes, c ∉ [6, 0xE, 0xF]) → s.su = .load ∨ s.slt.job ≠ 0 ∨ 3 ∉ codes →
          goes (fun t => t.slt.phaseSent = s.slt.phaseSent ∧ t.out = s.out)))) ∧
    (∀ m : ChainMsg, s.su ≠ .off → s.slt.job = 8 → crcGood m = true →
      s.slt.outst.any (fun o => sameMsg o.1 m.hdr.toNat) = true →
      exec (.strataReturn m) s = .next (dropOutst s m.hdr.toNat)) ∧
    (∀ m : ChainMsg, s.su ≠ .off → crcGood m = true → (∀ o ∈ s.slt.outst, sameMsg o.1 m.hdr.toNat = false) →
      exec (.strataReturn m) s = .next s) ∧
    (∀ (m : ChainMsg) o os, s.su ≠ .off → crcGood m = false → s.slt.outst = o :: os →
      again (countCrc s) o os (.strataReturn m)) ∧
    (∀ o os, s.su ≠ .off → s.slt.outst = o :: os → again s o os .strataReturnTimeout) ∧
    (s.slt.outst = [] → exec .strataReturnTimeout s = .next s) ∧
    (headLive s = true → ∃ t, exec .headPoll s = .next t ∧
      let b := fillPoll s 2 (List.replicate 512 0)
      t.out = s.out ++ [chainOut (mkHdr 4 2 (2 <<< 16) 512) b true] ∧
      t.slt = { s.slt with outst := s.slt.outst ++ [(mkHdr 4 2 (2 <<< 16) 512, b)] }) ∧
    (headLive s = false → exec .headPoll s = .next s ∧ exec .phaseTimeout s = .next s) ∧
    (headLive s = true → s.slt.seen6 = true → s.slt.phaseSent = false → fld s Reg.sltCtrl Fl.sltCtrl_PHTO ≠ 0 →
      ∃ t, exec .phaseTimeout s = .next t ∧ flag t Reg.sltStat Fl.sltStat_EXCLUDED = true ∧ t.slt.phaseSent = true ∧
        t.out = s.out ++ [bc 3 (leBytes 8 7)]) ∧
    (PortOpen s Reg.strCtrl → ∃ t, exec .enumRequest s = .next t ∧ hasStratum t = true ∧ stratum t = 0 ∧
      t.out = s.out ++ [chainOut (mkHdr 1 0 1 0) [] true]) ∧
    (PortOpen s Reg.sltCmd →
      (s.su = .run → s.slt.job = 0 → ∃ t, exec .slateReload s = .next t ∧ t.out = s.out ++ [.flash 2] ∧
        t.slt.job = 2 ∧ t.slt.isRld = true) ∧
      (s.slt.job ≠ 0 → exec .slateReload s = .next { s with slt := { s.slt with want := true } }) ∧
      (s.su ≠ .run → s.slt.job = 0 → exec .slateReload s = .next s))

/-- A head command whose opcode, reserved fields, format words, history configuration or shape fails its check, the
only one of its vein, which is neither fenced nor suspended and which no other vein's ready command precedes, leaves
the vein HALTED with the status of the first check that fails and the command's SEQ; DONE stays, the record of the
halt raises ATN_ERR, and nothing else changes but the books of commands. This holds for the issue of every opcode,
and an opcode outside the table is refused by any of them. It rests on readings of the model's own, log entries 30,
33. (R200, R204, R206, R207, R226) -/
def Obligations.RefusedIssueHaltsVein : Prop :=
  ∀ (s : State) (v : Fin 16) (p : Fin 4) (c : Cmd) (code : Nat),
    issuable s v = true → outranked s v = false → headCmd s v = some c → (vein s v).jobs = [] → (vein s v).fenced = false →
    (vein s v).suspended = false → (isFiller s (vTenant s v) = false ∨ fillerMay s (estimate s c.words).e = true) →
    staticBad s v c.words = some code →
    ∀ op i, (op, i) ∈ [(0x00, Instr.nop v), (0x01, .tile v p), (0x02, .sptile v p), (0x03, .wload v), (0x04, .elemwise v p),
        (0x08, .streamArm v), (0x09, .streamRearm v), (0x0C, .semPost v), (0x0D, .semWait v), (0x10, .mark v),
        (0x11, .barrier v), (0x12, .yieldCmd v), (0x14, .scaleCommit v), (0x15, .gradEmit v p), (0x18, .saveState v),
        (0x19, .restoreState v), (0x1C, .calibrate v), (0x1D, .cleave v)] →
      cmdOp c.words = op ∨ knownOp (cmdOp c.words) = false →
      ∃ t, exec i s = .next t ∧ vState t v = Vs.halted ∧ fld t (Reg.vnStat v) Fl.vnStat_HALTSTAT = code ∧
        fld t (Reg.vnStat v) Fl.vnStat_HALTSEQ = cmdSeq c.words ∧
        fld t (Reg.vnSeq v) Fl.vnSeq_DONE = fld s (Reg.vnSeq v) Fl.vnSeq_DONE ∧
        flag t Reg.errAtn Fl.errAtn_ERR = true ∧ Books bookReg { leftPrefetch s v with trm := s.trm } t ∧
        (knownOp (cmdOp c.words) = false → code = St.opUnknown)

/-- Power and PX_RST_N move the block by themselves: to OFF, to CLAMPED, and from CLAMPED to RESET. Whatever other
command runs, the start-up state moves only along the transitions of the table, so SAFE and FATAL are held, nothing
but RUN follows READY in service, and no command but these five leaves OFF or CLAMPED. It rests on readings of the
model's own, log entries 105, 106. (R309, R329, R335, R376) -/
def Obligations.StartUpStateFollowsTable : Prop :=
  ∀ (c : Instr) (s t : State), exec c s = .next t →
    ((∃ p, c = .vddAonOn p) → t.su = if s.su = .off then .clamped else s.su) ∧
    (c = .vddAonLoss → t.su = .off) ∧
    (c = .pxRstNLow ∨ (∃ m, c = .pgoodLoss m) → t.su = if s.su = .off then .off else .clamped) ∧
    (c = .pxRstNHigh → t.su = if s.su = .clamped then .reset else s.su) ∧
    ((∀ p, c ≠ .vddAonOn p) → c ≠ .vddAonLoss → c ≠ .pxRstNLow → (∀ m, c ≠ .pgoodLoss m) → c ≠ .pxRstNHigh →
      Relation.ReflTransGen (fun a b => b ∈ suNext a) s.su t.su ∧
      (s.su ∈ [.off, .clamped, .safe, .fatal] → t.su = s.su) ∧
      (s.su = .run ∨ s.su = .ready → t.su ∈ [.ready, .run, .fatal]))

/-- A parity error of control state or a lost ADPLL lock makes a running block FATAL with FATAL_INTERNAL: every vein
is OFF, ATN_FATAL is raised and the event is counted. A parity error of a microcode slot marks the slot bad: with no
user it is only counted; its users move to the other slot if that is valid and not bad; else the block is FATAL with
FATAL_UCODE. No injector is armed. It rests on readings of the model's own, log entry 91. (R375, R376, R379, R384,
R420) -/
def Obligations.InternalErrorsAreFatal : Prop :=
  ∀ (s : State), injOff s →
    let u := fld s Reg.vnUcode Fl.vnUcode_INUSE
    let dead (t : State) (code : Nat) : Prop := t.su = .fatal ∧ flag t Reg.errAtn Fl.errAtn_FATAL = true ∧
      fld t Reg.idGstat Fl.idGstat_FATALCODE = code ∧ (∀ v < 16, vState t v = Vs.off) ∧
      fld t Reg.errCnt Fl.errCnt_FATAL = (fld s Reg.errCnt Fl.errCnt_FATAL + 1) % 2 ^ Fl.errCnt_FATAL.width
    (pxRuns s = true → (∃ t, exec .ctrlPar s = .next t ∧ dead t St.fatalInternal) ∧
      ∃ t, exec .pllLock s = .next t ∧ dead t St.fatalInternal) ∧
    (pxRuns s = false → exec .ctrlPar s = .next s ∧ exec .pllLock s = .next s ∧ ∀ k, exec (.ucodePar k) s = .next s) ∧
    ∀ k : Fin 2, pxRuns s = true →
      let users (v : Nat) : Bool := bit u v == (k == 1)
      let bad : Field := if k = 0 then Fl.vnUcode_ABAD else Fl.vnUcode_BBAD
      ∃ t, exec (.ucodePar k) s = .next t ∧ flag t Reg.vnUcode bad = true ∧
        ((∀ v < 16, users v = false) → t.su = s.su ∧ fld t Reg.vnUcode Fl.vnUcode_INUSE = u ∧
          fld t Reg.errCntCe Fl.errCntCe_COUNT =
            (fld s Reg.errCntCe Fl.errCntCe_COUNT + 1) % 2 ^ Fl.errCntCe_COUNT.width) ∧
        (∀ v < 16, users v = true →
          (slotGood s (1 - k.val) = true → t.su = s.su ∧
            ∀ w < 16, bit (fld t Reg.vnUcode Fl.vnUcode_INUSE) w = (1 - k.val == 1)) ∧
          (slotGood s (1 - k.val) = false → dead t St.fatalUcode))

/-- In each short float the one code with only the sign bit set is NaN and every other code is a finite number, with
the value that its sign, exponent and mantissa give; zero is the all-zero code, and there is no negative zero. INT8,
INT4 and INT32 codes are two's complement; U8 and U10 codes are their own values. (R32, R35) -/
def Obligations.ShortFloatAndIntegerCodesHaveValues : Prop :=
  let value (neg : Bool) (m : Nat) (e : Int) : ℚ := (if neg then -1 else 1) * m * 2 ^ e
  (∀ f E M bias, (f, E, M, bias) ∈ [(Fmt.f8e5, 5, 2, 15), (.f8e4, 4, 3, 7), (.f6e3, 3, 2, 3), (.f6e2, 2, 3, 1),
      (.f4e2, 2, 1, 1)] →
    codeVal f (2 ^ (E + M)) = .nan false ∧
    ∀ c, c < 2 ^ (1 + E + M) → c ≠ 2 ^ (E + M) → ∃ neg m e, codeVal f c = .fin neg m e ∧ (m = 0 ↔ c = 0) ∧
      (c = 0 → neg = false) ∧
      let s : ℚ := if c / 2 ^ (E + M) = 1 then -1 else 1
      let ef : ℕ := c / 2 ^ M % 2 ^ E
      let frac : ℚ := (c % 2 ^ M : ℕ) / (2 : ℚ) ^ M
      value neg m e = s * if ef = 0 then frac * 2 ^ (1 - (bias : Int)) else (1 + frac) * 2 ^ ((ef : Int) - bias)) ∧
  (∀ f w, (f, w) ∈ [(Fmt.int8, 8), (.int4, 4), (.int32, 32)] → ∀ c, c < 2 ^ w →
    ∃ i : Int, codeVal f c = valOfInt i ∧ -2 ^ (w - 1) ≤ i ∧ i < 2 ^ (w - 1) ∧ i % 2 ^ w = (c : Int)) ∧
  (∀ i : Int, ∃ neg m, valOfInt i = .fin neg m 0 ∧ value neg m 0 = i) ∧
  (∀ c < 256, codeVal .u8 c = .fin false c 0) ∧ ∀ c < 1024, codeVal .u10 c = .fin false c 0

/-- round_to_grid gives the multiple of the unit that its mode chooses: the unit is that of the value's binary
exponent, or of the smallest normal exponent; the floor goes up by one as the mode, the sign, the discarded part
and, under SR, its first 16 bits and r say. When the rounded magnitude exceeds the destination's largest finite
value the result is the infinity, the largest value of its sign or NaN as the table says, and the flags are OVERFLOW
and INEXACT, with SAT for a short float's largest value and INVALID for a NaN; otherwise OVERFLOW is not set. (R46,
R47) -/
def Obligations.RoundingFollowsGridAndOverflowTable : Prop :=
  ∀ (neg : Bool) (m : Nat) (e : Int) (rm : RMode) (r : Nat), r < 65536 →
    let x : ℚ := m * 2 ^ e
    let isFin (v : Val) : Prop := match v with | .fin .. => True | _ => False
    let mag (v : Val) : ℚ := match v with | .fin _ m e => m * 2 ^ e | _ => 0
    (∀ (p : Nat) (emin : Int), 1 ≤ p →
      let g := roundToGrid neg m e p emin rm r
      (m = 0 → g.1 = 0) ∧
      (m ≠ 0 → ∃ k : Int, (2 : ℚ) ^ k ≤ x ∧ x < 2 ^ (k + 1) ∧ g.2.1 = max k emin - (p - 1) ∧
        let q : ℚ := x / 2 ^ g.2.1
        let n := ⌊q⌋.toNat
        let f : ℚ := q - n
        let up : Prop := match rm with
          | .rne => f > 1 / 2 ∨ (f = 1 / 2 ∧ n % 2 = 1)
          | .rtz => False
          | .ru => f > 0 ∧ neg = false
          | .rd => f > 0 ∧ neg = true
          | .sr => 65536 ≤ ⌊f * 2 ^ 16⌋.toNat + r
        (up → g.1 = n + 1) ∧ (¬ up → g.1 = n) ∧ (g.2.2 = true ↔ f = 0))) ∧
    ∀ (f : Fmt) (p : FltP) (strict wrap : Bool) (top : Nat), fmtFlt f = some p → m ≠ 0 →
      (∀ c, isFin (codeVal f c) → mag (codeVal f c) ≤ mag (codeVal f top)) → isFin (codeVal f top) →
      let g := roundToGrid neg m e (p.mw + 1) (1 - p.bias) rm r
      let res := convTo f rm strict wrap r (.fin neg m e)
      let away : Prop := match rm with | .rne => True | .sr => True | .rtz => False | .ru => neg = false | .rd => neg = true
      let largest : Prop := isFin (codeVal f res.1) ∧ valNeg (codeVal f res.1) = neg ∧
        mag (codeVal f res.1) = mag (codeVal f top)
      let base := flOverflow ||| flInexact
      (mag (codeVal f top) < g.1 * (2 : ℚ) ^ g.2.1 →
        (p.short = false → away → codeVal f res.1 = .inf neg ∧ res.2 = base) ∧
        (p.short = false → ¬ away → largest ∧ res.2 = base) ∧
        (p.short = true → (strict = false ∨ ¬ away) → largest ∧ res.2 = base ||| flSat) ∧
        (p.short = true → strict = true → away → codeVal f res.1 = .nan false ∧ res.2 = base ||| flInvalid)) ∧
      (g.1 * (2 : ℚ) ^ g.2.1 ≤ mag (codeVal f top) → res.2 &&& flOverflow = 0)

/-- The maximum and minimum of two values are one of them, the greater or the lesser, with −0 less than +0; if
either is a NaN the result is a NaN, which every floating format writes as its canonical or only NaN; a signalling
NaN sets INVALID and SNAN, and nothing else sets a flag. (R82) -/
def Obligations.MaxMinFollowIeee : Prop :=
  let isFin (v : Val) : Prop := match v with | .fin .. => True | _ => False
  let value (v : Val) : ℚ := match v with | .fin neg m e => (if neg then -1 else 1) * m * 2 ^ e | _ => 0
  (∀ a b : Val,
    let nan : Prop := valIsNan a = true ∨ valIsNan b = true
    let fl := if valIsSnan a = true ∨ valIsSnan b = true then flInvalid ||| flSnan else 0
    (valMax a b).2 = fl ∧ (valMin a b).2 = fl ∧
    (nan → (valMax a b).1 = .nan false ∧ (valMin a b).1 = .nan false) ∧
    (¬ nan →
      let less (a b : Val) : Prop := (a = .inf true ∧ b ≠ .inf true) ∨ (b = .inf false ∧ a ≠ .inf false) ∨
        (isFin a ∧ isFin b ∧ (value a < value b ∨ (value a = 0 ∧ value b = 0 ∧ valNeg a = true ∧ valNeg b = false)))
      (less a b → (valMax a b).1 = b ∧ (valMin a b).1 = a) ∧
      (less b a → (valMax a b).1 = a ∧ (valMin a b).1 = b) ∧
      ((valMax a b).1 = a ∨ (valMax a b).1 = b) ∧ ((valMin a b).1 = a ∨ (valMin a b).1 = b))) ∧
  ∀ f c, (f, c) ∈ [(Fmt.fp32, 0x7FC00000), (.fp16, 0x7E00), (.bf16, 0x7FC0), (.c19, 0x3FE00), (.f8e5, 0x80),
      (.f8e4, 0x80), (.f6e3, 0x20), (.f6e2, 0x20), (.f4e2, 0x8)] →
    ∀ rm strict wrap r q, convTo f rm strict wrap r (.nan q) = (c, 0)
end

