-- ==== Sys2Proof/Laws/Map.lean ====
section
/-! SUPPORT. Laws of the sparse maps: what a read after a write gives, and that every write keeps the canonical form. -/

namespace Sys2Proof.Machine

section Map
variable {α : Type}

/-! ## Reads -/

theorem mapGet_mapIns (d : α) (k : Nat) (v : α) (m : List (Nat × α)) (a : Nat)
    (h : ∀ p ∈ m, p.1 ≠ k) : mapGet d (mapIns k v m) a = if k = a then v else mapGet d m a := by
  induction m with
  | nil => simp [mapIns, mapGet]
  | cons p m ih =>
    have ih' := ih (fun q hq => h q (List.mem_cons_of_mem p hq))
    have hp : p.1 ≠ k := h p List.mem_cons_self
    unfold mapIns
    split
    · simp [mapGet]
    · simp only [mapGet, ih']
      by_cases h1 : p.1 = a <;> by_cases h2 : k = a <;> simp_all

theorem mem_mapDel {k : Nat} {m : List (Nat × α)} {p : Nat × α} : p ∈ mapDel k m ↔ p ∈ m ∧ p.1 ≠ k := by
  induction m with
  | nil => simp [mapDel]
  | cons q m ih =>
    unfold mapDel
    split <;> simp only [List.mem_cons, ih]
    · constructor
      · rintro ⟨h1, h2⟩; exact ⟨.inr h1, h2⟩
      · rintro ⟨h1 | h1, h2⟩
        · subst h1; contradiction
        · exact ⟨h1, h2⟩
    · constructor
      · rintro (h | ⟨h1, h2⟩)
        · subst h; exact ⟨.inl rfl, ‹_›⟩
        · exact ⟨.inr h1, h2⟩
      · rintro ⟨h1 | h1, h2⟩
        · exact .inl h1
        · exact .inr ⟨h1, h2⟩

theorem mapGet_mapDel (d : α) (k : Nat) (m : List (Nat × α)) (a : Nat) :
    mapGet d (mapDel k m) a = if k = a then d else mapGet d m a := by
  induction m with
  | nil => simp [mapDel, mapGet]
  | cons p m ih =>
    unfold mapDel
    split
    · rw [ih]; by_cases h2 : k = a <;> simp_all [mapGet]
    · simp only [mapGet, ih]
      by_cases h1 : p.1 = a <;> by_cases h2 : k = a <;> simp_all

/-- A read after a write: the value at the key, every other key as before. -/
theorem mapGet_mapPut [DecidableEq α] (d : α) (m : List (Nat × α)) (k : Nat) (v : α) (a : Nat) :
    mapGet d (mapPut d m k v) a = if k = a then v else mapGet d m a := by
  unfold mapPut
  split
  · subst_vars; rw [mapGet_mapDel]
  · rw [mapGet_mapIns, mapGet_mapDel]
    · by_cases h : k = a <;> simp [h]
    · intro p hp; exact (mem_mapDel.mp hp).2

theorem mapGet_mapPut_ne [DecidableEq α] (d d' : α) (m : List (Nat × α)) (k : Nat) (v : α) (a : Nat) (h : k ≠ a) :
    mapGet d (mapPut d' m k v) a = mapGet d m a := by
  unfold mapPut
  split
  · rw [mapGet_mapDel, if_neg h]
  · rw [mapGet_mapIns, mapGet_mapDel]
    · simp [h]
    · intro p hp; exact (mem_mapDel.mp hp).2

theorem mapGet_tabSet (d : α) (m : List (Nat × α)) (k : Nat) (v : α) (a : Nat) :
    mapGet d (tabSet m k v) a = if k = a then v else mapGet d m a := by
  unfold tabSet
  rw [mapGet_mapIns, mapGet_mapDel]
  · by_cases h : k = a <;> simp [h]
  · intro p hp; exact (mem_mapDel.mp hp).2

theorem mapGet_of_notMem (d : α) (m : List (Nat × α)) (a : Nat) (h : ∀ p ∈ m, p.1 ≠ a) : mapGet d m a = d := by
  induction m with
  | nil => rfl
  | cons p m ih =>
    simp only [mapGet]
    rw [if_neg (h p List.mem_cons_self), ih (fun q hq => h q (List.mem_cons_of_mem p hq))]

theorem mapGet_append_right (d : α) (m n : List (Nat × α)) (a : Nat) (h : ∀ p ∈ m, p.1 ≠ a) :
    mapGet d (m ++ n) a = mapGet d n a := by
  induction m with
  | nil => rfl
  | cons p m ih =>
    simp only [List.cons_append, mapGet]
    rw [if_neg (h p List.mem_cons_self), ih (fun q hq => h q (List.mem_cons_of_mem p hq))]

theorem mapGet_append_left (d : α) (m n : List (Nat × α)) (a : Nat) (h : ∀ p ∈ n, p.1 ≠ a) :
    mapGet d (m ++ n) a = mapGet d m a := by
  induction m with
  | nil => exact mapGet_of_notMem d n a h
  | cons p m ih => simp only [List.cons_append, mapGet, ih]

theorem mapGet_filter (d : α) (m : List (Nat × α)) (q : Nat → Bool) (a : Nat) :
    mapGet d (m.filter (fun c => q c.1)) a = if q a then mapGet d m a else d := by
  induction m with
  | nil => simp [mapGet]
  | cons p m ih =>
    by_cases hq : q p.1 <;> by_cases h : p.1 = a
    · simp_all [mapGet]
    · simp_all [mapGet]
    · simp_all
    · simp_all [mapGet]

/-! ## The canonical form -/

/-- The canonical form in words: rising keys, and no entry holds the default of its key. -/
theorem mapWf_iff [DecidableEq α] (d : Nat → α) (m : List (Nat × α)) :
    mapWf d m = true ↔ m.Pairwise (fun p q => p.1 < q.1) ∧ ∀ p ∈ m, p.2 ≠ d p.1 := by
  induction m with
  | nil => simp [mapWf]
  | cons p m ih =>
    cases m with
    | nil => simp [mapWf]
    | cons q m =>
      simp only [mapWf, Bool.and_eq_true, bne_iff_ne, ne_eq, decide_eq_true_eq, ih]
      constructor
      · rintro ⟨⟨h1, h2⟩, h3, h4⟩
        refine ⟨List.pairwise_cons.mpr ⟨?_, h3⟩, ?_⟩
        · intro r hr
          rcases List.mem_cons.mp hr with h | h
          · subst h; exact h2
          · exact Nat.lt_trans h2 ((List.pairwise_cons.mp h3).1 r h)
        · intro r hr
          rcases List.mem_cons.mp hr with h | h
          · subst h; exact h1
          · exact h4 r h
      · rintro ⟨h1, h2⟩
        exact ⟨⟨h2 p List.mem_cons_self, (List.pairwise_cons.mp h1).1 q List.mem_cons_self⟩,
          (List.pairwise_cons.mp h1).2, fun r hr => h2 r (List.mem_cons_of_mem p hr)⟩

theorem mapDel_sublist (k : Nat) (m : List (Nat × α)) : (mapDel k m).Sublist m := by
  induction m with
  | nil => simp [mapDel]
  | cons p m ih =>
    unfold mapDel
    split
    · exact ih.cons p
    · exact ih.cons_cons p

theorem mapWf_sublist [DecidableEq α] {d : Nat → α} {m n : List (Nat × α)} (h : m.Sublist n) (hw : mapWf d n = true) :
    mapWf d m = true := by
  rw [mapWf_iff] at *
  exact ⟨hw.1.sublist h, fun p hp => hw.2 p (h.subset hp)⟩

theorem mapWf_filter [DecidableEq α] {d : Nat → α} {m : List (Nat × α)} (q : Nat × α → Bool) (h : mapWf d m = true) :
    mapWf d (m.filter q) = true := mapWf_sublist List.filter_sublist h

theorem mem_mapIns {k : Nat} {v : α} {m : List (Nat × α)} {p : Nat × α} :
    p ∈ mapIns k v m ↔ p = (k, v) ∨ p ∈ m := by
  induction m with
  | nil => simp [mapIns]
  | cons q m ih =>
    unfold mapIns
    split
    · simp [List.mem_cons]
    · simp only [List.mem_cons, ih]; tauto

theorem pairwise_mapIns {k : Nat} {v : α} {m : List (Nat × α)} (h : m.Pairwise (fun p q => p.1 < q.1))
    (hk : ∀ p ∈ m, p.1 ≠ k) : (mapIns k v m).Pairwise (fun p q => p.1 < q.1) := by
  induction m with
  | nil => simp [mapIns]
  | cons q m ih =>
    obtain ⟨h1, h2⟩ := List.pairwise_cons.mp h
    unfold mapIns
    split
    · rename_i hlt
      refine List.pairwise_cons.mpr ⟨?_, h⟩
      intro r hr
      rcases List.mem_cons.mp hr with e | e
      · subst e; exact hlt
      · exact Nat.lt_trans hlt (h1 r e)
    · rename_i hlt
      refine List.pairwise_cons.mpr ⟨?_, ih h2 (fun p hp => hk p (List.mem_cons_of_mem q hp))⟩
      intro r hr
      rcases mem_mapIns.mp hr with e | e
      · subst e
        have := hk q List.mem_cons_self
        simp only at *
        omega
      · exact h1 r e

/-- A write keeps the canonical form. -/
theorem mapWf_mapPut [DecidableEq α] {d : Nat → α} {m : List (Nat × α)} (h : mapWf d m = true) (k : Nat) (v : α) :
    mapWf d (mapPut (d k) m k v) = true := by
  have hd : mapWf d (mapDel k m) = true := mapWf_sublist (mapDel_sublist k m) h
  unfold mapPut
  split
  · exact hd
  · rw [mapWf_iff] at *
    refine ⟨pairwise_mapIns hd.1 (fun p hp => (mem_mapDel.mp hp).2), ?_⟩
    intro p hp
    rcases mem_mapIns.mp hp with e | e
    · subst e; assumption
    · exact hd.2 p e

end Map

/-! ## Mica: runs of bytes -/

theorem mem_newCells {x : Nat} {bs : List Byte} {c : Host.Cell} (h : c ∈ newCells x bs) :
    x ≤ c.1 ∧ c.1 < x + bs.length ∧ c.2 ≠ 0 := by
  induction bs generalizing x with
  | nil => simp [newCells] at h
  | cons b bs ih =>
    unfold newCells at h
    have key : c ∈ newCells (x + 1) bs → x ≤ c.1 ∧ c.1 < x + (b :: bs).length ∧ c.2 ≠ 0 := by
      intro hc
      have := ih hc
      simp only [List.length_cons]
      exact ⟨by omega, by omega, this.2.2⟩
    split at h
    · exact key h
    · rcases List.mem_cons.mp h with e | e
      · subst e; simp only [List.length_cons]; exact ⟨by omega, by omega, by assumption⟩
      · exact key e

theorem pairwise_newCells (x : Nat) (bs : List Byte) : (newCells x bs).Pairwise (fun p q => p.1 < q.1) := by
  induction bs generalizing x with
  | nil => simp [newCells]
  | cons b bs ih =>
    unfold newCells
    split
    · exact ih (x + 1)
    · refine List.pairwise_cons.mpr ⟨?_, ih (x + 1)⟩
      intro r hr
      have := mem_newCells hr
      simp only; omega

theorem mapGet_newCells (x : Nat) (bs : List Byte) (a : Nat) :
    mapGet 0 (newCells x bs) a = if x ≤ a then bs.getD (a - x) 0 else 0 := by
  induction bs generalizing x with
  | nil => simp [newCells, mapGet]
  | cons b bs ih =>
    unfold newCells
    by_cases hx : x = a
    · subst hx
      split
      · rename_i hb
        rw [ih, if_neg (by omega)]; simp [hb]
      · simp [mapGet]
    · have hne : ¬ x = a := hx
      have hstep : mapGet 0 (newCells (x + 1) bs) a = if x ≤ a then (b :: bs).getD (a - x) 0 else 0 := by
        rw [ih]
        by_cases h1 : x + 1 ≤ a
        · rw [if_pos h1, if_pos (by omega)]
          obtain ⟨n, hn⟩ : ∃ n, a - x = n + 1 := ⟨a - x - 1, by omega⟩
          rw [hn, show a - (x + 1) = n by omega]; simp
        · rw [if_neg h1, if_neg (by omega)]
      split
      · exact hstep
      · simp only [mapGet, if_neg hne]; exact hstep

/-- Mica keeps its canonical form under a write of a run of bytes. -/
theorem mapWf_micaPutBytes {m : List Host.Cell} (h : mapWf (fun _ => (0 : Byte)) m = true) (x : Nat) (bs : List Byte) :
    mapWf (fun _ => (0 : Byte)) (micaPutBytes m x bs) = true := by
  rw [mapWf_iff] at *
  unfold micaPutBytes
  refine ⟨?_, ?_⟩
  · rw [List.pairwise_append, List.pairwise_append]
    refine ⟨⟨h.1.sublist List.filter_sublist, pairwise_newCells x bs, ?_⟩, h.1.sublist List.filter_sublist, ?_⟩
    · intro a ha b hb
      have h1 := (List.mem_filter.mp ha).2
      have h2 := mem_newCells hb
      simp only [decide_eq_true_eq] at h1
      omega
    · intro a ha b hb
      have h2 := (List.mem_filter.mp hb).2
      simp only [decide_eq_true_eq] at h2
      rcases List.mem_append.mp ha with e | e
      · have h1 := (List.mem_filter.mp e).2
        simp only [decide_eq_true_eq] at h1
        omega
      · have := mem_newCells e
        omega
  · intro p hp
    rcases List.mem_append.mp hp with e | e
    · rcases List.mem_append.mp e with e | e
      · exact h.2 p (List.mem_filter.mp e).1
      · exact (mem_newCells e).2.2
    · exact h.2 p (List.mem_filter.mp e).1

/-- A byte of Mica after a write: inside the run the byte written, outside it as before. -/
theorem micaByte_micaWrite (s : State) (x : Nat) (bs : List Byte) (a : Nat) :
    micaByte (micaWrite s x bs) a =
      if x ≤ a ∧ a < x + bs.length then bs.getD (a - x) 0 else micaByte s a := by
  have f1 : mapGet (0 : Byte) (s.mica.filter (fun c => decide (c.1 < x))) a =
      if a < x then mapGet 0 s.mica a else 0 := by
    simpa using mapGet_filter (0 : Byte) s.mica (fun n => decide (n < x)) a
  have f2 : mapGet (0 : Byte) (s.mica.filter (fun c => decide (x + bs.length ≤ c.1))) a =
      if x + bs.length ≤ a then mapGet 0 s.mica a else 0 := by
    simpa using mapGet_filter (0 : Byte) s.mica (fun n => decide (x + bs.length ≤ n)) a
  have k1 : ∀ p ∈ s.mica.filter (fun c => decide (c.1 < x)), p.1 < x := fun p hp => by
    simpa using (List.mem_filter.mp hp).2
  have k2 : ∀ p ∈ s.mica.filter (fun c => decide (x + bs.length ≤ c.1)), x + bs.length ≤ p.1 := fun p hp => by
    simpa using (List.mem_filter.mp hp).2
  show mapGet 0 (micaPutBytes s.mica x bs) a = if x ≤ a ∧ a < x + bs.length then bs.getD (a - x) 0 else mapGet 0 s.mica a
  unfold micaPutBytes
  by_cases h1 : a < x
  · rw [mapGet_append_left _ _ _ _ (fun p hp => by have := k2 p hp; omega),
      mapGet_append_left _ _ _ _ (fun p hp => by have := mem_newCells hp; omega), f1, if_pos h1, if_neg (by omega)]
  · rw [List.append_assoc, mapGet_append_right _ _ _ _ (fun p hp => by have := k1 p hp; omega)]
    by_cases h2 : a < x + bs.length
    · rw [mapGet_append_left _ _ _ _ (fun p hp => by have := k2 p hp; omega), mapGet_newCells, if_pos (by omega),
        if_pos (by omega)]
    · rw [mapGet_append_right _ _ _ _ (fun p hp => by have := mem_newCells hp; omega), f2, if_pos (by omega),
        if_neg (by omega)]

/-- Inserting a poison mark keeps the marks rising. -/
theorem mem_insNat {x y : Nat} {l : List Nat} : y ∈ insNat x l ↔ y = x ∨ y ∈ l := by
  induction l with
  | nil => simp [insNat]
  | cons z l ih =>
    unfold insNat
    split
    · simp
    · split
      · subst_vars; simp
      · simp only [List.mem_cons, ih]; tauto

theorem perm_insertBy {α : Type} (le : α → α → Bool) (x : α) (l : List α) : (insertBy le x l).Perm (x :: l) := by
  induction l with
  | nil => exact .refl _
  | cons y ys ih =>
    unfold insertBy
    split
    · exact .refl _
    · exact (ih.cons y).trans (.swap x y ys)

/-- Sorting loses and adds nothing. -/
theorem perm_sortBy {α : Type} (le : α → α → Bool) (l : List α) : (sortBy le l).Perm l := by
  induction l with
  | nil => exact .refl _
  | cons x xs ih => exact (perm_insertBy le x _).trans (ih.cons x)

theorem pairwise_insertBy {α : Type} {le : α → α → Bool} (total : ∀ a b, le a b = true ∨ le b a = true)
    (trans : ∀ a b c, le a b = true → le b c = true → le a c = true) (x : α) {l : List α}
    (h : l.Pairwise (fun a b => le a b = true)) : (insertBy le x l).Pairwise (fun a b => le a b = true) := by
  induction l with
  | nil => simp [insertBy]
  | cons y ys ih =>
    obtain ⟨h1, h2⟩ := List.pairwise_cons.mp h
    unfold insertBy
    split
    · next hxy =>
      refine List.pairwise_cons.mpr ⟨fun z hz => ?_, h⟩
      rcases List.mem_cons.mp hz with e | e
      · exact e ▸ hxy
      · exact trans _ _ _ hxy (h1 z e)
    · next hxy =>
      refine List.pairwise_cons.mpr ⟨fun z hz => ?_, ih h2⟩
      rcases List.mem_cons.mp ((perm_insertBy le x ys).mem_iff.mp hz) with e | e
      · exact e ▸ (total x y).resolve_left hxy
      · exact h1 z e

/-- Sorting by a total order gives the entries in that order. -/
theorem pairwise_sortBy {α : Type} {le : α → α → Bool} (total : ∀ a b, le a b = true ∨ le b a = true)
    (trans : ∀ a b c, le a b = true → le b c = true → le a c = true) (l : List α) :
    (sortBy le l).Pairwise (fun a b => le a b = true) := by
  induction l with
  | nil => exact .nil
  | cons x xs ih => exact pairwise_insertBy total trans x ih

theorem pairwise_insNat {x : Nat} {l : List Nat} (h : l.Pairwise (· < ·)) : (insNat x l).Pairwise (· < ·) := by
  induction l with
  | nil => simp [insNat]
  | cons z l ih =>
    obtain ⟨h1, h2⟩ := List.pairwise_cons.mp h
    unfold insNat
    split
    · refine List.pairwise_cons.mpr ⟨?_, h⟩
      intro r hr
      rcases List.mem_cons.mp hr with e | e
      · omega
      · have := h1 r e; omega
    · split
      · exact h
      · refine List.pairwise_cons.mpr ⟨?_, ih h2⟩
        intro r hr
        rcases mem_insNat.mp hr with e | e
        · omega
        · exact h1 r e

end Sys2Proof.Machine
end

