-- ==== Sys2Proof/Laws/State.lean ====
section
/-! SUPPORT. The small updates of State: what each leaves, field by field, and what reading gives after each. -/

namespace Sys2Proof.Machine

variable (s : State)

/-! ## Registers -/

theorem rd_wr (a : Nat) (v : W64) (b : Nat) : rd (wr s a v) b = if a = b then v else rd s b := by
  unfold rd wr
  by_cases h : a = b
  · subst h; rw [mapGet_mapPut]
  · rw [mapGet_mapPut_ne _ _ _ _ _ _ h]; simp [h]

@[simp] theorem rd_wr_self (a : Nat) (v : W64) : rd (wr s a v) a = v := by rw [rd_wr]; simp

theorem rd_wr_ne {a b : Nat} (v : W64) (h : a ≠ b) : rd (wr s a v) b = rd s b := by rw [rd_wr]; simp [h]

theorem rd_setFld_ne {a b : Nat} (f : Field) (v : Nat) (h : a ≠ b) : rd (setFld s a f v) b = rd s b := rd_wr_ne s _ h

theorem fld_setFld_ne {a b : Nat} (f g : Field) (v : Nat) (h : a ≠ b) : fld (setFld s a f v) b g = fld s b g := by
  unfold fld; rw [rd_setFld_ne s f v h]

theorem setBits_eq (x lo n v : Nat) :
    setBits x lo n v = x % 2 ^ lo + 2 ^ lo * (v % 2 ^ n + 2 ^ n * (x / 2 ^ (lo + n))) := by
  unfold setBits bits
  simp only [Nat.shiftLeft_eq, Nat.shiftRight_eq_div_pow]
  have h1 := Nat.div_add_mod x (2 ^ lo)
  have h2 := Nat.div_add_mod (x / 2 ^ lo) (2 ^ n)
  have h3 : x / 2 ^ lo / 2 ^ n = x / 2 ^ (lo + n) := by rw [Nat.div_div_eq_div_mul, Nat.pow_add]
  rw [h3] at h2
  have h4 : x = 2 ^ lo * (2 ^ n * (x / 2 ^ (lo + n))) + 2 ^ lo * (x / 2 ^ lo % 2 ^ n) + x % 2 ^ lo := by
    rw [← Nat.mul_add, h2, h1]
  have h5 : x - x / 2 ^ lo % 2 ^ n * 2 ^ lo = 2 ^ lo * (2 ^ n * (x / 2 ^ (lo + n))) + x % 2 ^ lo := by
    rw [Nat.mul_comm (x / 2 ^ lo % 2 ^ n)]; omega
  rw [h5]; ring

theorem testBit_setBits (x lo n v i : Nat) :
    (setBits x lo n v).testBit i =
      if i < lo then x.testBit i else if i < lo + n then v.testBit (i - lo) else x.testBit i := by
  rw [setBits_eq, Nat.add_comm, Nat.testBit_two_pow_mul_add _ (Nat.mod_lt _ (Nat.two_pow_pos lo))]
  by_cases h : i < lo
  · simp [h, Nat.testBit_mod_two_pow]
  · simp only [h, if_false]
    rw [Nat.add_comm (v % 2 ^ n), Nat.testBit_two_pow_mul_add _ (Nat.mod_lt _ (Nat.two_pow_pos n))]
    by_cases h2 : i < lo + n
    · have : i - lo < n := by omega
      simp [h2, this, Nat.testBit_mod_two_pow]
    · have : ¬ i - lo < n := by omega
      simp only [h2, this, if_false, Nat.testBit_div_two_pow]
      congr 1; omega

theorem testBit_bits (x lo n i : Nat) : (bits x lo n).testBit i = (decide (i < n) && x.testBit (lo + i)) := by
  unfold bits; rw [Nat.testBit_mod_two_pow, Nat.testBit_shiftRight]

theorem bits_setBits_self (x lo n v : Nat) : bits (setBits x lo n v) lo n = v % 2 ^ n := by
  apply Nat.eq_of_testBit_eq; intro i
  rw [testBit_bits, testBit_setBits, Nat.testBit_mod_two_pow]
  by_cases h : i < n
  · have h1 : ¬ lo + i < lo := by omega
    have h2 : lo + i < lo + n := by omega
    have h3 : lo + i - lo = i := by omega
    simp [h]
  · simp [h]

theorem bits_setBits_other (x lo n v l m : Nat) (h : l + m ≤ lo ∨ lo + n ≤ l) :
    bits (setBits x lo n v) l m = bits x l m := by
  apply Nat.eq_of_testBit_eq; intro i
  rw [testBit_bits, testBit_bits, testBit_setBits]
  by_cases hi : i < m
  · rcases h with h | h
    · have h1 : l + i < lo := by omega
      simp [h1]
    · have h1 : ¬ l + i < lo := by omega
      have h2 : ¬ l + i < lo + n := by omega
      simp [h1, h2]
  · simp [hi]

theorem bits_mod (x lo n w : Nat) (h : lo + n ≤ w) : bits (x % 2 ^ w) lo n = bits x lo n := by
  apply Nat.eq_of_testBit_eq; intro i
  rw [testBit_bits, testBit_bits, Nat.testBit_mod_two_pow]
  by_cases hi : i < n
  · have : lo + i < w := by omega
    simp [this]
  · simp [hi]

/-- A field reads as written, modulo its width. -/
theorem fld_setFld_self (a : Nat) (f : Field) (v : Nat) (h : f.lo + f.width ≤ 64) :
    fld (setFld s a f v) a f = v % 2 ^ f.width := by
  unfold fld setFld; rw [rd_wr_self, BitVec.toNat_ofNat, bits_mod _ _ _ _ h, bits_setBits_self]

/-- Another field of the register keeps its value. -/
theorem fld_setFld_other (a : Nat) (f g : Field) (v : Nat) (h : g.lo + g.width ≤ f.lo ∨ f.lo + f.width ≤ g.lo)
    (hg : g.lo + g.width ≤ 64) : fld (setFld s a f v) a g = fld s a g := by
  unfold fld setFld; rw [rd_wr_self, BitVec.toNat_ofNat, bits_mod _ _ _ _ hg, bits_setBits_other _ _ _ _ _ _ h]

/-! ## Tables -/

theorem vein_setVein (v : Nat) (x : VeinSt) (w : Nat) : vein (setVein s v x) w = if v = w then x else vein s w := by
  unfold vein setVein tabGet; rw [mapGet_tabSet]

theorem strm_setStrm (i : Nat) (x : StreamSt) (j : Nat) : strm (setStrm s i x) j = if i = j then x else strm s j := by
  unfold strm setStrm tabGet; rw [mapGet_tabSet]

theorem mcg_setMcg (g : Nat) (x : McSt) (h : Nat) : mcg (setMcg s g x) h = if g = h then x else mcg s h := by
  unfold mcg setMcg tabGet; rw [mapGet_tabSet]

theorem arr_setArr (a : Nat) (x : ArrSt) (b : Nat) : arr (setArr s a x) b = if a = b then x else arr s b := by
  unfold arr setArr tabGet; rw [mapGet_tabSet]

theorem link_setLink (l : Nat) (x : LinkSt) (k : Nat) : link (setLink s l x) k = if l = k then x else link s k := by
  unfold link setLink tabGet; rw [mapGet_tabSet]

@[simp] theorem vein_setVein_self (v : Nat) (x : VeinSt) : vein (setVein s v x) v = x := by rw [vein_setVein]; simp
@[simp] theorem strm_setStrm_self (i : Nat) (x : StreamSt) : strm (setStrm s i x) i = x := by rw [strm_setStrm]; simp
@[simp] theorem mcg_setMcg_self (g : Nat) (x : McSt) : mcg (setMcg s g x) g = x := by rw [mcg_setMcg]; simp
@[simp] theorem arr_setArr_self (a : Nat) (x : ArrSt) : arr (setArr s a x) a = x := by rw [arr_setArr]; simp
@[simp] theorem link_setLink_self (l : Nat) (x : LinkSt) : link (setLink s l x) l = x := by rw [link_setLink]; simp

/-! ## What an update leaves -/

@[simp] theorem wr_mica (a : Nat) (v : W64) : (wr s a v).mica = s.mica := rfl
@[simp] theorem wr_poison (a : Nat) (v : W64) : (wr s a v).poison = s.poison := rfl
@[simp] theorem wr_su (a : Nat) (v : W64) : (wr s a v).su = s.su := rfl
@[simp] theorem wr_locked (a : Nat) (v : W64) : (wr s a v).locked = s.locked := rfl
@[simp] theorem wr_pins (a : Nat) (v : W64) : (wr s a v).pins = s.pins := rfl
@[simp] theorem wr_strap (a : Nat) (v : W64) : (wr s a v).strap = s.strap := rfl
@[simp] theorem wr_veins (a : Nat) (v : W64) : (wr s a v).veins = s.veins := rfl
@[simp] theorem wr_streams (a : Nat) (v : W64) : (wr s a v).streams = s.streams := rfl
@[simp] theorem wr_groups (a : Nat) (v : W64) : (wr s a v).groups = s.groups := rfl
@[simp] theorem wr_arrays (a : Nat) (v : W64) : (wr s a v).arrays = s.arrays := rfl
@[simp] theorem wr_stamp (a : Nat) (v : W64) : (wr s a v).stamp = s.stamp := rfl
@[simp] theorem wr_crn (a : Nat) (v : W64) : (wr s a v).crn = s.crn := rfl
@[simp] theorem wr_trm (a : Nat) (v : W64) : (wr s a v).trm = s.trm := rfl
@[simp] theorem wr_detCount (a : Nat) (v : W64) : (wr s a v).detCount = s.detCount := rfl
@[simp] theorem wr_recWrap (a : Nat) (v : W64) : (wr s a v).recWrap = s.recWrap := rfl
@[simp] theorem wr_links (a : Nat) (v : W64) : (wr s a v).links = s.links := rfl
@[simp] theorem wr_transit (a : Nat) (v : W64) : (wr s a v).transit = s.transit := rfl
@[simp] theorem wr_writes (a : Nat) (v : W64) : (wr s a v).writes = s.writes := rfl
@[simp] theorem wr_lostTags (a : Nat) (v : W64) : (wr s a v).lostTags = s.lostTags := rfl
@[simp] theorem wr_dpMode (a : Nat) (v : W64) : (wr s a v).dpMode = s.dpMode := rfl
@[simp] theorem wr_traceQ (a : Nat) (v : W64) : (wr s a v).traceQ = s.traceQ := rfl
@[simp] theorem wr_injSeen (a : Nat) (v : W64) : (wr s a v).injSeen = s.injSeen := rfl
@[simp] theorem wr_sched (a : Nat) (v : W64) : (wr s a v).sched = s.sched := rfl
@[simp] theorem wr_updStop (a : Nat) (v : W64) : (wr s a v).updStop = s.updStop := rfl
@[simp] theorem wr_schedBusy (a : Nat) (v : W64) : (wr s a v).schedBusy = s.schedBusy := rfl
@[simp] theorem wr_pgtHold (a : Nat) (v : W64) : (wr s a v).pgtHold = s.pgtHold := rfl
@[simp] theorem wr_evacReqs (a : Nat) (v : W64) : (wr s a v).evacReqs = s.evacReqs := rfl
@[simp] theorem wr_slt (a : Nat) (v : W64) : (wr s a v).slt = s.slt := rfl
@[simp] theorem wr_svc (a : Nat) (v : W64) : (wr s a v).svc = s.svc := rfl
@[simp] theorem wr_free (a : Nat) (v : W64) : (wr s a v).free = s.free := rfl
@[simp] theorem wr_out (a : Nat) (v : W64) : (wr s a v).out = s.out := rfl
@[simp] theorem wr_pending (a : Nat) (v : W64) : (wr s a v).pending = s.pending := rfl

@[simp] theorem setFld_mica (a : Nat) (f : Field) (v : Nat) : (setFld s a f v).mica = s.mica := rfl
@[simp] theorem setFld_poison (a : Nat) (f : Field) (v : Nat) : (setFld s a f v).poison = s.poison := rfl
@[simp] theorem setFld_su (a : Nat) (f : Field) (v : Nat) : (setFld s a f v).su = s.su := rfl
@[simp] theorem setFld_locked (a : Nat) (f : Field) (v : Nat) : (setFld s a f v).locked = s.locked := rfl
@[simp] theorem setFld_pins (a : Nat) (f : Field) (v : Nat) : (setFld s a f v).pins = s.pins := rfl
@[simp] theorem setFld_strap (a : Nat) (f : Field) (v : Nat) : (setFld s a f v).strap = s.strap := rfl
@[simp] theorem setFld_veins (a : Nat) (f : Field) (v : Nat) : (setFld s a f v).veins = s.veins := rfl
@[simp] theorem setFld_streams (a : Nat) (f : Field) (v : Nat) : (setFld s a f v).streams = s.streams := rfl
@[simp] theorem setFld_groups (a : Nat) (f : Field) (v : Nat) : (setFld s a f v).groups = s.groups := rfl
@[simp] theorem setFld_arrays (a : Nat) (f : Field) (v : Nat) : (setFld s a f v).arrays = s.arrays := rfl
@[simp] theorem setFld_stamp (a : Nat) (f : Field) (v : Nat) : (setFld s a f v).stamp = s.stamp := rfl
@[simp] theorem setFld_crn (a : Nat) (f : Field) (v : Nat) : (setFld s a f v).crn = s.crn := rfl
@[simp] theorem setFld_trm (a : Nat) (f : Field) (v : Nat) : (setFld s a f v).trm = s.trm := rfl
@[simp] theorem setFld_detCount (a : Nat) (f : Field) (v : Nat) : (setFld s a f v).detCount = s.detCount := rfl
@[simp] theorem setFld_recWrap (a : Nat) (f : Field) (v : Nat) : (setFld s a f v).recWrap = s.recWrap := rfl
@[simp] theorem setFld_links (a : Nat) (f : Field) (v : Nat) : (setFld s a f v).links = s.links := rfl
@[simp] theorem setFld_transit (a : Nat) (f : Field) (v : Nat) : (setFld s a f v).transit = s.transit := rfl
@[simp] theorem setFld_writes (a : Nat) (f : Field) (v : Nat) : (setFld s a f v).writes = s.writes := rfl
@[simp] theorem setFld_lostTags (a : Nat) (f : Field) (v : Nat) : (setFld s a f v).lostTags = s.lostTags := rfl
@[simp] theorem setFld_dpMode (a : Nat) (f : Field) (v : Nat) : (setFld s a f v).dpMode = s.dpMode := rfl
@[simp] theorem setFld_traceQ (a : Nat) (f : Field) (v : Nat) : (setFld s a f v).traceQ = s.traceQ := rfl
@[simp] theorem setFld_injSeen (a : Nat) (f : Field) (v : Nat) : (setFld s a f v).injSeen = s.injSeen := rfl
@[simp] theorem setFld_sched (a : Nat) (f : Field) (v : Nat) : (setFld s a f v).sched = s.sched := rfl
@[simp] theorem setFld_updStop (a : Nat) (f : Field) (v : Nat) : (setFld s a f v).updStop = s.updStop := rfl
@[simp] theorem setFld_schedBusy (a : Nat) (f : Field) (v : Nat) : (setFld s a f v).schedBusy = s.schedBusy := rfl
@[simp] theorem setFld_pgtHold (a : Nat) (f : Field) (v : Nat) : (setFld s a f v).pgtHold = s.pgtHold := rfl
@[simp] theorem setFld_evacReqs (a : Nat) (f : Field) (v : Nat) : (setFld s a f v).evacReqs = s.evacReqs := rfl
@[simp] theorem setFld_slt (a : Nat) (f : Field) (v : Nat) : (setFld s a f v).slt = s.slt := rfl
@[simp] theorem setFld_svc (a : Nat) (f : Field) (v : Nat) : (setFld s a f v).svc = s.svc := rfl
@[simp] theorem setFld_free (a : Nat) (f : Field) (v : Nat) : (setFld s a f v).free = s.free := rfl
@[simp] theorem setFld_out (a : Nat) (f : Field) (v : Nat) : (setFld s a f v).out = s.out := rfl
@[simp] theorem setFld_pending (a : Nat) (f : Field) (v : Nat) : (setFld s a f v).pending = s.pending := rfl

@[simp] theorem setFlag_mica (a : Nat) (f : Field) (v : Bool) : (setFlag s a f v).mica = s.mica := rfl
@[simp] theorem setFlag_poison (a : Nat) (f : Field) (v : Bool) : (setFlag s a f v).poison = s.poison := rfl
@[simp] theorem setFlag_su (a : Nat) (f : Field) (v : Bool) : (setFlag s a f v).su = s.su := rfl
@[simp] theorem setFlag_locked (a : Nat) (f : Field) (v : Bool) : (setFlag s a f v).locked = s.locked := rfl
@[simp] theorem setFlag_pins (a : Nat) (f : Field) (v : Bool) : (setFlag s a f v).pins = s.pins := rfl
@[simp] theorem setFlag_strap (a : Nat) (f : Field) (v : Bool) : (setFlag s a f v).strap = s.strap := rfl
@[simp] theorem setFlag_veins (a : Nat) (f : Field) (v : Bool) : (setFlag s a f v).veins = s.veins := rfl
@[simp] theorem setFlag_streams (a : Nat) (f : Field) (v : Bool) : (setFlag s a f v).streams = s.streams := rfl
@[simp] theorem setFlag_groups (a : Nat) (f : Field) (v : Bool) : (setFlag s a f v).groups = s.groups := rfl
@[simp] theorem setFlag_arrays (a : Nat) (f : Field) (v : Bool) : (setFlag s a f v).arrays = s.arrays := rfl
@[simp] theorem setFlag_stamp (a : Nat) (f : Field) (v : Bool) : (setFlag s a f v).stamp = s.stamp := rfl
@[simp] theorem setFlag_crn (a : Nat) (f : Field) (v : Bool) : (setFlag s a f v).crn = s.crn := rfl
@[simp] theorem setFlag_trm (a : Nat) (f : Field) (v : Bool) : (setFlag s a f v).trm = s.trm := rfl
@[simp] theorem setFlag_detCount (a : Nat) (f : Field) (v : Bool) : (setFlag s a f v).detCount = s.detCount := rfl
@[simp] theorem setFlag_recWrap (a : Nat) (f : Field) (v : Bool) : (setFlag s a f v).recWrap = s.recWrap := rfl
@[simp] theorem setFlag_links (a : Nat) (f : Field) (v : Bool) : (setFlag s a f v).links = s.links := rfl
@[simp] theorem setFlag_transit (a : Nat) (f : Field) (v : Bool) : (setFlag s a f v).transit = s.transit := rfl
@[simp] theorem setFlag_writes (a : Nat) (f : Field) (v : Bool) : (setFlag s a f v).writes = s.writes := rfl
@[simp] theorem setFlag_lostTags (a : Nat) (f : Field) (v : Bool) : (setFlag s a f v).lostTags = s.lostTags := rfl
@[simp] theorem setFlag_dpMode (a : Nat) (f : Field) (v : Bool) : (setFlag s a f v).dpMode = s.dpMode := rfl
@[simp] theorem setFlag_traceQ (a : Nat) (f : Field) (v : Bool) : (setFlag s a f v).traceQ = s.traceQ := rfl
@[simp] theorem setFlag_injSeen (a : Nat) (f : Field) (v : Bool) : (setFlag s a f v).injSeen = s.injSeen := rfl
@[simp] theorem setFlag_sched (a : Nat) (f : Field) (v : Bool) : (setFlag s a f v).sched = s.sched := rfl
@[simp] theorem setFlag_updStop (a : Nat) (f : Field) (v : Bool) : (setFlag s a f v).updStop = s.updStop := rfl
@[simp] theorem setFlag_schedBusy (a : Nat) (f : Field) (v : Bool) : (setFlag s a f v).schedBusy = s.schedBusy := rfl
@[simp] theorem setFlag_pgtHold (a : Nat) (f : Field) (v : Bool) : (setFlag s a f v).pgtHold = s.pgtHold := rfl
@[simp] theorem setFlag_evacReqs (a : Nat) (f : Field) (v : Bool) : (setFlag s a f v).evacReqs = s.evacReqs := rfl
@[simp] theorem setFlag_slt (a : Nat) (f : Field) (v : Bool) : (setFlag s a f v).slt = s.slt := rfl
@[simp] theorem setFlag_svc (a : Nat) (f : Field) (v : Bool) : (setFlag s a f v).svc = s.svc := rfl
@[simp] theorem setFlag_free (a : Nat) (f : Field) (v : Bool) : (setFlag s a f v).free = s.free := rfl
@[simp] theorem setFlag_out (a : Nat) (f : Field) (v : Bool) : (setFlag s a f v).out = s.out := rfl
@[simp] theorem setFlag_pending (a : Nat) (f : Field) (v : Bool) : (setFlag s a f v).pending = s.pending := rfl

@[simp] theorem incFld_mica (a : Nat) (f : Field) (v : Nat) : (incFld s a f v).mica = s.mica := rfl
@[simp] theorem incFld_poison (a : Nat) (f : Field) (v : Nat) : (incFld s a f v).poison = s.poison := rfl
@[simp] theorem incFld_su (a : Nat) (f : Field) (v : Nat) : (incFld s a f v).su = s.su := rfl
@[simp] theorem incFld_locked (a : Nat) (f : Field) (v : Nat) : (incFld s a f v).locked = s.locked := rfl
@[simp] theorem incFld_pins (a : Nat) (f : Field) (v : Nat) : (incFld s a f v).pins = s.pins := rfl
@[simp] theorem incFld_strap (a : Nat) (f : Field) (v : Nat) : (incFld s a f v).strap = s.strap := rfl
@[simp] theorem incFld_veins (a : Nat) (f : Field) (v : Nat) : (incFld s a f v).veins = s.veins := rfl
@[simp] theorem incFld_streams (a : Nat) (f : Field) (v : Nat) : (incFld s a f v).streams = s.streams := rfl
@[simp] theorem incFld_groups (a : Nat) (f : Field) (v : Nat) : (incFld s a f v).groups = s.groups := rfl
@[simp] theorem incFld_arrays (a : Nat) (f : Field) (v : Nat) : (incFld s a f v).arrays = s.arrays := rfl
@[simp] theorem incFld_stamp (a : Nat) (f : Field) (v : Nat) : (incFld s a f v).stamp = s.stamp := rfl
@[simp] theorem incFld_crn (a : Nat) (f : Field) (v : Nat) : (incFld s a f v).crn = s.crn := rfl
@[simp] theorem incFld_trm (a : Nat) (f : Field) (v : Nat) : (incFld s a f v).trm = s.trm := rfl
@[simp] theorem incFld_detCount (a : Nat) (f : Field) (v : Nat) : (incFld s a f v).detCount = s.detCount := rfl
@[simp] theorem incFld_recWrap (a : Nat) (f : Field) (v : Nat) : (incFld s a f v).recWrap = s.recWrap := rfl
@[simp] theorem incFld_links (a : Nat) (f : Field) (v : Nat) : (incFld s a f v).links = s.links := rfl
@[simp] theorem incFld_transit (a : Nat) (f : Field) (v : Nat) : (incFld s a f v).transit = s.transit := rfl
@[simp] theorem incFld_writes (a : Nat) (f : Field) (v : Nat) : (incFld s a f v).writes = s.writes := rfl
@[simp] theorem incFld_lostTags (a : Nat) (f : Field) (v : Nat) : (incFld s a f v).lostTags = s.lostTags := rfl
@[simp] theorem incFld_dpMode (a : Nat) (f : Field) (v : Nat) : (incFld s a f v).dpMode = s.dpMode := rfl
@[simp] theorem incFld_traceQ (a : Nat) (f : Field) (v : Nat) : (incFld s a f v).traceQ = s.traceQ := rfl
@[simp] theorem incFld_injSeen (a : Nat) (f : Field) (v : Nat) : (incFld s a f v).injSeen = s.injSeen := rfl
@[simp] theorem incFld_sched (a : Nat) (f : Field) (v : Nat) : (incFld s a f v).sched = s.sched := rfl
@[simp] theorem incFld_updStop (a : Nat) (f : Field) (v : Nat) : (incFld s a f v).updStop = s.updStop := rfl
@[simp] theorem incFld_schedBusy (a : Nat) (f : Field) (v : Nat) : (incFld s a f v).schedBusy = s.schedBusy := rfl
@[simp] theorem incFld_pgtHold (a : Nat) (f : Field) (v : Nat) : (incFld s a f v).pgtHold = s.pgtHold := rfl
@[simp] theorem incFld_evacReqs (a : Nat) (f : Field) (v : Nat) : (incFld s a f v).evacReqs = s.evacReqs := rfl
@[simp] theorem incFld_slt (a : Nat) (f : Field) (v : Nat) : (incFld s a f v).slt = s.slt := rfl
@[simp] theorem incFld_svc (a : Nat) (f : Field) (v : Nat) : (incFld s a f v).svc = s.svc := rfl
@[simp] theorem incFld_free (a : Nat) (f : Field) (v : Nat) : (incFld s a f v).free = s.free := rfl
@[simp] theorem incFld_out (a : Nat) (f : Field) (v : Nat) : (incFld s a f v).out = s.out := rfl
@[simp] theorem incFld_pending (a : Nat) (f : Field) (v : Nat) : (incFld s a f v).pending = s.pending := rfl

@[simp] theorem satFld_mica (a : Nat) (f : Field) (v : Nat) : (satFld s a f v).mica = s.mica := rfl
@[simp] theorem satFld_poison (a : Nat) (f : Field) (v : Nat) : (satFld s a f v).poison = s.poison := rfl
@[simp] theorem satFld_su (a : Nat) (f : Field) (v : Nat) : (satFld s a f v).su = s.su := rfl
@[simp] theorem satFld_locked (a : Nat) (f : Field) (v : Nat) : (satFld s a f v).locked = s.locked := rfl
@[simp] theorem satFld_pins (a : Nat) (f : Field) (v : Nat) : (satFld s a f v).pins = s.pins := rfl
@[simp] theorem satFld_strap (a : Nat) (f : Field) (v : Nat) : (satFld s a f v).strap = s.strap := rfl
@[simp] theorem satFld_veins (a : Nat) (f : Field) (v : Nat) : (satFld s a f v).veins = s.veins := rfl
@[simp] theorem satFld_streams (a : Nat) (f : Field) (v : Nat) : (satFld s a f v).streams = s.streams := rfl
@[simp] theorem satFld_groups (a : Nat) (f : Field) (v : Nat) : (satFld s a f v).groups = s.groups := rfl
@[simp] theorem satFld_arrays (a : Nat) (f : Field) (v : Nat) : (satFld s a f v).arrays = s.arrays := rfl
@[simp] theorem satFld_stamp (a : Nat) (f : Field) (v : Nat) : (satFld s a f v).stamp = s.stamp := rfl
@[simp] theorem satFld_crn (a : Nat) (f : Field) (v : Nat) : (satFld s a f v).crn = s.crn := rfl
@[simp] theorem satFld_trm (a : Nat) (f : Field) (v : Nat) : (satFld s a f v).trm = s.trm := rfl
@[simp] theorem satFld_detCount (a : Nat) (f : Field) (v : Nat) : (satFld s a f v).detCount = s.detCount := rfl
@[simp] theorem satFld_recWrap (a : Nat) (f : Field) (v : Nat) : (satFld s a f v).recWrap = s.recWrap := rfl
@[simp] theorem satFld_links (a : Nat) (f : Field) (v : Nat) : (satFld s a f v).links = s.links := rfl
@[simp] theorem satFld_transit (a : Nat) (f : Field) (v : Nat) : (satFld s a f v).transit = s.transit := rfl
@[simp] theorem satFld_writes (a : Nat) (f : Field) (v : Nat) : (satFld s a f v).writes = s.writes := rfl
@[simp] theorem satFld_lostTags (a : Nat) (f : Field) (v : Nat) : (satFld s a f v).lostTags = s.lostTags := rfl
@[simp] theorem satFld_dpMode (a : Nat) (f : Field) (v : Nat) : (satFld s a f v).dpMode = s.dpMode := rfl
@[simp] theorem satFld_traceQ (a : Nat) (f : Field) (v : Nat) : (satFld s a f v).traceQ = s.traceQ := rfl
@[simp] theorem satFld_injSeen (a : Nat) (f : Field) (v : Nat) : (satFld s a f v).injSeen = s.injSeen := rfl
@[simp] theorem satFld_sched (a : Nat) (f : Field) (v : Nat) : (satFld s a f v).sched = s.sched := rfl
@[simp] theorem satFld_updStop (a : Nat) (f : Field) (v : Nat) : (satFld s a f v).updStop = s.updStop := rfl
@[simp] theorem satFld_schedBusy (a : Nat) (f : Field) (v : Nat) : (satFld s a f v).schedBusy = s.schedBusy := rfl
@[simp] theorem satFld_pgtHold (a : Nat) (f : Field) (v : Nat) : (satFld s a f v).pgtHold = s.pgtHold := rfl
@[simp] theorem satFld_evacReqs (a : Nat) (f : Field) (v : Nat) : (satFld s a f v).evacReqs = s.evacReqs := rfl
@[simp] theorem satFld_slt (a : Nat) (f : Field) (v : Nat) : (satFld s a f v).slt = s.slt := rfl
@[simp] theorem satFld_svc (a : Nat) (f : Field) (v : Nat) : (satFld s a f v).svc = s.svc := rfl
@[simp] theorem satFld_free (a : Nat) (f : Field) (v : Nat) : (satFld s a f v).free = s.free := rfl
@[simp] theorem satFld_out (a : Nat) (f : Field) (v : Nat) : (satFld s a f v).out = s.out := rfl
@[simp] theorem satFld_pending (a : Nat) (f : Field) (v : Nat) : (satFld s a f v).pending = s.pending := rfl

@[simp] theorem orReg_mica (a m : Nat) : (orReg s a m).mica = s.mica := rfl
@[simp] theorem orReg_poison (a m : Nat) : (orReg s a m).poison = s.poison := rfl
@[simp] theorem orReg_su (a m : Nat) : (orReg s a m).su = s.su := rfl
@[simp] theorem orReg_locked (a m : Nat) : (orReg s a m).locked = s.locked := rfl
@[simp] theorem orReg_pins (a m : Nat) : (orReg s a m).pins = s.pins := rfl
@[simp] theorem orReg_strap (a m : Nat) : (orReg s a m).strap = s.strap := rfl
@[simp] theorem orReg_veins (a m : Nat) : (orReg s a m).veins = s.veins := rfl
@[simp] theorem orReg_streams (a m : Nat) : (orReg s a m).streams = s.streams := rfl
@[simp] theorem orReg_groups (a m : Nat) : (orReg s a m).groups = s.groups := rfl
@[simp] theorem orReg_arrays (a m : Nat) : (orReg s a m).arrays = s.arrays := rfl
@[simp] theorem orReg_stamp (a m : Nat) : (orReg s a m).stamp = s.stamp := rfl
@[simp] theorem orReg_crn (a m : Nat) : (orReg s a m).crn = s.crn := rfl
@[simp] theorem orReg_trm (a m : Nat) : (orReg s a m).trm = s.trm := rfl
@[simp] theorem orReg_detCount (a m : Nat) : (orReg s a m).detCount = s.detCount := rfl
@[simp] theorem orReg_recWrap (a m : Nat) : (orReg s a m).recWrap = s.recWrap := rfl
@[simp] theorem orReg_links (a m : Nat) : (orReg s a m).links = s.links := rfl
@[simp] theorem orReg_transit (a m : Nat) : (orReg s a m).transit = s.transit := rfl
@[simp] theorem orReg_writes (a m : Nat) : (orReg s a m).writes = s.writes := rfl
@[simp] theorem orReg_lostTags (a m : Nat) : (orReg s a m).lostTags = s.lostTags := rfl
@[simp] theorem orReg_dpMode (a m : Nat) : (orReg s a m).dpMode = s.dpMode := rfl
@[simp] theorem orReg_traceQ (a m : Nat) : (orReg s a m).traceQ = s.traceQ := rfl
@[simp] theorem orReg_injSeen (a m : Nat) : (orReg s a m).injSeen = s.injSeen := rfl
@[simp] theorem orReg_sched (a m : Nat) : (orReg s a m).sched = s.sched := rfl
@[simp] theorem orReg_updStop (a m : Nat) : (orReg s a m).updStop = s.updStop := rfl
@[simp] theorem orReg_schedBusy (a m : Nat) : (orReg s a m).schedBusy = s.schedBusy := rfl
@[simp] theorem orReg_pgtHold (a m : Nat) : (orReg s a m).pgtHold = s.pgtHold := rfl
@[simp] theorem orReg_evacReqs (a m : Nat) : (orReg s a m).evacReqs = s.evacReqs := rfl
@[simp] theorem orReg_slt (a m : Nat) : (orReg s a m).slt = s.slt := rfl
@[simp] theorem orReg_svc (a m : Nat) : (orReg s a m).svc = s.svc := rfl
@[simp] theorem orReg_free (a m : Nat) : (orReg s a m).free = s.free := rfl
@[simp] theorem orReg_out (a m : Nat) : (orReg s a m).out = s.out := rfl
@[simp] theorem orReg_pending (a m : Nat) : (orReg s a m).pending = s.pending := rfl

@[simp] theorem setVein_regs (v : Nat) (x : VeinSt) : (setVein s v x).regs = s.regs := rfl
@[simp] theorem setVein_mica (v : Nat) (x : VeinSt) : (setVein s v x).mica = s.mica := rfl
@[simp] theorem setVein_poison (v : Nat) (x : VeinSt) : (setVein s v x).poison = s.poison := rfl
@[simp] theorem setVein_su (v : Nat) (x : VeinSt) : (setVein s v x).su = s.su := rfl
@[simp] theorem setVein_locked (v : Nat) (x : VeinSt) : (setVein s v x).locked = s.locked := rfl
@[simp] theorem setVein_pins (v : Nat) (x : VeinSt) : (setVein s v x).pins = s.pins := rfl
@[simp] theorem setVein_strap (v : Nat) (x : VeinSt) : (setVein s v x).strap = s.strap := rfl
@[simp] theorem setVein_streams (v : Nat) (x : VeinSt) : (setVein s v x).streams = s.streams := rfl
@[simp] theorem setVein_groups (v : Nat) (x : VeinSt) : (setVein s v x).groups = s.groups := rfl
@[simp] theorem setVein_arrays (v : Nat) (x : VeinSt) : (setVein s v x).arrays = s.arrays := rfl
@[simp] theorem setVein_stamp (v : Nat) (x : VeinSt) : (setVein s v x).stamp = s.stamp := rfl
@[simp] theorem setVein_crn (v : Nat) (x : VeinSt) : (setVein s v x).crn = s.crn := rfl
@[simp] theorem setVein_trm (v : Nat) (x : VeinSt) : (setVein s v x).trm = s.trm := rfl
@[simp] theorem setVein_detCount (v : Nat) (x : VeinSt) : (setVein s v x).detCount = s.detCount := rfl
@[simp] theorem setVein_recWrap (v : Nat) (x : VeinSt) : (setVein s v x).recWrap = s.recWrap := rfl
@[simp] theorem setVein_links (v : Nat) (x : VeinSt) : (setVein s v x).links = s.links := rfl
@[simp] theorem setVein_transit (v : Nat) (x : VeinSt) : (setVein s v x).transit = s.transit := rfl
@[simp] theorem setVein_writes (v : Nat) (x : VeinSt) : (setVein s v x).writes = s.writes := rfl
@[simp] theorem setVein_lostTags (v : Nat) (x : VeinSt) : (setVein s v x).lostTags = s.lostTags := rfl
@[simp] theorem setVein_dpMode (v : Nat) (x : VeinSt) : (setVein s v x).dpMode = s.dpMode := rfl
@[simp] theorem setVein_traceQ (v : Nat) (x : VeinSt) : (setVein s v x).traceQ = s.traceQ := rfl
@[simp] theorem setVein_injSeen (v : Nat) (x : VeinSt) : (setVein s v x).injSeen = s.injSeen := rfl
@[simp] theorem setVein_sched (v : Nat) (x : VeinSt) : (setVein s v x).sched = s.sched := rfl
@[simp] theorem setVein_updStop (v : Nat) (x : VeinSt) : (setVein s v x).updStop = s.updStop := rfl
@[simp] theorem setVein_schedBusy (v : Nat) (x : VeinSt) : (setVein s v x).schedBusy = s.schedBusy := rfl
@[simp] theorem setVein_pgtHold (v : Nat) (x : VeinSt) : (setVein s v x).pgtHold = s.pgtHold := rfl
@[simp] theorem setVein_evacReqs (v : Nat) (x : VeinSt) : (setVein s v x).evacReqs = s.evacReqs := rfl
@[simp] theorem setVein_slt (v : Nat) (x : VeinSt) : (setVein s v x).slt = s.slt := rfl
@[simp] theorem setVein_svc (v : Nat) (x : VeinSt) : (setVein s v x).svc = s.svc := rfl
@[simp] theorem setVein_free (v : Nat) (x : VeinSt) : (setVein s v x).free = s.free := rfl
@[simp] theorem setVein_out (v : Nat) (x : VeinSt) : (setVein s v x).out = s.out := rfl
@[simp] theorem setVein_pending (v : Nat) (x : VeinSt) : (setVein s v x).pending = s.pending := rfl

@[simp] theorem setStrm_regs (i : Nat) (x : StreamSt) : (setStrm s i x).regs = s.regs := rfl
@[simp] theorem setStrm_mica (i : Nat) (x : StreamSt) : (setStrm s i x).mica = s.mica := rfl
@[simp] theorem setStrm_poison (i : Nat) (x : StreamSt) : (setStrm s i x).poison = s.poison := rfl
@[simp] theorem setStrm_su (i : Nat) (x : StreamSt) : (setStrm s i x).su = s.su := rfl
@[simp] theorem setStrm_locked (i : Nat) (x : StreamSt) : (setStrm s i x).locked = s.locked := rfl
@[simp] theorem setStrm_pins (i : Nat) (x : StreamSt) : (setStrm s i x).pins = s.pins := rfl
@[simp] theorem setStrm_strap (i : Nat) (x : StreamSt) : (setStrm s i x).strap = s.strap := rfl
@[simp] theorem setStrm_veins (i : Nat) (x : StreamSt) : (setStrm s i x).veins = s.veins := rfl
@[simp] theorem setStrm_groups (i : Nat) (x : StreamSt) : (setStrm s i x).groups = s.groups := rfl
@[simp] theorem setStrm_arrays (i : Nat) (x : StreamSt) : (setStrm s i x).arrays = s.arrays := rfl
@[simp] theorem setStrm_stamp (i : Nat) (x : StreamSt) : (setStrm s i x).stamp = s.stamp := rfl
@[simp] theorem setStrm_crn (i : Nat) (x : StreamSt) : (setStrm s i x).crn = s.crn := rfl
@[simp] theorem setStrm_trm (i : Nat) (x : StreamSt) : (setStrm s i x).trm = s.trm := rfl
@[simp] theorem setStrm_detCount (i : Nat) (x : StreamSt) : (setStrm s i x).detCount = s.detCount := rfl
@[simp] theorem setStrm_recWrap (i : Nat) (x : StreamSt) : (setStrm s i x).recWrap = s.recWrap := rfl
@[simp] theorem setStrm_links (i : Nat) (x : StreamSt) : (setStrm s i x).links = s.links := rfl
@[simp] theorem setStrm_transit (i : Nat) (x : StreamSt) : (setStrm s i x).transit = s.transit := rfl
@[simp] theorem setStrm_writes (i : Nat) (x : StreamSt) : (setStrm s i x).writes = s.writes := rfl
@[simp] theorem setStrm_lostTags (i : Nat) (x : StreamSt) : (setStrm s i x).lostTags = s.lostTags := rfl
@[simp] theorem setStrm_dpMode (i : Nat) (x : StreamSt) : (setStrm s i x).dpMode = s.dpMode := rfl
@[simp] theorem setStrm_traceQ (i : Nat) (x : StreamSt) : (setStrm s i x).traceQ = s.traceQ := rfl
@[simp] theorem setStrm_injSeen (i : Nat) (x : StreamSt) : (setStrm s i x).injSeen = s.injSeen := rfl
@[simp] theorem setStrm_sched (i : Nat) (x : StreamSt) : (setStrm s i x).sched = s.sched := rfl
@[simp] theorem setStrm_updStop (i : Nat) (x : StreamSt) : (setStrm s i x).updStop = s.updStop := rfl
@[simp] theorem setStrm_schedBusy (i : Nat) (x : StreamSt) : (setStrm s i x).schedBusy = s.schedBusy := rfl
@[simp] theorem setStrm_pgtHold (i : Nat) (x : StreamSt) : (setStrm s i x).pgtHold = s.pgtHold := rfl
@[simp] theorem setStrm_evacReqs (i : Nat) (x : StreamSt) : (setStrm s i x).evacReqs = s.evacReqs := rfl
@[simp] theorem setStrm_slt (i : Nat) (x : StreamSt) : (setStrm s i x).slt = s.slt := rfl
@[simp] theorem setStrm_svc (i : Nat) (x : StreamSt) : (setStrm s i x).svc = s.svc := rfl
@[simp] theorem setStrm_free (i : Nat) (x : StreamSt) : (setStrm s i x).free = s.free := rfl
@[simp] theorem setStrm_out (i : Nat) (x : StreamSt) : (setStrm s i x).out = s.out := rfl
@[simp] theorem setStrm_pending (i : Nat) (x : StreamSt) : (setStrm s i x).pending = s.pending := rfl

@[simp] theorem setMcg_regs (g : Nat) (x : McSt) : (setMcg s g x).regs = s.regs := rfl
@[simp] theorem setMcg_mica (g : Nat) (x : McSt) : (setMcg s g x).mica = s.mica := rfl
@[simp] theorem setMcg_poison (g : Nat) (x : McSt) : (setMcg s g x).poison = s.poison := rfl
@[simp] theorem setMcg_su (g : Nat) (x : McSt) : (setMcg s g x).su = s.su := rfl
@[simp] theorem setMcg_locked (g : Nat) (x : McSt) : (setMcg s g x).locked = s.locked := rfl
@[simp] theorem setMcg_pins (g : Nat) (x : McSt) : (setMcg s g x).pins = s.pins := rfl
@[simp] theorem setMcg_strap (g : Nat) (x : McSt) : (setMcg s g x).strap = s.strap := rfl
@[simp] theorem setMcg_veins (g : Nat) (x : McSt) : (setMcg s g x).veins = s.veins := rfl
@[simp] theorem setMcg_streams (g : Nat) (x : McSt) : (setMcg s g x).streams = s.streams := rfl
@[simp] theorem setMcg_arrays (g : Nat) (x : McSt) : (setMcg s g x).arrays = s.arrays := rfl
@[simp] theorem setMcg_stamp (g : Nat) (x : McSt) : (setMcg s g x).stamp = s.stamp := rfl
@[simp] theorem setMcg_crn (g : Nat) (x : McSt) : (setMcg s g x).crn = s.crn := rfl
@[simp] theorem setMcg_trm (g : Nat) (x : McSt) : (setMcg s g x).trm = s.trm := rfl
@[simp] theorem setMcg_detCount (g : Nat) (x : McSt) : (setMcg s g x).detCount = s.detCount := rfl
@[simp] theorem setMcg_recWrap (g : Nat) (x : McSt) : (setMcg s g x).recWrap = s.recWrap := rfl
@[simp] theorem setMcg_links (g : Nat) (x : McSt) : (setMcg s g x).links = s.links := rfl
@[simp] theorem setMcg_transit (g : Nat) (x : McSt) : (setMcg s g x).transit = s.transit := rfl
@[simp] theorem setMcg_writes (g : Nat) (x : McSt) : (setMcg s g x).writes = s.writes := rfl
@[simp] theorem setMcg_lostTags (g : Nat) (x : McSt) : (setMcg s g x).lostTags = s.lostTags := rfl
@[simp] theorem setMcg_dpMode (g : Nat) (x : McSt) : (setMcg s g x).dpMode = s.dpMode := rfl
@[simp] theorem setMcg_traceQ (g : Nat) (x : McSt) : (setMcg s g x).traceQ = s.traceQ := rfl
@[simp] theorem setMcg_injSeen (g : Nat) (x : McSt) : (setMcg s g x).injSeen = s.injSeen := rfl
@[simp] theorem setMcg_sched (g : Nat) (x : McSt) : (setMcg s g x).sched = s.sched := rfl
@[simp] theorem setMcg_updStop (g : Nat) (x : McSt) : (setMcg s g x).updStop = s.updStop := rfl
@[simp] theorem setMcg_schedBusy (g : Nat) (x : McSt) : (setMcg s g x).schedBusy = s.schedBusy := rfl
@[simp] theorem setMcg_pgtHold (g : Nat) (x : McSt) : (setMcg s g x).pgtHold = s.pgtHold := rfl
@[simp] theorem setMcg_evacReqs (g : Nat) (x : McSt) : (setMcg s g x).evacReqs = s.evacReqs := rfl
@[simp] theorem setMcg_slt (g : Nat) (x : McSt) : (setMcg s g x).slt = s.slt := rfl
@[simp] theorem setMcg_svc (g : Nat) (x : McSt) : (setMcg s g x).svc = s.svc := rfl
@[simp] theorem setMcg_free (g : Nat) (x : McSt) : (setMcg s g x).free = s.free := rfl
@[simp] theorem setMcg_out (g : Nat) (x : McSt) : (setMcg s g x).out = s.out := rfl
@[simp] theorem setMcg_pending (g : Nat) (x : McSt) : (setMcg s g x).pending = s.pending := rfl

@[simp] theorem setArr_regs (a : Nat) (x : ArrSt) : (setArr s a x).regs = s.regs := rfl
@[simp] theorem setArr_mica (a : Nat) (x : ArrSt) : (setArr s a x).mica = s.mica := rfl
@[simp] theorem setArr_poison (a : Nat) (x : ArrSt) : (setArr s a x).poison = s.poison := rfl
@[simp] theorem setArr_su (a : Nat) (x : ArrSt) : (setArr s a x).su = s.su := rfl
@[simp] theorem setArr_locked (a : Nat) (x : ArrSt) : (setArr s a x).locked = s.locked := rfl
@[simp] theorem setArr_pins (a : Nat) (x : ArrSt) : (setArr s a x).pins = s.pins := rfl
@[simp] theorem setArr_strap (a : Nat) (x : ArrSt) : (setArr s a x).strap = s.strap := rfl
@[simp] theorem setArr_veins (a : Nat) (x : ArrSt) : (setArr s a x).veins = s.veins := rfl
@[simp] theorem setArr_streams (a : Nat) (x : ArrSt) : (setArr s a x).streams = s.streams := rfl
@[simp] theorem setArr_groups (a : Nat) (x : ArrSt) : (setArr s a x).groups = s.groups := rfl
@[simp] theorem setArr_stamp (a : Nat) (x : ArrSt) : (setArr s a x).stamp = s.stamp := rfl
@[simp] theorem setArr_crn (a : Nat) (x : ArrSt) : (setArr s a x).crn = s.crn := rfl
@[simp] theorem setArr_trm (a : Nat) (x : ArrSt) : (setArr s a x).trm = s.trm := rfl
@[simp] theorem setArr_detCount (a : Nat) (x : ArrSt) : (setArr s a x).detCount = s.detCount := rfl
@[simp] theorem setArr_recWrap (a : Nat) (x : ArrSt) : (setArr s a x).recWrap = s.recWrap := rfl
@[simp] theorem setArr_links (a : Nat) (x : ArrSt) : (setArr s a x).links = s.links := rfl
@[simp] theorem setArr_transit (a : Nat) (x : ArrSt) : (setArr s a x).transit = s.transit := rfl
@[simp] theorem setArr_writes (a : Nat) (x : ArrSt) : (setArr s a x).writes = s.writes := rfl
@[simp] theorem setArr_lostTags (a : Nat) (x : ArrSt) : (setArr s a x).lostTags = s.lostTags := rfl
@[simp] theorem setArr_dpMode (a : Nat) (x : ArrSt) : (setArr s a x).dpMode = s.dpMode := rfl
@[simp] theorem setArr_traceQ (a : Nat) (x : ArrSt) : (setArr s a x).traceQ = s.traceQ := rfl
@[simp] theorem setArr_injSeen (a : Nat) (x : ArrSt) : (setArr s a x).injSeen = s.injSeen := rfl
@[simp] theorem setArr_sched (a : Nat) (x : ArrSt) : (setArr s a x).sched = s.sched := rfl
@[simp] theorem setArr_updStop (a : Nat) (x : ArrSt) : (setArr s a x).updStop = s.updStop := rfl
@[simp] theorem setArr_schedBusy (a : Nat) (x : ArrSt) : (setArr s a x).schedBusy = s.schedBusy := rfl
@[simp] theorem setArr_pgtHold (a : Nat) (x : ArrSt) : (setArr s a x).pgtHold = s.pgtHold := rfl
@[simp] theorem setArr_evacReqs (a : Nat) (x : ArrSt) : (setArr s a x).evacReqs = s.evacReqs := rfl
@[simp] theorem setArr_slt (a : Nat) (x : ArrSt) : (setArr s a x).slt = s.slt := rfl
@[simp] theorem setArr_svc (a : Nat) (x : ArrSt) : (setArr s a x).svc = s.svc := rfl
@[simp] theorem setArr_free (a : Nat) (x : ArrSt) : (setArr s a x).free = s.free := rfl
@[simp] theorem setArr_out (a : Nat) (x : ArrSt) : (setArr s a x).out = s.out := rfl
@[simp] theorem setArr_pending (a : Nat) (x : ArrSt) : (setArr s a x).pending = s.pending := rfl

@[simp] theorem setLink_regs (l : Nat) (x : LinkSt) : (setLink s l x).regs = s.regs := rfl
@[simp] theorem setLink_mica (l : Nat) (x : LinkSt) : (setLink s l x).mica = s.mica := rfl
@[simp] theorem setLink_poison (l : Nat) (x : LinkSt) : (setLink s l x).poison = s.poison := rfl
@[simp] theorem setLink_su (l : Nat) (x : LinkSt) : (setLink s l x).su = s.su := rfl
@[simp] theorem setLink_locked (l : Nat) (x : LinkSt) : (setLink s l x).locked = s.locked := rfl
@[simp] theorem setLink_pins (l : Nat) (x : LinkSt) : (setLink s l x).pins = s.pins := rfl
@[simp] theorem setLink_strap (l : Nat) (x : LinkSt) : (setLink s l x).strap = s.strap := rfl
@[simp] theorem setLink_veins (l : Nat) (x : LinkSt) : (setLink s l x).veins = s.veins := rfl
@[simp] theorem setLink_streams (l : Nat) (x : LinkSt) : (setLink s l x).streams = s.streams := rfl
@[simp] theorem setLink_groups (l : Nat) (x : LinkSt) : (setLink s l x).groups = s.groups := rfl
@[simp] theorem setLink_arrays (l : Nat) (x : LinkSt) : (setLink s l x).arrays = s.arrays := rfl
@[simp] theorem setLink_stamp (l : Nat) (x : LinkSt) : (setLink s l x).stamp = s.stamp := rfl
@[simp] theorem setLink_crn (l : Nat) (x : LinkSt) : (setLink s l x).crn = s.crn := rfl
@[simp] theorem setLink_trm (l : Nat) (x : LinkSt) : (setLink s l x).trm = s.trm := rfl
@[simp] theorem setLink_detCount (l : Nat) (x : LinkSt) : (setLink s l x).detCount = s.detCount := rfl
@[simp] theorem setLink_recWrap (l : Nat) (x : LinkSt) : (setLink s l x).recWrap = s.recWrap := rfl
@[simp] theorem setLink_transit (l : Nat) (x : LinkSt) : (setLink s l x).transit = s.transit := rfl
@[simp] theorem setLink_writes (l : Nat) (x : LinkSt) : (setLink s l x).writes = s.writes := rfl
@[simp] theorem setLink_lostTags (l : Nat) (x : LinkSt) : (setLink s l x).lostTags = s.lostTags := rfl
@[simp] theorem setLink_dpMode (l : Nat) (x : LinkSt) : (setLink s l x).dpMode = s.dpMode := rfl
@[simp] theorem setLink_traceQ (l : Nat) (x : LinkSt) : (setLink s l x).traceQ = s.traceQ := rfl
@[simp] theorem setLink_injSeen (l : Nat) (x : LinkSt) : (setLink s l x).injSeen = s.injSeen := rfl
@[simp] theorem setLink_sched (l : Nat) (x : LinkSt) : (setLink s l x).sched = s.sched := rfl
@[simp] theorem setLink_updStop (l : Nat) (x : LinkSt) : (setLink s l x).updStop = s.updStop := rfl
@[simp] theorem setLink_schedBusy (l : Nat) (x : LinkSt) : (setLink s l x).schedBusy = s.schedBusy := rfl
@[simp] theorem setLink_pgtHold (l : Nat) (x : LinkSt) : (setLink s l x).pgtHold = s.pgtHold := rfl
@[simp] theorem setLink_evacReqs (l : Nat) (x : LinkSt) : (setLink s l x).evacReqs = s.evacReqs := rfl
@[simp] theorem setLink_slt (l : Nat) (x : LinkSt) : (setLink s l x).slt = s.slt := rfl
@[simp] theorem setLink_svc (l : Nat) (x : LinkSt) : (setLink s l x).svc = s.svc := rfl
@[simp] theorem setLink_free (l : Nat) (x : LinkSt) : (setLink s l x).free = s.free := rfl
@[simp] theorem setLink_out (l : Nat) (x : LinkSt) : (setLink s l x).out = s.out := rfl
@[simp] theorem setLink_pending (l : Nat) (x : LinkSt) : (setLink s l x).pending = s.pending := rfl

@[simp] theorem setCrn_regs (f : CairnSt → CairnSt) : (setCrn s f).regs = s.regs := rfl
@[simp] theorem setCrn_mica (f : CairnSt → CairnSt) : (setCrn s f).mica = s.mica := rfl
@[simp] theorem setCrn_poison (f : CairnSt → CairnSt) : (setCrn s f).poison = s.poison := rfl
@[simp] theorem setCrn_su (f : CairnSt → CairnSt) : (setCrn s f).su = s.su := rfl
@[simp] theorem setCrn_locked (f : CairnSt → CairnSt) : (setCrn s f).locked = s.locked := rfl
@[simp] theorem setCrn_pins (f : CairnSt → CairnSt) : (setCrn s f).pins = s.pins := rfl
@[simp] theorem setCrn_strap (f : CairnSt → CairnSt) : (setCrn s f).strap = s.strap := rfl
@[simp] theorem setCrn_veins (f : CairnSt → CairnSt) : (setCrn s f).veins = s.veins := rfl
@[simp] theorem setCrn_streams (f : CairnSt → CairnSt) : (setCrn s f).streams = s.streams := rfl
@[simp] theorem setCrn_groups (f : CairnSt → CairnSt) : (setCrn s f).groups = s.groups := rfl
@[simp] theorem setCrn_arrays (f : CairnSt → CairnSt) : (setCrn s f).arrays = s.arrays := rfl
@[simp] theorem setCrn_stamp (f : CairnSt → CairnSt) : (setCrn s f).stamp = s.stamp := rfl
@[simp] theorem setCrn_trm (f : CairnSt → CairnSt) : (setCrn s f).trm = s.trm := rfl
@[simp] theorem setCrn_detCount (f : CairnSt → CairnSt) : (setCrn s f).detCount = s.detCount := rfl
@[simp] theorem setCrn_recWrap (f : CairnSt → CairnSt) : (setCrn s f).recWrap = s.recWrap := rfl
@[simp] theorem setCrn_links (f : CairnSt → CairnSt) : (setCrn s f).links = s.links := rfl
@[simp] theorem setCrn_transit (f : CairnSt → CairnSt) : (setCrn s f).transit = s.transit := rfl
@[simp] theorem setCrn_writes (f : CairnSt → CairnSt) : (setCrn s f).writes = s.writes := rfl
@[simp] theorem setCrn_lostTags (f : CairnSt → CairnSt) : (setCrn s f).lostTags = s.lostTags := rfl
@[simp] theorem setCrn_dpMode (f : CairnSt → CairnSt) : (setCrn s f).dpMode = s.dpMode := rfl
@[simp] theorem setCrn_traceQ (f : CairnSt → CairnSt) : (setCrn s f).traceQ = s.traceQ := rfl
@[simp] theorem setCrn_injSeen (f : CairnSt → CairnSt) : (setCrn s f).injSeen = s.injSeen := rfl
@[simp] theorem setCrn_sched (f : CairnSt → CairnSt) : (setCrn s f).sched = s.sched := rfl
@[simp] theorem setCrn_updStop (f : CairnSt → CairnSt) : (setCrn s f).updStop = s.updStop := rfl
@[simp] theorem setCrn_schedBusy (f : CairnSt → CairnSt) : (setCrn s f).schedBusy = s.schedBusy := rfl
@[simp] theorem setCrn_pgtHold (f : CairnSt → CairnSt) : (setCrn s f).pgtHold = s.pgtHold := rfl
@[simp] theorem setCrn_evacReqs (f : CairnSt → CairnSt) : (setCrn s f).evacReqs = s.evacReqs := rfl
@[simp] theorem setCrn_slt (f : CairnSt → CairnSt) : (setCrn s f).slt = s.slt := rfl
@[simp] theorem setCrn_svc (f : CairnSt → CairnSt) : (setCrn s f).svc = s.svc := rfl
@[simp] theorem setCrn_free (f : CairnSt → CairnSt) : (setCrn s f).free = s.free := rfl
@[simp] theorem setCrn_out (f : CairnSt → CairnSt) : (setCrn s f).out = s.out := rfl
@[simp] theorem setCrn_pending (f : CairnSt → CairnSt) : (setCrn s f).pending = s.pending := rfl

@[simp] theorem emit_regs (o : Out) : (emit s o).regs = s.regs := rfl
@[simp] theorem emit_mica (o : Out) : (emit s o).mica = s.mica := rfl
@[simp] theorem emit_poison (o : Out) : (emit s o).poison = s.poison := rfl
@[simp] theorem emit_su (o : Out) : (emit s o).su = s.su := rfl
@[simp] theorem emit_locked (o : Out) : (emit s o).locked = s.locked := rfl
@[simp] theorem emit_pins (o : Out) : (emit s o).pins = s.pins := rfl
@[simp] theorem emit_strap (o : Out) : (emit s o).strap = s.strap := rfl
@[simp] theorem emit_veins (o : Out) : (emit s o).veins = s.veins := rfl
@[simp] theorem emit_streams (o : Out) : (emit s o).streams = s.streams := rfl
@[simp] theorem emit_groups (o : Out) : (emit s o).groups = s.groups := rfl
@[simp] theorem emit_arrays (o : Out) : (emit s o).arrays = s.arrays := rfl
@[simp] theorem emit_stamp (o : Out) : (emit s o).stamp = s.stamp := rfl
@[simp] theorem emit_crn (o : Out) : (emit s o).crn = s.crn := rfl
@[simp] theorem emit_trm (o : Out) : (emit s o).trm = s.trm := rfl
@[simp] theorem emit_detCount (o : Out) : (emit s o).detCount = s.detCount := rfl
@[simp] theorem emit_recWrap (o : Out) : (emit s o).recWrap = s.recWrap := rfl
@[simp] theorem emit_links (o : Out) : (emit s o).links = s.links := rfl
@[simp] theorem emit_transit (o : Out) : (emit s o).transit = s.transit := rfl
@[simp] theorem emit_writes (o : Out) : (emit s o).writes = s.writes := rfl
@[simp] theorem emit_lostTags (o : Out) : (emit s o).lostTags = s.lostTags := rfl
@[simp] theorem emit_dpMode (o : Out) : (emit s o).dpMode = s.dpMode := rfl
@[simp] theorem emit_traceQ (o : Out) : (emit s o).traceQ = s.traceQ := rfl
@[simp] theorem emit_injSeen (o : Out) : (emit s o).injSeen = s.injSeen := rfl
@[simp] theorem emit_sched (o : Out) : (emit s o).sched = s.sched := rfl
@[simp] theorem emit_updStop (o : Out) : (emit s o).updStop = s.updStop := rfl
@[simp] theorem emit_schedBusy (o : Out) : (emit s o).schedBusy = s.schedBusy := rfl
@[simp] theorem emit_pgtHold (o : Out) : (emit s o).pgtHold = s.pgtHold := rfl
@[simp] theorem emit_evacReqs (o : Out) : (emit s o).evacReqs = s.evacReqs := rfl
@[simp] theorem emit_slt (o : Out) : (emit s o).slt = s.slt := rfl
@[simp] theorem emit_svc (o : Out) : (emit s o).svc = s.svc := rfl
@[simp] theorem emit_free (o : Out) : (emit s o).free = s.free := rfl
@[simp] theorem emit_pending (o : Out) : (emit s o).pending = s.pending := rfl

@[simp] theorem emits_regs (os : List Out) : (emits s os).regs = s.regs := rfl
@[simp] theorem emits_mica (os : List Out) : (emits s os).mica = s.mica := rfl
@[simp] theorem emits_poison (os : List Out) : (emits s os).poison = s.poison := rfl
@[simp] theorem emits_su (os : List Out) : (emits s os).su = s.su := rfl
@[simp] theorem emits_locked (os : List Out) : (emits s os).locked = s.locked := rfl
@[simp] theorem emits_pins (os : List Out) : (emits s os).pins = s.pins := rfl
@[simp] theorem emits_strap (os : List Out) : (emits s os).strap = s.strap := rfl
@[simp] theorem emits_veins (os : List Out) : (emits s os).veins = s.veins := rfl
@[simp] theorem emits_streams (os : List Out) : (emits s os).streams = s.streams := rfl
@[simp] theorem emits_groups (os : List Out) : (emits s os).groups = s.groups := rfl
@[simp] theorem emits_arrays (os : List Out) : (emits s os).arrays = s.arrays := rfl
@[simp] theorem emits_stamp (os : List Out) : (emits s os).stamp = s.stamp := rfl
@[simp] theorem emits_crn (os : List Out) : (emits s os).crn = s.crn := rfl
@[simp] theorem emits_trm (os : List Out) : (emits s os).trm = s.trm := rfl
@[simp] theorem emits_detCount (os : List Out) : (emits s os).detCount = s.detCount := rfl
@[simp] theorem emits_recWrap (os : List Out) : (emits s os).recWrap = s.recWrap := rfl
@[simp] theorem emits_links (os : List Out) : (emits s os).links = s.links := rfl
@[simp] theorem emits_transit (os : List Out) : (emits s os).transit = s.transit := rfl
@[simp] theorem emits_writes (os : List Out) : (emits s os).writes = s.writes := rfl
@[simp] theorem emits_lostTags (os : List Out) : (emits s os).lostTags = s.lostTags := rfl
@[simp] theorem emits_dpMode (os : List Out) : (emits s os).dpMode = s.dpMode := rfl
@[simp] theorem emits_traceQ (os : List Out) : (emits s os).traceQ = s.traceQ := rfl
@[simp] theorem emits_injSeen (os : List Out) : (emits s os).injSeen = s.injSeen := rfl
@[simp] theorem emits_sched (os : List Out) : (emits s os).sched = s.sched := rfl
@[simp] theorem emits_updStop (os : List Out) : (emits s os).updStop = s.updStop := rfl
@[simp] theorem emits_schedBusy (os : List Out) : (emits s os).schedBusy = s.schedBusy := rfl
@[simp] theorem emits_pgtHold (os : List Out) : (emits s os).pgtHold = s.pgtHold := rfl
@[simp] theorem emits_evacReqs (os : List Out) : (emits s os).evacReqs = s.evacReqs := rfl
@[simp] theorem emits_slt (os : List Out) : (emits s os).slt = s.slt := rfl
@[simp] theorem emits_svc (os : List Out) : (emits s os).svc = s.svc := rfl
@[simp] theorem emits_free (os : List Out) : (emits s os).free = s.free := rfl
@[simp] theorem emits_pending (os : List Out) : (emits s os).pending = s.pending := rfl

@[simp] theorem vein_wr (a : Nat) (v : W64) (w : Nat) : vein (wr s a v) w = vein s w := rfl
@[simp] theorem strm_wr (a : Nat) (v : W64) (j : Nat) : strm (wr s a v) j = strm s j := rfl
@[simp] theorem mcg_wr (a : Nat) (v : W64) (h : Nat) : mcg (wr s a v) h = mcg s h := rfl
@[simp] theorem arr_wr (a : Nat) (v : W64) (b : Nat) : arr (wr s a v) b = arr s b := rfl
@[simp] theorem link_wr (a : Nat) (v : W64) (k : Nat) : link (wr s a v) k = link s k := rfl
@[simp] theorem micaByte_wr (a : Nat) (v : W64) (x : Nat) : micaByte (wr s a v) x = micaByte s x := rfl
@[simp] theorem micaRead_wr (a : Nat) (v : W64) (x n : Nat) : micaRead (wr s a v) x n = micaRead s x n := rfl

@[simp] theorem vein_setFld (a : Nat) (f : Field) (v : Nat) (w : Nat) : vein (setFld s a f v) w = vein s w := rfl
@[simp] theorem strm_setFld (a : Nat) (f : Field) (v : Nat) (j : Nat) : strm (setFld s a f v) j = strm s j := rfl
@[simp] theorem mcg_setFld (a : Nat) (f : Field) (v : Nat) (h : Nat) : mcg (setFld s a f v) h = mcg s h := rfl
@[simp] theorem arr_setFld (a : Nat) (f : Field) (v : Nat) (b : Nat) : arr (setFld s a f v) b = arr s b := rfl
@[simp] theorem link_setFld (a : Nat) (f : Field) (v : Nat) (k : Nat) : link (setFld s a f v) k = link s k := rfl
@[simp] theorem micaByte_setFld (a : Nat) (f : Field) (v : Nat) (x : Nat) : micaByte (setFld s a f v) x = micaByte s x := rfl
@[simp] theorem micaRead_setFld (a : Nat) (f : Field) (v : Nat) (x n : Nat) : micaRead (setFld s a f v) x n = micaRead s x n := rfl

@[simp] theorem vein_setFlag (a : Nat) (f : Field) (v : Bool) (w : Nat) : vein (setFlag s a f v) w = vein s w := rfl
@[simp] theorem strm_setFlag (a : Nat) (f : Field) (v : Bool) (j : Nat) : strm (setFlag s a f v) j = strm s j := rfl
@[simp] theorem mcg_setFlag (a : Nat) (f : Field) (v : Bool) (h : Nat) : mcg (setFlag s a f v) h = mcg s h := rfl
@[simp] theorem arr_setFlag (a : Nat) (f : Field) (v : Bool) (b : Nat) : arr (setFlag s a f v) b = arr s b := rfl
@[simp] theorem link_setFlag (a : Nat) (f : Field) (v : Bool) (k : Nat) : link (setFlag s a f v) k = link s k := rfl
@[simp] theorem micaByte_setFlag (a : Nat) (f : Field) (v : Bool) (x : Nat) : micaByte (setFlag s a f v) x = micaByte s x := rfl
@[simp] theorem micaRead_setFlag (a : Nat) (f : Field) (v : Bool) (x n : Nat) : micaRead (setFlag s a f v) x n = micaRead s x n := rfl

@[simp] theorem vein_incFld (a : Nat) (f : Field) (v : Nat) (w : Nat) : vein (incFld s a f v) w = vein s w := rfl
@[simp] theorem strm_incFld (a : Nat) (f : Field) (v : Nat) (j : Nat) : strm (incFld s a f v) j = strm s j := rfl
@[simp] theorem mcg_incFld (a : Nat) (f : Field) (v : Nat) (h : Nat) : mcg (incFld s a f v) h = mcg s h := rfl
@[simp] theorem arr_incFld (a : Nat) (f : Field) (v : Nat) (b : Nat) : arr (incFld s a f v) b = arr s b := rfl
@[simp] theorem link_incFld (a : Nat) (f : Field) (v : Nat) (k : Nat) : link (incFld s a f v) k = link s k := rfl
@[simp] theorem micaByte_incFld (a : Nat) (f : Field) (v : Nat) (x : Nat) : micaByte (incFld s a f v) x = micaByte s x := rfl
@[simp] theorem micaRead_incFld (a : Nat) (f : Field) (v : Nat) (x n : Nat) : micaRead (incFld s a f v) x n = micaRead s x n := rfl

@[simp] theorem vein_satFld (a : Nat) (f : Field) (v : Nat) (w : Nat) : vein (satFld s a f v) w = vein s w := rfl
@[simp] theorem strm_satFld (a : Nat) (f : Field) (v : Nat) (j : Nat) : strm (satFld s a f v) j = strm s j := rfl
@[simp] theorem mcg_satFld (a : Nat) (f : Field) (v : Nat) (h : Nat) : mcg (satFld s a f v) h = mcg s h := rfl
@[simp] theorem arr_satFld (a : Nat) (f : Field) (v : Nat) (b : Nat) : arr (satFld s a f v) b = arr s b := rfl
@[simp] theorem link_satFld (a : Nat) (f : Field) (v : Nat) (k : Nat) : link (satFld s a f v) k = link s k := rfl
@[simp] theorem micaByte_satFld (a : Nat) (f : Field) (v : Nat) (x : Nat) : micaByte (satFld s a f v) x = micaByte s x := rfl
@[simp] theorem micaRead_satFld (a : Nat) (f : Field) (v : Nat) (x n : Nat) : micaRead (satFld s a f v) x n = micaRead s x n := rfl

@[simp] theorem vein_orReg (a m : Nat) (w : Nat) : vein (orReg s a m) w = vein s w := rfl
@[simp] theorem strm_orReg (a m : Nat) (j : Nat) : strm (orReg s a m) j = strm s j := rfl
@[simp] theorem mcg_orReg (a m : Nat) (h : Nat) : mcg (orReg s a m) h = mcg s h := rfl
@[simp] theorem arr_orReg (a m : Nat) (b : Nat) : arr (orReg s a m) b = arr s b := rfl
@[simp] theorem link_orReg (a m : Nat) (k : Nat) : link (orReg s a m) k = link s k := rfl
@[simp] theorem micaByte_orReg (a m : Nat) (x : Nat) : micaByte (orReg s a m) x = micaByte s x := rfl
@[simp] theorem micaRead_orReg (a m : Nat) (x n : Nat) : micaRead (orReg s a m) x n = micaRead s x n := rfl

@[simp] theorem rd_setVein (v : Nat) (x : VeinSt) (b : Nat) : rd (setVein s v x) b = rd s b := rfl
@[simp] theorem fld_setVein (v : Nat) (x : VeinSt) (b : Nat) (fl : Field) : fld (setVein s v x) b fl = fld s b fl := rfl
@[simp] theorem flag_setVein (v : Nat) (x : VeinSt) (b : Nat) (fl : Field) : flag (setVein s v x) b fl = flag s b fl := rfl
@[simp] theorem strm_setVein (v : Nat) (x : VeinSt) (j : Nat) : strm (setVein s v x) j = strm s j := rfl
@[simp] theorem mcg_setVein (v : Nat) (x : VeinSt) (h : Nat) : mcg (setVein s v x) h = mcg s h := rfl
@[simp] theorem arr_setVein (v : Nat) (x : VeinSt) (b : Nat) : arr (setVein s v x) b = arr s b := rfl
@[simp] theorem link_setVein (v : Nat) (x : VeinSt) (k : Nat) : link (setVein s v x) k = link s k := rfl
@[simp] theorem micaByte_setVein (v : Nat) (y : VeinSt) (x : Nat) : micaByte (setVein s v y) x = micaByte s x := rfl
@[simp] theorem micaRead_setVein (v : Nat) (y : VeinSt) (x n : Nat) : micaRead (setVein s v y) x n = micaRead s x n := rfl

@[simp] theorem rd_setStrm (i : Nat) (x : StreamSt) (b : Nat) : rd (setStrm s i x) b = rd s b := rfl
@[simp] theorem fld_setStrm (i : Nat) (x : StreamSt) (b : Nat) (fl : Field) : fld (setStrm s i x) b fl = fld s b fl := rfl
@[simp] theorem flag_setStrm (i : Nat) (x : StreamSt) (b : Nat) (fl : Field) : flag (setStrm s i x) b fl = flag s b fl := rfl
@[simp] theorem vein_setStrm (i : Nat) (x : StreamSt) (w : Nat) : vein (setStrm s i x) w = vein s w := rfl
@[simp] theorem mcg_setStrm (i : Nat) (x : StreamSt) (h : Nat) : mcg (setStrm s i x) h = mcg s h := rfl
@[simp] theorem arr_setStrm (i : Nat) (x : StreamSt) (b : Nat) : arr (setStrm s i x) b = arr s b := rfl
@[simp] theorem link_setStrm (i : Nat) (x : StreamSt) (k : Nat) : link (setStrm s i x) k = link s k := rfl
@[simp] theorem micaByte_setStrm (i : Nat) (y : StreamSt) (x : Nat) : micaByte (setStrm s i y) x = micaByte s x := rfl
@[simp] theorem micaRead_setStrm (i : Nat) (y : StreamSt) (x n : Nat) : micaRead (setStrm s i y) x n = micaRead s x n := rfl

@[simp] theorem rd_setMcg (g : Nat) (x : McSt) (b : Nat) : rd (setMcg s g x) b = rd s b := rfl
@[simp] theorem fld_setMcg (g : Nat) (x : McSt) (b : Nat) (fl : Field) : fld (setMcg s g x) b fl = fld s b fl := rfl
@[simp] theorem flag_setMcg (g : Nat) (x : McSt) (b : Nat) (fl : Field) : flag (setMcg s g x) b fl = flag s b fl := rfl
@[simp] theorem vein_setMcg (g : Nat) (x : McSt) (w : Nat) : vein (setMcg s g x) w = vein s w := rfl
@[simp] theorem strm_setMcg (g : Nat) (x : McSt) (j : Nat) : strm (setMcg s g x) j = strm s j := rfl
@[simp] theorem arr_setMcg (g : Nat) (x : McSt) (b : Nat) : arr (setMcg s g x) b = arr s b := rfl
@[simp] theorem link_setMcg (g : Nat) (x : McSt) (k : Nat) : link (setMcg s g x) k = link s k := rfl
@[simp] theorem micaByte_setMcg (g : Nat) (y : McSt) (x : Nat) : micaByte (setMcg s g y) x = micaByte s x := rfl
@[simp] theorem micaRead_setMcg (g : Nat) (y : McSt) (x n : Nat) : micaRead (setMcg s g y) x n = micaRead s x n := rfl

@[simp] theorem rd_setArr (a : Nat) (x : ArrSt) (b : Nat) : rd (setArr s a x) b = rd s b := rfl
@[simp] theorem fld_setArr (a : Nat) (x : ArrSt) (b : Nat) (fl : Field) : fld (setArr s a x) b fl = fld s b fl := rfl
@[simp] theorem flag_setArr (a : Nat) (x : ArrSt) (b : Nat) (fl : Field) : flag (setArr s a x) b fl = flag s b fl := rfl
@[simp] theorem vein_setArr (a : Nat) (x : ArrSt) (w : Nat) : vein (setArr s a x) w = vein s w := rfl
@[simp] theorem strm_setArr (a : Nat) (x : ArrSt) (j : Nat) : strm (setArr s a x) j = strm s j := rfl
@[simp] theorem mcg_setArr (a : Nat) (x : ArrSt) (h : Nat) : mcg (setArr s a x) h = mcg s h := rfl
@[simp] theorem link_setArr (a : Nat) (x : ArrSt) (k : Nat) : link (setArr s a x) k = link s k := rfl
@[simp] theorem micaByte_setArr (a : Nat) (y : ArrSt) (x : Nat) : micaByte (setArr s a y) x = micaByte s x := rfl
@[simp] theorem micaRead_setArr (a : Nat) (y : ArrSt) (x n : Nat) : micaRead (setArr s a y) x n = micaRead s x n := rfl

@[simp] theorem rd_setLink (l : Nat) (x : LinkSt) (b : Nat) : rd (setLink s l x) b = rd s b := rfl
@[simp] theorem fld_setLink (l : Nat) (x : LinkSt) (b : Nat) (fl : Field) : fld (setLink s l x) b fl = fld s b fl := rfl
@[simp] theorem flag_setLink (l : Nat) (x : LinkSt) (b : Nat) (fl : Field) : flag (setLink s l x) b fl = flag s b fl := rfl
@[simp] theorem vein_setLink (l : Nat) (x : LinkSt) (w : Nat) : vein (setLink s l x) w = vein s w := rfl
@[simp] theorem strm_setLink (l : Nat) (x : LinkSt) (j : Nat) : strm (setLink s l x) j = strm s j := rfl
@[simp] theorem mcg_setLink (l : Nat) (x : LinkSt) (h : Nat) : mcg (setLink s l x) h = mcg s h := rfl
@[simp] theorem arr_setLink (l : Nat) (x : LinkSt) (b : Nat) : arr (setLink s l x) b = arr s b := rfl
@[simp] theorem micaByte_setLink (l : Nat) (y : LinkSt) (x : Nat) : micaByte (setLink s l y) x = micaByte s x := rfl
@[simp] theorem micaRead_setLink (l : Nat) (y : LinkSt) (x n : Nat) : micaRead (setLink s l y) x n = micaRead s x n := rfl

@[simp] theorem rd_setCrn (f : CairnSt → CairnSt) (b : Nat) : rd (setCrn s f) b = rd s b := rfl
@[simp] theorem fld_setCrn (f : CairnSt → CairnSt) (b : Nat) (fl : Field) : fld (setCrn s f) b fl = fld s b fl := rfl
@[simp] theorem flag_setCrn (f : CairnSt → CairnSt) (b : Nat) (fl : Field) : flag (setCrn s f) b fl = flag s b fl := rfl
@[simp] theorem vein_setCrn (f : CairnSt → CairnSt) (w : Nat) : vein (setCrn s f) w = vein s w := rfl
@[simp] theorem strm_setCrn (f : CairnSt → CairnSt) (j : Nat) : strm (setCrn s f) j = strm s j := rfl
@[simp] theorem mcg_setCrn (f : CairnSt → CairnSt) (h : Nat) : mcg (setCrn s f) h = mcg s h := rfl
@[simp] theorem arr_setCrn (f : CairnSt → CairnSt) (b : Nat) : arr (setCrn s f) b = arr s b := rfl
@[simp] theorem link_setCrn (f : CairnSt → CairnSt) (k : Nat) : link (setCrn s f) k = link s k := rfl
@[simp] theorem micaByte_setCrn (f : CairnSt → CairnSt) (x : Nat) : micaByte (setCrn s f) x = micaByte s x := rfl
@[simp] theorem micaRead_setCrn (f : CairnSt → CairnSt) (x n : Nat) : micaRead (setCrn s f) x n = micaRead s x n := rfl

@[simp] theorem rd_emit (o : Out) (b : Nat) : rd (emit s o) b = rd s b := rfl
@[simp] theorem fld_emit (o : Out) (b : Nat) (fl : Field) : fld (emit s o) b fl = fld s b fl := rfl
@[simp] theorem flag_emit (o : Out) (b : Nat) (fl : Field) : flag (emit s o) b fl = flag s b fl := rfl
@[simp] theorem vein_emit (o : Out) (w : Nat) : vein (emit s o) w = vein s w := rfl
@[simp] theorem strm_emit (o : Out) (j : Nat) : strm (emit s o) j = strm s j := rfl
@[simp] theorem mcg_emit (o : Out) (h : Nat) : mcg (emit s o) h = mcg s h := rfl
@[simp] theorem arr_emit (o : Out) (b : Nat) : arr (emit s o) b = arr s b := rfl
@[simp] theorem link_emit (o : Out) (k : Nat) : link (emit s o) k = link s k := rfl
@[simp] theorem micaByte_emit (o : Out) (x : Nat) : micaByte (emit s o) x = micaByte s x := rfl
@[simp] theorem micaRead_emit (o : Out) (x n : Nat) : micaRead (emit s o) x n = micaRead s x n := rfl

@[simp] theorem rd_emits (os : List Out) (b : Nat) : rd (emits s os) b = rd s b := rfl
@[simp] theorem fld_emits (os : List Out) (b : Nat) (fl : Field) : fld (emits s os) b fl = fld s b fl := rfl
@[simp] theorem flag_emits (os : List Out) (b : Nat) (fl : Field) : flag (emits s os) b fl = flag s b fl := rfl
@[simp] theorem vein_emits (os : List Out) (w : Nat) : vein (emits s os) w = vein s w := rfl
@[simp] theorem strm_emits (os : List Out) (j : Nat) : strm (emits s os) j = strm s j := rfl
@[simp] theorem mcg_emits (os : List Out) (h : Nat) : mcg (emits s os) h = mcg s h := rfl
@[simp] theorem arr_emits (os : List Out) (b : Nat) : arr (emits s os) b = arr s b := rfl
@[simp] theorem link_emits (os : List Out) (k : Nat) : link (emits s os) k = link s k := rfl
@[simp] theorem micaByte_emits (os : List Out) (x : Nat) : micaByte (emits s os) x = micaByte s x := rfl
@[simp] theorem micaRead_emits (os : List Out) (x n : Nat) : micaRead (emits s os) x n = micaRead s x n := rfl

/-! ## Outputs -/

theorem emit_out (o : Out) : (emit s o).out = if portLive s o.group then s.out ++ [o] else s.out := rfl

@[simp] theorem emit_live {o : Out} (h : portLive s o.group = true) : (emit s o).out = s.out ++ [o] := by
  rw [emit_out, if_pos h]

@[simp] theorem emit_held {o : Out} (h : portLive s o.group = false) : (emit s o).out = s.out := by
  rw [emit_out, if_neg (by simp [h])]

end Sys2Proof.Machine
end

