-- ==== Sys2Proof/Laws/Booked.lean ====
section
/-! SUPPORT. What completion, retirement, halts and admission change: only the books (Books). One lemma for each
operation says it, named after the operation. -/

namespace Sys2Proof.Machine

variable {R : Nat → Bool}

/-- R covers the books that every command's end may touch, the sequence registers apart. -/
structure Covers (R : Nat → Bool) : Prop where
  stat   : ∀ v, v < 16 → R (Reg.vnStat v) = true
  budget : R Reg.trmBudget = true
  tstat  : R Reg.trmStat = true
  err    : ∀ a, errBook a = true → R a = true
  ring   : R Reg.errRingCfg = false

theorem book_refl (s : State) : Books R s s :=
  ⟨fun _ _ => rfl, fun _ _ => rfl, fun _ => rfl, fun _ => rfl, rfl, rfl⟩

theorem book_ringByte {s t : State} (hR : Covers R) (h : Books R s t) (x : Nat) : ringByte t x = ringByte s x := by
  have : rd t Reg.errRingCfg = rd s Reg.errRingCfg := h.regs _ hR.ring
  unfold ringByte flag fld; rw [this]

theorem book_trans {s t u : State} (hR : Covers R) (h : Books R s t) (k : Books R t u) : Books R s u :=
  ⟨fun a ha => (k.regs a ha).trans (h.regs a ha),
   fun x hx => (k.mica x ((book_ringByte hR h x).trans hx)).trans (h.mica x hx),
   fun v => (k.veins v).trans (h.veins v), fun a => (k.arrays a).trans (h.arrays a), k.trm.trans h.trm,
   k.rest.trans h.rest⟩

section
variable {s₀ s : State}

theorem book_ite {a b : State} {c : Prop} [Decidable c] (ha : Books R s₀ a) (hb : Books R s₀ b) :
    Books R s₀ (if c then a else b) := by
  split
  · exact ha
  · exact hb

theorem book_foldl {α : Type} {f : State → α → State} {l : List α} (h : Books R s₀ s)
    (hf : ∀ u, ∀ x ∈ l, Books R s₀ u → Books R s₀ (f u x)) : Books R s₀ (l.foldl f s) := by
  induction l generalizing s with
  | nil => exact h
  | cons x l ih =>
    exact ih (hf s x (List.mem_cons_self ..) h) (fun u y hy => hf u y (List.mem_cons_of_mem _ hy))

theorem wr_book {a : Nat} {v : W64} (ha : R a = true) (h : Books R s₀ s) : Books R s₀ (wr s a v) :=
  ⟨fun b hb => by
    have : a ≠ b := by rintro rfl; rw [ha] at hb; cases hb
    rw [rd_wr_ne _ _ this]; exact h.regs b hb,
   h.mica, h.veins, h.arrays, h.trm, h.rest⟩

theorem setFld_book {a : Nat} {f : Field} {v : Nat} (ha : R a = true) (h : Books R s₀ s) :
    Books R s₀ (setFld s a f v) := wr_book ha h

theorem setFlag_book {a : Nat} {f : Field} {v : Bool} (ha : R a = true) (h : Books R s₀ s) :
    Books R s₀ (setFlag s a f v) := wr_book ha h

theorem incFld_book {a : Nat} {f : Field} {v : Nat} (ha : R a = true) (h : Books R s₀ s) :
    Books R s₀ (incFld s a f v) := wr_book ha h

theorem setVein_book {v : Nat} {x : VeinSt} (hx : veinPlain x = veinPlain (vein s v)) (h : Books R s₀ s) :
    Books R s₀ (setVein s v x) :=
  ⟨h.regs, h.mica, fun w => by
    rw [vein_setVein]; split
    · rename_i e; subst e; exact hx.trans (h.veins _)
    · exact h.veins w, h.arrays, h.trm, h.rest⟩

theorem setArr_book {a : Nat} {x : ArrSt} (hx : arrPlain x = arrPlain (arr s a)) (h : Books R s₀ s) :
    Books R s₀ (setArr s a x) :=
  ⟨h.regs, h.mica, h.veins, fun b => by
    rw [arr_setArr]; split
    · rename_i e; subst e; exact hx.trans (h.arrays _)
    · exact h.arrays b, h.trm, h.rest⟩

theorem trm_book {x : TrmSt} (hx : trmPlain x = trmPlain s.trm) (h : Books R s₀ s) : Books R s₀ { s with trm := x } :=
  ⟨h.regs, h.mica, h.veins, h.arrays, hx.trans h.trm, h.rest⟩

theorem count_book {d : List (Nat × Nat)} (h : Books R s₀ s) : Books R s₀ { s with detCount := d } :=
  ⟨h.regs, h.mica, h.veins, h.arrays, h.trm, h.rest⟩

theorem wrap_book {b : Bool} (h : Books R s₀ s) : Books R s₀ { s with recWrap := b } :=
  ⟨h.regs, h.mica, h.veins, h.arrays, h.trm, h.rest⟩

theorem trace_book {q : List (List Byte)} (h : Books R s₀ s) : Books R s₀ { s with traceQ := q } :=
  ⟨h.regs, h.mica, h.veins, h.arrays, h.trm, h.rest⟩

/-! ## Error records -/

variable (hR : Covers R)
include hR

theorem covers_last {i : Nat} (hi : i < 64) : R (Reg.errLast i) = true := by
  refine hR.err _ ?_
  unfold errBook; simp only [Reg.errLast, Bool.or_eq_true, Bool.and_eq_true]
  right; exact ⟨decide_eq_true (by omega), decide_eq_true (by omega)⟩


theorem summarize_book {u : Nat} (h : Books R s₀ s) : Books R s₀ (summarize s u) := setFld_book (hR.err _ (by decide)) h
theorem notice_book {u : Nat} (h : Books R s₀ s) : Books R s₀ (notice s u) :=
  summarize_book hR (setFlag_book (hR.err _ (by decide)) h)
theorem attnErr_book {u : Nat} (h : Books R s₀ s) : Books R s₀ (attnErr s u) :=
  summarize_book hR (setFlag_book (hR.err _ (by decide)) h)

theorem shiftMirror_book {n : Nat} (hn : n ≤ 7) (h : Books R s₀ s) : Books R s₀ (shiftMirror s n) := by
  induction n generalizing s with
  | zero => unfold shiftMirror; exact h
  | succ n ih =>
    unfold shiftMirror
    beta_reduce
    exact ih (by omega) (book_foldl h (fun u w hw hu =>
      wr_book (covers_last hR (by have := List.mem_range.mp hw; omega)) hu))

omit hR in
theorem ring_apart {b n k x : Nat} (hk : k = 64) (hn : n < 256) (h : ¬(b * 4096 ≤ x ∧ x < b * 4096 + 16384)) :
    ¬(b * 4096 + 64 * n ≤ x ∧ x < b * 4096 + 64 * n + k) := by
  subst hk
  rintro ⟨h1, h2⟩
  have h3 : 64 * (n + 1) ≤ 64 * 256 := Nat.mul_le_mul_left 64 hn
  exact h ⟨Nat.le_trans (Nat.le_add_right _ _) h1, Nat.lt_of_lt_of_le h2 (by rw [Nat.add_assoc]; exact Nat.add_le_add_left h3 _)⟩

/-- A record goes to the ring and the mirror. -/
theorem ring_book {n : Nat} {bs : List Byte} (hb : bs.length = 64) (hn : n < 256) (h : Books R s₀ s)
    (he : flag s Reg.errRingCfg Fl.errRingCfg_ENABLE = true) :
    Books R s₀ (micaWrite s (fld s Reg.errRingCfg Fl.errRingCfg_BASE * 4096 + 64 * n) bs) :=
  ⟨h.regs, fun x hx => by
    have hx' : ringByte s x = false := (book_ringByte hR h x).trans hx
    unfold ringByte at hx'
    rw [he] at hx'
    simp only [Bool.true_and, decide_eq_false_iff_not] at hx'
    rw [micaByte_micaWrite, if_neg (ring_apart hb hn hx')]
    exact h.mica x hx, h.veins, h.arrays, h.trm, h.rest⟩

omit hR in
theorem leBytes_length (n x : Nat) : (leBytes n x).length = n := by
  induction n generalizing x with
  | zero => rfl
  | succ n ih => show (leBytes n (x / 256)).length + 1 = n + 1; rw [ih]

omit hR in
theorem recBytes_length (s : State) (r : ErrRec) (gap : Bool) (c n : Nat) : (recBytes s r gap c n).length = 60 := by
  unfold recBytes; simp only [List.length_append, leBytes_length]

theorem book_ring {t : State} (h : Books R s t) :
    rd t Reg.errRingCfg = rd s Reg.errRingCfg := h.regs _ hR.ring

/-- The mirror as a record leaves it. -/
theorem mirror_book {ws : List W64} (h : Books R s₀ s) :
    Books R s₀ ((ws.zip (List.range 8)).foldl (fun (s : State) p => wr s (Reg.errLast p.2) p.1) (shiftMirror s 7)) :=
  book_foldl (shiftMirror_book hR (by decide) h) (fun u p hp hu =>
    wr_book (covers_last hR (by have := List.mem_range.mp (List.of_mem_zip hp).2; omega)) hu)

theorem writeRec_book {r : ErrRec} {count : Nat} (h : Books R s₀ s) : Books R s₀ (writeRec s r count) := by
  refine book_trans hR h ?_
  unfold writeRec
  extract_lets x1 x2 x3 x4 x5 x6 x7 x8 x9 x10
  have h6 : x6.length = 64 := by
    show (x5 ++ leBytes 4 _).length = 64
    rw [List.length_append, leBytes_length]
    show (recBytes s r x4 count x1).length + 4 = 64
    rw [recBytes_length]
  have h2 : x2 = flag s Reg.errRingCfg Fl.errRingCfg_ENABLE := rfl
  have k8 : Books R s x8 := mirror_book hR (book_refl s)
  clear_value x1 x2 x3 x4 x5 x6 x8
  have k9 : Books R s x9 := by
    show Books R s (if x2 = true then _ else _)
    split
    · rename_i he
      refine ring_book hR h6 (Nat.mod_lt _ (by decide)) k8 ?_
      rw [h2] at he; unfold flag fld at he ⊢; rw [book_ring hR k8]; exact he
    · exact k8
  clear_value x9
  have k10 : Books R s x10 := setFld_book (hR.err _ (by decide)) k9
  clear_value x10
  exact wrap_book k10

/-- A record that names its snapshot and is not fatal. -/
theorem recordErr_book {r : ErrRec} (hs : r.sev ≠ 3) (hf : r.snap = false) (h : Books R s₀ s) :
    Books R s₀ (recordErr s r) := by
  unfold recordErr
  extract_lets x1 x2 x3 x4 x5 x6
  clear_value x1
  have k2 : Books R s₀ x2 := book_ite h (count_book h)
  clear_value x2
  have k3 : Books R s₀ x3 := by
    unfold x3
    split <;> exact incFld_book (hR.err _ (by decide)) k2
  clear_value x3
  have k4 : Books R s₀ x4 := by
    unfold x4
    refine book_ite ?_ k3
    unfold snapRec
    rw [if_neg (by simp [hf])]
    exact writeRec_book hR k3
  clear_value x4
  have k5 : Books R s₀ x5 := book_ite (attnErr_book hR k4) k4
  clear_value x5
  have k6 : Books R s₀ x6 := book_ite (summarize_book hR k5) k5
  clear_value x6
  rw [if_neg hs]
  exact k6

/-! ## Veins -/

section
variable {v : Nat} (hv : v < 16)
include hv

theorem setVState_book {st : Nat} (h : Books R s₀ s) : Books R s₀ (setVState s v st) := setFld_book (hR.stat _ hv) h
theorem setWaiton_book {w : Nat} (h : Books R s₀ s) : Books R s₀ (setWaiton s v w) := setFld_book (hR.stat _ hv) h

theorem setVBase_book {st : Nat} (h : Books R s₀ s) : Books R s₀ (setVBase s v st) :=
  book_ite (setVein_book rfl h) (setVState_book hR hv h)

theorem refreshVein_book (h : Books R s₀ s) : Books R s₀ (refreshVein s v) := by
  unfold refreshVein
  extract_lets x1 x2 x3 x4 x5 x6
  have k3 : Books R s₀ x3 := setFld_book (hR.stat _ hv) h
  have e1 : x1 = vein x3 v := (vein_setFld ..).symm
  clear_value x1 x2 x3 x4 x5
  refine book_ite k3 ?_
  split
  extract_lets x12 x13
  have k12 : Books R s₀ x12 := setVein_book (by rw [e1]; rfl) k3
  have k13 : Books R s₀ x13 := book_ite (trm_book rfl k3) k3
  clear_value x12 x13
  exact book_ite (setWaiton_book hR hv (setVState_book hR hv k12)) (setWaiton_book hR hv (setVState_book hR hv k13))

theorem retireOne_book {j : Job} (hq : R (Reg.vnSeq v) = true) (h : Books R s₀ s) : Books R s₀ (retireOne s v j) := by
  unfold retireOne traceRetire
  extract_lets x1 x2
  have k : Books R s₀ x2 := setFld_book (hR.stat _ hv) (setFld_book hq h)
  clear_value x1 x2
  exact book_ite (trace_book k) k

theorem retireList_book {js : List Job} (hq : R (Reg.vnSeq v) = true) (h : Books R s₀ s) : Books R s₀ (retireList v js s).1 := by
  induction js generalizing s with
  | nil => exact h
  | cons j js ih =>
    unfold retireList
    split
    · exact ih (retireOne_book hR hv hq h)
    · exact h

theorem retire_book (hq : R (Reg.vnSeq v) = true) (h : Books R s₀ s) : Books R s₀ (retire s v) := by
  unfold retire
  extract_lets x1
  have k := retireList_book hR hv hq (js := x1.jobs) h
  clear_value x1
  split
  rename_i e
  rw [e] at k
  exact setVein_book rfl k

omit hv hR in
theorem leaveFrame_book (h : Books R s₀ s) : Books R s₀ (leaveFrame s v) := setVein_book rfl h

theorem settleHalt_book (h : Books R s₀ s) : Books R s₀ (settleHalt s v) := by
  unfold settleHalt
  extract_lets x1 x2
  have k : x2.sev = 1 := rfl
  have kn : x2.snap = false := rfl
  clear_value x1 x2
  refine book_ite ?_ h
  split
  extract_lets x8 x9 x10
  have k8 : Books R s₀ x8 := setFld_book (hR.stat _ hv) h
  clear_value x8
  have k9 : Books R s₀ x9 := setFld_book (hR.stat _ hv) k8
  clear_value x9
  have k10 : Books R s₀ x10 := setWaiton_book hR hv (setVBase_book hR hv k9)
  clear_value x10
  exact recordErr_book hR (by show x2.sev ≠ 3; rw [k]; decide) kn k10

theorem beginHalt_book (h : Books R s₀ s) : Books R s₀ (beginHalt s v) :=
  book_ite h (settleHalt_book hR hv (setVBase_book hR hv (leaveFrame_book h)))

omit hv hR in
theorem mapJobs_book {f : Job → Job} (h : Books R s₀ s) : Books R s₀ (mapJobs s v f) := setVein_book rfl h
omit hv hR in
theorem updJob_book {seq : Nat} {f : Job → Job} (h : Books R s₀ s) : Books R s₀ (updJob s v seq f) := mapJobs_book h
omit hv hR in
theorem addCond_book {seq code : Nat} (h : Books R s₀ s) : Books R s₀ (addCond s v seq code) := updJob_book h

end

theorem settleWaits_book (h : Books R s₀ s) : Books R s₀ (settleWaits s) :=
  book_foldl h (fun _ _ hx hu =>
    book_ite (refreshVein_book hR (List.mem_range.mp hx) (setVein_book rfl hu)) hu)

theorem completeJob_book {v seq : Nat} (hv : v < 16) (hq : R (Reg.vnSeq v) = true) (h : Books R s₀ s) : Books R s₀ (completeJob s v seq) := by
  unfold completeJob
  extract_lets x1 x2
  have k1 : Books R s₀ x1 := updJob_book h
  clear_value x1
  have k2 : Books R s₀ x2 := by
    unfold x2
    split
    · exact book_ite (beginHalt_book hR hv k1) k1
    · exact k1
  clear_value x2
  exact settleWaits_book hR (refreshVein_book hR hv (settleHalt_book hR hv (retire_book hR hv hq k2)))

/-! ## Admission -/

theorem showQ_book (h : Books R s₀ s) : Books R s₀ (showQ s) := setFld_book hR.budget (setFld_book hR.budget h)

theorem noteFallback_book {e : Est} (h : Books R s₀ s) : Books R s₀ (noteFallback s e) := by
  unfold noteFallback
  extract_lets x1
  have k : Books R s₀ x1 := setFlag_book hR.tstat h
  clear_value x1
  exact book_ite (trm_book rfl k) h

omit hR in
theorem mapHeadGroup_book {v : Nat} {f : VGroup → VGroup} (h : Books R s₀ s) : Books R s₀ (mapHeadGroup s v f) := by
  unfold mapHeadGroup
  extract_lets x1
  split
  · exact h
  · exact setVein_book rfl h

omit hR in
theorem setCEnd_book {as : List Nat} {n : Nat} (h : Books R s₀ s) : Books R s₀ (setCEnd s as n) :=
  book_foldl h (fun _ _ _ hu => setArr_book rfl hu)

theorem admitGroup_book {v : Nat} {es : List (Option Est)} {as : List Nat} {n : Nat} (hv : v < 16) (h : Books R s₀ s) :
    Books R s₀ (admitGroup s v es as n) := by
  unfold admitGroup
  extract_lets x1 x2 x3 x4 x5 x6 x7
  have k4 : Books R s₀ x4 := mapHeadGroup_book (setCEnd_book h)
  clear_value x1 x2 x3 x4 x5
  have k7 : Books R s₀ x7 := trm_book rfl k4
  clear_value x6 x7
  exact showQ_book hR (refreshVein_book hR hv k7)

theorem admitOversize_book {v now : Nat} {es : List (Option Est)} (hv : v < 16) (h : Books R s₀ s) :
    Books R s₀ (admitOversize s v now es) := by
  unfold admitOversize
  extract_lets x1 x2 x3
  have k2 : Books R s₀ x2 := notice_book hR (setFlag_book hR.tstat h)
  clear_value x1 x2
  have k3 : Books R s₀ x3 := admitGroup_book hR hv k2
  clear_value x3
  exact trm_book rfl k3

theorem deferHead_book {v : Nat} {atTick : Bool} (hv : v < 16) (h : Books R s₀ s) : Books R s₀ (deferHead s v atTick) :=
  refreshVein_book hR hv (mapHeadGroup_book h)

theorem settleHead_book {v now : Nat} {atTick : Bool} {d : Verdict} (hv : v < 16) (h : Books R s₀ s) :
    Books R s₀ (settleHead s v now atTick d) := by
  unfold settleHead
  split
  · exact refreshVein_book hR hv (mapHeadGroup_book h)
  · exact book_ite (deferHead_book hR hv h) (admitOversize_book hR hv h)
  · exact book_ite (deferHead_book hR hv h) (admitGroup_book hR hv h)
  · exact deferHead_book hR hv h

theorem considerOne_book {now : Nat} {atTick : Bool} {v : Nat} (hv : v < 16) (h : Books R s₀ s) :
    Books R s₀ (considerOne now atTick s v) := by
  unfold considerOne
  extract_lets x1
  have k : Books R s₀ x1 := book_foldl h (fun _ _ _ hu => noteFallback_book hR hu)
  clear_value x1
  exact settleHead_book hR hv k

omit hR in
theorem nextConsider_book (h : Books R s₀ s) : Books R s₀ (nextConsider s) := trm_book rfl h

omit hR in
theorem mem_admitOrder {s : State} {k x : Nat} {vs : List Nat} (h : x ∈ admitOrder s k vs) : x ∈ vs := by
  induction k generalizing vs with
  | zero => cases h
  | succ k ih =>
    unfold admitOrder at h
    split at h
    · cases h
    · rename_i c cs e
      have hc : ∀ y ∈ c :: cs, y ∈ vs := fun y hy => (List.mem_filter.mp (e ▸ hy)).1
      have hm : ∀ (l : List Nat) (m : Nat), (∀ y ∈ m :: l, y ∈ vs) →
          l.foldl (fun m w => if keyBefore s m w then m else w) m ∈ vs := by
        intro l
        induction l with
        | nil => intro m hl; exact hl m (List.mem_cons_self ..)
        | cons y l ih =>
          intro m hl
          refine ih _ (fun z hz => ?_)
          rcases List.mem_cons.mp hz with rfl | hz
          · dsimp only
            split
            · exact hl _ (List.mem_cons_self ..)
            · exact hl _ (List.mem_cons_of_mem _ (List.mem_cons_self ..))
          · exact hl z (List.mem_cons_of_mem _ (List.mem_cons_of_mem _ hz))
      rcases List.mem_cons.mp h with rfl | h
      · exact hm cs c hc
      · exact (List.mem_filter.mp (ih h)).1

theorem considerAll_book {now : Nat} (h : Books R s₀ s) : Books R s₀ (considerAll s now) := by
  unfold considerAll
  extract_lets x1
  have k : Books R s₀ x1 := nextConsider_book h
  have hl : ∀ v ∈ admitOrder x1 16 ((List.range 16).filter (presented x1)), v < 16 := fun v hv =>
    List.mem_range.mp (List.mem_filter.mp (mem_admitOrder hv)).1
  clear_value x1
  exact book_foldl k (fun _ v hv hu => considerOne_book hR (hl v hv) hu)

theorem present_book {v : Nat} (hv : v < 16) (h : Books R s₀ s) : Books R s₀ (present s v) := by
  unfold present
  extract_lets x1
  have k1 : Books R s₀ x1 := mapHeadGroup_book h
  clear_value x1
  exact book_ite (refreshVein_book hR hv h) (book_ite (refreshVein_book hR hv (mapHeadGroup_book h))
    (book_ite (refreshVein_book hR hv (mapHeadGroup_book k1)) (book_ite (refreshVein_book hR hv k1) (considerOne_book hR hv (nextConsider_book k1)))))

theorem afterIssue_book {v : Nat} (hv : v < 16) (h : Books R s₀ s) : Books R s₀ (afterIssue s v) :=
  book_ite (beginHalt_book hR hv h) (present_book hR hv h)

theorem headWaits_book {v w : Nat} (hv : v < 16) (h : Books R s₀ s) : Books R s₀ (headWaits s v w) :=
  refreshVein_book hR hv (setVein_book rfl h)

end

theorem bookReg_seq {v : Nat} (hv : v < 16) : bookReg (Reg.vnSeq v) = true := by
  have : (List.range 16).any (fun w => Reg.vnSeq v == Reg.vnStat w || Reg.vnSeq v == Reg.vnSeq w) = true :=
    List.any_eq_true.mpr ⟨v, List.mem_range.mpr hv, by simp⟩
  unfold bookReg; rw [this]; rfl

theorem bookReg_covers : Covers bookReg :=
  ⟨fun v hv => by
    have : (List.range 16).any (fun w => Reg.vnStat v == Reg.vnStat w || Reg.vnStat v == Reg.vnSeq w) = true :=
      List.any_eq_true.mpr ⟨v, List.mem_range.mpr hv, by simp⟩
    unfold bookReg; rw [this]; rfl,
   by decide, by decide, fun a ha => by unfold bookReg; rw [ha]; simp, by decide⟩

end Sys2Proof.Machine
end

