-- ==== Sys2Proof/Laws/Keep.lean ====
section
/-! SUPPORT. What every operation keeps: the canonical form of the sparse stores and the queue of commands; outputs are only
added, and free values are only used up. One lemma for each operation says it, named after the operation. -/

namespace Sys2Proof.Machine

/-- From s to t the stores keep their canonical form and the queue stays; outputs are only added, and free values are
only used up. -/
structure Hold (s t : State) : Prop where
  regs  : mapWf regReset s.regs = true → mapWf regReset t.regs = true
  mica  : Memory.wf s = true → Memory.wf t = true
  queue : t.pending = s.pending
  out   : s.out <+: t.out
  free  : s.free ≤ t.free

/-- As Hold, and the start-up state moves along the table of R335. -/
structure Keep (s t : State) : Prop extends Hold s t where
  su : Relation.ReflTransGen (fun a b => b ∈ suNext a) s.su t.su

theorem Hold.rfl' (s : State) : Hold s s := ⟨id, id, rfl, List.prefix_refl _, Nat.le_refl _⟩

theorem Keep.rfl' (s : State) : Keep s s := ⟨Hold.rfl' s, .refl⟩

theorem Hold.trans {s t u : State} (h : Hold s t) (k : Hold t u) : Hold s u :=
  ⟨k.regs ∘ h.regs, k.mica ∘ h.mica, k.queue.trans h.queue, h.out.trans k.out, Nat.le_trans h.free k.free⟩

/-- An update that touches none of these. -/
theorem keep_same {s₀ s t : State} (h1 : t.regs = s.regs) (h2 : t.mica = s.mica) (h3 : t.poison = s.poison)
    (h4 : t.pending = s.pending) (h5 : t.out = s.out) (h6 : t.free = s.free) (h7 : t.su = s.su) (h : Keep s₀ s) :
    Keep s₀ t :=
  ⟨⟨fun k => h1 ▸ h.regs k, fun k => by have := h.mica k; unfold Memory.wf at *; rw [h2, h3]; exact this,
    h4.trans h.queue, h5 ▸ h.out, h6 ▸ h.free⟩, h7 ▸ h.su⟩

/-! ## Shapes of definitions -/

theorem keep_ite {s₀ a b : State} {c : Prop} [Decidable c] (ha : Keep s₀ a) (hb : Keep s₀ b) :
    Keep s₀ (if c then a else b) := by
  split
  · exact ha
  · exact hb

theorem keep_foldl {α : Type} {s₀ s : State} {f : State → α → State} {l : List α} (h : Keep s₀ s)
    (hf : ∀ u x, Keep s₀ u → Keep s₀ (f u x)) : Keep s₀ (l.foldl f s) := by
  induction l generalizing s with
  | nil => exact h
  | cons x l ih => exact ih (hf s x h)

theorem keep_foldl_snd {α β : Type} {s₀ : State} {p : β × State} {f : β × State → α → β × State} {l : List α}
    (h : Keep s₀ p.2) (hf : ∀ u x, Keep s₀ u.2 → Keep s₀ (f u x).2) : Keep s₀ (l.foldl f p).2 := by
  induction l generalizing p with
  | nil => exact h
  | cons x l ih => exact ih (hf p x h)

theorem keep_foldl_fst {α β : Type} {s₀ : State} {p : State × β} {f : State × β → α → State × β} {l : List α}
    (h : Keep s₀ p.1) (hf : ∀ u x, Keep s₀ u.1 → Keep s₀ (f u x).1) : Keep s₀ (l.foldl f p).1 := by
  induction l generalizing p with
  | nil => exact h
  | cons x l ih => exact ih (hf p x h)

theorem keep_foldl_opt {α : Type} {s₀ : State} {o : Option State} {f : Option State → α → Option State} {l : List α}
    (h : ∀ t, o = some t → Keep s₀ t)
    (hf : ∀ u x, (∀ t, u = some t → Keep s₀ t) → ∀ t, f u x = some t → Keep s₀ t) :
    ∀ t, l.foldl f o = some t → Keep s₀ t := by
  induction l generalizing o with
  | nil => exact h
  | cons x l ih => exact ih (hf o x h)

theorem keep_foldl_except {α ε : Type} {s₀ : State} {o : Except ε State} {f : Except ε State → α → Except ε State}
    {l : List α} (h : ∀ t, o = .ok t → Keep s₀ t)
    (hf : ∀ u x, (∀ t, u = .ok t → Keep s₀ t) → ∀ t, f u x = .ok t → Keep s₀ t) :
    ∀ t, l.foldl f o = .ok t → Keep s₀ t := by
  induction l generalizing o with
  | nil => exact h
  | cons x l ih => exact ih (hf o x h)

theorem keep_fst {β : Type} {s₀ x : State} {p : State × β} {b : β} (e : p = (x, b)) (h : Keep s₀ p.1) : Keep s₀ x := by
  subst e; exact h

theorem keep_snd {α : Type} {s₀ x : State} {p : α × State} {a : α} (e : p = (a, x)) (h : Keep s₀ p.2) : Keep s₀ x := by
  subst e; exact h

theorem keep_thd {α β : Type} {s₀ x : State} {p : α × β × State} {a : α} {b : β} (e : p = (a, b, x))
    (h : Keep s₀ p.2.2) : Keep s₀ x := by
  subst e; exact h

theorem id_keep {s₀ s : State} (h : Keep s₀ s) : Keep s₀ (id s) := h

theorem keep_some {s₀ a : State} (h : Keep s₀ a) : ∀ t, some a = some t → Keep s₀ t := by
  intro t e; rw [← Option.some.inj e]; exact h

theorem keep_none {s₀ : State} : ∀ t, none = some t → Keep s₀ t := by
  intro t e; cases e

theorem keep_ok {ε : Type} {s₀ a : State} (h : Keep s₀ a) : ∀ t, (.ok a : Except ε State) = .ok t → Keep s₀ t := by
  intro t e; rw [← Except.ok.inj e]; exact h

theorem keep_error {ε : Type} {s₀ : State} {f : ε} : ∀ t, (.error f : Except ε State) = .ok t → Keep s₀ t := by
  intro t e; cases e

theorem keep_okSnd {ε α : Type} {s₀ : State} {p : α × State} (h : Keep s₀ p.2) :
    ∀ t, (.ok p : Except ε (α × State)) = .ok t → Keep s₀ t.2 := by
  intro t e; rw [← Except.ok.inj e]; exact h

theorem keep_errorSnd {ε α : Type} {s₀ : State} {f : ε} :
    ∀ t, (.error f : Except ε (α × State)) = .ok t → Keep s₀ t.2 := by
  intro t e; cases e

theorem keep_map {s₀ : State} {o : Option State} {g : State → State} (h : ∀ t, o = some t → Keep s₀ t)
    (hg : ∀ u, Keep s₀ u → Keep s₀ (g u)) : ∀ t, o.map g = some t → Keep s₀ t := by
  intro t e
  cases o with
  | none => cases e
  | some u => cases e; exact hg u (h u rfl)

theorem keep_bind {ε α : Type} {s₀ : State} {o : Except ε α} {g : α → Except ε State}
    (hg : ∀ u, o = .ok u → ∀ t, g u = .ok t → Keep s₀ t) : ∀ t, o.bind g = .ok t → Keep s₀ t := by
  intro t e
  cases o with
  | error _ => cases e
  | ok u => exact hg u rfl t e

/-! ## The operations that touch the stores -/

section Base
variable {s₀ s : State}

theorem wr_keep {a : Nat} {v : W64} (h : Keep s₀ s) : Keep s₀ (wr s a v) :=
  ⟨⟨fun k => mapWf_mapPut (h.regs k) a v, h.mica, h.queue, h.out, h.free⟩, h.su⟩

theorem emit_keep {o : Out} (h : Keep s₀ s) : Keep s₀ (emit s o) :=
  ⟨⟨h.regs, h.mica, h.queue, h.out.trans (by unfold emit; dsimp only; split <;> simp), h.free⟩, h.su⟩

theorem emits_keep {os : List Out} (h : Keep s₀ s) : Keep s₀ (emits s os) :=
  ⟨⟨h.regs, h.mica, h.queue, h.out.trans (List.prefix_append _ _), h.free⟩, h.su⟩

theorem takeFree_keep {w : Nat} (h : Keep s₀ s) : Keep s₀ (takeFree s w).2 :=
  ⟨⟨h.regs, h.mica, h.queue, h.out, Nat.le_trans h.free (Nat.le_succ _)⟩, h.su⟩

theorem enterSu_keep {x : Su} (h : Keep s₀ s) : Keep s₀ (enterSu s x) := by
  unfold enterSu
  split
  · rename_i hx; exact ⟨⟨h.regs, h.mica, h.queue, h.out, h.free⟩, h.su.tail hx⟩
  · exact h

theorem wf_parts {t : State} :
    Memory.wf t = true ↔ mapWf (fun _ => (0 : Byte)) t.mica = true ∧ t.poison.Pairwise (· < ·) := by
  simp [Memory.wf]

/-- A change of Mica that keeps its form. -/
theorem mica_keep {m : List Host.Cell} {p : List Nat} (h : Keep s₀ s)
    (hm : mapWf (fun _ => (0 : Byte)) s.mica = true → mapWf (fun _ => (0 : Byte)) m = true)
    (hp : s.poison.Pairwise (· < ·) → p.Pairwise (· < ·)) : Keep s₀ { s with mica := m, poison := p } :=
  ⟨⟨h.regs, fun k => by
    have := wf_parts.mp (h.mica k)
    exact wf_parts.mpr ⟨hm this.1, hp this.2⟩, h.queue, h.out, h.free⟩, h.su⟩

theorem micaPutByte_keep {x : Nat} {b : Byte} (h : Keep s₀ s) : Keep s₀ (micaPutByte s x b) :=
  mica_keep h (fun k => mapWf_mapPut (d := fun _ => (0 : Byte)) k x b) id

theorem micaWrite_keep {x : Nat} {bs : List Byte} (h : Keep s₀ s) : Keep s₀ (micaWrite s x bs) :=
  mica_keep h (fun k => mapWf_micaPutBytes k x bs) (fun k => k.sublist List.filter_sublist)

theorem micaZero_keep {x n : Nat} (h : Keep s₀ s) : Keep s₀ (micaZero s x n) := mica_keep h (mapWf_filter _) id

theorem poisonAt_keep {x : Nat} (h : Keep s₀ s) : Keep s₀ (poisonAt s x) := mica_keep h id pairwise_insNat

/-- Registers are taken from another state that keeps them. -/
theorem regs_keep {r : State} (h : Keep s₀ s) (hr : Keep s₀ r) : Keep s₀ { s with regs := r.regs } :=
  ⟨⟨hr.regs, h.mica, h.queue, h.out, h.free⟩, h.su⟩

/-- Some registers fall back to their reset values. -/
theorem drop_keep {q : Nat × W64 → Bool} (h : Keep s₀ s) : Keep s₀ { s with regs := s.regs.filter q } :=
  ⟨⟨fun k => mapWf_filter q (h.regs k), h.mica, h.queue, h.out, h.free⟩, h.su⟩

end Base

/-! ## Power and reset, which move the start-up state by themselves -/

theorem wiped_hold {s₀ s : State} (h : Hold s₀ s) : Hold s₀ (wiped s) :=
  ⟨fun _ => rfl, h.mica, h.queue, h.out, h.free⟩

/-- An update that touches none of what Hold names. -/
theorem hold_same {s₀ s t : State} (h : Hold s₀ s) (h1 : t.regs = s.regs) (h2 : t.mica = s.mica)
    (h3 : t.poison = s.poison) (h4 : t.pending = s.pending) (h5 : t.out = s.out) (h6 : t.free = s.free) : Hold s₀ t :=
  ⟨fun k => h1 ▸ h.regs k, fun k => by have := h.mica k; unfold Memory.wf at *; rw [h2, h3]; exact this,
    h4.trans h.queue, h5 ▸ h.out, h6 ▸ h.free⟩

/-- Mica is cleared. -/
theorem hold_clear {s₀ s t : State} (h : Hold s₀ s) (h1 : t.regs = s.regs) (h2 : t.mica = []) (h3 : t.poison = [])
    (h4 : t.pending = s.pending) (h5 : t.out = s.out) (h6 : t.free = s.free) : Hold s₀ t :=
  ⟨fun k => h1 ▸ h.regs k, fun _ => by simp [Memory.wf, h2, h3, mapWf], h4.trans h.queue, h5 ▸ h.out, h6 ▸ h.free⟩

end Sys2Proof.Machine
end

