-- ==== Sys2Proof/Laws/KeepOps.lean ====
section
/-! SUPPORT. What the operations of Machine/Ops.lean keep: canonical stores, the queue, outputs only added. -/

namespace Sys2Proof.Machine

theorem orReg_keep {s₀ s : State} {a2 : Nat} {m : Nat} (h : Keep s₀ s) :
    Keep s₀ (orReg s a2 m) := by
  unfold orReg
  exact (wr_keep h)

theorem setStrm_keep {s₀ s : State} {i : Nat} {x : StreamSt} (h : Keep s₀ s) :
    Keep s₀ (setStrm s i x) := by
  unfold setStrm
  exact (keep_same (s := s) rfl rfl rfl rfl rfl rfl rfl h)

theorem setFlags_keep {s₀ s : State} {a2 : Nat} {m : Nat} (h : Keep s₀ s) :
    Keep s₀ (setFlags s a2 m) := by
  unfold setFlags
  exact (keep_ite h (orReg_keep h))

theorem setFld_keep {s₀ s : State} {a2 : Nat} {f : Field} {v : Nat} (h : Keep s₀ s) :
    Keep s₀ (setFld s a2 f v) := by
  unfold setFld
  exact (wr_keep h)

theorem setFlag_keep {s₀ s : State} {a2 : Nat} {f : Field} {b : Bool} (h : Keep s₀ s) :
    Keep s₀ (setFlag s a2 f b) := by
  unfold setFlag
  exact (setFld_keep h)

theorem satFld_keep {s₀ s : State} {a2 : Nat} {f : Field} {n : Nat} (h : Keep s₀ s) :
    Keep s₀ (satFld s a2 f n) := by
  unfold satFld
  exact (setFld_keep h)

theorem summarize_keep {s₀ s : State} {u : Nat} (h : Keep s₀ s) :
    Keep s₀ (summarize s u) := by
  unfold summarize
  exact (setFld_keep h)

theorem attnErr_keep {s₀ s : State} {u : Nat} (h : Keep s₀ s) :
    Keep s₀ (attnErr s u) := by
  unfold attnErr
  exact (summarize_keep (setFlag_keep h))

theorem setMcg_keep {s₀ s : State} {g : Nat} {x : McSt} (h : Keep s₀ s) :
    Keep s₀ (setMcg s g x) := by
  unfold setMcg
  exact (keep_same (s := s) rfl rfl rfl rfl rfl rfl rfl h)

theorem setArr_keep {s₀ s : State} {a2 : Nat} {x : ArrSt} (h : Keep s₀ s) :
    Keep s₀ (setArr s a2 x) := by
  unfold setArr
  exact (keep_same (s := s) rfl rfl rfl rfl rfl rfl rfl h)

theorem setVein_keep {s₀ s : State} {v : Nat} {x : VeinSt} (h : Keep s₀ s) :
    Keep s₀ (setVein s v x) := by
  unfold setVein
  exact (keep_same (s := s) rfl rfl rfl rfl rfl rfl rfl h)

theorem goFatal_keep {s₀ s : State} {code : Nat} (h : Keep s₀ s) :
    Keep s₀ (goFatal s code) := by
  unfold goFatal
  extract_lets x1 x2 x3 x4
  have k5 : Keep s₀ (x1) := (enterSu_keep h)
  clear_value x1
  have k6 : Keep s₀ (x2) := (setFlag_keep k5)
  clear_value x2
  have k7 : Keep s₀ (x3) := (setFld_keep k6)
  clear_value x3 x4
  refine keep_ite ?_ ?_
  · exact h
  · refine keep_foldl ?_ (fun u8 x9 hu10 => ?_)
    · exact k7
    · extract_lets x11
      have k12 : Keep s₀ (x11) := (setFld_keep hu10)
      clear_value x11
      exact (setVein_keep k12)

theorem shiftMirror_keep {s₀ s : State} {a2 : Nat} (h : Keep s₀ s) :
    Keep s₀ (shiftMirror s a2) := by
  induction a2 generalizing s
  · unfold shiftMirror
    exact h
  · rename_i n1 ih2; unfold shiftMirror
    beta_reduce
    exact (ih2 (keep_foldl h (fun u3 x4 hu5 => (wr_keep hu5))))

theorem writeRec_keep {s₀ s : State} {r : ErrRec} {count : Nat} (h : Keep s₀ s) :
    Keep s₀ (writeRec s r count) := by
  unfold writeRec
  extract_lets x1 x2 x3 x4 x5 x6 x7 x8 x9 x10
  clear_value x1 x2 x3 x4 x5 x6
  have k11 : Keep s₀ (x7) := (shiftMirror_keep h)
  clear_value x7
  have k12 : Keep s₀ (x8) := (keep_foldl k11 (fun u13 x14 hu15 => (wr_keep hu15)))
  clear_value x8
  have k16 : Keep s₀ (x9) := (keep_ite (micaWrite_keep k12) k12)
  clear_value x9
  have k17 : Keep s₀ (x10) := (setFld_keep k16)
  clear_value x10
  exact (keep_same (s := x10) rfl rfl rfl rfl rfl rfl rfl k17)

theorem snapRec_keep {s₀ s : State} {r : ErrRec} {count : Nat} (h : Keep s₀ s) :
    Keep s₀ (snapRec s r count) := by
  unfold snapRec
  split
  · rename_i w1 w2 w3 w4
    have k5 : Keep s₀ w3 := keep_snd w4 (by
        split
        · rename_i w6
          exact (takeFree_keep h)
        · rename_i w7
          exact h
      )
    exact (writeRec_keep k5)

theorem notice_keep {s₀ s : State} {u : Nat} (h : Keep s₀ s) :
    Keep s₀ (notice s u) := by
  unfold notice
  exact (summarize_keep (setFlag_keep h))

theorem incFld_keep {s₀ s : State} {a2 : Nat} {f : Field} {n : Nat} (h : Keep s₀ s) :
    Keep s₀ (incFld s a2 f n) := by
  unfold incFld
  exact (setFld_keep h)

theorem recordErr_keep {s₀ s : State} {r : ErrRec} (h : Keep s₀ s) :
    Keep s₀ (recordErr s r) := by
  unfold recordErr
  extract_lets x1 x2 x3 x4 x5 x6
  clear_value x1
  have k7 : Keep s₀ (x2) := (keep_ite h (keep_same (s := s) rfl rfl rfl rfl rfl rfl rfl h))
  clear_value x2
  have k8 : Keep s₀ (x3) := by
    unfold x3
    split
    · rename_i w9 w10
      exact (incFld_keep k7)
    · rename_i w11 w12
      exact (incFld_keep k7)
    · rename_i w13 w14
      exact (incFld_keep k7)
    · rename_i w15 w16 w17 w18
      exact (incFld_keep k7)
  clear_value x3
  have k19 : Keep s₀ (x4) := (keep_ite (snapRec_keep k8) k8)
  clear_value x4
  have k20 : Keep s₀ (x5) := (keep_ite (attnErr_keep k19) k19)
  clear_value x5
  have k21 : Keep s₀ (x6) := (keep_ite (summarize_keep k20) k20)
  clear_value x6
  exact (keep_ite (goFatal_keep k21) k21)

end Sys2Proof.Machine
end

