-- ==== Sys2Proof/Laws/KeepLinkOps.lean ====
section
/-! SUPPORT. What the operations of Machine/LinkOps.lean keep: canonical stores, the queue, outputs only added. -/

namespace Sys2Proof.Machine

theorem setLinkState_keep {s₀ s : State} {l : Nat} {st : Nat} (h : Keep s₀ s) :
    Keep s₀ (setLinkState s l st) := by
  unfold setLinkState
  exact (setFld_keep h)

theorem setLink_keep {s₀ s : State} {l : Nat} {x : LinkSt} (h : Keep s₀ s) :
    Keep s₀ (setLink s l x) := by
  unfold setLink
  exact (keep_same (s := s) rfl rfl rfl rfl rfl rfl rfl h)

theorem drainMsg_keep {s₀ s : State} {l : Nat} {vc : Nat} {is : Nat → Bool} (h : Keep s₀ s) :
    Keep s₀ (drainMsg s l vc is) := by
  unfold drainMsg
  extract_lets x1
  clear_value x1
  split
  · rename_i w2 w3 w4 w5
    extract_lets x6
    clear_value x6
    exact (setLink_keep h)

theorem sendMsg_keep {s₀ s : State} {l : Nat} {vc : Nat} {mhdr : Nat} {bytes : List Byte} (h : Keep s₀ s) :
    Keep s₀ (sendMsg s l vc mhdr bytes) := by
  unfold sendMsg
  extract_lets x1 x2
  clear_value x1 x2
  exact (setLink_keep h)

theorem sendLinkctl_keep {s₀ s : State} {l : Nat} {op : Nat} {p0 : Nat} {p1 : Nat} (h : Keep s₀ s) :
    Keep s₀ (sendLinkctl s l op p0 p1) := by
  unfold sendLinkctl
  exact (sendMsg_keep h)

theorem sendReady_keep {s₀ s : State} {l : Nat} {blocks : Nat} (h : Keep s₀ s) :
    Keep s₀ (sendReady s l blocks) := by
  unfold sendReady
  exact (sendMsg_keep h)

theorem sendHold_keep {s₀ s : State} {l : Nat} {epoch : Nat} {g : Nat} {frame : Nat} (h : Keep s₀ s) :
    Keep s₀ (sendHold s l epoch g frame) := by
  unfold sendHold
  exact (sendMsg_keep h)

theorem sendMccred_keep {s₀ s : State} {l : Nat} {group : Nat} {sq : Nat} {parcel : Nat} (h : Keep s₀ s) :
    Keep s₀ (sendMccred s l group sq parcel) := by
  unfold sendMccred
  exact (sendMsg_keep h)

theorem sendTokenMsg_keep {s₀ s : State} {l : Nat} {frame : Nat} {blocks : Nat} {late : Bool} {lowest : Nat}
    (h : Keep s₀ s) :
    Keep s₀ (sendTokenMsg s l frame blocks late lowest) := by
  unfold sendTokenMsg
  exact (sendMsg_keep h)

theorem sendRouted_keep {s₀ s : State} {l : Nat} {r : Routed} (h : Keep s₀ s) :
    Keep s₀ (sendRouted s l r) := by
  unfold sendRouted
  exact (sendMsg_keep h)

theorem sendDresp_keep {s₀ s : State} {l : Nat} {t3 : Nat} {t4 : Nat} (h : Keep s₀ s) :
    Keep s₀ (sendDresp s l t3 t4) := by
  unfold sendDresp
  exact (sendMsg_keep h)

theorem sendMcdata_keep {s₀ s : State} {l : Nat} {group : Nat} {root : Nat} {parcel : Nat} {first : Nat}
    {last : Bool} {sq : Nat} {bs : List Byte} (h : Keep s₀ s) :
    Keep s₀ (sendMcdata s l group root parcel first last sq bs) := by
  unfold sendMcdata
  exact (sendMsg_keep h)

theorem sendSync_keep {s₀ s : State} {l : Nat} {lode : Nat} {hops : Nat} {epoch : Nat} {t1 : Nat} {frame : Nat}
    (h : Keep s₀ s) :
    Keep s₀ (sendSync s l lode hops epoch t1 frame) := by
  unfold sendSync
  exact (sendMsg_keep h)

theorem sendTakeover_keep {s₀ s : State} {l : Nat} {lode : Nat} {epoch : Nat} {frame : Nat} (h : Keep s₀ s) :
    Keep s₀ (sendTakeover s l lode epoch frame) := by
  unfold sendTakeover
  exact (sendMsg_keep h)

theorem sendDreq_keep {s₀ s : State} {l : Nat} {t3 : Nat} (h : Keep s₀ s) :
    Keep s₀ (sendDreq s l t3) := by
  unfold sendDreq
  exact (sendMsg_keep h)

theorem sendTick_keep {s₀ s : State} {l : Nat} {epoch : Nat} {g : Nat} {frame : Nat} {step : Nat} (h : Keep s₀ s) :
    Keep s₀ (sendTick s l epoch g frame step) := by
  unfold sendTick
  exact (sendMsg_keep h)

theorem releaseMsg_keep {s₀ s : State} {r : Routed} (h : Keep s₀ s) :
    Keep s₀ (releaseMsg s r) := by
  unfold releaseMsg
  split
  · rename_i w1 w2
    exact h
  · rename_i w3 w4 w5
    exact (drainMsg_keep h)

end Sys2Proof.Machine
end

