-- ==== Sys2Proof/Laws/KeepFlint.lean ====
section
/-! SUPPORT. What the operations of Machine/Flint.lean keep: canonical stores, the queue, outputs only added. -/

namespace Sys2Proof.Machine

theorem injOne_keep {s₀ : State} {det : Nat} {x : InjSel} {busy : Bool} {acc : Option Nat × State} {n : Nat}
    (hacc : Keep s₀ (acc).2) :
    Keep s₀ (injOne det x busy acc n).2 := by
  unfold injOne
  split
  · rename_i w1 w2 w3
    extract_lets x4 x5 x6 x7 x8 x9 x10 x11
    clear_value x4 x5 x6 x7
    have k12 : Keep s₀ (x8) := (keep_same (s := w3) rfl rfl rfl rfl rfl rfl rfl hacc)
    clear_value x8
    have k13 : Keep s₀ (x9) := (incFld_keep k12)
    clear_value x9 x10
    have k14 : Keep s₀ (x11) := (keep_ite (setFlag_keep k13) k13)
    clear_value x11
    split
    · rename_i w15
      exact hacc
    · rename_i w16
      split
      · rename_i w17
        dsimp only
        exact (setFld_keep hacc)
      · rename_i w18
        split
        · rename_i w19
          exact k12
        · rename_i w20
          exact k14

theorem flintHit_keep {s₀ s : State} {det : Nat} {x : InjSel} {busy : Bool} (h : Keep s₀ s) :
    Keep s₀ (flintHit s det x busy).2 := by
  unfold flintHit
  exact (keep_foldl_snd h (fun u1 x2 hu3 => (injOne_keep hu3)))

theorem flint_keep {s₀ s : State} {det : Nat} {x : InjSel} {busy : Bool} (h : Keep s₀ s) :
    Keep s₀ (flint s det x busy).2 := by
  unfold flint
  extract_lets x1 x2 x3
  have k4 : Keep s₀ (x1).2 := (flintHit_keep h)
  clear_value x1 x2
  have k5 : Keep s₀ (x3) := k4
  clear_value x3
  exact k5

end Sys2Proof.Machine
end

