-- ==== Sys2Proof/Laws/KeepVeinOps.lean ====
section
/-! SUPPORT. What the operations of Machine/VeinOps.lean keep: canonical stores, the queue, outputs only added. -/

namespace Sys2Proof.Machine

theorem mapJobs_keep {s₀ s : State} {v : Nat} {f : Job → Job} (h : Keep s₀ s) :
    Keep s₀ (mapJobs s v f) := by
  unfold mapJobs
  extract_lets x1
  clear_value x1
  exact (setVein_keep h)

theorem updJob_keep {s₀ s : State} {v : Nat} {seq : Nat} {f : Job → Job} (h : Keep s₀ s) :
    Keep s₀ (updJob s v seq f) := by
  unfold updJob
  exact (mapJobs_keep h)

theorem leaveFrame_keep {s₀ s : State} {v : Nat} (h : Keep s₀ s) :
    Keep s₀ (leaveFrame s v) := by
  unfold leaveFrame
  extract_lets x1
  clear_value x1
  exact (setVein_keep h)

theorem finJob_keep {s₀ s : State} {v : Nat} {seq : Nat} (h : Keep s₀ s) :
    Keep s₀ (finJob s v seq) := by
  unfold finJob
  exact (updJob_keep h)

theorem setWaiton_keep {s₀ s : State} {v : Nat} {w : Nat} (h : Keep s₀ s) :
    Keep s₀ (setWaiton s v w) := by
  unfold setWaiton
  exact (setFld_keep h)

theorem addCond_keep {s₀ s : State} {v : Nat} {seq : Nat} {code : Nat} (h : Keep s₀ s) :
    Keep s₀ (addCond s v seq code) := by
  unfold addCond
  exact (updJob_keep h)

theorem staleCond_keep {s₀ s : State} {v : Nat} {seq : Nat} (h : Keep s₀ s) :
    Keep s₀ (staleCond s v seq) := by
  unfold staleCond
  extract_lets x1 x2
  have k3 : Keep s₀ (x1) := (addCond_keep h)
  clear_value x1 x2
  exact (setVein_keep k3)

theorem setVState_keep {s₀ s : State} {v : Nat} {st : Nat} (h : Keep s₀ s) :
    Keep s₀ (setVState s v st) := by
  unfold setVState
  exact (setFld_keep h)

theorem setVBase_keep {s₀ s : State} {v : Nat} {st : Nat} (h : Keep s₀ s) :
    Keep s₀ (setVBase s v st) := by
  unfold setVBase
  extract_lets x1
  clear_value x1
  exact (keep_ite (setVein_keep h) (setVState_keep h))

theorem refreshVein_keep {s₀ s : State} {v : Nat} (h : Keep s₀ s) :
    Keep s₀ (refreshVein s v) := by
  unfold refreshVein
  extract_lets x1 x2 x3 x4 x5 x6
  clear_value x1 x2
  have k7 : Keep s₀ (x3) := (setFld_keep h)
  clear_value x3 x4 x5 x6
  refine keep_ite ?_ ?_
  · exact k7
  · split
    · rename_i w8 w9 w10 w11
      extract_lets x12 x13
      have k14 : Keep s₀ (x12) := (setVein_keep k7)
      clear_value x12
      have k15 : Keep s₀ (x13) := (keep_ite (keep_same (s := x3) rfl rfl rfl rfl rfl rfl rfl k7) k7)
      clear_value x13
      exact (keep_ite (setWaiton_keep (setVState_keep k14)) (setWaiton_keep (setVState_keep k15)))

theorem fenceVein_keep {s₀ s : State} {v : Nat} {on : Bool} (h : Keep s₀ s) :
    Keep s₀ (fenceVein s v on) := by
  unfold fenceVein
  extract_lets x1
  clear_value x1
  exact (keep_ite h (refreshVein_keep (setVein_keep h)))

theorem settleWaits_keep {s₀ s : State} (h : Keep s₀ s) :
    Keep s₀ (settleWaits s) := by
  unfold settleWaits
  refine keep_foldl ?_ (fun u1 x2 hu3 => ?_)
  · exact h
  · extract_lets x4
    clear_value x4
    exact (keep_ite (refreshVein_keep (setVein_keep hu3)) hu3)

theorem traceRetire_keep {s₀ s : State} {v : Nat} {j : Job} (h : Keep s₀ s) :
    Keep s₀ (traceRetire s v j) := by
  unfold traceRetire
  exact (keep_ite (keep_same (s := s) rfl rfl rfl rfl rfl rfl rfl h) h)

theorem retireOne_keep {s₀ s : State} {v : Nat} {j : Job} (h : Keep s₀ s) :
    Keep s₀ (retireOne s v j) := by
  unfold retireOne
  extract_lets x1 x2
  have k3 : Keep s₀ (x1) := (setFld_keep h)
  clear_value x1
  have k4 : Keep s₀ (x2) := (setFld_keep k3)
  clear_value x2
  exact (traceRetire_keep k4)

theorem retireList_keep {s₀ : State} {v : Nat} {a2 : List Job} {s : State} (h : Keep s₀ s) :
    Keep s₀ (retireList v a2 s).1 := by
  induction a2 generalizing v s
  · unfold retireList
    exact h
  · rename_i n8 n9 ih10; unfold retireList
    split
    · rename_i w11
      exact (ih10 (retireOne_keep h))
    · rename_i w12
      exact h

theorem retire_keep {s₀ s : State} {v : Nat} (h : Keep s₀ s) :
    Keep s₀ (retire s v) := by
  unfold retire
  extract_lets x1
  clear_value x1
  split
  · rename_i w2 w3 w4 w5
    have k6 : Keep s₀ w3 := keep_fst w5 ((retireList_keep h))
    extract_lets x7
    clear_value x7
    exact (setVein_keep k6)

theorem settleHalt_keep {s₀ s : State} {v : Nat} (h : Keep s₀ s) :
    Keep s₀ (settleHalt s v) := by
  unfold settleHalt
  extract_lets x1 x2
  clear_value x1 x2
  refine keep_ite ?_ ?_
  · split
    · rename_i w3 w4 w5 w6 w7
      extract_lets x8 x9 x10
      have k11 : Keep s₀ (x8) := (setFld_keep h)
      clear_value x8
      have k12 : Keep s₀ (x9) := (setFld_keep k11)
      clear_value x9
      have k13 : Keep s₀ (x10) := (setWaiton_keep (setVBase_keep k12))
      clear_value x10
      exact (recordErr_keep k13)
  · exact h

theorem beginHalt_keep {s₀ s : State} {v : Nat} (h : Keep s₀ s) :
    Keep s₀ (beginHalt s v) := by
  unfold beginHalt
  exact (keep_ite h (settleHalt_keep (setVBase_keep (leaveFrame_keep h))))

theorem completeJob_keep {s₀ s : State} {v : Nat} {seq : Nat} (h : Keep s₀ s) :
    Keep s₀ (completeJob s v seq) := by
  unfold completeJob
  extract_lets x1 x2
  have k3 : Keep s₀ (x1) := (updJob_keep h)
  clear_value x1
  have k4 : Keep s₀ (x2) := by
    unfold x2
    split
    · rename_i w5 w6 w7
      exact (keep_ite (beginHalt_keep k3) k3)
    · rename_i w8 w9
      exact k3
  clear_value x2
  exact (settleWaits_keep (refreshVein_keep (settleHalt_keep (retire_keep k4))))

theorem completeNow_keep {s₀ s : State} {v : Nat} {seq : Nat} (h : Keep s₀ s) :
    Keep s₀ (completeNow s v seq) := by
  unfold completeNow
  exact (completeJob_keep h)

end Sys2Proof.Machine
end

