-- ==== Sys2Proof/Laws/KeepStreamOps.lean ====
section
/-! SUPPORT. What the operations of Machine/StreamOps.lean keep: canonical stores, the queue, outputs only added. -/

namespace Sys2Proof.Machine

theorem applyRec_keep {s₀ s : State} {r : Nat × Nat} (h : Keep s₀ s) :
    Keep s₀ (applyRec s r) := by
  unfold applyRec
  extract_lets x1
  clear_value x1
  exact (wr_keep h)

theorem release_keep {s₀ s : State} {i : Nat} (h : Keep s₀ s) :
    Keep s₀ (release s i) := by
  unfold release
  extract_lets x1
  clear_value x1
  exact (keep_ite h (setStrm_keep h))

theorem measure_keep {s₀ s : State} {i : Nat} {array : Nat} {w : Nat} {codes : List Nat} (h : Keep s₀ s) :
    Keep s₀ (measure s i array w codes) := by
  unfold measure
  extract_lets x1 x2 x3
  clear_value x1 x2 x3
  exact (setStrm_keep h)

theorem countBytes_keep {s₀ s : State} {i : Nat} {n : Nat} (h : Keep s₀ s) :
    Keep s₀ (countBytes s i n) := by
  unfold countBytes
  exact (incFld_keep h)

theorem measureRun_keep {s₀ s : State} {i : Nat} {w : Nat} {codes : List Nat} (h : Keep s₀ s) :
    Keep s₀ (measureRun s i w codes) := by
  unfold measureRun
  exact (keep_foldl h (fun u1 x2 hu3 => (measure_keep hu3)))

theorem startSeq_keep {s₀ s : State} {i : Nat} {start : Nat} {xbase : Nat} (h : Keep s₀ s) :
    Keep s₀ (startSeq s i start xbase) := by
  unfold startSeq
  extract_lets x1 x2 x3
  clear_value x1
  have k4 : Keep s₀ (x2) := (setFld_keep h)
  clear_value x2 x3
  exact (setStrm_keep k4)

theorem setWaiters_keep {s₀ s : State} {k : Nat} (h : Keep s₀ s) :
    Keep s₀ (setWaiters s k) := by
  unfold setWaiters
  exact (setFld_keep h)

theorem setSState_keep {s₀ s : State} {i : Nat} {st : Nat} (h : Keep s₀ s) :
    Keep s₀ (setSState s i st) := by
  unfold setSState
  exact (setFld_keep h)

theorem settleMcast_keep {s₀ s : State} (h : Keep s₀ s) :
    Keep s₀ (settleMcast s) := by
  unfold settleMcast
  extract_lets x1 x2
  clear_value x1
  have k3 : Keep s₀ (x2) := (keep_same (s := s) rfl rfl rfl rfl rfl rfl rfl h)
  clear_value x2
  split
  · rename_i w4 w5
    exact h
  · rename_i w6 w7
    exact (keep_foldl k3 (fun u8 x9 hu10 => (applyRec_keep hu10)))

theorem putAt_keep {s₀ s : State} {i : Nat} {p : Nat} {bs : List Byte} (h : Keep s₀ s) :
    Keep s₀ (putAt s i p bs) := by
  unfold putAt
  exact (keep_foldl h (fun u1 x2 hu3 => (micaWrite_keep hu3)))

theorem turnIn_keep {s₀ s : State} {i : Nat} (h : Keep s₀ s) :
    Keep s₀ (turnIn s i) := by
  unfold turnIn
  extract_lets x1 x2 x3
  clear_value x1
  have k4 : Keep s₀ (x2) := (setStrm_keep h)
  clear_value x2 x3
  split
  · rename_i w5 w6 w7 w8
    exact (setStrm_keep k4)

theorem writeActivity_keep {s₀ s : State} {i : Nat} (h : Keep s₀ s) :
    Keep s₀ (writeActivity s i) := by
  unfold writeActivity
  extract_lets x1 x2
  clear_value x1
  have k3 : Keep s₀ (x2) := (setStrm_keep h)
  clear_value x2
  refine keep_ite ?_ ?_
  · refine keep_ite ?_ ?_
    · split
      · rename_i w4 w5 w6 w7
        have k8 : Keep s₀ w6 := keep_snd w7 ((takeFree_keep k3))
        exact (setFld_keep k8)
    · exact (setFld_keep k3)
  · exact h

theorem takeBytes_keep {s₀ s : State} {i : Nat} {n : Nat} (h : Keep s₀ s) :
    Keep s₀ (takeBytes s i n).2 := by
  unfold takeBytes
  extract_lets x1
  clear_value x1
  dsimp only
  exact (setStrm_keep h)

theorem putByte_keep {s₀ s : State} {i a : Nat} {b : Byte} {bad : Bool} (h : Keep s₀ s) :
    Keep s₀ (putByte s i a b bad) := by
  unfold putByte
  extract_lets x w
  refine keep_ite (poisonAt_keep (setStrm_keep h)) (keep_ite (micaPutByte_keep h) (micaPutByte_keep ?_))
  exact mica_keep h id (fun k => k.sublist List.filter_sublist)

theorem semRefuse_keep {s₀ s : State} {k : Nat} {src : Nat} {a4 : Option Nat} {inj : Bool} (h : Keep s₀ s) :
    Keep s₀ (semRefuse s k src a4 inj) := by
  unfold semRefuse
  extract_lets x1
  clear_value x1
  exact (recordErr_keep (incFld_keep h))

theorem haltStream_keep {s₀ s : State} {i : Nat} {code : Nat} (h : Keep s₀ s) :
    Keep s₀ (haltStream s i code) := by
  unfold haltStream
  extract_lets x1 x2 x3 x4 x5 x6
  clear_value x1
  have k7 : Keep s₀ (x2) := (settleMcast_keep (setSState_keep h))
  clear_value x2
  have k8 : Keep s₀ (x3) := (setFld_keep k7)
  clear_value x3
  have k9 : Keep s₀ (x4) := (setFlag_keep k8)
  clear_value x4 x5
  have k10 : Keep s₀ (x6) := (keep_same (s := x4) rfl rfl rfl rfl rfl rfl rfl k9)
  clear_value x6
  exact (setStrm_keep k10)

theorem endWait_keep {s₀ s : State} {v : Nat} {code : Nat} (h : Keep s₀ s) :
    Keep s₀ (endWait s v code) := by
  unfold endWait
  extract_lets x1 x2 x3
  clear_value x1 x2
  have k4 : Keep s₀ (x3) := (setVein_keep h)
  clear_value x3
  split
  · rename_i w5 w6
    exact (refreshVein_keep k4)
  · rename_i w7 w8 w9
    extract_lets x10 x11
    have k12 : Keep s₀ (x10) := (keep_ite k4 (addCond_keep k4))
    clear_value x10
    have k13 : Keep s₀ (x11) := (keep_ite (addCond_keep k12) k12)
    clear_value x11
    exact (completeJob_keep k13)

theorem semWake_keep {s₀ : State} {k : Nat} {a2 : Nat} {s : State} (h : Keep s₀ s) :
    Keep s₀ (semWake k a2 s) := by
  induction a2 generalizing k s
  · unfold semWake
    exact h
  · rename_i n17 ih18; unfold semWake
    split
    · rename_i w19 w20
      exact h
    · rename_i w21 w22 w23 w24 w25 w26 w27
      extract_lets x28
      have k29 : Keep s₀ (x28) := (setFld_keep h)
      clear_value x28
      refine keep_ite ?_ ?_
      · refine ih18 ?_
        split
        · rename_i w30
          exact (endWait_keep k29)
        · rename_i w31 w32 w33
          exact (updJob_keep k29)
      · exact h

theorem semSettle_keep {s₀ s : State} {k : Nat} (h : Keep s₀ s) :
    Keep s₀ (semSettle s k) := by
  unfold semSettle
  exact (setWaiters_keep (semWake_keep h))

theorem semRaise_keep {s₀ s : State} {k : Nat} {val : Nat} {src : Nat} {a5 : Option Nat} (h : Keep s₀ s) :
    Keep s₀ (semRaise s k val src a5) := by
  unfold semRaise
  extract_lets x1 x2 x3 x4
  clear_value x1
  have k5 : Keep s₀ (x2) := (setFld_keep h)
  clear_value x2 x3
  have k6 : Keep s₀ (x4) := (keep_ite (recordErr_keep (incFld_keep k5)) k5)
  clear_value x4
  exact (semSettle_keep k6)

theorem semPost_keep {s₀ s : State} {k : Nat} {val : Nat} {a4 : Nat} {src : Nat} {v : Option Nat} (h : Keep s₀ s) :
    Keep s₀ (semPost s k val a4 src v) := by
  unfold semPost
  extract_lets x1 x2 x3 x4
  clear_value x1
  have k5 : Keep s₀ (x2).2 := (flint_keep h)
  clear_value x2 x3
  have k6 : Keep s₀ (x4) := k5
  clear_value x4
  exact (keep_ite (semRefuse_keep k6) (semRaise_keep k6))

theorem endPost_keep {s₀ s : State} {i : Nat} (h : Keep s₀ s) :
    Keep s₀ (endPost s i) := by
  unfold endPost
  extract_lets x1
  clear_value x1
  exact (keep_ite h (keep_ite (keep_ite (semPost_keep h) (keep_same (s := s) rfl rfl rfl rfl rfl rfl rfl h)) (semPost_keep h)))

theorem seqEnd_keep {s₀ s : State} {i : Nat} (h : Keep s₀ s) :
    Keep s₀ (seqEnd s i) := by
  unfold seqEnd
  extract_lets x1 x2 x3 x4 x5
  have k6 : Keep s₀ (x1) := (writeActivity_keep h)
  clear_value x1
  have k7 : Keep s₀ (x2) := (endPost_keep k6)
  clear_value x2 x3
  have k8 : Keep s₀ (x4) := (setStrm_keep k7)
  clear_value x4
  have k9 : Keep s₀ (x5) := (setFlag_keep k8)
  clear_value x5
  split
  · rename_i w10 w11 w12
    exact (settleWaits_keep (startSeq_keep k9))
  · rename_i w13 w14
    split
    · rename_i w15 w16 w17 w18 w19
      exact (startSeq_keep k7)
    · rename_i w20 w21 w22
      exact (settleMcast_keep (settleWaits_keep (setSState_keep k7)))

theorem semPostLocal_keep {s₀ s : State} {k : Nat} {val : Nat} (h : Keep s₀ s) :
    Keep s₀ (semPostLocal s k val) := by
  unfold semPostLocal
  extract_lets x1 x2 x3
  have k4 : Keep s₀ (x1).2 := (flint_keep h)
  clear_value x1 x2
  have k5 : Keep s₀ (x3) := k4
  clear_value x3
  exact (keep_ite (semRefuse_keep k5) (semRaise_keep k5))

theorem endSeqs_keep {s₀ : State} {a1 : Nat} {s : State} {a3 : Nat} (h : Keep s₀ s) :
    Keep s₀ (endSeqs a1 s a3) := by
  induction a1 generalizing s a3
  · unfold endSeqs
    exact h
  · rename_i n1 ih2; unfold endSeqs
    exact (keep_ite (ih2 (seqEnd_keep h)) h)

theorem checkEnd_keep {s₀ s : State} {i : Nat} (h : Keep s₀ s) :
    Keep s₀ (checkEnd s i) := by
  unfold checkEnd
  extract_lets x1
  clear_value x1
  exact (endSeqs_keep h)

theorem consumed_keep {s₀ s : State} {i : Nat} {upto : Nat} (h : Keep s₀ s) :
    Keep s₀ (consumed s i upto) := by
  unfold consumed
  extract_lets x1 x2 x3 x4
  clear_value x1
  have k5 : Keep s₀ (x2) := (setStrm_keep h)
  clear_value x2 x3
  have k6 : Keep s₀ (x4) := (setStrm_keep k5)
  clear_value x4
  exact (keep_ite (checkEnd_keep (countBytes_keep k6)) k5)

theorem writeRange_keep {s₀ s : State} {i : Nat} {p : Nat} {bs : List Byte} (h : Keep s₀ s) :
    Keep s₀ (writeRange s i p bs) := by
  unfold writeRange
  extract_lets x1 x2 x3
  have k4 : Keep s₀ (x1) := (putAt_keep h)
  clear_value x1 x2
  have k5 : Keep s₀ (x3) := (setStrm_keep k4)
  clear_value x3
  exact (keep_ite (checkEnd_keep (countBytes_keep k5)) (setStrm_keep k4))

theorem turnOut_keep {s₀ s : State} {i : Nat} (h : Keep s₀ s) :
    Keep s₀ (turnOut s i) := by
  unfold turnOut
  extract_lets x1 x2 x3
  clear_value x1 x2
  have k4 : Keep s₀ (x3) := (setStrm_keep h)
  clear_value x3
  refine keep_ite ?_ ?_
  · exact h
  · refine keep_foldl ?_ (fun u5 x6 hu7 => ?_)
    · exact k4
    · split
      · rename_i w8 w9 w10
        extract_lets x11 x12
        have k13 : Keep s₀ (x11) := (putByte_keep hu7)
        clear_value x11 x12
        exact (setStrm_keep k13)
      · rename_i w14 w15
        exact hu7

theorem extendOne_keep {s₀ s : State} {i : Nat} (h : Keep s₀ s) :
    Keep s₀ (extendOne s i) := by
  unfold extendOne
  extract_lets x1 x2 x3
  clear_value x1 x2 x3
  split
  · rename_i w4 w5
    exact h
  · rename_i w6 w7 w8
    extract_lets x9 x10
    clear_value x9 x10
    exact (keep_ite h (keep_ite (setStrm_keep h) (keep_ite h (turnOut_keep (setStrm_keep h)))))

theorem extend_keep {s₀ s : State} {i : Nat} (h : Keep s₀ s) :
    Keep s₀ (extend s i) := by
  unfold extend
  extract_lets x1
  have k2 : Keep s₀ (x1) := (extendOne_keep (extendOne_keep (release_keep h)))
  clear_value x1
  exact (keep_ite (checkEnd_keep k2) k2)

end Sys2Proof.Machine
end

