-- ==== Sys2Proof/Laws/KeepCairnOps.lean ====
section
/-! SUPPORT. What the operations of Machine/CairnOps.lean keep: canonical stores, the queue, outputs only added. -/

namespace Sys2Proof.Machine

theorem showEligible_keep {s₀ s : State} (h : Keep s₀ s) :
    Keep s₀ (showEligible s) := by
  unfold showEligible
  exact (setFlag_keep h)

theorem tokenUp_keep {s₀ s : State} {frame : Nat} {x : Bool × Nat × Nat} (h : Keep s₀ s) :
    Keep s₀ (tokenUp s frame x) := by
  unfold tokenUp
  exact (keep_ite h (sendTokenMsg_keep h))

theorem resendToken_keep {s₀ s : State} (h : Keep s₀ s) :
    Keep s₀ (resendToken s) := by
  unfold resendToken
  split
  · rename_i w1 w2 w3
    exact (tokenUp_keep h)
  · rename_i w4 w5
    exact h

theorem setCrn_keep {s₀ s : State} {f : CairnSt → CairnSt} (h : Keep s₀ s) :
    Keep s₀ (setCrn s f) := by
  unfold setCrn
  exact (keep_same (s := s) rfl rfl rfl rfl rfl rfl rfl h)

theorem reparent_keep {s₀ s : State} (h : Keep s₀ s) :
    Keep s₀ (reparent s) := by
  unfold reparent
  extract_lets x1
  clear_value x1
  refine keep_ite ?_ ?_
  · exact h
  · split
    · rename_i w2 w3
      exact (setFld_keep (setFld_keep h))
    · rename_i w4 w5 w6 w7
      extract_lets x8 x9
      have k10 : Keep s₀ (x8) := (setFld_keep (setFld_keep h))
      clear_value x8
      have k11 : Keep s₀ (x9) := (setCrn_keep k10)
      clear_value x9
      exact (keep_ite k11 (resendToken_keep (setCrn_keep k11)))

theorem fixAnchor_keep {s₀ s : State} {g : Nat} (h : Keep s₀ s) :
    Keep s₀ (fixAnchor s g) := by
  unfold fixAnchor
  extract_lets x1 x2
  have k3 : Keep s₀ (x1) := (setFld_keep h)
  clear_value x1
  have k4 : Keep s₀ (x2) := (setFld_keep k3)
  clear_value x2
  exact (setCrn_keep k4)

theorem tryReady_keep {s₀ s : State} (h : Keep s₀ s) :
    Keep s₀ (tryReady s) := by
  unfold tryReady
  exact (keep_ite h (keep_ite (keep_ite (fixAnchor_keep h) h) (keep_ite (sendReady_keep (setCrn_keep h)) h)))

theorem passGrid_keep {s₀ s : State} (h : Keep s₀ s) :
    Keep s₀ (passGrid s) := by
  unfold passGrid
  extract_lets x1
  have k2 : Keep s₀ (x1) := (setFld_keep h)
  clear_value x1
  exact (setCrn_keep k2)

theorem addKid_keep {s₀ s : State} {l : Nat} (h : Keep s₀ s) :
    Keep s₀ (addKid s l) := by
  unfold addKid
  exact (setCrn_keep h)

theorem linkGone_keep {s₀ s : State} {l : Nat} (h : Keep s₀ s) :
    Keep s₀ (linkGone s l) := by
  unfold linkGone
  extract_lets x1
  have k2 : Keep s₀ (x1) := (setCrn_keep h)
  clear_value x1
  exact (keep_ite (setFld_keep (setFld_keep k2)) k2)

theorem addTime_keep {s₀ s : State} {d : Int} (h : Keep s₀ s) :
    Keep s₀ (addTime s d) := by
  unfold addTime
  exact (setCrn_keep h)

theorem sendClosing_keep {s₀ s : State} (h : Keep s₀ s) :
    Keep s₀ (sendClosing s) := by
  unfold sendClosing
  extract_lets x1
  have k2 : Keep s₀ (x1) := (setCrn_keep h)
  clear_value x1
  split
  · rename_i w3 w4
    exact h
  · rename_i w5 w6 w7
    exact (keep_ite k2 (tokenUp_keep k2))

theorem sendToken_keep {s₀ s : State} {late : Bool} (h : Keep s₀ s) :
    Keep s₀ (sendToken s late) := by
  unfold sendToken
  extract_lets x1 x2
  clear_value x1
  have k3 : Keep s₀ (x2) := (setCrn_keep h)
  clear_value x2
  exact (keep_ite k3 (tokenUp_keep k3))

theorem setLock_keep {s₀ s : State} {k : Nat} (h : Keep s₀ s) :
    Keep s₀ (setLock s k) := by
  unfold setLock
  exact (setCrn_keep (setFld_keep h))

theorem becomeLode_keep {s₀ s : State} (h : Keep s₀ s) :
    Keep s₀ (becomeLode s) := by
  unfold becomeLode
  extract_lets x1 x2 x3 x4 x5
  clear_value x1
  have k6 : Keep s₀ (x2) := (setFlag_keep h)
  clear_value x2
  have k7 : Keep s₀ (x3) := (setFld_keep k6)
  clear_value x3
  have k8 : Keep s₀ (x4) := (setFld_keep k7)
  clear_value x4
  have k9 : Keep s₀ (x5) := (setFld_keep k8)
  clear_value x5
  exact (setCrn_keep (setLock_keep k9))

theorem becomeFollower_keep {s₀ s : State} {l : Nat} (h : Keep s₀ s) :
    Keep s₀ (becomeFollower s l) := by
  unfold becomeFollower
  extract_lets x1 x2 x3 x4 x5
  clear_value x1
  have k6 : Keep s₀ (x2) := (setFlag_keep h)
  clear_value x2
  have k7 : Keep s₀ (x3) := (setFld_keep k6)
  clear_value x3
  have k8 : Keep s₀ (x4) := (setFld_keep k7)
  clear_value x4
  have k9 : Keep s₀ (x5) := (setFld_keep k8)
  clear_value x5
  exact (setCrn_keep k9)

end Sys2Proof.Machine
end

