-- ==== Sys2Proof/Laws/KeepPort.lean ====
section
/-! SUPPORT. What the operations of Machine/Port.lean keep: canonical stores, the queue, outputs only added. -/

namespace Sys2Proof.Machine

theorem badAccess_keep {s₀ s : State} {a2 : Nat} {write : Bool} {reason : Nat} (h : Keep s₀ s) :
    Keep s₀ (badAccess s a2 write reason) := by
  unfold badAccess
  extract_lets x1 x2 x3 x4
  have k5 : Keep s₀ (x1) := (setFlag_keep h)
  clear_value x1 x2
  have k6 : Keep s₀ (x3) := (setFlag_keep k5)
  clear_value x3
  have k7 : Keep s₀ (x4) := (setFld_keep k6)
  clear_value x4
  exact (setFld_keep k7)

theorem portAct_keep {s₀ s : State} {a2 : Nat} {go : State → State} (h : Keep s₀ s)
    (hgo : ∀ b1, Keep s₀ b1 → Keep s₀ (go b1)) :
    Keep s₀ (portAct s a2 go) := by
  unfold portAct
  split
  · rename_i w1 w2
    exact h
  · rename_i w3 w4 w5
    refine keep_ite ?_ ?_
    · exact h
    · split
      · rename_i w6 w7 w8
        exact (badAccess_keep h)
      · rename_i w9 w10
        exact (keep_ite h (hgo _ h))

end Sys2Proof.Machine
end

