-- ==== Sys2Proof/Laws/KeepTables.lean ====
section
/-! SUPPORT. What the operations of Machine/Tables.lean keep: canonical stores, the queue, outputs only added. -/

namespace Sys2Proof.Machine

theorem pgtPut_keep {s₀ s : State} {g : Nat} {raw : Nat} (h : Keep s₀ s) :
    Keep s₀ (pgtPut s g raw) := by
  unfold pgtPut
  exact (micaWrite_keep h)

theorem histPut_keep {s₀ s : State} {n : Nat} {a3 : Hist} (h : Keep s₀ s) :
    Keep s₀ (histPut s n a3) := by
  unfold histPut
  exact (micaWrite_keep h)

theorem histCommit_keep {s₀ s : State} {n : Nat} {step : Nat} (h : Keep s₀ s) :
    Keep s₀ (histCommit s n step) := by
  unfold histCommit
  extract_lets x1 x2 x3 x4 x5
  clear_value x1 x2 x3 x4 x5
  exact (keep_ite h (histPut_keep h))

theorem maskPut_keep {s₀ s : State} {slot : Nat} {m : Nat} (h : Keep s₀ s) :
    Keep s₀ (maskPut s slot m) := by
  unfold maskPut
  exact (micaWrite_keep h)

theorem costPut_keep {s₀ s : State} {d : Nat} {c : Cost} (h : Keep s₀ s) :
    Keep s₀ (costPut s d c) := by
  unfold costPut
  exact (micaWrite_keep h)

theorem histMeasure_keep {s₀ s : State} {n : Nat} {amax : Nat} (h : Keep s₀ s) :
    Keep s₀ (histMeasure s n amax) := by
  unfold histMeasure
  extract_lets x1
  clear_value x1
  exact (histPut_keep h)

end Sys2Proof.Machine
end

