-- ==== Sys2Proof/Laws/KeepMicaOps.lean ====
section
/-! SUPPORT. What the operations of Machine/MicaOps.lean keep: canonical stores, the queue, outputs only added. -/

namespace Sys2Proof.Machine

theorem setSvc_keep {s₀ s : State} {f : SvcSt → SvcSt} (h : Keep s₀ s) :
    Keep s₀ (setSvc s f) := by
  unfold setSvc
  exact (keep_same (s := s) rfl rfl rfl rfl rfl rfl rfl h)

theorem mapBank_keep {s₀ s : State} {b : Nat} {p : Nat} (h : Keep s₀ s) :
    Keep s₀ (mapBank s b p) := by
  unfold mapBank
  exact (setFld_keep h)

theorem noteRec_keep {s₀ s : State} {r : ErrRec} (h : Keep s₀ s) :
    Keep s₀ (noteRec s r) := by
  unfold noteRec
  extract_lets x1
  have k2 : Keep s₀ (x1) := (snapRec_keep h)
  clear_value x1
  exact (keep_ite (summarize_keep k2) k2)

theorem bankRec_keep {s₀ s : State} {det : Nat} {p : Nat} {noSpare : Bool} {inj : Bool} (h : Keep s₀ s) :
    Keep s₀ (bankRec s det p noSpare inj) := by
  unfold bankRec
  extract_lets x1
  clear_value x1
  split
  · rename_i w2 w3 w4 w5
    have k6 : Keep s₀ w4 := keep_snd w5 ((takeFree_keep h))
    exact (noteRec_keep k6)

theorem retireBank_keep {s₀ s : State} {b : Nat} {det : Nat} {inj : Bool} (h : Keep s₀ s) :
    Keep s₀ (retireBank s b det inj) := by
  unfold retireBank
  extract_lets x1
  clear_value x1
  refine keep_ite ?_ ?_
  · exact h
  · split
    · rename_i w2 w3
      exact (notice_keep (bankRec_keep h))
    · rename_i w4 w5 w6 w7
      exact (setSvc_keep h)

theorem micaCe_keep {s₀ s : State} {x : Nat} {who : Reader} {inj : Bool} (h : Keep s₀ s) :
    Keep s₀ (micaCe s x who inj) := by
  unfold micaCe
  extract_lets x1 x2 x3 x4 x5 x6
  clear_value x1
  have k7 : Keep s₀ (x2) := (recordErr_keep h)
  clear_value x2 x3 x4 x5
  have k8 : Keep s₀ (x6) := (setSvc_keep k7)
  clear_value x6
  exact (keep_ite k7 (keep_ite (retireBank_keep k8) k8))

theorem setSpareFree_keep {s₀ s : State} {n : Nat} (h : Keep s₀ s) :
    Keep s₀ (setSpareFree s n) := by
  unfold setSpareFree
  exact (setFld_keep h)

theorem micaUe_keep {s₀ s : State} {x : Nat} {who : Reader} {inj : Bool} (h : Keep s₀ s) :
    Keep s₀ (micaUe s x who inj) := by
  unfold micaUe
  extract_lets x1 x2 x3 x4
  clear_value x1 x2 x3
  have k5 : Keep s₀ (x4) := (recordErr_keep (poisonAt_keep h))
  clear_value x4
  exact (keep_ite (recordErr_keep h) (keep_ite (retireBank_keep k5) k5))

theorem touchLine_keep {s₀ s : State} {x : Nat} {who : Reader} (h : Keep s₀ s) :
    Keep s₀ (touchLine s x who) := by
  unfold touchLine
  extract_lets x1 x2
  clear_value x1 x2
  refine keep_foldl ?_ (fun u3 x4 hu5 => ?_)
  · exact h
  · extract_lets x6 x7
    have k8 : Keep s₀ (x6).2 := (flintHit_keep hu5)
    clear_value x6
    have k9 : Keep s₀ (x7) := k8
    clear_value x7
    refine keep_ite ?_ ?_
    · exact hu5
    · split
      · rename_i w10 w11
        exact k9
      · rename_i w12 w13 w14
        extract_lets x15
        clear_value x15
        exact (keep_ite k9 (keep_ite (micaCe_keep k9) (micaUe_keep k9)))

theorem touchAt_keep {s₀ s : State} {as : List Nat} {who : Reader} (h : Keep s₀ s) :
    Keep s₀ (touchAt s as who) := by
  unfold touchAt
  exact (keep_ite h (keep_foldl h (fun u1 x2 hu3 => (touchLine_keep hu3))))

theorem touchRange_keep {s₀ s : State} {x : Nat} {n : Nat} {who : Reader} (h : Keep s₀ s) :
    Keep s₀ (touchRange s x n who) := by
  unfold touchRange
  exact (touchAt_keep h)

theorem touchStream_keep {s₀ s : State} {i : Nat} {p : Nat} {n : Nat} {who : Reader} (h : Keep s₀ s) :
    Keep s₀ (touchStream s i p n who) := by
  unfold touchStream
  exact (keep_ite h (touchAt_keep h))

end Sys2Proof.Machine
end

