-- ==== Sys2Proof/Laws/KeepCost.lean ====
section
/-! SUPPORT. What the operations of Machine/Cost.lean keep: canonical stores, the queue, outputs only added. -/

namespace Sys2Proof.Machine

theorem mapHeadGroup_keep {s₀ s : State} {v : Nat} {f : VGroup → VGroup} (h : Keep s₀ s) :
    Keep s₀ (mapHeadGroup s v f) := by
  unfold mapHeadGroup
  extract_lets x1
  clear_value x1
  split
  · rename_i w2 w3
    exact h
  · rename_i w4 w5 w6 w7
    exact (setVein_keep h)

theorem setCEnd_keep {s₀ s : State} {as : List Nat} {a3 : Nat} (h : Keep s₀ s) :
    Keep s₀ (setCEnd s as a3) := by
  unfold setCEnd
  refine keep_foldl ?_ (fun u1 x2 hu3 => ?_)
  · exact h
  · extract_lets x4
    clear_value x4
    exact (setArr_keep hu3)

theorem deferHead_keep {s₀ s : State} {v : Nat} {atTick : Bool} (h : Keep s₀ s) :
    Keep s₀ (deferHead s v atTick) := by
  unfold deferHead
  extract_lets x1
  clear_value x1
  exact (refreshVein_keep (mapHeadGroup_keep h))

theorem nextConsider_keep {s₀ s : State} (h : Keep s₀ s) :
    Keep s₀ (nextConsider s) := by
  unfold nextConsider
  extract_lets x1
  clear_value x1
  exact (keep_same (s := s) rfl rfl rfl rfl rfl rfl rfl h)

theorem showQ_keep {s₀ s : State} (h : Keep s₀ s) :
    Keep s₀ (showQ s) := by
  unfold showQ
  extract_lets x1
  have k2 : Keep s₀ (x1) := (setFld_keep h)
  clear_value x1
  exact (setFld_keep k2)

theorem admitGroup_keep {s₀ s : State} {v : Nat} {es : List (Option Est)} {as : List Nat} {tEnd : Nat} (h : Keep s₀ s) :
    Keep s₀ (admitGroup s v es as tEnd) := by
  unfold admitGroup
  extract_lets x1 x2 x3 x4 x5 x6 x7
  clear_value x1 x2
  have k8 : Keep s₀ (x3) := (setCEnd_keep h)
  clear_value x3
  have k9 : Keep s₀ (x4) := (mapHeadGroup_keep k8)
  clear_value x4 x5 x6
  have k10 : Keep s₀ (x7) := (keep_same (s := x4) rfl rfl rfl rfl rfl rfl rfl k9)
  clear_value x7
  exact (showQ_keep (refreshVein_keep k10))

theorem admitOversize_keep {s₀ s : State} {v : Nat} {now : Nat} {es : List (Option Est)} (h : Keep s₀ s) :
    Keep s₀ (admitOversize s v now es) := by
  unfold admitOversize
  extract_lets x1 x2 x3 x4
  have k5 : Keep s₀ (x1) := (setFlag_keep h)
  clear_value x1
  have k6 : Keep s₀ (x2) := (notice_keep k5)
  clear_value x2
  have k7 : Keep s₀ (x3) := (admitGroup_keep k6)
  clear_value x3 x4
  exact (keep_same (s := x3) rfl rfl rfl rfl rfl rfl rfl k7)

theorem settleHead_keep {s₀ s : State} {v : Nat} {now : Nat} {atTick : Bool} {a5 : Verdict} (h : Keep s₀ s) :
    Keep s₀ (settleHead s v now atTick a5) := by
  unfold settleHead
  split
  · rename_i w1
    exact (refreshVein_keep (mapHeadGroup_keep h))
  · rename_i w2 w3
    exact (keep_ite (deferHead_keep h) (admitOversize_keep h))
  · rename_i w4 w5 w6 w7
    exact (keep_ite (deferHead_keep h) (admitGroup_keep h))
  · rename_i w8
    exact (deferHead_keep h)

theorem noteFallback_keep {s₀ s : State} {e : Est} (h : Keep s₀ s) :
    Keep s₀ (noteFallback s e) := by
  unfold noteFallback
  extract_lets x1 x2
  have k3 : Keep s₀ (x1) := (setFlag_keep h)
  clear_value x1 x2
  exact (keep_ite (keep_same (s := x1) rfl rfl rfl rfl rfl rfl rfl k3) h)

theorem considerOne_keep {s₀ : State} {now : Nat} {atTick : Bool} {s : State} {v : Nat} (h : Keep s₀ s) :
    Keep s₀ (considerOne now atTick s v) := by
  unfold considerOne
  extract_lets x1
  have k2 : Keep s₀ (x1) := (keep_foldl h (fun u3 x4 hu5 => (noteFallback_keep hu5)))
  clear_value x1
  exact (settleHead_keep k2)

theorem considerAll_keep {s₀ s : State} {now : Nat} (h : Keep s₀ s) :
    Keep s₀ (considerAll s now) := by
  unfold considerAll
  extract_lets x1
  have k2 : Keep s₀ (x1) := (nextConsider_keep h)
  clear_value x1
  exact (keep_foldl k2 (fun u3 x4 hu5 => (considerOne_keep hu5)))

theorem present_keep {s₀ s : State} {v : Nat} (h : Keep s₀ s) :
    Keep s₀ (present s v) := by
  unfold present
  extract_lets x1
  have k2 : Keep s₀ (x1) := (mapHeadGroup_keep h)
  clear_value x1
  exact (keep_ite (refreshVein_keep h) (keep_ite (refreshVein_keep (mapHeadGroup_keep h)) (keep_ite (refreshVein_keep (mapHeadGroup_keep k2)) (keep_ite (refreshVein_keep k2) (considerOne_keep (nextConsider_keep k2))))))

theorem dummyEnergy_keep {s₀ s : State} {a2 : Nat} {n : Nat} (h : Keep s₀ s) :
    Keep s₀ (dummyEnergy s a2 n).2 := by
  unfold dummyEnergy
  extract_lets x1
  clear_value x1
  split
  · rename_i w2 w3 w4
    exact h
  · rename_i w5 w6
    split
    · rename_i w7
      exact (takeFree_keep h)
    · rename_i w8
      exact h

end Sys2Proof.Machine
end

