-- ==== Sys2Proof/Laws/KeepVeins.lean ====
section
/-! SUPPORT. What the operations of Machine/Veins.lean keep: canonical stores, the queue, outputs only added. -/

namespace Sys2Proof.Machine

theorem settleFillers_keep {s₀ s : State} (h : Keep s₀ s) :
    Keep s₀ (settleFillers s) := by
  unfold settleFillers
  refine keep_foldl ?_ (fun u1 x2 hu3 => ?_)
  · exact h
  · extract_lets x4
    clear_value x4
    exact (keep_ite (refreshVein_keep (setVein_keep hu3)) hu3)

theorem execBubbleEnd_keep {s₀ s : State} (h : Keep s₀ s) :
    ∃ t, execBubbleEnd s = .next t ∧ Keep s₀ t := by
  unfold execBubbleEnd
  extract_lets x1
  clear_value x1
  split
  · rename_i w2 w3
    exact ⟨_, rfl, h⟩
  · rename_i w4 w5 w6 w7
    extract_lets x8
    clear_value x8
    exact ⟨_, rfl, (keep_same (s := s) rfl rfl rfl rfl rfl rfl rfl h)⟩

theorem execFillerUnblock_keep {s₀ s : State} (h : Keep s₀ s) :
    ∃ t, execFillerUnblock s = .next t ∧ Keep s₀ t := by
  unfold execFillerUnblock
  extract_lets x1
  clear_value x1
  split
  · rename_i w2
    exact ⟨_, rfl, (settleFillers_keep (keep_same (s := s) rfl rfl rfl rfl rfl rfl rfl h))⟩
  · rename_i w3
    exact ⟨_, rfl, h⟩

theorem execYieldExpiry_keep {s₀ : State} {v : Fin 16} {s : State} (h : Keep s₀ s) :
    ∃ t, execYieldExpiry v s = .next t ∧ Keep s₀ t := by
  unfold execYieldExpiry
  split
  · rename_i w1 w2 w3
    exact ⟨_, rfl, (endWait_keep h)⟩
  · rename_i w4 w5
    exact ⟨_, rfl, h⟩

theorem leaveHalt_keep {s₀ s : State} {v : Nat} (h : Keep s₀ s) :
    Keep s₀ (leaveHalt s v) := by
  unfold leaveHalt
  exact (present_keep (setVBase_keep h))

theorem fetchFail_keep {s₀ s : State} {v : Nat} {seq : Nat} {status : Nat} {told : optParam Bool false}
    (h : Keep s₀ s) :
    Keep s₀ (fetchFail s v seq status told) := by
  unfold fetchFail
  extract_lets x1 x2 x3 x4 x5 x6
  clear_value x1 x2
  have k7 : Keep s₀ (x3) := (keep_ite (keep_ite h (recordErr_keep h)) (keep_ite (recordErr_keep h) h))
  clear_value x3 x4
  have k8 : Keep s₀ (x5) := (setVein_keep k7)
  clear_value x5
  have k9 : Keep s₀ (x6) := (present_keep k8)
  clear_value x6
  exact (keep_ite (beginHalt_keep k9) k9)

theorem execDoorbell_keep {s₀ : State} {v : Fin 16} {value : W64} {s : State} (h : Keep s₀ s) :
    ∃ t, execDoorbell v value s = .next t ∧ Keep s₀ t := by
  unfold execDoorbell
  refine ⟨_, rfl, ?_⟩
  refine portAct_keep ?_ ?_
  · exact h
  · intro u1 h2
    extract_lets x3 x4
    have k5 : Keep s₀ (x3) := (setFld_keep h2)
    clear_value x3 x4
    exact (keep_ite (keep_ite (fetchFail_keep k5) k5) (keep_ite (setVein_keep h2) h2))

theorem askQueue_keep {s₀ s : State} {a2 : Nat} {n : Nat} (h : Keep s₀ s) :
    ∀ t, askQueue s a2 n = some t → Keep s₀ t := by
  unfold askQueue
  split
  · rename_i w1 w2
    exact keep_none
  · rename_i w3 w4 w5
    exact (keep_some (emit_keep h))

theorem retireAll_keep {s₀ s : State} {v : Nat} (h : Keep s₀ s) :
    Keep s₀ (retireAll s v) := by
  unfold retireAll
  extract_lets x1 x2
  have k3 : Keep s₀ (x1) := (keep_foldl h (fun u4 x5 hu6 => (retireOne_keep hu6)))
  clear_value x1 x2
  exact (setVein_keep k3)

theorem resetVein_keep {s₀ s : State} {v : Nat} (h : Keep s₀ s) :
    Keep s₀ (resetVein s v) := by
  unfold resetVein
  extract_lets x1 x2 x3 x4 x5 x6 x7 x8 x9
  clear_value x1 x2 x3 x4
  have k10 : Keep s₀ (x5) := (retireAll_keep h)
  clear_value x5 x6
  have k11 : Keep s₀ (x7) := (setVein_keep k10)
  clear_value x7
  have k12 : Keep s₀ (x8) := (setFld_keep k11)
  clear_value x8
  have k13 : Keep s₀ (x9) := (setFld_keep k12)
  clear_value x9
  exact (keep_ite h (leaveHalt_keep k13))

theorem execReset_keep {s₀ : State} {v : Fin 16} {s : State} (h : Keep s₀ s) :
    ∃ t, execReset v s = .next t ∧ Keep s₀ t := by
  unfold execReset
  refine ⟨_, rfl, ?_⟩
  refine portAct_keep ?_ ?_
  · exact h
  · intro u1 h2
    exact (resetVein_keep h2)

theorem execResumeNext_keep {s₀ : State} {v : Fin 16} {s : State} (h : Keep s₀ s) :
    ∃ t, execResumeNext v s = .next t ∧ Keep s₀ t := by
  unfold execResumeNext
  refine ⟨_, rfl, ?_⟩
  refine portAct_keep ?_ ?_
  · exact h
  · intro u1 h2
    extract_lets x3 x4
    have k5 : Keep s₀ (x3) := (retireAll_keep h2)
    clear_value x3 x4
    exact (keep_ite h2 (leaveHalt_keep (setVein_keep k5)))

theorem readCmd_keep {s₀ s : State} {v x : Nat} {deep : DeepSlot} (h : Keep s₀ s) : Keep s₀ (readCmd s v x deep).1 := by
  unfold readCmd
  extract_lets n s1
  have k : Keep s₀ s1 := touchRange_keep h
  clear_value s1
  split
  · exact k
  · split
    · exact h
    · rename_i u e
      have ku : Keep s₀ u := askQueue_keep h _ e
      dsimp only
      split
      · refine keep_ite ?_ ku
        cases e' : askQueue u (slotAddr u v (x + 1)) 32 with
        | none => exact ku
        | some w => exact askQueue_keep ku _ e'
      · exact ku

theorem retryHead_keep {s₀ s : State} {v : Nat} {deep : DeepSlot} (h : Keep s₀ s) :
    Keep s₀ (retryHead s v deep) := by
  unfold retryHead
  extract_lets x1
  clear_value x1
  refine keep_ite ?_ ?_
  · exact h
  · split
    · rename_i w2 w3
      exact (leaveHalt_keep (setVein_keep h))
    · rename_i w4 w5 w6
      split
      · rename_i w7 w8 w9 w10 w11
        have k12 : Keep s₀ w8 := keep_fst w11 ((readCmd_keep h))
        extract_lets x13 x14
        have k15 : Keep s₀ (x13) := (setFld_keep k12)
        clear_value x13 x14
        exact (keep_ite k15 (recordErr_keep k15))
      · rename_i w16 w17 w18 w19 w20
        have k21 : Keep s₀ w17 := keep_fst w20 ((readCmd_keep h))
        extract_lets x22 x23 x24
        clear_value x22 x23
        have k25 : Keep s₀ (x24) := (setVein_keep k21)
        clear_value x24
        exact (leaveHalt_keep k25)

theorem rereadOne_keep {s₀ s : State} {v : Nat} {deep : DeepSlot} (h : Keep s₀ s) :
    Keep s₀ (rereadOne s v deep) := by
  unfold rereadOne
  extract_lets x1
  clear_value x1
  split
  · rename_i w2 w3
    exact h
  · rename_i w4 w5 w6
    split
    · rename_i w7 w8 w9 w10 w11
      have k12 : Keep s₀ w8 := keep_fst w11 ((readCmd_keep h))
      extract_lets x13 x14 x15 x16
      clear_value x13
      have k17 : Keep s₀ (x14) := (setVein_keep k12)
      clear_value x14
      have k18 : Keep s₀ (x15) := (setFld_keep k17)
      clear_value x15
      have k19 : Keep s₀ (x16) := (setFld_keep k18)
      clear_value x16
      exact (fetchFail_keep k19)
    · rename_i w20 w21 w22 w23 w24
      have k25 : Keep s₀ w21 := keep_fst w24 ((readCmd_keep h))
      extract_lets x26
      clear_value x26
      exact (keep_ite k25 (refreshVein_keep (setVein_keep k25)))

theorem execResumeRetry_keep {s₀ : State} {v : Fin 16} {deep : DeepSlot} {s : State} (h : Keep s₀ s) :
    ∃ t, execResumeRetry v deep s = .next t ∧ Keep s₀ t := by
  unfold execResumeRetry
  refine ⟨_, rfl, ?_⟩
  refine portAct_keep ?_ ?_
  · exact h
  · intro u1 h2
    exact (retryHead_keep h2)

theorem takeCmd_keep {s₀ s : State} {v : Nat} {ws : List W64} (h : Keep s₀ s) :
    Keep s₀ (takeCmd s v ws) := by
  unfold takeCmd
  extract_lets x1 x2 x3 x4 x5 x6 x7
  clear_value x1 x2
  have k8 : Keep s₀ (x3) := (setVein_keep h)
  clear_value x3
  have k9 : Keep s₀ (x4) := (setFld_keep k8)
  clear_value x4
  have k10 : Keep s₀ (x5) := (setFld_keep k9)
  clear_value x5 x6
  have k11 : Keep s₀ (x7) := (setVein_keep k10)
  clear_value x7
  exact (present_keep k11)

theorem fetchOne_keep {s₀ s : State} {v : Nat} {deep : DeepSlot} (h : Keep s₀ s) :
    Keep s₀ (fetchOne s v deep) := by
  unfold fetchOne
  extract_lets x1 x2
  clear_value x1 x2
  refine keep_ite ?_ ?_
  · exact (keep_ite h (rereadOne_keep h))
  · refine keep_ite ?_ ?_
    · exact h
    · refine keep_ite ?_ ?_
      · exact (fetchFail_keep h)
      · refine keep_ite ?_ ?_
        · exact h
        · split
          · rename_i w3 w4 w5 w6 w7
            have k8 : Keep s₀ w4 := keep_fst w7 ((readCmd_keep h))
            exact (fetchFail_keep k8)
          · rename_i w9 w10 w11 w12 w13
            have k14 : Keep s₀ w10 := keep_fst w13 ((readCmd_keep h))
            exact (keep_ite k14 (keep_ite k14 (keep_ite (takeCmd_keep k14) (keep_ite k14 (fetchFail_keep k14)))))

theorem execVeinFetch_keep {s₀ : State} {v : Fin 16} {deep : DeepSlot} {drawn : Nat} {s : State} (h : Keep s₀ s) :
    ∃ t, execVeinFetch v deep drawn s = .next t ∧ Keep s₀ t := by
  unfold execVeinFetch
  refine ⟨_, rfl, ?_⟩
  extract_lets x1
  clear_value x1
  exact (showQ_keep (fetchOne_keep (keep_same (s := s) rfl rfl rfl rfl rfl rfl rfl h)))

theorem execDoorbellPoll_keep {s₀ : State} {v : Fin 16} {deep : DeepSlot} {s : State} (h : Keep s₀ s) :
    ∃ t, execDoorbellPoll v deep s = .next t ∧ Keep s₀ t := by
  unfold execDoorbellPoll
  extract_lets x1 x2 x3 x4 x5 x6
  clear_value x1 x2 x3 x5
  have k7 : Keep s₀ (x6) := by
    unfold x6
    refine keep_ite ?_ ?_
    · exact (fetchOne_keep h)
    · refine keep_ite ?_ ?_
      · refine keep_ite ?_ ?_
        · exact h
        · split
          · rename_i w8 w9
            exact (fetchFail_keep h)
          · rename_i w10 w11 w12
            have k13 : Keep s₀ w11 := by
              refine (?_ : ∀ t, _ = _ → Keep s₀ t) _ w12
              split
              · rename_i w14
                exact (keep_some (touchRange_keep h))
              · rename_i w15
                exact (askQueue_keep h)
            split
            · rename_i w16 w17 w18
              exact (fetchFail_keep k13)
            · rename_i w19 w20
              exact k13
            · rename_i w21 w22 w23 w24
              extract_lets x25 x26 x27
              have k28 : Keep s₀ (x25) := (setFld_keep k13)
              clear_value x25 x26
              have k29 : Keep s₀ (x27) := (setVein_keep k28)
              clear_value x27
              exact (keep_ite (fetchFail_keep k29) k29)
      · exact h
  clear_value x6
  exact ⟨_, rfl, k7⟩

end Sys2Proof.Machine
end

