-- ==== Sys2Proof/Laws/KeepIssue.lean ====
section
/-! SUPPORT. What the operations of Machine/Issue.lean keep: canonical stores, the queue, outputs only added. -/

namespace Sys2Proof.Machine

theorem mcAbandon_keep {s₀ s : State} {i : Nat} (h : Keep s₀ s) :
    Keep s₀ (mcAbandon s i) := by
  unfold mcAbandon
  refine keep_foldl ?_ (fun u1 x2 hu3 => ?_)
  · exact h
  · extract_lets x4
    clear_value x4
    exact (keep_ite (setMcg_keep hu3) hu3)

theorem armStream_keep {s₀ s : State} {i : Nat} {a3 : Nat} {ws : List W64} (h : Keep s₀ s) :
    Keep s₀ (armStream s i a3 ws) := by
  unfold armStream
  extract_lets x1 x2 x3 x4 x5 x6 x7 x8 x9
  have k10 : Keep s₀ (x1) := (keep_foldl h (fun u11 x12 hu13 => (wr_keep hu13)))
  clear_value x1 x2
  have k14 : Keep s₀ (x3) := (setSState_keep k10)
  clear_value x3
  have k15 : Keep s₀ (x4) := (setFld_keep k14)
  clear_value x4
  have k16 : Keep s₀ (x5) := (setFld_keep k15)
  clear_value x5
  have k17 : Keep s₀ (x6) := (setFlag_keep k16)
  clear_value x6
  have k18 : Keep s₀ (x7) := (setFlag_keep k17)
  clear_value x7
  have k19 : Keep s₀ (x8) := (setStrm_keep (mcAbandon_keep k18))
  clear_value x8
  have k20 : Keep s₀ (x9) := (extend_keep (startSeq_keep k19))
  clear_value x9
  exact (keep_ite (haltStream_keep k20) k20)

theorem rearmStream_keep {s₀ s : State} {i : Nat} {xbase : Nat} {stamp : Option (Nat × Nat × Bool)} (h : Keep s₀ s) :
    Keep s₀ (rearmStream s i xbase stamp) := by
  unfold rearmStream
  extract_lets x1 x2 x3 x4 x5 x6 x7
  clear_value x1
  have k8 : Keep s₀ (x2) := (setFld_keep h)
  clear_value x2
  have k9 : Keep s₀ (x3) := (writeActivity_keep k8)
  clear_value x3 x4
  have k10 : Keep s₀ (x5) := (setStrm_keep k9)
  clear_value x5
  have k11 : Keep s₀ (x6) := (setSState_keep k10)
  clear_value x6
  have k12 : Keep s₀ (x7) := (setStrm_keep k9)
  clear_value x7
  exact (keep_ite (extend_keep (startSeq_keep k11)) (setFlag_keep k12))

theorem leavePrefetch_keep {s₀ s : State} {v : Nat} {c : Cmd} (h : Keep s₀ s) :
    Keep s₀ (leavePrefetch s v c) := by
  unfold leavePrefetch
  extract_lets x1 x2 x3
  clear_value x1 x2 x3
  split
  · rename_i w4 w5 w6 w7 w8
    extract_lets x9 x10 x11 x12 x13 x14
    clear_value x9 x10 x11 x12 x13
    have k15 : Keep s₀ (x14) := (setVein_keep h)
    clear_value x14
    exact (keep_same (s := x14) rfl rfl rfl rfl rfl rfl rfl k15)

theorem startIssue_keep {s₀ s : State} {v : Nat} {c : Cmd} (h : Keep s₀ s) :
    Keep s₀ (startIssue s v c) := by
  unfold startIssue
  extract_lets x1 x2 x3
  clear_value x1
  have k4 : Keep s₀ (x2) := (leavePrefetch_keep h)
  clear_value x2 x3
  exact (keep_same (s := x2) rfl rfl rfl rfl rfl rfl rfl k4)

theorem refuse_keep {s₀ s : State} {v : Nat} {c : Cmd} {code : Nat} (h : Keep s₀ s) :
    Keep s₀ (refuse s v c code) := by
  unfold refuse
  extract_lets x1 x2 x3
  have k4 : Keep s₀ (x1) := (leavePrefetch_keep h)
  clear_value x1 x2
  have k5 : Keep s₀ (x3) := (keep_ite (setVein_keep k4) k4)
  clear_value x3
  exact (completeJob_keep (addCond_keep k5))

theorem afterIssue_keep {s₀ s : State} {v : Nat} (h : Keep s₀ s) :
    Keep s₀ (afterIssue s v) := by
  unfold afterIssue
  extract_lets x1
  clear_value x1
  exact (keep_ite (beginHalt_keep h) (present_keep h))

theorem issueNow_keep {s₀ s : State} {v : Nat} {c : Cmd} {f : State → State} (h : Keep s₀ s)
    (hf : ∀ b1, Keep s₀ b1 → Keep s₀ (f b1)) :
    Keep s₀ (issueNow s v c f) := by
  unfold issueNow
  extract_lets x1
  have k2 : Keep s₀ (x1) := (hf _ (startIssue_keep h))
  clear_value x1
  exact (afterIssue_keep (completeNow_keep k2))

theorem headWaits_keep {s₀ s : State} {v : Nat} {w : Nat} (h : Keep s₀ s) :
    Keep s₀ (headWaits s v w) := by
  unfold headWaits
  extract_lets x1
  clear_value x1
  exact (refreshVein_keep (setVein_keep h))

theorem issueWith_keep {s₀ s : State} {v : Nat} {op : Nat} {chk : State → Nat → List W64 → Option Nat}
    {go : State → Nat → Cmd → State} (h : Keep s₀ s) (hgo : ∀ b1 b2 b3, Keep s₀ b1 → Keep s₀ (go b1 b2 b3)) :
    Keep s₀ (issueWith s v op chk go) := by
  unfold issueWith
  extract_lets x1
  clear_value x1
  split
  · rename_i w2 w3
    exact h
  · rename_i w4 w5 w6
    extract_lets x7 x8
    clear_value x7
    have k9 : Keep s₀ (x8) := (keep_ite (noteFallback_keep h) h)
    clear_value x8
    refine keep_ite ?_ ?_
    · exact (headWaits_keep k9)
    · split
      · rename_i w10 w11
        exact (refuse_keep k9)
      · rename_i w12
        exact (hgo _ _ _ k9)

end Sys2Proof.Machine
end

