-- ==== Sys2Proof/Laws/KeepControl.lean ====
section
/-! SUPPORT. What the operations of Machine/Control.lean keep: canonical stores, the queue, outputs only added. -/

namespace Sys2Proof.Machine

theorem atHeadStreamRearm_keep {s₀ : State} {v : Fin 16} {s : State} (h : Keep s₀ s) :
    ∃ t, atHeadStreamRearm v s = .next t ∧ Keep s₀ t := by
  unfold atHeadStreamRearm
  refine ⟨_, rfl, ?_⟩
  refine issueWith_keep ?_ ?_
  · exact h
  · intro u1 u2 u3 h4
    extract_lets x5
    clear_value x5
    refine keep_ite ?_ ?_
    · exact (headWaits_keep h4)
    · refine issueNow_keep ?_ ?_
      · exact h4
      · intro u6 h7
        exact (rearmStream_keep h7)

theorem atHeadSemWait_keep {s₀ : State} {v : Fin 16} {s : State} (h : Keep s₀ s) :
    ∃ t, atHeadSemWait v s = .next t ∧ Keep s₀ t := by
  unfold atHeadSemWait
  refine ⟨_, rfl, ?_⟩
  refine issueWith_keep ?_ ?_
  · exact h
  · intro u1 u2 u3 h4
    extract_lets x5 x6 x7 x8 x9 x10
    clear_value x5 x6 x7
    have k11 : Keep s₀ (x8) := (startIssue_keep h4)
    clear_value x8 x9
    have k12 : Keep s₀ (x10) := (setVein_keep k11)
    clear_value x10
    exact (afterIssue_keep (semSettle_keep k12))

theorem wloadStamp_keep {s₀ s : State} {v : Nat} {seq : Nat} {g : Nat} {dir : Nat} {gen : Nat} (h : Keep s₀ s) :
    Keep s₀ (wloadStamp s v seq g dir gen) := by
  unfold wloadStamp
  extract_lets x1 x2 x3 x4 x5 x6 x7 x8 x9 x10 x11
  clear_value x1 x2
  have k12 : Keep s₀ (x3) := (incFld_keep h)
  clear_value x3
  have k13 : Keep s₀ (x4) := (pgtPut_keep h)
  clear_value x4 x5
  have k14 : Keep s₀ (x6) := (setFld_keep k13)
  clear_value x6
  have k15 : Keep s₀ (x7) := (setFld_keep k14)
  clear_value x7
  have k16 : Keep s₀ (x8) := (setFld_keep k15)
  clear_value x8
  have k17 : Keep s₀ (x9) := (setFld_keep k16)
  clear_value x9
  have k18 : Keep s₀ (x10) := (setFlag_keep k17)
  clear_value x10
  have k19 : Keep s₀ (x11) := (setFld_keep k18)
  clear_value x11
  exact (keep_ite (keep_ite (pgtPut_keep h) h) (keep_ite (keep_ite (pgtPut_keep k12) (pgtPut_keep k12)) (staleCond_keep k19)))

theorem expireWait_keep {s₀ s : State} {v : Nat} (h : Keep s₀ s) :
    Keep s₀ (expireWait s v) := by
  unfold expireWait
  split
  · rename_i w1 w2 w3 w4 w5 w6 w7
    exact (keep_ite (semSettle_keep (endWait_keep h)) h)
  · rename_i w8 w9
    exact h

theorem atHeadMark_keep {s₀ : State} {v : Fin 16} {s : State} (h : Keep s₀ s) :
    ∃ t, atHeadMark v s = .next t ∧ Keep s₀ t := by
  unfold atHeadMark
  refine ⟨_, rfl, ?_⟩
  refine issueWith_keep ?_ ?_
  · exact h
  · intro u1 u2 u3 h4
    extract_lets x5 x6 x7
    clear_value x5
    have k8 : Keep s₀ (x6) := (startIssue_keep h4)
    clear_value x6 x7
    split
    · rename_i w9 w10
      refine issueNow_keep ?_ ?_
      · exact h4
      · intro u11 h12
        exact (setFld_keep h12)
    · rename_i w13 w14
      refine keep_ite ?_ ?_
      · refine issueNow_keep ?_ ?_
        · exact h4
        · intro u15 h16
          exact (id_keep h16)
      · exact (afterIssue_keep (setVein_keep k8))
    · rename_i w17 w18
      exact (afterIssue_keep (setVein_keep k8))
    · rename_i w19 w20
      refine issueNow_keep ?_ ?_
      · exact h4
      · intro u21 h22
        exact (setFld_keep h22)
    · rename_i w23 w24
      refine issueNow_keep ?_ ?_
      · exact h4
      · intro u25 h26
        extract_lets x27
        clear_value x27
        exact (keep_ite h26 (settleFillers_keep (keep_same (s := u25) rfl rfl rfl rfl rfl rfl rfl h26)))
    · rename_i w28 w29 w30 w31 w32 w33
      refine issueNow_keep ?_ ?_
      · exact h4
      · intro u34 h35
        exact (id_keep h35)

theorem atHeadYield_keep {s₀ : State} {v : Fin 16} {s : State} (h : Keep s₀ s) :
    ∃ t, atHeadYield v s = .next t ∧ Keep s₀ t := by
  unfold atHeadYield
  refine ⟨_, rfl, ?_⟩
  refine issueWith_keep ?_ ?_
  · exact h
  · intro u1 u2 u3 h4
    extract_lets x5 x6 x7
    clear_value x5
    have k8 : Keep s₀ (x6) := (startIssue_keep h4)
    clear_value x6 x7
    refine keep_ite ?_ ?_
    · refine issueNow_keep ?_ ?_
      · exact h4
      · intro u9 h10
        extract_lets x11
        clear_value x11
        exact (setVein_keep h10)
    · exact (afterIssue_keep (setVein_keep k8))

theorem atHeadNop_keep {s₀ : State} {v : Fin 16} {s : State} (h : Keep s₀ s) :
    ∃ t, atHeadNop v s = .next t ∧ Keep s₀ t := by
  unfold atHeadNop
  refine ⟨_, rfl, ?_⟩
  refine issueWith_keep ?_ ?_
  · exact h
  · intro u1 u2 u3 h4
    refine issueNow_keep ?_ ?_
    · exact h4
    · intro u5 h6
      exact (id_keep h6)

theorem execSemTimeout_keep {s₀ : State} {v : Fin 16} {s : State} (h : Keep s₀ s) :
    ∃ t, execSemTimeout v s = .next t ∧ Keep s₀ t := by
  unfold execSemTimeout
  exact ⟨_, rfl, (expireWait_keep h)⟩

theorem atHeadWload_keep {s₀ : State} {v : Fin 16} {s : State} (h : Keep s₀ s) :
    ∃ t, atHeadWload v s = .next t ∧ Keep s₀ t := by
  unfold atHeadWload
  refine ⟨_, rfl, ?_⟩
  refine issueWith_keep ?_ ?_
  · exact h
  · intro u1 u2 u3 h4
    extract_lets x5 x6 x7 x8
    clear_value x5 x6 x7 x8
    refine keep_ite ?_ ?_
    · exact (headWaits_keep h4)
    · refine issueNow_keep ?_ ?_
      · exact h4
      · intro u9 h10
        extract_lets x11
        clear_value x11
        exact (wloadStamp_keep (rearmStream_keep h10))

theorem atHeadScaleCommit_keep {s₀ : State} {v : Fin 16} {s : State} (h : Keep s₀ s) :
    ∃ t, atHeadScaleCommit v s = .next t ∧ Keep s₀ t := by
  unfold atHeadScaleCommit
  refine ⟨_, rfl, ?_⟩
  refine issueWith_keep ?_ ?_
  · exact h
  · intro u1 u2 u3 h4
    refine issueNow_keep ?_ ?_
    · exact h4
    · intro u5 h6
      exact (keep_foldl h6 (fun u7 x8 hu9 => (histCommit_keep hu9)))

theorem barrierPass_keep {s₀ s : State} {num : Nat} {mask : Nat} (h : Keep s₀ s) :
    Keep s₀ (barrierPass s num mask) := by
  unfold barrierPass
  extract_lets x1
  clear_value x1
  exact (keep_ite (settleWaits_keep (keep_foldl h (fun u2 x3 hu4 => (endWait_keep hu4)))) h)

theorem atHeadBarrier_keep {s₀ : State} {v : Fin 16} {s : State} (h : Keep s₀ s) :
    ∃ t, atHeadBarrier v s = .next t ∧ Keep s₀ t := by
  unfold atHeadBarrier
  refine ⟨_, rfl, ?_⟩
  refine issueWith_keep ?_ ?_
  · exact h
  · intro u1 u2 u3 h4
    extract_lets x5 x6 x7 x8 x9 x10
    clear_value x5 x6 x7
    have k11 : Keep s₀ (x8) := (startIssue_keep h4)
    clear_value x8 x9
    have k12 : Keep s₀ (x10) := (setVein_keep k11)
    clear_value x10
    exact (keep_ite (headWaits_keep h4) (afterIssue_keep (barrierPass_keep k12)))

theorem atHeadStreamArm_keep {s₀ : State} {v : Fin 16} {s : State} (h : Keep s₀ s) :
    ∃ t, atHeadStreamArm v s = .next t ∧ Keep s₀ t := by
  unfold atHeadStreamArm
  refine ⟨_, rfl, ?_⟩
  refine issueWith_keep ?_ ?_
  · exact h
  · intro u1 u2 u3 h4
    refine issueNow_keep ?_ ?_
    · exact h4
    · intro u5 h6
      exact (armStream_keep h6)

theorem routeMsg_keep {s₀ s : State} {r : Routed} (h : Keep s₀ s) :
    Keep s₀ (routeMsg s r).1 := by
  unfold routeMsg
  split
  · rename_i w1 w2 w3
    dsimp only
    exact (sendRouted_keep h)
  · rename_i w4 w5
    dsimp only
    exact (keep_same (s := s) rfl rfl rfl rfl rfl rfl rfl h)
  · rename_i w6 w7
    exact h

theorem atHeadSemPost_keep {s₀ : State} {v : Fin 16} {s : State} (h : Keep s₀ s) :
    ∃ t, atHeadSemPost v s = .next t ∧ Keep s₀ t := by
  unfold atHeadSemPost
  refine ⟨_, rfl, ?_⟩
  refine issueWith_keep ?_ ?_
  · exact h
  · intro u1 u2 u3 h4
    extract_lets x5 x6 x7 x8 x9 x10 x11 x12
    clear_value x5 x6 x7 x8 x9 x10
    have k13 : Keep s₀ (x11) := (setVein_keep h4)
    clear_value x11
    have k14 : Keep s₀ (x12) := (startIssue_keep k13)
    clear_value x12
    refine keep_ite ?_ ?_
    · exact h4
    · refine keep_ite ?_ ?_
      · refine issueNow_keep ?_ ?_
        · exact k13
        · intro u15 h16
          exact (semPost_keep h16)
      · split
        · rename_i w17 w18 w19 w20
          have k21 : Keep s₀ w18 := keep_fst w20 ((routeMsg_keep k14))
          split
          · rename_i w22 w23
            have k24 : Keep s₀ w18 := keep_fst w20 ((routeMsg_keep k14))
            exact (afterIssue_keep (completeNow_keep k21))
          · rename_i w25
            have k26 : Keep s₀ w18 := keep_fst w20 ((routeMsg_keep k14))
            exact (afterIssue_keep k21)
          · rename_i w27
            have k28 : Keep s₀ w18 := keep_fst w20 ((routeMsg_keep k14))
            exact (afterIssue_keep (completeJob_keep (addCond_keep k21)))

end Sys2Proof.Machine
end

