-- ==== Sys2Proof/Laws/KeepDrain.lean ====
section
/-! SUPPORT. What the operations of Machine/Drain.lean keep: canonical stores, the queue, outputs only added. -/

namespace Sys2Proof.Machine

theorem trapMore_keep {s₀ s : State} {a2 : Nat} {n : Nat} (h : Keep s₀ s) :
    Keep s₀ (trapMore s a2 n) := by
  unfold trapMore
  exact (satFld_keep h)

theorem releaseJob_keep {s₀ s : State} {j : Job} (h : Keep s₀ s) :
    Keep s₀ (releaseJob s j) := by
  unfold releaseJob
  exact (keep_foldl h (fun u1 x2 hu3 => (extend_keep hu3)))

theorem settleJob_keep {s₀ s : State} {v : Nat} {seq : Nat} (h : Keep s₀ s) :
    Keep s₀ (settleJob s v seq) := by
  unfold settleJob
  split
  · rename_i w1 w2
    exact h
  · rename_i w3 w4 w5
    extract_lets x6 x7 x8 x9
    clear_value x6 x7 x8 x9
    split
    · rename_i w10 w11 w12 w13 w14 w15
      extract_lets x16
      have k17 : Keep s₀ (x16) := (keep_ite (histMeasure_keep h) h)
      clear_value x16
      exact (keep_ite (maskPut_keep k17) k17)

theorem coldUnit_keep {s₀ s : State} {tensor : Nat} (h : Keep s₀ s) :
    Keep s₀ (coldUnit s tensor) := by
  unfold coldUnit
  extract_lets x1 x2 x3 x4 x5
  have k6 : Keep s₀ (x1) := (incFld_keep h)
  clear_value x1
  have k7 : Keep s₀ (x2) := (setFld_keep k6)
  clear_value x2 x3
  have k8 : Keep s₀ (x4) := (histPut_keep k7)
  clear_value x4
  have k9 : Keep s₀ (x5) := (setFlag_keep k8)
  clear_value x5
  exact (keep_ite k7 (keep_ite (notice_keep k9) k9))

theorem trapNans_keep {s₀ s : State} {v : Nat} {j : Job} {stream : Nat} {tensor : Nat} {ns : List NanAt}
    (h : Keep s₀ s) :
    Keep s₀ (trapNans s v j stream tensor ns) := by
  unfold trapNans
  extract_lets x1 x2
  clear_value x1 x2
  split
  · rename_i w3 w4
    exact h
  · rename_i w5 w6 w7 w8
    extract_lets x9 x10 x11 x12 x13 x14 x15 x16 x17 x18 x19 x20 x21
    have k22 : Keep s₀ (x9) := (setFld_keep h)
    clear_value x9
    have k23 : Keep s₀ (x10) := (setFld_keep k22)
    clear_value x10
    have k24 : Keep s₀ (x11) := (setFld_keep k23)
    clear_value x11
    have k25 : Keep s₀ (x12) := (setFld_keep k24)
    clear_value x12
    have k26 : Keep s₀ (x13) := (setFld_keep k25)
    clear_value x13
    have k27 : Keep s₀ (x14) := (setFld_keep k26)
    clear_value x14
    have k28 : Keep s₀ (x15) := (setFlag_keep k27)
    clear_value x15
    have k29 : Keep s₀ (x16) := (setFld_keep k28)
    clear_value x16
    have k30 : Keep s₀ (x17) := (setFld_keep k29)
    clear_value x17
    have k31 : Keep s₀ (x18) := (setFld_keep k30)
    clear_value x18
    have k32 : Keep s₀ (x19) := (setFld_keep k31)
    clear_value x19
    have k33 : Keep s₀ (x20) := (setFld_keep k32)
    clear_value x20
    have k34 : Keep s₀ (x21) := (trapMore_keep k33)
    clear_value x21
    exact (keep_ite (trapMore_keep h) (keep_ite (notice_keep k34) k34))

theorem closeJob_keep {s₀ s : State} {v : Nat} {seq : Nat} (h : Keep s₀ s) :
    Keep s₀ (closeJob s v seq) := by
  unfold closeJob
  split
  · rename_i w1 w2
    exact h
  · rename_i w3 w4 w5
    exact (releaseJob_keep (completeJob_keep (settleJob_keep h)))

theorem endJob_keep {s₀ s : State} {v : Nat} {seq : Nat} {code : Nat} (h : Keep s₀ s) :
    Keep s₀ (endJob s v seq code) := by
  unfold endJob
  exact (closeJob_keep (addCond_keep h))

theorem writePieces_keep {s₀ s : State} {st : Nat} {ps : List (Nat × List Byte)} (h : Keep s₀ s) :
    Keep s₀ (writePieces s st ps) := by
  unfold writePieces
  exact (keep_foldl h (fun u1 x2 hu3 => (writeRange_keep hu3)))

theorem commitRows_keep {s₀ s : State} {v : Nat} {j : Job} {a4 : TileF} {x : NtSt} {rows : List Nat} (h : Keep s₀ s) :
    Keep s₀ (commitRows s v j a4 x rows) := by
  unfold commitRows
  extract_lets x1 x2 x3 x4 x5 x6 x7 x8 x9 x10 x11 x12 x13 x14 x15 x16
  clear_value x1 x2 x3 x4
  have k17 : Keep s₀ (x5) := (setFlags_keep h)
  clear_value x5 x6 x7 x8
  have k18 : Keep s₀ (x9) := (setFlags_keep k17)
  clear_value x9 x10
  have k19 : Keep s₀ (x11) := (trapNans_keep k18)
  clear_value x11
  have k20 : Keep s₀ (x12) := (keep_ite (keep_foldl k19 (fun u21 x22 hu23 => (coldUnit_keep hu23))) k19)
  clear_value x12
  have k24 : Keep s₀ (x13) := (writePieces_keep k20)
  clear_value x13
  have k25 : Keep s₀ (x14) := (writePieces_keep k24)
  clear_value x14 x15 x16
  split
  · rename_i w26 w27 w28 w29 w30
    have k31 : Keep s₀ w27 := keep_fst w30 (by
        split
        · rename_i w32
          dsimp only
          exact (writePieces_keep k17)
        · rename_i w33
          exact k25
      )
    extract_lets x34 x35
    have k36 : Keep s₀ (x34) := (updJob_keep k31)
    clear_value x34
    have k37 : Keep s₀ (x35) := (keep_ite (addCond_keep k36) k36)
    clear_value x35
    split
    · rename_i w38 w39
      exact k37
    · rename_i w40 w41 w42
      exact (keep_ite (updJob_keep k37) k37)

theorem poisonJob_keep {s₀ s : State} {v : Nat} {j : Job} {told : Bool} (h : Keep s₀ s) :
    Keep s₀ (poisonJob s v j told) := by
  unfold poisonJob
  extract_lets x1 x2
  clear_value x1
  have k3 : Keep s₀ (x2) := (keep_ite h (recordErr_keep h))
  clear_value x2
  exact (endJob_keep k3)

end Sys2Proof.Machine
end

