-- ==== Sys2Proof/Laws/KeepTiles.lean ====
section
/-! SUPPORT. What the operations of Machine/Tiles.lean keep: canonical stores, the queue, outputs only added. -/

namespace Sys2Proof.Machine

theorem closeSwitch_keep {s₀ s : State} {a2 : Nat} (h : Keep s₀ s) :
    Keep s₀ (closeSwitch s a2) := by
  unfold closeSwitch
  extract_lets x1 x2
  clear_value x1 x2
  exact (setArr_keep h)

theorem giveUp_keep {s₀ s : State} {v : Nat} {j : Job} (h : Keep s₀ s) :
    Keep s₀ (giveUp s v j) := by
  unfold giveUp
  exact (settleWaits_keep (updJob_keep h))

theorem nextSwitch_keep {s₀ s : State} (h : Keep s₀ s) :
    Keep s₀ (nextSwitch s) := by
  unfold nextSwitch
  refine keep_ite ?_ ?_
  · exact h
  · split
    · rename_i w1 w2 w3
      extract_lets x4
      clear_value x4
      exact (setArr_keep h)
    · rename_i w5 w6
      exact h

theorem frozenSkip_keep {s₀ s : State} {v : Nat} {seq : Nat} (h : Keep s₀ s) :
    Keep s₀ (frozenSkip s v seq) := by
  unfold frozenSkip
  exact (addCond_keep (incFld_keep h))

theorem reserve_keep {s₀ s : State} {v : Nat} {seq : Nat} {st : Nat} {n : Nat} {set : Job → Nat → Job} (h : Keep s₀ s) :
    Keep s₀ (reserve s v seq st n set) := by
  unfold reserve
  extract_lets x1 x2 x3 x4
  clear_value x1 x2 x3
  have k5 : Keep s₀ (x4) := (setStrm_keep h)
  clear_value x4
  exact (keep_ite h (updJob_keep k5))

theorem holdAll_keep {s₀ s : State} {v : Nat} {seq : Nat} {st : Nat} {nts : Nat} {low : Nat → Nat} (h : Keep s₀ s) :
    Keep s₀ (holdAll s v seq st nts low) := by
  unfold holdAll
  exact (updJob_keep h)

theorem reserveTile_keep {s₀ s : State} {v : Nat} {seq : Nat} {a4 : TileF} (h : Keep s₀ s) :
    Keep s₀ (reserveTile s v seq a4) := by
  unfold reserveTile
  split
  · rename_i w1 w2
    exact h
  · rename_i w3 w4 w5
    extract_lets x6 x7
    clear_value x6 x7
    split
    · rename_i w8 w9 w10 w11 w12
      extract_lets x13 x14 x15
      have k16 : Keep s₀ (x13) := (reserve_keep h)
      clear_value x13
      have k17 : Keep s₀ (x14) := (reserve_keep k16)
      clear_value x14
      have k18 : Keep s₀ (x15) := (keep_ite k17 h)
      clear_value x15
      split
      · rename_i w19 w20 w21 w22 w23
        extract_lets x24 x25 x26 x27 x28
        have k29 : Keep s₀ (x24) := (reserve_keep k18)
        clear_value x24
        have k30 : Keep s₀ (x25) := (keep_ite (reserve_keep k29) k18)
        clear_value x25
        have k31 : Keep s₀ (x26) := (keep_ite (reserve_keep k30) k30)
        clear_value x26
        have k32 : Keep s₀ (x27) := (reserve_keep k31)
        clear_value x27
        have k33 : Keep s₀ (x28) := (reserve_keep k32)
        clear_value x28
        split
        · rename_i w34 w35
          exact k33
        · rename_i w36 w37 w38
          extract_lets x39 x40 x41 x42 x43 x44 x45 x46 x47
          have k48 : Keep s₀ (x39) := (holdAll_keep k33)
          clear_value x39
          have k49 : Keep s₀ (x40) := (keep_ite (keep_ite k48 (holdAll_keep k48)) k33)
          clear_value x40
          have k50 : Keep s₀ (x41) := (holdAll_keep k49)
          clear_value x41
          have k51 : Keep s₀ (x42) := (keep_ite (keep_ite k50 (holdAll_keep k50)) k49)
          clear_value x42
          have k52 : Keep s₀ (x43) := (keep_ite (holdAll_keep k51) k51)
          clear_value x43 x44 x45
          have k53 : Keep s₀ (x46) := (setVein_keep k52)
          clear_value x46
          have k54 : Keep s₀ (x47) := (extend_keep k53)
          clear_value x47
          exact (keep_ite k54 (extend_keep k54))

theorem wakeArray_keep {s₀ s : State} {a2 : Nat} (h : Keep s₀ s) :
    Keep s₀ (wakeArray s a2) := by
  unfold wakeArray
  extract_lets x1
  clear_value x1
  split
  · rename_i w2 w3
    exact (setArr_keep h)
  · rename_i w4 w5
    exact (closeSwitch_keep h)
  · rename_i w6 w7
    exact (setArr_keep h)
  · rename_i w8 w9 w10 w11
    exact h

theorem wakeAll_keep {s₀ s : State} {as : List Nat} (h : Keep s₀ s) :
    Keep s₀ (wakeAll s as) := by
  unfold wakeAll
  exact (keep_foldl h (fun u1 x2 hu3 => (wakeArray_keep hu3)))

theorem preemptFillers_keep {s₀ s : State} {as : List Nat} (h : Keep s₀ s) :
    Keep s₀ (preemptFillers s as) := by
  unfold preemptFillers
  exact (keep_foldl h (fun u1 x2 hu3 => (keep_ite (keep_ite (giveUp_keep hu3) (updJob_keep hu3)) hu3)))

theorem claimThen_keep {s₀ s : State} {v : Nat} {c : Cmd} {share : Nat} {pick : Nat} {short : Nat → Bool}
    {go : State → List Nat → State} (h : Keep s₀ s) (hgo : ∀ b1 b2, Keep s₀ b1 → Keep s₀ (go b1 b2)) :
    Keep s₀ (claimThen s v c share pick short go) := by
  unfold claimThen
  extract_lets x1 x2
  clear_value x1
  have k3 : Keep s₀ (x2) := (keep_ite h (preemptFillers_keep h))
  clear_value x2
  exact (keep_ite (headWaits_keep h) (keep_ite (refuse_keep h) (keep_ite (hgo _ _ (wakeAll_keep k3)) (headWaits_keep k3))))

theorem issueTile_keep {s₀ s : State} {v : Nat} {op : Nat} {pick : Nat} (h : Keep s₀ s) :
    Keep s₀ (issueTile s v op pick) := by
  unfold issueTile
  refine issueWith_keep ?_ ?_
  · exact h
  · intro u1 u2 u3 h4
    extract_lets x5 x6
    clear_value x5 x6
    refine claimThen_keep ?_ ?_
    · exact h4
    · intro u7 u8 h9
      extract_lets x10 x11 x12
      have k13 : Keep s₀ (x10) := (startIssue_keep h9)
      clear_value x10
      have k14 : Keep s₀ (x11) := (updJob_keep k13)
      clear_value x11
      have k15 : Keep s₀ (x12) := (reserveTile_keep k14)
      clear_value x12
      refine keep_ite ?_ ?_
      · refine issueNow_keep ?_ ?_
        · exact h9
        · intro u16 h17
          exact (frozenSkip_keep h17)
      · exact (afterIssue_keep (refreshVein_keep k15))

theorem atHeadSptile_keep {s₀ : State} {v : Fin 16} {pick : Fin 4} {s : State} (h : Keep s₀ s) :
    ∃ t, atHeadSptile v pick s = .next t ∧ Keep s₀ t := by
  unfold atHeadSptile
  exact ⟨_, rfl, (issueTile_keep h)⟩

theorem atHeadTile_keep {s₀ : State} {v : Fin 16} {pick : Fin 4} {s : State} (h : Keep s₀ s) :
    ∃ t, atHeadTile v pick s = .next t ∧ Keep s₀ t := by
  unfold atHeadTile
  exact ⟨_, rfl, (issueTile_keep h)⟩

end Sys2Proof.Machine
end

