-- ==== Sys2Proof/Laws/KeepCalib.lean ====
section
/-! SUPPORT. What the operations of Machine/Calib.lean keep: canonical stores, the queue, outputs only added. -/

namespace Sys2Proof.Machine

theorem takeFrees_keep {s₀ : State} {a1 : Nat} {s : State} (h : Keep s₀ s) :
    Keep s₀ (takeFrees a1 s).2 := by
  induction a1 generalizing s
  · unfold takeFrees
    exact h
  · rename_i n1 ih2; unfold takeFrees
    split
    · rename_i w3 w4 w5 w6
      have k7 : Keep s₀ w5 := keep_snd w6 ((takeFree_keep h))
      split
      · rename_i w8 w9 w10 w11
        have k12 : Keep s₀ w10 := keep_snd w11 ((ih2 k7))
        exact k12

theorem writeEntry_keep {s₀ s : State} {d : Nat} {xs : List Nat} (h : Keep s₀ s) :
    Keep s₀ (writeEntry s d xs) := by
  unfold writeEntry
  exact (costPut_keep h)

theorem driveVreq_keep {s₀ s : State} {o : Nat} (h : Keep s₀ s) :
    Keep s₀ (driveVreq s o) := by
  unfold driveVreq
  exact (emit_keep h)

theorem setTrm_keep {s₀ s : State} {f : TrmSt → TrmSt} (h : Keep s₀ s) :
    Keep s₀ (setTrm s f) := by
  unfold setTrm
  exact (keep_same (s := s) rfl rfl rfl rfl rfl rfl rfl h)

theorem moveOpp_keep {s₀ s : State} {dst : Nat} (h : Keep s₀ s) :
    Keep s₀ (moveOpp s dst) := by
  unfold moveOpp
  extract_lets x1 x2 x3
  clear_value x1 x2
  have k4 : Keep s₀ (x3) := (setFlag_keep h)
  clear_value x3
  exact (keep_ite (setTrm_keep h) (keep_ite h (keep_ite (setTrm_keep (driveVreq_keep k4)) (setTrm_keep k4))))

theorem calHome_keep {s₀ s : State} (h : Keep s₀ s) :
    Keep s₀ (calHome s) := by
  unfold calHome
  exact (moveOpp_keep (setTrm_keep h))

theorem calWrite_keep {s₀ : State} {scope : Nat} {s : State} {ds : List Nat} (h : Keep s₀ s) :
    Keep s₀ (calWrite scope s ds) := by
  unfold calWrite
  refine keep_ite ?_ ?_
  · split
    · rename_i w1 w2 w3 w4
      have k5 : Keep s₀ w3 := keep_snd w4 ((takeFrees_keep h))
      refine keep_foldl ?_ (fun u6 x7 hu8 => ?_)
      · exact k5
      · extract_lets x9
        clear_value x9
        exact (costPut_keep hu8)
  · split
    · rename_i w10 w11 w12 w13
      have k14 : Keep s₀ w12 := keep_snd w13 ((takeFrees_keep h))
      extract_lets x15
      have k16 : Keep s₀ (x15) := (setTrm_keep k14)
      clear_value x15
      exact (keep_foldl k16 (fun u17 x18 hu19 => (writeEntry_keep hu19)))

theorem calRun_keep {s₀ s : State} {j : Job} {n : Nat} (h : Keep s₀ s) :
    Keep s₀ (calRun s j n) := by
  unfold calRun
  exact (keep_foldl h (fun u1 x2 hu3 => (calWrite_keep hu3)))

theorem calPoint_keep {s₀ s : State} {v : Nat} {j : Job} (h : Keep s₀ s) :
    Keep s₀ (calPoint s v j) := by
  unfold calPoint
  refine keep_ite ?_ ?_
  · exact h
  · split
    · rename_i w1 w2
      exact (closeJob_keep h)
    · rename_i w3 w4 w5 w6
      extract_lets x7 x8 x9 x10 x11
      clear_value x7
      have k12 : Keep s₀ (x8) := (keep_ite (calRun_keep h) h)
      clear_value x8
      have k13 : Keep s₀ (x9) := (setTrm_keep k12)
      clear_value x9
      have k14 : Keep s₀ (x10) := (updJob_keep k13)
      clear_value x10
      have k15 : Keep s₀ (x11) := by
        unfold x11
        split
        · rename_i w16
          exact (calHome_keep k14)
        · rename_i w17 w18 w19
          exact (moveOpp_keep k14)
      clear_value x11
      exact (keep_ite (endJob_keep (calHome_keep k12)) (keep_ite (closeJob_keep k15) k15))

theorem nextMove_keep {s₀ s : State} (h : Keep s₀ s) :
    Keep s₀ (nextMove s) := by
  unfold nextMove
  extract_lets x1
  have k2 : Keep s₀ (x1) := (setTrm_keep h)
  clear_value x1
  split
  · rename_i w3 w4
    exact k2
  · rename_i w5 w6 w7
    exact (moveOpp_keep (setTrm_keep k2))

theorem calBegin_keep {s₀ s : State} (h : Keep s₀ s) :
    Keep s₀ (calBegin s) := by
  unfold calBegin
  extract_lets x1 x2
  clear_value x1
  have k3 : Keep s₀ (x2) := (setTrm_keep h)
  clear_value x2
  split
  · rename_i w4
    exact k3
  · rename_i w5 w6 w7
    exact (moveOpp_keep k3)

theorem atHeadCalibrate_keep {s₀ : State} {v : Fin 16} {s : State} (h : Keep s₀ s) :
    ∃ t, atHeadCalibrate v s = .next t ∧ Keep s₀ t := by
  unfold atHeadCalibrate
  refine ⟨_, rfl, ?_⟩
  refine issueWith_keep ?_ ?_
  · exact h
  · intro u1 u2 u3 h4
    extract_lets x5 x6 x7 x8 x9
    clear_value x5
    have k10 : Keep s₀ (x6) := (startIssue_keep h4)
    clear_value x6
    have k11 : Keep s₀ (x7) := (startIssue_keep (wakeAll_keep h4))
    clear_value x7
    have k12 : Keep s₀ (x8) := (updJob_keep k11)
    clear_value x8
    have k13 : Keep s₀ (x9) := (keep_ite (calBegin_keep k12) k12)
    clear_value x9
    exact (keep_ite (afterIssue_keep (completeJob_keep (addCond_keep k10))) (keep_ite (headWaits_keep (keep_ite h4 (preemptFillers_keep h4))) (afterIssue_keep (refreshVein_keep k13))))

theorem calEnd_keep {s₀ s : State} {v : Nat} {j : Job} (h : Keep s₀ s) :
    Keep s₀ (calEnd s v j) := by
  unfold calEnd
  extract_lets x1 x2
  clear_value x1
  have k3 : Keep s₀ (x2) := (calRun_keep h)
  clear_value x2
  exact (keep_ite (calPoint_keep h) (keep_ite (endJob_keep k3) (closeJob_keep k3)))

theorem calStop_keep {s₀ s : State} {code : Nat} (h : Keep s₀ s) :
    Keep s₀ (calStop s code) := by
  unfold calStop
  split
  · rename_i w1 w2
    exact h
  · rename_i w3 w4 w5 w6
    extract_lets x7
    have k8 : Keep s₀ (x7) := (calRun_keep h)
    clear_value x7
    exact (endJob_keep (keep_ite (calHome_keep k8) k8))

end Sys2Proof.Machine
end

