-- ==== Sys2Proof/Laws/KeepEntry.lean ====
section
/-! SUPPORT. What the operations of Machine/Entry.lean keep: canonical stores, the queue, outputs only added. -/

namespace Sys2Proof.Machine

theorem openNt_keep {s₀ s : State} {v : Nat} {j : Job} {a4 : TileF} {nt : Nat} {sparse : Bool} (h : Keep s₀ s) :
    Keep s₀ (openNt s v j a4 nt sparse) := by
  unfold openNt
  extract_lets x1 x2 x3 x4
  clear_value x1 x2
  have k5 : Keep s₀ (x3) := (updJob_keep h)
  clear_value x3
  have k6 : Keep s₀ (x4) := (keep_ite k5 (incFld_keep k5))
  clear_value x4
  exact (keep_ite h (keep_ite (keep_ite (incFld_keep k6) (incFld_keep k6)) k6))

theorem waitAux_keep {s₀ s : State} {v : Nat} {j : Job} {a4 : TileF} {x : NtSt} (h : Keep s₀ s) :
    Keep s₀ (waitAux s v j a4 x) := by
  unfold waitAux
  extract_lets x1
  clear_value x1
  exact (semSettle_keep (updJob_keep (keep_same (s := s) rfl rfl rfl rfl rfl rfl rfl h)))

theorem noteDrops_keep {s₀ s : State} {v : Nat} {j : Job} {ds : List (Nat × Nat × Nat × Nat)} (h : Keep s₀ s) :
    Keep s₀ (noteDrops s v j ds) := by
  unfold noteDrops
  extract_lets x1 x2
  have k3 : Keep s₀ (x1) := (incFld_keep h)
  clear_value x1 x2
  split
  · rename_i w4 w5
    exact h
  · rename_i w6 w7 w8 w9 w10 w11
    split
    · rename_i w12 w13 w14 w15
      have k16 : Keep s₀ w14 := keep_snd w15 (by
          split
          · rename_i w17
            exact (takeFree_keep k3)
          · rename_i w18
            exact k3
        )
      extract_lets x19 x20 x21 x22 x23
      have k24 : Keep s₀ (x19) := (setFld_keep k16)
      clear_value x19
      have k25 : Keep s₀ (x20) := (setFld_keep k24)
      clear_value x20
      have k26 : Keep s₀ (x21) := (setFld_keep k25)
      clear_value x21
      have k27 : Keep s₀ (x22) := (setFld_keep k26)
      clear_value x22
      have k28 : Keep s₀ (x23) := (setFld_keep k27)
      clear_value x23
      exact (addCond_keep k28)

theorem fed_keep {s₀ s : State} {ns : List Need} (h : Keep s₀ s) :
    Keep s₀ (fed s ns) := by
  unfold fed
  exact (keep_foldl h (fun u1 x2 hu3 => (consumed_keep (setFlag_keep hu3))))

theorem swapTile_keep {s₀ s : State} {v : Nat} {j : Job} {p : Nat} (h : Keep s₀ s) :
    Keep s₀ (swapTile s v j p) := by
  unfold swapTile
  extract_lets x1
  have k2 : Keep s₀ (x1) := by
    unfold x1
    refine keep_foldl ?_ (fun u3 x4 hu5 => ?_)
    · exact h
    · extract_lets x6
      clear_value x6
      exact (setArr_keep hu5)
  clear_value x1
  exact (updJob_keep k2)

theorem reload_keep {s₀ s : State} {v : Nat} {j : Job} (h : Keep s₀ s) :
    Keep s₀ (reload s v j) := by
  unfold reload
  extract_lets x1
  clear_value x1
  split
  · rename_i w2 w3
    exact h
  · rename_i w4 w5 w6
    extract_lets x7 x8
    clear_value x7 x8
    exact (keep_ite (poisonJob_keep h) (updJob_keep h))

theorem resumeJob_keep {s₀ s : State} {a2 : Nat} (h : Keep s₀ s) :
    Keep s₀ (resumeJob s a2) := by
  unfold resumeJob
  split
  · rename_i w1 w2
    exact h
  · rename_i w3 w4 w5 w6
    extract_lets x7 x8
    clear_value x7 x8
    exact (keep_ite h (wakeAll_keep (reload_keep (updJob_keep h))))

theorem reserveSparse_keep {s₀ s : State} {v : Nat} {j : Job} {a4 : SpHalf} {r : SpRd} {o : OpFmt} {rows : Nat}
    {k : Nat} {nts : Nat} {low : Nat → Nat} (h : Keep s₀ s) :
    Keep s₀ (reserveSparse s v j a4 r o rows k nts low) := by
  unfold reserveSparse
  extract_lets x1 x2 x3 x4 x5 x6 x7 x8 x9 x10
  clear_value x1 x2 x3 x4 x5
  have k11 : ∀ y1 y2 y3 y4, Keep s₀ y1 → Keep s₀ (x6 y1 y2 y3 y4) := by
    intro y1 y2 y3 y4 h0_12
    unfold x6
    exact (holdAll_keep (reserve_keep h0_12))
  clear_value x6
  have k13 : Keep s₀ (x7) := (k11 _ _ _ _ h)
  clear_value x7
  have k14 : Keep s₀ (x8) := (k11 _ _ _ _ k13)
  clear_value x8
  have k15 : Keep s₀ (x9) := (k11 _ _ _ _ k14)
  clear_value x9
  have k16 : Keep s₀ (x10) := (keep_ite k15 (k11 _ _ _ _ k15))
  clear_value x10
  exact (keep_ite h (keep_ite k16 (k11 _ _ _ _ (k11 _ _ _ _ k16))))

theorem takeSparse_keep {s₀ s : State} {v : Nat} {j : Job} {a4 : TileF} (h : Keep s₀ s) :
    Keep s₀ (takeSparse s v j a4) := by
  unfold takeSparse
  extract_lets x1 x2 x3 x4 x5 x6 x7 x8 x9
  clear_value x1 x2 x3 x4 x5 x6
  have k10 : Keep s₀ (x7) := (reserveSparse_keep h)
  clear_value x7
  have k11 : Keep s₀ (x8) := (reserveSparse_keep k10)
  clear_value x8
  have k12 : Keep s₀ (x9) := (updJob_keep k11)
  clear_value x9
  exact (noteDrops_keep (fed_keep k12))

theorem checkFin_keep {s₀ s : State} {v : Nat} {seq : Nat} (h : Keep s₀ s) :
    Keep s₀ (checkFin s v seq) := by
  unfold checkFin
  split
  · rename_i w1 w2
    exact h
  · rename_i w3 w4 w5
    exact (keep_ite (finJob_keep h) h)

theorem starve_keep {s₀ s : State} {ns : List Need} (h : Keep s₀ s) :
    Keep s₀ (starve s ns) := by
  unfold starve
  exact (keep_foldl h (fun u1 x2 hu3 => (keep_ite hu3 (setFlag_keep hu3))))

theorem spillJob_keep {s₀ s : State} {v : Nat} {j : Job} {a4 : TileF} (h : Keep s₀ s) :
    Keep s₀ (spillJob s v j a4) := by
  unfold spillJob
  split
  · rename_i w1 w2
    exact h
  · rename_i w3 w4 w5
    extract_lets x6 x7
    have k8 : Keep s₀ (x6) := (setFlags_keep h)
    clear_value x6
    have k9 : Keep s₀ (x7) := (keep_foldl k8 (fun u10 x11 hu12 => (keep_foldl hu12 (fun u13 x14 hu15 => (micaWrite_keep hu15)))))
    clear_value x7
    exact (updJob_keep k9)

theorem toCorr_keep {s₀ s : State} {v : Nat} {j : Job} {a4 : TileF} (h : Keep s₀ s) :
    Keep s₀ (toCorr s v j a4) := by
  unfold toCorr
  extract_lets x1 x2 x3
  clear_value x1 x2
  have k4 : Keep s₀ (x3) := (updJob_keep h)
  clear_value x3
  exact (keep_ite h (keep_ite h (keep_ite k4 (addCond_keep k4))))

theorem arraysEnter_keep {s₀ s : State} {as : List Nat} (h : Keep s₀ s) :
    Keep s₀ (arraysEnter s as) := by
  unfold arraysEnter
  refine keep_foldl ?_ (fun u1 x2 hu3 => ?_)
  · exact h
  · extract_lets x4 x5
    clear_value x4
    have k6 : Keep s₀ (x5) := (keep_foldl hu3 (fun u7 x8 hu9 => (keep_ite (setFld_keep (setFlag_keep hu9)) (setFld_keep (setFlag_keep hu9)))))
    clear_value x5
    exact (setArr_keep k6)

theorem measureCodes_keep {s₀ s : State} {st : Nat} {a3 : Nat} {f : Fmt} {cs : List Nat} (h : Keep s₀ s) :
    Keep s₀ (measureCodes s st a3 f cs) := by
  unfold measureCodes
  exact (measure_keep h)

theorem measureTile_keep {s₀ s : State} {j : Job} {a3 : TileF} {nt : Nat} {p : Nat} {rows : List (List
    (Nat × Option Nat))} (h : Keep s₀ s) :
    Keep s₀ (measureTile s j a3 nt p rows) := by
  unfold measureTile
  refine keep_ite ?_ ?_
  · exact (keep_foldl h (fun u1 x2 hu3 => (measureCodes_keep hu3)))
  · refine keep_foldl ?_ (fun u4 x5 hu6 => ?_)
    · exact h
    · extract_lets x7
      clear_value x7
      exact (measureCodes_keep hu6)

theorem takeChannels_keep {s₀ s : State} {v : Nat} {j : Job} {a4 : TileF} (h : Keep s₀ s) :
    Keep s₀ (takeChannels s v j a4) := by
  unfold takeChannels
  extract_lets x1 x2
  clear_value x1 x2
  exact (keep_ite h (noteDrops_keep (fed_keep h)))

theorem advance_keep {s₀ s : State} {v : Nat} {j : Job} {a4 : TileF} {sparse : Bool} (h : Keep s₀ s) :
    Keep s₀ (advance s v j a4 sparse) := by
  unfold advance
  extract_lets x1 x2
  clear_value x1
  exact (updJob_keep h)

theorem measureRow_keep {s₀ s : State} {j : Job} {a3 : TileF} {nt : Nat} {corr : Bool} {p : Nat} {sub : Nat}
    {i : Nat} (h : Keep s₀ s) :
    Keep s₀ (measureRow s j a3 nt corr p sub i) := by
  unfold measureRow
  extract_lets x1 x2 x3
  clear_value x1 x2 x3
  exact (keep_ite (measureCodes_keep h) (keep_ite (measureCodes_keep h) h))

theorem measureLanes_keep {s₀ s : State} {j : Job} {a3 : TileF} {x : NtSt} (h : Keep s₀ s) :
    Keep s₀ (measureLanes s j a3 x) := by
  unfold measureLanes
  refine keep_foldl ?_ (fun u1 x2 hu3 => ?_)
  · exact h
  · extract_lets x4
    have k5 : Keep s₀ (x4) := (keep_foldl hu3 (fun u6 x7 hu8 => (measureRow_keep hu8)))
    clear_value x4
    exact (measureTile_keep k5)

theorem touchNeeds_keep {s₀ s : State} {ns : List Need} {who : Reader} (h : Keep s₀ s) :
    Keep s₀ (touchNeeds s ns who) := by
  unfold touchNeeds
  exact (keep_ite h (keep_foldl h (fun u1 x2 hu3 => (touchStream_keep hu3))))

theorem loadShadow_keep {s₀ s : State} {v : Nat} {j : Job} {a4 : TileF} {p : Nat} (h : Keep s₀ s) :
    Keep s₀ (loadShadow s v j a4 p) := by
  unfold loadShadow
  extract_lets x1 x2 x3
  clear_value x1
  have k4 : Keep s₀ (x2) := (touchNeeds_keep h)
  clear_value x2 x3
  refine keep_ite ?_ ?_
  · exact h
  · split
    · rename_i w5 w6 w7 w8
      extract_lets x9
      clear_value x9
      refine keep_ite ?_ ?_
      · exact k4
      · refine keep_foldl ?_ (fun u10 x11 hu12 => ?_)
        · exact (fed_keep (measureTile_keep k4))
        · extract_lets x13
          clear_value x13
          exact (setArr_keep hu12)

theorem loadNext_keep {s₀ s : State} {a2 : Nat} (h : Keep s₀ s) :
    Keep s₀ (loadNext s a2) := by
  unfold loadNext
  split
  · rename_i w1 w2
    exact h
  · rename_i w3 w4 w5 w6
    extract_lets x7 x8 x9 x10
    clear_value x7 x8 x9 x10
    refine keep_ite ?_ ?_
    · exact h
    · refine keep_ite ?_ ?_
      · exact h
      · split
        · rename_i w11 w12 w13
          exact (loadShadow_keep h)
        · rename_i w14 w15
          exact h

theorem went_keep {s₀ : State} {w x : Went} (e : w = x) (h : Keep s₀ w.st) : Keep s₀ x.st := e ▸ h

theorem went_fold {α : Type} {s₀ : State} {l : List α} {w : Went} {f : State → α → Went} (h : Keep s₀ w.st)
    (hf : ∀ u x, Keep s₀ u → Keep s₀ (f u x).st) :
    Keep s₀ (l.foldl (fun w x => match w with | .done s => f s x | w => w) w).st := by
  induction l generalizing w with
  | nil => exact h
  | cons x l ih =>
    apply ih
    cases w with
    | done s => exact hf s x h
    | waits s => exact h
    | ended s => exact h

theorem readNeeds_keep {s₀ s : State} {v : Nat} {j : Job} {ns : List Need} {bad : State → Bool} {go : State → State}
    (h : Keep s₀ s) (hgo : ∀ u, Keep s₀ u → Keep s₀ (go u)) : Keep s₀ (readNeeds s v j ns bad go).st := by
  unfold readNeeds
  split
  · exact starve_keep h
  · extract_lets n x
    have k : Keep s₀ x := touchNeeds_keep h
    clear_value x
    split
    · exact poisonJob_keep k
    · exact hgo _ (fed_keep k)

theorem closeTile_keep {s₀ s : State} {v : Nat} {j : Job} {t : TileF} {x : NtSt} (h : Keep s₀ s) :
    Keep s₀ (closeTile s v j t x).st := by
  unfold closeTile
  split
  · exact h
  · extract_lets rows
    split
    · exact readNeeds_keep h (fun u hu => updJob_keep (measureLanes_keep hu))
    · refine readNeeds_keep h (fun u hu => ?_)
      exact updJob_keep (keep_foldl hu (fun u x hu => measureRow_keep hu))

theorem closeAll_keep {s₀ s : State} {as : List Nat} (h : Keep s₀ s) : Keep s₀ (closeAll s as).st :=
  went_fold h (fun _ _ hu => closeTile_keep hu)

theorem sumAux_keep {s₀ s : State} {v : Nat} {j : Job} {t : TileF} {x : NtSt} (h : Keep s₀ s) :
    Keep s₀ (sumAux s v j t x).st := by
  unfold sumAux
  extract_lets s1 in_
  have k : Keep s₀ s1 := keep_ite h (waitAux_keep h)
  clear_value s1
  split
  · exact starve_keep k
  · exact readNeeds_keep k (fun u hu => updJob_keep hu)

theorem execLaneItemEnd_keep {s₀ s : State} {array : Fin 4} {lane : Fin 64} (h : Keep s₀ s) :
    ∃ t, execLaneItemEnd array lane s = .next t ∧ Keep s₀ t := by
  unfold execLaneItemEnd
  refine ⟨_, rfl, ?_⟩
  split
  · exact h
  · rename_i v j _
    dsimp only
    split
    · exact h
    · split
      · exact h
      · rename_i l it _
        split
        · rename_i e; exact went_keep e (readNeeds_keep h (fun _ hu => hu))
        · rename_i e; exact went_keep e (readNeeds_keep h (fun _ hu => hu))
        · rename_i e; exact updJob_keep (went_keep e (readNeeds_keep h (fun _ hu => hu)))

theorem dropFenced_keep {s₀ s : State} {v : Nat} {j : Job} (h : Keep s₀ s) : Keep s₀ (dropFenced s v j) := by
  unfold dropFenced
  split
  · exact h
  · have k := closeAll_keep (as := j.arrays) h
    split
    · rename_i e; rw [e] at k; exact k
    · rename_i e; rw [e] at k; exact k
    · rename_i e; rw [e] at k; exact updJob_keep k

theorem tryYield_keep {s₀ s : State} {v : Nat} {j : Job} (h : Keep s₀ s) : Keep s₀ (tryYield s v j) := by
  unfold tryYield
  have k := closeAll_keep (as := j.arrays) h
  refine keep_ite h (keep_ite (keep_ite h ?_) (keep_ite (giveUp_keep h) h))
  split
  · rename_i e
    rw [e] at k
    split
    · exact giveUp_keep (spillJob_keep k)
    · exact k
  · rename_i e; rw [e] at k; exact k
  · rename_i e; rw [e] at k; exact k

theorem enterNow_keep {s₀ s : State} {v : Nat} {j : Job} {t : TileF} (h : Keep s₀ s) : Keep s₀ (enterNow s v j t) := by
  unfold enterNow
  extract_lets sparse place p rows first ns s1 s2 s3 s4 j2 summed
  have k2 : Keep s₀ s2 := touchNeeds_keep (wakeAll_keep h)
  have k4 : Keep s₀ s4 := openNt_keep (takeChannels_keep (keep_ite (fed_keep k2) k2))
  have km : Keep s₀ summed.st := by
    unfold summed
    split
    · split
      · exact sumAux_keep k4
      · exact k4
    · exact k4
  clear_value summed s4 s3 s2
  refine keep_ite (starve_keep h) (keep_ite (wakeAll_keep h) (keep_ite (poisonJob_keep k2) ?_))
  split
  · exact km
  · exact km
  · rename_i s5
    have k5 : Keep s₀ s5 := km
    extract_lets j3 s6 s7 n s8 s9 s10 s11
    have k7 : Keep s₀ s7 :=
      advance_keep (keep_ite (keep_foldl (arraysEnter_keep k5) (fun u x hu => setArr_keep hu)) k5)
    have k8 : Keep s₀ s8 := loadShadow_keep k5
    have k10 : Keep s₀ s10 := advance_keep (arraysEnter_keep (swapTile_keep k8))
    have k11 : Keep s₀ s11 := by
      unfold s11
      split
      · exact loadNext_keep k10
      · exact k10
    clear_value s11 s10 s9 s8 s7 s6
    exact keep_ite (settleWaits_keep (checkFin_keep (toCorr_keep k7)))
      (keep_ite (poisonJob_keep k8) (settleWaits_keep (checkFin_keep (toCorr_keep k11))))

theorem enterTile_keep {s₀ s : State} {v : Nat} {j : Job} (h : Keep s₀ s) : Keep s₀ (enterTile s v j) := by
  unfold enterTile
  extract_lets t
  refine keep_ite h ?_
  have k := closeAll_keep (as := j.arrays) h
  split
  · rename_i e; exact went_keep e k
  · rename_i e; exact went_keep e k
  · rename_i u e
    have ku : Keep s₀ u := went_keep e k
    split
    · exact ku
    · rename_i j' _
      extract_lets s1 ns s2 s3 src j3 s4 cs first cs2
      have k1 : Keep s₀ s1 := toCorr_keep ku
      have k2 : Keep s₀ s2 := touchNeeds_keep k1
      have k4 : Keep s₀ s4 := updJob_keep (takeSparse_keep k2)
      clear_value s4 j3 src s3 s2 s1
      exact keep_ite (checkFin_keep k1) (keep_ite k1 (keep_ite
        (keep_ite (starve_keep k1) (keep_ite (poisonJob_keep k2) (keep_ite (starve_keep k4) (enterNow_keep k4))))
        (keep_ite (starve_keep k1) (enterNow_keep k1))))

theorem execTileEntry_keep {s₀ : State} {array : Fin 4} {s : State} (h : Keep s₀ s) :
    ∃ t, execTileEntry array s = .next t ∧ Keep s₀ t := by
  unfold execTileEntry
  refine ⟨_, rfl, ?_⟩
  split
  · rename_i w1 w2
    exact (resumeJob_keep h)
  · rename_i w3 w4 w5 w6
    exact (keep_ite (tryYield_keep h) (keep_ite (dropFenced_keep h) (enterTile_keep h)))

end Sys2Proof.Machine
end

