-- ==== Sys2Proof/Laws/KeepLadder.lean ====
section
/-! SUPPORT. What the operations of Machine/Ladder.lean keep: canonical stores, the queue, outputs only added. -/

namespace Sys2Proof.Machine

theorem voidNow_keep {s₀ s : State} {v : Nat} {seq : Nat} {nt : Nat} {rows : List Nat} (h : Keep s₀ s) :
    Keep s₀ (voidNow s v seq nt rows) := by
  unfold voidNow
  exact (updJob_keep h)

theorem putAccs_keep {s₀ s : State} {v : Nat} {seq : Nat} {nt : Nat} {corr : Bool} {a6 : Nat} {rs : List
    (Nat × List AccSt)} (h : Keep s₀ s) :
    Keep s₀ (putAccs s v seq nt corr a6 rs) := by
  unfold putAccs
  exact (updJob_keep h)

theorem mapSpare_keep {s₀ s : State} {v : Nat} {j : Job} {a4 : Nat} {inj : Bool} {m : Nat × Nat} (h : Keep s₀ s) :
    Keep s₀ (mapSpare s v j a4 inj m) := by
  unfold mapSpare
  extract_lets x1 x2 x3
  clear_value x1
  have k4 : Keep s₀ (x2) := (setArr_keep h)
  clear_value x2 x3
  exact (noteRec_keep k4)

theorem fenceArray_keep {s₀ s : State} {a2 : Nat} {by_ : Option (Nat × Nat)} (h : Keep s₀ s) :
    Keep s₀ (fenceArray s a2 by_) := by
  unfold fenceArray
  extract_lets x1 x2 x3
  clear_value x1
  have k4 : Keep s₀ (x2) := (setFld_keep h)
  clear_value x2 x3
  exact (setArr_keep k4)

theorem dropLadder_keep {s₀ s : State} {v : Nat} {seq : Nat} {l : Ladder} (h : Keep s₀ s) :
    Keep s₀ (dropLadder s v seq l) := by
  unfold dropLadder
  exact (settleWaits_keep (updJob_keep h))

theorem ladderRec_keep {s₀ s : State} {v : Nat} {j : Job} {l : Ladder} {outcome : Nat} {spare : Nat} {status : Nat}
    (h : Keep s₀ s) :
    Keep s₀ (ladderRec s v j l outcome spare status) := by
  unfold ladderRec
  extract_lets x1 x2
  clear_value x1 x2
  exact (recordErr_keep h)

theorem arrayHit_keep {s₀ s : State} {det : Nat} {a3 : Nat} {cols : List Nat} {v : Nat} {j : Job} {row : Option Nat}
    (h : Keep s₀ s) :
    Keep s₀ (arrayHit s det a3 cols v j row).2 := by
  unfold arrayHit
  exact (flintHit_keep h)

theorem dupInject_keep {s₀ s : State} {det : Nat} {v : Nat} {j : Job} {x : NtSt} {a6 : Nat} {row : Nat}
    (h : Keep s₀ s) :
    Keep s₀ (dupInject s det v j x a6 row).2 := by
  unfold dupInject
  extract_lets x1 x2
  clear_value x1
  have k3 : Keep s₀ (x2).2 := (arrayHit_keep h)
  clear_value x2
  split
  · rename_i w4 w5
    exact k3
  · rename_i w6 w7 w8
    exact k3

theorem afterRow_keep {s₀ s : State} {v : Nat} {seq : Nat} {a4 : TileF} (h : Keep s₀ s) :
    Keep s₀ (afterRow s v seq a4) := by
  unfold afterRow
  split
  · rename_i w1 w2
    exact h
  · rename_i w3 w4 w5
    extract_lets x6
    have k7 : Keep s₀ (x6) := (checkFin_keep (toCorr_keep h))
    clear_value x6
    split
    · rename_i w8 w9 w10
      exact (tryYield_keep k7)
    · rename_i w11 w12
      exact k7

theorem execStrikeWindowEnd_keep {s₀ : State} {array : Fin 4} {col : Nat} {s : State} (h : Keep s₀ s) :
    ∃ t, execStrikeWindowEnd array col s = .next t ∧ Keep s₀ t := by
  unfold execStrikeWindowEnd
  refine ⟨_, rfl, ?_⟩
  extract_lets x1
  clear_value x1
  exact (keep_ite h (setArr_keep h))

theorem tryCommit_keep {s₀ s : State} {v : Nat} {seq : Nat} {nt : Nat} {i : Nat} (h : Keep s₀ s) :
    ∀ t, tryCommit s v seq nt i = some t → Keep s₀ t := by
  unfold tryCommit
  split
  · rename_i w1 w2
    exact (keep_some h)
  · rename_i w3 w4 w5
    extract_lets x6 x7 x8
    clear_value x6 x7
    have k9 : Keep s₀ (x8) := (extend_keep (extend_keep h))
    clear_value x8
    split
    · rename_i w10
      exact (keep_some h)
    · rename_i w11
      split
      · rename_i w12 w13
        exact (keep_some h)
      · rename_i w14 w15 w16
        split
        · rename_i w17
          exact (keep_some (commitRows_keep k9))
        · rename_i w18
          exact keep_none

theorem joinLadder_keep {s₀ s : State} {v : Nat} {seq : Nat} {nt : Nat} {corr : Bool} {a6 : Nat} {row : Nat}
    {pass : Nat} {sus : List Nat} {det : Nat} {inj : Bool} (h : Keep s₀ s) :
    Keep s₀ (joinLadder s v seq nt corr a6 row pass sus det inj) := by
  unfold joinLadder
  exact (updJob_keep h)

theorem passRows_keep {s₀ s : State} {v : Nat} {seq : Nat} {nt : Nat} {corr : Bool} {rows : List Nat} (h : Keep s₀ s) :
    ∀ t, passRows s v seq nt corr rows = some t → Keep s₀ t := by
  unfold passRows
  refine keep_foldl_opt ?_ (fun u1 x2 hu3 => ?_)
  · exact (keep_some h)
  · split
    · rename_i w4
      exact hu3
    · rename_i w5 w6
      exact (tryCommit_keep (updJob_keep (hu3 _ rfl)))

theorem endCleave_keep {s₀ s : State} {c : Option (Nat × Nat)} {code : Nat} (h : Keep s₀ s) :
    Keep s₀ (endCleave s c code) := by
  unfold endCleave
  split
  · rename_i w1
    exact h
  · rename_i w2 w3 w4
    exact (completeJob_keep (keep_ite h (addCond_keep h)))

theorem yieldCleave_keep {s₀ s : State} {a2 : Nat} (h : Keep s₀ s) :
    Keep s₀ (yieldCleave s a2) := by
  unfold yieldCleave
  extract_lets x1 x2 x3
  clear_value x1
  have k4 : Keep s₀ (x2) := (setArr_keep h)
  clear_value x2
  have k5 : Keep s₀ (x3) := (setFld_keep k4)
  clear_value x3
  split
  · rename_i w6 w7 w8
    exact (endCleave_keep k5)
  · rename_i w9 w10
    exact h

theorem addStrike_keep {s₀ s : State} {a2 : Nat} {c : Nat} (h : Keep s₀ s) :
    Keep s₀ (addStrike s a2 c) := by
  unfold addStrike
  extract_lets x1 x2 x3
  clear_value x1 x2 x3
  exact (setArr_keep h)

theorem setLadder_keep {s₀ s : State} {v : Nat} {seq : Nat} {l : Ladder} (h : Keep s₀ s) :
    Keep s₀ (setLadder s v seq l) := by
  unfold setLadder
  exact (updJob_keep h)

theorem assignTwo_keep {s₀ s : State} {v : Nat} {seq : Nat} (h : Keep s₀ s) :
    Keep s₀ (assignTwo s v seq) := by
  unfold assignTwo
  refine keep_foldl ?_ (fun u1 x2 hu3 => ?_)
  · exact h
  · split
    · rename_i w4 w5
      exact hu3
    · rename_i w6 w7 w8
      split
      · rename_i w9 w10
        exact hu3
      · rename_i w11 w12 w13
        split
        · rename_i w14 w15 w16
          exact (setLadder_keep hu3)
        · rename_i w17 w18
          exact hu3

theorem ladderPass_keep {s₀ s : State} {v : Nat} {j : Job} {l : Ladder} {b : Nat} {flts : List (Nat × RowFault)}
    (h : Keep s₀ s) :
    ∀ t, ladderPass s v j l b flts = some t → Keep s₀ t := by
  unfold ladderPass
  extract_lets x1 x2 x3 x4 x5 x6
  clear_value x1 x2 x3
  have k7 : Keep s₀ (x4) := (dropLadder_keep h)
  clear_value x4
  have k8 : Keep s₀ (x5) := (updJob_keep k7)
  clear_value x5
  have k9 : Keep s₀ (x6) := (voidNow_keep k8)
  clear_value x6
  split
  · rename_i w10 w11
    exact keep_none
  · rename_i w12 w13 w14
    extract_lets x15 x16 x17
    clear_value x15 x16
    have k18 : Keep s₀ (x17) := (putAccs_keep k9)
    clear_value x17
    refine keep_map ?_ (fun u19 hu20 => ?_)
    · exact (passRows_keep k18)
    · exact (afterRow_keep (assignTwo_keep (addCond_keep hu20)))

theorem eccNote_keep {s₀ s : State} {v : Nat} {j : Job} {a4 : TileF} {x : NtSt} {a6 : Nat} {row : Nat} {det : Nat}
    {e : Ecc} (h : Keep s₀ s) :
    Keep s₀ (eccNote s v j a4 x a6 row det e) := by
  unfold eccNote
  extract_lets x1 x2 x3 x4 x5
  have k6 : Keep s₀ (x1).2 := (arrayHit_keep h)
  clear_value x1
  have k7 : Keep s₀ (x2) := k6
  clear_value x2 x3 x4
  have k8 : Keep s₀ (x5) := (recordErr_keep k7)
  clear_value x5
  exact (keep_ite k7 (keep_ite (touchNeeds_keep k8) k8))

theorem ladderFail_keep {s₀ s : State} {v : Nat} {j : Job} {l : Ladder} (h : Keep s₀ s) :
    Keep s₀ (ladderFail s v j l) := by
  unfold ladderFail
  extract_lets x1
  have k2 : Keep s₀ (x1) := (incFld_keep h)
  clear_value x1
  exact (endJob_keep (ladderRec_keep k2))

theorem repair_keep {s₀ s : State} {v : Nat} {j : Job} {a4 : Nat} {sus : List Nat} {inj : Bool} (h : Keep s₀ s) :
    Keep s₀ (repair s v j a4 sus inj).2.2 := by
  unfold repair
  extract_lets x1 x2
  clear_value x1
  have k3 : Keep s₀ (x2) := (fenceArray_keep (yieldCleave_keep h))
  clear_value x2
  split
  · rename_i w4
    exact h
  · rename_i w5
    split
    · rename_i w6
      dsimp only
      exact (keep_foldl (yieldCleave_keep h) (fun u7 x8 hu9 => (mapSpare_keep hu9)))
    · rename_i w10
      split
      · rename_i w11
        dsimp only
        exact (setFld_keep k3)
      · rename_i w12
        exact h

theorem tallyStrike_keep {s₀ s : State} {v : Nat} {j : Job} {a4 : Nat} {inj : Bool} {c : Nat} (h : Keep s₀ s) :
    Keep s₀ (tallyStrike s v j a4 inj c) := by
  unfold tallyStrike
  extract_lets x1 x2
  clear_value x1
  have k3 : Keep s₀ (x2) := (addStrike_keep (recordErr_keep h))
  clear_value x2
  exact (keep_ite (repair_keep k3) k3)

theorem ladderEnd_keep {s₀ s : State} {v : Nat} {j : Job} {l : Ladder} {b : Nat} {again : Bool} {sus : List Nat}
    {flts : List (Nat × RowFault)} (h : Keep s₀ s) :
    Keep s₀ (ladderEnd s v j l b again sus flts) := by
  unfold ladderEnd
  extract_lets x1 x2 x3
  clear_value x1
  have k4 : Keep s₀ (x2) := (keep_foldl h (fun u5 x6 hu7 => (keep_foldl hu7 (fun u8 x9 hu10 => (flintHit_keep hu10)))))
  clear_value x2 x3
  refine keep_ite ?_ ?_
  · refine keep_ite ?_ ?_
    · exact (keep_ite (ladderFail_keep k4) (assignTwo_keep (setLadder_keep k4)))
    · split
      · rename_i w11 w12
        exact h
      · rename_i w13 w14 w15
        have k16 : Keep s₀ w14 := (ladderPass_keep k4) _ w15
        extract_lets x17 x18
        have k19 : Keep s₀ (x17) := (incFld_keep k16)
        clear_value x17
        have k20 : Keep s₀ (x18) := (keep_foldl k19 (fun u21 x22 hu23 => (addStrike_keep hu23)))
        clear_value x18
        split
        · rename_i w24 w25 w26 w27 w28
          have k29 : Keep s₀ w27 := keep_thd w28 ((repair_keep k20))
          exact (ladderRec_keep k29)
  · refine keep_ite ?_ ?_
    · exact (ladderFail_keep k4)
    · split
      · rename_i w30 w31
        exact h
      · rename_i w32 w33 w34
        have k35 : Keep s₀ w33 := (ladderPass_keep k4) _ w34
        extract_lets x36
        have k37 : Keep s₀ (x36) := (incFld_keep k35)
        clear_value x36
        split
        · rename_i w38 w39 w40 w41 w42
          have k43 : Keep s₀ w41 := keep_thd w42 ((repair_keep k37))
          exact (ladderRec_keep k43)

theorem ladderStep_keep {s₀ s : State} {v : Nat} {j : Job} {l : Ladder} {b : Nat} {flts : List (Nat × RowFault)}
    (h : Keep s₀ s) :
    Keep s₀ (ladderStep s v j l b flts) := by
  unfold ladderStep
  extract_lets x1 x2
  clear_value x1 x2
  split
  · rename_i w3 w4
    exact h
  · rename_i w5 w6 w7
    extract_lets x8 x9 x10 x11
    clear_value x8
    have k12 : Keep s₀ (x9) := (touchNeeds_keep h)
    clear_value x9
    have k13 : Keep s₀ (x10) := by
      unfold x10
      refine keep_foldl ?_ (fun u14 x15 hu16 => ?_)
      · exact k12
      · extract_lets x17
        clear_value x17
        exact (eccNote_keep (eccNote_keep hu16))
    clear_value x10 x11
    exact (keep_ite (poisonJob_keep k12) (ladderEnd_keep k13))

theorem classPass_keep {s₀ : State} {v : Nat} {j : Job} {a3 : TileF} {x : NtSt} {a5 : Nat} {rows : List
    (Nat × List AccSt)} {acc : List Nat × State} {p : Nat × Nat} (hacc : Keep s₀ (acc).2) :
    Keep s₀ (classPass v j a3 x a5 rows acc p).2 := by
  unfold classPass
  extract_lets x1 x2 x3 x4 x5 x6 x7
  have k8 : Keep s₀ (x1) := hacc
  clear_value x1 x2
  have k9 : Keep s₀ (x3).2 := (arrayHit_keep k8)
  clear_value x3
  have k10 : Keep s₀ (x4) := k9
  clear_value x4 x5 x6 x7
  split
  · rename_i w11
    exact k10
  · rename_i w12
    dsimp only
    exact (keep_foldl k10 (fun u13 x14 hu15 => (tallyStrike_keep hu15)))

theorem classify_keep {s₀ s : State} {v : Nat} {seq : Nat} {nt : Nat} {corr : Bool} {a6 : Nat} (h : Keep s₀ s) :
    Keep s₀ (classify s v seq nt corr a6) := by
  unfold classify
  split
  · rename_i w1 w2
    exact h
  · rename_i w3 w4 w5
    extract_lets x6
    clear_value x6
    split
    · rename_i w7 w8
      exact h
    · rename_i w9 w10 w11
      extract_lets x12 x13
      have k14 : Keep s₀ (x12).2 := (keep_foldl_snd h (fun u15 x16 hu17 => (classPass_keep hu17)))
      clear_value x12
      have k18 : Keep s₀ (x13) := k14
      clear_value x13
      refine keep_ite ?_ ?_
      · exact h
      · split
        · rename_i w19 w20
          exact k18
        · rename_i w21 w22 w23
          extract_lets x24
          clear_value x24
          exact (assignTwo_keep (setLadder_keep k18))

theorem execLadderStepEnd_keep {s₀ : State} {array : Fin 4} {rows : List Nat} {flts : List RowFault} {s : State}
    (h : Keep s₀ s) : ∃ t, execLadderStepEnd array rows flts s = .next t ∧ Keep s₀ t := by
  unfold execLadderStepEnd
  extract_lets x0 x1
  clear_value x0 x1
  refine ⟨_, rfl, ?_⟩
  split
  · rename_i w2 w3
    exact h
  · rename_i w4 w5 w6 w7 w8
    refine keep_ite ?_ ?_
    · exact (ladderStep_keep h)
    · split
      · rename_i w9 w10 w11
        exact (keep_ite (ladderStep_keep h) h)
      · rename_i w12 w13
        exact (keep_ite (ladderFail_keep h) (assignTwo_keep h))

theorem passInject_keep {s₀ s : State} {v : Nat} {j : Job} {a4 : TileF} {x : NtSt} {a6 : Nat} {row : Nat}
    (h : Keep s₀ s) :
    Keep s₀ (passInject s v j a4 x a6 row).2 := by
  unfold passInject
  refine keep_foldl_snd ?_ (fun u1 x2 hu3 => ?_)
  · exact h
  · extract_lets x4 x5 x6
    have k7 : Keep s₀ (x4).2 := (arrayHit_keep hu3)
    clear_value x4
    have k8 : Keep s₀ (x5) := k7
    clear_value x5 x6
    split
    · rename_i w9 w10
      exact k7
    · rename_i w11 w12 w13
      extract_lets x14
      clear_value x14
      split
      · rename_i w15
        exact k8
      · rename_i w16
        split
        · rename_i w17
          exact k8
        · rename_i w18
          exact k8

theorem rowShow_keep {s₀ s : State} {v : Nat} {j : Job} {a4 : TileF} {x : NtSt} {a6 : Nat} {row : Nat}
    {accs : List AccSt} {flt : RowFault} (h : Keep s₀ s) :
    Keep s₀ (rowShow s v j a4 x a6 row accs flt).2 := by
  unfold rowShow
  extract_lets x1 x2 x3 x4 x5 x6 x7 x8 x9
  clear_value x1
  have k10 : Keep s₀ (x2).2 := (passInject_keep h)
  clear_value x2 x3
  have k11 : Keep s₀ (x4).2 := (dupInject_keep k10)
  clear_value x4
  have k12 : Keep s₀ (x5).2 := (dupInject_keep k11)
  clear_value x5 x6 x7 x8 x9
  exact k12

theorem checkRow_keep {s₀ s : State} {v : Nat} {j : Job} {a4 : TileF} {x : NtSt} {a6 : Nat} {row : Nat}
    {flt : RowFault} (h : Keep s₀ s) :
    Keep s₀ (checkRow s v j a4 x a6 row flt) := by
  unfold checkRow
  extract_lets x1 x2 x3 x4 x5 x6 x7 x8 x9 x10 x11 x12 x13 x14
  clear_value x1
  have k15 : Keep s₀ (x2) := (eccNote_keep (eccNote_keep h))
  clear_value x2
  have k16 : Keep s₀ (x3).2 := (rowShow_keep k15)
  clear_value x3 x4
  have k17 : Keep s₀ (x5) := k16
  clear_value x5 x6
  have k18 : Keep s₀ (x7) := (keep_ite (incFld_keep k17) k17)
  clear_value x7
  have k19 : Keep s₀ (x8) := (updJob_keep k18)
  clear_value x8 x9 x10 x11
  have k20 : Keep s₀ (x12) := (putAccs_keep k19)
  clear_value x12
  have k21 : Keep s₀ (x13) := (updJob_keep k20)
  clear_value x13
  have k22 : Keep s₀ (x14) := (classify_keep k21)
  clear_value x14
  split
  · rename_i w23 w24 w25
    exact (classify_keep (joinLadder_keep k19))
  · rename_i w26 w27
    refine keep_ite ?_ ?_
    · exact (afterRow_keep (classify_keep (voidNow_keep k19)))
    · split
      · rename_i w28 w29
        exact h
      · rename_i w30 w31 w32
        have k33 : Keep s₀ w31 := (tryCommit_keep k22) _ w32
        exact (afterRow_keep k33)

theorem drainRow_keep {s₀ s : State} {v : Nat} {j : Job} {x : NtSt} {a row : Nat} {flt : RowFault} (h : Keep s₀ s) :
    Keep s₀ (drainRow s v j x a row flt) := by
  unfold drainRow
  extract_lets t again
  have hagain : ∀ u k, Keep s₀ u → (∀ u j x, Keep s₀ u → Keep s₀ (k u j x)) → Keep s₀ (again u k) := by
    intro u k hu hk
    unfold again
    split
    · exact hu
    · split
      · exact hu
      · exact hk _ _ _ hu
  clear_value again
  have k1 := closeTile_keep (v := v) (j := j) (t := t) (x := x) h
  split
  · rename_i e; rw [e] at k1; exact k1
  · rename_i e; rw [e] at k1; exact k1
  · rename_i e
    rw [e] at k1
    refine hagain _ _ k1 (fun u j x hu => ?_)
    have k2 : Keep s₀ (if (t.psum && !x.summed) = true then sumAux u v j t x else Went.done u).st := by
      split
      · exact sumAux_keep hu
      · exact hu
    split
    · rename_i e; rw [e] at k2; exact k2
    · rename_i e; rw [e] at k2; exact k2
    · rename_i e
      rw [e] at k2
      refine hagain _ _ k2 (fun u j x hu => ?_)
      extract_lets ns
      have k3 := readNeeds_keep (v := v) (j := j) (ns := ns) (bad := fun s => needsBad s ns) (go := id) hu (fun _ hu => hu)
      split
      · rename_i e; rw [e] at k3; exact k3
      · rename_i e; rw [e] at k3; exact k3
      · rename_i e; rw [e] at k3; exact checkRow_keep k3

theorem execRowDrain_keep {s₀ : State} {array : Fin 4} {row : Nat} {flt : RowFault} {s : State} (h : Keep s₀ s) :
    ∃ t, execRowDrain array row flt s = .next t ∧ Keep s₀ t := by
  unfold execRowDrain
  refine ⟨_, rfl, ?_⟩
  refine keep_ite ?_ ?_
  · exact h
  · split
    · rename_i w1 w2
      split
      · rename_i w3 w4 w5 w6
        exact (keep_ite h (updJob_keep h))
      · rename_i w7 w8
        exact h
    · rename_i w9 w10 w11 w12 w13
      exact (drainRow_keep h)

end Sys2Proof.Machine
end

