-- ==== Sys2Proof/Laws/KeepLinear.lean ====
section
/-! SUPPORT. What the operations of Machine/Linear.lean keep: canonical stores, the queue, outputs only added. -/

namespace Sys2Proof.Machine

theorem linearDup_keep {s₀ s : State} {v : Nat} {j : Job} (h : Keep s₀ s) :
    Keep s₀ (linearDup s v j).1 := by
  unfold linearDup
  extract_lets x1 x2 x3 x4 x5 x6
  clear_value x1
  have k7 : Keep s₀ (x2).2 := (arrayHit_keep h)
  clear_value x2 x3
  have k8 : Keep s₀ (x4) := (updJob_keep k7)
  clear_value x4 x5 x6
  split
  · rename_i w9
    exact k8
  · rename_i w10
    split
    · rename_i w11
      dsimp only
      exact (endJob_keep (recordErr_keep k8))
    · rename_i w12
      dsimp only
      exact (addCond_keep (updJob_keep (recordErr_keep k8)))

theorem updError_keep {s₀ s : State} {inj : Bool} (h : Keep s₀ s) :
    Keep s₀ (updError s inj) := by
  unfold updError
  extract_lets x1 x2 x3 x4
  have k5 : Keep s₀ (x1) := (setFlag_keep (keep_same (s := s) rfl rfl rfl rfl rfl rfl rfl h))
  clear_value x1 x2 x3
  have k6 : Keep s₀ (x4) := by
    unfold x4
    split
    · rename_i w7 w8
      exact (recordErr_keep k5)
    · rename_i w9 w10 w11 w12
      exact (recordErr_keep k5)
  clear_value x4
  exact (keep_foldl k6 (fun u13 x14 hu15 => (endJob_keep hu15)))

theorem execUpdErr_keep {s₀ s : State} (h : Keep s₀ s) :
    ∃ t, execUpdErr s = .next t ∧ Keep s₀ t := by
  unfold execUpdErr
  exact ⟨_, rfl, (keep_ite (updError_keep h) h)⟩

theorem execUpdCreditGrant_keep {s₀ : State} {n : Nat} {s : State} (h : Keep s₀ s) :
    ∃ t, execUpdCreditGrant n s = .next t ∧ Keep s₀ t := by
  unfold execUpdCreditGrant
  extract_lets x1 x2 x3 x4 x5
  have k6 : Keep s₀ (x1).2 := (flint_keep h)
  clear_value x1 x2
  have k7 : Keep s₀ (x3) := k6
  clear_value x3 x4
  have k8 : Keep s₀ (x5) := (setFld_keep k7)
  clear_value x5
  split
  · rename_i w9
    exact ⟨_, rfl, h⟩
  · rename_i w10
    split
    · rename_i w11
      exact ⟨_, rfl, (updError_keep k7)⟩
    · rename_i w12
      exact ⟨_, rfl, (keep_ite (setFlag_keep k8) k8)⟩

theorem measureLinear_keep {s₀ s : State} {st : Nat} {f : Fmt} {p : Nat} {cs : List Nat} (h : Keep s₀ s) :
    Keep s₀ (measureLinear s st f p cs) := by
  unfold measureLinear
  exact (keep_foldl h (fun u1 x2 hu3 => (measure_keep hu3)))

theorem ewMeasure_keep {s₀ s : State} {j : Job} {e : EwF} {p : Nat} {n : Nat} (h : Keep s₀ s) :
    Keep s₀ (ewMeasure s j e p n) := by
  unfold ewMeasure
  extract_lets x1 x2
  have k3 : ∀ y1 y2 y3 y4, Keep s₀ y1 → Keep s₀ (x1 y1 y2 y3 y4) := by
    intro y1 y2 y3 y4 h0_4
    unfold x1
    split
    · rename_i w5 w6 w7 w8
      exact (measureLinear_keep h0_4)
  clear_value x1
  have k9 : Keep s₀ (x2) := (k3 _ _ _ _ h)
  clear_value x2
  exact (keep_ite (k3 _ _ _ _ k9) k9)

theorem ewUnit_keep {s₀ s : State} {v : Nat} {j : Job} {e : EwF} {n : Nat} (h : Keep s₀ s) :
    Keep s₀ (ewUnit s v j e n) := by
  unfold ewUnit
  extract_lets x1 x2 x3 x4 x5
  clear_value x1 x2 x3 x4 x5
  split
  · rename_i w6 w7 w8 w9
    extract_lets x10 x11 x12
    have k13 : Keep s₀ (x10) := (touchNeeds_keep h)
    clear_value x10
    have k14 : Keep s₀ (x11) := (ewMeasure_keep k13)
    clear_value x11 x12
    split
    · rename_i w15 w16 w17 w18
      split
      · rename_i w19 w20 w21 w22
        extract_lets x23 x24 x25 x26 x27 x28 x29 x30 x31 x32 x33
        clear_value x23 x24 x25 x26 x27 x28
        have k34 : Keep s₀ (x29) := (setFlags_keep k14)
        clear_value x29 x30
        have k35 : Keep s₀ (x31) := (trapNans_keep k34)
        clear_value x31
        have k36 : Keep s₀ (x32) := (keep_ite (addCond_keep (coldUnit_keep k35)) k35)
        clear_value x32
        have k37 : Keep s₀ (x33) := by
          unfold x33
          refine keep_ite ?_ ?_
          · exact (setFlags_keep k14)
          · split
            · rename_i w38 w39
              exact k36
            · rename_i w40 w41 w42 w43
              extract_lets x44
              have k45 : Keep s₀ (x44) := (writeRange_keep k36)
              clear_value x44
              exact (keep_foldl k45 (fun u46 x47 hu48 => (writeRange_keep hu48)))
        clear_value x33
        exact (keep_ite (poisonJob_keep k13) (updJob_keep k37))

theorem pumpEw_keep {s₀ : State} {a1 : Nat} {s : State} {a3 : Nat} {a4 : Nat} (h : Keep s₀ s) :
    Keep s₀ (pumpEw a1 s a3 a4) := by
  induction a1 generalizing s a3 a4
  · unfold pumpEw
    exact h
  · rename_i n1 ih2; unfold pumpEw
    split
    · rename_i w3 w4
      exact h
    · rename_i w5 w6 w7
      extract_lets x8 x9 x10 x11 x12 x13 x14 x15 x16
      clear_value x8
      have k17 : Keep s₀ (x9) := (extend_keep h)
      clear_value x9
      have k18 : Keep s₀ (x10) := (keep_ite h (keep_ite k17 (extend_keep k17)))
      clear_value x10 x11 x12
      have k19 : Keep s₀ (x13) := (wakeAll_keep k18)
      clear_value x13
      have k20 : Keep s₀ (x14).1 := (linearDup_keep k19)
      clear_value x14
      have k21 : Keep s₀ (x15) := k20
      clear_value x15 x16
      refine keep_ite ?_ ?_
      · exact h
      · refine keep_ite ?_ ?_
        · exact (finJob_keep h)
        · refine keep_ite ?_ ?_
          · exact (tryYield_keep h)
          · split
            · rename_i w22 w23
              exact (starve_keep k18)
            · rename_i w24 w25 w26
              exact (keep_ite k19 (keep_ite k21 (ih2 (keep_foldl (ewUnit_keep (fed_keep k21)) (fun u27 x28 hu29 => (extend_keep hu29))))))

theorem pumpJob_keep {s₀ s : State} {v : Nat} {j : Job} (h : Keep s₀ s) :
    Keep s₀ (pumpJob s v j) := by
  unfold pumpJob
  exact (keep_ite (pumpEw_keep h) h)

theorem pumpAll_keep {s₀ s : State} (h : Keep s₀ s) :
    Keep s₀ (pumpAll s) := by
  unfold pumpAll
  exact (keep_foldl h (fun u1 x2 hu3 => (pumpJob_keep hu3)))

theorem execCommandComplete_keep {s₀ : State} {v : Fin 16} {seq : W32} {s : State} (h : Keep s₀ s) :
    ∃ t, execCommandComplete v seq s = .next t ∧ Keep s₀ t := by
  unfold execCommandComplete
  refine ⟨_, rfl, ?_⟩
  split
  · rename_i w1 w2
    exact h
  · rename_i w3 w4 w5
    extract_lets x6
    have k7 : Keep s₀ (x6) := (keep_ite (calEnd_keep h) (pumpJob_keep h))
    clear_value x6
    split
    · rename_i w8 w9 w10
      exact (keep_ite (closeJob_keep k7) k7)
    · rename_i w11 w12
      exact k7

theorem atHeadElemwise_keep {s₀ : State} {v : Fin 16} {pick : Fin 4} {s : State} (h : Keep s₀ s) :
    ∃ t, atHeadElemwise v pick s = .next t ∧ Keep s₀ t := by
  unfold atHeadElemwise
  refine ⟨_, rfl, ?_⟩
  refine issueWith_keep ?_ ?_
  · exact h
  · intro u1 u2 u3 h4
    extract_lets x5 x6 x7 x8 x9 x10 x11
    clear_value x5 x6 x7 x8 x9 x10 x11
    refine claimThen_keep ?_ ?_
    · exact h4
    · intro u12 u13 h14
      extract_lets x15 x16 x17 x18 x19 x20 x21 x22 x23 x24 x25
      have k26 : Keep s₀ (x15) := (startIssue_keep h14)
      clear_value x15 x16
      have k27 : Keep s₀ (x17) := (updJob_keep k26)
      clear_value x17
      have k28 : Keep s₀ (x18) := (reserve_keep k27)
      clear_value x18
      have k29 : Keep s₀ (x19) := (reserve_keep k28)
      clear_value x19
      have k30 : Keep s₀ (x20) := (keep_ite (reserve_keep (reserve_keep k29)) k29)
      clear_value x20
      have k31 : Keep s₀ (x21) := (reserve_keep k30)
      clear_value x21
      have k32 : Keep s₀ (x22) := (reserve_keep k31)
      clear_value x22 x23
      have k33 : Keep s₀ (x24) := by
        unfold x24
        refine keep_ite ?_ ?_
        · exact k30
        · split
          · rename_i w34 w35 w36
            extract_lets x37
            clear_value x37
            exact (setVein_keep k32)
          · rename_i w38 w39
            exact k32
      clear_value x24
      have k40 : Keep s₀ (x25) := by
        unfold x25
        split
        · rename_i w41 w42 w43
          extract_lets x44
          clear_value x44
          exact (pumpJob_keep (updJob_keep k33))
        · rename_i w45 w46
          exact k33
      clear_value x25
      exact (afterIssue_keep (refreshVein_keep k40))

theorem sendBeats_keep {s₀ s : State} {v : Nat} {j : Job} {bytes : List Byte} {last : Bool} {n : Nat} (h : Keep s₀ s) :
    Keep s₀ (sendBeats s v j bytes last n) := by
  unfold sendBeats
  extract_lets x1 x2 x3 x4 x5 x6 x7 x8 x9
  clear_value x1 x2 x3
  have k10 : Keep s₀ (x4) := (setFld_keep h)
  clear_value x4
  have k11 : Keep s₀ (x5) := (emits_keep k10)
  clear_value x5
  have k12 : Keep s₀ (x6) := (incFld_keep k11)
  clear_value x6 x7
  have k13 : Keep s₀ (x8) := (updJob_keep k12)
  clear_value x8
  have k14 : Keep s₀ (x9) := (extend_keep k13)
  clear_value x9
  refine keep_ite ?_ ?_
  · exact (updJob_keep k11)
  · split
    · rename_i w15 w16 w17
      exact (tryYield_keep k14)
    · rename_i w18 w19
      exact k14

theorem gradCommit_keep {s₀ s : State} {v : Nat} {j : Job} {g : GradF} {first : Nat} {cs : List Nat} {els : List
    (Option Nat × OutEl)} (h : Keep s₀ s) :
    Keep s₀ (gradCommit s v j g first cs els) := by
  unfold gradCommit
  extract_lets x1 x2 x3 x4 x5
  clear_value x1
  have k6 : Keep s₀ (x2) := (measureLinear_keep h)
  clear_value x2 x3
  have k7 : Keep s₀ (x4) := (setFlags_keep k6)
  clear_value x4 x5
  exact (trapNans_keep k7)

theorem gradSend_keep {s₀ s : State} {v : Nat} {j : Job} (h : Keep s₀ s) :
    Keep s₀ (gradSend s v j) := by
  unfold gradSend
  extract_lets x1 x2 x3 x4 x5 x6 x7 x8 x9 x10 x11 x12 x13 x14
  clear_value x1 x2 x3 x4
  have k15 : Keep s₀ (x5) := (touchNeeds_keep h)
  clear_value x5 x6 x7
  have k16 : Keep s₀ (x8) := (incFld_keep (measureLinear_keep (fed_keep k15)))
  clear_value x8 x9
  have k17 : Keep s₀ (x10).1 := (linearDup_keep k15)
  clear_value x10
  have k18 : Keep s₀ (x11) := k17
  clear_value x11 x12 x13
  have k19 : Keep s₀ (x14) := (gradCommit_keep (fed_keep k18))
  clear_value x14
  exact (keep_ite (sendBeats_keep h) (keep_ite (sendBeats_keep h) (keep_ite (starve_keep h) (keep_ite (poisonJob_keep k15) (keep_ite (updJob_keep k16) (keep_ite k15 (keep_ite (sendBeats_keep k16) (keep_ite k18 (sendBeats_keep k19)))))))))

theorem execGradRecordSend_keep {s₀ : State} {v : Fin 16} {s : State} (h : Keep s₀ s) :
    ∃ t, execGradRecordSend v s = .next t ∧ Keep s₀ t := by
  unfold execGradRecordSend
  refine ⟨_, rfl, ?_⟩
  split
  · rename_i w1 w2
    exact h
  · rename_i w3 w4 w5
    extract_lets x6
    have k7 : Keep s₀ (x6) := (wakeAll_keep h)
    clear_value x6
    exact (keep_ite (endJob_keep h) (keep_ite (tryYield_keep h) (keep_ite h (keep_ite k7 (gradSend_keep k7)))))

theorem atHeadGradEmit_keep {s₀ : State} {v : Fin 16} {pick : Fin 4} {s : State} (h : Keep s₀ s) :
    ∃ t, atHeadGradEmit v pick s = .next t ∧ Keep s₀ t := by
  unfold atHeadGradEmit
  refine ⟨_, rfl, ?_⟩
  refine issueWith_keep ?_ ?_
  · exact h
  · intro u1 u2 u3 h4
    extract_lets x5 x6 x7 x8
    clear_value x5 x6 x7 x8
    refine claimThen_keep ?_ ?_
    · exact h4
    · intro u9 u10 h11
      extract_lets x12 x13 x14 x15 x16
      clear_value x12
      have k17 : Keep s₀ (x13) := (startIssue_keep h11)
      clear_value x13
      have k18 : Keep s₀ (x14) := (updJob_keep k17)
      clear_value x14
      have k19 : Keep s₀ (x15) := (reserve_keep k18)
      clear_value x15
      have k20 : Keep s₀ (x16) := (keep_ite (frozenSkip_keep k18) (keep_ite (staleCond_keep k18) (updJob_keep k19)))
      clear_value x16
      refine keep_ite ?_ ?_
      · refine issueNow_keep ?_ ?_
        · exact h11
        · intro u21 h22
          exact (frozenSkip_keep h22)
      · exact (afterIssue_keep (refreshVein_keep k20))

end Sys2Proof.Machine
end

