-- ==== Sys2Proof/Laws/KeepStreamEv.lean ====
section
/-! SUPPORT. What the operations of Machine/StreamEv.lean keep: canonical stores, the queue, outputs only added. -/

namespace Sys2Proof.Machine

theorem poisonHalt_keep {s₀ s : State} {i : Nat} (h : Keep s₀ s) :
    Keep s₀ (poisonHalt s i) := by
  unfold poisonHalt
  exact (haltStream_keep h)

theorem execMcCreditGrant_keep {s₀ : State} {group : Fin 64} {s : State} (h : Keep s₀ s) :
    ∃ t, execMcCreditGrant group s = .next t ∧ Keep s₀ t := by
  unfold execMcCreditGrant
  refine ⟨_, rfl, ?_⟩
  extract_lets x1 x2 x3 x4 x5
  clear_value x1 x2 x3 x4 x5
  exact (keep_ite h (sendMccred_keep (setMcg_keep h)))

theorem dropTag_keep {s₀ s : State} {p : Nat} {a3 : Nat} (h : Keep s₀ s) :
    Keep s₀ (dropTag s p a3) := by
  unfold dropTag
  exact (keep_same (s := s) rfl rfl rfl rfl rfl rfl rfl h)

theorem repeatWhile_keep {s₀ s : State} {f : State → State × Bool} {n : Nat}
    (hf : ∀ u, Keep s₀ u → Keep s₀ (f u).1) (h : Keep s₀ s) : Keep s₀ (repeatWhile f n s) := by
  induction n generalizing s with
  | zero => exact h
  | succ k ih =>
    have hs := hf s h
    unfold repeatWhile
    split
    · rename_i e; rw [e] at hs; exact ih hs
    · rename_i e; rw [e] at hs; exact hs

theorem noteWrite_keep {s₀ s : State} {i : Nat} {l : Nat} {a4 : RoutedHdr} {p : Nat} (h : Keep s₀ s) :
    Keep s₀ (noteWrite s i l a4 p) := by
  unfold noteWrite
  exact (keep_same (s := s) rfl rfl rfl rfl rfl rfl rfl h)

theorem passOver_keep {s₀ s : State} {i : Nat} {n : Nat} (h : Keep s₀ s) :
    Keep s₀ (passOver s i n) := by
  unfold passOver
  extract_lets x1 x2
  clear_value x1 x2
  exact (checkEnd_keep (setStrm_keep h))

theorem refetchOne_keep {s₀ : State} {i : Nat} {s : State} (h : Keep s₀ s) :
    Keep s₀ (refetchOne i s).1 := by
  unfold refetchOne
  extract_lets x1 x2 x3 x4
  clear_value x1 x2 x3 x4
  split
  · rename_i w5 w6 w7 w8 w9 w10 w11
    extract_lets x12
    clear_value x12
    split
    · rename_i w13 w14 w15 w16 w17 w18
      extract_lets x19 x20 x21
      clear_value x19 x20
      have k22 : Keep s₀ (x21) := (emit_keep h)
      clear_value x21
      dsimp only
      exact (setStrm_keep k22)
    · rename_i w23 w24 w25
      exact h
  · rename_i w26 w27 w28
    exact h

theorem execMcStall_keep {s₀ : State} {group : Fin 64} {blocker : Nat} {s : State} (h : Keep s₀ s) :
    ∃ t, execMcStall group blocker s = .next t ∧ Keep s₀ t := by
  unfold execMcStall
  refine ⟨_, rfl, ?_⟩
  extract_lets x1 x2 x3
  clear_value x1 x2 x3
  exact (keep_ite (notice_keep (setFld_keep (setFlag_keep h))) h)

theorem badMsg_keep {s₀ s : State} {l : Nat} {inj : Bool} (h : Keep s₀ s) :
    Keep s₀ (badMsg s l inj) := by
  unfold badMsg
  extract_lets x1 x2 x3
  have k4 : Keep s₀ (x1) := (incFld_keep h)
  clear_value x1
  have k5 : Keep s₀ (x2) := (setFlag_keep k4)
  clear_value x2 x3
  exact (recordErr_keep k5)

theorem onChannel_keep {s₀ s : State} {l : Nat} {vc : Nat} {go : State → State} (h : Keep s₀ s)
    (hgo : ∀ b1, Keep s₀ b1 → Keep s₀ (go b1)) :
    Keep s₀ (onChannel s l vc go) := by
  unfold onChannel
  exact (keep_ite h (keep_ite (badMsg_keep h) (hgo _ h)))

theorem fenceAll_keep {s₀ s : State} (h : Keep s₀ s) :
    Keep s₀ (fenceAll s) := by
  unfold fenceAll
  exact (keep_foldl h (fun u1 x2 hu3 => (fenceVein_keep hu3)))

theorem turnFill_keep {s₀ s : State} {i : Nat} (h : Keep s₀ s) :
    Keep s₀ (turnFill s i) := by
  unfold turnFill
  split
  · rename_i w1 w2 w3 w4
    exact (turnIn_keep (keep_ite h (touchStream_keep h)))

theorem onLink_keep {s₀ s : State} {l : Nat} {vc : Nat} {a4 : Nat} {go : State → State} (h : Keep s₀ s)
    (hgo : ∀ b1, Keep s₀ b1 → Keep s₀ (go b1)) :
    Keep s₀ (onLink s l vc a4 go) := by
  unfold onLink
  refine onChannel_keep ?_ ?_
  · exact h
  · intro u1 h2
    exact (hgo _ (drainMsg_keep h2))

theorem land_keep {s₀ s : State} {i : Nat} {p : Nat} {bs : List Byte} {lines : List Nat} (h : Keep s₀ s) :
    Keep s₀ (land s i p bs lines) := by
  unfold land
  extract_lets x1 x2 x3 x4 x5
  clear_value x1
  have k6 : Keep s₀ (x2) := (putAt_keep h)
  clear_value x2 x3
  have k7 : Keep s₀ (x4) := (setStrm_keep k6)
  clear_value x4 x5
  refine keep_ite ?_ ?_
  · refine keep_ite ?_ ?_
    · exact k7
    · refine keep_foldl ?_ (fun u8 x9 hu10 => ?_)
      · exact k7
      · refine keep_ite ?_ ?_
        · split
          · rename_i w11 w12 w13
            exact (poisonAt_keep hu10)
          · rename_i w14 w15
            exact hu10
        · exact hu10
  · exact (turnOut_keep (setStrm_keep h))

theorem placeQueue_keep {s₀ : State} {a1 : Nat} {s : State} {a3 : Nat} (h : Keep s₀ s) :
    Keep s₀ (placeQueue a1 s a3) := by
  induction a1 generalizing s a3
  · unfold placeQueue
    exact h
  · rename_i n1 ih2; unfold placeQueue
    extract_lets x3
    clear_value x3
    split
    · rename_i w4 w5
      exact h
    · rename_i w6 w7 w8
      extract_lets x9 x10 x11 x12 x13 x14 x15
      have k16 : Keep s₀ (x9) := (extend_keep h)
      clear_value x9 x10 x11
      have k17 : Keep s₀ (x12) := (setMcg_keep k16)
      clear_value x12
      have k18 : Keep s₀ (x13) := (land_keep k17)
      clear_value x13 x14
      have k19 : Keep s₀ (x15) := (setStrm_keep k18)
      clear_value x15
      exact (keep_ite k16 (ih2 (extend_keep (checkEnd_keep (countBytes_keep k19)))))

theorem touchOut_keep {s₀ s : State} {i : Nat} {n : Nat} (h : Keep s₀ s) :
    Keep s₀ (touchOut s i n) := by
  unfold touchOut
  exact (keep_ite h (touchStream_keep h))

theorem askedMore_keep {s₀ s : State} {i : Nat} {n : Nat} {r : Req} (h : Keep s₀ s) :
    Keep s₀ (askedMore s i n r) := by
  unfold askedMore
  extract_lets x1
  clear_value x1
  exact (setStrm_keep h)

theorem sendDeepOne_keep {s₀ : State} {i : Nat} {limit : Nat} {s : State} (h : Keep s₀ s) :
    Keep s₀ (sendDeepOne i limit s).1 := by
  unfold sendDeepOne
  extract_lets x1 x2
  clear_value x1 x2
  split
  · rename_i w3 w4
    exact h
  · rename_i w5 w6 w7
    extract_lets x8 x9 x10
    clear_value x8
    have k11 : Keep s₀ (x9) := (touchOut_keep h)
    clear_value x9 x10
    split
    · rename_i w12 w13
      exact h
    · rename_i w14 w15 w16
      extract_lets x17
      have k18 : Keep s₀ (x17) := (emit_keep k11)
      clear_value x17
      split
      · rename_i w19
        exact h
      · rename_i w20
        split
        · rename_i w21
          dsimp only
          exact (poisonHalt_keep k11)
        · rename_i w22
          dsimp only
          exact (countBytes_keep (askedMore_keep k18))

theorem evacAnswered_keep {s₀ s : State} {p : Nat} {a3 : Nat} {err : Bool} (h : Keep s₀ s) :
    Keep s₀ (evacAnswered s p a3 err) := by
  unfold evacAnswered
  extract_lets x1 x2 x3 x4 x5 x6 x7
  clear_value x1 x2 x3
  have k8 : Keep s₀ (x4) := (recordErr_keep h)
  clear_value x4 x5
  have k9 : Keep s₀ (x6) := (fenceAll_keep (keep_same (s := x4) rfl rfl rfl rfl rfl rfl rfl k8))
  clear_value x6
  have k10 : Keep s₀ (x7) := (keep_same (s := s) rfl rfl rfl rfl rfl rfl rfl h)
  clear_value x7
  exact (keep_ite (setFld_keep (setFld_keep k9)) (keep_ite (notice_keep (setFld_keep (fenceAll_keep k10))) k10))

theorem sendRemoteOne_keep {s₀ : State} {i : Nat} {limit : Nat} {s : State} (h : Keep s₀ s) :
    Keep s₀ (sendRemoteOne i limit s).1 := by
  unfold sendRemoteOne
  extract_lets x1 x2 x3 x4 x5 x6 x7 x8 x9 x10 x11 x12 x13 x14 x15
  clear_value x1 x2 x3 x4 x5 x6
  have k16 : Keep s₀ (x7) := (touchOut_keep h)
  clear_value x7 x8 x9 x10 x11
  have k17 : Keep s₀ (x12) := (micaWrite_keep k16)
  clear_value x12 x13
  have k18 : Keep s₀ (x14) := (setStrm_keep k17)
  clear_value x14
  have k19 : Keep s₀ (x15) := (keep_same (s := x7) rfl rfl rfl rfl rfl rfl rfl k16)
  clear_value x15
  split
  · rename_i w20
    exact h
  · rename_i w21
    split
    · rename_i w22
      dsimp only
      exact (poisonHalt_keep k16)
    · rename_i w23
      split
      · rename_i w24
        split
        · rename_i w25
          dsimp only
          exact (countBytes_keep k18)
        · rename_i w26
          dsimp only
          exact (haltStream_keep k16)
      · rename_i w27
        split
        · rename_i w28
          dsimp only
          exact (haltStream_keep k16)
        · rename_i w29
          dsimp only
          exact (countBytes_keep (askedMore_keep k19))
        · rename_i w30 w31
          extract_lets x32 x33
          have k34 : Keep s₀ (x32) := (sendRouted_keep k16)
          clear_value x32
          have k35 : Keep s₀ (x33) := (noteWrite_keep k34)
          clear_value x33
          dsimp only
          exact (countBytes_keep (askedMore_keep k35))

theorem sendRemote_keep {s₀ : State} {k : Nat} {s : State} {i : Nat} {limit : Nat} (h : Keep s₀ s) :
    Keep s₀ (sendRemote k s i limit) := by
  unfold sendRemote
  refine repeatWhile_keep ?_ ?_
  · intro u1 h2
    exact (sendRemoteOne_keep h2)
  · exact h

theorem dropTransit_keep {s₀ s : State} {r : Routed} {inj : Bool} (h : Keep s₀ s) :
    Keep s₀ (dropTransit s r inj) := by
  unfold dropTransit
  extract_lets x1 x2 x3
  have k4 : Keep s₀ (x1) := (incFld_keep h)
  clear_value x1
  have k5 : Keep s₀ (x2) := by
    unfold x2
    split
    · rename_i w6 w7 w8
      exact (keep_ite (setFlag_keep k4) k4)
    · rename_i w9 w10
      exact k4
  clear_value x2 x3
  exact (recordErr_keep k5)

theorem ackPos_keep {s₀ s : State} {i : Nat} {p : Nat} (h : Keep s₀ s) :
    Keep s₀ (ackPos s i p) := by
  unfold ackPos
  extract_lets x1
  clear_value x1
  exact (extend_keep (checkEnd_keep (setStrm_keep h)))

theorem execRoutedForward_keep {s₀ : State} {index : Nat} {s : State} (h : Keep s₀ s) :
    ∃ t, execRoutedForward index s = .next t ∧ Keep s₀ t := by
  unfold execRoutedForward
  refine ⟨_, rfl, ?_⟩
  extract_lets x1
  have k2 : Keep s₀ (x1) := (keep_same (s := s) rfl rfl rfl rfl rfl rfl rfl h)
  clear_value x1
  split
  · rename_i w3 w4
    exact h
  · rename_i w5 w6 w7
    split
    · rename_i w8 w9
      exact h
    · rename_i w10 w11 w12
      extract_lets x13
      have k14 : Keep s₀ (x13) := (sendRouted_keep (releaseMsg_keep k2))
      clear_value x13
      split
      · rename_i w15 w16 w17 w18 w19
        exact (completeJob_keep k14)
      · rename_i w20 w21 w22 w23 w24
        extract_lets x25
        clear_value x25
        split
        · rename_i w26 w27 w28
          exact (noteWrite_keep (setStrm_keep k14))
        · rename_i w29 w30
          exact k14
      · rename_i w31 w32 w33 w34
        exact k14
    · rename_i w35 w36
      split
      · rename_i w37 w38 w39 w40 w41
        exact (completeJob_keep (addCond_keep k2))
      · rename_i w42 w43 w44 w45 w46
        exact (haltStream_keep k2)
      · rename_i w47 w48 w49 w50
        exact (dropTransit_keep (releaseMsg_keep k2))

theorem deepErr_keep {s₀ s : State} {i : Nat} {inj : Bool} (h : Keep s₀ s) :
    Keep s₀ (deepErr s i inj) := by
  unfold deepErr
  extract_lets x1 x2
  clear_value x1
  have k3 : Keep s₀ (x2) := (recordErr_keep h)
  clear_value x2
  exact (haltStream_keep k3)

theorem execDeepWriteResponse_keep {s₀ : State} {port : Fin 4} {tag : Nat} {err : Bool} {s : State} (h : Keep s₀ s) :
    ∃ t, execDeepWriteResponse port tag err s = .next t ∧ Keep s₀ t := by
  unfold execDeepWriteResponse
  refine ⟨_, rfl, ?_⟩
  extract_lets x1
  clear_value x1
  refine keep_ite ?_ ?_
  · exact (evacAnswered_keep h)
  · split
    · rename_i w2 w3
      exact (dropTag_keep h)
    · rename_i w4 w5 w6 w7
      extract_lets x8 x9 x10 x11 x12
      clear_value x8
      have k13 : Keep s₀ (x9).2 := (flint_keep h)
      clear_value x9 x10
      have k14 : Keep s₀ (x11) := k13
      clear_value x11 x12
      exact (keep_ite (deepErr_keep (setStrm_keep k14)) (pumpAll_keep (ackPos_keep k14)))

theorem execDeepReadResponse_keep {s₀ : State} {port : Fin 4} {tag : Nat} {rsp : DeepRead} {s : State} (h : Keep s₀ s) :
    ∃ t, execDeepReadResponse port tag rsp s = .next t ∧ Keep s₀ t := by
  unfold execDeepReadResponse
  refine ⟨_, rfl, ?_⟩
  split
  · rename_i w1 w2
    exact (dropTag_keep h)
  · rename_i w3 w4 w5 w6
    extract_lets x7 x8 x9 x10 x11 x12 x13
    clear_value x7 x8
    have k14 : Keep s₀ (x9).2 := (flint_keep h)
    clear_value x9 x10
    have k15 : Keep s₀ (x11) := k14
    clear_value x11 x12
    have k16 : Keep s₀ (x13) := (setStrm_keep k15)
    clear_value x13
    split
    · rename_i w17
      exact (deepErr_keep (setStrm_keep h))
    · rename_i w18 w19 w20
      extract_lets x21
      have k22 : Keep s₀ (x21) := (land_keep k16)
      clear_value x21
      exact (keep_ite h (keep_ite (deepErr_keep k16) (pumpAll_keep (extend_keep (checkEnd_keep (countBytes_keep k22))))))

theorem mcOnLink_keep {s₀ s : State} {l : Nat} {a3 : McHdr} {bs : List Byte} (h : Keep s₀ s) :
    Keep s₀ (mcOnLink s l a3 bs) := by
  unfold mcOnLink
  extract_lets x1 x2
  clear_value x1 x2
  exact (keep_foldl h (fun u3 x4 hu5 => (sendMcdata_keep hu5)))

theorem mcAck_keep {s₀ s : State} {g : Nat} (h : Keep s₀ s) :
    Keep s₀ (mcAck s g) := by
  unfold mcAck
  extract_lets x1
  clear_value x1
  refine keep_ite ?_ ?_
  · refine keep_foldl ?_ (fun u2 x3 hu4 => ?_)
    · exact h
    · extract_lets x5 x6
      clear_value x5 x6
      exact (keep_ite (extend_keep (checkEnd_keep (setStrm_keep hu4))) hu4)
  · exact h

theorem mcSentMore_keep {s₀ s : State} {g : Nat} {i : Nat} {n : Nat} (h : Keep s₀ s) :
    Keep s₀ (mcSentMore s g i n) := by
  unfold mcSentMore
  extract_lets x1 x2 x3 x4 x5 x6
  clear_value x1 x2 x3
  have k7 : Keep s₀ (x4) := (keep_ite (setStrm_keep h) (countBytes_keep (setStrm_keep h)))
  clear_value x4 x5
  have k8 : Keep s₀ (x6) := (keep_ite (mcAck_keep (setMcg_keep k7)) (setMcg_keep k7))
  clear_value x6
  exact (extend_keep (checkEnd_keep k8))

theorem execMcParcelSend_keep {s₀ : State} {group : Fin 64} {s : State} (h : Keep s₀ s) :
    ∃ t, execMcParcelSend group s = .next t ∧ Keep s₀ t := by
  unfold execMcParcelSend
  refine ⟨_, rfl, ?_⟩
  extract_lets x1 x2 x3
  clear_value x1 x2 x3
  split
  · rename_i w4 w5
    exact h
  · rename_i w6 w7 w8
    extract_lets x9 x10 x11 x12 x13 x14 x15
    clear_value x9 x10 x11 x12
    have k16 : Keep s₀ (x13) := (keep_ite h (touchStream_keep h))
    clear_value x13 x14
    have k17 : Keep s₀ (x15) := (setMcg_keep k16)
    clear_value x15
    refine keep_ite ?_ ?_
    · exact h
    · split
      · rename_i w18 w19 w20 w21
        extract_lets x22 x23
        clear_value x22 x23
        exact (keep_ite k16 (keep_ite (poisonHalt_keep k16) (mcSentMore_keep (keep_foldl k17 (fun u24 x25 hu26 => (mcOnLink_keep hu26))))))

theorem execMccred_keep {s₀ : State} {l : Fin 6} {group : Fin 64} {sq : Nat} {parcel : Nat} {s : State}
    (h : Keep s₀ s) :
    ∃ t, execMccred l group sq parcel s = .next t ∧ Keep s₀ t := by
  unfold execMccred
  refine ⟨_, rfl, ?_⟩
  extract_lets x1
  clear_value x1
  refine onLink_keep ?_ ?_
  · exact h
  · intro u2 h3
    extract_lets x4 x5 x6
    clear_value x4
    have k7 : Keep s₀ (x5) := (setMcg_keep h3)
    clear_value x5
    have k8 : Keep s₀ (x6) := (setFlag_keep k7)
    clear_value x6
    exact (keep_ite h3 (keep_ite (mcAck_keep k8) k8))

theorem sendDeep_keep {s₀ : State} {k : Nat} {s : State} {i : Nat} {limit : Nat} (h : Keep s₀ s) :
    Keep s₀ (sendDeep k s i limit) := by
  unfold sendDeep
  refine repeatWhile_keep ?_ ?_
  · intro u1 h2
    exact (sendDeepOne_keep h2)
  · exact h

theorem forwardMsg_keep {s₀ s : State} {r : Routed} (h : Keep s₀ s) :
    Keep s₀ (forwardMsg s r) := by
  unfold forwardMsg
  split
  · rename_i w1 w2 w3 w4
    have k5 : Keep s₀ w3 := keep_snd w4 (by
        split
        · rename_i w6 w7 w8
          extract_lets x9
          clear_value x9
          exact (flint_keep h)
        · rename_i w10 w11
          exact h
      )
    refine keep_ite ?_ ?_
    · exact (dropTransit_keep (releaseMsg_keep k5))
    · split
      · rename_i w12 w13 w14
        exact (sendRouted_keep (releaseMsg_keep k5))
      · rename_i w15 w16
        exact (keep_same (s := w3) rfl rfl rfl rfl rfl rfl rfl k5)
      · rename_i w17 w18
        exact (dropTransit_keep (releaseMsg_keep k5))

theorem replyWrite_keep {s₀ s : State} {kind : Nat} {a3 : RoutedHdr} (h : Keep s₀ s) :
    Keep s₀ (replyWrite s kind a3) := by
  unfold replyWrite
  exact (forwardMsg_keep h)

theorem onRoute_keep {s₀ s : State} {r : Routed} {go : State → State} (h : Keep s₀ s)
    (hgo : ∀ b1, Keep s₀ b1 → Keep s₀ (go b1)) :
    Keep s₀ (onRoute s r go) := by
  unfold onRoute
  refine onChannel_keep ?_ ?_
  · exact h
  · intro u1 h2
    exact (keep_ite (hgo _ (releaseMsg_keep h2)) (forwardMsg_keep h2))

theorem execWack_keep {s₀ : State} {l : Fin 6} {hdr : RoutedHdr} {s : State} (h : Keep s₀ s) :
    ∃ t, execWack l hdr s = .next t ∧ Keep s₀ t := by
  unfold execWack
  refine ⟨_, rfl, ?_⟩
  refine onRoute_keep ?_ ?_
  · exact h
  · intro u1 h2
    split
    · rename_i w3 w4
      exact h2
    · rename_i w5 w6 w7 w8
      extract_lets x9
      have k10 : Keep s₀ (x9) := (keep_same (s := u1) rfl rfl rfl rfl rfl rfl rfl h2)
      clear_value x9
      exact (keep_ite (ackPos_keep k10) k10)

theorem execWnak_keep {s₀ : State} {l : Fin 6} {hdr : RoutedHdr} {s : State} (h : Keep s₀ s) :
    ∃ t, execWnak l hdr s = .next t ∧ Keep s₀ t := by
  unfold execWnak
  refine ⟨_, rfl, ?_⟩
  refine onRoute_keep ?_ ?_
  · exact h
  · intro u1 h2
    split
    · rename_i w3 w4
      exact h2
    · rename_i w5 w6 w7 w8
      extract_lets x9
      have k10 : Keep s₀ (x9) := (keep_same (s := u1) rfl rfl rfl rfl rfl rfl rfl h2)
      clear_value x9
      exact (keep_ite (haltStream_keep k10) k10)

theorem execWrite_keep {s₀ : State} {l : Fin 6} {hdr : RoutedHdr} {bytes : List Byte} {s : State} (h : Keep s₀ s) :
    ∃ t, execWrite l hdr bytes s = .next t ∧ Keep s₀ t := by
  unfold execWrite
  refine ⟨_, rfl, ?_⟩
  refine keep_ite ?_ ?_
  · exact h
  · refine onRoute_keep ?_ ?_
    · exact h
    · intro u1 h2
      exact (keep_ite (replyWrite_keep (micaWrite_keep h2)) (replyWrite_keep h2))

theorem execPost_keep {s₀ : State} {l : Fin 6} {dst : Nat} {src : Nat} {tenant : Nat} {sem : Nat} {value : Nat}
    {s : State} (h : Keep s₀ s) :
    ∃ t, execPost l dst src tenant sem value s = .next t ∧ Keep s₀ t := by
  unfold execPost
  extract_lets x1
  clear_value x1
  refine ⟨_, rfl, ?_⟩
  refine onRoute_keep ?_ ?_
  · exact h
  · intro u2 h3
    exact (semPost_keep h3)

theorem execMcdata_keep {s₀ : State} {l : Fin 6} {a2 : McHdr} {bytes : List Byte} {s : State} (h : Keep s₀ s) :
    ∃ t, execMcdata l a2 bytes s = .next t ∧ Keep s₀ t := by
  unfold execMcdata
  refine ⟨_, rfl, ?_⟩
  extract_lets x1 x2
  clear_value x1 x2
  refine onLink_keep ?_ ?_
  · exact h
  · intro u3 h4
    extract_lets x5 x6 x7
    have k8 : Keep s₀ (x5) := (keep_foldl h4 (fun u9 x10 hu11 => (mcOnLink_keep hu11)))
    clear_value x5 x6 x7
    exact (keep_ite h4 (keep_ite (pumpAll_keep (placeQueue_keep (setMcg_keep k8))) (setMcg_keep k8)))

theorem askOne_keep {s₀ : State} {i : Nat} {limit : Nat} {s : State} (h : Keep s₀ s) :
    Keep s₀ (askOne i limit s).1 := by
  unfold askOne
  extract_lets x1 x2 x3 x4 x5
  clear_value x1 x2 x3 x4 x5
  split
  · rename_i w6 w7 w8
    dsimp only
    exact (passOver_keep h)
  · rename_i w9 w10
    split
    · rename_i w11 w12
      exact h
    · rename_i w13 w14 w15
      extract_lets x16 x17
      clear_value x16 x17
      split
      · rename_i w18 w19
        exact h
      · rename_i w20 w21 w22
        extract_lets x23
        have k24 : Keep s₀ (x23) := (emit_keep h)
        clear_value x23
        split
        · rename_i w25
          exact h
        · rename_i w26
          dsimp only
          exact (askedMore_keep k24)

theorem askReads_keep {s₀ : State} {k : Nat} {s : State} {i : Nat} {limit : Nat} (h : Keep s₀ s) :
    Keep s₀ (askReads k s i limit) := by
  unfold askReads
  refine repeatWhile_keep ?_ ?_
  · intro u1 h2
    exact (askOne_keep h2)
  · exact h

theorem execStreamEngineTransfer_keep {s₀ : State} {stream : Fin 64} {s : State} (h : Keep s₀ s) :
    ∃ t, execStreamEngineTransfer stream s = .next t ∧ Keep s₀ t := by
  unfold execStreamEngineTransfer
  refine ⟨_, rfl, ?_⟩
  extract_lets x1 x2 x3 x4 x5 x6
  clear_value x1
  have k7 : Keep s₀ (x2) := (extend_keep (turnFill_keep h))
  clear_value x2 x3 x4 x5 x6
  refine keep_ite ?_ ?_
  · exact h
  · refine keep_ite ?_ ?_
    · refine repeatWhile_keep ?_ ?_
      · intro u8 h9
        exact (refetchOne_keep h9)
      · exact h
    · refine keep_ite ?_ ?_
      · exact h
      · split
        · rename_i w10 w11
          exact (extend_keep (askReads_keep k7))
        · rename_i w12 w13
          exact (pumpAll_keep (placeQueue_keep k7))
        · rename_i w14 w15
          exact (extend_keep (sendDeep_keep k7))
        · rename_i w16 w17
          exact (keep_ite k7 (extend_keep (checkEnd_keep (sendRemote_keep k7))))
        · rename_i w18 w19 w20 w21 w22
          exact k7

end Sys2Proof.Machine
end

