-- ==== Sys2Proof/Laws/KeepCairnEv.lean ====
section
/-! SUPPORT. What the operations of Machine/CairnEv.lean keep: canonical stores, the queue, outputs only added. -/

namespace Sys2Proof.Machine

theorem execFrameDoneToken_keep {s₀ s : State} (h : Keep s₀ s) :
    ∃ t, execFrameDoneToken s = .next t ∧ Keep s₀ t := by
  unfold execFrameDoneToken
  exact ⟨_, rfl, (keep_ite (sendToken_keep h) h)⟩

theorem execTimeReqFall_keep {s₀ s : State} (h : Keep s₀ s) :
    ∃ t, execTimeReqFall s = .next t ∧ Keep s₀ t := by
  unfold execTimeReqFall
  extract_lets x1 x2
  clear_value x1
  have k3 : Keep s₀ (x2) := (setCrn_keep h)
  clear_value x2
  exact ⟨_, rfl, (keep_ite (emit_keep k3) k3)⟩

theorem takeToken_keep {s₀ s : State} {l : Nat} {blocks : Nat} {late : Bool} {lowest : Nat} (h : Keep s₀ s) :
    Keep s₀ (takeToken s l blocks late lowest) := by
  unfold takeToken
  exact (setCrn_keep h)

theorem closedToken_keep {s₀ s : State} {l : Nat} {f : Nat} {blocks : Nat} {late : Bool} {lowest : Nat}
    (h : Keep s₀ s) :
    Keep s₀ (closedToken s l f blocks late lowest) := by
  unfold closedToken
  split
  · rename_i w1 w2
    exact h
  · rename_i w3 w4 w5
    extract_lets x6 x7
    clear_value x6
    have k8 : Keep s₀ (x7) := (setCrn_keep h)
    clear_value x7
    exact (keep_ite h (keep_ite (sendClosing_keep k8) k8))

theorem execTickIn_keep {s₀ s : State} (h : Keep s₀ s) :
    ∃ t, execTickIn s = .next t ∧ Keep s₀ t := by
  unfold execTickIn
  exact ⟨_, rfl, (keep_ite (fixAnchor_keep h) h)⟩

theorem lockStep_keep {s₀ s : State} {off : Int} (h : Keep s₀ s) :
    Keep s₀ (lockStep s off) := by
  unfold lockStep
  extract_lets x1 x2
  clear_value x1
  have k3 : Keep s₀ (x2) := (setCrn_keep h)
  clear_value x2
  exact (keep_ite (setLock_keep k3) (keep_ite (setCrn_keep (setLock_keep k3)) k3))

theorem loseTicks_keep {s₀ s : State} (h : Keep s₀ s) :
    Keep s₀ (loseTicks s) := by
  unfold loseTicks
  refine keep_foldl ?_ (fun u1 x2 hu3 => ?_)
  · exact h
  · extract_lets x4
    clear_value x4
    split
    · rename_i w5 w6 w7 w8 w9 w10 w11
      exact (keep_ite hu3 (setVein_keep hu3))
    · rename_i w12 w13 w14
      exact (setVein_keep hu3)
    · rename_i w15 w16
      exact (setVein_keep hu3)
    · rename_i w17 w18 w19 w20
      exact hu3

theorem takeGrid_keep {s₀ s : State} {g : Nat} (h : Keep s₀ s) :
    Keep s₀ (takeGrid s g) := by
  unfold takeGrid
  extract_lets x1
  have k2 : Keep s₀ (x1) := (keep_ite h (setCrn_keep (setFld_keep h)))
  clear_value x1
  exact (setCrn_keep (setFld_keep k2))

theorem excludeKid_keep {s₀ s : State} {l : Nat} (h : Keep s₀ s) :
    Keep s₀ (excludeKid s l) := by
  unfold excludeKid
  extract_lets x1 x2 x3 x4
  clear_value x1
  have k5 : Keep s₀ (x2) := (setCrn_keep h)
  clear_value x2
  have k6 : Keep s₀ (x3) := (setFlag_keep k5)
  clear_value x3 x4
  exact (recordErr_keep k6)

theorem execTokenTimeout_keep {s₀ : State} {link : Fin 6} {s : State} (h : Keep s₀ s) :
    ∃ t, execTokenTimeout link s = .next t ∧ Keep s₀ t := by
  unfold execTokenTimeout
  extract_lets x1 x2
  clear_value x1 x2
  exact ⟨_, rfl, (keep_ite (excludeKid_keep h) h)⟩

theorem execSyncSend_keep {s₀ s : State} (h : Keep s₀ s) :
    ∃ t, execSyncSend s = .next t ∧ Keep s₀ t := by
  unfold execSyncSend
  exact ⟨_, rfl, (keep_ite (keep_foldl h (fun u1 x2 hu3 => (sendSync_keep hu3))) h)⟩

theorem execHold_keep {s₀ : State} {link : Fin 6} {epoch : Nat} {grid : W64} {frame : Nat} {s : State} (h : Keep s₀ s) :
    ∃ t, execHold link epoch grid frame s = .next t ∧ Keep s₀ t := by
  unfold execHold
  refine ⟨_, rfl, ?_⟩
  refine onLink_keep ?_ ?_
  · exact h
  · intro u1 h2
    extract_lets x3
    have k4 : Keep s₀ (x3) := (keep_foldl h2 (fun u5 x6 hu7 => (sendHold_keep hu7)))
    clear_value x3
    exact (keep_ite h2 (keep_ite k4 (takeGrid_keep k4)))

theorem joinSplit_keep {s₀ s : State} {inj : Bool} (h : Keep s₀ s) :
    Keep s₀ (joinSplit s inj) := by
  unfold joinSplit
  extract_lets x1 x2 x3
  have k4 : Keep s₀ (x1) := (setFlag_keep h)
  clear_value x1 x2
  have k5 : Keep s₀ (x3) := (recordErr_keep k4)
  clear_value x3
  exact (setCrn_keep k5)

theorem adoptLode_keep {s₀ s : State} {l : Nat} (h : Keep s₀ s) :
    Keep s₀ (adoptLode s l) := by
  unfold adoptLode
  extract_lets x1 x2
  clear_value x1
  have k3 : Keep s₀ (x2) := (setCrn_keep (becomeFollower_keep h))
  clear_value x2
  exact (keep_ite (joinSplit_keep (setCrn_keep k3)) (keep_ite (setLock_keep k3) k3))

theorem execTick_keep {s₀ : State} {link : Fin 6} {epoch : Nat} {grid : W64} {frame : Nat} {timeStep : W64}
    {s : State} (h : Keep s₀ s) :
    ∃ t, execTick link epoch grid frame timeStep s = .next t ∧ Keep s₀ t := by
  unfold execTick
  refine ⟨_, rfl, ?_⟩
  extract_lets x1 x2 x3
  clear_value x1 x2 x3
  refine onLink_keep ?_ ?_
  · exact h
  · intro u4 h5
    extract_lets x6 x7 x8 x9
    have k10 : Keep s₀ (x6) := (keep_foldl h5 (fun u11 x12 hu13 => (sendTick_keep hu13)))
    clear_value x6
    have k14 : Keep s₀ (x7) := (takeGrid_keep k10)
    clear_value x7
    have k15 : Keep s₀ (x8) := (keep_ite (incFld_keep k14) k14)
    clear_value x8
    have k16 : Keep s₀ (x9) := (keep_ite (joinSplit_keep k15) k15)
    clear_value x9
    exact (keep_ite h5 (keep_ite k10 (setCrn_keep k16)))

theorem execReady_keep {s₀ : State} {link : Fin 6} {blocks : Nat} {s : State} (h : Keep s₀ s) :
    ∃ t, execReady link blocks s = .next t ∧ Keep s₀ t := by
  unfold execReady
  refine ⟨_, rfl, ?_⟩
  refine onLink_keep ?_ ?_
  · exact h
  · intro u1 h2
    extract_lets x3 x4
    have k5 : Keep s₀ (x3) := (addKid_keep h2)
    clear_value x3
    have k6 : Keep s₀ (x4) := (setCrn_keep k5)
    clear_value x4
    exact (keep_ite h2 (tryReady_keep (keep_ite (setCrn_keep k6) k6)))

theorem execReadyTimeout_keep {s₀ : State} {link : Fin 6} {s : State} (h : Keep s₀ s) :
    ∃ t, execReadyTimeout link s = .next t ∧ Keep s₀ t := by
  unfold execReadyTimeout
  extract_lets x1 x2
  clear_value x1
  have k3 : Keep s₀ (x2) := (keep_ite (excludeKid_keep h) h)
  clear_value x2
  exact ⟨_, rfl, (keep_ite h (tryReady_keep (setCrn_keep k3)))⟩

theorem execExactCaptureDone_keep {s₀ s : State} (h : Keep s₀ s) :
    ∃ t, execExactCaptureDone s = .next t ∧ Keep s₀ t := by
  unfold execExactCaptureDone
  refine ⟨_, rfl, ?_⟩
  split
  · rename_i w1 w2
    exact h
  · rename_i w3 w4 w5
    extract_lets x6 x7 x8
    have k9 : Keep s₀ (x6) := (keep_ite h (setFld_keep h))
    clear_value x6 x7
    have k10 : Keep s₀ (x8) := (setCrn_keep k9)
    clear_value x8
    exact (keep_ite (emit_keep k10) k10)

theorem execTickAnnounce_keep {s₀ s : State} (h : Keep s₀ s) :
    ∃ t, execTickAnnounce s = .next t ∧ Keep s₀ t := by
  unfold execTickAnnounce
  refine ⟨_, rfl, ?_⟩
  extract_lets x1 x2 x3 x4 x5 x6 x7 x8 x9 x10 x11
  clear_value x1 x2
  have k12 : Keep s₀ (x3) := (incFld_keep h)
  clear_value x3
  have k13 : Keep s₀ (x4) := (setFlag_keep k12)
  clear_value x4
  have k14 : Keep s₀ (x5) := (setFld_keep k13)
  clear_value x5
  have k15 : Keep s₀ (x6) := (keep_ite k12 (setFld_keep k14))
  clear_value x6
  have k16 : Keep s₀ (x7) := (setCrn_keep k15)
  clear_value x7 x8 x9 x10
  have k17 : Keep s₀ (x11) := (setCrn_keep h)
  clear_value x11
  exact (keep_ite h (keep_ite (keep_foldl k16 (fun u18 x19 hu20 => (sendHold_keep hu20))) (keep_foldl k17 (fun u21 x22 hu23 => (sendTick_keep hu23)))))

theorem execSyncLoss_keep {s₀ s : State} (h : Keep s₀ s) :
    ∃ t, execSyncLoss s = .next t ∧ Keep s₀ t := by
  unfold execSyncLoss
  refine ⟨_, rfl, ?_⟩
  refine keep_ite ?_ ?_
  · exact h
  · split
    · rename_i w1 w2
      exact (setLock_keep h)
    · rename_i w3 w4
      exact (setCrn_keep (setLock_keep h))
    · rename_i w5 w6 w7
      exact h

theorem countWaits_keep {s₀ s : State} {slip : Bool} (h : Keep s₀ s) :
    Keep s₀ (countWaits s slip) := by
  unfold countWaits
  refine keep_foldl ?_ (fun u1 x2 hu3 => ?_)
  · exact h
  · extract_lets x4
    clear_value x4
    split
    · rename_i w5 w6 w7 w8 w9 w10 w11
      exact (keep_ite hu3 (setVein_keep hu3))
    · rename_i w12 w13
      exact hu3

theorem execGridSlip_keep {s₀ s : State} (h : Keep s₀ s) :
    ∃ t, execGridSlip s = .next t ∧ Keep s₀ t := by
  unfold execGridSlip
  refine ⟨_, rfl, ?_⟩
  extract_lets x1 x2 x3 x4 x5
  have k6 : Keep s₀ (x1) := (keep_ite h (incFld_keep h))
  clear_value x1
  have k7 : Keep s₀ (x2) := (passGrid_keep k6)
  clear_value x2 x3 x4
  have k8 : Keep s₀ (x5) := (keep_same (s := x2) rfl rfl rfl rfl rfl rfl rfl k7)
  clear_value x5
  exact (keep_ite h (keep_ite (passGrid_keep h) (showQ_keep (countWaits_keep k8))))

theorem execTimeStep_keep {s₀ : State} {value : W64} {s : State} (h : Keep s₀ s) :
    ∃ t, execTimeStep value s = .next t ∧ Keep s₀ t := by
  unfold execTimeStep
  refine ⟨_, rfl, ?_⟩
  refine portAct_keep ?_ ?_
  · exact h
  · intro u1 h2
    extract_lets x3
    clear_value x3
    exact (keep_ite (setCrn_keep h2) h2)

theorem showOffset_keep {s₀ s : State} {off : Int} (h : Keep s₀ s) :
    Keep s₀ (showOffset s off) := by
  unfold showOffset
  exact (setFld_keep h)

theorem execDresp_keep {s₀ : State} {link : Fin 6} {src : Nat} {t3 : W64} {t4 : W64} {s : State} (h : Keep s₀ s) :
    ∃ t, execDresp link src t3 t4 s = .next t ∧ Keep s₀ t := by
  unfold execDresp
  extract_lets x1 x2
  clear_value x1 x2
  refine ⟨_, rfl, ?_⟩
  refine onLink_keep ?_ ?_
  · exact h
  · intro u3 h4
    split
    · rename_i w5 w6
      exact h4
    · rename_i w7 w8 w9 w10 w11
      extract_lets x12 x13 x14 x15 x16
      clear_value x12
      have k17 : Keep s₀ (x13) := (showOffset_keep (setCrn_keep h4))
      clear_value x13 x14
      have k18 : Keep s₀ (x15) := (setCrn_keep k17)
      clear_value x15
      have k19 : Keep s₀ (x16) := (keep_ite (setCrn_keep (addTime_keep k18)) (setCrn_keep k18))
      clear_value x16
      exact (keep_ite h4 (keep_ite (setCrn_keep h4) (tryReady_keep (lockStep_keep k19))))

theorem followRate_keep {s₀ s : State} {t1 : Nat} (h : Keep s₀ s) :
    Keep s₀ (followRate s t1) := by
  unfold followRate
  extract_lets x1
  clear_value x1
  exact (setCrn_keep h)

theorem followSync_keep {s₀ s : State} {l : Nat} {epoch : Nat} {t1 : Nat} {frame : Nat} {replayed : Bool}
    (h : Keep s₀ s) :
    Keep s₀ (followSync s l epoch t1 frame replayed) := by
  unfold followSync
  extract_lets x1 x2 x3
  have k4 : Keep s₀ (x1) := (keep_foldl h (fun u5 x6 hu7 => (keep_ite hu7 (sendSync_keep hu7))))
  clear_value x1
  have k8 : Keep s₀ (x2) := by
    unfold x2
    split
    · rename_i w9 w10
      exact (setCrn_keep (setLock_keep k4))
    · rename_i w11 w12
      exact (setCrn_keep (setLock_keep k4))
    · rename_i w13 w14 w15
      exact k4
  clear_value x2
  have k16 : Keep s₀ (x3) := (followRate_keep k8)
  clear_value x3
  exact (keep_ite k8 (sendDreq_keep (setCrn_keep k16)))

theorem execPpsLost_keep {s₀ s : State} (h : Keep s₀ s) :
    ∃ t, execPpsLost s = .next t ∧ Keep s₀ t := by
  unfold execPpsLost
  refine ⟨_, rfl, ?_⟩
  extract_lets x1
  have k2 : Keep s₀ (x1) := (setCrn_keep h)
  clear_value x1
  exact (keep_ite h (notice_keep (setFlag_keep k2)))

theorem execTimeReq_keep {s₀ s : State} (h : Keep s₀ s) :
    ∃ t, execTimeReq s = .next t ∧ Keep s₀ t := by
  unfold execTimeReq
  exact ⟨_, rfl, (keep_ite h (setCrn_keep h))⟩

theorem setPpb_keep {s₀ s : State} {ppb : Int} (h : Keep s₀ s) :
    Keep s₀ (setPpb s ppb) := by
  unfold setPpb
  extract_lets x1
  have k2 : Keep s₀ (x1) := (setFld_keep h)
  clear_value x1
  exact (setCrn_keep k2)

theorem steer_keep {s₀ s : State} {diff : Int} (h : Keep s₀ s) :
    Keep s₀ (steer s diff) := by
  unfold steer
  extract_lets x1 x2 x3
  clear_value x1 x2
  have k4 : Keep s₀ (x3) := (setPpb_keep h)
  clear_value x3
  refine keep_ite ?_ ?_
  · exact (notice_keep (setFlag_keep k4))
  · refine keep_ite ?_ ?_
    · exact h
    · split
      · rename_i w5 w6 w7 w8
        have k9 : Keep s₀ w7 := keep_snd w8 ((takeFree_keep h))
        extract_lets x10
        clear_value x10
        exact (setPpb_keep k9)

theorem execDiscPps_keep {s₀ s : State} (h : Keep s₀ s) :
    ∃ t, execDiscPps s = .next t ∧ Keep s₀ t := by
  unfold execDiscPps
  refine ⟨_, rfl, ?_⟩
  extract_lets x1 x2 x3
  clear_value x1 x2
  have k4 : Keep s₀ (x3) := (setCrn_keep h)
  clear_value x3
  refine keep_ite ?_ ?_
  · exact h
  · split
    · rename_i w5
      exact k4
    · rename_i w6 w7
      exact (steer_keep k4)

theorem noteLate_keep {s₀ s : State} {frame : Nat} {lowest : Nat} {late : Bool} (h : Keep s₀ s) :
    Keep s₀ (noteLate s frame lowest late) := by
  unfold noteLate
  exact (keep_ite (setFld_keep (setFld_keep h)) h)

theorem execToken_keep {s₀ : State} {link : Fin 6} {src : Nat} {frame : Nat} {blocks : Nat} {late : Bool}
    {lowest : Nat} {s : State} (h : Keep s₀ s) :
    ∃ t, execToken link src frame blocks late lowest s = .next t ∧ Keep s₀ t := by
  unfold execToken
  refine ⟨_, rfl, ?_⟩
  extract_lets x1 x2 x3
  clear_value x1 x2 x3
  refine onLink_keep ?_ ?_
  · exact h
  · intro u4 h5
    extract_lets x6 x7 x8 x9 x10
    have k11 : Keep s₀ (x6) := (addKid_keep h5)
    clear_value x6
    have k12 : Keep s₀ (x7).2 := (flint_keep k11)
    clear_value x7 x8
    have k13 : Keep s₀ (x9) := k12
    clear_value x9
    have k14 : Keep s₀ (x10) := (noteLate_keep k13)
    clear_value x10
    refine keep_ite ?_ ?_
    · exact h5
    · refine keep_ite ?_ ?_
      · exact (setCrn_keep k13)
      · split
        · rename_i w15 w16
          exact (takeToken_keep k14)
        · rename_i w17 w18
          exact (setCrn_keep k14)
        · rename_i w19 w20 w21
          exact (closedToken_keep k14)

theorem execDreq_keep {s₀ : State} {link : Fin 6} {src : Nat} {t3 : W64} {s : State} (h : Keep s₀ s) :
    ∃ t, execDreq link src t3 s = .next t ∧ Keep s₀ t := by
  unfold execDreq
  extract_lets x1 x2
  clear_value x1 x2
  refine ⟨_, rfl, ?_⟩
  refine onLink_keep ?_ ?_
  · exact h
  · intro u3 h4
    extract_lets x5
    have k6 : Keep s₀ (x5) := (addKid_keep h4)
    clear_value x5
    exact (keep_ite h4 (keep_ite k6 (sendDresp_keep k6)))

theorem floodTakeover_keep {s₀ s : State} {from_ : Nat} (h : Keep s₀ s) :
    Keep s₀ (floodTakeover s from_) := by
  unfold floodTakeover
  exact (keep_foldl h (fun u1 x2 hu3 => (keep_ite hu3 (sendTakeover_keep hu3))))

theorem execTakeover_keep {s₀ : State} {link : Fin 6} {src : Nat} {lodeN : Nat} {epoch : Nat} {frame : Nat}
    {s : State} (h : Keep s₀ s) :
    ∃ t, execTakeover link src lodeN epoch frame s = .next t ∧ Keep s₀ t := by
  unfold execTakeover
  refine ⟨_, rfl, ?_⟩
  extract_lets x1 x2
  clear_value x1 x2
  refine onLink_keep ?_ ?_
  · exact h
  · intro u3 h4
    extract_lets x5 x6 x7 x8
    clear_value x5
    have k9 : Keep s₀ (x6) := (keep_ite (adoptLode_keep h4) (becomeFollower_keep h4))
    clear_value x6
    have k10 : Keep s₀ (x7) := (keep_ite (setLock_keep k9) k9)
    clear_value x7
    have k11 : Keep s₀ (x8) := (setCrn_keep k10)
    clear_value x8
    exact (keep_ite h4 (keep_ite (keep_ite (floodTakeover_keep (setFld_keep h4)) h4) (keep_ite h4 (floodTakeover_keep (incFld_keep k11)))))

theorem execGridMiss_keep {s₀ s : State} (h : Keep s₀ s) :
    ∃ t, execGridMiss s = .next t ∧ Keep s₀ t := by
  unfold execGridMiss
  refine ⟨_, rfl, ?_⟩
  extract_lets x1 x2 x3 x4 x5
  have k6 : Keep s₀ (x1) := (passGrid_keep h)
  clear_value x1
  have k7 : Keep s₀ (x2) := (loseTicks_keep (setCrn_keep k6))
  clear_value x2 x3
  have k8 : Keep s₀ (x4) := (becomeLode_keep k7)
  clear_value x4
  have k9 : Keep s₀ (x5) := (setCrn_keep k8)
  clear_value x5
  exact (keep_ite h (keep_ite k6 (keep_ite (floodTakeover_keep (incFld_keep k9)) k7)))

theorem meetLoser_keep {s₀ s : State} {l : Nat} {loser : Nat} {t1 : Nat} (h : Keep s₀ s) :
    Keep s₀ (meetLoser s l loser t1) := by
  unfold meetLoser
  extract_lets x1 x2
  clear_value x1
  have k3 : Keep s₀ (x2) := (setCrn_keep h)
  clear_value x2
  exact (keep_ite (floodTakeover_keep (setFld_keep k3)) k3)

theorem execSync_keep {s₀ : State} {link : Fin 6} {src : Nat} {lodeN : Nat} {hops : Nat} {epoch : Nat} {t1 : W64}
    {frame : Nat} {s : State} (h : Keep s₀ s) :
    ∃ t, execSync link src lodeN hops epoch t1 frame s = .next t ∧ Keep s₀ t := by
  unfold execSync
  extract_lets x1 x2 x3 x4
  clear_value x1 x2 x3 x4
  refine ⟨_, rfl, ?_⟩
  refine onLink_keep ?_ ?_
  · exact h
  · intro u5 h6
    extract_lets x7 x8 x9 x10 x11 x12 x13
    have k14 : Keep s₀ (x7).2 := (flint_keep h6)
    clear_value x7 x8
    have k15 : Keep s₀ (x9) := k14
    clear_value x9
    have k16 : Keep s₀ (x10) := (keep_ite (setCrn_keep (joinSplit_keep k15)) k15)
    clear_value x10
    have k17 : Keep s₀ (x11) := (keep_ite (adoptLode_keep k16) k16)
    clear_value x11
    have k18 : Keep s₀ (x12) := (setCrn_keep k17)
    clear_value x12
    have k19 : Keep s₀ (x13) := (reparent_keep k18)
    clear_value x13
    exact (keep_ite h6 (keep_ite (meetLoser_keep k17) (keep_ite k17 (keep_ite (followSync_keep k19) k19))))

end Sys2Proof.Machine
end

