-- ==== Sys2Proof/Laws/KeepChainOps.lean ====
section
/-! SUPPORT. What the operations of Machine/ChainOps.lean keep: canonical stores, the queue, outputs only added. -/

namespace Sys2Proof.Machine

theorem elect_keep {s₀ s : State} (h : Keep s₀ s) :
    Keep s₀ (elect s) := by
  unfold elect
  extract_lets x1 x2 x3
  have k4 : Keep s₀ (x1) := (setFlag_keep h)
  clear_value x1 x2
  have k5 : Keep s₀ (x3) := (setFld_keep h)
  clear_value x3
  refine keep_ite ?_ ?_
  · exact h
  · split
    · rename_i w6 w7
      exact (recordErr_keep k4)
    · rename_i w8 w9 w10 w11
      exact (keep_ite (tryReady_keep (becomeLode_keep (setCrn_keep k5))) (becomeFollower_keep k5))

theorem setSlt_keep {s₀ s : State} {f : SltSt → SltSt} (h : Keep s₀ s) :
    Keep s₀ (setSlt s f) := by
  unfold setSlt
  exact (keep_same (s := s) rfl rfl rfl rfl rfl rfl rfl h)

theorem putChain_keep {s₀ s : State} {a2 : Nat} {body : List Byte} {good : Bool} (h : Keep s₀ s) :
    Keep s₀ (putChain s a2 body good) := by
  unfold putChain
  extract_lets x1 x2 x3
  have k4 : Keep s₀ (x1).2 := (flint_keep h)
  clear_value x1 x2
  have k5 : Keep s₀ (x3) := k4
  clear_value x3
  exact (emit_keep k5)

theorem sampleLoden_keep {s₀ s : State} (h : Keep s₀ s) :
    Keep s₀ (sampleLoden s) := by
  unfold sampleLoden
  extract_lets x1
  clear_value x1
  exact (showEligible_keep (keep_same (s := s) rfl rfl rfl rfl rfl rfl rfl h))

theorem sendChain_keep {s₀ s : State} {a2 : Nat} {body : List Byte} (h : Keep s₀ s) :
    Keep s₀ (sendChain s a2 body) := by
  unfold sendChain
  exact (putChain_keep (setSlt_keep h))

theorem sendPoll_keep {s₀ s : State} {kind : Nat} (h : Keep s₀ s) :
    Keep s₀ (sendPoll s kind) := by
  unfold sendPoll
  split
  · rename_i w1 w2 w3 w4
    extract_lets x5
    clear_value x5
    exact (sendChain_keep h)

theorem enterTimelock_keep {s₀ s : State} (h : Keep s₀ s) :
    Keep s₀ (enterTimelock s) := by
  unfold enterTimelock
  extract_lets x1 x2
  have k3 : Keep s₀ (x1) := (sampleLoden_keep (enterSu_keep h))
  clear_value x1
  have k4 : Keep s₀ (x2) := (keep_ite k3 (elect_keep k3))
  clear_value x2
  exact (keep_ite (sendPoll_keep k4) k4)

theorem checkLinkup_keep {s₀ s : State} (h : Keep s₀ s) :
    Keep s₀ (checkLinkup s) := by
  unfold checkLinkup
  extract_lets x1
  have k2 : Keep s₀ (x1) := (showEligible_keep (enterSu_keep h))
  clear_value x1
  exact (keep_ite (keep_ite (enterTimelock_keep k2) k2) h)

end Sys2Proof.Machine
end

