-- ==== Sys2Proof/Laws/KeepPower.lean ====
section
/-! SUPPORT. What the operations of Machine/Power.lean keep: canonical stores, the queue, outputs only added. -/

namespace Sys2Proof.Machine

theorem execSwitchCloseDone_keep {s₀ : State} {a1 : Fin 4} {s : State} (h : Keep s₀ s) :
    ∃ t, execSwitchCloseDone a1 s = .next t ∧ Keep s₀ t := by
  unfold execSwitchCloseDone
  exact ⟨_, rfl, (keep_ite (nextSwitch_keep (setArr_keep h)) h)⟩

theorem execDroopTrip_keep {s₀ : State} {mv : Nat} {s : State} (h : Keep s₀ s) :
    ∃ t, execDroopTrip s mv = .next t ∧ Keep s₀ t := by
  unfold execDroopTrip
  refine ⟨_, rfl, ?_⟩
  extract_lets x1
  have k2 : Keep s₀ (x1) := (incFld_keep h)
  clear_value x1
  exact (keep_ite h (calStop_keep (setTrm_keep k2)))

theorem execVackWatchStart_keep {s₀ s : State} (h : Keep s₀ s) :
    ∃ t, execVackWatchStart s = .next t ∧ Keep s₀ t := by
  unfold execVackWatchStart
  refine ⟨_, rfl, ?_⟩
  split
  · rename_i w1 w2 w3 w4
    exact (setTrm_keep h)
  · rename_i w5 w6 w7 w8
    exact (setTrm_keep h)
  · rename_i w9 w10 w11
    exact h

theorem execRampDownDone_keep {s₀ : State} {a1 : Fin 4} {s : State} (h : Keep s₀ s) :
    ∃ t, execRampDownDone a1 s = .next t ∧ Keep s₀ t := by
  unfold execRampDownDone
  refine ⟨_, rfl, ?_⟩
  extract_lets x1
  clear_value x1
  exact (keep_ite (setArr_keep h) h)

theorem setSensor_keep {s₀ s : State} {i : Nat} {v : Nat} (h : Keep s₀ s) :
    Keep s₀ (setSensor s i v) := by
  unfold setSensor
  exact (setFld_keep h)

theorem trip_keep {s₀ s : State} {i : Nat} {inj : Bool} (h : Keep s₀ s) :
    Keep s₀ (trip s i inj) := by
  unfold trip
  extract_lets x1 x2 x3
  have k4 : Keep s₀ (x1) := (setTrm_keep h)
  clear_value x1
  have k5 : Keep s₀ (x2) := (keep_foldl k4 (fun u6 x7 hu8 => (setArr_keep hu8)))
  clear_value x2 x3
  exact (recordErr_keep k5)

theorem execAutocalStart_keep {s₀ : State} {domain : Nat} {s : State} (h : Keep s₀ s) :
    ∃ t, execAutocalStart domain s = .next t ∧ Keep s₀ t := by
  unfold execAutocalStart
  exact ⟨_, rfl, (keep_ite (setTrm_keep h) h)⟩

theorem execOppSlewDone_keep {s₀ s : State} (h : Keep s₀ s) :
    ∃ t, execOppSlewDone s = .next t ∧ Keep s₀ t := by
  unfold execOppSlewDone
  refine ⟨_, rfl, ?_⟩
  split
  · rename_i w1 w2 w3 w4
    extract_lets x5 x6
    have k7 : Keep s₀ (x5) := (setFld_keep h)
    clear_value x5
    have k8 : Keep s₀ (x6) := (setFlag_keep k7)
    clear_value x6
    exact (keep_ite (nextMove_keep k8) (setTrm_keep (driveVreq_keep k8)))
  · rename_i w9 w10
    exact h

theorem execPreRampTimeout_keep {s₀ s : State} (h : Keep s₀ s) :
    ∃ t, execPreRampTimeout s = .next t ∧ Keep s₀ t := by
  unfold execPreRampTimeout
  refine ⟨_, rfl, ?_⟩
  refine nextSwitch_keep ?_
  refine keep_foldl ?_ (fun u1 x2 hu3 => ?_)
  · exact h
  · extract_lets x4
    clear_value x4
    exact (keep_ite (setArr_keep hu3) hu3)

theorem limDown_keep {s₀ s : State} (h : Keep s₀ s) :
    Keep s₀ (limDown s) := by
  unfold limDown
  extract_lets x1 x2 x3
  have k4 : Keep s₀ (x1) := (setFld_keep h)
  clear_value x1
  have k5 : Keep s₀ (x2) := (setFlag_keep k4)
  clear_value x2
  have k6 : Keep s₀ (x3) := (calStop_keep k5)
  clear_value x3
  exact (keep_ite (moveOpp_keep k6) k6)

theorem execThermalStepdown_keep {s₀ s : State} (h : Keep s₀ s) :
    ∃ t, execThermalStepdown s = .next t ∧ Keep s₀ t := by
  unfold execThermalStepdown
  exact ⟨_, rfl, (keep_ite (limDown_keep h) h)⟩

theorem sampleOne_keep {s₀ s : State} {x : Int × Nat} (h : Keep s₀ s) :
    Keep s₀ (sampleOne s x) := by
  unfold sampleOne
  extract_lets x1
  clear_value x1
  split
  · rename_i w2 w3 w4
    extract_lets x5 x6 x7 x8 x9
    have k10 : Keep s₀ (x5).2 := (flint_keep h)
    clear_value x5 x6
    have k11 : Keep s₀ (x7) := k10
    clear_value x7
    have k12 : Keep s₀ (x8) := (setSensor_keep k11)
    clear_value x8
    have k13 : Keep s₀ (x9) := (setFlag_keep k12)
    clear_value x9
    exact (keep_ite h (keep_ite (recordErr_keep k13) (setSensor_keep k11)))

theorem execSensorSample_keep {s₀ : State} {readings : List Int} {s : State} (h : Keep s₀ s) :
    ∃ t, execSensorSample readings s = .next t ∧ Keep s₀ t := by
  unfold execSensorSample
  extract_lets x1 x2 x3 x4 x5 x6 x7 x8 x9 x10 x11 x12 x13 x14 x15
  clear_value x1
  have k16 : Keep s₀ (x2) := (keep_foldl h (fun u17 x18 hu19 => (sampleOne_keep hu19)))
  clear_value x2 x3
  have k20 : Keep s₀ (x4) := (keep_ite (recordErr_keep k16) k16)
  clear_value x4 x5
  have k21 : Keep s₀ (x6) := (setFld_keep k20)
  clear_value x6
  have k22 : Keep s₀ (x7) := (keep_ite (setFld_keep k21) k21)
  clear_value x7
  have k23 : Keep s₀ (x8).2 := (flint_keep k22)
  clear_value x8 x9
  have k24 : Keep s₀ (x10) := k23
  clear_value x10 x11
  have k25 : Keep s₀ (x12) := by
    unfold x12
    split
    · rename_i w26 w27 w28
      exact (keep_ite (setTrm_keep k24) k24)
    · rename_i w29 w30
      exact k24
  clear_value x12
  have k31 : Keep s₀ (x13) := by
    unfold x13
    split
    · rename_i w32 w33 w34 w35
      exact (keep_ite (calStop_keep k25) k25)
    · rename_i w36 w37
      exact k25
  clear_value x13 x14
  have k38 : Keep s₀ (x15) := (setTrm_keep k31)
  clear_value x15
  split
  · rename_i w39
    exact ⟨_, rfl, h⟩
  · rename_i w40
    split
    · rename_i w41
      exact ⟨_, rfl, k25⟩
    · rename_i w42
      split
      · rename_i w43
        exact ⟨_, rfl, (trip_keep k25)⟩
      · rename_i w44
        split
        · rename_i w45
          exact ⟨_, rfl, k25⟩
        · rename_i w46
          exact ⟨_, rfl, (keep_ite (limDown_keep k38) k38)⟩

theorem execRampUpDone_keep {s₀ : State} {a1 : Fin 4} {s : State} (h : Keep s₀ s) :
    ∃ t, execRampUpDone a1 s = .next t ∧ Keep s₀ t := by
  unfold execRampUpDone
  refine ⟨_, rfl, ?_⟩
  extract_lets x1
  clear_value x1
  exact (keep_ite (setArr_keep h) h)

theorem execOverspend_keep {s₀ : State} {drawn : Nat} {s : State} (h : Keep s₀ s) :
    ∃ t, execOverspend drawn s = .next t ∧ Keep s₀ t := by
  unfold execOverspend
  extract_lets x1 x2
  have k3 : Keep s₀ (x1) := (showQ_keep (setTrm_keep h))
  clear_value x1
  have k4 : Keep s₀ (x2) := (setTrm_keep k3)
  clear_value x2
  exact ⟨_, rfl, (keep_ite (notice_keep (setFlag_keep k4)) k3)⟩

theorem execVackRise_keep {s₀ s : State} (h : Keep s₀ s) :
    ∃ t, execVackRise s = .next t ∧ Keep s₀ t := by
  unfold execVackRise
  refine ⟨_, rfl, ?_⟩
  extract_lets x1 x2 x3
  have k4 : Keep s₀ (x1).2 := (flint_keep h)
  clear_value x1 x2
  have k5 : Keep s₀ (x3) := k4
  clear_value x3
  split
  · rename_i w6 w7 w8 w9
    exact (keep_ite (setTrm_keep k5) (setTrm_keep k5))
  · rename_i w10 w11 w12 w13
    exact (keep_ite (setTrm_keep k5) (nextMove_keep k5))
  · rename_i w14 w15 w16
    exact h

theorem keeperLevel_keep {s₀ s : State} {x : ArrSt} (h : Keep s₀ s) :
    Keep s₀ (keeperLevel s x).2 := by
  unfold keeperLevel
  split
  · rename_i w1 w2 w3 w4
    have k5 : Keep s₀ w3 := keep_snd w4 (by
        split
        · rename_i w6
          exact h
        · rename_i w7
          exact (takeFree_keep h)
      )
    extract_lets x8
    clear_value x8
    split
    · rename_i w9 w10 w11 w12
      have k13 : Keep s₀ w11 := keep_snd w12 ((takeFree_keep k5))
      exact k13

theorem execKeeperLimit_keep {s₀ : State} {a1 : Fin 4} {s : State} (h : Keep s₀ s) :
    ∃ t, execKeeperLimit a1 s = .next t ∧ Keep s₀ t := by
  unfold execKeeperLimit
  extract_lets x1
  clear_value x1
  refine ⟨_, rfl, ?_⟩
  refine keep_ite ?_ ?_
  · split
    · rename_i w2 w3 w4 w5
      have k6 : Keep s₀ w4 := keep_snd w5 ((keeperLevel_keep h))
      split
      · rename_i w7 w8 w9 w10
        have k11 : Keep s₀ w9 := keep_snd w10 ((takeFree_keep k6))
        exact (setArr_keep k11)
  · exact h

theorem execSwitchOpen_keep {s₀ : State} {a1 : Fin 4} {s : State} (h : Keep s₀ s) :
    ∃ t, execSwitchOpen a1 s = .next t ∧ Keep s₀ t := by
  unfold execSwitchOpen
  exact ⟨_, rfl, (keep_ite (setArr_keep h) h)⟩

theorem execVackTimeout_keep {s₀ s : State} (h : Keep s₀ s) :
    ∃ t, execVackTimeout s = .next t ∧ Keep s₀ t := by
  unfold execVackTimeout
  refine ⟨_, rfl, ?_⟩
  extract_lets x1
  clear_value x1
  split
  · rename_i w2 w3
    exact h
  · rename_i w4 w5 w6
    extract_lets x7 x8 x9 x10 x11
    have k12 : Keep s₀ (x7) := (setFlag_keep h)
    clear_value x7
    have k13 : Keep s₀ (x8) := (setFlag_keep k12)
    clear_value x8
    have k14 : Keep s₀ (x9) := (recordErr_keep k13)
    clear_value x9
    have k15 : Keep s₀ (x10) := (setTrm_keep k14)
    clear_value x10
    have k16 : Keep s₀ (x11) := (keep_ite (setFlag_keep (driveVreq_keep k15)) k15)
    clear_value x11
    exact (keep_ite h (nextMove_keep k16))

theorem execAutocalDone_keep {s₀ : State} {coeffs : List Nat} {s : State} (h : Keep s₀ s) :
    ∃ t, execAutocalDone coeffs s = .next t ∧ Keep s₀ t := by
  unfold execAutocalDone
  refine ⟨_, rfl, ?_⟩
  extract_lets x1
  have k2 : Keep s₀ (x1) := (setTrm_keep h)
  clear_value x1
  split
  · rename_i w3 w4
    exact h
  · rename_i w5 w6 w7
    exact (keep_ite k2 (setTrm_keep (writeEntry_keep k2)))

theorem execThermalStepup_keep {s₀ s : State} (h : Keep s₀ s) :
    ∃ t, execThermalStepup s = .next t ∧ Keep s₀ t := by
  unfold execThermalStepup
  exact ⟨_, rfl, (keep_ite (setFld_keep h) h)⟩

theorem execDroopEnd_keep {s₀ s : State} (h : Keep s₀ s) :
    ∃ t, execDroopEnd s = .next t ∧ Keep s₀ t := by
  unfold execDroopEnd
  exact ⟨_, rfl, (setTrm_keep h)⟩

theorem execPreRamp_keep {s₀ s : State} (h : Keep s₀ s) :
    ∃ t, execPreRamp s = .next t ∧ Keep s₀ t := by
  unfold execPreRamp
  refine ⟨_, rfl, ?_⟩
  refine keep_ite ?_ ?_
  · refine keep_foldl ?_ (fun u1 x2 hu3 => ?_)
    · exact h
    · extract_lets x4 x5
      clear_value x4 x5
      split
      · rename_i w6 w7
        exact (setArr_keep hu3)
      · rename_i w8 w9
        exact (closeSwitch_keep (setArr_keep hu3))
      · rename_i w10 w11 w12
        exact hu3
  · exact h

end Sys2Proof.Machine
end

