-- ==== Sys2Proof/Laws/KeepSlate.lean ====
section
/-! SUPPORT. What the operations of Machine/Slate.lean keep: canonical stores, the queue, outputs only added. -/

namespace Sys2Proof.Machine

theorem applyMap_keep {s₀ s : State} {data : List Byte} (h : Keep s₀ s) :
    Keep s₀ (applyMap s data) := by
  unfold applyMap
  extract_lets x1 x2 x3 x4
  clear_value x1
  have k5 : Keep s₀ (x2) := (setFld_keep h)
  clear_value x2
  have k6 : Keep s₀ (x3) := (setFld_keep k5)
  clear_value x3
  have k7 : Keep s₀ (x4) := (setFld_keep k6)
  clear_value x4
  exact (setFld_keep k7)

theorem startVeins_keep {s₀ s : State} (h : Keep s₀ s) :
    Keep s₀ (startVeins s) := by
  unfold startVeins
  exact (keep_foldl h (fun u1 x2 hu3 => (keep_ite (setVState_keep hu3) hu3)))

theorem loadSlot_keep {s₀ s : State} {k : Nat} (h : Keep s₀ s) :
    Keep s₀ (loadSlot s k) := by
  unfold loadSlot
  extract_lets x1
  clear_value x1
  exact (keep_ite (setFlag_keep (setFlag_keep h)) (setFlag_keep (setFlag_keep h)))

theorem showFail_keep {s₀ s : State} {f : SltFail} (h : Keep s₀ s) :
    Keep s₀ (showFail s f) := by
  unfold showFail
  extract_lets x1 x2
  have k3 : Keep s₀ (x1) := (setFld_keep h)
  clear_value x1 x2
  split
  · rename_i w4 w5
    exact k3
  · rename_i w6 w7 w8 w9 w10 w11 w12
    extract_lets x13
    have k14 : Keep s₀ (x13) := (setFld_keep (setFld_keep k3))
    clear_value x13
    exact (setFld_keep (setFld_keep (setFld_keep k14)))

theorem slateRefuse_keep {s₀ s : State} {f : SltFail} (h : Keep s₀ s) :
    Keep s₀ (slateRefuse s f) := by
  unfold slateRefuse
  extract_lets x1 x2 x3 x4
  have k5 : Keep s₀ (x1) := (enterSu_keep (drop_keep (s := s) h))
  clear_value x1
  have k6 : Keep s₀ (x2) := (setSlt_keep k5)
  clear_value x2
  have k7 : Keep s₀ (x3) := (setFlag_keep (showFail_keep k6))
  clear_value x3 x4
  exact (recordErr_keep k7)

theorem showImage_keep {s₀ s : State} {img : List Byte} {keep : List Sect} (h : Keep s₀ s) :
    Keep s₀ (showImage s img keep) := by
  unfold showImage
  extract_lets x1 x2 x3 x4
  have k5 : Keep s₀ (x1) := (setFld_keep h)
  clear_value x1
  have k6 : Keep s₀ (x2) := (setFld_keep k5)
  clear_value x2
  have k7 : Keep s₀ (x3) := (setFld_keep k6)
  clear_value x3
  have k8 : Keep s₀ (x4) := (setFld_keep k7)
  clear_value x4
  exact (setFld_keep k8)

theorem slateMarks_keep {s₀ s : State} {img : List Byte} {keep : List Sect} (h : Keep s₀ s) :
    Keep s₀ (slateMarks s img keep) := by
  unfold slateMarks
  extract_lets x1 x2 x3 x4 x5
  clear_value x1
  have k6 : Keep s₀ (x2) := (setFlag_keep h)
  clear_value x2
  have k7 : Keep s₀ (x3) := (keep_ite k6 (setFlag_keep k6))
  clear_value x3
  have k8 : Keep s₀ (x4) := (showImage_keep k7)
  clear_value x4
  have k9 : Keep s₀ (x5) := (setSlt_keep k8)
  clear_value x5
  exact (keep_same (s := x5) rfl rfl rfl rfl rfl rfl rfl k9)

theorem judged_keep {s₀ : State} {img : List Byte} {keep : List Sect} {staged : Nat} {a4 : Except SltFail State}
    (ha4 : ∀ t, a4 = .ok t → Keep s₀ t) :
    ∀ t, judged img keep staged a4 = .ok t → Keep s₀ t := by
  unfold judged
  split
  · rename_i w1 w2
    exact ha4
  · rename_i w3 w4
    split
    · rename_i w5 w6 w7
      exact keep_error
    · rename_i w8 w9
      exact ha4

theorem applySectRecs_keep {s₀ : State} {img : List Byte} {acc : Except SltFail State} {e : Sect}
    (hacc : ∀ t, acc = .ok t → Keep s₀ t) :
    ∀ t, applySectRecs img acc e = .ok t → Keep s₀ t := by
  unfold applySectRecs
  refine keep_foldl_except ?_ (fun u1 x2 hu3 => ?_)
  · exact hacc
  · extract_lets x4
    clear_value x4
    split
    · rename_i w5 w6
      exact hu3
    · rename_i w7 w8
      split
      · rename_i w9
        exact keep_error
      · rename_i w10
        exact (keep_ok (applyRec_keep (hu3 _ rfl)))

theorem tentative_keep {s₀ s : State} {img : List Byte} {es : List Sect} (h : Keep s₀ s) :
    ∀ t, tentative s img es = .ok t → Keep s₀ t := by
  unfold tentative
  refine keep_foldl_except ?_ (fun u1 x2 hu3 => ?_)
  · exact (keep_ok h)
  · exact (applySectRecs_keep hu3)

theorem bodiesCheck_keep {s₀ s : State} {img : List Byte} {keep : List Sect} {es : List Sect} {staged : Nat}
    (h : Keep s₀ s) :
    ∀ t, bodiesCheck s img keep es staged = .ok t → Keep s₀ t := by
  unfold bodiesCheck
  split
  · rename_i w1 w2 w3
    exact keep_error
  · rename_i w4 w5
    exact (judged_keep (tentative_keep (keep_ite h (applyMap_keep h))))

theorem loadCheck_keep {s₀ s : State} {room : Nat} {img : List Byte} (h : Keep s₀ s) :
    ∀ t, loadCheck s room img = .ok t → Keep s₀ t.2 := by
  unfold loadCheck
  split
  · rename_i w1 w2 w3
    exact keep_errorSnd
  · rename_i w4 w5 w6
    split
    · rename_i w7 w8 w9
      exact keep_errorSnd
    · rename_i w10 w11
      split
      · rename_i w12 w13 w14
        exact keep_errorSnd
      · rename_i w15 w16 w17
        have k18 : Keep s₀ w16 := (bodiesCheck_keep h) _ w17
        exact (keep_okSnd k18)

theorem applyData_keep {s₀ s : State} {e : Sect} {raw : List Byte} (h : Keep s₀ s) :
    Keep s₀ (applyData s e raw) := by
  unfold applyData
  extract_lets x1
  clear_value x1
  split
  · rename_i w2 w3
    exact (loadSlot_keep h)
  · rename_i w4 w5
    exact (micaWrite_keep h)
  · rename_i w6 w7
    exact (micaWrite_keep h)
  · rename_i w8 w9
    exact (setFld_keep (keep_same (s := s) rfl rfl rfl rfl rfl rfl rfl h))
  · rename_i w10 w11 w12 w13 w14
    exact h

theorem slateData_keep {s₀ s : State} {img : List Byte} {keep : List Sect} (h : Keep s₀ s) :
    Keep s₀ (slateData s img keep) := by
  unfold slateData
  extract_lets x1 x2 x3 x4
  clear_value x1
  have k5 : Keep s₀ (x2) := (micaWrite_keep h)
  clear_value x2
  have k6 : Keep s₀ (x3) := (micaZero_keep k5)
  clear_value x3
  have k7 : Keep s₀ (x4) := (micaZero_keep k6)
  clear_value x4
  exact (keep_foldl k7 (fun u8 x9 hu10 => (applyData_keep hu10)))

theorem bootRaise_keep {s₀ s : State} (h : Keep s₀ s) :
    Keep s₀ (bootRaise s) := by
  unfold bootRaise
  extract_lets x1 x2
  clear_value x1
  have k3 : Keep s₀ (x2) := (setTrm_keep h)
  clear_value x2
  exact (setFlag_keep (driveVreq_keep k3))

theorem slateApply_keep {s₀ s : State} {img : List Byte} {keep : List Sect} {t : State} (h : Keep s₀ s)
    (h' : Keep s₀ t) : Keep s₀ (slateApply s img keep t) := by
  unfold slateApply
  have k1 : Keep s₀ { s with regs := t.regs } := regs_keep h h'
  exact bootRaise_keep (startVeins_keep (slateMarks_keep (slateData_keep k1)))

end Sys2Proof.Machine
end

