-- ==== Sys2Proof/Laws/KeepReload.lean ====
section
/-! SUPPORT. What the operations of Machine/Reload.lean keep: canonical stores, the queue, outputs only added. -/

namespace Sys2Proof.Machine

theorem dropStaged_keep {s₀ s : State} (h : Keep s₀ s) :
    Keep s₀ (dropStaged s) := by
  unfold dropStaged
  exact (keep_ite h (setSlt_keep h))

theorem applyStagedRecs_keep {s₀ s : State} {e : Sect} {raw : List Byte} (h : Keep s₀ s) :
    Keep s₀ (applyStagedRecs s e raw) := by
  unfold applyStagedRecs
  extract_lets x1 x2 x3
  clear_value x1 x2
  have k4 : Keep s₀ (x3) := (keep_ite (calStop_keep h) h)
  clear_value x3
  refine keep_ite ?_ ?_
  · exact h
  · refine keep_ite ?_ ?_
    · exact (settleMcast_keep (setSlt_keep h))
    · refine keep_ite ?_ ?_
      · refine keep_foldl ?_ (fun u5 x6 hu7 => ?_)
        · exact h
        · split
          · rename_i w8 w9 w10
            exact (setSlt_keep hu7)
          · rename_i w11 w12
            exact (applyRec_keep hu7)
      · exact (keep_foldl k4 (fun u13 x14 hu15 => (applyRec_keep hu15)))

theorem reloadApply_keep {s₀ s : State} {late : Bool} (h : Keep s₀ s) :
    Keep s₀ (reloadApply s late) := by
  unfold reloadApply
  extract_lets x1 x2 x3 x4 x5 x6 x7 x8 x9 x10 x11
  clear_value x1 x2 x3
  have k12 : Keep s₀ (x4) := (keep_foldl h (fun u13 x14 hu15 => (applyData_keep (applyStagedRecs_keep hu15))))
  clear_value x4 x5 x6
  have k16 : Keep s₀ (x7) := (setFlag_keep k12)
  clear_value x7
  have k17 : Keep s₀ (x8) := (keep_ite k16 (setFlag_keep k16))
  clear_value x8
  have k18 : Keep s₀ (x9) := (showImage_keep k17)
  clear_value x9
  have k19 : Keep s₀ (x10) := (incFld_keep k18)
  clear_value x10
  have k20 : Keep s₀ (x11) := (keep_ite (setFlag_keep k19) k19)
  clear_value x11
  exact (setSlt_keep k20)

theorem reloadAtTick_keep {s₀ s : State} {frame : Nat} (h : Keep s₀ s) :
    Keep s₀ (reloadAtTick s frame) := by
  unfold reloadAtTick
  split
  · rename_i w1 w2
    exact h
  · rename_i w3 w4 w5
    extract_lets x6
    clear_value x6
    exact (keep_ite (reloadApply_keep h) (keep_ite (reloadApply_keep h) h))

theorem reloadRefuse_keep {s₀ s : State} {f : Option SltFail} (h : Keep s₀ s) :
    Keep s₀ (reloadRefuse s f) := by
  unfold reloadRefuse
  extract_lets x1
  have k2 : Keep s₀ (x1) := by
    unfold x1
    split
    · rename_i w3 w4
      exact (showFail_keep h)
    · rename_i w5
      exact h
  clear_value x1
  exact (setSlt_keep (dropStaged_keep k2))

theorem stageAll_keep {s₀ : State} {img : List Byte} {a2 : List Sect} {a3 : Nat} {s : State} (h : Keep s₀ s) :
    Keep s₀ (stageAll img a2 a3 s).1 := by
  induction a2 generalizing img a3 s
  · unfold stageAll
    exact h
  · rename_i n14 n15 ih16; unfold stageAll
    split
    · rename_i w17 w18 w19 w20
      have k21 : Keep s₀ w18 := keep_fst w20 ((ih16 (micaWrite_keep h)))
      exact k21

theorem reloadStage_keep {s₀ s : State} {img : List Byte} (h : Keep s₀ s) :
    Keep s₀ (reloadStage s img) := by
  unfold reloadStage
  extract_lets x1
  clear_value x1
  split
  · rename_i w2 w3 w4
    exact (reloadRefuse_keep h)
  · rename_i w5 w6 w7
    extract_lets x8
    clear_value x8
    split
    · rename_i w9 w10 w11
      exact (reloadRefuse_keep h)
    · rename_i w12 w13
      split
      · rename_i w14 w15 w16
        exact (reloadRefuse_keep h)
      · rename_i w17 w18 w19
        have k20 : Keep s₀ w18 := (bodiesCheck_keep h) _ w19
        refine keep_ite ?_ ?_
        · exact (reloadRefuse_keep h)
        · refine keep_ite ?_ ?_
          · exact (reloadRefuse_keep h)
          · refine keep_ite ?_ ?_
            · exact (reloadRefuse_keep h)
            · split
              · rename_i w21 w22 w23 w24
                have k25 : Keep s₀ w22 := keep_fst w24 ((stageAll_keep h))
                exact (setSlt_keep k25)

end Sys2Proof.Machine
end

