-- ==== Sys2Proof/Laws/KeepChain.lean ====
section
/-! SUPPORT. What the operations of Machine/Chain.lean keep: canonical stores, the queue, outputs only added. -/

namespace Sys2Proof.Machine

theorem setJob_keep {s₀ s : State} {j : Nat} (h : Keep s₀ s) :
    Keep s₀ (setJob s j) := by
  unfold setJob
  exact (setSlt_keep h)

theorem readFlash_keep {s₀ s : State} {j : Nat} (h : Keep s₀ s) :
    Keep s₀ (readFlash s j) := by
  unfold readFlash
  exact (emit_keep (setJob_keep h))

theorem startReload_keep {s₀ s : State} (h : Keep s₀ s) :
    Keep s₀ (startReload s) := by
  unfold startReload
  exact (readFlash_keep (setSlt_keep h))

theorem sampleSigreq_keep {s₀ s : State} (h : Keep s₀ s) :
    Keep s₀ (sampleSigreq s) := by
  unfold sampleSigreq
  extract_lets x1
  clear_value x1
  exact (keep_same (s := s) rfl rfl rfl rfl rfl rfl rfl h)

theorem effPhase_keep {s₀ s : State} {a2 : Nat} {b : List Byte} (h : Keep s₀ s) :
    Keep s₀ (effPhase s a2 b) := by
  unfold effPhase
  extract_lets x1
  have k2 : Keep s₀ (x1) := (setSlt_keep h)
  clear_value x1
  exact (keep_ite h (keep_ite (enterTimelock_keep k2) k2))

theorem heldReload_keep {s₀ s : State} (h : Keep s₀ s) :
    Keep s₀ (heldReload s) := by
  unfold heldReload
  exact (keep_ite (startReload_keep h) h)

theorem dropOutst_keep {s₀ s : State} {a2 : Nat} (h : Keep s₀ s) :
    Keep s₀ (dropOutst s a2) := by
  unfold dropOutst
  exact (setSlt_keep h)

theorem effReload_keep {s₀ s : State} {a2 : Nat} {b : List Byte} (h : Keep s₀ s) :
    Keep s₀ (effReload s a2 b) := by
  unfold effReload
  extract_lets x1
  clear_value x1
  refine keep_ite ?_ ?_
  · exact h
  · split
    · rename_i w2 w3
      exact (keep_ite h (setSlt_keep (dropStaged_keep h)))
    · rename_i w4 w5
      exact (keep_ite (setSlt_keep h) (setSlt_keep h))
    · rename_i w6 w7
      exact (setSlt_keep (dropStaged_keep h))
    · rename_i w8 w9 w10 w11
      exact h

theorem execHeadPoll_keep {s₀ s : State} (h : Keep s₀ s) :
    ∃ t, execHeadPoll s = .next t ∧ Keep s₀ t := by
  unfold execHeadPoll
  exact ⟨_, rfl, (keep_ite (sendPoll_keep h) h)⟩

theorem effNone_keep {s₀ s : State} {a2 : Nat} {a3 : List Byte} (h : Keep s₀ s) :
    Keep s₀ (effNone s a2 a3) := by
  unfold effNone
  exact h

theorem showFlash_keep {s₀ s : State} {jedec : Nat} {f : Flash} (h : Keep s₀ s) :
    Keep s₀ (showFlash s jedec f) := by
  unfold showFlash
  extract_lets x1
  have k2 : Keep s₀ (x1) := (setFld_keep h)
  clear_value x1
  exact (setFld_keep (setFld_keep k2))

theorem execSlateCheckDone_keep {s₀ s : State} (h : Keep s₀ s) :
    ∃ t, execSlateCheckDone s = .next t ∧ Keep s₀ t := by
  unfold execSlateCheckDone
  refine ⟨_, rfl, ?_⟩
  split
  · exact h
  · refine keep_ite h (keep_ite ?_ (keep_ite (setSlt_keep (reloadStage_keep (sampleSigreq_keep h))) h))
    extract_lets x
    have k : Keep s₀ x := sampleSigreq_keep h
    clear_value x
    split
    · exact slateRefuse_keep k
    · rename_i e
      exact enterSu_keep (slateApply_keep k (loadCheck_keep k _ e))

theorem execSlateReload_keep {s₀ s : State} (h : Keep s₀ s) :
    ∃ t, execSlateReload s = .next t ∧ Keep s₀ t := by
  unfold execSlateReload
  refine ⟨_, rfl, ?_⟩
  refine portAct_keep ?_ ?_
  · exact h
  · intro u1 h2
    exact (keep_ite h2 (keep_ite (setSlt_keep h2) (keep_ite (startReload_keep h2) h2)))

theorem effCand_keep {s₀ s : State} {a2 : Nat} {b : List Byte} (h : Keep s₀ s) :
    Keep s₀ (effCand s a2 b) := by
  unfold effCand
  exact (keep_ite h (elect_keep (keep_foldl h (fun u1 x2 hu3 => (wr_keep hu3)))))

theorem sendPieces_keep {s₀ s : State} {ps : List (Nat × List Byte)} (h : Keep s₀ s) :
    Keep s₀ (sendPieces s ps) := by
  unfold sendPieces
  exact (keep_foldl h (fun u1 x2 hu3 => (sendChain_keep hu3)))

theorem effChain_keep {s₀ s : State} {a2 : Nat} {b : List Byte} (h : Keep s₀ s) :
    Keep s₀ (effChain s a2 b) := by
  unfold effChain
  exact (setFld_keep h)

theorem distribute_keep {s₀ s : State} {img : List Byte} (h : Keep s₀ s) :
    Keep s₀ (distribute s img) := by
  unfold distribute
  extract_lets x1 x2
  have k3 : Keep s₀ (x1) := (setFlag_keep (setJob_keep h))
  clear_value x1 x2
  exact (sendPieces_keep k3)

theorem headLoad_keep {s₀ s : State} {jedec : Nat} {fl : Flash} {image second : List Byte}
    (h : Keep s₀ s) : Keep s₀ (headLoad s jedec fl image second) := by
  unfold headLoad
  extract_lets x
  have k : Keep s₀ x := showFlash_keep (sampleSigreq_keep h)
  clear_value x
  split
  · exact slateRefuse_keep k
  · rename_i img sec keep t e
    have kt : Keep s₀ t := by
      unfold pickImage at e
      split at e
      · rename_i x e'
        injection e with e
        injection e with _ e
        injection e with _ e
        have := loadCheck_keep k _ e'
        rw [e] at this
        exact this
      · split at e
        · split at e
          · rename_i x e'
            injection e with e
            injection e with _ e
            injection e with _ e
            have := loadCheck_keep k _ e'
            rw [e] at this
            exact this
          · cases e
        · cases e
    exact distribute_keep (keep_ite (setFlag_keep (slateApply_keep k kt)) (slateApply_keep k kt))

theorem strNote_keep {s₀ s : State} {f : State → State} (h : Keep s₀ s) (hf : ∀ b1, Keep s₀ b1 → Keep s₀ (f b1)) :
    Keep s₀ (strNote s f) := by
  unfold strNote
  exact (keep_ite h (hf _ h))

theorem takeStratum_keep {s₀ s : State} {n : Nat} (h : Keep s₀ s) :
    Keep s₀ (takeStratum s n) := by
  unfold takeStratum
  extract_lets x1
  have k2 : Keep s₀ (x1) := (setFld_keep (setFlag_keep h))
  clear_value x1
  refine strNote_keep ?_ ?_
  · exact k2
  · intro u3 h4
    exact (setFld_keep h4)

theorem countCrc_keep {s₀ s : State} (h : Keep s₀ s) :
    Keep s₀ (countCrc s) := by
  unfold countCrc
  refine recordErr_keep ?_
  refine strNote_keep ?_ ?_
  · exact h
  · intro u1 h2
    exact (incFld_keep h2)

theorem passMsg_keep {s₀ s : State} {m : ChainMsg} {type : Nat} {kind : Nat}
    {fwd : State → Nat → List Byte → Nat × List Byte} {eff : State → Nat → List Byte → State} (h : Keep s₀ s)
    (heff : ∀ b1 b2 b3, Keep s₀ b1 → Keep s₀ (eff b1 b2 b3)) :
    Keep s₀ (passMsg s m type kind fwd eff) := by
  unfold passMsg
  extract_lets x1 x2
  clear_value x1 x2
  refine keep_ite ?_ ?_
  · exact h
  · refine keep_ite ?_ ?_
    · refine keep_ite ?_ ?_
      · refine putChain_keep ?_
        refine strNote_keep ?_ ?_
        · exact h
        · intro u3 h4
          exact (incFld_keep h4)
      · exact (putChain_keep (countCrc_keep h))
    · split
      · rename_i w5 w6 w7 w8
        refine keep_ite ?_ ?_
        · beta_reduce
          exact (putChain_keep (keep_ite (heff _ _ _ h) h))
        · exact (putChain_keep (countCrc_keep h))

theorem execPollAlive_keep {s₀ : State} {m : ChainMsg} {s : State} (h : Keep s₀ s) :
    ∃ t, execPollAlive m s = .next t ∧ Keep s₀ t := by
  unfold execPollAlive
  refine ⟨_, rfl, ?_⟩
  refine passMsg_keep ?_ ?_
  · exact h
  · intro u1 u2 u3 h4
    exact (effNone_keep h4)

theorem execBcastCand_keep {s₀ : State} {m : ChainMsg} {s : State} (h : Keep s₀ s) :
    ∃ t, execBcastCand m s = .next t ∧ Keep s₀ t := by
  unfold execBcastCand
  refine ⟨_, rfl, ?_⟩
  refine passMsg_keep ?_ ?_
  · exact h
  · intro u1 u2 u3 h4
    exact (effCand_keep h4)

theorem execStrataBadlen_keep {s₀ : State} {m : ChainMsg} {s : State} (h : Keep s₀ s) :
    ∃ t, execStrataBadlen m s = .next t ∧ Keep s₀ t := by
  unfold execStrataBadlen
  refine ⟨_, rfl, ?_⟩
  refine keep_ite ?_ ?_
  · exact h
  · refine passMsg_keep ?_ ?_
    · exact h
    · intro u1 u2 u3 h4
      exact (effNone_keep h4)

theorem execBcastPhase_keep {s₀ : State} {m : ChainMsg} {s : State} (h : Keep s₀ s) :
    ∃ t, execBcastPhase m s = .next t ∧ Keep s₀ t := by
  unfold execBcastPhase
  refine ⟨_, rfl, ?_⟩
  refine passMsg_keep ?_ ?_
  · exact h
  · intro u1 u2 u3 h4
    exact (effPhase_keep h4)

theorem execBcastChain_keep {s₀ : State} {m : ChainMsg} {s : State} (h : Keep s₀ s) :
    ∃ t, execBcastChain m s = .next t ∧ Keep s₀ t := by
  unfold execBcastChain
  refine ⟨_, rfl, ?_⟩
  refine passMsg_keep ?_ ?_
  · exact h
  · intro u1 u2 u3 h4
    exact (effChain_keep h4)

theorem execPollElig_keep {s₀ : State} {m : ChainMsg} {s : State} (h : Keep s₀ s) :
    ∃ t, execPollElig m s = .next t ∧ Keep s₀ t := by
  unfold execPollElig
  refine ⟨_, rfl, ?_⟩
  refine passMsg_keep ?_ ?_
  · exact (keep_ite h (sampleLoden_keep h))
  · intro u1 u2 u3 h4
    exact (effNone_keep h4)

theorem execBcastReload_keep {s₀ : State} {m : ChainMsg} {s : State} (h : Keep s₀ s) :
    ∃ t, execBcastReload m s = .next t ∧ Keep s₀ t := by
  unfold execBcastReload
  refine ⟨_, rfl, ?_⟩
  refine passMsg_keep ?_ ?_
  · exact h
  · intro u1 u2 u3 h4
    exact (effReload_keep h4)

theorem execPollState_keep {s₀ : State} {m : ChainMsg} {s : State} (h : Keep s₀ s) :
    ∃ t, execPollState m s = .next t ∧ Keep s₀ t := by
  unfold execPollState
  refine ⟨_, rfl, ?_⟩
  refine passMsg_keep ?_ ?_
  · exact h
  · intro u1 u2 u3 h4
    exact (effNone_keep h4)

theorem effEnum_keep {s₀ s : State} {a2 : Nat} {a3 : List Byte} (h : Keep s₀ s) :
    Keep s₀ (effEnum s a2 a3) := by
  unfold effEnum
  extract_lets x1
  clear_value x1
  refine keep_ite ?_ ?_
  · refine keep_ite ?_ ?_
    · exact h
    · refine strNote_keep ?_ ?_
      · exact h
      · intro u2 h3
        exact (setFlag_keep h3)
  · refine keep_ite ?_ ?_
    · exact (takeStratum_keep h)
    · refine strNote_keep ?_ ?_
      · exact h
      · intro u4 h5
        exact (setFlag_keep h5)

theorem takePiece_keep {s₀ s : State} {a2 : Nat} {b : List Byte} (h : Keep s₀ s) :
    Keep s₀ (takePiece s a2 b) := by
  unfold takePiece
  extract_lets x1 x2
  clear_value x1 x2
  exact (keep_ite (setSlt_keep h) h)

theorem sendBcast_keep {s₀ s : State} {kind : Nat} {body : List Byte} (h : Keep s₀ s) :
    Keep s₀ (sendBcast s kind body) := by
  unfold sendBcast
  exact (sendChain_keep h)

theorem reloadFail_keep {s₀ s : State} {told : Bool} (h : Keep s₀ s) :
    Keep s₀ (reloadFail s told) := by
  unfold reloadFail
  extract_lets x1 x2 x3
  have k4 : Keep s₀ (x1) := (setFlag_keep h)
  clear_value x1
  have k5 : Keep s₀ (x2) := (attnErr_keep k4)
  clear_value x2
  have k6 : Keep s₀ (x3) := (keep_ite (sendBcast_keep k5) k5)
  clear_value x3
  exact (setSlt_keep (dropStaged_keep k6))

theorem sendEnum_keep {s₀ s : State} (h : Keep s₀ s) :
    Keep s₀ (sendEnum s) := by
  unfold sendEnum
  exact (sendChain_keep (takeStratum_keep h))

theorem execEnumRequest_keep {s₀ s : State} (h : Keep s₀ s) :
    ∃ t, execEnumRequest s = .next t ∧ Keep s₀ t := by
  unfold execEnumRequest
  refine ⟨_, rfl, ?_⟩
  refine portAct_keep ?_ ?_
  · exact h
  · intro u1 h2
    exact (keep_ite (sendEnum_keep h2) h2)

theorem endJobHead_keep {s₀ s : State} (h : Keep s₀ s) :
    Keep s₀ (endJobHead s) := by
  unfold endJobHead
  extract_lets x1
  have k2 : Keep s₀ (x1) := (setFlag_keep (setSlt_keep h))
  clear_value x1
  exact (heldReload_keep k2)

theorem headSend_keep {s₀ s : State} {image : List Byte} {second : List Byte} (h : Keep s₀ s) :
    Keep s₀ (headSend s image second) := by
  unfold headSend
  extract_lets x1
  clear_value x1
  split
  · rename_i w2 w3
    exact (distribute_keep h)
  · rename_i w4 w5 w6
    extract_lets x7
    have k8 : Keep s₀ (x7) := (sendPieces_keep h)
    clear_value x7
    exact (endJobHead_keep (keep_ite (reloadFail_keep k8) k8))

theorem distributed_keep {s₀ s : State} (h : Keep s₀ s) :
    Keep s₀ (distributed s) := by
  unfold distributed
  exact (keep_ite h (keep_ite (endJobHead_keep (enterSu_keep h)) (keep_ite (sendPoll_keep (setJob_keep h)) (endJobHead_keep h))))

theorem flashFail_keep {s₀ s : State} (h : Keep s₀ s) :
    Keep s₀ (flashFail s) := by
  unfold flashFail
  extract_lets x1
  clear_value x1
  split
  · rename_i w2 w3
    exact (keep_ite (slateRefuse_keep h) h)
  · rename_i w4 w5
    exact (endJobHead_keep (reloadFail_keep (showFail_keep h)))
  · rename_i w6 w7
    exact (endJobHead_keep (reloadFail_keep (showFail_keep h)))
  · rename_i w8 w9
    exact (endJobHead_keep h)
  · rename_i w10 w11
    exact (endJobHead_keep h)
  · rename_i w12 w13 w14 w15 w16 w17
    exact h

theorem headCheck_keep {s₀ s : State} {fl : Flash} {image : List Byte} {second : List Byte} (h : Keep s₀ s) :
    Keep s₀ (headCheck s fl image second) := by
  unfold headCheck
  extract_lets x1
  have k2 : Keep s₀ (x1) := (sampleSigreq_keep h)
  clear_value x1
  split
  · rename_i w3 w4 w5
    exact (endJobHead_keep (keep_ite (reloadFail_keep (showFail_keep k2)) k2))
  · rename_i w6 w7 w8 w9 w10
    extract_lets x11 x12 x13
    have k14 : Keep s₀ (x11) := (keep_ite (setFlag_keep k2) k2)
    clear_value x11
    have k15 : Keep s₀ (x12) := (setSlt_keep k14)
    clear_value x12
    have k16 : Keep s₀ (x13) := (reloadStage_keep k15)
    clear_value x13
    exact (keep_ite (readFlash_keep (sendBcast_keep k16)) (readFlash_keep k15))

theorem flashRead_keep {s₀ s : State} {jedec : Nat} {fl : Flash} {image : List Byte} {second : List Byte}
    (h : Keep s₀ s) :
    Keep s₀ (flashRead s jedec fl image second) := by
  unfold flashRead
  split
  · rename_i w1 w2
    exact (keep_ite (headLoad_keep h) h)
  · rename_i w3 w4
    exact (headCheck_keep h)
  · rename_i w5 w6
    exact (headSend_keep h)
  · rename_i w7 w8
    exact (headCheck_keep h)
  · rename_i w9 w10
    exact (headSend_keep h)
  · rename_i w11 w12 w13 w14 w15 w16
    exact h

theorem execFlashReadDone_keep {s₀ : State} {r : FlashResult} {s : State} (h : Keep s₀ s) :
    ∃ t, execFlashReadDone r s = .next t ∧ Keep s₀ t := by
  unfold execFlashReadDone
  refine ⟨_, rfl, ?_⟩
  refine keep_ite ?_ ?_
  · exact h
  · split
    · rename_i w1
      exact (flashFail_keep h)
    · rename_i w2 w3 w4 w5 w6
      split
      · rename_i w7 w8
        exact (flashFail_keep h)
      · rename_i w9 w10 w11
        exact (flashRead_keep h)

theorem decideReload_keep {s₀ s : State} {codes : List Nat} (h : Keep s₀ s) :
    Keep s₀ (decideReload s codes) := by
  unfold decideReload
  extract_lets x1
  clear_value x1
  exact (keep_ite (endJobHead_keep (sendBcast_keep h)) (endJobHead_keep (reloadFail_keep h)))

theorem sendPhase_keep {s₀ s : State} (h : Keep s₀ s) :
    Keep s₀ (sendPhase s) := by
  unfold sendPhase
  exact (sendBcast_keep (setSlt_keep h))

theorem execPhaseTimeout_keep {s₀ s : State} (h : Keep s₀ s) :
    ∃ t, execPhaseTimeout s = .next t ∧ Keep s₀ t := by
  unfold execPhaseTimeout
  exact ⟨_, rfl, (keep_ite (sendPhase_keep (setFlag_keep h)) h)⟩

theorem gotState_keep {s₀ s : State} {b : List Byte} (h : Keep s₀ s) :
    Keep s₀ (gotState s b) := by
  unfold gotState
  extract_lets x1 x2 x3
  clear_value x1
  have k4 : Keep s₀ (x2) := (keep_ite (setSlt_keep h) h)
  clear_value x2
  have k5 : Keep s₀ (x3) := (keep_ite (sendPhase_keep k4) k4)
  clear_value x3
  exact (keep_ite (decideReload_keep h) (keep_ite (readFlash_keep k5) k5))

theorem headApply_keep {s₀ s : State} {m : ChainMsg} (h : Keep s₀ s) :
    Keep s₀ (headApply s m) := by
  unfold headApply
  extract_lets x1 x2 x3
  clear_value x1 x2
  have k4 : Keep s₀ (x3) := (setSlt_keep (effChain_keep h))
  clear_value x3
  refine keep_ite ?_ ?_
  · exact h
  · split
    · rename_i w5 w6 w7
      refine keep_ite ?_ ?_
      · refine strNote_keep ?_ ?_
        · exact h
        · intro u8 h9
          exact (setFlag_keep h9)
      · exact (sendBcast_keep h)
    · rename_i w10 w11 w12
      exact (distributed_keep h)
    · rename_i w13 w14 w15 w16
      exact (keep_ite (readFlash_keep k4) k4)
    · rename_i w17 w18 w19 w20
      exact (effCand_keep h)
    · rename_i w21 w22 w23 w24
      exact (effPhase_keep h)
    · rename_i w25 w26 w27 w28
      exact (effReload_keep h)
    · rename_i w29 w30 w31 w32
      exact (sendBcast_keep h)
    · rename_i w33 w34 w35 w36
      exact (gotState_keep h)
    · rename_i w37 w38 w39 w40 w41 w42 w43 w44 w45 w46
      exact h

theorem noReturn_keep {s₀ s : State} {a2 : Nat} (h : Keep s₀ s) :
    Keep s₀ (noReturn s a2) := by
  unfold noReturn
  extract_lets x1 x2
  have k3 : Keep s₀ (x1) := by
    unfold x1
    refine strNote_keep ?_ ?_
    · exact h
    · intro u4 h5
      exact (setFlag_keep h5)
  clear_value x1
  have k6 : Keep s₀ (x2) := (recordErr_keep k3)
  clear_value x2
  exact (keep_ite (keep_ite (endJobHead_keep (reloadFail_keep k6)) (keep_ite (endJobHead_keep k6) k6)) (setJob_keep k6))

theorem resend_keep {s₀ s : State} {o : Nat × List Byte} (h : Keep s₀ s) :
    Keep s₀ (resend s o) := by
  unfold resend
  extract_lets x1
  clear_value x1
  exact (keep_ite (noReturn_keep h) (sendChain_keep h))

theorem execStrataReturnTimeout_keep {s₀ s : State} (h : Keep s₀ s) :
    ∃ t, execStrataReturnTimeout s = .next t ∧ Keep s₀ t := by
  unfold execStrataReturnTimeout
  refine ⟨_, rfl, ?_⟩
  refine keep_ite ?_ ?_
  · exact h
  · split
    · rename_i w1 w2
      exact h
    · rename_i w3 w4 w5 w6
      exact (resend_keep (dropOutst_keep h))

theorem execEnum_keep {s₀ : State} {m : ChainMsg} {s : State} (h : Keep s₀ s) :
    ∃ t, execEnum m s = .next t ∧ Keep s₀ t := by
  unfold execEnum
  refine ⟨_, rfl, ?_⟩
  refine passMsg_keep ?_ ?_
  · exact h
  · intro u1 u2 u3 h4
    exact (effEnum_keep h4)

theorem execStrataReturn_keep {s₀ : State} {m : ChainMsg} {s : State} (h : Keep s₀ s) :
    ∃ t, execStrataReturn m s = .next t ∧ Keep s₀ t := by
  unfold execStrataReturn
  refine ⟨_, rfl, ?_⟩
  refine keep_ite ?_ ?_
  · exact h
  · refine keep_ite ?_ ?_
    · exact (keep_ite (headApply_keep (dropOutst_keep h)) h)
    · split
      · rename_i w1 w2
        exact (countCrc_keep h)
      · rename_i w3 w4 w5 w6
        exact (resend_keep (dropOutst_keep (countCrc_keep h)))

theorem execImage_keep {s₀ : State} {m : ChainMsg} {s : State} (h : Keep s₀ s) :
    ∃ t, execImage m s = .next t ∧ Keep s₀ t := by
  unfold execImage
  refine ⟨_, rfl, ?_⟩
  refine passMsg_keep ?_ ?_
  · exact h
  · intro u1 u2 u3 h4
    exact (takePiece_keep h4)

end Sys2Proof.Machine
end

