-- ==== Sys2Proof/Laws/KeepLinks.lean ====
section
/-! SUPPORT. What the operations of Machine/Links.lean keep: canonical stores, the queue, outputs only added. -/

namespace Sys2Proof.Machine

theorem fenceHeard_keep {s₀ s : State} {l : Nat} (h : Keep s₀ s) :
    Keep s₀ (fenceHeard s l) := by
  unfold fenceHeard
  extract_lets x1 x2 x3
  have k4 : Keep s₀ (x1) := (sendLinkctl_keep h)
  clear_value x1
  have k5 : Keep s₀ (x2) := (keep_ite k4 (sendLinkctl_keep k4))
  clear_value x2 x3
  exact (setLink_keep k5)

theorem drainCtl_keep {s₀ s : State} {l : Nat} {op : Nat} (h : Keep s₀ s) :
    Keep s₀ (drainCtl s l op) := by
  unfold drainCtl
  exact (drainMsg_keep h)

theorem unfenceFailed_keep {s₀ s : State} {l : Nat} (h : Keep s₀ s) :
    Keep s₀ (unfenceFailed s l) := by
  unfold unfenceFailed
  extract_lets x1 x2 x3
  have k4 : ∀ y1 y2, Keep s₀ y2 → Keep s₀ (x1 y1 y2) := by
    intro y1 y2 h0_5
    unfold x1
    split
    · rename_i w6 w7 w8
      exact (completeJob_keep (addCond_keep h0_5))
    · rename_i w9
      exact h0_5
  clear_value x1 x2
  have k10 : Keep s₀ (x3) := (setLink_keep h)
  clear_value x3
  exact (k4 _ _ (k4 _ _ k10))

theorem toActive_keep {s₀ s : State} {l : Nat} (h : Keep s₀ s) :
    Keep s₀ (toActive s l) := by
  unfold toActive
  extract_lets x1 x2 x3 x4
  clear_value x1
  have k5 : Keep s₀ (x2) := (setLink_keep h)
  clear_value x2
  have k6 : Keep s₀ (x3) := (setFld_keep (setLinkState_keep k5))
  clear_value x3
  have k7 : Keep s₀ (x4) := (keep_ite (sendLinkctl_keep (setLink_keep k6)) k6)
  clear_value x4
  exact (checkLinkup_keep k7)

theorem resendBeat_keep {s₀ s : State} {l : Nat} (h : Keep s₀ s) :
    Keep s₀ (resendBeat s l) := by
  unfold resendBeat
  extract_lets x1
  clear_value x1
  split
  · rename_i w2 w3
    exact h
  · rename_i w4 w5 w6 w7 w8
    extract_lets x9 x10
    clear_value x9
    have k11 : Keep s₀ (x10) := (setLink_keep h)
    clear_value x10
    exact (emit_keep (incFld_keep k11))

theorem takeCredit_keep {s₀ s : State} {l : Nat} {f : Flit} (h : Keep s₀ s) :
    Keep s₀ (takeCredit s l f) := by
  unfold takeCredit
  extract_lets x1 x2
  clear_value x1 x2
  exact (setLink_keep h)

theorem ackBeat_keep {s₀ s : State} {l : Nat} (h : Keep s₀ s) :
    Keep s₀ (ackBeat s l) := by
  unfold ackBeat
  extract_lets x1
  clear_value x1
  exact (emit_keep h)

theorem trainPol_keep {s₀ s : State} {l : Nat} (h : Keep s₀ s) :
    Keep s₀ (trainPol s l) := by
  unfold trainPol
  extract_lets x1
  clear_value x1
  split
  · rename_i w2 w3
    exact h
  · rename_i w4 w5 w6
    exact (applyRec_keep (keep_same (s := s) rfl rfl rfl rfl rfl rfl rfl h))

theorem noteReject_keep {s₀ s : State} {l : Nat} {sq : Nat} (h : Keep s₀ s) :
    Keep s₀ (noteReject s l sq) := by
  unfold noteReject
  extract_lets x1 x2
  clear_value x1 x2
  exact (setLink_keep h)

theorem haltUsers_keep {s₀ s : State} {l : Nat} (h : Keep s₀ s) :
    Keep s₀ (haltUsers s l) := by
  unfold haltUsers
  exact (keep_foldl h (fun u1 x2 hu3 => (keep_ite (haltStream_keep hu3) hu3)))

theorem toDetect_keep {s₀ s : State} {l : Nat} (h : Keep s₀ s) :
    Keep s₀ (toDetect s l) := by
  unfold toDetect
  exact (setLinkState_keep (trainPol_keep h))

theorem ctlBeat_keep {s₀ s : State} {l : Nat} {op : Nat} {p0 : Nat} {p1 : Nat} (h : Keep s₀ s) :
    Keep s₀ (ctlBeat s l op p0 p1) := by
  unfold ctlBeat
  extract_lets x1
  clear_value x1
  exact (emit_keep h)

theorem sendProbe_keep {s₀ s : State} {l : Nat} (h : Keep s₀ s) :
    Keep s₀ (sendProbe s l) := by
  unfold sendProbe
  exact (ctlBeat_keep h)

theorem calibrateLink_keep {s₀ s : State} {l : Nat} (h : Keep s₀ s) :
    Keep s₀ (calibrateLink s l) := by
  unfold calibrateLink
  extract_lets x1 x2
  clear_value x1
  have k3 : Keep s₀ (x2) := (wr_keep h)
  clear_value x2
  exact (sendProbe_keep (setLinkState_keep (setLink_keep k3)))

theorem takeAck_keep {s₀ s : State} {l : Nat} {f : Flit} (h : Keep s₀ s) :
    Keep s₀ (takeAck s l f).1 := by
  unfold takeAck
  extract_lets x1 x2
  clear_value x1 x2
  split
  · rename_i w3 w4
    exact h
  · rename_i w5 w6 w7
    split
    · rename_i w8
      dsimp only
      exact (setLink_keep h)
    · rename_i w9
      dsimp only
      exact (setLink_keep h)

theorem takeFlit_keep {s₀ s : State} {l : Nat} {f : Flit} {rep : Bool} {inj : Bool} (h : Keep s₀ s) :
    Keep s₀ (takeFlit s l f rep inj).1 := by
  unfold takeFlit
  extract_lets x1 x2 x3 x4 x5
  have k6 : Keep s₀ (x1) := (takeCredit_keep h)
  clear_value x1 x2 x3 x4 x5
  split
  · rename_i w7
    exact k6
  · rename_i w8
    split
    · rename_i w9
      dsimp only
      exact (badMsg_keep (setLink_keep k6))
    · rename_i w10
      split
      · rename_i w11
        exact k6
      · rename_i w12
        dsimp only
        exact (setLink_keep k6)

theorem takeFlits_keep {s₀ : State} {l : Nat} {rep : Bool} {a3 : List Flit} {a4 : Bool} {s : State} (h : Keep s₀ s) :
    Keep s₀ (takeFlits l rep a3 a4 s).1 := by
  induction a3 generalizing l rep a4 s
  · unfold takeFlits
    exact h
  · rename_i n13 n14 ih15; unfold takeFlits
    extract_lets x16 x17
    have k18 : Keep s₀ (x16).1 := (takeFlit_keep h)
    clear_value x16
    have k19 : Keep s₀ (x17).1 := (ih15 k18)
    clear_value x17
    exact k19

theorem finishProbes_keep {s₀ s : State} {l : Nat} (h : Keep s₀ s) :
    Keep s₀ (finishProbes s l) := by
  unfold finishProbes
  extract_lets x1 x2 x3 x4 x5
  clear_value x1
  have k6 : Keep s₀ (x2) := (setFld_keep h)
  clear_value x2
  have k7 : Keep s₀ (x4) := (setFlag_keep k6)
  clear_value x4
  have k8 : Keep s₀ (x5) := (keep_ite (wr_keep k7) k6)
  clear_value x5
  exact (toActive_keep k8)

theorem probePair_keep {s₀ s : State} {l : Nat} {p1 : Nat} (h : Keep s₀ s) :
    Keep s₀ (probePair s l p1) := by
  unfold probePair
  extract_lets x1 x2 x3
  clear_value x1 x2
  have k4 : Keep s₀ (x3) := (setLink_keep h)
  clear_value x3
  exact (keep_ite (finishProbes_keep k4) (sendProbe_keep k4))

theorem newBeat_keep {s₀ s : State} {l : Nat} {k : LinkSt} {fs : List Flit} (h : Keep s₀ s) :
    Keep s₀ (newBeat s l k fs) := by
  unfold newBeat
  extract_lets x1 x2 x3
  clear_value x1 x2 x3
  exact (emit_keep (setLink_keep h))

theorem askPartner_keep {s₀ s : State} {l : Nat} (h : Keep s₀ s) :
    Keep s₀ (askPartner s l) := by
  unfold askPartner
  extract_lets x1 x2
  clear_value x1 x2
  exact (keep_ite (newBeat_keep h) h)

theorem loseTraffic_keep {s₀ s : State} {l : Nat} {inj : Bool} (h : Keep s₀ s) :
    Keep s₀ (loseTraffic s l inj) := by
  unfold loseTraffic
  extract_lets x1 x2 x3 x4 x5 x6 x7 x8 x9 x10
  clear_value x1 x2 x3 x4 x5
  have k11 : Keep s₀ (x6) := (setLink_keep h)
  clear_value x6
  have k12 : Keep s₀ (x7) := (incFld_keep k11)
  clear_value x7
  have k13 : Keep s₀ (x8) := (setFlag_keep k12)
  clear_value x8 x9
  have k14 : Keep s₀ (x10) := (keep_ite k11 (recordErr_keep k13))
  clear_value x10
  exact (keep_foldl k14 (fun u15 x16 hu17 => (haltStream_keep hu17)))

theorem linkOut_keep {s₀ s : State} {l : Nat} {st : Nat} {inj : Bool} (h : Keep s₀ s) :
    Keep s₀ (linkOut s l st inj) := by
  unfold linkOut
  extract_lets x1
  have k2 : Keep s₀ (x1) := (linkGone_keep (loseTraffic_keep (setLinkState_keep h)))
  clear_value x1
  exact (checkLinkup_keep (unfenceFailed_keep k2))

theorem doDisable_keep {s₀ s : State} {l : Nat} (h : Keep s₀ s) :
    Keep s₀ (doDisable s l) := by
  unfold doDisable
  exact (keep_ite (linkOut_keep h) h)

theorem linkToDown_keep {s₀ s : State} {l : Nat} {inj : Bool} (h : Keep s₀ s) :
    Keep s₀ (linkToDown s l inj) := by
  unfold linkToDown
  exact (linkOut_keep (setFlag_keep h))

theorem execCapabilityWord_keep {s₀ : State} {l : Fin 6} {w : W64} {s : State} (h : Keep s₀ s) :
    ∃ t, execCapabilityWord l w s = .next t ∧ Keep s₀ t := by
  unfold execCapabilityWord
  refine ⟨_, rfl, ?_⟩
  extract_lets x1 x2 x3 x4 x5 x6
  clear_value x1
  have k7 : Keep s₀ (x2) := (wr_keep h)
  clear_value x2 x3 x4
  have k8 : Keep s₀ (x5) := (setLink_keep k7)
  clear_value x5 x6
  refine keep_ite ?_ ?_
  · exact h
  · split
    · rename_i w9 w10
      exact (linkToDown_keep (setFlag_keep k8))
    · rename_i w11 w12 w13
      extract_lets x14
      have k15 : Keep s₀ (x14) := (setLink_keep k8)
      clear_value x14
      exact (emit_keep (setLinkState_keep k15))

theorem execTrainingTimeout_keep {s₀ : State} {l : Fin 6} {s : State} (h : Keep s₀ s) :
    ∃ t, execTrainingTimeout l s = .next t ∧ Keep s₀ t := by
  unfold execTrainingTimeout
  refine ⟨_, rfl, ?_⟩
  extract_lets x1 x2 x3 x4 x5
  clear_value x1 x2 x3 x4
  have k6 : Keep s₀ (x5) := (setFld_keep h)
  clear_value x5
  exact (keep_ite (linkOut_keep h) (keep_ite (keep_ite (linkToDown_keep k6) (toDetect_keep k6)) h))

theorem execDisable_keep {s₀ : State} {l : Fin 6} {s : State} (h : Keep s₀ s) :
    ∃ t, execDisable l s = .next t ∧ Keep s₀ t := by
  unfold execDisable
  refine ⟨_, rfl, ?_⟩
  refine portAct_keep ?_ ?_
  · exact h
  · intro u1 h2
    exact (doDisable_keep h2)

theorem linksStart_keep {s₀ s : State} (h : Keep s₀ s) :
    Keep s₀ (linksStart s) := by
  unfold linksStart
  exact (checkLinkup_keep (keep_foldl h (fun u1 x2 hu3 => (keep_ite (toDetect_keep hu3) hu3))))

theorem checkFenced_keep {s₀ s : State} {l : Nat} (h : Keep s₀ s) :
    Keep s₀ (checkFenced s l) := by
  unfold checkFenced
  extract_lets x1 x2
  clear_value x1
  have k3 : Keep s₀ (x2) := (setLink_keep h)
  clear_value x2
  exact (keep_ite (haltUsers_keep (linkGone_keep (setLinkState_keep k3))) h)

theorem sendBeat_keep {s₀ s : State} {l : Nat} (h : Keep s₀ s) :
    Keep s₀ (sendBeat s l) := by
  unfold sendBeat
  extract_lets x1 x2
  clear_value x1 x2
  exact (keep_ite h (keep_ite (resendBeat_keep h) (keep_ite (ackBeat_keep h) (checkFenced_keep (newBeat_keep h)))))

theorem announce_keep {s₀ s : State} {l : Nat} (h : Keep s₀ s) :
    Keep s₀ (announce s l) := by
  unfold announce
  extract_lets x1 x2
  have k3 : Keep s₀ (x1) := (setLinkState_keep h)
  clear_value x1 x2
  exact (emit_keep (wr_keep k3))

theorem execLinkDetect_keep {s₀ : State} {l : Fin 6} {width : BitVec 3} {div : BitVec 3} {s : State} (h : Keep s₀ s) :
    ∃ t, execLinkDetect l width div s = .next t ∧ Keep s₀ t := by
  unfold execLinkDetect
  refine ⟨_, rfl, ?_⟩
  extract_lets x1 x2
  clear_value x1 x2
  exact (keep_ite h (announce_keep (setLink_keep h)))

theorem retrainNow_keep {s₀ s : State} {l : Nat} {why : Retrain} {inj : Bool} (h : Keep s₀ s) :
    Keep s₀ (retrainNow s l why inj) := by
  unfold retrainNow
  extract_lets x1 x2 x3 x4 x5 x6 x7
  have k8 : Keep s₀ (x1) := (keep_ite (askPartner_keep h) h)
  clear_value x1
  have k9 : Keep s₀ (x2) := (incFld_keep k8)
  clear_value x2 x3
  have k10 : Keep s₀ (x4) := (recordErr_keep k9)
  clear_value x4 x5
  have k11 : Keep s₀ (x6) := (setLink_keep k10)
  clear_value x6
  have k12 : Keep s₀ (x7) := (linkGone_keep k11)
  clear_value x7
  exact (keep_ite h (keep_ite (toDetect_keep k12) (announce_keep (trainPol_keep k12))))

theorem doRetrain_keep {s₀ s : State} {l : Nat} (h : Keep s₀ s) :
    Keep s₀ (doRetrain s l) := by
  unfold doRetrain
  exact (keep_ite h (keep_ite (retrainNow_keep h) (keep_ite (toDetect_keep (setFld_keep h)) h)))

theorem execRetrain_keep {s₀ : State} {l : Fin 6} {s : State} (h : Keep s₀ s) :
    ∃ t, execRetrain l s = .next t ∧ Keep s₀ t := by
  unfold execRetrain
  refine ⟨_, rfl, ?_⟩
  refine portAct_keep ?_ ?_
  · exact h
  · intro u1 h2
    exact (doRetrain_keep h2)

theorem rejected_keep {s₀ s : State} {l : Nat} {sq : Nat} (h : Keep s₀ s) :
    Keep s₀ (rejected s l sq) := by
  unfold rejected
  extract_lets x1
  have k2 : Keep s₀ (x1) := (noteReject_keep h)
  clear_value x1
  exact (keep_ite (retrainNow_keep k2) k2)

theorem goodBeat_keep {s₀ s : State} {l : Nat} {f : Flit} {beat : List Flit} (h : Keep s₀ s) :
    Keep s₀ (goodBeat s l f beat) := by
  unfold goodBeat
  extract_lets x1 x2 x3 x4 x5 x6 x7 x8 x9 x10
  clear_value x1 x2 x3
  have k11 : Keep s₀ (x4).1 := (takeAck_keep h)
  clear_value x4
  have k12 : Keep s₀ (x5) := k11
  clear_value x5 x6 x7
  have k13 : Keep s₀ (x8) := (setLink_keep k12)
  clear_value x8
  have k14 : Keep s₀ (x9).2 := (flint_keep k13)
  clear_value x9
  have k15 : Keep s₀ (x10).1 := (takeFlits_keep k14)
  clear_value x10
  exact (keep_ite (keep_ite (setLink_keep h) (rejected_keep h)) (keep_ite (retrainNow_keep k12) (keep_ite (checkFenced_keep k12) (keep_ite (retrainNow_keep k15) (checkFenced_keep k15)))))

theorem execLinkLoss_keep {s₀ : State} {l : Fin 6} {s : State} (h : Keep s₀ s) :
    ∃ t, execLinkLoss l s = .next t ∧ Keep s₀ t := by
  unfold execLinkLoss
  exact ⟨_, rfl, (retrainNow_keep h)⟩

theorem execLinkctl_keep {s₀ : State} {l : Fin 6} {op : Nat} {p0 : W64} {p1 : W64} {s : State} (h : Keep s₀ s) :
    ∃ t, execLinkctl l op p0 p1 s = .next t ∧ Keep s₀ t := by
  unfold execLinkctl
  refine ⟨_, rfl, ?_⟩
  extract_lets x1 x2 x3 x4 x5
  clear_value x1 x2 x3
  have k6 : Keep s₀ (x4) := (keep_ite (drainCtl_keep h) h)
  clear_value x4 x5
  split
  · rename_i w7
    exact (retrainNow_keep k6)
  · rename_i w8
    exact (keep_ite (checkFenced_keep (fenceHeard_keep k6)) k6)
  · rename_i w9
    exact (keep_ite (checkFenced_keep (setLink_keep k6)) k6)
  · rename_i w10
    exact (keep_ite (sendLinkctl_keep k6) (keep_ite (ctlBeat_keep k6) k6))
  · rename_i w11
    exact (keep_ite (probePair_keep k6) k6)
  · rename_i w12 w13 w14 w15 w16 w17
    exact (keep_ite (badMsg_keep k6) k6)

theorem execModeWord_keep {s₀ : State} {l : Fin 6} {w : W64} {s : State} (h : Keep s₀ s) :
    ∃ t, execModeWord l w s = .next t ∧ Keep s₀ t := by
  unfold execModeWord
  refine ⟨_, rfl, ?_⟩
  extract_lets x1
  clear_value x1
  exact (keep_ite h (keep_ite (calibrateLink_keep h) (announce_keep h)))

theorem crcBeat_keep {s₀ s : State} {l : Nat} {n : Nat} {inj : Bool} (h : Keep s₀ s) :
    Keep s₀ (crcBeat s l n inj) := by
  unfold crcBeat
  extract_lets x1 x2 x3
  have k4 : Keep s₀ (x1) := (incFld_keep h)
  clear_value x1 x2
  have k5 : Keep s₀ (x3) := (recordErr_keep k4)
  clear_value x3
  exact (rejected_keep k5)

theorem execBeatReceive_keep {s₀ : State} {l : Fin 6} {beat : List Flit} {s : State} (h : Keep s₀ s) :
    ∃ t, execBeatReceive l beat s = .next t ∧ Keep s₀ t := by
  unfold execBeatReceive
  refine ⟨_, rfl, ?_⟩
  extract_lets x1 x2 x3 x4 x5 x6 x7
  clear_value x1
  have k8 : Keep s₀ (x2).2 := (flint_keep h)
  clear_value x2
  have k9 : Keep s₀ (x3).2 := (flint_keep k8)
  clear_value x3
  have k10 : Keep s₀ (x4).2 := (flint_keep k9)
  clear_value x4
  have k11 : Keep s₀ (x5) := k10
  clear_value x5 x6 x7
  split
  · rename_i w12
    exact h
  · rename_i w13 w14 w15
    exact (keep_ite h (keep_ite (linkToDown_keep k11) (keep_ite (retrainNow_keep k11) (keep_ite (crcBeat_keep k11) (goodBeat_keep k11)))))

end Sys2Proof.Machine
end

