-- ==== Sys2Proof/Laws/KeepRegPort.lean ====
section
/-! SUPPORT. What the operations of Machine/RegPort.lean keep: canonical stores, the queue, outputs only added. -/

namespace Sys2Proof.Machine

theorem execTraceDrop_keep {s₀ s : State} (h : Keep s₀ s) :
    ∃ t, execTraceDrop s = .next t ∧ Keep s₀ t := by
  unfold execTraceDrop
  refine ⟨_, rfl, ?_⟩
  split
  · rename_i w1 w2
    exact h
  · rename_i w3 w4 w5 w6
    exact (incFld_keep (keep_same (s := s) rfl rfl rfl rfl rfl rfl rfl h))

theorem execTraceRecord_keep {s₀ s : State} (h : Keep s₀ s) :
    ∃ t, execTraceRecord s = .next t ∧ Keep s₀ t := by
  unfold execTraceRecord
  refine ⟨_, rfl, ?_⟩
  extract_lets x1 x2 x3
  clear_value x1 x2 x3
  split
  · rename_i w4 w5 w6 w7 w8 w9 w10 w11
    extract_lets x12 x13
    have k14 : Keep s₀ (x12) := (emit_keep (keep_same (s := s) rfl rfl rfl rfl rfl rfl rfl h))
    clear_value x12
    have k15 : Keep s₀ (x13) := (incFld_keep k14)
    clear_value x13
    exact (keep_ite h (keep_ite (semPostLocal_keep k15) k15))
  · rename_i w16 w17 w18
    exact h

theorem execDbgMicaRead_keep {s₀ : State} {value : W64} {s : State} (h : Keep s₀ s) :
    ∃ t, execDbgMicaRead value s = .next t ∧ Keep s₀ t := by
  unfold execDbgMicaRead
  extract_lets x1 x2
  clear_value x1 x2
  refine ⟨_, rfl, ?_⟩
  refine portAct_keep ?_ ?_
  · exact h
  · intro u3 h4
    extract_lets x5
    have k6 : Keep s₀ (x5) := (setFlag_keep (setFld_keep h4))
    clear_value x5
    exact (keep_ite h4 (keep_ite (setFlag_keep k6) k6))

theorem execBadAccess_keep {s₀ : State} {addr : BitVec 20} {isWrite : Bool} {strobes : BitVec 8} {value : W64}
    {s : State} (h : Keep s₀ s) :
    ∃ t, execBadAccess addr isWrite strobes value s = .next t ∧ Keep s₀ t := by
  unfold execBadAccess
  extract_lets x1 x2
  clear_value x1 x2
  refine ⟨_, rfl, ?_⟩
  refine keep_ite ?_ ?_
  · exact h
  · refine keep_ite ?_ ?_
    · exact (badAccess_keep h)
    · split
      · rename_i w3 w4
        exact (badAccess_keep h)
      · rename_i w5 w6 w7
        split
        · rename_i w8 w9 w10
          exact (badAccess_keep h)
        · rename_i w11 w12
          exact h

theorem execTraceEnable_keep {s₀ : State} {value : W64} {s : State} (h : Keep s₀ s) :
    ∃ t, execTraceEnable value s = .next t ∧ Keep s₀ t := by
  unfold execTraceEnable
  extract_lets x1 x2 x3
  clear_value x1 x2 x3
  refine ⟨_, rfl, ?_⟩
  refine keep_ite ?_ ?_
  · exact (setFlag_keep (badAccess_keep h))
  · refine portAct_keep ?_ ?_
    · exact h
    · intro u4 h5
      extract_lets x6 x7 x8 x9
      have k10 : Keep s₀ (x6) := (setFld_keep h5)
      clear_value x6
      have k11 : Keep s₀ (x7) := (keep_ite k10 (setFld_keep (setFld_keep k10)))
      clear_value x7 x8 x9
      exact (setFlag_keep (setFlag_keep k11))

theorem execInjectorArm_keep {s₀ : State} {injector : Fin 8} {value : W64} {s : State} (h : Keep s₀ s) :
    ∃ t, execInjectorArm injector value s = .next t ∧ Keep s₀ t := by
  unfold execInjectorArm
  extract_lets x1 x2 x3 x4
  clear_value x1 x2 x3
  have k5 : ∀ y1 y2, Keep s₀ y1 → Keep s₀ (x4 y1 y2) := by
    intro y1 y2 h0_6
    unfold x4
    exact (setFld_keep h0_6)
  clear_value x4
  refine ⟨_, rfl, ?_⟩
  refine portAct_keep ?_ ?_
  · exact h
  · intro u7 h8
    extract_lets x9
    have k10 : Keep s₀ (x9) := (wr_keep h8)
    clear_value x9
    exact (keep_ite k10 (keep_ite (k5 _ _ k10) (keep_ite (k5 _ _ k10) (setFlag_keep (k5 _ _ (keep_same (s := x9) rfl rfl rfl rfl rfl rfl rfl k10))))))

theorem execDbgMicaReadDone_keep {s₀ s : State} (h : Keep s₀ s) :
    ∃ t, execDbgMicaReadDone s = .next t ∧ Keep s₀ t := by
  unfold execDbgMicaReadDone
  extract_lets x1 x2 x3 x4 x5 x6
  clear_value x1 x2
  have k7 : Keep s₀ (x3) := (touchRange_keep h)
  clear_value x3 x4
  have k8 : Keep s₀ (x5) := (keep_foldl k7 (fun u9 x10 hu11 => (wr_keep hu11)))
  clear_value x5
  have k12 : Keep s₀ (x6) := (setFld_keep k8)
  clear_value x6
  exact ⟨_, rfl, (keep_ite h (setFlag_keep (setFlag_keep k12)))⟩

theorem writeReg_keep {s₀ s : State} {a2 : Nat} {r : RegRow} {v : Nat} (h : Keep s₀ s) :
    Keep s₀ (writeReg s a2 r v) := by
  unfold writeReg
  extract_lets x1
  have k2 : ∀ y1, Keep s₀ y1 → Keep s₀ (x1 y1) := by
    intro y1 h0_3
    unfold x1
    exact (wr_keep h0_3)
  clear_value x1
  split
  · rename_i w4 w5 w6
    exact (keep_ite h (keep_same (s := s) rfl rfl rfl rfl rfl rfl rfl h))
  · rename_i w7 w8
    split
    · rename_i w9 w10 w11
      exact (keep_ite h (keep_ite (setFlag_keep h) (k2 _ h)))
    · rename_i w12 w13
      refine keep_ite ?_ ?_
      · exact h
      · refine keep_ite ?_ ?_
        · exact h
        · refine keep_ite ?_ ?_
          · exact (showEligible_keep (k2 _ h))
          · split
            · rename_i w14 w15 w16
              exact (setFld_keep (k2 _ h))
            · rename_i w17 w18
              exact (k2 _ h)

theorem execRegisterWrite_keep {s₀ : State} {addr : BitVec 20} {value : W64} {s : State} (h : Keep s₀ s) :
    ∃ t, execRegisterWrite addr value s = .next t ∧ Keep s₀ t := by
  unfold execRegisterWrite
  extract_lets x1
  clear_value x1
  refine ⟨_, rfl, ?_⟩
  refine keep_ite ?_ ?_
  · exact h
  · refine keep_ite ?_ ?_
    · exact (badAccess_keep h)
    · split
      · rename_i w2 w3
        exact (badAccess_keep h)
      · rename_i w4 w5 w6
        extract_lets x7
        have k8 : Keep s₀ (x7) := (writeReg_keep h)
        clear_value x7
        split
        · rename_i w9 w10 w11
          exact (badAccess_keep h)
        · rename_i w12 w13
          exact (keep_ite h (keep_ite (badAccess_keep k8) k8))

end Sys2Proof.Machine
end

