-- ==== Sys2Proof/Laws/KeepTickEv.lean ====
section
/-! SUPPORT. What the operations of Machine/TickEv.lean keep: canonical stores, the queue, outputs only added. -/

namespace Sys2Proof.Machine

theorem setEligible_keep {s₀ s : State} (h : Keep s₀ s) :
    Keep s₀ (setEligible s) := by
  unfold setEligible
  refine keep_foldl ?_ (fun u1 x2 hu3 => ?_)
  · exact h
  · extract_lets x4
    clear_value x4
    exact (keep_ite hu3 (refreshVein_keep (setVein_keep hu3)))

theorem presentQuiet_keep {s₀ s : State} (h : Keep s₀ s) :
    Keep s₀ (presentQuiet s) := by
  unfold presentQuiet
  refine keep_foldl ?_ (fun u1 x2 hu3 => ?_)
  · exact h
  · extract_lets x4 x5
    clear_value x4 x5
    exact (keep_ite hu3 (refreshVein_keep (mapHeadGroup_keep hu3)))

theorem expireWaits_keep {s₀ s : State} (h : Keep s₀ s) :
    Keep s₀ (expireWaits s) := by
  unfold expireWaits
  exact (keep_foldl h (fun u1 x2 hu3 => (expireWait_keep hu3)))

theorem tickOpp_keep {s₀ s : State} (h : Keep s₀ s) :
    Keep s₀ (tickOpp s) := by
  unfold tickOpp
  extract_lets x1 x2
  clear_value x1
  have k3 : Keep s₀ (x2) := (setFld_keep h)
  clear_value x2
  exact (keep_ite k3 (moveOpp_keep k3))

theorem newTokens_keep {s₀ s : State} {f : Nat} (h : Keep s₀ s) :
    Keep s₀ (newTokens s f) := by
  unfold newTokens
  extract_lets x1 x2
  clear_value x1
  have k3 : Keep s₀ (x2) := (setCrn_keep h)
  clear_value x2
  exact (keep_foldl k3 (fun u4 x5 hu6 => (takeToken_keep hu6)))

theorem countStalls_keep {s₀ s : State} (h : Keep s₀ s) :
    Keep s₀ (countStalls s) := by
  unfold countStalls
  refine keep_foldl ?_ (fun u1 x2 hu3 => ?_)
  · exact h
  · extract_lets x4
    clear_value x4
    exact (keep_ite (setMcg_keep hu3) (keep_ite (setMcg_keep hu3) hu3))

theorem tickState_keep {s₀ s : State} (h : Keep s₀ s) :
    Keep s₀ (tickState s) := by
  unfold tickState
  split
  · rename_i w1 w2
    exact (setCrn_keep (enterSu_keep h))
  · rename_i w3 w4
    exact (heldReload_keep (enterSu_keep h))
  · rename_i w5 w6 w7
    exact h

theorem tickTcap_keep {s₀ s : State} (h : Keep s₀ s) :
    Keep s₀ (tickTcap s) := by
  unfold tickTcap
  extract_lets x1 x2 x3
  clear_value x1
  have k4 : Keep s₀ (x2) := (setFld_keep h)
  clear_value x2
  have k5 : Keep s₀ (x3) := (keep_ite (calStop_keep (setFlag_keep k4)) (keep_ite (setFld_keep h) h))
  clear_value x3
  exact (keep_ite (setFld_keep k5) k5)

theorem tickEvac_keep {s₀ s : State} (h : Keep s₀ s) :
    Keep s₀ (tickEvac s) := by
  unfold tickEvac
  exact (keep_ite (setFld_keep h) h)

theorem tickCap_keep {s₀ s : State} (h : Keep s₀ s) :
    Keep s₀ (tickCap s) := by
  unfold tickCap
  extract_lets x1
  clear_value x1
  exact (setFld_keep h)

theorem costMiss_keep {s₀ s : State} {d : Nat} (h : Keep s₀ s) :
    Keep s₀ (costMiss s d) := by
  unfold costMiss
  extract_lets x1 x2 x3 x4 x5
  clear_value x1 x2 x3
  have k6 : Keep s₀ (x4) := (costPut_keep h)
  clear_value x4
  have k7 : Keep s₀ (x5) := (setFlag_keep k6)
  clear_value x5
  exact (keep_ite (notice_keep (incFld_keep k7)) k6)

theorem judgeModel_keep {s₀ s : State} (h : Keep s₀ s) :
    Keep s₀ (judgeModel s) := by
  unfold judgeModel
  split
  · rename_i w1 w2 w3 w4
    have k5 : Keep s₀ w3 := keep_snd w4 (by
        refine keep_foldl_snd ?_ (fun u6 x7 hu8 => ?_)
        · exact h
        · split
          · rename_i w9
            exact hu8
          · rename_i w10
            split
            · rename_i w11 w12 w13 w14
              have k15 : Keep s₀ w13 := keep_snd w14 ((takeFree_keep hu8))
              split
              · rename_i w16 w17 w18 w19
                have k20 : Keep s₀ w18 := keep_snd w19 ((dummyEnergy_keep k15))
                exact k20
      )
    extract_lets x21 x22 x23 x24
    clear_value x21 x22 x23 x24
    split
    · rename_i w25 w26
      exact k5
    · rename_i w27 w28 w29
      extract_lets x30 x31 x32
      clear_value x30
      have k33 : Keep s₀ (x31) := (keep_ite (costMiss_keep k5) (costPut_keep k5))
      clear_value x31
      have k34 : Keep s₀ (x32) := (setFld_keep k33)
      clear_value x32
      exact (setFld_keep k34)

theorem carriedClocks_keep {s₀ s : State} (h : Keep s₀ s) :
    Keep s₀ (carriedClocks s) := by
  unfold carriedClocks
  extract_lets x1
  clear_value x1
  refine keep_foldl ?_ (fun u2 x3 hu4 => ?_)
  · exact h
  · extract_lets x5 x6
    clear_value x5 x6
    exact (setArr_keep hu4)

theorem openBudget_keep {s₀ s : State} (h : Keep s₀ s) :
    Keep s₀ (openBudget s) := by
  unfold openBudget
  extract_lets x1 x2 x3
  have k4 : Keep s₀ (x1) := (setFld_keep h)
  clear_value x1
  have k5 : Keep s₀ (x2) := (setTrm_keep k4)
  clear_value x2
  have k6 : Keep s₀ (x3) := by
    unfold x3
    refine keep_foldl ?_ (fun u7 x8 hu9 => ?_)
    · exact k5
    · extract_lets x10
      clear_value x10
      exact (setArr_keep hu9)
  clear_value x3
  exact (showQ_keep (carriedClocks_keep k6))

theorem overrunVeins_keep {s₀ s : State} {abandon : Bool} (h : Keep s₀ s) :
    Keep s₀ (overrunVeins s abandon) := by
  unfold overrunVeins
  refine keep_foldl ?_ (fun u1 x2 hu3 => ?_)
  · exact h
  · extract_lets x4
    clear_value x4
    exact (setVein_keep hu3)

theorem releaseMarks_keep {s₀ s : State} (h : Keep s₀ s) :
    Keep s₀ (releaseMarks s) := by
  unfold releaseMarks
  refine keep_foldl ?_ (fun u1 x2 hu3 => ?_)
  · exact h
  · split
    · rename_i w4 w5 w6
      exact (keep_ite (endWait_keep hu3) hu3)
    · rename_i w7 w8
      exact (endWait_keep hu3)
    · rename_i w9 w10 w11
      exact hu3

theorem openFrame_keep {s₀ s : State} {f : Nat} {g : Nat} {e : Nat} {step : Nat} (h : Keep s₀ s) :
    Keep s₀ (openFrame s f g e step) := by
  unfold openFrame
  extract_lets x1 x2 x3 x4 x5 x6 x7 x8
  clear_value x1
  have k9 : Keep s₀ (x2) := (setFld_keep h)
  clear_value x2
  have k10 : Keep s₀ (x3) := (setFld_keep k9)
  clear_value x3
  have k11 : Keep s₀ (x4) := (keep_ite (notice_keep (setFlag_keep k10)) k10)
  clear_value x4
  have k12 : Keep s₀ (x5) := (addTime_keep k11)
  clear_value x5
  have k13 : Keep s₀ (x6) := (setFld_keep k12)
  clear_value x6
  have k14 : Keep s₀ (x7) := (passGrid_keep k13)
  clear_value x7
  have k15 : Keep s₀ (x8) := (setCrn_keep k14)
  clear_value x8
  exact (setFld_keep k15)

theorem switchUcode_keep {s₀ s : State} (h : Keep s₀ s) :
    Keep s₀ (switchUcode s) := by
  unfold switchUcode
  extract_lets x1
  clear_value x1
  refine keep_foldl ?_ (fun u2 x3 hu4 => ?_)
  · exact h
  · extract_lets x5 x6
    clear_value x5 x6
    exact (keep_ite (noteRec_keep (setFld_keep hu4)) hu4)

theorem closeToken_keep {s₀ s : State} {busy : Bool} (h : Keep s₀ s) :
    Keep s₀ (closeToken s busy) := by
  unfold closeToken
  extract_lets x1
  have k2 : Keep s₀ (x1) := (noteLate_keep h)
  clear_value x1
  exact (keep_ite h (keep_ite (sendToken_keep k2) (setCrn_keep k2)))

theorem closeFrame_keep {s₀ s : State} (h : Keep s₀ s) :
    Keep s₀ (closeFrame s) := by
  unfold closeFrame
  extract_lets x1 x2 x3 x4 x5
  clear_value x1
  have k6 : Keep s₀ (x2) := (closeToken_keep (sendClosing_keep h))
  clear_value x2
  have k7 : Keep s₀ (x3) := (setFlag_keep k6)
  clear_value x3
  have k8 : Keep s₀ (x4) := (setFld_keep k7)
  clear_value x4
  have k9 : Keep s₀ (x5) := (incFld_keep k8)
  clear_value x5
  exact (keep_ite h (keep_ite k6 (overrunVeins_keep k9)))

theorem tickWork_keep {s₀ s : State} {f : Nat} {g : Nat} {e : Nat} {step : Nat} (h : Keep s₀ s) :
    Keep s₀ (tickWork s f g e step) := by
  unfold tickWork
  extract_lets x1 x2 x3 x4 x5 x6 x7 x8 x9 x10 x11 x12 x13
  have k14 : Keep s₀ (x1) := (keep_ite (judgeModel_keep h) h)
  clear_value x1
  have k15 : Keep s₀ (x2) := (closeFrame_keep k14)
  clear_value x2
  have k16 : Keep s₀ (x3) := (tickState_keep (openFrame_keep k15))
  clear_value x3
  have k17 : Keep s₀ (x4) := (newTokens_keep k16)
  clear_value x4
  have k18 : Keep s₀ (x5) := (tickEvac_keep k17)
  clear_value x5
  have k19 : Keep s₀ (x6) := (expireWaits_keep (countWaits_keep k18))
  clear_value x6
  have k20 : Keep s₀ (x7) := (releaseMarks_keep k19)
  clear_value x7
  have k21 : Keep s₀ (x8) := (setEligible_keep k20)
  clear_value x8
  have k22 : Keep s₀ (x9) := (switchUcode_keep k21)
  clear_value x9
  have k23 : Keep s₀ (x10) := (reloadAtTick_keep k22)
  clear_value x10
  have k24 : Keep s₀ (x11) := (tickOpp_keep (tickCap_keep (tickTcap_keep k23)))
  clear_value x11
  have k25 : Keep s₀ (x12) := (openBudget_keep (countStalls_keep k24))
  clear_value x12
  have k26 : Keep s₀ (x13) := (presentQuiet_keep k25)
  clear_value x13
  exact (keep_ite (considerAll_keep k26) k26)

theorem execTickFire_keep {s₀ : State} {drawn : Nat} {s : State} (h : Keep s₀ s) :
    ∃ t, execTickFire drawn s = .next t ∧ Keep s₀ t := by
  unfold execTickFire
  refine ⟨_, rfl, ?_⟩
  extract_lets x1
  clear_value x1
  split
  · rename_i w2 w3
    exact h
  · rename_i w4 w5 w6 w7 w8 w9
    extract_lets x10 x11
    have k12 : Keep s₀ (x10) := (keep_ite (emit_keep h) h)
    clear_value x10
    have k13 : Keep s₀ (x11) := (keep_ite (newTokens_keep (openFrame_keep k12)) (tickWork_keep (setTrm_keep k12)))
    clear_value x11
    exact (keep_ite h (keep_ite (setCrn_keep k13) k13))

end Sys2Proof.Machine
end

