-- ==== Sys2Proof/Laws/KeepTraining.lean ====
section
/-! SUPPORT. What the operations of Machine/Training.lean keep: canonical stores, the queue, outputs only added. -/

namespace Sys2Proof.Machine

theorem putImage_keep {s₀ s : State} {st : Nat} {bs : List Byte} (h : Keep s₀ s) :
    Keep s₀ (putImage s st bs) := by
  unfold putImage
  extract_lets x1 x2 x3
  clear_value x1
  have k4 : Keep s₀ (x2) := (keep_ite (keep_foldl h (fun u5 x6 hu7 => (micaWrite_keep hu7))) (micaWrite_keep h))
  clear_value x2 x3
  split
  · rename_i w8 w9
    exact k4
  · rename_i w10 w11 w12
    extract_lets x13
    clear_value x13
    exact (keep_ite (checkEnd_keep (countBytes_keep (setStrm_keep k4))) (keep_ite (setStrm_keep k4) k4))

theorem putTable_keep {s₀ s : State} {a2 : Nat} {len : Nat} {body : List Byte} (h : Keep s₀ s) :
    Keep s₀ (putTable s a2 len body) := by
  unfold putTable
  exact (micaWrite_keep h)

theorem restorePart_keep {s₀ s : State} {p : Nat} {body : List Byte} (h : Keep s₀ s) :
    Keep s₀ (restorePart s p body) := by
  unfold restorePart
  extract_lets x1 x2 x3
  have k4 : Keep s₀ (x1) := (wr_keep h)
  clear_value x1 x2
  have k5 : Keep s₀ (x3) := (keep_same (s := s) rfl rfl rfl rfl rfl rfl rfl h)
  clear_value x3
  split
  · rename_i w6
    exact (putTable_keep h)
  · rename_i w7
    exact (putTable_keep h)
  · rename_i w8
    exact (keep_foldl h (fun u9 x10 hu11 => (wr_keep hu11)))
  · rename_i w12
    exact (putTable_keep h)
  · rename_i w13
    exact (setFld_keep k4)
  · rename_i w14
    exact (setFld_keep k5)
  · rename_i w15 w16 w17 w18 w19 w20 w21
    exact (putTable_keep h)

theorem execPgtCommit_keep {s₀ : State} {value : W64} {s : State} (h : Keep s₀ s) :
    ∃ t, execPgtCommit value s = .next t ∧ Keep s₀ t := by
  unfold execPgtCommit
  extract_lets x1
  clear_value x1
  refine ⟨_, rfl, ?_⟩
  refine portAct_keep ?_ ?_
  · exact h
  · intro u2 h3
    exact (keep_ite (setFlag_keep h3) (pgtPut_keep h3))

theorem execSchedValueReady_keep {s₀ s : State} (h : Keep s₀ s) :
    ∃ t, execSchedValueReady s = .next t ∧ Keep s₀ t := by
  unfold execSchedValueReady
  extract_lets x1 x2 x3 x4 x5 x6
  clear_value x1 x2 x3
  have k7 : Keep s₀ (x4) := (setFld_keep h)
  clear_value x4
  have k8 : Keep s₀ (x5) := (setFlag_keep k7)
  clear_value x5
  have k9 : Keep s₀ (x6) := (setFlag_keep k8)
  clear_value x6
  split
  · rename_i w10
    exact ⟨_, rfl, h⟩
  · rename_i w11
    exact ⟨_, rfl, (keep_same (s := x6) rfl rfl rfl rfl rfl rfl rfl k9)⟩

theorem execSchedEvaluate_keep {s₀ : State} {value : W64} {s : State} (h : Keep s₀ s) :
    ∃ t, execSchedEvaluate value s = .next t ∧ Keep s₀ t := by
  unfold execSchedEvaluate
  refine ⟨_, rfl, ?_⟩
  refine portAct_keep ?_ ?_
  · exact h
  · intro u1 h2
    extract_lets x3 x4
    have k5 : Keep s₀ (x3) := (wr_keep h2)
    clear_value x3
    have k6 : Keep s₀ (x4) := (setFlag_keep k5)
    clear_value x4
    exact (keep_same (s := x4) rfl rfl rfl rfl rfl rfl rfl k6)

theorem clearHist_keep {s₀ s : State} (h : Keep s₀ s) :
    Keep s₀ (clearHist s) := by
  unfold clearHist
  extract_lets x1
  have k2 : Keep s₀ (x1) := (micaWrite_keep h)
  clear_value x1
  exact (setFlag_keep k2)

theorem restoreImage_keep {s₀ s : State} {v : Nat} {parts : Nat} {bs : List Byte} (h : Keep s₀ s) :
    Keep s₀ (restoreImage s v parts bs).1 := by
  unfold restoreImage
  extract_lets x1 x2 x3 x4 x5 x6 x7 x8 x9 x10 x11
  clear_value x1 x2 x3 x4 x5 x6
  have k12 : Keep s₀ (x7) := by
    unfold x7
    refine keep_foldl ?_ (fun u13 x14 hu15 => ?_)
    · exact h
    · split
      · rename_i w16 w17
        exact (keep_ite (clearHist_keep hu15) hu15)
      · rename_i w18 w19 w20
        exact (keep_ite (clearHist_keep hu15) (restorePart_keep hu15))
  clear_value x7 x8
  have k21 : Keep s₀ (x9) := (keep_ite (setFlag_keep k12) k12)
  clear_value x9
  have k22 : Keep s₀ (x10) := (setFld_keep k21)
  clear_value x10
  have k23 : Keep s₀ (x11) := (setFld_keep k22)
  clear_value x11
  split
  · rename_i w24
    dsimp only
    exact (setFld_keep (keep_ite (clearHist_keep h) h))
  · rename_i w25
    dsimp only
    exact (setFld_keep k23)

theorem atHeadRestoreState_keep {s₀ : State} {v : Fin 16} {s : State} (h : Keep s₀ s) :
    ∃ t, atHeadRestoreState v s = .next t ∧ Keep s₀ t := by
  unfold atHeadRestoreState
  refine ⟨_, rfl, ?_⟩
  refine issueWith_keep ?_ ?_
  · exact h
  · intro u1 u2 u3 h4
    extract_lets x5 x6 x7 x8 x9 x10 x11
    clear_value x5 x6 x7
    have k12 : Keep s₀ (x8) := (setFlag_keep h4)
    clear_value x8 x9 x10
    have k13 : Keep s₀ (x11) := (startIssue_keep k12)
    clear_value x11
    refine keep_ite ?_ ?_
    · exact (setFlag_keep h4)
    · refine keep_ite ?_ ?_
      · split
        · rename_i w14 w15 w16
          exact (poisonJob_keep k13)
        · rename_i w17 w18
          exact k13
      · refine issueNow_keep ?_ ?_
        · exact k12
        · intro u19 h20
          split
          · rename_i w21 w22 w23 w24
            have k25 : Keep s₀ w22 := keep_fst w24 ((restoreImage_keep h20))
            exact (keep_ite k25 (addCond_keep k25))

theorem atHeadSaveState_keep {s₀ : State} {v : Fin 16} {s : State} (h : Keep s₀ s) :
    ∃ t, atHeadSaveState v s = .next t ∧ Keep s₀ t := by
  unfold atHeadSaveState
  refine ⟨_, rfl, ?_⟩
  extract_lets x1
  clear_value x1
  refine issueWith_keep ?_ ?_
  · exact h
  · intro u2 u3 u4 h5
    extract_lets x6 x7
    clear_value x6 x7
    refine keep_ite ?_ ?_
    · exact h5
    · refine keep_ite ?_ ?_
      · exact (recordErr_keep h5)
      · refine issueNow_keep ?_ ?_
        · exact h5
        · intro u8 h9
          exact (putImage_keep h9)

theorem execPgtSnapshot_keep {s₀ s : State} (h : Keep s₀ s) :
    ∃ t, execPgtSnapshot s = .next t ∧ Keep s₀ t := by
  unfold execPgtSnapshot
  refine ⟨_, rfl, ?_⟩
  extract_lets x1
  clear_value x1
  split
  · rename_i w2 w3
    exact h
  · rename_i w4 w5
    exact (badAccess_keep h)
  · rename_i w6 w7
    exact h
  · rename_i w8 w9 w10 w11
    exact (keep_foldl h (fun u12 x13 hu14 => (wr_keep hu14)))

end Sys2Proof.Machine
end

