-- ==== Sys2Proof/Laws/KeepFaults.lean ====
section
/-! SUPPORT. What the operations of Machine/Faults.lean keep: canonical stores, the queue, outputs only added. -/

namespace Sys2Proof.Machine

theorem evacImage_keep {s₀ s : State} (h : Keep s₀ s) :
    Keep s₀ (evacImage s).2 := by
  unfold evacImage
  split
  · rename_i w1 w2 w3 w4
    have k5 : Keep s₀ w3 := keep_snd w4 ((takeFree_keep h))
    exact k5

theorem cleaveFence_keep {s₀ s : State} {v : Nat} {q : Nat} {kind : Nat} {a5 : Nat} (h : Keep s₀ s) :
    ∀ t, cleaveFence s v q kind a5 = some t → Keep s₀ t := by
  unfold cleaveFence
  extract_lets x1 x2 x3 x4 x5 x6
  have k7 : Keep s₀ (x1) := by
    unfold x1
    split
    · rename_i w8 w9 w10 w11
      exact (keep_ite (calStop_keep h) h)
    · rename_i w12 w13
      exact h
  clear_value x1 x2 x3 x4
  have k14 : Keep s₀ (x5) := (keep_ite h (sendLinkctl_keep h))
  clear_value x5 x6
  split
  · rename_i w15
    split
    · rename_i w16
      exact keep_none
    · rename_i w17
      exact (keep_some (settleWaits_keep (fenceArray_keep k7)))
  · rename_i w18
    split
    · rename_i w19
      exact keep_none
    · rename_i w20
      exact (keep_some (setSvc_keep h))
  · rename_i w21
    split
    · rename_i w22
      exact keep_none
    · rename_i w23
      exact (keep_some (keep_foldl h (fun u24 x25 hu26 => (fenceVein_keep hu26))))
  · rename_i w27 w28 w29 w30
    split
    · rename_i w31
      exact keep_none
    · rename_i w32
      split
      · rename_i w33
        exact (keep_some (completeJob_keep (addCond_keep h)))
      · rename_i w34
        split
        · rename_i w35
          exact (keep_some (checkFenced_keep (setLink_keep k14)))
        · rename_i w36
          exact (keep_some (setLink_keep h))

theorem ucodePar_keep {s₀ s : State} {k : Nat} {inj : Bool} (h : Keep s₀ s) :
    Keep s₀ (ucodePar s k inj) := by
  unfold ucodePar
  extract_lets x1 x2 x3 x4 x5 x6 x7
  clear_value x1
  have k8 : Keep s₀ (x2) := (setFlag_keep h)
  clear_value x2 x3 x4 x5 x6
  have k9 : Keep s₀ (x7) := (setFld_keep k8)
  clear_value x7
  exact (keep_ite (recordErr_keep k8) (keep_ite (recordErr_keep k9) (recordErr_keep k8)))

theorem execUcodePar_keep {s₀ : State} {slot : Fin 2} {s : State} (h : Keep s₀ s) :
    ∃ t, execUcodePar slot s = .next t ∧ Keep s₀ t := by
  unfold execUcodePar
  refine ⟨_, rfl, ?_⟩
  extract_lets x1
  have k2 : Keep s₀ (x1).2 := (flint_keep h)
  clear_value x1
  exact (keep_ite h (ucodePar_keep k2))

theorem execBankCopyDone_keep {s₀ : State} {bank : Nat} {s : State} (h : Keep s₀ s) :
    ∃ t, execBankCopyDone bank s = .next t ∧ Keep s₀ t := by
  unfold execBankCopyDone
  refine ⟨_, rfl, ?_⟩
  split
  · rename_i w1 w2
    exact h
  · rename_i w3 w4 w5
    extract_lets x6 x7
    have k8 : Keep s₀ (x6) := (setSvc_keep h)
    clear_value x6
    have k9 : Keep s₀ (x7) := (setSpareFree_keep (mapBank_keep k8))
    clear_value x7
    exact (bankRec_keep k9)

theorem failInternal_keep {s₀ s : State} {det : Nat} {inj : Bool} (h : Keep s₀ s) :
    Keep s₀ (failInternal s det inj) := by
  unfold failInternal
  extract_lets x1
  clear_value x1
  exact (recordErr_keep h)

theorem execPllLock_keep {s₀ s : State} (h : Keep s₀ s) :
    ∃ t, execPllLock s = .next t ∧ Keep s₀ t := by
  unfold execPllLock
  refine ⟨_, rfl, ?_⟩
  extract_lets x1
  have k2 : Keep s₀ (x1).2 := (flint_keep h)
  clear_value x1
  exact (keep_ite h (failInternal_keep k2))

theorem watchInject_keep {s₀ s : State} (h : Keep s₀ s) :
    Keep s₀ (watchInject s) := by
  unfold watchInject
  extract_lets x1
  have k2 : Keep s₀ (x1) := by
    unfold x1
    refine keep_foldl ?_ (fun u3 x4 hu5 => ?_)
    · exact h
    · extract_lets x6
      have k7 : Keep s₀ (x6).2 := (flint_keep hu5)
      clear_value x6
      exact (keep_ite (ucodePar_keep k7) k7)
  clear_value x1
  refine keep_ite ?_ ?_
  · exact h
  · refine keep_foldl ?_ (fun u8 x9 hu10 => ?_)
    · exact k2
    · extract_lets x11
      have k12 : Keep s₀ (x11).2 := (flint_keep hu10)
      clear_value x11
      exact (keep_ite (failInternal_keep k12) k12)

theorem arrayFenced_keep {s₀ s : State} {a2 : Nat} (h : Keep s₀ s) :
    Keep s₀ (arrayFenced s a2) := by
  unfold arrayFenced
  extract_lets x1 x2 x3 x4 x5
  have k6 : Keep s₀ (x1) := (keep_foldl h (fun u7 x8 hu9 => (dropFenced_keep hu9)))
  clear_value x1 x2 x3
  have k10 : Keep s₀ (x4) := (nextSwitch_keep (setArr_keep k6))
  clear_value x4
  have k11 : Keep s₀ (x5) := (setFld_keep k10)
  clear_value x5
  split
  · rename_i w12 w13
    exact h
  · rename_i w14 w15 w16
    exact (keep_ite h (endCleave_keep k11))

theorem evacSend_keep {s₀ : State} {a1 : Nat} {s : State} (h : Keep s₀ s) :
    Keep s₀ (evacSend a1 s) := by
  induction a1 generalizing s
  · unfold evacSend
    exact h
  · rename_i n1 ih2; unfold evacSend
    extract_lets x3 x4
    clear_value x3 x4
    split
    · rename_i w5 w6
      exact h
    · rename_i w7 w8 w9 w10
      extract_lets x11 x12 x13 x14 x15
      clear_value x11 x12
      have k16 : Keep s₀ (x13) := (emit_keep h)
      clear_value x13 x14
      have k17 : Keep s₀ (x15) := (keep_same (s := x13) rfl rfl rfl rfl rfl rfl rfl k16)
      clear_value x15
      exact (keep_ite h (ih2 (incFld_keep k17)))

theorem execEvacImageWrite_keep {s₀ s : State} (h : Keep s₀ s) :
    ∃ t, execEvacImageWrite s = .next t ∧ Keep s₀ t := by
  unfold execEvacImageWrite
  extract_lets x1 x2
  clear_value x1 x2
  refine ⟨_, rfl, ?_⟩
  refine keep_ite ?_ ?_
  · exact h
  · refine keep_ite ?_ ?_
    · refine keep_ite ?_ ?_
      · exact (setFld_keep (setFld_keep (fenceAll_keep h)))
      · split
        · rename_i w3 w4 w5 w6
          have k7 : Keep s₀ w5 := keep_snd w6 ((evacImage_keep h))
          extract_lets x8
          have k9 : Keep s₀ (x8) := (setFld_keep k7)
          clear_value x8
          exact (evacSend_keep (setSvc_keep k9))
    · exact (keep_ite (evacSend_keep h) h)

theorem scrubInject_keep {s₀ s : State} (h : Keep s₀ s) :
    Keep s₀ (scrubInject s) := by
  unfold scrubInject
  refine keep_ite ?_ ?_
  · exact h
  · refine keep_foldl ?_ (fun u1 x2 hu3 => ?_)
    · exact h
    · split
      · rename_i w4 w5
        exact hu3
      · rename_i w6 w7 w8
        exact (touchLine_keep hu3)

theorem execPatrolScrub_keep {s₀ : State} {events : List EccEvent} {s : State} (h : Keep s₀ s) :
    ∃ t, execPatrolScrub events s = .next t ∧ Keep s₀ t := by
  unfold execPatrolScrub
  refine ⟨_, rfl, ?_⟩
  extract_lets x1 x2
  have k3 : Keep s₀ (x1) := by
    unfold x1
    refine keep_foldl ?_ (fun u4 x5 hu6 => ?_)
    · exact h
    · split
      · rename_i w7 w8
        exact (micaCe_keep hu6)
      · rename_i w9 w10
        exact (micaUe_keep hu6)
  clear_value x1
  have k11 : Keep s₀ (x2) := (scrubInject_keep k3)
  clear_value x2
  exact (keep_ite h (setSvc_keep k11))

theorem bankBack_keep {s₀ s : State} {g : Nat} {failed : List Nat} (h : Keep s₀ s) :
    Keep s₀ (bankBack s g failed) := by
  unfold bankBack
  extract_lets x1 x2 x3 x4
  clear_value x1 x2
  have k5 : Keep s₀ (x3) := (keep_foldl h (fun u6 x7 hu8 => (mapBank_keep hu8)))
  clear_value x3
  have k9 : Keep s₀ (x4) := (setSvc_keep k5)
  clear_value x4
  split
  · rename_i w10 w11
    exact h
  · rename_i w12 w13 w14 w15
    exact (completeJob_keep (setSpareFree_keep k9))

theorem execEvacuate_keep {s₀ : State} {value : W64} {s : State} (h : Keep s₀ s) :
    ∃ t, execEvacuate value s = .next t ∧ Keep s₀ t := by
  unfold execEvacuate
  extract_lets x1 x2
  clear_value x1 x2
  refine ⟨_, rfl, ?_⟩
  refine portAct_keep ?_ ?_
  · exact h
  · intro u3 h4
    extract_lets x5 x6
    clear_value x5
    have k7 : Keep s₀ (x6) := (setFld_keep (setFld_keep (setFld_keep h4)))
    clear_value x6
    exact (keep_ite h4 (setSvc_keep k7))

theorem arrayBack_keep {s₀ s : State} {a2 : Nat} {failed : Bool} (h : Keep s₀ s) :
    Keep s₀ (arrayBack s a2 failed) := by
  unfold arrayBack
  extract_lets x1 x2 x3 x4 x5 x6 x7 x8
  clear_value x1 x2
  have k9 : Keep s₀ (x3) := (setArr_keep h)
  clear_value x3 x4 x5
  have k10 : Keep s₀ (x6) := (setFld_keep k9)
  clear_value x6
  have k11 : Keep s₀ (x7) := (setFld_keep k10)
  clear_value x7
  have k12 : Keep s₀ (x8) := (setFld_keep k11)
  clear_value x8
  split
  · rename_i w13 w14
    exact h
  · rename_i w15 w16 w17
    exact (keep_ite (endCleave_keep (setArr_keep h)) (endCleave_keep (settleWaits_keep k12)))

theorem execCleaveReturnDone_keep {s₀ : State} {part : Part} {failed : List Nat} {s : State} (h : Keep s₀ s) :
    ∃ t, execCleaveReturnDone part failed s = .next t ∧ Keep s₀ t := by
  unfold execCleaveReturnDone
  extract_lets x1 x2
  clear_value x1 x2
  refine ⟨_, rfl, ?_⟩
  split
  · rename_i w3 w4
    exact (keep_ite (arrayBack_keep h) h)
  · rename_i w5 w6
    exact (bankBack_keep h)
  · rename_i w7 w8
    exact (keep_ite (endCleave_keep (setLink_keep h)) h)
  · rename_i w9 w10 w11 w12
    exact h

theorem bankFenced_keep {s₀ s : State} {g : Nat} (h : Keep s₀ s) :
    Keep s₀ (bankFenced s g) := by
  unfold bankFenced
  extract_lets x1 x2 x3
  clear_value x1
  have k4 : Keep s₀ (x2) := (setSvc_keep h)
  clear_value x2
  have k5 : Keep s₀ (x3) := (keep_foldl k4 (fun u6 x7 hu8 => (mapBank_keep hu8)))
  clear_value x3
  split
  · rename_i w9 w10
    exact h
  · rename_i w11 w12 w13 w14
    exact (completeJob_keep (setSpareFree_keep k5))

theorem execCleaveFenceDone_keep {s₀ : State} {part : Part} {s : State} (h : Keep s₀ s) :
    ∃ t, execCleaveFenceDone part s = .next t ∧ Keep s₀ t := by
  unfold execCleaveFenceDone
  extract_lets x1 x2
  clear_value x1 x2
  refine ⟨_, rfl, ?_⟩
  split
  · rename_i w3 w4
    exact (keep_ite (arrayFenced_keep h) h)
  · rename_i w5 w6
    exact (bankFenced_keep h)
  · rename_i w7 w8
    split
    · rename_i w9 w10
      exact h
    · rename_i w11 w12 w13 w14
      exact (keep_ite (completeJob_keep h) h)
  · rename_i w15 w16
    exact (keep_ite (endCleave_keep (setLink_keep h)) h)
  · rename_i w17 w18 w19 w20 w21
    exact h

theorem execCtrlPar_keep {s₀ s : State} (h : Keep s₀ s) :
    ∃ t, execCtrlPar s = .next t ∧ Keep s₀ t := by
  unfold execCtrlPar
  refine ⟨_, rfl, ?_⟩
  extract_lets x1
  have k2 : Keep s₀ (x1).2 := (flint_keep h)
  clear_value x1
  exact (keep_ite h (failInternal_keep k2))

theorem cleaveReturn_keep {s₀ s : State} {v : Nat} {q : Nat} {kind : Nat} {a5 : Nat} (h : Keep s₀ s) :
    ∀ t, cleaveReturn s v q kind a5 = some t → Keep s₀ t := by
  unfold cleaveReturn
  extract_lets x1 x2 x3 x4 x5 x6 x7 x8
  clear_value x1
  have k9 : Keep s₀ (x2) := (setArr_keep h)
  clear_value x2
  have k10 : Keep s₀ (x3) := (keep_foldl h (fun u11 x12 hu13 => (present_keep (fenceVein_keep hu13))))
  clear_value x3 x4 x5
  have k14 : Keep s₀ (x6) := (setLink_keep h)
  clear_value x6 x7
  have k15 : Keep s₀ (x8) := (setLink_keep k14)
  clear_value x8
  split
  · rename_i w16
    split
    · rename_i w17
      exact keep_none
    · rename_i w18
      exact (keep_some (keep_ite (closeSwitch_keep k9) k9))
  · rename_i w19
    split
    · rename_i w20
      exact (keep_some h)
    · rename_i w21
      exact keep_none
  · rename_i w22
    split
    · rename_i w23
      exact keep_none
    · rename_i w24
      exact (keep_some (completeJob_keep k10))
  · rename_i w25 w26 w27 w28
    split
    · rename_i w29
      exact keep_none
    · rename_i w30
      split
      · rename_i w31
        exact (keep_some (announce_keep (trainPol_keep k14)))
      · rename_i w32
        split
        · rename_i w33
          exact (keep_some (toDetect_keep (setFld_keep k14)))
        · rename_i w34
          split
          · rename_i w35
            exact (keep_some (completeJob_keep (addCond_keep k15)))
          · rename_i w36
            exact (keep_some k14)

theorem atHeadCleave_keep {s₀ : State} {v : Fin 16} {s : State} (h : Keep s₀ s) :
    ∃ t, atHeadCleave v s = .next t ∧ Keep s₀ t := by
  unfold atHeadCleave
  refine ⟨_, rfl, ?_⟩
  refine issueWith_keep ?_ ?_
  · exact h
  · intro u1 u2 u3 h4
    extract_lets x5 x6 x7 x8
    clear_value x5 x6 x7
    have k9 : Keep s₀ (x8) := (startIssue_keep h4)
    clear_value x8
    split
    · rename_i w10 w11
      exact (afterIssue_keep (completeNow_keep k9))
    · rename_i w12 w13 w14
      have k15 : Keep s₀ w13 := by
        refine (?_ : ∀ t, _ = _ → Keep s₀ t) _ w14
        split
        · rename_i w16
          exact (cleaveReturn_keep k9)
        · rename_i w17
          exact (cleaveFence_keep k9)
      exact (afterIssue_keep (refreshVein_keep k15))

end Sys2Proof.Machine
end

