-- ==== Sys2Proof/Laws/KeepIdle.lean ====
section
/-! SUPPORT. What the operations of Machine/Idle.lean keep: canonical stores, the queue, outputs only added. -/

namespace Sys2Proof.Machine

theorem sampleTs_keep {s₀ s : State} (h : Keep s₀ s) :
    Keep s₀ (sampleTs s) := by
  unfold sampleTs
  exact (keep_ite (setCrn_keep h) h)

theorem fallTick_keep {s₀ s : State} (h : Keep s₀ s) :
    Keep s₀ (fallTick s) := by
  unfold fallTick
  split
  · rename_i w1 w2 w3
    exact (keep_ite (setCrn_keep (emit_keep h)) h)
  · rename_i w4 w5
    exact h

theorem countIdle_keep {s₀ s : State} (h : Keep s₀ s) :
    Keep s₀ (countIdle s) := by
  unfold countIdle
  extract_lets x1
  clear_value x1
  exact (keep_ite (keep_same (s := s) rfl rfl rfl rfl rfl rfl rfl h) h)

theorem timeClock_keep {s₀ s : State} (h : Keep s₀ s) :
    Keep s₀ (timeClock s) := by
  unfold timeClock
  extract_lets x1 x2
  clear_value x1
  have k3 : Keep s₀ (x2) := (setCrn_keep (addTime_keep h))
  clear_value x2
  split
  · rename_i w4 w5
    exact h
  · rename_i w6 w7
    exact h
  · rename_i w8 w9
    exact h
  · rename_i w10 w11 w12 w13
    exact (fallTick_keep (sampleTs_keep (countIdle_keep k3)))

theorem idleClock_keep {s₀ s : State} (h : Keep s₀ s) :
    Keep s₀ (idleClock s) := by
  unfold idleClock
  exact (watchInject_keep (keep_foldl (timeClock_keep h) (fun u1 x2 hu3 => (keep_ite (sendBeat_keep hu3) hu3))))

end Sys2Proof.Machine
end

