-- ==== Sys2Proof/Laws/KeepStartup.lean ====
section
/-! SUPPORT. What the operations of Machine/Startup.lean keep: canonical stores, the queue, outputs only added. -/

namespace Sys2Proof.Machine

theorem execWirUpdate_keep {s₀ : State} {code : BitVec 8} {s : State} (h : Keep s₀ s) :
    ∃ t, execWirUpdate code s = .next t ∧ Keep s₀ t := by
  unfold execWirUpdate
  extract_lets x1 x2 x3
  clear_value x1
  have k4 : Keep s₀ (x2).2 := (takeFree_keep h)
  clear_value x2
  have k5 : Keep s₀ (x3) := (keep_ite (setSvc_keep k4) h)
  clear_value x3
  exact ⟨_, rfl, (setSvc_keep k5)⟩

theorem samplePorts_keep {s₀ s : State} (h : Keep s₀ s) :
    Keep s₀ (samplePorts s) := by
  unfold samplePorts
  extract_lets x1
  clear_value x1
  refine keep_foldl ?_ (fun u2 x3 hu4 => ?_)
  · exact h
  · extract_lets x5 x6 x7 x8
    clear_value x5 x6 x7
    have k9 : Keep s₀ (x8) := (keep_same (s := u2) rfl rfl rfl rfl rfl rfl rfl hu4)
    clear_value x8
    exact (keep_ite (recordErr_keep k9) k9)

theorem enterLoad_keep {s₀ s : State} (h : Keep s₀ s) :
    Keep s₀ (enterLoad s) := by
  unfold enterLoad
  extract_lets x1 x2
  have k3 : Keep s₀ (x1) := (enterSu_keep h)
  clear_value x1
  have k4 : Keep s₀ (x2) := (setFld_keep k3)
  clear_value x2
  exact (keep_ite (sendEnum_keep k4) k4)

theorem selftestArray_keep {s₀ s : State} {a2 : Nat} {failing : List Nat} (h : Keep s₀ s) :
    Keep s₀ (selftestArray s a2 failing) := by
  unfold selftestArray
  extract_lets x1 x2 x3 x4 x5 x6 x7 x8 x9 x10 x11 x12 x13 x14
  clear_value x1 x2 x3 x4 x5 x6 x7 x8 x9
  have k15 : Keep s₀ (x10) := (setFld_keep h)
  clear_value x10
  have k16 : Keep s₀ (x11) := (setFld_keep k15)
  clear_value x11
  have k17 : Keep s₀ (x12) := (setFld_keep k16)
  clear_value x12 x13 x14
  refine keep_ite ?_ ?_
  · exact (setArr_keep k17)
  · refine keep_foldl ?_ (fun u18 x19 hu20 => ?_)
    · exact h
    · extract_lets x21
      have k22 : Keep s₀ (x21) := (keep_ite (setFld_keep (setFlag_keep hu20)) (setFld_keep (setFlag_keep hu20)))
      clear_value x21
      exact (noteRec_keep k22)

theorem execSelftestDone_keep {s₀ : State} {failing : List (List Nat)} {s : State} (h : Keep s₀ s) :
    ∃ t, execSelftestDone failing s = .next t ∧ Keep s₀ t := by
  unfold execSelftestDone
  refine ⟨_, rfl, ?_⟩
  extract_lets x1 x2
  have k3 : Keep s₀ (x1) := (keep_foldl h (fun u4 x5 hu6 => (selftestArray_keep hu6)))
  clear_value x1 x2
  exact (keep_ite h (keep_ite (recordErr_keep k3) (linksStart_keep (samplePorts_keep (enterSu_keep k3)))))

theorem resetSpare_keep {s₀ s : State} {b : Nat} (h : Keep s₀ s) :
    Keep s₀ (resetSpare s b) := by
  unfold resetSpare
  extract_lets x1
  clear_value x1
  split
  · rename_i w2 w3
    exact h
  · rename_i w4 w5 w6 w7
    extract_lets x8
    have k9 : Keep s₀ (x8) := (setSpareFree_keep (mapBank_keep h))
    clear_value x8
    exact (bankRec_keep k9)

theorem execIjtagAccess_keep {s₀ : State} {ins : Instrument} {unit : Nat} {findings : List Nat} {s : State}
    (h : Keep s₀ s) :
    ∃ t, execIjtagAccess ins unit findings s = .next t ∧ Keep s₀ t := by
  unfold execIjtagAccess
  refine ⟨_, rfl, ?_⟩
  extract_lets x1
  clear_value x1
  refine keep_ite ?_ ?_
  · exact h
  · refine keep_ite ?_ ?_
    · exact (setSvc_keep h)
    · split
      · rename_i w2
        exact (emit_keep h)
      · rename_i w3
        exact (emit_keep h)
      · rename_i w4
        exact (emit_keep h)
      · rename_i w5
        exact (emit_keep (setSvc_keep h))
      · rename_i w6
        exact (emit_keep (setArr_keep h))
      · rename_i w7 w8
        exact (setSvc_keep h)
      · rename_i w9
        exact (emit_keep h)

theorem execTestHoldRise_keep {s₀ s : State} (h : Keep s₀ s) :
    ∃ t, execTestHoldRise s = .next t ∧ Keep s₀ t := by
  unfold execTestHoldRise
  exact ⟨_, rfl, (setSvc_keep h)⟩

theorem execTestHoldFall_keep {s₀ s : State} (h : Keep s₀ s) :
    ∃ t, execTestHoldFall s = .next t ∧ Keep s₀ t := by
  unfold execTestHoldFall
  exact ⟨_, rfl, (setSvc_keep h)⟩

theorem execResetDone_keep {s₀ : State} {badBanks : List Nat} {s : State} (h : Keep s₀ s) :
    ∃ t, execResetDone badBanks s = .next t ∧ Keep s₀ t := by
  unfold execResetDone
  refine ⟨_, rfl, ?_⟩
  extract_lets x1 x2 x3 x4 x5
  clear_value x1
  have k6 : Keep s₀ (x2) := (keep_same (s := s) rfl rfl rfl rfl rfl rfl rfl h)
  clear_value x2 x3 x4
  have k7 : Keep s₀ (x5) := (setSvc_keep k6)
  clear_value x5
  exact (keep_ite h (keep_ite (recordErr_keep k6) (enterLoad_keep (keep_foldl k7 (fun u8 x9 hu10 => (resetSpare_keep hu10))))))

theorem keptStratum_keep {s₀ s : State} {t : State} (h : Keep s₀ s) (h' : Keep s₀ t) :
    Keep s₀ (keptStratum s t) := by
  unfold keptStratum
  extract_lets x1 x2 x3
  clear_value x1
  have k4 : Keep s₀ (x2) := (setFld_keep h')
  clear_value x2
  have k5 : Keep s₀ (x3) := (setFld_keep k4)
  clear_value x3
  exact (setFld_keep k5)

end Sys2Proof.Machine
end

