-- ==== Sys2Proof/Laws/KeepTurn.lean ====
section
/-! SUPPORT. What the operations of Machine/Turn.lean keep: canonical stores, the queue, outputs only added. -/

namespace Sys2Proof.Machine

theorem inTurn_keep {s₀ s : State} {v : Nat} {o : Host.Outcome State Fault Refusal} (h : Keep s₀ s)
    (ho : ∃ t, o = .next t ∧ Keep s₀ t) : ∃ t, inTurn s v o = .next t ∧ Keep s₀ t := by
  unfold inTurn
  split
  · exact ⟨_, rfl, h⟩
  · exact ho

theorem execRestoreState_keep {s₀ s : State} {v : Fin 16} (h : Keep s₀ s) :
    ∃ t, execRestoreState v s = .next t ∧ Keep s₀ t := inTurn_keep h (atHeadRestoreState_keep h)

theorem execWload_keep {s₀ s : State} {v : Fin 16} (h : Keep s₀ s) :
    ∃ t, execWload v s = .next t ∧ Keep s₀ t := inTurn_keep h (atHeadWload_keep h)

theorem execYield_keep {s₀ s : State} {v : Fin 16} (h : Keep s₀ s) :
    ∃ t, execYield v s = .next t ∧ Keep s₀ t := inTurn_keep h (atHeadYield_keep h)

theorem execBarrier_keep {s₀ s : State} {v : Fin 16} (h : Keep s₀ s) :
    ∃ t, execBarrier v s = .next t ∧ Keep s₀ t := inTurn_keep h (atHeadBarrier_keep h)

theorem execSemPost_keep {s₀ s : State} {v : Fin 16} (h : Keep s₀ s) :
    ∃ t, execSemPost v s = .next t ∧ Keep s₀ t := inTurn_keep h (atHeadSemPost_keep h)

theorem execCleave_keep {s₀ s : State} {v : Fin 16} (h : Keep s₀ s) :
    ∃ t, execCleave v s = .next t ∧ Keep s₀ t := inTurn_keep h (atHeadCleave_keep h)

theorem execSptile_keep {s₀ s : State} {v : Fin 16} {pick : Fin 4} (h : Keep s₀ s) :
    ∃ t, execSptile v pick s = .next t ∧ Keep s₀ t := inTurn_keep h (atHeadSptile_keep h)

theorem execStreamRearm_keep {s₀ s : State} {v : Fin 16} (h : Keep s₀ s) :
    ∃ t, execStreamRearm v s = .next t ∧ Keep s₀ t := inTurn_keep h (atHeadStreamRearm_keep h)

theorem execElemwise_keep {s₀ s : State} {v : Fin 16} {pick : Fin 4} (h : Keep s₀ s) :
    ∃ t, execElemwise v pick s = .next t ∧ Keep s₀ t := inTurn_keep h (atHeadElemwise_keep h)

theorem execTile_keep {s₀ s : State} {v : Fin 16} {pick : Fin 4} (h : Keep s₀ s) :
    ∃ t, execTile v pick s = .next t ∧ Keep s₀ t := inTurn_keep h (atHeadTile_keep h)

theorem execGradEmit_keep {s₀ s : State} {v : Fin 16} {pick : Fin 4} (h : Keep s₀ s) :
    ∃ t, execGradEmit v pick s = .next t ∧ Keep s₀ t := inTurn_keep h (atHeadGradEmit_keep h)

theorem execSaveState_keep {s₀ s : State} {v : Fin 16} (h : Keep s₀ s) :
    ∃ t, execSaveState v s = .next t ∧ Keep s₀ t := inTurn_keep h (atHeadSaveState_keep h)

theorem execStreamArm_keep {s₀ s : State} {v : Fin 16} (h : Keep s₀ s) :
    ∃ t, execStreamArm v s = .next t ∧ Keep s₀ t := inTurn_keep h (atHeadStreamArm_keep h)

theorem execSemWait_keep {s₀ s : State} {v : Fin 16} (h : Keep s₀ s) :
    ∃ t, execSemWait v s = .next t ∧ Keep s₀ t := inTurn_keep h (atHeadSemWait_keep h)

theorem execScaleCommit_keep {s₀ s : State} {v : Fin 16} (h : Keep s₀ s) :
    ∃ t, execScaleCommit v s = .next t ∧ Keep s₀ t := inTurn_keep h (atHeadScaleCommit_keep h)

theorem execCalibrate_keep {s₀ s : State} {v : Fin 16} (h : Keep s₀ s) :
    ∃ t, execCalibrate v s = .next t ∧ Keep s₀ t := inTurn_keep h (atHeadCalibrate_keep h)

theorem execNop_keep {s₀ s : State} {v : Fin 16} (h : Keep s₀ s) :
    ∃ t, execNop v s = .next t ∧ Keep s₀ t := inTurn_keep h (atHeadNop_keep h)

theorem execMark_keep {s₀ s : State} {v : Fin 16} (h : Keep s₀ s) :
    ∃ t, execMark v s = .next t ∧ Keep s₀ t := inTurn_keep h (atHeadMark_keep h)

end Sys2Proof.Machine
end

