-- ==== Sys2Proof/WellFormed.lean ====
section
/-! DEFINITION. Well-formed commands: every operand lies in the range its port, link or table gives it. A command's
fields that are Fin or BitVec need no check. -/

namespace Sys2Proof

/-- Headers of routed writes: strata of 10 bits, tenants of 2, Mica offsets of 26 and lengths minus 1 of 12 bits
(R292). -/
def RoutedHdr.wf (h : RoutedHdr) : Bool :=
  decide (h.dst < 1024) && decide (h.src < 1024) && decide (h.tenant < 4) && decide (h.offset < 2 ^ 26) &&
  decide (h.lenM1 < 4096)

/-- Headers of multicast data: a group, a root stratum, a parcel number, the flit positions and a sequence number
(R292). -/
def McHdr.wf (h : McHdr) : Bool :=
  decide (h.group < 64) && decide (h.root < 1024) && decide (h.parcel < 2 ^ 32) && decide (h.first < 4096) &&
  decide (h.sq < 2 ^ 16)

/-- A part of a cleave: its kind and its target (R380). -/
def Part.wf (p : Part) : Bool := decide (p.kind < 4) && decide (p.target < 2 ^ 16)

/-- What a memory event names lies in Mica (R137). -/
def EccEvent.wf : EccEvent → Bool
  | .single o => decide (o < 0x3000000)
  | .double o => decide (o < 0x3000000)

/-- The errors of a row stand in logical columns of its format, at most 256 (R88, R364). -/
def RowFault.wf (f : RowFault) : Bool := decide (f.pass < 4096) &&
  ((f.cxs ++ f.check ++ f.tally).map (·.col) ++ f.specDup ++ f.drainDup).all (fun c => decide (c < 256))

/-- The checks a command passes before it is sent. -/
def Instr.wf : Instr → Bool
  | .rowDrain _ r f => decide (r < 65536) && f.wf
  | .ladderStepEnd _ rows fs => rows.length == fs.length && rows.all (fun r => decide (r < 65536)) && fs.all RowFault.wf
  | .strikeWindowEnd _ c => decide (c < 68)
  | .deepReadResponse _ t _ => decide (t < 512)
  | .deepWriteResponse _ t _ => decide (t < 512)
  | .mcStall _ b => decide (b < 1024)
  | .mcdata _ h bs => h.wf && decide (bs.length ≤ 4096)
  | .mccred _ _ sq p => decide (sq < 2 ^ 16) && decide (p < 2 ^ 32)
  | .post _ d sr t se v =>
    decide (d < 1024) && decide (sr < 1024) && decide (t < 4) && decide (se < 256) && decide (v < 65536)
  | .write _ h bs => h.wf && decide (bs.length = h.lenM1 + 1)
  | .wack _ h => h.wf
  | .wnak _ h => h.wf
  | .linkctl _ op _ _ => decide (op < 16)
  | .sync _ src lode hops e _ f =>
    decide (src < 1024) && decide (lode < 1024) && decide (hops < 16) && decide (e < 65536) && decide (f < 2 ^ 48)
  | .tick _ e _ f _ => decide (e < 65536) && decide (f < 2 ^ 48)
  | .hold _ e _ f => decide (e < 65536) && decide (f < 2 ^ 48)
  | .takeover _ s l e f => decide (s < 1024) && decide (l < 1024) && decide (e < 65536) && decide (f < 2 ^ 48)
  | .token _ s f b _ l => decide (s < 1024) && decide (f < 2 ^ 48) && decide (b < 65536) && decide (l < 1024)
  | .ready _ b => decide (b < 65536)
  | .droopTrip mv => decide (mv < 65536)
  | .sensorSample rs => decide (rs.length = 16) && rs.all (fun r => decide (-32768 ≤ r) && decide (r < 32768))
  | .autocalStart d => decide (d < 768)
  | .autocalDone cs => cs.all (fun c => decide (c < 65536))
  | .patrolScrub es => es.all EccEvent.wf
  | .bankCopyDone b => decide (b < 200)
  | .cleaveFenceDone p => p.wf
  | .cleaveReturnDone p fs => p.wf && fs.all (fun x => decide (x < 200))
  | .updCreditGrant n => decide (n < 16)
  | .vddAonOn p => decide (p.pcap.length = 4)
  | .resetDone bs => bs.all (fun b => decide (b < 200))
  | .selftestDone fs => decide (fs.length = 4) && fs.all (fun cs => cs.all (fun c => decide (c < 67)))
  | .nop _ | .tile _ _ | .sptile _ _ | .wload _ | .elemwise _ _ | .streamArm _ | .streamRearm _ | .semPost _
  | .semWait _ | .mark _ | .barrier _ | .yieldCmd _ | .scaleCommit _ | .gradEmit _ _ | .saveState _
  | .restoreState _ | .calibrate _ | .cleave _ | .veinFetch _ _ _ | .doorbell _ _ | .doorbellPoll _ _
  | .resumeNext _ | .resumeRetry _ _ | .reset _ | .yieldExpiry _ | .fillerUnblock | .bubbleEnd | .tileEntry _
  | .laneItemEnd _ _ | .commandComplete _ _ | .frameDoneToken | .streamEngineTransfer _ | .mcParcelSend _
  | .mcCreditGrant _ | .semTimeout _ | .routedForward _ | .beatReceive _ _ | .linkDetect _ _ _ | .linkLoss _
  | .capabilityWord _ _ | .modeWord _ _ | .trainingTimeout _ | .retrain _ | .disable _ | .syncSend
  | .dreq _ _ _ | .dresp _ _ _ _ | .syncLoss | .tickAnnounce | .tickFire _ | .gridMiss | .tokenTimeout _
  | .readyTimeout _ | .tickIn | .discPps | .ppsLost | .timeReq | .timeReqFall | .timeStep _ | .vackWatchStart
  | .vackRise | .vackTimeout | .oppSlewDone | .thermalStepdown | .thermalStepup | .droopEnd
  | .keeperLimit _ | .rampDownDone _ | .switchOpen _ | .switchCloseDone _ | .rampUpDone _ | .preRamp
  | .preRampTimeout | .ucodePar _ | .ctrlPar | .pllLock | .evacuate _ | .evacImageWrite | .updErr
  | .gradRecordSend _ | .pgtSnapshot | .pgtCommit _ | .schedEvaluate _ | .dbgMicaRead _ | .dbgMicaReadDone
  | .traceEnable _ | .traceRecord | .traceDrop | .injectorArm _ _ | .registerWrite _ _ | .badAccess _ _ _ _
  | .pxRstNLow | .pxRstNHigh | .pgoodLoss _ | .flashReadDone _ | .slateCheckDone | .enum _ | .image _
  | .bcastChain _ | .bcastCand _ | .bcastPhase _ | .bcastReload _ | .pollElig _ | .pollState _ | .pollAlive _
  | .strataReturn _ | .strataReturnTimeout | .headPoll | .phaseTimeout | .enumRequest | .slateReload
  | .testHoldRise | .testHoldFall | .wirUpdate _ | .ijtagAccess _ _ _ | .vddAonLoss | .overspend _ | .gridSlip
  | .exactCaptureDone | .schedValueReady | .strataBadlen _ => true

end Sys2Proof
end

