-- ==== Sys2Proof/Tests/Slice0.lean ====
section
/-! SUPPORT. Tests: ill-formed commands are refused; for each statement concrete states and operands that meet its
hypotheses; a few values that the spec works out. -/

namespace Sys2Proof.Tests

open Machine

-- One theorem at a time: each evaluation holds a thread with its own large stack.
set_option Elab.async false

/-! ## Small states -/

/-- The reset state in start-up state x. -/
def su (x : Su) : State := { State.reset with su := x }

/-- Give a register the value x, whatever it held. -/
def putWord (s : State) (a x : Nat) : State :=
  { s with regs := mapIns a (BitVec.ofNat 64 x) (mapDel a s.regs) }

/-- Set fields of registers; what is not set yet counts as 0. -/
def put (s : State) (fs : List (Nat × Field × Nat)) : State :=
  fs.foldl (fun s p => putWord s p.1 (setBits (mapGet 0 s.regs p.1).toNat p.2.1.lo p.2.1.width p.2.2)) s

/-- RUN, with tenant 0 in possession of all streams, semaphores and Mica, and the fields given. -/
def run (fs : List (Nat × Field × Nat)) : State :=
  put (su .run) ([(Reg.stmRange 0, Fl.stmRange_COUNT, 64), (Reg.semRange 0, Fl.semRange_COUNT, 256),
    (Reg.trmMpart 0, Fl.trmMpart_LIMIT, 0x3000), (Reg.trmMpart 1, Fl.trmMpart_LIMIT, 0x3000),
    (Reg.trmMpart 2, Fl.trmMpart_LIMIT, 0x3000), (Reg.trmMpart 3, Fl.trmMpart_LIMIT, 0x3000)] ++ fs)

/-- Vein v of s is READY with one command of one admitted group at its head. -/
def ready (s : State) (v : Nat) (ws : List W64) : State :=
  setVein (put s [(Reg.vnStat v, Fl.vnStat_STATE, Vs.ready)]) v
    { VeinSt.init with held := [⟨0, ws⟩], fresh := 1, groups := [⟨1, 0, true, false, true, true, 0, 0, 0, false, 0, 0, []⟩] }

/-- Vein 0 of a block in RUN, and nothing else. -/
def at0 (ws : List W64) : State := ready (run []) 0 ws

theorem head_of {s : State} {v op : Nat} {c : Cmd} (h : issuable s v = true ∧ headCmd s v = some c ∧
    cmdOp c.words = op ∧ staticBad s v c.words = none ∧ isFiller s (vTenant s v) = false ∧ outranked s v = false) :
    Head s v c op :=
  ⟨h.1, h.2.1, h.2.2.1, h.2.2.2.1, .inl h.2.2.2.2.1, h.2.2.2.2.2⟩

theorem injOff_of {s : State} (h : ∀ n < 8, injArmed s n = false) : injOff s := h

theorem portOpen_of {s : State} {a : Nat} (h : s.su ≠ .off ∧ s.su ≠ .safe ∧
    (match regRow a with | none => false | some r => (refusal s a r true).isNone) = true) : PortOpen s a := by
  obtain ⟨h1, h2, h3⟩ := h
  cases hr : regRow a with
  | none => simp [hr] at h3
  | some r => exact ⟨h1, h2, r, hr, by simpa [hr] using h3⟩

theorem sound_of {s : State} (h : mapWf regReset s.regs = true ∧ Memory.wf s = true) : Sound s := h

/-! ## Ill-formed commands: one for each check of Instr.wf -/

def hdrBad : RoutedHdr := ⟨1024, 0, 0, 0, 0⟩

theorem test_wf_refuses : (
    [.rowDrain 0 65536 RowFault.none, .rowDrain 0 0 { RowFault.none with pass := 4096 },
     .rowDrain 0 0 { RowFault.none with cxs := [⟨256, 1, 0⟩] }, .ladderStepEnd 0 [65536] [RowFault.none],
     .ladderStepEnd 0 [0] [{ RowFault.none with pass := 4096 }], .ladderStepEnd 0 [0] [],
     .strikeWindowEnd 0 68, .deepReadResponse 0 512 .error, .deepWriteResponse 0 512 false, .mcStall 0 1024,
     .mcdata 0 ⟨64, 0, 0, 0, false, 0⟩ [], .mccred 0 0 65536 0, .mccred 0 0 0 (2 ^ 32), .post 0 1024 0 0 0 0,
     .post 0 0 0 4 0 0, .post 0 0 0 0 256 0, .post 0 0 0 0 0 65536, .write 0 hdrBad [0], .write 0 ⟨0, 0, 0, 0, 1⟩ [0],
     .wack 0 hdrBad, .wnak 0 hdrBad, .linkctl 0 16 0 0] : List Instr).all (fun i => !i.wf) = true := by decide +kernel

theorem test_wf_refuses_time : (
    [.sync 0 1024 0 0 0 0 0, .tick 0 65536 0 0 0, .hold 0 0 0 (2 ^ 48), .takeover 0 0 1024 0 0,
     .token 0 0 0 65536 false 0, .ready 0 65536] : List Instr).all (fun i => !i.wf) = true := by decide +kernel

theorem test_wf_refuses_service : (
    [.sensorSample [0], .sensorSample (32768 :: List.replicate 15 0), .autocalStart 768, .autocalDone [65536],
     .patrolScrub [.single 0x3000000], .patrolScrub [.double 0x3000000], .bankCopyDone 200, .cleaveFenceDone ⟨4, 0⟩,
     .cleaveReturnDone ⟨0, 65536⟩ [], .cleaveReturnDone ⟨0, 0⟩ [200], .updCreditGrant 16,
     .vddAonOn { Pins.zero with pcap := [] }, .resetDone [200], .selftestDone [[], [], []],
     .selftestDone [[67], [], [], []]] : List Instr).all (fun i => !i.wf) = true := by decide +kernel

theorem test_wf_accepts : (
    [.nop 0, .rowDrain 0 65535 RowFault.none, .strikeWindowEnd 0 67, .write 0 ⟨1023, 0, 3, 0x2FFFFFF, 0⟩ [0],
     .sensorSample (List.replicate 16 (-32768)), .bankCopyDone 199] : List Instr).all (fun i => i.wf) = true := by decide +kernel

/-! ## Witnesses: the hypotheses of each statement are met -/

/-- StepKeepsSound: registers, Mica and a poison mark listed, a command waiting. -/
theorem test_witness_sound : ∃ t, Sound { poisonAt (micaWrite (at0 [0, 0, 0, 0]) 64 [1, 2]) 64 with pending := [.nop 0] } ∧
    step { poisonAt (micaWrite (at0 [0, 0, 0, 0]) 64 [1, 2]) 64 with pending := [.nop 0] } = .next t :=
  ⟨_, sound_of (by decide +kernel), rfl⟩

/-- IdleStepIsOneClock: RESET, OFF and RUN. -/
theorem test_witness_idle : (su .off).pending = [] ∧ (su .off).su = .off ∧ (run []).pending = [] ∧
    (run []).su ≠ .off ∧ (run []).su ≠ .clamped ∧ (run []).su ≠ .reset := by decide +kernel

/-- QuickControlCompletes: SCALE_COMMIT of the last entry of a history of 4. -/
def hist4 : State := ready (run [(Reg.numHistCfg, Fl.numHistCfg_COUNT, 4)]) 0 [0x14, 3 + (1 <<< 10), 0, 0]

theorem test_witness_now : Head (at0 [0, 0, 0, 0]) 0 ⟨0, [0, 0, 0, 0]⟩ 0x00 ∧
    (Head (at0 [0x12, 0, 0, 0]) 0 ⟨0, [0x12, 0, 0, 0]⟩ 0x12 ∧ cf [0x12, 0, 0, 0] 1 0 32 = 0) ∧
    Head hist4 0 ⟨0, [0x14, 3 + (1 <<< 10), 0, 0]⟩ 0x14 :=
  ⟨head_of (by decide +kernel), ⟨head_of (by decide +kernel), by decide +kernel⟩, head_of (by decide +kernel)⟩

/-- MARK of kind k, with word 1. -/
def mk (k x : W64) : List W64 := [0x10 + (k <<< 10), x, 0, 0]

def filler0 (ws : List W64) : State :=
  let s := ready (run [(Reg.vnTenant 0, Fl.vnTenant_FILLER, 1)]) 0 ws
  { s with trm := { s.trm with bubbles := [(1, 100)], budget := 1000000000, horizon := 0 } }

def staleVein (ws : List W64) : State := let s := at0 ws; setVein s 0 { vein s 0 with stale := true }

/-- QuickControlCompletes: each kind, STEP at its largest number, FRAME just before and at the present frame. -/
theorem test_witness_mark : (Head (at0 (mk 0 (0xFFFFFFFFFF))) 0 ⟨0, mk 0 (0xFFFFFFFFFF)⟩ 0x10 ∧
      (vein (at0 (mk 0 (0xFFFFFFFFFF))) 0).stale = false) ∧ Head (at0 (mk 4 0)) 0 ⟨0, mk 4 0⟩ 0x10 ∧
    (Head (at0 (mk 1 0)) 0 ⟨0, mk 1 0⟩ 0x10 ∧ frameReached (at0 (mk 1 0)) (cf (mk 1 0) 1 0 48) = true) ∧
    (Head (at0 (mk 1 1)) 0 ⟨0, mk 1 1⟩ 0x10 ∧ frameReached (at0 (mk 1 1)) (cf (mk 1 1) 1 0 48) = false) ∧
    Head (at0 (mk 2 0)) 0 ⟨0, mk 2 0⟩ 0x10 ∧ Head (at0 (mk 3 7)) 0 ⟨0, mk 3 7⟩ 0x10 ∧
    (Head (at0 (mk 5 9)) 0 ⟨0, mk 5 9⟩ 0x10 ∧ isFiller (at0 (mk 5 9)) 0 = false) ∧
    (Head (staleVein (mk 0 1)) 0 ⟨0, mk 0 1⟩ 0x10 ∧ (vein (staleVein (mk 0 1)) 0).stale = true ∧
      (vein (staleVein (mk 0 1)) 0).fenced = false ∧ (vein (staleVein (mk 0 1)) 0).jobs = []) ∧
    Head (staleVein (mk 4 0)) 0 ⟨0, mk 4 0⟩ 0x10 :=
  ⟨⟨head_of (by decide +kernel), by decide +kernel⟩, head_of (by decide +kernel), ⟨head_of (by decide +kernel), by decide +kernel⟩,
    ⟨head_of (by decide +kernel), by decide +kernel⟩, head_of (by decide +kernel), head_of (by decide +kernel), ⟨head_of (by decide +kernel), by decide +kernel⟩,
    ⟨head_of (by decide +kernel), by decide +kernel⟩, head_of (by decide +kernel)⟩

theorem test_witness_mark_filler : Head (filler0 (mk 5 9)) 0 ⟨0, mk 5 9⟩ 0x10 ∧
    isFiller (filler0 (mk 5 9)) (vTenant (filler0 (mk 5 9)) 0) = true :=
  ⟨⟨by decide +kernel, by decide +kernel, by decide +kernel, by decide +kernel, .inr (by decide +kernel), by decide +kernel⟩, by decide +kernel⟩

/-- WaitCommandsWaitOrPass: semaphore 3 one below, and at, the count 5; a barrier of veins 0 and 1. -/
def sem3 (n : Nat) (ws : List W64) : State := ready (run [(Reg.semVal 3, Fl.semVal_VALUE, n)]) 0 ws

def semWait5 : List W64 := [0x0D + (3 <<< 10), 5, 0, 0]

def barrier01 : List W64 := [0x11 + (2 <<< 10) + (1 <<< 13), 3, 0, 0]

theorem test_witness_waits : (Head (sem3 4 semWait5) 0 ⟨0, semWait5⟩ 0x0D ∧ inSemRange (sem3 4 semWait5) 0 3 = true ∧
      semValue (sem3 4 semWait5) 3 < cf semWait5 1 0 16 ∧ semWaiters (sem3 4 semWait5) 3 = []) ∧
    (Head (sem3 5 semWait5) 0 ⟨0, semWait5⟩ 0x0D ∧ cf semWait5 1 0 16 ≤ semValue (sem3 5 semWait5) 3) ∧
    (Head (at0 [0x12, 1, 0, 0]) 0 ⟨0, [0x12, 1, 0, 0]⟩ 0x12 ∧ cf [0x12, 1, 0, 0] 1 0 32 ≠ 0) :=
  ⟨⟨head_of (by decide +kernel), by decide +kernel⟩, ⟨head_of (by decide +kernel), by decide +kernel⟩, ⟨head_of (by decide +kernel), by decide +kernel⟩⟩

/-- Vein 1 waits at the barrier already. -/
def oneThere : State := setVein (setVState (at0 barrier01) 1 Vs.wait) 1 { VeinSt.init with wait := some (.barrier 2 3) }

theorem test_witness_barrier : (Head (at0 barrier01) 0 ⟨0, barrier01⟩ 0x11 ∧
      (∀ w < 16, bit 3 w = true → vTenant (at0 barrier01) w = vTenant (at0 barrier01) 0) ∧ bit (cf barrier01 1 0 16) 0 = true ∧
      (∀ p ∈ barrierAt (at0 barrier01) 2, vTenant (at0 barrier01) p.1 = vTenant (at0 barrier01) 0 ∧ p.2 = 3) ∧
      cb barrier01 0 13 = true ∧ earlierDone (at0 barrier01) 0 = true ∧
      bit 3 1 = true ∧ 1 ∉ (barrierAt (at0 barrier01) 2).map (·.1)) ∧
    (Head oneThere 0 ⟨0, barrier01⟩ 0x11 ∧
      (∀ p ∈ barrierAt oneThere 2, vTenant oneThere p.1 = vTenant oneThere 0 ∧ p.2 = 3) ∧
      ∀ w < 16, bit 3 w = true → w ≠ 0 → w ∈ (barrierAt oneThere 2).map (·.1)) :=
  ⟨⟨head_of (by decide +kernel), by decide +kernel⟩, ⟨head_of (by decide +kernel), by decide +kernel⟩⟩

/-- ReadyCommandsIssueInOrder: two ready veins, the second with a deadline or after a step back of the first. -/
def both : State := ready (ready (run [(Reg.vnDeadline 1, Fl.vnDeadline_CLOCKS, 9)]) 0 [0, 0, 0, 0]) 1 [0, 0, 0, 0]

theorem test_witness_turn : readyHead both 0 = true ∧ readyHead both 1 = true ∧ deadlineKey both 1 < deadlineKey both 0 ∧
    outranked both 0 = true ∧ outranked both 1 = false ∧ lowPref both = false ∧
    turnBefore (setVein both 1 { vein both 1 with stepBack := true }) 0 1 = true := by decide +kernel

/-! ### Streams -/

/-- A STREAM_ARM of stream i: a RESIDENT range of n bytes at x; an IN_DEEP and an OUT_DEEP stream on port 0 with
halves of 64 bytes at x of Mica. -/
def armRes (i x n : W64) : List W64 := [0x08 + (i <<< 10), x, n - 1, 0, 0, 0, 0, 4 <<< 60]

def armIn (i x n : W64) : List W64 := [0x08 + (i <<< 10), 0, n - 1, 0, 0, 0, x + (1 <<< 32), 1 <<< 56]

def armOut (i x n : W64) : List W64 := [0x08 + (i <<< 10), 0, n - 1, 0, 0, 0, x + (1 <<< 32), (2 <<< 60) + (1 <<< 56)]

/-- s with stream i of tenant 0 armed by such words. -/
def arm (s : State) (i : Nat) (ws : List W64) : State :=
  let s := (List.range 7).foldl (fun (s : State) w =>
    putWord s (Reg.stmDescW0 i + 8 * w) (wordAt ws (1 + w))) s
  let s := put s [(Reg.stmDescW7 i, Fl.stmDescW7_STATE, Ss.running)]
  setStrm s i { StreamSt.init with seqs := [⟨0, (desc s i).total, (desc s i).xbase⟩] }

/-- StreamArmStartsStream: the last stream, as RESIDENT at the end of a region, and as IN_DEEP. -/
theorem test_witness_arm : (Head (at0 (armRes 63 0x17FFFC0 64)) 0 ⟨0, armRes 63 0x17FFFC0 64⟩ 0x08 ∧
      armCheck (at0 (armRes 63 0x17FFFC0 64)) 0 (armRes 63 0x17FFFC0 64) = none ∧ (armDesc (armRes 63 0x17FFFC0 64)).isDeep = false) ∧
    (Head (at0 (armIn 0 0 64)) 0 ⟨0, armIn 0 0 64⟩ 0x08 ∧ armCheck (at0 (armIn 0 0 64)) 0 (armIn 0 0 64) = none ∧
      deepPorts (at0 (armIn 0 0 64)) (armDesc (armIn 0 0 64)) ≠ []) :=
  ⟨⟨head_of (by decide +kernel), by decide +kernel⟩, ⟨head_of (by decide +kernel), by decide +kernel⟩⟩

/-- Stream 2 in W-Mica, ENDED or RUNNING, without and with a held re-arm; vein 0 at a STREAM_REARM or WLOAD of it. -/
def rearm2 : List W64 := [0x09 + (2 <<< 10), 64, 0, 0]

def wload2 (dir gen : W64) : List W64 := [0x03 + (2 <<< 10) + (dir <<< 16), 64, gen, 0]

/-- Parameter group 0 of the table at byte 0 of S-Mica: the word that holds its flags and generations. -/
def with2 (st : Nat) (held : Option Nat) (ws : List W64) : State :=
  let s := setSState (arm (at0 ws) 2 (armIn 2 0x1800000 64)) 2 st
  setStrm s 2 { strm s 2 with rearm := held }

theorem test_witness_rearm : (Head (with2 Ss.ended none rearm2) 0 ⟨0, rearm2⟩ 0x09 ∧
      rearmCheck (with2 Ss.ended none rearm2) 0 2 64 = none ∧ sState (with2 Ss.ended none rearm2) 2 = Ss.ended) ∧
    (Head (with2 Ss.running none rearm2) 0 ⟨0, rearm2⟩ 0x09 ∧ rearmCheck (with2 Ss.running none rearm2) 0 2 64 = none ∧
      sState (with2 Ss.running none rearm2) 2 = Ss.running ∧ (strm (with2 Ss.running none rearm2) 2).rearm = none) ∧
    (Head (with2 Ss.running (some 0) rearm2) 0 ⟨0, rearm2⟩ 0x09 ∧
      rearmCheck (with2 Ss.running (some 0) rearm2) 0 2 64 = none ∧
      (strm (with2 Ss.running (some 0) rearm2) 2).rearm ≠ none) :=
  ⟨⟨head_of (by decide +kernel), by decide +kernel⟩, ⟨head_of (by decide +kernel), by decide +kernel⟩,
    ⟨head_of (by decide +kernel), by decide +kernel⟩⟩

/-- An entry of parameter group 0 at the base of S-Mica: flags and generation. -/
def entry (flags gen : Nat) (s : State) : State := pgtPut s 0 (flags + gen * 2 ^ 16)

def wl (st : Nat) (held : Option Nat) (flags gen : Nat) (ws : List W64) : State := entry flags gen (with2 st held ws)

/-- A WLOAD of an ENDED, a RUNNING and a busy stream; the last with no entry recorded. -/
theorem test_witness_wload : (Head (wl Ss.ended none 0x21 7 (wload2 0 8)) 0 ⟨0, wload2 0 8⟩ 0x03 ∧
      rearmCheck (wl Ss.ended none 0x21 7 (wload2 0 8)) 0 2 64 = none ∧
      usesBad (wl Ss.ended none 0x21 7 (wload2 0 8)) 0 [(2, 1)] = none ∧
      pgtBad (wl Ss.ended none 0x21 7 (wload2 0 8)) 0 = none ∧ rearmBusy (wl Ss.ended none 0x21 7 (wload2 0 8)) 2 = false ∧
      (∀ k < 32, ringByte (wl Ss.ended none 0x21 7 (wload2 0 8)) (pgtAddr (wl Ss.ended none 0x21 7 (wload2 0 8)) 0 + k) = false) ∧
      wloadStale (pgtRaw (wl Ss.ended none 0x21 7 (wload2 0 8)) 0) 0 8 0 = false) ∧
    (Head (wl Ss.running none 0x21 8 (wload2 1 8)) 0 ⟨0, wload2 1 8⟩ 0x03 ∧
      usesBad (wl Ss.running none 0x21 8 (wload2 1 8)) 0 [(2, 1)] = none ∧
      pgtBad (wl Ss.running none 0x21 8 (wload2 1 8)) 0 = none ∧
      wloadStale (pgtRaw (wl Ss.running none 0x21 8 (wload2 1 8)) 0) 1 8 0 = false) ∧
    (Head (wl Ss.running (some 0) 0x01 0 (wload2 0 8)) 0 ⟨0, wload2 0 8⟩ 0x03 ∧
      usesBad (wl Ss.running (some 0) 0x01 0 (wload2 0 8)) 0 [(2, 1)] = none ∧
      (strm (wl Ss.running (some 0) 0x01 0 (wload2 0 8)) 2).rearm ≠ none) :=
  ⟨⟨head_of (by decide +kernel), by decide +kernel⟩, ⟨head_of (by decide +kernel), by decide +kernel⟩,
    ⟨head_of (by decide +kernel), by decide +kernel⟩⟩

/-- Stale gathers: forward one generation back, accepted and not; backward with another generation, accepted. -/
theorem test_witness_wload_stale : (Head (wl Ss.ended none 0x21 9 (wload2 0 8)) 0 ⟨0, wload2 0 8⟩ 0x03 ∧
      wloadStale (pgtRaw (wl Ss.ended none 0x21 9 (wload2 0 8)) 0) 0 8 0 = true ∧
      pgtAccept (pgtRaw (wl Ss.ended none 0x21 9 (wload2 0 8)) 0) = false) ∧
    (Head (wl Ss.ended none 0x29 9 (wload2 0 8)) 0 ⟨0, wload2 0 8⟩ 0x03 ∧
      wloadStale (pgtRaw (wl Ss.ended none 0x29 9 (wload2 0 8)) 0) 0 8 0 = true ∧
      pgtAccept (pgtRaw (wl Ss.ended none 0x29 9 (wload2 0 8)) 0) = true) ∧
    (Head (wl Ss.ended none 0x29 9 (wload2 1 8)) 0 ⟨0, wload2 1 8⟩ 0x03 ∧
      wloadStale (pgtRaw (wl Ss.ended none 0x29 9 (wload2 1 8)) 0) 1 8 0 = true) :=
  ⟨⟨head_of (by decide +kernel), by decide +kernel⟩, ⟨head_of (by decide +kernel), by decide +kernel⟩,
    ⟨head_of (by decide +kernel), by decide +kernel⟩⟩

/-- SemPostAddsToSemaphore: a sum of 65,535 and one above; a vein with work in flight; a stratum without a route. -/
def post3 (n : W64) : List W64 := [0x0C + (3 <<< 10), n <<< 16, 0, 0]

def postFar : List W64 := [0x0C + (3 <<< 10) + (1 <<< 18), (1 <<< 16) + 9, 0, 0]

def jobOf (op : Nat) (ws : List W64) (as : List Nat) : Job :=
  { op := op, seq := 77, slot := 0, words := ws, tenant := 0, inFrame := true, frame := 0, tissue := 0, step := 0, estE := 0,
    estT := 0, conds := [], fin := false, done := false, arrays := as, nt := 0, pass := 0, sub := 0, corr := false,
    entered := false, nts := [], ntDone := 0, hValid := false, hMax := 0, mask := 0, amax := none, any := false,
    nonzero := 0, oPos := 0, osPos := 0, prog := 0, aPos := 0, aScl := 0, bPos := 0, bScl := 0, xPos := 0, dscW := [],
    spA := ⟨0, 0, 0, 0, 0, 0⟩, spW := ⟨0, 0, 0, 0, 0, 0⟩, voids := [], holds := [], starts := [], rerun := false,
    beat := 0, ladders := [], spilled := false, preempt := false, redo := [], resume := none, missed := [],
    skips := [], served := [], dup := false, payload := [] }

def inFlight (s : State) (v : Nat) (j : Job) : State := setVein s v { vein s v with jobs := [j] }

theorem test_witness_post : (Head (sem3 65534 (post3 1)) 0 ⟨0, post3 1⟩ 0x0C ∧ inSemRange (sem3 65534 (post3 1)) 0 3 = true ∧
      earlierDone (sem3 65534 (post3 1)) 0 = true ∧ bytesVisible (sem3 65534 (post3 1)) 0 = true ∧ cb (post3 1) 0 18 = false ∧
      (∀ n < 8, injArmed (sem3 65534 (post3 1)) n = false) ∧ semWaiters (sem3 65534 (post3 1)) 3 = [] ∧
      semValue (sem3 65534 (post3 1)) 3 + cf (post3 1) 1 16 16 ≤ 65535) ∧
    (Head (sem3 65535 (post3 1)) 0 ⟨0, post3 1⟩ 0x0C ∧ 65535 < semValue (sem3 65535 (post3 1)) 3 + cf (post3 1) 1 16 16) ∧
    (Head (inFlight (at0 (post3 1)) 0 (jobOf 1 [] [])) 0 ⟨0, post3 1⟩ 0x0C ∧
      earlierDone (inFlight (at0 (post3 1)) 0 (jobOf 1 [] [])) 0 = false) ∧
    (Head (at0 postFar) 0 ⟨0, postFar⟩ 0x0C ∧ cb postFar 0 18 = true ∧ cf postFar 1 0 10 ≠ stratum (at0 postFar) ∧
      nextLink (at0 postFar) 9 1 none = .fail ∧ (vein (at0 postFar) 0).jobs = []) :=
  ⟨⟨head_of (by decide +kernel), by decide +kernel⟩, ⟨head_of (by decide +kernel), by decide +kernel⟩,
    ⟨head_of (by decide +kernel), by decide +kernel⟩, ⟨head_of (by decide +kernel), by decide +kernel⟩⟩

/-! ### Commands that claim arrays -/

/-- A TILE of one BF16 element, activations from stream 0, weights from stream 1, output to stream 2; extra bits of
word 0 and word 2. -/
def tile1 (x0 x2 : W64) : List W64 :=
  [0x01 + x0, 0x200020002000, x2, (2 <<< 24) + (1 <<< 6)]

/-- An SPTILE of the same shape: the activations of stream 0 compressed with row pointers and indices of streams 3
and 4, the weights of stream 1 not. -/
def sptile1 : List W64 := [0x02 + (2 <<< 14), 0x200020002000, 0xB0010 <<< 38, 2 <<< 24]

/-- Arrays in service by mask m, and streams 0 to 4 RESIDENT in A-, W-, A-, S- and S-Mica. -/
def bed (m : Nat) (ws : List W64) : State :=
  let s := put (at0 ws) [(Reg.tchArrays, Fl.tchArrays_INSERVICE, m), (Reg.vnTenant 0, Fl.vnTenant_P_CAL, 1),
    (Reg.vnTenant 0, Fl.vnTenant_P_CLEAVE, 1)]
  arm (arm (arm (arm (arm s 0 (armRes 0 0 64)) 1 (armRes 1 0x1800000 32768)) 2 (armRes 2 64 64)) 3 (armRes 3 0x2C00800 64)) 4
    (armRes 4 0x2C00840 64)

/-- The sparse descriptor at 0x2C00400 of S-Mica. -/
def withDesc (s : State) : State := micaWrite s 0x2C00400 (leBytes 64 (1 + (3 <<< 8) + (4 <<< 16)) ++ leBytes 64 (1 <<< 24))

theorem test_witness_tile : (Head (bed 15 (tile1 0 0)) 0 ⟨0, tile1 0 0⟩ 0x01 ∧ tileCheck (bed 15 (tile1 0 0)) 0 (tile1 0 0) = none ∧
      claimSet (bed 15 (tile1 0 0)) 0 3 = [3] ∧ (tileOf (tile1 0 0)).fits 1 = true ∧
      claimFree (bed 15 (tile1 0 0)) [3] (tile1 0 0) = true ∧ (tileOf (tile1 0 0)).wgrad = false) ∧
    (Head (withDesc (bed 15 sptile1)) 0 ⟨0, sptile1⟩ 0x02 ∧ tileCheck (withDesc (bed 15 sptile1)) 0 sptile1 = none ∧
      claimSet (withDesc (bed 15 sptile1)) 0 0 = [0] ∧ (tileOf sptile1).fits 1 = true ∧
      claimFree (withDesc (bed 15 sptile1)) [0] sptile1 = true) ∧
    (Head (bed 0 (tile1 0 0)) 0 ⟨0, tile1 0 0⟩ 0x01 ∧ tileCheck (bed 0 (tile1 0 0)) 0 (tile1 0 0) = none ∧
      claimSet (bed 0 (tile1 0 0)) 0 3 = []) :=
  ⟨⟨head_of (by decide +kernel), by decide +kernel⟩, ⟨head_of (by decide +kernel), by decide +kernel⟩,
    ⟨head_of (by decide +kernel), by decide +kernel⟩⟩

/-- Two arrays at least for a Flat tile of 5,000 rows; a held array; a frozen parameter group. -/
def tileBig : List W64 := [0x01 + (1 <<< 10) + (1 <<< 14), (4999 <<< 48) + 0x200020002000, 0, (2 <<< 24) + (1 <<< 6)]

def held3 : State := inFlight (ready (bed 15 []) 1 (tile1 0 0)) 0 (jobOf 4 [4] [3])

def frozen : State := entry 3 0 (bed 15 (tile1 0 (3 <<< 62)))

theorem test_witness_tile_claims : (Head (bed 5 tileBig) 0 ⟨0, tileBig⟩ 0x01 ∧ tileCheck (bed 5 tileBig) 0 tileBig = none ∧
      claimSet (bed 5 tileBig) 1 1 = [2] ∧ (tileOf tileBig).fits 1 = false ∧ (vein (bed 5 tileBig) 0).jobs = []) ∧
    (Head held3 1 ⟨0, tile1 0 0⟩ 0x01 ∧ tileCheck held3 1 (tile1 0 0) = none ∧ claimSet held3 0 3 = [3] ∧
      claimFree held3 [3] (tile1 0 0) = false) ∧
    (Head frozen 0 ⟨0, tile1 0 (3 <<< 62)⟩ 0x01 ∧ tileCheck frozen 0 (tile1 0 (3 <<< 62)) = none ∧
      claimFree frozen [0] (tile1 0 (3 <<< 62)) = true ∧ (tileOf (tile1 0 (3 <<< 62))).wgrad = true ∧
      pgtFrozen (pgtRaw frozen 0) = true) :=
  ⟨⟨head_of (by decide +kernel), by decide +kernel⟩, ⟨head_of (by decide +kernel), by decide +kernel⟩,
    ⟨head_of (by decide +kernel), by decide +kernel⟩⟩

/-- ElemwiseAndGradEmitStart: one BF16 element copied from stream 0 to 2; a gradient record of stream 0, of an entry
that is plain, and of a frozen one with and without zero markers. -/
def ew1 : List W64 := [0x04, 0x200000002000, 1, 2 <<< 24]

def grad1 : List W64 := [0x15, 0, (0x2000 <<< 48) + (0x2000 <<< 32) + 1, 0]

def grads (flags : Nat) : State :=
  let s := pgtPut (bed 15 grad1) 0 (flags + 2 ^ 64)
  { s with pins := { s.pins with scap := 2 } }

theorem test_witness_linear : (Head (bed 15 ew1) 0 ⟨0, ew1⟩ 0x04 ∧ ewCheck (bed 15 ew1) 0 ew1 = none ∧
      claimSet (bed 15 ew1) 0 0 = [0] ∧ claimFree (bed 15 ew1) [0] ew1 = true ∧
      allFull (wakeAll (bed 15 ew1) [0]) [0] = false) ∧
    (Head (grads 1) 0 ⟨0, grad1⟩ 0x15 ∧ gradCheck (grads 1) 0 grad1 = none ∧ claimSet (grads 1) 0 0 = [0] ∧
      claimFree (grads 1) [0] grad1 = true ∧ emitKind (pgtRaw (grads 1) 0) 0 = 0) ∧
    (Head (grads 0x13) 0 ⟨0, grad1⟩ 0x15 ∧ gradCheck (grads 0x13) 0 grad1 = none ∧
      emitKind (pgtRaw (grads 0x13) 0) 0 = 1 ∧ pgtZmark (pgtRaw (grads 0x13) 0) = true) ∧
    (Head (grads 0x03) 0 ⟨0, grad1⟩ 0x15 ∧ gradCheck (grads 0x03) 0 grad1 = none ∧
      emitKind (pgtRaw (grads 0x03) 0) 0 = 1 ∧ pgtZmark (pgtRaw (grads 0x03) 0) = false) :=
  ⟨⟨head_of (by decide +kernel), by decide +kernel⟩, ⟨head_of (by decide +kernel), by decide +kernel⟩,
    ⟨head_of (by decide +kernel), by decide +kernel⟩, ⟨head_of (by decide +kernel), by decide +kernel⟩⟩

/-- SaveAndRestoreState: an image without parts, of 64 bytes, in stream 0; an image that is not whole, and one that is
(its CRC is that of the first 60 bytes). -/
def save0 : List W64 := [0x18, 0, 0, 0]

def restore0 : List W64 := [0x19, 0, 0, 0]

def image0 : List Byte := let h := leBytes 4 0x53545058 ++ leBytes 24 1 ++ leBytes 32 64; h ++ leBytes 4 (crc32c h)

theorem test_witness_images : (Head (bed 15 save0) 0 ⟨0, save0⟩ 0x18 ∧ imageCheck true (bed 15 save0) 0 save0 = none ∧
      earlierDone (bed 15 save0) 0 = true ∧ (stateImage (bed 15 save0) 0 0).length = 64 ∧
      (∀ j < 64, imageAddr (bed 15 save0) 0 j = j)) ∧
    (Head (bed 15 restore0) 0 ⟨0, restore0⟩ 0x19 ∧ imageCheck false (bed 15 restore0) 0 restore0 = none ∧
      (desc (bed 15 restore0) 0).isResident = true ∧ imageRoom (bed 15 restore0) 0 = 64 ∧
      imageBad (micaRead (bed 15 restore0) 0 64) = true) ∧
    imageBad (micaRead (micaWrite (bed 15 restore0) 0 image0) 0 64) = false :=
  ⟨⟨head_of (by decide +kernel), by decide +kernel⟩, ⟨head_of (by decide +kernel), by decide +kernel⟩, by decide +kernel⟩

/-- CalibrateAndCleaveBegin: with all arrays and with none; a cleave of an array in and out of service, of veins. -/
def cal0 : List W64 := [0x1C, 0, 0, 0]

def clv (kind : W64) (target : W64) : List W64 := [0x1D + (kind <<< 10), target, 0, 0]

theorem test_witness_cal_cleave : (Head (bed 15 cal0) 0 ⟨0, cal0⟩ 0x1C ∧ calCheck (bed 15 cal0) 0 cal0 = none ∧
      arraysIn (bed 15 cal0) = [0, 1, 2, 3] ∧ claimFree (bed 15 cal0) [0, 1, 2, 3] cal0 = true) ∧
    (Head (bed 0 cal0) 0 ⟨0, cal0⟩ 0x1C ∧ calCheck (bed 0 cal0) 0 cal0 = none ∧ arraysIn (bed 0 cal0) = []) ∧
    (Head (bed 7 (clv 0 2)) 0 ⟨0, clv 0 2⟩ 0x1D ∧ cleaveCheck (bed 7 (clv 0 2)) 0 (clv 0 2) = none ∧
      inService (bed 7 (clv 0 2)) 2 = true ∧ calJob (bed 7 (clv 0 2)) = none) ∧
    (Head (bed 7 (clv 0 3)) 0 ⟨0, clv 0 3⟩ 0x1D ∧ cleaveCheck (bed 7 (clv 0 3)) 0 (clv 0 3) = none ∧
      cb (clv 0 3) 0 14 = inService (bed 7 (clv 0 3)) 3) ∧
    (Head (setVState (bed 7 (clv 2 0x8000)) 15 Vs.ready) 0 ⟨0, clv 2 0x8000⟩ 0x1D ∧
      cleaveCheck (setVState (bed 7 (clv 2 0x8000)) 15 Vs.ready) 0 (clv 2 0x8000) = none ∧
      vBase (setVState (bed 7 (clv 2 0x8000)) 15 Vs.ready) 15 ≠ Vs.off) :=
  ⟨⟨head_of (by decide +kernel), by decide +kernel⟩, ⟨head_of (by decide +kernel), by decide +kernel⟩,
    ⟨head_of (by decide +kernel), by decide +kernel⟩, ⟨head_of (by decide +kernel), by decide +kernel⟩,
    ⟨head_of (by decide +kernel), by decide +kernel⟩⟩

/-! ### Veins -/

/-- Vein 0 enabled with a queue of 2^4 slots in S-Mica at 0x2C00000, TAIL as given, doorbell mode m. -/
def queueSt (st m tail : Nat) : State :=
  run [(Reg.vnQbase 0, Fl.vnQbase_SPACE, 1), (Reg.vnQbase 0, Fl.vnQbase_BASE, 0xB0000), (Reg.vnQcfg 0, Fl.vnQcfg_DBMODE, m),
    (Reg.vnQcfg 0, Fl.vnQcfg_LOG2SZ, 4), (Reg.vnTail 0, Fl.vnTail_TAIL, tail), (Reg.vnStat 0, Fl.vnStat_STATE, st)]

def queue0 (m tail : Nat) : State := queueSt Vs.empty m tail

def nopAt (seq : Nat) (s : State) : State := micaWrite s 0x2C00000 (leBytes 32 (seq <<< 32))

/-- FetchAndDoorbells: the expected SEQ and another; a full queue and one slot too many. -/
theorem test_witness_fetch : (mayFetch (queue0 0 1) 0 = true ∧ readSlot (queue0 0 1) 0 0 (.words []) = .words [0, 0, 0, 0] ∧
      qFill (queue0 0 1) 0 = 1 ∧ qslots (queue0 0 1) 0 = 16 ∧ cmdSeq [0, 0, 0, 0] = qNext (queue0 0 1) 0) ∧
    (readSlot (nopAt 1 (queue0 0 16)) 0 0 (.words []) = .words [0x100000000, 0, 0, 0] ∧
      qFill (nopAt 1 (queue0 0 16)) 0 ≤ qslots (nopAt 1 (queue0 0 16)) 0 ∧
      cmdSeq [0x100000000, 0, 0, 0] ≠ qNext (nopAt 1 (queue0 0 16)) 0) ∧
    (readSlot (nopAt 0xFFFFFFFF (queue0 2 0)) 0 0 (.words []) = .words [0xFFFFFFFF00000000, 0, 0, 0] ∧
      seqBefore 0xFFFFFFFF (qNext (queue0 2 0) 0) = true ∧ mayFetch (queue0 2 0) 0 = true ∧ seqBefore 1 0 = false) ∧
    (∀ n < 8, injArmed (queue0 0 1) n = false) := by decide +kernel

theorem test_witness_doorbell : PortOpen (queue0 0 0) (Reg.vnTail 0) ∧ dbMode (queue0 0 0) 0 = 0 ∧
    ¬(qslots (queue0 0 0) 0 < qFill (setFld (queue0 0 0) (Reg.vnTail 0) Fl.vnTail_TAIL 16) 0) ∧
    (mayFetch (setFld (queue0 0 0) (Reg.vnTail 0) Fl.vnTail_TAIL 17) 0 = true ∧
      qslots (queue0 0 0) 0 < qFill (setFld (queue0 0 0) (Reg.vnTail 0) Fl.vnTail_TAIL 17) 0) ∧
    (dbMode (queue0 1 0) 0 = 1 ∧ vBase (queue0 1 0) 0 ≠ Vs.off ∧ vBase (queue0 1 0) 0 ≠ Vs.halted ∧
      (vein (queue0 1 0) 0).fetchBad = none ∧ fld (queue0 1 0) Reg.errEvstat Fl.errEvstat_STATE < 2 ∧ qFill (queue0 1 0) 0 = 0 ∧
      readTail (queue0 1 0) 0 (.words [17]) = .words [17]) :=
  ⟨portOpen_of (by decide +kernel), by decide +kernel⟩

/-- HaltedVeinRestarts: vein 0 HALTED by a command of its queue. -/
def halted0 : State :=
  inFlight (queueSt Vs.halted 0 1) 0 { jobOf 1 [1, 0, 0, 0] [] with conds := [St.stateIllegal], fin := true, done := true }

theorem test_witness_restart : PortOpen halted0 (Reg.vnCtrl 0) ∧ vState halted0 0 = Vs.halted ∧
    (vein halted0 0).jobs.find? jobHalts = (vein halted0 0).jobs.getLast? ∧ (vein halted0 0).jobs.find? jobHalts ≠ none ∧
    readSlot halted0 0 0 (.words []) = .words [0, 0, 0, 0] ∧ vState (queue0 0 0) 0 ≠ Vs.halted :=
  ⟨portOpen_of (by decide +kernel), by decide +kernel⟩

/-- WaitsOfVeinsEnd. -/
def waits (w : Wait) : State :=
  let s := put (run []) [(Reg.vnStat 0, Fl.vnStat_STATE, Vs.wait)]
  setVein s 0 { VeinSt.init with wait := some w, jobs := [jobOf 0x0D semWait5 []] }

theorem test_witness_waits_end : (vein (waits (.yield 3)) 0).wait = some (.yield 3) ∧
    ((vein (waits (.sem 3 5 2 2 0)) 0).wait = some (.sem 3 5 2 2 0) ∧ vState (waits (.sem 3 5 2 2 0)) 0 = Vs.wait ∧
      (vein (waits (.sem 3 5 2 2 0)) 0).jobs = [jobOf 0x0D semWait5 []]) ∧
    nonFillerBlocked (run [(Reg.vnTenant 0, Fl.vnTenant_SLICEMASK, 1)]) = true ∧
    nonFillerBlocked (ready (run [(Reg.vnTenant 0, Fl.vnTenant_SLICEMASK, 1)]) 0 []) = false ∧
    (filler0 []).trm.bubbles ≠ [] := by decide +kernel

/-- A group whose second command was scanned beyond the prefetch; windows that end on both sides of the wrap. -/
def scanned : State := setVein (queue0 0 2) 0 { VeinSt.init with
  held := [⟨0, [0, 0, 0, 0]⟩, ⟨1, [0x100000000, 0, 0, 0]⟩], fresh := 1,
  groups := [⟨2, 0, true, false, true, true, 0, 0, 0, false, 0, 0, []⟩] }

theorem test_witness_reread : fetchLive scanned 0 = true ∧ rereads (vein scanned 0) = true ∧
    (vein scanned 0).held[(vein scanned 0).fresh]? = some ⟨1, [0x100000000, 0, 0, 0]⟩ ∧
    readSlot scanned 0 1 (.words []) = .words [0, 0, 0, 0] ∧ (∀ n < 8, injArmed scanned n = false) ∧
    (∀ x ∈ (filler0 []).trm.bubbles, x.2 < 2 ^ 64 ∧ (x.2 + 2 ^ 64 - tstamp (filler0 [])) % 2 ^ 64 < 2 ^ 63) := by decide +kernel

/-! ### Tiles, drains, the ladder, ramps -/

/-- Array 3 holds the TILE of test_witness_tile; the array is at full admission. -/
def tiling (j : Job) (s : State) : State := setArr (inFlight (put s [(Reg.vnStat 0, Fl.vnStat_STATE, Vs.empty)]) 0 j) 3 { ArrSt.init with pow := .full }

def tileJob : Job := jobOf 1 (tile1 0 0) [3]

def bed0 : State := { bed 15 [] with veins := [] }

/-- TilesEnterAndLaneItemsEnd: every operand there; the weights' stream without a byte. -/
theorem test_witness_entry : (let s := tiling tileJob bed0;
      entryJob s 3 = some (0, tileJob) ∧ (vein s 0).jobs = [tileJob] ∧ isRun s = true ∧
      tileJob.arrays.all (inService s) = true ∧ heldTiles s tileJob.arrays = [] ∧ lanesBusy s tileJob.arrays = false ∧
      tileJob.nt < (tileOf tileJob.words).nts ∧ (tileOf tileJob.words).passes = 1 ∧ (tileOf tileJob.words).subs.length = 1 ∧
      accFree s 0 tileJob (tileOf tileJob.words) = true ∧ nextPass tileJob (tileOf tileJob.words) 0 = some 0 ∧
      (entryNeeds s tileJob (tileOf tileJob.words) 0 (List.range 1) true).all (needMet s) = true ∧
      allFull s tileJob.arrays = true) ∧
    (let s := tiling tileJob (arm bed0 1 (armIn 1 0x1800000 4096));
     entryJob s 3 = some (0, tileJob) ∧
      (entryNeeds s tileJob (tileOf tileJob.words) 0 (List.range 1) true).all (needMet s) = false) := by decide +kernel

/-- A sparse N tile with lane 63 of array 0 at work. -/
def ntOf (full : Bool) : NtSt :=
  { nt := 0, corr := false, sparse := false, auxIn := false, auxOrd := none, summed := false, full := full, checked := [],
    done := [], failed := [], voided := [], lanes := [], accs := [], cur := none, drained := [], spill := none, tiles := [],
    errs := [] }

def laneNt : NtSt := { ntOf false with sparse := true, lanes := [⟨0, 63, [], some ⟨0, 63, 0⟩, []⟩] }

def laneJob : Job :=
  { jobOf 2 sptile1 [0] with nts := [laneNt], dscW := [1 + (3 <<< 8) + (4 <<< 16), 0, 0, 0, 0, 0, 0, 0, 1 <<< 24] }

theorem test_witness_lane : holdersOf (inFlight bed0 0 laneJob) 0 = [(0, laneJob)] ∧ laneJob.nts = [laneNt] ∧
    laneAt laneNt 0 63 = some ⟨0, 63, [], some ⟨0, 63, 0⟩, []⟩ ∧
    (itemNeeds (inFlight bed0 0 laneJob) laneJob (tileOf laneJob.words) laneNt 0 63).all
      (needMet (inFlight bed0 0 laneJob)) = true ∧
    (let s := inFlight (arm bed0 1 (armIn 1 0x1800000 4096)) 0 laneJob;
     (itemNeeds s laneJob (tileOf laneJob.words) laneNt 0 63).all (needMet s) = false) := by decide +kernel

/-- RowDrainsOrJoinsLadder: row 0 pends with room for it, and with both halves of its output full; an error in the one
CX value and one in the row check value; a row whose bytes are missing. -/
def drainJob : Job := { tileJob with nt := 1, entered := true, nts := [ntOf true] }

def heldNt : NtSt := { ntOf true with cur := some (0, 0) }

def heldJob : Job := { drainJob with nts := [heldNt] }

def fullOut : State :=
  let s := arm bed0 2 (armOut 2 64 4096)
  setStrm s 2 { strm s 2 with chunks := [⟨0, 64, 0, 64⟩, ⟨64, 64, 1, 64⟩], taken := 130 }

def takenRow (s : State) (j : Job) : State :=
  putAccs s 0 77 0 false 3 [(0, drainAccs s j (tileOf j.words) (ntOf true) 0)]

theorem test_witness_drain : (drainOf (tiling drainJob bed0) 3 0 = some (0, drainJob, ntOf true) ∧
      isRun (tiling drainJob bed0) = true ∧ (ntOf true).cur = none ∧
      (passRows (takenRow (tiling drainJob bed0) drainJob) 0 77 0 false [0]).isSome = true ∧
      (∀ n < 8, injArmed (tiling drainJob bed0) n = false)) ∧
    (drainOf (tiling { drainJob with oPos := 128 } fullOut) 3 0 = some (0, { drainJob with oPos := 128 }, ntOf true) ∧
      (passRows (takenRow (tiling { drainJob with oPos := 128 } fullOut) { drainJob with oPos := 128 }) 0 77 0 false [0]).isNone
        = true) ∧
    ({ RowFault.none with drainDup := [0] } : RowFault).drainEcc = .clean ∧
    (let s := tiling heldJob (arm bed0 1 (armIn 1 0x1800000 4096));
     let t := arm s 0 (armIn 0 0 4096);
     drainOf t 3 0 = some (0, heldJob, heldNt) ∧ heldNt.cur = some (0, 0) ∧
      ((ntRows heldJob (tileOf heldJob.words) 0 false).flatMap (rowNeeds t heldJob (tileOf heldJob.words) 0 0)).all
        (needMet t) = false) := by decide +kernel

/-- LadderStepsAndCompletion: row 0 in step 1 on array 3, with and without a second step, and a command at its end. -/
def rung : Ladder := ⟨0, false, [0], 3, 1, none, [5], 6, 0, false⟩

def ladderJob : Job := { drainJob with nts := [{ ntOf true with failed := [0] }], ladders := [rung] }

def retrying (b : Nat) : State := tiling ladderJob (put bed0 [(Reg.tchCtrl, Fl.tchCtrl_RETRY2, b)])

theorem test_witness_ladder : (allJobs (retrying 1) = [(0, ladderJob)] ∧
      ladderJob.ladders.find? (fun l => l.array == 3 && ladderReady ladderJob (tileOf ladderJob.words) l) = some rung ∧
      rung.step = 1 ∧ [0].any (fun r => rung.rows.contains r) = true ∧ retry2 (retrying 1) = true ∧ retry2 (retrying 0) = false) ∧
    ([].any (fun r => rung.rows.contains r) = false ∧ (ladderPass (retrying 0) 0 ladderJob rung 3 []).isSome = true) := by
  decide +kernel

theorem test_witness_complete :
    (vein (tiling { drainJob with fin := true } bed0) 0).jobs = [{ drainJob with fin := true }] ∧
      drainJob.seq = (77 : W32).toNat ∧ jobHalts drainJob = false ∧ vBase (tiling drainJob bed0) 0 ≠ Vs.halting ∧
      drainJob.fin = false ∧ (vein (tiling (jobOf 0x1C cal0 []) bed0) 0).jobs = [jobOf 0x1C cal0 []] := by decide +kernel

/-- ArraysRampAndSwitch, PreRampHoldsArrays. -/
def powered (p : Pow) (fs : List (Nat × Field × Nat)) : State := setArr (run fs) 3 { ArrSt.init with pow := p }

theorem test_witness_ramps : ((arr (powered .full []) 3).pow = .full ∧ (arr (powered .full []) 3).preramp = false) ∧
    (arr (powered .rampDown []) 3).pow = .rampDown ∧ (arr (powered .closing []) 3).pow = .closing ∧
    (arr (powered .rampUp []) 3).pow = .rampUp ∧
    ((arr (powered .idle [(Reg.trmKeep, Fl.trmKeep_PSW_EN, 1)]) 3).pow = .idle ∧
      bit (powered .idle [(Reg.trmKeep, Fl.trmKeep_PSW_EN, 1)]).svc.pswHold 3 = false ∧
      flag (powered .idle [(Reg.trmKeep, Fl.trmKeep_PSW_EN, 1)]) Reg.trmKeep Fl.trmKeep_PSW_EN = true ∧
      groupWaits (powered .idle [(Reg.trmKeep, Fl.trmKeep_PSW_EN, 1)]) = false) := by decide +kernel

/-- A vein whose closed group waits for admission; array 3 idle, switched off, or held by a pre-ramp. -/
def waiting (p : Pow) (held : Bool) : State :=
  let s := put (run [(Reg.tchArrays, Fl.tchArrays_INSERVICE, 8), (Reg.vnTenant 0, Fl.vnTenant_SLICEMASK, 1)])
    [(Reg.vnStat 0, Fl.vnStat_STATE, Vs.pending)]
  setArr (setVein s 0 { VeinSt.init with held := [⟨0, tile1 0 0⟩], groups := [⟨1, 0, true, false, true, false, 0, 0, 0, false, 0, 0, []⟩] }) 3
    { ArrSt.init with pow := p, preramp := held }

theorem test_witness_preramp : groupWaits (waiting .idle false) = true ∧ inService (waiting .idle false) 3 = true ∧
    (arr (waiting .idle false) 3).pow = .idle ∧ (arr (waiting .opened false) 3).pow = .opened ∧
    (arr (waiting .closing true) 3).preramp = true ∧ groupWaits (run []) = false := by decide +kernel

/-- SensorsAreSampled: just below the trip at 110 °C and at it; a reading outside the sensor's range. -/
theorem test_witness_sensors : pxRuns (run []) = true ∧ (∀ i < 16, sensorOut (run []) i = false) ∧
    (∀ r ∈ (-160) :: List.replicate 15 (439 : Int), -160 ≤ r ∧ r < 440) ∧
    (∀ r ∈ List.replicate 16 (440 : Int), -160 ≤ r ∧ r ≤ 600) ∧ ((601 :: List.replicate 15 0).getD 0 0 : Int) = 601 := by
  decide +kernel

/-! ### Operating points, calibration, time -/

def trmOf (f : TrmSt → TrmSt) : State := { run [] with trm := f (run []).trm }

/-- ThermalStepsDroopAndOverspend: nothing left of the budget, and one nJ too much drawn. -/
theorem test_witness_thermal : (trmOf (fun t => { t with hot := true })).trm.hot = true ∧ (run []).trm.hot = false ∧
    (trmOf (fun t => { t with cool := true })).trm.cool = true ∧ (run []).trm.droopOn = false ∧ pxRuns (run []) = true ∧
    liveQ (trmOf (fun t => { t with drawn := 1 })) < 0 ∧ 0 ≤ liveQ (run []) := by decide +kernel

/-- OperatingPointsChangeInOrder: every phase, upward from point 3 to 15 and downward. -/
theorem test_witness_opp : (∀ ph < 5, (trmOf (fun t => { t with trans := some ⟨3, 15, ph⟩ })).trm.trans = some ⟨3, 15, ph⟩) ∧
    (trmOf (fun t => { t with trans := some ⟨15, 3, 2⟩ })).trm.trans = some ⟨15, 3, 2⟩ ∧ (run []).trm.nextOpp = none ∧
    (run []).trm.injVack = false ∧ (∀ n < 8, injArmed (run []) n = false) := by decide +kernel

/-- AutocalMeasuresMarkedDomain: domain 4 of point 0 in the band of 0 °C. -/
def autocal (on : Option Nat) : State :=
  let s := run [(Reg.trmCtrl, Fl.trmCtrl_AUTOCAL, 1), (Reg.crnGrid, Fl.crnGrid_NEXT, 50000000), (Reg.trmTherm, Fl.trmTherm_TMAX, 0),
    (Reg.trmOppsel, Fl.trmOppsel_FRAME, 0), (Reg.trmOpp 0, Fl.trmOpp_FCODE, 64), (Reg.tchArrays, Fl.tchArrays_INSERVICE, 0)]
  { s with trm := { s.trm with budget := 1000, marked := [4 * bandNow s], autocal := on } }

theorem test_witness_autocal : isRun (autocal none) = true ∧ flag (autocal none) Reg.trmCtrl Fl.trmCtrl_AUTOCAL = true ∧
    (autocal none).trm.autocal = none ∧ idleWindow (autocal none) = true ∧ fillerReady (autocal none) = false ∧
    4 * bandNow (autocal none) ∈ (autocal none).trm.marked ∧ 4 * bandNow (autocal none) / 48 = frameOpp (autocal none) ∧
    4 * bandNow (autocal none) % 48 / 4 = bandNow (autocal none) ∧
    (autocal (some (4 * bandNow (autocal none)))).trm.autocal = some (4 * bandNow (autocal none)) ∧
    (List.replicate 12 65535).length = 12 ∧ (∀ x ∈ List.replicate 12 65535, x < 2 ^ 16) ∧ 4 * ((bandNow (autocal none) + 1) % 12) / 4 ≠ bandNow (autocal none) := by
  decide +kernel

/-- Links of the mask ACTIVE with every channel, in start-up state x, as a follower of Lodestone 7 on link 5. -/
def net (x : Su) (ls : List Nat) : State :=
  put { run [] with su := x } (ls.flatMap (fun l => [(Reg.xlLnkState l, Fl.xlLnkState_STATE, Lk.active),
    (Reg.xlLnkMode l, Fl.xlLnkMode_WORD, 0xFFFFFFFFFF)]) ++
    [(Reg.crnState, Fl.crnState_LODE, 7), (Reg.crnState, Fl.crnState_UPLINK, 5)])

def asLode (s : State) : State := put s [(Reg.crnState, Fl.crnState_ROLE, 1)]

def lock (k : Nat) (s : State) : State := put s [(Reg.crnState, Fl.crnState_LOCK, k)]

def crnWith (f : CairnSt → CairnSt) (s : State) : State := { s with crn := f s.crn }

/-- FollowersTakeSync, DelayExchangeMovesTime: a SYNC on link 0 with the smallest hop count, from a lower Lodestone too;
an exchange in ACQUIRE and in LOCKED. -/
theorem test_witness_sync : (isLode (asLode (net .run [0])) = true ∧ crnLive (net .run [0]) = true) ∧
    (linkActive (net .run [0]) 0 = true ∧ carries (net .run [0]) 0 0 = true ∧ 7 % 1024 = lode (net .run [0]) ∧
      isLode (net .run [0]) = false ∧ (∀ n ∈ (net .run [0]).crn.nbrs, n.1 ≠ 0) ∧ (∀ n < 8, injArmed (net .run [0]) n = false)) ∧
    (6 % 1024 < lode (net .run [0]) ∧ (crnWith (fun c => { c with opened := true }) (lock 1 (net .run [0]))).crn.opened = true ∧
      lockSt (lock 1 (net .run [0])) ≠ 0) := by decide +kernel

def exchanging (k : Nat) (so : Bool) : State :=
  crnWith (fun c => { c with xch := some (5, 100, 200), good := 15, bad := 3, slewOnly := so }) (lock k (net .run [5]))

theorem test_witness_exchange : (linkActive (exchanging 1 false) 5 = true ∧ carries (exchanging 1 false) 5 0 = true ∧
      crnLive (exchanging 1 false) = true ∧ (exchanging 1 false).crn.xch = some (5, 100, 200) ∧ uplink (exchanging 1 false) = 5 ∧
      (exchanging 1 false).crn.splitAt = false ∧ lockSt (exchanging 1 false) = 1 ∧ (exchanging 1 false).crn.slewOnly = false ∧
      100 * (followOffset 100 200 300 400 0).natAbs ≤ 32 * 2 ^ 32) ∧
    (lockSt (exchanging 2 false) = 2 ∧ 10 * (followOffset 100 200 300 300 0).natAbs > 16 * 2 ^ 32 ∧ 3 ≤ (exchanging 2 false).crn.bad) ∧
    ((exchanging 1 true).crn.slewOnly = true) := by decide +kernel

/-- TickIsAnnouncedAndTaken: a frame that is closed, one that is not, and the first frame. -/
def lodeAt (op closed : Bool) : State :=
  crnWith (fun c => { c with anchored := true, opened := op, token := if closed then some (false, 1023, 1) else none })
    (asLode (net .run []))

theorem test_witness_announce : (isLode (lodeAt true false) = true ∧ crnLive (lodeAt true false) = true ∧
      (lodeAt true false).crn.anchored = true ∧ (lodeAt true false).crn.decided = false ∧ (lodeAt true false).crn.tick = none ∧
      policy (lodeAt true false) = 0 ∧ flag (lodeAt true false) Reg.crnCtrl Fl.crnCtrl_FREEZE = false ∧
      tokensComplete (lodeAt true false) = false) ∧ tokensComplete (lodeAt true true) = true ∧
    (lodeAt false false).crn.opened = false := by decide +kernel

theorem test_witness_tick : linkActive (net .run [5]) 5 = true ∧ carries (net .run [5]) 5 0 = true ∧
    isLode (net .run [5]) = false ∧ uplink (net .run [5]) = 5 ∧ (net .run [5]).su ≠ .timelock ∧ (net .run [5]).crn.tick = none ∧
    lockSt (lock 2 (net .timelock [5])) = 2 ∧ linkActive (lock 2 (net .timelock [5])) 5 = true := by decide +kernel

/-- TickFireOpensFrame: the wrap of the frame number. -/
def fires (x : Su) : State :=
  put (crnWith (fun c => { c with tick := some (0, 5, 65535, 0) }) (net x [])) [(Reg.crnFrame, Fl.crnFrame_FRAME, 2 ^ 48 - 1)]

theorem test_witness_fire : (fires .run).crn.tick = some (0, 5, 65535, 0) ∧ (fires .run).slt.rldAt = none ∧
    crnLive (fires .run) = true ∧ frameNo (fires .run) = 2 ^ 48 - 1 ∧ timeUnclamped (fires .run) = true ∧
    crnLive (fires .linkup) = false ∧ (run []).crn.tick = none := by decide +kernel

/-- SlipsMissesAndTakeovers: block 9, the first successor of 7, one grid point before and at its third miss. -/
def misses (n : Nat) : State :=
  put (crnWith (fun c => { c with anchored := true, missed := n }) (net .run [0]))
    [(Reg.crnCand 0, Fl.crnCand_CAND, 2 ^ 7 + 2 ^ 9), (Reg.strId, Fl.strId_STRATUM, 9)]

theorem test_witness_grid : (successorNo (misses 2) = 1 ∧ (misses 2).su ≠ .fatal ∧ isLode (misses 2) = false ∧
      3 * 1 ≤ (misses 2).crn.missed + 1 ∧ (misses 2).crn.heard = false ∧ (misses 2).crn.tick = none) ∧
    (misses 1).crn.missed + 1 < 3 * successorNo (misses 1) ∧
    isLode (asLode (misses 0)) = true ∧
    (let s := crnWith (fun c => { c with opened := true, heard := true }) (net .run [])
     s.crn.opened = true ∧ s.crn.heard = true ∧ s.crn.tick = none ∧ policy s = 0) ∧
    (linkActive (misses 1) 0 = true ∧ carries (misses 1) 0 0 = true ∧ crnLive (misses 1) = true ∧ 6 % 1024 ≠ lode (misses 1) ∧
      6 % 1024 < lode (misses 1) ∧ 8 % 1024 ≠ lode (misses 1) ∧ 0 < (misses 1).crn.missed ∧ 7 % 1024 = lode (misses 1)) := by
  decide +kernel

/-- TokensCloseFrames: a child on link 0; its token of the open frame 4, of 5 and of 3; its token missing for 2 points. -/
def framed (excl : List Nat) : State :=
  put (crnWith (fun c => { c with opened := true, kids := [0], excluded := excl, overdue := [(0, 2)] }) (net .run [0]))
    [(Reg.crnFrame, Fl.crnFrame_FRAME, 4), (Reg.crnCtrl, Fl.crnCtrl_TOKTO, 2)]

theorem test_witness_tokens : ((framed [0]).su = .run ∧ (framed [0]).crn.opened = true ∧ (framed [0]).crn.token = none ∧
      frameIdle (framed [0]) = true ∧ kidsIn (framed [0]) = true ∧ uplink (framed [0]) < 6) ∧ kidsIn (framed []) = false ∧
    (linkActive (framed []) 0 = true ∧ carries (framed []) 0 0 = true ∧ crnLive (framed []) = true ∧ uplink (framed []) ≠ 0 ∧
      4 % 2 ^ 48 = frameNo (framed []) ∧ serialCmp 5 (frameNo (framed [])) 48 = 2 ∧ serialCmp 3 (frameNo (framed [])) 48 = 1 ∧
      (∀ n < 8, injArmed (framed []) n = false)) ∧
    (fld (framed []) Reg.crnCtrl Fl.crnCtrl_TOKTO = 2 ∧ 0 ∈ liveKids (framed []) ∧ (framed []).crn.tokens = [] ∧
      2 ≤ mapGet 0 (framed []).crn.overdue 0) ∧ fld (put (net .run []) [(Reg.crnCtrl, Fl.crnCtrl_TOKTO, 0)]) Reg.crnCtrl Fl.crnCtrl_TOKTO = 0 := by decide +kernel

/-- ReadyFixesAnchor: the last READY, one that is not, and the first TICK_IN after it. -/
def locking (n tin : Nat) : State :=
  put (asLode (net .timelock [0])) [(Reg.strId, Fl.strId_CHAINLEN, n), (Reg.crnCtrl, Fl.crnCtrl_TICKIN_EN, tin)]

theorem test_witness_ready : (linkActive (locking 2 0) 0 = true ∧ carries (locking 2 0) 0 0 = true ∧ (locking 2 0).su = .timelock ∧
      uplink (locking 2 0) ≠ 0 ∧ isLode (locking 2 0) = true ∧ (locking 2 0).crn.anchored = false ∧
      allReady (crnWith (fun c => { c with kids := [0], readies := [(0, 1)] }) (locking 2 0)) = true ∧
      allReady (crnWith (fun c => { c with kids := [0], readies := [(0, 1)] }) (locking 3 0)) = false) ∧
    (0 ∈ liveKids (crnWith (fun c => { c with kids := [0] }) (locking 2 0)) ∧ (locking 2 0).crn.readies = []) ∧
    (flag (locking 1 1) Reg.crnCtrl Fl.crnCtrl_TICKIN_EN = true ∧ allReady (locking 1 1) = true) ∧ (net .run []).su ≠ .timelock := by
  decide +kernel

/-- DisciplineCaptureAndStep: exactly one second, 100,001 ppb short and long; a capture; a step at the Lodestone. -/
def disc (ts : Nat) (last : Option Nat) : State :=
  crnWith (fun c => { c with time := ts * 2 ^ 32, pps := last }) (put (asLode (net .run [])) [(Reg.crnCtrl, Fl.crnCtrl_DISC_EN, 1)])

theorem test_witness_discipline : (isLode (disc 0 none) = true ∧ crnLive (disc 0 none) = true ∧
      flag (disc 0 none) Reg.crnCtrl Fl.crnCtrl_DISC_EN = true ∧ (disc 0 none).crn.pps = none) ∧
    tsDiff (tstamp (disc 16000000000 (some 0))) 0 = 16000000000 ∧
    (100000 < 0 - (tsDiff (tstamp (disc (16000000000 - 1600016) (some 0))) 0 - 16000000000) / 16 ∧
      0 - (tsDiff (tstamp (disc (16000000000 + 1600016) (some 0))) 0 - 16000000000) / 16 < -100000) ∧
    ((run []).crn.ack = false ∧ (crnWith (fun c => { c with capture := some (2 ^ 64 - 1) }) (run [])).crn.capture = some (2 ^ 64 - 1)) ∧
    ((disc 0 none).crn.step = 0 ∧ isLode (net .run []) = false ∧ (run []).crn.capture = none) := by decide +kernel

theorem test_witness_stepto : PortOpen (disc 0 none) Reg.crnStepto := portOpen_of (by decide +kernel)

/-! ### Clauses beside these: supplies and droop, replayed beats, a far Lodestone, grid points that are over -/

theorem test_witness_droop : 0 < droopMv (run [(Reg.trmOpp 0, Fl.trmOpp_MV, 700), (Reg.trmDroop, Fl.trmDroop_MV, 30)]) ∧
    droopMv (run [(Reg.trmOpp 0, Fl.trmOpp_MV, 10)]) ≤ 0 ∧ (run []).trm.tripped = false ∧
    pxRuns (run [(Reg.trmOpp 0, Fl.trmOpp_MV, 700)]) = true := by decide +kernel

/-- A message of type t on virtual channel 0 whose flit came in a replayed beat. -/
def replayed (t : Nat) (s : State) : State :=
  setLink s 5 { link s 5 with rx := [(⟨BitVec.ofNat 128 ((1 <<< 67) + (t <<< 60)), List.replicate 64 0⟩, true)] }

def farOff : State := crnWith (fun c => { c with splitStep := true }) (exchanging 2 false)

theorem test_witness_replay : fromReplay (exchanging 1 false) 5 0 3 = false ∧
    (exchanging 1 false).crn.wasLocked = false ∧ (exchanging 1 false).crn.splitStep = false ∧
    (farOff.crn.splitStep = true ∧ farOff.crn.xch = some (5, 100, 200) ∧
      16000 * 2 ^ 32 < (followOffset 100 200 40000 0 0).natAbs) ∧
    (crnWith (fun c => { c with wasLocked := true }) (exchanging 1 false)).crn.wasLocked = true := by decide +kernel

/-- A block that fired a tick at 100: TICK for 101 and for 100; the child of a block whose token of frame 3 waits. -/
def fired : State := crnWith (fun c => { c with lastG := some 100 }) (net .run [5])

def closingAt (kids : List Nat) : State :=
  crnWith (fun c => { c with kids := kids, closing := some ⟨3, false, []⟩ }) (framed [])

theorem test_witness_over : gridOver fired 101 = false ∧ gridOver fired 100 = true ∧ gridOver (net .run [5]) 0 = false ∧
    ((closingAt [0]).crn.closing = some ⟨3, false, []⟩ ∧ serialCmp 3 (frameNo (closingAt [0])) 48 = 1 ∧
      uplink (closingAt [0]) ≠ 0 ∧ linkActive (closingAt [0]) 0 = true) ∧
    (let s := crnWith (fun c => { c with anchored := true, heard := true }) (net .run [])
     s.crn.opened = false ∧ s.crn.tick = none ∧ policy s = 0) ∧
    (lode (misses 1) = 7 ∧ isLode (misses 1) = false ∧ serialCmp 1 (epochNo (misses 1)) 16 = 2 ∧
      serialCmp 0 (epochNo (misses 1)) 16 ≠ 2) ∧
    (let s := crnWith (fun c => { c with tick := some (0, 5, 1, 9) }) (disc 0 none)
     ∃ x, s.crn.tick = some x ∧ x.2.2.2 ≠ 0) := by
  refine ⟨by decide +kernel, by decide +kernel, by decide +kernel, by decide +kernel, by decide +kernel, by decide +kernel,
    ⟨_, rfl, by decide +kernel⟩⟩

theorem test_witness_dreq_replayed : fromReplay (replayed 2 (net .run [5])) 5 0 2 = true ∧ fromReplay (replayed 3 (exchanging 1 false)) 5 0 3 = true ∧
    linkActive (replayed 2 (net .run [5])) 5 = true ∧
    carries (replayed 2 (net .run [5])) 5 0 = true ∧ crnLive (replayed 2 (net .run [5])) = true := by decide +kernel

/-! ### Deep ports, multicast, routed messages -/

/-- Stream 0 reads Deep Slate into A-Mica with a request outstanding; stream 1 writes what it holds. -/
def deepIn : State :=
  let s := arm (run []) 0 (armIn 0 0 128)
  setStrm s 0 { strm s 0 with asked := 64, outst := [⟨0, 5, 0, 64⟩], chunks := [⟨0, 64, 0, 0⟩] }

def deepOut (req : List Req) : State :=
  let s := arm (run []) 1 (armOut 1 0x80 128)
  setStrm s 1 { strm s 1 with chunks := [⟨0, 64, 0, 64⟩], outst := req }

theorem test_witness_deep : (sState deepIn 0 = Ss.running ∧ (desc deepIn 0).kind = 0 ∧ sState deepIn 1 ≠ Ss.running) ∧
    (sState (deepOut []) 1 = Ss.running ∧ (desc (deepOut []) 1).kind = 2 ∧ (deepOut []).poison = [] ∧
      (∀ n < 8, injArmed (deepOut []) n = false)) ∧
    (tagOwner deepIn 0 5 false = some (0, ⟨0, 5, 0, 64⟩) ∧ allJobs deepIn = [] ∧ (desc deepIn 0).turn = false ∧
      portPoison deepIn 0 = false ∧ ∀ k < 64, posAddr deepIn 0 k = some k) ∧
    (tagOwner (deepOut [⟨0, 6, 0, 64⟩]) 0 6 true = some (1, ⟨0, 6, 0, 64⟩) ∧ (deepOut [⟨0, 6, 0, 64⟩]).evacReqs = []) ∧
    tagOwner deepIn 0 511 false = none ∧ tagOwner deepIn 0 511 true = none := by decide +kernel

/-- Multicast group 3: this block as root on link 0 with stream 2, or as member on uplink 5 with stream 3. -/
def armMc (i kind x n : W64) : List W64 := [0x08 + (i <<< 10), 0, n - 1, 0, 0, 0, x + (64 <<< 32), (kind <<< 60) + (1 <<< 55) + (3 <<< 48)]

def mcRootAt (parcels : Nat) : State :=
  let s := put (net .run [0]) [(Reg.stmMcast 3, Fl.stmMcast_MEMBER, 1), (Reg.stmMcast 3, Fl.stmMcast_ROOT, 1),
    (Reg.stmMcast 3, Fl.stmMcast_DOWN, 1), (Reg.stmCtrl, Fl.stmCtrl_MCTO, 4)]
  let s := arm s 2 (armMc 2 3 0 4096)
  let s := setStrm s 2 { strm s 2 with chunks := [⟨0, 4096, 0, 4096⟩] }
  setMcg s 3 { mcg s 3 with creds := [(0, 0, parcels)], stallTicks := 4 }

def mcMemberAt (down : Nat) : State :=
  let s := put (net .run [0, 5]) [(Reg.stmMcast 3, Fl.stmMcast_MEMBER, 1), (Reg.stmMcast 3, Fl.stmMcast_CONSUME, 1),
    (Reg.stmMcast 3, Fl.stmMcast_UPLINK, 5), (Reg.stmMcast 3, Fl.stmMcast_DOWN, down)]
  extend (arm s 3 (armMc 3 1 0 4096)) 3

def mcSaid : State := setMcg (mcMemberAt 0) 3 { mcg (mcMemberAt 0) 3 with sentUp := some (0, 1) }

theorem test_witness_mc_root : (mcRoot (mcRootAt 1) 3 = true ∧ (mcg (mcRootAt 1) 3).stream = none ∧ mcStream (mcRootAt 1) 3 true = some 2 ∧
      (∀ l ∈ mcDown (mcRootAt 1) 3, linkActive (mcRootAt 1) l = true ∧ carries (mcRootAt 1) l 3 = true ∧
        0 < linkCredit (mcg (mcRootAt 1) 3) l) ∧ (mcg (mcRootAt 1) 3).sq = 0 ∧
      mcFrom (mcRootAt 1) 2 < mcReady (mcRootAt 1) 2 ∧ seqEndPos (strm (mcRootAt 1) 2) = 4096) ∧
    (0 ∈ mcDown (mcRootAt 0) 3 ∧ linkCredit (mcg (mcRootAt 0) 3) 0 = 0) ∧
    (mcStarved (mcRootAt 0) 3 = true ∧ fld (mcRootAt 0) Reg.stmCtrl Fl.stmCtrl_MCTO = 4 ∧ (mcg (mcRootAt 0) 3).stallTicks = 4 ∧
      flag (mcRootAt 0) (Reg.stmMcast 3) Fl.stmMcast_STALLED = false ∧ mcStarved (mcRootAt 1) 3 = false) := by decide +kernel

theorem test_witness_mc_member : (mcMember (mcMemberAt 0) 3 = true ∧ mcRoot (mcMemberAt 0) 3 = false ∧
      linkActive (mcMemberAt 0) 5 = true ∧ carries (mcMemberAt 0) 5 3 = true ∧ (mcg (mcMemberAt 0) 3).sentUp = none ∧
      0 < treeCredit (mcMemberAt 0) 3 ∧
      (mcg mcSaid 3).sentUp = some ((mcg mcSaid 3).sq, 1) ∧ treeCredit mcSaid 3 ≤ 1) ∧
    (fld (mcMemberAt 0) (Reg.stmMcast 3) Fl.stmMcast_UPLINK = 5 ∧ allJobs (mcMemberAt 0) = [] ∧ mcConsume (mcMemberAt 0) 3 = true ∧
      mcStream (mcMemberAt 0) 3 false = some 3 ∧ (mcg (mcMemberAt 0) 3).queue = [] ∧ (desc (mcMemberAt 0) 3).turn = false ∧
      (strm (mcMemberAt 0) 3).asked + 64 ≤ roomEnd (extend (mcMemberAt 0) 3) 3 ∧
      ∀ k < 64, posAddr (extend (mcMemberAt 0) 3) 3 k = some k) ∧
    (0 ∈ mcDown (mcMemberAt 1) 3 ∧ linkActive (mcMemberAt 1) 0 = true ∧ carries (mcMemberAt 1) 0 3 = true ∧ 5 ∉ mcDown (mcMemberAt 1) 3) := by
  decide +kernel

/-- RoutedMessagesAreServed: for this block, 0, and for 9 over link 0, over a link in training, and over none; link 5
brings the messages. -/
def routed (lnk : Nat) (st0 : Nat) : State :=
  put (net .run [0, 5]) [(Reg.xlRoute 0, ⟨8, 8⟩, 0xF0), (Reg.xlRoute 1, ⟨8, 8⟩, 0xF0 + lnk), (Reg.xlLnkState 1, Fl.xlLnkState_STATE, st0)]

theorem test_witness_routed : (linkActive (routed 0 0) 5 = true ∧ (∀ vc ∈ [1, 2], carries (routed 0 0) 5 vc = true) ∧
      stratum (routed 0 0) = 0 ∧ inSemRange (routed 0 0) 0 255 = true ∧ semWaiters (routed 0 0) 255 = [] ∧
      semValue (routed 0 0) 255 + 65535 ≤ 65535 ∧ inSemRange (routed 0 0) 1 255 = false ∧ (∀ n < 8, injArmed (routed 0 0) n = false)) ∧
    (nextLink (routed 0 0) 9 1 (some 5) = .via 0 ∧ nextLink (routed 1 Lk.detect) 9 1 (some 5) = .wait ∧
      nextLink (routed 1 Lk.down) 9 1 (some 5) = .fail) ∧
    (nextLink (routed 0 0) 1 1 none = .via 0 ∧ inTenant (routed 0 0) 0 0x17FFFFF 1 = true ∧
      inTenant (routed 0 0) 0 0x17FFFFF 2 = false) := by decide +kernel

def unanswered : State := { routed 0 0 with writes := [⟨4, 1, 0, 64, 0, 64, 0⟩], transit := [⟨1, ⟨9, 1, 0, 3, 1⟩, [], some 5, none, none⟩,
  ⟨4, ⟨9, 0, 0, 64, 63⟩, [], none, none, some 63⟩] }

theorem test_witness_replies : takeWrite ⟨0, 1, 0, 64, 63⟩ unanswered.writes = some (⟨4, 1, 0, 64, 0, 64, 0⟩, []) ∧
    takeWrite ⟨0, 1, 0, 65, 63⟩ unanswered.writes = none ∧
    unanswered.transit[2]? = none ∧ (unanswered.transit[0]?.map (fun r => nextLink unanswered r.hdr.dst 1 r.arrived)) = some (.via 0) ∧
    (unanswered.transit[1]?.map (fun r => (r.vein, r.stream))) = some (none, some 63) := by decide +kernel

/-! ### Links, banks, cleaves, the register port, evacuation -/

def lk (st : Nat) (fs : List (Nat × Field × Nat)) : State := put (net .linkup []) ((Reg.xlLnkState 0, Fl.xlLnkState_STATE, st) :: fs)

/-- A capability word with every bit that R296 defines for a mesh link. -/
def capAll : Nat := (1 <<< 56) + 0x1FFFC0000000

/-- LinksTrainByStates: each state, FAILS at 1 and 2, a partner with nothing in common, an agreeing mode word. -/
theorem test_witness_training : linkState (lk Lk.detect []) 0 = Lk.detect ∧
    (linkState (lk Lk.announce []) 0 = Lk.announce ∧
      (selectMode (lk Lk.announce [(Reg.xlLnkCap 0, Fl.xlLnkCap_WORD, capAll)]) 0
        (rd (lk Lk.announce [(Reg.xlLnkCap 0, Fl.xlLnkCap_WORD, capAll)]) (Reg.xlLnkCap 0)).toNat capAll).isSome = true ∧
      selectMode (lk Lk.announce []) 0 capAll (1 <<< 56) = none) ∧
    (linkState (lk Lk.select []) 0 = Lk.select ∧ bits 0 24 22 = bits (link (lk Lk.select []) 0).mode 24 22 ∧
      bits 0x1000000 24 22 ≠ bits (link (lk Lk.select []) 0).mode 24 22) ∧
    (fld (lk Lk.calibrate [(Reg.xlLnkState 0, Fl.xlLnkState_FAILS, 1)]) (Reg.xlLnkState 0) Fl.xlLnkState_FAILS < 2 ∧
      2 ≤ fld (lk Lk.calibrate [(Reg.xlLnkState 0, Fl.xlLnkState_FAILS, 2)]) (Reg.xlLnkState 0) Fl.xlLnkState_FAILS) ∧
    linkState (lk Lk.active []) 0 = Lk.active ∧
    (bits capAll 56 8 = 1 ∧ fld (lk 0 [(Reg.xlLnkPol 0, Fl.xlLnkPol_REQ, 0)]) (Reg.xlLnkPol 0) Fl.xlLnkPol_REQ = 0) := by
  decide +kernel

def lkWith (st : Nat) (f : LinkSt → LinkSt) : State := let s := lk st []; setLink s 0 (f (link s 0))

/-- LinksRetrainFenceAndProbe: the 15th and the 16th probe, alike and 17 sixteenths of a nanosecond apart. -/
theorem test_witness_retrain : (PortOpen (lk Lk.active []) (Reg.xlLnkCmd 0)) ∧ linkActive (lk Lk.active []) 0 = true ∧
    linkActive (lk Lk.down []) 0 = false ∧ linksRun (lk Lk.active []) = true ∧ linkState (lk Lk.absent []) 0 = Lk.absent ∧
    linkState (lk Lk.down []) 0 = Lk.down ∧
    ((link (lkWith Lk.active (fun k => { k with fenceTx := true, fenceAck := true })) 0).fenceAck = true ∧
      (link (lk Lk.active []) 0).fenceTx = false ∧ (link (lk Lk.active []) 0).fenceAck = false ∧
      (link (lkWith Lk.active (fun k => { k with fenceTx := true, fenceRx := true })) 0).fenceRx = true) ∧
    (linkState (lkWith Lk.calibrate (fun k => { k with probes := List.replicate 14 0 })) 0 = Lk.calibrate ∧
      ((List.replicate 14 0 ++ [0] : List Nat).length < 16) ∧ 16 ≤ (List.replicate 15 0 ++ [0] : List Nat).length ∧
      (∃ a ∈ (List.replicate 15 0 ++ [17] : List Nat), ∃ b ∈ (List.replicate 15 0 ++ [17] : List Nat), b + 16 < a) ∧
      ∀ a ∈ (List.replicate 15 0 ++ [16] : List Nat), ∀ b ∈ (List.replicate 15 0 ++ [16] : List Nat), a ≤ b + 16) :=
  ⟨portOpen_of (by decide +kernel), by decide +kernel⟩

/-- BeatsAreAcceptedInOrder: an idle flit with its CRC on a link of one lane, with another SEQ, and with a bad CRC. -/
def idle (sq : Nat) : Flit :=
  let t := BitVec.ofNat 96 (sq <<< 89)
  let f : Flit := ⟨t.zeroExtend 128, List.replicate 64 0⟩
  ⟨BitVec.ofNat 128 (f.tag.toNat + (flitCrc true f <<< 96)), f.payload⟩

def oneLane : State := put (lk Lk.active [(Reg.xlCtrl, Fl.xlCtrl_ERRLIM, 1)]) [(Reg.xlLnkMode 0, Fl.xlLnkMode_WORD, 1 <<< 33)]

theorem test_witness_beats : (∀ n < 8, injArmed oneLane n = false) ∧ linkActive oneLane 0 = true ∧ laneCount oneLane 0 = 1 ∧
    (flitCrcOk (wideCrc oneLane 0) (idle 0) = true ∧ bits (idle 0).tag.toNat 89 7 = (link oneLane 0).rxSeq ∧
      bits (idle 0).tag.toNat 80 2 = 0 ∧ flitBad oneLane 0 (idle 0) = false ∧
      ∀ v < 4, (link oneLane 0).ret.getD v 0 + (([idle 0].filter (fun x => fVc x == v)).map fCost).foldl (· + ·) 0 ≤ bufSize v) ∧
    (flitCrcOk (wideCrc oneLane 0) (idle 5) = true ∧ bits (idle 5).tag.toNat 89 7 ≠ 0 ∧ (bits (idle 5).tag.toNat 89 7 + 1) % 128 ≠ 0) ∧
    (flitCrcOk (wideCrc oneLane 0) ⟨0, List.replicate 64 0⟩ = false ∧
      (link oneLane 0).rejects.length < fld oneLane Reg.xlCtrl Fl.xlCtrl_ERRLIM) := by decide +kernel

/-- BanksAreScrubbedAndSpared: a bank at its limit and one beyond; a line of a table and one of none; a copy that ends. -/
def banks (lim : Nat) (copies : List BankCopy) : State :=
  let s := run [(Reg.errCtrl, Fl.errCtrl_BANKLIM, lim)]
  { s with svc := { s.svc with copies := copies } }

theorem test_witness_banks : (micaRuns (banks 1 []) = true ∧ (∀ n < 8, injArmed (banks 1 []) n = false) ∧
      (micaPlace (banks 1 []) 0).1 < 192 ∧ mapGet 0 (banks 1 []).svc.ceCount (physBank (banks 1 []) 0) + 1 ≤ 1) ∧
    (fld (banks 0 []) Reg.errCtrl Fl.errCtrl_BANKLIM < 1 ∧ physBank (banks 0 []) 0 ∉ (banks 0 []).svc.retired ∧
      (freeBanks (banks 0 [])).head? = some 192 ∧ physBank (banks 0 []) 0 ≠ 192) ∧
    (inTable (banks 0 []) 0x2C1FFFF = true ∧ inTable (banks 0 []) 0x2C20000 = false) ∧ micaRuns (su .reset) = false ∧
    ((banks 0 [⟨5, 192, 1, false⟩]).svc.copies.find? (fun c => c.det != 0 && physBank (banks 0 [⟨5, 192, 1, false⟩]) c.bank == 5) =
      some ⟨5, 192, 1, false⟩) := by
  decide +kernel

/-- CleavesComplete: the cleave of an array, a link, a bank group and a set of veins, and their returns. -/
def cleaving (kind : W64) (back : W64) (target : W64) : Job := jobOf 0x1D [0x1D + (kind <<< 10) + (back <<< 14), target, 0, 0] []

def clState (j : Job) : State := inFlight (put (net .run []) [(Reg.vnStat 0, Fl.vnStat_STATE, Vs.empty)]) 0 j

theorem test_witness_cleaves : (vein (clState (cleaving 0 0 2)) 0).jobs = [cleaving 0 0 2] ∧
    (let s := setArr (clState (cleaving 0 0 2)) 2 { ArrSt.init with fencing := some (some (0, 77)) }
     (arr s 2).fencing = some (some (0, 77)) ∧ arrayEmpty s 2 = true ∧ (arr s 1).fencing = none) ∧
    (let s := setArr (clState (cleaving 0 1 2)) 2 { ArrSt.init with fenced := true, returning := some (0, 77) }
     (arr s 2).returning = some (0, 77) ∧ vMasked s 0 = false ∧ vState s 0 = Vs.empty) ∧
    (let s := setLink (put (clState (cleaving 3 0 0)) [(Reg.xlLnkState 0, Fl.xlLnkState_STATE, Lk.fenced)]) 0
      { LinkSt.init with fence := some (0, 77) }
     linkState s 0 = Lk.fenced ∧ (link s 0).fence = some (0, 77)) ∧
    (let s := setLink (put (clState (cleaving 3 1 0)) [(Reg.xlLnkState 0, Fl.xlLnkState_STATE, Lk.active)]) 0
      { LinkSt.init with unfence := some (0, 77) }
     linkState s 0 = Lk.active ∧ (link s 0).unfence = some (0, 77)) ∧
    clFind (clState (cleaving 1 0 23)) false 1 23 = some (0, cleaving 1 0 23) ∧
    (let s := { clState (cleaving 1 1 23) with svc := { (clState (cleaving 1 1 23)).svc with homes := [(23, List.replicate 8 192)] } }
     clFind s true 1 23 = some (0, cleaving 1 1 23) ∧ (mapGet [] s.svc.homes 23).length = 8) ∧
    (let s := put (clState (cleaving 2 0 0x8000)) [(Reg.vnStat 15, Fl.vnStat_STATE, Vs.fenced)]
     clFind s false 2 0x8000 = some (0, cleaving 2 0 0x8000) ∧
      ∀ w < 16, bit 0x8000 w = true → vState s w = Vs.fenced ∧ (vein s w).jobs = []) := by decide +kernel

/-- UnmappedAddressesReadZero, RegisterWritesTakeEffect: the ends of the hole; a write that acts, and the reasons 0 to 3. -/
theorem test_witness_port : regRow 0xC0000 = none ∧ regRow 0xEFFF8 = none ∧
    (Reg.trmOpp 0 % 8 = 0 ∧ (regRow (Reg.trmOpp 0)).isSome = true ∧ ownRow (Reg.trmOpp 0) = false ∧ Reg.trmOpp 0 < 2 ^ 20) ∧
    (match regRow Reg.idScratch with
      | none => false
      | some r => refusal (run []) Reg.idScratch r true == none) = true ∧
    (match regRow (Reg.trmOpp 0) with
      | none => false
      | some r => refusal (su .clamped) (Reg.trmOpp 0) r true == some 3 && refusal (su .clamped) (Reg.trmOpp 0) r false == some 3 &&
        refusal (run [(Reg.idGctl, Fl.idGctl_REGLOCK, 1)]) (Reg.trmOpp 0) r true == some 2) = true ∧ (run []).su ≠ .off := by
  decide +kernel

/-- EvacuationWritesImage: every value of STATE, ports usable and not, the last response. -/
def evac (st : Nat) (modes : List Nat) (reqs : List (Nat × Nat)) : State :=
  { run [(Reg.errEvstat, Fl.errEvstat_STATE, st), (Reg.vnStat 15, Fl.vnStat_STATE, Vs.empty)] with dpMode := modes, evacReqs := reqs }

theorem test_witness_evac : (PortOpen (evac 0 [0, 0, 0, 0] []) Reg.errEvac) ∧
    (∀ n < 6, fld (evac n [0, 0, 0, 0] []) Reg.errEvstat Fl.errEvstat_STATE = n) ∧
    ((1 <<< 63 : W64).toNat.testBit 63 = true ∧ (0 : W64).toNat.testBit 63 = false) ∧
    (isRun (evac 2 [0, 0, 0, 0] []) = true ∧ allJobs (evac 2 [0, 0, 0, 0] []) = [] ∧
      (∃ p < 4, portUsable (evac 2 [0, 0, 0, 0] []) p = true) ∧ ∀ p < 4, portUsable (evac 2 [32, 32, 32, 32] []) p = false) ∧
    ((0, 5) ∈ (evac 3 [0, 0, 0, 0] [(0, 5), (3, 511)]).evacReqs ∧ (3, 511) ≠ ((0, 5) : Nat × Nat) ∧
      (evac 3 [0, 0, 0, 0] [(0, 5)]).svc.evacImg = [] ∧ vBase (evac 3 [0, 0, 0, 0] []) 15 ≠ Vs.off) :=
  ⟨portOpen_of (by decide +kernel), by decide +kernel⟩

/-! ### Clauses beside these: requests to make, acknowledgements, fences, loops, the scrubber -/

/-- A stream with room for its first request, and a command of a mask that passes rows over. -/
def roomy : State := arm (run []) 0 (armIn 0 0 128)

theorem test_witness_ask : sState roomy 0 = Ss.running ∧ (desc roomy 0).kind = 0 ∧ skipDue roomy 0 = none ∧ maskUsed roomy 0 = false ∧
    (strm roomy 0).turn = [] ∧ (strm roomy 0).asked < roomEnd (extend (turnFill roomy 0) 0) 0 ∧ deepPorts roomy (desc roomy 0) = [0] ∧
    freeTag roomy 0 = some 0 ∧ direct roomy 0 = true ∧
    (tagOwner deepIn 0 5 false = some (0, ⟨0, 5, 0, 64⟩) ∧ direct deepIn 0 = true ∧ allJobs deepIn = [] ∧ (strm deepIn 0).turn = []) ∧
    (tagOwner (deepOut [⟨0, 6, 0, 64⟩]) 0 6 true = some (1, ⟨0, 6, 0, 64⟩) ∧ (deepOut [⟨0, 6, 0, 64⟩]).evacReqs = []) := by
  decide +kernel

/-- A beat that acknowledges beat 3 of two that wait. -/
def ackIdle (sq ack : Nat) : Flit :=
  let t := BitVec.ofNat 96 ((sq <<< 89) + (ack <<< 82) + (1 <<< 81))
  let f : Flit := ⟨t.zeroExtend 128, List.replicate 64 0⟩
  ⟨BitVec.ofNat 128 (f.tag.toNat + (flitCrc true f <<< 96)), f.payload⟩

def acked : State := setLink oneLane 0 { link oneLane 0 with unacked := [(3, [idle 3]), (4, [idle 4])] }

theorem test_witness_ack : linkActive acked 0 = true ∧ laneCount acked 0 = 1 ∧ flitCrcOk (wideCrc acked 0) (ackIdle 0 3) = true ∧
    bits (ackIdle 0 3).tag.toNat 89 7 = (link acked 0).rxSeq ∧ bits (ackIdle 0 3).tag.toNat 80 1 = 0 ∧
    bits (ackIdle 0 3).tag.toNat 81 1 = 1 ∧ (∃ b ∈ (link acked 0).unacked, b.1 = bits (ackIdle 0 3).tag.toNat 82 7) ∧
    flitBad acked 0 (ackIdle 0 3) = false ∧ (∀ v < 4, heldRx (link acked 0) v + 0 ≤ bufSize v) ∧ (link acked 0).repTo = none ∧
    fKind (ackIdle 0 3) = 0 ∧ (link acked 0).fenceTx = false ∧ (link acked 0).nak = false ∧
    (setLink acked 0 { link acked 0 with nak := true } |> fun s => (link s 0).nak) = true := by decide +kernel

/-- A fence asked for on this clock, and a LINKCTL that waits to leave. -/
theorem test_witness_fence : fencedNow (lk Lk.active []) 0 = false ∧
    fencedNow (lkWith Lk.active (fun k => { k with fenceTx := true, fenceAt := tstamp (lk Lk.active []) })) 0 = true ∧
    ctlWaits (link (lkWith Lk.active (fun k => { k with fenceTx := true, fenceRx := true })) 0) = false ∧
    ctlWaits (link (sendLinkctl (lkWith Lk.active (fun k => { k with fenceTx := true, fenceRx := true })) 0 3 0 0) 0) = true ∧
    ((link (lk Lk.active []) 0).replay = [] ∧ (link (lk Lk.active []) 0).unacked.length < 64) ∧
    (link (lkWith Lk.active (fun k => { k with cred := [1, 0, 0, 0] })) 0).cred.getD 0 0 ≠ 0 := by decide +kernel

/-- A route whose only link is the one on which the message came. -/
def loops : State := put (net .run [5]) [(Reg.xlRoute 1, ⟨8, 8⟩, 0xF5)]

theorem test_witness_loop : linkActive loops 5 = true ∧ carries loops 5 1 = true ∧ (9 : Nat) ≠ stratum loops ∧
    nextLink loops 9 1 (some 5) = .fail ∧ routesBack loops 9 (some 5) = true ∧
    nextLink loops 9 1 none = .via 5 := by decide +kernel

/-- The scrubber at work; the trap of a NaN that may be cleared. -/
theorem test_witness_scrub : fld (run [(Reg.stmCtrl, Fl.stmCtrl_SCRUB, 1)]) Reg.stmCtrl Fl.stmCtrl_SCRUB ≠ 0 ∧
    micaRuns (run [(Reg.stmCtrl, Fl.stmCtrl_SCRUB, 1)]) = true ∧ fld (run [(Reg.stmCtrl, Fl.stmCtrl_SCRUB, 0)]) Reg.stmCtrl Fl.stmCtrl_SCRUB = 0 ∧
    PortOpen (run []) (Reg.numNanW0 3) :=
  ⟨by decide +kernel, by decide +kernel, by decide +kernel, portOpen_of (by decide +kernel)⟩

/-- EventsCompleteWithTheirEffect: each event whose hypotheses no witness above shows. -/
theorem test_witness_events : (liveQ (trmOf (fun t => { t with drawn := 1 })) < 0) ∧
    (let s := autocal none
     isRun s = true ∧ s.trm.autocal = none ∧ idleWindow s = true ∧ fillerReady s = false ∧ 4 * bandNow s ∈ s.trm.marked) ∧
    (let s := setArr (run []) 2 { ArrSt.init with fencing := some none }
     (arr s 2).fencing = some none ∧ arrayEmpty s 2 = true) ∧
    (let s := setArr (run []) 2 { ArrSt.init with fenced := true, returning := some (0, 77) }
     (arr s 2).returning = some (0, 77)) := by decide +kernel

/-! ### Training, debug, power -/

/-- UpdatePortMovesRecords: the gradient record of test_witness_linear under way on array 0 with one credit, of a plain
entry, of a sparse one whose element is zero, and as a marker. -/
def gradJob (e kind : Nat) : Job := { jobOf 0x15 grad1 [0] with dscW := [e, kind, 0] }

def sends (j : Job) (stop : Bool) : State :=
  let s := put (arm (run []) 0 (armRes 0 0 64)) [(Reg.numUpdStat, Fl.numUpdStat_CREDITS, 1), (Reg.vnStat 0, Fl.vnStat_STATE, Vs.empty)]
  { setArr (inFlight s 0 j) 0 { ArrSt.init with pow := .full } with updStop := stop }

theorem test_witness_update : (pxRuns (run []) = true ∧ (∀ n < 8, injArmed (run []) n = false) ∧ (∀ v < 16, emitJob (run []) v = none) ∧
      4095 < fld (put (run []) [(Reg.numUpdStat, Fl.numUpdStat_CREDITS, 4095)]) Reg.numUpdStat Fl.numUpdStat_CREDITS + 1) ∧
    (let j := gradJob 1 0
     let s := sends j false
     emitJob s 0 = some j ∧ (vein s 0).jobs = [j] ∧ vState s 0 = Vs.empty ∧ (∀ w < 16, w ≠ 0 → emitJob s w = none) ∧
      isRun s = true ∧ allFull s j.arrays = true ∧ s.poison = [] ∧ (allJobs s).all (fun p => p.2.beat == 0) = true ∧
      (gradNext j (gradOf grad1)).marker = false ∧ needMet s (gradNeed j (gradOf grad1) 0 1) = true ∧ (gradNext j (gradOf grad1)).last = true ∧
      1 ≤ fld s Reg.numUpdStat Fl.numUpdStat_CREDITS) ∧
    (gradNext (gradJob 3 1) (gradOf grad1)).marker = true ∧
    (let g := { gradOf grad1 with count := 2 }
     pgtSparse 5 = true ∧ chunkZero g (gradCodes (sends (gradJob 5 0) false) (gradJob 5 0) g 0 1) = true ∧
      (gradNext (gradJob 5 0) g).last = false) ∧ (sends (gradJob 1 0) true).updStop = true := by decide +kernel

/-- TableEntriesAndSchedulesAnswer: an entry with no reserved bit and one with bit 11; schedules 0 and, of one, 1. -/
def sched1 : State := { put (run []) [(Reg.vnSchedArg, Fl.vnSchedArg_ID, 1)] with sched := leBytes 64 1, schedBusy := true }

theorem test_witness_tables : pgtReserved 0 = false ∧ pgtReserved (2 ^ 11) = true ∧ nSched sched1 = 1 ∧
    nSched sched1 ≤ fld sched1 Reg.vnSchedArg Fl.vnSchedArg_ID ∧ sched1.schedBusy = true ∧ (run []).schedBusy = false := by
  decide +kernel

theorem test_witness_table_ports : PortOpen (run []) (Reg.numPgtData 0) ∧ PortOpen (run []) (Reg.numPgtData 3) ∧
    PortOpen (run []) Reg.vnSchedArg := ⟨portOpen_of (by decide +kernel), portOpen_of (by decide +kernel), portOpen_of (by decide +kernel)⟩

/-- DebugTraceAndInjectorsAct: the last line of Mica; a ring of 2^24 records with a claimed semaphore; an injector that
policy allows, that it does not, and whose target is not claimed. -/
def debug (fs : List (Nat × Field × Nat)) : State := run ((Reg.idGctl, Fl.idGctl_DBG_EN, 1) :: fs)

def flint1 : State :=
  debug [(Reg.fltPolicy, Fl.fltPolicy_ARM_EN, 1), (Reg.fltAllow, Fl.fltAllow_DET, 2 ^ 0x0D + 2 ^ 0x10), (Reg.fltInjW1 0, Fl.fltInjW1_UNIT, 7)]

theorem test_witness_debug : PortOpen (debug []) Reg.dbgMicaCmd ∧ PortOpen (debug []) Reg.dbgTraceCfg ∧ PortOpen flint1 (Reg.fltInjW0 0) ∧
    (64 * bits 0x2FFFFC0 6 20 < 0x3000000 ∧ flag (debug []) Reg.dbgMicaCmd Fl.dbgMicaCmd_BUSY = false ∧
      flag (debug [(Reg.dbgMicaCmd, Fl.dbgMicaCmd_BUSY, 1)]) Reg.dbgMicaCmd Fl.dbgMicaCmd_BUSY = true) ∧
    (claimed { debug [] with slt := { SltSt.init with claims := [(3, 0x20, 200, 1)] } } 3 0x20 200 = true ∧
      claimed (debug []) 3 0x20 200 = false) ∧
    (let s := { debug [(Reg.dbgTraceCfg, Fl.dbgTraceCfg_LOG2N, 10)] with traceQ := [[1], [2]] }
     s.traceQ = [1] :: [[2]] ∧ s.su = .run ∧ tracePort s = some (0, 0) ∧ (0 + 1) % 2 ^ (10 - 1) ≠ 0) ∧
    (armAllowed flint1 0x10 = true ∧ armClaimed flint1 0 0x10 = true ∧ armAllowed flint1 0x0E = false ∧
      armAllowed flint1 0x0D = true ∧ armClaimed flint1 0 0x0D = false) :=
  ⟨portOpen_of (by decide +kernel), portOpen_of (by decide +kernel), portOpen_of (by decide +kernel), by decide +kernel⟩

/-- PowerAndTestAccessAct. -/
def testing (x : Su) : State := { su x with svc := { SvcSt.init with testHold := true, wir := 0x10 } }

theorem test_witness_power : (su .off).su = .off ∧ (su .clamped).su = .clamped ∧ (run []).su ≠ .off ∧ (run []).su ≠ .clamped ∧
    ((testing .reset).su = .reset ∧ (testing .reset).svc.testHold = true ∧ (testing .reset).svc.wir = 0x10 ∧
      (testing .reset).svc.copies = [] ∧ (testing .reset).trm.tripped = false ∧ arrayBusy (testing .reset) 3 = false ∧
      instrumentOk (testing .reset) .mbist 0 = true ∧ instrumentOk (testing .run) .mbist 0 = false) ∧
    (let s := { testing .reset with trm := { TrmSt.init with tripped := true } }
     instrumentOk s .mbist 0 = true ∧ instrumentHeld s .mbist 0 = true) ∧
    ((1 : BitVec 8) ∈ [(1 : BitVec 8), 3] ∧ (run []).svc.testHold = false ∧ (5 : BitVec 8) ∉ [(0 : BitVec 8), 1, 2, 3, 4, 0x10]) := by
  decide +kernel

/-! ### Start-up, the chain, fatal errors -/

/-- StartUpMovesOn: eight failing banks and nine; failing columns that spares take and that they do not. The image of an
accepted load holds a cost table of 50,176 bytes, which is too long for a test here. -/
theorem test_witness_banks_fail : (failingBanks State.reset (List.range 8)).length ≤ 8 ∧ 8 < (failingBanks State.reset (List.range 9)).length ∧
    State.reset.su = .reset ∧ State.reset.svc.testHold = false ∧ State.reset.svc.testWait = false ∧ State.reset.svc.copies = [] ∧
    physBank State.reset 191 = 191 ∧ State.reset.strap.head = false ∧ { Pins.zero with head := true }.head = true := by decide +kernel

def spares (cols : List Nat) : Nat × Nat := (((List.range 65).filter (fun c => cols.contains c)).length, ([65, 66].filter (fun c => !cols.contains c)).length)

theorem test_witness_selftest : (su .selftest).su = .selftest ∧ (∀ a < 4, (arr (su .selftest) a).spareReq = [] ∧
      flag (su .selftest) (Reg.tchSpare a) Fl.tchSpare_V65 = false ∧ flag (su .selftest) (Reg.tchSpare a) Fl.tchSpare_V66 = false) ∧
    spares [0, 64] = (2, 2) ∧ spares [0, 66, 64] = (2, 1) ∧ (run []).su ≠ .selftest := by decide +kernel

def headOfChain (x : Su) (job : Nat) : State :=
  let s := put (su x) [(Reg.strId, Fl.strId_VALID, 1), (Reg.strId, Fl.strId_CHAINLEN, 2), (Reg.strCtrl, Fl.strCtrl_RETRY, 3)]
  { s with strap := { Pins.zero with head := true }, slt := { SltSt.init with job := job, chainOk := true } }

/-- An image without a MAGIC, of the least length. -/
def badImage : List Byte := List.replicate 0x900 0

theorem badImage_length : badImage.length = 0x900 := List.length_replicate

theorem badImage_words : imgNat badImage 0 4 = 0 ∧ imgLen badImage = 0 := by decide +kernel

theorem badImage_refused (s : State) (room : Nat) : loadCheck s room badImage = .error (sltFail St.slateFormat 0xFF) := by
  simp [loadCheck, slateParse, badImage_length, badImage_words.1]

theorem badImage_whole : wholeImage [(0, badImage)] = some badImage := by
  simp [wholeImage, joinPieces, badImage_length, badImage_words.2]

/-- Discovery tables of a flash of 16 MiB that declares quad I/O, and of one that declares no mode. -/
def sfdpOf (d : Nat) : List Byte :=
  leBytes 4 0x50444653 ++ leBytes 4 0xFF000106 ++ leBytes 8 0xFF00001010010600 ++ leBytes 4 d ++ leBytes 4 0x07FFFFFF

theorem test_witness_flash : discover (sfdpOf 0x220000) = some ⟨false, 0x1000000, true⟩ ∧ discover (sfdpOf 0) = none := by
  decide +kernel

theorem test_witness_load : isHead (headOfChain .load 1) = true ∧ (headOfChain .load 1).slt.job = 1 ∧ (headOfChain .load 1).su = .load ∧
    pickImage (loadCheck (headOfChain .load 1)) ⟨false, 0x1000000, true⟩ badImage [] = .error (sltFail St.slateFormat 0xFF) ∧
    wholeImage [(0, badImage)] = some badImage ∧ isHead (su .load) = false ∧
    hasStratum (put (su .load) [(Reg.strId, Fl.strId_VALID, 1)]) = true :=
  ⟨by decide, by decide, by decide, by simp [pickImage, badImage_refused, mayFallBack], badImage_whole, by decide +kernel⟩

/-- A chain message with its CRC. -/
def msg (type kind arg : Nat) (b : List Byte) : ChainMsg :=
  let h := mkHdr type kind arg b.length
  ⟨BitVec.ofNat 64 h, b, BitVec.ofNat 32 (chainCrc h b)⟩

def fitsMsg (m : ChainMsg) : Bool := crcGood m && lenFits m.hdr.toNat && m.body.length == chLen m.hdr.toNat

/-- ChainMessagesPassFollowers: every kind; NEXT at 1,023 and 1,024; a wrong CRC, a wrong length, a kind not listed. -/
theorem test_witness_chain : fitsMsg (msg 1 0 1023 []) = true ∧ enumNext (msg 1 0 1023 []).hdr.toNat < 1024 ∧
    1024 ≤ enumNext (msg 1 0 1024 []).hdr.toNat ∧ hasStratum (su .load) = false ∧ fitsMsg (msg 2 0 0 [1]) = true ∧
    (su .load).su = .load ∧ fitsMsg (msg 3 1 0 [2, 0]) = true ∧ fitsMsg (msg 3 3 0 (leBytes 8 7)) = true ∧
    leNat (msg 3 3 0 (leBytes 8 7)).body % 16 = 7 ∧ (∀ op < 3, fitsMsg (msg 3 4 0 (leBytes 8 (op <<< 62))) = true ∧
      bits (leNat (leBytes 8 (op <<< 62))) 62 2 = op) ∧
    (crcGood { msg 1 0 1 [] with crc := (msg 1 0 1 []).crc ^^^ 1 } = false) ∧
    (crcGood (msg 1 0 1 [0]) = true ∧ lenFits (msg 1 0 1 [0]).hdr.toNat = false) ∧
    (fitsMsg (msg 5 0 0 []) = true ∧ kindListed (msg 5 0 0 []).hdr.toNat = false) ∧ isHead (su .load) = false := by decide +kernel

theorem test_witness_polls : fitsMsg (msg 3 2 0 (List.replicate 128 0)) = true ∧ fitsMsg (msg 4 1 0 (List.replicate 128 0)) = true ∧
    fitsMsg (msg 4 3 0 (List.replicate 128 0)) = true ∧ lenFits (mkHdr 4 2 0 512) = true ∧ (su .load).su ≠ .timelock :=
  ⟨by decide +kernel, by decide +kernel, by decide +kernel, by decide +kernel, by decide⟩

/-- HeadLeadsTheChain: each message that returns, its count of tries below and at RETRY. -/
def out1 (s : State) (m : ChainMsg) : State := { s with slt := { s.slt with outst := [(m.hdr.toNat, m.body)] } }

def returns (x : Su) (job : Nat) (m : ChainMsg) : Bool :=
  let s := out1 (headOfChain x job) m
  isHead s && crcGood m && s.slt.outst.any (fun o => sameMsg o.1 m.hdr.toNat)

theorem test_witness_head : returns .load 0 (msg 1 0 1024 []) = true ∧ enumNext (msg 1 0 1024 []).hdr.toNat = 1024 ∧
    returns .load 0 (msg 1 0 1025 []) = true ∧ returns .load 6 (msg 2 0 0 [1]) = true ∧ returns .load 0 (msg 3 1 0 [2, 0]) = true ∧
    (dropOutst (out1 (headOfChain .load 6) (msg 2 0 0 [1])) (msg 2 0 0 [1]).hdr.toNat).slt.outst = [] ∧
    (chTry (mkHdr 1 0 1 0) < fld (headOfChain .load 0) Reg.strCtrl Fl.strCtrl_RETRY ∧
      fld (headOfChain .load 0) Reg.strCtrl Fl.strCtrl_RETRY ≤ chTry (setBits (mkHdr 1 0 1 0) 56 4 3)) ∧
    (headLive (headOfChain .load 0) = true ∧ headLive (su .load) = false ∧ (headOfChain .run 0).slt.outst = []) ∧
    (∀ n < 8, injArmed (headOfChain .load 0) n = false) := by decide +kernel

set_option maxRecDepth 8000 in
theorem test_witness_head_polls : returns .run 0 (msg 4 1 0 (List.replicate 128 0)) = true ∧
    returns .run 7 (msg 4 2 0 (List.replicate 512 0)) = true ∧
    (pollCodes (headOfChain .run 7) [0x66] = [6, 6] ∧ pollCodes (headOfChain .run 7) [0x96] = [6, 9] ∧
      pollCodes (headOfChain .run 0) [0x36] = [6, 3] ∧ (headOfChain .linkup 0).slt.phaseSent = false ∧
      (headOfChain .linkup 0).su ≠ .run) := ⟨by decide +kernel, by decide +kernel, by decide +kernel⟩

theorem test_witness_head_ports : PortOpen (headOfChain .run 0) Reg.strCtrl ∧ PortOpen (headOfChain .run 0) Reg.sltCmd ∧
    (headOfChain .run 0).slt.job = 0 ∧ (headOfChain .run 2).slt.job ≠ 0 ∧ (headOfChain .load 8).slt.job = 8 ∧
    (pollCodes (headOfChain .selftest 0) [0x34] = [4, 3] ∧ (headOfChain .selftest 0).su ≠ .load) ∧
    headLive { headOfChain .linkup 0 with slt := { SltSt.init with seen6 := true } } = true ∧
    fld (put (headOfChain .linkup 0) [(Reg.sltCtrl, Fl.sltCtrl_PHTO, 1)]) Reg.sltCtrl Fl.sltCtrl_PHTO ≠ 0 :=
  ⟨portOpen_of (by decide +kernel), portOpen_of (by decide +kernel), by decide +kernel⟩

/-- RefusedIssueHaltsVein: a reserved bit of a NOP, and an opcode outside the table. -/
theorem test_witness_refused : (issuable (at0 [0, 1, 0, 0]) 0 = true ∧ headCmd (at0 [0, 1, 0, 0]) 0 = some ⟨0, [0, 1, 0, 0]⟩ ∧
      (vein (at0 [0, 1, 0, 0]) 0).jobs = [] ∧ isFiller (at0 [0, 1, 0, 0]) 0 = false ∧ outranked (at0 [0, 1, 0, 0]) 0 = false ∧
      staticBad (at0 [0, 1, 0, 0]) 0 [0, 1, 0, 0] = some St.fieldReserved) ∧
    (knownOp (cmdOp [0xFF, 0, 0, 0]) = false ∧ staticBad (at0 [0xFF, 0, 0, 0]) 0 [0xFF, 0, 0, 0] = some St.opUnknown) := by
  decide +kernel

/-- InternalErrorsAreFatal: all veins on slot A, with slot B good and not; no vein on slot B. -/
theorem test_witness_fatal : pxRuns (run []) = true ∧ pxRuns (su .safe) = false ∧
    (∀ v < 16, bit (fld (run []) Reg.vnUcode Fl.vnUcode_INUSE) v = false) ∧
    slotGood (run [(Reg.vnUcode, Fl.vnUcode_BVALID, 1)]) 1 = true ∧ slotGood (run []) 1 = false := by decide +kernel

/-! ### The clauses beside these, of commands -/

/-- IdleStepIsOneClock: no injector armed, no fence complete. -/
theorem test_witness_idle_still : (∀ n < 8, injArmed (run []) n = false) ∧
    ∀ l < 6, ((link (run []) l).fenceTx && (link (run []) l).fenceAck && (link (run []) l).fenceRx) = false := by decide +kernel

/-- TileClaimsArrays: tenant 1 is a filler and holds array 3, by a tile command or between two ranges of an ELEMWISE;
array 0 is switched off while the switch of array 1 closes. -/
def fillerHolds (op : Nat) : State :=
  inFlight (put (ready (bed 15 []) 1 (tile1 0 0)) [(Reg.vnTenant 1, Fl.vnTenant_FILLER, 1)]) 0
    { jobOf op [4] [3] with tenant := 1 }

def offAndClosing : State :=
  setArr (setArr (bed 15 (tile1 0 0)) 0 { ArrSt.init with pow := .opened }) 1 { ArrSt.init with pow := .closing }

theorem test_witness_preempts : (∀ op ∈ [1, 4, 0x15], Head (fillerHolds op) 1 ⟨0, tile1 0 0⟩ 0x01) ∧
    (∀ op ∈ [1, 4, 0x15], tileCheck (fillerHolds op) 1 (tile1 0 0) = none ∧ claimSet (fillerHolds op) 0 3 = [3] ∧
      claimFree (fillerHolds op) [3] (tile1 0 0) = false ∧ isFiller (fillerHolds op) (vTenant (fillerHolds op) 1) = false ∧
      allJobs (fillerHolds op) = [(0, { jobOf op [4] [3] with tenant := 1 })] ∧ isFiller (fillerHolds op) 1 = true ∧
      ∀ q ∈ (vein (fillerHolds op) 0).jobs, q.seq = 77 → q = { jobOf op [4] [3] with tenant := 1 }) ∧
    (Head offAndClosing 0 ⟨0, tile1 0 0⟩ 0x01 ∧ tileCheck offAndClosing 0 (tile1 0 0) = none ∧
      claimSet offAndClosing 0 0 = [0] ∧ claimFree offAndClosing [0] (tile1 0 0) = true ∧
      (arr offAndClosing 0).pow = .opened ∧ (arr offAndClosing 1).pow = .closing) :=
  ⟨fun op h => head_of (by revert op h; decide +kernel), by decide +kernel, head_of (by decide +kernel), by decide +kernel⟩

/-- ElemwiseAndGradEmitStart: array 0 at full admission, the operand in a RESIDENT stream or still to come; a
GRAD_EMIT with the value of schedule 0. -/
def ewFull (late : Bool) : State :=
  let s := setArr (bed 15 ew1) 0 { ArrSt.init with pow := .full }
  if late then arm s 0 (armIn 0 0 64) else s

def ewJob (s : State) : Job := { mkJob s 0 ⟨0, ew1⟩ false with arrays := [0] }

theorem test_witness_elemwise : (∀ late ∈ [false, true], Head (ewFull late) 0 ⟨0, ew1⟩ 0x04) ∧
    (∀ late ∈ [false, true], ewCheck (ewFull late) 0 ew1 = none ∧ claimSet (ewFull late) 0 0 = [0] ∧
      claimFree (ewFull late) [0] ew1 = true ∧ allFull (wakeAll (ewFull late) [0]) [0] = true ∧
      (∀ n < 8, injArmed (ewFull late) n = false) ∧ (ewFull late).poison = [] ∧
      (∀ i < 64, (strm (ewFull late) i).turn = []) ∧
      (vein (ewFull late) 0).jobs = [] ∧ (vein (ewFull late) 0).retryAt = [] ∧ ((ewUses (ewOf ew1)).map (·.1)).Nodup) ∧
    ((ewOf ew1).ewop ≠ 5 ∧ (outFmtOf (ewOf ew1).ow).scale = 0 ∧ (ewOf ew1).scsrc = false ∧ (ewOf ew1).track = false ∧
      (ewOf ew1).count = 1) ∧
    ((ewNeeds (ewJob (ewFull false)) (ewOf ew1) 0 1).all (needMet (ewFull false)) = true ∧
      writable (extend (ewFull false) 2) 2 0 (ewBytes (ewOf ew1).ow 0 1).2 = true ∧ (ewBytes (ewOf ew1).ow 0 1).2 = 2 ∧
      posAddr (extend (ewFull false) 2) 2 0 = some 64 ∧ posAddr (extend (ewFull false) 2) 2 1 = some 65) ∧
    (ewSizes (ewJob (ewFull true)) (ewOf ew1) = [1] ∧ ewSpan (ewJob (ewFull true)) (ewOf ew1) 0 1 = (0, 1) ∧
      (ewNeeds (ewJob (ewFull true)) (ewOf ew1) 0 1).all (needMet (ewFull true)) = false) :=
  ⟨fun late h => head_of (by revert late h; decide +kernel), by decide +kernel, by decide +kernel, by decide +kernel, by decide +kernel⟩

def grad1s : List W64 := [0x40015, 0, (0x2000 <<< 48) + (0x2000 <<< 32) + 1, 0]

def gradSched : State :=
  { pgtPut (bed 15 grad1s) 0 (1 + 2 ^ 64) with sched := leBytes 64 1, pins := { (run []).pins with scap := 2 } }

theorem test_witness_sched : Head gradSched 0 ⟨0, grad1s⟩ 0x15 ∧ gradCheck gradSched 0 grad1s = none ∧
    (gradOf grad1s).schedsrc = true ∧ nSched gradSched = 1 ∧ claimSet gradSched 0 0 = [0] ∧
    claimFree gradSched [0] grad1s = true ∧ emitKind (pgtRaw gradSched 0) 0 = 0 :=
  ⟨head_of (by decide +kernel), by decide +kernel⟩

/-- SaveAndRestoreState: an image of the counters and of the seed (parts 2 and 4), both requested. -/
def restore24 : List W64 := [0x19, 0x14, 0, 0]

def saved24 : State := let s := put (bed 15 restore24) [(Reg.vnTenant 0, Fl.vnTenant_P_SVC, 1)]
  arm (micaWrite s 0 (stateImage s 0 0x14)) 0 (armRes 0 0 512)

theorem test_witness_restore : Head saved24 0 ⟨0, restore24⟩ 0x19 ∧ imageCheck false saved24 0 restore24 = none ∧
    (desc saved24 0).isResident = true ∧ imageRoom saved24 0 = 512 ∧ saved24.poison = [] ∧
    imageBad (micaRead saved24 0 512) = false ∧
    ((imageParts 8 (((micaRead saved24 0 512).take (leNat (((micaRead saved24 0 512).drop 28).take 4))).drop 64)).map (·.1) = [2, 4]) ∧
    (setBitsOf 0x14 7 = [2, 4] ∧ (setBitsOf 0x14 7).any (partPoison saved24) = false) :=
  ⟨head_of (by decide +kernel), by decide +kernel⟩

/-- CalibrateAndCleaveBegin: scope 2 with points 3 and 9 good, at point 0 and at point 3. -/
def cal2 (now : Nat) : State := put (bed 15 [0x81C, 0, 0, 0]) [(Reg.trmOpp 3, Fl.trmOpp_VALID, 1), (Reg.trmOpp 9, Fl.trmOpp_VALID, 1),
  (Reg.trmOppsel, Fl.trmOppsel_ACTIVE, now)]

theorem test_witness_scope2 : (∀ n ∈ [0, 3], Head (cal2 n) 0 ⟨0, [0x81C, 0, 0, 0]⟩ 0x1C) ∧
    (∀ n ∈ [0, 3], calCheck (cal2 n) 0 [0x81C, 0, 0, 0] = none ∧ cf [0x81C, 0, 0, 0] 0 10 4 = 2 ∧ arraysIn (cal2 n) = [0, 1, 2, 3] ∧
      claimFree (cal2 n) [0, 1, 2, 3] [0x81C, 0, 0, 0] = true ∧ (cal2 n).trm.trans = none ∧ oppActive (cal2 n) = n ∧
      (List.range 16).filter (oppGood (cal2 n)) = [3, 9]) :=
  ⟨fun n h => head_of (by revert n h; decide +kernel), by decide +kernel⟩

/-- FetchAndDoorbells: a queue in Deep Slate with every tag of the one usable port out. -/
def deepQueue : State :=
  { put (queue0 0 1) [(Reg.vnQbase 0, Fl.vnQbase_SPACE, 0)] with
    dpMode := [0, 32, 32, 32], lostTags := (List.range 512).map (fun t => (0, t)) }

theorem test_witness_tags_out : fld deepQueue (Reg.vnQbase 0) Fl.vnQbase_SPACE = 0 ∧ tagsOut deepQueue = true ∧
    fetchLive deepQueue 0 = true ∧ qFill deepQueue 0 ≤ qslots deepQueue 0 ∧
    (portUsable { deepQueue with lostTags := [] } 0 = true ∧ freeTag { deepQueue with lostTags := [] } 0 = some 0) ∧
    fld (queue0 0 1) (Reg.vnQbase 0) Fl.vnQbase_SPACE = 1 := by decide +kernel

/-! ### The clauses beside these, of tiles, drains and the ladder -/

/-- TilesEnterAndLaneItemsEnd: a sparse command before its first tile, its row pointers there and still to come; then
a weight channel of one element whose index is still to come; an N tile for the lanes and a dense one. -/
def sparseW (p : W64) : List W64 := [0x02 + (2 <<< 14), 0x200020002000, (0xB0010 <<< 38) + (p <<< 36), 2 <<< 24]

def sparseJob (p : W64) (wStored entered : Bool) : Job :=
  { jobOf 2 (sparseW p) [0] with entered := entered, dscW := [1 + (3 <<< 8) + (4 <<< 16), 0, 0, 0, 0, 0, 0, 0] ++
    (if wStored then [1 + (3 <<< 8) + (4 <<< 16) + (1 <<< 24), 0, 0, 0, 0, 0, 0, 0] else [1 <<< 24]) }

def sparseOn (j : Job) (s : State) : State := setArr (inFlight (withDesc s) 0 j) 0 { ArrSt.init with pow := .full }

def oneEntry : State := arm (micaWrite bed0 0x2C00804 [1]) 4 (armIn 4 0x2C00840 64)

def sparseSt (s : State) (j : Job) : Bool :=
  decide (entryJob s 0 = some (0, j)) && isRun s && !j.preempt && j.arrays.all (inService s) && (heldTiles s j.arrays).isEmpty &&
    !lanesBusy s j.arrays && decide (j.nt < (tileOf j.words).nts) && accFree s 0 j (tileOf j.words) &&
    allFull (wakeAll s j.arrays) j.arrays

theorem test_witness_sparse_first : (let j := sparseJob 2 false false
     let f := tileOf j.words
     let ns (s : State) := firstNeeds s f (spA j f) (spW j f) (spAt s (spA j f)) (spAt s (spW j f))
     sparseSt (sparseOn j bed0) j = true ∧ f.sparse = true ∧ (ns (sparseOn j bed0)).all (needMet (sparseOn j bed0)) = true ∧
      (let t := sparseOn j (arm bed0 3 (armIn 3 0x2C00800 64)); sparseSt t j = true ∧ (ns t).all (needMet t) = false)) ∧
    (let j := sparseJob 2 true true
     let s := sparseOn j oneEntry
     sparseSt s j = true ∧ j.nts = [] ∧ (channelNeeds s j (tileOf j.words) 0).all (needMet s) = false) := by decide +kernel

theorem test_witness_sparse_tiles : (let j := sparseJob 2 false true
     let s := sparseOn j bed0
     sparseSt s j = true ∧ laneMode s j (tileOf j.words) 0 = true ∧ (channelNeeds s j (tileOf j.words) 0).all (needMet s) = true ∧
      (tileOf j.words).load = false) ∧
    (let j := sparseJob 1 false true
     let s := sparseOn j bed0
     sparseSt s j = true ∧ laneMode s j (tileOf j.words) 0 = false ∧ nextPass j (tileOf j.words) 0 = some 0 ∧
      (entryNeeds s j (tileOf j.words) 0 (ntRows j (tileOf j.words) 0 false) true).all (needMet s) = true) := by decide +kernel

/-- A PRED command whose only pass is skipped; spares asked for on array 3. -/
def predJob : Job := { jobOf 1 [0x01, 0x200020002000, 0, (1 <<< 43) + (2 <<< 24) + (1 <<< 6)] [3] with mask := 0xFFFF }

def sparing : State := let s := tiling tileJob bed0
  setArr s 3 { arr s 3 with spareReq := [(65, 0), (66, 64)] }

theorem test_witness_pred_spares : (let s := tiling predJob bed0
     entryJob s 3 = some (0, predJob) ∧ (tileOf predJob.words).pred = true ∧ accFree s 0 predJob (tileOf predJob.words) = true ∧
      nextPass predJob (tileOf predJob.words) 0 = none ∧ allFull (wakeAll s [3]) [3] = true) ∧
    (entryJob sparing 3 = some (0, tileJob) ∧ allFull (wakeAll sparing [3]) [3] = true ∧
      (∀ m ∈ (arr sparing 3).spareReq, (m.1 = 65 ∨ m.1 = 66) ∧ m.2 ≤ 64) ∧
      (∀ m ∈ (arr sparing 3).spareReq, ∀ q ∈ (arr sparing 3).spareReq, q.1 = m.1 ∨ q.2 = m.2 → q = m) ∧
      physCol sparing 3 0 = 0 ∧ physCol sparing 3 64 = 64) := by decide +kernel

/-- The second pass of a PSUM command, whose semaphore 3 stands at n; its words are in X-Mica. -/
def psumWords : List W64 := [0x01, 0x200020002000, (1 <<< 62) + (3 <<< 48) + (511 <<< 16), (5 <<< 36) + (2 <<< 24) + (1 <<< 6)]

def psumJob (x : NtSt) : Job := { jobOf 1 psumWords [3] with entered := true, pass := 1, nts := [x] }

def psumAt (n : Nat) (x : NtSt) : State :=
  tiling (psumJob x) (arm (arm (arm (put bed0 [(Reg.semVal 3, Fl.semVal_VALUE, n)]) 0 (armRes 0 0 1024)) 1 (armRes 1 0x1800000 65536)) 5
    (armRes 5 0x2800000 64))

theorem test_witness_psum : ∀ n ∈ [0, 1], ∀ sm ∈ [false, true], let x := { ntOf false with summed := sm }
    let s := psumAt n x
    let f := tileOf psumWords
    entryJob s 3 = some (0, psumJob x) ∧ f.psum = true ∧ f.psumat < 1 ∧ f.nts = 1 ∧ f.psem = 3 ∧ accFree s 0 (psumJob x) f = true ∧
    nextPass (psumJob x) f 1 = some 1 ∧ allFull (wakeAll s [3]) [3] = true ∧ semWaiters s 3 = [] ∧ semValue s 3 = n ∧
    (entryNeeds s (psumJob x) f 1 (ntRows (psumJob x) f 0 false) false).all (needMet s) = true ∧
    needMet s (auxNeed (psumJob x) f 0) = true ∧ x.auxIn = false ∧ x.auxOrd = none ∧ x.corr = false := by decide +kernel

/-- RowDrainsOrJoinsLadder: a row whose tile has been read, on its own in its group; a tile that is held with its
operands there; an ELEMWISE on array 3, and no row that drains there. -/
def drainPassed (s : State) (j : Job) : State := updJob (takenRow s j) 0 77 (fun k =>
  updNt k 0 false (fun y => { y with checked := y.checked ++ [0] }))

theorem test_witness_drains : (let s := tiling drainJob bed0
     let f := tileOf drainJob.words
     drainJob.ladders = [] ∧ (ntOf true).errs = [] ∧ drainJob.preempt = false ∧ f.pred = false ∧ f.psum = false ∧
      ((findJob (drainPassed s drainJob) 0 77).map (fun k => ((rowGroup k f 0).all (fun r => (ntPassed k 0).contains r),
        piecesFit (extend (drainPassed s drainJob) 2) 2 (groupPlaces k f 0 (rowGroup k f 0))))) = some (true, true)) ∧
    (let j := { drainJob with oPos := 128 }
     let s := tiling j fullOut
     ((findJob (drainPassed s j) 0 77).map (fun k =>
        piecesFit (extend (drainPassed s j) 2) 2 (groupPlaces k (tileOf j.words) 0 (rowGroup k (tileOf j.words) 0)))) = some false) ∧
    (let s := tiling heldJob bed0
     drainOf s 3 0 = some (0, heldJob, heldNt) ∧
      ((ntRows heldJob (tileOf heldJob.words) 0 false).flatMap (rowNeeds s heldJob (tileOf heldJob.words) 0 0)).all (needMet s) = true) ∧
    (let s := tiling (jobOf 4 ew1 [3]) bed0
     isRun s = true ∧ drainOf s 3 0 = none ∧ linearOn s 3 = some (0, jobOf 4 ew1 [3])) := by decide +kernel

theorem test_witness_row_errors : (let s := tiling drainJob bed0
     let f := tileOf drainJob.words
     (arr s 3).fencing = none ∧ (let flt := { RowFault.none with drainDup := [0] }
       flt.talusEcc = .clean ∧ (rowShow s 0 drainJob f (ntOf true) 3 0 (drainAccs s drainJob f (ntOf true) 0) flt).1.det ≠ none) ∧
      ({ RowFault.none with drainEcc := .double } : RowFault).drainEcc = .double) ∧
    (let w := [0x01, 0x1200020002000, 0, (2 <<< 24) + (1 <<< 6)]
     let j := { drainJob with words := w }
     ∃ i ∈ rowsLeftOn j (tileOf w) (ntOf true) 3, i ≠ 0) := by decide +kernel

/-- The sums: a carry of 1; a sum of accumulators that lies half a unit above its neighbour; an infinity times one. -/
theorem test_witness_sums : ((2 : ℚ) ^ (0 : Int) ≤ |(0 : ℚ) + (1 : Int) * 2 ^ (0 : Int)| ∧
      |(0 : ℚ) + (1 : Int) * 2 ^ (0 : Int)| < 2 ^ ((0 : Int) + 1) ∧ (-511 : Int) ≤ 0) ∧
    (axDy 0 = ⟨0, 0⟩ ∨ (axDy 0).m = 0) ∧
    (∀ lost ∈ [false, true], axIsInf (axAdd 0 ⟨2 ^ 53 + 1, 0⟩ false lost) = false ∧
      axDy (axAdd 0 ⟨2 ^ 53 + 1, 0⟩ false lost) = if lost then ⟨2 ^ 52 + 1, 1⟩ else ⟨2 ^ 52, 1⟩) ∧
    (let one : Elem := ⟨.fin false 1 0, 0, false, 0, false⟩
     let inf : Elem := ⟨.inf false, 0, true, 0, false⟩
     (accPass ⟨0, false, false, false, false, 0⟩ [[(inf, one)]]).pinf = true ∧ valIsZero one.val = false ∧
      valNeg inf.val = valNeg one.val) := by
  refine ⟨⟨by norm_num, by norm_num, by norm_num⟩, by decide +kernel, by decide +kernel, by decide +kernel⟩

/-- LadderStepsAndCompletion: step 1 shows a fault or none; in step 2 on array 2, or on none since no other array is in
service; a strike window of 3 frames, one frame after the strike and three. -/
def dupFault : List (Nat × RowFault) := [(0, { RowFault.none with drainDup := [0] })]

def rungAt (step : Nat) (other : Option Nat) : Ladder := { rung with step := step, other := other }

def rungJob (step : Nat) (other : Option Nat) : Job := { ladderJob with ladders := [rungAt step other] }

def retryAt (m step : Nat) (other : Option Nat) : State :=
  tiling (rungJob step other) (put bed0 [(Reg.tchArrays, Fl.tchArrays_INSERVICE, m)])

theorem test_witness_rungs : ∀ p ∈ [(15, 1, none), (15, 2, some 2), (8, 2, none)], let l := rungAt p.2.1 p.2.2
    let j := rungJob p.2.1 p.2.2
    let s := retryAt p.1 p.2.1 p.2.2
    let x := { ntOf true with failed := [0] }
    allJobs s = [(0, j)] ∧ j.ladders.find? (fun l => l.array == 3 && ladderReady j (tileOf j.words) l) = some l ∧
    ladderNt j l = some x ∧ (arr s 3).fencing = none ∧ j.preempt = false ∧
    (stepShow s j (tileOf j.words) x l (p.2.2.getD 3) dupFault).1 = true ∧ (stepShow s j (tileOf j.words) x l (p.2.2.getD 3) []).1 = false ∧
    (ladderPass s 0 j l (p.2.2.getD 3) []).isSome = true ∧ holdersOf s 2 = [] ∧
    (p.1 = 8 → ∀ a ∈ arraysIn s, a = 3) ∧ vBase s 0 ≠ Vs.off ∧ vBase s 0 ≠ Vs.halting ∧ vBase s 0 ≠ Vs.halted := by decide +kernel

def struckAt (f : Nat) : State :=
  setArr (run [(Reg.tchCtrl, Fl.tchCtrl_WINDOW, 3), (Reg.crnFrame, Fl.crnFrame_FRAME, f)]) 2 { ArrSt.init with strikes := [(7, (2, 10))] }

theorem test_witness_window : windowOpen (struckAt 11) (mapGet (0, 0) (arr (struckAt 11) 2).strikes 7).2 = true ∧
    windowOpen (struckAt 13) (mapGet (0, 0) (arr (struckAt 13) 2).strikes 7).2 = false ∧
    strikesOf (struckAt 11) 2 7 = 2 := by decide +kernel

theorem test_witness_complete_cal : (let s := tiling (jobOf 0x1C [0x81C, 0, 0, 0] []) bed0
     (vein s 0).jobs = [jobOf 0x1C [0x81C, 0, 0, 0] []] ∧ calScope (jobOf 0x1C [0x81C, 0, 0, 0] []) = 2 ∧ s.trm.trans = none ∧
      s.trm.cal = []) := by decide +kernel

/-! ### The clauses beside these, of power, time and frames -/

/-- ArraysRampAndSwitch: switches of the arrays 0 to 3 in the given states, each held by a pre-ramp or not. -/
def pows (held : Bool) (ps : List Pow) : State :=
  let s := waiting .full false
  (List.range 4).foldl (fun s a => setArr s a { ArrSt.init with pow := ps.getD a .full, preramp := held }) s

theorem test_witness_switches : (let s := setArr (pows false [.idle]) 0 { ArrSt.init with pow := .idle, fenced := true }
     (arr s 0).pow = .idle ∧ (arr s 0).fenced = true ∧ bit s.svc.pswHold 0 = false) ∧
    (let s := pows true [.full, .waiting, .waiting, .closing]
     (arr s 3).pow = .closing ∧ (arr s 1).pow = .waiting ∧ (arr s 1).preramp = true ∧ (∀ b < 1, (arr s b).pow ≠ .waiting) ∧
      ∀ c < 4, c ≠ 3 → (arr s c).pow ≠ .closing) ∧
    (let s := { pows false [.opened, .full, .full, .opened] with
       regs := (put (pows false []) [(Reg.tchArrays, Fl.tchArrays_INSERVICE, 15)]).regs }
     groupWaits s = true ∧ inService s 0 = true ∧ inService s 3 = true ∧ (arr s 0).pow = .opened ∧ (arr s 3).pow = .opened ∧
      ∀ b < 4, (arr s b).pow ≠ .closing) ∧
    (let s := pows true [.closing, .rampUp, .rampDown, .idle]
     (∀ a < 4, (arr s a).preramp = true) ∧ (arr s 0).pow = .closing ∧ (arr s 3).pow = .idle) ∧
    (let s := pows false [.full, .full, .waiting, .full]
     (arr s 2).preramp = false ∧ (arr s 2).pow = .waiting ∧ ∀ b < 4, b ≠ 2 → (arr s b).pow ≠ .closing) := by decide +kernel

/-- SensorsAreSampled: the thresholds of the hot and the cool condition lie within the readings. -/
theorem test_witness_hot : (4 * ((fld (run [(Reg.trmTherm, Fl.trmTherm_THROT, 100)]) Reg.trmTherm Fl.trmTherm_THROT : Int) + 0) ≤ 439) ∧
    (-160 : Int) < 4 * ((fld (run [(Reg.trmTherm, Fl.trmTherm_THROT, 100), (Reg.trmTherm, Fl.trmTherm_HYST, 5)]) Reg.trmTherm Fl.trmTherm_THROT : Int) -
      fld (run [(Reg.trmTherm, Fl.trmTherm_THROT, 100), (Reg.trmTherm, Fl.trmTherm_HYST, 5)]) Reg.trmTherm Fl.trmTherm_HYST) := by
  decide +kernel

/-- No wrapper instruction governs the outputs and no group of them is clamped. -/
theorem test_witness_outputs : (∀ g ∈ [0, 1, 2, 3, 4, 11, 13, 14, 15], portLive (run []) g = true) ∧
    portLive (net .run [0]) 5 = true ∧ wrapGoverns (run []) = false ∧
    wrapGoverns { run [] with svc := { SvcSt.init with wir := 4 } } = true := by decide +kernel

/-- DelayExchangeMovesTime: in FREE. TickIsAnnouncedAndTaken: STRETCH with FREEZE. -/
theorem test_witness_free : linkActive (exchanging 0 false) 5 = true ∧ carries (exchanging 0 false) 5 0 = true ∧
    crnLive (exchanging 0 false) = true ∧ lockSt (exchanging 0 false) = 0 ∧ (exchanging 0 false).crn.xch = some (5, 100, 200) ∧
    (exchanging 0 false).crn.splitStep = false ∧
    (let s := put (lodeAt true false) [(Reg.crnCtrl, Fl.crnCtrl_FREEZE, 1)]
     flag s Reg.crnCtrl Fl.crnCtrl_FREEZE = true ∧ isLode s = true ∧ crnLive s = true ∧ policy s = 0 ∧ s.crn.opened = true ∧
      s.crn.anchored = true ∧ s.crn.decided = false ∧ s.crn.tick = none) := by decide +kernel

/-- TickFireOpensFrame: a fatal block; vein 0 with a TILE of the frame, nothing of it committed, under ABANDON and under
CONTINUE, and one whose only row has committed. -/
def overruns (pol : Nat) (j : Job) : State :=
  inFlight (put (fires .run) [(Reg.crnCtrl, Fl.crnCtrl_POLICY, pol)]) 0 j

def openTile : Job := { drainJob with nts := [{ ntOf true with checked := [0], drained := [0] }] }

def doneTile : Job := { drainJob with nts := [{ ntOf true with checked := [0], done := [0] }] }

theorem test_witness_overrun : ((fires .fatal).su = .fatal ∧ crnLive (fires .fatal) = true ∧ (fires .fatal).slt.rldAt = none) ∧
    ∀ p ∈ [1, 2], ∀ j ∈ [openTile, doneTile], let s := overruns p j
    s.su = .run ∧ crnLive s = true ∧ s.crn.tick = some (0, 5, 65535, 0) ∧ (∀ v < 16, (vein s v).wait = none) ∧
    tMax s < 4 * throt s ∧ policy s = p ∧ leftOut s = false ∧
    frameIdle s = false ∧ (vein s 0).jobs = [j] ∧ j.done = false ∧ j.inFrame = true ∧ j.fin = false ∧ j.corr = false ∧
    (∀ x ∈ j.nts, x.corr = false) ∧
    ((j = openTile → ∃ x ∈ j.nts, discards j (tileOf j.words) x.nt = true) ∧
     (j = doneTile → ∀ x ∈ j.nts, discards j (tileOf j.words) x.nt = false)) := by decide +kernel

/-- Vein 0 asks for slot B, which is good or not. -/
def asksB (good : Nat) : State :=
  put (fires .run) [(Reg.vnUcode, Fl.vnUcode_REQ, 1), (Reg.vnUcode, Fl.vnUcode_AVALID, 1), (Reg.vnUcode, Fl.vnUcode_BVALID, good)]

theorem test_witness_slots : (∀ g < 2, (vein (asksB g) 0).jobs.all (·.done) = true ∧ bit (fld (asksB g) Reg.vnUcode Fl.vnUcode_REQ) 0 = true ∧
      slotGood (asksB g) 1 = decide (g = 1)) ∧ bit (fld (asksB 1) Reg.vnUcode Fl.vnUcode_REQ) 1 = false ∧
    slotGood (asksB 1) 0 = true := by decide +kernel

/-- One vein presents one group of one TILE, to a tenant with the whole share; with a starved group of another vein
that stands back beside it. -/
def offers (st : State) (v : Nat) (d : Nat) (back : Bool) : State :=
  setVein (setVState st v Vs.pending) v { VeinSt.init with
    held := [⟨0, tile1 0 0⟩], fresh := 1, groups := [⟨1, 0, true, false, true, false, d, d, d, back, 0, 0, []⟩] }

def admits (n : Nat) : State :=
  let s := put (fires .run) [(Reg.tchArrays, Fl.tchArrays_INSERVICE, 8), (Reg.vnTenant 0, Fl.vnTenant_SLICEMASK, 1),
    (Reg.trmTen 0, Fl.trmTen_SHARE, 64), (Reg.trmCtrl, Fl.trmCtrl_STARVE, 3), (Reg.crnPeriod, Fl.crnPeriod_NS, n),
    (Reg.trmCap, Fl.trmCap_SW, 1000)]
  offers (arm (arm (arm s 0 (armRes 0 0 64)) 1 (armRes 1 0x1800000 32768)) 2 (armRes 2 64 64)) 0 0 false

/-- The starved group's tenant, 1, has no slice in this frame; its TILE uses the streams 8 to 10. -/
def beside : State :=
  let s := put (admits 50000000) [(Reg.vnQcfg 1, Fl.vnQcfg_TENANT, 1), (Reg.stmRange 1, Fl.stmRange_COUNT, 64),
    (Reg.vnTenant 1, Fl.vnTenant_SLICEMASK, 0)]
  let s := arm (arm (arm s 8 (armRes 8 0 64)) 9 (armRes 9 0x1800000 32768)) 10 (armRes 10 64 64)
  let s := put s ([8, 9, 10].map (fun i => (Reg.stmDescW7 i, Fl.stmDescW7_TENANT, 1)))
  let s := offers s 1 3 true
  setVein s 1 { vein s 1 with held := [⟨0, [0x01, 0x200020002000, 0, (10 <<< 24) + (9 <<< 6) + 8]⟩] }

def afterTick (s : State) (P : State → Bool) : Bool :=
  match exec (.tickFire 0) s with | .next t => P t | _ => false

theorem test_witness_offers : (let s := admits 50000000
     fld s Reg.errEvstat Fl.errEvstat_STATE = 0 ∧ (∀ w < 16, (vein s w).jobs = []) ∧ (∀ w < 16, w ≠ 0 → (vein s w).groups = []) ∧
      (vein s 0).groups.length = 1 ∧ presented s 0 = true ∧ isFiller s (vTenant s 0) = false ∧ eligible s (vTenant s 0) = true ∧
      workEsts (groupEsts s 0) ≠ []) ∧
    (standsBack beside 1 = true ∧ starved beside 1 = true ∧ prio beside 0 ≤ prio beside 1 ∧ presented beside 0 = true ∧
      (∀ x, headGroup beside 0 = some x → x.deferred < fld beside Reg.trmCtrl Fl.trmCtrl_STARVE) ∧
      isFiller beside (vTenant beside 0) = false) ∧
    afterTick (admits 50000000) (fun t => !(workEsts (groupEsts t 0)).isEmpty && eligible t 0 &&
      ((vein t 0).groups.map (·.admitted) == [true])) = true ∧
    afterTick beside (fun t => !(workEsts (groupEsts t 0)).isEmpty && ((vein t 1).groups.map (·.admitted) == [false]) &&
      ((vein t 0).groups.map (·.admitted) == [false])) = true := by
  refine ⟨by decide +kernel, ⟨by decide +kernel, by decide +kernel, by decide +kernel, by decide +kernel, ?_, by decide +kernel⟩,
    by decide +kernel, by decide +kernel⟩
  intro x h
  have e : (headGroup beside 0).map (·.deferred) = some 0 := by decide +kernel
  rw [h] at e
  have e : x.deferred = 0 := by simpa using e
  rw [e]; decide +kernel

/-- A SEM_WAIT of 5 ticks that has counted 2, and 4. -/
def semTicks (w : Nat) : State :=
  setVein (put (fires .run) [(Reg.vnStat 0, Fl.vnStat_STATE, Vs.wait)]) 0
    { VeinSt.init with wait := some (.sem 3 1 5 w 0), jobs := [jobOf 0x0D semWait5 []] }

theorem test_witness_sem_ticks : ∀ w ∈ [2, 4], (vein (semTicks w) 0).wait = some (.sem 3 1 5 w 0) ∧
    (∀ u < 16, u ≠ 0 → (vein (semTicks w) u).wait = none) ∧ (semTicks w).su = .run := by decide +kernel

/-- SlipsMissesAndTakeovers: a TAKEOVER of a lower Lodestone in an open frame, with no grid point missed.
DisciplineCaptureAndStep: a capture in SAFE. -/
theorem test_witness_meets : (let s := crnWith (fun c => { c with opened := true }) (misses 0)
     s.crn.missed = 0 ∧ s.crn.opened = true ∧ 6 % 1024 < lode s ∧ linkActive s 0 = true ∧ carries s 0 0 = true ∧ crnLive s = true) ∧
    (let s := { crnWith (fun c => { c with capture := some 9 }) (su .safe) with pending := [] }
     s.su = .safe ∧ s.crn.capture = some 9) := by decide +kernel

/-! ### The clauses beside these, of streams, links, the port and start-up -/

/-- DeepPortsMoveStreams: rows of weights passed over at position 0, which a correction pass reads again; an OUT_LINK
stream to block 9 with a closed chunk, whose route serves, trains or is down; an OUT_DEEP stream with one. -/
def passedOver : State :=
  let s := arm (run []) 1 (armIn 1 0x1800000 4096)
  inFlight (setStrm s 1 { strm s 1 with asked := 128, skip := [(0, 64)] }) 0
    { jobOf 1 (tile1 0 0) [3] with corr := true }

def armLink (i x n : W64) : List W64 :=
  [0x08 + (i <<< 10), 9 <<< 48, n - 1, 0, 0, 0, x + (1 <<< 32), (3 <<< 60) + (1 <<< 56)]

def outLink (lnk st0 : Nat) : State :=
  let s := arm (put (routed lnk st0) [(Reg.xlRoute 1, ⟨8, 8⟩, 0xF0 + lnk)]) 1 (armLink 1 0x80 128)
  setStrm s 1 { strm s 1 with chunks := [⟨0, 64, 0, 64⟩] }

theorem test_witness_skips : skipDue passedOver 1 = some (0, 64) ∧ pxRuns passedOver = true ∧ streamLive passedOver 1 = true ∧
    deepPorts passedOver (desc passedOver 1) = [0] ∧ freeTag passedOver 0 = some 0 ∧ seqAt (strm passedOver 1) 0 ≠ none ∧
    0 < seqEndPos (strm passedOver 1) ∧ ∀ k ∈ (strm passedOver 1).skip, 0 < k.2 := by decide +kernel

theorem test_witness_out_link : ∀ p ∈ [(0, 0), (1, Lk.detect), (1, Lk.down)], let s := outLink p.1 p.2
    skipDue s 1 = none ∧ sState s 1 = Ss.running ∧ (∀ n < 8, injArmed s n = false) ∧ s.poison = [] ∧ (strm s 1).turn = [] ∧
    pxRuns s = true ∧ (desc s 1).kind = 3 ∧ (desc s 1).mc = false ∧ (desc s 1).xstratum = 9 ∧ stratum s = 0 ∧
    heldBack s 1 = false ∧ (strm s 1).asked < closedEnd (extend (turnFill s 1) 1) 1 ∧ curSeq (strm s 1) ≠ none ∧
    nextLink s 9 2 none = (if p.1 = 0 then .via 0 else if p.2 = Lk.detect then .wait else .fail) := by decide +kernel

theorem test_witness_out_deep : (strm (deepOut []) 1).asked < closedEnd (extend (turnFill (deepOut []) 1) 1) 1 ∧
    curSeq (strm (deepOut []) 1) ≠ none ∧ deepPorts (deepOut []) (desc (deepOut []) 1) = [0] ∧
    freeTag (deepOut []) 0 = some 0 := by decide +kernel

/-- MulticastMovesParcelsOnCredit: a link with credit for parcel 0, also across the wrap; one without. -/
theorem test_witness_credit : serialCmp 0 1 24 = 1 ∧ serialCmp (2 ^ 24 - 1) 0 24 = 1 ∧ serialCmp 0 0 24 ≠ 1 ∧
    (mcg (mcRootAt 1) 3).creds.find? (fun c => c.1 == 0) = some (0, (mcg (mcRootAt 1) 3).sq, 1) ∧ (mcg (mcRootAt 1) 3).parcel = 0 ∧
    creditAhead (mcg (mcMemberAt 0) 3) (mcg (mcMemberAt 0) 3).sentUp < treeCredit (mcMemberAt 0) 3 := by decide +kernel

/-- LinksTrainByStates: the word of a link in training is seen. -/
theorem test_witness_seen : (∀ st ∈ [Lk.detect, Lk.announce, Lk.select], portLive (lk st []) 5 = true) ∧
    portLive (lk Lk.down []) 5 = false := by decide +kernel

/-- CleavesComplete: another switch waits; the copies of a fenced group name distinct banks. -/
theorem test_witness_fence_waits : (let s := setArr (setArr (clState (cleaving 0 0 2)) 2
       { ArrSt.init with fencing := some (some (0, 77)), pow := .closing }) 1 { ArrSt.init with pow := .waiting }
     (arr s 2).fencing = some (some (0, 77)) ∧ arrayEmpty s 2 = true ∧ (arr s 1).pow = .waiting) ∧
    (let s := { clState (cleaving 1 0 23) with svc := { SvcSt.init with
       copies := (List.range 8).map (fun i => ⟨184 + i, 192 + i, 0, false⟩) } }
     clFind s false 1 23 = some (0, cleaving 1 0 23) ∧ (s.svc.copies.map (·.bank)).Nodup ∧
      ∀ c ∈ s.svc.copies, c.bank / 8 = 23 ∧ c.det = 0) := by decide +kernel

/-- RegisterWritesTakeEffect: registers that REGLOCK closes in part; the registers with an effect of their own beside
their bits, in each of their two states. -/
def takesWrite (s : State) (a : Nat) (part : Bool) : Bool :=
  a % 8 == 0 && !ownRow a && match regRow a with
  | none => false
  | some r => (refusal s a r true).isNone && ((closedPart s a r && s.su != .safe) == part)

def lockedRun : State := run [(Reg.idGctl, Fl.idGctl_REGLOCK, 1)]

theorem test_witness_writes : takesWrite lockedRun Reg.trmCap true = true ∧ takesWrite (run []) Reg.crnCtrl false = true ∧
    (∀ l ∈ [false, true], ∀ f ∈ [false, true], let s := { setArr (run []) 0 { ArrSt.init with fenced := f } with locked := l }
      takesWrite s (Reg.tchSpare 0) false = true ∧ s.locked = l ∧ (arr s 0).fenced = f) ∧
    (∀ x ∈ [0, 1], let s := debug [(Reg.fltInjW0 7, Fl.fltInjW0_ARMED, x)]
      takesWrite s (Reg.fltInjW1 7) false = true ∧ takesWrite s (Reg.fltInjW2 7) false = true ∧ injArmed s 7 = decide (x = 1)) ∧
    (∀ x ∈ [0, 1], let s := debug [(Reg.dbgTraceCfg, Fl.dbgTraceCfg_ENABLE, x)]
      takesWrite s Reg.dbgTraceBase false = true ∧ flag s Reg.dbgTraceCfg Fl.dbgTraceCfg_ENABLE = decide (x = 1)) ∧
    takesWrite (run []) (Reg.numNanW0 3) false = true := by decide +kernel

/-- UpdatePortMovesRecords: a record under way with its payload committed; a preempted filler
command between two records. -/
def begunGrad : Job := { gradJob 1 0 with beat := 1, payload := List.replicate 64 0, preempt := true }

theorem test_witness_records : (let s := sends begunGrad false
     emitJob s 0 = some begunGrad ∧ s.updStop = false ∧ isRun s = true ∧ wrapGoverns s = false ∧ begunGrad.arrays ≠ [] ∧
      allFull s begunGrad.arrays = true ∧ begunGrad.dup = false ∧ begunGrad.beat ≠ 0 ∧ 1 ≤ fld s Reg.numUpdStat Fl.numUpdStat_CREDITS ∧
      ∀ p ∈ allJobs s, p.2.beat ≠ 0 → p.1 = 0 ∧ p.2.seq = begunGrad.seq) ∧
    (let j := { gradJob 1 0 with preempt := true }
     let s := sends j false
     emitJob s 0 = some j ∧ s.updStop = false ∧ j.beat = 0 ∧ (vein s 0).jobs = [j] ∧ j.done = false) := by decide +kernel

/-- DebugTraceAndInjectorsAct: an ENABLE without DBG_EN. -/
theorem test_witness_no_debug : pxRegs (run []) = true ∧ dbgOn (run []) = false ∧ (run []).su ≠ .safe ∧
    (1 <<< 63 : W64).toNat.testBit 63 = true := by decide +kernel

/-- PowerAndTestAccessAct: VDD_PX stands in range with the block running, and in CLAMPED where it did before. -/
theorem test_witness_px : pxGood (run []) = true ∧ pxGood { su .clamped with svc := { SvcSt.init with pxOn := true } } = true ∧
    pxGood (su .clamped) = false ∧ (1 : BitVec 8) ∈ [(1 : BitVec 8), 3] ∧ (testing .reset).svc.testHold = true := by decide +kernel

/-- ChainMessagesPassFollowers, HeadLeadsTheChain: a follower with a reload committed for frame 9 and no wrapper
instruction; a head in LOAD with a distribution under way. -/
def committed : State := { run [] with slt := { SltSt.init with rldAt := some 9, staged := [0], rldOpen := true } }

theorem test_witness_reload : isHead committed = false ∧ committed.su = .run ∧ committed.slt.rldAt ≠ none ∧ wrapGoverns committed = false ∧
    (∀ n < 8, injArmed committed n = false) ∧
    (PortOpen (headOfChain .load 6) Reg.sltCmd ∧ (headOfChain .load 6).slt.job ≠ 0) ∧
    (PortOpen (headOfChain .load 0) Reg.sltCmd ∧ (headOfChain .load 0).su ≠ .run ∧ (headOfChain .load 0).slt.job = 0) ∧
    wrapGoverns (headOfChain .run 0) = false :=
  ⟨by decide +kernel, by decide +kernel, by decide +kernel, by decide +kernel, by decide +kernel,
    ⟨portOpen_of (by decide +kernel), by decide +kernel⟩, ⟨portOpen_of (by decide +kernel), by decide +kernel⟩, by decide +kernel⟩

/-- The Lodestone's count: two blocks against a tree of two, of three, and of three when TOKTO points have passed. -/
def countedOf (tree short : Nat) : State :=
  crnWith (fun c => { c with token := some (false, 1023, 1), kids := [0], tokens := [(0, 1, false, 0)], tree := tree, short := short })
    (framed [])

theorem test_token_count : tokensComplete (countedOf 2 0) = true ∧ tokensComplete (countedOf 3 1) = false ∧
    tokensComplete (countedOf 3 2) = true := by decide +kernel

/-- F4E2 reads four bits. -/
theorem f4_mod (c : Nat) : codeVal .f4e2 c = codeVal .f4e2 (c % 16) := by
  have h3 : c % 16 / 8 % 2 = c / 8 % 2 := by omega
  have h1 : c % 16 / 2 % 4 = c / 2 % 4 := by omega
  have h0 : c % 16 % 2 = c % 2 := by omega
  have e : ∀ c, codeVal .f4e2 c = fltVal ⟨2, 1, 1, true⟩ c := fun _ => rfl
  simp only [e, fltVal, bit, bits, Nat.shiftRight_eq_div_pow]
  simp [h3, h1, h0]

def magOf (v : Val) : ℚ := match v with | .fin _ m e => m * 2 ^ e | _ => 0
def finOf (v : Val) : Prop := match v with | .fin .. => True | _ => False

/-- RoundingFollowsGridAndOverflowTable: F4E2's largest value, 6, with a value that rounds above it and one that does
not. -/
theorem test_witness_rounding : (∀ c, finOf (codeVal .f4e2 c) → magOf (codeVal .f4e2 c) ≤ magOf (codeVal .f4e2 7)) ∧
    finOf (codeVal .f4e2 7) ∧ fmtFlt .f4e2 = some ⟨2, 1, 1, true⟩ ∧ magOf (codeVal .f4e2 7) = 6 ∧
    roundToGrid true 7 0 2 0 .rne 0 = (4, 1, false) ∧ roundToGrid true 5 0 2 0 .rne 0 = (2, 1, false) := by
  have v : ∀ c < 16, ∃ neg m e, codeVal .f4e2 c = .fin neg m e ∧ m ≤ 3 ∧ e ≤ 1 ∨ codeVal .f4e2 c = .nan false := by
    intro c hc
    interval_cases c <;> first | exact ⟨_, _, _, .inl ⟨rfl, by decide, by decide⟩⟩ | exact ⟨false, 0, 0, .inr rfl⟩
  have t : magOf (codeVal .f4e2 7) = 6 := by
    rw [show codeVal .f4e2 7 = .fin false 3 1 by decide]; norm_num [magOf]
  refine ⟨fun c _ => ?_, trivial, rfl, t, by decide, by decide⟩
  rw [f4_mod, t]
  obtain ⟨neg, m, e, ⟨h, hm, he⟩ | h⟩ := v (c % 16) (Nat.mod_lt _ (by decide)) <;> rw [h] <;> simp only [magOf]
  · calc (m : ℚ) * 2 ^ e ≤ 3 * 2 ^ (1 : Int) :=
          mul_le_mul (by exact_mod_cast hm) (zpow_le_zpow_right₀ (by norm_num) he) (by positivity) (by norm_num)
      _ = 6 := by norm_num
  · norm_num

/-- MaxMinFollowIeee: −0 and +0, −∞ and a number, a NaN. -/
theorem test_witness_max : (valMax (.fin true 0 0) (.fin false 0 0)).1 = .fin false 0 0 ∧
    (valMin (.inf true) (.fin false 1 0)).1 = .inf true ∧ valMax (.nan true) (.fin false 1 0) = (.nan false, flInvalid ||| flSnan) := by
  decide

/-! ## Values that the spec works out -/

/-- The worked conversions to F8E4 of 0.30078125 and of its negative. -/
theorem test_f8e4 : (∀ p ∈ [(RMode.rne, 0, 0x2A, 0xAA), (.rtz, 0, 0x29, 0xA9), (.ru, 0, 0x2A, 0xA9), (.rd, 0, 0x29, 0xAA),
      (.sr, 0x5A3C, 0x29, 0xA9), (.sr, 0x9000, 0x2A, 0xAA)],
      convTo .f8e4 p.1 false false p.2.1 (.fin false 77 (-8)) = (p.2.2.1, flInexact) ∧
      convTo .f8e4 p.1 false false p.2.1 (.fin true 77 (-8)) = (p.2.2.2, flInexact)) ∧
    (convTo .f8e4 .rne false false 0 (.fin false 500 0)).1 = 0x7F ∧
    (convTo .f8e4 .rne true false 0 (.fin false 500 0)).1 = 0x80 := by decide +kernel

/-- The schedule of R357's example. -/
theorem test_sched : ∀ p ∈ [(1000, 0x39800000), (14000, 0x39DCDA52), (50000, 0x38000000), (90000, 0x38000000)],
    schedValue ⟨2, false, 2000, 48000, 0, 0x3A000000, 0x38000000, 0, 0, false⟩ p.1 = p.2 := by decide +kernel

end Sys2Proof.Tests
end

/-! PROOFS. What every command keeps: the canonical stores, the queue, the outputs and the free values. -/

namespace Sys2Proof.Machine

/-! ## The five commands that move the start-up state by themselves (R335, R417, R421) -/

theorem Keep.of_next {s : State} {o : Host.Outcome State Fault Refusal} (h : ∃ t, o = .next t ∧ Keep s t) :
    ∃ t, o = .next t ∧ Hold s t :=
  let ⟨t, e, k⟩ := h
  ⟨t, e, k.toHold⟩

theorem keptStratum_hold {s₀ s t : State} (h : Hold s₀ t) : Hold s₀ (keptStratum s t) :=
  h.trans (setFld_keep (setFld_keep (setFld_keep (Keep.rfl' t)))).toHold

theorem enterClamped_hold {s₀ s : State} (h : Hold s₀ s) : Hold s₀ (enterClamped s) := by
  unfold enterClamped
  split
  · exact h
  · extract_lets w pins slt t u
    have hw : Hold s₀ w := wiped_hold h
    have ht : Hold s₀ t := keptStratum_hold (hold_same (s := w) hw rfl rfl rfl rfl rfl rfl)
    clear_value t
    have hu : Hold s₀ u := hold_same (s := t) ht rfl rfl rfl rfl rfl rfl
    split
    · exact ⟨hu.regs, hu.mica, hu.queue, hu.out.trans (List.prefix_append _ _), hu.free⟩
    · exact hu

theorem execVddAonOn_hold {p : Pins} {s : State} : ∃ t, execVddAonOn p s = .next t ∧ Hold s t := by
  refine ⟨_, rfl, ?_⟩
  split
  · exact Hold.rfl' s
  · exact hold_same (wiped_hold (Hold.rfl' s)) rfl rfl rfl rfl rfl rfl

theorem execVddAonLoss_hold {s : State} : ∃ t, execVddAonLoss s = .next t ∧ Hold s t :=
  ⟨_, rfl, hold_same (wiped_hold (Hold.rfl' s)) rfl rfl rfl rfl rfl rfl⟩

theorem execPxRstNLow_hold {s : State} : ∃ t, execPxRstNLow s = .next t ∧ Hold s t :=
  ⟨_, rfl, enterClamped_hold (Hold.rfl' s)⟩

theorem execPgoodLoss_hold {m : Bool} {s : State} : ∃ t, execPgoodLoss m s = .next t ∧ Hold s t := by
  refine ⟨_, rfl, ?_⟩
  have hc : Hold s (enterClamped s) := enterClamped_hold (Hold.rfl' s)
  split
  · exact Hold.rfl' s
  · dsimp only
    split
    · exact hold_clear hc rfl rfl rfl rfl rfl rfl
    · exact hold_same hc rfl rfl rfl rfl rfl rfl

theorem execPxRstNHigh_hold {s : State} : ∃ t, execPxRstNHigh s = .next t ∧ Hold s t := by
  refine ⟨_, rfl, ?_⟩
  split
  · exact Hold.rfl' s
  · exact hold_clear (Hold.rfl' s) rfl rfl rfl rfl rfl rfl

/-! ## Every command -/

/-- A command answers a next state, which keeps the stores' form and the queue, and only adds outputs. -/
theorem exec_holds (c : Instr) (s : State) : ∃ t, exec c s = .next t ∧ Hold s t := by
  have h : Keep s s := Keep.rfl' s
  cases c with
  | nop _ => exact Keep.of_next (execNop_keep h)
  | tile _ _ => exact Keep.of_next (execTile_keep h)
  | sptile _ _ => exact Keep.of_next (execSptile_keep h)
  | wload _ => exact Keep.of_next (execWload_keep h)
  | elemwise _ _ => exact Keep.of_next (execElemwise_keep h)
  | streamArm _ => exact Keep.of_next (execStreamArm_keep h)
  | streamRearm _ => exact Keep.of_next (execStreamRearm_keep h)
  | semPost _ => exact Keep.of_next (execSemPost_keep h)
  | semWait _ => exact Keep.of_next (execSemWait_keep h)
  | mark _ => exact Keep.of_next (execMark_keep h)
  | barrier _ => exact Keep.of_next (execBarrier_keep h)
  | yieldCmd _ => exact Keep.of_next (execYield_keep h)
  | scaleCommit _ => exact Keep.of_next (execScaleCommit_keep h)
  | gradEmit _ _ => exact Keep.of_next (execGradEmit_keep h)
  | saveState _ => exact Keep.of_next (execSaveState_keep h)
  | restoreState _ => exact Keep.of_next (execRestoreState_keep h)
  | calibrate _ => exact Keep.of_next (execCalibrate_keep h)
  | cleave _ => exact Keep.of_next (execCleave_keep h)
  | veinFetch _ _ _ => exact Keep.of_next (execVeinFetch_keep h)
  | doorbell _ _ => exact Keep.of_next (execDoorbell_keep h)
  | doorbellPoll _ _ => exact Keep.of_next (execDoorbellPoll_keep h)
  | resumeNext _ => exact Keep.of_next (execResumeNext_keep h)
  | resumeRetry _ _ => exact Keep.of_next (execResumeRetry_keep h)
  | reset _ => exact Keep.of_next (execReset_keep h)
  | yieldExpiry _ => exact Keep.of_next (execYieldExpiry_keep h)
  | fillerUnblock => exact Keep.of_next (execFillerUnblock_keep h)
  | bubbleEnd => exact Keep.of_next (execBubbleEnd_keep h)
  | tileEntry _ => exact Keep.of_next (execTileEntry_keep h)
  | laneItemEnd _ _ => exact Keep.of_next (execLaneItemEnd_keep h)
  | rowDrain _ _ _ => exact Keep.of_next (execRowDrain_keep h)
  | ladderStepEnd _ _ _ => exact Keep.of_next (execLadderStepEnd_keep h)
  | strikeWindowEnd _ _ => exact Keep.of_next (execStrikeWindowEnd_keep h)
  | commandComplete _ _ => exact Keep.of_next (execCommandComplete_keep h)
  | frameDoneToken => exact Keep.of_next (execFrameDoneToken_keep h)
  | streamEngineTransfer _ => exact Keep.of_next (execStreamEngineTransfer_keep h)
  | deepReadResponse _ _ _ => exact Keep.of_next (execDeepReadResponse_keep h)
  | deepWriteResponse _ _ _ => exact Keep.of_next (execDeepWriteResponse_keep h)
  | mcParcelSend _ => exact Keep.of_next (execMcParcelSend_keep h)
  | mcCreditGrant _ => exact Keep.of_next (execMcCreditGrant_keep h)
  | mcStall _ _ => exact Keep.of_next (execMcStall_keep h)
  | mcdata _ _ _ => exact Keep.of_next (execMcdata_keep h)
  | mccred _ _ _ _ => exact Keep.of_next (execMccred_keep h)
  | post _ _ _ _ _ _ => exact Keep.of_next (execPost_keep h)
  | semTimeout _ => exact Keep.of_next (execSemTimeout_keep h)
  | write _ _ _ => exact Keep.of_next (execWrite_keep h)
  | wack _ _ => exact Keep.of_next (execWack_keep h)
  | wnak _ _ => exact Keep.of_next (execWnak_keep h)
  | routedForward _ => exact Keep.of_next (execRoutedForward_keep h)
  | beatReceive _ _ => exact Keep.of_next (execBeatReceive_keep h)
  | linkctl _ _ _ _ => exact Keep.of_next (execLinkctl_keep h)
  | linkDetect _ _ _ => exact Keep.of_next (execLinkDetect_keep h)
  | linkLoss _ => exact Keep.of_next (execLinkLoss_keep h)
  | capabilityWord _ _ => exact Keep.of_next (execCapabilityWord_keep h)
  | modeWord _ _ => exact Keep.of_next (execModeWord_keep h)
  | trainingTimeout _ => exact Keep.of_next (execTrainingTimeout_keep h)
  | retrain _ => exact Keep.of_next (execRetrain_keep h)
  | disable _ => exact Keep.of_next (execDisable_keep h)
  | syncSend => exact Keep.of_next (execSyncSend_keep h)
  | sync _ src _ _ _ _ _ => exact Keep.of_next (execSync_keep (src := src) h)
  | dreq _ src _ => exact Keep.of_next (execDreq_keep (src := src) h)
  | dresp _ src _ _ => exact Keep.of_next (execDresp_keep (src := src) h)
  | syncLoss => exact Keep.of_next (execSyncLoss_keep h)
  | tickAnnounce => exact Keep.of_next (execTickAnnounce_keep h)
  | tick _ _ _ _ _ => exact Keep.of_next (execTick_keep h)
  | hold _ _ _ _ => exact Keep.of_next (execHold_keep h)
  | tickFire _ => exact Keep.of_next (execTickFire_keep h)
  | gridMiss => exact Keep.of_next (execGridMiss_keep h)
  | takeover _ src _ _ frame => exact Keep.of_next (execTakeover_keep (src := src) (frame := frame) h)
  | token _ src _ _ _ _ => exact Keep.of_next (execToken_keep (src := src) h)
  | tokenTimeout _ => exact Keep.of_next (execTokenTimeout_keep h)
  | ready _ _ => exact Keep.of_next (execReady_keep h)
  | readyTimeout _ => exact Keep.of_next (execReadyTimeout_keep h)
  | tickIn => exact Keep.of_next (execTickIn_keep h)
  | discPps => exact Keep.of_next (execDiscPps_keep h)
  | ppsLost => exact Keep.of_next (execPpsLost_keep h)
  | timeReq => exact Keep.of_next (execTimeReq_keep h)
  | timeReqFall => exact Keep.of_next (execTimeReqFall_keep h)
  | timeStep _ => exact Keep.of_next (execTimeStep_keep h)
  | vackWatchStart => exact Keep.of_next (execVackWatchStart_keep h)
  | vackRise => exact Keep.of_next (execVackRise_keep h)
  | vackTimeout => exact Keep.of_next (execVackTimeout_keep h)
  | oppSlewDone => exact Keep.of_next (execOppSlewDone_keep h)
  | sensorSample _ => exact Keep.of_next (execSensorSample_keep h)
  | thermalStepdown => exact Keep.of_next (execThermalStepdown_keep h)
  | thermalStepup => exact Keep.of_next (execThermalStepup_keep h)
  | droopTrip _ => exact Keep.of_next (execDroopTrip_keep h)
  | droopEnd => exact Keep.of_next (execDroopEnd_keep h)
  | keeperLimit _ => exact Keep.of_next (execKeeperLimit_keep h)
  | rampDownDone _ => exact Keep.of_next (execRampDownDone_keep h)
  | switchOpen _ => exact Keep.of_next (execSwitchOpen_keep h)
  | switchCloseDone _ => exact Keep.of_next (execSwitchCloseDone_keep h)
  | rampUpDone _ => exact Keep.of_next (execRampUpDone_keep h)
  | preRamp => exact Keep.of_next (execPreRamp_keep h)
  | preRampTimeout => exact Keep.of_next (execPreRampTimeout_keep h)
  | autocalStart _ => exact Keep.of_next (execAutocalStart_keep h)
  | autocalDone _ => exact Keep.of_next (execAutocalDone_keep h)
  | patrolScrub _ => exact Keep.of_next (execPatrolScrub_keep h)
  | bankCopyDone _ => exact Keep.of_next (execBankCopyDone_keep h)
  | cleaveFenceDone _ => exact Keep.of_next (execCleaveFenceDone_keep h)
  | cleaveReturnDone _ _ => exact Keep.of_next (execCleaveReturnDone_keep h)
  | ucodePar _ => exact Keep.of_next (execUcodePar_keep h)
  | ctrlPar => exact Keep.of_next (execCtrlPar_keep h)
  | pllLock => exact Keep.of_next (execPllLock_keep h)
  | evacuate _ => exact Keep.of_next (execEvacuate_keep h)
  | evacImageWrite => exact Keep.of_next (execEvacImageWrite_keep h)
  | updCreditGrant _ => exact Keep.of_next (execUpdCreditGrant_keep h)
  | updErr => exact Keep.of_next (execUpdErr_keep h)
  | gradRecordSend _ => exact Keep.of_next (execGradRecordSend_keep h)
  | pgtSnapshot => exact Keep.of_next (execPgtSnapshot_keep h)
  | pgtCommit _ => exact Keep.of_next (execPgtCommit_keep h)
  | schedEvaluate _ => exact Keep.of_next (execSchedEvaluate_keep h)
  | dbgMicaRead _ => exact Keep.of_next (execDbgMicaRead_keep h)
  | dbgMicaReadDone => exact Keep.of_next (execDbgMicaReadDone_keep h)
  | traceEnable _ => exact Keep.of_next (execTraceEnable_keep h)
  | traceRecord => exact Keep.of_next (execTraceRecord_keep h)
  | traceDrop => exact Keep.of_next (execTraceDrop_keep h)
  | injectorArm _ _ => exact Keep.of_next (execInjectorArm_keep h)
  | registerWrite _ _ => exact Keep.of_next (execRegisterWrite_keep h)
  | badAccess _ _ _ value => exact Keep.of_next (execBadAccess_keep (value := value) h)
  | vddAonOn _ => exact execVddAonOn_hold
  | pxRstNLow => exact execPxRstNLow_hold
  | pxRstNHigh => exact execPxRstNHigh_hold
  | pgoodLoss _ => exact execPgoodLoss_hold
  | resetDone _ => exact Keep.of_next (execResetDone_keep h)
  | flashReadDone _ => exact Keep.of_next (execFlashReadDone_keep h)
  | slateCheckDone => exact Keep.of_next (execSlateCheckDone_keep h)
  | selftestDone _ => exact Keep.of_next (execSelftestDone_keep h)
  | enum _ => exact Keep.of_next (execEnum_keep h)
  | image _ => exact Keep.of_next (execImage_keep h)
  | bcastChain _ => exact Keep.of_next (execBcastChain_keep h)
  | bcastCand _ => exact Keep.of_next (execBcastCand_keep h)
  | bcastPhase _ => exact Keep.of_next (execBcastPhase_keep h)
  | bcastReload _ => exact Keep.of_next (execBcastReload_keep h)
  | pollElig _ => exact Keep.of_next (execPollElig_keep h)
  | pollState _ => exact Keep.of_next (execPollState_keep h)
  | pollAlive _ => exact Keep.of_next (execPollAlive_keep h)
  | strataReturn _ => exact Keep.of_next (execStrataReturn_keep h)
  | strataReturnTimeout => exact Keep.of_next (execStrataReturnTimeout_keep h)
  | headPoll => exact Keep.of_next (execHeadPoll_keep h)
  | phaseTimeout => exact Keep.of_next (execPhaseTimeout_keep h)
  | enumRequest => exact Keep.of_next (execEnumRequest_keep h)
  | slateReload => exact Keep.of_next (execSlateReload_keep h)
  | testHoldRise => exact Keep.of_next (execTestHoldRise_keep h)
  | testHoldFall => exact Keep.of_next (execTestHoldFall_keep h)
  | wirUpdate _ => exact Keep.of_next (execWirUpdate_keep h)
  | ijtagAccess _ _ _ => exact Keep.of_next (execIjtagAccess_keep h)
  | vddAonLoss => exact execVddAonLoss_hold
  | overspend _ => exact Keep.of_next (execOverspend_keep h)
  | gridSlip => exact Keep.of_next (execGridSlip_keep h)
  | exactCaptureDone => exact Keep.of_next (execExactCaptureDone_keep h)
  | schedValueReady => exact Keep.of_next (execSchedValueReady_keep h)
  | strataBadlen _ => exact Keep.of_next (execStrataBadlen_keep h)

/-- A step keeps the canonical form of the stores. -/
theorem step_keeps_stores {s t : State} (e : step s = .next t) :
    (mapWf regReset s.regs = true → mapWf regReset t.regs = true) ∧ (Memory.wf s = true → Memory.wf t = true) := by
  unfold step at e
  split at e
  case h_1 =>
    cases e
    have k : Keep s (idleClock s) := idleClock_keep (Keep.rfl' s)
    exact ⟨k.regs, k.mica⟩
  case h_2 c cs _ =>
    obtain ⟨u, eu, hu⟩ := exec_holds c { s with pending := cs }
    cases eu.symm.trans e
    exact ⟨hu.regs, hu.mica⟩

end Sys2Proof.Machine

namespace Sys2Proof.Proofs

open Sys2Proof.Machine

/-- Settles O1: the queue's front is what step takes. -/
theorem stepRunsFront : Obligations.StepRunsFront := fun _ _ _ => rfl

/-- Settles O3: a clock of the idle block and every command keep the form of the stores. -/
theorem stepKeepsSound : Obligations.StepKeepsSound := by
  intro s t hs e
  obtain ⟨hregs, hmica⟩ := step_keeps_stores e
  exact ⟨hregs hs.1, hmica hs.2⟩

/-- Settles O4, from what every command keeps. -/
theorem commandsKeepQueueAndOutputs : Obligations.CommandsKeepQueueAndOutputs := by
  intro c s
  obtain ⟨t, e, h⟩ := exec_holds c s
  exact ⟨t, e, h.queue, h.out, h.free⟩

end Sys2Proof.Proofs

/-! PROOFS. Writes at the register port (R7, R392 to R401): what a write that takes effect leaves in its register, the
record of a refused access, and the registers whose writes have an effect of their own. -/

namespace Sys2Proof.Machine

/-! ## The record of an access (R395) -/

/-- PX_ID_GSTAT and PX_ID_BADADDR show an access: BADACC, and its direction, reason and address. -/
def RecordsAccess (n : Nat) (t : State) (w : Bool) (reason : Nat) : Prop :=
  flag t Reg.idGstat Fl.idGstat_BADACC = true ∧ flag t Reg.idBadaddr Fl.idBadaddr_WRITE = w ∧
    fld t Reg.idBadaddr Fl.idBadaddr_REASON = reason ∧ fld t Reg.idBadaddr Fl.idBadaddr_ADDR = n

theorem flag_setFlag_self (s : State) (a : Nat) (f : Field) (b : Bool) (h : f.lo + f.width ≤ 64) (hw : 0 < f.width) :
    flag (setFlag s a f b) a f = b := by
  unfold flag setFlag
  rw [fld_setFld_self s a f _ h]
  cases b
  · simp [b2n]
  · have : 1 < 2 ^ f.width := Nat.one_lt_two_pow (by omega)
    simp [b2n, Nat.mod_eq_of_lt this]

/-- From s to t nothing but registers has changed. -/
def RegsOnly (s t : State) : Prop := { t with regs := s.regs } = s

theorem RegsOnly.rfl' (s : State) : RegsOnly s s := rfl
theorem RegsOnly.wr {s t : State} (h : RegsOnly s t) (a : Nat) (v : W64) : RegsOnly s (wr t a v) := h
theorem RegsOnly.setFld {s t : State} (h : RegsOnly s t) (a : Nat) (f : Field) (v : Nat) : RegsOnly s (setFld t a f v) := h
theorem RegsOnly.setFlag {s t : State} (h : RegsOnly s t) (a : Nat) (f : Field) (b : Bool) : RegsOnly s (setFlag t a f b) := h

theorem RegsOnly.badAccess {s t : State} (h : RegsOnly s t) (n : Nat) (w : Bool) (k : Nat) :
    RegsOnly s (badAccess t n w k) :=
  (((h.setFlag _ _ _).setFlag _ _ _).setFld _ _ _).setFld _ _ _

theorem rd_badAccess_ne {s : State} {n b : Nat} {w : Bool} {k : Nat} (hg : b ≠ Reg.idGstat) (hb : b ≠ Reg.idBadaddr) :
    rd (badAccess s n w k) b = rd s b := by
  unfold badAccess
  rw [rd_setFld_ne _ _ _ hb.symm, rd_setFld_ne _ _ _ hb.symm]
  exact (rd_setFld_ne _ _ _ hb.symm).trans (rd_setFld_ne _ _ _ hg.symm)

theorem badAccess_records {s : State} {n : Nat} {w : Bool} {k : Nat} (hn : n < 2 ^ 20) (hk : k < 4) :
    RecordsAccess n (badAccess s n w k) w k := by
  unfold badAccess
  refine ⟨?_, ?_, ?_, ?_⟩
  · have ne : Reg.idBadaddr ≠ Reg.idGstat := by decide
    unfold flag
    rw [fld_setFld_ne _ _ _ _ ne, fld_setFld_ne _ _ _ _ ne, setFlag, fld_setFld_ne _ _ _ _ ne]
    exact flag_setFlag_self s _ _ true (by decide) (by decide)
  · unfold flag
    rw [fld_setFld_other _ _ _ _ _ (by decide) (by decide), fld_setFld_other _ _ _ _ _ (by decide) (by decide)]
    exact flag_setFlag_self _ _ _ w (by decide) (by decide)
  · rw [fld_setFld_other _ _ _ _ _ (by decide) (by decide), fld_setFld_self _ _ _ _ (by decide)]
    exact Nat.mod_eq_of_lt hk
  · rw [fld_setFld_self _ _ _ _ (by decide)]
    exact Nat.mod_eq_of_lt hn

/-- Nothing but the record of the access changes. -/
theorem badAccess_noted {s : State} {n : Nat} {w : Bool} {k : Nat} (hn : n < 2 ^ 20) (hk : k < 4) :
    RegsOnly s (badAccess s n w k) ∧
      (∀ b, b ≠ Reg.idGstat → b ≠ Reg.idBadaddr → rd (badAccess s n w k) b = rd s b) ∧
      RecordsAccess n (badAccess s n w k) w k :=
  ⟨(RegsOnly.rfl' s).badAccess n w k, fun _ hg hb => rd_badAccess_ne hg hb, badAccess_records hn hk⟩

theorem refusal_lt {s : State} {n : Nat} {r : RegRow} {w : Bool} {k : Nat} (h : refusal s n r w = some k) : k < 4 := by
  unfold refusal at h
  repeat' split at h
  all_goals simp_all <;> omega

/-! ## The register after a write (R7, R400, R401) -/

theorem regTable_masks : ∀ r ∈ regTable, r.rw < 2 ^ 64 ∧ r.rwl < 2 ^ 64 := by decide +kernel

/-- The bits of a register that a write sets. -/
def writeMask (s : State) (a : Nat) (r : RegRow) : Nat :=
  let m := if s.su == .safe then 0 else r.rw ||| (if s.locked then 0 else r.rwl)
  if regLocked s then m &&& freeMask a else m

theorem writeMask_lt {s : State} {a : Nat} {r : RegRow} (hr : r ∈ regTable) : writeMask s a r < 2 ^ 64 := by
  obtain ⟨hrw, hrwl⟩ := regTable_masks r hr
  have hm : (if s.su == .safe then 0 else r.rw ||| (if s.locked then 0 else r.rwl)) < 2 ^ 64 := by
    split
    · decide
    · refine Nat.or_lt_two_pow hrw ?_
      split
      · decide
      · exact hrwl
  unfold writeMask
  dsimp only
  split
  · exact Nat.lt_of_le_of_lt Nat.and_le_left hm
  · exact hm

theorem testBit_writeMask {s : State} {a : Nat} {r : RegRow} {i : Nat} :
    (writeMask s a r).testBit i = true ↔ (r.rw.testBit i = true ∨ (s.locked = false ∧ r.rwl.testBit i = true)) ∧
      s.su ≠ .safe ∧ (regLocked s = true → (freeMask a).testBit i = true) := by
  unfold writeMask
  by_cases hs : s.su = .safe <;> cases hl : s.locked <;> cases hg : regLocked s <;> simp [hs]

theorem testBit_and_compl {x m i : Nat} (hm : m < 2 ^ 64) (hi : i < 64) :
    (x &&& (2 ^ 64 - 1 - m)).testBit i = (x.testBit i && !m.testBit i) := by
  rw [Nat.testBit_and, show 2 ^ 64 - 1 - m = 2 ^ 64 - (m + 1) by omega, Nat.testBit_two_pow_sub_succ hm]
  simp [hi]

theorem testBit_written {s : State} {a : Nat} {r : RegRow} {v i : Nat} (hr : r ∈ regTable) (hv : v < 2 ^ 64) (hi : i < 64) :
    (written s a r v).testBit i = if r.w1c.testBit i ∧ v.testBit i then false
      else if (r.rw.testBit i = true ∨ (s.locked = false ∧ r.rwl.testBit i = true)) ∧ s.su ≠ .safe ∧
        (regLocked s = true → (freeMask a).testBit i = true) then v.testBit i
      else (rd s a).toNat.testBit i := by
  have e : written s a r v = (((rd s a).toNat &&& (2 ^ 64 - 1 - writeMask s a r)) ||| (v &&& writeMask s a r)) &&&
      (2 ^ 64 - 1 - (v &&& r.w1c)) := rfl
  have hc : v &&& r.w1c < 2 ^ 64 := Nat.lt_of_le_of_lt Nat.and_le_left hv
  rw [e, testBit_and_compl hc hi, Nat.testBit_or, testBit_and_compl (writeMask_lt hr) hi, Nat.testBit_and, Nat.testBit_and]
  simp only [← testBit_writeMask]
  cases (writeMask s a r).testBit i <;> cases r.w1c.testBit i <;> cases v.testBit i <;> simp

/-- The register at n holds after a write of v what R7, R400 and R401 say. -/
def WroteReg (s t : State) (n : Nat) (r : RegRow) (v : W64) : Prop :=
  ∀ i < 64, (rd t n).toNat.testBit i =
    if r.w1c.testBit i ∧ v.toNat.testBit i then false
    else if (r.rw.testBit i = true ∨ (s.locked = false ∧ r.rwl.testBit i = true)) ∧ s.su ≠ .safe ∧
      (regLocked s = true → (freeMask n).testBit i = true) then v.toNat.testBit i
    else (rd s n).toNat.testBit i

/-- Only the register at n has changed. -/
def OnlyReg (s t : State) (n : Nat) : Prop := RegsOnly s t ∧ ∀ b, b ≠ n → rd t b = rd s b

/-- The register takes the bits of a write. -/
def putReg (s : State) (a : Nat) (r : RegRow) (v : Nat) : State := wr s a (BitVec.ofNat 64 (written s a r v))

theorem putReg_only (s : State) (a : Nat) (r : RegRow) (v : Nat) : OnlyReg s (putReg s a r v) a :=
  ⟨rfl, fun _ h => rd_wr_ne _ _ h.symm⟩

theorem putReg_wrote {s : State} {a : Nat} {r : RegRow} (v : W64) (hr : regRow a = some r) :
    WroteReg s (putReg s a r v.toNat) a r v := by
  intro i hi
  unfold putReg
  rw [rd_wr_self, BitVec.toNat_ofNat, Nat.testBit_mod_two_pow, testBit_written (List.mem_of_find?_eq_some hr) v.isLt hi]
  simp [hi]

/-- What a write says of its register depends on the state after it through that register alone. -/
theorem WroteReg.congr {s t u : State} {n : Nat} {r : RegRow} {v : W64} (h : WroteReg s t n r v) (e : rd u n = rd t n) :
    WroteReg s u n r v := by
  intro i hi
  rw [e]
  exact h i hi

/-! ## Registers whose writes have an effect of their own -/

theorem find_range_none {n : Nat} {p : Nat → Bool} (h : ∀ k < n, p k = false) : (List.range n).find? p = none := by
  rw [List.find?_eq_none]
  intro k hk
  simp [h k (List.mem_range.mp hk)]

theorem any_range_false {n : Nat} {p : Nat → Bool} (h : ∀ k < n, p k = false) : (List.range n).any p = false := by
  rw [List.any_eq_false]
  intro k hk
  simp [h k (List.mem_range.mp hk)]

/-- The entry of a row of registers that an address names. -/
theorem find_range_some {n k : Nat} {p : Nat → Bool} (hk : k < n) (hp : p k = true) (h : ∀ j < n, p j = true → j = k) :
    (List.range n).find? p = some k := by
  cases e : (List.range n).find? p with
  | none => exact absurd hp (by simpa using List.find?_eq_none.mp e k (List.mem_range.mpr hk))
  | some j => rw [h j (List.mem_range.mp (List.mem_of_find?_eq_some e)) (List.find?_some e)]

section
variable {s : State} {a : Nat} {r : RegRow} {v : Nat}

/-- No register of an injector's W1 or W2, or none that is armed. -/
def injOpen (s : State) (a : Nat) : Prop := ∀ k < 8, a = Reg.fltInjW1 k ∨ a = Reg.fltInjW2 k → injArmed s k = false

theorem injOpen_any (h : injOpen s a) :
    (List.range 8).any (fun n => (a == Reg.fltInjW1 n || a == Reg.fltInjW2 n) && injArmed s n) = false := by
  refine any_range_false fun k hk => ?_
  cases e : a == Reg.fltInjW1 k || a == Reg.fltInjW2 k
  · rfl
  · exact h k hk (by simpa using e)

theorem writeReg_plain (hp : ∀ k < 3, a ≠ Reg.numPgtData k) (ht : ∀ k < 4, a ≠ Reg.tchSpare k) (hi : injOpen s a)
    (hb : a = Reg.dbgTraceBase → flag s Reg.dbgTraceCfg Fl.dbgTraceCfg_ENABLE = false) (hc : a ≠ Reg.crnCtrl)
    (hn : ∀ k < 4, a = Reg.numNanW0 k → bit v 63 = false) : writeReg s a r v = putReg s a r v := by
  have trace : (a == Reg.dbgTraceBase && flag s Reg.dbgTraceCfg Fl.dbgTraceCfg_ENABLE) = false := by
    cases e : a == Reg.dbgTraceBase
    · rfl
    · exact hb (by simpa using e)
  have nan : (List.range 4).find? (fun k => a == Reg.numNanW0 k && bit v 63) = none := by
    refine find_range_none fun k hk => ?_
    cases e : a == Reg.numNanW0 k
    · rfl
    · exact hn k hk (by simpa using e)
  unfold writeReg
  rw [find_range_none (fun k hk => beq_false_of_ne (hp k hk)), find_range_none (fun k hk => beq_false_of_ne (ht k hk))]
  dsimp only
  have any := injOpen_any hi
  unfold injArmed at any
  rw [any, trace, beq_false_of_ne hc, nan]
  rfl

theorem writeReg_crnCtrl : writeReg s Reg.crnCtrl r v = showEligible (putReg s Reg.crnCtrl r v) := rfl

theorem writeReg_tchSpare {k : Nat} (hk : k < 4) (hs : s.su ≠ .safe) :
    writeReg s (Reg.tchSpare k) r v = if s.locked && !(arr s k).fenced then setFlag s Reg.tchStat Fl.tchStat_BADWR true
      else putReg s (Reg.tchSpare k) r v := by
  have pgt : ∀ j < 3, Reg.tchSpare k ≠ Reg.numPgtData j := fun j _ => by unfold Reg.tchSpare Reg.numPgtData; omega
  have own : ∀ j < 4, (Reg.tchSpare k == Reg.tchSpare j) = true → j = k := fun j _ e => by
    have := beq_iff_eq.mp e
    unfold Reg.tchSpare at this
    omega
  unfold writeReg
  rw [find_range_none (fun j hj => beq_false_of_ne (pgt j hj)), find_range_some (p := fun j => Reg.tchSpare k == Reg.tchSpare j) hk (beq_self_eq_true _) own]
  dsimp only
  rw [if_neg (by simpa using hs)]
  rfl

/-- W1 and W2 of an armed injector ignore a write (R390). -/
theorem writeReg_injArmed {k : Nat} (hk : k < 8) (ha : a = Reg.fltInjW1 k ∨ a = Reg.fltInjW2 k) (h : injArmed s k = true) :
    writeReg s a r v = s := by
  have pgt : ∀ j < 3, a ≠ Reg.numPgtData j := fun j _ => by
    unfold Reg.fltInjW1 Reg.fltInjW2 at ha; unfold Reg.numPgtData; omega
  have tch : ∀ j < 4, a ≠ Reg.tchSpare j := fun j _ => by
    unfold Reg.fltInjW1 Reg.fltInjW2 at ha; unfold Reg.tchSpare; omega
  have any : (List.range 8).any (fun n => (a == Reg.fltInjW1 n || a == Reg.fltInjW2 n) &&
      flag s (Reg.fltInjW0 n) Fl.fltInjW0_ARMED) = true := by
    rw [List.any_eq_true]
    refine ⟨k, List.mem_range.mpr hk, ?_⟩
    rw [Bool.and_eq_true]
    exact ⟨by simpa using ha, h⟩
  unfold writeReg
  rw [find_range_none (fun j hj => beq_false_of_ne (pgt j hj)), find_range_none (fun j hj => beq_false_of_ne (tch j hj))]
  dsimp only
  rw [any]
  rfl

theorem writeReg_injIdle {k : Nat} (hk : k < 8) (ha : a = Reg.fltInjW1 k ∨ a = Reg.fltInjW2 k)
    (h : injArmed s k = false) : writeReg s a r v = putReg s a r v := by
  unfold Reg.fltInjW1 Reg.fltInjW2 at ha
  refine writeReg_plain (fun j _ => ?_) (fun j _ => ?_) (fun j _ e => ?_) (fun e => ?_) ?_ (fun j _ e => ?_)
  · unfold Reg.numPgtData; omega
  · unfold Reg.tchSpare; omega
  · have : j = k := by unfold Reg.fltInjW1 Reg.fltInjW2 at e; omega
    exact this ▸ h
  · unfold Reg.dbgTraceBase at e; omega
  · unfold Reg.crnCtrl; omega
  · unfold Reg.numNanW0 at e; omega

/-- PX_DBG_TRACE_BASE ignores a write while trace is on (R409). -/
theorem writeReg_traceOn (ha : a = Reg.dbgTraceBase) (h : flag s Reg.dbgTraceCfg Fl.dbgTraceCfg_ENABLE = true) :
    writeReg s a r v = s := by
  subst ha
  have e : writeReg s Reg.dbgTraceBase r v = if flag s Reg.dbgTraceCfg Fl.dbgTraceCfg_ENABLE then s
    else putReg s Reg.dbgTraceBase r v := rfl
  rw [e, h]
  rfl

theorem writeReg_traceOff (ha : a = Reg.dbgTraceBase) (h : flag s Reg.dbgTraceCfg Fl.dbgTraceCfg_ENABLE = false) :
    writeReg s a r v = putReg s a r v := by
  subst ha
  refine writeReg_plain (by decide) (by decide) (fun j _ e => ?_) (fun _ => h) (by decide) (fun j _ e => ?_)
  · unfold Reg.dbgTraceBase Reg.fltInjW1 Reg.fltInjW2 at e; omega
  · unfold Reg.dbgTraceBase Reg.numNanW0 at e; omega

/-- A write that clears VALID of a NaN trap clears its MORE too (R190). -/
theorem writeReg_nanValid {k : Nat} (hk : k < 4) (hv : bit v 63 = true) : writeReg s (Reg.numNanW0 k) r v =
    setFld (putReg s (Reg.numNanW0 k) r v) (Reg.numNanW2 k) Fl.numNanW2_MORE 0 := by
  have pgt : ∀ j < 3, Reg.numNanW0 k ≠ Reg.numPgtData j := fun j _ => by unfold Reg.numNanW0 Reg.numPgtData; omega
  have tch : ∀ j < 4, Reg.numNanW0 k ≠ Reg.tchSpare j := fun j _ => by unfold Reg.numNanW0 Reg.tchSpare; omega
  have inj : injOpen s (Reg.numNanW0 k) := fun j _ e => by unfold Reg.numNanW0 Reg.fltInjW1 Reg.fltInjW2 at e; omega
  have trace : Reg.numNanW0 k ≠ Reg.dbgTraceBase := by unfold Reg.numNanW0 Reg.dbgTraceBase; omega
  have ctrl : Reg.numNanW0 k ≠ Reg.crnCtrl := by unfold Reg.numNanW0 Reg.crnCtrl; omega
  have own : ∀ j < 4, (Reg.numNanW0 k == Reg.numNanW0 j && bit v 63) = true → j = k := fun j _ e => by
    have := beq_iff_eq.mp (Bool.and_eq_true _ _ ▸ e).1
    unfold Reg.numNanW0 at this
    omega
  have any := injOpen_any inj
  unfold injArmed at any
  unfold writeReg
  rw [find_range_none (fun j hj => beq_false_of_ne (pgt j hj)), find_range_none (fun j hj => beq_false_of_ne (tch j hj))]
  dsimp only
  rw [any, beq_false_of_ne trace, beq_false_of_ne ctrl, find_range_some hk (by simp [hv]) own]
  rfl

end

theorem bit_eq_testBit (x i : Nat) : bit x i = x.testBit i := by
  unfold bit
  rw [Nat.testBit_eq_decide_div_mod_eq, Nat.shiftRight_eq_div_pow]
  rfl

theorem ownRow_tchSpare : ∀ k < 4, ownRow (Reg.tchSpare k) = false := by decide +kernel

theorem numNanW0_validClears {k : Nat} {r : RegRow} (hk : k < 4) (h : regRow (Reg.numNanW0 k) = some r) :
    r.w1c.testBit 63 = true := by
  have all : ∀ k < 4, (regRow (Reg.numNanW0 k)).all (fun r => r.w1c.testBit 63) = true := by decide +kernel
  simpa [h] using all k hk

/-- Eligibility is a matter of the strap, the start-up state and PX_CRN_CTRL (R232). -/
theorem showEligible_shows (s : State) :
    flag (showEligible s) Reg.crnState Fl.crnState_ELIGIBLE = lodeEligible (showEligible s) := by
  have e : lodeEligible (showEligible s) = lodeEligible s := by
    have c : flag (showEligible s) Reg.crnCtrl Fl.crnCtrl_ELIG = flag s Reg.crnCtrl Fl.crnCtrl_ELIG := by
      unfold flag showEligible setFlag
      rw [fld_setFld_ne _ _ _ _ (by decide)]
    have strap : (showEligible s).strap = s.strap := setFlag_strap ..
    have su : (showEligible s).su = s.su := setFlag_su ..
    unfold lodeEligible
    rw [c, strap, su]
  rw [e]
  exact flag_setFlag_self s _ _ _ (by decide) (by decide)

/-! ## The two commands of the port -/

section
variable {s : State} {a : BitVec 20} {v : W64} {r : RegRow} (hs : s.su ≠ .off)
include hs

/-- A write that the port does not refuse. -/
theorem execRegisterWrite_takes (h8 : a.toNat % 8 = 0) (hr : regRow a.toNat = some r)
    (hf : refusal s a.toNat r true = none) (ho : ownRow a.toNat = false) :
    execRegisterWrite a v s = .next (if closedPart s a.toNat r && s.su != .safe
      then badAccess (writeReg s a.toNat r v.toNat) a.toNat true 2 else writeReg s a.toNat r v.toNat) := by
  unfold execRegisterWrite
  simp [hs, h8, hr, hf, ho]

/-- A write that it takes whole. -/
theorem execRegisterWrite_whole (h8 : a.toNat % 8 = 0) (hr : regRow a.toNat = some r)
    (hf : refusal s a.toNat r true = none) (ho : ownRow a.toNat = false)
    (hp : (closedPart s a.toNat r && s.su != .safe) = false) :
    execRegisterWrite a v s = .next (writeReg s a.toNat r v.toNat) := by
  rw [execRegisterWrite_takes hs h8 hr hf ho, hp]
  rfl

theorem execRegisterWrite_refused {k : Nat} (h8 : a.toNat % 8 = 0) (hr : regRow a.toNat = some r)
    (hf : refusal s a.toNat r true = some k) : execRegisterWrite a v s = .next (badAccess s a.toNat true k) := by
  unfold execRegisterWrite
  simp [hs, h8, hr, hf]

section
variable {w : Bool} {st : BitVec 8}

theorem execBadAccess_illFormed (h : a.toNat % 8 ≠ 0 ∨ (w = true ∧ st ≠ 0xFF)) :
    execBadAccess a w st v s = .next (badAccess s a.toNat w 1) := by
  have c : (a.toNat % 8 != 0 || (w && st != 0xFF)) = true := by simpa using h
  unfold execBadAccess
  simp only [c, if_true, beq_false_of_ne hs, Bool.false_eq_true, if_false]

theorem execBadAccess_unmapped (h8 : a.toNat % 8 = 0) (h : w = true → st = 0xFF) (hr : regRow a.toNat = none) :
    execBadAccess a w st v s = .next (badAccess s a.toNat w 0) := by
  have c : (a.toNat % 8 != 0 || (w && st != 0xFF)) = false := by simpa [h8] using h
  unfold execBadAccess
  simp only [c, beq_false_of_ne hs, Bool.false_eq_true, if_false, hr]

theorem execBadAccess_refused {k : Nat} (h8 : a.toNat % 8 = 0) (h : w = true → st = 0xFF) (hr : regRow a.toNat = some r)
    (hf : refusal s a.toNat r w = some k) : execBadAccess a w st v s = .next (badAccess s a.toNat w k) := by
  have c : (a.toNat % 8 != 0 || (w && st != 0xFF)) = false := by simpa [h8] using h
  unfold execBadAccess
  simp only [c, beq_false_of_ne hs, Bool.false_eq_true, if_false, hr, hf]

end

/-! ## What a write that takes effect leaves -/

section
variable (h8 : a.toNat % 8 = 0) (hr : regRow a.toNat = some r) (hf : refusal s a.toNat r true = none)
include h8 hr hf

/-- The register takes the write, and where REGLOCK closes some of its fields the access is recorded too (R400). -/
theorem registerWrite_puts (ho : ownRow a.toNat = false) (e : writeReg s a.toNat r v.toNat = putReg s a.toNat r v.toNat)
    (hg : (closedPart s a.toNat r && s.su != .safe) = true → a.toNat ≠ Reg.idGstat ∧ a.toNat ≠ Reg.idBadaddr) :
    ∃ t, execRegisterWrite a v s = .next t ∧ WroteReg s t a.toNat r v ∧
      ((closedPart s a.toNat r && s.su != .safe) = false → OnlyReg s t a.toNat) ∧
      ((closedPart s a.toNat r && s.su != .safe) = true → RegsOnly s t ∧ RecordsAccess a.toNat t true 2 ∧
        ∀ b, b ≠ a.toNat → b ≠ Reg.idGstat → b ≠ Reg.idBadaddr → rd t b = rd s b) := by
  refine ⟨_, execRegisterWrite_takes hs h8 hr hf ho, ?_⟩
  rw [e]
  obtain ⟨hregs, hrd⟩ := putReg_only s a.toNat r v.toNat
  cases hp : closedPart s a.toNat r && s.su != .safe with
  | false => exact ⟨putReg_wrote v hr, fun _ => ⟨hregs, hrd⟩, nofun⟩
  | true =>
    obtain ⟨hg₁, hg₂⟩ := hg hp
    refine ⟨(putReg_wrote v hr).congr (rd_badAccess_ne hg₁ hg₂), nofun, fun _ => ⟨RegsOnly.badAccess hregs _ _ _,
      badAccess_records a.isLt (by decide), fun b hb hb₁ hb₂ => ?_⟩⟩
    exact (rd_badAccess_ne hb₁ hb₂).trans (hrd b hb)

variable (hp : (closedPart s a.toNat r && s.su != .safe) = false)
include hp

theorem registerWrite_putsAlone (ho : ownRow a.toNat = false)
    (e : writeReg s a.toNat r v.toNat = putReg s a.toNat r v.toNat) :
    ∃ t, execRegisterWrite a v s = .next t ∧ WroteReg s t a.toNat r v ∧ OnlyReg s t a.toNat :=
  ⟨_, e ▸ execRegisterWrite_whole hs h8 hr hf ho hp, putReg_wrote v hr, putReg_only s a.toNat r v.toNat⟩

theorem registerWrite_crnCtrl (hn : a.toNat = Reg.crnCtrl) :
    ∃ t, execRegisterWrite a v s = .next t ∧ WroteReg s t a.toNat r v ∧ RegsOnly s t ∧
      flag t Reg.crnState Fl.crnState_ELIGIBLE = lodeEligible t ∧
      ∀ b, b ≠ a.toNat → b ≠ Reg.crnState → rd t b = rd s b := by
  have e : writeReg s a.toNat r v.toNat = showEligible (putReg s a.toNat r v.toNat) := by rw [hn]; exact writeReg_crnCtrl
  have ho : ownRow a.toNat = false := by rw [hn]; decide
  have ne : Reg.crnState ≠ a.toNat := by rw [hn]; decide
  obtain ⟨hregs, hrd⟩ := putReg_only s a.toNat r v.toNat
  refine ⟨_, (execRegisterWrite_whole hs h8 hr hf ho hp).trans (congrArg _ e), (putReg_wrote v hr).congr (rd_setFld_ne _ _ _ ne),
    RegsOnly.setFlag hregs _ _ _, showEligible_shows _, fun b hb hb' => ?_⟩
  exact (rd_setFld_ne _ _ _ hb'.symm).trans (hrd b hb)

/-- After the load the column map of an array in service ignores a write (R392). -/
theorem registerWrite_tchSpare_ignored {k : Nat} (hk : k < 4) (hn : a.toNat = Reg.tchSpare k) (hsafe : s.su ≠ .safe)
    (hl : s.locked = true) (hfn : (arr s k).fenced = false) :
    ∃ t, execRegisterWrite a v s = .next t ∧ RegsOnly s t ∧ flag t Reg.tchStat Fl.tchStat_BADWR = true ∧
      ∀ b, b ≠ Reg.tchStat → rd t b = rd s b := by
  have e : writeReg s a.toNat r v.toNat = setFlag s Reg.tchStat Fl.tchStat_BADWR true := by
    rw [hn, writeReg_tchSpare hk hsafe, hl, hfn]
    rfl
  have ho : ownRow a.toNat = false := hn ▸ ownRow_tchSpare k hk
  exact ⟨_, e ▸ execRegisterWrite_whole hs h8 hr hf ho hp, RegsOnly.setFlag (RegsOnly.rfl' s) _ _ _,
    flag_setFlag_self s _ _ true (by decide) (by decide), fun b hb => rd_setFld_ne _ _ _ hb.symm⟩

theorem registerWrite_tchSpare_taken {k : Nat} (hk : k < 4) (hn : a.toNat = Reg.tchSpare k) (hsafe : s.su ≠ .safe)
    (h : s.locked = false ∨ (arr s k).fenced = true) :
    ∃ t, execRegisterWrite a v s = .next t ∧ WroteReg s t a.toNat r v ∧ OnlyReg s t a.toNat := by
  have c : (s.locked && !(arr s k).fenced) = false := by
    rcases h with h | h <;> simp [h]
  have e : writeReg s a.toNat r v.toNat = putReg s a.toNat r v.toNat := by
    rw [hn, writeReg_tchSpare hk hsafe, c]
    rfl
  exact registerWrite_putsAlone hs h8 hr hf hp (hn ▸ ownRow_tchSpare k hk) e

theorem registerWrite_nanValid {k : Nat} (hk : k < 4) (hn : a.toNat = Reg.numNanW0 k) (hv : v.toNat.testBit 63 = true) :
    ∃ t, execRegisterWrite a v s = .next t ∧ RegsOnly s t ∧ (rd t a.toNat).toNat.testBit 63 = false ∧
      fld t (Reg.numNanW2 k) Fl.numNanW2_MORE = 0 ∧ ∀ b, b ≠ a.toNat → b ≠ Reg.numNanW2 k → rd t b = rd s b := by
  have e : writeReg s a.toNat r v.toNat = setFld (putReg s a.toNat r v.toNat) (Reg.numNanW2 k) Fl.numNanW2_MORE 0 := by
    rw [hn]
    exact writeReg_nanValid hk (by rw [bit_eq_testBit]; exact hv)
  have own : ∀ k < 4, ownRow (Reg.numNanW0 k) = false := by decide +kernel
  have ne : Reg.numNanW2 k ≠ a.toNat := by rw [hn]; unfold Reg.numNanW0 Reg.numNanW2; omega
  have clears : r.w1c.testBit 63 = true := numNanW0_validClears hk (hn ▸ hr)
  obtain ⟨hregs, hrd⟩ := putReg_only s a.toNat r v.toNat
  refine ⟨_, e ▸ execRegisterWrite_whole hs h8 hr hf (hn ▸ own k hk) hp, RegsOnly.setFld hregs _ _ _, ?_,
    fld_setFld_self _ _ _ _ (by decide), fun b hb hb' => (rd_setFld_ne _ _ _ hb'.symm).trans (hrd b hb)⟩
  rw [rd_setFld_ne _ _ _ ne, putReg_wrote v hr 63 (by decide), if_pos ⟨clears, hv⟩]

end
end

end Sys2Proof.Machine

namespace Sys2Proof.Proofs

open Sys2Proof.Machine

/-- Settles O46: the port's two commands, register by register with an effect of its own. -/
theorem registerWritesTakeEffect : Obligations.RegisterWritesTakeEffect := by
  intro s a v hs n plain record noted wrote takes part alone
  have hn : n < 2 ^ 20 := a.isLt
  have injRows : ∀ k < 8, ownRow (Reg.fltInjW1 k) = false ∧ ownRow (Reg.fltInjW2 k) = false := by decide +kernel
  refine ⟨?plain, ?ctrl, ?spare, ?inject, ?trace, ?nan, ?refused, fun w st => ⟨?illFormed, ?unmapped, ?refusedBad⟩⟩
  case plain =>
    rintro r ⟨h8, hr, hf⟩ ⟨ho, hc, hb, hd, ht, hi⟩ hg
    have pgt : ∀ k < 3, n ≠ Reg.numPgtData k := fun k hk => (hd k (by omega)).1
    have inj : injOpen s n := fun k hk h => absurd h (not_or.mpr (hi k hk))
    have nan : ∀ k < 4, n = Reg.numNanW0 k → bit v.toNat 63 = false := fun k hk h => by
      rw [bit_eq_testBit]
      exact (hd k hk).2 h
    exact registerWrite_puts hs h8 hr hf ho (writeReg_plain pgt ht inj (fun h => absurd h hb) hc nan) hg
  case ctrl =>
    rintro r ⟨h8, hr, hf⟩ e hp
    exact registerWrite_crnCtrl hs h8 hr hf hp e
  case spare =>
    rintro r k hk ⟨h8, hr, hf⟩ e hp hsafe
    exact ⟨registerWrite_tchSpare_ignored hs h8 hr hf hp hk e hsafe, registerWrite_tchSpare_taken hs h8 hr hf hp hk e hsafe⟩
  case inject =>
    rintro r k hk ⟨h8, hr, hf⟩ e hp
    have ho : ownRow n = false := by
      rcases e with e | e
      · exact e ▸ (injRows k hk).1
      · exact e ▸ (injRows k hk).2
    refine ⟨fun h => ?_, fun h => ?_⟩
    · exact (execRegisterWrite_whole hs h8 hr hf ho hp).trans (congrArg _ (writeReg_injArmed hk e h))
    · exact registerWrite_putsAlone hs h8 hr hf hp ho (writeReg_injIdle hk e h)
  case trace =>
    rintro r ⟨h8, hr, hf⟩ e hp
    have ho : ownRow n = false := by rw [e]; decide
    refine ⟨fun h => ?_, fun h => ?_⟩
    · exact (execRegisterWrite_whole hs h8 hr hf ho hp).trans (congrArg _ (writeReg_traceOn e h))
    · exact registerWrite_putsAlone hs h8 hr hf hp ho (writeReg_traceOff e h)
  case nan =>
    rintro r k hk ⟨h8, hr, hf⟩ e hp hv
    exact registerWrite_nanValid hs h8 hr hf hp hk e hv
  case refused =>
    intro r k h8 hr hf
    exact ⟨_, execRegisterWrite_refused hs h8 hr hf, badAccess_noted hn (refusal_lt hf)⟩
  case illFormed =>
    intro h
    exact ⟨_, execBadAccess_illFormed (v := v) hs h, badAccess_noted hn (by decide)⟩
  case unmapped =>
    intro h8 h hr
    exact ⟨_, execBadAccess_unmapped (v := v) hs h8 h hr, badAccess_noted hn (by decide)⟩
  case refusedBad =>
    intro r k h8 h hr hf
    exact ⟨_, execBadAccess_refused (v := v) hs h8 h hr hf, badAccess_noted hn (refusal_lt hf)⟩

end Sys2Proof.Proofs

/-! PROOFS. What the ends of sequences, posts and completions leave alone: the links, the multicast groups, what the
streams have moved, the descriptors' W6, and every byte of Mica outside the error ring. -/

namespace Sys2Proof.Machine

/-! ## The frame -/

/-- Neither W6 of a stream, nor the register of a multicast group, nor PX_ERR_RINGCFG. -/
abbrev Apart (a : Nat) : Prop :=
  ¬(0x30000 ≤ a ∧ a < 0x31000 ∧ a % 0x40 = 0x30) ∧ ¬(0x31200 ≤ a ∧ a < 0x31400) ∧ a ≠ 0xA0108

/-- No ELEMWISE of the vein is in flight. -/
def NoElemwise (x : VeinSt) : Prop := ∀ j ∈ x.jobs, j.done = false → j.op ≠ 4

/-- What a stream has moved stands, and an empty turn unit stays empty. -/
structure StrmFrame (x y : StreamSt) : Prop where
  asked  : y.asked = x.asked
  mcSent : y.mcSent = x.mcSent
  turn   : x.turn = [] → y.turn = []

/-- From s to t no link, no group and no stream has moved on, no ELEMWISE has begun; where m says so, Mica is as it was
outside the error ring. -/
structure StreamFrame (m : Bool) (s t : State) : Prop where
  links   : t.links = s.links
  groups  : t.groups = s.groups
  desc    : ∀ i < 64, rd t (Reg.stmDescW6 i) = rd s (Reg.stmDescW6 i)
  stalled : ∀ g < 64, flag t (Reg.stmMcast g) Fl.stmMcast_STALLED = flag s (Reg.stmMcast g) Fl.stmMcast_STALLED
  strms   : ∀ i, StrmFrame (strm s i) (strm t i)
  jobs    : ∀ v, NoElemwise (vein s v) → NoElemwise (vein t v)
  mica    : m = true → rd t Reg.errRingCfg = rd s Reg.errRingCfg ∧
    ∀ x, ringByte s x = false → micaByte t x = micaByte s x

theorem StrmFrame.rfl' (x : StreamSt) : StrmFrame x x := ⟨rfl, rfl, id⟩

theorem StrmFrame.trans {x y z : StreamSt} (h : StrmFrame x y) (k : StrmFrame y z) : StrmFrame x z :=
  ⟨k.asked.trans h.asked, k.mcSent.trans h.mcSent, k.turn ∘ h.turn⟩

theorem ringByte_congr {s t : State} (h : rd t Reg.errRingCfg = rd s Reg.errRingCfg) (x : Nat) :
    ringByte t x = ringByte s x := by
  unfold ringByte flag fld
  rw [h]

theorem StreamFrame.rfl' (m : Bool) (s : State) : StreamFrame m s s :=
  ⟨rfl, rfl, fun _ _ => rfl, fun _ _ => rfl, fun _ => .rfl' _, fun _ => id, fun _ => ⟨rfl, fun _ _ => rfl⟩⟩

theorem StreamFrame.trans {m : Bool} {s t u : State} (h : StreamFrame m s t) (k : StreamFrame m t u) : StreamFrame m s u where
  links := k.links.trans h.links
  groups := k.groups.trans h.groups
  desc i hi := (k.desc i hi).trans (h.desc i hi)
  stalled g hg := (k.stalled g hg).trans (h.stalled g hg)
  strms i := (h.strms i).trans (k.strms i)
  jobs v := k.jobs v ∘ h.jobs v
  mica hm := by
    obtain ⟨hc, hb⟩ := h.mica hm
    obtain ⟨kc, kb⟩ := k.mica hm
    exact ⟨kc.trans hc, fun x hx => (kb x ((ringByte_congr hc x).trans hx)).trans (hb x hx)⟩

/-- Without a word on Mica. -/
theorem StreamFrame.weaken {s t : State} {m : Bool} (h : StreamFrame m s t) : StreamFrame false s t :=
  ⟨h.links, h.groups, h.desc, h.stalled, h.strms, h.jobs, nofun⟩

/-! ## Shapes of definitions -/

section
variable {m : Bool} {s₀ s : State}

theorem frame_ite {a b : State} {c : Prop} [Decidable c] (ha : StreamFrame m s₀ a) (hb : StreamFrame m s₀ b) :
    StreamFrame m s₀ (if c then a else b) := by
  split
  · exact ha
  · exact hb

theorem frame_foldl {α : Type} {f : State → α → State} {l : List α} (h : StreamFrame m s₀ s)
    (hf : ∀ u, ∀ x ∈ l, StreamFrame m s₀ u → StreamFrame m s₀ (f u x)) : StreamFrame m s₀ (l.foldl f s) := by
  induction l generalizing s with
  | nil => exact h
  | cons x l ih =>
    exact ih (hf s x List.mem_cons_self h) (fun u y hy => hf u y (List.mem_cons_of_mem x hy))

theorem frame_foldl_snd {α β : Type} {p : β × State} {f : β × State → α → β × State} {l : List α}
    (h : StreamFrame m s₀ p.2) (hf : ∀ u, ∀ x ∈ l, StreamFrame m s₀ u.2 → StreamFrame m s₀ (f u x).2) :
    StreamFrame m s₀ (l.foldl f p).2 := by
  induction l generalizing p with
  | nil => exact h
  | cons x l ih =>
    exact ih (hf p x List.mem_cons_self h) (fun u y hy => hf u y (List.mem_cons_of_mem x hy))

/-- An update of none of what the frame names. -/
theorem frame_same {t : State} (h : StreamFrame m s₀ s) (h1 : t.regs = s.regs) (h2 : t.mica = s.mica)
    (h3 : t.links = s.links) (h4 : t.groups = s.groups) (h5 : t.streams = s.streams) (h6 : t.veins = s.veins) :
    StreamFrame m s₀ t := by
  have hrd : ∀ a, rd t a = rd s a := fun a => by unfold rd; rw [h1]
  refine h.trans ⟨h3, h4, fun i _ => hrd _, fun g _ => by unfold flag fld; rw [hrd], fun i => ?_, fun v => ?_,
    fun _ => ⟨hrd _, fun x _ => by unfold micaByte; rw [h2]⟩⟩
  · have e : strm t i = strm s i := by unfold strm; rw [h5]
    exact e ▸ .rfl' _
  · have e : vein t v = vein s v := by unfold vein; rw [h6]
    exact e ▸ id

theorem wr_frame {a : Nat} {v : W64} (ha : Apart a) (h : StreamFrame m s₀ s) : StreamFrame m s₀ (wr s a v) := by
  obtain ⟨hdesc, hmc, hring⟩ := ha
  refine h.trans ⟨rfl, rfl, fun i hi => rd_wr_ne _ _ ?_, fun g hg => ?_, fun i => .rfl' _, fun _ => id,
    fun _ => ⟨rd_wr_ne _ _ hring, fun _ _ => rfl⟩⟩
  · unfold Reg.stmDescW6; omega
  · have ne : a ≠ Reg.stmMcast g := by unfold Reg.stmMcast; omega
    unfold flag fld
    rw [rd_wr_ne _ _ ne]

theorem setFld_frame {a : Nat} {f : Field} {v : Nat} (ha : Apart a) (h : StreamFrame m s₀ s) :
    StreamFrame m s₀ (setFld s a f v) := wr_frame ha h

theorem setFlag_frame {a : Nat} {f : Field} {b : Bool} (ha : Apart a) (h : StreamFrame m s₀ s) :
    StreamFrame m s₀ (setFlag s a f b) := wr_frame ha h

theorem incFld_frame {a : Nat} {f : Field} {n : Nat} (ha : Apart a) (h : StreamFrame m s₀ s) :
    StreamFrame m s₀ (incFld s a f n) := wr_frame ha h

theorem setVein_frame {v : Nat} {x : VeinSt} (hx : NoElemwise (vein s v) → NoElemwise x) (h : StreamFrame m s₀ s) :
    StreamFrame m s₀ (setVein s v x) := by
  refine h.trans ⟨rfl, rfl, fun _ _ => rfl, fun _ _ => rfl, fun _ => .rfl' _, fun w hw => ?_, fun _ => ⟨rfl, fun _ _ => rfl⟩⟩
  rw [vein_setVein]
  split
  next e => exact hx (e ▸ hw)
  next => exact hw

theorem setStrm_frame {i : Nat} {x : StreamSt} (hx : StrmFrame (strm s i) x) (h : StreamFrame m s₀ s) :
    StreamFrame m s₀ (setStrm s i x) := by
  refine h.trans ⟨rfl, rfl, fun _ _ => rfl, fun _ _ => rfl, fun j => ?_, fun _ => id, fun _ => ⟨rfl, fun _ _ => rfl⟩⟩
  rw [strm_setStrm]
  split
  next e => exact e ▸ hx
  next => exact .rfl' _

theorem takeFree_frame {w : Nat} (h : StreamFrame m s₀ s) : StreamFrame m s₀ (takeFree s w).2 :=
  frame_same h rfl rfl rfl rfl rfl rfl

theorem enterSu_frame {x : Su} (h : StreamFrame m s₀ s) : StreamFrame m s₀ (enterSu s x) :=
  frame_ite (frame_same h rfl rfl rfl rfl rfl rfl) h

/-! ## Error records -/

theorem apart_errLast (i : Nat) : Apart (Reg.errLast i) := by unfold Apart Reg.errLast; omega
theorem apart_vnStat {v : Nat} (hv : v < 16) : Apart (Reg.vnStat v) := by unfold Apart Reg.vnStat; omega
theorem apart_vnSeq {v : Nat} (hv : v < 16) : Apart (Reg.vnSeq v) := by unfold Apart Reg.vnSeq; omega

theorem summarize_frame {u : Nat} (h : StreamFrame m s₀ s) : StreamFrame m s₀ (summarize s u) := setFld_frame (by decide) h

theorem attnErr_frame {u : Nat} (h : StreamFrame m s₀ s) : StreamFrame m s₀ (attnErr s u) :=
  summarize_frame (setFlag_frame (by decide) h)

theorem shiftMirror_frame {n : Nat} (h : StreamFrame m s₀ s) : StreamFrame m s₀ (shiftMirror s n) := by
  induction n generalizing s with
  | zero => exact h
  | succ n ih =>
    unfold shiftMirror
    beta_reduce
    exact ih (frame_foldl h fun _ _ _ hu => wr_frame (apart_errLast _) hu)

/-- A record goes to its place in the ring. -/
theorem ringWrite_frame {n : Nat} {bs : List Byte} (hb : bs.length = 64) (hn : n < 256) (h : StreamFrame m s₀ s)
    (he : flag s Reg.errRingCfg Fl.errRingCfg_ENABLE = true) :
    StreamFrame m s₀ (micaWrite s (fld s Reg.errRingCfg Fl.errRingCfg_BASE * 4096 + 64 * n) bs) := by
  refine h.trans ⟨rfl, rfl, fun _ _ => rfl, fun _ _ => rfl, fun _ => .rfl' _, fun _ => id, fun _ => ⟨rfl, fun x hx => ?_⟩⟩
  unfold ringByte at hx
  rw [he, Bool.true_and, decide_eq_false_iff_not] at hx
  rw [micaByte_micaWrite, if_neg (ring_apart hb hn hx)]

theorem writeRec_frame {r : ErrRec} {count : Nat} (h : StreamFrame m s₀ s) : StreamFrame m s₀ (writeRec s r count) := by
  refine h.trans ?_
  unfold writeRec
  extract_lets recno ring back gap body bytes mirrored listed ringed noted
  have hbytes : bytes.length = 64 := by
    show (body ++ leBytes 4 _).length = 64
    rw [List.length_append, leBytes_length, show body.length = 60 from recBytes_length ..]
  have hlisted : StreamFrame true s listed :=
    frame_foldl (shiftMirror_frame (.rfl' _ s)) fun _ _ _ hu => wr_frame (apart_errLast _) hu
  have hring : ring = flag s Reg.errRingCfg Fl.errRingCfg_ENABLE := rfl
  clear_value bytes ring listed recno
  have hringed : StreamFrame true s ringed := by
    have hcfg : rd listed Reg.errRingCfg = rd s Reg.errRingCfg := (hlisted.mica rfl).1
    show StreamFrame true s (if ring = true then _ else _)
    split
    next he =>
      refine ringWrite_frame hbytes (Nat.mod_lt _ (by decide)) hlisted ?_
      unfold flag fld
      rw [hcfg]
      exact hring.symm.trans he
    next => exact hlisted
  clear_value ringed
  have hnoted : StreamFrame true s noted := setFld_frame (by decide) hringed
  clear_value noted
  have all : StreamFrame true s { noted with recWrap := noted.recWrap || recno + 1 == 2 ^ 32 } :=
    frame_same hnoted rfl rfl rfl rfl rfl rfl
  cases m
  · exact all.weaken
  · exact all

theorem snapRec_frame {r : ErrRec} {count : Nat} (h : StreamFrame m s₀ s) : StreamFrame m s₀ (snapRec s r count) := by
  unfold snapRec
  cases r.snap
  · exact writeRec_frame h
  · exact writeRec_frame (takeFree_frame (w := 64) h)

theorem goFatal_frame {code : Nat} (h : StreamFrame m s₀ s) : StreamFrame m s₀ (goFatal s code) := by
  unfold goFatal
  extract_lets entered raised coded
  have hcoded : StreamFrame m s₀ coded := setFld_frame (by decide) (setFlag_frame (by decide) (enterSu_frame h))
  clear_value coded
  refine frame_ite h (frame_foldl hcoded fun u v hv hu => ?_)
  extract_lets off
  have hoff : StreamFrame m s₀ off := setFld_frame (apart_vnStat (List.mem_range.mp hv)) hu
  clear_value off
  exact setVein_frame (fun _ _ hj => absurd hj List.not_mem_nil) hoff

theorem recordErr_frame {r : ErrRec} (h : StreamFrame m s₀ s) : StreamFrame m s₀ (recordErr s r) := by
  unfold recordErr
  extract_lets count counted summed written raised shown
  have hcounted : StreamFrame m s₀ counted := frame_ite h (frame_same h rfl rfl rfl rfl rfl rfl)
  have hsummed : StreamFrame m s₀ summed := by
    unfold summed
    split <;> exact incFld_frame (by decide) hcounted
  have hwritten : StreamFrame m s₀ written := frame_ite (snapRec_frame hsummed) hsummed
  have hraised : StreamFrame m s₀ raised := frame_ite (attnErr_frame hwritten) hwritten
  have hshown : StreamFrame m s₀ shown := frame_ite (summarize_frame hraised) hraised
  exact frame_ite (goFatal_frame hshown) hshown

/-! ## Flint -/

theorem injOne_frame {det : Nat} {x : InjSel} {busy : Bool} {acc : Option Nat × State} {n : Nat} (hn : n < 8)
    (hacc : StreamFrame m s₀ acc.2) : StreamFrame m s₀ (injOne det x busy acc n).2 := by
  have a0 : Apart (Reg.fltInjW0 n) := by unfold Apart Reg.fltInjW0; omega
  have a3 : Apart (Reg.fltInjW3 n) := by unfold Apart Reg.fltInjW3; omega
  obtain ⟨hit, u⟩ := acc
  unfold injOne
  split
  next hit u e =>
  cases e
  extract_lets mode met seen period noted fired cnt left
  have hnoted : StreamFrame m s₀ noted := frame_same hacc rfl rfl rfl rfl rfl rfl
  clear_value noted
  have hfired : StreamFrame m s₀ fired := incFld_frame a3 hnoted
  clear_value fired
  have hleft : StreamFrame m s₀ left := frame_ite (setFlag_frame a0 hfired) hfired
  clear_value left met mode
  split
  · exact hacc
  · split
    · exact setFld_frame a3 hacc
    · split
      · exact hnoted
      · exact hleft

theorem flint_frame {det : Nat} {x : InjSel} {busy : Bool} (h : StreamFrame m s₀ s) :
    StreamFrame m s₀ (flint s det x busy).2 :=
  frame_foldl_snd h fun _ _ hn hu => injOne_frame (List.mem_range.mp hn) hu

/-! ## Veins -/

theorem NoElemwise.map {x : VeinSt} {f : Job → Job} (h : NoElemwise x)
    (hf : ∀ j, (f j).done = false → j.done = false ∧ (f j).op = j.op) : NoElemwise { x with jobs := x.jobs.map f } := by
  intro k hk hd
  obtain ⟨j, hj, rfl⟩ := List.mem_map.mp hk
  obtain ⟨hjd, hop⟩ := hf j hd
  exact hop ▸ h j hj hjd

theorem updJob_frame {v seq : Nat} {f : Job → Job} (hf : ∀ j, (f j).done = false → j.done = false ∧ (f j).op = j.op)
    (h : StreamFrame m s₀ s) : StreamFrame m s₀ (updJob s v seq f) := by
  refine setVein_frame (fun k => k.map fun j hj => ?_) h
  split at hj
  next e => rw [if_pos e]; exact hf j hj
  next e => rw [if_neg e]; exact ⟨hj, rfl⟩

theorem addCond_frame {v seq code : Nat} (h : StreamFrame m s₀ s) : StreamFrame m s₀ (addCond s v seq code) :=
  updJob_frame (fun j => by split <;> exact fun hj => ⟨hj, rfl⟩) h

theorem leaveFrame_frame {v : Nat} (h : StreamFrame m s₀ s) : StreamFrame m s₀ (leaveFrame s v) := setVein_frame (fun k => k) h

section
variable {v : Nat} (hv : v < 16)
include hv

theorem setVState_frame {st : Nat} (h : StreamFrame m s₀ s) : StreamFrame m s₀ (setVState s v st) :=
  setFld_frame (apart_vnStat hv) h

theorem setWaiton_frame {w : Nat} (h : StreamFrame m s₀ s) : StreamFrame m s₀ (setWaiton s v w) :=
  setFld_frame (apart_vnStat hv) h

theorem setVBase_frame {st : Nat} (h : StreamFrame m s₀ s) : StreamFrame m s₀ (setVBase s v st) :=
  frame_ite (setVein_frame (fun k => k) h) (setVState_frame hv h)

theorem refreshVein_frame (h : StreamFrame m s₀ s) : StreamFrame m s₀ (refreshVein s v) := by
  unfold refreshVein
  extract_lets x n shown st live trm
  have hshown : StreamFrame m s₀ shown := setFld_frame (apart_vnStat hv) h
  have hx : x = vein shown v := (vein_setFld ..).symm
  clear_value x n shown st live trm
  refine frame_ite hshown ?_
  split
  extract_lets masked ready
  have hmasked : StreamFrame m s₀ masked := setVein_frame (fun k => by rw [hx]; exact k) hshown
  clear_value masked
  have hready : StreamFrame m s₀ ready := frame_ite (frame_same hshown rfl rfl rfl rfl rfl rfl) hshown
  clear_value ready
  exact frame_ite (setWaiton_frame hv (setVState_frame hv hmasked)) (setWaiton_frame hv (setVState_frame hv hready))

theorem retireOne_frame {j : Job} (h : StreamFrame m s₀ s) : StreamFrame m s₀ (retireOne s v j) := by
  unfold retireOne traceRetire
  extract_lets seq stat
  have hseq : StreamFrame m s₀ seq := setFld_frame (apart_vnSeq hv) h
  clear_value seq
  have hstat : StreamFrame m s₀ stat := setFld_frame (apart_vnStat hv) hseq
  clear_value stat
  exact frame_ite (frame_same hstat rfl rfl rfl rfl rfl rfl) hstat

omit hv in
theorem retireOne_veins (j : Job) (s : State) : (retireOne s v j).veins = s.veins := by
  unfold retireOne traceRetire
  extract_lets seq stat
  have hseq : seq.veins = s.veins := setFld_veins ..
  clear_value seq
  have hstat : stat.veins = s.veins := (setFld_veins ..).trans hseq
  clear_value stat
  split
  · exact hstat
  · exact hstat

theorem retireList_frame {js : List Job} (h : StreamFrame m s₀ s) : StreamFrame m s₀ (retireList v js s).1 := by
  induction js generalizing s with
  | nil => exact h
  | cons j js ih =>
    unfold retireList
    split
    · exact ih (retireOne_frame hv h)
    · exact h

omit hv in
theorem retireList_sublist (js : List Job) (s : State) : (retireList v js s).2.Sublist js := by
  induction js generalizing s with
  | nil => exact .slnil
  | cons j js ih =>
    unfold retireList
    split
    · exact (ih _).cons j
    · exact .refl _

omit hv in
theorem retireList_veins (js : List Job) (s : State) : (retireList v js s).1.veins = s.veins := by
  induction js generalizing s with
  | nil => rfl
  | cons j js ih =>
    unfold retireList
    split
    · rw [ih, retireOne_veins]
    · rfl

theorem retire_frame (h : StreamFrame m s₀ s) : StreamFrame m s₀ (retire s v) := by
  have sub := retireList_sublist (v := v) (vein s v).jobs s
  have same : vein (retireList v (vein s v).jobs s).1 v = vein s v := by
    unfold vein
    rw [retireList_veins]
  exact setVein_frame (fun k j hj => by rw [same] at k; exact k j (sub.subset hj)) (retireList_frame hv h)

theorem settleHalt_frame (h : StreamFrame m s₀ s) : StreamFrame m s₀ (settleHalt s v) := by
  unfold settleHalt
  extract_lets x r
  clear_value x r
  refine frame_ite ?_ h
  split
  extract_lets stat seq halted
  have hseq : StreamFrame m s₀ seq := setFld_frame (apart_vnStat hv) (setFld_frame (apart_vnStat hv) h)
  clear_value seq
  have hhalted : StreamFrame m s₀ halted := setWaiton_frame hv (setVBase_frame hv hseq)
  clear_value halted
  exact recordErr_frame hhalted

theorem beginHalt_frame (h : StreamFrame m s₀ s) : StreamFrame m s₀ (beginHalt s v) :=
  frame_ite h (settleHalt_frame hv (setVBase_frame hv (leaveFrame_frame h)))

end

theorem settleWaits_frame (h : StreamFrame m s₀ s) : StreamFrame m s₀ (settleWaits s) :=
  frame_foldl h fun _ _ hv hu =>
    frame_ite (refreshVein_frame (List.mem_range.mp hv) (setVein_frame (fun k => k) hu)) hu

theorem completeJob_frame {v seq : Nat} (hv : v < 16) (h : StreamFrame m s₀ s) : StreamFrame m s₀ (completeJob s v seq) := by
  unfold completeJob
  extract_lets marked halted
  have hmarked : StreamFrame m s₀ marked := updJob_frame (fun _ hj => absurd hj (by simp)) h
  clear_value marked
  have hhalted : StreamFrame m s₀ halted := by
    unfold halted
    split
    · exact frame_ite (beginHalt_frame hv hmarked) hmarked
    · exact hmarked
  clear_value halted
  exact settleWaits_frame (refreshVein_frame hv (settleHalt_frame hv (retire_frame hv hhalted)))

end

end Sys2Proof.Machine

/-! PROOFS. What semaphores, sequences and the byte FIFO leave alone. -/

namespace Sys2Proof.Machine

section
variable {m : Bool} {s₀ s : State}

/-! ## Semaphores -/

theorem mem_allJobs_lt {p : Nat × Job} (h : p ∈ allJobs s) : p.1 < 16 := by
  obtain ⟨v, hv, hp⟩ := List.mem_flatMap.mp h
  obtain ⟨j, _, e⟩ := List.mem_filterMap.mp hp
  split at e
  · cases e
  · cases e
    exact List.mem_range.mp hv

/-- What waits on a semaphore is a vein of the block, or an N tile of one. -/
theorem mem_semWaiters_lt {k : Nat} {w : Nat × Nat × Nat × Option (Nat × Nat)} (h : w ∈ semWaiters s k) : w.2.1 < 16 := by
  rcases List.mem_append.mp ((perm_sortBy _ _).mem_iff.mp h) with h | h
  · obtain ⟨v, hv, e⟩ := List.mem_filterMap.mp h
    split at e
    · split at e
      · cases e
        exact List.mem_range.mp hv
      · cases e
    · cases e
  · obtain ⟨p, hp, hw⟩ := List.mem_flatMap.mp h
    split at hw
    · cases hw
    · obtain ⟨x, _, e⟩ := List.mem_filterMap.mp hw
      obtain ⟨o, _, rfl⟩ := Option.map_eq_some_iff.mp e
      exact mem_allJobs_lt hp

theorem apart_semVal {k : Nat} (hk : k < 256) : Apart (Reg.semVal k) := by unfold Apart Reg.semVal; omega

theorem endWait_frame {v code : Nat} (hv : v < 16) (h : StreamFrame m s₀ s) : StreamFrame m s₀ (endWait s v code) := by
  unfold endWait
  extract_lets x lost ended
  have hended : StreamFrame m s₀ ended := setVein_frame (fun k => k) h
  clear_value ended
  split
  · exact refreshVein_frame hv hended
  next j _ =>
    extract_lets met slipped
    have hmet : StreamFrame m s₀ met := frame_ite hended (addCond_frame hended)
    clear_value met
    have hslipped : StreamFrame m s₀ slipped := frame_ite (addCond_frame hmet) hmet
    clear_value slipped
    exact completeJob_frame hv hslipped

section
variable {k : Nat} (hk : k < 256)
include hk

theorem semWake_frame {n : Nat} (h : StreamFrame m s₀ s) : StreamFrame m s₀ (semWake k n s) := by
  induction n generalizing s with
  | zero => exact h
  | succ n ih =>
    unfold semWake
    split
    · exact h
    next o v c tile ws e =>
      have hv : v < 16 := mem_semWaiters_lt (s := s) (k := k) (w := (o, v, c, tile)) (e ▸ List.mem_cons_self)
      split
      · extract_lets taken
        have htaken : StreamFrame m s₀ taken := setFld_frame (apart_semVal hk) h
        clear_value taken
        refine ih ?_
        split
        · exact endWait_frame hv htaken
        · exact updJob_frame (fun _ hj => ⟨hj, rfl⟩) htaken
      · exact h

theorem semSettle_frame (h : StreamFrame m s₀ s) : StreamFrame m s₀ (semSettle s k) :=
  setFld_frame (apart_semVal hk) (semWake_frame hk h)

theorem semRaise_frame {val src : Nat} {t : Option Nat} (h : StreamFrame m s₀ s) :
    StreamFrame m s₀ (semRaise s k val src t) := by
  unfold semRaise
  extract_lets n raised excess capped
  have hraised : StreamFrame m s₀ raised := setFld_frame (apart_semVal hk) h
  clear_value raised
  have hcapped : StreamFrame m s₀ capped := frame_ite (recordErr_frame (incFld_frame (by decide) hraised)) hraised
  clear_value capped
  exact semSettle_frame hk hcapped

omit hk in
theorem semRefuse_frame {src : Nat} {t : Option Nat} {inj : Bool} (h : StreamFrame m s₀ s) :
    StreamFrame m s₀ (semRefuse s k src t inj) := recordErr_frame (incFld_frame (by decide) h)

theorem semPost_frame {val t src : Nat} {v : Option Nat} (h : StreamFrame m s₀ s) :
    StreamFrame m s₀ (semPost s k val t src v) := by
  unfold semPost
  extract_lets sel r inj hit
  have hhit : StreamFrame m s₀ hit := flint_frame h
  clear_value hit
  exact frame_ite (semRefuse_frame hhit) (semRaise_frame hk hhit)

end

/-! ## Ends of sequences -/

theorem desc_sem_lt (s : State) (i : Nat) : (desc s i).sem < 256 := Nat.mod_lt _ (by decide)

theorem endPost_frame {i : Nat} (h : StreamFrame m s₀ s) : StreamFrame m s₀ (endPost s i) := by
  have sem := desc_sem_lt s i
  refine frame_ite h (frame_ite (frame_ite (semPost_frame sem h) ?_) (semPost_frame sem h))
  exact frame_same h rfl rfl rfl rfl rfl rfl

/-- A change of a stream that moves no byte. -/
theorem strm_frame {i : Nat} {f : StreamSt → StreamSt} (hf : ∀ x, StrmFrame x (f x)) (h : StreamFrame m s₀ s) :
    StreamFrame m s₀ (setStrm s i (f (strm s i))) := setStrm_frame (hf _) h

section
variable {i : Nat} (hi : i < 64)
include hi

theorem apart_stmDescW0 : Apart (Reg.stmDescW0 i) := by unfold Apart Reg.stmDescW0; omega
theorem apart_stmDescW7 : Apart (Reg.stmDescW7 i) := by unfold Apart Reg.stmDescW7; omega
theorem apart_trmAct : Apart (Reg.trmAct (i / 8)) := by unfold Apart Reg.trmAct; omega

theorem writeActivity_frame (h : StreamFrame m s₀ s) : StreamFrame m s₀ (writeActivity s i) := by
  unfold writeActivity
  extract_lets x shown
  have hshown : StreamFrame m s₀ shown := setStrm_frame ⟨rfl, rfl, id⟩ h
  clear_value shown
  refine frame_ite (frame_ite ?_ (setFld_frame (apart_trmAct hi) hshown)) h
  exact setFld_frame (apart_trmAct hi) (takeFree_frame (w := 8) hshown)

theorem startSeq_frame {start xbase : Nat} (h : StreamFrame m s₀ s) : StreamFrame m s₀ (startSeq s i start xbase) := by
  unfold startSeq
  extract_lets d based
  have hbased : StreamFrame m s₀ based := setFld_frame (apart_stmDescW0 hi) h
  clear_value based
  exact setStrm_frame ⟨rfl, rfl, id⟩ hbased

theorem countBytes_frame {n : Nat} (h : StreamFrame m s₀ s) : StreamFrame m s₀ (countBytes s i n) :=
  incFld_frame (apart_stmDescW7 hi) h

end

/-! ## Reloaded multicast registers (R338) -/

theorem flag_bit (s : State) (a lo : Nat) : flag s a ⟨lo, 1⟩ = (rd s a).toNat.testBit lo := by
  unfold flag fld
  have e : bits (rd s a).toNat lo 1 = bits (rd s a).toNat lo 1 % 2 := by unfold bits; omega
  have t : (bits (rd s a).toNat lo 1).testBit 0 = (rd s a).toNat.testBit lo := by rw [testBit_bits]; simp
  rw [← t, Nat.testBit_zero]
  rw [e]
  rcases Nat.mod_two_eq_zero_or_one (bits (rd s a).toNat lo 1) with h | h <;> simp [h]

/-- A record leaves the bits of a register that it may not write. -/
theorem testBit_applyRec {s : State} {p : Nat × Nat} {i : Nat} (hi : i < 64) (hm : (loadMask p.1).testBit i = false) :
    (rd (applyRec s p) p.1).toNat.testBit i = (rd s p.1).toNat.testBit i := by
  have hlt : loadMask p.1 < 2 ^ 64 := by
    unfold loadMask
    split
    · decide
    next r e =>
      obtain ⟨hrw, hrwl⟩ := regTable_masks r (List.mem_of_find?_eq_some e)
      exact Nat.or_lt_two_pow hrw hrwl
  unfold applyRec
  extract_lets mask
  rw [rd_wr_self, BitVec.toNat_ofNat, Nat.testBit_mod_two_pow, Nat.testBit_or, testBit_and_compl hlt hi, Nat.testBit_and]
  simp [hi, mask, hm]

theorem loadMask_stalled : ∀ g < 64, (loadMask (Reg.stmMcast g)).testBit 26 = false := by decide +kernel

theorem rd_applyRec_ne {s : State} {p : Nat × Nat} {b : Nat} (h : p.1 ≠ b) : rd (applyRec s p) b = rd s b :=
  rd_wr_ne _ _ h

/-- A reloaded register of a group takes its value; STALLED is none of its bits. -/
theorem applyRec_frame {k v : Nat} (h : StreamFrame false s₀ s) : StreamFrame false s₀ (applyRec s (Reg.stmMcast k, v)) := by
  refine h.trans ⟨rfl, rfl, fun i hi => rd_applyRec_ne ?_, fun g hg => ?_, fun _ => .rfl' _, fun _ => id, nofun⟩
  · show Reg.stmMcast k ≠ Reg.stmDescW6 i
    unfold Reg.stmMcast Reg.stmDescW6
    omega
  · rw [show Fl.stmMcast_STALLED = ⟨26, 1⟩ from rfl, flag_bit, flag_bit]
    by_cases e : Reg.stmMcast k = Reg.stmMcast g
    · have t := testBit_applyRec (s := s) (p := (Reg.stmMcast k, v)) (i := 26) (by decide) (by
        show (loadMask (Reg.stmMcast k)).testBit 26 = false
        rw [e]
        exact loadMask_stalled g hg)
      rw [← e]
      exact t
    · rw [rd_applyRec_ne (p := (Reg.stmMcast k, v)) e]

/-- Reloaded registers take their values by records; nothing else but the list of them changes. -/
theorem settleMcast_induction {P : State → Prop} (h : ∀ x, P { s with slt := x })
    (hf : ∀ u k v, P u → P (applyRec u (Reg.stmMcast k, v))) : P (settleMcast s) := by
  unfold settleMcast
  split
  · exact h s.slt
  next =>
    extract_lets slt u
    have hu : P u := h _
    clear_value u
    have key : ∀ (l : List (Nat × W64)) (u : State), P u →
        P (l.foldl (fun s p => applyRec s (Reg.stmMcast p.1, p.2.toNat)) u) := by
      intro l
      induction l with
      | nil => exact fun _ hu => hu
      | cons p l ih => exact fun u hu => ih _ (hf u p.1 p.2.toNat hu)
    exact key _ u hu

theorem settleMcast_frame (h : StreamFrame false s₀ s) : StreamFrame false s₀ (settleMcast s) :=
  settleMcast_induction (fun _ => frame_same h rfl rfl rfl rfl rfl rfl) (fun _ _ _ hu => applyRec_frame hu)

theorem settleMcast_mica (s : State) : (settleMcast s).mica = s.mica :=
  settleMcast_induction (P := fun u => u.mica = s.mica) (fun _ => rfl) (fun _ _ _ hu => hu)

theorem settleMcast_sState {i : Nat} (hi : i < 64) (s : State) : sState (settleMcast s) i = sState s i := by
  have key : rd (settleMcast s) (Reg.stmDescW7 i) = rd s (Reg.stmDescW7 i) :=
    settleMcast_induction (P := fun u => rd u (Reg.stmDescW7 i) = rd s (Reg.stmDescW7 i)) (fun _ => rfl)
      (fun u k v hu => (rd_applyRec_ne (by
        show Reg.stmMcast k ≠ Reg.stmDescW7 i
        unfold Reg.stmMcast Reg.stmDescW7
        omega)).trans hu)
  unfold sState fld
  rw [key]

/-! ## Sequences end -/

section
variable {i : Nat} (hi : i < 64)
include hi

theorem bookReg_stmDescW7 : bookReg (Reg.stmDescW7 i) = false := by
  have veins : (List.range 16).any (fun v => Reg.stmDescW7 i == Reg.vnStat v || Reg.stmDescW7 i == Reg.vnSeq v) = false :=
    any_range_false fun v hv => by
      simp only [Reg.stmDescW7, Reg.vnStat, Reg.vnSeq, Bool.or_eq_false_iff, beq_eq_false_iff_ne]
      omega
  unfold bookReg errBook
  rw [veins]
  simp [Reg.stmDescW7, Reg.trmBudget, Reg.trmStat, Reg.errCnt, Reg.errCntCe, Reg.errAtn, Reg.errSummary, Reg.errRingPtr,
    Reg.errLast]
  omega

theorem settleWaits_sState (s : State) : sState (settleWaits s) i = sState s i := by
  have e : rd (settleWaits s) (Reg.stmDescW7 i) = rd s (Reg.stmDescW7 i) :=
    (settleWaits_book bookReg_covers (book_refl s)).regs _ (bookReg_stmDescW7 hi)
  unfold sState fld
  rw [e]

/-- The end of a sequence leaves what the frame names; where it is the stream's last, reloaded registers of groups may
take their values after it, and the stream runs no more. -/
theorem seqEnd_cases (s : State) : ∃ u, StreamFrame true s u ∧
    (seqEnd s i = u ∨ seqEnd s i = settleMcast u ∧ sState u i ≠ Ss.running) := by
  unfold seqEnd
  extract_lets shown posted x taken flagged
  have hposted : StreamFrame true s posted := endPost_frame (writeActivity_frame hi (.rfl' _ s))
  have hx : strm posted i = x := rfl
  clear_value posted x
  have htaken : StreamFrame true s taken := setStrm_frame (hx ▸ ⟨rfl, rfl, id⟩) hposted
  clear_value taken
  have hflagged : StreamFrame true s flagged := setFlag_frame (apart_stmDescW7 hi) htaken
  clear_value flagged
  split
  next =>
    exact ⟨_, settleWaits_frame (startSeq_frame hi hflagged), .inl rfl⟩
  next =>
    split
    · exact ⟨_, startSeq_frame hi hposted, .inl rfl⟩
    · have hended : StreamFrame true s (setSState posted i Ss.ended) := setFld_frame (apart_stmDescW7 hi) hposted
      refine ⟨_, settleWaits_frame hended, .inr ⟨rfl, ?_⟩⟩
      rw [settleWaits_sState hi]
      unfold sState setSState
      rw [fld_setFld_self _ _ _ _ (by decide)]
      decide

theorem seqEnd_frame (h : StreamFrame false s₀ s) : StreamFrame false s₀ (seqEnd s i) := by
  obtain ⟨u, hu, e | ⟨e, _⟩⟩ := seqEnd_cases hi s
  · exact e ▸ h.trans hu.weaken
  · exact e ▸ settleMcast_frame (h.trans hu.weaken)

theorem endSeqs_frame {k : Nat} (h : StreamFrame false s₀ s) : StreamFrame false s₀ (endSeqs k s i) := by
  induction k generalizing s with
  | zero => exact h
  | succ k ih =>
    unfold endSeqs
    split
    · exact ih (seqEnd_frame hi h)
    · exact h

theorem checkEnd_frame (h : StreamFrame false s₀ s) : StreamFrame false s₀ (checkEnd s i) := endSeqs_frame hi h

omit hi in
theorem endSeqs_stopped {k : Nat} (h : sState s i ≠ Ss.running) : endSeqs k s i = s := by
  cases k with
  | zero => rfl
  | succ k =>
    unfold endSeqs
    simp [h]

/-- Of Mica, the ends of sequences write the error ring only. -/
theorem endSeqs_mica {k x : Nat} (hx : ringByte s x = false) : micaByte (endSeqs k s i) x = micaByte s x := by
  induction k generalizing s with
  | zero => rfl
  | succ k ih =>
    unfold endSeqs
    split
    · obtain ⟨u, hu, e⟩ := seqEnd_cases hi s
      obtain ⟨hring, hbytes⟩ := hu.mica rfl
      rcases e with e | ⟨e, hs⟩
      · rw [e, ih ((ringByte_congr hring x).trans hx)]
        exact hbytes x hx
      · rw [e, endSeqs_stopped ((settleMcast_sState hi u).trans_ne hs)]
        unfold micaByte
        rw [settleMcast_mica]
        exact hbytes x hx
    · rfl

theorem checkEnd_mica {x : Nat} (hx : ringByte s x = false) : micaByte (checkEnd s i) x = micaByte s x :=
  endSeqs_mica hi hx

end

end

end Sys2Proof.Machine

/-! PROOFS. Room in the byte FIFO, bytes that land, and messages on the links. -/

namespace Sys2Proof.Machine

section
variable {m : Bool} {s₀ s : State} {i : Nat}

/-! ## Room (R149, R150) -/

theorem release_frame (h : StreamFrame m s₀ s) : StreamFrame m s₀ (release s i) :=
  frame_ite h (setStrm_frame ⟨rfl, rfl, id⟩ h)

theorem putByte_frame {a : Nat} {b : Byte} {bad : Bool} (h : StreamFrame false s₀ s) :
    StreamFrame false s₀ (putByte s i a b bad) := by
  have poison : ∀ {u : State}, StreamFrame false s₀ u → StreamFrame false s₀ (poisonAt u a) :=
    fun hu => frame_same hu rfl rfl rfl rfl rfl rfl
  have put : ∀ {u : State}, StreamFrame false s₀ u → StreamFrame false s₀ (micaPutByte u a b) := fun hu =>
    hu.trans ⟨rfl, rfl, fun _ _ => rfl, fun _ _ => rfl, fun _ => .rfl' _, fun _ => id, nofun⟩
  unfold putByte
  extract_lets x w
  refine frame_ite (poison (setStrm_frame ⟨rfl, rfl, id⟩ h)) (frame_ite (put h) (put ?_))
  exact frame_same h rfl rfl rfl rfl rfl rfl

theorem turnOut_frame (h : StreamFrame false s₀ s) : StreamFrame false s₀ (turnOut s i) := by
  unfold turnOut
  extract_lets x go kept
  have hkept : StreamFrame false s₀ kept := setStrm_frame ⟨rfl, rfl, fun (e : x.turn = []) => by simp [e]⟩ h
  clear_value kept
  refine frame_ite h (frame_foldl hkept fun u b _ hu => ?_)
  split
  · extract_lets put
    have hput : StreamFrame false s₀ put := putByte_frame hu
    clear_value put
    exact setStrm_frame ⟨rfl, rfl, id⟩ hput
  · exact hu

theorem turnOut_empty (h : (strm s i).turn = []) : turnOut s i = s := by
  unfold turnOut
  simp [h]

theorem extendOne_frame (h : StreamFrame false s₀ s) : StreamFrame false s₀ (extendOne s i) := by
  unfold extendOne
  extract_lets d x
  split
  · exact h
  · extract_lets p
    refine frame_ite h (frame_ite (setStrm_frame ⟨rfl, rfl, id⟩ h) (frame_ite h (turnOut_frame ?_)))
    exact setStrm_frame ⟨rfl, rfl, id⟩ h

theorem extend_frame (hi : i < 64) (h : StreamFrame false s₀ s) : StreamFrame false s₀ (extend s i) := by
  have k := extendOne_frame (i := i) (extendOne_frame (i := i) (release_frame (i := i) h))
  exact frame_ite (checkEnd_frame hi k) k

/-! ### A stream with nothing in its turn unit -/

/-- The state with other links and groups. -/
def withNet (s : State) (L : List (Nat × LinkSt)) (G : List (Nat × McSt)) : State := { s with links := L, groups := G }

theorem release_streams (s : State) (i : Nat) : ∃ S, release s i = { s with streams := S } := by
  unfold release
  extract_lets x
  split
  · exact ⟨s.streams, rfl⟩
  · exact ⟨_, rfl⟩

theorem release_net (s : State) (i : Nat) (L : List (Nat × LinkSt)) (G : List (Nat × McSt)) :
    release (withNet s L G) i = withNet (release s i) L G := by
  unfold release
  have e : desc (withNet s L G) i = desc s i := rfl
  rw [e]
  dsimp only
  split <;> rfl

theorem extendOne_streams (h : (strm s i).turn = []) : ∃ S, extendOne s i = { s with streams := S } := by
  unfold extendOne
  extract_lets d x
  split
  · exact ⟨s.streams, rfl⟩
  · extract_lets p
    split
    · exact ⟨s.streams, rfl⟩
    · split
      · exact ⟨_, rfl⟩
      · split
        · exact ⟨s.streams, rfl⟩
        · rw [turnOut_empty (by rw [strm_setStrm_self]; exact h)]
          exact ⟨_, rfl⟩

theorem extendOne_net (h : (strm s i).turn = []) (L : List (Nat × LinkSt)) (G : List (Nat × McSt)) :
    extendOne (withNet s L G) i = withNet (extendOne s i) L G := by
  have hd : desc (withNet s L G) i = desc s i := rfl
  have hx : strm (withNet s L G) i = strm s i := rfl
  unfold extendOne
  rw [hd, hx]
  dsimp only
  cases curSeq (strm s i) with
  | none => rfl
  | some r =>
    dsimp only
    split
    · rfl
    · split
      · rfl
      · split
        · rfl
        · rw [turnOut_empty (by rw [strm_setStrm_self]; exact h), turnOut_empty (by rw [strm_setStrm_self]; exact h)]
          rfl

theorem extend_eq (h : (strm s i).turn = []) : extend s i = extendOne (extendOne (release s i) i) i := by
  unfold extend
  simp [h]

theorem extend_turn (h : (strm s i).turn = []) : (strm (release s i) i).turn = [] ∧
    (strm (extendOne (release s i) i) i).turn = [] := by
  have r := release_frame (i := i) (StreamFrame.rfl' false s)
  exact ⟨(r.strms i).turn h, ((extendOne_frame (i := i) r).strms i).turn h⟩

/-- Room for a stream with nothing in its turn unit is a matter of the streams. -/
theorem extend_streams (h : (strm s i).turn = []) : ∃ S, extend s i = { s with streams := S } := by
  obtain ⟨ht₁, ht₂⟩ := extend_turn h
  obtain ⟨S₁, e₁⟩ := release_streams s i
  obtain ⟨S₂, e₂⟩ := extendOne_streams ht₁
  obtain ⟨S₃, e₃⟩ := extendOne_streams ht₂
  exact ⟨S₃, by rw [extend_eq h, e₃, e₂, e₁]⟩

theorem extend_net (h : (strm s i).turn = []) (L : List (Nat × LinkSt)) (G : List (Nat × McSt)) :
    extend (withNet s L G) i = withNet (extend s i) L G := by
  obtain ⟨ht₁, ht₂⟩ := extend_turn h
  have h' : (strm (withNet s L G) i).turn = [] := h
  rw [extend_eq h, extend_eq h', release_net, extendOne_net ht₁, extendOne_net ht₂]

/-! ## Bytes that land -/

/-- The bytes of a run, each with its address. -/
def cellsFrom : Nat → List Byte → List (Nat × Byte)
  | _, [] => []
  | a, b :: bs => (a, b) :: cellsFrom (a + 1) bs

theorem mem_cellsFrom {a : Nat} {bs : List Byte} {c : Nat × Byte} :
    c ∈ cellsFrom a bs ↔ a ≤ c.1 ∧ c.1 < a + bs.length ∧ bs.getD (c.1 - a) 0 = c.2 := by
  induction bs generalizing a with
  | nil => simp [cellsFrom]; omega
  | cons b bs ih =>
    obtain ⟨x, y⟩ := c
    simp only [cellsFrom, List.mem_cons, ih, List.length_cons, Prod.mk.injEq]
    rcases Nat.lt_trichotomy x a with h | h | h
    · constructor <;> intro k <;> omega
    · subst h
      simp [eq_comm]
    · obtain ⟨n, rfl⟩ : ∃ n, x = a + 1 + n := ⟨x - (a + 1), by omega⟩
      have e₁ : a + 1 + n - (a + 1) = n := by omega
      have e₂ : a + 1 + n - a = n + 1 := by omega
      rw [e₁, e₂, List.getD_cons_succ]
      constructor
      · rintro (⟨h, _⟩ | ⟨_, h, e⟩)
        · omega
        · exact ⟨by omega, by omega, e⟩
      · rintro ⟨_, h, e⟩
        exact .inr ⟨by omega, by omega, e⟩

/-- Runs hold the bytes they are made of. -/
theorem flatMap_runsOf (l : List (Nat × Byte)) : (runsOf l).flatMap (fun r => cellsFrom r.1 r.2) = l := by
  induction l with
  | nil => rfl
  | cons c l ih =>
    obtain ⟨a, b⟩ := c
    unfold runsOf
    split
    next a' bs rs e =>
      rw [e] at ih
      split
      next ha =>
        subst ha
        simpa [cellsFrom] using ih
      next => simpa [cellsFrom] using ih
    next e =>
      rw [e] at ih
      simp [cellsFrom, ← ih]

theorem micaByte_foldl_ne {rs : List (Nat × List Byte)} {a : Nat} (h : ∀ r ∈ rs, ∀ c ∈ cellsFrom r.1 r.2, c.1 ≠ a)
    (s : State) : micaByte (rs.foldl (fun s r => micaWrite s r.1 r.2) s) a = micaByte s a := by
  induction rs generalizing s with
  | nil => rfl
  | cons r rs ih =>
    rw [List.foldl_cons, ih (fun q hq => h q (List.mem_cons_of_mem r hq)), micaByte_micaWrite, if_neg]
    rintro ⟨h₁, h₂⟩
    exact h r List.mem_cons_self (a, r.2.getD (a - r.1) 0) (mem_cellsFrom.mpr ⟨h₁, h₂, rfl⟩) rfl

/-- A byte that every run naming its address agrees on is there when all are written. -/
theorem micaByte_foldl {rs : List (Nat × List Byte)} {a : Nat} {b : Byte}
    (hsome : ∃ r ∈ rs, ∃ c ∈ cellsFrom r.1 r.2, c.1 = a) (hall : ∀ r ∈ rs, ∀ c ∈ cellsFrom r.1 r.2, c.1 = a → c.2 = b)
    (s : State) : micaByte (rs.foldl (fun s r => micaWrite s r.1 r.2) s) a = b := by
  induction rs generalizing s with
  | nil => simp at hsome
  | cons r rs ih =>
    rw [List.foldl_cons]
    by_cases later : ∃ q ∈ rs, ∃ c ∈ cellsFrom q.1 q.2, c.1 = a
    · exact ih later (fun q hq => hall q (List.mem_cons_of_mem r hq)) _
    · have none : ∀ q ∈ rs, ∀ c ∈ cellsFrom q.1 q.2, c.1 ≠ a := fun q hq c hc e => later ⟨q, hq, c, hc, e⟩
      obtain ⟨q, hq, c, hc, e⟩ := hsome
      obtain rfl : q = r := by
        rcases List.mem_cons.mp hq with e' | hq
        · exact e'
        · exact absurd e (none q hq c hc)
      obtain ⟨h₁, h₂, hb⟩ := mem_cellsFrom.mp hc
      rw [micaByte_foldl_ne none, micaByte_micaWrite, if_pos (e ▸ ⟨h₁, h₂⟩), ← e, hb]
      exact hall q List.mem_cons_self c hc e

/-- The bytes that a place in Mica waits for. -/
def placed (s : State) (i p : Nat) (bs : List Byte) : List (Nat × Byte) :=
  (bs.zip (List.range bs.length)).filterMap (fun b => (posAddr s i (p + b.2)).map (fun a => (a, b.1)))

theorem mem_placed {p : Nat} {bs : List Byte} {c : Nat × Byte} :
    c ∈ placed s i p bs ↔ ∃ k < bs.length, posAddr s i (p + k) = some c.1 ∧ bs.getD k 0 = c.2 := by
  unfold placed
  rw [List.mem_filterMap]
  constructor
  · rintro ⟨⟨b, k⟩, hb, e⟩
    obtain ⟨a, ha, rfl⟩ := Option.map_eq_some_iff.mp e
    obtain ⟨n, hn, e⟩ := List.mem_iff_getElem.mp hb
    simp only [List.getElem_zip, List.getElem_range, Prod.mk.injEq] at e
    obtain ⟨rfl, rfl⟩ := e
    have hlt : n < bs.length := by simpa using hn
    exact ⟨n, hlt, ha, List.getD_eq_getElem _ _ hlt⟩
  · rintro ⟨k, hk, ha, hb⟩
    refine ⟨(bs[k], k), List.mem_iff_getElem.mpr ⟨k, by simpa using hk, by simp⟩, ?_⟩
    rw [List.getD_eq_getElem _ _ hk] at hb
    simp [ha, hb]

theorem putAt_mica_poison (s : State) (i p : Nat) (bs : List Byte) :
    ∃ M P, putAt s i p bs = { s with mica := M, poison := P } := by
  have key : ∀ (rs : List (Nat × List Byte)) (u : State), (∃ M P, u = { s with mica := M, poison := P }) →
      ∃ M P, rs.foldl (fun s r => micaWrite s r.1 r.2) u = { s with mica := M, poison := P } := by
    intro rs
    induction rs with
    | nil => exact fun u hu => hu
    | cons r rs ih =>
      rintro u ⟨M, P, rfl⟩
      exact ih _ ⟨_, _, rfl⟩
  exact key _ s ⟨s.mica, s.poison, rfl⟩

/-- Bytes put at places that are all different lie there. -/
theorem micaByte_putAt {p k a : Nat} {bs : List Byte} (hinj : ∀ k k', k < bs.length → k' < bs.length →
    posAddr s i (p + k) = posAddr s i (p + k') → k = k') (hk : k < bs.length) (ha : posAddr s i (p + k) = some a) :
    micaByte (putAt s i p bs) a = bs.getD k 0 := by
  have runs := flatMap_runsOf (placed s i p bs)
  have hmem : (a, bs.getD k 0) ∈ placed s i p bs := mem_placed.mpr ⟨k, hk, ha, rfl⟩
  refine micaByte_foldl (rs := runsOf (placed s i p bs)) ?_ (fun r hr c hc e => ?_) s
  · rw [← runs] at hmem
    obtain ⟨r, hr, hc⟩ := List.mem_flatMap.mp hmem
    exact ⟨r, hr, _, hc, rfl⟩
  · have hc' : c ∈ placed s i p bs := by
      rw [← runs]
      exact List.mem_flatMap.mpr ⟨r, hr, hc⟩
    obtain ⟨j, hj, hp, hb⟩ := mem_placed.mp hc'
    rw [← hb, hinj j k hj hk (by rw [hp, ha, e])]

end

end Sys2Proof.Machine

/-! PROOFS. Messages on the links, and bytes of a group that wait for room at a member (R157). -/

namespace Sys2Proof.Machine

/-! ## Links -/

/-- Nothing but links has changed. -/
def OnlyLinks (s t : State) : Prop := ∃ L, t = { s with links := L }

theorem OnlyLinks.rfl' (s : State) : OnlyLinks s s := ⟨s.links, rfl⟩

theorem OnlyLinks.trans {s t u : State} (h : OnlyLinks s t) (k : OnlyLinks t u) : OnlyLinks s u := by
  obtain ⟨L, rfl⟩ := h
  obtain ⟨M, rfl⟩ := k
  exact ⟨M, rfl⟩

theorem OnlyLinks.regs {s t : State} (h : OnlyLinks s t) : t.regs = s.regs := by
  obtain ⟨L, rfl⟩ := h
  rfl

theorem OnlyLinks.foldl {α : Type} {f : State → α → State} (hf : ∀ u x, OnlyLinks u (f u x)) (l : List α) (s : State) :
    OnlyLinks s (l.foldl f s) := by
  induction l generalizing s with
  | nil => exact .rfl' s
  | cons x l ih => exact (hf s x).trans (ih _)

theorem drainMsg_onlyLinks (s : State) (l vc : Nat) (is : Nat → Bool) : OnlyLinks s (drainMsg s l vc is) := ⟨_, rfl⟩

theorem sendMsg_onlyLinks (s : State) (l vc hdr : Nat) (bs : List Byte) : OnlyLinks s (sendMsg s l vc hdr bs) := ⟨_, rfl⟩

theorem mcOnLink_onlyLinks (s : State) (l : Nat) (h : McHdr) (bs : List Byte) : OnlyLinks s (mcOnLink s l h bs) :=
  OnlyLinks.foldl (fun _ _ => sendMsg_onlyLinks ..) _ s

theorem link_sendMsg_ne {s : State} {l k vc hdr : Nat} {bs : List Byte} (h : l ≠ k) :
    link (sendMsg s l vc hdr bs) k = link s k := by
  unfold sendMsg
  rw [link_setLink, if_neg h]

theorem modeBit_congr {s t : State} (h : t.regs = s.regs) (l b : Nat) : modeBit t l b = modeBit s l b := by
  unfold modeBit rd
  rw [h]

/-- What a link gets to send depends on the registers and on the link. -/
theorem link_sendMsg_congr {s t : State} {l vc hdr : Nat} {bs : List Byte} (hr : t.regs = s.regs) (hl : link t l = link s l) :
    link (sendMsg t l vc hdr bs) l = link (sendMsg s l vc hdr bs) l := by
  unfold sendMsg
  rw [link_setLink_self, link_setLink_self, modeBit_congr hr, hl]

section
variable {h : McHdr} {bs : List Byte}

theorem link_mcOnLink_ne {s : State} {l k : Nat} (hlk : l ≠ k) : link (mcOnLink s l h bs) k = link s k := by
  unfold mcOnLink
  extract_lets most n
  clear_value most n
  induction List.range n generalizing s with
  | nil => rfl
  | cons x xs ih => exact ih.trans (link_sendMsg_ne hlk)

theorem link_mcOnLink_congr {s t : State} {l : Nat} (hr : t.regs = s.regs) (hl : link t l = link s l) :
    link (mcOnLink t l h bs) l = link (mcOnLink s l h bs) l := by
  have most : maxPayload t l = maxPayload s l := by
    unfold maxPayload
    rw [modeBit_congr hr, modeBit_congr hr]
  unfold mcOnLink
  rw [most]
  clear most
  extract_lets most n
  clear_value most n
  induction List.range n generalizing s t with
  | nil => exact hl
  | cons x xs ih =>
    rw [List.foldl_cons, List.foldl_cons]
    apply ih
    · exact hr
    · exact link_sendMsg_congr hr hl

/-- Sent on several links, data stand on each as if they had been sent on it alone. -/
theorem link_foldl_mcOnLink {ls : List Nat} {d : Nat} (hn : ls.Nodup) (hd : d ∈ ls) (s : State) :
    link (ls.foldl (fun s l => mcOnLink s l h bs) s) d = link (mcOnLink s d h bs) d := by
  have other : ∀ (ls : List Nat) (s : State), d ∉ ls →
      link (ls.foldl (fun s l => mcOnLink s l h bs) s) d = link s d := by
    intro ls
    induction ls with
    | nil => exact fun _ _ => rfl
    | cons l ls ih =>
      intro s hd
      have hne : l ≠ d := fun e => hd (e ▸ List.mem_cons_self)
      exact (ih _ fun k => hd (List.mem_cons_of_mem l k)).trans (link_mcOnLink_ne hne)
  induction ls generalizing s with
  | nil => cases hd
  | cons l ls ih =>
    obtain ⟨hl, hn⟩ := List.nodup_cons.mp hn
    rw [List.foldl_cons]
    by_cases e : l = d
    · subst e
      exact other ls _ hl
    · have hd : d ∈ ls := (List.mem_cons.mp hd).resolve_left (Ne.symm e)
      rw [ih hn hd]
      exact link_mcOnLink_congr (mcOnLink_onlyLinks s l h bs).regs (link_mcOnLink_ne e)

end

theorem mcDown_nodup (s : State) (g : Nat) : (mcDown s g).Nodup := List.nodup_range.filter _

/-! ## The streams of a group -/

theorem mcStream_spec {s : State} {g i : Nat} {send : Bool} (h : mcStream s g send = some i) :
    i < 64 ∧ sState s i = Ss.running := by
  refine ⟨List.mem_range.mp (List.mem_of_find?_eq_some h), ?_⟩
  have p := List.find?_some h
  simp only [Bool.and_eq_true, beq_iff_eq] at p
  exact p.1.1.1

/-! ## Bytes that wait for room -/

/-- The first n waiting bytes land where the stream has room. -/
def landRun (s : State) (g i n : Nat) : State :=
  let x := mcg s g
  let u := extend s i
  let p := (strm u i).asked
  let l := land (setMcg u g { x with queue := x.queue.drop n }) i p (x.queue.take n) []
  countBytes (setStrm l i { strm l i with asked := p + n }) i n

/-- A run of waiting bytes is placed; with it sequences may end. -/
def placeRun (s : State) (g i n : Nat) : State := extend (checkEnd (landRun s g i n) i) i

/-- Bytes that a stream has room for among those that wait. -/
def placeable (s : State) (g i : Nat) : Nat :=
  min (mcg s g).queue.length (roomEnd (extend s i) i - (strm (extend s i) i).asked)

section
variable {s : State} {g i k : Nat}

theorem placeQueue_none (h : mcStream s g false = none) : placeQueue (k + 1) s g = s := by
  unfold placeQueue
  rw [h]

theorem placeQueue_full (h : mcStream s g false = some i) (hn : placeable s g i = 0) :
    placeQueue (k + 1) s g = extend s i := by
  unfold placeable at hn
  unfold placeQueue
  rw [h]
  dsimp only
  rw [if_pos hn]

theorem placeQueue_run (h : mcStream s g false = some i) (hn : placeable s g i ≠ 0) :
    placeQueue (k + 1) s g = placeQueue k (placeRun s g i (placeable s g i)) g := by
  unfold placeable at hn
  rw [placeQueue]
  rw [h]
  dsimp only
  rw [if_neg hn]
  rfl

end

/-- No link has changed, and no ELEMWISE has begun. -/
structure PassFrame (s t : State) : Prop where
  links : t.links = s.links
  jobs  : ∀ v, NoElemwise (vein s v) → NoElemwise (vein t v)

theorem StreamFrame.pass {m : Bool} {s t : State} (h : StreamFrame m s t) : PassFrame s t := ⟨h.links, h.jobs⟩

theorem PassFrame.trans {s t u : State} (h : PassFrame s t) (k : PassFrame t u) : PassFrame s u :=
  ⟨k.links.trans h.links, fun v => k.jobs v ∘ h.jobs v⟩

/-- An update of neither links nor veins. -/
theorem PassFrame.of_eq {s t : State} (hl : t.links = s.links) (hv : t.veins = s.veins) : PassFrame s t :=
  ⟨hl, fun v => by unfold vein; rw [hv]; exact id⟩

theorem land_clean (s : State) (i p : Nat) (bs : List Byte) : land s i p bs [] =
    if direct s i then
      setStrm (putAt s i p bs) i { strm (putAt s i p bs) i with
        chunks := fillChunks (strm (putAt s i p bs) i).chunks p bs.length }
    else turnOut (setStrm s i { strm s i with turn := (strm s i).turn ++ (bs.zip (List.range bs.length)).map (fun b =>
      (fifoPos s i (p + b.2), b.1, false)) }) i := rfl

/-- Where no turn unit is in the way, the bytes go to their places. -/
theorem land_direct {s : State} {i p : Nat} {bs : List Byte} (hd : direct s i = true) :
    StreamFrame false s (land s i p bs []) ∧ (land s i p bs []).regs = s.regs ∧
      (land s i p bs []).mica = (putAt s i p bs).mica := by
  rw [land_clean, if_pos hd]
  obtain ⟨M, P, e⟩ := putAt_mica_poison s i p bs
  rw [e]
  have put : StreamFrame false s { s with mica := M, poison := P } :=
    ⟨rfl, rfl, fun _ _ => rfl, fun _ _ => rfl, fun _ => .rfl' _, fun _ => id, nofun⟩
  exact ⟨setStrm_frame ⟨rfl, rfl, id⟩ put, rfl, rfl⟩

theorem land_pass (s : State) (i p : Nat) (bs : List Byte) : PassFrame s (land s i p bs []) := by
  rw [land_clean]
  split
  · obtain ⟨M, P, e⟩ := putAt_mica_poison s i p bs
    rw [e]
    exact .of_eq rfl rfl
  · refine PassFrame.trans ?_ (turnOut_frame (.rfl' false _)).pass
    exact .of_eq rfl rfl

theorem landRun_pass {s : State} {g i n : Nat} (hi : i < 64) : PassFrame s (landRun s g i n) := by
  unfold landRun
  extract_lets x u p l
  have hu : PassFrame s u := (extend_frame hi (.rfl' false s)).pass
  clear_value u
  have hl : PassFrame u l := by
    refine PassFrame.trans ?_ (land_pass _ i p _)
    exact .of_eq rfl rfl
  clear_value l
  have hmoved : PassFrame l (setStrm l i { strm l i with asked := p + n }) := .of_eq rfl rfl
  exact hu.trans (hl.trans (hmoved.trans (countBytes_frame hi (.rfl' false _)).pass))

theorem placeRun_pass {s : State} {g i n : Nat} (hi : i < 64) : PassFrame s (placeRun s g i n) :=
  (landRun_pass hi).trans (extend_frame hi (checkEnd_frame hi (.rfl' false _))).pass

theorem placeQueue_pass (k : Nat) (s : State) (g : Nat) : PassFrame s (placeQueue k s g) := by
  induction k generalizing s with
  | zero => exact .of_eq rfl rfl
  | succ k ih =>
    cases h : mcStream s g false with
    | none =>
      rw [placeQueue_none h]
      exact .of_eq rfl rfl
    | some i =>
      obtain ⟨hi, _⟩ := mcStream_spec h
      by_cases hn : placeable s g i = 0
      · rw [placeQueue_full h hn]
        exact (extend_frame hi (.rfl' false s)).pass
      · rw [placeQueue_run h hn]
        exact (placeRun_pass hi).trans (ih _)

/-- Where no ELEMWISE is in flight, nothing is pumped. -/
theorem pumpAll_idle {s : State} (h : ∀ v, v < 16 → NoElemwise (vein s v)) : pumpAll s = s := by
  have key : ∀ (l : List (Nat × Job)), (∀ p ∈ l, p.2.op ≠ 4) → l.foldl (fun s p => pumpJob s p.1 p.2) s = s := by
    intro l
    induction l with
    | nil => exact fun _ => rfl
    | cons p l ih =>
      intro hl
      have e : pumpJob s p.1 p.2 = s := if_neg (hl p List.mem_cons_self)
      rw [List.foldl_cons, e]
      exact ih fun q hq => hl q (List.mem_cons_of_mem p hq)
  refine key _ fun p hp => ?_
  obtain ⟨v, hv, hp⟩ := List.mem_flatMap.mp hp
  obtain ⟨j, hj, e⟩ := List.mem_filterMap.mp hp
  split at e
  · cases e
  next hd =>
    cases e
    exact h v (List.mem_range.mp hv) j hj (by simpa using hd)

theorem noElemwise_of_allJobs {s : State} (h : ∀ y ∈ allJobs s, y.2.op ≠ 4) {v : Nat} (hv : v < 16) :
    NoElemwise (vein s v) := by
  intro j hj hd
  refine h (v, j) (List.mem_flatMap.mpr ⟨v, List.mem_range.mpr hv, List.mem_filterMap.mpr ⟨j, hj, ?_⟩⟩)
  rw [hd]
  rfl

/-! ### Bytes that all find room, with nothing in any turn unit -/

section
variable {s : State} {g i k : Nat}

/-- With nothing left to place, room may be given, and no more. -/
theorem placeQueue_idle (hq : (mcg s g).queue = []) (ht : ∀ j, (strm s j).turn = []) :
    StreamFrame false s (placeQueue k s g) ∧ (placeQueue k s g).mica = s.mica := by
  cases k with
  | zero => exact ⟨.rfl' _ s, rfl⟩
  | succ k =>
    cases h : mcStream s g false with
    | none =>
      rw [placeQueue_none h]
      exact ⟨.rfl' _ s, rfl⟩
    | some j =>
      obtain ⟨hj, _⟩ := mcStream_spec h
      have hn : placeable s g j = 0 := by
        unfold placeable
        rw [hq]
        exact Nat.zero_min _
      rw [placeQueue_full h hn]
      obtain ⟨S, e⟩ := extend_streams (ht j)
      exact ⟨extend_frame hj (.rfl' false s), e ▸ rfl⟩

/-- Bytes that landed where they have a place, once they are counted. -/
theorem landed_all {u : State} {y : McSt} {p : Nat} {bs : List Byte} (hi : i < 64) (hy : y.queue = [])
    (hd : direct u i = true) (ht : ∀ j, (strm u j).turn = [])
    (hinj : ∀ k k', k < bs.length → k' < bs.length → posAddr u i (p + k) = posAddr u i (p + k') → k = k') :
    let l := land (setMcg u g y) i p bs []
    let w := countBytes (setStrm l i { strm l i with asked := p + bs.length }) i bs.length
    (strm w i).asked = p + bs.length ∧ (mcg w g).queue = [] ∧ (∀ j, (strm w j).turn = []) ∧
      rd w Reg.errRingCfg = rd u Reg.errRingCfg ∧
      ∀ k < bs.length, ∀ a, posAddr u i (p + k) = some a → micaByte w a = bs.getD k 0 := by
  intro l w
  have hdirect : direct (setMcg u g y) i = true := hd
  obtain ⟨frame, regs, mica⟩ := land_direct (p := p) (bs := bs) hdirect
  have places : ∀ k < bs.length, ∀ a, posAddr u i (p + k) = some a → micaByte l a = bs.getD k 0 := fun k hk a ha => by
    have put := micaByte_putAt (s := setMcg u g y) hinj hk ha
    unfold micaByte at put ⊢
    rw [mica]
    exact put
  have hl : l = land (setMcg u g y) i p bs [] := rfl
  rw [← hl] at frame regs
  clear_value l
  have apart : Reg.stmDescW7 i ≠ Reg.errRingCfg := (apart_stmDescW7 hi).2.2
  refine ⟨?_, ?_, fun j => ?_, ?_, places⟩
  · show (strm (setStrm l i _) i).asked = _
    rw [strm_setStrm_self]
  · have e : mcg w g = mcg (setMcg u g y) g := by
      show tabGet McSt.init l.groups g = _
      rw [frame.groups]
      rfl
    rw [e, mcg_setMcg_self]
    exact hy
  · show (strm (setStrm l i _) j).turn = _
    have turn := fun j => (frame.strms j).turn (ht j)
    rw [strm_setStrm]
    split
    · exact turn i
    · exact turn j
  · have e : rd w Reg.errRingCfg = rd l Reg.errRingCfg := rd_setFld_ne _ _ _ apart
    rw [e]
    unfold rd
    rw [regs]
    rfl

section
variable {bs : List Byte} (hi : i < 64) (hq : (mcg s g).queue = bs) (hd : direct s i = true)
  (ht : ∀ j, (strm s j).turn = [])
  (hinj : ∀ k k', k < bs.length → k' < bs.length → posAddr (extend s i) i ((strm s i).asked + k) =
    posAddr (extend s i) i ((strm s i).asked + k') → k = k')
include hi hq hd ht hinj

/-- The bytes lie in order where their positions do. -/
theorem landRun_all : (strm (landRun s g i bs.length) i).asked = (strm s i).asked + bs.length ∧
    (mcg (landRun s g i bs.length) g).queue = [] ∧ (∀ j, (strm (landRun s g i bs.length) j).turn = []) ∧
    rd (landRun s g i bs.length) Reg.errRingCfg = rd s Reg.errRingCfg ∧
    ∀ k < bs.length, ∀ a, posAddr (extend s i) i ((strm s i).asked + k) = some a →
      micaByte (landRun s g i bs.length) a = bs.getD k 0 := by
  obtain ⟨S, hS⟩ := extend_streams (ht i)
  have hu : StreamFrame false s (extend s i) := extend_frame hi (.rfl' false s)
  have hdirect : direct (extend s i) i = true := by rw [hS]; exact hd
  have hring : rd (extend s i) Reg.errRingCfg = rd s Reg.errRingCfg := by rw [hS]; rfl
  unfold landRun
  dsimp only
  rw [hq, (hu.strms i).asked, List.drop_length, List.take_length, ← hring]
  exact landed_all hi rfl hdirect (fun j => (hu.strms j).turn (ht j)) hinj

/-- All that waits is placed once and in order. -/
theorem placeRun_all : (strm (placeRun s g i bs.length) i).asked = (strm s i).asked + bs.length ∧
    (mcg (placeRun s g i bs.length) g).queue = [] ∧ (∀ j, (strm (placeRun s g i bs.length) j).turn = []) ∧
    ∀ k < bs.length, ∀ a, posAddr (extend s i) i ((strm s i).asked + k) = some a → ringByte s a = false →
      micaByte (placeRun s g i bs.length) a = bs.getD k 0 := by
  obtain ⟨asked, queue, turn, ring, mica⟩ := landRun_all hi hq hd ht hinj
  unfold placeRun
  generalize landRun s g i bs.length = w at asked queue turn ring mica ⊢
  have hc : StreamFrame false w (checkEnd w i) := checkEnd_frame hi (.rfl' false w)
  have hr : StreamFrame false w (extend (checkEnd w i) i) := extend_frame hi hc
  obtain ⟨S, hS⟩ := extend_streams ((hc.strms i).turn (turn i))
  refine ⟨(hr.strms i).asked.trans asked, ?_, fun j => (hr.strms j).turn (turn j), fun k hk a ha hring => ?_⟩
  · unfold mcg
    rw [hr.groups]
    exact queue
  · calc micaByte (extend (checkEnd w i) i) a = micaByte (checkEnd w i) a := by rw [hS]; rfl
      _ = micaByte w a := checkEnd_mica hi ((ringByte_congr ring a).trans hring)
      _ = bs.getD k 0 := mica k hk a ha

end

/-- Data that the stream has room for are placed once and in order. -/
theorem placeQueue_places {bs : List Byte} (hi : mcStream s g false = some i) (hq : (mcg s g).queue = bs) (hb : bs ≠ [])
    (hd : direct s i = true) (ht : ∀ j, (strm s j).turn = [])
    (hroom : (strm s i).asked + bs.length ≤ roomEnd (extend s i) i)
    (hinj : ∀ k k', k < bs.length → k' < bs.length → posAddr (extend s i) i ((strm s i).asked + k) =
      posAddr (extend s i) i ((strm s i).asked + k') → k = k') :
    (strm (placeQueue (k + 1) s g) i).asked = (strm s i).asked + bs.length ∧ (mcg (placeQueue (k + 1) s g) g).queue = [] ∧
      ∀ k' < bs.length, ∀ a, posAddr (extend s i) i ((strm s i).asked + k') = some a → ringByte s a = false →
        micaByte (placeQueue (k + 1) s g) a = bs.getD k' 0 := by
  obtain ⟨hi64, _⟩ := mcStream_spec hi
  have hasked : (strm (extend s i) i).asked = (strm s i).asked :=
    ((extend_frame hi64 (.rfl' false s)).strms i).asked
  have hlen : bs.length ≠ 0 := fun e => hb (List.length_eq_zero_iff.mp e)
  have hn : placeable s g i = bs.length := by
    unfold placeable
    rw [hq, hasked]
    omega
  obtain ⟨rasked, rqueue, rturn, rmica⟩ := placeRun_all hi64 hq hd ht hinj
  obtain ⟨frame, mica⟩ := placeQueue_idle (k := k) rqueue rturn
  rw [placeQueue_run hi (hn ▸ hlen), hn]
  refine ⟨(frame.strms i).asked.trans rasked, ?_, fun k' hk a ha hr => ?_⟩
  · unfold mcg
    rw [frame.groups]
    exact rqueue
  · unfold micaByte
    rw [mica]
    exact rmica k' hk a ha hr

end

end Sys2Proof.Machine

/-! PROOFS. Multicast groups (R155 to R158): what a root sends on credit, the credit that goes up, the notice of a group
that stalls, and data and credit that arrive. -/

namespace Sys2Proof.Machine

/-! ## Credit (R157) -/

section
variable {x : McSt} {l : Nat}

theorem linkCredit_pos {c : Nat} (hf : x.creds.find? (fun c => c.1 == l) = some (l, x.sq, c))
    (hc : serialCmp x.parcel c 24 = 1) (hp : x.parcel < 2 ^ 24) : linkCredit x l ≠ 0 := by
  have e : linkCredit x l = (c + 2 ^ 24 - x.parcel) % 2 ^ 24 := by
    unfold linkCredit creditAhead
    rw [hf]
    simp [hc]
  have hd : (c + 2 ^ 24 - x.parcel) % 2 ^ 24 ≠ 0 := fun h => by
    unfold serialCmp at hc
    rw [Nat.mod_eq_of_lt hp] at hc
    dsimp only at hc
    rw [if_pos h] at hc
    cases hc
  exact e ▸ hd

theorem linkCredit_zero (h : ∀ c, ¬ (x.creds.find? (fun c => c.1 == l) = some (l, x.sq, c) ∧ serialCmp x.parcel c 24 = 1)) :
    linkCredit x l = 0 := by
  unfold linkCredit
  cases hf : x.creds.find? (fun c => c.1 == l) with
  | none => rfl
  | some r =>
    obtain ⟨k, q, c⟩ := r
    have hk : k = l := by simpa using List.find?_some hf
    subst hk
    show (if _ then _ else _) = _
    refine if_neg fun hq => ?_
    simp only [Bool.and_eq_true, decide_eq_true_eq, beq_iff_eq] at hq
    obtain ⟨rfl, hc⟩ := hq
    exact h c ⟨hf, hc⟩

end

/-! ## The root moves on -/

section
variable {s₀ s : State} {g i n : Nat}

theorem mcAck_frame (h : StreamFrame false s₀ s) : StreamFrame false s₀ (mcAck s g) := by
  unfold mcAck
  extract_lets x
  refine frame_ite (frame_foldl h fun u j hj hu => ?_) h
  extract_lets d y
  have hj : j < 64 := List.mem_range.mp hj
  have hy : y = strm u j := rfl
  clear_value y
  exact frame_ite (extend_frame hj (checkEnd_frame hj (setStrm_frame (hy ▸ ⟨rfl, rfl, id⟩) hu))) hu

theorem desc_isDeep_congr {s t : State} (h : rd t (Reg.stmDescW6 i) = rd s (Reg.stmDescW6 i)) :
    (desc t i).isDeep = (desc s i).isDeep := by
  unfold desc Desc.isDeep
  rw [h]
  rfl

theorem StreamFrame.mcFrom {s t : State} {m : Bool} (hi : i < 64) (h : StreamFrame m s t) :
    mcFrom t i = mcFrom s i := by
  unfold Machine.mcFrom
  rw [desc_isDeep_congr (h.desc i hi), (h.strms i).asked, (h.strms i).mcSent]

/-- The bytes that a root has sent count for its stream. -/
def countSent (s : State) (g i n : Nat) : State :=
  let y := strm s i
  let p := mcFrom s i
  if (desc s i).isDeep then setStrm s i { y with mcSent := p + n }
  else countBytes (setStrm s i { y with asked := p + n, outst := y.outst ++ [⟨6, (mcg s g).sq, p, n⟩] }) i n

theorem countSent_links (s : State) (g i n : Nat) : (countSent s g i n).links = s.links := by
  unfold countSent
  dsimp only
  split <;> rfl

theorem countSent_mcFrom (hi : i < 64) (s : State) (g n : Nat) : mcFrom (countSent s g i n) i = mcFrom s i + n := by
  unfold countSent
  extract_lets y p
  have hp : p = mcFrom s i := rfl
  clear_value p
  split
  next hd =>
    have hd' : (desc (setStrm s i { y with mcSent := p + n }) i).isDeep = true := hd
    unfold mcFrom
    rw [if_pos hd', strm_setStrm_self]
    exact congrArg (· + n) hp
  next hd =>
    rw [(countBytes_frame (m := false) hi (.rfl' _ _)).mcFrom hi]
    unfold mcFrom
    rw [if_neg (show ¬ (desc (setStrm s i _) i).isDeep = true from hd), strm_setStrm_self]
    exact congrArg (· + n) hp

/-- After the bytes sent a group is at the next of its sequence, or at the next sequence. -/
def moveGroup (x : McSt) (i p n e : Nat) : McSt :=
  if p + n ≥ e then { x with stream := none, sq := (x.sq + 1) % 16, parcel := 0, fill := 0 }
  else { x with stream := some i, parcel := (x.parcel + (x.fill + n) / 4096) % 2 ^ 24, fill := (x.fill + n) % 4096 }

theorem mcSentMore_frame (hi : i < 64) : StreamFrame false
    (setMcg (countSent s g i n) g (moveGroup (mcg s g) i (mcFrom s i) n (seqEndPos (strm s i)))) (mcSentMore s g i n) := by
  unfold mcSentMore
  extract_lets x y p sent f moved
  have hsent : sent = countSent s g i n := rfl
  rw [← hsent]
  clear_value sent
  refine extend_frame hi (checkEnd_frame hi ?_)
  unfold moved moveGroup
  by_cases he : p + n ≥ seqEndPos y
  · rw [if_pos he, if_pos he]
    exact mcAck_frame (.rfl' _ _)
  · rw [if_neg he, if_neg he]
    exact .rfl' _ _

theorem mcSentMore_moves (hi : i < 64) : (mcSentMore s g i n).links = s.links ∧
    mcFrom (mcSentMore s g i n) i = mcFrom s i + n ∧
    mcg (mcSentMore s g i n) g = moveGroup (mcg s g) i (mcFrom s i) n (seqEndPos (strm s i)) := by
  have frame := mcSentMore_frame (s := s) (g := g) (n := n) hi
  refine ⟨frame.links.trans (countSent_links s g i n), (frame.mcFrom hi).trans (countSent_mcFrom hi s g n), ?_⟩
  unfold mcg
  rw [frame.groups]
  exact mcg_setMcg_self ..

end

/-! ## Data go down (R157) -/

/-- Bytes that a root may send next: to the end of the parcel and of the sequence, whole units before that end. -/
def nextBytes (s : State) (g i : Nat) : Nat :=
  let m := min (min (mcReady s i) (seqEndPos (strm s i)) - mcFrom s i) (4096 - (mcg s g).fill)
  if mcFrom s i + m < seqEndPos (strm s i) then m / 64 * 64 else m

/-- The bytes of the stream, as they leave. -/
def leaveBytes (s : State) (i n : Nat) : List Byte :=
  if (desc s i).isOutbound then outAt s i (mcFrom s i) n else (readRange s i (mcFrom s i) n).1

/-- The header of the bytes. -/
def dataHdr (s : State) (g i n : Nat) : McHdr :=
  ⟨g, stratum s, (mcg s g).parcel, (mcg s g).fill / 64, decide (mcFrom s i + n ≥ seqEndPos (strm s i)), (mcg s g).sq⟩

/-- The next bytes of the stream on every forwarding link. -/
def sendDown (s : State) (g i : Nat) : State :=
  (mcDown s g).foldl (fun u l => mcOnLink u l (dataHdr s g i (nextBytes s g i)) (leaveBytes s i (nextBytes s g i)))
    (setMcg s g { mcg s g with stallTicks := 0 })

/-- The next bytes go down, and the root moves on. -/
def sendData (s : State) (g i : Nat) : State := mcSentMore (sendDown s g i) g i (nextBytes s g i)

section
variable {s : State} {g i n : Nat}

theorem memArmed_off (h : injOff s) : memArmed s = false :=
  any_range_false fun n hn => by rw [h n hn]; rfl

theorem touchStream_off (h : injOff s) (p n : Nat) (who : Reader) : touchStream s i p n who = s := by
  unfold touchStream
  simp [memArmed_off h]

theorem outAt_length (hp : s.poison = []) (ht : ∀ b ∈ (strm s i).turn, b.2.2 = false) (p n : Nat) :
    (outAt s i p n).length = n := by
  unfold outAt
  split
  · extract_lets bs clean
    have hbs : bs.length = n := by simp [bs]
    have good : ∀ b ∈ bs, (!b.2.2) = true := by
      intro b hb
      obtain ⟨k, _, rfl⟩ := List.mem_map.mp hb
      cases hf : (strm s i).turn.find? (fun b => b.1 == fifoPos s i (p + k)) with
      | none => rfl
      | some b => simp [ht b (List.mem_of_find?_eq_some hf)]
    have hclean : clean = n := by simp [clean, List.takeWhile_eq_self_iff.mpr good, hbs]
    simp [hclean, hbs]
  · extract_lets as
    have clean : ∀ a ∈ as, (!s.poison.any (fun w => w / 4 = a / 64)) = true := fun a _ => by rw [hp]; rfl
    rw [List.takeWhile_eq_self_iff.mpr clean]
    simp [as]

theorem readRange_unpoisoned (hp : s.poison = []) (p n : Nat) : (readRange s i p n).2 = false := by
  unfold readRange
  simp [hp]

theorem leaveBytes_length (hp : s.poison = []) (ht : ∀ b ∈ (strm s i).turn, b.2.2 = false) :
    (leaveBytes s i n).length = n := by
  unfold leaveBytes
  split
  · exact outAt_length hp ht _ n
  · simp [readRange]

/-- What a root with credit on every forwarding link sends, where no word is poisoned and no injector armed. -/
theorem execMcParcelSend_sends {g : Fin 64} (hroot : mcRoot s g = true) (hx : (mcg s g).stream = none)
    (hi : mcStream s g true = some i) (hinj : injOff s) (hp : s.poison = [])
    (ht : ∀ b ∈ (strm s i).turn, b.2.2 = false)
    (hl : ∀ l ∈ mcDown s g, linkActive s l = true ∧ carries s l 3 = true ∧ linkCredit (mcg s g) l ≠ 0) :
    execMcParcelSend g s = .next (if nextBytes s g i = 0 then s else sendData s g i) := by
  have hrun : sState s i = Ss.running := (mcStream_spec hi).2
  have hall : (mcDown s g).all (fun l => linkActive s l && carries s l 3 && linkCredit (mcg s g) l != 0) = true := by
    rw [List.all_eq_true]
    intro l h
    obtain ⟨ha, hc, hn⟩ := hl l h
    simp [ha, hc, hn]
  unfold execMcParcelSend
  congr 1
  extract_lets k x ls
  rw [show x.stream = none from hx]
  change (match mcStream s k true with | none => s | some i => _) = _
  rw [show mcStream s k true = some i from hi]
  change (if _ then s else _) = _
  rw [if_neg (by rw [hroot, hrun, hall]; decide)]
  extract_lets p e m n touched clean started
  have htouched : s = touched := by
    unfold touched
    rw [touchStream_off hinj, ite_self]
  have hstarted : started = setMcg touched k { x with stallTicks := 0 } :=
    congrArg (fun o => setMcg touched k { x with stream := o, stallTicks := 0 }) (show none = x.stream from hx.symm)
  have hread : readRange touched i p n = ((readRange s i p n).1, false) := by
    rw [← htouched, ← readRange_unpoisoned hp p n]
  clear_value started clean touched
  subst htouched
  rw [hread]
  change (if n = 0 then s else if (leaveBytes s i n).isEmpty then poisonHalt s i else
    mcSentMore (ls.foldl (fun u l => mcOnLink u l ⟨k, stratum s, x.parcel, x.fill / 64,
      decide (p + (leaveBytes s i n).length ≥ e), x.sq⟩ (leaveBytes s i n)) started) k i
        (leaveBytes s i n).length) = _
  rw [leaveBytes_length hp ht, hstarted]
  by_cases h0 : n = 0
  · rw [if_pos h0, if_pos (show nextBytes s g i = 0 from h0)]
  · rw [if_neg h0, if_neg (by simp [← List.length_eq_zero_iff, leaveBytes_length hp ht, h0]),
      if_neg (show nextBytes s g i ≠ 0 from h0)]
    rfl

theorem mcFrom_congr {s t : State} (hr : t.regs = s.regs) (hs : t.streams = s.streams) : mcFrom t i = mcFrom s i := by
  unfold mcFrom desc rd strm
  rw [hr, hs]

/-- Data stand on each forwarding link, the stream has moved on, and the group with it. -/
theorem sendData_moves (hi : i < 64) :
    let n := nextBytes s g i
    mcFrom (sendData s g i) i = mcFrom s i + n ∧
    (∀ l ∈ mcDown s g, link (sendData s g i) l = link (mcOnLink s l (dataHdr s g i n) (leaveBytes s i n)) l) ∧
    mcg (sendData s g i) g =
      moveGroup { mcg s g with stallTicks := 0 } i (mcFrom s i) n (seqEndPos (strm s i)) := by
  intro n
  obtain ⟨L, hL⟩ : OnlyLinks (setMcg s g { mcg s g with stallTicks := 0 }) (sendDown s g i) :=
    .foldl (fun _ _ => mcOnLink_onlyLinks ..) _ _
  have hfrom : mcFrom (sendDown s g i) i = mcFrom s i := by rw [hL]; exact mcFrom_congr rfl rfl
  have hstrm : strm (sendDown s g i) i = strm s i := by rw [hL]; rfl
  have hgroup : mcg (sendDown s g i) g = { mcg s g with stallTicks := 0 } := by rw [hL]; exact mcg_setMcg_self ..
  have hlink : ∀ l ∈ mcDown s g,
      link (sendDown s g i) l = link (mcOnLink s l (dataHdr s g i n) (leaveBytes s i n)) l := fun l hl =>
    (link_foldl_mcOnLink (mcDown_nodup s g) hl _).trans (link_mcOnLink_congr rfl rfl)
  unfold sendData
  generalize sendDown s g i = u at hfrom hstrm hgroup hlink
  obtain ⟨mlinks, mfrom, mgroup⟩ := mcSentMore_moves (s := u) (g := g) (n := n) hi
  refine ⟨mfrom.trans (congrArg (· + n) hfrom), fun l hl => ?_, ?_⟩
  · unfold link
    rw [mlinks]
    exact hlink l hl
  · rw [mgroup, hgroup, hfrom, hstrm]

/-- Without credit on one of its forwarding links a root sends nothing. -/
theorem execMcParcelSend_noCredit {g : Fin 64} {l : Nat} (hl : l ∈ mcDown s g) (hc : linkCredit (mcg s g) l = 0) :
    execMcParcelSend g s = .next s := by
  have hall : (mcDown s g).all (fun l => linkActive s l && carries s l 3 && linkCredit (mcg s g) l != 0) = false := by
    rw [List.all_eq_false]
    exact ⟨l, hl, by simp [hc]⟩
  unfold execMcParcelSend
  congr 1
  extract_lets k x ls
  split
  · rfl
  · rw [if_pos (by rw [hall]; simp)]

end

/-! ## Credit goes up, and a group that stalls (R157, R158) -/

section
variable {s : State} {g : Fin 64}

theorem execMcCreditGrant_returns (hm : mcMember s g = true) (hr : mcRoot s g = false)
    (ha : linkActive s (fld s (Reg.stmMcast g) Fl.stmMcast_UPLINK) = true)
    (hc : carries s (fld s (Reg.stmMcast g) Fl.stmMcast_UPLINK) 3 = true)
    (hn : creditAhead (mcg s g) (mcg s g).sentUp < treeCredit s g) :
    execMcCreditGrant g s = .next (sendMccred
      (setMcg s g { mcg s g with sentUp := some ((mcg s g).sq, ((mcg s g).parcel + treeCredit s g) % 2 ^ 24) })
      (fld s (Reg.stmMcast g) Fl.stmMcast_UPLINK) g (mcg s g).sq
      ((((mcg s g).parcel + treeCredit s g) % 2 ^ 24 + 2 ^ 24 - 1) % 2 ^ 24)) := by
  unfold execMcCreditGrant
  exact congrArg _ (if_neg (by simp [hm, hr, ha, hc]; exact hn))

theorem execMcCreditGrant_holds (hn : treeCredit s g ≤ creditAhead (mcg s g) (mcg s g).sentUp) :
    execMcCreditGrant g s = .next s := by
  unfold execMcCreditGrant
  exact congrArg _ (if_pos (by simp [hn]))

theorem execMcStall_stalls {b : Nat} (hs : mcStarved s g = true) (h0 : fld s Reg.stmCtrl Fl.stmCtrl_MCTO ≠ 0)
    (ht : fld s Reg.stmCtrl Fl.stmCtrl_MCTO ≤ (mcg s g).stallTicks)
    (hf : flag s (Reg.stmMcast g) Fl.stmMcast_STALLED = false) :
    execMcStall g b s = .next (notice (setFld (setFlag s (Reg.stmMcast g) Fl.stmMcast_STALLED true) (Reg.stmMcast g)
      Fl.stmMcast_BLOCKER b) Unit.stm) := by
  unfold execMcStall
  exact congrArg _ (if_pos (by simp [hs, h0, ht, hf]))

theorem execMcStall_fed {b : Nat} (hs : mcStarved s g = false) : execMcStall g b s = .next s := by
  unfold execMcStall
  exact congrArg _ (if_neg (by simp [hs]))

/-- What the notice of a stalled group shows. -/
theorem stallNotice_shows (g : Fin 64) (b : Nat) (s : State) :
    let t := notice (setFld (setFlag s (Reg.stmMcast g) Fl.stmMcast_STALLED true) (Reg.stmMcast g)
      Fl.stmMcast_BLOCKER b) Unit.stm
    flag t (Reg.stmMcast g) Fl.stmMcast_STALLED = true ∧ fld t (Reg.stmMcast g) Fl.stmMcast_BLOCKER = b % 2 ^ 10 ∧
      flag t Reg.errAtn Fl.errAtn_NOTE = true ∧ RegsOnly s t := by
  have hg := g.isLt
  have atn : Reg.errAtn ≠ Reg.stmMcast g := by unfold Reg.errAtn Reg.stmMcast; omega
  have sum : Reg.errSummary ≠ Reg.stmMcast g := by unfold Reg.errSummary Reg.stmMcast; omega
  intro t
  have kept : ∀ f, fld t (Reg.stmMcast g) f = fld (setFld (setFlag s (Reg.stmMcast g) Fl.stmMcast_STALLED true)
      (Reg.stmMcast g) Fl.stmMcast_BLOCKER b) (Reg.stmMcast g) f := fun f =>
    (fld_setFld_ne _ _ _ _ sum).trans (fld_setFld_ne _ _ _ _ atn)
  refine ⟨?_, ?_, ?_, (((RegsOnly.rfl' s).setFlag _ _ _).setFld _ _ _).setFlag _ _ _ |>.setFld _ _ _⟩
  · unfold flag
    rw [kept, fld_setFld_other _ _ _ _ _ (by decide) (by decide)]
    exact flag_setFlag_self _ _ _ _ (by decide) (by decide)
  · rw [kept, fld_setFld_self _ _ _ _ (by decide)]
    rfl
  · show flag (summarize _ _) _ _ = true
    unfold flag summarize
    rw [fld_setFld_ne _ _ _ _ (by decide)]
    exact flag_setFlag_self _ _ _ _ (by decide) (by decide)

end

/-! ## Data and credit arrive (R156, R157) -/

/-- A member's group after data with the header: at the next of the sequence, or at the next sequence. -/
def dataMoves (x : McSt) (h : McHdr) (n : Nat) : McSt :=
  if h.last then { x with sq := (h.sq + 1) % 16, parcel := 0, fill := 0 }
  else { x with
    sq := h.sq % 16
    parcel := (h.parcel + (64 * h.first + n) / 4096) % 2 ^ 24
    fill := (64 * h.first + n) % 4096 }

theorem dataMoves_queue (x : McSt) (h : McHdr) (n : Nat) : (dataMoves x h n).queue = x.queue := by
  unfold dataMoves
  split <;> rfl

section
variable {s : State} {l : Fin 6} {h : McHdr} {bytes : List Byte}

theorem onLink_passes {l vc t : Nat} {go : State → State} (ha : linkActive s l = true) (hc : carries s l vc = true) :
    onLink s l vc t go = go (drainMsg s l vc (msgType t)) := by
  unfold onLink onChannel
  rw [ha, hc]
  rfl

section
variable (ha : linkActive s l = true) (hc : carries s l 3 = true)
include ha hc

theorem execMcdata_passes {g : Nat} (hg : h.group % 64 = g) (hu : fld s (Reg.stmMcast g) Fl.stmMcast_UPLINK ≠ l) :
    execMcdata l h bytes s = .next (drainMsg s l 3 (msgType 1)) := by
  subst hg
  have hu' : fld (drainMsg s l 3 (msgType 1)) (Reg.stmMcast (h.group % 64)) Fl.stmMcast_UPLINK ≠ l := hu
  unfold execMcdata
  rw [onLink_passes ha hc]
  exact congrArg _ (if_pos (by simp [hu']))

/-- A member forwards data of its uplink, and consumes them where it does. -/
theorem execMcdata_takes {g : Nat} (hg : h.group % 64 = g) (hm : mcMember s g = true) (hr : mcRoot s g = false)
    (hu : fld s (Reg.stmMcast g) Fl.stmMcast_UPLINK = l) :
    ∃ L, (∀ d ∈ mcDown s g, tabGet LinkSt.init L d = link (mcOnLink (drainMsg s l 3 (msgType 1)) d h bytes) d) ∧
      let moved := dataMoves (mcg s g) h bytes.length
      execMcdata l h bytes s = .next (if mcConsume s g then
        pumpAll (placeQueue (bytes.length + 1)
          (withNet s L (tabSet s.groups g { moved with queue := moved.queue ++ bytes })) g)
        else withNet s L (tabSet s.groups g moved)) := by
  subst hg
  have drain : OnlyLinks s (drainMsg s l 3 (msgType 1)) := drainMsg_onlyLinks ..
  unfold execMcdata
  rw [onLink_passes ha hc]
  generalize drainMsg s l 3 (msgType 1) = u at drain ⊢
  obtain ⟨L, hL⟩ := drain.trans (.foldl (fun u d => mcOnLink_onlyLinks u d h bytes) (mcDown s (h.group % 64)) u)
  have hdown : mcDown u (h.group % 64) = mcDown s (h.group % 64) := by obtain ⟨M, rfl⟩ := drain; rfl
  have hopen : (!mcMember u (h.group % 64) || mcRoot u (h.group % 64) ||
      fld u (Reg.stmMcast (h.group % 64)) Fl.stmMcast_UPLINK != l.val) = false := by
    obtain ⟨M, rfl⟩ := drain
    have hm' : mcMember { s with links := M } (h.group % 64) = true := hm
    have hr' : mcRoot { s with links := M } (h.group % 64) = false := hr
    have hu' : fld { s with links := M } (Reg.stmMcast (h.group % 64)) Fl.stmMcast_UPLINK = l := hu
    rw [hm', hr', hu']
    simp
  refine ⟨L, fun d hd => ?_, ?_⟩
  · rw [← link_foldl_mcOnLink (mcDown_nodup s _) hd, hL]
    rfl
  · intro moved
    congr 1
    change (if _ then _ else _) = _
    rw [if_neg (by rw [hopen]; decide), hdown, hL]
    rfl

/-- A credit from a forwarding link is kept. -/
def keepCredit (x : McSt) (l sq parcel : Nat) : McSt :=
  { x with
    creds := x.creds.filter (fun c => c.1 != l) ++ [(l, sq % 16, (parcel + 1) % 2 ^ 24)]
    stallTicks := 0 }

omit ha hc in
theorem keepCredit_find (x : McSt) (l sq parcel : Nat) :
    (keepCredit x l sq parcel).creds.find? (fun c => c.1 == l) = some (l, sq % 16, (parcel + 1) % 2 ^ 24) := by
  have none : (x.creds.filter (fun c => c.1 != l)).find? (fun c => c.1 == l) = none := by
    rw [List.find?_eq_none]
    intro c hc
    simpa using (List.mem_filter.mp hc).2
  unfold keepCredit
  rw [List.find?_append, none]
  simp

theorem execMccred_passes {g : Fin 64} {sq parcel : Nat} (hl : l.val ∉ mcDown s g) :
    execMccred l g sq parcel s = .next (drainMsg s l 3 (msgType 2)) := by
  have hl' : l.val ∉ mcDown (drainMsg s l 3 (msgType 2)) g := hl
  unfold execMccred
  rw [onLink_passes ha hc]
  exact congrArg _ (if_pos (by simp [hl']))

theorem execMccred_keeps {g : Fin 64} {sq parcel : Nat} (hm : mcMember s g = true) (hl : l.val ∈ mcDown s g) :
    ∃ t, execMccred l g sq parcel s = .next t ∧ mcg t g = keepCredit (mcg s g) l sq parcel ∧
      flag t (Reg.stmMcast g) Fl.stmMcast_STALLED = false := by
  have hm' : mcMember (drainMsg s l 3 (msgType 2)) g = true := hm
  have hl' : l.val ∈ mcDown (drainMsg s l 3 (msgType 2)) g := hl
  have hsame : mcg (drainMsg s l 3 (msgType 2)) g = mcg s g := rfl
  generalize hu : drainMsg s l 3 (msgType 2) = w at hm' hl' hsame
  obtain ⟨kept, hkept⟩ : ∃ u, u = setMcg w g (keepCredit (mcg w g) l sq parcel) := ⟨_, rfl⟩
  have run : execMccred l g sq parcel s = .next (let u := setFlag kept (Reg.stmMcast g) Fl.stmMcast_STALLED false
      if mcRoot u g then mcAck u g else u) := by
    rw [hkept]
    unfold execMccred
    rw [onLink_passes ha hc, hu]
    exact congrArg _ (if_neg (by simp [hm', hl']))
  have group : mcg kept g = keepCredit (mcg s g) l sq parcel := by rw [hkept, mcg_setMcg_self, hsame]
  clear hkept
  have clear : flag (setFlag kept (Reg.stmMcast g) Fl.stmMcast_STALLED false) (Reg.stmMcast g) Fl.stmMcast_STALLED = false :=
    flag_setFlag_self _ _ _ _ (by decide) (by decide)
  have group' : mcg (setFlag kept (Reg.stmMcast g) Fl.stmMcast_STALLED false) g = keepCredit (mcg s g) l sq parcel :=
    (mcg_setFlag ..).trans group
  generalize setFlag kept (Reg.stmMcast g) Fl.stmMcast_STALLED false = u at run clear group'
  have frame : StreamFrame false u (if mcRoot u g then mcAck u g else u) :=
    frame_ite (mcAck_frame (.rfl' _ u)) (.rfl' _ u)
  refine ⟨_, run, ?_, (frame.stalled g g.isLt).trans clear⟩
  rw [← group']
  unfold mcg
  rw [frame.groups]

end

/-- Where no ELEMWISE is in flight, data that wait at a member change no link, and nothing is pumped. -/
theorem consumed_links {k g : Nat} {L : List (Nat × LinkSt)} {G : List (Nat × McSt)} (hj : ∀ y ∈ allJobs s, y.2.op ≠ 4) :
    pumpAll (placeQueue k (withNet s L G) g) = placeQueue k (withNet s L G) g ∧
      (placeQueue k (withNet s L G) g).links = L := by
  have pass := placeQueue_pass k (withNet s L G) g
  exact ⟨pumpAll_idle fun v hv => pass.jobs v (noElemwise_of_allJobs hj hv), pass.links⟩

/-- Data that a member consumes and has room for are placed once and in order. -/
theorem consumed_places {g i k : Nat} {L : List (Nat × LinkSt)} (hi : mcStream s g false = some i)
    (hq : (mcg s g).queue = []) (hb : bytes ≠ []) (hd : direct s i = true) (ht : ∀ j, (strm s j).turn = [])
    (hroom : (strm s i).asked + bytes.length ≤ roomEnd (extend s i) i)
    (hinj : ∀ k k', k < bytes.length → k' < bytes.length → posAddr (extend s i) i ((strm s i).asked + k) =
      posAddr (extend s i) i ((strm s i).asked + k') → k = k') :
    let moved := dataMoves (mcg s g) h bytes.length
    let t := placeQueue (k + 1) (withNet s L (tabSet s.groups g { moved with queue := moved.queue ++ bytes })) g
    (strm t i).asked = (strm s i).asked + bytes.length ∧ (mcg t g).queue = [] ∧
      ∀ k < bytes.length, ∀ a, posAddr (extend s i) i ((strm s i).asked + k) = some a → ringByte s a = false →
        micaByte t a = bytes.getD k 0 := by
  intro moved
  have hmoved : moved.queue = [] := (dataMoves_queue ..).trans hq
  clear_value moved
  have wait : (mcg (setMcg s g { moved with queue := moved.queue ++ bytes }) g).queue = bytes := by
    rw [mcg_setMcg_self, hmoved]
    rfl
  generalize hG : tabSet s.groups g { moved with queue := moved.queue ++ bytes } = G
  have room : extend (withNet s L G) i = withNet (extend s i) L G := extend_net (ht i) L G
  have hi' : mcStream (withNet s L G) g false = some i := hi
  have hq' : (mcg (withNet s L G) g).queue = bytes := by rw [← hG]; exact wait
  have hd' : direct (withNet s L G) i = true := hd
  have hroom' : (strm (withNet s L G) i).asked + bytes.length ≤ roomEnd (extend (withNet s L G) i) i := by
    rw [room]
    exact hroom
  have hinj' : ∀ k k', k < bytes.length → k' < bytes.length →
      posAddr (extend (withNet s L G) i) i ((strm (withNet s L G) i).asked + k) =
        posAddr (extend (withNet s L G) i) i ((strm (withNet s L G) i).asked + k') → k = k' := by
    rw [room]
    exact hinj
  obtain ⟨asked, queue, places⟩ := placeQueue_places (k := k) hi' hq' hb hd' ht hroom' hinj'
  rw [room] at places
  exact ⟨asked, queue, places⟩

end

end Sys2Proof.Machine

/-! ## The obligation -/

namespace Sys2Proof.Proofs
open Sys2Proof.Machine

/-- Settles O38: each clause is what the command does where its guard holds. What a root sends stands when its sequence
ends and room is made (`mcSentMore_frame`); what a member places, by `placeQueue_places`. -/
theorem multicastMovesParcelsOnCredit : Obligations.MulticastMovesParcelsOnCredit := by
  unfold Obligations.MulticastMovesParcelsOnCredit
  intro s g x credited
  refine ⟨?send, ?noCredit, ?grant, ?stalls, ?fed, ?data, ?credit⟩
  case send =>
    intro i hroot hx hi hinj hp ht hl hparcel p e m n h
    obtain ⟨hi64, _⟩ := mcStream_spec hi
    have hc : ∀ l ∈ mcDown s g, linkActive s l = true ∧ carries s l 3 = true ∧ linkCredit (mcg s g) l ≠ 0 := fun l hmem => by
      obtain ⟨ha, hc, c, hf, hs⟩ := hl l hmem
      exact ⟨ha, hc, linkCredit_pos hf hs hparcel⟩
    have run := execMcParcelSend_sends hroot hx hi hinj hp ht hc
    refine ⟨fun h0 => run.trans (congrArg _ (if_pos h0)), fun h0 => ⟨_, run.trans (congrArg _ (if_neg h0)), ?_⟩⟩
    obtain ⟨moved, links, group⟩ := sendData_moves (s := s) (g := g) hi64
    refine ⟨moved, links, fun hlt => ?_, fun hge => ?_⟩
    · have within := group.trans (if_neg (Nat.not_le.mpr hlt))
      exact ⟨(congrArg McSt.sq within :), (congrArg McSt.parcel within :), (congrArg McSt.fill within :)⟩
    · have ended := group.trans (if_pos hge)
      exact ⟨(congrArg McSt.sq ended :), (congrArg McSt.parcel ended :), (congrArg McSt.fill ended :)⟩
  case noCredit =>
    exact fun l hl hc => execMcParcelSend_noCredit hl (linkCredit_zero hc)
  case grant =>
    exact fun hm hr ha hc => ⟨execMcCreditGrant_returns hm hr ha hc, execMcCreditGrant_holds⟩
  case stalls =>
    intro b hs h0 ht hf
    obtain ⟨stalled, blocker, note, only⟩ := stallNotice_shows g b s
    exact ⟨_, execMcStall_stalls hs h0 ht hf, stalled, blocker, note, only⟩
  case fed =>
    exact fun b hs => execMcStall_fed hs
  case data =>
    intro l h bytes hg ha hc hm hr
    have hg' : h.group % 64 = g := by have := g.isLt; omega
    refine ⟨execMcdata_passes (bytes := bytes) ha hc hg', fun hu hj => ?_⟩
    obtain ⟨L, links, run⟩ := execMcdata_takes (bytes := bytes) ha hc hg' hm hr hu
    cases hcons : mcConsume s g with
    | false =>
      refine ⟨_, run.trans (congrArg _ (if_neg (by rw [hcons]; decide))), links, fun _ => ⟨?_, rfl, rfl⟩, nofun⟩
      exact (congrArg McSt.queue (mcg_setMcg_self ..)).trans (dataMoves_queue ..)
    | true =>
      obtain ⟨idle, same⟩ := consumed_links (k := bytes.length + 1) (g := g) (L := L) (G := tabSet s.groups g
        { dataMoves (mcg s g) h bytes.length with queue := (dataMoves (mcg s g) h bytes.length).queue ++ bytes }) hj
      refine ⟨_, run.trans (congrArg _ ((if_pos hcons).trans idle)), fun d hd => ?_, nofun, ?_⟩
      · unfold link
        rw [same]
        exact links d hd
      · exact fun i _ hi hq hb hd ht hroom hinj => consumed_places hi hq hb hd ht hroom hinj
  case credit =>
    intro l sq parcel ha hc hm
    refine ⟨fun hl => ?_, execMccred_passes ha hc⟩
    obtain ⟨t, run, group, stalled⟩ := execMccred_keeps (sq := sq) (parcel := parcel) ha hc hm hl
    exact ⟨t, run, group ▸ keepCredit_find _ _ _ _, group ▸ rfl, stalled⟩

end Sys2Proof.Proofs

/-! PROOFS. Tokens close frames (R16, R241 to R243): the block's own token, the tokens of its children, and a child that
is left out of the accounting. -/

namespace Sys2Proof.Machine

/-! ## Tables and Flint -/

section
variable {α : Type} {k : Nat} {v : α}

/-- An entry put into a table without its key is the first of its key. -/
theorem find?_mapIns_self {m : List (Nat × α)} (h : ∀ p ∈ m, p.1 ≠ k) :
    (mapIns k v m).find? (fun p => p.1 == k) = some (k, v) := by
  induction m with
  | nil => simp [mapIns]
  | cons p m ih =>
    obtain ⟨hp, hm⟩ := List.forall_mem_cons.mp h
    unfold mapIns
    split
    · simp
    · rw [List.find?_cons_of_neg (by simpa using hp)]
      exact ih hm

theorem find?_tabSet_self (m : List (Nat × α)) : (tabSet m k v).find? (fun p => p.1 == k) = some (k, v) :=
  find?_mapIns_self fun _ hp => (mem_mapDel.mp hp).2

end

theorem injOne_off {s : State} {det n : Nat} {x : InjSel} {busy : Bool} {hit : Option Nat} (h : injArmed s n = false) :
    injOne det x busy (hit, s) n = (hit, s) := by
  unfold injOne
  simp [h]

/-- With no injector armed none fires, and an event leaves the state alone. -/
theorem flintHit_off {s : State} (h : injOff s) (det : Nat) (x : InjSel) (busy : Bool) :
    flintHit s det x busy = (none, s) := by
  have key : ∀ ns : List Nat, (∀ n ∈ ns, n < 8) → ns.foldl (injOne det x busy) (none, s) = (none, s) := by
    intro ns
    induction ns with
    | nil => exact fun _ => rfl
    | cons n ns ih =>
      intro hns
      obtain ⟨hn, hns⟩ := List.forall_mem_cons.mp hns
      rw [List.foldl_cons, injOne_off (h n hn)]
      exact ih hns
  exact key _ fun _ => List.mem_range.mp

theorem flint_off {s : State} (h : injOff s) (det : Nat) (x : InjSel) (busy : Bool) : flint s det x busy = (false, s) := by
  unfold flint
  rw [flintHit_off h]
  rfl

/-! ## The block's own token (R16, R241) -/

section
variable {s : State}

theorem sendTokenMsg_onlyLinks (s : State) (l frame blocks : Nat) (late : Bool) (lowest : Nat) :
    OnlyLinks s (sendTokenMsg s l frame blocks late lowest) := sendMsg_onlyLinks ..

theorem tokenUp_onlyLinks (s : State) (frame : Nat) (x : Bool × Nat × Nat) : OnlyLinks s (tokenUp s frame x) := by
  unfold tokenUp
  split
  · exact .rfl' s
  · exact sendTokenMsg_onlyLinks ..

theorem OnlyLinks.crn {s t : State} (h : OnlyLinks s t) : t.crn = s.crn := by
  obtain ⟨L, rfl⟩ := h
  rfl

theorem tokenUp_tripped {frame : Nat} {x : Bool × Nat × Nat} (h : s.trm.tripped = true) : tokenUp s frame x = s :=
  if_pos (by simp [h])

theorem tokenUp_sends {frame : Nat} {x : Bool × Nat × Nat} (hu : uplink s < 6) (ht : s.trm.tripped = false) :
    tokenUp s frame x = sendTokenMsg s (uplink s) frame x.2.2 x.1 (if x.1 then x.2.1 else 0) :=
  if_neg (by simp [ht]; omega)

/-- The state with the token of the open frame noted. -/
def withToken (s : State) (x : Bool × Nat × Nat) : State := setCrn s (fun c => { c with token := some x })

/-- Beside the token and the links nothing has changed. -/
theorem withToken_rest {x : Bool × Nat × Nat} {t : State} (h : OnlyLinks (withToken s x) t) :
    { t with links := s.links, crn := s.crn } = s := by
  obtain ⟨L, rfl⟩ := h
  rfl

theorem sendToken_lode {late : Bool} (h : isLode s = true) :
    sendToken s late = withToken s (tokenOver s s.crn.tokens late) := if_pos h

theorem sendToken_follower {late : Bool} (h : isLode s = false) :
    sendToken s late = tokenUp (withToken s (tokenOver s s.crn.tokens late)) (frameNo s) (tokenOver s s.crn.tokens late) :=
  if_neg (by rw [Bool.not_eq_true]; exact h)

theorem sendToken_onlyLinks (s : State) (late : Bool) :
    OnlyLinks (withToken s (tokenOver s s.crn.tokens late)) (sendToken s late) := by
  cases h : isLode s with
  | true => rw [sendToken_lode h]; exact .rfl' _
  | false => rw [sendToken_follower h]; exact tokenUp_onlyLinks ..

/-- The Lodestone keeps its token, and a tripped block sends none. -/
theorem sendToken_quiet {late : Bool} (h : isLode s = true ∨ s.trm.tripped = true) :
    (sendToken s late).links = s.links := by
  cases hl : isLode s with
  | true => rw [sendToken_lode hl]; rfl
  | false =>
    have ht : (withToken s (tokenOver s s.crn.tokens late)).trm.tripped = true := h.resolve_left (by rw [hl]; decide)
    rw [sendToken_follower hl, tokenUp_tripped ht]
    rfl

theorem sendToken_link {late : Bool} (hl : isLode s = false) (ht : s.trm.tripped = false) (hu : uplink s < 6) :
    let x := tokenOver s s.crn.tokens late
    link (sendToken s late) (uplink s) =
      link (sendTokenMsg s (uplink s) (frameNo s) x.2.2 x.1 (if x.1 then x.2.1 else 0)) (uplink s) := by
  intro x
  have hu' : uplink (withToken s x) < 6 := hu
  have ht' : (withToken s x).trm.tripped = false := ht
  rw [sendToken_follower hl, tokenUp_sends hu' ht']
  exact link_sendMsg_congr rfl rfl

theorem execFrameDoneToken_sends (hsu : s.su = .run ∨ s.su = .ready) (hopen : s.crn.opened = true)
    (htok : s.crn.token = none) (hidle : frameIdle s = true) (hkids : kidsIn s = true) :
    exec .frameDoneToken s = .next (sendToken s false) :=
  congrArg Host.Outcome.next (if_pos (by rcases hsu with hsu | hsu <;> simp [hsu, hopen, htok, hidle, hkids]))

theorem execFrameDoneToken_waits
    (h : s.crn.opened = false ∨ s.crn.token ≠ none ∨ frameIdle s = false ∨ kidsIn s = false) :
    exec .frameDoneToken s = .next s := by
  refine congrArg Host.Outcome.next (if_neg ?_)
  rcases h with h | h | h | h
  · simp [h]
  · simp [Option.isNone_eq_false_iff.mpr (Option.isSome_iff_ne_none.mpr h)]
  · simp [h]
  · simp [h]

end

/-! ## The token of the frame before (R241) -/

/-- What the block's own token of the frame before waits for after a child's token of frame f. -/
def closingAfter (s : State) (l f : Nat) (x : Nat × Bool × Nat) : Option Closing :=
  match s.crn.closing with
  | none => none
  | some c =>
    if c.frame ≠ f then some c
    else if allIn s (tabSet c.got l x) then none else some { c with got := tabSet c.got l x }

theorem closingAfter_counts {s : State} {l f : Nat} {x : Nat × Bool × Nat} {c : Closing} (h : s.crn.closing = some c)
    (hf : c.frame = f) : closingAfter s l f x =
      if allIn s (tabSet c.got l x) then none else some { c with got := tabSet c.got l x } := by
  unfold closingAfter
  rw [h]
  exact if_neg (not_not_intro hf)

/-- The state in which that token waits so. -/
def withClosing (s : State) (c : Option Closing) : State := setCrn s (fun x => { x with closing := c })

section
variable {s : State}

theorem withClosing_self : withClosing s s.crn.closing = s := rfl

theorem sendClosing_leaves {c : Closing} (h : s.crn.closing = some c) : OnlyLinks (withClosing s none) (sendClosing s) := by
  unfold sendClosing
  rw [h]
  dsimp only
  split
  · exact .rfl' _
  · exact tokenUp_onlyLinks ..

theorem closedToken_counts (s : State) (l f blocks : Nat) (late : Bool) (lowest : Nat) :
    OnlyLinks (withClosing s (closingAfter s l f (blocks, late, lowest))) (closedToken s l f blocks late lowest) := by
  unfold closedToken closingAfter
  cases h : s.crn.closing with
  | none =>
    have e : withClosing s none = s := h ▸ withClosing_self
    simp only [e]
    exact .rfl' s
  | some c =>
    have e : withClosing s (some c) = s := h ▸ withClosing_self
    dsimp only
    by_cases hf : c.frame = f
    · rw [if_neg (not_not_intro hf), if_neg (not_not_intro hf)]
      have same (c' : Option Closing) : allIn (setCrn s fun x => { x with closing := c' })
          (tabSet c.got l (blocks, late, lowest)) = allIn s (tabSet c.got l (blocks, late, lowest)) := rfl
      rw [same]
      split
      · exact sendClosing_leaves rfl
      · exact .rfl' _
    · rw [if_pos hf, if_pos hf, e]
      exact .rfl' s

end

/-! ## A child's token (R241 to R243) -/

/-- A child's token is there: its message has left the receive buffer, it is a child, and a late token is noted. -/
def tokenNoted (s : State) (l f : Nat) (late : Bool) (lowest : Nat) : State :=
  noteLate (addKid (drainMsg s l 0 (msgType 7)) l) f lowest late

/-- The token goes where its frame belongs. -/
def tokenFiled (s : State) (l f blocks : Nat) (late : Bool) (lowest : Nat) : State :=
  match serialCmp f (frameNo s) 48 with
  | 0 => takeToken s l blocks late lowest
  | 2 => setCrn s (fun c => { c with early := tabSet c.early l (f, blocks, late, lowest) })
  | _ => closedToken s l f blocks late lowest

section
variable {s : State} {l f blocks lowest : Nat} {late : Bool}

theorem noteLate_crn (s : State) (f lowest : Nat) (late : Bool) : (noteLate s f lowest late).crn = s.crn := by
  unfold noteLate
  split
  · rw [setFld_crn, setFld_crn]
  · rfl

theorem frameNo_noteLate (s : State) (f lowest : Nat) (late : Bool) : frameNo (noteLate s f lowest late) = frameNo s := by
  have ne : Reg.crnLate ≠ Reg.crnFrame := by decide
  unfold noteLate frameNo
  split
  · rw [fld_setFld_ne _ _ _ _ ne, fld_setFld_ne _ _ _ _ ne]
  · rfl

theorem tokenNoted_crn : (tokenNoted s l f late lowest).crn = { s.crn with kids := insNat l s.crn.kids } :=
  noteLate_crn ..

theorem frameNo_tokenNoted : frameNo (tokenNoted s l f late lowest) = frameNo s := frameNo_noteLate ..

/-- The Lodestone shows the frame and the stratum of the last late token. -/
theorem tokenNoted_shows (hlode : isLode s = true) (hf : f < 2 ^ 48) (hlow : lowest < 2 ^ 10) :
    fld (tokenNoted s l f true lowest) Reg.crnLate Fl.crnLate_FRAME = f ∧
      fld (tokenNoted s l f true lowest) Reg.crnLate Fl.crnLate_STRAT = lowest := by
  have lode : (true && isLode (addKid (drainMsg s l 0 (msgType 7)) l)) = true := hlode
  unfold tokenNoted noteLate
  rw [if_pos lode]
  refine ⟨?_, (fld_setFld_self _ _ _ _ (by decide)).trans (Nat.mod_eq_of_lt hlow)⟩
  rw [fld_setFld_other _ _ _ _ _ (by decide) (by decide), fld_setFld_self _ _ _ _ (by decide)]
  exact Nat.mod_eq_of_lt hf

theorem tokenFiled_regs : (tokenFiled s l f blocks late lowest).regs = s.regs := by
  unfold tokenFiled
  split
  · rfl
  · rfl
  · exact (closedToken_counts ..).regs

theorem tokenFiled_open (h : serialCmp f (frameNo s) 48 = 0) :
    tokenFiled s l f blocks late lowest = takeToken s l blocks late lowest := by
  unfold tokenFiled
  rw [h]
  rfl

theorem tokenFiled_later (h : serialCmp f (frameNo s) 48 = 2) :
    tokenFiled s l f blocks late lowest =
      setCrn s (fun c => { c with early := tabSet c.early l (f, blocks, late, lowest) }) := by
  unfold tokenFiled
  rw [h]
  rfl

theorem tokenFiled_earlier (h0 : serialCmp f (frameNo s) 48 ≠ 0) (h2 : serialCmp f (frameNo s) 48 ≠ 2) :
    tokenFiled s l f blocks late lowest = closedToken s l f blocks late lowest := by
  unfold tokenFiled
  split
  · contradiction
  · contradiction
  · rfl

theorem tokenFiled_kids : (tokenFiled s l f blocks late lowest).crn.kids = s.crn.kids := by
  unfold tokenFiled
  split
  · rfl
  · rfl
  · obtain ⟨L, e⟩ := closedToken_counts s l f blocks late lowest
    rw [e]
    rfl

theorem fld_regs {s t : State} (h : t.regs = s.regs) {a : Nat} {f : Field} : fld t a f = fld s a f := by
  unfold fld rd
  rw [h]

theorem serialCmp_self {a : Nat} (w : Nat) (h : a < 2 ^ w) : serialCmp a a w = 0 := by
  have e : a + 2 ^ w - a % 2 ^ w = 2 ^ w := by rw [Nat.mod_eq_of_lt h]; omega
  unfold serialCmp
  simp [e]

end

theorem execToken_files {s : State} {l : Fin 6} {src frame blocks lowest : Nat} {late : Bool} (hinj : injOff s)
    (ha : linkActive s l = true) (hc : carries s l 0 = true) (hlive : crnLive s = true) (hup : uplink s ≠ l) :
    exec (.token l src frame blocks late lowest) s = .next
      (tokenFiled (tokenNoted s l (frame % 2 ^ 48) late (lowest % 1024)) l (frame % 2 ^ 48) (blocks % 2048) late
        (lowest % 1024)) := by
  show execToken l src frame blocks late lowest s = _
  unfold execToken tokenNoted
  rw [onLink_passes ha hc]
  obtain ⟨L, hL⟩ := drainMsg_onlyLinks s l 0 (msgType 7)
  rw [hL]
  have child : (!crnLive { s with links := L } || decide (uplink { s with links := L } = l.val)) = false := by
    have hlive' : crnLive { s with links := L } = true := hlive
    have hup' : uplink { s with links := L } ≠ l := hup
    simp [hlive', hup']
  have off : injOff (addKid { s with links := L } l) := hinj
  simp only [child, flint_off off, Bool.false_eq_true, ↓reduceIte]
  unfold tokenFiled
  generalize noteLate _ _ _ _ = noted
  generalize serialCmp _ _ _ = order
  rfl

/-! ## Records of severity FRAME (R377 to R379) -/

section
variable {s : State} {a : Nat}

/-- A register that no record writes. -/
def OffRecord (a : Nat) : Prop := (∀ i, Reg.errLast i ≠ a) ∧ Reg.errRingPtr ≠ a

theorem rd_foldl {β : Type} {l : List β} {f : State → β → State} (h : ∀ u x, rd (f u x) a = rd u a) :
    rd (l.foldl f s) a = rd s a := by
  induction l generalizing s with
  | nil => rfl
  | cons x l ih => exact ih.trans (h s x)

theorem rd_shiftMirror (h : OffRecord a) (n : Nat) : rd (shiftMirror s n) a = rd s a := by
  induction n generalizing s with
  | zero => rfl
  | succ n ih =>
    unfold shiftMirror
    beta_reduce
    exact ih.trans (rd_foldl fun _ _ => rd_wr_ne _ _ (h.1 _))

theorem rd_micaWrite (s : State) (x : Nat) (bs : List Byte) (a : Nat) : rd (micaWrite s x bs) a = rd s a := rfl

theorem rd_writeRec (h : OffRecord a) (r : ErrRec) (count : Nat) : rd (writeRec s r count) a = rd s a := by
  unfold writeRec
  extract_lets recno ring back gap body bytes mirrored listed ringed noted
  have hlisted : rd listed a = rd s a := (rd_foldl fun _ _ => rd_wr_ne _ _ (h.1 _)).trans (rd_shiftMirror h 7)
  clear_value bytes ring listed recno
  have hringed : rd ringed a = rd s a := by
    show rd (if ring = true then _ else _) a = _
    split
    · exact (rd_micaWrite ..).trans hlisted
    · exact hlisted
  clear_value ringed
  have hnoted : rd noted a = rd s a := (rd_setFld_ne _ _ _ h.2).trans hringed
  clear_value noted
  exact hnoted

theorem rd_snapRec (h : OffRecord a) (r : ErrRec) (count : Nat) : rd (snapRec s r count) a = rd s a := by
  unfold snapRec
  cases r.snap
  · exact rd_writeRec h ..
  · exact rd_writeRec (s := (takeFree s 64).2) h ..

end

section
variable {s : State} {r : ErrRec}

/-- A detector's event is counted. -/
def detCounted (s : State) (r : ErrRec) : State :=
  if r.det = 0 then s else { s with detCount := tabSet s.detCount r.det (mapGet 0 s.detCount r.det + 1) }

/-- The record of an event of severity FRAME is written. -/
def frameRecorded (s : State) (r : ErrRec) : State :=
  snapRec (incFld (detCounted s r) Reg.errCnt Fl.errCnt_FRAME 1) r (if r.det = 0 then 0 else mapGet 0 s.detCount r.det + 1)

/-- Such an event is counted, recorded and raised; where Flint caused it FLT shows it too. -/
theorem recordErr_sevFrame (h : r.sev = 2) : recordErr s r =
    if r.inj then summarize (attnErr (frameRecorded s r) r.unit) Unit.flt else attnErr (frameRecorded s r) r.unit := by
  unfold recordErr
  simp only [h]
  simp [frameRecorded, detCounted]

theorem rd_detCounted (s : State) (r : ErrRec) (a : Nat) : rd (detCounted s r) a = rd s a := by
  unfold detCounted
  split <;> rfl

theorem rd_frameRecorded {a : Nat} (h : OffRecord a) (hc : Reg.errCnt ≠ a) : rd (frameRecorded s r) a = rd s a :=
  (rd_snapRec h ..).trans ((rd_setFld_ne _ _ _ hc).trans (rd_detCounted s r a))

theorem fld_congr {s t : State} {a : Nat} {f : Field} (h : rd t a = rd s a) : fld t a f = fld s a f := by
  unfold fld
  rw [h]

theorem frameRecorded_counts : fld (frameRecorded s r) Reg.errCnt Fl.errCnt_FRAME =
    (fld s Reg.errCnt Fl.errCnt_FRAME + 1) % 2 ^ Fl.errCnt_FRAME.width := by
  have off : OffRecord Reg.errCnt := ⟨fun i => by unfold Reg.errLast Reg.errCnt; omega, by decide⟩
  unfold frameRecorded
  rw [fld_congr (rd_snapRec off ..), incFld, fld_setFld_self _ _ _ _ (by decide), fld_congr (rd_detCounted s r _)]

theorem attnErr_flag (s : State) (u : Nat) : flag (attnErr s u) Reg.errAtn Fl.errAtn_ERR = true := by
  have ne : Reg.errSummary ≠ Reg.errAtn := by decide
  unfold attnErr summarize flag
  rw [fld_setFld_ne _ _ _ _ ne]
  exact flag_setFlag_self s _ _ true (by decide) (by decide)

theorem rd_attnErr {a : Nat} (u : Nat) (hs : Reg.errSummary ≠ a) (ha : Reg.errAtn ≠ a) : rd (attnErr s u) a = rd s a :=
  (rd_setFld_ne _ _ _ hs).trans (rd_setFld_ne _ _ _ ha)

theorem book_crn {R : Nat → Bool} {t : State} (h : Books R s t) : t.crn = s.crn := (congrArg State.crn h.rest :)

theorem snapRec_crn (s : State) (r : ErrRec) (count : Nat) : (snapRec s r count).crn = s.crn := by
  have written (u : State) (q : ErrRec) : (writeRec u q count).crn = u.crn :=
    book_crn (writeRec_book bookReg_covers (book_refl u))
  unfold snapRec
  cases r.snap
  · exact written ..
  · exact written ..

theorem frameRecorded_crn : (frameRecorded s r).crn = s.crn := by
  have counted : (detCounted s r).crn = s.crn := by
    unfold detCounted
    split <;> rfl
  exact (snapRec_crn ..).trans ((setFld_crn ..).trans counted)

theorem attnErr_crn (s : State) (u : Nat) : (attnErr s u).crn = s.crn := (setFld_crn ..).trans (setFlag_crn ..)

/-- An event of severity FRAME counts under it and raises ATN_ERR; Cairn and the registers that no record writes stand. -/
theorem recordErr_sevFrame_shows (h : r.sev = 2) :
    fld (recordErr s r) Reg.errCnt Fl.errCnt_FRAME = (fld s Reg.errCnt Fl.errCnt_FRAME + 1) % 2 ^ Fl.errCnt_FRAME.width ∧
    flag (recordErr s r) Reg.errAtn Fl.errAtn_ERR = true ∧ (recordErr s r).crn = s.crn ∧
    ∀ a, OffRecord a → Reg.errCnt ≠ a → Reg.errSummary ≠ a → Reg.errAtn ≠ a → rd (recordErr s r) a = rd s a := by
  have raised : ∃ u, recordErr s r = u ∧ (∀ a, Reg.errSummary ≠ a → rd u a = rd (attnErr (frameRecorded s r) r.unit) a) ∧
      u.crn = s.crn := by
    refine ⟨_, recordErr_sevFrame h, fun a ha => ?_, ?_⟩
    · split
      · exact rd_setFld_ne _ _ _ ha
      · rfl
    · have raised := (attnErr_crn (frameRecorded s r) r.unit).trans frameRecorded_crn
      split
      · exact (setFld_crn ..).trans raised
      · exact raised
  obtain ⟨u, hu, regs, crn⟩ := raised
  have hcnt : rd u Reg.errCnt = rd (frameRecorded s r) Reg.errCnt :=
    (regs _ (by decide)).trans (rd_attnErr _ (by decide) (by decide))
  rw [hu]
  refine ⟨?_, ?_, crn, fun a ho hc hs ha => (regs a hs).trans ((rd_attnErr _ hs ha).trans (rd_frameRecorded ho hc))⟩
  · exact (fld_congr hcnt).trans frameRecorded_counts
  · have atn := regs Reg.errAtn (by decide)
    unfold flag fld
    rw [atn]
    exact attnErr_flag ..

end

/-! ## A child is left out (R242) -/

section
variable {s : State} {l : Nat}

theorem excludeKid_shows : l ∈ (excludeKid s l).crn.excluded ∧ flag (excludeKid s l) Reg.crnStat Fl.crnStat_EXCL = true ∧
    flag (excludeKid s l) Reg.errAtn Fl.errAtn_ERR = true ∧
    fld (excludeKid s l) Reg.errCnt Fl.errCnt_FRAME =
      (fld s Reg.errCnt Fl.errCnt_FRAME + 1) % 2 ^ Fl.errCnt_FRAME.width := by
  unfold excludeKid
  extract_lets inj kept shown
  have crn : shown.crn = kept.crn := setFlag_crn ..
  have excl : flag shown Reg.crnStat Fl.crnStat_EXCL = true := flag_setFlag_self kept _ _ true (by decide) (by decide)
  have count : fld shown Reg.errCnt Fl.errCnt_FRAME = fld s Reg.errCnt Fl.errCnt_FRAME := fld_setFld_ne _ _ _ _ (by decide)
  clear_value shown
  obtain ⟨counted, atn, same, regs⟩ :=
    recordErr_sevFrame_shows (s := shown) (r := { ErrRec.ofDet 2 0x16 with lkind := 2, loc := l, inj := inj }) rfl
  refine ⟨?_, ?_, atn, count ▸ counted⟩
  · rw [same, crn]
    exact mem_insNat.mpr (.inl rfl)
  · have off : OffRecord Reg.crnStat := ⟨fun i => by unfold Reg.errLast Reg.crnStat; omega, by decide⟩
    have kept := regs Reg.crnStat off (by decide) (by decide) (by decide)
    unfold flag fld at excl ⊢
    rw [kept]
    exact excl

end

section
variable {s : State} {l : Fin 6}

theorem execTokenTimeout_excludes (hlive : crnLive s = true) (hn : fld s Reg.crnCtrl Fl.crnCtrl_TOKTO ≠ 0)
    (hkid : l.val ∈ liveKids s) (htok : ∀ x ∈ s.crn.tokens, x.1 ≠ l.val)
    (hdue : fld s Reg.crnCtrl Fl.crnCtrl_TOKTO ≤ mapGet 0 s.crn.overdue l) :
    exec (.tokenTimeout l) s = .next (excludeKid s l) := by
  have none_in : s.crn.tokens.any (fun t => t.1 == l.val) = false := by simpa using htok
  exact congrArg Host.Outcome.next (if_pos (by simp [hlive, hn, hkid, none_in, hdue]))

theorem execTokenTimeout_off (hn : fld s Reg.crnCtrl Fl.crnCtrl_TOKTO = 0) : exec (.tokenTimeout l) s = .next s :=
  congrArg Host.Outcome.next (if_neg (by simp [hn]))

end

end Sys2Proof.Machine

namespace Sys2Proof.Proofs
open Sys2Proof.Machine

/-- Settles O34: each clause is what the command does where its guard holds. What becomes of a child's token is
`tokenFiled`, by the order of its frame and the open one. -/
theorem tokensCloseFrames : Obligations.TokensCloseFrames := by
  unfold Obligations.TokensCloseFrames
  intro s
  refine ⟨?own, execFrameDoneToken_waits, ?child, fun l => ⟨?missing, execTokenTimeout_off⟩⟩
  case own =>
    intro hsu hopen htok hidle hkids
    have only := sendToken_onlyLinks s false
    have none_yet : { s.crn with token := none } = s.crn := by rw [← htok]
    refine ⟨_, execFrameDoneToken_sends hsu hopen htok hidle hkids, congrArg CairnSt.token only.crn, withToken_rest only,
      ?_, sendToken_quiet, sendToken_link⟩
    rw [only.crn]
    exact none_yet
  case child =>
    intro l src frame blocks late lowest hinj ha hc hlive hup
    have run := execToken_files (src := src) (frame := frame) (blocks := blocks) (late := late) (lowest := lowest)
      hinj ha hc hlive hup
    have crn := tokenNoted_crn (s := s) (l := l) (f := frame % 2 ^ 48) (late := late) (lowest := lowest % 1024)
    have frames := frameNo_tokenNoted (s := s) (l := l) (f := frame % 2 ^ 48) (late := late) (lowest := lowest % 1024)
    have frame_lt : frame % 2 ^ 48 < 2 ^ 48 := Nat.mod_lt _ (by decide)
    have lode (h : late = true) (hl : isLode s = true) :=
      h ▸ tokenNoted_shows (l := l) hl frame_lt (show lowest % 1024 < 2 ^ 10 from Nat.mod_lt _ (by decide))
    generalize tokenNoted s l (frame % 2 ^ 48) late (lowest % 1024) = noted at run crn frames lode
    refine ⟨_, run, ?kid, fun now => ?ofOpen, fun later => ?ofLater, fun earlier => ?ofEarlier, fun hlate hl => ?shown⟩
    case kid =>
      rw [tokenFiled_kids, crn]
      exact mem_insNat.mpr (.inl rfl)
    case ofOpen =>
      have order : serialCmp (frame % 2 ^ 48) (frameNo noted) 48 = 0 := by
        rw [frames, ← now]
        exact serialCmp_self 48 frame_lt
      rw [tokenFiled_open order]
      exact ⟨find?_tabSet_self _, by simp [takeToken, setCrn]⟩
    case ofLater =>
      rw [tokenFiled_later (frames ▸ later)]
      exact ⟨congrArg (·.tokens) crn, find?_tabSet_self _⟩
    case ofEarlier =>
      have order : serialCmp (frame % 2 ^ 48) (frameNo noted) 48 = 1 := frames ▸ earlier
      rw [tokenFiled_earlier (by rw [order]; decide) (by rw [order]; decide)]
      have counts := (closedToken_counts noted l (frame % 2 ^ 48) (blocks % 2048) late (lowest % 1024)).crn
      have tokens : noted.crn.tokens = s.crn.tokens := by rw [crn]
      have early : noted.crn.early = s.crn.early := by rw [crn]
      refine ⟨(congrArg CairnSt.tokens counts).trans tokens, (congrArg CairnSt.early counts).trans early, ?_⟩
      intro c hcl hf got
      have waits : noted.crn.closing = some c := by rw [crn]; exact hcl
      rw [counts]
      refine (closingAfter_counts waits hf).trans ?_
      have excluded : noted.crn.excluded = s.crn.excluded := by rw [crn]
      unfold allIn liveKids
      rw [excluded]
      rfl
    case shown =>
      obtain ⟨shownFrame, shownStratum⟩ := lode hlate hl
      exact ⟨(fld_regs tokenFiled_regs).trans shownFrame, (fld_regs tokenFiled_regs).trans shownStratum⟩
  case missing =>
    intro hlive hn hkid htok hdue
    exact ⟨_, execTokenTimeout_excludes hlive hn hkid htok hdue, excludeKid_shows⟩

end Sys2Proof.Proofs

/-! PROOFS. The refutation of O22: an N tile that passes step 1 of its ladder and whose NaN finds the first-NaN trap of a
tenant number outside the block's four at PX_TCH_STAT (R188, R371). -/

namespace Sys2Proof.Machine

/-! ## A job whose tenant has its trap at PX_TCH_STAT -/

/-- Row 0 of an N tile failed on array 3, and runs again there. -/
def trapLadder : Ladder := ⟨0, false, [0], 3, 1, none, [5], 6, 0, false⟩

/-- An N tile all of whose passes have entered, its only row in the ladder. -/
def trapNt : NtSt :=
  { nt := 0, corr := false, sparse := false, auxIn := false, auxOrd := none, summed := false, full := true, checked := [],
    done := [], failed := [0], voided := [], lanes := [], accs := [], cur := none, drained := [], spill := none, tiles := [],
    errs := [] }

/-- A TILE of one BF16 element, activations from stream 0, weights from stream 1, output to stream 2, issued for
tenant 4089. -/
def trapJob : Job :=
  { mkJob State.reset 0 ⟨0, [0x01, 0x200020002000, 0, (2 <<< 24) + (1 <<< 6)]⟩ true with
    tenant := 4089, nt := 1, entered := true, arrays := [3], nts := [trapNt], ladders := [trapLadder] }

/-- RUN, with the job in flight in vein 0, streams 0 and 2 RESIDENT with 64 bytes at 0 and 64, a BF16 NaN at 0 of Mica,
and five ladders counted as passed in step 1. -/
def trapState : State :=
  { State.reset with
    su := .run
    regs := [(Reg.stmDescW1 0, 63), (Reg.stmDescW6 0, 4 <<< 60), (Reg.stmDescW1 2, 63), (Reg.stmDescW6 2, 4 <<< 60),
      (Reg.tchStat, 5 <<< 48)]
    mica := [(0, 0xC0), (1, 0x7F)]
    streams := [(0, { StreamSt.init with seqs := [⟨0, 64, 0⟩] }), (2, { StreamSt.init with seqs := [⟨0, 64, 64⟩] })]
    veins := [(0, { VeinSt.init with jobs := [trapJob] })] }

/-- The count of ladders passed in step 1, in the state that a command leaves. -/
def step1Of (o : Host.Outcome State Fault Refusal) : Option Nat :=
  match o with
  | .next t => some (fld t Reg.tchStat Fl.tchStat_STEP1)
  | _ => none

/-- The third word of the tenant's trap lies at PX_TCH_STAT: the trap clears its MORE, which is STEP1 there, before the
pass is counted. -/
theorem trapState_counts : Reg.numNanW2 trapJob.tenant = Reg.tchStat ∧ fld trapState Reg.tchStat Fl.tchStat_STEP1 = 5 ∧
    step1Of (exec (.ladderStepEnd 3 [] []) trapState) = some 1 := by decide +kernel

/-- The rows pass: no check fails, and their output has room. -/
theorem trapState_passes : (stepShow trapState trapJob (tileOf trapJob.words) trapNt trapLadder 3 []).1 = false ∧
    ladderPass trapState 0 trapJob trapLadder 3 [] ≠ none :=
  ⟨by decide +kernel, Option.isSome_iff_ne_none.mp (by decide +kernel)⟩

theorem trapState_injOff : injOff trapState := by
  show ∀ n < 8, injArmed trapState n = false
  decide +kernel

end Sys2Proof.Machine

namespace Sys2Proof.Proofs
open Sys2Proof.Machine

/-- Refutes O22: nothing in it bounds the tenant of the command, and a command of tenant 4089 that commits a NaN after
step 1 finds its first-NaN trap at PX_TCH_STAT, so the pass is counted from 0 and not from what STEP1 held. -/
theorem not_ladderStepsAndCompletion : ¬ Obligations.LadderStepsAndCompletion := by
  unfold Obligations.LadderStepsAndCompletion
  intro h
  obtain ⟨ladder, -⟩ := h trapState
  have only : allJobs trapState = [(0, trapJob)] := by decide +kernel
  have alone : ∀ k ∈ (vein trapState 0).jobs, k.seq = trapJob.seq → k = trapJob := by decide +kernel
  have ready : trapJob.ladders.find? (fun l => l.array == 3 && ladderReady trapJob (tileOf trapJob.words) l) =
      some trapLadder := by decide +kernel
  have tile : ladderNt trapJob trapLadder = some trapNt := by decide +kernel
  obtain ⟨step1, -⟩ := ladder 3 [] [] 0 trapJob trapLadder trapNt trapState_injOff rfl only alone ready tile rfl rfl
    fun _ _ => ⟨rfl, rfl⟩
  obtain ⟨-, -, passes⟩ := step1 rfl
  obtain ⟨shown, pass⟩ := trapState_passes
  obtain ⟨t, run, counted, -⟩ := passes shown pass
  obtain ⟨-, before, after⟩ := trapState_counts
  rw [run] at after
  rw [before] at counted
  have one : fld t Reg.tchStat Fl.tchStat_STEP1 = 1 := Option.some.inj after
  exact absurd (one.symm.trans counted) (by decide)

end Sys2Proof.Proofs

/-! PROOFS. The refutation of O14: the stream that takes the image ends its sequence, and a reloaded MCAST value held for a
group beyond the 64 of the block moves the error ring onto the image (R338, R358, R378). -/

namespace Sys2Proof.Machine

/-! ## A SAVE_STATE at the head of a vein that then halts -/

/-- SAVE_STATE of no part into stream 0: the image is its header of 64 bytes. -/
def saveCmd : Cmd := ⟨0, [0x18, 0, 0, 0]⟩

/-- The group whose PX_STM_MCAST would lie at PX_ERR_RING_CFG. -/
def ringGroup : Nat := (Reg.errRingCfg - Reg.stmMcast 0) / 8

/-- RUN, the error ring off, stream 0 RESIDENT and RUNNING over the 64 bytes at 0 of Mica. The command is the last that
vein 0 has fetched before its fetching halted, and a value that puts the error ring at 0 of Mica waits until ringGroup
rests. -/
def ringLater : State :=
  { State.reset with
    su := .run
    regs := [(Reg.vnStat 0, 3 <<< 60), (Reg.stmDescW1 0, 63), (Reg.stmDescW6 0, 4 <<< 60), (Reg.stmDescW7 0, 1 <<< 60),
      (Reg.stmRange 0, BitVec.ofNat 64 (setBits 0 Fl.stmRange_COUNT.lo Fl.stmRange_COUNT.width 1))]
    streams := [(0, { StreamSt.init with seqs := [⟨0, 64, 0⟩] })]
    veins := [(0, { VeinSt.init with held := [saveCmd], fresh := 1, fetchBad := some (St.queueOverrun, 1) })]
    slt := { SltSt.init with mcLater := [(ringGroup, 1 <<< 63)] } }

theorem ringLater_head : Head ringLater (0 : Fin 16) saveCmd 0x18 where
  may  := by decide +kernel
  head := by decide +kernel
  op   := by decide +kernel
  good := by decide +kernel
  fill := .inl (by decide +kernel)
  turn := by decide +kernel

/-- The command passes its checks, nothing is in flight before it, and no part of the image meets poison. -/
theorem ringLater_ready : imageCheck true ringLater (0 : Fin 16) saveCmd.words = none ∧
    earlierDone ringLater (0 : Fin 16) = true ∧
    (setBitsOf (cf saveCmd.words 1 0 16) 7).any (partPoison ringLater) = false := by decide +kernel

/-- The image is 64 bytes long and begins with the low byte of its mark. -/
theorem ringLater_image : (stateImage ringLater (0 : Fin 16) (cf saveCmd.words 1 0 16)).length = 64 ∧
    (stateImage ringLater (0 : Fin 16) (cf saveCmd.words 1 0 16)).getD 0 0 = 0x58 := by decide +kernel

/-- The image lies at 0 of Mica, byte after byte. -/
theorem imageAddr_ringLater : ∀ k < 64, imageAddr ringLater (cf saveCmd.words 0 10 6) k = k := by decide +kernel

/-- A byte of Mica in the state that a command leaves. -/
def byteOf (o : Host.Outcome State Fault Refusal) (x : Nat) : Option Byte :=
  match o with
  | .next t => some (micaByte t x)
  | _ => none

/-- The value that waits goes to PX_ERR_RING_CFG, and the record of the vein's halt, whose first byte is its severity
CONTAINED, lies where the image began. -/
theorem ringLater_overwritten : Reg.stmMcast ringGroup = Reg.errRingCfg ∧ ringByte ringLater 0 = false ∧
    byteOf (exec (.saveState 0) ringLater) 0 = some 1 := by decide +kernel

end Sys2Proof.Machine

namespace Sys2Proof.Proofs
open Sys2Proof.Machine

/-- Refutes O14: nothing in it bounds the groups of the MCAST values that wait for their group to rest. The end of the
image's stream writes the value of group 56801 to PX_ERR_RING_CFG, and the record of the vein's halt then lies on the
image. -/
theorem not_saveAndRestoreState : ¬ Obligations.SaveAndRestoreState := by
  unfold Obligations.SaveAndRestoreState
  intro h
  obtain ⟨save, -⟩ := h ringLater 0 saveCmd
  obtain ⟨checked, alone, clean⟩ := ringLater_ready
  obtain ⟨len, first⟩ := ringLater_image
  obtain ⟨-, off, record⟩ := ringLater_overwritten
  obtain ⟨t, run, -, placed⟩ := save ringLater_head checked alone clean fun j k hj hk e => by
    rwa [imageAddr_ringLater j (len ▸ hj), imageAddr_ringLater k (len ▸ hk)] at e
  have start := imageAddr_ringLater 0 (by decide)
  have kept : micaByte t 0 = 0x58 := by
    have byte := placed 0 (by rw [len]; decide) (by rwa [start])
    rwa [start, first] at byte
  rw [run] at record
  have lost : micaByte t 0 = 1 := Option.some.inj record
  exact absurd (kept.symm.trans lost) (by decide)

end Sys2Proof.Proofs

/-! PROOFS. Messages that pass a follower of the Strata chain (R303 to R308): what leaves on the chain, and what a block
keeps while a message acts on it. -/

namespace Sys2Proof.Machine

/-! ## What leaves on the chain (R303, R415) -/

/-- What the block drives on STRATA_OUT is seen there, and no injector meets it. -/
structure ChainOpen (s : State) : Prop where
  on    : s.su ≠ .off
  quiet : injOff s
  plain : wrapGoverns s = false

/-- A message with this header and body has been driven on STRATA_OUT. -/
def chainSent (s : State) (h : Nat) (b : List Byte) (good : Bool) : State :=
  { s with out := s.out ++ [chainOut h b good] }

section
variable {s : State}

section
variable (s) (h : Nat) (b : List Byte) (good : Bool) (a : Nat) (f : Field)

@[simp] theorem chainSent_regs : (chainSent s h b good).regs = s.regs := rfl
@[simp] theorem chainSent_su : (chainSent s h b good).su = s.su := rfl
@[simp] theorem chainSent_slt : (chainSent s h b good).slt = s.slt := rfl
@[simp] theorem rd_chainSent : rd (chainSent s h b good) a = rd s a := rfl
@[simp] theorem fld_chainSent : fld (chainSent s h b good) a f = fld s a f := rfl
@[simp] theorem flag_chainSent : flag (chainSent s h b good) a f = flag s a f := rfl
@[simp] theorem stratum_chainSent : stratum (chainSent s h b good) = stratum s := rfl
@[simp] theorem hasStratum_chainSent : hasStratum (chainSent s h b good) = hasStratum s := rfl

end

theorem chainSent_out {u : State} (h : Nat) (b : List Byte) (good : Bool) (hu : u.out = s.out) :
    (chainSent u h b good).out = s.out ++ [chainOut h b good] :=
  congrArg (· ++ [chainOut h b good]) hu

theorem chainSent_mem {u : State} (h : Nat) (b : List Byte) (good : Bool) (hu : s.out <+: u.out) :
    chainOut h b good ∈ (chainSent u h b good).out.drop s.out.length := by
  show _ ∈ (u.out ++ [chainOut h b good]).drop s.out.length
  rw [List.drop_append_of_le_length hu.length_le]
  simp

theorem portLive_chain (hs : ChainOpen s) : portLive s 11 = true := by
  simp [portLive, hs.plain, groupClamped, hs.on]

theorem emit_chainOut (hs : ChainOpen s) (h : Nat) (b : List Byte) (good : Bool) :
    emit s (chainOut h b good) = chainSent s h b good := by
  have live : portLive s (chainOut h b good).group = true := portLive_chain hs
  unfold emit
  simp only [live, if_true]
  rfl

theorem putChain_open (hs : ChainOpen s) (h : Nat) (b : List Byte) (good : Bool) :
    putChain s h b good = chainSent s h b good := by
  unfold putChain
  rw [flint_off hs.quiet, ← emit_chainOut hs]
  simp only [Bool.bne_false]

/-- The way out stands where power, injectors and the wrapper do. -/
theorem ChainOpen.of_same {t : State} (hs : ChainOpen s) (hsu : t.su ≠ .off) (hsvc : t.svc = s.svc)
    (hinj : ∀ n < 8, rd t (Reg.fltInjW0 n) = rd s (Reg.fltInjW0 n)) : ChainOpen t where
  on := hsu
  quiet n hn := by
    unfold injArmed flag fld
    rw [hinj n hn]
    exact hs.quiet n hn
  plain := by
    unfold wrapGoverns
    rw [hsvc]
    exact hs.plain

end

/-! ## Registers that a message writes -/

/-- From s to t only registers of a list have changed. -/
structure RegsWithin (l : List Nat) (s t : State) : Prop where
  only : RegsOnly s t
  regs : ∀ a, a ∉ l → rd t a = rd s a

namespace RegsWithin
variable {l : List Nat} {s t : State}

theorem rfl' (l : List Nat) (s : State) : RegsWithin l s s := ⟨RegsOnly.rfl' s, fun _ _ => rfl⟩

theorem wr (h : RegsWithin l s t) {a : Nat} (ha : a ∈ l) (v : W64) : RegsWithin l s (wr t a v) :=
  ⟨h.only.wr a v, fun b hb => (rd_wr_ne _ _ (ne_of_mem_of_not_mem ha hb)).trans (h.regs b hb)⟩

theorem setFld (h : RegsWithin l s t) {a : Nat} (ha : a ∈ l) (f : Field) (v : Nat) :
    RegsWithin l s (setFld t a f v) := h.wr ha _

theorem setFlag (h : RegsWithin l s t) {a : Nat} (ha : a ∈ l) (f : Field) (b : Bool) :
    RegsWithin l s (setFlag t a f b) := h.wr ha _

theorem mono {k : List Nat} (h : RegsWithin l s t) (hlk : ∀ a ∈ l, a ∈ k) : RegsWithin k s t :=
  ⟨h.only, fun a ha => h.regs a fun hl => ha (hlk a hl)⟩

theorem out (h : RegsWithin l s t) : t.out = s.out := (congrArg State.out h.only :)
theorem su (h : RegsWithin l s t) : t.su = s.su := (congrArg State.su h.only :)
theorem slt (h : RegsWithin l s t) : t.slt = s.slt := (congrArg State.slt h.only :)

/-- The way out stands where no injector's register is among them. -/
theorem isOpen (h : RegsWithin l s t) (hl : ∀ n < 8, Reg.fltInjW0 n ∉ l) (hs : ChainOpen s) : ChainOpen t :=
  hs.of_same (h.su ▸ hs.on) (congrArg State.svc h.only :) fun n hn => h.regs _ (hl n hn)

/-- A register of the chain changes, but not in SAFE. -/
theorem strNote {f : State → State} (h : RegsWithin l s t) (hf : RegsWithin l s (f t)) :
    RegsWithin l s (strNote t f) := by
  unfold Machine.strNote
  split
  · exact h
  · exact hf

end RegsWithin

section
variable {s : State} {f : State → State}

theorem strNote_safe (h : s.su = .safe) : strNote s f = s := by simp [strNote, h]

theorem strNote_live (h : s.su ≠ .safe) : strNote s f = f s := by simp [strNote, h]

end

/-! ## A message passes (R307, R308) -/

/-- The block shows a message of a wrong length, but not in SAFE. -/
def badLenNoted (s : State) : State := strNote s fun s => incFld s Reg.strStat Fl.strStat_BADLEN 1

theorem badLenNoted_within (s : State) : RegsWithin [Reg.strStat] s (badLenNoted s) :=
  (RegsWithin.rfl' _ s).strNote ((RegsWithin.rfl' _ s).setFld (by decide) _ _)

theorem badLenNoted_counts {s : State} (h : s.su ≠ .safe) : fld (badLenNoted s) Reg.strStat Fl.strStat_BADLEN =
    (fld s Reg.strStat Fl.strStat_BADLEN + 1) % 2 ^ Fl.strStat_BADLEN.width := by
  rw [badLenNoted, strNote_live h, incFld, fld_setFld_self _ _ _ _ (by decide)]

/-- LEN matches the message's type and kind, and its body has that length. -/
def MsgFits (m : ChainMsg) : Prop := lenFits m.hdr.toNat = true ∧ m.body.length = chLen m.hdr.toNat

/-- The message has a type and, unless the type has no kinds, a kind. -/
def MsgIs (m : ChainMsg) (type kind : Nat) : Prop :=
  chType m.hdr.toNat = type ∧ (type = Ch.enum ∨ type = Ch.image ∨ chKind m.hdr.toNat = kind)

section
variable {s : State} {m : ChainMsg} {type kind : Nat} {fwd : State → Nat → List Byte → Nat × List Byte}
  {eff : State → Nat → List Byte → State} (hs : ChainOpen s) (hh : isHead s = false)
include hs hh

theorem follower_passes : (s.su == .off || isHead s) = false := by simp [hs.on, hh]

/-- A whole message that is its receiver's own acts, and goes on as its receiver forwards it. -/
theorem passMsg_takes (hf : MsgFits m) (hc : crcGood m = true) (hm : MsgIs m type kind)
    (ho : ChainOpen (eff s m.hdr.toNat m.body)) :
    passMsg s m type kind fwd eff = chainSent (eff s m.hdr.toNat m.body) (fwd s m.hdr.toNat m.body).1
      (fwd s m.hdr.toNat m.body).2 true := by
  obtain ⟨hlen, hbody⟩ := hf
  obtain ⟨htype, hkind⟩ := hm
  have mine : (chType m.hdr.toNat == type && (type == Ch.enum || type == Ch.image || chKind m.hdr.toNat == kind)) = true := by
    simpa [htype, or_assoc] using hkind
  unfold passMsg
  rw [if_neg (by simp [follower_passes hs hh]), if_neg (by simp [hlen, hbody])]
  simp only [mine, if_true, hc]
  exact putChain_open ho ..

/-- A whole message that acts on nothing here goes on as it came. -/
theorem passMsg_effNone (hf : MsgFits m) (hc : crcGood m = true) :
    passMsg s m type kind fwdSame effNone = chainSent s m.hdr.toNat m.body true := by
  obtain ⟨hlen, hbody⟩ := hf
  unfold passMsg
  rw [if_neg (by simp [follower_passes hs hh]), if_neg (by simp [hlen, hbody])]
  simp only [fwdSame, effNone, ite_self, hc, if_true]
  exact putChain_open hs ..

/-- A message whose LEN does not match goes on unchanged, and is counted (R307). -/
theorem passMsg_badLen (hf : ¬ MsgFits m) (hc : crcGood m = true) : passMsg s m type kind fwd eff =
    chainSent (badLenNoted s) m.hdr.toNat m.body true := by
  have bad : (!lenFits m.hdr.toNat || m.body.length != chLen m.hdr.toNat) = true := by
    by_contra h
    exact hf (by simpa [MsgFits] using h)
  unfold passMsg
  rw [if_neg (by simp [follower_passes hs hh]), if_pos bad, if_pos hc]
  exact putChain_open ((badLenNoted_within s).isOpen (by decide) hs) ..

omit hs in
/-- A message whose CRC fails goes on as failed, and is counted (R308). -/
theorem passMsg_badCrc (hon : s.su ≠ .off) (ho : ChainOpen (countCrc s)) (hc : crcGood m = false) :
    ∃ h b, passMsg s m type kind fwd eff = chainSent (countCrc s) h b false := by
  have go : ¬(s.su == .off || isHead s) = true := by simp [hon, hh]
  unfold passMsg
  rw [if_neg go]
  simp only [hc, Bool.false_eq_true, if_false]
  split
  · exact ⟨_, _, putChain_open ho ..⟩
  · exact ⟨_, _, putChain_open ho ..⟩

end

/-! ## Records of errors that are not fatal (R377, R378) -/

theorem book_free {R : Nat → Bool} {s t : State} (h : Books R s t) (n : Nat) :
    Books R { s with free := n } { t with free := n } :=
  ⟨h.regs, h.mica, h.veins, h.arrays, h.trm, congrArg (fun u : State => { u with free := n }) h.rest⟩

/-- From s to t only books have changed, and free values have been used. -/
def BooksFree (s t : State) : Prop := Books bookReg s { t with free := s.free }

namespace BooksFree
variable {s t : State}

theorem rfl' (s : State) : BooksFree s s := book_refl s

theorem regs (h : BooksFree s t) {a : Nat} (ha : bookReg a = false) : rd t a = rd s a := Books.regs h a ha
theorem su (h : BooksFree s t) : t.su = s.su := (congrArg State.su (Books.rest h) :)
theorem slt (h : BooksFree s t) : t.slt = s.slt := (congrArg State.slt (Books.rest h) :)
theorem svc (h : BooksFree s t) : t.svc = s.svc := (congrArg State.svc (Books.rest h) :)
theorem strap (h : BooksFree s t) : t.strap = s.strap := (congrArg State.strap (Books.rest h) :)
theorem out (h : BooksFree s t) : t.out = s.out := (congrArg State.out (Books.rest h) :)

theorem setFld (h : BooksFree s t) {a : Nat} (ha : bookReg a = true) (f : Field) (v : Nat) :
    BooksFree s (setFld t a f v) :=
  setFld_book (s := { t with free := s.free }) ha h

theorem summarize (h : BooksFree s t) (u : Nat) : BooksFree s (summarize t u) := h.setFld (by decide) _ _

theorem attnErr (h : BooksFree s t) (u : Nat) : BooksFree s (attnErr t u) :=
  summarize (h.setFld (a := Reg.errAtn) (by decide) Fl.errAtn_ERR (b2n true)) u

theorem detCount (h : BooksFree s t) (d : List (Nat × Nat)) : BooksFree s { t with detCount := d } :=
  count_book (s := { t with free := s.free }) h

theorem writeRec (h : BooksFree s t) (r : ErrRec) (count : Nat) : BooksFree s (writeRec t r count) :=
  book_trans bookReg_covers h (book_free (writeRec_book bookReg_covers (book_refl t)) s.free)

theorem takeFree (h : BooksFree s t) (w : Nat) : BooksFree s (takeFree t w).2 := h

theorem snapRec (h : BooksFree s t) (r : ErrRec) (count : Nat) : BooksFree s (snapRec t r count) := by
  unfold Machine.snapRec
  cases r.snap
  · exact h.writeRec _ _
  · exact (h.takeFree 64).writeRec _ _

theorem ite {a b : State} {c : Prop} [Decidable c] (ha : BooksFree s a) (hb : BooksFree s b) :
    BooksFree s (if c then a else b) := by
  split
  · exact ha
  · exact hb

end BooksFree

/-- A record of an error that is not fatal touches the books alone. -/
theorem recordErr_booksFree {s : State} {r : ErrRec} (hr : r.sev ≠ 3) : BooksFree s (recordErr s r) := by
  unfold recordErr
  extract_lets count counted shown noted raised summed
  clear_value count
  have hcounted : BooksFree s counted := .ite (.rfl' s) (.detCount (.rfl' s) _)
  clear_value counted
  have hshown : BooksFree s shown := by
    unfold shown
    split <;> exact hcounted.setFld (by decide) _ _
  clear_value shown
  have hnoted : BooksFree s noted := .ite (hshown.snapRec _ _) hshown
  clear_value noted
  have hraised : BooksFree s raised := .ite (hnoted.attnErr _) hnoted
  clear_value raised
  have hsummed : BooksFree s summed := .ite (hraised.summarize _) hraised
  clear_value summed
  rw [if_neg hr]
  exact hsummed

/-! ## A message whose CRC fails is counted (R308, R375) -/

section
variable {s : State}

theorem bookReg_fltInjW0 : ∀ n < 8, bookReg (Reg.fltInjW0 n) = false := by decide

/-- The count shows in PX_STR_STAT, but not in SAFE; nothing else of the chain changes. -/
def crcNoted (s : State) : State := strNote s fun s => incFld s Reg.strStat Fl.strStat_CRCERR 1

theorem crcNoted_within (s : State) : RegsWithin [Reg.strStat] s (crcNoted s) :=
  (RegsWithin.rfl' _ s).strNote ((RegsWithin.rfl' _ s).setFld (by decide) _ _)

theorem countCrc_books (s : State) : BooksFree (crcNoted s) (countCrc s) := recordErr_booksFree (by decide)

theorem countCrc_open (hs : ChainOpen s) : ChainOpen (countCrc s) := by
  have books := countCrc_books s
  have noted : ChainOpen (crcNoted s) := (crcNoted_within s).isOpen (by decide) hs
  exact noted.of_same (books.su ▸ noted.on) books.svc fun n hn => books.regs (bookReg_fltInjW0 n hn)

theorem countCrc_out (s : State) : (countCrc s).out = s.out := (countCrc_books s).out.trans (crcNoted_within s).out
theorem countCrc_su (s : State) : (countCrc s).su = s.su := (countCrc_books s).su.trans (crcNoted_within s).su
theorem countCrc_slt (s : State) : (countCrc s).slt = s.slt := (countCrc_books s).slt.trans (crcNoted_within s).slt

theorem rd_countCrc_strId (s : State) : rd (countCrc s) Reg.strId = rd s Reg.strId :=
  ((countCrc_books s).regs (by decide)).trans ((crcNoted_within s).regs _ (by decide))

theorem countCrc_counts (h : s.su ≠ .safe) : fld (countCrc s) Reg.strStat Fl.strStat_CRCERR =
    (fld s Reg.strStat Fl.strStat_CRCERR + 1) % 2 ^ Fl.strStat_CRCERR.width := by
  rw [fld_congr ((countCrc_books s).regs (a := Reg.strStat) (by decide)), crcNoted, strNote_live h, incFld,
    fld_setFld_self _ _ _ _ (by decide)]

end

end Sys2Proof.Machine

/-! PROOFS. What each kind of message does in the follower that it passes (R232, R305, R307, R333, R335, R337). -/

namespace Sys2Proof.Machine

/-! ## ENUM (R53, R305) -/

section
variable {s : State} {h n : Nat} {b : List Byte}

/-- PX_STR_ID shows stratum n. -/
def stratumShown (s : State) (n : Nat) : State :=
  setFld (setFlag s Reg.strId Fl.strId_VALID true) Reg.strId Fl.strId_STRATUM n

theorem takeStratum_eq (s : State) (n : Nat) : takeStratum s n =
    strNote (stratumShown s n) fun s => setFld s Reg.numSrStratum Fl.numSrStratum_SSTRATUM n := rfl

theorem stratumShown_within : RegsWithin [Reg.strId] s (stratumShown s n) :=
  ((RegsWithin.rfl' _ s).setFlag (a := Reg.strId) (by decide) _ _).setFld (a := Reg.strId) (by decide) _ _

theorem takeStratum_within : RegsWithin [Reg.strId, Reg.numSrStratum] s (takeStratum s n) := by
  have shown : RegsWithin [Reg.strId, Reg.numSrStratum] s (stratumShown s n) := stratumShown_within.mono (by simp)
  rw [takeStratum_eq]
  refine shown.strNote ?_
  exact shown.setFld (by decide) _ _

theorem takeStratum_safe (hs : s.su = .safe) : RegsWithin [Reg.strId] s (takeStratum s n) := by
  rw [takeStratum_eq, strNote_safe (stratumShown_within.su.trans hs)]
  exact stratumShown_within

theorem rd_takeStratum_strId : rd (takeStratum s n) Reg.strId = rd (stratumShown s n) Reg.strId := by
  have seeded : RegsWithin [Reg.numSrStratum] (stratumShown s n) (takeStratum s n) := by
    rw [takeStratum_eq]
    refine (RegsWithin.rfl' _ _).strNote ?_
    exact (RegsWithin.rfl' _ _).setFld (by decide) _ _
  exact seeded.regs _ (by decide)

theorem hasStratum_takeStratum : hasStratum (takeStratum s n) = true := by
  unfold hasStratum flag
  rw [fld_congr rd_takeStratum_strId, stratumShown, fld_setFld_other _ _ _ _ _ (by decide) (by decide)]
  exact flag_setFlag_self s _ _ true (by decide) (by decide)

theorem stratum_takeStratum (hn : n < 1024) : stratum (takeStratum s n) = n := by
  unfold stratum
  rw [fld_congr rd_takeStratum_strId, stratumShown, fld_setFld_self _ _ _ _ (by decide)]
  exact Nat.mod_eq_of_lt hn

theorem takeStratum_seeds (hs : s.su ≠ .safe) (hn : n < 1024) :
    fld (takeStratum s n) Reg.numSrStratum Fl.numSrStratum_SSTRATUM = n := by
  have live : (stratumShown s n).su ≠ .safe := fun e => hs (stratumShown_within.su.symm.trans e)
  rw [takeStratum_eq, strNote_live live, fld_setFld_self _ _ _ _ (by decide)]
  exact Nat.mod_eq_of_lt hn

theorem effEnum_same (hv : hasStratum s = true) (hn : enumNext h = stratum s) : effEnum s h b = s := by
  simp [effEnum, hv, hn]

theorem effEnum_other (hv : hasStratum s = true) (hn : enumNext h ≠ stratum s) :
    effEnum s h b = strNote s fun s => setFlag s Reg.strStat Fl.strStat_ENUMMIS true := by
  simp [effEnum, hv, hn]

theorem effEnum_takes (hv : hasStratum s = false) (hn : enumNext h < 1024) :
    effEnum s h b = takeStratum s (enumNext h) := by
  simp [effEnum, hv, hn]

theorem effEnum_over (hv : hasStratum s = false) (hn : 1024 ≤ enumNext h) :
    effEnum s h b = strNote s fun s => setFlag s Reg.strStat Fl.strStat_OVF true := by
  simp [effEnum, hv, Nat.not_lt.mpr hn]

theorem strStat_flag_within (f : Field) (x : Bool) :
    RegsWithin [Reg.strStat] s (strNote s fun s => setFlag s Reg.strStat f x) :=
  (RegsWithin.rfl' _ s).strNote ((RegsWithin.rfl' _ s).setFlag (by decide) _ _)

/-- A block that has a stratum, or finds none left for it, changes PX_STR_STAT alone. -/
theorem effEnum_within_strStat (hv : hasStratum s = true ∨ 1024 ≤ enumNext h) :
    RegsWithin [Reg.strStat] s (effEnum s h b) := by
  cases hs : hasStratum s with
  | true =>
    by_cases hn : enumNext h = stratum s
    · rw [effEnum_same hs hn]
      exact .rfl' _ s
    · rw [effEnum_other hs hn]
      exact strStat_flag_within _ _
  | false =>
    rw [effEnum_over hs (hv.resolve_left (by simp [hs]))]
    exact strStat_flag_within _ _

theorem effEnum_within : RegsWithin [Reg.strId, Reg.strStat, Reg.numSrStratum] s (effEnum s h b) := by
  by_cases hv : hasStratum s = true ∨ 1024 ≤ enumNext h
  · exact (effEnum_within_strStat hv).mono (by simp)
  · obtain ⟨hs, hn⟩ := not_or.mp hv
    rw [effEnum_takes (by simpa using hs) (by omega)]
    exact takeStratum_within.mono (by simp)

/-- In SAFE only PX_STR_ID moves (R329). -/
theorem effEnum_safe (hsafe : s.su = .safe) : RegsWithin [Reg.strId] s (effEnum s h b) := by
  cases hs : hasStratum s with
  | true =>
    by_cases hn : enumNext h = stratum s
    · rw [effEnum_same hs hn]
      exact .rfl' _ s
    · rw [effEnum_other hs hn, strNote_safe hsafe]
      exact .rfl' _ s
  | false =>
    by_cases hn : enumNext h < 1024
    · rw [effEnum_takes hs hn]
      exact takeStratum_safe hsafe
    · rw [effEnum_over hs (by omega), strNote_safe hsafe]
      exact .rfl' _ s

theorem effEnum_mismatch (hv : hasStratum s = true) (hsafe : s.su ≠ .safe) :
    flag (effEnum s h b) Reg.strStat Fl.strStat_ENUMMIS =
      (flag s Reg.strStat Fl.strStat_ENUMMIS || decide (enumNext h ≠ stratum s)) := by
  by_cases hn : enumNext h = stratum s
  · simp [effEnum_same hv hn, hn]
  · rw [effEnum_other hv hn, strNote_live hsafe, flag_setFlag_self _ _ _ _ (by decide) (by decide)]
    simp [hn]

theorem effEnum_overflow (hv : hasStratum s = false) (hn : 1024 ≤ enumNext h) (hsafe : s.su ≠ .safe) :
    flag (effEnum s h b) Reg.strStat Fl.strStat_OVF = true := by
  rw [effEnum_over hv hn, strNote_live hsafe]
  exact flag_setFlag_self _ _ _ _ (by decide) (by decide)

end

/-! ## IMAGE and RELOAD (R333, R337) -/

/-- From s to t nothing but the part of Slate and the chain has changed. -/
def SltOnly (s t : State) : Prop := { t with slt := s.slt } = s

namespace SltOnly
variable {s t : State}

theorem regs (h : SltOnly s t) : t.regs = s.regs := (congrArg State.regs h :)
theorem out (h : SltOnly s t) : t.out = s.out := (congrArg State.out h :)

theorem isOpen (h : SltOnly s t) (hs : ChainOpen s) : ChainOpen t :=
  hs.of_same ((congrArg State.su h :) ▸ hs.on) (congrArg State.svc h :) fun _ _ => by unfold rd; rw [h.regs]

end SltOnly

section
variable {s : State} {h : Nat} {b : List Byte}

/-- The pieces that the block holds, once a piece has come. -/
def piecesWith (s : State) (h : Nat) (b : List Byte) : List (Nat × List Byte) :=
  tabSet (if chTry h == 0 && s.slt.rx.any (fun p => chArg h ≤ p.1) then [] else s.slt.rx) (chArg h) b

theorem takePiece_takes (hs : s.su = .load ∨ (s.su = .run ∧ s.slt.rldOpen = true)) : takePiece s h b =
    setSlt s (fun x => { x with rx := piecesWith s h b, whole := (wholeImage (piecesWith s h b)).isSome }) := by
  have takes : (s.su == .load || (s.su == .run && s.slt.rldOpen)) = true := by
    rcases hs with hs | ⟨hs, ho⟩
    · simp [hs]
    · simp [hs, ho]
  exact if_pos takes

theorem takePiece_leaves (hl : s.su ≠ .load) (hr : s.su ≠ .run) : takePiece s h b = s := by
  simp [takePiece, hl, hr]

theorem takePiece_sltOnly (s : State) (h : Nat) (b : List Byte) : SltOnly s (takePiece s h b) := by
  unfold takePiece
  split <;> rfl

theorem piecesWith_self (s : State) (h : Nat) (b : List Byte) : mapGet [] (piecesWith s h b) (chArg h) = b := by
  rw [piecesWith, mapGet_tabSet, if_pos rfl]

/-- A further piece of the same stream leaves the others. -/
theorem piecesWith_ne (ht : chTry h ≠ 0 ∨ ∀ p ∈ s.slt.rx, p.1 < chArg h) {o : Nat} (ho : o ≠ chArg h) :
    mapGet [] (piecesWith s h b) o = mapGet [] s.slt.rx o := by
  have more : (chTry h == 0 && s.slt.rx.any (fun p => chArg h ≤ p.1)) = false := by
    rcases ht with ht | ht
    · simp [ht]
    · simpa using fun _ x y hxy => ht (x, y) hxy
  rw [piecesWith, more, mapGet_tabSet, if_neg ho.symm]
  rfl

theorem dropStaged_eq (s : State) : dropStaged s =
    setSlt s (fun x => { x with staged := if x.rldAt = none then [] else x.staged }) := by
  unfold dropStaged
  by_cases h : s.slt.rldAt = none
  · rw [if_neg (by simp [h])]
    simp only [setSlt, if_pos h]
  · rw [if_pos (Option.isSome_iff_ne_none.mpr h)]
    simp only [setSlt, if_neg h]

theorem effReload_sltOnly (s : State) (h : Nat) (b : List Byte) : SltOnly s (effReload s h b) := by
  unfold effReload
  rw [dropStaged_eq]
  extract_lets w
  split
  · rfl
  · split
    · split <;> rfl
    · split <;> rfl
    · rfl
    · rfl

section
variable (hs : s.su = .run)
include hs

theorem effReload_opens (hh : isHead s = false) (hk : bits (leNat b) 62 2 = 0) : effReload s h b =
    setSlt (dropStaged s) (fun x => { x with rldOpen := true, rx := [], whole := false, rldSt := 0 }) := by
  simp [effReload, hs, hk, hh]

theorem effReload_commits (hk : bits (leNat b) 62 2 = 1) : effReload s h b = setSlt s (fun x =>
    { x with rldOpen := false, rldAt := if s.slt.rldSt = 1 then some (bits (leNat b) 0 48) else x.rldAt }) := by
  by_cases hst : s.slt.rldSt = 1
  · simp [effReload, hs, hk, hst, setSlt]
  · simp [effReload, hs, hk, hst, setSlt]

theorem effReload_abandons (hk : bits (leNat b) 62 2 = 2) : effReload s h b =
    setSlt (dropStaged s) (fun x => { x with rldOpen := false, rx := [], whole := false, rldSt := 0 }) := by
  simp [effReload, hs, hk]

end

end

/-! ## CHAIN and CAND (R232, R305) -/

section
variable {s : State} {h : Nat} {b : List Byte}

theorem effChain_shows : fld (effChain s h b) Reg.strId Fl.strId_CHAINLEN = leNat b % 2 ^ Fl.strId_CHAINLEN.width ∧
    stratum (effChain s h b) = stratum s :=
  ⟨fld_setFld_self _ _ _ _ (by decide), fld_setFld_other _ _ _ _ _ (by decide) (by decide)⟩

theorem effChain_within : RegsWithin [Reg.strId] s (effChain s h b) := (RegsWithin.rfl' _ s).setFld (by decide) _ _

theorem leNat_lt (bs : List Byte) : leNat bs < 256 ^ bs.length := by
  induction bs with
  | nil => exact Nat.one_pos
  | cons b bs ih =>
    have byte : b.toNat < 256 := b.isLt
    have step : b.toNat + 256 * leNat bs < 256 * 256 ^ bs.length := by omega
    rw [List.length_cons, Nat.pow_succ']
    exact step

/-- The number of at most eight bytes fits a register. -/
theorem leNat_take_lt (bs : List Byte) : leNat (bs.take 8) < 2 ^ 64 :=
  (leNat_lt _).trans_le (Nat.pow_le_pow_right (n := 256) (by decide) (List.length_take_le 8 bs))

/-- The first n registers of the candidate set take values. -/
def candsPut (f : Nat → W64) (n : Nat) (s : State) : State :=
  (List.range n).foldl (fun s i => wr s (Reg.crnCand i) (f i)) s

theorem candsPut_succ (f : Nat → W64) (n : Nat) (s : State) :
    candsPut f (n + 1) s = wr (candsPut f n s) (Reg.crnCand n) (f n) := by
  simp [candsPut, List.range_succ]

theorem rd_candsPut (f : Nat → W64) {n i : Nat} (hi : i < n) (s : State) :
    rd (candsPut f n s) (Reg.crnCand i) = f i := by
  induction n with
  | zero => omega
  | succ n ih =>
    rw [candsPut_succ, rd_wr]
    split
    · rename_i e
      have : n = i := by unfold Reg.crnCand at e; omega
      rw [this]
    · rename_i e
      exact ih (by
        have : n ≠ i := fun h => e (h ▸ rfl)
        omega)

theorem candsPut_within (f : Nat → W64) (n : Nat) (s : State) :
    RegsWithin ((List.range n).map Reg.crnCand) s (candsPut f n s) := by
  induction n with
  | zero => exact .rfl' _ s
  | succ n ih =>
    rw [candsPut_succ]
    exact (ih.mono fun a ha => by simp only [List.range_succ, List.map_append, List.mem_append]; exact .inl ha).wr
      (by simp [List.range_succ]) _

theorem elect_away (hs : s.su ≠ .timelock) : elect s = s := by simp [elect, hs]

/-- The candidate set as a CAND brings it. -/
def candWords (b : List Byte) (i : Nat) : W64 := BitVec.ofNat 64 (leNat ((b.drop (8 * i)).take 8))

theorem candWords_toNat (b : List Byte) (i : Nat) : (candWords b i).toNat = leNat ((b.drop (8 * i)).take 8) := by
  rw [candWords, BitVec.toNat_ofNat]
  exact Nat.mod_eq_of_lt (leNat_take_lt _)

theorem effCand_away (hs : s.su ≠ .safe) (ht : s.su ≠ .timelock) : effCand s h b = candsPut (candWords b) 16 s := by
  have away : (candsPut (candWords b) 16 s).su ≠ .timelock := by
    rw [(candsPut_within ..).su]
    exact ht
  unfold effCand
  rw [if_neg (by simpa using hs)]
  exact elect_away away

theorem effCand_within (hs : s.su ≠ .safe) (ht : s.su ≠ .timelock) :
    RegsWithin ((List.range 16).map Reg.crnCand) s (effCand s h b) := by
  rw [effCand_away hs ht]
  exact candsPut_within ..

theorem effCand_shows (hs : s.su ≠ .safe) (ht : s.su ≠ .timelock) {i : Nat} (hi : i < 16) :
    (rd (effCand s h b) (Reg.crnCand i)).toNat = leNat ((b.drop (8 * i)).take 8) := by
  rw [effCand_away hs ht, rd_candsPut _ hi]
  exact candWords_toNat b i

end

/-! ## PHASE (R335, R247) -/

/-- From s to t the start-up state, Slate and the wrapper stand, the block is head as before, and every injector is armed
as before. -/
structure ChainStill (s t : State) : Prop where
  su   : t.su = s.su
  slt  : t.slt = s.slt
  svc  : t.svc = s.svc
  head : isHead t = isHead s
  inj  : ∀ n < 8, rd t (Reg.fltInjW0 n) = rd s (Reg.fltInjW0 n)

namespace ChainStill
variable {s t u : State}

theorem rfl' (s : State) : ChainStill s s := ⟨rfl, rfl, rfl, rfl, fun _ _ => rfl⟩

theorem isOpen (h : ChainStill s t) (hs : ChainOpen s) : ChainOpen t := hs.of_same (h.su ▸ hs.on) h.svc h.inj

theorem setFld (h : ChainStill s t) {a : Nat} (ha : ∀ n < 8, a ≠ Reg.fltInjW0 n) (f : Field) (v : Nat) :
    ChainStill s (setFld t a f v) :=
  ⟨h.su, h.slt, h.svc, h.head, fun n hn => (rd_setFld_ne _ _ _ (ha n hn)).trans (h.inj n hn)⟩

theorem setFlag (h : ChainStill s t) {a : Nat} (ha : ∀ n < 8, a ≠ Reg.fltInjW0 n) (f : Field) (b : Bool) :
    ChainStill s (setFlag t a f b) := h.setFld ha f _

theorem setCrn (h : ChainStill s t) (f : CairnSt → CairnSt) : ChainStill s (setCrn t f) :=
  ⟨h.su, h.slt, h.svc, h.head, h.inj⟩

theorem setLock (h : ChainStill s t) (k : Nat) : ChainStill s (setLock t k) :=
  (h.setFld (a := Reg.crnState) (by decide) _ _).setCrn _

theorem onlyLinks (h : ChainStill s t) (hl : OnlyLinks t u) : ChainStill s u := by
  obtain ⟨L, rfl⟩ := hl
  exact ⟨h.su, h.slt, h.svc, h.head, h.inj⟩

theorem record (h : ChainStill s t) {r : ErrRec} (hr : r.sev ≠ 3) : ChainStill s (recordErr t r) := by
  have books : BooksFree t (recordErr t r) := recordErr_booksFree hr
  exact ⟨books.su.trans h.su, books.slt.trans h.slt, books.svc.trans h.svc,
    (congrArg Pins.head books.strap).trans h.head, fun n hn => (books.regs (bookReg_fltInjW0 n hn)).trans (h.inj n hn)⟩

theorem becomeLode (h : ChainStill s t) : ChainStill s (becomeLode t) := by
  unfold Machine.becomeLode
  exact (((((h.setFlag (by decide) _ _).setFld (by decide) _ _).setFld (by decide) _ _).setFld (by decide) _ _).setLock
    _).setCrn _

theorem becomeFollower (h : ChainStill s t) (l : Nat) : ChainStill s (becomeFollower t l) := by
  unfold Machine.becomeFollower
  exact ((((h.setFlag (by decide) _ _).setFld (by decide) _ _).setFld (by decide) _ _).setFld (by decide) _ _).setCrn _

theorem fixAnchor (h : ChainStill s t) (g : Nat) : ChainStill s (fixAnchor t g) := by
  unfold Machine.fixAnchor
  exact ((h.setFld (by decide) _ _).setFld (by decide) _ _).setCrn _

theorem tryReady (h : ChainStill s t) : ChainStill s (tryReady t) := by
  unfold Machine.tryReady
  split
  · exact h
  · split
    · split
      · exact h.fixAnchor _
      · exact h
    · split
      · exact (h.setCrn _).onlyLinks (sendMsg_onlyLinks ..)
      · exact h

theorem elect (h : ChainStill s t) : ChainStill s (elect t) := by
  unfold Machine.elect
  extract_lets uncounted epoch
  split
  · exact h
  · split
    · exact (h.setFlag (by decide) _ _).record (by decide)
    · split
      · exact (((h.setFld (by decide) _ _).setCrn _).becomeLode).tryReady
      · exact (h.setFld (by decide) _ _).becomeFollower _

theorem sampleLoden (h : ChainStill s t) : ChainStill s (sampleLoden t) := by
  have sampled : ChainStill s { t with strap := { t.strap with loden := t.pins.loden } } :=
    ⟨h.su, h.slt, h.svc, h.head, h.inj⟩
  exact sampled.setFlag (a := Reg.crnState) (by decide) _ _

end ChainStill

section
variable {s : State} {h : Nat} {b : List Byte}

/-- LINKUP, done, is left for TIMELOCK. -/
theorem enterSu_timelock (hs : s.su = .linkupDone) : enterSu s .timelock = { s with su := .timelock } := by
  unfold enterSu
  rw [if_pos (by simp [hs, suNext])]
  rfl

theorem enterTimelock_still (hs : s.su = .linkupDone) (hh : isHead s = false) :
    ChainStill { s with su := .timelock } (enterTimelock s) := by
  have shown : ChainStill { s with su := .timelock } (sampleLoden (enterSu s .timelock)) := by
    rw [enterSu_timelock hs]
    exact (ChainStill.rfl' _).sampleLoden
  unfold enterTimelock
  extract_lets sampled elected
  have chosen : ChainStill { s with su := .timelock } elected := by
    unfold elected
    split
    · exact shown
    · exact shown.elect
  have follower : isHead elected = false := chosen.head.trans hh
  rw [if_neg (by simp [follower])]
  exact chosen

/-- PHASE has been heard. -/
def phaseHeard (s : State) : State := setSlt s (fun x => { x with phase := true })

theorem effPhase_leads (hb : leNat b % 16 = 7) (hs : s.su = .linkupDone) : effPhase s h b = enterTimelock (phaseHeard s) := by
  have up : (phaseHeard s).su = .linkupDone := hs
  unfold phaseHeard at up
  simp [effPhase, hb, phaseHeard, up]

theorem effPhase_waits (hb : leNat b % 16 = 7) (hs : s.su ≠ .linkupDone) : effPhase s h b = phaseHeard s := by
  have up : (phaseHeard s).su ≠ .linkupDone := hs
  unfold phaseHeard at up
  simp [effPhase, hb, phaseHeard, up]

end

/-! ## Tables of a POLL (R307) -/

section
variable {b : List Byte} {w n v : Nat} (hw : w = 1 ∨ w = 4)
include hw

theorem pollEntry_fits : w * n % 8 + w ≤ 8 := by rcases hw with rfl | rfl <;> omega

/-- A byte of a table after an entry was put into it. -/
theorem bits_pollByte (x k : Nat) : bits (BitVec.ofNat 8 (setBits x (w * n % 8) w v)).toNat (w * k % 8) w =
    bits (setBits x (w * n % 8) w v) (w * k % 8) w := by
  rw [BitVec.toNat_ofNat]
  exact bits_mod _ _ _ _ (pollEntry_fits hw)

theorem pollEntry_pollPut_self (hn : w * n / 8 < b.length) (hv : v < 2 ^ w) :
    pollEntry (pollPut b w n v) w n = v := by
  have byte : (pollPut b w n v).getD (w * n / 8) 0 =
      BitVec.ofNat 8 (setBits (b.getD (w * n / 8) 0).toNat (w * n % 8) w v) := by
    simp [pollPut, List.getD, hn]
  rw [pollEntry, byte, bits_pollByte hw, bits_setBits_self, Nat.mod_eq_of_lt hv]

theorem pollEntry_pollPut_ne {k : Nat} (hk : k ≠ n) : pollEntry (pollPut b w n v) w k = pollEntry b w k := by
  by_cases hbyte : w * k / 8 = w * n / 8
  · by_cases hn : w * n / 8 < b.length
    · have byte : (pollPut b w n v).getD (w * n / 8) 0 =
          BitVec.ofNat 8 (setBits (b.getD (w * n / 8) 0).toNat (w * n % 8) w v) := by
        simp [pollPut, List.getD, hn]
      have apart : w * k % 8 + w ≤ w * n % 8 ∨ w * n % 8 + w ≤ w * k % 8 := by rcases hw with rfl | rfl <;> omega
      rw [pollEntry, pollEntry, hbyte, byte, bits_pollByte hw, bits_setBits_other _ _ _ _ _ _ apart]
    · rw [pollPut, List.set_eq_of_length_le (by omega)]
  · have byte : (pollPut b w n v).getD (w * k / 8) 0 = b.getD (w * k / 8) 0 := by
      simp [pollPut, List.getD, List.getElem?_set_ne (Ne.symm hbyte)]
    rw [pollEntry, pollEntry, byte]

end

section
variable {s : State} {kind w v : Nat} {b : List Byte}

theorem stratum_lt (s : State) : stratum s < 1024 := Nat.mod_lt _ (by decide)

theorem fillPoll_length : (fillPoll s kind b).length = b.length := by
  unfold fillPoll
  split
  · split
    · exact List.length_set ..
    · rfl
  · rfl

theorem fillPoll_none (hv : hasStratum s = false) : fillPoll s kind b = b := by
  unfold fillPoll
  split <;> simp [hv]

/-- The block's own entry is filled in, and the others stay. -/
theorem fillPoll_fills (hown : ownEntry s kind = some (w, v)) (hv : hasStratum s = true) (hw : w = 1 ∨ w = 4)
    (hlen : b.length = 128 * w) (hval : v < 2 ^ w) : pollEntry (fillPoll s kind b) w (stratum s) = v ∧
      ∀ n, n ≠ stratum s → pollEntry (fillPoll s kind b) w n = pollEntry b w n := by
  have filled : fillPoll s kind b = pollPut b w (stratum s) v := by simp [fillPoll, hown, hv]
  have inside : w * stratum s / 8 < b.length := by
    have := stratum_lt s
    rcases hw with rfl | rfl <;> omega
  rw [filled]
  exact ⟨pollEntry_pollPut_self hw inside hval, fun n hn => pollEntry_pollPut_ne hw hn⟩

theorem suCode_lt (s : State) : suCode s < 16 := by
  unfold suCode
  repeat' split
  all_goals decide

end

/-! ## The commands of a follower -/

section
variable {s : State} {m : ChainMsg} (hs : ChainOpen s) (hh : isHead s = false) (hf : MsgFits m)
  (hc : crcGood m = true)
include hs hh hf hc

theorem exec_enum_passes (hm : MsgIs m 1 0) : exec (.enum m) s = .next (chainSent (effEnum s m.hdr.toNat m.body)
    (setBits m.hdr.toNat 0 11 (enumOut s (enumNext m.hdr.toNat))) m.body true) :=
  congrArg Host.Outcome.next (passMsg_takes hs hh hf hc hm (effEnum_within.isOpen (by decide) hs))

theorem exec_image_passes (hm : MsgIs m 2 0) :
    exec (.image m) s = .next (chainSent (takePiece s m.hdr.toNat m.body) m.hdr.toNat m.body true) :=
  congrArg Host.Outcome.next (passMsg_takes hs hh hf hc hm ((takePiece_sltOnly ..).isOpen hs))

theorem exec_bcastChain_passes (hm : MsgIs m 3 1) :
    exec (.bcastChain m) s = .next (chainSent (effChain s m.hdr.toNat m.body) m.hdr.toNat m.body true) :=
  congrArg Host.Outcome.next (passMsg_takes hs hh hf hc hm (effChain_within.isOpen (by decide) hs))

theorem exec_bcastCand_passes (hm : MsgIs m 3 2) (ho : ChainOpen (effCand s m.hdr.toNat m.body)) :
    exec (.bcastCand m) s = .next (chainSent (effCand s m.hdr.toNat m.body) m.hdr.toNat m.body true) :=
  congrArg Host.Outcome.next (passMsg_takes hs hh hf hc hm ho)

theorem exec_bcastPhase_passes (hm : MsgIs m 3 3) (ho : ChainOpen (effPhase s m.hdr.toNat m.body)) :
    exec (.bcastPhase m) s = .next (chainSent (effPhase s m.hdr.toNat m.body) m.hdr.toNat m.body true) :=
  congrArg Host.Outcome.next (passMsg_takes hs hh hf hc hm ho)

theorem exec_bcastReload_passes (hm : MsgIs m 3 4) :
    exec (.bcastReload m) s = .next (chainSent (effReload s m.hdr.toNat m.body) m.hdr.toNat m.body true) :=
  congrArg Host.Outcome.next (passMsg_takes hs hh hf hc hm ((effReload_sltOnly ..).isOpen hs))

/-- A poll goes on with the block's own entry filled in, and leaves the block as it found it. -/
theorem passMsg_polls {kind w v : Nat} (hm : MsgIs m 4 kind) (hown : ownEntry s kind = some (w, v)) (hw : w = 1 ∨ w = 4)
    (hlen : m.body.length = 128 * w) (hv : v < 2 ^ w) : ∃ b,
      passMsg s m Ch.poll kind (fwdPoll kind) effNone = chainSent s m.hdr.toNat b true ∧ b.length = m.body.length ∧
      (hasStratum s = false → b = m.body) ∧ (hasStratum s = true → pollEntry b w (stratum s) = v ∧
        ∀ n, n ≠ stratum s → pollEntry b w n = pollEntry m.body w n) :=
  ⟨_, passMsg_takes (eff := effNone) (fwd := fwdPoll kind) hs hh hf hc hm hs, fillPoll_length, fillPoll_none,
    fun hstr => fillPoll_fills hown hstr hw hlen hv⟩

end

theorem pollBody_length {m : ChainMsg} {kind w : Nat} (hf : MsgFits m) (hm : MsgIs m 4 kind)
    (hk : (kind = 1 ∧ w = 1) ∨ (kind = 2 ∧ w = 4) ∨ (kind = 3 ∧ w = 1)) : m.body.length = 128 * w := by
  obtain ⟨hlen, hbody⟩ := hf
  obtain ⟨htype, hkind⟩ := hm
  have kind : chKind m.hdr.toNat = kind := by simpa [Ch.enum, Ch.image] using hkind
  rw [hbody]
  rcases hk with ⟨rfl, rfl⟩ | ⟨rfl, rfl⟩ | ⟨rfl, rfl⟩ <;> simpa [lenFits, htype, kind] using hlen

/-! ## Every command of a follower passes its message -/

/-- A block as a message finds it: POLL ELIG has sampled LODESTONE_EN, and nothing else has changed. -/
structure Found (s u : State) : Prop where
  live : ChainOpen u
  head : isHead u = false
  out  : u.out = s.out
  su   : u.su = s.su
  slt  : u.slt = s.slt
  regs : ∀ a, a ≠ Reg.crnState → rd u a = rd s a

/-- The commands of the messages that the tables list. -/
def chainRows (m : ChainMsg) : List Instr :=
  [.enum m, .image m, .bcastChain m, .bcastCand m, .bcastPhase m, .bcastReload m, .pollElig m, .pollState m, .pollAlive m]

theorem Found.strId {s u : State} (h : Found s u) : rd u Reg.strId = rd s Reg.strId := h.regs _ (by decide)

theorem Found.stratum {s u : State} (h : Found s u) : stratum u = stratum s := fld_congr h.strId

theorem Found.hasStratum {s u : State} (h : Found s u) : hasStratum u = hasStratum s := by
  unfold Machine.hasStratum flag
  rw [fld_congr h.strId]

theorem Found.strStat {s u : State} (h : Found s u) (f : Field) : fld u Reg.strStat f = fld s Reg.strStat f :=
  fld_congr (h.regs _ (by decide))

section
variable {s : State} {m : ChainMsg} (hs : ChainOpen s) (hh : isHead s = false)
include hs hh

theorem found_self : Found s s := ⟨hs, hh, rfl, rfl, rfl, fun _ _ => rfl⟩

theorem found_sampleLoden : Found s (sampleLoden s) := by
  have still := (ChainStill.rfl' s).sampleLoden
  have within : RegsWithin [Reg.crnState] { s with strap := { s.strap with loden := s.pins.loden } } (sampleLoden s) :=
    (RegsWithin.rfl' _ _).setFlag (a := Reg.crnState) (by decide) _ _
  exact ⟨still.isOpen hs, still.head.trans hh, within.out, still.su, still.slt,
    fun a ha => within.regs a (by simpa using ha)⟩

/-- POLL ELIG samples LODESTONE_EN first (R422). -/
theorem exec_pollElig (m : ChainMsg) :
    exec (.pollElig m) s = .next (passMsg (sampleLoden s) m Ch.poll 1 (fwdPoll 1) effNone) := by
  show Host.Outcome.next (passMsg (if (s.su == .off || isHead s) = true then s else sampleLoden s) _ _ _ _ _) = _
  rw [if_neg (by simp [hs.on, hh])]

theorem exec_chainRow {i : Instr} (hi : i ∈ chainRows m) :
    ∃ u type kind fwd eff, Found s u ∧ exec i s = .next (passMsg u m type kind fwd eff) := by
  have self := found_self hs hh
  simp only [chainRows, List.mem_cons, List.not_mem_nil, or_false] at hi
  rcases hi with rfl | rfl | rfl | rfl | rfl | rfl | rfl | rfl | rfl
  case inr.inr.inr.inr.inr.inr.inl => exact ⟨_, _, _, _, _, found_sampleLoden hs hh, exec_pollElig hs hh m⟩
  all_goals exact ⟨s, _, _, _, _, self, rfl⟩

omit hs hh in
/-- STRATA_BADLEN passes what does not fit, or is listed nowhere. -/
theorem exec_strataBadlen (hl : MsgFits m → kindListed m.hdr.toNat = false) :
    exec (.strataBadlen m) s = .next (passMsg s m 0 0 fwdSame effNone) := by
  have passes : ¬ (lenFits m.hdr.toNat && m.body.length == chLen m.hdr.toNat && kindListed m.hdr.toNat) = true := by
    intro h
    obtain ⟨⟨hlen, hbody⟩, hlisted⟩ : (lenFits m.hdr.toNat = true ∧ m.body.length = chLen m.hdr.toNat) ∧
      kindListed m.hdr.toNat = true := by simpa using h
    simp [hl ⟨hlen, hbody⟩] at hlisted
  exact congrArg Host.Outcome.next (if_neg passes)

end

end Sys2Proof.Machine

namespace Sys2Proof.Proofs
open Sys2Proof.Machine

/-- Settles O53: a message is forwarded as `passMsg_takes`, `passMsg_badCrc`, `passMsg_badLen` and `passMsg_effNone` say,
and each clause is what its kind's effect does. -/
theorem chainMessagesPassFollowers : Obligations.ChainMessagesPassFollowers := by
  unfold Obligations.ChainMessagesPassFollowers
  intro s m hon hhead hinj hwrap h b id st rows fits sent is next
  have hs : ChainOpen s := ⟨hon, hinj, hwrap⟩
  have whole {t k : Nat} (hi : is t k) (ht : t = Ch.enum ∨ t = Ch.image ∨ k ≠ 0) :
      MsgFits m ∧ crcGood m = true ∧ MsgIs m t k := by
    obtain ⟨hf, hc, htype, hkind⟩ := hi
    exact ⟨hf, hc, htype, by tauto⟩
  refine ⟨?enum, ?image, ?chain, ?cand, ?phase, ?reload, ?poll, ?badCrc, ?badLen, ?unlisted⟩
  case enum =>
    intro hi
    obtain ⟨hf, hc, hm⟩ := whole hi (.inl rfl)
    have within : RegsWithin [Reg.strId, Reg.strStat, Reg.numSrStratum] s (effEnum s h b) := effEnum_within
    have run := exec_enum_passes hs hhead hf hc hm
    refine ⟨_, run, chainSent_out _ _ _ within.out, ?_⟩
    simp only [rd_chainSent, fld_chainSent, flag_chainSent, hasStratum_chainSent, stratum_chainSent]
    refine ⟨fun hv => ?known, fun hv hn => ?taken, fun hv hn => ?full, fun hsafe a ha => (effEnum_safe hsafe).regs a (by simpa using ha),
      fun a hid hst hsr => within.regs a (by simpa using ⟨hid, hst, hsr⟩)⟩
    case known => exact ⟨(effEnum_within_strStat (.inl hv)).regs _ (by decide), effEnum_mismatch hv⟩
    case full => exact ⟨(effEnum_within_strStat (.inr hn)).regs _ (by decide), effEnum_overflow hv hn⟩
    case taken =>
      have taken : effEnum s m.hdr.toNat m.body = takeStratum s (enumNext h) := effEnum_takes hv hn
      rw [taken]
      exact ⟨hasStratum_takeStratum, stratum_takeStratum hn, takeStratum_within.regs _ (by decide),
        fun hsafe => takeStratum_seeds hsafe hn⟩
  case image =>
    intro hi
    obtain ⟨hf, hc, hm⟩ := whole hi (.inr (.inl rfl))
    have only := takePiece_sltOnly s h b
    refine ⟨_, exec_image_passes hs hhead hf hc hm, chainSent_out _ _ _ only.out, only.regs, fun hsu => ?_, fun hl hr => ?_⟩
    · have rx : (takePiece s h b).slt.rx = piecesWith s h b := congrArg (·.slt.rx) (takePiece_takes hsu)
      have kept (o : Nat) : mapGet [] (takePiece s h b).slt.rx o = mapGet [] (piecesWith s h b) o := by rw [rx]
      exact ⟨(kept _).trans (piecesWith_self s h b), fun ht o ho => (kept o).trans (piecesWith_ne ht ho)⟩
    · have same : takePiece s h b = s := takePiece_leaves hl hr
      exact (congrArg State.slt same :)
  case chain =>
    intro hi
    obtain ⟨hf, hc, hm⟩ := whole hi (.inr (.inr (by decide)))
    have within : RegsWithin [Reg.strId] s (effChain s h b) := effChain_within
    obtain ⟨length, same⟩ := effChain_shows (s := s) (h := h) (b := b)
    refine ⟨_, exec_bcastChain_passes hs hhead hf hc hm, chainSent_out _ _ _ within.out, ?_⟩
    simp only [rd_chainSent, fld_chainSent, stratum_chainSent]
    exact ⟨length, same, fun a ha => within.regs a (by simpa using ha)⟩
  case cand =>
    intro hi ht hsafe
    obtain ⟨hf, hc, hm⟩ := whole hi (.inr (.inr (by decide)))
    have within : RegsWithin ((List.range 16).map Reg.crnCand) s (effCand s h b) := effCand_within hsafe ht
    exact ⟨_, exec_bcastCand_passes hs hhead hf hc hm (within.isOpen (by decide) hs), chainSent_out _ _ _ within.out,
      fun i hi => effCand_shows hsafe ht hi, fun a ha => within.regs a (by simpa [eq_comm] using ha)⟩
  case phase =>
    intro hi hb
    obtain ⟨hf, hc, hm⟩ := whole hi (.inr (.inr (by decide)))
    by_cases hsu : s.su = .linkupDone
    · have leads : effPhase s h b = enterTimelock (phaseHeard s) := effPhase_leads hb hsu
      have still : ChainStill { phaseHeard s with su := .timelock } (effPhase s h b) :=
        leads ▸ enterTimelock_still hsu hhead
      have before : ChainOpen { phaseHeard s with su := .timelock } := ⟨nofun, hs.quiet, hs.plain⟩
      have more : s.out <+: (effPhase s h b).out := leads ▸ (enterTimelock_keep (Keep.rfl' (phaseHeard s))).out
      exact ⟨_, exec_bcastPhase_passes hs hhead hf hc hm (still.isOpen before), chainSent_mem _ _ _ more,
        congrArg SltSt.phase still.slt, fun _ => still.su, fun h => absurd hsu h⟩
    · have waits : effPhase s h b = phaseHeard s := effPhase_waits hb hsu
      have only : SltOnly s (effPhase s h b) := waits ▸ rfl
      exact ⟨_, exec_bcastPhase_passes hs hhead hf hc hm (only.isOpen hs),
        chainSent_mem _ _ _ (only.out ▸ List.prefix_refl _), (congrArg (·.slt.phase) waits :),
        fun h => absurd h hsu, fun _ => ⟨(congrArg State.su waits :), only.regs⟩⟩
  case reload =>
    intro hi hrun
    obtain ⟨hf, hc, hm⟩ := whole hi (.inr (.inr (by decide)))
    have only := effReload_sltOnly s h b
    refine ⟨_, exec_bcastReload_passes hs hhead hf hc hm, chainSent_out _ _ _ only.out, fun hk => ?_, fun hk => ?_,
      fun hk => ?_, only.regs⟩
    · have opens : effReload s h b = _ := effReload_opens hrun hhead hk
      rw [dropStaged_eq] at opens
      exact ⟨(congrArg (·.slt.rldOpen) opens :), (congrArg (·.slt.rx) opens :), (congrArg (·.slt.rldAt) opens :),
        (congrArg (·.slt.rldSt) opens :), fun hat => (congrArg (·.slt.staged) opens :).trans (if_neg hat)⟩
    · have commits : effReload s h b = _ := effReload_commits hrun hk
      exact ⟨(congrArg (·.slt.rldOpen) commits :), (congrArg (·.slt.rldAt) commits :)⟩
    · have drops : effReload s h b = _ := effReload_abandons hrun hk
      rw [dropStaged_eq] at drops
      exact ⟨(congrArg (·.slt.rldOpen) drops :), (congrArg (·.slt.rldAt) drops :), (congrArg (·.slt.rldSt) drops :),
        (congrArg (·.slt.staged) drops :)⟩
  case poll =>
    intro k w v i hmem hi
    obtain ⟨hf, hc, hm⟩ := whole hi (.inr (.inr (by
      rintro rfl
      simp at hmem)))
    have replied {u : State} (found : Found s u) (hown : ownEntry u k = some (w, v)) (hw : w = 1 ∨ w = 4)
        (hlen : m.body.length = 128 * w) (hv : v < 2 ^ w)
        (run : exec i s = .next (passMsg u m Ch.poll k (fwdPoll k) effNone)) :
        ∃ t b', exec i s = .next t ∧ t.out = s.out ++ [chainOut h b' true] ∧ b'.length = b.length ∧
          (hasStratum s = false → b' = b) ∧ (hasStratum s = true → pollEntry b' w (stratum s) = v ∧
            ∀ n, n ≠ stratum s → pollEntry b' w n = pollEntry b w n) := by
      obtain ⟨b', passes, reply⟩ := passMsg_polls found.live found.head hf hc hm hown hw hlen hv
      rw [found.hasStratum, found.stratum] at reply
      exact ⟨_, b', run.trans (congrArg _ passes), chainSent_out _ _ _ found.out, reply⟩
    simp only [List.mem_cons, Prod.mk.injEq, List.not_mem_nil, or_false] at hmem
    rcases hmem with ⟨rfl, rfl, rfl, rfl⟩ | ⟨rfl, rfl, rfl, rfl⟩ | ⟨rfl, rfl, rfl, rfl⟩
    · have bit : b2n (lodeEligible (sampleLoden s)) < 2 ^ 1 := by cases lodeEligible (sampleLoden s) <;> decide
      exact replied (found_sampleLoden hs hhead) rfl (.inl rfl) (pollBody_length hf hm (.inl ⟨rfl, rfl⟩)) bit
        (exec_pollElig hs hhead m)
    · exact replied (found_self hs hhead) rfl (.inr rfl) (pollBody_length hf hm (.inr (.inl ⟨rfl, rfl⟩))) (suCode_lt s) rfl
    · exact replied (found_self hs hhead) rfl (.inl rfl) (pollBody_length hf hm (.inr (.inr ⟨rfl, rfl⟩))) (by decide) rfl
  case badCrc =>
    intro hc i hi
    obtain ⟨u, type, kind, fwd, eff, found, run⟩ := exec_chainRow hs hhead hi
    obtain ⟨h', b', sends⟩ := passMsg_badCrc (type := type) (kind := kind) (fwd := fwd) (eff := eff) found.head
      found.live.on (countCrc_open found.live) hc
    refine ⟨_, h', b', run.trans (congrArg _ sends), chainSent_out _ _ _ ((countCrc_out u).trans found.out), ?_⟩
    simp only [chainSent_su, chainSent_slt, rd_chainSent, fld_chainSent]
    exact ⟨(countCrc_su u).trans found.su, (countCrc_slt u).trans found.slt, (rd_countCrc_strId u).trans found.strId,
      fun hsafe => (countCrc_counts (found.su ▸ hsafe)).trans (by rw [found.strStat])⟩
  case badLen =>
    intro hc hf i hi
    have passes : ∃ u type kind fwd eff, Found s u ∧ exec i s = .next (passMsg u m type kind fwd eff) := by
      rcases List.mem_cons.mp hi with rfl | hi
      · exact ⟨s, _, _, _, _, found_self hs hhead, exec_strataBadlen fun h => absurd h hf⟩
      · exact exec_chainRow hs hhead hi
    obtain ⟨u, type, kind, fwd, eff, found, run⟩ := passes
    have within := badLenNoted_within u
    refine ⟨_, run.trans (congrArg _ (passMsg_badLen found.live found.head hf hc)),
      chainSent_out _ _ _ (within.out.trans found.out), ?_⟩
    simp only [chainSent_su, chainSent_slt, rd_chainSent, fld_chainSent]
    exact ⟨within.su.trans found.su, within.slt.trans found.slt, (within.regs _ (by decide)).trans found.strId,
      fun hsafe => (badLenNoted_counts (found.su ▸ hsafe)).trans (by rw [found.strStat])⟩
  case unlisted =>
    intro hc hf hl
    rw [exec_strataBadlen fun _ => hl, passMsg_effNone hs hhead hf hc, emit_chainOut hs]

end Sys2Proof.Proofs

/-! PROOFS. Codes and their values in rationals (R29, R32, R34, R35): the fields of a floating code, what a short float's
code is worth, and the integers. -/

namespace Sys2Proof.Machine

/-! ## Fields -/

theorem bits_eq_div_mod (x lo n : Nat) : bits x lo n = x / 2 ^ lo % 2 ^ n := by
  rw [bits, Nat.shiftRight_eq_div_pow]

theorem bits_zero_eq_mod (x n : Nat) : bits x 0 n = x % 2 ^ n := by simp [bits]

theorem bit_top {x n : Nat} (h : x < 2 ^ (1 + n)) : bit x n = decide (x / 2 ^ n = 1) := by
  have top : x / 2 ^ n < 2 := Nat.div_lt_of_lt_mul (by rwa [← Nat.pow_succ, Nat.succ_eq_one_add])
  rw [bit, Nat.shiftRight_eq_div_pow, Nat.mod_eq_of_lt top]
  rfl

/-! ## Short floats (R32) -/

/-- A sign of the rationals. -/
def signOf (neg : Bool) : ℚ := if neg then -1 else 1

/-- A power of two under which a mantissa of n bits is divided. -/
theorem two_zpow_sub_natCast (e : Int) (n : Nat) : (2 : ℚ) ^ (e - n) = 2 ^ e / 2 ^ n := by
  rw [zpow_sub₀ two_ne_zero, zpow_natCast]

section
variable {p : FltP} {c : Nat}

/-- The parts of a code: sign, exponent field and fraction. -/
theorem fltCode_parts (p : FltP) (c : Nat) :
    c = c % 2 ^ p.mw + 2 ^ p.mw * (c / 2 ^ p.mw % 2 ^ p.ew) + 2 ^ (p.ew + p.mw) * (c / 2 ^ (p.ew + p.mw)) := by
  have low := Nat.div_add_mod c (2 ^ p.mw)
  have high := Nat.div_add_mod (c / 2 ^ p.mw) (2 ^ p.ew)
  rw [Nat.div_div_eq_div_mul, ← Nat.pow_add, Nat.add_comm p.mw] at high
  have scaled := congrArg (2 ^ p.mw * ·) high
  simp only [Nat.mul_add, ← Nat.mul_assoc, ← Nat.pow_add, Nat.add_comm p.mw] at scaled
  omega

/-- Its only NaN is the code with only the sign bit set. -/
theorem fltVal_short_nan (hs : p.short = true) : fltVal p (2 ^ (p.ew + p.mw)) = .nan false := by
  have sign : bit (2 ^ (p.ew + p.mw)) (p.ew + p.mw) = true := by
    rw [bit_top (Nat.pow_lt_pow_right (by decide) (by omega)), Nat.div_self (Nat.two_pow_pos _)]
    rfl
  have exponent : bits (2 ^ (p.ew + p.mw)) p.mw p.ew = 0 := by
    rw [bits_eq_div_mod, Nat.pow_add, Nat.mul_div_cancel _ (Nat.two_pow_pos _), Nat.mod_self]
  have fraction : bits (2 ^ (p.ew + p.mw)) 0 p.mw = 0 := by
    rw [bits_zero_eq_mod, Nat.pow_add, Nat.mul_mod_left]
  simp [fltVal, hs, sign, exponent, fraction]

/-- Every other code is a number: subnormal where its exponent field is zero, else normal. -/
theorem fltVal_short (hs : p.short = true) (hc : c < 2 ^ (1 + (p.ew + p.mw))) (hn : c ≠ 2 ^ (p.ew + p.mw)) :
    fltVal p c = if c / 2 ^ p.mw % 2 ^ p.ew = 0
      then .fin (decide (c / 2 ^ (p.ew + p.mw) = 1)) (c % 2 ^ p.mw) (1 - p.bias - p.mw)
      else .fin (decide (c / 2 ^ (p.ew + p.mw) = 1)) (2 ^ p.mw + c % 2 ^ p.mw)
        ((c / 2 ^ p.mw % 2 ^ p.ew : Nat) - p.bias - p.mw) := by
  have parts := fltCode_parts p c
  have number : ¬ (c / 2 ^ (p.ew + p.mw) = 1 ∧ c / 2 ^ p.mw % 2 ^ p.ew = 0 ∧ c % 2 ^ p.mw = 0) := by
    rintro ⟨sign, exponent, fraction⟩
    rw [sign, exponent, fraction] at parts
    exact hn (by omega)
  unfold fltVal
  simp only [hs, bit_top hc, bits_eq_div_mod]
  split
  · rename_i nan
    exact absurd (by simpa [and_assoc] using nan) number
  · simp

/-- What sign, exponent and mantissa of a short float give. -/
def shortValue (p : FltP) (c : Nat) : ℚ :=
  let s : ℚ := if c / 2 ^ (p.ew + p.mw) = 1 then -1 else 1
  let ef : ℕ := c / 2 ^ p.mw % 2 ^ p.ew
  let frac : ℚ := (c % 2 ^ p.mw : ℕ) / (2 : ℚ) ^ p.mw
  s * if ef = 0 then frac * 2 ^ (1 - (p.bias : Int)) else (1 + frac) * 2 ^ ((ef : Int) - p.bias)

theorem fltVal_short_value (hs : p.short = true) (hc : c < 2 ^ (1 + (p.ew + p.mw))) (hn : c ≠ 2 ^ (p.ew + p.mw)) :
    ∃ neg m e, fltVal p c = .fin neg m e ∧ (m = 0 ↔ c = 0) ∧ (c = 0 → neg = false) ∧
      signOf neg * m * 2 ^ e = shortValue p c := by
  have parts := fltCode_parts p c
  have top : c / 2 ^ (p.ew + p.mw) < 2 := Nat.div_lt_of_lt_mul (by rwa [← Nat.pow_succ, Nat.succ_eq_one_add])
  have value := fltVal_short hs hc hn
  have plus : c = 0 → decide (c / 2 ^ (p.ew + p.mw) = 1) = false := by
    rintro rfl
    simp
  have sign : signOf (decide (c / 2 ^ (p.ew + p.mw) = 1)) = if c / 2 ^ (p.ew + p.mw) = 1 then -1 else 1 := by
    simp [signOf]
  by_cases exponent : c / 2 ^ p.mw % 2 ^ p.ew = 0
  · rw [if_pos exponent] at value
    refine ⟨_, _, _, value, ⟨fun fraction => ?_, fun h => by simp [h]⟩, plus, ?_⟩
    · rw [exponent, fraction] at parts
      interval_cases c / 2 ^ (p.ew + p.mw)
      · simpa using parts
      · exact absurd (by simpa using parts) hn
    · rw [sign, shortValue, if_pos exponent, two_zpow_sub_natCast]
      ring
  · rw [if_neg exponent] at value
    refine ⟨_, _, _, value, ⟨fun none => ?_, fun h => by simp [h] at exponent⟩, plus, ?_⟩
    · have := Nat.two_pow_pos p.mw
      omega
    · have one : (2 : ℚ) ^ p.mw ≠ 0 := by positivity
      rw [sign, shortValue, if_neg exponent, two_zpow_sub_natCast]
      push_cast
      field_simp

end

/-! ## Integers (R35) -/

/-- A code of w bits in two's complement. -/
theorem toSigned_spec {w c : Nat} (hw : 0 < w) (hc : c < 2 ^ w) :
    -2 ^ (w - 1) ≤ toSigned w c ∧ toSigned w c < 2 ^ (w - 1) ∧ toSigned w c % 2 ^ w = (c : Int) := by
  obtain ⟨v, rfl⟩ : ∃ v, w = v + 1 := ⟨w - 1, by omega⟩
  have half : (2 : Int) ^ (v + 1) = 2 * 2 ^ v := by ring
  have codes : ((2 ^ v : Nat) : Int) = 2 ^ v := by push_cast; rfl
  have pow : 2 ^ (v + 1) = 2 * 2 ^ v := by ring
  rw [pow] at hc
  unfold toSigned
  rw [pow, Nat.mod_eq_of_lt hc, Nat.add_sub_cancel, half]
  push_cast
  generalize (2 : Nat) ^ v = h at *
  generalize (2 : Int) ^ v = k at *
  subst codes
  split
  · refine ⟨by omega, by omega, ?_⟩
    rw [Int.sub_emod_right]
    exact Int.emod_eq_of_lt (by omega) (by omega)
  · exact ⟨by omega, by omega, Int.emod_eq_of_lt (by omega) (by omega)⟩

theorem signOf_valOfInt (i : Int) : signOf (decide (i < 0)) * i.natAbs = i := by
  unfold signOf
  rcases lt_or_ge i 0 with h | h
  · simp [h, abs_of_neg (Int.cast_lt_zero.mpr h : (i : ℚ) < 0), Nat.cast_natAbs]
  · simp [Int.not_lt.mpr h, Nat.cast_natAbs, abs_of_nonneg h]

end Sys2Proof.Machine

namespace Sys2Proof.Proofs
open Sys2Proof.Machine

/-- Settles O58: `fltVal_short_value` for the five short floats, and `toSigned_spec` for the integers. -/
theorem shortFloatAndIntegerCodesHaveValues : Obligations.ShortFloatAndIntegerCodesHaveValues := by
  unfold Obligations.ShortFloatAndIntegerCodesHaveValues
  intro value
  refine ⟨?short, ?signed, fun i => ?integer, fun c hc => ?u8, fun c hc => ?u10⟩
  case short =>
    intro f E M bias hmem
    obtain ⟨n, rfl, layout⟩ : ∃ n : Nat, bias = n ∧ fmtFlt f = some ⟨E, M, n, true⟩ := by
      simp only [List.mem_cons, Prod.mk.injEq, List.not_mem_nil, or_false] at hmem
      rcases hmem with ⟨rfl, rfl, rfl, rfl⟩ | ⟨rfl, rfl, rfl, rfl⟩ | ⟨rfl, rfl, rfl, rfl⟩ | ⟨rfl, rfl, rfl, rfl⟩ |
        ⟨rfl, rfl, rfl, rfl⟩
      all_goals exact ⟨_, rfl, rfl⟩
    have read (c : Nat) : codeVal f c = fltVal ⟨E, M, n, true⟩ c := by simp [codeVal, layout]
    refine ⟨(read _).trans (fltVal_short_nan rfl), fun c hc hn => ?_⟩
    obtain ⟨neg, m, e, hval, rest⟩ := fltVal_short_value (p := ⟨E, M, n, true⟩) rfl (by rwa [← Nat.add_assoc]) hn
    exact ⟨neg, m, e, (read c).trans hval, rest⟩
  case signed =>
    intro f w hmem c hc
    have code : codeVal f c = valOfInt (toSigned w c) ∧ 0 < w := by
      simp only [List.mem_cons, Prod.mk.injEq, List.not_mem_nil, or_false] at hmem
      rcases hmem with ⟨rfl, rfl⟩ | ⟨rfl, rfl⟩ | ⟨rfl, rfl⟩
      all_goals exact ⟨rfl, by decide⟩
    exact ⟨_, code.1, toSigned_spec code.2 hc⟩
  case integer =>
    refine ⟨_, _, rfl, ?_⟩
    show signOf _ * _ * (2 : ℚ) ^ (0 : Int) = i
    rw [zpow_zero, mul_one]
    exact signOf_valOfInt i
  case u8 => exact congrArg (Val.fin false · 0) (Nat.mod_eq_of_lt hc)
  case u10 => exact congrArg (Val.fin false · 0) (Nat.mod_eq_of_lt hc)

end Sys2Proof.Proofs

/-! PROOFS. Rounding to the grid and overflow (R34, R46, R47): the unit of a value, the multiple that a mode chooses, and
when its magnitude exceeds the largest finite value of a floating format. -/

namespace Sys2Proof.Machine

/-! ## The binary exponent of a value -/

theorem two_zpow_log2Mag_le {m : Nat} (e : Int) (hm : m ≠ 0) : (2 : ℚ) ^ log2Mag m e ≤ m * 2 ^ e := by
  rw [log2Mag, zpow_add₀ two_ne_zero, zpow_natCast]
  gcongr
  exact_mod_cast Nat.log2_self_le hm

theorem lt_two_zpow_log2Mag_succ (m : Nat) (e : Int) : (m : ℚ) * 2 ^ e < 2 ^ (log2Mag m e + 1) := by
  have grow : log2Mag m e + 1 = ((m.log2 + 1 : Nat) : Int) + e := by
    rw [log2Mag]
    omega
  rw [grow, zpow_add₀ two_ne_zero, zpow_natCast]
  gcongr
  exact_mod_cast Nat.lt_log2_self

/-! ## Multiples of a unit (R46) -/

section
variable {rm : RMode} {neg : Bool} {m r : Nat} {e ue : Int}

/-- A mode rounds up a magnitude of n units and the part f of one, over which `roundsUp` computes in integers. -/
def RoundsUp (rm : RMode) (neg : Bool) (n : Nat) (f : ℚ) (r : Nat) : Prop :=
  match rm with
  | .rne => f > 1 / 2 ∨ (f = 1 / 2 ∧ n % 2 = 1)
  | .rtz => False
  | .ru => f > 0 ∧ neg = false
  | .rd => f > 0 ∧ neg = true
  | .sr => 65536 ≤ ⌊f * 2 ^ 16⌋.toNat + r

theorem roundsUp_iff (rm : RMode) (neg : Bool) (n rem d : Nat) (hr : r < 65536) :
    roundsUp rm neg n rem d r = true ↔ RoundsUp rm neg n (rem / 2 ^ d) r := by
  have unit : (0 : ℚ) < 2 ^ d := by positivity
  have some_left : (rem : ℚ) / 2 ^ d > 0 ↔ 0 < rem := by
    rw [gt_iff_lt, div_pos_iff_of_pos_right unit, Nat.cast_pos]
  cases rm with
  | rne =>
    have above : (rem : ℚ) / 2 ^ d > 1 / 2 ↔ 2 ^ d < 2 * rem := by
      rw [gt_iff_lt, div_lt_div_iff₀ two_pos unit, one_mul, mul_comm]
      exact_mod_cast Iff.rfl
    have half : (rem : ℚ) / 2 ^ d = 1 / 2 ↔ 2 * rem = 2 ^ d := by
      rw [div_eq_div_iff unit.ne' two_ne_zero, one_mul, mul_comm]
      exact_mod_cast Iff.rfl
    simp only [RoundsUp, above, half]
    simp [roundsUp, Nat.one_shiftLeft]
  | rtz => simp [roundsUp, RoundsUp]
  | ru => simp [roundsUp, RoundsUp, some_left]
  | rd => simp [roundsUp, RoundsUp, some_left]
  | sr =>
    have bits : ⌊(rem : ℚ) / 2 ^ d * 2 ^ 16⌋.toNat = (rem <<< 16) >>> d := by
      have quotient : (rem : ℚ) / (2 : ℚ) ^ d * (2 : ℚ) ^ 16 = ((rem <<< 16 : Nat) : ℚ) / ((2 ^ d : Nat) : ℚ) := by
        rw [Nat.shiftLeft_eq]
        push_cast
        ring
      rw [quotient, Int.floor_toNat, Nat.floor_div_eq_div, Nat.shiftRight_eq_div_pow]
    simp [roundsUp, RoundsUp, bits, Nat.mod_eq_of_lt hr]

/-- `roundUnit` in integers: whole units n, and rem / 2^d of a unit. -/
theorem roundUnit_parts (rm : RMode) (neg : Bool) (m : Nat) (e ue : Int) (r : Nat) :
    ∃ n rem d : Nat, rem < 2 ^ d ∧ (m : ℚ) * 2 ^ e / 2 ^ ue = n + rem / 2 ^ d ∧
      roundUnit rm neg m e ue r = (if roundsUp rm neg n rem d r then n + 1 else n, rem == 0) := by
  have ratio : (m : ℚ) * 2 ^ e / 2 ^ ue = m * 2 ^ (e - ue) := by
    rw [zpow_sub₀ two_ne_zero, mul_div_assoc]
  rcases le_or_gt ue e with fine | coarse
  · obtain ⟨k, hk⟩ : ∃ k : Nat, e - ue = k := ⟨_, (Int.toNat_of_nonneg (by omega)).symm⟩
    have stays : roundsUp rm neg (m <<< k) 0 0 r = false := by
      cases rm with
      | sr => simpa [roundsUp] using Nat.mod_lt r (by decide)
      | _ => simp [roundsUp]
    refine ⟨m <<< k, 0, 0, by decide, ?_, ?_⟩
    · rw [ratio, hk, Nat.shiftLeft_eq]
      push_cast
      simp
    · rw [stays, roundUnit, if_pos fine, hk]
      rfl
  · obtain ⟨d, hd⟩ : ∃ d : Nat, ue - e = d := ⟨_, (Int.toNat_of_nonneg (by omega)).symm⟩
    refine ⟨m >>> d, m % 2 ^ d, d, Nat.mod_lt _ (Nat.two_pow_pos d), ?_, ?_⟩
    · have split : (m : ℚ) = (2 : ℚ) ^ d * (m / 2 ^ d : Nat) + (m % 2 ^ d : Nat) := by
        exact_mod_cast (Nat.div_add_mod m (2 ^ d)).symm
      rw [ratio, Nat.shiftRight_eq_div_pow, show e - ue = -(d : Int) by omega, zpow_neg, zpow_natCast]
      conv_lhs => rw [split]
      field_simp
    · rw [roundUnit, if_neg (by omega), hd]
      simp [Nat.one_shiftLeft]

/-- `roundUnit` in rationals: the floor of the quotient, or one more. -/
theorem roundUnit_floor (rm : RMode) (neg : Bool) (m : Nat) (e ue : Int) (hr : r < 65536) :
    let q : ℚ := m * 2 ^ e / 2 ^ ue
    let n := ⌊q⌋.toNat
    (RoundsUp rm neg n (q - n) r → (roundUnit rm neg m e ue r).1 = n + 1) ∧
    (¬ RoundsUp rm neg n (q - n) r → (roundUnit rm neg m e ue r).1 = n) ∧
    ((roundUnit rm neg m e ue r).2 = true ↔ q - n = 0) := by
  obtain ⟨n, rem, d, below, quotient, result⟩ := roundUnit_parts rm neg m e ue r
  have part : (rem : ℚ) / 2 ^ d < 1 := by
    rw [div_lt_one (by positivity)]
    exact_mod_cast below
  have floor : ⌊(n : ℚ) + rem / 2 ^ d⌋.toNat = n := by
    rw [Int.floor_natCast_add, Int.floor_eq_zero_iff.mpr ⟨by positivity, part⟩]
    simp
  dsimp only
  rw [quotient, floor, add_sub_cancel_left, ← roundsUp_iff rm neg n rem d hr, result]
  exact ⟨fun up => if_pos up, fun down => if_neg down, by simp⟩

theorem roundToGrid_eq (hm : m ≠ 0) (p : Nat) (emin : Int) :
    roundToGrid neg m e p emin rm r =
      let ue := max (log2Mag m e) emin - ((p : Int) - 1)
      ((roundUnit rm neg m e ue r).1, ue, (roundUnit rm neg m e ue r).2) := by
  rw [roundToGrid, if_neg hm]

/-- With p bits above its unit, a value rounds to no more than 2^p units. -/
theorem roundUnit_le (p : Nat) (emin : Int) :
    (roundUnit rm neg m e (max (log2Mag m e) emin - p) r).1 ≤ 2 ^ (p + 1) := by
  obtain ⟨n, rem, d, -, quotient, result⟩ := roundUnit_parts rm neg m e (max (log2Mag m e) emin - p) r
  have small : (m : ℚ) * 2 ^ e / 2 ^ (max (log2Mag m e) emin - p) < 2 ^ (p + 1) := by
    rw [div_lt_iff₀ (by positivity), ← zpow_natCast, ← zpow_add₀ two_ne_zero]
    refine (lt_two_zpow_log2Mag_succ m e).trans_le (zpow_le_zpow_right₀ one_le_two ?_)
    push_cast
    omega
  have whole : (n : ℚ) < 2 ^ (p + 1) := by
    have : (0 : ℚ) ≤ rem / 2 ^ d := by positivity
    linarith
  have : n < 2 ^ (p + 1) := by exact_mod_cast whole
  rw [result]
  dsimp only
  split
  · omega
  · omega

end

/-! ## The largest finite value of a floating format (R34) -/

/-- The value of `fltMax`, without its sign. -/
def fltTop (p : FltP) : ℚ := ((2 ^ (p.mw + 1) - 1 : Nat) : ℚ) * 2 ^ (fltEmax p - p.mw)

/-- The magnitude of a finite value. -/
def valMag (v : Val) : ℚ := match v with | .fin _ m e => m * 2 ^ e | _ => 0

/-- A finite value. -/
def valIsFin (v : Val) : Prop := match v with | .fin .. => True | _ => False

section
variable {f : Fmt} {p : FltP}

theorem codeVal_flt (hf : fmtFlt f = some p) (c : Nat) : codeVal f c = fltVal p c := by
  simp [codeVal, hf]

theorem codeVal_fltMax (hf : fmtFlt f = some p) (neg : Bool) :
    codeVal f (fltMax p neg) = .fin neg (2 ^ (p.mw + 1) - 1) (fltEmax p - p.mw) := by
  cases f <;> cases hf <;> cases neg <;> rfl

theorem codeVal_fltInf (hf : fmtFlt f = some p) (long : p.short = false) (neg : Bool) :
    codeVal f (fltInf p neg) = .inf neg := by
  cases f <;> cases hf <;> cases long <;> cases neg <;> rfl

theorem codeVal_fltNan (hf : fmtFlt f = some p) (short : p.short = true) : codeVal f (fltNan p) = .nan false := by
  rw [codeVal_flt hf, fltNan, if_pos short, fltVal_short_nan short]

theorem fltEmin_le_fltEmax (hf : fmtFlt f = some p) : 1 - (p.bias : Int) ≤ fltEmax p := by
  cases f <;> cases hf <;> decide

/-- A number below the next power of two with an exponent in range. -/
theorem mul_zpow_le_fltTop {m : Nat} {e : Int} (hm : m < 2 ^ (p.mw + 1)) (he : e ≤ fltEmax p - p.mw) :
    (m : ℚ) * 2 ^ e ≤ fltTop p := by
  rw [fltTop]
  gcongr
  · omega
  · exact one_le_two

theorem valMag_fltVal_le (range : 1 - (p.bias : Int) ≤ fltEmax p) (c : Nat) (hfin : valIsFin (fltVal p c)) :
    valMag (fltVal p c) ≤ fltTop p := by
  have fraction : bits c 0 p.mw < 2 ^ p.mw := Nat.mod_lt _ (Nat.two_pow_pos _)
  have exponent : bits c p.mw p.ew < 2 ^ p.ew := Nat.mod_lt _ (Nat.two_pow_pos _)
  have double := Nat.pow_succ 2 p.mw
  revert hfin
  unfold fltVal
  dsimp only
  split
  · exact False.elim
  split
  · split
    · exact False.elim
    · exact False.elim
  rename_i finite
  split
  · exact fun _ => mul_zpow_le_fltTop (by omega) (by omega)
  · refine fun _ => mul_zpow_le_fltTop (by omega) ?_
    have codes : ((2 ^ p.ew : Nat) : Int) = 2 ^ p.ew := by push_cast; rfl
    cases hs : p.short
    · have : bits c p.mw p.ew ≠ 2 ^ p.ew - 1 := by simpa [hs] using finite
      simp only [fltEmax, hs]
      simp
      omega
    · simp only [fltEmax, hs]
      simp
      omega

/-- A code that no finite code exceeds has the value `fltTop`. -/
theorem valMag_eq_fltTop (hf : fmtFlt f = some p) {top : Nat} (hfin : valIsFin (codeVal f top))
    (greatest : ∀ c, valIsFin (codeVal f c) → valMag (codeVal f c) ≤ valMag (codeVal f top)) :
    valMag (codeVal f top) = fltTop p := by
  refine le_antisymm ?_ ?_
  · rw [codeVal_flt hf] at hfin ⊢
    exact valMag_fltVal_le (fltEmin_le_fltEmax hf) top hfin
  · have le := greatest (fltMax p false)
    rw [codeVal_fltMax hf] at le
    exact le trivial

/-! ## Overflow (R47) -/

/-- A rounded magnitude exceeds the largest value as soon as its exponent exceeds the largest. -/
theorem fltTop_lt_iff {n : Nat} {ue : Int} (hn : n ≤ 2 ^ (p.mw + 1)) :
    fltTop p < n * 2 ^ ue ↔ n ≠ 0 ∧ fltEmax p < log2Mag n ue := by
  have full : (2 : ℚ) ^ (p.mw + 1) * 2 ^ (fltEmax p - p.mw) = 2 ^ (fltEmax p + 1) := by
    rw [← zpow_natCast, ← zpow_add₀ two_ne_zero]
    congr 1
    push_cast
    omega
  constructor
  · contrapose!
    intro within
    rcases Nat.eq_zero_or_pos n with rfl | pos
    · rw [fltTop, Nat.cast_zero, zero_mul]
      positivity
    have bound : (n : ℚ) * 2 ^ ue < 2 ^ (p.mw + 1) * 2 ^ (fltEmax p - p.mw) := by
      rw [full]
      exact (lt_two_zpow_log2Mag_succ n ue).trans_le
        (zpow_le_zpow_right₀ one_le_two (by have := within pos.ne'; omega))
    rcases le_or_gt (fltEmax p - p.mw) ue with coarse | fine
    · obtain ⟨k, hk⟩ : ∃ k : Nat, ue = k + (fltEmax p - p.mw) := ⟨(ue - (fltEmax p - p.mw)).toNat, by omega⟩
      have regroup : (n : ℚ) * 2 ^ ue = ((n * 2 ^ k : Nat) : ℚ) * 2 ^ (fltEmax p - p.mw) := by
        rw [hk, zpow_add₀ two_ne_zero, zpow_natCast]
        push_cast
        ring
      rw [regroup] at bound ⊢
      have := lt_of_mul_lt_mul_right bound (by positivity)
      exact mul_zpow_le_fltTop (by exact_mod_cast this) le_rfl
    · have half : (n : ℚ) * 2 ^ ue ≤ ((2 ^ p.mw : Nat) : ℚ) * 2 ^ (fltEmax p - p.mw) := by
        calc (n : ℚ) * 2 ^ ue ≤ ((2 ^ (p.mw + 1) : Nat) : ℚ) * 2 ^ (fltEmax p - p.mw - 1) := by
              gcongr
              · exact one_le_two
              · omega
          _ = _ := by
              rw [zpow_sub_one₀ two_ne_zero]
              push_cast
              ring
      exact half.trans (mul_zpow_le_fltTop (Nat.pow_lt_pow_right (by decide) (by omega)) le_rfl)
  · rintro ⟨nonzero, beyond⟩
    calc fltTop p < 2 ^ (p.mw + 1) * 2 ^ (fltEmax p - p.mw) := by
          rw [fltTop]
          gcongr
          exact_mod_cast Nat.sub_lt (Nat.two_pow_pos _) one_pos
      _ = 2 ^ (fltEmax p + 1) := full
      _ ≤ 2 ^ log2Mag n ue := zpow_le_zpow_right₀ one_le_two (by omega)
      _ ≤ n * 2 ^ ue := two_zpow_log2Mag_le ue nonzero

section
variable {rm : RMode} {neg strict : Bool} {m r : Nat} {e : Int}

/-- `convFlt` asks the question of R47: does the rounded magnitude exceed the largest finite value? -/
theorem convFlt_overflow (hm : m ≠ 0) :
    let g := roundToGrid neg m e (p.mw + 1) (fltEmin p) rm r
    (fltTop p < g.1 * (2 : ℚ) ^ g.2.1 →
      convFlt p rm strict r (.fin neg m e) = overflowResult p neg rm strict) ∧
    (g.1 * (2 : ℚ) ^ g.2.1 ≤ fltTop p →
      (convFlt p rm strict r (.fin neg m e)).2 &&& flOverflow = 0) := by
  intro g
  have small : g.1 ≤ 2 ^ (p.mw + 1) := by
    have le := roundUnit_le (rm := rm) (neg := neg) (m := m) (e := e) (r := r) p.mw (fltEmin p)
    simpa [g, roundToGrid_eq hm] using le
  have exceeds : (g.1 ≠ 0 && decide (log2Mag g.1 g.2.1 > fltEmax p)) = true ↔ fltTop p < g.1 * (2 : ℚ) ^ g.2.1 := by
    rw [fltTop_lt_iff small]
    simp
  simp only [convFlt, if_neg hm]
  refine ⟨fun above => if_pos (exceeds.mpr above), fun within => ?_⟩
  rw [if_neg (exceeds.not.mpr within.not_gt)]
  dsimp only
  split
  · split
    · rfl
    · rfl
  · split
    · rfl
    · rfl

end

/-- A mode that rounds a magnitude of this sign away from zero. -/
def roundsAway (rm : RMode) (neg : Bool) : Bool :=
  match rm with
  | .rne => true | .sr => true | .rtz => false | .ru => !neg | .rd => neg

theorem overflowResult_eq (p : FltP) (neg : Bool) (rm : RMode) (strict : Bool) :
    overflowResult p neg rm strict =
      if !p.short then (if roundsAway rm neg then fltInf p neg else fltMax p neg, flOverflow ||| flInexact)
      else if strict && roundsAway rm neg then (fltNan p, (flOverflow ||| flInexact) ||| flInvalid)
      else (fltMax p neg, (flOverflow ||| flInexact) ||| flSat) := by
  cases rm <;> rfl

end

/-- Overflow's condition on the mode in R47's words. -/
def RoundsAway (rm : RMode) (neg : Bool) : Prop :=
  match rm with | .rne => True | .sr => True | .rtz => False | .ru => neg = false | .rd => neg = true

theorem roundsAway_iff (rm : RMode) (neg : Bool) : roundsAway rm neg = true ↔ RoundsAway rm neg := by
  cases rm <;> simp [roundsAway, RoundsAway]

/-- The largest value of a sign. -/
def valIsLargest (f : Fmt) (p : FltP) (neg : Bool) (c : Nat) : Prop :=
  valIsFin (codeVal f c) ∧ valNeg (codeVal f c) = neg ∧ valMag (codeVal f c) = fltTop p

section
variable {f : Fmt} {p : FltP}

theorem valIsLargest_fltMax (hf : fmtFlt f = some p) (neg : Bool) : valIsLargest f p neg (fltMax p neg) := by
  rw [valIsLargest, codeVal_fltMax hf]
  exact ⟨trivial, rfl, rfl⟩

/-- The table of R47. -/
theorem overflowResult_table (hf : fmtFlt f = some p) (neg : Bool) (rm : RMode) (strict : Bool) :
    let res := overflowResult p neg rm strict
    let base := flOverflow ||| flInexact
    (p.short = false → RoundsAway rm neg → codeVal f res.1 = .inf neg ∧ res.2 = base) ∧
    (p.short = false → ¬ RoundsAway rm neg → valIsLargest f p neg res.1 ∧ res.2 = base) ∧
    (p.short = true → (strict = false ∨ ¬ RoundsAway rm neg) → valIsLargest f p neg res.1 ∧ res.2 = base ||| flSat) ∧
    (p.short = true → strict = true → RoundsAway rm neg → codeVal f res.1 = .nan false ∧ res.2 = base ||| flInvalid) := by
  simp only [← roundsAway_iff, overflowResult_eq]
  refine ⟨fun long away => ?_, fun long toward => ?_, fun short kept => ?_, fun short hstrict away => ?_⟩
  · rw [if_pos (by simp [long]), if_pos away]
    exact ⟨codeVal_fltInf hf long neg, rfl⟩
  · rw [if_pos (by simp [long]), if_neg toward]
    exact ⟨valIsLargest_fltMax hf neg, rfl⟩
  · have within : ¬ (strict && roundsAway rm neg) = true := by
      rcases kept with h | h
      · simp [h]
      · simp [h]
    rw [if_neg (by simp [short]), if_neg within]
    exact ⟨valIsLargest_fltMax hf neg, rfl⟩
  · rw [if_neg (by simp [short]), if_pos (by simp [hstrict, away])]
    exact ⟨codeVal_fltNan hf short, rfl⟩

end

end Sys2Proof.Machine

namespace Sys2Proof.Proofs
open Sys2Proof.Machine

/-- Settles O59: the grid by `roundUnit_floor`, overflow by `convFlt_overflow` and `overflowResult_table`. -/
theorem roundingFollowsGridAndOverflowTable : Obligations.RoundingFollowsGridAndOverflowTable := by
  unfold Obligations.RoundingFollowsGridAndOverflowTable
  intro neg m e rm r hr x isFin mag
  refine ⟨fun p emin hp => ⟨fun zero => ?zero, fun hm => ?grid⟩, ?overflow⟩
  case zero => rw [roundToGrid, if_pos zero]
  case grid =>
    rw [roundToGrid_eq hm]
    exact ⟨_, two_zpow_log2Mag_le e hm, lt_two_zpow_log2Mag_succ m e, rfl, roundUnit_floor rm neg m e _ hr⟩
  case overflow =>
    intro f p strict wrap top hf hm greatest hfin
    have largest : mag (codeVal f top) = fltTop p := valMag_eq_fltTop hf hfin greatest
    have conv : convTo f rm strict wrap r (.fin neg m e) = convFlt p rm strict r (.fin neg m e) := by
      simp [convTo, hf]
    obtain ⟨exceeds, within⟩ := convFlt_overflow (p := p) (rm := rm) (neg := neg) (strict := strict) (r := r) (e := e) hm
    rw [largest, conv]
    refine ⟨fun above => ?_, within⟩
    rw [exceeds above]
    exact overflowResult_table hf neg rm strict

end Sys2Proof.Proofs

/-! PROOFS. Maximum and minimum (R82): sums and comparison of exact values in rationals, and the order in which minimum
takes two values. -/

namespace Sys2Proof.Machine

/-! ## Dyadic numbers in rationals -/

def dyRat (d : Dy) : ℚ := d.m * 2 ^ d.e

theorem cast_shlInt (x : Int) {k : Int} (hk : 0 ≤ k) : (shlInt x k : ℚ) = x * 2 ^ k := by
  obtain ⟨n, rfl⟩ := Int.eq_ofNat_of_zero_le hk
  simp [shlInt, Nat.one_shiftLeft]

theorem dyRat_dyAdd (a b : Dy) : dyRat (dyAdd a b) = dyRat a + dyRat b := by
  unfold dyAdd
  split
  · simp [dyRat, *]
  split
  · simp [dyRat, *]
  split
  case isTrue le =>
    rw [dyRat, dyRat, dyRat]
    push_cast
    rw [cast_shlInt _ (by omega), zpow_sub₀ two_ne_zero]
    field_simp
  case isFalse gt =>
    rw [dyRat, dyRat, dyRat]
    push_cast
    rw [cast_shlInt _ (by omega), zpow_sub₀ two_ne_zero]
    field_simp

theorem dyRat_dySub (a b : Dy) : dyRat (dySub a b) = dyRat a - dyRat b := by
  rw [dySub, dyRat_dyAdd, sub_eq_add_neg]
  simp [dyRat, dyNeg]

theorem dyRat_pos_iff (d : Dy) : 0 < dyRat d ↔ 0 < d.m := by
  rw [dyRat, mul_pos_iff_of_pos_right (by positivity), Int.cast_pos]

theorem dyLt_iff (a b : Dy) : dyLt a b = true ↔ dyRat a < dyRat b := by
  rw [← sub_pos, ← dyRat_dySub, dyRat_pos_iff, dyLt, decide_eq_true_eq, gt_iff_lt]

/-! ## The order of values (R82) -/

def ValFin (v : Val) : Prop := match v with | .fin .. => True | _ => False

/-- A finite value as a rational. -/
def valRat (v : Val) : ℚ := match v with | .fin neg m e => (if neg then -1 else 1) * m * 2 ^ e | _ => 0

/-- a is less than b, −0 less than +0, among values that are no NaN. -/
def ValLess (a b : Val) : Prop :=
  (a = .inf true ∧ b ≠ .inf true) ∨ (b = .inf false ∧ a ≠ .inf false) ∨
    (ValFin a ∧ ValFin b ∧ (valRat a < valRat b ∨ (valRat a = 0 ∧ valRat b = 0 ∧ valNeg a = true ∧ valNeg b = false)))

theorem dyRat_valDy (neg : Bool) (m : Nat) (e : Int) : dyRat (valDy (.fin neg m e)) = valRat (.fin neg m e) := by
  cases neg <;> simp [dyRat, valDy, valRat]

theorem valIsZero_iff (neg : Bool) (m : Nat) (e : Int) :
    valIsZero (.fin neg m e) = true ↔ valRat (.fin neg m e) = 0 := by
  cases neg <;> simp [valIsZero, valRat, zpow_ne_zero]

/-- Finite values: by their signs where both are zero, and by their rationals otherwise. -/
theorem valLt_fin_iff (na nb : Bool) (ma mb : Nat) (ea eb : Int) :
    valLt (.fin na ma ea) (.fin nb mb eb) = true ↔ ValLess (.fin na ma ea) (.fin nb mb eb) := by
  have split : valLt (.fin na ma ea) (.fin nb mb eb) =
      if valIsZero (.fin na ma ea) && valIsZero (.fin nb mb eb) then na && !nb
      else dyLt (valDy (.fin na ma ea)) (valDy (.fin nb mb eb)) := rfl
  simp only [ValLess, ValFin, valNeg, reduceCtorEq, false_and, false_or, true_and]
  rw [split]
  split
  case isTrue zeros =>
    obtain ⟨hza, hzb⟩ := Bool.and_eq_true_iff.mp zeros
    rw [valIsZero_iff] at hza hzb
    simp [hza, hzb]
  case isFalse nonzero =>
    rw [Bool.and_eq_true, valIsZero_iff, valIsZero_iff] at nonzero
    rw [dyLt_iff, dyRat_valDy, dyRat_valDy]
    tauto

theorem valLt_iff {a b : Val} (ha : valIsNan a = false) (hb : valIsNan b = false) :
    valLt a b = true ↔ ValLess a b := by
  cases a with
  | nan _ => exact absurd ha (by simp [valIsNan])
  | inf na =>
    cases b with
    | nan _ => exact absurd hb (by simp [valIsNan])
    | inf nb => cases na <;> cases nb <;> simp [valLt, ValLess, ValFin]
    | fin nb mb eb => simp [valLt, ValLess, ValFin]
  | fin na ma ea =>
    cases b with
    | nan _ => exact absurd hb (by simp [valIsNan])
    | inf nb => simp [valLt, ValLess, ValFin]
    | fin nb mb eb => exact valLt_fin_iff na nb ma mb ea eb

theorem ValLess.asymm {a b : Val} (h : ValLess a b) : ¬ ValLess b a := by
  rcases h with ⟨rfl, hb⟩ | ⟨rfl, ha⟩ | ⟨ha, hb, h⟩
  · simp [ValLess, ValFin, hb]
  · simp [ValLess, ValFin, ha]
  · rintro (⟨rfl, -⟩ | ⟨rfl, -⟩ | ⟨-, -, h'⟩)
    · exact hb
    · exact ha
    · rcases h with h | ⟨h1, h2, h3, h4⟩ <;> rcases h' with h' | ⟨h1', h2', h3', h4'⟩
      · exact absurd h' h.asymm
      · exact absurd (h1'.trans h2'.symm) h.ne'
      · exact absurd (h2.trans h1.symm) h'.ne
      · simp [h3] at h4'

/-! ## Maximum and minimum (R82) -/

theorem snanFlags_or (a b : Val) : snanFlags a ||| snanFlags b =
    if valIsSnan a = true ∨ valIsSnan b = true then flInvalid ||| flSnan else 0 := by
  unfold snanFlags
  cases valIsSnan a <;> cases valIsSnan b <;> rfl

theorem valMax_flags (a b : Val) : (valMax a b).2 = snanFlags a ||| snanFlags b := by
  unfold valMax
  split <;> rfl

theorem valMin_flags (a b : Val) : (valMin a b).2 = snanFlags a ||| snanFlags b := by
  unfold valMin
  split <;> rfl

theorem valMax_of_nan {a b : Val} (h : valIsNan a = true ∨ valIsNan b = true) : (valMax a b).1 = .nan false := by
  rw [← Bool.or_eq_true] at h
  rw [valMax, if_pos h]

theorem valMin_of_nan {a b : Val} (h : valIsNan a = true ∨ valIsNan b = true) : (valMin a b).1 = .nan false := by
  rw [← Bool.or_eq_true] at h
  rw [valMin, if_pos h]

section
variable {a b : Val} (ha : valIsNan a = false) (hb : valIsNan b = false)
include ha hb

theorem valMax_eq : (valMax a b).1 = if valLt a b then b else a := by simp [valMax, ha, hb]

theorem valMin_eq : (valMin a b).1 = if valLt b a then b else a := by simp [valMin, ha, hb]

theorem valMaxMin_of_less (h : ValLess a b) : (valMax a b).1 = b ∧ (valMin a b).1 = a := by
  rw [valMax_eq ha hb, valMin_eq ha hb, if_pos ((valLt_iff ha hb).mpr h), if_neg (h.asymm ∘ (valLt_iff hb ha).mp)]
  exact ⟨rfl, rfl⟩

theorem valMaxMin_of_greater (h : ValLess b a) : (valMax a b).1 = a ∧ (valMin a b).1 = b := by
  rw [valMax_eq ha hb, valMin_eq ha hb, if_pos ((valLt_iff hb ha).mpr h), if_neg (h.asymm ∘ (valLt_iff ha hb).mp)]
  exact ⟨rfl, rfl⟩

theorem valMax_mem : (valMax a b).1 = a ∨ (valMax a b).1 = b := by
  rw [valMax_eq ha hb]
  split
  · exact .inr rfl
  · exact .inl rfl

theorem valMin_mem : (valMin a b).1 = a ∨ (valMin a b).1 = b := by
  rw [valMin_eq ha hb]
  split
  · exact .inr rfl
  · exact .inl rfl

end

/-- A floating format writes a NaN as its canonical or only NaN, and sets no flag (R31, R32). -/
theorem convTo_nan {f : Fmt} {p : FltP} (hf : fmtFlt f = some p) (rm : RMode) (strict wrap : Bool) (r : Nat) (q : Bool) :
    convTo f rm strict wrap r (.nan q) = (fltNan p, 0) := by
  simp [convTo, hf, convFlt]

end Sys2Proof.Machine

namespace Sys2Proof.Proofs
open Sys2Proof.Machine

/-- Settles O60: `valLt_iff` says which of two values minimum takes first, and `convTo_nan` what a NaN is written as. -/
theorem maxMinFollowIeee : Obligations.MaxMinFollowIeee := by
  unfold Obligations.MaxMinFollowIeee
  refine ⟨fun a b => ⟨?_, ?_, fun nan => ⟨valMax_of_nan nan, valMin_of_nan nan⟩, fun nan => ?order⟩, ?codes⟩
  · rw [valMax_flags, snanFlags_or]
  · rw [valMin_flags, snanFlags_or]
  case order =>
    obtain ⟨ha, hb⟩ := not_or.mp nan
    rw [Bool.not_eq_true] at ha hb
    exact ⟨valMaxMin_of_less ha hb, valMaxMin_of_greater ha hb, valMax_mem ha hb, valMin_mem ha hb⟩
  case codes =>
    intro f c hmem rm strict wrap r q
    obtain ⟨p, layout, rfl⟩ : ∃ p, fmtFlt f = some p ∧ fltNan p = c := by
      simp only [List.mem_cons, Prod.mk.injEq, List.not_mem_nil, or_false] at hmem
      rcases hmem with ⟨rfl, rfl⟩ | ⟨rfl, rfl⟩ | ⟨rfl, rfl⟩ | ⟨rfl, rfl⟩ | ⟨rfl, rfl⟩ | ⟨rfl, rfl⟩ | ⟨rfl, rfl⟩ |
        ⟨rfl, rfl⟩ | ⟨rfl, rfl⟩
      all_goals exact ⟨_, rfl, rfl⟩
    exact convTo_nan layout rm strict wrap r q

end Sys2Proof.Proofs

/-! PROOFS. The refutation of O20: the weights of a PSUM command end with the tile that enters, and the post of their stream
raises again the semaphore that the tile's partial sums were waited for on (R71, R154, R161). -/

namespace Sys2Proof.Machine

/-! ## A PSUM command whose weight stream posts -/

/-- An N tile of one row and one column: its first pass has been added, its partial sums have not. -/
def psumNt : NtSt :=
  { nt := 0, corr := false, sparse := false, auxIn := false, auxOrd := none, summed := false, full := false, checked := [],
    done := [], failed := [], voided := [], lanes := [], accs := [(0, [accClear])], cur := none, drained := [], spill := none,
    tiles := [], errs := [] }

/-- A Deep TILE of one BF16 element over 258 K positions, before its second pass: PSUM from stream 5 after pass 0, on
semaphore 3. -/
def psumJob : Job :=
  { mkJob State.reset 0 ⟨0, [0x01 + (2 <<< 14), 0x200020002000, (1 <<< 62) + (3 <<< 48) + (257 <<< 16),
      (5 <<< 36) + (2 <<< 24) + (1 <<< 6)]⟩ true with
    entered := true, pass := 1, arrays := [3], nts := [psumNt] }

/-- RUN, with the command in flight on array 3 at full admission, and semaphore 3, in the range of tenant 0, at 1. All
operands lie in RESIDENT streams: stream 5 holds the AX64 word, and stream 1, which ends with the pass's weights, posts to
semaphore 3 at its end. -/
def weightsPost : State :=
  { State.reset with
    su := .run
    regs := [(Reg.stmDescW1 0, 1023), (Reg.stmDescW6 0, 4 <<< 60), (Reg.stmDescW7 0, 1 <<< 60),
      (Reg.stmDescW0 1, 0x1800000), (Reg.stmDescW1 1, 65535), (Reg.stmDescW6 1, (4 <<< 60) + (3 <<< 40) + (1 <<< 38)),
      (Reg.stmDescW7 1, 1 <<< 60),
      (Reg.stmDescW0 5, 0x2800000), (Reg.stmDescW1 5, 63), (Reg.stmDescW6 5, 4 <<< 60), (Reg.stmDescW7 5, 1 <<< 60),
      (Reg.semVal 3, BitVec.ofNat 64 (setBits 0 Fl.semVal_VALUE.lo Fl.semVal_VALUE.width 1)),
      (Reg.semRange 0, BitVec.ofNat 64 (setBits 0 Fl.semRange_COUNT.lo Fl.semRange_COUNT.width 4)), (Reg.tchArrays, 8)]
    streams := [(0, { StreamSt.init with seqs := [⟨0, 1024, 0⟩] }), (1, { StreamSt.init with seqs := [⟨0, 65536, 0x1800000⟩] }),
      (5, { StreamSt.init with seqs := [⟨0, 64, 0x2800000⟩] })]
    arrays := [(3, { ArrSt.init with pow := .full })]
    veins := [(0, { VeinSt.init with jobs := [psumJob] })] }

theorem weightsPost_injOff : injOff weightsPost := by
  show ∀ n < 8, injArmed weightsPost n = false
  decide +kernel

/-- Nothing holds the second pass back but its partial sums. -/
theorem weightsPost_ready : heldTiles weightsPost psumJob.arrays = [] ∧ lanesBusy weightsPost psumJob.arrays = false ∧
    accFree weightsPost 0 psumJob (tileOf psumJob.words) = true ∧ nextPass psumJob (tileOf psumJob.words) psumJob.pass = some 1 ∧
    (entryNeeds weightsPost psumJob (tileOf psumJob.words) 1 (ntRows psumJob (tileOf psumJob.words) 0 false) false).all
      (needMet weightsPost) = true ∧
    allFull (wakeAll weightsPost psumJob.arrays) psumJob.arrays = true := by decide +kernel

/-- The semaphore stands at 1 with nobody before the tile, and the AX64 word is there. -/
theorem weightsPost_sums : semWaiters weightsPost (tileOf psumJob.words).psem = [] ∧
    semValue weightsPost (tileOf psumJob.words).psem = 1 ∧ needMet weightsPost (auxNeed psumJob (tileOf psumJob.words) 0) = true := by
  decide +kernel

/-- The value of a semaphore in the state that a command leaves. -/
def semOf (o : Host.Outcome State Fault Refusal) (k : Nat) : Option Nat :=
  match o with
  | .next t => some (semValue t k)
  | _ => none

/-- The tile takes 1 from the semaphore, and the end of stream 1 gives it back. -/
theorem weightsPost_raised : semOf (exec (.tileEntry 3) weightsPost) (tileOf psumJob.words).psem = some 1 := by decide +kernel

end Sys2Proof.Machine

namespace Sys2Proof.Proofs
open Sys2Proof.Machine

/-- Refutes O20: a RESIDENT weight stream whose sequence ends with the tile that enters posts to the semaphore that the N
tile has waited on, so that it stands where it stood and not one lower. -/
theorem not_tilesEnterAndLaneItemsEnd : ¬ Obligations.TilesEnterAndLaneItemsEnd := by
  unfold Obligations.TilesEnterAndLaneItemsEnd
  intro h
  obtain ⟨tile, -⟩ := h weightsPost 3 weightsPost_injOff rfl
  have next : entryJob weightsPost (3 : Fin 4) = some (0, psumJob) := by decide +kernel
  have alone : ∀ k ∈ (vein weightsPost 0).jobs, k.seq = psumJob.seq → k = psumJob := by decide +kernel
  have serve : psumJob.arrays.all (inService weightsPost) = true := by decide +kernel
  obtain ⟨held, lanes, free, pass, met, full⟩ := weightsPost_ready
  obtain ⟨nobody, one, words⟩ := weightsPost_sums
  obtain ⟨-, -, -, -, dense⟩ := tile 0 psumJob next alone rfl rfl serve rfl held lanes (by decide) free
  obtain ⟨-, -, enters⟩ := dense 1 (fun sparse => absurd sparse (by decide)) rfl pass
  obtain ⟨-, waits⟩ := enters met full
  obtain ⟨-, served⟩ := waits psumNt (by decide) (by decide) rfl rfl rfl rfl rfl nobody
  obtain ⟨t, run, -, -, taken⟩ := served (by rw [one]; decide) words
  have raised := weightsPost_raised
  rw [run] at raised
  rw [one] at taken
  exact absurd ((Option.some.inj raised).symm.trans taken) (by decide)

end Sys2Proof.Proofs

/-! PROOFS. The refutation of O21: a row that commits in cold-scale mode marks its tensor's entry of the scale history in
Mica with COLDSEEN (R184, R187). -/

namespace Sys2Proof.Machine

/-! ## A row in cold-scale mode -/

/-- An N tile of one row and one column whose tile has been read. -/
def coldNt : NtSt :=
  { nt := 0, corr := false, sparse := false, auxIn := false, auxOrd := none, summed := false, full := true, checked := [],
    done := [], failed := [], voided := [], lanes := [], accs := [(0, [accClear])], cur := none, drained := [], spill := none,
    tiles := [], errs := [] }

/-- A TILE of one BF16 element with TRACK and SCSRC for tensor 0, whose entry was not VALID: F8E5 with block scales to
stream 2, the scales to stream 3. -/
def coldJob : Job :=
  { mkJob State.reset 0 ⟨0, [0x01 + (1 <<< 20) + (1 <<< 21), 0x460020002000, 0, (3 <<< 30) + (2 <<< 24) + (1 <<< 6)]⟩ true with
    entered := true, nt := 1, arrays := [3], nts := [coldNt] }

/-- The command once its row has passed its check. -/
def coldPassed : Job := { coldJob with nts := [{ coldNt with checked := [0], drained := [(0, 3)] }] }

/-- RUN, with the command in flight on array 3; streams 2 and 3 RESIDENT with 64 bytes at 64 of A-Mica and at 0x2C00800 of
S-Mica, and a scale history of one cleared entry at 0x2C20000. -/
def coldState : State :=
  { State.reset with
    su := .run
    regs := [(Reg.stmDescW0 2, 64), (Reg.stmDescW1 2, 63), (Reg.stmDescW6 2, 4 <<< 60), (Reg.stmDescW7 2, 1 <<< 60),
      (Reg.stmDescW0 3, 0x2C00800), (Reg.stmDescW1 3, 63), (Reg.stmDescW6 3, 4 <<< 60), (Reg.stmDescW7 3, 1 <<< 60),
      (Reg.numHistCfg, (1 <<< 32) + 0x2C20000), (Reg.tchArrays, 8)]
    streams := [(2, { StreamSt.init with seqs := [⟨0, 64, 64⟩] }), (3, { StreamSt.init with seqs := [⟨0, 64, 0x2C00800⟩] })]
    arrays := [(3, { ArrSt.init with pow := .full })]
    veins := [(0, { VeinSt.init with jobs := [coldJob] })] }

/-- The byte of the entry that holds VALID, MEASURED and COLDSEEN. -/
def coldFlags : Nat := histAddr coldState 0 + 79

theorem coldState_injOff : injOff coldState := by
  show ∀ n < 8, injArmed coldState n = false
  decide +kernel

/-- COLDSEEN is set in Mica as the row commits. -/
theorem coldState_marked : byteOf (exec (.rowDrain 3 0 RowFault.none) coldState) coldFlags = some 4 := by decide +kernel

end Sys2Proof.Machine

namespace Sys2Proof.Proofs
open Sys2Proof.Machine

/-- Refutes O21: beside its elements and scale bytes, a row that commits in cold-scale mode writes the COLDSEEN bit of
its tensor's entry of the scale history. -/
theorem not_rowDrainsOrJoinsLadder : ¬ Obligations.RowDrainsOrJoinsLadder := by
  unfold Obligations.RowDrainsOrJoinsLadder
  intro h
  obtain ⟨drain, -⟩ := h
  have row : drainOf coldState (3 : Fin 4) 0 = some (0, coldJob, coldNt) := by decide +kernel
  have alone : ∀ k ∈ (vein coldState 0).jobs, k.seq = coldJob.seq → k = coldJob := by decide +kernel
  have only : ∀ y ∈ coldJob.nts, y.nt = coldNt.nt → y.corr = coldNt.corr → y = coldNt := by decide +kernel
  obtain ⟨passes, -⟩ := drain coldState 3 0 0 coldJob coldNt coldState_injOff rfl rfl row alone only (by decide) (by decide)
  obtain ⟨-, -, commits⟩ := passes rfl rfl rfl rfl coldPassed (by decide +kernel)
  obtain ⟨t, run, mica, -⟩ := commits (by decide +kernel) (by decide +kernel)
  have kept : micaByte t coldFlags = 0 := by
    rw [micaByte, mica]
    decide +kernel
  have marked := coldState_marked
  rw [run] at marked
  exact absurd (kept.symm.trans (Option.some.inj marked)) (by decide)

end Sys2Proof.Proofs

/-! PROOFS. The refutation of O13: the operand's stream ends as it is read, and a reloaded MCAST value held for a group
beyond the 64 of the block writes another seed before the result is rounded (R52, R338). -/

namespace Sys2Proof.Machine

/-! ## An ELEMWISE whose operand's stream ends -/

/-- An ELEMWISE that copies one element from BF16 in stream 0 to F8E5 in stream 2, rounded by SR. -/
def copyCmd : Cmd := ⟨0, [0x04, 0x408000002000, 1, 2 <<< 24]⟩

/-- The group whose PX_STM_MCAST would lie at PX_NUM_SRSEED. -/
def seedGroup : Nat := (Reg.numSrSeed - Reg.stmMcast 0) / 8

/-- RUN, array 0 in service at full admission, the command at the head of vein 0. Streams 0 and 2 are RESIDENT: of the two
elements of stream 0 at 64 of Mica the second, 1.125, has not been read, and stream 2 has 64 bytes at 0. The seed is 0, and
a seed of 1 waits until seedGroup rests. -/
def copyUnderSeed : State :=
  { State.reset with
    su := .run
    regs := [(Reg.vnStat 0, 3 <<< 60), (Reg.stmDescW0 0, 64), (Reg.stmDescW1 0, 3), (Reg.stmDescW6 0, 4 <<< 60),
      (Reg.stmDescW7 0, 1 <<< 60), (Reg.stmDescW1 2, 63), (Reg.stmDescW6 2, 4 <<< 60), (Reg.stmDescW7 2, 1 <<< 60),
      (Reg.stmRange 0, BitVec.ofNat 64 (setBits 0 Fl.stmRange_COUNT.lo Fl.stmRange_COUNT.width 3)),
      (Reg.trmMpart 0, 0x3000 <<< 32), (Reg.tchArrays, 1)]
    mica := [(66, 0x90), (67, 0x3F)]
    streams := [(0, { StreamSt.init with seqs := [⟨0, 4, 64⟩], asked := 2, taken := 2, seen := true, act := (0, 16) }),
      (2, { StreamSt.init with seqs := [⟨0, 64, 0⟩] })]
    arrays := [(0, { ArrSt.init with pow := .full })]
    veins := [(0, { VeinSt.init with held := [copyCmd], fresh := 1 })]
    slt := { SltSt.init with mcLater := [(seedGroup, 1)] } }

theorem copyUnderSeed_head : Head copyUnderSeed (0 : Fin 16) copyCmd 0x04 where
  may  := by decide +kernel
  head := by decide +kernel
  op   := by decide +kernel
  good := by decide +kernel
  fill := .inl (by decide +kernel)
  turn := by decide +kernel

theorem copyUnderSeed_injOff : injOff copyUnderSeed := by
  show ∀ n < 8, injArmed copyUnderSeed n = false
  decide +kernel

theorem copyUnderSeed_turn (i : Nat) : (strm copyUnderSeed i).turn = [] := by
  simp only [strm, tabGet, copyUnderSeed, mapGet]
  split
  · rfl
  split <;> rfl

/-- The command passes its checks, and its array is free and at full admission. -/
theorem copyUnderSeed_ready : let as := claimSet copyUnderSeed (ewOf copyCmd.words).share (0 : Fin 4)
    ewCheck copyUnderSeed (0 : Fin 16) copyCmd.words = none ∧ as ≠ [] ∧ claimFree copyUnderSeed as copyCmd.words = true ∧
      allFull (wakeAll copyUnderSeed as) as = true := by decide +kernel

/-- The result is 1.25, rounded up under the seed that has come. -/
theorem copyUnderSeed_reseeded : Reg.stmMcast seedGroup = Reg.numSrSeed ∧
    byteOf (exec (.elemwise 0 0) copyUnderSeed) 0 = some 0x3D := by decide +kernel

end Sys2Proof.Machine

namespace Sys2Proof.Proofs
open Sys2Proof.Machine

/-- Refutes O13: nothing in it bounds the groups of the MCAST values that wait for their group to rest. The end of the
operand's stream writes the value of group 40384 to PX_NUM_SRSEED, and the result is rounded up under that seed where the
seed at issue rounds it down. -/
theorem not_elemwiseAndGradEmitStart : ¬ Obligations.ElemwiseAndGradEmitStart := by
  unfold Obligations.ElemwiseAndGradEmitStart
  intro h
  obtain ⟨elemwise, -⟩ := h copyUnderSeed 0 0 copyCmd
  obtain ⟨checked, claims, free, full⟩ := copyUnderSeed_ready
  obtain ⟨-, ends⟩ := elemwise copyUnderSeed_head checked claims free
    (fun _ inFlight => absurd inFlight List.not_mem_nil)
  have results := ends full copyUnderSeed_injOff rfl copyUnderSeed_turn rfl (by decide +kernel) (by decide +kernel)
    (by decide +kernel) (by decide +kernel) (by decide +kernel) (by decide +kernel) (by decide +kernel)
  obtain ⟨t, run, -, placed⟩ := results (by decide +kernel) fun k k' hk hk' _ => by
    have len : k < 1 ∧ k' < 1 := ⟨lt_of_lt_of_eq hk (by decide +kernel), lt_of_lt_of_eq hk' (by decide +kernel)⟩
    omega
  have down : micaByte t 0 = 0x3C :=
    (placed 0 (by decide +kernel) 0 (by decide +kernel) (by decide +kernel)).trans (by decide +kernel)
  obtain ⟨-, up⟩ := copyUnderSeed_reseeded
  rw [run] at up
  exact absurd (down.symm.trans (Option.some.inj up)) (by decide)

end Sys2Proof.Proofs

/-! PROOFS. The power states of the arrays (R104 to R108, R418): the current keeper's limit, switches that close one at a
time, and what a pre-ramp and its end leave at each array. -/

namespace Sys2Proof.Machine

/-! ## Switches close one at a time (R418) -/

section
variable {s : State} {a b : Nat}

/-- The switch of some array closes. -/
def switching (s : State) : Bool := (List.range 4).any (fun b => (arr s b).pow == .closing)

/-- The lowest array that waits for its switch. -/
def LowestWaiting (s : State) (a : Nat) : Prop := (arr s a).pow = .waiting ∧ ∀ b < a, (arr s b).pow ≠ .waiting

theorem switching_iff : switching s = true ↔ ∃ b < 4, (arr s b).pow = .closing := by simp [switching]

theorem switching_eq_false_iff : switching s = false ↔ ∀ b < 4, (arr s b).pow ≠ .closing := by simp [switching]

theorem LowestWaiting.unique (ha : LowestWaiting s a) (hb : LowestWaiting s b) : a = b := by
  rcases Nat.lt_trichotomy a b with h | h | h
  · exact absurd ha.1 (hb.2 a h)
  · exact h
  · exact absurd hb.1 (ha.2 b h)

theorem closeSwitch_eq (s : State) (a : Nat) : closeSwitch s a =
    setArr s a { arr s a with pow := if switching s then .waiting else .closing } := rfl

/-- The lowest array that waits closes its switch when no other closes, or nothing changes. -/
theorem nextSwitch_cases (s : State) :
    (∃ a, a < 4 ∧ switching s = false ∧ LowestWaiting s a ∧ nextSwitch s = setArr s a { arr s a with pow := .closing }) ∨
      (nextSwitch s = s ∧ ∀ a < 4, switching s = false → ¬ LowestWaiting s a) := by
  cases hq : switching s with
  | true => exact .inr ⟨if_pos hq, nofun⟩
  | false =>
    have hn : nextSwitch s = match (List.range 4).find? (fun b => (arr s b).pow == .waiting) with
        | some b => setArr s b { arr s b with pow := .closing }
        | none => s := if_neg (by rw [show (List.range 4).any _ = _ from hq]; exact Bool.false_ne_true)
    cases hf : (List.range 4).find? (fun b => (arr s b).pow == .waiting) with
    | some a =>
      obtain ⟨hw, ha, hlow⟩ := List.find?_range_eq_some.mp hf
      exact .inl ⟨a, List.mem_range.mp ha, rfl, ⟨by simpa using hw, fun b hb => by simpa using hlow b hb⟩, by rw [hn, hf]⟩
    | none =>
      have none_waits := List.find?_range_eq_none.mp hf
      exact .inr ⟨by rw [hn, hf], fun a ha _ hw => by simpa [hw.1] using none_waits a ha⟩

theorem nextSwitch_rest (s : State) : { nextSwitch s with arrays := s.arrays } = s := by
  rcases nextSwitch_cases s with ⟨a, -, -, -, e⟩ | ⟨e, -⟩ <;> rw [e]
  rfl

theorem arr_nextSwitch_lowest (ha : a < 4) (hq : switching s = false) (hw : LowestWaiting s a) :
    arr (nextSwitch s) a = { arr s a with pow := .closing } := by
  rcases nextSwitch_cases s with ⟨b, -, -, hb, e⟩ | ⟨-, h⟩
  · rw [e, hb.unique hw, arr_setArr_self]
  · exact absurd hw (h a ha hq)

theorem arr_nextSwitch_other (h : ¬(a < 4 ∧ switching s = false ∧ LowestWaiting s a)) : arr (nextSwitch s) a = arr s a := by
  rcases nextSwitch_cases s with ⟨b, hb, hq, hw, e⟩ | ⟨e, -⟩
  · have ne : b ≠ a := by
      rintro rfl
      exact h ⟨hb, hq, hw⟩
    rw [e, arr_setArr, if_neg ne]
  · rw [e]

end

/-! ## Commands that move one array (R104, R106, R107) -/

section
variable {s : State} {a : Fin 4}

/-- The keeper holds 3/4 of the level of the gap before, or more, below a full array's. -/
theorem keeperLevel_bounds {x : ArrSt} (hg : x.gap = true) (hl : x.level < 256) :
    3 * x.level ≤ 4 * (keeperLevel s x).1 ∧ (keeperLevel s x).1 < 256 := by
  simp only [keeperLevel, hg, if_true, takeFree, cdiv]
  have more := Nat.mod_lt (Config.freeValue s.free % 2 ^ 8) (show 0 < 256 - (3 * x.level + 4 - 1) / 4 by omega)
  omega

theorem keeperLevel_free (s : State) (x : ArrSt) : ∃ n, (keeperLevel s x).2 = { s with free := n } := by
  unfold keeperLevel
  cases x.gap <;> exact ⟨_, rfl⟩

theorem execKeeperLimit_ramps (hp : (arr s a).pow = .full) (hh : (arr s a).preramp = false) :
    ∃ n g, exec (.keeperLimit a) s = .next (setArr { s with free := n } a { arr s a with
      pow := .rampDown, gap := true, level := (keeperLevel s (arr s a)).1, lfsr := g,
      random := (arr s a).active.isNone || (arr s a).random }) := by
  obtain ⟨n, e⟩ := keeperLevel_free s (arr s a)
  refine ⟨n + 1, Config.freeValue n % 2 ^ 32, congrArg Host.Outcome.next ((if_pos (by simp [hp, hh])).trans ?_)⟩
  dsimp only [takeFree]
  rw [e]

theorem execKeeperLimit_stands (h : (arr s a).pow ≠ .full ∨ (arr s a).preramp = true) :
    exec (.keeperLimit a) s = .next s := by
  refine congrArg Host.Outcome.next (if_neg ?_)
  rcases h with h | h <;> simp [h]

theorem execRampDownDone_idles (h : (arr s a).pow = .rampDown) :
    exec (.rampDownDone a) s = .next (setArr s a { arr s a with pow := .idle }) :=
  congrArg Host.Outcome.next (if_pos (by simp [h]))

theorem execRampDownDone_stands (h : (arr s a).pow ≠ .rampDown) : exec (.rampDownDone a) s = .next s :=
  congrArg Host.Outcome.next (if_neg (by simp [h]))

theorem execRampUpDone_fills (h : (arr s a).pow = .rampUp) :
    exec (.rampUpDone a) s = .next (setArr s a { arr s a with pow := .full }) :=
  congrArg Host.Outcome.next (if_pos (by simp [h]))

theorem execRampUpDone_stands (h : (arr s a).pow ≠ .rampUp) : exec (.rampUpDone a) s = .next s :=
  congrArg Host.Outcome.next (if_neg (by simp [h]))

theorem execSwitchOpen_opens (hp : (arr s a).pow = .idle) (hh : bit s.svc.pswHold a = false)
    (h : (arr s a).fenced = true ∨ (flag s Reg.trmKeep Fl.trmKeep_PSW_EN = true ∧ groupWaits s = false)) :
    exec (.switchOpen a) s = .next (setArr s a (openSwitch (arr s a))) := by
  refine congrArg Host.Outcome.next (if_pos ?_)
  rcases h with h | ⟨he, hg⟩
  · simp [hp, hh, h]
  · simp [hp, hh, he, hg]

theorem execSwitchOpen_stands (h : (arr s a).pow ≠ .idle ∨ bit s.svc.pswHold a = true) :
    exec (.switchOpen a) s = .next s := by
  refine congrArg Host.Outcome.next (if_neg ?_)
  rcases h with h | h <;> simp [h]

theorem execSwitchCloseDone_ramps (h : (arr s a).pow = .closing) :
    exec (.switchCloseDone a) s = .next (nextSwitch (setArr s a (rampUp (arr s a)))) :=
  congrArg Host.Outcome.next (if_pos (by simp [h]))

theorem execSwitchCloseDone_stands (h : (arr s a).pow ≠ .closing) : exec (.switchCloseDone a) s = .next s :=
  congrArg Host.Outcome.next (if_neg (by simp [h]))

end

/-! ## The next switch once one is closed (R107, R418) -/

section
variable {s : State} {a b : Nat}

/-- With the ramp-up of a, another array's switch closes where another one than a closed already. -/
theorem switching_rampUp : switching (setArr s a (rampUp (arr s a))) = false ↔ ∀ c < 4, c ≠ a → (arr s c).pow ≠ .closing := by
  rw [switching_eq_false_iff]
  refine forall₂_congr fun c _ => ?_
  rw [arr_setArr]
  split
  next e => simp [rampUp, e]
  next e => exact ⟨fun h _ => h, fun h => h (Ne.symm e)⟩

/-- An array that neither waits nor comes to wait does not change which one is the lowest. -/
theorem lowestWaiting_setArr {x : ArrSt} (hx : x.pow ≠ .waiting) (ha : (arr s a).pow ≠ .waiting) :
    LowestWaiting (setArr s a x) b ↔ LowestWaiting s b := by
  have same (c : Nat) : (arr (setArr s a x) c).pow = .waiting ↔ (arr s c).pow = .waiting := by
    rw [arr_setArr]
    split
    next e => exact e ▸ iff_of_false hx ha
    next => rfl
  exact and_congr (same b) (forall₂_congr fun c _ => not_congr (same c))

theorem arr_nextSwitch_rampUp_self (s : State) (a : Nat) :
    arr (nextSwitch (setArr s a (rampUp (arr s a)))) a = rampUp (arr s a) := by
  rw [arr_nextSwitch_other, arr_setArr_self]
  rintro ⟨-, -, hw, -⟩
  rw [arr_setArr_self] at hw
  cases hw

/-- What waits below closes once a's switch has closed, if no other does; every other array stands. -/
theorem arr_nextSwitch_rampUp_ne (hp : (arr s a).pow = .closing) (hb : b ≠ a) :
    ((b < 4 ∧ LowestWaiting s b ∧ ∀ c < 4, c ≠ a → (arr s c).pow ≠ .closing) →
      arr (nextSwitch (setArr s a (rampUp (arr s a)))) b = { arr s b with pow := .closing }) ∧
    (¬(b < 4 ∧ LowestWaiting s b ∧ ∀ c < 4, c ≠ a → (arr s c).pow ≠ .closing) →
      arr (nextSwitch (setArr s a (rampUp (arr s a)))) b = arr s b) := by
  have kept : arr (setArr s a (rampUp (arr s a))) b = arr s b := by rw [arr_setArr, if_neg hb.symm]
  have low : LowestWaiting (setArr s a (rampUp (arr s a))) b ↔ LowestWaiting s b :=
    lowestWaiting_setArr (by simp [rampUp]) (by simp [hp])
  refine ⟨fun ⟨h4, hw, hq⟩ => ?_, fun h => ?_⟩
  · rw [arr_nextSwitch_lowest h4 (switching_rampUp.mpr hq) (low.mpr hw), kept]
  · rw [arr_nextSwitch_other fun ⟨h4, hq, hw⟩ => h ⟨h4, low.mp hw, switching_rampUp.mp hq⟩, kept]

end

/-! ## Folds over arrays, each step on its own array -/

section
variable {f : State → Nat → State} {l : List Nat} {a : Nat}

/-- A step on an array leaves every other array, and all of the state but the arrays. -/
structure OwnArray (f : State → Nat → State) : Prop where
  other : ∀ u a b, b ≠ a → arr (f u a) b = arr u b
  rest  : ∀ u a, { f u a with arrays := u.arrays } = u

theorem OwnArray.foldl_other (hf : OwnArray f) (ha : a ∉ l) (u : State) : arr (l.foldl f u) a = arr u a := by
  induction l generalizing u with
  | nil => rfl
  | cons c l ih =>
    obtain ⟨hc, hl⟩ := not_or.mp (List.mem_cons.not.mp ha)
    exact (ih hl (f u c)).trans (hf.other u c a hc)

theorem OwnArray.foldl_rest (hf : OwnArray f) (l : List Nat) (u : State) : { l.foldl f u with arrays := u.arrays } = u := by
  induction l generalizing u with
  | nil => rfl
  | cons c l ih => exact (congrArg (fun w : State => { w with arrays := u.arrays }) (ih (f u c))).trans (hf.rest u c)

/-- An array of the fold stands as its own step left it, which met it as the fold found it. -/
theorem OwnArray.foldl_at {l₁ l₂ : List Nat} (hf : OwnArray f) (hl : (l₁ ++ a :: l₂).Nodup) (u : State) :
    arr ((l₁ ++ a :: l₂).foldl f u) a = arr (f (l₁.foldl f u) a) a ∧ arr (l₁.foldl f u) a = arr u a := by
  obtain ⟨-, htail, hapart⟩ := List.nodup_append.mp hl
  rw [List.foldl_append, List.foldl_cons]
  exact ⟨hf.foldl_other (List.nodup_cons.mp htail).1 _,
    hf.foldl_other (fun h => hapart a h a List.mem_cons_self rfl) u⟩

/-- A step that wakes an array: an opened one closes its switch, or waits while another closes, and no other step begins
or ends the closing of a switch. -/
structure Wakes (f : State → Nat → State) : Prop extends OwnArray f where
  opened : ∀ u a, (arr u a).pow = .opened → (arr (f u a) a).pow = if switching u then .waiting else .closing
  still  : ∀ u a, (arr u a).pow ≠ .opened → ((arr (f u a) a).pow = .closing ↔ (arr u a).pow = .closing)

theorem Wakes.switching_step (hf : Wakes f) {u : State} (ha : a < 4) :
    switching (f u a) = true ↔ switching u = true ∨ (arr u a).pow = .opened := by
  have other (b : Nat) (hb : b ≠ a) := hf.other u a b hb
  by_cases ho : (arr u a).pow = .opened
  · refine iff_of_true ?_ (.inr ho)
    have at_a := hf.opened u a ho
    rw [switching_iff]
    cases hs : switching u with
    | false => exact ⟨a, ha, by rw [at_a, hs]; rfl⟩
    | true =>
      obtain ⟨b, hb, hc⟩ := switching_iff.mp hs
      have ne : b ≠ a := by
        rintro rfl
        rw [ho] at hc
        cases hc
      exact ⟨b, hb, by rw [other b ne, hc]⟩
  · rw [or_iff_left ho, switching_iff, switching_iff]
    refine exists_congr fun b => and_congr_right fun _ => ?_
    by_cases hb : b = a
    · exact hb ▸ hf.still u a ho
    · rw [other b hb]

/-- After some steps a switch closes if one closed before, or some array of theirs was opened. -/
theorem Wakes.switching_foldl (hf : Wakes f) (hl : l.Nodup) (h4 : ∀ a ∈ l, a < 4) (u : State) :
    switching (l.foldl f u) = true ↔ switching u = true ∨ ∃ a ∈ l, (arr u a).pow = .opened := by
  induction l generalizing u with
  | nil => simp
  | cons c l ih =>
    obtain ⟨hc, hl⟩ := List.nodup_cons.mp hl
    obtain ⟨hc4, h4⟩ := List.forall_mem_cons.mp h4
    have kept (a : Nat) (ha : a ∈ l) : arr (f u c) a = arr u a := hf.other u c a (ne_of_mem_of_not_mem ha hc)
    have same : (∃ a ∈ l, (arr (f u c) a).pow = .opened) ↔ ∃ a ∈ l, (arr u a).pow = .opened :=
      exists_congr fun a => and_congr_right fun ha => by rw [kept a ha]
    rw [List.foldl_cons, ih hl h4, same, hf.switching_step hc4, List.exists_mem_cons_iff, or_assoc]

end

/-! ## Before a tick that may not come (R108) -/

/-- What PRE_RAMP does to an array in service. -/
def preRampArray (s : State) (a : Nat) : State :=
  match (arr s a).pow with
  | .idle => setArr s a { rampUp (arr s a) with preramp := true }
  | .opened => closeSwitch (setArr s a { arr s a with preramp := true }) a
  | _ => s

section
variable {s : State} {a : Nat}

theorem execPreRamp_eq (s : State) :
    exec .preRamp s = .next (if groupWaits s then (arraysIn s).foldl preRampArray s else s) := rfl

theorem preRampArray_idle (h : (arr s a).pow = .idle) :
    preRampArray s a = setArr s a { rampUp (arr s a) with preramp := true } := by
  unfold preRampArray
  rw [h]

/-- An array that keeps its power state leaves the switches as they were. -/
theorem switching_setArr {x : ArrSt} (hx : x.pow = (arr s a).pow) : switching (setArr s a x) = switching s := by
  have same (c : Nat) : (arr (setArr s a x) c).pow = (arr s c).pow := by
    rw [arr_setArr]
    split
    next e => exact e ▸ hx
    next => rfl
  unfold switching
  simp only [same]

theorem preRampArray_opened (h : (arr s a).pow = .opened) : arr (preRampArray s a) a =
    { arr s a with pow := if switching s then .waiting else .closing, preramp := true } := by
  have same : switching (setArr s a { arr s a with preramp := true }) = switching s := switching_setArr rfl
  unfold preRampArray
  rw [h]
  dsimp only
  rw [closeSwitch_eq, arr_setArr_self, arr_setArr_self, same]

theorem preRampArray_other (hi : (arr s a).pow ≠ .idle) (ho : (arr s a).pow ≠ .opened) : preRampArray s a = s := by
  unfold preRampArray
  split
  · contradiction
  · contradiction
  · rfl

theorem preRampArray_wakes : Wakes preRampArray where
  other u a b hb := by
    unfold preRampArray
    split
    · exact (arr_setArr ..).trans (if_neg hb.symm)
    · rw [closeSwitch_eq, arr_setArr, if_neg hb.symm, arr_setArr, if_neg hb.symm]
    · rfl
  rest u a := by
    unfold preRampArray
    split <;> rfl
  opened u a h := by rw [preRampArray_opened h]
  still u a h := by
    by_cases hi : (arr u a).pow = .idle
    · rw [preRampArray_idle hi, arr_setArr_self, hi]
      exact iff_of_false nofun nofun
    · rw [preRampArray_other hi h]

theorem mem_arraysIn : a ∈ arraysIn s ↔ a < 4 ∧ inService s a = true := by simp [arraysIn]

theorem nodup_arraysIn (s : State) : (arraysIn s).Nodup := List.nodup_range.filter _

/-- The arrays in service below a, then a. -/
theorem arraysIn_split (ha : a < 4) (hs : inService s a = true) :
    ∃ l, arraysIn s = (List.range a).filter (inService s) ++ a :: l := by
  have split : ∀ a < 4, List.range 4 = List.range a ++ a :: List.range' (a + 1) (3 - a) := by decide
  refine ⟨(List.range' (a + 1) (3 - a)).filter (inService s), ?_⟩
  unfold arraysIn
  rw [split a ha, List.filter_append, List.filter_cons_of_pos hs]

/-- An array in service as its own step leaves it; no switch closes by then if none closed before and none below was
open. -/
theorem preRamp_at (ha : a < 4) (hs : inService s a = true) : ∃ u,
    arr ((arraysIn s).foldl preRampArray s) a = arr (preRampArray u a) a ∧ arr u a = arr s a ∧
      (switching u = false ↔
        (∀ b < 4, (arr s b).pow ≠ .closing) ∧ ∀ b < a, inService s b = true → (arr s b).pow ≠ .opened) := by
  obtain ⟨l, e⟩ := arraysIn_split ha hs
  obtain ⟨at_a, met⟩ := preRampArray_wakes.foldl_at (e ▸ nodup_arraysIn s) s
  refine ⟨_, e ▸ at_a, met, ?_⟩
  have below : ∀ b ∈ (List.range a).filter (inService s), b < 4 := fun b hb =>
    (List.mem_range.mp (List.mem_filter.mp hb).1).trans ha
  rw [← Bool.not_eq_true, preRampArray_wakes.switching_foldl (List.nodup_range.filter _) below, not_or,
    Bool.not_eq_true, switching_eq_false_iff]
  simp only [List.mem_filter, List.mem_range, not_exists, not_and, and_imp]

/-- An array out of service, or in a power state that a pre-ramp does not touch, stands. -/
theorem preRamp_out (h : inService s a = false ∨ 4 ≤ a ∨ ((arr s a).pow ≠ .idle ∧ (arr s a).pow ≠ .opened)) :
    arr ((arraysIn s).foldl preRampArray s) a = arr s a := by
  by_cases hm : a ∈ arraysIn s
  · obtain ⟨ha, hs⟩ := mem_arraysIn.mp hm
    obtain ⟨u, at_a, met, -⟩ := preRamp_at ha hs
    obtain ⟨hi, ho⟩ := (h.resolve_left (by simp [hs])).resolve_left (Nat.not_le.mpr ha)
    rw [at_a, preRampArray_other (met ▸ hi) (met ▸ ho), met]
  · exact preRampArray_wakes.foldl_other hm s

/-- What PRE_RAMP_TIMEOUT leaves of an array held for the tick. -/
def letGo (s : State) (a : Nat) (x : ArrSt) : ArrSt :=
  { x with preramp := false, pow := match x.pow with
    | .closing => if bit s.svc.pswHold a then .closing else .opened
    | .waiting => .opened
    | .opened => .opened
    | .idle => .idle
    | _ => .rampDown }

/-- What it does to an array. -/
def letGoArray (s : State) (a : Nat) : State :=
  if (arr s a).preramp then setArr s a (letGo s a (arr s a)) else s

theorem execPreRampTimeout_eq (s : State) :
    exec .preRampTimeout s = .next (nextSwitch ((List.range 4).foldl letGoArray s)) := rfl

theorem letGoArray_own : OwnArray letGoArray where
  other u a b hb := by
    unfold letGoArray
    split
    · exact (arr_setArr ..).trans (if_neg hb.symm)
    · rfl
  rest u a := by
    unfold letGoArray
    split <;> rfl

theorem letGoAll_at (ha : a < 4) : arr ((List.range 4).foldl letGoArray s) a =
    if (arr s a).preramp then letGo s a (arr s a) else arr s a := by
  obtain ⟨l, e⟩ := List.append_of_mem (List.mem_range.mpr ha)
  obtain ⟨m, e⟩ := e
  obtain ⟨at_a, met⟩ := letGoArray_own.foldl_at (e ▸ List.nodup_range) s
  have svc : (l.foldl letGoArray s).svc = s.svc := (congrArg State.svc (letGoArray_own.foldl_rest l s) :)
  rw [e, at_a, letGoArray, met]
  split
  · rw [arr_setArr_self, letGo, letGo, svc]
  · exact met

theorem letGoAll_out (h : (arr s a).preramp = false ∨ 4 ≤ a) : arr ((List.range 4).foldl letGoArray s) a = arr s a := by
  by_cases ha : a < 4
  · rw [letGoAll_at ha, if_neg (by simp [h.resolve_right (Nat.not_le.mpr ha)])]
  · exact letGoArray_own.foldl_other (by simpa using ha) s

theorem letGo_pow_ne_waiting (s : State) (a : Nat) (x : ArrSt) : (letGo s a x).pow ≠ .waiting := by
  unfold letGo
  dsimp only
  split
  · split <;> nofun
  all_goals nofun

/-- An array that was held lies as PRE_RAMP_TIMEOUT lets it go: it does not wait, so no switch of its closes then. -/
theorem preRampTimeout_held (ha : a < 4) (hh : (arr s a).preramp = true) :
    arr (nextSwitch ((List.range 4).foldl letGoArray s)) a = letGo s a (arr s a) := by
  have held : arr ((List.range 4).foldl letGoArray s) a = letGo s a (arr s a) := by rw [letGoAll_at ha, if_pos hh]
  rw [arr_nextSwitch_other, held]
  rintro ⟨-, -, hw, -⟩
  exact letGo_pow_ne_waiting s a _ (held ▸ hw)

/-- Any other array stands, or closes its switch where it waited and no other closes. -/
theorem preRampTimeout_out (h : (arr s a).preramp = false ∨ 4 ≤ a) :
    let t := nextSwitch ((List.range 4).foldl letGoArray s)
    arr t a = arr s a ∨ ((arr s a).pow = .waiting ∧ arr t a = { arr s a with pow := .closing } ∧
      ∀ b < 4, b ≠ a → (arr t b).pow ≠ .closing) := by
  have kept := letGoAll_out h
  generalize (List.range 4).foldl letGoArray s = u at kept
  by_cases hn : a < 4 ∧ switching u = false ∧ LowestWaiting u a
  · obtain ⟨ha, hq, hw⟩ := hn
    refine .inr ⟨kept ▸ hw.1, by rw [arr_nextSwitch_lowest ha hq hw, kept], fun b hb ne => ?_⟩
    rw [arr_nextSwitch_other fun ⟨_, _, hb⟩ => ne (hb.unique hw)]
    exact switching_eq_false_iff.mp hq b hb
  · exact .inl ((arr_nextSwitch_other hn).trans kept)

theorem preRampTimeout_rest (s : State) :
    { nextSwitch ((List.range 4).foldl letGoArray s) with arrays := s.arrays } = s :=
  (congrArg (fun w : State => { w with arrays := s.arrays }) (nextSwitch_rest _)).trans (letGoArray_own.foldl_rest _ s)

end

end Sys2Proof.Machine

namespace Sys2Proof.Proofs
open Sys2Proof.Machine

/-- Settles O23: each command's law for the array it names; a fold over the arrays for PRE_RAMP and its timeout, in which
an opened array closes its switch where none closed before its step. -/
theorem arraysRampAndSwitch : Obligations.ArraysRampAndSwitch := by
  unfold Obligations.ArraysRampAndSwitch
  refine ⟨fun s a => ⟨fun hp hh => ?_, execRampDownDone_idles, fun hp hh h => execSwitchOpen_opens hp hh h, fun hp => ?_,
    execRampUpDone_fills, execKeeperLimit_stands, execRampDownDone_stands, execSwitchOpen_stands, execSwitchCloseDone_stands,
    execRampUpDone_stands⟩, fun s => ⟨fun hg => ?_, fun hg => ?_, ?_⟩⟩
  · obtain ⟨n, g, e⟩ := execKeeperLimit_ramps hp hh
    refine ⟨_, e, ?_⟩
    rw [arr_setArr_self]
    refine ⟨rfl, rfl, rfl, fun hn => by simp [hn], rfl, keeperLevel_bounds, fun b hb => ?_, rfl⟩
    exact (arr_setArr ..).trans (if_neg hb.symm)
  · refine ⟨_, execSwitchCloseDone_ramps hp, congrArg (fun w : State => { w with arrays := s.arrays }) (nextSwitch_rest _), ?_⟩
    rw [arr_nextSwitch_rampUp_self]
    exact ⟨rfl, rfl, rfl, fun hn => by simp [rampUp, hn], fun b hb => arr_nextSwitch_rampUp_ne hp hb⟩
  · rw [execPreRamp_eq, if_neg (by simp [hg])]
  · rw [execPreRamp_eq, if_pos hg]
    refine ⟨_, rfl, preRampArray_wakes.foldl_rest _ s, fun a => ⟨fun hs ha hi => ?_, fun hs ha ho => ?_, fun h => ?_⟩⟩
    · obtain ⟨u, at_a, met, -⟩ := preRamp_at ha hs
      rw [at_a, preRampArray_idle (met ▸ hi), arr_setArr_self, met]
      exact ⟨rfl, rfl, rfl, rfl, rfl⟩
    · obtain ⟨u, at_a, met, busy⟩ := preRamp_at ha hs
      rw [at_a, preRampArray_opened (met ▸ ho), met]
      dsimp only
      rw [← busy]
      exact ⟨fun hq => by rw [hq]; rfl, fun hq => by rw [if_pos (by simpa using hq)]⟩
    · exact preRamp_out h
  · refine ⟨_, execPreRampTimeout_eq s, preRampTimeout_rest s, fun a => ⟨fun ha hh => ?_, preRampTimeout_out⟩⟩
    rw [preRampTimeout_held ha hh]
    unfold letGo
    refine ⟨rfl, rfl, fun h => by rw [h], fun h => ?_, fun h => by rw [h], fun h => ?_⟩
    · rcases h with h | h <;> rw [h]
    · simp only [List.mem_cons, List.not_mem_nil, or_false] at h
      rcases h with h | h | h <;> rw [h]

end Sys2Proof.Proofs

/-! PROOFS. The issue of a command at the head (R200, R224, R262): an estimate that is a fallback shows in PX_TRM_STAT and
marks its domain, which no estimate and no rule of the filler reads. -/

namespace Sys2Proof.Machine

/-- A descriptor is read in the registers of the streams. -/
theorem desc_congr {s t : State} (h : ∀ a, 0x30000 ≤ a → a < 0x31000 → rd t a = rd s a) {i : Nat} (hi : i < 64) :
    desc t i = desc s i := by
  have word (k : Nat) (hk : k < 0x40) : rd t (0x30000 + k + 0x40 * i) = rd s (0x30000 + k + 0x40 * i) :=
    h _ (by omega) (by omega)
  unfold desc
  rw [show rd t (Reg.stmDescW0 i) = _ from word 0 (by decide), show rd t (Reg.stmDescW1 i) = _ from word 8 (by decide),
    show rd t (Reg.stmDescW2 i) = _ from word 16 (by decide), show rd t (Reg.stmDescW3 i) = _ from word 24 (by decide),
    show rd t (Reg.stmDescW4 i) = _ from word 32 (by decide), show rd t (Reg.stmDescW5 i) = _ from word 40 (by decide),
    show rd t (Reg.stmDescW6 i) = _ from word 48 (by decide)]
  rfl

/-! ## What a fallback estimate shows is read by no estimate (R257 to R262) -/

/-- From s to t only PX_TRM_STAT and the marked domains have changed. -/
structure FallbackShown (s t : State) : Prop where
  regs : ∀ a, Reg.trmStat ≠ a → rd t a = rd s a
  rest : { t with regs := s.regs, trm := { t.trm with marked := s.trm.marked } } = s

theorem FallbackShown.rfl' (s : State) : FallbackShown s s := ⟨fun _ _ => rfl, rfl⟩

theorem noteFallback_shown (s : State) (e : Est) : FallbackShown s (noteFallback s e) := by
  unfold noteFallback
  split
  · exact ⟨fun a ha => rd_setFld_ne s _ _ ha, rfl⟩
  · exact .rfl' s

namespace FallbackShown
variable {s t : State} (h : FallbackShown s t)
include h

theorem fld_eq {a : Nat} (ha : Reg.trmStat ≠ a) (f : Field) : fld t a f = fld s a f := by
  unfold fld
  rw [h.regs a ha]

theorem flag_eq {a : Nat} (ha : Reg.trmStat ≠ a) (f : Field) : flag t a f = flag s a f := by
  unfold flag
  rw [h.fld_eq ha]

theorem mica : t.mica = s.mica := (congrArg State.mica h.rest :)
theorem veins : t.veins = s.veins := (congrArg State.veins h.rest :)
theorem arrays : t.arrays = s.arrays := (congrArg State.arrays h.rest :)
theorem su : t.su = s.su := (congrArg State.su h.rest :)
theorem crn : t.crn = s.crn := (congrArg State.crn h.rest :)
theorem trm : { t.trm with marked := s.trm.marked } = s.trm := (congrArg State.trm h.rest :)

theorem vein_eq (v : Nat) : vein t v = vein s v := by
  unfold vein
  rw [h.veins]

theorem arr_eq (a : Nat) : arr t a = arr s a := by
  unfold arr
  rw [h.arrays]

theorem micaNat_eq (x n : Nat) : micaNat t x n = micaNat s x n := by
  unfold micaNat micaRead
  rw [h.mica]

/-! ### Tables and arrays -/

theorem inService_eq : inService t = inService s := by
  funext a
  unfold inService
  rw [h.fld_eq (by decide)]

theorem arraysIn_eq : arraysIn t = arraysIn s := by
  unfold arraysIn
  rw [h.inService_eq]

theorem regionGroups_eq (r : Nat) : regionGroups t r = regionGroups s r := by
  unfold regionGroups
  split <;> exact h.fld_eq (by decide) _

theorem pgtRaw_eq (g : Nat) : pgtRaw t g = pgtRaw s g := by
  simp only [pgtRaw, pgtAddr, regionBase, h.micaNat_eq, h.regionGroups_eq]

theorem maskGet_eq (slot : Nat) : maskGet t slot = maskGet s slot := by
  simp only [maskGet, maskAddr, h.micaNat_eq, h.fld_eq (a := Reg.shlMaskCfg) (by decide)]

theorem costGet_eq : costGet t = costGet s := by
  funext d
  simp only [costGet, costAddr, h.micaNat_eq, h.fld_eq (a := Reg.trmCostCfg) (by decide)]

theorem desc_eq {i : Nat} (hi : i < 64) : desc t i = desc s i :=
  desc_congr (fun a _ hhi => h.regs a (by unfold Reg.trmStat; omega)) hi

/-! ### Quantities (R260) -/

theorem claimN_eq (share : Nat) : claimN t share = claimN s share := by
  simp only [claimN, h.inService_eq, h.arraysIn_eq]

theorem spareClk_eq : spareClk t = spareClk s := by
  have off (a : Nat) : Reg.trmStat ≠ Reg.tchSpare a := by unfold Reg.trmStat Reg.tchSpare; omega
  simp only [spareClk, h.arraysIn_eq, h.flag_eq (off _)]

theorem streamTotal_bits (x lo : Nat) : streamTotal t (bits x lo 6) = streamTotal s (bits x lo 6) :=
  congrArg Desc.total (h.desc_eq (Nat.mod_lt _ (by decide)))

theorem runPasses_eq (f : TileF) (mask : Nat) : runPasses t f mask = runPasses s f mask := by
  simp only [runPasses, h.flag_eq (a := Reg.shlCtrl) (by decide)]

theorem tileMica_eq (f : TileF) (n : Nat) (passes : List Nat) : tileMica t f n passes = tileMica s f n passes := by
  simp only [tileMica, h.micaNat_eq, h.streamTotal_bits]

theorem tileQty_eq (f : TileF) : tileQty t f = tileQty s f := by
  simp only [tileQty, h.claimN_eq, h.pgtRaw_eq, h.runPasses_eq, h.maskGet_eq, h.spareClk_eq, h.micaNat_eq, h.tileMica_eq,
    h.fld_eq (a := Reg.trmCtrl) (by decide)]

theorem partLen_eq (p : Nat) : partLen t p = partLen s p := by
  simp only [partLen, histCount, maskSlots, schedBytes, h.fld_eq (a := Reg.numHistCfg) (by decide),
    h.fld_eq (a := Reg.shlMaskCfg) (by decide), h.fld_eq (a := Reg.vnSchedVal) (by decide)]

theorem imageLen_eq (parts : Nat) : imageLen t parts = imageLen s parts := by
  simp only [imageLen, h.partLen_eq]

theorem cmdQty_eq (ws : List W64) : cmdQty t ws = cmdQty s ws := by
  simp only [cmdQty, gradLink, h.tileQty_eq, h.claimN_eq, h.pgtRaw_eq, h.imageLen_eq, h.arraysIn_eq]

/-! ### Estimates (R257, R262) -/

theorem frameOpp_eq : frameOpp t = frameOpp s := h.fld_eq (by decide) _

theorem frameF_eq : frameF t = frameF s := by
  have off : Reg.trmStat ≠ Reg.trmOpp (frameOpp s) := by unfold Reg.trmStat Reg.trmOpp; omega
  unfold frameF
  rw [h.frameOpp_eq, h.fld_eq off]

theorem activity_eq (srcs : List Nat) : activity t srcs = activity s srcs := by
  have off (i : Nat) : Reg.trmStat ≠ Reg.trmAct i := by unfold Reg.trmStat Reg.trmAct; omega
  simp only [activity, h.fld_eq (off _)]

theorem tband_eq : t.trm.tband = s.trm.tband := (congrArg TrmSt.tband h.trm :)

theorem domainOf_eq (q : Qty) : domainOf t q = domainOf s q := by
  simp only [domainOf, h.activity_eq, h.frameOpp_eq, h.tband_eq]

theorem energyNum_eq (q : Qty) : energyNum t q = energyNum s q := by
  funext c
  simp only [energyNum, h.activity_eq, h.frameF_eq]

theorem fallbackEntry_eq (q : Qty) : fallbackEntry t q = fallbackEntry s q := by
  unfold fallbackEntry
  rw [h.costGet_eq, h.frameOpp_eq, h.energyNum_eq]

theorem estimate_eq (ws : List W64) : estimate t ws = estimate s ws := by
  simp only [estimate, energyOf, effCap, h.cmdQty_eq, h.domainOf_eq, h.costGet_eq, h.energyNum_eq, h.fallbackEntry_eq,
    h.frameF_eq, h.fld_eq (a := Reg.trmCap) (by decide)]

/-! ### The rule of the filler (R224) -/

theorem vTenant_eq {v : Nat} (hv : v < 16) : vTenant t v = vTenant s v :=
  h.fld_eq (by unfold Reg.trmStat Reg.vnQcfg; omega) _

theorem isFiller_eq {n : Nat} (hn : n < 16) : isFiller t n = isFiller s n :=
  h.flag_eq (by unfold Reg.trmStat Reg.vnTenant; omega) _

theorem nonFillerBlocked_eq : nonFillerBlocked t = nonFillerBlocked s := by
  refine Bool.eq_iff_iff.mpr ?_
  unfold nonFillerBlocked
  rw [List.all_eq_true, List.all_eq_true]
  refine forall₂_congr fun v hv => ?_
  have hv := List.mem_range.mp hv
  have stat : vState t v = vState s v := h.fld_eq (by unfold Reg.trmStat Reg.vnStat; omega) _
  have tenant : vTenant s v < 16 := (Nat.mod_lt _ (by decide)).trans (show 2 ^ 2 < 16 by decide)
  have off : Reg.trmStat ≠ Reg.vnTenant (vTenant s v) := by unfold Reg.trmStat Reg.vnTenant; omega
  simp only [eligible, frameNo, stat, h.vTenant_eq hv, h.isFiller_eq tenant, h.fld_eq off,
    h.fld_eq (a := Reg.crnFrame) (by decide)]

theorem liveQ_eq : liveQ t = liveQ s := by
  have budget : t.trm.budget = s.trm.budget := (congrArg TrmSt.budget h.trm :)
  have drawn : t.trm.drawn = s.trm.drawn := (congrArg TrmSt.drawn h.trm :)
  simp only [liveQ, usedU, h.vein_eq, budget, drawn]

theorem fillerMay_eq (est : Nat) : fillerMay t est = fillerMay s est := by
  have bubbles : t.trm.bubbles = s.trm.bubbles := (congrArg TrmSt.bubbles h.trm :)
  have blocked : t.trm.blocked = s.trm.blocked := (congrArg TrmSt.blocked h.trm :)
  have overspent : t.trm.overspent = s.trm.overspent := (congrArg TrmSt.overspent h.trm :)
  have horizon : t.trm.horizon = s.trm.horizon := (congrArg TrmSt.horizon h.trm :)
  have tickAt : t.trm.tickAt = s.trm.tickAt := (congrArg TrmSt.tickAt h.trm :)
  have run : isRun t = isRun s := congrArg (· == Su.run) h.su
  have now : frameNow t = frameNow s := by simp only [frameNow, tstamp, h.crn, tickAt, h.frameF_eq]
  have idle (n : Nat) : idleEnergy t n = idleEnergy s n := by
    simp only [idleEnergy, idleDraw, h.costGet_eq, h.frameOpp_eq, h.frameF_eq, h.tband_eq]
  have ends : (fun (m : Nat) a => max m (arr t a).cEnd) = fun m a => max m (arr s a).cEnd := by simp only [h.arr_eq]
  unfold fillerMay
  rw [run, bubbles, blocked, overspent, horizon, h.nonFillerBlocked_eq, h.liveQ_eq, now, idle, ends,
    h.fld_eq (a := Reg.errEvstat) (by decide)]

end FallbackShown

end Sys2Proof.Machine

/-! PROOFS. What the ends and the waits of commands leave of the commands in flight, and of the registers beside the books:
PX_VN_STAT of another vein, PX_VN_SEQ. -/

namespace Sys2Proof.Machine

/-! ## Error records leave the veins -/

section
variable {s : State}

theorem veins_foldl {α : Type} {l : List α} {f : State → α → State} (h : ∀ u x, (f u x).veins = u.veins) :
    (l.foldl f s).veins = s.veins := by
  induction l generalizing s with
  | nil => rfl
  | cons x l ih => exact ih.trans (h s x)

theorem shiftMirror_veins (s : State) (n : Nat) : (shiftMirror s n).veins = s.veins := by
  induction n generalizing s with
  | zero => rfl
  | succ n ih =>
    unfold shiftMirror
    beta_reduce
    exact (ih _).trans (veins_foldl fun _ _ => wr_veins ..)

theorem writeRec_veins (s : State) (r : ErrRec) (count : Nat) : (writeRec s r count).veins = s.veins := by
  unfold writeRec
  extract_lets recno ring back gap body bytes mirrored listed ringed noted
  have hlisted : listed.veins = s.veins := (veins_foldl fun _ _ => wr_veins ..).trans (shiftMirror_veins s 7)
  clear_value bytes ring listed recno
  have hringed : ringed.veins = s.veins := by
    show (if ring = true then micaWrite listed _ _ else listed).veins = _
    split <;> exact hlisted
  clear_value ringed
  have hnoted : noted.veins = s.veins := (setFld_veins ..).trans hringed
  clear_value noted
  exact hnoted

theorem summarize_veins (s : State) (u : Nat) : (summarize s u).veins = s.veins := setFld_veins ..

theorem attnErr_veins (s : State) (u : Nat) : (attnErr s u).veins = s.veins :=
  (summarize_veins ..).trans (setFlag_veins ..)

/-- The record of an event that is not fatal. -/
theorem recordErr_veins {r : ErrRec} (hr : r.sev ≠ 3) : (recordErr s r).veins = s.veins := by
  unfold recordErr
  extract_lets count counted shown noted raised summed
  have hcounted : counted.veins = s.veins := by
    unfold counted
    split <;> rfl
  clear_value counted
  have hshown : shown.veins = s.veins := by
    unfold shown
    split <;> exact (incFld_veins ..).trans hcounted
  clear_value shown
  have hnoted : noted.veins = s.veins := by
    unfold noted
    split
    · unfold snapRec
      cases r.snap <;> exact (writeRec_veins ..).trans hshown
    · exact hshown
  clear_value noted
  have hraised : raised.veins = s.veins := by
    unfold raised
    split
    · exact (attnErr_veins ..).trans hnoted
    · exact hnoted
  clear_value raised
  have hsummed : summed.veins = s.veins := by
    unfold summed
    split
    · exact (summarize_veins ..).trans hraised
    · exact hraised
  clear_value summed
  rw [if_neg hr]
  exact hsummed

theorem vein_recordErr {r : ErrRec} (hr : r.sev ≠ 3) (w : Nat) : vein (recordErr s r) w = vein s w := by
  unfold vein
  rw [recordErr_veins hr]

end

/-! ## Commands in flight -/

section
variable {s : State} {v w : Nat}

theorem jobs_setVein {x : VeinSt} (h : x.jobs = (vein s v).jobs) : (vein (setVein s v x) w).jobs = (vein s w).jobs := by
  rw [vein_setVein]
  split
  next e => exact e ▸ h
  next => rfl

theorem jobs_foldl {α : Type} {l : List α} {f : State → α → State} (h : ∀ u x, (vein (f u x) w).jobs = (vein u w).jobs) :
    (vein (l.foldl f s) w).jobs = (vein s w).jobs := by
  induction l generalizing s with
  | nil => rfl
  | cons x l ih => exact ih.trans (h s x)

theorem vein_setVState (s : State) (v st w : Nat) : vein (setVState s v st) w = vein s w := vein_setFld ..

theorem vein_setWaiton (s : State) (v n w : Nat) : vein (setWaiton s v n) w = vein s w := vein_setFld ..

/-- Of a vein's own record a refresh changes only the state that a mask hides. -/
theorem vein_refreshVein (s : State) (v w : Nat) : ∃ l, vein (refreshVein s v) w = { vein s w with left := l } := by
  unfold refreshVein
  extract_lets x n shown st live trm
  have hshown (w : Nat) : vein shown w = vein s w := vein_setFld ..
  have hx : x = vein shown v := (hshown v).symm
  have kept : ∃ l, vein shown w = { vein s w with left := l } := ⟨_, hshown w⟩
  clear_value x n shown st live trm
  split
  · exact kept
  · split
    extract_lets masked ready
    split
    · have hmasked : ∃ l, vein masked w = { vein s w with left := l } := by
        unfold masked
        rw [vein_setVein]
        split
        next e => exact ⟨_, by rw [hx, hshown, e]⟩
        next => exact kept
      rw [vein_setWaiton, vein_setVState]
      exact hmasked
    · have hready : vein ready w = vein shown w := by
        unfold ready
        split <;> rfl
      rw [vein_setWaiton, vein_setVState, hready]
      exact kept

theorem jobs_refreshVein (s : State) (v w : Nat) : (vein (refreshVein s v) w).jobs = (vein s w).jobs := by
  obtain ⟨l, e⟩ := vein_refreshVein s v w
  rw [e]

theorem waitOn_refreshVein (s : State) (v w : Nat) : (vein (refreshVein s v) w).waitOn = (vein s w).waitOn := by
  obtain ⟨l, e⟩ := vein_refreshVein s v w
  rw [e]

theorem jobs_settleWaits (s : State) (w : Nat) : (vein (settleWaits s) w).jobs = (vein s w).jobs :=
  jobs_foldl fun u x => by
    dsimp only
    split
    · exact (jobs_refreshVein ..).trans (jobs_setVein rfl)
    · rfl

theorem jobs_headWaits (s : State) (v n w : Nat) : (vein (headWaits s v n) w).jobs = (vein s w).jobs :=
  (jobs_refreshVein ..).trans (jobs_setVein rfl)

theorem waitOn_headWaits (s : State) (v n : Nat) : (vein (headWaits s v n) v).waitOn = n := by
  unfold headWaits
  rw [waitOn_refreshVein, vein_setVein_self]

/-- Halts change of a vein its groups, and the state that a mask hides. -/
def VeinHeld (x y : VeinSt) : Prop := ∃ g l, y = { x with groups := g, left := l }

theorem VeinHeld.rfl' (x : VeinSt) : VeinHeld x x := ⟨_, _, rfl⟩

theorem VeinHeld.trans {x y z : VeinSt} (h : VeinHeld x y) (k : VeinHeld y z) : VeinHeld x z := by
  obtain ⟨_, _, rfl⟩ := h
  obtain ⟨g, l, rfl⟩ := k
  exact ⟨g, l, rfl⟩

theorem VeinHeld.jobs {x y : VeinSt} (h : VeinHeld x y) : y.jobs = x.jobs := by
  obtain ⟨_, _, rfl⟩ := h
  rfl

theorem VeinHeld.masks {x y : VeinSt} (h : VeinHeld x y) :
    y.fenced = x.fenced ∧ y.suspended = x.suspended ∧ y.waitOn = x.waitOn := by
  obtain ⟨_, _, rfl⟩ := h
  exact ⟨rfl, rfl, rfl⟩

theorem veinHeld_setVein {x : VeinSt} (h : VeinHeld (vein s v) x) (w : Nat) : VeinHeld (vein s w) (vein (setVein s v x) w) := by
  rw [vein_setVein]
  split
  next e => exact e ▸ h
  next => exact .rfl' _

theorem veinHeld_leaveFrame (s : State) (v w : Nat) : VeinHeld (vein s w) (vein (leaveFrame s v) w) :=
  veinHeld_setVein ⟨_, _, rfl⟩ w

theorem veinHeld_setVBase (s : State) (v st w : Nat) : VeinHeld (vein s w) (vein (setVBase s v st) w) := by
  unfold setVBase
  split
  · exact veinHeld_setVein ⟨_, _, rfl⟩ w
  · rw [vein_setVState]
    exact .rfl' _

theorem veinHeld_settleHalt (s : State) (v w : Nat) : VeinHeld (vein s w) (vein (settleHalt s v) w) := by
  unfold settleHalt
  extract_lets x r
  have hr : r.sev ≠ 3 := by decide
  clear_value x r
  split
  · split
    extract_lets stat seq halted
    have hseq : vein seq w = vein s w := (vein_setFld ..).trans (vein_setFld ..)
    clear_value seq
    have hhalted : VeinHeld (vein s w) (vein halted w) := by
      unfold halted
      rw [vein_setWaiton, ← hseq]
      exact veinHeld_setVBase ..
    clear_value halted
    rw [vein_recordErr (by exact hr)]
    exact hhalted
  · exact .rfl' _

theorem veinHeld_beginHalt (s : State) (v w : Nat) : VeinHeld (vein s w) (vein (beginHalt s v) w) := by
  unfold beginHalt
  split
  · exact .rfl' _
  · exact ((veinHeld_leaveFrame ..).trans (veinHeld_setVBase ..)).trans (veinHeld_settleHalt ..)

/-! ### Admission -/

theorem jobs_mapHeadGroup (s : State) (v w : Nat) (f : VGroup → VGroup) :
    (vein (mapHeadGroup s v f) w).jobs = (vein s w).jobs := by
  unfold mapHeadGroup
  extract_lets x
  split
  · rfl
  · exact jobs_setVein rfl

theorem jobs_setCEnd (s : State) (as : List Nat) (n w : Nat) : (vein (setCEnd s as n) w).jobs = (vein s w).jobs :=
  jobs_foldl fun _ _ => congrArg VeinSt.jobs (vein_setArr ..)

theorem jobs_admitGroup (s : State) (v : Nat) (es : List (Option Est)) (as : List Nat) (n w : Nat) :
    (vein (admitGroup s v es as n) w).jobs = (vein s w).jobs := by
  unfold admitGroup
  extract_lets e t ended admitted doms x booked
  have hadmitted : (vein admitted w).jobs = (vein s w).jobs := (jobs_mapHeadGroup ..).trans (jobs_setCEnd ..)
  clear_value ended admitted
  have hbooked : vein booked w = vein admitted w := rfl
  clear_value booked
  unfold showQ
  rw [vein_setFld, vein_setFld, jobs_refreshVein, hbooked, hadmitted]

theorem vein_notice (s : State) (u w : Nat) : vein (notice s u) w = vein s w := (vein_setFld ..).trans (vein_setFlag ..)

theorem jobs_admitOversize (s : State) (v now : Nat) (es : List (Option Est)) (w : Nat) :
    (vein (admitOversize s v now es) w).jobs = (vein s w).jobs := by
  unfold admitOversize
  extract_lets shown noted admitted
  have hnoted : vein noted w = vein s w := (vein_notice ..).trans (vein_setFlag ..)
  clear_value shown noted
  have hadmitted : (vein admitted w).jobs = (vein noted w).jobs := jobs_admitGroup ..
  clear_value admitted
  exact hadmitted.trans (congrArg VeinSt.jobs hnoted)

theorem jobs_deferHead (s : State) (v : Nat) (atTick : Bool) (w : Nat) :
    (vein (deferHead s v atTick) w).jobs = (vein s w).jobs :=
  (jobs_refreshVein ..).trans (jobs_mapHeadGroup ..)

theorem jobs_settleHead (s : State) (v now : Nat) (atTick : Bool) (d : Verdict) (w : Nat) :
    (vein (settleHead s v now atTick d) w).jobs = (vein s w).jobs := by
  unfold settleHead
  split
  · exact (jobs_refreshVein ..).trans (jobs_mapHeadGroup ..)
  · split
    · exact jobs_deferHead ..
    · exact jobs_admitOversize ..
  · split
    · exact jobs_deferHead ..
    · exact jobs_admitGroup ..
  · exact jobs_deferHead ..

theorem vein_noteFallback (s : State) (e : Est) (w : Nat) : vein (noteFallback s e) w = vein s w := by
  unfold noteFallback
  split <;> rfl

theorem jobs_considerOne (s : State) (now : Nat) (atTick : Bool) (v w : Nat) :
    (vein (considerOne now atTick s v) w).jobs = (vein s w).jobs :=
  (jobs_settleHead ..).trans (jobs_foldl fun _ _ => congrArg VeinSt.jobs (vein_noteFallback ..))

theorem jobs_present (s : State) (v w : Nat) : (vein (present s v) w).jobs = (vein s w).jobs := by
  unfold present
  extract_lets worked
  have hworked : (vein worked w).jobs = (vein s w).jobs := jobs_mapHeadGroup ..
  clear_value worked
  split
  · exact jobs_refreshVein ..
  split
  · exact (jobs_refreshVein ..).trans (jobs_mapHeadGroup ..)
  split
  · exact (jobs_refreshVein ..).trans ((jobs_mapHeadGroup ..).trans hworked)
  split
  · exact (jobs_refreshVein ..).trans hworked
  · exact (jobs_considerOne (nextConsider worked) ..).trans hworked

theorem jobs_afterIssue (s : State) (v w : Nat) : (vein (afterIssue s v) w).jobs = (vein s w).jobs := by
  unfold afterIssue
  extract_lets x
  split
  · exact (veinHeld_beginHalt ..).jobs
  · exact jobs_present ..

/-! ### A command ends -/

theorem jobs_updJob_ne {seq : Nat} {f : Job → Job} (hw : w ≠ v) : (vein (updJob s v seq f) w).jobs = (vein s w).jobs :=
  congrArg VeinSt.jobs ((vein_setVein ..).trans (if_neg hw.symm))

theorem jobs_updJob_self (s : State) (v seq : Nat) (f : Job → Job) :
    (vein (updJob s v seq f) v).jobs = (vein s v).jobs.map fun j => if j.seq == seq then f j else j :=
  congrArg VeinSt.jobs (vein_setVein_self ..)

theorem vein_retireList (s : State) (v : Nat) (js : List Job) (w : Nat) : vein (retireList v js s).1 w = vein s w := by
  unfold vein
  rw [retireList_veins]

theorem jobs_retire_ne (hw : w ≠ v) : (vein (retire s v) w).jobs = (vein s w).jobs :=
  congrArg VeinSt.jobs ((vein_setVein ..).trans ((if_neg hw.symm).trans (vein_retireList ..)))

/-- The end of a command of one vein leaves the commands of the others. -/
theorem jobs_completeJob_ne {seq : Nat} (hw : w ≠ v) : (vein (completeJob s v seq) w).jobs = (vein s w).jobs := by
  unfold completeJob
  extract_lets marked halted
  have hmarked : (vein marked w).jobs = (vein s w).jobs := jobs_updJob_ne hw
  clear_value marked
  have hhalted : (vein halted w).jobs = (vein s w).jobs := by
    unfold halted
    split
    · split
      · exact (veinHeld_beginHalt ..).jobs.trans hmarked
      · exact hmarked
    · exact hmarked
  clear_value halted
  rw [jobs_settleWaits, jobs_refreshVein, (veinHeld_settleHalt ..).jobs, jobs_retire_ne hw, hhalted]

end

/-! ## PX_VN_STAT and the registers beside it -/

section
variable {s : State} {v w a : Nat}

theorem rd_refreshVein_ne (h : Reg.vnStat v ≠ a) : rd (refreshVein s v) a = rd s a := by
  unfold refreshVein
  extract_lets x n shown st live trm
  have hshown : rd shown a = rd s a := rd_setFld_ne _ _ _ h
  clear_value x n shown st live trm
  split
  · exact hshown
  · split
    extract_lets masked ready
    have hready : rd ready a = rd shown a := by
      unfold ready
      split <;> rfl
    split
    · exact (rd_setFld_ne _ _ _ h).trans ((rd_setFld_ne _ _ _ h).trans hshown)
    · exact (rd_setFld_ne _ _ _ h).trans ((rd_setFld_ne _ _ _ h).trans (hready.trans hshown))

/-- The end of waits writes PX_VN_STAT of the veins that wait, and nothing else. -/
theorem rd_settleWaits_off (h : ∀ w < 16, Reg.vnStat w ≠ a) : rd (settleWaits s) a = rd s a := by
  refine List.foldlRecOn (motive := fun u => rd u a = rd s a) _ _ rfl fun u hu x hx => ?_
  dsimp only
  split
  · exact (rd_refreshVein_ne (h x (List.mem_range.mp hx))).trans hu
  · exact hu

theorem rd_settleWaits_stat (hv : (vein s v).waitOn = 0) : rd (settleWaits s) (Reg.vnStat v) = rd s (Reg.vnStat v) := by
  refine (List.foldlRecOn (motive := fun u => (vein u v).waitOn = 0 ∧ rd u (Reg.vnStat v) = rd s (Reg.vnStat v))
    _ _ ⟨hv, rfl⟩ fun u ⟨hwait, hrd⟩ x _ => ?_).2
  dsimp only
  split
  next waits =>
    have ne : x ≠ v := by
      rintro rfl
      simp [hwait] at waits
    have apart : Reg.vnStat x ≠ Reg.vnStat v := by unfold Reg.vnStat; omega
    exact ⟨by rw [waitOn_refreshVein, vein_setVein, if_neg ne, hwait], (rd_refreshVein_ne apart).trans hrd⟩
  next => exact ⟨hwait, hrd⟩

theorem rd_recordErr_contained {r : ErrRec} (hr : r.sev = 1) (hi : r.inj = false) (h : OffRecord a) (hc : Reg.errCnt ≠ a)
    (hs : Reg.errSummary ≠ a) (ha : Reg.errAtn ≠ a) : rd (recordErr s r) a = rd s a := by
  unfold recordErr
  extract_lets count counted shown noted raised summed
  have hcounted : rd counted a = rd s a := by
    unfold counted
    split <;> rfl
  clear_value counted
  have hshown : rd shown a = rd s a := by
    unfold shown
    rw [hr]
    exact (rd_setFld_ne _ _ _ hc).trans hcounted
  clear_value shown
  have hnoted : rd noted a = rd s a := by
    unfold noted
    split
    · exact (rd_snapRec h ..).trans hshown
    · exact hshown
  clear_value noted
  have hraised : rd raised a = rd s a := by
    unfold raised
    split
    · exact (rd_attnErr _ hs ha).trans hnoted
    · exact hnoted
  clear_value raised
  have hsummed : rd summed a = rd s a := by
    unfold summed
    rw [hi]
    exact hraised
  clear_value summed
  rw [if_neg (by rw [hr]; decide)]
  exact hsummed

end

/-! ## A command that halts its vein, and one that retires -/

section
variable {s : State} {v : Nat} {j : Job}

theorem vBase_of_plain (h : vState s v ≠ Vs.suspended ∧ vState s v ≠ Vs.fenced) : vBase s v = vState s v := by
  unfold vBase vMasked
  rw [if_neg (by simp [h])]

theorem vState_setVState (s : State) (v : Nat) {st : Nat} (h : st < 16) : vState (setVState s v st) v = st :=
  (fld_setFld_self _ _ _ _ (by decide)).trans (Nat.mod_eq_of_lt h)

/-- PX_VN_STAT shows the vein in HALTED with a status. -/
def HaltedWith (s : State) (v stat : Nat) : Prop :=
  vState s v = Vs.halted ∧ fld s (Reg.vnStat v) Fl.vnStat_HALTSTAT = stat % 256

theorem HaltedWith.congr {t : State} {stat : Nat} (h : HaltedWith s v stat)
    (e : rd t (Reg.vnStat v) = rd s (Reg.vnStat v)) : HaltedWith t v stat :=
  ⟨(fld_congr e).trans h.1, (fld_congr e).trans h.2⟩

/-- A vein that has entered HALTED, its registers written but for the record. -/
theorem haltedWith_entered (s : State) (v stat seq : Nat) :
    HaltedWith (setWaiton (setVState (setFld (setFld s (Reg.vnStat v) Fl.vnStat_HALTSTAT stat) (Reg.vnStat v)
      Fl.vnStat_HALTSEQ seq) v Vs.halted) v 0) v stat := by
  constructor
  · exact (fld_setFld_other _ _ _ _ _ (by decide) (by decide)).trans (vState_setVState _ _ (by decide))
  · unfold setWaiton setVState
    rw [fld_setFld_other _ _ _ _ _ (by decide) (by decide), fld_setFld_other _ _ _ _ _ (by decide) (by decide),
      fld_setFld_other _ _ _ _ _ (by decide) (by decide), fld_setFld_self _ _ _ _ (by decide)]
    rfl

theorem offRecord_vnStat (hv : v < 16) : OffRecord (Reg.vnStat v) :=
  ⟨fun i => by unfold Reg.errLast Reg.vnStat; omega, by unfold Reg.errRingPtr Reg.vnStat; omega⟩

/-- The vein's only command is complete and halts it, and the halt is settled. -/
theorem settleHalt_halts (hv : v < 16) (hj : (vein s v).jobs = [j]) (hd : j.done = true) (hh : jobHalts j = true)
    (hst : vState s v = Vs.halting) : HaltedWith (settleHalt s v) v (jobHaltStat j) := by
  have base : vBase s v = Vs.halting := (vBase_of_plain (by rw [hst]; decide)).trans hst
  have kept : vMasked (setFld (setFld s (Reg.vnStat v) Fl.vnStat_HALTSTAT (jobHaltStat j)) (Reg.vnStat v)
      Fl.vnStat_HALTSEQ j.seq) v = false := by
    unfold vMasked vState
    rw [fld_setFld_other _ _ _ _ _ (by decide) (by decide), fld_setFld_other _ _ _ _ _ (by decide) (by decide)]
    rw [show fld s (Reg.vnStat v) Fl.vnStat_STATE = _ from hst]
    rfl
  have apart : Reg.errCnt ≠ Reg.vnStat v ∧ Reg.errSummary ≠ Reg.vnStat v ∧ Reg.errAtn ≠ Reg.vnStat v := by
    unfold Reg.errCnt Reg.errSummary Reg.errAtn Reg.vnStat
    omega
  obtain ⟨hc, hs, ha⟩ := apart
  unfold settleHalt
  rw [if_pos (by simp [base, hj, hd]), hj, List.find?_cons_of_pos hh]
  dsimp only
  rw [setVBase, kept]
  exact (haltedWith_entered ..).congr (rd_recordErr_contained (by rfl) (by rfl) (offRecord_vnStat hv) hc hs ha)

theorem settleHalt_stands (h : vBase s v ≠ Vs.halting) : settleHalt s v = s := if_neg (by simp [h])

theorem beginHalt_halts (hv : v < 16) (hj : (vein s v).jobs = [j]) (hd : j.done = true) (hh : jobHalts j = true)
    (hst : vState s v = Vs.ready ∨ vState s v = Vs.wait) : HaltedWith (beginHalt s v) v (jobHaltStat j) := by
  have plain : vState s v ≠ Vs.suspended ∧ vState s v ≠ Vs.fenced := by
    rcases hst with e | e <;> rw [e] <;> decide
  have runs : ¬(vBase s v == Vs.off || vBase s v == Vs.halted) = true := by
    rw [vBase_of_plain plain]
    rcases hst with e | e <;> rw [e] <;> decide
  have unmasked : vMasked (leaveFrame s v) v = false := by
    unfold vMasked
    rw [show vState (leaveFrame s v) v = vState s v from rfl]
    simp [plain]
  unfold beginHalt
  rw [if_neg runs, setVBase, unmasked, if_neg Bool.false_ne_true]
  have halting : vState (setVState (leaveFrame s v) v Vs.halting) v = Vs.halting := vState_setVState _ _ (by decide)
  have alone : (vein (setVState (leaveFrame s v) v Vs.halting) v).jobs = [j] := by
    rw [vein_setVState]
    exact (veinHeld_leaveFrame s v v).jobs.trans hj
  exact settleHalt_halts hv alone hd hh halting

theorem refreshVein_halted {stat : Nat} (h : HaltedWith s v stat) (hf : (vein s v).fenced = false)
    (hs : (vein s v).suspended = false) : HaltedWith (refreshVein s v) v stat := by
  obtain ⟨hst, hstat⟩ := h
  unfold refreshVein
  extract_lets x n shown st live trm
  have hshown : HaltedWith shown v stat :=
    ⟨(fld_setFld_other _ _ _ _ _ (by decide) (by decide)).trans hst,
      (fld_setFld_other _ _ _ _ _ (by decide) (by decide)).trans hstat⟩
  have base : st = Vs.halted := by
    unfold st
    rw [vBase_of_plain (by rw [hshown.1]; decide), hshown.1]
  have stopped : live = false := by
    unfold live
    rw [base]
    rfl
  have masks : (x.fenced || x.suspended) = false := by
    unfold x
    rw [hf, hs]
    rfl
  clear_value shown live st x
  subst base stopped
  rw [masks]
  have entered : HaltedWith (setWaiton (setVState shown v Vs.halted) v 0) v stat := by
    constructor
    · exact (fld_setFld_other _ _ _ _ _ (by decide) (by decide)).trans (vState_setVState _ _ (by decide))
    · exact (fld_setFld_other _ _ _ _ _ (by decide) (by decide)).trans
        ((fld_setFld_other _ _ _ _ _ (by decide) (by decide)).trans hshown.2)
  exact entered

/-- A complete command that halts stays the first of its vein. -/
theorem retire_halts (hj : (vein s v).jobs = [j]) (hh : jobHalts j = true) :
    retire s v = setVein s v { vein s v with jobs := [j] } := by
  have stays : retireList v (vein s v).jobs s = (s, [j]) := by
    rw [hj, retireList, if_neg (by simp [hh])]
  unfold retire
  dsimp only
  rw [stays]

/-- The vein's only command ends with a status that halts. -/
theorem completeJob_halts (hv : v < 16) (hj : (vein s v).jobs = [j]) (hh : jobHalts j = true)
    (hst : vState s v = Vs.ready ∨ vState s v = Vs.wait) (hf : (vein s v).fenced = false)
    (hs : (vein s v).suspended = false) (hw : (vein s v).waitOn = 0) :
    HaltedWith (completeJob s v j.seq) v (jobHaltStat j) := by
  unfold completeJob
  extract_lets marked halted
  obtain ⟨k, hk, hd, hseq, hhk, hstat⟩ : ∃ k : Job, (vein marked v).jobs = [k] ∧ k.done = true ∧ k.seq = j.seq ∧
      jobHalts k = true ∧ jobHaltStat k = jobHaltStat j := by
    refine ⟨{ j with fin := true, done := true, nts := [], holds := [], ladders := [] }, ?_, rfl, rfl, hh, rfl⟩
    rw [show (vein marked v).jobs = _ from jobs_updJob_self .., hj]
    simp
  have veins : (vein marked v).fenced = false ∧ (vein marked v).suspended = false ∧ (vein marked v).waitOn = 0 := by
    rw [show vein marked v = _ from vein_setVein_self ..]
    exact ⟨hf, hs, hw⟩
  have hmst : vState marked v = Vs.ready ∨ vState marked v = Vs.wait := hst
  clear_value marked
  have hhalted : halted = beginHalt marked v := by
    have found : findJob marked v j.seq = some k := by
      unfold findJob
      rw [hk, List.find?_cons_of_pos (by simp [hseq])]
    have runs : vBase marked v ≠ Vs.halting := by
      rw [vBase_of_plain (by rcases hmst with e | e <;> rw [e] <;> decide)]
      rcases hmst with e | e <;> rw [e] <;> decide
    unfold halted
    rw [found]
    exact if_pos (by simp [hhk, runs])
  have held : VeinHeld (vein marked v) (vein halted v) := hhalted ▸ veinHeld_beginHalt ..
  have stands : HaltedWith halted v (jobHaltStat j) := hstat ▸ hhalted ▸ beginHalt_halts hv hk hd hhk hmst
  obtain ⟨ef, es, ew⟩ := held.masks
  obtain ⟨mf, ms, mw⟩ := veins
  clear_value halted
  rw [retire_halts (held.jobs.trans hk) hhk]
  have at_rest : vState (setVein halted v { vein halted v with jobs := [k] }) v = Vs.halted := stands.1
  have settled : settleHalt (setVein halted v { vein halted v with jobs := [k] }) v =
      setVein halted v { vein halted v with jobs := [k] } := by
    refine settleHalt_stands ?_
    rw [vBase_of_plain (by rw [at_rest]; decide), at_rest]
    decide
  rw [settled]
  have refreshed := refreshVein_halted (s := setVein halted v { vein halted v with jobs := [k] }) (v := v) stands
    (by rw [vein_setVein_self]; exact ef.trans mf) (by rw [vein_setVein_self]; exact es.trans ms)
  refine refreshed.congr (rd_settleWaits_stat ?_)
  rw [waitOn_refreshVein, vein_setVein_self]
  exact ew.trans mw

/-- The books but PX_VN_SEQ of a vein. -/
def bookButSeq (v a : Nat) : Bool := bookReg a && a != Reg.vnSeq v

theorem bookButSeq_covers (hv : v < 16) : Covers (bookButSeq v) := by
  obtain ⟨stat, budget, tstat, err, ring⟩ := bookReg_covers
  have but {a : Nat} (ha : bookReg a = true) (ne : a ≠ Reg.vnSeq v) : bookButSeq v a = true := by simp [bookButSeq, ha, ne]
  refine ⟨fun w hw => but (stat w hw) ?_, but budget ?_, but tstat ?_, fun a ha => but (err a ha) ?_, by simp [bookButSeq, ring]⟩
  · unfold Reg.vnStat Reg.vnSeq
    omega
  · unfold Reg.trmBudget Reg.vnSeq
    omega
  · unfold Reg.trmStat Reg.vnSeq
    omega
  · rintro rfl
    have far : ¬(Reg.errLast 0 ≤ Reg.vnSeq v) := by unfold Reg.errLast Reg.vnSeq; omega
    unfold errBook at ha
    simp only [List.contains_eq_mem, List.mem_cons, List.not_mem_nil, or_false, far, decide_false, Bool.false_and,
      Bool.or_false, decide_eq_true_eq] at ha
    unfold Reg.errCnt Reg.errCntCe Reg.errAtn Reg.errSummary Reg.errRingPtr Reg.vnSeq at ha
    omega

theorem rd_vnSeq_of_books {t : State} (h : Books (bookButSeq v) s t) : rd t (Reg.vnSeq v) = rd s (Reg.vnSeq v) :=
  h.regs _ (by simp [bookButSeq])

/-- A complete command that does not halt retires: PX_VN_SEQ shows its sequence number. -/
theorem retire_shows (hj : (vein s v).jobs = [j]) (hd : j.done = true) (hh : jobHalts j = false) :
    fld (retire s v) (Reg.vnSeq v) Fl.vnSeq_DONE = j.seq % 2 ^ 32 := by
  have goes : retireList v (vein s v).jobs s = (retireOne s v j, []) := by
    rw [hj, retireList, if_pos (by simp [hd, hh]), retireList]
  have apart : Reg.vnStat v ≠ Reg.vnSeq v := by unfold Reg.vnStat Reg.vnSeq; omega
  unfold retire
  dsimp only
  rw [goes]
  dsimp only
  rw [fld_setVein]
  unfold retireOne traceRetire
  extract_lets seq stat
  have hstat : fld stat (Reg.vnSeq v) Fl.vnSeq_DONE = j.seq % 2 ^ 32 :=
    (fld_setFld_ne _ _ _ _ apart).trans (fld_setFld_self _ _ _ _ (by decide))
  clear_value stat
  split
  · exact hstat
  · exact hstat

/-- The vein's only command ends with a status that does not halt. -/
theorem completeJob_retires (hv : v < 16) (hj : (vein s v).jobs = [j]) (hh : jobHalts j = false) :
    fld (completeJob s v j.seq) (Reg.vnSeq v) Fl.vnSeq_DONE = j.seq % 2 ^ 32 := by
  unfold completeJob
  extract_lets marked halted
  obtain ⟨k, hk, hd, hseq, hhk⟩ : ∃ k : Job, (vein marked v).jobs = [k] ∧ k.done = true ∧ k.seq = j.seq ∧
      jobHalts k = false := by
    refine ⟨{ j with fin := true, done := true, nts := [], holds := [], ladders := [] }, ?_, rfl, rfl, hh⟩
    rw [show (vein marked v).jobs = _ from jobs_updJob_self .., hj]
    simp
  clear_value marked
  have hhalted : halted = marked := by
    have found : findJob marked v j.seq = some k := by
      unfold findJob
      rw [hk, List.find?_cons_of_pos (by simp [hseq])]
    unfold halted
    rw [found]
    exact if_neg (by simp [hhk])
  rw [hhalted]
  have covers := bookButSeq_covers hv
  have rest : Books (bookButSeq v) (retire marked v) (settleWaits (refreshVein (settleHalt (retire marked v) v) v)) :=
    settleWaits_book covers (refreshVein_book covers hv (settleHalt_book covers hv (book_refl _)))
  rw [fld_congr (rd_vnSeq_of_books rest), retire_shows hk hd hhk, hseq]

end

end Sys2Proof.Machine

/-! PROOFS. The issue of a TILE or SPTILE (R200, R202, R225): the command that leaves the prefetch, what its claim finds,
and the fillers that it preempts. -/

namespace Sys2Proof.Machine

/-! ## Head commands (R200) -/

section
variable {s : State} {v op : Nat} {c : Cmd}

theorem headOf_eq (hh : Head s v c op) : headOf s v op = some c := by
  unfold headOf
  rw [if_pos hh.may, hh.head]
  exact if_pos (by simp [hh.op])

/-- A head command that passes its checks is issued, in a state that shows its estimate where that is a filler's
fallback. -/
theorem issueWith_go {chk : State → Nat → List W64 → Option Nat} {go : State → Nat → Cmd → State} (hh : Head s v c op)
    (hc : chk s v c.words = none) :
    ∃ u, FallbackShown s u ∧ (isFiller s (vTenant s v) = false → u = s) ∧ issueWith s v op chk go = go u v c := by
  unfold issueWith
  rw [headOf_eq hh]
  dsimp only
  rw [show orFail (staticBad s v c.words) (chk s v c.words) = none by rw [hh.good, hc]; rfl]
  have shown : ∃ u, FallbackShown s u ∧ (isFiller s (vTenant s v) = false → u = s) ∧
      (if (isFiller s (vTenant s v) && isWork (cmdOp c.words) && (none : Option Nat).isNone) = true
        then noteFallback s (estimate s c.words) else s) = u := by
    split
    next h => exact ⟨_, noteFallback_shown s _, fun e => by simp [e] at h, rfl⟩
    next => exact ⟨_, .rfl' s, fun _ => rfl, rfl⟩
  obtain ⟨u, hu, same, e⟩ := shown
  rw [e]
  refine ⟨u, hu, same, if_neg ?_⟩
  rw [hu.estimate_eq, hu.fillerMay_eq]
  rcases hh.fill with h | h <;> simp [h]

end

/-! ## The command that leaves the prefetch -/

/-- A command as it becomes a command in flight. -/
structure Issued (c : Cmd) (j : Job) : Prop where
  op    : j.op = cmdOp c.words
  seq   : j.seq = cmdSeq c.words
  done  : j.done = false
  conds : ∀ x ∈ j.conds, x = St.frameOverrun

/-- The vein of a command that leaves the prefetch: its groups g and its commands in flight js, and what leftPrefetch
says. -/
def leftVein (s : State) (v : Nat) (g : List VGroup) (js : List Job) : VeinSt :=
  { vein s v with
    held := (vein s v).held.drop 1
    fresh := (vein s v).fresh - 1
    groups := g
    jobs := js
    retry := false
    retryAt := if (vein s v).retry then (vein s v).retryAt else []
    stamp := s.stamp + 1
    stepBack := false
    waitOn := 0 }

theorem leavePrefetch_eq (s : State) (v : Nat) (c : Cmd) : ∃ g j, Issued c j ∧ leavePrefetch s v c =
    { setVein s v (leftVein s v g (if (vein s v).retry then j :: (vein s v).jobs else (vein s v).jobs ++ [j])) with
      stamp := s.stamp + 1 } := by
  unfold leavePrefetch
  extract_lets x filler op
  split
  extract_lets late work overrun j0 j left
  refine ⟨_, j, ⟨rfl, rfl, rfl, fun y hy => ?_⟩, rfl⟩
  have hj : j.conds = if overrun = true then [St.frameOverrun] else [] := rfl
  rw [hj] at hy
  split at hy
  · exact List.mem_singleton.mp hy
  · exact absurd hy List.not_mem_nil

section
variable {s : State} {v w : Nat} {c : Cmd}

theorem vein_leavePrefetch_ne (hw : w ≠ v) : vein (leavePrefetch s v c) w = vein s w := by
  obtain ⟨g, j, -, e⟩ := leavePrefetch_eq s v c
  rw [e]
  exact (vein_setVein ..).trans (if_neg hw.symm)

theorem vein_leavePrefetch_self : ∃ g j, Issued c j ∧ vein (leavePrefetch s v c) v =
    leftVein s v g (if (vein s v).retry then j :: (vein s v).jobs else (vein s v).jobs ++ [j]) := by
  obtain ⟨g, j, hj, e⟩ := leavePrefetch_eq s v c
  rw [e]
  exact ⟨g, j, hj, vein_setVein_self ..⟩

theorem vein_startIssue (s : State) (v : Nat) (c : Cmd) (w : Nat) :
    vein (startIssue s v c) w = vein (leavePrefetch s v c) w := rfl

/-- What leaving the prefetch changes of a vein without its books. -/
def leftPlain (n : Nat) (x : VeinSt) : VeinSt :=
  { x with
    held := x.held.drop 1
    fresh := x.fresh - 1
    retry := false
    retryAt := if x.retry then x.retryAt else []
    stamp := n
    stepBack := false }

theorem veinPlain_leftVein (s : State) (v : Nat) (g : List VGroup) (js : List Job) :
    veinPlain (leftVein s v g js) = leftPlain (s.stamp + 1) (veinPlain (vein s v)) := rfl

/-- A head command that leaves the prefetch touches, beside what leftPrefetch says, the books alone. -/
theorem leftPrefetch_book {s' : State} (h : Books bookReg s s') :
    Books bookReg { leftPrefetch s v with trm := s.trm } (leavePrefetch s' v c) := by
  obtain ⟨g, j, -, e⟩ := leavePrefetch_eq s' v c
  have stamp : s'.stamp = s.stamp := (congrArg State.stamp h.rest :)
  rw [e]
  refine ⟨h.regs, h.mica, fun w => ?_, h.arrays, h.trm, (congrArg (fun u : State => { u with stamp := u.stamp + 1 }) h.rest :)⟩
  show veinPlain (vein (setVein s' v _) w) = veinPlain (vein (setVein s v _) w)
  rw [vein_setVein, vein_setVein]
  split
  next =>
    rw [veinPlain_leftVein, h.veins, stamp]
    rfl
  next => exact h.veins w

end

/-! ## Claims (R202, R203, R225) -/

section
variable {s : State} {v : Nat} {c : Cmd} {share pick : Nat} {short : Nat → Bool} {go : State → List Nat → State}

theorem claimThen_none (h : claimSet s share pick = []) : claimThen s v c share pick short go = headWaits s v 4 := by
  unfold claimThen
  rw [h]
  rfl

variable (has : claimSet s share pick ≠ [])
include has

theorem claimThen_short (hs : short (claimSet s share pick).length = true) :
    claimThen s v c share pick short go = refuse s v c St.claimShort := by
  unfold claimThen
  dsimp only
  rw [if_neg (by simpa using has), if_pos hs]

variable (hs : short (claimSet s share pick).length = false)
include hs

theorem claimThen_free (hf : claimFree s (claimSet s share pick) c.words = true) :
    claimThen s v c share pick short go = go (wakeAll s (claimSet s share pick)) (claimSet s share pick) := by
  unfold claimThen
  dsimp only
  rw [if_neg (by simpa using has), if_neg (by simp [hs]), hf]
  simp [hf]

theorem claimThen_filler (hf : claimFree s (claimSet s share pick) c.words = false) (hv : isFiller s (vTenant s v) = true) :
    claimThen s v c share pick short go = headWaits s v 4 := by
  unfold claimThen
  dsimp only
  rw [if_neg (by simpa using has), if_neg (by simp [hs]), hv]
  simp [hf]

theorem claimThen_preempts (hf : claimFree s (claimSet s share pick) c.words = false)
    (hv : isFiller s (vTenant s v) = false) : claimThen s v c share pick short go =
      if claimFree (preemptFillers s (claimSet s share pick)) (claimSet s share pick) c.words then
        go (wakeAll (preemptFillers s (claimSet s share pick)) (claimSet s share pick)) (claimSet s share pick)
      else headWaits (preemptFillers s (claimSet s share pick)) v 4 := by
  unfold claimThen
  dsimp only
  rw [if_neg (by simpa using has), if_neg (by simp [hs]), hf, hv]
  rfl

end

/-! ## Preemption (R225) -/

/-- A command of a filler in flight that holds arrays of a set. -/
def fillerOf (s : State) (as : List Nat) (p : Nat × Job) : Bool :=
  isFiller s p.2.tenant && p.2.arrays.any (fun a => as.contains a) && !p.2.done

/-- What the preemption of command p makes of a command j of its number: between two ranges or records it gives its arrays
up at once. -/
def preempted (p j : Job) : Job :=
  if (p.op == 4 || p.op == 0x15) && p.beat = 0 then { j with arrays := [], spilled := true, preempt := false }
  else { j with preempt := true }

theorem preempted_seq (p j : Job) : (preempted p j).seq = j.seq := by
  unfold preempted
  split <;> rfl

theorem preempted_twice (p j : Job) : preempted p (preempted p j) = preempted p j := by
  unfold preempted
  split <;> rfl

/-- One step of the preemption. -/
def preemptOne (as : List Nat) (s : State) (p : Nat × Job) : State :=
  if fillerOf s as p then
    if (p.2.op == 4 || p.2.op == 0x15) && p.2.beat = 0 then giveUp s p.1 p.2
    else updJob s p.1 p.2.seq (fun j => { j with preempt := true })
  else s

theorem preemptFillers_eq (s : State) (as : List Nat) : preemptFillers s as = (allJobs s).foldl (preemptOne as) s := rfl

section
variable {s : State} {as : List Nat} {p : Nat × Job}

theorem fillerOf_iff : fillerOf s as p = true ↔
    isFiller s p.2.tenant = true ∧ p.2.done = false ∧ ∃ a ∈ as, a ∈ p.2.arrays := by
  simp only [fillerOf, Bool.and_eq_true, List.any_eq_true, List.contains_iff_mem, Bool.not_eq_true']
  constructor
  · rintro ⟨⟨hf, a, ha, hs⟩, hd⟩
    exact ⟨hf, hd, a, hs, ha⟩
  · rintro ⟨hf, hd, a, hs, ha⟩
    exact ⟨⟨hf, a, ha, hs⟩, hd⟩

theorem preemptFillers_none (h : ∀ p ∈ allJobs s, fillerOf s as p = false) : preemptFillers s as = s := by
  have key : ∀ l : List (Nat × Job), (∀ p ∈ l, fillerOf s as p = false) → l.foldl (preemptOne as) s = s := by
    intro l
    induction l with
    | nil => exact fun _ => rfl
    | cons q l ih =>
      intro hl
      obtain ⟨hq, hl⟩ := List.forall_mem_cons.mp hl
      rw [List.foldl_cons, preemptOne, hq]
      exact ih hl
  rw [preemptFillers_eq, key _ h]

theorem mem_allJobs : p ∈ allJobs s ↔ p.1 < 16 ∧ p.2 ∈ (vein s p.1).jobs ∧ p.2.done = false := by
  obtain ⟨v, j⟩ := p
  simp only [allJobs, List.mem_flatMap, List.mem_range, List.mem_filterMap, Option.ite_none_left_eq_some, Option.some.injEq,
    Prod.mk.injEq]
  constructor
  · rintro ⟨_, hv, _, hj, hd, rfl, rfl⟩
    exact ⟨hv, hj, by simpa using hd⟩
  · rintro ⟨hv, hj, hd⟩
    exact ⟨v, hv, j, hj, by simpa using hd, rfl, rfl⟩

/-- A register that no PX_VN_STAT is stays as preemption finds it. -/
theorem rd_preemptOne {a : Nat} (h : ∀ w < 16, Reg.vnStat w ≠ a) : rd (preemptOne as s p) a = rd s a := by
  unfold preemptOne
  split
  · split
    · exact rd_settleWaits_off h
    · rfl
  · rfl

/-- The filler test stands while others are preempted. -/
theorem fillerOf_preemptOne (q : Nat × Job) : fillerOf (preemptOne as s p) as q = fillerOf s as q := by
  have off : ∀ w < 16, Reg.vnStat w ≠ Reg.vnTenant q.2.tenant := fun w hw => by unfold Reg.vnStat Reg.vnTenant; omega
  have same : isFiller (preemptOne as s p) q.2.tenant = isFiller s q.2.tenant := by
    unfold isFiller flag fld
    rw [rd_preemptOne off]
  unfold fillerOf
  rw [same]

theorem jobs_preemptOne (s : State) (as : List Nat) (q : Nat × Job) (w : Nat) : (vein (preemptOne as s q) w).jobs =
    (vein s w).jobs.map fun j => if fillerOf s as q = true ∧ q.1 = w ∧ j.seq = q.2.seq then preempted q.2 j else j := by
  by_cases hf : fillerOf s as q = true
  · have yields : (vein (preemptOne as s q) w).jobs = (vein (updJob s q.1 q.2.seq (preempted q.2)) w).jobs := by
      unfold preemptOne preempted
      rw [if_pos hf]
      split
      · exact jobs_settleWaits ..
      · rfl
    rw [yields]
    by_cases hw : q.1 = w
    · subst hw
      rw [jobs_updJob_self]
      simp [hf]
    · rw [jobs_updJob_ne (Ne.symm hw)]
      simp [hw]
  · unfold preemptOne
    simp [hf]

/-- A filler's command that is the only one of its number is preempted, once for all. -/
theorem preemptFillers_marks (hp : p ∈ allJobs s) (hf : fillerOf s as p = true)
    (only : ∀ q ∈ (vein s p.1).jobs, q.seq = p.2.seq → q = p.2) :
    preempted p.2 p.2 ∈ (vein (preemptFillers s as) p.1).jobs := by
  have key : ∀ (l : List (Nat × Job)) (u : State), (∀ q ∈ l, q.1 = p.1 → q.2.seq = p.2.seq → q.2 = p.2) →
      fillerOf u as p = true → (p ∈ l ∧ p.2 ∈ (vein u p.1).jobs) ∨ preempted p.2 p.2 ∈ (vein u p.1).jobs →
      preempted p.2 p.2 ∈ (vein (l.foldl (preemptOne as) u) p.1).jobs := by
    intro l
    induction l with
    | nil => exact fun u _ _ h => h.resolve_left fun h => List.not_mem_nil h.1
    | cons q l ih =>
      intro u same hfu h
      obtain ⟨hq, same⟩ := List.forall_mem_cons.mp same
      refine ih _ same ((fillerOf_preemptOne p).trans hfu) ?_
      rw [jobs_preemptOne]
      simp only [List.mem_map]
      rcases h with ⟨hmem, hj⟩ | hj
      · by_cases met : fillerOf u as q = true ∧ q.1 = p.1 ∧ p.2.seq = q.2.seq
        · exact .inr ⟨p.2, hj, by rw [if_pos met, hq met.2.1 met.2.2.symm]⟩
        · have later : p ∈ l := (List.mem_cons.mp hmem).resolve_left fun e => met (e ▸ ⟨hfu, rfl, rfl⟩)
          exact .inl ⟨later, p.2, hj, if_neg met⟩
      · refine .inr ⟨_, hj, ?_⟩
        split
        next met =>
          obtain ⟨-, hv, hs⟩ := met
          rw [hq hv (hs.symm.trans (preempted_seq ..)), preempted_twice]
        next => rfl
  obtain ⟨-, hj, -⟩ := mem_allJobs.mp hp
  rw [preemptFillers_eq]
  refine key _ s (fun q hq hv hs => ?_) hf (.inl ⟨hp, hj⟩)
  obtain ⟨-, hqj, -⟩ := mem_allJobs.mp hq
  exact only q.2 (hv ▸ hqj) hs

/-- Preemption touches the books alone. -/
theorem preemptFillers_book (s : State) (as : List Nat) : Books bookReg s (preemptFillers s as) := by
  rw [preemptFillers_eq]
  exact book_foldl (book_refl s) fun _ _ _ hu =>
    book_ite (book_ite (settleWaits_book bookReg_covers (updJob_book hu)) (updJob_book hu)) hu

end

end Sys2Proof.Machine

/-! PROOFS. What a TILE or SPTILE takes at its issue (R106, R107, R202, R350): the arrays it wakes, the places in its
streams, and the command in flight. -/

namespace Sys2Proof.Machine

/-! ## The arrays of a claim wake (R106, R107, R418) -/

section
variable {s : State} {a : Nat}

theorem wakeArray_idle (h : (arr s a).pow = .idle) : wakeArray s a = setArr s a (rampUp (arr s a)) := by
  unfold wakeArray
  rw [h]

theorem wakeArray_opened (h : (arr s a).pow = .opened) : wakeArray s a = closeSwitch s a := by
  unfold wakeArray
  rw [h]

theorem wakeArray_rampDown (h : (arr s a).pow = .rampDown) :
    wakeArray s a = setArr s a { arr s a with pow := .full } := by
  unfold wakeArray
  rw [h]

theorem wakeArray_other (hi : (arr s a).pow ≠ .idle) (ho : (arr s a).pow ≠ .opened) (hr : (arr s a).pow ≠ .rampDown) :
    wakeArray s a = s := by
  unfold wakeArray
  split
  · contradiction
  · contradiction
  · contradiction
  · rfl

/-- The power state of an array that is woken. -/
def wokenPow (s : State) (a : Nat) : Pow :=
  match (arr s a).pow with
  | .idle => .rampUp
  | .opened => if switching s then .waiting else .closing
  | .rampDown => .full
  | q => q

/-- An array that is woken keeps its gap, the hold of a pre-ramp and what is resident. -/
theorem arr_wakeArray (s : State) (a : Nat) :
    (arr (wakeArray s a) a).pow = wokenPow s a ∧ (arr (wakeArray s a) a).gap = (arr s a).gap ∧
      (arr (wakeArray s a) a).preramp = (arr s a).preramp ∧ (arr (wakeArray s a) a).resident = (arr s a).resident := by
  unfold wokenPow
  cases hp : (arr s a).pow with
  | idle =>
    rw [wakeArray_idle hp, arr_setArr_self]
    exact ⟨rfl, rfl, rfl, rfl⟩
  | opened =>
    rw [wakeArray_opened hp, closeSwitch_eq, arr_setArr_self]
    exact ⟨rfl, rfl, rfl, rfl⟩
  | rampDown =>
    rw [wakeArray_rampDown hp, arr_setArr_self]
    exact ⟨rfl, rfl, rfl, rfl⟩
  | full | waiting | closing | rampUp =>
    rw [wakeArray_other (by simp [hp]) (by simp [hp]) (by simp [hp])]
    exact ⟨hp, rfl, rfl, rfl⟩

theorem wakeArray_wakes : Wakes wakeArray where
  other u a b hb := by
    unfold wakeArray
    split
    · exact (arr_setArr ..).trans (if_neg hb.symm)
    · exact (arr_setArr ..).trans (if_neg hb.symm)
    · exact (arr_setArr ..).trans (if_neg hb.symm)
    · rfl
  rest u a := by
    unfold wakeArray
    split <;> rfl
  opened u a h := by
    rw [(arr_wakeArray u a).1, wokenPow, h]
  still u a h := by
    rw [(arr_wakeArray u a).1, wokenPow]
    split <;> simp_all

/-- Of the arrays the switch of a alone closes. -/
def SoleClosing (s : State) (a : Nat) : Prop := (arr s a).pow = .closing ∧ ∀ b, b ≠ a → ¬ (b < 4 ∧ (arr s b).pow = .closing)

section
variable {f : State → Nat → State} (hf : Wakes f) (ha : a < 4)
include hf ha

theorem Wakes.sole_step {c : Nat} (hc : c ≠ a) (h : SoleClosing s a) : SoleClosing (f s c) a := by
  obtain ⟨closes, alone⟩ := h
  refine ⟨by rw [hf.other s c a hc.symm, closes], fun b ne ⟨hb, h⟩ => ?_⟩
  by_cases e : b = c
  · subst e
    by_cases ho : (arr s b).pow = .opened
    · rw [hf.opened s b ho, if_pos (switching_iff.mpr ⟨a, ha, closes⟩)] at h
      cases h
    · exact alone b ne ⟨hb, (hf.still s b ho).mp h⟩
  · rw [hf.other s c b e] at h
    exact alone b ne ⟨hb, h⟩

theorem Wakes.sole_foldl {l : List Nat} (hl : a ∉ l) (h : SoleClosing s a) : SoleClosing (l.foldl f s) a :=
  List.foldlRecOn (motive := (SoleClosing · a)) l f h fun _ hu _ hc => hf.sole_step ha (ne_of_mem_of_not_mem hc hl) hu

/-- An opened array of the fold waits, or its switch alone closes. -/
theorem Wakes.opened_at {l : List Nat} (hl : l.Nodup) (h : a ∈ l) (ho : (arr s a).pow = .opened) :
    (arr (l.foldl f s) a).pow = .waiting ∨ SoleClosing (l.foldl f s) a := by
  obtain ⟨m, n, rfl⟩ := List.append_of_mem h
  obtain ⟨at_a, met⟩ := hf.foldl_at hl s
  have pow := hf.opened _ a (met ▸ ho)
  cases hq : switching (m.foldl f s) with
  | true => exact .inl (by rw [at_a, pow, hq]; rfl)
  | false =>
    have sole : SoleClosing (f (m.foldl f s) a) a := by
      refine ⟨by rw [pow, hq]; rfl, fun b ne ⟨hb, h⟩ => ?_⟩
      rw [hf.other _ a b ne] at h
      exact switching_eq_false_iff.mp hq b hb h
    rw [List.foldl_append, List.foldl_cons]
    obtain ⟨-, tail, -⟩ := List.nodup_append.mp hl
    exact .inr (hf.sole_foldl ha (List.nodup_cons.mp tail).1 sole)

end

/-- A claim leaves an array of its set that was not opened as its own waking does. -/
theorem wakeAll_pow {as : List Nat} (hn : as.Nodup) (h : a ∈ as) (ho : (arr s a).pow ≠ .opened) :
    (arr (wakeAll s as) a).pow = wokenPow s a := by
  obtain ⟨m, n, rfl⟩ := List.append_of_mem h
  obtain ⟨at_a, met⟩ := wakeArray_wakes.foldl_at hn s
  unfold wakeAll
  rw [at_a, (arr_wakeArray _ a).1]
  unfold wokenPow
  rw [met]
  split <;> simp_all

theorem wakeAll_keeps {as : List Nat} (hn : as.Nodup) (h : a ∈ as) : (arr (wakeAll s as) a).gap = (arr s a).gap ∧
    (arr (wakeAll s as) a).preramp = (arr s a).preramp ∧ (arr (wakeAll s as) a).resident = (arr s a).resident := by
  obtain ⟨m, n, rfl⟩ := List.append_of_mem h
  obtain ⟨at_a, met⟩ := wakeArray_wakes.foldl_at hn s
  unfold wakeAll
  rw [at_a, ← met]
  exact (arr_wakeArray _ a).2

end

/-! ## Claim sets (R202) -/

theorem nodup_claimSet (s : State) (share pick : Nat) : (claimSet s share pick).Nodup := by
  have pairs (p : Nat) : ([2 * p, 2 * p + 1].filter (inService s)).Nodup := List.Nodup.filter _ (by simp)
  unfold claimSet
  split
  · split
    · exact List.nodup_singleton _
    · exact (List.take_sublist _ _).nodup (nodup_arraysIn s)
  · dsimp only
    split
    · exact pairs _
    · split
      · exact pairs _
      · split <;> exact pairs _
  · exact nodup_arraysIn s

theorem claimSet_lt {s : State} {share pick a : Nat} (hp : pick < 4) (h : a ∈ claimSet s share pick) : a < 4 := by
  have listed {l : List Nat} (hl : l ⊆ arraysIn s) (h : a ∈ l) : a < 4 := (mem_arraysIn.mp (hl h)).1
  have pairs {p : Nat} (hp : p < 2) (h : a ∈ [2 * p, 2 * p + 1].filter (inService s)) : a < 4 := by
    have := List.mem_of_mem_filter h
    simp only [List.mem_cons, List.not_mem_nil, or_false] at this
    omega
  have mine : pick % 2 < 2 := Nat.mod_lt _ (by decide)
  have other : 1 - pick % 2 < 2 := by omega
  unfold claimSet at h
  split at h
  · split at h
    · exact List.mem_singleton.mp h ▸ hp
    · exact listed (List.take_subset _ _) h
  · dsimp only at h
    split at h
    · exact pairs mine h
    · split at h
      · exact pairs other h
      · split at h
        · exact pairs other h
        · exact pairs mine h
  · exact listed (List.Subset.refl _) h

namespace FallbackShown
variable {s t : State} (h : FallbackShown s t)
include h

theorem claimSet_eq (share pick : Nat) : claimSet t share pick = claimSet s share pick := by
  unfold claimSet
  rw [h.inService_eq, h.arraysIn_eq]

theorem claimFree_eq (as : List Nat) (ws : List W64) : claimFree t as ws = claimFree s as ws := by
  simp only [claimFree, borrowed, holdersOf, allJobs, h.vein_eq]

theorem books : Books bookReg s t where
  regs a ha := h.regs a (by rintro rfl; exact absurd ha (by decide))
  mica x _ := by
    unfold micaByte
    rw [h.mica]
  veins v := by rw [h.vein_eq]
  arrays a := by rw [h.arr_eq]
  trm := (congrArg trmPlain h.trm :)
  rest := (congrArg restOf h.rest :)

end FallbackShown

/-! ## What an issue writes of a vein and its streams alone -/

/-- From s to t registers, Mica, arrays and every other vein stand. -/
structure VeinOnly (v : Nat) (s t : State) : Prop where
  regs   : t.regs = s.regs
  mica   : t.mica = s.mica
  arrays : t.arrays = s.arrays
  others : ∀ w, w ≠ v → vein t w = vein s w

/-- The same work on the same arrays. -/
def SameWork (j k : Job) : Prop := k.op = j.op ∧ k.seq = j.seq ∧ k.arrays = j.arrays ∧ k.done = j.done

/-- And the vein's commands stay in flight with their arrays. -/
structure Reserves (v : Nat) (s t : State) : Prop extends VeinOnly v s t where
  jobs : ∀ j ∈ (vein s v).jobs, ∃ k ∈ (vein t v).jobs, SameWork j k

section
variable {v : Nat} {s t u : State}

theorem VeinOnly.trans (h : VeinOnly v s t) (k : VeinOnly v t u) : VeinOnly v s u :=
  ⟨k.regs.trans h.regs, k.mica.trans h.mica, k.arrays.trans h.arrays, fun w hw => (k.others w hw).trans (h.others w hw)⟩

theorem SameWork.rfl' (j : Job) : SameWork j j := ⟨rfl, rfl, rfl, rfl⟩

theorem SameWork.trans {i j k : Job} (h : SameWork i j) (h' : SameWork j k) : SameWork i k := by
  obtain ⟨op, seq, arrays, done⟩ := h
  obtain ⟨op', seq', arrays', done'⟩ := h'
  exact ⟨op'.trans op, seq'.trans seq, arrays'.trans arrays, done'.trans done⟩

theorem Reserves.rfl' (v : Nat) (s : State) : Reserves v s s :=
  ⟨⟨rfl, rfl, rfl, fun _ _ => rfl⟩, fun j hj => ⟨j, hj, .rfl' j⟩⟩

theorem Reserves.trans (h : Reserves v s t) (k : Reserves v t u) : Reserves v s u := by
  refine ⟨h.toVeinOnly.trans k.toVeinOnly, fun i hi => ?_⟩
  obtain ⟨j, hj, hij⟩ := h.jobs i hi
  obtain ⟨l, hl, hjl⟩ := k.jobs j hj
  exact ⟨l, hl, hij.trans hjl⟩

theorem Reserves.ite {c : Prop} [Decidable c] (h : Reserves v s t) (k : Reserves v s u) :
    Reserves v s (if c then t else u) := by
  split
  · exact h
  · exact k

theorem Reserves.streams {m : List (Nat × StreamSt)} (h : Reserves v s t) : Reserves v s { t with streams := m } :=
  ⟨⟨h.regs, h.mica, h.arrays, h.others⟩, h.jobs⟩

theorem veinOnly_setVein (s : State) (v : Nat) (x : VeinSt) : VeinOnly v s (setVein s v x) :=
  ⟨rfl, rfl, rfl, fun _ hw => (vein_setVein ..).trans (if_neg hw.symm)⟩

theorem veinOnly_updJob (s : State) (v seq : Nat) (f : Job → Job) : VeinOnly v s (updJob s v seq f) := veinOnly_setVein ..

theorem Reserves.updJob {seq : Nat} {f : Job → Job} (hf : ∀ j, SameWork j (f j)) (h : Reserves v s t) :
    Reserves v s (updJob t v seq f) := by
  refine h.trans ⟨veinOnly_updJob .., fun j hj => ?_⟩
  rw [jobs_updJob_self]
  refine ⟨_, List.mem_map_of_mem hj, ?_⟩
  split
  · exact hf j
  · exact .rfl' j

/-! ### Places in streams (R140, R150) -/

theorem Reserves.reserve {seq st n : Nat} {set : Job → Nat → Job} (hs : ∀ j p, SameWork j (set j p)) (h : Reserves v s t) :
    Reserves v s (reserve t v seq st n set) := by
  unfold Machine.reserve
  extract_lets x next p placed
  have hplaced : Reserves v s placed := h.streams
  clear_value placed x next p
  exact .ite h (hplaced.updJob fun j => hs _ p)

theorem Reserves.holdAll {seq st nts : Nat} {low : Nat → Nat} (h : Reserves v s t) :
    Reserves v s (holdAll t v seq st nts low) :=
  h.updJob fun _ => ⟨rfl, rfl, rfl, rfl⟩

end

/-! ### Room in a stream that takes output (R149, R178) -/

/-- A stream that can take output: RESIDENT, landing or outbound. -/
def Sink (d : Desc) : Prop := d.isResident = true ∨ d.landing = true ∨ d.isOutbound = true

/-- From s to t streams alone have changed, and the turn unit of stream i has what it had. -/
def TurnKept (i : Nat) (s t : State) : Prop := (∃ m, t = { s with streams := m }) ∧ (strm t i).turn = (strm s i).turn

section
variable {s t u : State} {i : Nat}

theorem TurnKept.rfl' (i : Nat) (s : State) : TurnKept i s s := ⟨⟨_, rfl⟩, rfl⟩

theorem TurnKept.trans (h : TurnKept i s t) (k : TurnKept i t u) : TurnKept i s u := by
  obtain ⟨⟨_, rfl⟩, ht⟩ := h
  obtain ⟨⟨m, rfl⟩, hu⟩ := k
  exact ⟨⟨m, rfl⟩, hu.trans ht⟩

theorem TurnKept.desc (h : TurnKept i s t) : desc t i = desc s i := by
  obtain ⟨⟨_, rfl⟩, -⟩ := h
  rfl

theorem turnKept_setStrm {x : StreamSt} (hx : x.turn = (strm s i).turn) : TurnKept i s (setStrm s i x) :=
  ⟨⟨_, rfl⟩, by rw [strm_setStrm_self, hx]⟩

theorem release_turnKept (s : State) (i : Nat) : TurnKept i s (release s i) := by
  unfold release
  dsimp only
  split
  · exact .rfl' i s
  · exact turnKept_setStrm rfl

theorem turnOut_outbound (h : (desc s i).isOutbound = true) : turnOut s i = s := if_pos (by simp [h])

/-- The turn unit of a stream that takes output writes nothing as room is assigned. -/
theorem extendOne_turnKept (h : Sink (desc s i)) : TurnKept i s (extendOne s i) := by
  unfold extendOne
  extract_lets d x lo
  clear_value lo
  split
  · exact .rfl' i s
  next r _ =>
    extract_lets p n
    clear_value p n
    split
    · exact .rfl' i s
    next inner =>
    split
    · exact turnKept_setStrm rfl
    next bank =>
    split
    · exact .rfl' i s
    · have out : (desc s i).isOutbound = true := by
        rcases h with h | h | h
        · exact absurd (by simp [d, h]) inner
        · exact absurd h bank
        · exact h
      rw [turnOut_outbound (by exact out)]
      exact turnKept_setStrm rfl

theorem extend_turnKept (h : Sink (desc s i)) : TurnKept i s (extend s i) := by
  have hr := release_turnKept s i
  have h1 : TurnKept i s (extendOne (release s i) i) := hr.trans (extendOne_turnKept (hr.desc ▸ h))
  have h2 : TurnKept i s (extendOne (extendOne (release s i) i) i) := h1.trans (extendOne_turnKept (h1.desc ▸ h))
  unfold extend
  dsimp only
  rw [if_neg (by simp [h2.2])]
  exact h2

theorem Reserves.extend {v : Nat} (hi : Sink (desc t i)) (h : Reserves v s t) : Reserves v s (extend t i) := by
  obtain ⟨⟨m, e⟩, -⟩ := extend_turnKept hi
  rw [e]
  exact h.streams

end

end Sys2Proof.Machine

/-! PROOFS. A TILE or SPTILE from its checks to its place among the commands in flight (R178, R200, R208 to R211, R350). -/

namespace Sys2Proof.Machine

/-! ## The outputs of a tile command take its rows (R178) -/

/-- The output streams of a tile command can take output. -/
def TileSinks (s : State) (f : TileF) : Prop := Sink (desc s f.ostr) ∧ (f.osLen ≠ 0 → Sink (desc s f.oscl))

section
variable {s t : State} {v : Nat} {ws : List W64}

theorem orFail_eq_none {a b : Option Nat} : orFail a b = none ↔ a = none ∧ b = none := by
  cases a <;> simp [orFail]

theorem firstFail_eq_none {l : List (Bool × Nat)} : firstFail l = none ↔ ∀ p ∈ l, p.1 = false := by
  simp [firstFail]

theorem sink_of_outForm {i n : Nat} (hl : streamLive s i = true) (h : outFormBad s i n = false) : Sink (desc s i) := by
  unfold outFormBad at h
  simp only [hl, Bool.true_and, Bool.not_eq_false', Bool.or_eq_true, Bool.and_eq_true] at h
  rcases h with (h | h) | ⟨h, -⟩
  · exact .inl h
  · exact .inr (.inl h)
  · exact .inr (.inr h)

/-- The streams that a command uses run or have ended. -/
theorem streamLive_of_uses {us : List (Nat × Nat)} (h : usesBad s v us = none) {u : Nat × Nat} (hu : u ∈ us) :
    streamLive s u.1 = true := by
  have good := firstFail_eq_none.mp h _ List.mem_cons_self
  have hub : useBad s v u = false := by simpa using (List.any_eq_false.mp good) u hu
  unfold useBad at hub
  simp only [Bool.or_eq_false_iff] at hub
  simpa using hub.1.1.2

theorem tileUses_subset (s : State) (f : TileF) : tileUses f ⊆ allUses s f := by
  unfold allUses
  split
  · exact List.subset_append_right _ _
  · exact List.Subset.refl _

theorem scaled_of_osLen {f : TileF} (h : f.osLen ≠ 0) : (f.spill || decide (f.oof.scale = 0)) = false := by
  unfold TileF.osLen at h
  by_contra hc
  rw [Bool.not_eq_false] at hc
  exact h (if_pos hc)

theorem tileSinks_of_check (h : tileCheck s v ws = none) : TileSinks s (tileOf ws) := by
  unfold tileCheck at h
  simp only [orFail_eq_none] at h
  obtain ⟨forms, -, -, uses, -⟩ := h
  have forms := firstFail_eq_none.mp forms
  simp only [List.forall_mem_cons, List.not_mem_nil, false_implies, implies_true, and_true] at forms
  obtain ⟨-, -, -, out, scl⟩ := forms
  refine ⟨sink_of_outForm (streamLive_of_uses uses (u := ((tileOf ws).ostr, if (tileOf ws).spill then 2 else 0)) (tileUses_subset s _ ?_)) out, fun hl => ?_⟩
  · exact List.mem_append_left _ (List.mem_append_right _ List.mem_cons_self)
  · have scaled := scaled_of_osLen hl
    refine sink_of_outForm (streamLive_of_uses uses (u := ((tileOf ws).oscl, 3)) (tileUses_subset s _ ?_)) (n := (tileOf ws).osTileMax) ?_
    · refine List.mem_append_right _ ?_
      rw [if_neg (by simpa using scaled)]
      exact List.mem_cons_self
    · simp only [Bool.or_eq_false_iff, decide_eq_false_iff_not] at scaled
      simpa [scaled] using scl

/-- The registers of streams are no books. -/
theorem bookReg_stream {a : Nat} (hlo : 0x30000 ≤ a) (hhi : a < 0x31000) : bookReg a = false := by
  have veins : (List.range 16).any (fun v => a == Reg.vnStat v || a == Reg.vnSeq v) = false := any_range_false fun v hv => by
    have : a ≠ Reg.vnStat v ∧ a ≠ Reg.vnSeq v := by unfold Reg.vnStat Reg.vnSeq; omega
    simp [this]
  have ne : a ≠ Reg.trmBudget ∧ a ≠ Reg.trmStat ∧ a ≠ Reg.errCnt ∧ a ≠ Reg.errCntCe ∧ a ≠ Reg.errAtn ∧
      a ≠ Reg.errSummary ∧ a ≠ Reg.errRingPtr ∧ ¬ Reg.errLast 0 ≤ a := by
    unfold Reg.trmBudget Reg.trmStat Reg.errCnt Reg.errCntCe Reg.errAtn Reg.errSummary Reg.errRingPtr Reg.errLast
    omega
  unfold bookReg errBook
  rw [veins]
  simp [ne]

theorem TileSinks.of_books (h : ∀ a, bookReg a = false → rd t a = rd s a) (hs : TileSinks s (tileOf ws)) :
    TileSinks t (tileOf ws) := by
  have lt (lo : Nat) : cf ws 3 lo 6 < 64 := Nat.mod_lt _ (by decide)
  unfold TileSinks
  have same {i : Nat} (hi : i < 64) : desc t i = desc s i := desc_congr (fun a hlo hhi => h a (bookReg_stream hlo hhi)) hi
  rw [same (i := (tileOf ws).ostr) (lt 24), same (i := (tileOf ws).oscl) (lt 30)]
  exact hs

end

/-! ## The places of a tile command (R85, R150, R169) -/

theorem Reserves.desc {s t : State} {v : Nat} (h : Reserves v s t) (i : Nat) : desc t i = desc s i := by
  unfold Machine.desc rd
  rw [h.regs]

/-- What is written of a vein beside its commands. -/
theorem Reserves.setVein {s t : State} {v : Nat} {x : VeinSt} (hx : x.jobs = (vein t v).jobs) (h : Reserves v s t) :
    Reserves v s (setVein t v x) := by
  refine h.trans ⟨veinOnly_setVein .., fun j hj => ⟨j, ?_, .rfl' j⟩⟩
  rw [vein_setVein_self, hx]
  exact hj

theorem reserveTile_reserves {s : State} {v seq : Nat} {f : TileF} (hf : TileSinks s f) :
    Reserves v s (reserveTile s v seq f) := by
  have h : Reserves v s s := .rfl' v s
  unfold reserveTile
  split
  · exact h
  extract_lets ha hw
  clear_value ha hw
  split
  extract_lets a1 a2 a3
  have h1 : Reserves v s a1 := h.reserve fun _ _ => ⟨rfl, rfl, rfl, rfl⟩
  clear_value a1
  have h2 : Reserves v s a2 := h1.reserve fun _ _ => ⟨rfl, rfl, rfl, rfl⟩
  clear_value a2
  have acts : Reserves v s a3 := .ite h2 h
  clear_value a3
  split
  extract_lets b1 b2 b3 b4 b5
  have h1 : Reserves v s b1 := acts.reserve fun _ _ => ⟨rfl, rfl, rfl, rfl⟩
  clear_value b1
  have weights : Reserves v s b2 := .ite (h1.reserve fun _ _ => ⟨rfl, rfl, rfl, rfl⟩) acts
  clear_value b2
  have partials : Reserves v s b3 := .ite (weights.reserve fun _ _ => ⟨rfl, rfl, rfl, rfl⟩) weights
  clear_value b3
  have outs : Reserves v s b4 := partials.reserve fun _ _ => ⟨rfl, rfl, rfl, rfl⟩
  clear_value b4
  have placed : Reserves v s b5 := outs.reserve fun _ _ => ⟨rfl, rfl, rfl, rfl⟩
  clear_value b5
  split
  · exact placed
  extract_lets c1 c2 c3 c4 c5 wrote marked c6 c7
  have h1 : Reserves v s c1 := placed.holdAll
  clear_value c1
  have h2 : Reserves v s c2 := .ite (.ite h1 h1.holdAll) placed
  clear_value c2
  have h3 : Reserves v s c3 := h2.holdAll
  clear_value c3
  have h4 : Reserves v s c4 := .ite (.ite h3 h3.holdAll) h2
  clear_value c4
  have h5 : Reserves v s c5 := .ite h4.holdAll h4
  clear_value c5 wrote
  have h6 : Reserves v s c6 := h5.setVein rfl
  clear_value c6
  have room : Sink (desc c6 f.ostr) := (h6.desc f.ostr).symm ▸ hf.1
  have h7 : Reserves v s c7 := h6.extend room
  clear_value c7
  split
  · exact h7
  next hl =>
    have room : Sink (desc c7 f.oscl) := (h7.desc f.oscl).symm ▸ hf.2 hl
    exact h7.extend room

end Sys2Proof.Machine

/-! PROOFS. TILE and SPTILE at the head of their vein (R106, R107, R200, R202, R210, R225, R350): the cases of their issue,
one lemma for each, and the statement that gathers them. -/

namespace Sys2Proof.Machine

/-! ## What a started command leaves as it was -/

/-- From s to t no register has changed but the books, and no byte of Mica beyond the error ring. -/
structure DataKept (s t : State) : Prop where
  regs : ∀ a, bookReg a = false → rd t a = rd s a
  mica : ∀ x, ringByte s x = false → micaByte t x = micaByte s x

section
variable {s t u : State} {R : Nat → Bool} {v w : Nat}

theorem dataKept_of_books (h : Books bookReg s t) : DataKept s t := ⟨h.regs, h.mica⟩

theorem DataKept.ringByte_eq (h : DataKept s t) (x : Nat) : ringByte t x = ringByte s x := by
  unfold ringByte flag fld
  rw [h.regs _ bookReg_covers.ring]

theorem DataKept.trans (h : DataKept s t) (k : DataKept t u) : DataKept s u :=
  ⟨fun a ha => (k.regs a ha).trans (h.regs a ha),
    fun x hx => (k.mica x ((h.ringByte_eq x).trans hx)).trans (h.mica x hx)⟩

theorem dataKept_of_eq (hr : t.regs = s.regs) (hm : t.mica = s.mica) : DataKept s t :=
  ⟨fun a _ => by unfold rd; rw [hr], fun x _ => by unfold micaByte; rw [hm]⟩

/-! ### The arrays wake, and nothing else -/

theorem wakeAll_rest (s : State) (as : List Nat) : { wakeAll s as with arrays := s.arrays } = s :=
  wakeArray_wakes.foldl_rest as s

theorem wakeAll_regs (s : State) (as : List Nat) : (wakeAll s as).regs = s.regs :=
  (congrArg State.regs (wakeAll_rest s as) :)

theorem wakeAll_mica (s : State) (as : List Nat) : (wakeAll s as).mica = s.mica :=
  (congrArg State.mica (wakeAll_rest s as) :)

theorem vein_wakeAll (s : State) (as : List Nat) (v : Nat) : vein (wakeAll s as) v = vein s v :=
  (congrArg (vein · v) (wakeAll_rest s as) :)

theorem rd_wakeAll (s : State) (as : List Nat) (a : Nat) : rd (wakeAll s as) a = rd s a :=
  (congrArg (rd · a) (wakeAll_rest s as) :)

theorem pgtRaw_wakeAll (s : State) (as : List Nat) (g : Nat) : pgtRaw (wakeAll s as) g = pgtRaw s g :=
  (congrArg (pgtRaw · g) (wakeAll_rest s as) :)

/-! ### The command leaves the prefetch -/

theorem startIssue_regs (s : State) (v : Nat) (c : Cmd) : (startIssue s v c).regs = s.regs := by
  obtain ⟨g, j, -, e⟩ := leavePrefetch_eq s v c
  exact (congrArg State.regs e :)

theorem startIssue_mica (s : State) (v : Nat) (c : Cmd) : (startIssue s v c).mica = s.mica := by
  obtain ⟨g, j, -, e⟩ := leavePrefetch_eq s v c
  exact (congrArg State.mica e :)

theorem arr_startIssue (s : State) (v : Nat) (c : Cmd) (a : Nat) : arr (startIssue s v c) a = arr s a := by
  obtain ⟨g, j, -, e⟩ := leavePrefetch_eq s v c
  exact (congrArg (arr · a) e :)

theorem rd_startIssue (s : State) (v : Nat) (c : Cmd) (a : Nat) : rd (startIssue s v c) a = rd s a := by
  unfold rd
  rw [startIssue_regs]

theorem vein_startIssue_ne {c : Cmd} (hw : w ≠ v) : vein (startIssue s v c) w = vein s w :=
  (vein_startIssue ..).trans (vein_leavePrefetch_ne hw)

theorem vein_startIssue_self (s : State) (v : Nat) (c : Cmd) : ∃ g j, Issued c j ∧ vein (startIssue s v c) v =
    leftVein s v g (if (vein s v).retry then j :: (vein s v).jobs else (vein s v).jobs ++ [j]) :=
  vein_leavePrefetch_self

/-- The command is among those in flight. -/
theorem startIssue_issued (s : State) (v : Nat) (c : Cmd) : ∃ j ∈ (vein (startIssue s v c) v).jobs, Issued c j := by
  obtain ⟨g, j, hj, e⟩ := vein_startIssue_self s v c
  refine ⟨j, ?_, hj⟩
  rw [e]
  unfold leftVein
  dsimp only
  split
  · exact List.mem_cons_self
  · exact List.mem_append_right _ List.mem_cons_self

/-- With nothing in flight before it, it is the only one. -/
theorem startIssue_alone {c : Cmd} (h : (vein s v).jobs = []) : ∃ g j, Issued c j ∧
    vein (startIssue s v c) v = leftVein s v g [j] := by
  obtain ⟨g, j, hj, e⟩ := vein_startIssue_self s v c
  refine ⟨g, j, hj, ?_⟩
  rw [e, h]
  split <;> rfl

end

/-! ## A tile command starts (R202, R208, R210) -/

/-- A tile command in flight, its vein not yet refreshed. -/
def tileStarted (v : Nat) (c : Cmd) (s : State) (as : List Nat) : State :=
  let s := startIssue s v c
  reserveTile (updJob s v (cmdSeq c.words) (latchTile s (tileOf c.words) as)) v (cmdSeq c.words) (tileOf c.words)

/-- The parameter group of a tile command is frozen (R210). -/
def tileFrozen (s : State) (c : Cmd) : Bool :=
  (tileOf c.words).wgrad && pgtFrozen (pgtRaw s (tileOf c.words).pgroup)

/-- A tile command whose arrays it has. -/
def startTile (v : Nat) (c : Cmd) (s : State) (as : List Nat) : State :=
  if tileFrozen s c then issueNow s v c (fun s => frozenSkip s v (cmdSeq c.words))
  else afterIssue (refreshVein (tileStarted v c s as) v) v

section
variable {s : State} {v w : Nat} {c : Cmd} {as : List Nat}

/-- A tile command that passes its checks claims its arrays. -/
theorem issueTile_claims {op : Nat} (hh : Head s v c op) (hc : tileCheck s v c.words = none) (pick : Nat) :
    ∃ u, FallbackShown s u ∧ (isFiller s (vTenant s v) = false → u = s) ∧ issueTile s v op pick =
      claimThen u v c (tileOf c.words).share pick (fun n => !(tileOf c.words).fits n) (startTile v c) :=
  issueWith_go hh hc

theorem tileStarted_reserves (hs : TileSinks s (tileOf c.words)) : Reserves v
    (updJob (startIssue s v c) v (cmdSeq c.words) (latchTile (startIssue s v c) (tileOf c.words) as))
    (tileStarted v c s as) :=
  reserveTile_reserves (hs.of_books fun a _ => rd_startIssue s v c a)

theorem tileStarted_others (hs : TileSinks s (tileOf c.words)) (hw : w ≠ v) :
    vein (tileStarted v c s as) w = vein s w :=
  ((tileStarted_reserves hs).others w hw).trans (((veinOnly_updJob ..).others w hw).trans (vein_startIssue_ne hw))

theorem tileStarted_data (hs : TileSinks s (tileOf c.words)) : DataKept s (tileStarted v c s as) :=
  dataKept_of_eq ((tileStarted_reserves hs).regs.trans (startIssue_regs s v c))
    ((tileStarted_reserves hs).mica.trans (startIssue_mica s v c))

theorem arr_tileStarted (hs : TileSinks s (tileOf c.words)) (a : Nat) : arr (tileStarted v c s as) a = arr s a := by
  have placed : arr (tileStarted v c s as) a = arr (startIssue s v c) a := by
    unfold arr
    rw [(tileStarted_reserves hs).arrays]
    rfl
  exact placed.trans (arr_startIssue s v c a)

/-- It is in flight and holds its arrays. -/
theorem tileStarted_holds (hs : TileSinks s (tileOf c.words)) : ∃ j ∈ (vein (tileStarted v c s as) v).jobs,
    j.op = cmdOp c.words ∧ j.seq = cmdSeq c.words ∧ j.arrays = as ∧ j.done = false := by
  obtain ⟨j, hj, hop, hseq, hdone, -⟩ := startIssue_issued s v c
  have latched : latchTile (startIssue s v c) (tileOf c.words) as j ∈
      (vein (updJob (startIssue s v c) v (cmdSeq c.words) (latchTile (startIssue s v c) (tileOf c.words) as)) v).jobs := by
    rw [jobs_updJob_self]
    exact List.mem_map.mpr ⟨j, hj, if_pos (by simp [hseq])⟩
  obtain ⟨k, hk, op, seq, arrays, done⟩ := (tileStarted_reserves hs).jobs _ latched
  exact ⟨k, hk, op.trans hop, seq.trans hseq, arrays, done.trans hdone⟩

theorem startTile_books (hv : v < 16) (hf : tileFrozen s c = false) :
    Books bookReg (tileStarted v c s as) (startTile v c s as) := by
  unfold startTile
  rw [hf]
  exact afterIssue_book bookReg_covers hv (refreshVein_book bookReg_covers hv (book_refl _))

theorem jobs_startTile (hf : tileFrozen s c = false) (w : Nat) :
    (vein (startTile v c s as) w).jobs = (vein (tileStarted v c s as) w).jobs := by
  unfold startTile
  rw [hf]
  exact (jobs_afterIssue ..).trans (jobs_refreshVein ..)

theorem jobs_frozenSkip_ne {seq : Nat} (hw : w ≠ v) : (vein (frozenSkip s v seq) w).jobs = (vein s w).jobs :=
  jobs_updJob_ne hw

/-- The commands of other veins stay in flight as they were. -/
theorem jobs_startTile_ne (hs : TileSinks s (tileOf c.words)) (hw : w ≠ v) :
    (vein (startTile v c s as) w).jobs = (vein s w).jobs := by
  cases hf : tileFrozen s c with
  | false => rw [jobs_startTile hf, tileStarted_others hs hw]
  | true =>
    unfold startTile issueNow completeNow
    rw [hf, if_pos rfl, jobs_afterIssue, jobs_completeJob_ne hw, jobs_frozenSkip_ne hw, vein_startIssue_ne hw]

end

/-! ## A frozen group skips the command (R210, R350) -/

section
variable {s : State} {v : Nat} {c : Cmd} {as : List Nat}

/-- The command skipped, before it completes. -/
def tileSkipped (v : Nat) (c : Cmd) (s : State) : State := frozenSkip (startIssue s v c) v (cmdSeq c.words)

theorem startTile_frozen (hf : tileFrozen s c = true) :
    startTile v c s as = afterIssue (completeJob (tileSkipped v c s) v (cmdSeq c.words)) v := if_pos hf

theorem vTenant_startIssue : vTenant (startIssue s v c) v = vTenant s v := fld_congr (rd_startIssue ..)

theorem vTenant_lt (s : State) (v : Nat) : vTenant s v < 4 := Nat.mod_lt _ (by decide)

theorem bookReg_numFrozen : ∀ n < 4, bookReg (Reg.numFrozen n) = false := by decide

theorem rd_tileSkipped {a : Nat} (ha : a ≠ Reg.numFrozen (vTenant s v)) : rd (tileSkipped v c s) a = rd s a := by
  have skipped : rd (tileSkipped v c s) a = rd (startIssue s v c) a := by
    refine rd_setFld_ne _ _ _ ?_
    rw [vTenant_startIssue]
    exact ha.symm
  exact skipped.trans (rd_startIssue ..)

theorem tileSkipped_counts : fld (tileSkipped v c s) (Reg.numFrozen (vTenant s v)) Fl.numFrozen_COUNT =
    (fld s (Reg.numFrozen (vTenant s v)) Fl.numFrozen_COUNT + 1) % 2 ^ Fl.numFrozen_COUNT.width := by
  have counted : fld (tileSkipped v c s) (Reg.numFrozen (vTenant (startIssue s v c) v)) Fl.numFrozen_COUNT = _ :=
    fld_setFld_self _ _ _ _ (by decide)
  rw [vTenant_startIssue] at counted
  rw [counted, fld_congr (rd_startIssue ..)]

theorem startTile_frozen_books (hv : v < 16) (hf : tileFrozen s c = true) :
    Books bookReg (tileSkipped v c s) (startTile v c s as) := by
  rw [startTile_frozen hf]
  exact afterIssue_book bookReg_covers hv (completeJob_book bookReg_covers hv (bookReg_seq hv) (book_refl _))

end

/-! ## A condition of a command that is alone in flight (R226) -/

section
variable {s : State} {v code : Nat} {c : Cmd} {j : Job}

theorem vein_updJob_self (s : State) (v seq : Nat) (f : Job → Job) : vein (updJob s v seq f) v =
    { vein s v with jobs := (vein s v).jobs.map fun j => if j.seq == seq then f j else j } := vein_setVein_self ..

/-- A command as it leaves the prefetch, with a condition that it met. -/
def Job.met (j : Job) (code : Nat) : Job := { j with conds := j.conds ++ [code] }

/-- No condition of a command that has just left the prefetch halts. -/
theorem Issued.conds_pass (hj : Issued c j) : j.conds.filter (condHalts j) = [] := by
  refine List.filter_eq_nil_iff.mpr fun x hx => ?_
  rw [hj.conds x hx]
  exact Bool.false_ne_true

theorem Issued.jobHalts_met (hj : Issued c j) : jobHalts (j.met code) = condHalts j code := by
  have old : j.conds.any (condHalts j) = false :=
    List.any_eq_false.mpr fun x hx h => List.not_mem_nil (hj.conds_pass ▸ List.mem_filter.mpr ⟨hx, h⟩)
  show (j.conds ++ [code]).any (condHalts j) = _
  simp [old]

theorem Issued.jobHaltStat_met (hj : Issued c j) (h : condHalts j code = true) : jobHaltStat (j.met code) = code := by
  show maxOf ((j.conds ++ [code]).filter (condHalts j)) = _
  rw [List.filter_append, hj.conds_pass, List.filter_cons_of_pos h]
  exact Nat.zero_max code

theorem vein_addCond_alone {x : VeinSt} (hx : vein s v = x) (hj : Issued c j) (alone : x.jobs = [j])
    (hn : code ≠ St.frameOverrun) : vein (addCond s v (cmdSeq c.words) code) v = { x with jobs := [j.met code] } := by
  have new : ¬ j.conds.contains code = true := by
    rw [List.contains_iff_mem]
    exact fun h => hn (hj.conds code h)
  have met : (if j.seq == cmdSeq c.words then
      (if j.conds.contains code then j else { j with conds := j.conds ++ [code] }) else j) = j.met code :=
    (if_pos (beq_iff_eq.mpr hj.seq)).trans (if_neg new)
  rw [show vein (addCond s v _ code) v = _ from vein_updJob_self .., hx, alone]
  exact congrArg (fun k => { x with jobs := [k] }) met

theorem cmdSeq_lt (ws : List W64) : cmdSeq ws < 2 ^ 32 := Nat.mod_lt _ (by decide)

/-- A tile command of a frozen group that has nothing before it retires. -/
theorem startTile_retires {as : List Nat} (hv : v < 16) (hf : tileFrozen s c = true) :
    Retired s (startTile v c s as) v c := by
  intro none
  obtain ⟨g, j, hj, hx⟩ := startIssue_alone (c := c) none
  have alone := congrArg VeinSt.jobs (vein_addCond_alone (code := St.frozenSkipped)
    (s := incFld (startIssue s v c) (Reg.numFrozen (vTenant (startIssue s v c) v)) Fl.numFrozen_COUNT 1)
    (v := v) hx hj rfl (by decide))
  have halts : jobHalts (j.met St.frozenSkipped) = false := hj.jobHalts_met
  have shown := completeJob_retires hv alone halts
  rw [show (j.met St.frozenSkipped).seq = cmdSeq c.words from hj.seq, Nat.mod_eq_of_lt (cmdSeq_lt _)] at shown
  have covers := bookButSeq_covers hv
  rw [startTile_frozen hf]
  exact (fld_congr (rd_vnSeq_of_books (afterIssue_book covers hv (book_refl _)))).trans shown

/-! ### A refusal (R200) -/

theorem rd_leavePrefetch (s : State) (v : Nat) (c : Cmd) (a : Nat) : rd (leavePrefetch s v c) a = rd s a :=
  rd_startIssue s v c a

/-- A vein that issues is READY, or in WAIT. -/
theorem vState_of_issuable (h : issuable s v = true) : vState s v = Vs.ready ∨ vState s v = Vs.wait := by
  unfold issuable at h
  simp only [Bool.and_eq_true, Bool.or_eq_true, beq_iff_eq] at h
  exact h.2.imp_right And.left

theorem refuse_claimShort (s : State) (v : Nat) (c : Cmd) : refuse s v c St.claimShort =
    completeJob (addCond (leavePrefetch s v c) v (cmdSeq c.words) St.claimShort) v (cmdSeq c.words) := rfl

/-- A refusal with nothing before it halts its vein. -/
theorem refuse_halts (hv : v < 16) (none : (vein s v).jobs = []) (hf : (vein s v).fenced = false)
    (hs : (vein s v).suspended = false) (hst : vState s v = Vs.ready ∨ vState s v = Vs.wait) :
    HaltedWith (refuse s v c St.claimShort) v St.claimShort := by
  obtain ⟨g, j, hj, hx⟩ := startIssue_alone (c := c) none
  have met := vein_addCond_alone (code := St.claimShort) (s := leavePrefetch s v c) hx hj rfl (by decide)
  have halts : jobHalts (j.met St.claimShort) = true := hj.jobHalts_met
  have stays : vState (addCond (leavePrefetch s v c) v (cmdSeq c.words) St.claimShort) v = vState s v :=
    fld_congr (rd_leavePrefetch s v c _)
  have ended := completeJob_halts hv (congrArg VeinSt.jobs met) halts (by rw [stays]; exact hst)
    ((congrArg VeinSt.fenced met).trans hf) ((congrArg VeinSt.suspended met).trans hs) (congrArg VeinSt.waitOn met)
  rw [hj.jobHaltStat_met (code := St.claimShort) rfl, show (j.met St.claimShort).seq = cmdSeq c.words from hj.seq] at ended
  rw [refuse_claimShort]
  exact ended

theorem refuse_books {s₀ : State} (hv : v < 16) (h : Books bookReg s₀ s) :
    Books bookReg { leftPrefetch s₀ v with trm := s₀.trm } (refuse s v c St.claimShort) := by
  rw [refuse_claimShort]
  exact completeJob_book bookReg_covers hv (bookReg_seq hv) (addCond_book (leftPrefetch_book h))

end

end Sys2Proof.Machine

/-! PROOFS. The claim of a TILE or SPTILE settled case by case (R106, R107, R200, R202, R203, R208 to R211, R225, R350,
R418). -/

namespace Sys2Proof.Machine

/-! ## The claim waits (R200, R203) -/

section
variable {s t u : State} {v op pick : Nat} {c : Cmd}

/-- The head command of the vein waits for arrays, and from s to t only books have changed. -/
def WaitsForArrays (s t : State) (v : Nat) : Prop := Books bookReg s t ∧ (vein t v).waitOn = 4

theorem headWaits_waits (hv : v < 16) (h : Books bookReg s u) : WaitsForArrays s (headWaits u v 4) v :=
  ⟨headWaits_book bookReg_covers hv h, waitOn_headWaits ..⟩

/-! ## Wakened arrays, as the claim leaves them (R106, R107) -/

/-- An array of s that t has woken: one whose switch was open waits, or alone closes its switch. -/
def Woken (s t : State) (a : Nat) : Prop :=
  match (arr s a).pow with
  | .idle => (arr t a).pow = .rampUp
  | .opened => (arr t a).pow = .waiting ∨ SoleClosing t a
  | .rampDown => (arr t a).pow = .full
  | q => (arr t a).pow = q

theorem SoleClosing.congr {a : Nat} (h : ∀ b, (arr t b).pow = (arr u b).pow) (k : SoleClosing u a) : SoleClosing t a :=
  ⟨(h a).trans k.1, fun b ne => by rw [h b]; exact k.2 b ne⟩

theorem woken_of_wakeAll {as : List Nat} (hn : as.Nodup) (h4 : ∀ a ∈ as, a < 4)
    (ht : ∀ b, (arr t b).pow = (arr (wakeAll s as) b).pow) {a : Nat} (ha : a ∈ as) : Woken s t a := by
  by_cases ho : (arr s a).pow = .opened
  · unfold Woken
    rw [ho]
    exact (wakeArray_wakes.opened_at (h4 a ha) hn ha ho).imp (ht a).trans (SoleClosing.congr ht)
  · have woken := (ht a).trans (wakeAll_pow hn ha ho)
    unfold wokenPow at woken
    unfold Woken
    cases hp : (arr s a).pow with
    | opened => exact absurd hp ho
    | idle | rampDown | full | waiting | closing | rampUp => simpa only [hp] using woken

end

/-! ## The cases of the issue -/

/-- The arrays that the claim of a tile command names. -/
def tileClaim (s : State) (c : Cmd) (pick : Nat) : List Nat := claimSet s (tileOf c.words).share pick

section
variable {s : State} {v op pick : Nat} {c : Cmd}

/-- With its arrays free the command starts, once they are awake. -/
theorem issueTile_free (hh : Head s v c op) (hc : tileCheck s v c.words = none) (has : tileClaim s c pick ≠ [])
    (hfit : (tileOf c.words).fits (tileClaim s c pick).length = true)
    (free : claimFree s (tileClaim s c pick) c.words = true) : ∃ u, FallbackShown s u ∧
      issueTile s v op pick = startTile v c (wakeAll u (tileClaim s c pick)) (tileClaim s c pick) := by
  obtain ⟨u, hu, -, e⟩ := issueTile_claims hh hc pick
  have as : claimSet u (tileOf c.words).share pick = tileClaim s c pick := hu.claimSet_eq ..
  refine ⟨u, hu, ?_⟩
  rw [e, claimThen_free (by rwa [as]) (by rw [as, hfit]; rfl) (by rw [as, hu.claimFree_eq, free]), as]

/-- Where it is no filler's, its claim preempts the fillers, and then waits or starts. -/
theorem issueTile_preempts (hh : Head s v c op) (hc : tileCheck s v c.words = none) (has : tileClaim s c pick ≠ [])
    (hfit : (tileOf c.words).fits (tileClaim s c pick).length = true)
    (held : claimFree s (tileClaim s c pick) c.words = false) (filler : isFiller s (vTenant s v) = false) :
    issueTile s v op pick =
      if claimFree (preemptFillers s (tileClaim s c pick)) (tileClaim s c pick) c.words then
        startTile v c (wakeAll (preemptFillers s (tileClaim s c pick)) (tileClaim s c pick)) (tileClaim s c pick)
      else headWaits (preemptFillers s (tileClaim s c pick)) v 4 := by
  obtain ⟨u, -, same, e⟩ := issueTile_claims hh hc pick
  rw [e, same filler]
  exact claimThen_preempts has (congrArg (!·) hfit) held filler

variable (hv : v < 16) (hh : Head s v c op) (hc : tileCheck s v c.words = none)
include hv hh hc

theorem issueTile_waits_unserved (has : tileClaim s c pick = []) : WaitsForArrays s (issueTile s v op pick) v := by
  obtain ⟨u, hu, -, e⟩ := issueTile_claims hh hc pick
  rw [e, claimThen_none ((hu.claimSet_eq ..).trans has)]
  exact headWaits_waits hv hu.books

theorem issueTile_short (has : tileClaim s c pick ≠ [])
    (hfit : (tileOf c.words).fits (tileClaim s c pick).length = false) (none : (vein s v).jobs = [])
    (hf : (vein s v).fenced = false) (hs : (vein s v).suspended = false) :
    Books bookReg { leftPrefetch s v with trm := s.trm } (issueTile s v op pick) ∧
      HaltedWith (issueTile s v op pick) v St.claimShort := by
  obtain ⟨u, hu, -, e⟩ := issueTile_claims hh hc pick
  have as : claimSet u (tileOf c.words).share pick = tileClaim s c pick := hu.claimSet_eq ..
  have stat : vState u v = vState s v := hu.fld_eq (by unfold Reg.trmStat Reg.vnStat; omega) _
  rw [e, claimThen_short (by rwa [as]) (by rw [as, hfit]; rfl)]
  refine ⟨refuse_books hv hu.books, refuse_halts hv ?_ ?_ ?_ ?_⟩
  · rw [hu.vein_eq, none]
  · rw [hu.vein_eq, hf]
  · rw [hu.vein_eq, hs]
  · rw [stat]
    exact vState_of_issuable hh.may

section
variable (has : tileClaim s c pick ≠ []) (hfit : (tileOf c.words).fits (tileClaim s c pick).length = true)
  (held : claimFree s (tileClaim s c pick) c.words = false)
include has hfit held

theorem issueTile_filler_waits (filler : isFiller s (vTenant s v) = true) : WaitsForArrays s (issueTile s v op pick) v := by
  obtain ⟨u, hu, -, e⟩ := issueTile_claims hh hc pick
  have as : claimSet u (tileOf c.words).share pick = tileClaim s c pick := hu.claimSet_eq ..
  have mine : isFiller u (vTenant u v) = true := by
    rw [hu.vTenant_eq hv, hu.isFiller_eq (lt_trans (vTenant_lt s v) (by decide)), filler]
  rw [e, claimThen_filler (by rwa [as]) (by rw [as, hfit]; rfl) (by rw [as, hu.claimFree_eq, held]) mine]
  exact headWaits_waits hv hu.books

theorem issueTile_waits (only : isFiller s (vTenant s v) = true ∨
    ∀ p ∈ allJobs s, fillerOf s (tileClaim s c pick) p = false) : WaitsForArrays s (issueTile s v op pick) v := by
  cases filler : isFiller s (vTenant s v) with
  | true => exact issueTile_filler_waits hv hh hc has hfit held filler
  | false =>
    have alone := only.resolve_left (by simp [filler])
    rw [issueTile_preempts hh hc has hfit held filler, preemptFillers_none alone, held]
    exact headWaits_waits hv (book_refl s)

omit hv in
/-- A filler's command of another vein that holds arrays of the set is preempted, whether the claim then waits or not. -/
theorem issueTile_marks (filler : isFiller s (vTenant s v) = false) {p : Nat × Job} (hp : p ∈ allJobs s)
    (hf : fillerOf s (tileClaim s c pick) p = true) (hpv : p.1 ≠ v)
    (sole : ∀ q ∈ (vein s p.1).jobs, q.seq = p.2.seq → q = p.2) :
    preempted p.2 p.2 ∈ (vein (issueTile s v op pick) p.1).jobs := by
  have marked := preemptFillers_marks hp hf sole
  rw [issueTile_preempts hh hc has hfit held filler]
  split
  · have sinks : TileSinks (wakeAll (preemptFillers s (tileClaim s c pick)) (tileClaim s c pick)) (tileOf c.words) :=
      (tileSinks_of_check hc).of_books fun a ha => (rd_wakeAll ..).trans ((preemptFillers_book s _).regs a ha)
    rw [jobs_startTile_ne sinks hpv, vein_wakeAll]
    exact marked
  · rw [jobs_headWaits]
    exact marked

end

end

/-! ## A command that has its arrays (R202, R208, R210) -/

section
variable {s u : State} {v op pick : Nat} {c : Cmd} {as : List Nat}

theorem tileSinks_awake (hu : FallbackShown s u) (hc : tileCheck s v c.words = none) (as : List Nat) :
    TileSinks (wakeAll u as) (tileOf c.words) :=
  (tileSinks_of_check hc).of_books fun a ha => (rd_wakeAll u as a).trans (hu.books.regs a ha)

theorem tileFrozen_awake (hu : FallbackShown s u) (as : List Nat) : tileFrozen (wakeAll u as) c = tileFrozen s c := by
  unfold tileFrozen
  rw [pgtRaw_wakeAll, hu.pgtRaw_eq]

theorem dataKept_awake (hu : FallbackShown s u) (as : List Nat) : DataKept s (wakeAll u as) :=
  (dataKept_of_books hu.books).trans (dataKept_of_eq (wakeAll_regs ..) (wakeAll_mica ..))

/-- From s to t the command of vein v has taken the arrays as, and woken them. -/
structure TileTaken (s t : State) (v : Nat) (c : Cmd) (as : List Nat) : Prop where
  held   : ∃ j ∈ (vein t v).jobs, j.op = cmdOp c.words ∧ j.seq = cmdSeq c.words ∧ j.arrays = as ∧ j.done = false
  awake  : ∀ a ∈ as, Woken s t a
  kept   : ∀ a ∈ as, (arr t a).gap = (arr s a).gap ∧ (arr t a).preramp = (arr s a).preramp ∧
    (arr t a).resident = (arr s a).resident
  closes : (∃ a ∈ as, (arr s a).pow = .opened) → ∃ b < 4, (arr t b).pow = .closing
  apart  : ∀ a, a ∉ as → arrPlain (arr t a) = arrPlain (arr s a)
  data   : DataKept s t

/-- An array of the started command is as its waking left it, the clocks of its admission apart. -/
theorem arrPlain_startTile (hv : v < 16) (hs : TileSinks s (tileOf c.words)) (hf : tileFrozen s c = false) (a : Nat) :
    arrPlain (arr (startTile v c s as) a) = arrPlain (arr s a) :=
  ((startTile_books hv hf).arrays a).trans (congrArg arrPlain (arr_tileStarted hs a))

theorem startTile_takes (hv : v < 16) (hu : FallbackShown s u) (hc : tileCheck s v c.words = none)
    (hf : tileFrozen s c = false) (hn : as.Nodup) (h4 : ∀ a ∈ as, a < 4) :
    TileTaken s (startTile v c (wakeAll u as) as) v c as := by
  have sinks := tileSinks_awake hu hc as
  have live : tileFrozen (wakeAll u as) c = false := (tileFrozen_awake hu as).trans hf
  have plain := arrPlain_startTile (as := as) hv sinks live
  have pow (a : Nat) : (arr (startTile v c (wakeAll u as) as) a).pow = (arr (wakeAll u as) a).pow :=
    (congrArg ArrSt.pow (plain a) :)
  refine ⟨?_, fun a ha => ?_, fun a ha => ?_, fun opened => ?_, fun a ha => ?_, ?_⟩
  · rw [jobs_startTile live]
    exact tileStarted_holds sinks
  · have woken := woken_of_wakeAll hn h4 pow ha
    unfold Woken at woken ⊢
    rwa [hu.arr_eq] at woken
  · obtain ⟨gap, preramp, resident⟩ := wakeAll_keeps (s := u) hn ha
    rw [hu.arr_eq] at gap preramp resident
    exact ⟨(congrArg ArrSt.gap (plain a)).trans gap, (congrArg ArrSt.preramp (plain a)).trans preramp,
      (congrArg ArrSt.resident (plain a)).trans resident⟩
  · simp only [← hu.arr_eq] at opened
    obtain ⟨b, hb, closes⟩ := switching_iff.mp ((wakeArray_wakes.switching_foldl hn h4 u).mpr (.inr opened))
    exact ⟨b, hb, (pow b).trans closes⟩
  · rw [plain a, ← hu.arr_eq a]
    exact congrArg arrPlain (wakeArray_wakes.foldl_other ha u)
  · exact (dataKept_awake hu as).trans ((tileStarted_data sinks).trans (dataKept_of_books (startTile_books hv live)))

theorem mem_tileClaim_lt (hp : pick < 4) : ∀ a ∈ tileClaim s c pick, a < 4 := fun _ => claimSet_lt hp

theorem issueTile_takes (hv : v < 16) (hp : pick < 4) (hh : Head s v c op) (hc : tileCheck s v c.words = none)
    (has : tileClaim s c pick ≠ []) (hfit : (tileOf c.words).fits (tileClaim s c pick).length = true)
    (free : claimFree s (tileClaim s c pick) c.words = true) (hf : tileFrozen s c = false) :
    TileTaken s (issueTile s v op pick) v c (tileClaim s c pick) := by
  obtain ⟨u, hu, e⟩ := issueTile_free hh hc has hfit free
  rw [e]
  exact startTile_takes hv hu hc hf (nodup_claimSet ..) (mem_tileClaim_lt hp)

/-! ## A command of a frozen group (R210, R350) -/

theorem issueTile_skips (hv : v < 16) (hh : Head s v c op) (hc : tileCheck s v c.words = none)
    (has : tileClaim s c pick ≠ []) (hfit : (tileOf c.words).fits (tileClaim s c pick).length = true)
    (free : claimFree s (tileClaim s c pick) c.words = true) (hf : tileFrozen s c = true) :
    Retired s (issueTile s v op pick) v c ∧
      fld (issueTile s v op pick) (Reg.numFrozen (vTenant s v)) Fl.numFrozen_COUNT =
        (fld s (Reg.numFrozen (vTenant s v)) Fl.numFrozen_COUNT + 1) % 2 ^ Fl.numFrozen_COUNT.width ∧
      ∀ a, bookReg a = false → a ≠ Reg.numFrozen (vTenant s v) → rd (issueTile s v op pick) a = rd s a := by
  obtain ⟨u, hu, e⟩ := issueTile_free hh hc has hfit free
  have frozen : tileFrozen (wakeAll u (tileClaim s c pick)) c = true := (tileFrozen_awake hu _).trans hf
  have data := dataKept_awake hu (tileClaim s c pick)
  have jobs : vein (wakeAll u (tileClaim s c pick)) v = vein s v := (vein_wakeAll ..).trans (hu.vein_eq v)
  have tenant : vTenant (wakeAll u (tileClaim s c pick)) v = vTenant s v :=
    (fld_congr (rd_wakeAll ..)).trans (hu.vTenant_eq hv)
  have ended := startTile_frozen_books (as := tileClaim s c pick) hv frozen
  have noBook := bookReg_numFrozen _ (vTenant_lt s v)
  rw [e]
  generalize wakeAll u (tileClaim s c pick) = w at frozen data jobs tenant ended ⊢
  refine ⟨fun none => startTile_retires hv frozen (by rw [jobs, none]), ?_, fun a ha ne => ?_⟩
  · rw [fld_congr (ended.regs _ noBook), ← tenant, tileSkipped_counts, tenant, fld_congr (data.regs _ noBook)]
  · rw [ended.regs a ha, rd_tileSkipped (by rwa [tenant]), data.regs a ha]

/-! ## A TILE or SPTILE in its turn (R200, R269) -/

theorem exec_tileInstr {v : Fin 16} {pick : Fin 4} {i : Instr}
    (hi : i = .tile v pick ∧ op = 0x01 ∨ i = .sptile v pick ∧ op = 0x02) (hh : Head s v c op) :
    exec i s = .next (issueTile s v op pick) := by
  have turn : ¬ outranked s v = true := by simp [hh.turn]
  rcases hi with ⟨rfl, rfl⟩ | ⟨rfl, rfl⟩
  · exact if_neg turn
  · exact if_neg turn

/-- What preemption leaves of the command it meets. -/
theorem preempted_self (p : Job) : (preempted p p).seq = p.seq ∧
    if (p.op = 4 ∨ p.op = 0x15) ∧ p.beat = 0 then (preempted p p).arrays = [] ∧ (preempted p p).spilled = true
    else (preempted p p).arrays = p.arrays ∧ (preempted p p).preempt = true := by
  refine ⟨preempted_seq p p, ?_⟩
  unfold preempted
  split
  next h => rw [if_pos (by simpa using h)]; exact ⟨rfl, rfl⟩
  next h => rw [if_neg (by simpa using h)]; exact ⟨rfl, rfl⟩

end

end Sys2Proof.Machine

namespace Sys2Proof.Proofs

open Sys2Proof.Machine

/-- Settles O12: a claim waits, is refused, preempts, takes its arrays or is skipped, each case by its lemma. -/
theorem tileClaimsArrays : Obligations.TileClaimsArrays := by
  unfold Obligations.TileClaimsArrays
  intro s v pick c i op hi hh hc f as frozen filler closing woken
  have hv : v.val < 16 := v.isLt
  have run := exec_tileInstr hi hh
  have isFillerOf (p : Nat × Job) : fillerOf s as p = true ↔ filler p := fillerOf_iff
  refine ⟨fun has => ⟨_, run, issueTile_waits_unserved hv hh hc has⟩, fun has hfit held only => ?_,
    fun has hfit held mine p hp hf hpv sole => ?_, fun has hfit none hfen hsus => ?_, fun has hfit free hf => ?_,
    fun has hfit free hf => ⟨_, run, issueTile_skips hv hh hc has hfit free hf⟩⟩
  · refine ⟨_, run, issueTile_waits hv hh hc has hfit held (only.imp_right fun h p hp => ?_)⟩
    exact Bool.eq_false_iff.mpr fun e => h p hp ((isFillerOf p).mp e)
  · exact ⟨_, run, _, issueTile_marks hh hc has hfit held mine hp ((isFillerOf p).mpr hf) hpv sole, preempted_self p.2⟩
  · obtain ⟨books, halted, stat⟩ := issueTile_short hv hh hc has hfit none hfen hsus
    exact ⟨_, run, books, halted, stat⟩
  · obtain ⟨⟨j, hj, hop, rest⟩, awake, kept, closes, apart, regs, mica⟩ :=
      issueTile_takes hv pick.isLt hh hc has hfit free hf
    refine ⟨_, run, ⟨j, hj, hop.trans hh.op, rest⟩, fun a ha => ⟨awake a ha, kept a ha⟩, closes, apart, regs, mica⟩

end Sys2Proof.Proofs

/-! PROOFS. Requests of the stream engines (R148, R154, R413): room that is given before them, the next request of a
stream, and requests one after another. -/

namespace Sys2Proof.Machine

/-! ## Tags in use (R413) -/

section
variable {s t : State} {i p : Nat}

theorem mem_tagsUsed {g : Nat} : g ∈ tagsUsed s p ↔
    (∃ kx ∈ s.streams, (desc s kx.1).isDeep = true ∧ ∃ r ∈ kx.2.outst, r.port = p ∧ r.tag = g) ∨
      (p, g) ∈ s.lostTags ++ s.evacReqs := by
  unfold tagsUsed
  rw [List.mem_append, List.mem_flatMap, List.mem_filterMap]
  refine or_congr (exists_congr fun kx => and_congr_right fun _ => ?_) ?_
  · cases (desc s kx.1).isDeep with
    | false => simp
    | true => simp [List.mem_filterMap]
  · constructor
    · rintro ⟨⟨q, h⟩, hm, e⟩
      split at e
      next hq =>
        cases e
        exact (show q = p from hq) ▸ hm
      next => cases e
    · exact fun hm => ⟨_, hm, if_pos rfl⟩

theorem mapGet_mem {α : Type} {d : α} {m : List (Nat × α)} {k : Nat} (h : mapGet d m k ≠ d) :
    (k, mapGet d m k) ∈ m := by
  induction m with
  | nil => exact absurd rfl h
  | cons q m ih =>
    unfold mapGet at h ⊢
    split
    next e =>
      subst e
      exact List.mem_cons_self
    next e =>
      rw [if_neg e] at h
      exact List.mem_cons_of_mem _ (ih h)

/-- A stream with requests under way stands in the table of the streams. -/
theorem strm_mem {r : Req} (h : r ∈ (strm s i).outst) : (i, strm s i) ∈ s.streams :=
  mapGet_mem fun e => by
    rw [show strm s i = StreamSt.init from e] at h
    cases h

theorem tagsUsed_setStrm {x : StreamSt} (hx : x.outst = (strm s i).outst) {g : Nat}
    (h : g ∈ tagsUsed (setStrm s i x) p) : g ∈ tagsUsed s p := by
  refine mem_tagsUsed.mpr ((mem_tagsUsed.mp h).imp_left ?_)
  rintro ⟨kx, hk, hd, r, hr, e⟩
  rcases mem_mapIns.mp hk with rfl | hk
  · rw [hx] at hr
    exact ⟨_, strm_mem hr, hd, r, hr, e⟩
  · exact ⟨kx, (mem_mapDel.mp hk).1, hd, r, hr, e⟩

/-- A port keeps a free tag where no further tag is used. -/
theorem freeTag_stays (h : ∀ g, g ∈ tagsUsed t p → g ∈ tagsUsed s p) (hs : freeTag s p ≠ none) :
    freeTag t p ≠ none := by
  unfold freeTag at hs ⊢
  rw [Ne, List.find?_eq_none] at hs ⊢
  refine fun all => hs fun g hg => ?_
  have used := all g hg
  simp only [Bool.not_eq_true', Bool.not_eq_false, List.contains_iff_mem] at used ⊢
  exact h g used

/-! ## Room before the requests (R144, R149) -/

/-- From s to t only stream i has changed, and of it neither the sequences, nor what it has asked for, nor its requests;
no further tag is used. -/
structure Roomed (i : Nat) (s t : State) : Prop where
  only  : ∃ S, t = { s with streams := S }
  other : ∀ j, j ≠ i → strm t j = strm s j
  seqs  : (strm t i).seqs = (strm s i).seqs
  asked : (strm t i).asked = (strm s i).asked
  outst : (strm t i).outst = (strm s i).outst
  tags  : ∀ p g, g ∈ tagsUsed t p → g ∈ tagsUsed s p

theorem Roomed.rfl' (i : Nat) (s : State) : Roomed i s s :=
  ⟨⟨s.streams, rfl⟩, fun _ _ => rfl, rfl, rfl, rfl, fun _ _ => id⟩

theorem Roomed.trans {u : State} (h : Roomed i s t) (k : Roomed i t u) : Roomed i s u where
  only := by
    obtain ⟨S, rfl⟩ := h.only
    obtain ⟨T, rfl⟩ := k.only
    exact ⟨T, rfl⟩
  other j hj := (k.other j hj).trans (h.other j hj)
  seqs := k.seqs.trans h.seqs
  asked := k.asked.trans h.asked
  outst := k.outst.trans h.outst
  tags p g := h.tags p g ∘ k.tags p g

theorem Roomed.setStrm {x : StreamSt} (hs : x.seqs = (strm s i).seqs) (ha : x.asked = (strm s i).asked)
    (ho : x.outst = (strm s i).outst) : Roomed i s (setStrm s i x) where
  only := ⟨_, rfl⟩
  other j hj := by rw [strm_setStrm, if_neg (Ne.symm hj)]
  seqs := by rw [strm_setStrm_self, hs]
  asked := by rw [strm_setStrm_self, ha]
  outst := by rw [strm_setStrm_self, ho]
  tags _ _ := tagsUsed_setStrm ho

/-- The turn unit of the stream gives nothing up: it is empty, or the stream is outbound. -/
def TurnStill (s : State) (i : Nat) : Prop := (strm s i).turn = [] ∨ (desc s i).isOutbound = true

theorem turnOut_still (h : TurnStill s i) : turnOut s i = s := by
  rcases h with h | h
  · exact turnOut_empty h
  · exact if_pos (by simp [h])

/-- Room is given to the stream, and its turn unit keeps what it holds. -/
def RoomGiven (i : Nat) (s t : State) : Prop := Roomed i s t ∧ (strm t i).turn = (strm s i).turn

theorem RoomGiven.setStrm {x : StreamSt} (hs : x.seqs = (strm s i).seqs) (ha : x.asked = (strm s i).asked)
    (ho : x.outst = (strm s i).outst) (ht : x.turn = (strm s i).turn) : RoomGiven i s (setStrm s i x) :=
  ⟨.setStrm hs ha ho, by rw [strm_setStrm_self, ht]⟩

theorem RoomGiven.trans {u : State} (h : RoomGiven i s t) (k : RoomGiven i t u) : RoomGiven i s u :=
  ⟨h.1.trans k.1, k.2.trans h.2⟩

theorem RoomGiven.still (h : RoomGiven i s t) (hs : TurnStill s i) : TurnStill t i := by
  obtain ⟨⟨S, rfl⟩, _⟩ := h.1
  exact hs.imp_left h.2.trans

theorem RoomGiven.turnOut (h : RoomGiven i s t) (hs : TurnStill s i) : RoomGiven i s (turnOut t i) := by
  rw [turnOut_still (h.still hs)]
  exact h

theorem release_given (s : State) (i : Nat) : RoomGiven i s (release s i) := by
  unfold release
  extract_lets x
  split
  · exact ⟨.rfl' i s, rfl⟩
  · exact .setStrm rfl rfl rfl rfl

theorem extendOne_given (h : TurnStill s i) : RoomGiven i s (extendOne s i) := by
  unfold extendOne
  extract_lets d x
  split
  · exact ⟨.rfl' i s, rfl⟩
  · extract_lets p
    split
    · exact ⟨.rfl' i s, rfl⟩
    · split
      · exact .setStrm rfl rfl rfl rfl
      · split
        · exact ⟨.rfl' i s, rfl⟩
        · refine RoomGiven.turnOut ?_ h
          exact .setStrm rfl rfl rfl rfl

/-- Room of a stream whose turn unit gives nothing up ends no sequence. -/
theorem extend_given (h : TurnStill s i) : RoomGiven i s (extend s i) := by
  have given : RoomGiven i s (extendOne (extendOne (release s i) i) i) := by
    have one := (release_given s i).trans (extendOne_given ((release_given s i).still h))
    exact one.trans (extendOne_given (one.still h))
  have same : ((!(strm s i).turn.isEmpty) && (strm s i).turn.isEmpty) = false := by cases (strm s i).turn <;> rfl
  unfold extend
  extract_lets t
  have turn : (strm t i).turn = (strm s i).turn := given.2
  rw [turn, if_neg (by rw [same]; decide)]
  exact given

theorem turnRange_inbound (h : (desc s i).isOutbound = false) : (turnRange s i).2 = 0 := by
  unfold turnRange
  simp [h]

/-- No injector stands in the way of what a turn unit takes, or it takes nothing. -/
theorem turnFill_eq (h : injOff s ∨ (desc s i).isOutbound = false) : turnFill s i = turnIn s i := by
  unfold turnFill
  rcases h with h | h
  · simp [memArmed_off h]
  · simp [turnRange_inbound h]

theorem turnIn_roomed (s : State) (i : Nat) : Roomed i s (turnIn s i) := by
  unfold turnIn
  extract_lets x kept
  have hkept : Roomed i s kept := .setStrm rfl rfl rfl
  clear_value kept
  split
  exact hkept.trans (.setStrm rfl rfl rfl)

/-- What the turn unit of a stream holds after it has taken what it can: bytes that it held, and bytes of Mica. -/
theorem mem_turnIn {b : Nat × Byte × Bool} (h : b ∈ (strm (turnIn s i) i).turn) :
    b ∈ (strm s i).turn ∨ (desc s i).isOutbound = true ∧ (s.poison = [] → b.2.2 = false) := by
  unfold turnIn at h
  extract_lets x kept at h
  have keeps : ∀ c ∈ (strm kept i).turn, c ∈ (strm s i).turn := by
    unfold kept
    rw [strm_setStrm_self]
    dsimp only
    split
    · exact fun c hc => (List.mem_filter.mp hc).1
    · exact fun c hc => hc
  have none : (desc s i).isOutbound = false → (turnRange kept i).2 = 0 := turnRange_inbound (s := kept)
  have same : kept.poison = s.poison := rfl
  clear_value kept
  split at h
  next p n e =>
  rw [strm_setStrm_self] at h
  rcases List.mem_append.mp h with h | h
  · exact .inl (keeps b h)
  · right
    obtain ⟨k, hk, rfl⟩ := List.mem_map.mp h
    constructor
    · cases ho : (desc s i).isOutbound with
      | true => rfl
      | false =>
        rw [show n = 0 from (congrArg Prod.snd e).symm.trans (none ho)] at hk
        simp at hk
    · intro hp
      split
      · rw [same, hp]
        rfl
      · rfl

/-- The room that a transfer gives first: what the turn unit takes, and free halves. -/
def beforeTransfer (s : State) (i : Nat) : State := extend (turnFill s i) i

/-- The room of an inbound stream with nothing in its turn unit. -/
theorem beforeTransfer_inbound (ho : (desc s i).isOutbound = false) (ht : (strm s i).turn = []) :
    Roomed i s (beforeTransfer s i) ∧ (strm (beforeTransfer s i) i).turn = [] := by
  have hroom := turnIn_roomed s i
  have hempty : (strm (turnIn s i) i).turn = [] := List.eq_nil_iff_forall_not_mem.mpr fun b hb => by
    rcases mem_turnIn hb with h | ⟨h, _⟩
    · rw [ht] at h
      cases h
    · rw [ho] at h
      cases h
  obtain ⟨given, turn⟩ := extend_given (.inl hempty)
  unfold beforeTransfer
  rw [turnFill_eq (.inr ho)]
  exact ⟨hroom.trans given, turn.trans hempty⟩

/-- The room of an outbound stream; no byte in its turn unit is poisoned where none was, and no word of Mica is. -/
theorem beforeTransfer_outbound (ho : (desc s i).isOutbound = true) (hi : injOff s) (hp : s.poison = [])
    (ht : ∀ b ∈ (strm s i).turn, b.2.2 = false) :
    Roomed i s (beforeTransfer s i) ∧ ∀ b ∈ (strm (beforeTransfer s i) i).turn, b.2.2 = false := by
  have hroom := turnIn_roomed s i
  have hclean : ∀ b ∈ (strm (turnIn s i) i).turn, b.2.2 = false := fun b hb =>
    (mem_turnIn hb).elim (ht b) fun h => h.2 hp
  have still : TurnStill (turnIn s i) i := by
    obtain ⟨S, hS⟩ := hroom.only
    rw [hS]
    exact .inr ho
  obtain ⟨given, turn⟩ := extend_given still
  unfold beforeTransfer
  rw [turnFill_eq (.inl hi)]
  exact ⟨hroom.trans given, by rw [turn]; exact hclean⟩

end

end Sys2Proof.Machine

/-! PROOFS. Requests of the stream engines one after another, and the reads of an IN_DEEP stream (R148, R154, R413). -/

namespace Sys2Proof.Machine

/-! ## Steps that repeat -/

section
variable {α : Type} {f : State → State × Bool} {R : List α → State → Prop}
  (hf : ∀ rs t, R rs t → R rs (f t).1 ∨ ∃ r, R (rs ++ [r]) (f t).1)
include hf

/-- Where a step adds at most one to a list, steps that repeat only add to it. -/
theorem repeatWhile_collects {k : Nat} {rs : List α} {t : State} (h : R rs t) :
    ∃ qs, R qs (repeatWhile f k t) ∧ rs <+: qs := by
  induction k generalizing rs t with
  | zero => exact ⟨rs, h, List.prefix_refl rs⟩
  | succ k ih =>
    obtain ⟨qs, hq, hp⟩ : ∃ qs, R qs (f t).1 ∧ rs <+: qs := by
      rcases hf rs t h with h | ⟨r, h⟩
      · exact ⟨rs, h, List.prefix_refl rs⟩
      · exact ⟨_, h, List.prefix_append rs [r]⟩
    unfold repeatWhile
    split
    next u e =>
      rw [e] at hq
      obtain ⟨ps, h, hps⟩ := ih hq
      exact ⟨ps, h, hp.trans hps⟩
    next u e =>
      rw [e] at hq
      exact ⟨qs, hq, hp⟩

/-- And where the first step adds one, it stands first. -/
theorem repeatWhile_begins {k : Nat} {r : α} {s : State} (hk : k ≠ 0) (h : R [r] (f s).1) :
    ∃ qs, R qs (repeatWhile f k s) ∧ qs.head? = some r := by
  cases k with
  | zero => exact absurd rfl hk
  | succ k =>
    unfold repeatWhile
    split
    next u e =>
      rw [e] at h
      obtain ⟨qs, hq, hp⟩ := repeatWhile_collects hf (k := k) h
      obtain ⟨ps, rfl⟩ := hp
      exact ⟨_, hq, rfl⟩
    next u e =>
      rw [e] at h
      exact ⟨_, h, rfl⟩

/-- The list is empty only where the first step need not add to it. -/
theorem repeatWhile_adds {k : Nat} {s : State} {go : Prop} (h0 : R [] s)
    (hgo : go → k ≠ 0 ∧ ∃ r, R [r] (f s).1) : ∃ qs, R qs (repeatWhile f k s) ∧ (go → qs ≠ []) := by
  by_cases g : go
  · obtain ⟨hk, r, hr⟩ := hgo g
    obtain ⟨qs, hq, hh⟩ := repeatWhile_begins hf hk hr
    refine ⟨qs, hq, fun _ e => ?_⟩
    rw [e] at hh
    cases hh
  · obtain ⟨qs, hq, _⟩ := repeatWhile_collects hf (k := k) h0
    exact ⟨qs, hq, fun h => absurd h g⟩

end

/-! ## What a stream has asked for -/

section
variable {s t u : State} {i : Nat} {rs : List Req} {r : Req}

/-- Each request begins where the one before it ends. -/
def InOrder (a : Nat) (rs : List Req) : Prop := ∀ k r, rs[k]? = some r → r.pos = a + ((rs.take k).map (·.len)).sum

theorem InOrder.nil (a : Nat) : InOrder a [] := nofun

theorem InOrder.snoc {a : Nat} (h : InOrder a rs) (hr : r.pos = a + (rs.map (·.len)).sum) : InOrder a (rs ++ [r]) := by
  intro k q hq
  rcases Nat.lt_trichotomy k rs.length with hk | hk | hk
  · rw [List.getElem?_append_left hk] at hq
    rw [List.take_append_of_le_length (Nat.le_of_lt hk)]
    exact h k q hq
  · subst hk
    rw [List.getElem?_append_right (Nat.le_refl _), Nat.sub_self] at hq
    cases hq
    rw [List.take_left' rfl]
    exact hr
  · have out : (rs ++ [r])[k]? = none := List.getElem?_eq_none (by simp; omega)
    rw [out] at hq
    cases hq

/-- From s to t stream i has asked for, or sent, the bytes of the requests; other streams stand. -/
structure Ahead (i : Nat) (s t : State) (rs : List Req) : Prop where
  same  : { strm t i with asked := (strm s i).asked, outst := (strm s i).outst, rot := (strm s i).rot } = strm s i
  other : ∀ j, j ≠ i → strm t j = strm s j
  asked : (strm t i).asked = (strm s i).asked + (rs.map (·.len)).sum
  outst : (strm t i).outst = (strm s i).outst ++ rs
  order : InOrder (strm s i).asked rs

theorem Ahead.nil (i : Nat) (s : State) : Ahead i s s [] :=
  ⟨rfl, fun _ _ => rfl, rfl, (List.append_nil _).symm, .nil _⟩

/-- One request more. -/
theorem Ahead.next (h : Ahead i s t rs) (hr : r.pos = (strm t i).asked)
    (hu : ∀ j, strm u j = strm (askedMore t i r.len r) j) : Ahead i s u (rs ++ [r]) := by
  have hi : strm u i = { strm t i with asked := (strm t i).asked + r.len, outst := (strm t i).outst ++ [r],
                                       rot := (strm t i).rot + 1 } := (hu i).trans (strm_setStrm_self ..)
  refine ⟨?_, fun j hj => ?_, ?_, ?_, h.order.snoc (hr.trans h.asked)⟩
  · rw [hi]
    exact h.same
  · exact ((hu j).trans ((strm_setStrm ..).trans (if_neg (Ne.symm hj)))).trans (h.other j hj)
  · rw [hi, List.map_append, List.sum_append]
    show (strm t i).asked + r.len = _
    rw [h.asked]
    simp [Nat.add_assoc]
  · rw [hi]
    show (strm t i).outst ++ [r] = _
    rw [h.outst, List.append_assoc]

/-- From s to t stream i has asked for, or sent, the bytes of the requests, whatever room it has been given
meanwhile. -/
structure Asked (i : Nat) (s t : State) (rs : List Req) : Prop where
  other : ∀ j, j ≠ i → strm t j = strm s j
  asked : (strm t i).asked = (strm s i).asked + (rs.map (·.len)).sum
  outst : (strm t i).outst = (strm s i).outst ++ rs
  order : InOrder (strm s i).asked rs

theorem Ahead.between {v : State} (hs : Roomed i s t) (h : Ahead i t u rs) (hv : Roomed i u v) : Asked i s v rs where
  other j hj := (hv.other j hj).trans ((h.other j hj).trans (hs.other j hj))
  asked := by rw [hv.asked, h.asked, hs.asked]
  outst := by rw [hv.outst, h.outst, hs.outst]
  order := hs.asked ▸ h.order

theorem Ahead.seqs (h : Ahead i s t rs) : (strm t i).seqs = (strm s i).seqs := (congrArg StreamSt.seqs h.same :)
theorem Ahead.chunks (h : Ahead i s t rs) : (strm t i).chunks = (strm s i).chunks := (congrArg StreamSt.chunks h.same :)
theorem Ahead.turn (h : Ahead i s t rs) : (strm t i).turn = (strm s i).turn := (congrArg StreamSt.turn h.same :)

/-! ## The next request at a Deep port (R148, R413) -/

theorem desc_len0_pos (s : State) (i : Nat) : 0 < (desc s i).len0 := Nat.succ_pos _

theorem portBurst_pos (s : State) (p : Nat) : 0 < portBurst s p := by
  unfold portBurst
  rw [Nat.shiftLeft_eq]
  exact Nat.mul_pos (by decide) (Nat.two_pow_pos _)

theorem pieceLen_le (s : State) (i limit most : Nat) : pieceLen s i limit most ≤ most := by
  unfold pieceLen
  dsimp only
  split
  · exact Nat.zero_le _
  · exact (Nat.min_le_left ..).trans (Nat.min_le_left ..)

theorem pieceLen_pos {limit most : Nat} (hc : curSeq (strm s i) ≠ none) (ha : (strm s i).asked < limit)
    (hm : 0 < most) : 0 < pieceLen s i limit most := by
  unfold pieceLen
  dsimp only
  split
  next e => exact absurd e hc
  next q _ =>
    have run : ((strm s i).asked - q.start) % (desc s i).len0 < (desc s i).len0 := Nat.mod_lt _ (desc_len0_pos s i)
    omega

/-- The port whose turn it is. -/
def turnPort (s : State) (i : Nat) : Option Nat :=
  (deepPorts s (desc s i))[(strm s i).rot % max 1 (deepPorts s (desc s i)).length]?

theorem turnPort_mem {p : Nat} (h : turnPort s i = some p) : p ∈ deepPorts s (desc s i) := List.mem_of_getElem? h

theorem turnPort_ne_none (h : deepPorts s (desc s i) ≠ []) : turnPort s i ≠ none := by
  have pos := List.length_pos_iff.mpr h
  have lt : (strm s i).rot % max 1 (deepPorts s (desc s i)).length < (deepPorts s (desc s i)).length := by
    rw [Nat.max_eq_right pos]
    exact Nat.mod_lt _ pos
  unfold turnPort
  rw [List.getElem?_eq_getElem lt]
  nofun

theorem deepPorts_lt {d : Desc} {p : Nat} (h : p ∈ deepPorts s d) : p < 4 :=
  List.mem_range.mp (List.mem_filter.mp h).1

/-- The next request of a stream at a Deep port, up to a limit. -/
def nextReq (s : State) (i limit : Nat) : Option Req :=
  match turnPort s i with
  | none => none
  | some p =>
    match freeTag s p with
    | none => none
    | some g =>
      if pieceLen s i limit (portBurst s p) = 0 then none
      else some ⟨p, g, (strm s i).asked, pieceLen s i limit (portBurst s p)⟩

/-- A request is for bytes, goes to a port of the stream, and is within the port's burst. -/
def OnPort (s : State) (i : Nat) (r : Req) : Prop :=
  r.port ∈ deepPorts s (desc s i) ∧ 0 < r.len ∧ r.len ≤ portBurst s r.port

theorem nextReq_spec {limit : Nat} (h : nextReq s i limit = some r) : r.pos = (strm s i).asked ∧ OnPort s i r := by
  unfold nextReq at h
  split at h
  · cases h
  next p hp =>
    split at h
    · cases h
    · split at h
      · cases h
      next hn =>
        cases h
        exact ⟨rfl, turnPort_mem hp, Nat.pos_of_ne_zero hn, pieceLen_le ..⟩

/-- The ports of the stream have free tags. -/
def PortsFree (s : State) (i : Nat) : Prop :=
  deepPorts s (desc s i) ≠ [] ∧ ∀ p ∈ deepPorts s (desc s i), freeTag s p ≠ none

theorem nextReq_some {limit : Nat} (hp : PortsFree s i) (hc : curSeq (strm s i) ≠ none)
    (ha : (strm s i).asked < limit) : ∃ r, nextReq s i limit = some r := by
  obtain ⟨ports, tags⟩ := hp
  obtain ⟨p, hp⟩ := Option.ne_none_iff_exists'.mp (turnPort_ne_none ports)
  obtain ⟨g, hg⟩ := Option.ne_none_iff_exists'.mp (tags p (turnPort_mem hp))
  have hn : pieceLen s i limit (portBurst s p) ≠ 0 := Nat.ne_of_gt (pieceLen_pos hc ha (portBurst_pos s p))
  unfold nextReq
  rw [hp]
  dsimp only
  rw [hg]
  dsimp only
  rw [if_neg hn]
  exact ⟨_, rfl⟩

theorem PortsFree.roomed (h : PortsFree s i) (hr : Roomed i s t) : PortsFree t i := by
  obtain ⟨S, e⟩ := hr.only
  obtain ⟨ports, tags⟩ := h
  have same : deepPorts t (desc t i) = deepPorts s (desc s i) := by rw [e]; rfl
  exact ⟨same ▸ ports, fun p hp => freeTag_stays (hr.tags p) (tags p (same ▸ hp))⟩

theorem portLive_deep {p : Nat} (hp : p < 4) (hr : pxRuns s = true) (hw : wrapGoverns s = false) :
    portLive s p = true := by
  unfold portLive groupClamped
  rw [if_pos (by omega), hr, hw]
  rfl

theorem curSeq_congr {x y : StreamSt} (h : y.seqs = x.seqs) : curSeq y = curSeq x := by
  unfold curSeq
  rw [h]

theorem seqAt_congr {x y : StreamSt} (h : y.seqs = x.seqs) (p : Nat) : seqAt y p = seqAt x p := by
  unfold seqAt
  rw [h]

theorem outAddr_congr (hd : desc t i = desc s i) (hs : (strm t i).seqs = (strm s i).seqs) (p : Nat) (tu : Bool) :
    outAddr t i p tu = outAddr s i p tu := by
  unfold outAddr
  rw [hd, seqAt_congr hs]

/-! ## Reads of an IN_DEEP stream (R148) -/

/-- A read request as it leaves. -/
def readOut (s : State) (i : Nat) (r : Req) : Out :=
  let tu := (desc s i).turn && direct s i
  .deepRead r.port r.tag (outAddr s i r.pos tu) (r.len - 1) tu (if tu then (desc s i).esz else 0)

theorem readOut_congr (hd : desc t i = desc s i) (hdir : direct t i = direct s i)
    (hs : (strm t i).seqs = (strm s i).seqs) (r : Req) : readOut t i r = readOut s i r := by
  unfold readOut
  rw [hd, hdir]
  dsimp only
  rw [outAddr_congr hd hs]

/-- One read request is sent. -/
def readSent (s : State) (i : Nat) (r : Req) : State := askedMore (emit s (readOut s i r)) i r.len r

theorem askOne_unmasked {limit : Nat} (hm : maskUsed s i = false) : askOne i limit s =
    match nextReq s i limit with
    | none => (s, false)
    | some r => (readSent s i r, true) := by
  unfold askOne nextReq
  rw [hm]
  change (match turnPort s i with | none => _ | some p => _) = _
  cases turnPort s i with
  | none => rfl
  | some p =>
    dsimp only
    cases freeTag s p with
    | none => rfl
    | some g =>
      dsimp only [Bool.false_eq_true, if_false]
      by_cases hn : pieceLen s i limit (portBurst s p) = 0
      · rw [if_neg Bool.false_ne_true, if_pos hn, if_pos hn]
      · rw [if_neg Bool.false_ne_true, if_neg hn, if_neg hn]
        rfl

/-- From u to t stream i has sent read requests, and nothing else has happened. -/
structure Reads (i : Nat) (u : State) (rs : List Req) (t : State) : Prop where
  ahead : Ahead i u t rs
  ports : ∀ r ∈ rs, OnPort u i r
  only  : ∃ S, t = { u with streams := S, out := u.out ++ rs.map (readOut u i) }

theorem Reads.nil (i : Nat) (u : State) : Reads i u [] u :=
  ⟨.nil i u, nofun, u.streams, by rw [List.map_nil, List.append_nil]⟩

section
variable (hr : pxRuns u = true) (hw : wrapGoverns u = false)
include hr hw

theorem Reads.next (h : Reads i u rs t) (hpos : r.pos = (strm t i).asked) (hp : OnPort t i r) :
    Reads i u (rs ++ [r]) (readSent t i r) := by
  obtain ⟨S, e⟩ := h.only
  have out : readOut t i r = readOut u i r := readOut_congr (by rw [e]; rfl) (by rw [e]; rfl) h.ahead.seqs r
  have live : portLive t (readOut t i r).group = true :=
    portLive_deep (deepPorts_lt hp.1) (by rw [e]; exact hr) (by rw [e]; exact hw)
  refine ⟨h.ahead.next hpos fun _ => rfl, List.forall_mem_append.mpr ⟨h.ports, fun q hq => ?_⟩, ?_⟩
  · cases List.mem_singleton.mp hq
    rw [e] at hp
    exact hp
  · refine ⟨(readSent t i r).streams, ?_⟩
    unfold readSent askedMore emit
    rw [if_pos live, out, e, List.map_append, ← List.append_assoc]
    rfl

theorem Reads.step {limit : Nat} (hm : maskUsed u i = false) (h : Reads i u rs t) :
    Reads i u rs (askOne i limit t).1 ∨ ∃ r, Reads i u (rs ++ [r]) (askOne i limit t).1 := by
  have hm' : maskUsed t i = false := by
    obtain ⟨S, rfl⟩ := h.only
    exact hm
  rw [askOne_unmasked hm']
  cases hn : nextReq t i limit with
  | none => exact .inl h
  | some r =>
    obtain ⟨hpos, hp⟩ := nextReq_spec hn
    exact .inr ⟨r, h.next hr hw hpos hp⟩

/-- The reads of a stream up to a limit: at least one where it may send one. -/
theorem askReads_reads {limit : Nat} (hm : maskUsed u i = false) :
    ∃ rs, Reads i u rs (askReads (limit - (strm u i).asked) u i limit) ∧
      ((strm u i).asked < limit → curSeq (strm u i) ≠ none → PortsFree u i → rs ≠ []) := by
  obtain ⟨rs, h, hne⟩ := repeatWhile_adds (f := askOne i limit) (R := Reads i u) (k := limit - (strm u i).asked)
    (go := (strm u i).asked < limit ∧ curSeq (strm u i) ≠ none ∧ PortsFree u i)
    (fun _ _ h => h.step hr hw hm) (.nil i u) (fun ⟨ha, hc, hp⟩ => by
      obtain ⟨r, hn⟩ := nextReq_some hp hc ha
      obtain ⟨hpos, hport⟩ := nextReq_spec hn
      refine ⟨Nat.sub_ne_zero_of_lt ha, r, ?_⟩
      rw [askOne_unmasked hm, hn]
      exact (Reads.nil i u).next hr hw hpos hport)
  exact ⟨rs, h, fun ha hc hp => hne ⟨ha, hc, hp⟩⟩

end

/-! ## The transfer of an IN_DEEP stream -/

/-- The position up to which a read goes: the end of the half that is being filled, or of the room. -/
def readLimit (s : State) (i : Nat) : Nat :=
  let x := strm s i
  let half := match x.chunks.find? (fun c => x.asked < c.start + c.len) with
    | some c => if direct s i then c.start + c.len else turnCeil s i (c.start + c.len)
    | none => x.asked
  if half > x.asked then half else roomEnd s i

theorem readLimit_gt (h : (strm s i).asked < roomEnd s i) : (strm s i).asked < readLimit s i := by
  unfold readLimit
  extract_lets x half
  split
  next hh => exact hh
  next => exact h

theorem curSeq_of_room (h : (strm s i).asked < roomEnd s i) : curSeq (strm s i) ≠ none := by
  intro e
  unfold roomEnd at h
  dsimp only at h
  rw [e] at h
  split at h
  next h' => cases h'
  next => exact absurd h (Nat.lt_irrefl _)

/-- What a transfer of a running stream does once room has been given. -/
def transferKind (s : State) (i : Nat) : State :=
  match (desc s i).kind with
  | 0 => extend (askReads (readLimit s i - (strm s i).asked) s i (readLimit s i)) i
  | 1 => pumpAll (placeQueue ((mcg s (desc s i).group).queue.length + 1) s (desc s i).group)
  | 2 => extend (sendDeep (closedEnd s i - (strm s i).asked) s i (closedEnd s i)) i
  | 3 =>
    if (desc s i).mc then s
    else extend (checkEnd (sendRemote (closedEnd s i - (strm s i).asked) s i (closedEnd s i)) i) i
  | _ => s

theorem execTransfer_clamped {i : Fin 64} (h : pxRuns s = false) : execStreamEngineTransfer i s = .next s := by
  unfold execStreamEngineTransfer
  exact congrArg _ (if_pos (by simp [h]))

theorem execTransfer_idle {i : Fin 64} (hk : skipDue s i = none) (hs : sState s i ≠ Ss.running) :
    execStreamEngineTransfer i s = .next s := by
  unfold execStreamEngineTransfer
  congr 1
  extract_lets k
  split
  · rfl
  · rw [hk, if_neg (by decide), if_pos (by simpa using hs)]

theorem streamLive_of_running (h : sState s i = Ss.running) : streamLive s i = true := by
  unfold streamLive
  rw [h]
  rfl

theorem execTransfer_runs {i : Fin 64} (hk : skipDue s i = none) (hs : sState s i = Ss.running) (hr : pxRuns s = true) :
    execStreamEngineTransfer i s = .next (transferKind (beforeTransfer s i) i) := by
  unfold execStreamEngineTransfer
  congr 1
  extract_lets k
  rw [if_neg (by rw [streamLive_of_running hs, hr]; decide), hk, if_neg (by decide), if_neg (by rw [hs]; decide)]
  rfl

theorem transferKind_reads (h : (desc s i).kind = 0) :
    transferKind s i = extend (askReads (readLimit s i - (strm s i).asked) s i (readLimit s i)) i := by
  unfold transferKind
  rw [h]
  rfl

/-- The transfer of an IN_DEEP stream that no mask concerns and whose turn unit is empty. -/
theorem execTransfer_reads {i : Fin 64} (hk : skipDue s i = none) (hs : sState s i = Ss.running)
    (hkind : (desc s i).kind = 0) (hm : maskUsed s i = false) (ht : (strm s i).turn = []) (hr : pxRuns s = true)
    (hw : wrapGoverns s = false) :
    ∃ t rs, execStreamEngineTransfer i s = .next t ∧ Asked i s t rs ∧ (∀ r ∈ rs, OnPort s i r) ∧
      ((strm s i).asked < roomEnd (beforeTransfer s i) i → PortsFree s i → rs ≠ []) ∧
      ∃ S, t = { s with streams := S, out := s.out ++ rs.map (readOut s i) } := by
  have ho : (desc s i).isOutbound = false := by
    unfold Desc.isOutbound
    rw [hkind]
    rfl
  have hrun := execTransfer_runs hk hs hr
  obtain ⟨room, turn⟩ := beforeTransfer_inbound ho ht
  generalize beforeTransfer s i = u at hrun room turn
  obtain ⟨S, e⟩ := room.only
  have kind : (desc u i).kind = 0 := by rw [e]; exact hkind
  obtain ⟨rs, ⟨ahead, ports, T, e'⟩, hne⟩ := askReads_reads (limit := readLimit u i) (u := u) (i := i)
    (by rw [e]; exact hr) (by rw [e]; exact hw) (by rw [e]; exact hm)
  rw [transferKind_reads kind] at hrun
  generalize askReads _ u i (readLimit u i) = t at hrun ahead e'
  obtain ⟨after, _⟩ := extend_given (s := t) (.inl (ahead.turn.trans turn))
  obtain ⟨V, e''⟩ := after.only
  refine ⟨_, rs, hrun, ahead.between room after, ?_, fun ha hp => ?_, V, ?_⟩
  · rw [e] at ports
    exact ports
  · rw [← room.asked] at ha
    exact hne (readLimit_gt ha) (curSeq_of_room ha) (hp.roomed room)
  · have out : ∀ r, readOut u i r = readOut s i r := readOut_congr (by rw [e]; rfl) (by rw [e]; rfl) room.seqs
    rw [e'', e', funext out, e]

end

end Sys2Proof.Machine

/-! PROOFS. Weight rows that are asked for again (R132), and the writes of an OUT_DEEP stream (R154). -/

namespace Sys2Proof.Machine

section
variable {s t u : State} {i : Nat} {rs : List Req} {r : Req}

/-! ## Rows that were passed over (R132) -/

/-- Bytes of a request for a row that was passed over: of a run of len positions, at a position of the outside
sequence. -/
def refetchLen (s : State) (i p len o : Nat) : Nat :=
  let n := min (min len (portBurst s p)) ((desc s i).len0 - o % (desc s i).len0)
  if direct s i then n else min n (1 <<< (desc s i).esz)

theorem refetchLen_le (s : State) (i p len o : Nat) : refetchLen s i p len o ≤ portBurst s p := by
  unfold refetchLen
  dsimp only
  split <;> omega

theorem refetchLen_pos (s : State) (i p : Nat) {len : Nat} (o : Nat) (h : 0 < len) : 0 < refetchLen s i p len o := by
  have burst := portBurst_pos s p
  have run : o % (desc s i).len0 < (desc s i).len0 := Nat.mod_lt _ (desc_len0_pos s i)
  have elem : 0 < 1 <<< (desc s i).esz := by rw [Nat.shiftLeft_eq, Nat.one_mul]; exact Nat.two_pow_pos _
  unfold refetchLen
  dsimp only
  split <;> omega

/-- A request for the row at q, of len positions, is sent: what is left of the row waits on. -/
def refetched (s : State) (i q len : Nat) (r : Req) : State :=
  let x := strm s i
  setStrm (emit s (readOut s i r)) i { x with
    outst := x.outst ++ [r], rot := x.rot + 1
    skip := (x.skip.erase (q, len)) ++ (if r.len < len then [(q + r.len, len - r.len)] else []) }

theorem refetchOne_sends {q len p g : Nat} {b : SeqRec} (hk : skipDue s i = some (q, len)) (hp : turnPort s i = some p)
    (hg : freeTag s p = some g) (hb : seqAt (strm s i) q = some b) : refetchOne i s =
      (refetched s i q len ⟨p, g, askedPos s i q, refetchLen s i p len (askedPos s i q - b.start)⟩, true) := by
  unfold refetchOne
  dsimp only
  rw [hk, show (deepPorts s (desc s i))[_]? = some p from hp]
  dsimp only
  rw [hg, hb]
  rfl

theorem refetchOne_cases (s : State) (i : Nat) : (refetchOne i s).1 = s ∨ ∃ q len r, skipDue s i = some (q, len) ∧
    r.port ∈ deepPorts s (desc s i) ∧ r.len ≤ portBurst s r.port ∧ (0 < len → 0 < r.len) ∧
    (refetchOne i s).1 = refetched s i q len r := by
  unfold refetchOne
  extract_lets d x ps
  split
  next q len p hk hp =>
    split
    next g b _ _ =>
      exact .inr ⟨q, len, _, hk, List.mem_of_getElem? hp, refetchLen_le s i p len (askedPos s i q - b.start),
        refetchLen_pos s i p (askedPos s i q - b.start), rfl⟩
    next => exact .inl rfl
  next => exact .inl rfl

/-- From u to t stream i has asked again for rows, and nothing else has happened. -/
structure Refetches (i : Nat) (u : State) (rs : List Req) (t : State) : Prop where
  ports : ∀ r ∈ rs, OnPort u i r
  outst : (strm t i).outst = (strm u i).outst ++ rs
  asked : (strm t i).asked = (strm u i).asked
  seqs  : (strm t i).seqs = (strm u i).seqs
  skips : ∀ k ∈ (strm t i).skip, 0 < k.2
  only  : ∃ S, t = { u with streams := S, out := u.out ++ rs.map (readOut u i) }

theorem Refetches.nil (h : ∀ k ∈ (strm s i).skip, 0 < k.2) : Refetches i s [] s :=
  ⟨nofun, (List.append_nil _).symm, rfl, rfl, h, s.streams, by rw [List.map_nil, List.append_nil]⟩

section
variable (hr : pxRuns u = true) (hw : wrapGoverns u = false)
include hr hw

theorem Refetches.next {q len : Nat} (h : Refetches i u rs t) (hp : OnPort t i r) :
    Refetches i u (rs ++ [r]) (refetched t i q len r) := by
  obtain ⟨S, e⟩ := h.only
  have out : readOut t i r = readOut u i r := readOut_congr (by rw [e]; rfl) (by rw [e]; rfl) h.seqs r
  have live : portLive t (readOut t i r).group = true :=
    portLive_deep (deepPorts_lt hp.1) (by rw [e]; exact hr) (by rw [e]; exact hw)
  unfold refetched
  dsimp only
  refine ⟨List.forall_mem_append.mpr ⟨h.ports, fun q hq => ?_⟩, ?_, ?_, ?_, ?_, ?_⟩
  · cases List.mem_singleton.mp hq
    rw [e] at hp
    exact hp
  · rw [strm_setStrm_self, h.outst, List.append_assoc]
  · rw [strm_setStrm_self]
    exact h.asked
  · rw [strm_setStrm_self]
    exact h.seqs
  · rw [strm_setStrm_self]
    intro k hk
    rcases List.mem_append.mp hk with hk | hk
    · exact h.skips k (List.mem_of_mem_erase hk)
    · split at hk
      next lt =>
        cases List.mem_singleton.mp hk
        exact Nat.sub_pos_of_lt lt
      next => cases hk
  · refine ⟨(refetched t i q len r).streams, ?_⟩
    unfold refetched emit
    rw [if_pos live, out, e, List.map_append, ← List.append_assoc]
    rfl

omit hr hw in
theorem skipDue_mem {k : Nat × Nat} (h : skipDue s i = some k) : k ∈ (strm s i).skip := List.mem_of_find?_eq_some h

theorem Refetches.step (h : Refetches i u rs t) :
    Refetches i u rs (refetchOne i t).1 ∨ ∃ r, Refetches i u (rs ++ [r]) (refetchOne i t).1 := by
  rcases refetchOne_cases t i with e | ⟨q, len, r, hk, hport, hle, hpos, e⟩
  · rw [e]
    exact .inl h
  · rw [e]
    exact .inr ⟨r, h.next hr hw ⟨hport, hpos (h.skips _ (skipDue_mem hk)), hle⟩⟩

end

/-- The transfer of a stream with rows to ask for again: it begins with the first of them. -/
theorem execTransfer_refetches {i : Fin 64} {q len : Nat} (hk : skipDue s i = some (q, len)) (hr : pxRuns s = true)
    (hw : wrapGoverns s = false) (hl : streamLive s i = true) (hp : PortsFree s i) (hq : seqAt (strm s i) q ≠ none)
    (he : 0 < seqEndPos (strm s i)) (hs : ∀ k ∈ (strm s i).skip, 0 < k.2) :
    ∃ t rs, execStreamEngineTransfer i s = .next t ∧ Refetches i s rs t ∧
      ∃ r, rs.head? = some r ∧ r.pos = askedPos s i q := by
  obtain ⟨ports, tags⟩ := hp
  obtain ⟨p, hp⟩ := Option.ne_none_iff_exists'.mp (turnPort_ne_none ports)
  obtain ⟨g, hg⟩ := Option.ne_none_iff_exists'.mp (tags p (turnPort_mem hp))
  obtain ⟨b, hb⟩ := Option.ne_none_iff_exists'.mp hq
  have first : Refetches i s [⟨p, g, askedPos s i q, refetchLen s i p len (askedPos s i q - b.start)⟩]
      (refetchOne i s).1 := by
    rw [refetchOne_sends hk hp hg hb]
    exact (Refetches.nil hs).next hr hw
      ⟨turnPort_mem hp, refetchLen_pos _ _ _ _ (hs _ (skipDue_mem hk)), refetchLen_le ..⟩
  obtain ⟨rs, all, head⟩ := repeatWhile_begins (R := Refetches i s) (fun _ _ h => h.step hr hw) (Nat.ne_of_gt he) first
  refine ⟨_, rs, ?_, all, _, head, rfl⟩
  unfold execStreamEngineTransfer
  refine congrArg _ ?_
  extract_lets k
  rw [if_neg (by rw [hl, hr]; decide), hk]
  exact if_pos rfl

/-! ## Registers that count bytes (R147) -/

/-- A descriptor stands in the registers of the stream before W7. -/
theorem desc_of_rd (h : ∀ a, Reg.stmDescW0 i ≤ a → a < Reg.stmDescW7 i → rd t a = rd s a) :
    desc t i = desc s i := by
  unfold desc
  rw [h (Reg.stmDescW0 i), h (Reg.stmDescW1 i), h (Reg.stmDescW2 i), h (Reg.stmDescW3 i), h (Reg.stmDescW4 i),
    h (Reg.stmDescW5 i), h (Reg.stmDescW6 i)]
  all_goals
    simp only [Reg.stmDescW0, Reg.stmDescW1, Reg.stmDescW2, Reg.stmDescW3, Reg.stmDescW4, Reg.stmDescW5, Reg.stmDescW6,
      Reg.stmDescW7]
    omega

/-- From s to t of the registers only BYTES of stream i has changed: it has counted n. -/
structure Counted (i : Nat) (s t : State) (n : Nat) : Prop where
  regs   : ∀ a, a ≠ Reg.stmDescW7 i → rd t a = rd s a
  bytes  : fld t (Reg.stmDescW7 i) Fl.stmDescW7_BYTES = (fld s (Reg.stmDescW7 i) Fl.stmDescW7_BYTES + n) % 2 ^ 48
  tenant : sTenant t i = sTenant s i

theorem fld_lt (s : State) (a : Nat) (f : Field) : fld s a f < 2 ^ f.width := by
  unfold fld bits
  exact Nat.mod_lt _ (Nat.two_pow_pos _)

theorem Counted.zero (i : Nat) (s : State) : Counted i s s 0 :=
  ⟨fun _ _ => rfl, (Nat.mod_eq_of_lt (fld_lt ..)).symm, rfl⟩

theorem Counted.next {n m : Nat} (h : Counted i s t n) (hu : u.regs = (countBytes t i m).regs) : Counted i s u (n + m) := by
  have hrd : ∀ a, rd u a = rd (countBytes t i m) a := fun a => by
    unfold rd
    rw [hu]
  have hfld : ∀ a f, fld u a f = fld (countBytes t i m) a f := fun a f => fld_congr (hrd a)
  refine ⟨fun a ha => ?_, ?_, ?_⟩
  · rw [hrd]
    exact (rd_setFld_ne _ _ _ (Ne.symm ha)).trans (h.regs a ha)
  · rw [hfld]
    unfold countBytes incFld
    rw [fld_setFld_self _ _ _ _ (by decide), h.bytes, ← Nat.add_assoc]
    exact Nat.mod_add_mod _ _ _
  · rw [← h.tenant]
    unfold sTenant
    rw [hfld]
    exact fld_setFld_other _ _ _ _ _ (by decide) (by decide)

section
variable {n : Nat} (h : Counted i s t n)
include h

theorem Counted.injOff (hs : injOff s) : injOff t := by
  intro k hk
  have ne : Reg.fltInjW0 k ≠ Reg.stmDescW7 i := by unfold Reg.fltInjW0 Reg.stmDescW7; omega
  rw [← hs k hk]
  unfold injArmed flag
  rw [fld_congr (h.regs _ ne)]

theorem Counted.desc : desc t i = desc s i := desc_of_rd fun a _ ha => h.regs a (Nat.ne_of_lt ha)

end

/-! ## What a write reads (R143, R144) -/

theorem posAddr_congr (hd : desc t i = desc s i) (hs : (strm t i).seqs = (strm s i).seqs)
    (hc : (strm t i).chunks = (strm s i).chunks) (p : Nat) : posAddr t i p = posAddr s i p := by
  unfold posAddr
  dsimp only
  rw [hd, seqAt_congr hs, hc]

theorem fifoPos_congr (hd : desc t i = desc s i) (hs : (strm t i).seqs = (strm s i).seqs) (p : Nat) :
    fifoPos t i p = fifoPos s i p := by
  unfold fifoPos
  rw [hd, seqAt_congr hs]

theorem outAt_congr (hd : desc t i = desc s i) (hs : (strm t i).seqs = (strm s i).seqs)
    (hc : (strm t i).chunks = (strm s i).chunks) (ht : (strm t i).turn = (strm s i).turn) (hm : t.mica = s.mica)
    (hp : t.poison = s.poison) (p n : Nat) : outAt t i p n = outAt s i p n := by
  unfold outAt micaByte
  simp only [hd, ht, hm, hp, fifoPos_congr hd hs, posAddr_congr hd hs hc]

theorem touchOut_off (h : injOff s) (i n : Nat) : touchOut s i n = s := by
  unfold touchOut
  simp [memArmed_off h]

/-! ## Writes of an OUT_DEEP stream (R154) -/

/-- A write request as it leaves. -/
def writeOut (s : State) (i : Nat) (r : Req) : Out :=
  .deepWrite r.port r.tag (outAddr s i r.pos false) (outAt s i r.pos r.len)

/-- One write request is sent, and its bytes count. -/
def writeSent (s : State) (i : Nat) (r : Req) : State := countBytes (askedMore (emit s (writeOut s i r)) i r.len r) i r.len

theorem writeOut_congr (hd : desc t i = desc s i) (hs : (strm t i).seqs = (strm s i).seqs)
    (hc : (strm t i).chunks = (strm s i).chunks) (ht : (strm t i).turn = (strm s i).turn) (hm : t.mica = s.mica)
    (hp : t.poison = s.poison) (r : Req) : writeOut t i r = writeOut s i r := by
  unfold writeOut
  rw [outAddr_congr hd hs, outAt_congr hd hs hc ht hm hp]

/-- No byte that stream i may send is poisoned, and no injector is armed. -/
structure CleanOut (s : State) (i : Nat) : Prop where
  inj    : injOff s
  poison : s.poison = []
  turn   : ∀ b ∈ (strm s i).turn, b.2.2 = false

theorem CleanOut.length (h : CleanOut s i) (p n : Nat) : (outAt s i p n).length = n := outAt_length h.poison h.turn p n

theorem CleanOut.nonempty (h : CleanOut s i) (p : Nat) {n : Nat} (hn : n ≠ 0) : (outAt s i p n).isEmpty = false := by
  rw [List.isEmpty_eq_false_iff_exists_mem]
  refine List.exists_mem_of_length_pos ?_
  rw [h.length]
  exact Nat.pos_of_ne_zero hn

theorem sendDeepOne_clean {limit : Nat} (h : CleanOut s i) : sendDeepOne i limit s =
    match nextReq s i limit with
    | none => (s, false)
    | some r => (writeSent s i r, true) := by
  unfold sendDeepOne nextReq
  change (match turnPort s i with | none => _ | some p => _) = _
  cases turnPort s i with
  | none => rfl
  | some p =>
    dsimp only
    cases freeTag s p with
    | none => rfl
    | some g =>
      dsimp only
      by_cases hn : pieceLen s i limit (portBurst s p) = 0
      · rw [if_pos hn, if_pos hn]
      · rw [if_neg hn, if_neg hn, touchOut_off h.inj]
        unfold outBytes
        rw [h.nonempty _ hn, if_neg Bool.false_ne_true, h.length]
        rfl

/-- From u to t stream i has sent write requests, and nothing else has happened. -/
structure Writes (i : Nat) (u : State) (rs : List Req) (t : State) : Prop where
  ahead   : Ahead i u t rs
  ports   : ∀ r ∈ rs, OnPort u i r
  counted : Counted i u t (rs.map (·.len)).sum
  only    : ∃ G S, t = { u with regs := G, streams := S, out := u.out ++ rs.map (writeOut u i) }

theorem Writes.nil (i : Nat) (u : State) : Writes i u [] u :=
  ⟨.nil i u, nofun, .zero i u, u.regs, u.streams, by rw [List.map_nil, List.append_nil]⟩

section
variable (hr : pxRuns u = true) (hw : wrapGoverns u = false)
include hr hw

theorem Writes.next (h : Writes i u rs t) (hpos : r.pos = (strm t i).asked) (hp : OnPort t i r) :
    Writes i u (rs ++ [r]) (writeSent t i r) := by
  obtain ⟨G, S, e⟩ := h.only
  have hd : desc t i = desc u i := h.counted.desc
  have out : writeOut t i r = writeOut u i r :=
    writeOut_congr hd h.ahead.seqs h.ahead.chunks h.ahead.turn (by rw [e]) (by rw [e]) r
  have live : portLive t (writeOut t i r).group = true :=
    portLive_deep (deepPorts_lt hp.1) (by rw [e]; exact hr) (by rw [e]; exact hw)
  refine ⟨h.ahead.next hpos fun _ => rfl, List.forall_mem_append.mpr ⟨h.ports, fun q hq => ?_⟩, ?_, ?_⟩
  · cases List.mem_singleton.mp hq
    unfold OnPort at hp ⊢
    rw [hd, e] at hp
    exact hp
  · rw [List.map_append, List.sum_append]
    exact h.counted.next (m := r.len) rfl
  · refine ⟨(writeSent t i r).regs, (writeSent t i r).streams, ?_⟩
    unfold writeSent askedMore emit
    rw [if_pos live, out, e, List.map_append, ← List.append_assoc]
    rfl

omit hr hw in
theorem Writes.clean (h : Writes i u rs t) (hu : CleanOut u i) : CleanOut t i := by
  obtain ⟨G, S, e⟩ := h.only
  refine ⟨h.counted.injOff hu.inj, ?_, ?_⟩
  · rw [e]
    exact hu.poison
  · rw [h.ahead.turn]
    exact hu.turn

/-- The writes of a stream up to a limit: at least one where it may send one. -/
theorem sendDeep_writes {limit : Nat} (hc : CleanOut u i) :
    ∃ rs, Writes i u rs (sendDeep (limit - (strm u i).asked) u i limit) ∧
      ((strm u i).asked < limit → curSeq (strm u i) ≠ none → PortsFree u i → rs ≠ []) := by
  obtain ⟨rs, h, hne⟩ := repeatWhile_adds (f := sendDeepOne i limit) (R := Writes i u) (k := limit - (strm u i).asked)
    (go := (strm u i).asked < limit ∧ curSeq (strm u i) ≠ none ∧ PortsFree u i)
    (fun rs t h => by
      rw [sendDeepOne_clean (h.clean hc)]
      cases hn : nextReq t i limit with
      | none => exact .inl h
      | some r =>
        obtain ⟨hpos, hp⟩ := nextReq_spec hn
        exact .inr ⟨r, h.next hr hw hpos hp⟩)
    (.nil i u) (fun ⟨ha, hs, hp⟩ => by
      obtain ⟨r, hn⟩ := nextReq_some hp hs ha
      obtain ⟨hpos, hport⟩ := nextReq_spec hn
      refine ⟨Nat.sub_ne_zero_of_lt ha, r, ?_⟩
      rw [sendDeepOne_clean hc, hn]
      exact (Writes.nil i u).next hr hw hpos hport)
  exact ⟨rs, h, fun ha hs hp => hne ⟨ha, hs, hp⟩⟩

end

theorem transferKind_writes (h : (desc s i).kind = 2) :
    transferKind s i = extend (sendDeep (closedEnd s i - (strm s i).asked) s i (closedEnd s i)) i := by
  unfold transferKind
  rw [h]
  rfl

theorem isOutbound_iff (d : Desc) : d.isOutbound = true ↔ d.kind = 2 ∨ d.kind = 3 := by simp [Desc.isOutbound]

/-- The transfer of an OUT_DEEP stream. -/
theorem execTransfer_writes {i : Fin 64} (hk : skipDue s i = none) (hs : sState s i = Ss.running)
    (hkind : (desc s i).kind = 2) (hc : CleanOut s i) (hr : pxRuns s = true) (hw : wrapGoverns s = false) :
    ∃ t rs, execStreamEngineTransfer i s = .next t ∧ Asked i s t rs ∧ (∀ r ∈ rs, OnPort s i r) ∧
      Counted i s t (rs.map (·.len)).sum ∧
      ((strm s i).asked < closedEnd (beforeTransfer s i) i → curSeq (strm s i) ≠ none → PortsFree s i → rs ≠ []) ∧
      t.out = s.out ++ rs.map fun r => .deepWrite r.port r.tag (outAddr s i r.pos false)
        (outAt (beforeTransfer s i) i r.pos r.len) := by
  have ho : (desc s i).isOutbound = true := (isOutbound_iff _).mpr (.inl hkind)
  have hrun := execTransfer_runs hk hs hr
  obtain ⟨room, turn⟩ := beforeTransfer_outbound ho hc.inj hc.poison hc.turn
  generalize beforeTransfer s i = u at hrun room turn
  obtain ⟨S, e⟩ := room.only
  have hd : desc u i = desc s i := by rw [e]; rfl
  have clean : CleanOut u i := ⟨by rw [e]; exact hc.inj, by rw [e]; exact hc.poison, turn⟩
  obtain ⟨rs, ⟨ahead, ports, counted, G, T, e'⟩, hne⟩ := sendDeep_writes (limit := closedEnd u i)
    (by rw [e]; exact hr) (by rw [e]; exact hw) clean
  rw [transferKind_writes (hd ▸ hkind)] at hrun
  generalize sendDeep _ u i (closedEnd u i) = t at hrun ahead counted e'
  obtain ⟨after, _⟩ := extend_given (s := t) (.inr ((counted.desc).trans hd ▸ ho))
  obtain ⟨V, e''⟩ := after.only
  refine ⟨_, rs, hrun, ahead.between room after, ?_, ?_, fun ha hq hp => ?_, ?_⟩
  · rw [e] at ports
    exact ports
  · rw [e] at counted
    rw [e'']
    exact ⟨counted.regs, counted.bytes, counted.tenant⟩
  · rw [← room.asked] at ha
    exact hne ha (curSeq_congr room.seqs ▸ hq) (hp.roomed room)
  · have addr : ∀ p, outAddr u i p false = outAddr s i p false := fun p => outAddr_congr hd room.seqs p false
    rw [e'', e', e]
    show s.out ++ _ = _
    rw [← e]
    unfold writeOut
    simp only [addr]

end

end Sys2Proof.Machine

/-! PROOFS. Messages of an OUT_LINK stream to a target block (R154, R292, R294): sent on the link of the route, held while
none serves yet, and the halt where none can. -/

namespace Sys2Proof.Machine

section
variable {s t u : State} {i l n limit : Nat} {rs : List Req} {r : Req}

/-! ## One message (R292) -/

/-- The WRITE message of a request. -/
def writeMsg (s : State) (i : Nat) (r : Req) : Routed :=
  ⟨4, ⟨(desc s i).xstratum, stratum s, sTenant s i, outAddr s i r.pos false, r.len - 1⟩, outAt s i r.pos r.len, none, none,
    some i⟩

/-- The entry of a WRITE in the list of those that wait for a reply. -/
def writeNote (s : State) (i l : Nat) (r : Req) : OutWrite :=
  ⟨i, (desc s i).xstratum, sTenant s i, outAddr s i r.pos false, r.pos, r.len, l⟩

/-- Bytes of the next message where messages of at most so many bytes pass. -/
def messageLen (s : State) (i limit most : Nat) : Nat :=
  pieceLen s i limit (most - outAddr s i (strm s i).asked false % 64)

/-- The request of the next message. -/
def messageReq (s : State) (i limit most l : Nat) : Req := ⟨l, 0, (strm s i).asked, messageLen s i limit most⟩

/-- A message is sent on a link, noted, and its bytes count. -/
def linkSent (s : State) (i l : Nat) (r : Req) : State :=
  countBytes (askedMore (noteWrite (sendRouted s l (writeMsg s i r)) i l (writeMsg s i r).hdr r.pos) i r.len r) i r.len

/-- A message is held, and its bytes count. -/
def heldSent (s : State) (i : Nat) (r : Req) : State :=
  countBytes (askedMore { s with transit := s.transit ++ [writeMsg s i r] } i r.len r) i r.len

theorem maxPayload_ge (s : State) (l : Nat) : 256 ≤ maxPayload s l := by
  unfold maxPayload
  split
  · decide
  · split <;> decide

theorem messageLen_pos {most : Nat} (hq : curSeq (strm s i) ≠ none) (ha : (strm s i).asked < limit) (hm : 256 ≤ most) :
    messageLen s i limit most ≠ 0 :=
  Nat.ne_of_gt (pieceLen_pos hq ha (by omega))

theorem messageLen_fits {most : Nat} (h : messageLen s i limit most ≠ 0) :
    outAddr s i (strm s i).asked false % 64 + messageLen s i limit most ≤ most := by
  have le : messageLen s i limit most ≤ most - outAddr s i (strm s i).asked false % 64 := pieceLen_le ..
  omega

/-- A stream to another block, with no message held, that may send what it holds. -/
structure Remote (s : State) (i : Nat) : Prop where
  clean : CleanOut s i
  other : (desc s i).xstratum ≠ stratum s
  held  : heldBack s i = false

section
variable (h : Remote s i)
include h

/-- A message that has bytes leaves by the hop of its route. -/
def messageStep (s : State) (i n : Nat) : Hop → State × Bool
  | .via l => (linkSent s i l ⟨l, 0, (strm s i).asked, n⟩, true)
  | .wait => (heldSent s i ⟨6, 0, (strm s i).asked, n⟩, false)
  | .fail => (haltStream s i St.linkDown, false)

/-- The most bytes of a message, to the end of its last line, by the hop of its route. -/
def hopMost (s : State) : Hop → Nat
  | .via l => maxPayload s l
  | _ => 256

theorem sendRemoteOne_eq {hop : Hop} (hh : nextLink s (desc s i).xstratum 2 none = hop) : sendRemoteOne i limit s =
    if messageLen s i limit (hopMost s hop) = 0 then (s, false)
    else messageStep s i (messageLen s i limit (hopMost s hop)) hop := by
  subst hh
  have len := fun n => h.clean.length (strm s i).asked n
  have full := fun n => h.clean.nonempty (strm s i).asked (n := n)
  unfold sendRemoteOne
  dsimp only
  generalize nextLink s (desc s i).xstratum 2 none = hop
  generalize hM : pieceLen s i limit (_ - nextAddr s i false % 64) = N
  obtain rfl : messageLen s i limit (hopMost s hop) = N := by
    rw [← hM]
    cases hop <;> rfl
  generalize messageLen s i limit (hopMost s hop) = N
  rw [h.held, Bool.or_false]
  by_cases hn : N = 0
  · rw [if_pos (decide_eq_true hn), if_pos hn]
  · rw [if_neg (by simp [hn]), if_neg hn, touchOut_off h.clean.inj]
    unfold outBytes
    rw [full N hn, if_neg Bool.false_ne_true, if_neg h.other, len]
    cases hop with
    | via l => rfl
    | wait => rfl
    | fail => rfl

theorem sendRemoteOne_via (hop : nextLink s (desc s i).xstratum 2 none = .via l) : sendRemoteOne i limit s =
    if messageLen s i limit (maxPayload s l) = 0 then (s, false)
    else (linkSent s i l (messageReq s i limit (maxPayload s l) l), true) := sendRemoteOne_eq h hop

theorem sendRemoteOne_wait (hop : nextLink s (desc s i).xstratum 2 none = .wait) (hn : messageLen s i limit 256 ≠ 0) :
    sendRemoteOne i limit s = (heldSent s i (messageReq s i limit 256 6), false) :=
  (sendRemoteOne_eq h hop).trans (if_neg hn)

theorem sendRemoteOne_fail (hop : nextLink s (desc s i).xstratum 2 none = .fail) (hn : messageLen s i limit 256 ≠ 0) :
    sendRemoteOne i limit s = (haltStream s i St.linkDown, false) :=
  (sendRemoteOne_eq h hop).trans (if_neg hn)

end

/-! ## Messages one after another (R154) -/

theorem Counted.modeBit (h : Counted i s t n) (l b : Nat) : modeBit t l b = modeBit s l b := by
  unfold Machine.modeBit
  rw [h.regs _ (by unfold Reg.xlLnkMode Reg.stmDescW7; omega)]

theorem Counted.maxPayload (h : Counted i s t n) (l : Nat) : maxPayload t l = maxPayload s l := by
  unfold Machine.maxPayload
  rw [h.modeBit, h.modeBit]

theorem Counted.stratum (h : Counted i s t n) : stratum t = stratum s :=
  fld_congr (h.regs _ (by unfold Reg.strId Reg.stmDescW7; omega))

theorem Counted.linkState (h : Counted i s t n) (l : Nat) : linkState t l = linkState s l :=
  fld_congr (h.regs _ (by unfold Reg.xlLnkState Reg.stmDescW7; omega))

theorem Counted.carries (h : Counted i s t n) (l vc : Nat) : carries t l vc = carries s l vc := by
  unfold Machine.carries
  simp only [h.modeBit]

theorem Counted.nextLink (h : Counted i s t n) (hi : i < 64) (hsu : t.su = s.su) (dst vc : Nat) (from_ : Option Nat) :
    nextLink t dst vc from_ = nextLink s dst vc from_ := by
  have entry : routeEntry t dst = routeEntry s dst := by
    unfold routeEntry
    rw [h.regs _ (by unfold Reg.xlRoute Reg.stmDescW7; omega)]
  have active : ∀ l, linkActive t l = linkActive s l := fun l => by
    unfold linkActive linksDriven pxRuns
    rw [h.linkState, hsu]
  unfold Machine.nextLink
  simp only [entry, active, h.carries, h.linkState]

theorem link_sendRouted_congr {m : Routed} (hm : modeBit t l 34 = modeBit s l 34) (hl : link t l = link s l) :
    link (sendRouted t l m) l = link (sendRouted s l m) l := by
  unfold sendRouted sendMsg
  rw [link_setLink_self, link_setLink_self, hm, hl]

/-- The messages of the requests, sent on a link. -/
def sendAll (m : Req → Routed) (l : Nat) (rs : List Req) (s : State) : State :=
  rs.foldl (fun q r => sendRouted q l (m r)) s

theorem sendAll_onlyLinks (m : Req → Routed) (l : Nat) (rs : List Req) (s : State) : OnlyLinks s (sendAll m l rs s) :=
  .foldl (fun _ _ => sendMsg_onlyLinks ..) rs s

theorem link_sendAll_congr {m : Req → Routed} (hm : modeBit t l 34 = modeBit s l 34) (hl : link t l = link s l) :
    link (sendAll m l rs t) l = link (sendAll m l rs s) l := by
  unfold sendAll
  induction rs generalizing s t with
  | nil => exact hl
  | cons r rs ih =>
    rw [List.foldl_cons, List.foldl_cons]
    apply ih
    · exact hm
    · exact link_sendRouted_congr hm hl

/-- From u to t stream i has sent messages on link l, and nothing else has happened. -/
structure Sends (i l : Nat) (u : State) (rs : List Req) (t : State) : Prop where
  ahead   : Ahead i u t rs
  fits    : ∀ r ∈ rs, r.port = l ∧ 0 < r.len ∧ outAddr u i r.pos false % 64 + r.len ≤ maxPayload u l
  counted : Counted i u t (rs.map (·.len)).sum
  link    : link t l = link (sendAll (writeMsg u i) l rs u) l
  only    : ∃ G S L, t = { u with regs := G, streams := S, links := L, writes := u.writes ++ rs.map (writeNote u i l) }

theorem Sends.nil (i l : Nat) (u : State) : Sends i l u [] u :=
  ⟨.nil i u, nofun, .zero i u, rfl, u.regs, u.streams, u.links, by rw [List.map_nil, List.append_nil]⟩

theorem Sends.msg (h : Sends i l u rs t) (r : Req) : writeMsg t i r = writeMsg u i r := by
  obtain ⟨G, S, L, e⟩ := h.only
  unfold writeMsg
  rw [h.counted.desc, h.counted.stratum, h.counted.tenant, outAddr_congr h.counted.desc h.ahead.seqs,
    outAt_congr h.counted.desc h.ahead.seqs h.ahead.chunks h.ahead.turn (by rw [e]) (by rw [e])]

theorem Sends.remote (h : Sends i l u rs t) (hu : Remote u i) : Remote t i := by
  obtain ⟨G, S, L, e⟩ := h.only
  refine ⟨⟨h.counted.injOff hu.clean.inj, ?_, ?_⟩, ?_, ?_⟩
  · rw [e]
    exact hu.clean.poison
  · rw [h.ahead.turn]
    exact hu.clean.turn
  · rw [h.counted.desc, h.counted.stratum]
    exact hu.other
  · rw [e]
    exact hu.held

/-- One message more. -/
theorem Sends.next (h : Sends i l u rs t) (hn : messageLen t i limit (maxPayload t l) ≠ 0) :
    Sends i l u (rs ++ [messageReq t i limit (maxPayload t l) l]) (linkSent t i l (messageReq t i limit (maxPayload t l) l)) := by
  have fits := messageLen_fits hn
  obtain ⟨G, S, L, e⟩ := h.only
  have hpos : (messageReq t i limit (maxPayload t l) l).pos = (strm t i).asked := rfl
  have hlen : (messageReq t i limit (maxPayload t l) l).len = messageLen t i limit (maxPayload t l) := rfl
  have hport : (messageReq t i limit (maxPayload t l) l).port = l := rfl
  rw [← hlen] at hn fits
  generalize messageReq t i limit (maxPayload t l) l = r at hpos hlen hport hn fits ⊢
  refine ⟨h.ahead.next hpos fun _ => rfl, List.forall_mem_append.mpr ⟨h.fits, fun q hq => ?_⟩, ?_, ?_, ?_⟩
  · cases List.mem_singleton.mp hq
    rw [← hpos, outAddr_congr h.counted.desc h.ahead.seqs, h.counted.maxPayload] at fits
    exact ⟨hport, Nat.pos_of_ne_zero hn, fits⟩
  · rw [List.map_append, List.sum_append]
    exact h.counted.next (m := r.len) rfl
  · obtain ⟨M, all⟩ := sendAll_onlyLinks (writeMsg u i) l rs u
    have mode : modeBit t l 34 = modeBit (sendAll (writeMsg u i) l rs u) l 34 :=
      (h.counted.modeBit l 34).trans (by rw [all]; rfl)
    calc Machine.link (linkSent t i l r) l = Machine.link (sendRouted t l (writeMsg t i r)) l := rfl
      _ = Machine.link (sendRouted (sendAll (writeMsg u i) l rs u) l (writeMsg u i r)) l := by
        rw [h.msg, link_sendRouted_congr mode h.link]
      _ = _ := by
        unfold sendAll
        rw [List.foldl_append]
        rfl
  · refine ⟨(linkSent t i l r).regs, (linkSent t i l r).streams, (linkSent t i l r).links, ?_⟩
    have note : (linkSent t i l r).writes = u.writes ++ (rs ++ [r]).map (writeNote u i l) := by
      have len : r.len - 1 + 1 = r.len := Nat.sub_add_cancel (Nat.pos_of_ne_zero hn)
      unfold linkSent
      rw [h.msg, List.map_append, ← List.append_assoc]
      show t.writes ++ [⟨i, (desc u i).xstratum, sTenant u i, outAddr u i r.pos false, r.pos, r.len - 1 + 1, l⟩] = _
      rw [len, e]
      rfl
    rw [← note]
    unfold linkSent askedMore noteWrite
    rw [e]
    rfl

/-- The messages of a stream up to a limit: at least one where it has bytes to send. -/
theorem sendRemote_sends (hi : i < 64) (hu : Remote u i) (hop : nextLink u (desc u i).xstratum 2 none = .via l)
    (hq : curSeq (strm u i) ≠ none) (ha : (strm u i).asked < limit) :
    ∃ rs, Sends i l u rs (sendRemote (limit - (strm u i).asked) u i limit) ∧ rs ≠ [] := by
  have first := messageLen_pos hq ha (maxPayload_ge u l)
  obtain ⟨rs, h, hne⟩ := repeatWhile_adds (f := sendRemoteOne i limit) (R := Sends i l u)
    (k := limit - (strm u i).asked) (go := True) (fun rs t h => by
      have hop' : nextLink t (desc t i).xstratum 2 none = .via l := by
        obtain ⟨G, S, L, e⟩ := h.only
        rw [h.counted.desc, h.counted.nextLink hi (by rw [e]), hop]
      rw [sendRemoteOne_via (h.remote hu) hop']
      split
      · exact .inl h
      next hn => exact .inr ⟨_, h.next hn⟩)
    (.nil i l u) (fun _ => by
      refine ⟨Nat.sub_ne_zero_of_lt ha, messageReq u i limit (maxPayload u l) l, ?_⟩
      rw [sendRemoteOne_via hu hop, if_neg first]
      exact (Sends.nil i l u).next first)
  exact ⟨rs, h, hne trivial⟩

/-! ## The transfer of an OUT_LINK stream -/

theorem seqDone_busy (hd : (desc s i).isResident = false) (ho : (strm s i).outst ≠ []) : seqDone s i = false := by
  unfold seqDone
  dsimp only
  split
  · rfl
  · rw [hd, List.isEmpty_eq_false_iff.mpr ho]
    simp

/-- While a request is under way no sequence ends. -/
theorem checkEnd_busy (hd : (desc s i).isResident = false) (ho : (strm s i).outst ≠ []) : checkEnd s i = s := by
  unfold checkEnd
  extract_lets n
  cases n with
  | zero => rfl
  | succ n =>
    unfold endSeqs
    rw [seqDone_busy hd ho, Bool.and_false, if_neg Bool.false_ne_true]

theorem transferKind_sends (h : (desc s i).kind = 3) (hm : (desc s i).mc = false) : transferKind s i =
    extend (checkEnd (sendRemote (closedEnd s i - (strm s i).asked) s i (closedEnd s i)) i) i := by
  unfold transferKind
  rw [h, hm]
  rfl

theorem repeatWhile_stops {f : State → State × Bool} {k : Nat} (hk : k ≠ 0) (h : f s = (t, false)) :
    repeatWhile f k s = t := by
  cases k with
  | zero => exact absurd rfl hk
  | succ k =>
    unfold repeatWhile
    rw [h]

/-! ### A stream that halts (R152) -/

theorem rd_settleMcast_below {a : Nat} (h : a < Reg.stmMcast 0) (s : State) : rd (settleMcast s) a = rd s a :=
  settleMcast_induction (P := fun u => rd u a = rd s a) (fun _ => rfl) fun u k v hu =>
    (rd_applyRec_ne (by show Reg.stmMcast k ≠ a; unfold Reg.stmMcast at *; omega)).trans hu

theorem settleMcast_streams (s : State) : (settleMcast s).streams = s.streams :=
  settleMcast_induction (P := fun u => u.streams = s.streams) (fun _ => rfl) (fun _ _ _ hu => hu)

/-- A stream shows that it has halted with a code, and no request of it is under way. -/
structure Halted (i code : Nat) (t : State) : Prop where
  state : sState t i = Ss.halted
  stat  : fld t (Reg.stmDescW7 i) Fl.stmDescW7_LASTSTAT = code
  outst : (strm t i).outst = []

theorem haltStream_halts {code : Nat} (hi : i < 64) (hc : code < 2 ^ 8) (s : State) :
    Halted i code (haltStream s i code) := by
  unfold haltStream
  extract_lets x halted shown cleared deep lists
  have hhalted : fld halted (Reg.stmDescW7 i) Fl.stmDescW7_STATE = Ss.halted :=
    (settleMcast_sState hi _).trans (fld_setFld_self _ _ _ _ (by decide))
  clear_value halted
  have hstate : fld shown (Reg.stmDescW7 i) Fl.stmDescW7_STATE = Ss.halted :=
    (fld_setFld_other halted _ Fl.stmDescW7_LASTSTAT Fl.stmDescW7_STATE _ (by decide) (by decide)).trans hhalted
  have hstat : fld shown (Reg.stmDescW7 i) Fl.stmDescW7_LASTSTAT = code :=
    (fld_setFld_self halted _ Fl.stmDescW7_LASTSTAT _ (by decide)).trans (Nat.mod_eq_of_lt hc)
  clear_value shown
  have hstate : fld cleared (Reg.stmDescW7 i) Fl.stmDescW7_STATE = Ss.halted :=
    (fld_setFld_other shown _ Fl.stmDescW7_PENDING Fl.stmDescW7_STATE _ (by decide) (by decide)).trans hstate
  have hstat : fld cleared (Reg.stmDescW7 i) Fl.stmDescW7_LASTSTAT = code :=
    (fld_setFld_other shown _ Fl.stmDescW7_PENDING Fl.stmDescW7_LASTSTAT _ (by decide) (by decide)).trans hstat
  clear_value cleared
  have hlists : lists.regs = cleared.regs := rfl
  clear_value lists
  exact ⟨(fld_regs hlists).trans hstate, (fld_regs hlists).trans hstat, congrArg StreamSt.outst (strm_setStrm_self ..)⟩

theorem haltStream_desc {code : Nat} (hi : i < 64) (s : State) : desc (haltStream s i code) i = desc s i := by
  refine desc_of_rd fun a _ ha => ?_
  have low : a < Reg.stmMcast 0 := by unfold Reg.stmDescW7 at ha; unfold Reg.stmMcast; omega
  have ne : Reg.stmDescW7 i ≠ a := Nat.ne_of_gt ha
  unfold haltStream
  extract_lets x halted shown cleared deep lists
  have hhalted : rd halted a = rd s a := (rd_settleMcast_below low _).trans (rd_setFld_ne _ _ _ ne)
  clear_value halted
  have hcleared : rd cleared a = rd s a :=
    (rd_setFld_ne _ _ _ ne).trans ((rd_setFld_ne _ _ _ ne).trans hhalted)
  clear_value cleared
  exact hcleared

/-- What follows the messages of a stream that has halted shows it as halted. -/
theorem Halted.ended {code : Nat} (h : Halted i code t) (hd : (desc t i).isOutbound = true) :
    Halted i code (extend (checkEnd t i) i) := by
  have stop : checkEnd t i = t := endSeqs_stopped (by rw [h.state]; decide)
  obtain ⟨room, _⟩ := extend_given (s := t) (.inr hd)
  obtain ⟨S, e⟩ := room.only
  rw [stop]
  have same : ∀ f, fld (extend t i) (Reg.stmDescW7 i) f = fld t (Reg.stmDescW7 i) f := fun f => by rw [e]; rfl
  exact ⟨(same _).trans h.state, (same _).trans h.stat, room.outst.trans h.outst⟩

/-! ### The three hops -/

/-- A running OUT_LINK stream to another block has closed bytes to send. -/
structure LinkDue (s : State) (i : Nat) : Prop extends Remote s i where
  skip  : skipDue s i = none
  runs  : sState s i = Ss.running
  kind  : (desc s i).kind = 3
  mc    : (desc s i).mc = false
  px    : pxRuns s = true
  asked : (strm s i).asked < closedEnd (beforeTransfer s i) i
  seq   : curSeq (strm s i) ≠ none

/-- Room has been given to a stream, and it is due to send. -/
structure Ready (i : Nat) (s u : State) : Prop where
  remote : Remote u i
  room   : Roomed i s u
  asked  : (strm u i).asked < closedEnd u i
  seq    : curSeq (strm u i) ≠ none

theorem Ready.desc (h : Ready i s u) : desc u i = desc s i := by
  obtain ⟨S, e⟩ := h.room.only
  rw [e]
  rfl

theorem LinkDue.outbound (h : LinkDue s i) : (desc s i).isOutbound = true := (isOutbound_iff _).mpr (.inr h.kind)

theorem LinkDue.ready (h : LinkDue s i) : Ready i s (beforeTransfer s i) := by
  obtain ⟨room, turn⟩ := beforeTransfer_outbound h.outbound h.clean.inj h.clean.poison h.clean.turn
  have asked := h.asked
  generalize beforeTransfer s i = u at room turn asked
  obtain ⟨S, e⟩ := room.only
  refine ⟨⟨⟨?_, ?_, turn⟩, ?_, ?_⟩, room, ?_, ?_⟩
  · rw [e]
    exact h.clean.inj
  · rw [e]
    exact h.clean.poison
  · rw [e]
    exact h.other
  · rw [e]
    exact h.held
  · rw [room.asked]
    exact asked
  · rw [curSeq_congr room.seqs]
    exact h.seq

theorem LinkDue.run {i : Fin 64} (h : LinkDue s i) (hu : beforeTransfer s i = u) : execStreamEngineTransfer i s =
    .next (extend (checkEnd (sendRemote (closedEnd u i - (strm u i).asked) u i (closedEnd u i)) i) i) := by
  have hd : desc u i = desc s i := hu ▸ h.ready.desc
  rw [execTransfer_runs h.skip h.runs h.px, hu, transferKind_sends (by rw [hd, h.kind]) (by rw [hd, h.mc])]

/-- A message of a stream that has been given room reads as it did at first, but for the bytes. -/
theorem Ready.msg (h : Ready i s u) (r : Req) : writeMsg u i r =
    ⟨4, ⟨(Machine.desc s i).xstratum, stratum s, sTenant s i, outAddr s i r.pos false, r.len - 1⟩, outAt u i r.pos r.len,
      none, none, some i⟩ := by
  obtain ⟨S, e⟩ := h.room.only
  unfold writeMsg
  rw [outAddr_congr h.desc h.room.seqs, h.desc, e]
  rfl

theorem isResident_kind {d : Desc} (h : d.kind = 3) : d.isResident = false := by
  unfold Desc.isResident
  rw [h]
  rfl

/-- What follows the messages of a stream with messages under way. -/
theorem Ready.after (h : Ready i s u) (hk : (Machine.desc s i).kind = 3) (hd : Machine.desc t i = Machine.desc u i)
    (ho : (strm t i).outst ≠ []) : Roomed i t (extend (checkEnd t i) i) := by
  have hd' : Machine.desc t i = Machine.desc s i := hd.trans h.desc
  rw [checkEnd_busy (by rw [hd']; exact isResident_kind hk) ho]
  exact (extend_given (.inr (by rw [hd']; exact (isOutbound_iff _).mpr (.inr hk)))).1

/-- A link of the route serves: messages leave on it, within its largest payload, and are noted. -/
theorem execTransfer_sends {i : Fin 64} (h : LinkDue s i) (hop : nextLink s (desc s i).xstratum 2 none = .via l) :
    ∃ t rs, execStreamEngineTransfer i s = .next t ∧ rs ≠ [] ∧ Asked i s t rs ∧
      (∀ r ∈ rs, r.port = l ∧ 0 < r.len ∧ outAddr s i r.pos false % 64 + r.len ≤ maxPayload s l) ∧
      t.writes = s.writes ++ rs.map (writeNote s i l) ∧
      link t l = link (sendAll (writeMsg (beforeTransfer s i) i) l rs s) l := by
  have ready := h.ready
  have hrun := h.run rfl
  generalize beforeTransfer s i = u at hrun ready
  obtain ⟨S, e⟩ := ready.room.only
  have hop' : nextLink u (desc u i).xstratum 2 none = .via l := by
    rw [ready.desc, ← hop, e]
    rfl
  obtain ⟨rs, ⟨ahead, fits, counted, links, G, T, L, e'⟩, hne⟩ :=
    sendRemote_sends i.isLt ready.remote hop' ready.seq ready.asked
  generalize sendRemote _ u i (closedEnd u i) = t at hrun ahead counted links e'
  have busy : (strm t i).outst ≠ [] := by
    rw [ahead.outst]
    exact fun k => hne (List.append_eq_nil_iff.mp k).2
  have after := ready.after h.kind counted.desc busy
  obtain ⟨V, e''⟩ := after.only
  have addr : ∀ p, outAddr u i p false = outAddr s i p false := fun p => outAddr_congr ready.desc ready.room.seqs p false
  refine ⟨_, rs, hrun, hne, ahead.between ready.room after, fun r hr => ?_, ?_, ?_⟩
  · have fit := fits r hr
    rw [addr, e] at fit
    exact fit
  · have note : ∀ r, writeNote u i l r = writeNote s i l r := fun r => by
      unfold writeNote
      rw [addr, ready.desc, e]
      rfl
    rw [e'', e', funext note, e]
  · calc Machine.link (extend (checkEnd t i) i) l = Machine.link t l := by rw [e'']; rfl
      _ = _ := links
      _ = _ := link_sendAll_congr (by rw [e]; rfl) (by rw [e]; rfl)

/-- None serves yet: one message is held. -/
theorem execTransfer_holds {i : Fin 64} (h : LinkDue s i) (hop : nextLink s (desc s i).xstratum 2 none = .wait) :
    ∃ t r, execStreamEngineTransfer i s = .next t ∧ r.pos = (strm s i).asked ∧ 0 < r.len ∧
      t.transit = s.transit ++ [writeMsg (beforeTransfer s i) i r] ∧ (strm t i).outst = (strm s i).outst ++ [r] := by
  have ready := h.ready
  have hrun := h.run rfl
  generalize beforeTransfer s i = u at hrun ready
  obtain ⟨S, e⟩ := ready.room.only
  have hop' : nextLink u (desc u i).xstratum 2 none = .wait := by
    rw [ready.desc, ← hop, e]
    rfl
  have full := messageLen_pos ready.seq ready.asked (Nat.le_refl 256)
  have step := repeatWhile_stops (k := closedEnd u i - (strm u i).asked) (Nat.sub_ne_zero_of_lt ready.asked)
    (sendRemoteOne_wait ready.remote hop' full)
  have hrun := hrun.trans (congrArg (fun t => Host.Outcome.next (extend (checkEnd t i) i)) step)
  have hpos : (messageReq u i (closedEnd u i) 256 6).pos = (strm u i).asked := rfl
  have hlen : (messageReq u i (closedEnd u i) 256 6).len ≠ 0 := full
  clear step full
  generalize messageReq u i (closedEnd u i) 256 6 = r at hrun hpos hlen
  have outst : (strm (heldSent u i r) i).outst = (strm u i).outst ++ [r] :=
    congrArg StreamSt.outst (strm_setStrm_self ..)
  have counted : Counted i u (heldSent u i r) (0 + r.len) := (Counted.zero i u).next rfl
  have after := ready.after (t := heldSent u i r) h.kind counted.desc (by rw [outst]; simp)
  obtain ⟨V, e''⟩ := after.only
  refine ⟨_, r, hrun, hpos.trans ready.room.asked, Nat.pos_of_ne_zero hlen, ?_, ?_⟩
  · calc (extend (checkEnd (heldSent u i r) i) i).transit = (heldSent u i r).transit := by rw [e'']
      _ = u.transit ++ [writeMsg u i r] := rfl
      _ = _ := by rw [e]
  · rw [after.outst, outst, ready.room.outst]

/-- None can: the stream halts. -/
theorem execTransfer_fails {i : Fin 64} (h : LinkDue s i) (hop : nextLink s (desc s i).xstratum 2 none = .fail) :
    ∃ t, execStreamEngineTransfer i s = .next t ∧ Halted i St.linkDown t := by
  have ready := h.ready
  have hrun := h.run rfl
  generalize beforeTransfer s i = u at hrun ready
  obtain ⟨S, e⟩ := ready.room.only
  have hop' : nextLink u (desc u i).xstratum 2 none = .fail := by
    rw [ready.desc, ← hop, e]
    rfl
  have step := repeatWhile_stops (k := closedEnd u i - (strm u i).asked) (Nat.sub_ne_zero_of_lt ready.asked)
    (sendRemoteOne_fail ready.remote hop' (messageLen_pos ready.seq ready.asked (Nat.le_refl 256)))
  refine ⟨_, hrun.trans (congrArg (fun t => Host.Outcome.next (extend (checkEnd t i) i)) step), ?_⟩
  refine (haltStream_halts i.isLt (by decide) u).ended ?_
  rw [haltStream_desc i.isLt, ready.desc]
  exact h.outbound

end

end Sys2Proof.Machine

/-! PROOFS. What the ends of sequences leave of the requests and of BYTES of a stream (R147, R154). -/

namespace Sys2Proof.Machine

/-! ## Records of severity CONTAINED (R377) -/

section
variable {s : State} {r : ErrRec}

/-- The record of an event of severity CONTAINED is written. -/
def containedRecorded (s : State) (r : ErrRec) : State :=
  snapRec (incFld (detCounted s r) Reg.errCnt Fl.errCnt_CONTAINED 1) r
    (if r.det = 0 then 0 else mapGet 0 s.detCount r.det + 1)

/-- Such an event is counted, recorded and raised; where Flint caused it FLT shows it too. -/
theorem recordErr_sevContained (h : r.sev = 1) : recordErr s r =
    if r.inj then summarize (attnErr (containedRecorded s r) r.unit) Unit.flt
    else attnErr (containedRecorded s r) r.unit := by
  unfold recordErr
  simp only [h]
  simp [containedRecorded, detCounted]

end

/-! ## The frame -/

/-- From s to t the requests of stream i and its BYTES stand. -/
structure Settled (i : Nat) (s t : State) : Prop where
  outst : (strm t i).outst = (strm s i).outst
  bytes : fld t (Reg.stmDescW7 i) Fl.stmDescW7_BYTES = fld s (Reg.stmDescW7 i) Fl.stmDescW7_BYTES

section
variable {s₀ s t : State} {i : Nat}

theorem Settled.rfl' (i : Nat) (s : State) : Settled i s s := ⟨rfl, rfl⟩

theorem Settled.trans (h : Settled i s₀ s) (k : Settled i s t) : Settled i s₀ t :=
  ⟨k.outst.trans h.outst, k.bytes.trans h.bytes⟩

/-- An update of neither the streams nor W7 of the stream. -/
theorem Settled.same (h : Settled i s₀ s) (hs : t.streams = s.streams)
    (hr : rd t (Reg.stmDescW7 i) = rd s (Reg.stmDescW7 i)) : Settled i s₀ t :=
  h.trans ⟨by unfold strm; rw [hs], fld_congr hr⟩

theorem Settled.ite {a b : State} {c : Prop} [Decidable c] (ha : Settled i s₀ a) (hb : Settled i s₀ b) :
    Settled i s₀ (if c then a else b) := by
  split
  · exact ha
  · exact hb

theorem Settled.setFld {a v : Nat} {f : Field} (h : Settled i s₀ s) (ha : a ≠ Reg.stmDescW7 i) :
    Settled i s₀ (Machine.setFld s a f v) := h.same rfl (rd_setFld_ne _ _ _ ha)

/-- A write of another field of W7. -/
theorem Settled.setW7 {v : Nat} {f : Field} (h : Settled i s₀ s) (hf : 48 ≤ f.lo) :
    Settled i s₀ (Machine.setFld s (Reg.stmDescW7 i) f v) :=
  h.trans ⟨rfl, fld_setFld_other _ _ f Fl.stmDescW7_BYTES _ (.inl hf) (by decide)⟩

theorem Settled.setStrm {x : StreamSt} (h : Settled i s₀ s) (hx : x.outst = (strm s i).outst) :
    Settled i s₀ (Machine.setStrm s i x) := h.trans ⟨by rw [strm_setStrm_self, hx], rfl⟩

section
variable (hi : i < 64)
include hi

theorem Settled.books (h : Settled i s₀ s) (k : Books bookReg s t) : Settled i s₀ t :=
  h.same (congrArg State.streams k.rest :) (k.regs _ (bookReg_stmDescW7 hi))

/-! ### Records and Flint -/

theorem snapRec_settled {r : ErrRec} {count : Nat} (h : Settled i s₀ s) : Settled i s₀ (snapRec s r count) := by
  unfold snapRec
  cases r.snap
  · exact h.books hi (writeRec_book bookReg_covers (book_refl s))
  · exact (h.same (t := (takeFree s 64).2) rfl rfl).books hi (writeRec_book bookReg_covers (book_refl _))

theorem recordErr_settled {r : ErrRec} (hr : r.sev = 1) (h : Settled i s₀ s) : Settled i s₀ (recordErr s r) := by
  have counted : Settled i s₀ (detCounted s r) := Settled.ite h (h.same rfl rfl)
  have shown := counted.setFld (a := Reg.errCnt) (f := Fl.errCnt_CONTAINED)
    (v := fld (detCounted s r) Reg.errCnt Fl.errCnt_CONTAINED + 1) (by unfold Reg.errCnt Reg.stmDescW7; omega)
  have recorded : Settled i s₀ (containedRecorded s r) := snapRec_settled hi shown
  have raised : Settled i s₀ (attnErr (containedRecorded s r) r.unit) :=
    recorded.books hi (attnErr_book bookReg_covers (book_refl _))
  rw [recordErr_sevContained hr]
  exact .ite (raised.books hi (summarize_book bookReg_covers (book_refl _))) raised

theorem injOne_settled {det n : Nat} {x : InjSel} {busy : Bool} {acc : Option Nat × State}
    (hacc : Settled i s₀ acc.2) : Settled i s₀ (injOne det x busy acc n).2 := by
  have a0 : Reg.fltInjW0 n ≠ Reg.stmDescW7 i := by unfold Reg.fltInjW0 Reg.stmDescW7; omega
  have a3 : Reg.fltInjW3 n ≠ Reg.stmDescW7 i := by unfold Reg.fltInjW3 Reg.stmDescW7; omega
  obtain ⟨hit, u⟩ := acc
  unfold injOne
  split
  next hit u e =>
  cases e
  extract_lets mode met seen period noted fired cnt left
  have hnoted : Settled i s₀ noted := hacc.same rfl rfl
  clear_value noted
  have hfired : Settled i s₀ fired := hnoted.setFld a3
  clear_value fired
  have hleft : Settled i s₀ left := .ite (hfired.setFld a0) hfired
  clear_value left met mode
  split
  · exact hacc
  · split
    · exact hacc.setFld a3
    · split
      · exact hnoted
      · exact hleft

theorem flint_settled {det : Nat} {x : InjSel} {busy : Bool} (h : Settled i s₀ s) :
    Settled i s₀ (flint s det x busy).2 :=
  List.foldlRecOn (motive := fun (u : Option Nat × State) => Settled i s₀ u.2) _ _ h fun _ hu _ _ => injOne_settled hi hu

/-! ### Posts -/

theorem endWait_settled {v code : Nat} (hv : v < 16) (h : Settled i s₀ s) : Settled i s₀ (endWait s v code) := by
  unfold endWait
  extract_lets x lost ended
  have hended : Settled i s₀ ended := h.same rfl rfl
  clear_value ended
  split
  · exact hended.books hi (refreshVein_book bookReg_covers hv (book_refl _))
  next j _ =>
    extract_lets met slipped
    have hmet : Settled i s₀ met := .ite hended (hended.same rfl rfl)
    clear_value met
    have hslipped : Settled i s₀ slipped := .ite (hmet.same rfl rfl) hmet
    clear_value slipped
    exact hslipped.books hi (completeJob_book bookReg_covers hv (bookReg_seq hv) (book_refl _))

theorem semWake_settled {k n : Nat} (h : Settled i s₀ s) : Settled i s₀ (semWake k n s) := by
  have ne : Reg.semVal k ≠ Reg.stmDescW7 i := by unfold Reg.semVal Reg.stmDescW7; omega
  induction n generalizing s with
  | zero => exact h
  | succ n ih =>
    unfold semWake
    split
    · exact h
    next o v c tile ws e =>
      have hv : v < 16 := mem_semWaiters_lt (s := s) (k := k) (w := (o, v, c, tile)) (e ▸ List.mem_cons_self)
      split
      · extract_lets taken
        have htaken : Settled i s₀ taken := h.setFld ne
        clear_value taken
        refine ih ?_
        split
        · exact endWait_settled hi hv htaken
        · exact htaken.same rfl rfl
      · exact h

theorem semRaise_settled {k val src : Nat} {n : Option Nat} (h : Settled i s₀ s) :
    Settled i s₀ (semRaise s k val src n) := by
  have ne : Reg.semVal k ≠ Reg.stmDescW7 i := by unfold Reg.semVal Reg.stmDescW7; omega
  have ovf : Reg.semOvf ≠ Reg.stmDescW7 i := by unfold Reg.semOvf Reg.stmDescW7; omega
  unfold semRaise
  extract_lets sum raised excess capped
  have hraised : Settled i s₀ raised := h.setFld ne
  clear_value raised
  have hcapped : Settled i s₀ capped := .ite (recordErr_settled hi rfl (hraised.setFld ovf)) hraised
  clear_value capped
  exact (semWake_settled hi hcapped).setFld ne

theorem semPost_settled {k val n src : Nat} {v : Option Nat} (h : Settled i s₀ s) :
    Settled i s₀ (semPost s k val n src v) := by
  have refused : Reg.semRefused ≠ Reg.stmDescW7 i := by unfold Reg.semRefused Reg.stmDescW7; omega
  unfold semPost
  extract_lets sel r inj hit
  have hhit : Settled i s₀ hit := flint_settled hi h
  clear_value hit
  exact .ite (recordErr_settled hi rfl (hhit.setFld refused)) (semRaise_settled hi hhit)

/-! ### Ends of sequences -/

theorem endPost_settled (h : Settled i s₀ s) : Settled i s₀ (endPost s i) :=
  .ite h (.ite (.ite (semPost_settled hi h) (h.same rfl rfl)) (semPost_settled hi h))

omit hi in
theorem writeActivity_settled (h : Settled i s₀ s) : Settled i s₀ (writeActivity s i) := by
  have ne : Reg.trmAct (i / 8) ≠ Reg.stmDescW7 i := by unfold Reg.trmAct Reg.stmDescW7; omega
  unfold writeActivity
  extract_lets x shown
  have hx : x.outst = (strm s i).outst := rfl
  have hshown : Settled i s₀ shown := h.setStrm hx
  clear_value shown
  exact .ite (.ite ((hshown.same (t := (takeFree shown 8).2) rfl rfl).setFld ne) (hshown.setFld ne)) h

omit hi in
theorem startSeq_settled {start xbase : Nat} (h : Settled i s₀ s) : Settled i s₀ (startSeq s i start xbase) := by
  have ne : Reg.stmDescW0 i ≠ Reg.stmDescW7 i := by unfold Reg.stmDescW0 Reg.stmDescW7; omega
  exact (h.setFld ne).setStrm rfl

theorem settleMcast_settled (h : Settled i s₀ s) : Settled i s₀ (settleMcast s) :=
  h.same (settleMcast_streams s) (rd_settleMcast_below (by unfold Reg.stmDescW7 Reg.stmMcast; omega) s)

theorem settleWaits_settled (h : Settled i s₀ s) : Settled i s₀ (settleWaits s) :=
  h.books hi (settleWaits_book bookReg_covers (book_refl s))

theorem seqEnd_settled (h : Settled i s₀ s) : Settled i s₀ (seqEnd s i) := by
  unfold seqEnd
  extract_lets shown posted x taken flagged
  have hposted : Settled i s₀ posted := endPost_settled hi (writeActivity_settled h)
  have hx : x.outst = (strm posted i).outst := rfl
  have htaken : Settled i s₀ taken := hposted.setStrm hx
  clear_value posted x taken
  have hflagged : Settled i s₀ flagged := htaken.setW7 (by decide)
  clear_value flagged
  split
  · exact settleWaits_settled hi (startSeq_settled hflagged)
  · split
    · exact startSeq_settled hposted
    · exact settleMcast_settled hi (settleWaits_settled hi (hposted.setW7 (by decide)))

theorem checkEnd_settled (s : State) : Settled i s (checkEnd s i) := by
  have key : ∀ (k : Nat) (u : State), Settled i s u → Settled i s (endSeqs k u i) := by
    intro k
    induction k with
    | zero => exact fun _ hu => hu
    | succ k ih =>
      intro u hu
      unfold endSeqs
      split
      · exact ih _ (seqEnd_settled hi hu)
      · exact hu
  exact key _ s (.rfl' i s)

end
end

end Sys2Proof.Machine

/-! PROOFS. Responses at the Deep ports (R145, R375, R413, R414), and the obligation. -/

namespace Sys2Proof.Machine

section
variable {s t w : State} {i p : Nat} {r : Req} {bytes : List Byte}

/-! ## The request that is answered -/

/-- The request is no longer under way. -/
def answered (s : State) (i : Nat) (r : Req) : State :=
  setStrm s i { strm s i with outst := (strm s i).outst.filter (fun y => y != r) }

theorem strm_answered (s : State) (i : Nat) (r : Req) : strm (answered s i r) i =
    { strm s i with outst := (strm s i).outst.filter (fun y => y != r) } := strm_setStrm_self ..

theorem answered_outst (s : State) (i : Nat) (r : Req) :
    (strm (answered s i r) i).outst = (strm s i).outst.filter (fun y => y != r) := by
  rw [strm_answered]

theorem notMem_filter_ne (r : Req) (l : List Req) : r ∉ l.filter (fun y => y != r) := by simp

/-- A change of the requests of a stream leaves the turn units as they are. -/
theorem turn_outst (s : State) (i : Nat) (o : List Req) (j : Nat) :
    (strm (setStrm s i { strm s i with outst := o }) j).turn = (strm s j).turn := by
  rw [strm_setStrm]
  split
  next e => rw [e]
  next => rfl

theorem posAddr_answered (s : State) (i : Nat) (r : Req) (q : Nat) : posAddr (answered s i r) i q = posAddr s i q :=
  posAddr_congr (s := s) (t := answered s i r) rfl (by rw [strm_answered]) (by rw [strm_answered]) q

/-! ## What follows an answer -/

/-- After an answer sequences may end and room is given; where no turn unit holds anything and no ELEMWISE is in flight,
of Mica only the error ring is written. -/
theorem answer_ends (hi : i < 64) (ht : ∀ j, (strm w j).turn = []) (hj : ∀ v, v < 16 → NoElemwise (vein w v)) :
    let t := pumpAll (extend (checkEnd w i) i)
    Settled i w t ∧ ∀ a, ringByte w a = false → micaByte t a = micaByte w a := by
  have ends : StreamFrame false w (checkEnd w i) := checkEnd_frame hi (.rfl' _ w)
  have turn : (strm (checkEnd w i) i).turn = [] := (ends.strms i).turn (ht i)
  obtain ⟨room, _⟩ := extend_given (s := checkEnd w i) (.inl turn)
  obtain ⟨S, e⟩ := room.only
  have idle : pumpAll (extend (checkEnd w i) i) = extend (checkEnd w i) i :=
    pumpAll_idle fun v hv => (extend_frame hi ends).jobs v (hj v hv)
  rw [idle]
  refine ⟨(checkEnd_settled hi w).trans ⟨room.outst, by rw [e]; rfl⟩, fun a ha => ?_⟩
  calc micaByte (extend (checkEnd w i) i) a = micaByte (checkEnd w i) a := by rw [e]; rfl
    _ = micaByte w a := checkEnd_mica hi ha

/-! ## Data at their places (R145) -/

/-- Bytes written at places leave every other byte of Mica. -/
theorem micaByte_putAt_ne {q a : Nat} (h : ∀ k < bytes.length, posAddr s i (q + k) ≠ some a) :
    micaByte (putAt s i q bytes) a = micaByte s a := by
  have runs := flatMap_runsOf (placed s i q bytes)
  refine micaByte_foldl_ne (rs := runsOf (placed s i q bytes)) (fun b hb c hc e => ?_) s
  have hc' : c ∈ placed s i q bytes := by
    rw [← runs]
    exact List.mem_flatMap.mpr ⟨b, hb, hc⟩
  obtain ⟨k, hk, hpos, _⟩ := mem_placed.mp hc'
  exact h k hk (e ▸ hpos)

/-- The bytes of a request lie at their places, and count. -/
def placedRead (s : State) (i : Nat) (r : Req) (bytes : List Byte) : State :=
  countBytes (land (answered s i r) i r.pos bytes []) i r.len

/-- Bytes that land directly leave the requests of the stream. -/
theorem land_outst (hd : direct s i = true) (q : Nat) : (strm (land s i q bytes []) i).outst = (strm s i).outst := by
  obtain ⟨M, P, e⟩ := putAt_mica_poison s i q bytes
  rw [land_clean, if_pos hd, strm_setStrm_self, e]
  rfl

theorem placedRead_places (hi : i < 64) (hd : direct s i = true) (ht : ∀ j, (strm s j).turn = []) :
    let w := placedRead s i r bytes
    (strm w i).outst = (strm s i).outst.filter (fun y => y != r) ∧ (∀ j, (strm w j).turn = []) ∧
    fld w (Reg.stmDescW7 i) Fl.stmDescW7_BYTES = (fld s (Reg.stmDescW7 i) Fl.stmDescW7_BYTES + r.len) % 2 ^ 48 ∧
    rd w Reg.errRingCfg = rd s Reg.errRingCfg ∧ (∀ v, NoElemwise (vein s v) → NoElemwise (vein w v)) ∧
    ∀ a, micaByte w a = micaByte (putAt (answered s i r) i r.pos bytes) a := by
  intro w
  have hd' : direct (answered s i r) i = true := hd
  obtain ⟨frame, regs, mica⟩ := land_direct (p := r.pos) (bs := bytes) hd'
  have outst := (land_outst (bytes := bytes) hd' r.pos).trans (answered_outst s i r)
  have turn : ∀ j, (strm (answered s i r) j).turn = [] := fun j => (turn_outst ..).trans (ht j)
  have hw : w = countBytes (land (answered s i r) i r.pos bytes []) i r.len := rfl
  generalize land (answered s i r) i r.pos bytes [] = l at frame regs mica outst hw
  have counted : Counted i l w (0 + r.len) := (Counted.zero i l).next (congrArg State.regs hw)
  rw [Nat.zero_add] at counted
  have hrd : ∀ a, rd l a = rd s a := fun a => by
    unfold rd
    rw [regs]
    rfl
  refine ⟨hw ▸ outst, fun j => ?_, ?_, ?_, fun v hv => ?_, fun a => ?_⟩
  · rw [hw]
    exact (frame.strms j).turn (turn j)
  · rw [counted.bytes, fld_congr (hrd _)]
  · rw [counted.regs _ (by unfold Reg.errRingCfg Reg.stmDescW7; omega), hrd]
  · rw [hw]
    exact frame.jobs v hv
  · rw [hw]
    show mapGet 0 l.mica a = _
    rw [mica]
    rfl

/-! ## The commands -/

theorem execRead_unowned {port : Fin 4} {tag : Nat} {rsp : DeepRead} (h : tagOwner s port tag false = none) :
    execDeepReadResponse port tag rsp s = .next (dropTag s port tag) := by
  unfold execDeepReadResponse
  rw [h]

theorem execRead_error {port : Fin 4} {tag : Nat} (h : tagOwner s port tag false = some (i, r)) :
    execDeepReadResponse port tag .error s = .next (deepErr (answered s i r) i false) := by
  unfold execDeepReadResponse
  rw [h]
  rfl

theorem execRead_data {port : Fin 4} {tag : Nat} {lines : List Nat} (h : tagOwner s port tag false = some (i, r))
    (hinj : injOff s) (hlen : bytes.length = r.len) (hp : portPoison s port = false ∨ lines = []) :
    execDeepReadResponse port tag (.data bytes lines) s =
      .next (pumpAll (extend (checkEnd (placedRead s i r bytes) i) i)) := by
  have clean : (if portPoison s port then lines else []) = [] := by
    rcases hp with hp | hp
    · rw [hp, if_neg Bool.false_ne_true]
    · rw [hp, ite_self]
  unfold execDeepReadResponse
  rw [h]
  dsimp only
  rw [flint_off hinj, if_neg (by simp [hlen])]
  dsimp only
  rw [if_neg Bool.false_ne_true]
  change Host.Outcome.next (pumpAll (extend (checkEnd (countBytes
    (land (answered s i r) i r.pos bytes (if portPoison s port then lines else [])) i r.len) i) i)) = _
  rw [clean]
  rfl

theorem evacReqs_none {port : Fin 4} {tag : Nat} (he : ∀ x ∈ s.evacReqs, x ≠ (port.val, tag)) :
    s.evacReqs.any (fun x => x.1 == port.val && x.2 == tag) = false := by
  rw [List.any_eq_false]
  intro x hx hk
  simp only [Bool.and_eq_true, beq_iff_eq] at hk
  exact he x hx (Prod.ext hk.1 hk.2)

theorem execWrite_unowned {port : Fin 4} {tag : Nat} {err : Bool} (he : ∀ x ∈ s.evacReqs, x ≠ (port.val, tag))
    (h : tagOwner s port tag true = none) : execDeepWriteResponse port tag err s = .next (dropTag s port tag) := by
  unfold execDeepWriteResponse
  dsimp only
  rw [evacReqs_none he, h]
  rfl

theorem execWrite_owned {port : Fin 4} {tag : Nat} {err : Bool} (he : ∀ x ∈ s.evacReqs, x ≠ (port.val, tag))
    (h : tagOwner s port tag true = some (i, r)) (hinj : injOff s) : execDeepWriteResponse port tag err s =
      .next (if err then deepErr (answered s i r) i false else pumpAll (ackPos s i r.pos)) := by
  unfold execDeepWriteResponse
  dsimp only
  rw [evacReqs_none he, h]
  dsimp only
  rw [flint_off hinj]
  dsimp only
  rw [Bool.or_false, if_neg Bool.false_ne_true]
  rfl

/-- The bytes of a write have been accepted: its request is no longer under way. -/
theorem ackPos_ends (hi : i < 64) (ht : ∀ j, (strm s j).turn = []) (hj : ∀ v, v < 16 → NoElemwise (vein s v)) :
    let t := pumpAll (ackPos s i r.pos)
    r ∉ (strm t i).outst ∧ ∀ a, ringByte s a = false → micaByte t a = micaByte s a := by
  let w := setStrm s i { strm s i with outst := (strm s i).outst.filter (fun q => q.pos != r.pos) }
  have turn : ∀ j, (strm w j).turn = [] := fun j => (turn_outst ..).trans (ht j)
  have outst : (strm w i).outst = (strm s i).outst.filter (fun q => q.pos != r.pos) :=
    congrArg StreamSt.outst (strm_setStrm_self ..)
  obtain ⟨settled, mica⟩ := answer_ends (w := w) hi turn hj
  refine ⟨?_, mica⟩
  show r ∉ (strm (pumpAll (extend (checkEnd w i) i)) i).outst
  rw [settled.outst, outst]
  simp

/-! ## Errors at the ports (R375) -/

theorem haltStream_errAtn {code : Nat} (hi : i < 64) (s : State) :
    flag (haltStream s i code) Reg.errAtn Fl.errAtn_ERR = flag s Reg.errAtn Fl.errAtn_ERR := by
  have ne : Reg.stmDescW7 i ≠ Reg.errAtn := by unfold Reg.stmDescW7 Reg.errAtn; omega
  have loads : (loadMask Reg.errAtn).testBit 1 = false := by decide +kernel
  have kept : ∀ u, flag (settleMcast u) Reg.errAtn Fl.errAtn_ERR = flag u Reg.errAtn Fl.errAtn_ERR := fun u =>
    settleMcast_induction (P := fun x => flag x Reg.errAtn Fl.errAtn_ERR = flag u Reg.errAtn Fl.errAtn_ERR)
      (fun _ => rfl) fun x k v hx => by
        rw [← hx, show Fl.errAtn_ERR = ⟨1, 1⟩ from rfl, flag_bit, flag_bit]
        by_cases e : Reg.stmMcast k = Reg.errAtn
        · have bit := testBit_applyRec (s := x) (p := (Reg.stmMcast k, v)) (i := 1) (by decide) (by
            show (loadMask (Reg.stmMcast k)).testBit 1 = false
            rw [e]
            exact loads)
          rw [← e]
          exact bit
        · rw [rd_applyRec_ne (p := (Reg.stmMcast k, v)) e]
  have same : ∀ {u v : State}, rd v Reg.errAtn = rd u Reg.errAtn →
      flag v Reg.errAtn Fl.errAtn_ERR = flag u Reg.errAtn Fl.errAtn_ERR := fun h => by
    unfold flag
    rw [fld_congr h]
  unfold haltStream
  extract_lets x halted shown cleared deep lists
  have hhalted : flag halted Reg.errAtn Fl.errAtn_ERR = flag s Reg.errAtn Fl.errAtn_ERR :=
    (kept _).trans (same (rd_setFld_ne _ _ _ ne))
  clear_value halted
  have hcleared : rd cleared Reg.errAtn = rd halted Reg.errAtn :=
    (rd_setFld_ne _ _ _ ne).trans (rd_setFld_ne _ _ _ ne)
  clear_value cleared
  exact (same hcleared).trans hhalted

/-- An endpoint's error halts the stream, and is raised. -/
theorem deepErr_halts (hi : i < 64) (s : State) : Halted i St.endpointError (deepErr s i false) ∧
    flag (deepErr s i false) Reg.errAtn Fl.errAtn_ERR = true := by
  refine ⟨haltStream_halts hi (by decide) _, (haltStream_errAtn hi _).trans ?_⟩
  rw [recordErr_sevContained rfl]
  exact attnErr_flag ..

end

end Sys2Proof.Machine

namespace Sys2Proof.Proofs

open Sys2Proof.Machine

/-- Settles O37: each clause is what its command does where its guard holds. The requests of a transfer are gathered one
by one (`repeatWhile_adds`), each kept apart from the room given before and after it (`Roomed`); what follows an answer
moves no byte outside the error ring (`answer_ends`). -/
theorem deepPortsMoveStreams : Obligations.DeepPortsMoveStreams := by
  unfold Obligations.DeepPortsMoveStreams
  intro s
  refine ⟨fun i => ?transfer, ?read, ?write, ?unowned⟩
  case transfer =>
    intro d x tu ask ports onPorts inOrder
    refine ⟨execTransfer_clamped, execTransfer_idle, ?refetch, ?reads, ?out⟩
    case refetch =>
      intro q len hk hr hw hl hp hq he hs
      obtain ⟨t, rs, run, ⟨onPort, outst, asked, _, _, S, e⟩, head⟩ := execTransfer_refetches hk hr hw hl hp hq he hs
      exact ⟨t, rs, run, e ▸ rfl, onPort, head, outst, asked, e ▸ rfl⟩
    case reads =>
      intro hk hs hkind hm ht hr hw
      obtain ⟨t, rs, run, ⟨other, asked, outst, order⟩, onPort, adds, S, e⟩ := execTransfer_reads hk hs hkind hm ht hr hw
      exact ⟨t, rs, run, e ▸ rfl, onPort, order, outst, asked, adds, other, e ▸ rfl⟩
    case out =>
      intro hk hs hinj hpoison hturn hr hw u due
      refine ⟨fun hkind => ?_, fun hkind hmc hother hheld hdue => ?_⟩
      · obtain ⟨t, rs, run, ⟨_, asked, outst, order⟩, onPort, counted, adds, out⟩ :=
          execTransfer_writes hk hs hkind ⟨hinj, hpoison, hturn⟩ hr hw
        exact ⟨t, rs, run, out, onPort, order, outst, asked, fun hdue => adds hdue.1 hdue.2, counted.bytes, counted.regs⟩
      · intro hdr msg
        have hlink : LinkDue s i := ⟨⟨⟨hinj, hpoison, hturn⟩, hother, hheld⟩, hk, hs, hkind, hmc, hr, hdue.1, hdue.2⟩
        have hmsg : writeMsg (beforeTransfer s i) i = msg := funext hlink.ready.msg
        refine ⟨fun l hop => ?_, fun hop => ?_, fun hop => ?_⟩
        · obtain ⟨t, rs, run, hne, ⟨_, asked, outst, order⟩, fits, writes, links⟩ := execTransfer_sends hlink hop
          rw [hmsg] at links
          exact ⟨t, rs, run, hne, order, fits, writes, links, outst, asked⟩
        · obtain ⟨t, r, run, pos, len, transit, outst⟩ := execTransfer_holds hlink hop
          rw [hmsg] at transit
          exact ⟨t, r, run, pos, len, transit, outst⟩
        · obtain ⟨t, run, halted⟩ := execTransfer_fails hlink hop
          exact ⟨t, run, halted.state, halted.stat⟩
  case read =>
    intro p tag i r bytes lines hown hi hinj hj
    refine ⟨fun hlen hd ht hp hinj' => ?_, ?_⟩
    · obtain ⟨outst, turn, counted, ring, jobs, places⟩ := placedRead_places (r := r) (bytes := bytes) hi hd ht
      obtain ⟨settled, mica⟩ := answer_ends hi turn fun v hv => jobs v (noElemwise_of_allJobs hj hv)
      have addr := posAddr_answered s i r
      rw [← hlen] at hinj'
      refine ⟨_, execRead_data hown hinj hlen hp, ?_, fun k hk a ha hr => ?_, fun a ha hr => ?_, ?_⟩
      · rw [settled.outst, outst]
        exact notMem_filter_ne r _
      · rw [mica a ((ringByte_congr ring a).trans hr), places]
        exact micaByte_putAt (fun k k' h h' e => hinj' k k' h h' (by rw [← addr, ← addr, e])) (hlen ▸ hk)
          ((addr _).trans ha)
      · rw [mica a ((ringByte_congr ring a).trans hr), places]
        exact micaByte_putAt_ne fun k hk e => ha k (hlen ▸ hk) ((addr _).symm.trans e)
      · rw [settled.bytes, counted]
    · obtain ⟨halted, raised⟩ := deepErr_halts hi (answered s i r)
      exact ⟨_, execRead_error hown, halted.state, halted.outst, halted.stat, raised⟩
  case write =>
    intro p tag i r hown hi hinj hj he
    refine ⟨fun ht => ?_, ?_⟩
    · exact ⟨_, execWrite_owned he hown hinj, ackPos_ends hi ht fun v hv => noElemwise_of_allJobs hj hv⟩
    · obtain ⟨halted, _⟩ := deepErr_halts hi (answered s i r)
      exact ⟨_, execWrite_owned he hown hinj, halted.state, halted.stat⟩
  case unowned =>
    intro p tag rsp err u
    exact ⟨execRead_unowned, fun h he => execWrite_unowned he h⟩

end Sys2Proof.Proofs

/-! PROOFS. The refutation of O32: a SEM_WAIT on a semaphore number beyond the block's 256, whose PX_SEM_VAL would lie at
PX_CRN_FRAME, counts its last tick (R161, R231). -/

namespace Sys2Proof.Machine

/-! ## A wait whose semaphore lies at PX_CRN_FRAME -/

/-- The semaphore whose PX_SEM_VAL would lie at PX_CRN_FRAME. -/
def frameSem : Nat := (Reg.crnFrame - Reg.semVal 0) / 8

/-- RUN, a tick of frame 2^32 announced; vein 0 waits on frameSem with a timeout of one tick. -/
def waitAtFrame : State :=
  { State.reset with
    su := .run
    crn := { CairnSt.init with tick := some (2 ^ 32, 0, 0, 0) }
    veins := [(0, { VeinSt.init with wait := some (.sem frameSem 1 1 0 0) })] }

/-- The frame number in the state that a command leaves. -/
def frameOf (o : Host.Outcome State Fault Refusal) : Option Nat :=
  match o with
  | .next t => some (frameNo t)
  | _ => none

/-- The wait ends at the tick, and its semaphore shows no waiters: WAITERS is bits 35:32 of FRAME there. -/
theorem waitAtFrame_overwritten : Reg.semVal frameSem = Reg.crnFrame ∧
    frameOf (exec (.tickFire 0) waitAtFrame) = some 0 := by decide +kernel

end Sys2Proof.Machine

namespace Sys2Proof.Proofs
open Sys2Proof.Machine

/-- Refutes O32: nothing in it bounds the semaphores that veins wait on. A wait on semaphore 8,196 that counts its last
tick writes WAITERS into PX_CRN_FRAME, and the frame is 0 and not the announced 2^32. -/
theorem not_tickFireOpensFrame : ¬ Obligations.TickFireOpensFrame := by
  unfold Obligations.TickFireOpensFrame
  intro h
  obtain ⟨fires, -⟩ := h waitAtFrame 0 (2 ^ 32) 0 0 0 rfl rfl (by decide) (by decide)
  obtain ⟨t, run, frame, -⟩ := fires rfl
  obtain ⟨-, overwritten⟩ := waitAtFrame_overwritten
  rw [run] at overwritten
  exact absurd (frame.symm.trans (Option.some.inj overwritten)) (by decide)

end Sys2Proof.Proofs

/-! PROOFS. The refutation of O24: the fence of an array is complete, and the CLEAVE that asked for it stands in a vein
number beyond the block's 16, whose PX_VN_STAT would lie at PX_TCH_ARRAYS (R204, R380). -/

namespace Sys2Proof.Machine

/-! ## A CLEAVE whose vein has its PX_VN_STAT at PX_TCH_ARRAYS -/

/-- The vein whose PX_VN_STAT would lie at PX_TCH_ARRAYS. -/
def arraysVein : Nat := (Reg.tchArrays - Reg.vnStat 0) / 0x80

/-- A CLEAVE that has met STATE_ILLEGAL. -/
def lostCleave : Job :=
  { mkJob State.reset 0 ⟨0, [0x1D, 0, 0, 0]⟩ true with conds := [St.stateIllegal] }

/-- Array 0 is being fenced for the CLEAVE, the only command of arraysVein, and what PX_TCH_ARRAYS holds reads READY as the
state of that vein. -/
def fenceByCleave : State :=
  { State.reset with
    regs := [(Reg.tchArrays, 3 <<< 60)]
    arrays := [(0, { ArrSt.init with fencing := some (some (arraysVein, 0)) })]
    veins := [(arraysVein, { VeinSt.init with jobs := [lostCleave] })] }

/-- The FENCED bits in the state that a command leaves. -/
def fencedOf (o : Host.Outcome State Fault Refusal) : Option Nat :=
  match o with
  | .next t => some (fld t Reg.tchArrays Fl.tchArrays_FENCED)
  | _ => none

/-- The vein halts, and its HALTSEQ goes to bits 31:0 of PX_TCH_ARRAYS. -/
theorem fenceByCleave_cleared : Reg.vnStat arraysVein = Reg.tchArrays ∧ arrayEmpty fenceByCleave 0 = true ∧
    fencedOf (exec (.cleaveFenceDone ⟨0, (0 : Fin 4)⟩) fenceByCleave) = some 0 := by decide +kernel

end Sys2Proof.Machine

namespace Sys2Proof.Proofs
open Sys2Proof.Machine

/-- Refutes O24: nothing in it bounds the vein of the CLEAVE that asked for a fence. The halt of vein 4,096 writes HALTSEQ
over the FENCED bit that the fence has just set. -/
theorem not_eventsCompleteWithTheirEffect : ¬ Obligations.EventsCompleteWithTheirEffect := by
  unfold Obligations.EventsCompleteWithTheirEffect
  intro h
  obtain ⟨-, -, -, -, -, -, -, -, -, -, -, -, fence, -⟩ := h fenceByCleave
  obtain ⟨-, empty, cleared⟩ := fenceByCleave_cleared
  obtain ⟨t, run, -, -, fenced⟩ := fence (0 : Fin 4) (some (arraysVein, 0)) rfl empty
  rw [run] at cleared
  have none : fld t Reg.tchArrays Fl.tchArrays_FENCED = 0 := Option.some.inj cleared
  rw [none] at fenced
  exact absurd fenced (by decide)

end Sys2Proof.Proofs

/-! PROOFS. Control commands at the head (R200, R201): one that passes its checks runs its own effect, and the start of the
issue, the command's end and the next group touch the books alone. -/

namespace Sys2Proof.Machine

/-! ## The issue of a control command -/

section
variable {s s' : State} {v op : Nat} {c : Cmd}

theorem inTurn_head (hh : Head s v c op) (o : Host.Outcome State Fault Refusal) : inTurn s v o = o :=
  if_neg (by simp [hh.turn])

/-- A command that does no work shows no estimate as it issues. -/
theorem issueWith_control {chk : State → Nat → List W64 → Option Nat} {go : State → Nat → Cmd → State}
    (hh : Head s v c op) (hw : isWork op = false) (hc : chk s v c.words = none) : issueWith s v op chk go = go s v c := by
  unfold issueWith
  rw [headOf_eq hh]
  dsimp only
  rw [hh.good, hc, hh.op, hw, Bool.and_false, Bool.false_and, if_neg Bool.false_ne_true]
  refine if_neg ?_
  rcases hh.fill with h | h <;> simp [h]

theorem startIssue_book (h : Books bookReg s s') : Books bookReg (leftPrefetch s v) (startIssue s' v c) := by
  have left := leftPrefetch_book (v := v) (c := c) h
  exact ⟨left.regs, left.mica, left.veins, left.arrays,
    congrArg (fun x : TrmSt => { x with autocal := none }) left.trm, left.rest⟩

/-- A control command that is over as it issues touches, beside its effect, the books alone. -/
theorem issueNow_book {f : State → State} (hv : v < 16) :
    Books bookReg (f (startIssue s v c)) (issueNow s v c f) := by
  unfold issueNow completeNow
  exact afterIssue_book bookReg_covers hv (completeJob_book bookReg_covers hv (bookReg_seq hv) (book_refl _))

/-- With nothing in flight before it, it retires. -/
theorem issueNow_retires {f : State → State} (hv : v < 16)
    (hf : ∀ g j, Issued c j → vein (startIssue s v c) v = leftVein s v g [j] →
      ∃ k, (vein (f (startIssue s v c)) v).jobs = [k] ∧ k.seq = j.seq ∧ jobHalts k = false) :
    Retired s (issueNow s v c f) v c := by
  intro none
  obtain ⟨g, j, hj, hx⟩ := startIssue_alone (c := c) none
  obtain ⟨k, alone, seq, passes⟩ := hf g j hj hx
  have shown := completeJob_retires hv alone passes
  rw [seq, hj.seq, Nat.mod_eq_of_lt (cmdSeq_lt _)] at shown
  have covers := bookButSeq_covers hv
  unfold issueNow completeNow
  exact (fld_congr (rd_vnSeq_of_books (afterIssue_book covers hv (book_refl _)))).trans shown

theorem Issued.jobHalts_eq {j : Job} (hj : Issued c j) : jobHalts j = false :=
  List.any_eq_false.mpr fun _ hx h => List.not_mem_nil (hj.conds_pass ▸ List.mem_filter.mpr ⟨hx, h⟩)

/-- An effect that leaves the commands of the vein in flight. -/
theorem issueNow_retires_of_jobs {f : State → State} (hv : v < 16)
    (hf : (vein (f (startIssue s v c)) v).jobs = (vein (startIssue s v c) v).jobs) :
    Retired s (issueNow s v c f) v c :=
  issueNow_retires hv fun _ j hj hx => ⟨j, hf.trans (congrArg VeinSt.jobs hx), rfl, hj.jobHalts_eq⟩

end

/-! ## Registers that are no books -/

/-- From the registers of streams to those of power no register is a book. -/
theorem bookReg_between {a : Nat} (hlo : 0x30000 ≤ a) (hhi : a < 0x60000) : bookReg a = false := by
  have veins : (List.range 16).any (fun v => a == Reg.vnStat v || a == Reg.vnSeq v) = false := any_range_false fun v hv => by
    have : a ≠ Reg.vnStat v ∧ a ≠ Reg.vnSeq v := by unfold Reg.vnStat Reg.vnSeq; omega
    simp [this]
  have ne : a ≠ Reg.trmBudget ∧ a ≠ Reg.trmStat ∧ a ≠ Reg.errCnt ∧ a ≠ Reg.errCntCe ∧ a ≠ Reg.errAtn ∧
      a ≠ Reg.errSummary ∧ a ≠ Reg.errRingPtr ∧ ¬ Reg.errLast 0 ≤ a := by
    unfold Reg.trmBudget Reg.trmStat Reg.errCnt Reg.errCntCe Reg.errAtn Reg.errSummary Reg.errRingPtr Reg.errLast
    omega
  unfold bookReg errBook
  rw [veins]
  simp [ne]

theorem bookReg_semVal {k : Nat} (hk : k < 256) : bookReg (Reg.semVal k) = false :=
  bookReg_between (by unfold Reg.semVal; omega) (by unfold Reg.semVal; omega)

theorem semVal_ne_vnSeq {k v : Nat} (hv : v < 16) : Reg.semVal k ≠ Reg.vnSeq v := by
  unfold Reg.semVal Reg.vnSeq
  omega

/-! ## The same change on either side -/

section
variable {R : Nat → Bool} {s t : State}

theorem book_setFld_both (h : Books R s t) {a : Nat} (f : Field) (n : Nat) (ha : a ≠ Reg.errRingCfg) :
    Books R (setFld s a f n) (setFld t a f n) := by
  refine ⟨fun b hb => ?_, fun x hx => h.mica x ?_, h.veins, h.arrays, h.trm, h.rest⟩
  · by_cases e : a = b
    · subst e
      unfold setFld
      rw [rd_wr_self, rd_wr_self, h.regs a hb]
    · rw [rd_setFld_ne _ _ _ e, rd_setFld_ne _ _ _ e, h.regs b hb]
  · rw [← hx]
    unfold ringByte flag
    rw [fld_setFld_ne _ _ _ _ ha, fld_setFld_ne _ _ _ _ ha]

theorem book_setVein_both (h : Books R s t) {v : Nat} {x y : VeinSt} (hx : veinPlain y = veinPlain x) :
    Books R (setVein s v x) (setVein t v y) := by
  refine ⟨h.regs, h.mica, fun w => ?_, h.arrays, h.trm, h.rest⟩
  rw [vein_setVein, vein_setVein]
  split
  · exact hx
  · exact h.veins w

theorem book_wait_both (h : Books R s t) (v : Nat) (w : Option Wait) :
    Books R (setVein s v { vein s v with wait := w }) (setVein t v { vein t v with wait := w }) :=
  book_setVein_both h (congrArg (fun x : VeinSt => { x with wait := w }) (h.veins v))

theorem book_masks (h : Books R s t) (v : Nat) :
    (vein t v).fenced = (vein s v).fenced ∧ (vein t v).suspended = (vein s v).suspended :=
  ⟨(congrArg VeinSt.fenced (h.veins v) :), (congrArg VeinSt.suspended (h.veins v) :)⟩

theorem book_wait (h : Books R s t) (v : Nat) : (vein t v).wait = (vein s v).wait :=
  (congrArg VeinSt.wait (h.veins v) :)

end

/-! ## The end of a wait (R161) -/

section
variable {s : State} {v : Nat}

theorem endWait_book (hv : v < 16) (code : Nat) :
    Books bookReg (setVein s v { vein s v with wait := none, lost := false }) (endWait s v code) := by
  unfold endWait
  extract_lets x lost ended
  clear_value lost
  have h : Books bookReg ended ended := book_refl _
  split
  · exact refreshVein_book bookReg_covers hv h
  · extract_lets met told
    have hmet : Books bookReg ended met := book_ite h (addCond_book h)
    clear_value met
    have htold : Books bookReg ended told := book_ite (addCond_book hmet) hmet
    clear_value told
    exact completeJob_book bookReg_covers hv (bookReg_seq hv) htold

theorem wait_endWait (hv : v < 16) (code w : Nat) :
    (vein (endWait s v code) w).wait = if v = w then none else (vein s w).wait := by
  rw [book_wait (endWait_book hv code), vein_setVein]
  split <;> rfl

theorem rd_endWait (hv : v < 16) (code : Nat) {a : Nat} (ha : bookReg a = false) : rd (endWait s v code) a = rd s a :=
  (endWait_book hv code).regs a ha

/-- The vein's only command, one that waits, ends with OK and retires. -/
theorem endWait_retires {c : Cmd} {j : Job} (hv : v < 16) (hj : Issued c j) (alone : (vein s v).jobs = [j])
    (hop : [0x0D, 0x10, 0x11, 0x12].contains (cmdOp c.words) = true) :
    fld (endWait s v 0) (Reg.vnSeq v) Fl.vnSeq_DONE = cmdSeq c.words := by
  have found : (vein s v).jobs.find? (fun k => !k.done && [0x0D, 0x10, 0x11, 0x12].contains k.op) = some j := by
    rw [alone]
    exact List.find?_cons_of_pos (by rw [hj.done, hj.op, hop]; rfl)
  unfold endWait
  extract_lets x lost ended
  rw [show x.jobs.find? _ = some j from found]
  dsimp only
  rw [if_pos rfl]
  have waiting : (vein ended v).jobs = [j] := by rw [show vein ended v = _ from vein_setVein_self ..]; exact alone
  clear_value lost ended
  obtain ⟨k, hk, seq, passes⟩ : ∃ k, (vein (if lost = true then addCond ended v j.seq St.tickLost else ended) v).jobs = [k] ∧
      k.seq = j.seq ∧ jobHalts k = false := by
    split
    · rw [hj.seq, vein_addCond_alone rfl hj waiting (by decide)]
      exact ⟨_, rfl, hj.seq, hj.jobHalts_met⟩
    · exact ⟨j, waiting, rfl, hj.jobHalts_eq⟩
  have shown := completeJob_retires hv hk passes
  rw [seq] at shown
  exact shown.trans (by rw [hj.seq, Nat.mod_eq_of_lt (cmdSeq_lt _)])

end

/-! ## Commands in flight as a command issues -/

section
variable {s t : State} {v : Nat} {c : Cmd}

theorem allJobs_congr (h : ∀ x, (vein t x).jobs = (vein s x).jobs) : allJobs t = allJobs s := by
  unfold allJobs
  simp only [h]

/-- A command that leaves the prefetch has no N tile. -/
theorem leavePrefetch_nts (s : State) (v : Nat) (c : Cmd) : ∃ j : Job, j.nts = [] ∧
    ∀ k ∈ (vein (leavePrefetch s v c) v).jobs, k ∈ (vein s v).jobs ∨ k = j := by
  unfold leavePrefetch
  extract_lets x filler op
  split
  extract_lets late work overrun j0 j left
  refine ⟨j, rfl, fun k hk => ?_⟩
  have jobs : (vein { left with stamp := left.stamp + 1 } v).jobs = if x.retry then j :: x.jobs else x.jobs ++ [j] :=
    congrArg VeinSt.jobs (vein_setVein_self s v _)
  rw [jobs] at hk
  split at hk
  · exact (List.mem_cons.mp hk).symm
  · exact (List.mem_append.mp hk).imp_right List.mem_singleton.mp

theorem wait_startIssue (s : State) (v : Nat) (c : Cmd) (w : Nat) : (vein (startIssue s v c) w).wait = (vein s w).wait := by
  by_cases e : w = v
  · obtain ⟨g, j, -, hx⟩ := vein_startIssue_self s v c
    rw [e, hx]
    rfl
  · rw [vein_startIssue_ne e]

theorem allJobs_startIssue {p : Nat × Job} (hp : p ∈ allJobs (startIssue s v c)) : p ∈ allJobs s ∨ p.2.nts = [] := by
  obtain ⟨hlt, hj, hd⟩ := mem_allJobs.mp hp
  by_cases e : p.1 = v
  · obtain ⟨j, none, kept⟩ := leavePrefetch_nts s v c
    rw [e, vein_startIssue] at hj
    rcases kept _ hj with old | new
    · exact .inl (mem_allJobs.mpr ⟨hlt, e ▸ old, hd⟩)
    · exact .inr (new ▸ none)
  · rw [vein_startIssue_ne e] at hj
    exact .inl (mem_allJobs.mpr ⟨hlt, hj, hd⟩)

end

/-! ## The waiters of a semaphore (R161, R208) -/

section
variable {α β : Type} {f : α → Option β}

/-- One element of a list alone maps to something. -/
theorem filterMap_eq_singleton {l : List α} {a : α} {b : β} (hl : l.Nodup) (ha : a ∈ l) (hf : f a = some b)
    (ho : ∀ x ∈ l, x ≠ a → f x = none) : l.filterMap f = [b] := by
  induction l with
  | nil => cases ha
  | cons x l ih =>
    obtain ⟨notin, nodup⟩ := List.nodup_cons.mp hl
    rw [List.filterMap_cons]
    by_cases e : x = a
    · subst e
      rw [hf]
      simp only [List.cons.injEq, true_and]
      exact List.filterMap_eq_nil_iff.mpr fun y hy => ho y (List.mem_cons_of_mem _ hy) fun e => notin (e ▸ hy)
    · rw [ho x List.mem_cons_self e]
      exact ih nodup ((List.mem_cons.mp ha).resolve_left (Ne.symm e)) fun y hy => ho y (List.mem_cons_of_mem _ hy)

end

theorem sortBy_eq_nil {α : Type} {le : α → α → Bool} {l : List α} : sortBy le l = [] ↔ l = [] := by
  rw [← List.length_eq_zero_iff, (perm_sortBy _ _).length_eq, List.length_eq_zero_iff]

section
variable {s t : State} {k : Nat}

/-- No vein waits on semaphore k, and no N tile. -/
structure NoWaiter (s : State) (k : Nat) : Prop where
  veins : ∀ v < 16, ∀ c n q o, (vein s v).wait ≠ some (.sem k c n q o)
  psums : psumWaiters s k = []

theorem noWaiter_of_nil (h : semWaiters s k = []) : NoWaiter s k := by
  unfold semWaiters at h
  obtain ⟨veins, psums⟩ := List.append_eq_nil_iff.mp (sortBy_eq_nil.mp h)
  refine ⟨fun v hv c n q o e => ?_, psums⟩
  have off := List.filterMap_eq_nil_iff.mp veins v (List.mem_range.mpr hv)
  rw [e] at off
  simp at off

/-- The N tiles that wait, where the commands in flight are those of s and some that have no N tile yet. -/
theorem psumWaiters_kept (h : psumWaiters s k = []) (hj : ∀ p ∈ allJobs t, p ∈ allJobs s ∨ p.2.nts = []) :
    psumWaiters t k = [] := by
  unfold psumWaiters at h ⊢
  rw [List.flatMap_eq_nil_iff] at h ⊢
  intro p hp
  rcases hj p hp with old | none
  · exact h p old
  · rw [none]
    split <;> rfl

theorem semWaiters_nil (h : NoWaiter s k) : semWaiters s k = [] := by
  have none : ((List.range 16).filterMap fun v => match (vein s v).wait with
      | some (.sem k' c _ _ o) => if k' = k then some (o, v, c, (none : Option (Nat × Nat))) else none
      | _ => none) = [] := by
    refine List.filterMap_eq_nil_iff.mpr fun v hv => ?_
    split
    next e =>
      refine if_neg fun ek => ?_
      subst ek
      exact h.veins v (List.mem_range.mp hv) _ _ _ _ e
    next => rfl
  unfold semWaiters
  dsimp only
  rw [h.psums, List.append_nil]
  exact sortBy_eq_nil.mpr none

theorem NoWaiter.congr (h : NoWaiter s k) (hw : ∀ v, (vein t v).wait = (vein s v).wait)
    (hj : ∀ v, (vein t v).jobs = (vein s v).jobs) : NoWaiter t k := by
  refine ⟨fun v hv => hw v ▸ h.veins v hv, ?_⟩
  rw [← h.psums]
  unfold psumWaiters
  rw [allJobs_congr hj]

theorem NoWaiter.startIssue (h : NoWaiter s k) (v : Nat) (c : Cmd) : NoWaiter (startIssue s v c) k :=
  ⟨fun w hw => wait_startIssue s v c w ▸ h.veins w hw, psumWaiters_kept h.psums fun _ => allJobs_startIssue⟩

/-- One vein alone waits. -/
theorem semWaiters_one {v c n q o : Nat} (hv : v < 16) (hw : (vein s v).wait = some (.sem k c n q o))
    (others : ∀ w < 16, w ≠ v → ∀ c n q o, (vein s w).wait ≠ some (.sem k c n q o)) (hp : psumWaiters s k = []) :
    semWaiters s k = [(o, v, c, none)] := by
  have one : ((List.range 16).filterMap fun v => match (vein s v).wait with
      | some (.sem k' c _ _ o) => if k' = k then some (o, v, c, (none : Option (Nat × Nat))) else none
      | _ => none) = [(o, v, c, none)] := by
    refine filterMap_eq_singleton List.nodup_range (List.mem_range.mpr hv) ?_ fun w hw' ne => ?_
    · rw [hw]
      exact if_pos rfl
    · split
      next e =>
        refine if_neg fun ek => ?_
        subst ek
        exact others w (List.mem_range.mp hw') ne _ _ _ _ e
      next => rfl
  unfold semWaiters
  dsimp only
  rw [hp, List.append_nil]
  exact congrArg (sortBy _) one

end

end Sys2Proof.Machine

/-! PROOFS. SEM_WAIT, BARRIER and YIELD at the head of their vein (R161, R215, R217, R218): each leaves its vein waiting, or
passes at once. -/

namespace Sys2Proof.Machine

/-! ## The vein waits -/

section
variable {s : State} {v k : Nat} {c : Cmd}

/-- The head command has left the prefetch, and its vein waits. -/
def issuedWait (s : State) (v : Nat) (c : Cmd) (w : Wait) : State :=
  setVein (startIssue s v c) v { vein (startIssue s v c) v with wait := some w }

theorem issuedWait_book (w : Wait) : Books bookReg
    (setVein (leftPrefetch s v) v { vein (leftPrefetch s v) v with wait := some w }) (issuedWait s v c w) :=
  book_wait_both (startIssue_book (book_refl s)) v (some w)

theorem rd_issuedWait (w : Wait) (a : Nat) : rd (issuedWait s v c w) a = rd s a := rd_startIssue s v c a

theorem wait_issuedWait_self (w : Wait) : (vein (issuedWait s v c w) v).wait = some w := by
  unfold issuedWait
  rw [vein_setVein_self]

theorem wait_issuedWait_ne (w : Wait) {x : Nat} (hx : x ≠ v) : (vein (issuedWait s v c w) x).wait = (vein s x).wait := by
  unfold issuedWait
  rw [vein_setVein, if_neg hx.symm, vein_startIssue_ne hx]

theorem jobs_issuedWait (w : Wait) : (vein (issuedWait s v c w) v).jobs = (vein (startIssue s v c) v).jobs := by
  unfold issuedWait
  rw [vein_setVein_self]

theorem allJobs_issuedWait (w : Wait) : allJobs (issuedWait s v c w) = allJobs (startIssue s v c) :=
  allJobs_congr fun x => by
    by_cases e : x = v
    · rw [e, jobs_issuedWait]
    · unfold issuedWait
      rw [vein_setVein, if_neg (Ne.symm e)]

/-- A vein that starts to wait on a semaphore that nobody waits for is its only waiter. -/
theorem semWaiters_issuedWait (hv : v < 16) (h : semWaiters s k = []) (n q o : Nat) (m : Nat) :
    semWaiters (issuedWait s v c (.sem k n q m o)) k = [(o, v, n, none)] := by
  have free := noWaiter_of_nil h
  refine semWaiters_one hv (wait_issuedWait_self _) (fun w hw ne => ?_) (psumWaiters_kept free.psums ?_)
  · rw [wait_issuedWait_ne _ ne]
    exact free.veins w hw
  · rw [allJobs_issuedWait]
    exact fun _ => allJobs_startIssue

end

/-! ## SEM_WAIT (R161, R215) -/

section
variable {s : State} {v k n q : Nat} {c : Cmd}

theorem semSettle_short (h : semWaiters s k = [(q, v, n, none)]) (hn : semValue s k < n) :
    semSettle s k = setFld s (Reg.semVal k) Fl.semVal_WAITERS 1 := by
  have waits : semWake k 1 s = s := by
    unfold semWake
    rw [h]
    exact if_neg (by omega)
  unfold semSettle
  rw [show (semWaiters s k).length = 1 by rw [h]; rfl, waits]
  unfold setWaiters
  rw [h]
  rfl

theorem semSettle_passes (h : semWaiters s k = [(q, v, n, none)]) (hn : n ≤ semValue s k) :
    semSettle s k = setWaiters (endWait (setFld s (Reg.semVal k) Fl.semVal_VALUE (semValue s k - n)) v 0) k := by
  have wakes : semWake k 1 s = endWait (setFld s (Reg.semVal k) Fl.semVal_VALUE (semValue s k - n)) v 0 := by
    unfold semWake
    rw [h]
    exact (if_pos hn).trans rfl
  unfold semSettle
  rw [show (semWaiters s k).length = 1 by rw [h]; rfl, wakes]

theorem semWaitCheck_good (h : inSemRange s (vTenant s v) (cf c.words 0 10 8) = true) : semWaitCheck s v c.words = none :=
  firstFail_eq_none.mpr fun p hp => by
    obtain rfl := List.mem_singleton.mp hp
    simp [h]

/-- A SEM_WAIT that passes its checks: its vein waits, and what can be woken is. -/
theorem execSemWait_eq {v : Fin 16} (hh : Head s v c 0x0D) (hr : inSemRange s (vTenant s v) (cf c.words 0 10 8) = true) :
    exec (.semWait v) s = .next (afterIssue (semSettle
      (issuedWait s v c (.sem (cf c.words 0 10 8) (cf c.words 1 0 16) (cf c.words 1 16 16) 0 s.stamp))
      (cf c.words 0 10 8)) v) :=
  (inTurn_head hh _).trans (congrArg Host.Outcome.next (issueWith_control hh rfl (semWaitCheck_good hr)))

variable {w : Wait}

/-- The wait passes: the value gives the count, the wait ends, and nothing else is written but the books. -/
def waitPassed (s : State) (v : Nat) (c : Cmd) (w : Wait) (k n : Nat) : State :=
  setWaiters (endWait (setFld (issuedWait s v c w) (Reg.semVal k) Fl.semVal_VALUE (semValue s k - n)) v 0) k

theorem semValue_waitPassed (hv : v < 16) (hk : k < 256) : semValue (waitPassed s v c w k n) k = semValue s k - n := by
  have small : semValue s k < 2 ^ Fl.semVal_VALUE.width := fld_lt ..
  unfold waitPassed setWaiters
  rw [semValue, fld_setFld_other _ _ _ _ _ (by decide) (by decide),
    fld_congr (rd_endWait hv 0 (bookReg_semVal hk)), fld_setFld_self _ _ _ _ (by decide)]
  exact Nat.mod_eq_of_lt ((Nat.sub_le ..).trans_lt small)

theorem wait_waitPassed (hv : v < 16) : (vein (waitPassed s v c w k n) v).wait = none := by
  unfold waitPassed setWaiters
  rw [vein_setFld, wait_endWait hv, if_pos rfl]

theorem rd_waitPassed (hv : v < 16) {a : Nat} (ha : bookReg a = false) (ne : a ≠ Reg.semVal k) :
    rd (waitPassed s v c w k n) a = rd s a := by
  unfold waitPassed setWaiters
  rw [rd_setFld_ne _ _ _ ne.symm, rd_endWait hv 0 ha, rd_setFld_ne _ _ _ ne.symm, rd_issuedWait]

theorem waitPassed_retires (hv : v < 16) (hop : cmdOp c.words = 0x0D) :
    Retired s (waitPassed s v c w k n) v c := by
  intro none
  obtain ⟨g, j, hj, hx⟩ := startIssue_alone (c := c) none
  have alone : (vein (setFld (issuedWait s v c w) (Reg.semVal k) Fl.semVal_VALUE (semValue s k - n)) v).jobs = [j] := by
    rw [vein_setFld, jobs_issuedWait, hx]
    rfl
  unfold waitPassed setWaiters
  rw [fld_setFld_ne _ _ _ _ (semVal_ne_vnSeq hv), endWait_retires hv hj alone (by rw [hop]; rfl)]

theorem retired_afterIssue {t : State} (hv : v < 16) (h : Retired s t v c) : Retired s (afterIssue t v) v c := fun none =>
  (fld_congr (rd_vnSeq_of_books (afterIssue_book (bookButSeq_covers hv) hv (book_refl _)))).trans (h none)

end

/-! ## BARRIER (R217) -/

section
variable {s : State} {v num mask : Nat} {c : Cmd}

theorem mem_setBitsOf {x n w : Nat} : w ∈ setBitsOf x n ↔ w < n ∧ bit x w = true := by simp [setBitsOf]

theorem mem_barrierAt {w m : Nat} : (w, m) ∈ barrierAt s num ↔ w < 16 ∧ (vein s w).wait = some (.barrier num m) := by
  unfold barrierAt
  rw [List.mem_filterMap]
  constructor
  · rintro ⟨x, hx, e⟩
    split at e
    next n m' ew =>
      split at e
      next en =>
        cases e
        exact ⟨List.mem_range.mp hx, en ▸ ew⟩
      next => cases e
    next => cases e
  · rintro ⟨hw, e⟩
    refine ⟨w, List.mem_range.mpr hw, ?_⟩
    rw [e]
    exact if_pos rfl

theorem barrierAt_issuedWait {w : Nat} (hv : v < 16) :
    w ∈ (barrierAt (issuedWait s v c (.barrier num mask)) num).map (·.1) ↔ w = v ∨ w ∈ (barrierAt s num).map (·.1) := by
  have arrived (u : State) : w ∈ (barrierAt u num).map (·.1) ↔ w < 16 ∧ ∃ m, (vein u w).wait = some (.barrier num m) := by
    simp [mem_barrierAt]
  rw [arrived, arrived]
  by_cases e : w = v
  · subst e
    simp [hv, wait_issuedWait_self]
  · simp [e, wait_issuedWait_ne]

theorem barrierPass_waits {w : Nat} (hw : w < 16) (hm : bit mask w = true)
    (hn : w ∉ (barrierAt s num).map (·.1)) : barrierPass s num mask = s := by
  refine if_neg fun h => hn ?_
  simpa using List.all_eq_true.mp h w (mem_setBitsOf.mpr ⟨hw, hm⟩)

theorem barrierPass_passes (h : ∀ w < 16, bit mask w = true → w ∈ (barrierAt s num).map (·.1)) :
    barrierPass s num mask = settleWaits ((setBitsOf mask 16).foldl (fun s v => endWait s v 0) s) := by
  refine if_pos (List.all_eq_true.mpr fun w hw => ?_)
  obtain ⟨lt, hm⟩ := mem_setBitsOf.mp hw
  simpa using h w lt hm

/-- The waits of several veins end. -/
theorem endWaits_ended {l : List Nat} (hl : ∀ w ∈ l, w < 16) (s : State) :
    (∀ w, w ∈ l ∨ (vein s w).wait = none → (vein (l.foldl (fun s v => endWait s v 0) s) w).wait = none) ∧
    ∀ a, bookReg a = false → rd (l.foldl (fun s v => endWait s v 0) s) a = rd s a := by
  induction l generalizing s with
  | nil => exact ⟨fun w h => h.resolve_left List.not_mem_nil, fun _ _ => rfl⟩
  | cons x l ih =>
    have hx := hl x List.mem_cons_self
    obtain ⟨waits, regs⟩ := ih (fun w hw => hl w (List.mem_cons_of_mem _ hw)) (endWait s x 0)
    refine ⟨fun w hw => waits w ?_, fun a ha => (regs a ha).trans (rd_endWait hx 0 ha)⟩
    rw [wait_endWait hx]
    rcases hw with hw | hw
    · rcases List.mem_cons.mp hw with rfl | hw
      · simp
      · exact .inl hw
    · simp [hw]

/-- The checks of a BARRIER that meets no other tenant and no other mask. -/
theorem barrierCheck_good (hm : ∀ w < 16, bit (cf c.words 1 0 16) w = true → vTenant s w = vTenant s v)
    (hv : bit (cf c.words 1 0 16) v = true)
    (hb : ∀ p ∈ barrierAt s (cf c.words 0 10 3), vTenant s p.1 = vTenant s v ∧ p.2 = cf c.words 1 0 16) :
    barrierCheck s v c.words = none := by
  refine firstFail_eq_none.mpr ?_
  simp only [List.forall_mem_cons, List.not_mem_nil, false_implies, implies_true, and_true]
  constructor
  · rw [hv, Bool.not_true, Bool.false_or, List.any_eq_false]
    intro w hw
    obtain ⟨lt, set⟩ := mem_setBitsOf.mp hw
    simp [hm w lt set]
  · rw [Bool.and_eq_false_iff]
    refine .inr (List.any_eq_false.mpr fun p hp => ?_)
    simp [(hb p hp).2]

theorem barrierBusy_free (hb : ∀ p ∈ barrierAt s (cf c.words 0 10 3), vTenant s p.1 = vTenant s v ∧ p.2 = cf c.words 1 0 16)
    (hd : cb c.words 0 13 = true → earlierDone s v = true) : barrierBusy s v c.words = false := by
  unfold barrierBusy
  rw [Bool.or_eq_false_iff]
  constructor
  · refine List.any_eq_false.mpr fun p hp => ?_
    simp [(hb p hp).1]
  · cases h : cb c.words 0 13
    · rfl
    · simp [hd h]

end

section
variable {s : State} {v : Fin 16} {c : Cmd} (hh : Head s v c 0x11)
  (hm : ∀ w < 16, bit (cf c.words 1 0 16) w = true → vTenant s w = vTenant s v)
  (hv : bit (cf c.words 1 0 16) v = true)
  (hb : ∀ p ∈ barrierAt s (cf c.words 0 10 3), vTenant s p.1 = vTenant s v ∧ p.2 = cf c.words 1 0 16)
  (hd : cb c.words 0 13 = true → earlierDone s v = true)
include hh hm hv hb hd

/-- A BARRIER that is free to issue: its vein arrives, and all pass where none is missing. -/
theorem execBarrier_eq : exec (.barrier v) s =
    .next (afterIssue (barrierPass (issuedWait s v c (.barrier (cf c.words 0 10 3) (cf c.words 1 0 16)))
      (cf c.words 0 10 3) (cf c.words 1 0 16)) v) := by
  refine (inTurn_head hh _).trans (congrArg Host.Outcome.next ?_)
  refine (issueWith_control hh rfl (barrierCheck_good hm hv hb)).trans ?_
  dsimp only
  rw [barrierBusy_free hb hd]
  rfl

end

/-- A YIELD of some clocks waits for them (R218). -/
theorem execYield_eq {s : State} {v : Fin 16} {c : Cmd} (hh : Head s v c 0x12) (hn : cf c.words 1 0 32 ≠ 0) :
    exec (.yieldCmd v) s = .next (afterIssue (issuedWait s v c (.yield (cf c.words 1 0 32))) v) := by
  refine (inTurn_head hh _).trans (congrArg Host.Outcome.next ?_)
  exact (issueWith_control hh rfl rfl).trans (if_neg hn)

end Sys2Proof.Machine

namespace Sys2Proof.Proofs

open Sys2Proof.Machine

/-- Settles O7, by the state in which the command's vein waits. -/
theorem waitCommandsWaitOrPass : Obligations.WaitCommandsWaitOrPass := by
  unfold Obligations.WaitCommandsWaitOrPass
  intro s v c u k mask num sem
  have hk : k < 256 := Nat.mod_lt _ (by decide)
  have hv := v.isLt
  have kept : Reg.semVal k ≠ Reg.errRingCfg := by unfold Reg.semVal Reg.errRingCfg; omega
  refine ⟨fun hh hr short free => ?_, fun hh hr reach free => ?_, fun hh hm own hb hd ⟨w, hw, set, ne, missing⟩ => ?_,
    fun hh hm own hb hd all => ?_, fun hh hn => ?_⟩
  · have alone : semWaiters (issuedWait s v c sem) k = _ := semWaiters_issuedWait hv free ..
    have value : semValue (issuedWait s v c sem) k = semValue s k := fld_congr (rd_issuedWait ..)
    refine ⟨_, execSemWait_eq hh hr, ?_⟩
    rw [semSettle_short alone (by rw [value]; exact short)]
    exact book_trans bookReg_covers (book_setFld_both (issuedWait_book sem) _ _ kept)
      (afterIssue_book bookReg_covers hv (book_refl _))
  · have alone : semWaiters (issuedWait s v c sem) k = _ := semWaiters_issuedWait hv free ..
    have value : semValue (issuedWait s v c sem) k = semValue s k := fld_congr (rd_issuedWait ..)
    refine ⟨_, execSemWait_eq hh hr, ?_⟩
    rw [semSettle_passes alone (by rw [value]; exact reach), value]
    have after := afterIssue_book (R := bookReg) (v := v) bookReg_covers hv (book_refl (waitPassed s v c sem k (cf c.words 1 0 16)))
    refine ⟨?_, (book_wait after v).trans (wait_waitPassed hv), retired_afterIssue hv (waitPassed_retires hv hh.op),
      fun a ha ne => (after.regs a ha).trans (rd_waitPassed hv ha ne)⟩
    exact (fld_congr (after.regs _ (bookReg_semVal hk))).trans (semValue_waitPassed hv hk)
  · refine ⟨_, execBarrier_eq hh hm own hb hd, ?_⟩
    rw [barrierPass_waits hw set (by rw [barrierAt_issuedWait hv]; exact not_or.mpr ⟨ne, missing⟩)]
    exact book_trans bookReg_covers (issuedWait_book _) (afterIssue_book bookReg_covers hv (book_refl _))
  · refine ⟨_, execBarrier_eq hh hm own hb hd, ?_⟩
    rw [barrierPass_passes fun w hw set => (barrierAt_issuedWait hv).mpr (or_iff_not_imp_left.mpr (all w hw set))]
    obtain ⟨ended, regs⟩ := endWaits_ended (fun w hw => (mem_setBitsOf.mp hw).1) (issuedWait s v c (.barrier num mask))
      (l := setBitsOf mask 16)
    have after := afterIssue_book (v := v) bookReg_covers hv (settleWaits_book bookReg_covers
      (book_refl ((setBitsOf mask 16).foldl (fun s v => endWait s v 0) (issuedWait s v c (.barrier num mask)))))
    exact ⟨fun w hw set => (book_wait after w).trans (ended w (.inl (mem_setBitsOf.mpr ⟨hw, set⟩))),
      fun a ha => (after.regs a ha).trans ((regs a ha).trans (rd_issuedWait ..))⟩
  · exact ⟨_, execYield_eq hh hn, book_trans bookReg_covers (issuedWait_book _)
      (afterIssue_book bookReg_covers hv (book_refl _))⟩

end Sys2Proof.Proofs

/-! PROOFS. A post to a semaphore that nobody waits for (R160): its amount is added, and what exceeds 65,535 is counted. -/

namespace Sys2Proof.Machine

section
variable {s t : State} {k val src : Nat} {n : Option Nat}

theorem injOff_congr (h : ∀ m, rd t (Reg.fltInjW0 m) = rd s (Reg.fltInjW0 m)) (hs : injOff s) : injOff t := fun m hm => by
  unfold injArmed flag
  rw [fld_congr (h m)]
  exact hs m hm

theorem NoWaiter.of_veins (h : NoWaiter s k) (e : t.veins = s.veins) : NoWaiter t k :=
  h.congr (fun v => by unfold vein; rw [e]) fun v => by unfold vein; rw [e]

theorem semSettle_none (h : NoWaiter s k) : semSettle s k = setFld s (Reg.semVal k) Fl.semVal_WAITERS 0 := by
  unfold semSettle
  rw [semWaiters_nil h]
  unfold setWaiters
  rw [show semWake k _ s = s from rfl, semWaiters_nil h]
  rfl

theorem semPost_ranged {a u : Nat} {v : Option Nat} (hi : injOff s) (hr : inSemRange s u k = true) :
    semPost s k a u src v = semRaise s k a src (some u) := by
  unfold semPost
  rw [flint_off hi]
  dsimp only
  rw [hr]
  rfl

/-- A post out of the poster's range is refused. -/
theorem semPost_outside {a u : Nat} {v : Option Nat} (hi : injOff s) (hr : inSemRange s u k = false) :
    semPost s k a u src v = semRefuse s k src (some u) false := by
  unfold semPost
  rw [flint_off hi]
  dsimp only
  rw [hr]
  rfl

/-- The semaphore that nobody waits for, at a value. -/
def semSet (s : State) (k n : Nat) : State :=
  setFld (setFld s (Reg.semVal k) Fl.semVal_VALUE n) (Reg.semVal k) Fl.semVal_WAITERS 0

theorem semRaise_fits (h : NoWaiter s k) (hn : semValue s k + val ≤ 65535) :
    semRaise s k val src n = semSet s k (semValue s k + val) := by
  unfold semRaise
  dsimp only
  rw [if_neg (by omega), Nat.min_eq_left hn]
  exact semSettle_none (h.of_veins rfl)

/-- The record of a post that saturates its semaphore (R160). -/
def overflowRec (k src : Nat) (n : Option Nat) : ErrRec :=
  { ErrRec.ofDet 1 0x15 with tenant := n, lkind := 6, loc := k + (src <<< 16) }

theorem overflowRec_sev : (overflowRec k src n).sev ≠ 3 := show 1 ≠ 3 by decide

/-- A post that saturates, before the waiters show. -/
def semSaturated (s : State) (k src : Nat) (n : Option Nat) : State :=
  recordErr (incFld (setFld s (Reg.semVal k) Fl.semVal_VALUE 65535) Reg.semOvf Fl.semOvf_COUNT 1) (overflowRec k src n)

theorem semSaturated_veins : (semSaturated s k src n).veins = s.veins := by
  unfold semSaturated
  rw [recordErr_veins overflowRec_sev, incFld_veins, setFld_veins]

theorem semRaise_saturates (h : NoWaiter s k) (hn : 65535 < semValue s k + val) :
    semRaise s k val src n = setFld (semSaturated s k src n) (Reg.semVal k) Fl.semVal_WAITERS 0 := by
  have settled := semSettle_none (h.of_veins (semSaturated_veins (k := k) (src := src) (n := n)))
  rw [← settled]
  unfold semRaise semSaturated overflowRec
  dsimp only
  rw [if_pos hn, Nat.min_eq_right (by omega)]

theorem rd_semSet {m a : Nat} (ne : a ≠ Reg.semVal k) : rd (semSet s k m) a = rd s a := by
  unfold semSet
  rw [rd_setFld_ne _ _ _ ne.symm, rd_setFld_ne _ _ _ ne.symm]

theorem semValue_setWaiters (s : State) (k m : Nat) :
    semValue (setFld s (Reg.semVal k) Fl.semVal_WAITERS m) k = semValue s k :=
  fld_setFld_other _ _ _ _ _ (by decide) (by decide)

theorem semValue_semSet {m : Nat} (hm : m ≤ 65535) : semValue (semSet s k m) k = m := by
  unfold semSet
  rw [semValue_setWaiters, semValue, fld_setFld_self _ _ _ _ (by decide)]
  exact Nat.mod_eq_of_lt (Nat.lt_succ_of_le hm)

theorem semSaturated_book : BooksFree
    (incFld (setFld s (Reg.semVal k) Fl.semVal_VALUE 65535) Reg.semOvf Fl.semOvf_COUNT 1) (semSaturated s k src n) :=
  recordErr_booksFree overflowRec_sev

theorem semValue_semSaturated (hk : k < 256) : semValue (semSaturated s k src n) k = 65535 := by
  have ne : Reg.semOvf ≠ Reg.semVal k := by unfold Reg.semOvf Reg.semVal; omega
  rw [semValue, fld_congr (semSaturated_book.regs (bookReg_semVal hk)), incFld, fld_setFld_ne _ _ _ _ ne,
    fld_setFld_self _ _ _ _ (by decide)]
  rfl

theorem semOvf_semSaturated (hk : k < 256) : fld (semSaturated s k src n) Reg.semOvf Fl.semOvf_COUNT =
    (fld s Reg.semOvf Fl.semOvf_COUNT + 1) % 2 ^ Fl.semOvf_COUNT.width := by
  have ne : Reg.semVal k ≠ Reg.semOvf := by unfold Reg.semOvf Reg.semVal; omega
  rw [fld_congr (semSaturated_book.regs (by decide)), incFld, fld_setFld_self _ _ _ _ (by decide), fld_setFld_ne _ _ _ _ ne]

end

end Sys2Proof.Machine

/-! PROOFS. SEM_POST at the head of its vein (R160, R164, R215): it waits for its bytes, adds to its semaphore, or fails
where no route carries it. -/

namespace Sys2Proof.Machine

section
variable {s : State} {c : Cmd}

theorem semPostCheck_good {v : Nat} (h : cb c.words 0 18 = false → inSemRange s (vTenant s v) (cf c.words 0 10 8) = true) :
    semPostCheck s v c.words = none := by
  refine firstFail_eq_none.mpr fun p hp => ?_
  obtain rfl := List.mem_singleton.mp hp
  cases e : cb c.words 0 18
  · simp [h e]
  · simp

end

/-! ## The post arrives in this block -/

/-- The state in which a post goes out: what its vein wrote is no longer counted. -/
def postFrom (s : State) (v : Nat) : State := setVein s v { vein s v with wrote := [] }

section
variable {s : State} {v k : Nat} {c : Cmd}

theorem vein_postFrom_ne {w : Nat} (hw : w ≠ v) : vein (postFrom s v) w = vein s w := by
  unfold postFrom
  rw [vein_setVein, if_neg hw.symm]

theorem vein_postFrom_self : vein (postFrom s v) v = { vein s v with wrote := [] } := vein_setVein_self ..

theorem NoWaiter.postFrom (h : NoWaiter s k) (v : Nat) : NoWaiter (postFrom s v) k := by
  have kept (w : Nat) : (vein (Machine.postFrom s v) w).wait = (vein s w).wait ∧
      (vein (Machine.postFrom s v) w).jobs = (vein s w).jobs := by
    by_cases e : w = v
    · rw [e, vein_postFrom_self]
      exact ⟨rfl, rfl⟩
    · rw [vein_postFrom_ne e]
      exact ⟨rfl, rfl⟩
  exact h.congr (fun w => (kept w).1) fun w => (kept w).2

/-- The post as it issues. -/
def postIssued (s : State) (v : Nat) (c : Cmd) : State := startIssue (postFrom s v) v c

theorem rd_postIssued (s : State) (v : Nat) (c : Cmd) (a : Nat) : rd (postIssued s v c) a = rd s a := rd_startIssue ..

theorem postIssued_injOff (h : injOff s) : injOff (postIssued s v c) := injOff_congr (fun _ => rd_postIssued ..) h

theorem postIssued_ranged {t : Nat} (h : inSemRange s t k = true) : inSemRange (postIssued s v c) t k = true := by
  unfold inSemRange at h ⊢
  rw [fld_congr (rd_postIssued ..), fld_congr (rd_postIssued ..)]
  exact h

theorem semValue_postIssued : semValue (postIssued s v c) k = semValue s k := fld_congr (rd_postIssued ..)

theorem NoWaiter.postIssued (h : NoWaiter s k) : NoWaiter (postIssued s v c) k := (h.postFrom v).startIssue v c

/-- A post to a semaphore of this block, issued. -/
def postHere (s : State) (v : Nat) (c : Cmd) : State :=
  issueNow (postFrom s v) v c fun u =>
    semPost u (cf c.words 0 10 8) (cf c.words 1 16 16) (vTenant s v) (stratum u) (some v)

/-- What the post does as it is applied. -/
def PostDoes (s : State) (v : Nat) (c : Cmd) (e : State) : Prop :=
  semPost (postIssued s v c) (cf c.words 0 10 8) (cf c.words 1 16 16) (vTenant s v) (stratum (postIssued s v c)) (some v) = e

theorem rd_postHere {e : State} {a : Nat} (hv : v < 16) (h : PostDoes s v c e) (ha : bookReg a = false) :
    rd (postHere s v c) a = rd e a := by
  have books := issueNow_book (s := postFrom s v) (v := v) (c := c) (f := fun u =>
    semPost u (cf c.words 0 10 8) (cf c.words 1 16 16) (vTenant s v) (stratum u) (some v)) hv
  exact (books.regs a ha).trans (congrArg (rd · a) h)

/-- A post whose effect leaves the commands in flight retires. -/
theorem postHere_retires {e : State} (hv : v < 16) (h : PostDoes s v c e) (he : e.veins = (postIssued s v c).veins) :
    Retired s (postHere s v c) v c := by
  have alone : (vein s v).jobs = [] → (vein (postFrom s v) v).jobs = [] := fun h => by rw [vein_postFrom_self]; exact h
  refine fun none => issueNow_retires_of_jobs hv ?_ (alone none)
  exact (congrArg (fun u => (vein u v).jobs) h).trans
    (congrArg VeinSt.jobs (show vein e v = vein (postIssued s v c) v by unfold vein; rw [he]))

/-- Nobody waits, and the sum is no more than 65,535. -/
theorem post_fits (hi : injOff s) (hr : inSemRange s (vTenant s v) (cf c.words 0 10 8) = true)
    (free : semWaiters s (cf c.words 0 10 8) = [])
    (fits : semValue s (cf c.words 0 10 8) + cf c.words 1 16 16 ≤ 65535) : PostDoes s v c
      (semSet (postIssued s v c) (cf c.words 0 10 8) (semValue s (cf c.words 0 10 8) + cf c.words 1 16 16)) := by
  unfold PostDoes
  rw [semPost_ranged (postIssued_injOff hi) (postIssued_ranged hr),
    semRaise_fits (noWaiter_of_nil free).postIssued (by rw [semValue_postIssued]; exact fits), semValue_postIssued]

/-- Nobody waits, and the semaphore saturates. -/
theorem post_saturates (hi : injOff s) (hr : inSemRange s (vTenant s v) (cf c.words 0 10 8) = true)
    (free : semWaiters s (cf c.words 0 10 8) = [])
    (excess : 65535 < semValue s (cf c.words 0 10 8) + cf c.words 1 16 16) : PostDoes s v c
      (setFld (semSaturated (postIssued s v c) (cf c.words 0 10 8) (stratum (postIssued s v c)) (some (vTenant s v)))
        (Reg.semVal (cf c.words 0 10 8)) Fl.semVal_WAITERS 0) := by
  unfold PostDoes
  rw [semPost_ranged (postIssued_injOff hi) (postIssued_ranged hr),
    semRaise_saturates (noWaiter_of_nil free).postIssued (by rw [semValue_postIssued]; exact excess)]

end

/-! ## The command and its cases -/

section
variable {s : State} {c : Cmd}
variable {v : Fin 16} (hh : Head s v c 0x0C)
  (hr : cb c.words 0 18 = false → inSemRange s (vTenant s v) (cf c.words 0 10 8) = true)
include hh hr

theorem execSemPost_waits (hw : (earlierDone s v && bytesVisible s v) = false) : exec (.semPost v) s = .next s := by
  refine (inTurn_head hh _).trans (congrArg Host.Outcome.next ?_)
  refine (issueWith_control hh rfl (semPostCheck_good hr)).trans ?_
  dsimp only
  rw [hw]
  rfl

variable (hw : (earlierDone s v && bytesVisible s v) = true)
include hw

theorem execSemPost_here (hl : cb c.words 0 18 = false ∨ cf c.words 1 0 10 = stratum s) : exec (.semPost v) s =
    .next (postHere s v c) := by
  refine (inTurn_head hh _).trans (congrArg Host.Outcome.next ?_)
  refine (issueWith_control hh rfl (semPostCheck_good hr)).trans ?_
  dsimp only
  rw [hw]
  refine (if_neg (by decide)).trans (if_pos ?_)
  rcases hl with h | h
  · simp [h]
  · rw [Bool.or_eq_true]
    exact .inr (decide_eq_true h)

/-- A post to another block that no link can carry (R294). -/
theorem execSemPost_lost (hl : cb c.words 0 18 = true) (hd : cf c.words 1 0 10 ≠ stratum s)
    (hf : nextLink s (cf c.words 1 0 10) 1 none = .fail) : exec (.semPost v) s =
    .next (afterIssue (completeJob (addCond (startIssue (postFrom s v) v c) v (cmdSeq c.words) St.routeNone) v
      (cmdSeq c.words)) v) := by
  refine (inTurn_head hh _).trans (congrArg Host.Outcome.next ?_)
  refine (issueWith_control hh rfl (semPostCheck_good hr)).trans ?_
  dsimp only
  rw [hw]
  refine (if_neg (by decide)).trans ((if_neg ?_).trans ?_)
  · simp only [hl, Bool.not_true, Bool.false_or, decide_eq_true_eq]
    exact hd
  · have lost : nextLink (startIssue (postFrom s v) v c) (cf c.words 1 0 10) (routedVc 1) none = .fail := by
      obtain ⟨g, j, -, e⟩ := leavePrefetch_eq (postFrom s v) v c
      rw [show startIssue (postFrom s v) v c = _ from congrArg (fun u : State =>
        { u with trm := { u.trm with autocal := none, model := u.trm.model + fillerModel (postFrom s v) v c } }) e]
      exact hf
    unfold routeMsg
    dsimp only [postFrom] at lost ⊢
    rw [lost]

end

/-! ## A halted vein stays so as its next group is looked for (R204) -/

section
variable {s : State} {v stat : Nat}

theorem vBase_halted (h : HaltedWith s v stat) : vBase s v = Vs.halted := by
  rw [vBase_of_plain (by rw [h.1]; decide), h.1]

theorem beginHalt_stands (h : HaltedWith s v stat) : beginHalt s v = s :=
  if_pos (by rw [vBase_halted h]; rfl)

theorem presented_halted (h : HaltedWith s v stat) : presented s v = false := by
  unfold presented holdsGroup
  rw [vBase_halted h]
  dsimp only
  split <;> simp

theorem HaltedWith.afterIssue (h : HaltedWith s v stat) (hf : (vein s v).fenced = false)
    (hs : (vein s v).suspended = false) : HaltedWith (afterIssue s v) v stat := by
  unfold Machine.afterIssue
  dsimp only
  split
  · rw [beginHalt_stands h]
    exact h
  · unfold present
    rw [presented_halted h]
    exact refreshVein_halted h hf hs

end

/-! ## A post that no link can carry (R294) -/

section
variable {s : State} {v : Nat} {c : Cmd}

theorem postLost_halts (hv : v < 16) (none : (vein s v).jobs = []) (hf : (vein s v).fenced = false)
    (hs : (vein s v).suspended = false) (hst : vState s v = Vs.ready ∨ vState s v = Vs.wait) :
    HaltedWith (afterIssue (completeJob (addCond (postIssued s v c) v (cmdSeq c.words) St.routeNone) v (cmdSeq c.words)) v)
      v St.routeNone := by
  have alone : (vein (postFrom s v) v).jobs = [] := by rw [vein_postFrom_self]; exact none
  obtain ⟨g, j, hj, hx⟩ := startIssue_alone (c := c) alone
  have met := vein_addCond_alone (code := St.routeNone) (s := postIssued s v c) hx hj rfl (by decide)
  have halts : jobHalts (j.met St.routeNone) = true := hj.jobHalts_met
  have fenced : (vein (addCond (postIssued s v c) v (cmdSeq c.words) St.routeNone) v).fenced = false := by
    rw [met, leftVein, vein_postFrom_self]
    exact hf
  have suspended : (vein (addCond (postIssued s v c) v (cmdSeq c.words) St.routeNone) v).suspended = false := by
    rw [met, leftVein, vein_postFrom_self]
    exact hs
  have stays : vState (addCond (postIssued s v c) v (cmdSeq c.words) St.routeNone) v = vState s v :=
    fld_congr (rd_postIssued s v c _)
  have ended := completeJob_halts hv (congrArg VeinSt.jobs met) halts (by rw [stays]; exact hst) fenced suspended
    (congrArg VeinSt.waitOn met)
  rw [hj.jobHaltStat_met (code := St.routeNone) rfl, show (j.met St.routeNone).seq = cmdSeq c.words from hj.seq] at ended
  obtain ⟨kf, ks⟩ := book_masks (completeJob_book (seq := cmdSeq c.words) bookReg_covers hv (bookReg_seq hv)
    (book_refl (addCond (postIssued s v c) v (cmdSeq c.words) St.routeNone))) v
  exact ended.afterIssue (kf.trans fenced) (ks.trans suspended)

end

end Sys2Proof.Machine

namespace Sys2Proof.Proofs

open Sys2Proof.Machine

/-- Settles O11, by the state in which the post issues. -/
theorem semPostAddsToSemaphore : Obligations.SemPostAddsToSemaphore := by
  unfold Obligations.SemPostAddsToSemaphore
  intro s v c hh k n hr
  have hk : k < 256 := Nat.mod_lt _ (by decide)
  have hv := v.isLt
  refine ⟨fun hw => execSemPost_waits hh hr ?_, fun hd hb hl hi ranged free fits => ?_,
    fun hd hb hl hi ranged free excess => ?_, fun hd hb hl hdst hf none fenced suspended => ?_⟩
  · rcases hw with h | h <;> simp [h]
  · have does := post_fits (c := c) hi ranged free fits
    refine ⟨_, execSemPost_here hh hr (by rw [hd, hb]; rfl) hl, ?_, postHere_retires hv does rfl, fun a ha ne => ?_⟩
    · exact (fld_congr (rd_postHere hv does (bookReg_semVal hk))).trans (semValue_semSet fits)
    · exact (rd_postHere hv does ha).trans ((rd_semSet ne).trans (rd_postIssued ..))
  · have does := post_saturates (c := c) hi ranged free excess
    have apart : Reg.semVal k ≠ Reg.semOvf := by unfold Reg.semVal Reg.semOvf; omega
    refine ⟨_, execSemPost_here hh hr (by rw [hd, hb]; rfl) hl, ?_,
      postHere_retires hv does ((setFld_veins ..).trans semSaturated_veins), ?_⟩
    · exact (fld_congr (rd_postHere hv does (bookReg_semVal hk))).trans
        ((semValue_setWaiters ..).trans (semValue_semSaturated hk))
    · rw [fld_congr (rd_postHere hv does (by decide)), fld_setFld_ne _ _ _ _ apart, semOvf_semSaturated hk,
        fld_congr (rd_postIssued ..)]
  · obtain ⟨state, stat⟩ := postLost_halts (c := c) hv none fenced suspended (vState_of_issuable hh.may)
    exact ⟨_, execSemPost_lost hh hr (by rw [hd, hb]; rfl) hl hdst hf, state, stat⟩

end Sys2Proof.Proofs

/-! PROOFS. A sequence of a stream begins (R149, R151): its record joins the others, and room is given to it. -/

namespace Sys2Proof.Machine

section
variable {s t u : State} {i : Nat}

/-- A stream without the room that it has been given. -/
def roomless (x : StreamSt) : StreamSt := { x with chunks := [], half := 0, next := 0, bad := [] }

theorem roomless_fields {x y : StreamSt} (h : roomless x = roomless y) :
    x.seqs = y.seqs ∧ x.asked = y.asked ∧ x.taken = y.taken ∧ x.stamp = y.stamp :=
  ⟨(congrArg StreamSt.seqs h :), (congrArg StreamSt.asked h :), (congrArg StreamSt.taken h :), (congrArg StreamSt.stamp h :)⟩

/-- From s to t only the room of stream i has changed. -/
structure RoomOnly (i : Nat) (s t : State) : Prop where
  only  : ∃ S, t = { s with streams := S }
  other : ∀ j, j ≠ i → strm t j = strm s j
  self  : roomless (strm t i) = roomless (strm s i)

theorem RoomOnly.rfl' (i : Nat) (s : State) : RoomOnly i s s := ⟨⟨s.streams, rfl⟩, fun _ _ => rfl, rfl⟩

theorem RoomOnly.trans (h : RoomOnly i s t) (k : RoomOnly i t u) : RoomOnly i s u where
  only := by
    obtain ⟨S, rfl⟩ := h.only
    obtain ⟨T, rfl⟩ := k.only
    exact ⟨T, rfl⟩
  other j hj := (k.other j hj).trans (h.other j hj)
  self := k.self.trans h.self

theorem RoomOnly.turn (h : RoomOnly i s t) : (strm t i).turn = (strm s i).turn := (congrArg StreamSt.turn h.self :)

theorem RoomOnly.still (h : RoomOnly i s t) (hs : TurnStill s i) : TurnStill t i := by
  have turn := h.turn
  obtain ⟨S, rfl⟩ := h.only
  exact hs.imp_left turn.trans

theorem RoomOnly.setStrm {x : StreamSt} (hx : roomless x = roomless (strm s i)) : RoomOnly i s (setStrm s i x) where
  only := ⟨_, rfl⟩
  other j hj := by rw [strm_setStrm, if_neg (Ne.symm hj)]
  self := by rw [strm_setStrm_self, hx]

theorem RoomOnly.turnOut (h : RoomOnly i s t) (hs : TurnStill s i) : RoomOnly i s (turnOut t i) := by
  rw [turnOut_still (h.still hs)]
  exact h

theorem release_roomOnly (s : State) (i : Nat) : RoomOnly i s (release s i) := by
  unfold release
  extract_lets x
  split
  · exact .rfl' i s
  · exact .setStrm rfl

theorem extendOne_roomOnly (h : TurnStill s i) : RoomOnly i s (extendOne s i) := by
  unfold extendOne
  extract_lets d x
  split
  · exact .rfl' i s
  · extract_lets p
    split
    · exact .rfl' i s
    · split
      · exact .setStrm rfl
      · split
        · exact .rfl' i s
        · refine RoomOnly.turnOut ?_ h
          exact .setStrm rfl

/-- Room for a stream whose turn unit gives nothing up changes its room alone. -/
theorem extend_roomOnly (h : TurnStill s i) : RoomOnly i s (extend s i) := by
  have given : RoomOnly i s (extendOne (extendOne (release s i) i) i) := by
    have one := (release_roomOnly s i).trans (extendOne_roomOnly ((release_roomOnly s i).still h))
    exact one.trans (extendOne_roomOnly (one.still h))
  have same : ((!(strm s i).turn.isEmpty) && (strm s i).turn.isEmpty) = false := by cases (strm s i).turn <;> rfl
  unfold extend
  extract_lets t
  have turn : (strm t i).turn = (strm s i).turn := given.turn
  rw [turn, if_neg (by rw [same]; decide)]
  exact given

theorem RoomOnly.rd_eq (h : RoomOnly i s t) (a : Nat) : rd t a = rd s a := by
  obtain ⟨S, rfl⟩ := h.only
  rfl

theorem RoomOnly.veins (h : RoomOnly i s t) : t.veins = s.veins := by
  obtain ⟨S, rfl⟩ := h.only
  rfl

theorem RoomOnly.dpMode (h : RoomOnly i s t) : t.dpMode = s.dpMode := by
  obtain ⟨S, rfl⟩ := h.only
  rfl

theorem RoomOnly.micaByte_eq (h : RoomOnly i s t) (x : Nat) : micaByte t x = micaByte s x := by
  obtain ⟨S, rfl⟩ := h.only
  rfl

end

/-! ## A sequence begins -/

section
variable {s : State} {i p xb : Nat}

/-- The next sequence of a stream has begun, and has its room. -/
def seqBegun (s : State) (i p xb : Nat) : State := extend (startSeq s i p xb) i

/-- The stream with the record of the next sequence. -/
def withSeq (s : State) (i p xb : Nat) : StreamSt :=
  { strm s i with seqs := trimSeqs (setFld s (Reg.stmDescW0 i) Fl.stmDescW0_XBASE xb) i ++ [⟨p, (desc s i).total, xb⟩], next := p }

variable (h : (strm s i).turn = [])
include h

theorem seqBegun_roomOnly : RoomOnly i (startSeq s i p xb) (seqBegun s i p xb) :=
  extend_roomOnly (.inl (by unfold startSeq; dsimp only; rw [strm_setStrm_self]; exact h))

theorem rd_seqBegun (a : Nat) : rd (seqBegun s i p xb) a = rd (setFld s (Reg.stmDescW0 i) Fl.stmDescW0_XBASE xb) a :=
  (seqBegun_roomOnly h).rd_eq a

theorem rd_seqBegun_ne {a : Nat} (ha : a ≠ Reg.stmDescW0 i) : rd (seqBegun s i p xb) a = rd s a :=
  (rd_seqBegun h a).trans (rd_setFld_ne _ _ _ ha.symm)

theorem veins_seqBegun : (seqBegun s i p xb).veins = s.veins := (seqBegun_roomOnly h).veins

theorem dpMode_seqBegun : (seqBegun s i p xb).dpMode = s.dpMode := (seqBegun_roomOnly h).dpMode

theorem micaByte_seqBegun (x : Nat) : micaByte (seqBegun s i p xb) x = micaByte s x :=
  (seqBegun_roomOnly h).micaByte_eq x

theorem strm_seqBegun_ne {j : Nat} (hj : j ≠ i) : strm (seqBegun s i p xb) j = strm s j :=
  ((seqBegun_roomOnly h).other j hj).trans ((strm_setStrm ..).trans (if_neg hj.symm))

theorem strm_seqBegun : roomless (strm (seqBegun s i p xb) i) = roomless (withSeq s i p xb) :=
  (seqBegun_roomOnly h).self.trans (congrArg roomless (strm_setStrm_self ..))

theorem xbase_seqBegun : fld (seqBegun s i p xb) (Reg.stmDescW0 i) Fl.stmDescW0_XBASE = xb % 2 ^ 48 :=
  (fld_congr (rd_seqBegun h _)).trans (fld_setFld_self _ _ _ _ (by decide))

end

end Sys2Proof.Machine

/-! PROOFS. STREAM_ARM (R147, R148, R152, R214): the descriptor words, the fields of W7, and the first sequence. -/

namespace Sys2Proof.Machine

/-! ## The words of the descriptor -/

section
variable {s : State} {f : Nat → Nat} {g : Nat → W64}

/-- Several words written in turn. -/
def wrs (s : State) (f : Nat → Nat) (g : Nat → W64) (n : Nat) : State := (List.range n).foldl (fun s k => wr s (f k) (g k)) s

theorem wrs_succ (n : Nat) : wrs s f g (n + 1) = wr (wrs s f g n) (f n) (g n) := by
  unfold wrs
  rw [List.range_succ, List.foldl_append]
  rfl

theorem wrs_only (n : Nat) : RegsOnly s (wrs s f g n) := by
  induction n with
  | zero => exact RegsOnly.rfl' s
  | succ n ih =>
    rw [wrs_succ]
    exact ih.wr _ _

theorem rd_wrs_ne {n a : Nat} (h : ∀ k < n, f k ≠ a) : rd (wrs s f g n) a = rd s a := by
  induction n with
  | zero => rfl
  | succ n ih => rw [wrs_succ, rd_wr_ne _ _ (h n (Nat.lt_succ_self n)), ih fun k hk => h k (Nat.lt_succ_of_lt hk)]

theorem rd_wrs {n k : Nat} (hk : k < n) (hf : ∀ m < n, m ≠ k → f m ≠ f k) : rd (wrs s f g n) (f k) = g k := by
  induction n with
  | zero => cases hk
  | succ n ih =>
    rw [wrs_succ]
    by_cases e : n = k
    · rw [e, rd_wr_self]
    · rw [rd_wr_ne _ _ (hf n (Nat.lt_succ_self n) e)]
      exact ih (by omega) fun m hm => hf m (Nat.lt_succ_of_lt hm)

end

section
variable {s : State} {i t : Nat} {ws : List W64}

/-- The state with the descriptor words in the stream's registers. -/
def armLoaded (s : State) (i : Nat) (ws : List W64) : State :=
  wrs s (fun w => Reg.stmDescW0 i + 8 * w) (fun w => BitVec.ofNat 64 (wordAt ws (1 + w))) 7

theorem rd_armLoaded {w : Nat} (hw : w < 7) :
    rd (armLoaded s i ws) (Reg.stmDescW0 i + 8 * w) = BitVec.ofNat 64 (wordAt ws (1 + w)) :=
  rd_wrs (f := fun w => Reg.stmDescW0 i + 8 * w) hw fun m _ ne e => ne (by omega)

theorem rd_armLoaded_ne {a : Nat} (h : ∀ w < 7, Reg.stmDescW0 i + 8 * w ≠ a) : rd (armLoaded s i ws) a = rd s a :=
  rd_wrs_ne h

theorem wordAt_toNat (k : Nat) : (BitVec.ofNat 64 (wordAt ws k)).toNat = wordAt ws k := by
  rw [BitVec.toNat_ofNat]
  exact Nat.mod_eq_of_lt (ws.getD k 0).isLt

/-- The registers hold the descriptor that the command names. -/
theorem desc_armLoaded : desc (armLoaded s i ws) i = armDesc ws := by
  have word {w : Nat} (hw : w < 7) : (rd (armLoaded s i ws) (Reg.stmDescW0 i + 8 * w)).toNat = wordAt ws (1 + w) := by
    rw [rd_armLoaded hw, wordAt_toNat]
  have at_ : Reg.stmDescW1 i = Reg.stmDescW0 i + 8 * 1 ∧ Reg.stmDescW2 i = Reg.stmDescW0 i + 8 * 2 ∧
      Reg.stmDescW3 i = Reg.stmDescW0 i + 8 * 3 ∧ Reg.stmDescW4 i = Reg.stmDescW0 i + 8 * 4 ∧
      Reg.stmDescW5 i = Reg.stmDescW0 i + 8 * 5 ∧ Reg.stmDescW6 i = Reg.stmDescW0 i + 8 * 6 := by
    unfold Reg.stmDescW0 Reg.stmDescW1 Reg.stmDescW2 Reg.stmDescW3 Reg.stmDescW4 Reg.stmDescW5 Reg.stmDescW6
    omega
  obtain ⟨e1, e2, e3, e4, e5, e6⟩ := at_
  unfold desc armDesc
  rw [e1, e2, e3, e4, e5, e6, show rd (armLoaded s i ws) (Reg.stmDescW0 i) = rd (armLoaded s i ws) (Reg.stmDescW0 i + 8 * 0)
    from rfl, word (by decide), word (by decide), word (by decide), word (by decide), word (by decide), word (by decide),
    word (by decide)]

/-! ## The fields of W7 (R152) -/

/-- The stream runs, for its tenant, and shows nothing of what it did before. -/
def armShown (s : State) (i t : Nat) : State :=
  let a := Reg.stmDescW7 i
  setFlag (setFlag (setFld (setFld (setSState s i Ss.running) a Fl.stmDescW7_TENANT t) a Fl.stmDescW7_LASTSTAT St.ok) a
    Fl.stmDescW7_PENDING false) a Fl.stmDescW7_STARVED false

theorem armShown_fields (ht : t < 4) : sState (armShown s i t) i = Ss.running ∧ sTenant (armShown s i t) i = t ∧
    fld (armShown s i t) (Reg.stmDescW7 i) Fl.stmDescW7_LASTSTAT = St.ok ∧
    fld (armShown s i t) (Reg.stmDescW7 i) Fl.stmDescW7_PENDING = 0 := by
  unfold armShown setFlag setSState sState sTenant
  dsimp only
  refine ⟨?_, ?_, ?_, ?_⟩
  · rw [fld_setFld_other _ _ _ _ _ (by decide) (by decide), fld_setFld_other _ _ _ _ _ (by decide) (by decide),
      fld_setFld_other _ _ _ _ _ (by decide) (by decide), fld_setFld_other _ _ _ _ _ (by decide) (by decide),
      fld_setFld_self _ _ _ _ (by decide)]
    rfl
  · rw [fld_setFld_other _ _ _ _ _ (by decide) (by decide), fld_setFld_other _ _ _ _ _ (by decide) (by decide),
      fld_setFld_other _ _ _ _ _ (by decide) (by decide), fld_setFld_self _ _ _ _ (by decide)]
    exact Nat.mod_eq_of_lt ht
  · rw [fld_setFld_other _ _ _ _ _ (by decide) (by decide), fld_setFld_other _ _ _ _ _ (by decide) (by decide),
      fld_setFld_self _ _ _ _ (by decide)]
    rfl
  · rw [fld_setFld_other _ _ _ _ _ (by decide) (by decide), fld_setFld_self _ _ _ _ (by decide)]
    rfl

theorem rd_armShown_ne {a : Nat} (ha : Reg.stmDescW7 i ≠ a) : rd (armShown s i t) a = rd s a := by
  unfold armShown setFlag setSState
  dsimp only
  rw [rd_setFld_ne _ _ _ ha, rd_setFld_ne _ _ _ ha, rd_setFld_ne _ _ _ ha, rd_setFld_ne _ _ _ ha, rd_setFld_ne _ _ _ ha]

/-! ## The stream starts -/

theorem mcAbandon_groups (s : State) (i : Nat) : ∃ G, mcAbandon s i = { s with groups := G } :=
  List.foldlRecOn (motive := fun u : State => ∃ G, u = { s with groups := G }) _ _ ⟨s.groups, rfl⟩ fun u hu g _ => by
    obtain ⟨G, rfl⟩ := hu
    dsimp only
    split
    · exact ⟨_, rfl⟩
    · exact ⟨G, rfl⟩

/-- A stream begins anew: what it sent to a group is given up. -/
def renewed (s : State) (i : Nat) : State := setStrm (mcAbandon s i) i StreamSt.init

theorem renewed_eq (s : State) (i : Nat) : ∃ G, renewed s i = setStrm { s with groups := G } i StreamSt.init := by
  obtain ⟨G, e⟩ := mcAbandon_groups s i
  unfold renewed
  rw [e]
  exact ⟨G, rfl⟩

theorem rd_renewed (s : State) (i a : Nat) : rd (renewed s i) a = rd s a := by
  obtain ⟨G, e⟩ := renewed_eq s i
  rw [e]
  rfl

theorem strm_renewed (s : State) (i j : Nat) : strm (renewed s i) j = if i = j then StreamSt.init else strm s j := by
  obtain ⟨G, e⟩ := renewed_eq s i
  rw [e]
  exact strm_setStrm ..

theorem renewed_rest (s : State) (i : Nat) : (renewed s i).veins = s.veins ∧
    (∀ x, micaByte (renewed s i) x = micaByte s x) ∧ (renewed s i).dpMode = s.dpMode := by
  obtain ⟨G, e⟩ := renewed_eq s i
  rw [e]
  exact ⟨rfl, fun _ => rfl, rfl⟩

/-- A stream set up, before its first sequence. -/
def armReady (s : State) (i t : Nat) (ws : List W64) : State := renewed (armShown (armLoaded s i ws) i t) i

theorem rd_armReady (a : Nat) : rd (armReady s i t ws) a = rd (armShown (armLoaded s i ws) i t) a := rd_renewed ..

theorem strm_armReady_self : strm (armReady s i t ws) i = StreamSt.init := (strm_renewed ..).trans (if_pos rfl)

theorem armLoaded_only : RegsOnly s (armLoaded s i ws) := wrs_only 7

theorem armShown_only {u : State} (h : RegsOnly s u) : RegsOnly s (armShown u i t) := by
  unfold armShown setSState
  exact ((((h.setFld _ _ _).setFld _ _ _).setFld _ _ _).setFlag _ _ _).setFlag _ _ _

/-- Beside registers and groups only stream i has changed. -/
theorem renewed_of_only {u : State} (h : RegsOnly s u) : (renewed u i).veins = s.veins ∧
    (∀ x, micaByte (renewed u i) x = micaByte s x) ∧ (renewed u i).dpMode = s.dpMode ∧
    ∀ j, j ≠ i → strm (renewed u i) j = strm s j := by
  have streams : u.streams = s.streams := (congrArg State.streams h :)
  have mica : u.mica = s.mica := (congrArg State.mica h :)
  obtain ⟨hv, hm, hd⟩ := renewed_rest u i
  refine ⟨hv.trans (congrArg State.veins h :), fun x => (hm x).trans ?_, hd.trans (congrArg State.dpMode h :), fun j hj => ?_⟩
  · unfold micaByte
    rw [mica]
  · rw [strm_renewed, if_neg hj.symm]
    unfold strm
    rw [streams]

theorem armReady_rest (s : State) (i t : Nat) (ws : List W64) : (armReady s i t ws).veins = s.veins ∧
    (∀ x, micaByte (armReady s i t ws) x = micaByte s x) ∧ (armReady s i t ws).dpMode = s.dpMode ∧
    ∀ j, j ≠ i → strm (armReady s i t ws) j = strm s j := renewed_of_only (armShown_only armLoaded_only)

theorem desc_armReady : desc (armReady s i t ws) i = armDesc ws :=
  (desc_of_rd fun a _ ha => (rd_armReady a).trans (rd_armShown_ne (Nat.ne_of_gt ha))).trans desc_armLoaded

/-- The armed stream has its first sequence. -/
def armBegun (s : State) (i t : Nat) (ws : List W64) : State := seqBegun (armReady s i t ws) i 0 (armDesc ws).xbase

theorem armReady_empty : (strm (armReady s i t ws) i).turn = [] := by
  rw [strm_armReady_self]
  rfl

theorem rd_armBegun_ne {a : Nat} (ha : a ≠ Reg.stmDescW0 i) :
    rd (armBegun s i t ws) a = rd (armShown (armLoaded s i ws) i t) a := by
  unfold armBegun
  rw [rd_seqBegun_ne armReady_empty ha, rd_armReady]

/-- A Deep stream with a usable port starts. -/
theorem armStream_starts (hp : (armDesc ws).isDeep = true → deepPorts s (armDesc ws) ≠ []) :
    armStream s i t ws = armBegun s i t ws := by
  have begun : extend (startSeq (armReady s i t ws) i 0 (desc (armReady s i t ws) i).xbase) i = armBegun s i t ws := by
    rw [desc_armReady]
    rfl
  have w6 : rd (armBegun s i t ws) (Reg.stmDescW6 i) = rd (armReady s i t ws) (Reg.stmDescW6 i) :=
    rd_seqBegun_ne armReady_empty (by unfold Reg.stmDescW6 Reg.stmDescW0; omega)
  have same : (desc (armBegun s i t ws) i).isDeep = (armDesc ws).isDeep ∧
      (desc (armBegun s i t ws) i).portmask = (armDesc ws).portmask := by
    rw [← desc_armReady (s := s) (i := i) (t := t) (ws := ws)]
    unfold desc descOf Desc.isDeep
    rw [w6]
    exact ⟨rfl, rfl⟩
  have ports : deepPorts (armBegun s i t ws) (desc (armBegun s i t ws) i) = deepPorts s (armDesc ws) := by
    obtain ⟨-, -, mode, -⟩ := armReady_rest s i t ws
    have same_mode : (armBegun s i t ws).dpMode = s.dpMode := by
      unfold armBegun
      rw [dpMode_seqBegun armReady_empty, mode]
    unfold deepPorts portUsable
    rw [same_mode, same.2]
  have running : ((desc (armBegun s i t ws) i).isDeep && (deepPorts (armBegun s i t ws) (desc (armBegun s i t ws) i)).isEmpty) = false := by
    rw [same.1, ports]
    cases hd : (armDesc ws).isDeep
    · rfl
    · simpa using hp hd
  have shape : armStream s i t ws = if (desc (extend (startSeq (armReady s i t ws) i 0 (desc (armReady s i t ws) i).xbase) i) i).isDeep &&
      (deepPorts (extend (startSeq (armReady s i t ws) i 0 (desc (armReady s i t ws) i).xbase) i)
        (desc (extend (startSeq (armReady s i t ws) i 0 (desc (armReady s i t ws) i).xbase) i) i)).isEmpty
      then haltStream (extend (startSeq (armReady s i t ws) i 0 (desc (armReady s i t ws) i).xbase) i) i St.endpointError
      else extend (startSeq (armReady s i t ws) i 0 (desc (armReady s i t ws) i).xbase) i := rfl
  rw [shape, begun, running]
  exact if_neg Bool.false_ne_true

/-! ## What the armed stream shows -/

theorem fields_armBegun (ht : t < 4) : sState (armBegun s i t ws) i = Ss.running ∧ sTenant (armBegun s i t ws) i = t ∧
    fld (armBegun s i t ws) (Reg.stmDescW7 i) Fl.stmDescW7_LASTSTAT = St.ok ∧
    fld (armBegun s i t ws) (Reg.stmDescW7 i) Fl.stmDescW7_PENDING = 0 := by
  have same (f : Field) : fld (armBegun s i t ws) (Reg.stmDescW7 i) f =
      fld (armShown (armLoaded s i ws) i t) (Reg.stmDescW7 i) f :=
    fld_congr (rd_armBegun_ne (by unfold Reg.stmDescW7 Reg.stmDescW0; omega))
  obtain ⟨state, tenant, stat, pending⟩ := armShown_fields (s := armLoaded s i ws) (i := i) ht
  exact ⟨(same _).trans state, (same _).trans tenant, (same _).trans stat, (same _).trans pending⟩

theorem stmDescW7_ne_word {w : Nat} (hw : w < 7) : Reg.stmDescW7 i ≠ Reg.stmDescW0 i + 8 * w := by
  unfold Reg.stmDescW7 Reg.stmDescW0
  omega

theorem word_armBegun {w : Nat} (hw : 1 ≤ w) (hw' : w ≤ 6) :
    rd (armBegun s i t ws) (Reg.stmDescW0 i + 8 * w) = BitVec.ofNat 64 (wordAt ws (1 + w)) :=
  (rd_armBegun_ne (by omega)).trans ((rd_armShown_ne (stmDescW7_ne_word (by omega))).trans (rd_armLoaded (by omega)))

theorem xbase_armBegun : fld (armBegun s i t ws) (Reg.stmDescW0 i) Fl.stmDescW0_XBASE = (armDesc ws).xbase := by
  have small : (armDesc ws).xbase < 2 ^ 48 := Nat.mod_lt _ (by decide)
  rw [armBegun, xbase_seqBegun armReady_empty]
  exact Nat.mod_eq_of_lt small

theorem xstratum_armBegun : fld (armBegun s i t ws) (Reg.stmDescW0 i) Fl.stmDescW0_XSTRATUM = (armDesc ws).xstratum := by
  have kept : fld (armBegun s i t ws) (Reg.stmDescW0 i) Fl.stmDescW0_XSTRATUM =
      fld (armReady s i t ws) (Reg.stmDescW0 i) Fl.stmDescW0_XSTRATUM :=
    (fld_congr (rd_seqBegun armReady_empty _)).trans (fld_setFld_other _ _ _ _ _ (by decide) (by decide))
  exact kept.trans (congrArg Desc.xstratum (desc_armReady (s := s) (i := i) (t := t) (ws := ws)))

theorem strm_armBegun : (strm (armBegun s i t ws) i).seqs = [⟨0, (armDesc ws).total, (armDesc ws).xbase⟩] ∧
    (strm (armBegun s i t ws) i).asked = 0 ∧ (strm (armBegun s i t ws) i).taken = 0 := by
  have self : roomless (strm (armBegun s i t ws) i) = _ := strm_seqBegun armReady_empty
  have trimmed : trimSeqs (setFld (armReady s i t ws) (Reg.stmDescW0 i) Fl.stmDescW0_XBASE (armDesc ws).xbase) i = [] := by
    unfold trimSeqs
    dsimp only
    rw [strm_setFld, strm_armReady_self]
    rfl
  unfold withSeq at self
  rw [trimmed, desc_armReady, strm_armReady_self] at self
  obtain ⟨seqs, asked, taken, -⟩ := roomless_fields self
  exact ⟨seqs, asked, taken⟩

theorem strm_armBegun_ne {j : Nat} (hj : j ≠ i) : strm (armBegun s i t ws) j = strm s j :=
  (strm_seqBegun_ne armReady_empty hj).trans ((armReady_rest s i t ws).2.2.2 j hj)

theorem rd_armBegun_off {a : Nat} (ha : ¬ descReg i a) : rd (armBegun s i t ws) a = rd s a := by
  have off {w : Nat} (hw : w < 8) : Reg.stmDescW0 i + 8 * w ≠ a := fun e => ha (by
    unfold descReg Reg.stmDescW7
    unfold Reg.stmDescW0 at e ⊢
    omega)
  have w7 : Reg.stmDescW7 i ≠ a := by
    have := off (w := 7) (by decide)
    unfold Reg.stmDescW7
    unfold Reg.stmDescW0 at this
    omega
  rw [rd_armBegun_ne (off (w := 0) (by decide)).symm, rd_armShown_ne w7, rd_armLoaded_ne fun w hw => off (by omega)]

theorem veins_armBegun : (armBegun s i t ws).veins = s.veins :=
  (veins_seqBegun armReady_empty).trans (armReady_rest s i t ws).1

theorem micaByte_armBegun (x : Nat) : micaByte (armBegun s i t ws) x = micaByte s x :=
  (micaByte_seqBegun armReady_empty x).trans ((armReady_rest s i t ws).2.1 x)

end

/-! ## The command -/

theorem strm_startIssue (s : State) (v : Nat) (c : Cmd) (j : Nat) : strm (startIssue s v c) j = strm s j := by
  obtain ⟨g, x, -, e⟩ := leavePrefetch_eq s v c
  exact (congrArg (strm · j) e :)

theorem dpMode_startIssue (s : State) (v : Nat) (c : Cmd) : (startIssue s v c).dpMode = s.dpMode := by
  obtain ⟨g, x, -, e⟩ := leavePrefetch_eq s v c
  exact (congrArg State.dpMode e :)

theorem micaByte_startIssue (s : State) (v : Nat) (c : Cmd) (x : Nat) : micaByte (startIssue s v c) x = micaByte s x := by
  unfold micaByte
  rw [startIssue_mica]

theorem book_strm {R : Nat → Bool} {s t : State} (h : Books R s t) (j : Nat) : strm t j = strm s j := by
  have streams : t.streams = s.streams := (congrArg State.streams h.rest :)
  unfold strm
  rw [streams]

section
variable {s : State} {v : Fin 16} {c : Cmd}

/-- The stream of the command, armed as it issues. -/
def armIssued (s : State) (v : Nat) (c : Cmd) : State :=
  armBegun (startIssue s v c) (cf c.words 0 10 6) (vTenant s v) c.words

theorem execStreamArm_eq (hh : Head s v c 0x08) (hc : armCheck s v c.words = none) : exec (.streamArm v) s =
    .next (issueNow s v c fun s => armStream s (cf c.words 0 10 6) (vTenant s v) c.words) :=
  (inTurn_head hh _).trans (congrArg Host.Outcome.next (issueWith_control hh rfl hc))

theorem armStream_issued (hp : (armDesc c.words).isDeep = true → deepPorts s (armDesc c.words) ≠ []) :
    armStream (startIssue s v c) (cf c.words 0 10 6) (vTenant (startIssue s v c) v) c.words = armIssued s v c := by
  have ports : deepPorts (startIssue s v c) (armDesc c.words) = deepPorts s (armDesc c.words) := by
    unfold deepPorts portUsable
    rw [dpMode_startIssue]
  rw [vTenant_startIssue]
  exact armStream_starts (by rw [ports]; exact hp)

end

end Sys2Proof.Machine

namespace Sys2Proof.Proofs

open Sys2Proof.Machine

/-- Settles O8, by the state in which the stream begins its first sequence. -/
theorem streamArmStartsStream : Obligations.StreamArmStartsStream := by
  unfold Obligations.StreamArmStartsStream
  intro s v c hh hc i d hp
  have hv := v.isLt
  have hi : i < 64 := Nat.mod_lt _ (by decide)
  have effect := armStream_issued (v := v) hp
  have jobs : (vein (armIssued s v c) v).jobs = (vein (startIssue s v c) v).jobs := by
    unfold vein armIssued
    rw [veins_armBegun]
  have books : Books bookReg (armIssued s v c)
      (issueNow s v c fun s => armStream s (cf c.words 0 10 6) (vTenant s v) c.words) := by
    rw [← effect]
    exact issueNow_book (f := fun s => armStream s (cf c.words 0 10 6) (vTenant s v) c.words) hv
  have stream {a : Nat} (hlo : Reg.stmDescW0 i ≤ a) (hhi : a ≤ Reg.stmDescW7 i) : bookReg a = false :=
    bookReg_between (by unfold Reg.stmDescW0 at hlo; omega) (by unfold Reg.stmDescW7 at hhi; omega)
  have w7 (f : Field) := fld_congr (f := f) (books.regs (Reg.stmDescW7 i) (stream (by unfold Reg.stmDescW0 Reg.stmDescW7; omega) le_rfl))
  have w0 (f : Field) := fld_congr (f := f) (books.regs (Reg.stmDescW0 i) (stream le_rfl (by unfold Reg.stmDescW0 Reg.stmDescW7; omega)))
  obtain ⟨state, tenant, stat, pending⟩ := fields_armBegun (s := startIssue s v c) (i := i) (ws := c.words) (vTenant_lt s v)
  obtain ⟨seqs, asked, taken⟩ := strm_armBegun (s := startIssue s v c) (i := i) (t := vTenant s v) (ws := c.words)
  refine ⟨_, execStreamArm_eq hh hc, issueNow_retires_of_jobs hv (by rw [effect]; exact jobs), (w7 _).trans state,
    (w7 _).trans tenant, (w7 _).trans stat, (w7 _).trans pending, (w0 _).trans xbase_armBegun,
    (w0 _).trans xstratum_armBegun, fun w hlo hhi => ?_, ?_, ?_, ?_, fun j hj => ?_, fun a ha off => ?_, fun x hx => ?_⟩
  · exact (books.regs _ (stream (by omega) (by unfold Reg.stmDescW0 Reg.stmDescW7; omega))).trans (word_armBegun hlo hhi)
  · rw [book_strm books]
    exact seqs
  · rw [book_strm books]
    exact asked
  · rw [book_strm books]
    exact taken
  · rw [book_strm books]
    exact (strm_armBegun_ne hj).trans (strm_startIssue ..)
  · exact (books.regs a ha).trans ((rd_armBegun_off off).trans (rd_startIssue ..))
  · have ring : rd (armIssued s v c) Reg.errRingCfg = rd s Reg.errRingCfg :=
      (rd_armBegun_off fun h => by unfold descReg Reg.stmDescW0 Reg.stmDescW7 Reg.errRingCfg at h; omega).trans (rd_startIssue ..)
    refine (books.mica x ?_).trans ((micaByte_armBegun x).trans (micaByte_startIssue ..))
    rw [← hx]
    unfold ringByte flag fld
    rw [ring]

end Sys2Proof.Proofs

/-! PROOFS. STREAM_REARM and WLOAD (R151, R212, R214): an ended stream begins its next sequence, a running one holds the
re-arm, and a second re-arm waits. -/

namespace Sys2Proof.Machine

/-! ## The measured activity of a sequence (R258) -/

/-- A stream without what is measured of its present sequence. -/
def unmeasured (x : StreamSt) : StreamSt := { x with seen := false, act := (0, 0), lanes := [] }

section
variable {s : State} {i : Nat}

/-- From s to t only PX_TRM_ACT, what is measured of stream i and the free values have changed. -/
structure ActWritten (i : Nat) (s t : State) : Prop where
  regs  : ∀ a, a ≠ Reg.trmAct (i / 8) → rd t a = rd s a
  veins : t.veins = s.veins
  other : ∀ j, j ≠ i → strm t j = strm s j
  self  : unmeasured (strm t i) = unmeasured (strm s i)

theorem writeActivity_written (s : State) (i : Nat) : ActWritten i s (writeActivity s i) := by
  unfold writeActivity
  extract_lets x shown
  have hshown : ActWritten i s shown :=
    ⟨fun _ _ => rfl, rfl, fun j hj => (strm_setStrm ..).trans (if_neg hj.symm), by
      rw [show strm shown i = _ from strm_setStrm_self ..]
      rfl⟩
  clear_value shown
  have writes {u : State} (hu : ActWritten i s u) (f : Field) (n : Nat) : ActWritten i s (setFld u (Reg.trmAct (i / 8)) f n) :=
    ⟨fun a ha => (rd_setFld_ne _ _ _ ha.symm).trans (hu.regs a ha), hu.veins, hu.other, hu.self⟩
  split
  · split
    · exact writes (u := (takeFree shown 8).2) ⟨hshown.regs, hshown.veins, hshown.other, hshown.self⟩ _ _
    · exact writes hshown _ _
  · exact ⟨fun _ _ => rfl, rfl, fun _ _ => rfl, rfl⟩

theorem unmeasured_fields {x y : StreamSt} (h : unmeasured x = unmeasured y) : x.seqs = y.seqs ∧ x.turn = y.turn :=
  ⟨(congrArg StreamSt.seqs h :), (congrArg StreamSt.turn h :)⟩

/-! ## The re-arm (R151) -/

/-- A stream whose next re-arm is accepted: LASTSTAT OK, the activity of its last sequence written. -/
def rearmFrom (s : State) (i : Nat) : State := writeActivity (setFld s (Reg.stmDescW7 i) Fl.stmDescW7_LASTSTAT St.ok) i

theorem rearmFrom_written (s : State) (i : Nat) :
    ActWritten i (setFld s (Reg.stmDescW7 i) Fl.stmDescW7_LASTSTAT St.ok) (rearmFrom s i) := writeActivity_written ..

theorem rd_rearmFrom {a : Nat} (h7 : a ≠ Reg.stmDescW7 i) (ha : a < Reg.trmAct 0) : rd (rearmFrom s i) a = rd s a := by
  rw [(rearmFrom_written s i).regs a (by unfold Reg.trmAct at ha ⊢; omega), rd_setFld_ne _ _ _ h7.symm]

theorem fields_rearmFrom (hi : i < 64) : sState (rearmFrom s i) i = sState s i ∧
    fld (rearmFrom s i) (Reg.stmDescW7 i) Fl.stmDescW7_LASTSTAT = St.ok := by
  have w7 := (rearmFrom_written s i).regs (Reg.stmDescW7 i) (by
    have := hi
    unfold Reg.stmDescW7 Reg.trmAct
    omega)
  constructor
  · unfold sState
    rw [fld_congr w7, fld_setFld_other _ _ _ _ _ (by decide) (by decide)]
  · rw [fld_congr w7, fld_setFld_self _ _ _ _ (by decide)]
    rfl

theorem strm_rearmFrom (s : State) (i : Nat) :
    (strm (rearmFrom s i) i).seqs = (strm s i).seqs ∧ (strm (rearmFrom s i) i).turn = (strm s i).turn := by
  have kept := unmeasured_fields (rearmFrom_written s i).self
  rw [strm_setFld] at kept
  exact kept

/-- The ended stream as its next sequence is to begin. -/
def rearmReady (s : State) (i : Nat) (st : Option (Nat × Nat × Bool)) : State :=
  setSState (setStrm (rearmFrom s i) i { strm (rearmFrom s i) i with stamp := st }) i Ss.running

/-- Its next sequence has begun. -/
def rearmBegun (s : State) (i xb : Nat) (st : Option (Nat × Nat × Bool)) : State :=
  seqBegun (rearmReady s i st) i (seqEndPos (strm (rearmFrom s i) i)) xb

/-- The running stream holds its re-arm. -/
def rearmHeld (s : State) (i xb : Nat) (st : Option (Nat × Nat × Bool)) : State :=
  setFlag (setStrm (rearmFrom s i) i { strm (rearmFrom s i) i with rearm := some xb, nextStamp := st }) (Reg.stmDescW7 i)
    Fl.stmDescW7_PENDING true

variable {xb : Nat} {st : Option (Nat × Nat × Bool)}

section
variable (hi : i < 64)
include hi

theorem rearmStream_ended (h : sState s i = Ss.ended) : rearmStream s i xb st = rearmBegun s i xb st := by
  have state : sState (rearmFrom s i) i = Ss.ended := (fields_rearmFrom hi).1.trans h
  unfold rearmFrom at state
  exact if_pos (by rw [state]; rfl)

theorem rearmStream_running (h : sState s i = Ss.running) : rearmStream s i xb st = rearmHeld s i xb st := by
  have state : sState (rearmFrom s i) i = Ss.running := (fields_rearmFrom hi).1.trans h
  unfold rearmFrom at state
  exact if_neg (by rw [state]; decide)

end

/-- What an accepted re-arm shows of the stream, and what it leaves. -/
structure Rearmed (i : Nat) (s t : State) : Prop where
  state : sState t i = Ss.running
  stat  : fld t (Reg.stmDescW7 i) Fl.stmDescW7_LASTSTAT = St.ok
  veins : t.veins = s.veins
  other : ∀ j, j ≠ i → strm t j = strm s j

theorem strm_rearmReady : strm (rearmReady s i st) i = { strm (rearmFrom s i) i with stamp := st } := by
  unfold rearmReady setSState
  rw [strm_setFld, strm_setStrm_self]

theorem rearmReady_rearmed (hi : i < 64) : Rearmed i s (rearmReady s i st) := by
  unfold rearmReady setSState
  constructor
  · unfold sState
    rw [fld_setFld_self _ _ _ _ (by decide)]
    rfl
  · rw [fld_setFld_other _ _ _ _ _ (by decide) (by decide), fld_setStrm]
    exact (fields_rearmFrom hi).2
  · rw [setFld_veins, setStrm_veins, (rearmFrom_written s i).veins, setFld_veins]
  · intro j hj
    rw [strm_setFld, strm_setStrm, if_neg hj.symm, (rearmFrom_written s i).other j hj, strm_setFld]

theorem desc_rearmReady (hi : i < 64) : desc (rearmReady s i st) i = desc s i := by
  refine desc_of_rd fun a hlo hhi => ?_
  unfold rearmReady setSState
  rw [rd_setFld_ne _ _ _ (Nat.ne_of_gt hhi), rd_setStrm]
  exact rd_rearmFrom (Nat.ne_of_lt hhi) (by unfold Reg.stmDescW7 at hhi; unfold Reg.trmAct; omega)

/-! ### The next sequence -/

section
variable (hi : i < 64) (ht : (strm s i).turn = [])
include hi ht

omit hi in
theorem rearmReady_empty : (strm (rearmReady s i st) i).turn = [] := by
  rw [strm_rearmReady]
  exact (strm_rearmFrom s i).2.trans ht

theorem rearmBegun_rearmed : Rearmed i s (rearmBegun s i xb st) := by
  obtain ⟨state, stat, veins, other⟩ := rearmReady_rearmed (s := s) (st := st) hi
  have empty := rearmReady_empty (st := st) ht
  have w7 : rd (rearmBegun s i xb st) (Reg.stmDescW7 i) = rd (rearmReady s i st) (Reg.stmDescW7 i) :=
    rd_seqBegun_ne empty (by unfold Reg.stmDescW7 Reg.stmDescW0; omega)
  exact ⟨(fld_congr w7).trans state, (fld_congr w7).trans stat, (veins_seqBegun empty).trans veins,
    fun j hj => (strm_seqBegun_ne empty hj).trans (other j hj)⟩

/-- The next sequence starts where the last one ended, at the new XBASE, with the stamp of its re-arm. -/
theorem rearmBegun_starts : curSeq (strm (rearmBegun s i xb st) i) = some ⟨seqEndPos (strm s i), (desc s i).total, xb⟩ ∧
    fld (rearmBegun s i xb st) (Reg.stmDescW0 i) Fl.stmDescW0_XBASE = xb % 2 ^ 48 ∧
    (strm (rearmBegun s i xb st) i).stamp = st := by
  have empty := rearmReady_empty (st := st) ht
  have self : roomless (strm (rearmBegun s i xb st) i) = _ := strm_seqBegun empty
  obtain ⟨seqs, -, -, stamp⟩ := roomless_fields self
  have ends : seqEndPos (strm (rearmFrom s i) i) = seqEndPos (strm s i) := by
    unfold seqEndPos curSeq
    rw [(strm_rearmFrom s i).1]
  refine ⟨?_, xbase_seqBegun empty, stamp.trans ?_⟩
  · unfold curSeq
    rw [seqs, ← ends]
    unfold withSeq
    rw [desc_rearmReady hi]
    exact List.getLast?_concat ..
  · unfold withSeq
    rw [strm_rearmReady]

end

/-! ### A held re-arm -/

theorem rearmHeld_rearmed (hi : i < 64) (h : sState s i = Ss.running) : Rearmed i s (rearmHeld s i xb st) := by
  obtain ⟨state, stat⟩ := fields_rearmFrom (s := s) hi
  unfold rearmHeld setFlag
  constructor
  · unfold sState
    rw [fld_setFld_other _ _ _ _ _ (by decide) (by decide), fld_setStrm]
    exact state.trans h
  · rw [fld_setFld_other _ _ _ _ _ (by decide) (by decide), fld_setStrm]
    exact stat
  · rw [setFld_veins, setStrm_veins, (rearmFrom_written s i).veins, setFld_veins]
  · intro j hj
    rw [strm_setFld, strm_setStrm, if_neg hj.symm, (rearmFrom_written s i).other j hj, strm_setFld]

theorem rearmHeld_holds : (strm (rearmHeld s i xb st) i).rearm = some xb ∧
    (strm (rearmHeld s i xb st) i).seqs = (strm s i).seqs ∧ (strm (rearmHeld s i xb st) i).nextStamp = st ∧
    fld (rearmHeld s i xb st) (Reg.stmDescW7 i) Fl.stmDescW7_PENDING = 1 := by
  unfold rearmHeld setFlag
  rw [strm_setFld, strm_setStrm_self, fld_setFld_self _ _ _ _ (by decide)]
  exact ⟨rfl, (strm_rearmFrom s i).1, rfl, rfl⟩

end

/-! ## STREAM_REARM at the head (R214) -/

section
variable {s : State} {v : Fin 16} {c : Cmd}

section
variable (hh : Head s v c 0x09) (hc : rearmCheck s v (cf c.words 0 10 6) (cf c.words 1 0 48) = none)
include hh hc

theorem execStreamRearm_waits (busy : rearmBusy s (cf c.words 0 10 6) = true) :
    exec (.streamRearm v) s = .next (headWaits s v 5) :=
  (inTurn_head hh _).trans (congrArg Host.Outcome.next ((issueWith_control hh rfl hc).trans (if_pos busy)))

theorem execStreamRearm_issues (free : rearmBusy s (cf c.words 0 10 6) = false) : exec (.streamRearm v) s =
    .next (issueNow s v c fun s => rearmStream s (cf c.words 0 10 6) (cf c.words 1 0 48) none) :=
  (inTurn_head hh _).trans (congrArg Host.Outcome.next ((issueWith_control hh rfl hc).trans (if_neg (by simp [free]))))

end

theorem rearmBusy_ended {i : Nat} (h : sState s i = Ss.ended) : rearmBusy s i = false := by
  unfold rearmBusy
  rw [h]
  rfl

theorem rearmBusy_running {i : Nat} (h : sState s i = Ss.running) : rearmBusy s i = (strm s i).rearm.isSome := by
  unfold rearmBusy
  rw [h]
  rfl

end

/-! ## WLOAD at the head (R212) -/

section
variable {s u : State} {v g dir gen seq : Nat} {c : Cmd}

/-- From s to t no stream, no register of a stream and no vein has changed. -/
structure StreamsKept (s t : State) : Prop where
  streams : t.streams = s.streams
  veins   : t.veins = s.veins
  regs    : ∀ a, a < 0x60000 → rd t a = rd s a

theorem StreamsKept.setFld {t : State} (h : StreamsKept s t) {a : Nat} (ha : 0x60000 ≤ a) (f : Field) (n : Nat) :
    StreamsKept s (setFld t a f n) :=
  ⟨h.streams, h.veins, fun b hb => (rd_setFld_ne _ _ _ (by omega)).trans (h.regs b hb)⟩

theorem StreamsKept.pgtPut {t : State} (h : StreamsKept s t) (g raw : Nat) : StreamsKept s (pgtPut t g raw) :=
  ⟨h.streams, h.veins, h.regs⟩

/-- The record of a generation writes no stream; where it is stale and not accepted it leaves its condition (R352). -/
theorem wloadStamp_cases (s : State) (v seq g dir gen : Nat) : ∃ u, StreamsKept s u ∧
    (wloadStamp s v seq g dir gen = u ∨ wloadStamp s v seq g dir gen = staleCond u v seq) := by
  have same : StreamsKept s s := ⟨rfl, rfl, fun _ _ => rfl⟩
  unfold wloadStamp
  extract_lets e step counted marked a a1 a2 a3 a4 a5 a6
  split
  · split
    · exact ⟨_, same.pgtPut .., .inl rfl⟩
    · exact ⟨_, same, .inl rfl⟩
  · split
    · have hcounted : StreamsKept s counted := same.setFld (by decide) _ _
      clear_value counted
      split
      · exact ⟨_, hcounted.pgtPut .., .inl rfl⟩
      · exact ⟨_, hcounted.pgtPut .., .inl rfl⟩
    · have h0 : StreamsKept s marked := same.pgtPut ..
      clear_value marked
      have h4 : StreamsKept s a4 := (((h0.setFld (by decide) _ _).setFld (by decide) _ _).setFld (by decide) _ _).setFld
        (by decide) _ _
      clear_value a4
      exact ⟨a6, (h4.setFld (by decide) _ _).setFld (by decide) _ _, .inr rfl⟩

theorem jobs_staleCond (s : State) (v seq : Nat) :
    (vein (staleCond s v seq) v).jobs = (vein (addCond s v seq St.wgenStale) v).jobs := by
  unfold staleCond
  dsimp only
  rw [vein_setVein_self]

/-- The stream of a WLOAD, re-armed and stamped. -/
def wloadIssued (s : State) (v : Nat) (c : Cmd) : State :=
  wloadStamp (rearmStream s (cf c.words 0 10 6) (cf c.words 1 0 48) (some (cf c.words 2 16 12, cf c.words 2 0 16,
    wloadStale (pgtRaw s (cf c.words 2 16 12)) (cf c.words 0 16 1) (cf c.words 2 0 16) (vStep s v)))) v (cmdSeq c.words)
    (cf c.words 2 16 12) (cf c.words 0 16 1) (cf c.words 2 0 16)

/-- A WLOAD that passes its checks, in a state that shows its estimate. -/
theorem execWload_eq {v : Fin 16} (hh : Head s v c 0x03) (hr : rearmCheck s v (cf c.words 0 10 6) (cf c.words 1 0 48) = none)
    (hu : usesBad s v [(cf c.words 0 10 6, 1)] = none) (hp : pgtBad s (cf c.words 2 16 12) = none) :
    ∃ u, FallbackShown s u ∧
      (rearmBusy u (cf c.words 0 10 6) = true → exec (.wload v) s = .next (headWaits u v 5)) ∧
      (rearmBusy u (cf c.words 0 10 6) = false →
        exec (.wload v) s = .next (issueNow u v c fun x => wloadIssued x v c)) := by
  have good : wloadCheck s v c.words = none := by
    unfold wloadCheck
    simp only [orFail_eq_none]
    exact ⟨hr, hu, hp⟩
  have cases_ : ∃ u, FallbackShown s u ∧ exec (.wload v) s = .next (if rearmBusy u (cf c.words 0 10 6) then headWaits u v 5
      else issueNow u v c fun x => wloadIssued x v c) :=
    (issueWith_go hh good).imp fun u ⟨shown, _, e⟩ => ⟨shown, (inTurn_head hh _).trans (congrArg Host.Outcome.next e)⟩
  obtain ⟨u, shown, e⟩ := cases_
  exact ⟨u, shown, fun busy => e.trans (congrArg _ (if_pos busy)), fun free => e.trans (congrArg _ (if_neg (by simp [free])))⟩

end

/-! ## The stream after the command -/

section
variable {s t u : State} {i xb : Nat} {st : Option (Nat × Nat × Bool)}

/-- The streams of s and t, with the registers from those of streams to those of power, are the same. -/
structure SameStreams (s t : State) : Prop where
  strm : ∀ j, strm t j = strm s j
  regs : ∀ a, 0x30000 ≤ a → a < 0x60000 → rd t a = rd s a

theorem SameStreams.rfl' (s : State) : SameStreams s s := ⟨fun _ => rfl, fun _ _ _ => rfl⟩

theorem SameStreams.trans (h : SameStreams s t) (k : SameStreams t u) : SameStreams s u :=
  ⟨fun j => (k.strm j).trans (h.strm j), fun a hlo hhi => (k.regs a hlo hhi).trans (h.regs a hlo hhi)⟩

theorem SameStreams.of_books (h : Books bookReg s t) : SameStreams s t :=
  ⟨book_strm h, fun _ hlo hhi => h.regs _ (bookReg_between hlo hhi)⟩

theorem SameStreams.startIssue (s : State) (v : Nat) (c : Cmd) : SameStreams s (startIssue s v c) :=
  ⟨strm_startIssue s v c, fun a _ _ => rd_startIssue s v c a⟩

theorem SameStreams.of_kept (h : StreamsKept s t) : SameStreams s t :=
  ⟨fun j => by unfold Machine.strm; rw [h.streams], fun a _ hhi => h.regs a hhi⟩

theorem SameStreams.fld_eq (h : SameStreams s t) (hi : i < 64) {k : Nat} (hk : k < 0x40) (f : Field) :
    fld t (0x30000 + k + 0x40 * i) f = fld s (0x30000 + k + 0x40 * i) f :=
  fld_congr (h.regs _ (by omega) (by omega))

theorem SameStreams.w7 (h : SameStreams s t) (hi : i < 64) (f : Field) :
    fld t (Reg.stmDescW7 i) f = fld s (Reg.stmDescW7 i) f := h.fld_eq hi (k := 0x38) (by decide) f

theorem SameStreams.w0 (h : SameStreams s t) (hi : i < 64) (f : Field) :
    fld t (Reg.stmDescW0 i) f = fld s (Reg.stmDescW0 i) f := h.fld_eq hi (k := 0) (by decide) f

theorem SameStreams.desc_eq (h : SameStreams s t) (hi : i < 64) : desc t i = desc s i :=
  desc_congr (fun a hlo hhi => h.regs a hlo (by omega)) hi

/-- In t stream i of s has begun its next sequence, at XBASE xb. -/
structure Started (i xb : Nat) (st : Option (Nat × Nat × Bool)) (s t : State) : Prop where
  state : sState t i = Ss.running
  stat  : fld t (Reg.stmDescW7 i) Fl.stmDescW7_LASTSTAT = St.ok
  seq   : curSeq (strm t i) = some ⟨seqEndPos (strm s i), (desc s i).total, xb⟩
  xbase : fld t (Reg.stmDescW0 i) Fl.stmDescW0_XBASE = xb % 2 ^ 48
  stamp : (strm t i).stamp = st
  other : ∀ j, j ≠ i → strm t j = strm s j

/-- In t stream i of s holds a re-arm at XBASE xb. -/
structure Held (i xb : Nat) (st : Option (Nat × Nat × Bool)) (s t : State) : Prop where
  state   : sState t i = Ss.running
  stat    : fld t (Reg.stmDescW7 i) Fl.stmDescW7_LASTSTAT = St.ok
  rearm   : (strm t i).rearm = some xb
  seqs    : (strm t i).seqs = (strm s i).seqs
  pending : fld t (Reg.stmDescW7 i) Fl.stmDescW7_PENDING = 1
  stamp   : (strm t i).nextStamp = st
  other   : ∀ j, j ≠ i → strm t j = strm s j

variable (hi : i < 64)
include hi

theorem Started.same (h : Started i xb st s t) (k : SameStreams t u) : Started i xb st s u where
  state := (k.w7 hi _).trans h.state
  stat := (k.w7 hi _).trans h.stat
  seq := by rw [k.strm, h.seq]
  xbase := (k.w0 hi _).trans h.xbase
  stamp := by rw [k.strm, h.stamp]
  other j hj := (k.strm j).trans (h.other j hj)

theorem Held.same (h : Held i xb st s t) (k : SameStreams t u) : Held i xb st s u where
  state := (k.w7 hi _).trans h.state
  stat := (k.w7 hi _).trans h.stat
  rearm := by rw [k.strm, h.rearm]
  seqs := by rw [k.strm, h.seqs]
  pending := (k.w7 hi _).trans h.pending
  stamp := by rw [k.strm, h.stamp]
  other j hj := (k.strm j).trans (h.other j hj)

variable (k : SameStreams s u)
include k

theorem rearmStream_starts (h : sState s i = Ss.ended) (ht : (strm s i).turn = []) :
    Started i xb st s (rearmStream u i xb st) := by
  have empty : (strm u i).turn = [] := by rw [k.strm, ht]
  rw [rearmStream_ended hi ((k.w7 hi _).trans h)]
  obtain ⟨state, stat, -, other⟩ := rearmBegun_rearmed (xb := xb) (st := st) hi empty
  obtain ⟨seq, xbase, stamp⟩ := rearmBegun_starts (xb := xb) (st := st) hi empty
  exact ⟨state, stat, by rw [seq, k.strm, k.desc_eq hi], xbase, stamp, fun j hj => (other j hj).trans (k.strm j)⟩

theorem rearmStream_holds (h : sState s i = Ss.running) : Held i xb st s (rearmStream u i xb st) := by
  rw [rearmStream_running hi ((k.w7 hi _).trans h)]
  obtain ⟨state, stat, -, other⟩ := rearmHeld_rearmed (xb := xb) (st := st) hi ((k.w7 hi _).trans h)
  obtain ⟨rearm, seqs, stamp, pending⟩ := rearmHeld_holds (s := u) (i := i) (xb := xb) (st := st)
  exact ⟨state, stat, rearm, by rw [seqs, k.strm], pending, stamp, fun j hj => (other j hj).trans (k.strm j)⟩

omit k in
/-- A re-arm leaves the veins. -/
theorem rearmStream_veins (h : sState s i = Ss.ended ∧ (strm s i).turn = [] ∨ sState s i = Ss.running) :
    (rearmStream s i xb st).veins = s.veins := by
  rcases h with ⟨h, ht⟩ | h
  · rw [rearmStream_ended hi h]
    exact (rearmBegun_rearmed hi ht).veins
  · rw [rearmStream_running hi h]
    exact (rearmHeld_rearmed hi h).veins

end

/-! ## The commands end -/

section
variable {s u : State} {v : Nat} {c : Cmd}

theorem SameStreams.of_shown (h : FallbackShown s u) : SameStreams s u := .of_books h.books

theorem SameStreams.wloadIssued (s : State) (v : Nat) (c : Cmd) : SameStreams
    (rearmStream s (cf c.words 0 10 6) (cf c.words 1 0 48) (some (cf c.words 2 16 12, cf c.words 2 0 16,
      wloadStale (pgtRaw s (cf c.words 2 16 12)) (cf c.words 0 16 1) (cf c.words 2 0 16) (vStep s v))))
    (wloadIssued s v c) := by
  unfold Machine.wloadIssued
  obtain ⟨w, kept, e | e⟩ := wloadStamp_cases (rearmStream s (cf c.words 0 10 6) (cf c.words 1 0 48) (some (cf c.words 2 16 12,
    cf c.words 2 0 16, wloadStale (pgtRaw s (cf c.words 2 16 12)) (cf c.words 0 16 1) (cf c.words 2 0 16) (vStep s v))))
    v (cmdSeq c.words) (cf c.words 2 16 12) (cf c.words 0 16 1) (cf c.words 2 0 16)
  · rw [e]
    exact .of_kept kept
  · rw [e]
    exact (SameStreams.of_kept kept).trans ⟨fun _ => rfl, fun _ _ _ => rfl⟩

theorem SameStreams.rearmBusy_eq {i : Nat} (h : SameStreams s u) (hi : i < 64) : rearmBusy u i = rearmBusy s i := by
  unfold rearmBusy sState
  rw [h.w7 hi, h.strm]

/-- A WLOAD is stamped by what its entry and its vein's step are before it issues. -/
theorem wloadStale_issued {g dir gen : Nat} (hv : v < 16) (h : FallbackShown s u) :
    wloadStale (pgtRaw (startIssue u v c) g) dir gen (vStep (startIssue u v c) v) =
      wloadStale (pgtRaw s g) dir gen (vStep s v) := by
  have entry : pgtRaw (startIssue u v c) g = pgtRaw u g := by
    obtain ⟨_, _, -, e⟩ := leavePrefetch_eq u v c
    exact (congrArg (pgtRaw · g) e :)
  have off : Reg.trmStat ≠ Reg.vnStep v := by unfold Reg.trmStat Reg.vnStep; omega
  rw [entry, h.pgtRaw_eq]
  unfold vStep
  rw [fld_congr (rd_startIssue u v c _), h.fld_eq off]

/-- A WLOAD alone in its vein retires: a stale gather does not halt it (R352). -/
theorem wload_retires {i : Nat} (hv : v < 16) (hop : cmdOp c.words = 0x03) (hi : cf c.words 0 10 6 = i) (hlt : i < 64)
    (h : sState s i = Ss.ended ∧ (strm s i).turn = [] ∨ sState s i = Ss.running) :
    Retired s (issueNow s v c fun x => wloadIssued x v c) v c := by
  subst hi
  refine issueNow_retires hv fun g j hj hx => ?_
  have same := SameStreams.startIssue s v c
  have base := rearmStream_veins (s := startIssue s v c) (xb := cf c.words 1 0 48) (st := some (cf c.words 2 16 12,
    cf c.words 2 0 16, wloadStale (pgtRaw (startIssue s v c) (cf c.words 2 16 12)) (cf c.words 0 16 1) (cf c.words 2 0 16)
      (vStep (startIssue s v c) v))) hlt (by
    unfold sState at h ⊢
    rw [same.w7 hlt, same.strm]
    exact h)
  unfold wloadIssued
  obtain ⟨w, kept, e | e⟩ := wloadStamp_cases (rearmStream (startIssue s v c) (cf c.words 0 10 6) (cf c.words 1 0 48)
    (some (cf c.words 2 16 12, cf c.words 2 0 16, wloadStale (pgtRaw (startIssue s v c) (cf c.words 2 16 12))
      (cf c.words 0 16 1) (cf c.words 2 0 16) (vStep (startIssue s v c) v)))) v (cmdSeq c.words) (cf c.words 2 16 12)
    (cf c.words 0 16 1) (cf c.words 2 0 16)
  all_goals
    have hw : vein w v = leftVein s v g [j] := by
      rw [← hx]
      unfold vein
      rw [kept.veins, base]
    rw [e]
  · exact ⟨j, congrArg VeinSt.jobs hw, rfl, hj.jobHalts_eq⟩
  · rw [jobs_staleCond, vein_addCond_alone hw hj rfl (by decide)]
    refine ⟨_, rfl, rfl, hj.jobHalts_met.trans ?_⟩
    unfold condHalts
    rw [hj.op, hop]
    rfl

end

end Sys2Proof.Machine

namespace Sys2Proof.Proofs

open Sys2Proof.Machine

/-- Settles O9, by the re-arm of the stream as the command issues. -/
theorem rearmAndWloadStartOrHold : Obligations.RearmAndWloadStartOrHold := by
  unfold Obligations.RearmAndWloadStartOrHold
  intro s v c i x d xb g gen st starts holds others
  have hv := v.isLt
  have hi : i < 64 := Nat.mod_lt _ (by decide)
  have small : xb % 2 ^ 48 = xb := Nat.mod_eq_of_lt (Nat.mod_lt _ (by decide))
  have waits {u : State} (shown : FallbackShown s u) : Books bookReg s (headWaits u v 5) ∧
      (vein (headWaits u v 5) v).waitOn = 5 ∧ (vein (headWaits u v 5) v).held = (vein s v).held :=
    have books := headWaits_book (w := 5) bookReg_covers hv shown.books
    ⟨books, waitOn_headWaits .., (congrArg VeinSt.held (books.veins v) :)⟩
  have issued {u : State} (shown : FallbackShown s u) : SameStreams s (startIssue u v c) :=
    (SameStreams.of_shown shown).trans (.startIssue u v c)
  have rearmed := SameStreams.of_books (issueNow_book (s := s) (c := c) (f := fun s => rearmStream s i xb none) hv)
  have loaded (u : State) : SameStreams (rearmStream (startIssue u v c) i xb (some (g, gen,
      wloadStale (pgtRaw (startIssue u v c) g) (cf c.words 0 16 1) gen (vStep (startIssue u v c) v))))
      (issueNow u v c fun x => wloadIssued x v c) :=
    (SameStreams.wloadIssued (startIssue u v c) v c).trans (.of_books (issueNow_book (f := fun x => wloadIssued x v c) hv))
  have rearm_retires (h : sState s i = Ss.ended ∧ (strm s i).turn = [] ∨ sState s i = Ss.running) :
      Retired s (issueNow s v c fun s => rearmStream s i xb none) v c := by
    have same := SameStreams.startIssue s v c
    refine issueNow_retires_of_jobs hv ?_
    unfold vein
    rw [rearmStream_veins hi (by unfold sState at h ⊢; rw [same.w7 hi, same.strm]; exact h)]
  refine ⟨fun hh hc => ⟨fun ended empty => ?_, fun running free => ?_, fun running held => ?_⟩,
    fun hh hc hu hp => ?_⟩
  · obtain ⟨state, stat, seq, xbase, -, other⟩ := (rearmStream_starts (xb := xb) (st := none) hi
      (issued (.rfl' s)) ended empty).same hi rearmed
    exact ⟨_, execStreamRearm_issues hh hc (rearmBusy_ended ended), ⟨state, seq, xbase.trans small⟩,
      rearm_retires (.inl ⟨ended, empty⟩), stat, other⟩
  · obtain ⟨state, stat, rearm, seqs, pending, -, other⟩ := (rearmStream_holds (xb := xb) (st := none) hi
      (issued (.rfl' s)) running).same hi rearmed
    exact ⟨_, execStreamRearm_issues hh hc ((rearmBusy_running running).trans (Option.isSome_eq_false_iff.mpr (by simpa using free))),
      ⟨state, rearm, seqs, pending⟩, rearm_retires (.inr running), stat, other⟩
  · exact ⟨_, execStreamRearm_waits hh hc ((rearmBusy_running running).trans (Option.isSome_iff_ne_none.mpr held)), waits (.rfl' s)⟩
  · obtain ⟨u, shown, busy, issues⟩ := execWload_eq hh hc hu hp
    have same := SameStreams.of_shown shown
    have stamp := wloadStale_issued (c := c) (g := g) (dir := cf c.words 0 16 1) (gen := gen) hv shown
    have retires (h : sState s i = Ss.ended ∧ (strm s i).turn = [] ∨ sState s i = Ss.running) :
        Retired s (issueNow u v c fun x => wloadIssued x v c) v c := fun none =>
      wload_retires hv hh.op rfl hi (by unfold sState at h ⊢; rw [same.w7 hi, same.strm]; exact h)
        ((congrArg VeinSt.jobs (shown.vein_eq v)).trans none)
    refine ⟨fun ended empty => ?_, fun running free => ?_, fun running held => ?_⟩
    · obtain ⟨state, stat, seq, xbase, stamped, other⟩ :=
        (rearmStream_starts hi (issued shown) ended empty).same hi (loaded u)
      exact ⟨_, issues ((same.rearmBusy_eq hi).trans (rearmBusy_ended ended)), ⟨state, seq, xbase.trans small⟩,
        ⟨retires (.inl ⟨ended, empty⟩), stat, other⟩, stamped.trans (by rw [stamp])⟩
    · obtain ⟨state, stat, rearm, seqs, pending, stamped, other⟩ :=
        (rearmStream_holds hi (issued shown) running).same hi (loaded u)
      exact ⟨_, issues ((same.rearmBusy_eq hi).trans ((rearmBusy_running running).trans
          (Option.isSome_eq_false_iff.mpr (by simpa using free)))),
        ⟨state, rearm, seqs, pending⟩, ⟨retires (.inr running), stat, other⟩, stamped.trans (by rw [stamp])⟩
    · exact ⟨_, busy ((same.rearmBusy_eq hi).trans ((rearmBusy_running running).trans (Option.isSome_iff_ne_none.mpr held))),
        waits shown⟩

end Sys2Proof.Proofs

/-! PROOFS. The patrol scrubber and spare banks (R142, R143, R375, R376, R382). -/

namespace Sys2Proof.Machine

/-! ## A record leaves poison beyond the error ring -/

section
variable {s t u : State} {x : Nat}

/-- A word of the ring is covered by no byte beyond it. -/
theorem not_covered {a n x : Nat} (h : ¬(a ≤ x ∧ x < a + n)) : x / 16 ∉ coveredWords a n := by
  unfold coveredWords
  simp only [List.mem_filterMap, Option.ite_none_right_eq_some, Option.some.injEq, Bool.and_eq_true, decide_eq_true_eq, not_exists,
    not_and]
  rintro i - ⟨lo, hi⟩ e
  omega

theorem poison_micaWrite {a : Nat} {bs : List Byte} (h : ¬(a ≤ x ∧ x < a + bs.length)) (hp : x / 16 ∈ s.poison) :
    x / 16 ∈ (micaWrite s a bs).poison :=
  List.mem_filter.mpr ⟨hp, by simp [not_covered h]⟩

/-- The words that a record of s may not clean stay poisoned. -/
def PoisonKept (s t : State) : Prop := ∀ x, ringByte s x = false → x / 16 ∈ s.poison → x / 16 ∈ t.poison

theorem poison_foldl {α : Type} {l : List α} {f : State → α → State} (h : ∀ u y, (f u y).poison = u.poison) :
    (l.foldl f s).poison = s.poison := by
  induction l generalizing s with
  | nil => rfl
  | cons y l ih => exact ih.trans (h s y)

theorem shiftMirror_poison (s : State) (n : Nat) : (shiftMirror s n).poison = s.poison := by
  induction n generalizing s with
  | zero => rfl
  | succ n ih =>
    unfold shiftMirror
    beta_reduce
    exact (ih _).trans (poison_foldl fun _ _ => wr_poison ..)

theorem writeRec_poison (r : ErrRec) (count : Nat) : PoisonKept s (writeRec s r count) := by
  intro x off hp
  unfold writeRec
  extract_lets recno ring back gap body bytes mirrored listed ringed noted
  have hlen : bytes.length = 64 := by
    show (body ++ leBytes 4 _).length = 64
    rw [List.length_append, leBytes_length]
    show (recBytes s r gap count recno).length + 4 = 64
    rw [recBytes_length]
  have hlisted : listed.poison = s.poison := (poison_foldl fun _ _ => wr_poison ..).trans (shiftMirror_poison s 7)
  have base : Books bookReg s listed := mirror_book bookReg_covers (book_refl s)
  have hring : ring = flag s Reg.errRingCfg Fl.errRingCfg_ENABLE := rfl
  have base_at : fld listed Reg.errRingCfg Fl.errRingCfg_BASE = fld s Reg.errRingCfg Fl.errRingCfg_BASE :=
    fld_congr (base.regs _ (by decide))
  clear_value listed ring bytes recno gap body
  have hringed : x / 16 ∈ ringed.poison := by
    show x / 16 ∈ (if ring = true then _ else _ : State).poison
    split
    next on =>
      unfold ringByte at off
      rw [← hring, on] at off
      simp only [Bool.true_and, decide_eq_false_iff_not] at off
      rw [base_at]
      exact poison_micaWrite (ring_apart hlen (Nat.mod_lt _ (by decide)) off) (hlisted ▸ hp)
    next => exact hlisted ▸ hp
  clear_value ringed
  have hnoted : noted.poison = ringed.poison := setFld_poison ..
  clear_value noted
  show x / 16 ∈ noted.poison
  rw [hnoted]
  exact hringed

/-- From s to t only books have changed, free values have been used, and no poison is lost beyond the ring. -/
structure Recorded (s t : State) : Prop where
  books  : BooksFree s t
  poison : PoisonKept s t

theorem Recorded.rfl' (s : State) : Recorded s s := ⟨.rfl' s, fun _ _ h => h⟩

theorem Recorded.ringByte_eq (h : Recorded s t) (x : Nat) : ringByte t x = ringByte s x := by
  unfold ringByte flag fld
  rw [h.books.regs bookReg_covers.ring]

theorem Recorded.setFld (h : Recorded s t) {a : Nat} (ha : bookReg a = true) (f : Field) (n : Nat) :
    Recorded s (setFld t a f n) := ⟨h.books.setFld ha f n, h.poison⟩

theorem Recorded.summarize (h : Recorded s t) (n : Nat) : Recorded s (summarize t n) := h.setFld (by decide) _ _

theorem Recorded.attnErr (h : Recorded s t) (n : Nat) : Recorded s (attnErr t n) :=
  summarize (h.setFld (a := Reg.errAtn) (by decide) Fl.errAtn_ERR (b2n true)) n

theorem Recorded.notice (h : Recorded s t) (n : Nat) : Recorded s (notice t n) :=
  summarize (h.setFld (a := Reg.errAtn) (by decide) Fl.errAtn_NOTE (b2n true)) n

theorem Recorded.writeRec (h : Recorded s t) (r : ErrRec) (count : Nat) : Recorded s (writeRec t r count) :=
  ⟨h.books.writeRec r count, fun x off hp => writeRec_poison r count x ((h.ringByte_eq x).trans off) (h.poison x off hp)⟩

theorem Recorded.takeFree (h : Recorded s t) (w : Nat) : Recorded s (takeFree t w).2 := ⟨h.books.takeFree w, h.poison⟩

theorem Recorded.snapRec (h : Recorded s t) (r : ErrRec) (count : Nat) : Recorded s (snapRec t r count) := by
  unfold Machine.snapRec
  cases r.snap
  · exact h.writeRec _ _
  · exact (h.takeFree 64).writeRec _ _

theorem Recorded.ite {a b : State} {c : Prop} [Decidable c] (ha : Recorded s a) (hb : Recorded s b) :
    Recorded s (if c then a else b) := by
  split
  · exact ha
  · exact hb

theorem recordErr_recorded {r : ErrRec} (hr : r.sev ≠ 3) : Recorded s (recordErr s r) := by
  unfold recordErr
  extract_lets count counted shown noted raised summed
  clear_value count
  have hcounted : Recorded s counted := .ite (.rfl' s) ⟨(BooksFree.rfl' s).detCount _, fun _ _ h => h⟩
  clear_value counted
  have hshown : Recorded s shown := by
    unfold shown
    split <;> exact hcounted.setFld (by decide) _ _
  clear_value shown
  have hnoted : Recorded s noted := .ite (hshown.snapRec _ _) hshown
  clear_value noted
  have hraised : Recorded s raised := .ite (hnoted.attnErr _) hnoted
  clear_value raised
  have hsummed : Recorded s summed := .ite (hraised.summarize _) hraised
  clear_value summed
  rw [if_neg hr]
  exact hsummed

end

/-! ## The record of a retirement (R377, R382) -/

section
variable {s t : State} {det p a : Nat} {noSpare inj : Bool}

theorem bankRec_recorded (h : Recorded s t) : Recorded s (bankRec t det p noSpare inj) := by
  unfold bankRec noteRec
  dsimp only
  exact .ite ((Recorded.snapRec (h.takeFree 63) _ _).summarize _) ((h.takeFree 63).snapRec _ _)

/-- It writes no other register than the records and the summary. -/
theorem rd_bankRec (h : OffRecord a) (hs : Reg.errSummary ≠ a) : rd (bankRec s det p noSpare inj) a = rd s a := by
  unfold bankRec noteRec
  dsimp only
  split
  · exact (rd_setFld_ne _ _ _ hs).trans (rd_snapRec h ..)
  · exact rd_snapRec h ..

end

/-! ## Banks (R382) -/

section
variable {s t : State} {b c p : Nat}

theorem bookReg_errBankmap : ∀ n < 24, bookReg (Reg.errBankmap n) = false := by decide

theorem physBank_of_rd (h : rd t (Reg.errBankmap (b / 8)) = rd s (Reg.errBankmap (b / 8))) : physBank t b = physBank s b := by
  unfold physBank
  rw [h]

theorem physBank_recorded (h : Recorded s t) (hb : b < 192) : physBank t b = physBank s b :=
  physBank_of_rd (h.books.regs (bookReg_errBankmap _ (by omega)))

theorem physBank_eq_fld (s : State) (b : Nat) : physBank s b = fld s (Reg.errBankmap (b / 8)) ⟨8 * (b % 8), 8⟩ := rfl

theorem physBank_mapBank_self (hp : p < 256) : physBank (mapBank s b p) b = p := by
  rw [physBank_eq_fld, mapBank, fld_setFld_self _ _ _ _ (by dsimp only; omega)]
  exact Nat.mod_eq_of_lt hp

theorem physBank_mapBank_ne (h : c ≠ b) : physBank (mapBank s b p) c = physBank s c := by
  rw [physBank_eq_fld, physBank_eq_fld, mapBank]
  by_cases e : c / 8 = b / 8
  · rw [e, fld_setFld_other _ _ _ _ _ (by dsimp only; omega) (by dsimp only; omega)]
  · exact fld_setFld_ne _ _ _ _ (by unfold Reg.errBankmap; omega)

end

/-! ## What an event leaves (R142, R382) -/

section
variable {s t u : State}

/-- From s to t neither start-up state nor Mica beyond the ring nor a register that is no book has changed. -/
structure Scrubbed (s t : State) : Prop where
  su     : t.su = s.su
  regs   : ∀ a, bookReg a = false → rd t a = rd s a
  mica   : ∀ y, ringByte s y = false → micaByte t y = micaByte s y
  poison : PoisonKept s t

theorem Scrubbed.rfl' (s : State) : Scrubbed s s := ⟨rfl, fun _ _ => rfl, fun _ _ => rfl, fun _ _ h => h⟩

theorem Recorded.scrubbed (h : Recorded s t) : Scrubbed s t :=
  ⟨h.books.su, fun _ ha => h.books.regs ha, fun y hy => Books.mica (s := s) (t := { t with free := s.free }) h.books y hy, h.poison⟩

theorem Scrubbed.trans (h : Scrubbed s t) (k : Scrubbed t u) : Scrubbed s u := by
  have ring (x : Nat) : ringByte t x = ringByte s x := by
    unfold ringByte flag fld
    rw [h.regs _ bookReg_covers.ring]
  exact ⟨k.su.trans h.su, fun a ha => (k.regs a ha).trans (h.regs a ha),
    fun y hy => (k.mica y ((ring y).trans hy)).trans (h.mica y hy),
    fun x hx hp => k.poison x ((ring x).trans hx) (h.poison x hx hp)⟩

theorem Scrubbed.setSvc (h : Scrubbed s t) (f : SvcSt → SvcSt) : Scrubbed s (setSvc t f) := ⟨h.su, h.regs, h.mica, h.poison⟩

end

section
variable {s : State} {b det p : Nat} {inj : Bool}

theorem retireBank_copying (h : ∃ c ∈ s.svc.copies, c.bank = b) : retireBank s b det inj = s := by
  obtain ⟨c, hc, e⟩ := h
  exact if_pos (List.any_eq_true.mpr ⟨c, hc, by simp [e]⟩)

section
variable (h : ∀ c ∈ s.svc.copies, c.bank ≠ b)
include h

theorem retireBank_copies {q : Nat} {qs : List Nat} (hf : freeBanks s = q :: qs) : retireBank s b det inj =
    setSvc s fun x => { x with retired := (x.retired ++ [physBank s b]).eraseDups, copies := x.copies ++ [⟨b, q, det, inj⟩] } := by
  have none : ¬ s.svc.copies.any (fun c => c.bank == b) = true := by simpa using h
  unfold retireBank
  dsimp only
  rw [if_neg none, hf]

theorem retireBank_none (hf : freeBanks s = []) :
    retireBank s b det inj = notice (bankRec s det (physBank s b) true inj) Unit.err := by
  have none : ¬ s.svc.copies.any (fun c => c.bank == b) = true := by simpa using h
  unfold retireBank
  dsimp only
  rw [if_neg none, hf]

end

theorem retireBank_cases (s : State) (b det : Nat) (inj : Bool) : retireBank s b det inj = s ∨
    (∃ f, retireBank s b det inj = setSvc s f ∧ (f s.svc).line = s.svc.line) ∨
    retireBank s b det inj = notice (bankRec s det (physBank s b) true inj) Unit.err := by
  by_cases h : ∃ c ∈ s.svc.copies, c.bank = b
  · exact .inl (retireBank_copying h)
  · simp only [not_exists, not_and] at h
    cases hf : freeBanks s with
    | nil => exact .inr (.inr (retireBank_none h hf))
    | cons q qs => exact .inr (.inl ⟨_, retireBank_copies h hf, rfl⟩)

theorem noSpare_recorded : Recorded s (notice (bankRec s det p true inj) Unit.err) :=
  (bankRec_recorded (.rfl' s)).notice _

theorem retireBank_scrubbed : Scrubbed s (retireBank s b det inj) ∧ (retireBank s b det inj).svc.line = s.svc.line := by
  rcases retireBank_cases s b det inj with e | ⟨f, e, hf⟩ | e
  · rw [e]
    exact ⟨.rfl' s, rfl⟩
  · rw [e]
    exact ⟨(Scrubbed.rfl' s).setSvc f, hf⟩
  · rw [e]
    exact ⟨noSpare_recorded.scrubbed, congrArg SvcSt.line noSpare_recorded.books.svc⟩

theorem rd_noSpare {a : Nat} (h : OffRecord a) (hs : Reg.errSummary ≠ a) (ha : Reg.errAtn ≠ a) :
    rd (notice (bankRec s det p true inj) Unit.err) a = rd s a := by
  unfold notice summarize setFlag
  rw [rd_setFld_ne _ _ _ hs, rd_setFld_ne _ _ _ ha, rd_bankRec h hs]

theorem rd_retireBank {a : Nat} (h : OffRecord a) (hs : Reg.errSummary ≠ a) (ha : Reg.errAtn ≠ a) :
    rd (retireBank s b det inj) a = rd s a := by
  rcases retireBank_cases s b det inj with e | ⟨f, e, -⟩ | e
  · rw [e]
  · rw [e]
    rfl
  · rw [e, rd_noSpare h hs ha]

theorem offRecord_errAtn : OffRecord Reg.errAtn := ⟨fun i => by unfold Reg.errLast Reg.errAtn; omega, by decide⟩

theorem offRecord_errCntCe : OffRecord Reg.errCntCe := ⟨fun i => by unfold Reg.errLast Reg.errCntCe; omega, by decide⟩

theorem notice_flag (s : State) (n : Nat) : flag (notice s n) Reg.errAtn Fl.errAtn_NOTE = true := by
  unfold notice summarize flag
  rw [fld_setFld_ne _ _ _ _ (by decide)]
  exact flag_setFlag_self s _ _ true (by decide) (by decide)

/-- Where a retirement finds no spare it raises ATN_NOTE; ATN_ERR stands. -/
theorem retireBank_attn : flag (retireBank s b det inj) Reg.errAtn Fl.errAtn_ERR = flag s Reg.errAtn Fl.errAtn_ERR := by
  rcases retireBank_cases s b det inj with e | ⟨f, e, -⟩ | e
  · rw [e]
  · rw [e]
    rfl
  · rw [e]
    unfold notice summarize setFlag flag
    rw [fld_setFld_ne _ _ _ _ (by decide), fld_setFld_other _ _ _ _ _ (by decide) (by decide),
      fld_congr (rd_bankRec offRecord_errAtn (by decide))]

/-! ### A corrected error -/

/-- An event of a corrected error counts as one (R375). -/
theorem recordErr_corrected {r : ErrRec} (hr : r.sev = 0) (hi : r.inj = false) :
    fld (recordErr s r) Reg.errCntCe Fl.errCntCe_COUNT =
      (fld s Reg.errCntCe Fl.errCntCe_COUNT + 1) % 2 ^ Fl.errCntCe_COUNT.width := by
  unfold recordErr
  extract_lets count counted shown noted raised summed
  have hcounted : rd counted Reg.errCntCe = rd s Reg.errCntCe := by
    unfold counted
    split <;> rfl
  clear_value counted
  have hshown : fld shown Reg.errCntCe Fl.errCntCe_COUNT =
      (fld s Reg.errCntCe Fl.errCntCe_COUNT + 1) % 2 ^ Fl.errCntCe_COUNT.width := by
    have counts : shown = incFld counted Reg.errCntCe Fl.errCntCe_COUNT 1 := by
      unfold shown
      rw [hr]
      rfl
    rw [counts, incFld, fld_setFld_self _ _ _ _ (by decide), fld_congr hcounted]
  clear_value shown
  have hnoted : rd noted Reg.errCntCe = rd shown Reg.errCntCe := by
    unfold noted
    split
    · exact rd_snapRec offRecord_errCntCe ..
    · rfl
  clear_value noted
  have hraised : raised = noted := if_neg (by simp [hr])
  have hsummed : summed = raised := if_neg (by simp [hi])
  rw [if_neg (by rw [hr]; decide), hsummed, hraised, fld_congr hnoted]
  exact hshown

end

/-! ## The visit of a line (R142) -/

section
variable {s u : State} {x : Nat}

/-- The scrubber has visited its lines and goes on to the next. -/
def visited (s : State) : State :=
  setSvc s fun x => { x with line := (x.line + 1) % 4096, ceCount := if x.line = 4095 then [] else x.ceCount }

theorem scrubInject_off (h : injOff s) : scrubInject s = s := if_pos (by rw [memArmed_off h]; rfl)

/-- What one event of a visit does. -/
def scrubFound (s : State) : EccEvent → State
  | .single x => micaCe s x noReader false
  | .double x => micaUe s x noReader false

theorem execPatrolScrub_eq (es : List EccEvent) (run : micaRuns s = true) (on : fld s Reg.stmCtrl Fl.stmCtrl_SCRUB ≠ 0) :
    exec (.patrolScrub es) s = .next (visited (scrubInject (es.foldl scrubFound s))) := by
  refine congrArg Host.Outcome.next ((if_neg (by simp [run, on])).trans ?_)
  exact congrArg (fun f => visited (scrubInject (es.foldl f s))) (funext fun u => funext fun e => by cases e <;> rfl)

theorem execPatrolScrub_rests (es : List EccEvent) (h : micaRuns s = false ∨ fld s Reg.stmCtrl Fl.stmCtrl_SCRUB = 0) :
    exec (.patrolScrub es) s = .next s :=
  congrArg Host.Outcome.next (if_pos (by rcases h with h | h <;> simp [h]))

theorem injOff_of_regs (h : ∀ n < 8, rd u (Reg.fltInjW0 n) = rd s (Reg.fltInjW0 n)) (hi : injOff s) : injOff u := fun n hn => by
  unfold injArmed flag
  rw [fld_congr (h n hn)]
  exact hi n hn

/-- A visit with one event, no injector armed. -/
theorem execPatrolScrub_one {e : EccEvent} (run : micaRuns s = true) (on : fld s Reg.stmCtrl Fl.stmCtrl_SCRUB ≠ 0)
    (hi : injOff s) (h : ∀ n < 8, rd (scrubFound s e) (Reg.fltInjW0 n) = rd s (Reg.fltInjW0 n)) :
    exec (.patrolScrub [e]) s = .next (visited (scrubFound s e)) := by
  rw [execPatrolScrub_eq _ run on]
  show Host.Outcome.next (visited (scrubInject (scrubFound s e))) = _
  rw [scrubInject_off (injOff_of_regs h hi)]

/-! ### A single-bit error (R375, R382) -/

theorem fld_setSvc (s : State) (f : SvcSt → SvcSt) (a : Nat) (fl : Field) : fld (setSvc s f) a fl = fld s a fl := rfl

/-- The record of a corrected error of Mica. -/
def ceRec (s : State) (x : Nat) : ErrRec :=
  { noReader.mark (ErrRec.ofDet 0 0x01) with lkind := 3, loc := bankLoc s x, inj := false }

theorem ceRec_plain : (ceRec s x).sev = 0 ∧ (ceRec s x).inj = false := ⟨rfl, rfl⟩

/-- Errors of the bank in this pass, with this one. -/
def ceNext (s : State) (x : Nat) : Nat := mapGet 0 s.svc.ceCount (physBank s (micaPlace s x).1) + 1

/-- The error recorded and counted for its bank. -/
def ceCounted (s : State) (x : Nat) : State :=
  setSvc (recordErr s (ceRec s x)) fun y =>
    { y with ceCount := tabSet y.ceCount (physBank s (micaPlace s x).1) (ceNext s x) }

theorem ce_recorded : Recorded s (recordErr s (ceRec s x)) := recordErr_recorded (by rw [ceRec_plain.1]; decide)

theorem regionGroups_congr {t : State} (h : rd t Reg.stmMicaMap = rd s Reg.stmMicaMap) (r : Nat) :
    regionGroups t r = regionGroups s r := by
  unfold regionGroups
  split <;> exact fld_congr h

theorem regionBase_congr {t : State} (h : rd t Reg.stmMicaMap = rd s Reg.stmMicaMap) (r : Nat) :
    regionBase t r = regionBase s r := by
  unfold regionBase
  rw [funext (regionGroups_congr h)]

theorem inRegion_congr {t : State} (h : rd t Reg.stmMicaMap = rd s Reg.stmMicaMap) (r y n : Nat) :
    inRegion t r y n = inRegion s r y n := by
  unfold inRegion regionEnd
  rw [regionBase_congr h, regionGroups_congr h]

/-- The kernel would evaluate the search of micaPlace if it compared an application of it with its body; so the body
stands for the function itself first. -/
theorem micaPlace_congr {t : State} (h : rd t Reg.stmMicaMap = rd s Reg.stmMicaMap) (x : Nat) : micaPlace t x = micaPlace s x := by
  suffices body : ∀ place, place = micaPlace → place t x = place s x from body _ rfl
  intro place e
  delta micaPlace at e
  rw [e]
  beta_reduce
  rw [funext fun r => inRegion_congr h r x 1, funext (regionBase_congr h), funext (regionGroups_congr h)]

theorem ceCounted_scrubbed : Scrubbed s (ceCounted s x) := ce_recorded.scrubbed.setSvc _

theorem ceCounted_svc : (ceCounted s x).svc = { s.svc with
    ceCount := tabSet s.svc.ceCount (physBank s (micaPlace s x).1) (ceNext s x) } := by
  unfold ceCounted setSvc
  dsimp only
  rw [ce_recorded.books.svc]

theorem physBank_ceCounted {b : Nat} (hb : b < 192) : physBank (ceCounted s x) b = physBank s b :=
  physBank_of_rd (ceCounted_scrubbed.regs _ (bookReg_errBankmap _ (by omega)))

theorem freeBanks_ceCounted : freeBanks (ceCounted s x) = freeBanks s := by
  have used : (List.range 192).map (physBank (ceCounted s x)) = (List.range 192).map (physBank s) :=
    List.map_congr_left fun b hb => physBank_ceCounted (List.mem_range.mp hb)
  unfold freeBanks
  rw [used, ceCounted_svc]

theorem micaCe_eq (hb : (micaPlace s x).1 < 192) : micaCe s x noReader false =
    if ceNext s x > fld s Reg.errCtrl Fl.errCtrl_BANKLIM then retireBank (ceCounted s x) (micaPlace s x).1 0x01 false
    else ceCounted s x := by
  have r := ce_recorded (s := s) (x := x)
  have place := micaPlace_congr (r.books.regs (a := Reg.stmMicaMap) (by decide)) x
  have limit : fld (ceCounted s x) Reg.errCtrl Fl.errCtrl_BANKLIM = fld s Reg.errCtrl Fl.errCtrl_BANKLIM :=
    fld_congr (ceCounted_scrubbed.regs _ (by decide))
  have count : mapGet 0 (recordErr s (ceRec s x)).svc.ceCount (physBank s (micaPlace s x).1) + 1 = ceNext s x := by
    rw [r.books.svc]
    rfl
  unfold micaCe
  rw [show ({ noReader.mark (ErrRec.ofDet 0 0x01) with lkind := 3, loc := bankLoc s x, inj := false } : ErrRec) = ceRec s x from rfl]
  dsimp only
  rw [place, physBank_recorded r hb, count, ← limit]
  rfl

theorem errCntCe_ceCounted : fld (ceCounted s x) Reg.errCntCe Fl.errCntCe_COUNT =
    (fld s Reg.errCntCe Fl.errCntCe_COUNT + 1) % 2 ^ Fl.errCntCe_COUNT.width := by
  unfold ceCounted
  rw [fld_setSvc, recordErr_corrected ceRec_plain.1 ceRec_plain.2]

end

/-! ### An uncorrectable error (R143, R376) -/

section
variable {s u : State} {x code : Nat}

/-- The record of an uncorrectable error beyond the block tables. -/
def ueRec (s : State) (x : Nat) : ErrRec :=
  { noReader.mark { ErrRec.ofDet 1 0x02 with status := noReader.status } with lkind := 3, loc := bankLoc s x, inj := false }

theorem ueRec_plain : (ueRec s x).sev = 1 ∧ (ueRec s x).inj = false := ⟨rfl, rfl⟩

theorem micaUe_poisons (h : inTable s x = false) : ∃ b, micaUe s x noReader false =
    retireBank (recordErr (poisonAt s x) (ueRec s x)) b 0x02 false :=
  ⟨_, if_neg (by simp [h])⟩

theorem ueRec_raises : flag (recordErr u (ueRec s x)) Reg.errAtn Fl.errAtn_ERR = true := by
  rw [recordErr_sevContained ueRec_plain.1, ueRec_plain.2]
  exact attnErr_flag ..

/-- What lies in no block table lies beyond the error ring. -/
theorem ringByte_of_inTable (h : inTable s x = false) : ringByte s x = false := by
  unfold ringByte
  cases on : flag s Reg.errRingCfg Fl.errRingCfg_ENABLE
  · rfl
  · have ring : (4, fld s Reg.errRingCfg Fl.errRingCfg_BASE * 4096, 0x4000) ∈ blockAreas s := by
      unfold blockAreas
      simp only [on, if_true, List.mem_append, List.mem_singleton, true_or, or_true]
    have off := List.any_eq_false.mp h _ ring
    simpa using off

theorem poisonAt_scrubbed : Scrubbed s (poisonAt s x) :=
  ⟨rfl, fun _ _ => rfl, fun _ _ => rfl, fun _ _ h => mem_insNat.mpr (.inr h)⟩

/-- An uncorrectable error outside the block tables poisons its word and is recorded. -/
theorem micaUe_scrubbed (h : inTable s x = false) : Scrubbed s (micaUe s x noReader false) ∧
    x / 16 ∈ (micaUe s x noReader false).poison ∧ flag (micaUe s x noReader false) Reg.errAtn Fl.errAtn_ERR = true := by
  obtain ⟨b, e⟩ := micaUe_poisons h
  have recorded : Recorded (poisonAt s x) (recordErr (poisonAt s x) (ueRec s x)) :=
    recordErr_recorded (by rw [ueRec_plain.1]; decide)
  have later : Scrubbed (poisonAt s x) (micaUe s x noReader false) := by
    rw [e]
    exact recorded.scrubbed.trans retireBank_scrubbed.1
  refine ⟨poisonAt_scrubbed.trans later, later.poison x (ringByte_of_inTable h) (mem_insNat.mpr (.inl rfl)), ?_⟩
  rw [e, retireBank_attn]
  exact ueRec_raises

/-! ### An error in a block table (R376) -/

/-- An event of severity FATAL is recorded, and the block enters FATAL with its status. -/
theorem recordErr_fatal {r : ErrRec} (hr : r.sev = 3) : ∃ v, Recorded s v ∧ recordErr s r = goFatal v r.status := by
  unfold recordErr
  extract_lets count counted shown noted raised summed
  have hcounted : Recorded s counted := .ite (.rfl' s) ⟨(BooksFree.rfl' s).detCount _, fun _ _ h => h⟩
  clear_value counted
  have hshown : Recorded s shown := by
    unfold shown
    split <;> exact hcounted.setFld (by decide) _ _
  clear_value shown
  have hnoted : Recorded s noted := .ite (hshown.snapRec _ _) hshown
  clear_value noted
  have hraised : Recorded s raised := .ite (hnoted.attnErr _) hnoted
  clear_value raised
  have hsummed : Recorded s summed := .ite (hraised.summarize _) hraised
  clear_value summed
  exact ⟨summed, hsummed, if_pos hr⟩

theorem suNext_fatal (h : micaRuns s = true) : Su.fatal ∈ suNext s.su := by
  unfold micaRuns at h
  cases e : s.su <;> simp [e, suNext] at h ⊢

/-- A vein enters OFF. -/
def veinOff (s : State) (v : Nat) : State :=
  setVein (setFld s (Reg.vnStat v) Fl.vnStat_STATE 0) v
    { VeinSt.init with stamp := (vein (setFld s (Reg.vnStat v) Fl.vnStat_STATE 0) v).stamp }

theorem rd_veinOff {a v : Nat} (h : Reg.vnStat v ≠ a) : rd (veinOff s v) a = rd s a := by
  unfold veinOff
  rw [rd_setVein, rd_setFld_ne _ _ _ h]

theorem su_veinOff (v : Nat) : (veinOff s v).su = s.su := (setVein_su ..).trans (setFld_su ..)

theorem rd_veinsOff {a : Nat} (h : ∀ v < 16, Reg.vnStat v ≠ a) : rd ((List.range 16).foldl veinOff s) a = rd s a :=
  List.foldlRecOn (motive := fun u => rd u a = rd s a) _ _ rfl fun _ hu v hv =>
    (rd_veinOff (h v (List.mem_range.mp hv))).trans hu

theorem su_veinsOff : ((List.range 16).foldl veinOff s).su = s.su :=
  List.foldlRecOn (motive := fun u : State => u.su = s.su) _ _ rfl fun _ hu _ _ => (su_veinOff _).trans hu

/-- The block in FATAL, before its veins are off. -/
def fatalShown (s : State) (code : Nat) : State :=
  setFld (setFlag (enterSu s .fatal) Reg.errAtn Fl.errAtn_FATAL true) Reg.idGstat Fl.idGstat_FATALCODE code

theorem goFatal_eq (h : s.su ≠ .fatal) : goFatal s code = (List.range 16).foldl veinOff (fatalShown s code) :=
  if_neg (by simpa using h)

theorem fatalShown_shows (h : Su.fatal ∈ suNext s.su) (hc : code < 256) : (fatalShown s code).su = .fatal ∧
    fld (fatalShown s code) Reg.idGstat Fl.idGstat_FATALCODE = code ∧
    flag (fatalShown s code) Reg.errAtn Fl.errAtn_FATAL = true ∧
    ∀ a, Reg.idGstat ≠ a → Reg.errAtn ≠ a → rd (fatalShown s code) a = rd s a := by
  have entered : (enterSu s .fatal).su = .fatal ∧ ∀ a, rd (enterSu s .fatal) a = rd s a := by
    unfold enterSu
    rw [if_pos h]
    exact ⟨rfl, fun _ => rfl⟩
  obtain ⟨su, regs⟩ := entered
  unfold fatalShown setFlag
  refine ⟨(setFld_su ..).trans ((setFld_su ..).trans su), ?_, ?_, fun a hi ha => ?_⟩
  · rw [fld_setFld_self _ _ _ _ (by decide)]
    exact Nat.mod_eq_of_lt hc
  · unfold flag
    rw [fld_setFld_ne _ _ _ _ (by decide), fld_setFld_self _ _ _ _ (by decide)]
    rfl
  · rw [rd_setFld_ne _ _ _ hi, rd_setFld_ne _ _ _ ha, regs]

/-- A running block enters FATAL with its status, and ATN_FATAL rises. -/
theorem goFatal_enters (h : Su.fatal ∈ suNext s.su) (hc : code < 256) : (goFatal s code).su = .fatal ∧
    fld (goFatal s code) Reg.idGstat Fl.idGstat_FATALCODE = code ∧
    flag (goFatal s code) Reg.errAtn Fl.errAtn_FATAL = true ∧
    ∀ a, (∀ v < 16, Reg.vnStat v ≠ a) → Reg.idGstat ≠ a → Reg.errAtn ≠ a → rd (goFatal s code) a = rd s a := by
  have alive : s.su ≠ .fatal := by
    intro e
    rw [e] at h
    cases h
  have gstat : ∀ v < 16, Reg.vnStat v ≠ Reg.idGstat := by decide
  have atn : ∀ v < 16, Reg.vnStat v ≠ Reg.errAtn := by decide
  obtain ⟨su, shown, fatal, regs⟩ := fatalShown_shows h hc
  rw [goFatal_eq alive]
  refine ⟨su_veinsOff.trans su, (fld_congr (rd_veinsOff gstat)).trans shown, ?_,
    fun a hv hi ha => (rd_veinsOff hv).trans (regs a hi ha)⟩
  unfold flag at fatal ⊢
  rw [fld_congr (rd_veinsOff atn)]
  exact fatal

end

/-! ### The events of a visit -/

section
variable {s : State} {x : Nat}

theorem Scrubbed.injectors {t : State} (h : Scrubbed s t) : ∀ n < 8, rd t (Reg.fltInjW0 n) = rd s (Reg.fltInjW0 n) :=
  fun n hn => h.regs _ (bookReg_fltInjW0 n hn)

/-- A single-bit error: its bank is retired where it is one too many in this pass. -/
theorem micaCe_scrubbed (hb : (micaPlace s x).1 < 192) : Scrubbed s (micaCe s x noReader false) ∧
    (micaCe s x noReader false).svc.line = s.svc.line ∧
    fld (micaCe s x noReader false) Reg.errCntCe Fl.errCntCe_COUNT =
      (fld s Reg.errCntCe Fl.errCntCe_COUNT + 1) % 2 ^ Fl.errCntCe_COUNT.width := by
  have line : (ceCounted s x).svc.line = s.svc.line := by rw [ceCounted_svc]
  rw [micaCe_eq hb]
  split
  · obtain ⟨scrubbed, same⟩ := retireBank_scrubbed (s := ceCounted s x) (b := (micaPlace s x).1) (det := 0x01) (inj := false)
    exact ⟨ceCounted_scrubbed.trans scrubbed, same.trans line,
      (fld_congr (rd_retireBank offRecord_errCntCe (by decide) (by decide))).trans errCntCe_ceCounted⟩
  · exact ⟨ceCounted_scrubbed, line, errCntCe_ceCounted⟩

/-- An uncorrectable error of a block table, in a block that runs. -/
theorem micaUe_fatal (h : inTable s x = true) (run : micaRuns s = true) : ∃ v, Recorded s v ∧
    micaUe s x noReader false = goFatal v St.fatalTable ∧ Su.fatal ∈ suNext v.su := by
  obtain ⟨v, recorded, e⟩ := recordErr_fatal (s := s)
    (r := { noReader.mark (ErrRec.ofDet 3 0x03) with status := St.fatalTable, lkind := 3, loc := bankLoc s x, inj := false }) rfl
  exact ⟨v, recorded, (if_pos h).trans e, recorded.books.su ▸ suNext_fatal run⟩

end

/-! ## The end of a copy (R382) -/

section
variable {s : State} {k : BankCopy} {p : Nat}

/-- The spare serves, before the record of the retirement. -/
def spareServes (s : State) (k : BankCopy) : State :=
  setSpareFree (mapBank (setSvc s fun x => { x with copies := x.copies.filter fun c => c.bank != k.bank }) k.bank k.spare)
    (spareFree s - 1)

theorem execBankCopyDone_some (h : s.svc.copies.find? (fun c => c.det != 0 && physBank s c.bank == p) = some k) :
    exec (.bankCopyDone p) s = .next (bankRec (spareServes s k) k.det p false k.inj) := by
  refine congrArg Host.Outcome.next ?_
  rw [h]
  rfl

theorem execBankCopyDone_none (h : ∀ c ∈ s.svc.copies, c.det = 0 ∨ physBank s c.bank ≠ p) :
    exec (.bankCopyDone p) s = .next s := by
  have none : s.svc.copies.find? (fun c => c.det != 0 && physBank s c.bank == p) = none := by
    rw [List.find?_eq_none]
    intro c hc
    rcases h c hc with e | e <;> simp [e]
  refine congrArg Host.Outcome.next ?_
  rw [none]

theorem stmMicaMap_ne_errBankmap (n : Nat) : Reg.stmMicaMap ≠ Reg.errBankmap n := by
  unfold Reg.stmMicaMap Reg.errBankmap
  omega

theorem physBank_spareServes (c : Nat) : physBank (spareServes s k) c = physBank (mapBank s k.bank k.spare) c :=
  physBank_of_rd (rd_setFld_ne _ _ _ (stmMicaMap_ne_errBankmap _))

theorem spareFree_spareServes : spareFree (spareServes s k) = spareFree s - 1 := by
  have small : spareFree s < 2 ^ Fl.stmMicaMap_SPARE_FREE.width := fld_lt ..
  unfold spareServes setSpareFree
  rw [spareFree, fld_setFld_self _ _ _ _ (by decide)]
  exact Nat.mod_eq_of_lt ((Nat.sub_le ..).trans_lt small)

theorem micaByte_spareServes (y : Nat) : micaByte (spareServes s k) y = micaByte s y := by
  unfold spareServes setSpareFree mapBank
  rw [micaByte_setFld, micaByte_setFld]
  rfl

theorem copies_spareServes : (spareServes s k).svc.copies = s.svc.copies.filter fun c => c.bank != k.bank := by
  unfold spareServes setSpareFree mapBank
  rw [setFld_svc, setFld_svc]
  rfl

theorem ringByte_spareServes (y : Nat) : ringByte (spareServes s k) y = ringByte s y := by
  have apart : Reg.errBankmap (k.bank / 8) ≠ Reg.errRingCfg := by unfold Reg.errBankmap Reg.errRingCfg; omega
  have same : rd (spareServes s k) Reg.errRingCfg = rd s Reg.errRingCfg :=
    (rd_setFld_ne _ _ _ (by decide)).trans (rd_setFld_ne _ _ _ apart)
  unfold ringByte flag fld
  rw [same]

end

end Sys2Proof.Machine

namespace Sys2Proof.Proofs

open Sys2Proof.Machine

theorem visited_shows {s t : State} {x : Nat} (scrubbed : Scrubbed s t) (poisoned : x / 16 ∈ t.poison)
    (raised : flag t Reg.errAtn Fl.errAtn_ERR = true) : x / 16 ∈ (visited t).poison ∧ (visited t).su = s.su ∧
      flag (visited t) Reg.errAtn Fl.errAtn_ERR = true ∧ ∀ y, ringByte s y = false → micaByte (visited t) y = micaByte s y :=
  ⟨poisoned, scrubbed.su, raised, scrubbed.mica⟩

/-- A visit that finds an uncorrectable error outside the block tables. -/
theorem visit_double {s : State} {x : Nat} (off : inTable s x = false) (run : micaRuns s = true)
    (on : fld s Reg.stmCtrl Fl.stmCtrl_SCRUB ≠ 0) (hi : injOff s) :
    ∃ t, exec (.patrolScrub [.double x]) s = .next t ∧ x / 16 ∈ t.poison ∧ t.su = s.su ∧
      flag t Reg.errAtn Fl.errAtn_ERR = true ∧ ∀ y, ringByte s y = false → micaByte t y = micaByte s y := by
  obtain ⟨scrubbed, poisoned, raised⟩ := micaUe_scrubbed off
  have found : scrubFound s (.double x) = micaUe s x noReader false := rfl
  have done := execPatrolScrub_one (e := .double x) run on hi (by rw [found]; exact scrubbed.injectors)
  rw [found] at done
  exact ⟨_, done, visited_shows scrubbed poisoned raised⟩

/-- Settles O43, by what each event leaves of the block. -/
theorem banksAreScrubbedAndSpared : Obligations.BanksAreScrubbedAndSpared := by
  unfold Obligations.BanksAreScrubbedAndSpared
  intro s
  refine ⟨fun run on hi => ⟨?_, ?_, fun x off => ?_, fun x table => ?_⟩,
    fun h es => execPatrolScrub_rests es (h.imp_left id), fun p k found hb hk => ?_, fun p h => execBankCopyDone_none h⟩
  · rw [execPatrolScrub_eq [] run on, List.foldl_nil, scrubInject_off hi]
    rfl
  · intro x b n hb
    obtain ⟨scrubbed, line, counted⟩ := micaCe_scrubbed (s := s) (x := x) hb
    have done := execPatrolScrub_one (e := .single x) run on hi scrubbed.injectors
    refine ⟨_, done, scrubbed.su, congrArg (fun l => (l + 1) % 4096) line, scrubbed.mica, counted, fun few => ?_,
      fun many free => ⟨fun q qs spare => ?_, fun none => ?_⟩⟩
    · have keeps : micaCe s x noReader false = ceCounted s x := (micaCe_eq hb).trans (if_neg (Nat.not_lt.mpr few))
      show (micaCe s x noReader false).svc.copies = _ ∧ (micaCe s x noReader false).svc.retired = _
      rw [keeps, ceCounted_svc]
      exact ⟨rfl, rfl⟩
    all_goals
      have retires : micaCe s x noReader false = retireBank (ceCounted s x) b 0x01 false := (micaCe_eq hb).trans (if_pos many)
      have idle : ∀ c ∈ (ceCounted s x).svc.copies, c.bank ≠ b := by
        rw [ceCounted_svc]
        exact free
    · show (micaCe s x noReader false).svc.copies = _ ∧ _ ∈ (micaCe s x noReader false).svc.retired
      rw [retires, retireBank_copies idle (freeBanks_ceCounted.trans spare), physBank_ceCounted hb]
      unfold setSvc
      dsimp only
      rw [ceCounted_svc]
      exact ⟨rfl, by simp⟩
    · have recorded := noSpare_recorded (s := ceCounted s x) (det := 0x01) (p := physBank (ceCounted s x) b) (inj := false)
      show (micaCe s x noReader false).svc.copies = _ ∧ (micaCe s x noReader false).svc.retired = _ ∧
        flag (micaCe s x noReader false) Reg.errAtn Fl.errAtn_NOTE = true
      rw [retires, retireBank_none idle (freeBanks_ceCounted.trans none)]
      refine ⟨?_, ?_, notice_flag ..⟩
      · rw [recorded.books.svc, ceCounted_svc]
      · rw [recorded.books.svc, ceCounted_svc]
  · exact visit_double off run on hi
  · obtain ⟨v, recorded, e, next⟩ := micaUe_fatal table run
    obtain ⟨su, code, fatal, regs⟩ := goFatal_enters (code := St.fatalTable) next (by decide)
    have injectors (n : Nat) (hn : n < 8) : rd (micaUe s x noReader false) (Reg.fltInjW0 n) = rd s (Reg.fltInjW0 n) := by
      have apart : ∀ m < 8, (∀ v < 16, Reg.vnStat v ≠ Reg.fltInjW0 m) ∧ Reg.idGstat ≠ Reg.fltInjW0 m ∧
          Reg.errAtn ≠ Reg.fltInjW0 m := by decide
      obtain ⟨stat, gstat, atn⟩ := apart n hn
      rw [e, regs _ stat gstat atn]
      exact recorded.scrubbed.injectors n hn
    have done := execPatrolScrub_one (e := .double x) run on hi injectors
    have found : scrubFound s (.double x) = goFatal v St.fatalTable := e
    rw [found] at done
    exact ⟨_, done, su, code, fatal⟩
  · have recorded : Recorded (spareServes s k) (bankRec (spareServes s k) k.det p false k.inj) := bankRec_recorded (.rfl' _)
    refine ⟨_, execBankCopyDone_some found, ?_, fun c hc => ?_, ?_, fun c hc ne => ?_, fun y hy => ?_⟩
    · rw [physBank_recorded recorded hb, physBank_spareServes, physBank_mapBank_self hk]
    · rw [recorded.books.svc, copies_spareServes] at hc
      simpa using (List.mem_filter.mp hc).2
    · exact (fld_congr (recorded.books.regs (by decide))).trans spareFree_spareServes
    · rw [physBank_recorded recorded hc, physBank_spareServes, physBank_mapBank_ne ne]
    · exact (recorded.scrubbed.mica y ((ringByte_spareServes y).trans hy)).trans (micaByte_spareServes y)

end Sys2Proof.Proofs

/-! PROOFS. The end of waits of veins (R161, R204, R218, R224, R229): the halt that SEM_TIMEOUT makes stands while other
waiters of the semaphore are served; what a refreshed vein shows is read by no estimate and, where it is a filler, by no
rule of the filler; the bubble that ends first by serial order. -/

namespace Sys2Proof.Machine

/-! ## The bubble window that ends first (R229, R230) -/

section
variable {now : Nat}

/-- The timestamp that lies ahead of now by less is before. -/
theorem serialCmp_before {a b : Nat} (hn : now < 2 ^ 64) (ha : a < 2 ^ 64) (hb : b < 2 ^ 64)
    (ahead : (a + 2 ^ 64 - now) % 2 ^ 64 < 2 ^ 63) (ahead' : (b + 2 ^ 64 - now) % 2 ^ 64 < 2 ^ 63) :
    serialCmp a b 64 = 1 ↔ (a + 2 ^ 64 - now) % 2 ^ 64 < (b + 2 ^ 64 - now) % 2 ^ 64 := by
  have lies (c : Nat) (hc : c < 2 ^ 64) : (c + 2 ^ 64 - now) % 2 ^ 64 = if now ≤ c then c - now else c + 2 ^ 64 - now := by
    split <;> omega
  have apart : (b + 2 ^ 64 - a % 2 ^ 64) % 2 ^ 64 = if a ≤ b then b - a else b + 2 ^ 64 - a := by
    split <;> omega
  rw [lies a ha] at ahead ⊢
  rw [lies b hb] at ahead' ⊢
  simp only [serialCmp, apart, Nat.add_one_sub_one]
  refine ⟨fun h => ?_, fun h => ?_⟩ <;> split_ifs at * <;> omega

/-- The search for the first end, over those that lie ahead. -/
theorem bubbleFirst_least {bs : List (Nat × Nat)} {b : Nat × Nat} (hn : now < 2 ^ 64)
    (h : ∀ x ∈ b :: bs, x.2 < 2 ^ 64 ∧ (x.2 + 2 ^ 64 - now) % 2 ^ 64 < 2 ^ 63) :
    let first := bs.foldl (fun m x => if serialCmp x.2 m.2 64 = 1 then x else m) b
    first ∈ b :: bs ∧ ∀ x ∈ b :: bs, (first.2 + 2 ^ 64 - now) % 2 ^ 64 ≤ (x.2 + 2 ^ 64 - now) % 2 ^ 64 := by
  induction bs generalizing b with
  | nil => exact ⟨List.mem_singleton_self b, fun x hx => List.mem_singleton.mp hx ▸ Nat.le_refl _⟩
  | cons y bs ih =>
    obtain ⟨hb, hy⟩ := And.intro (h b (by simp)) (h y (by simp))
    have earlier := serialCmp_before hn hy.1 hb.1 hy.2 hb.2
    have nearer : ∃ m, (if serialCmp y.2 b.2 64 = 1 then y else b) = m ∧ (m = y ∨ m = b) ∧
        (m.2 + 2 ^ 64 - now) % 2 ^ 64 ≤ (b.2 + 2 ^ 64 - now) % 2 ^ 64 ∧
        (m.2 + 2 ^ 64 - now) % 2 ^ 64 ≤ (y.2 + 2 ^ 64 - now) % 2 ^ 64 := by
      split
      next before => exact ⟨y, rfl, .inl rfl, (earlier.mp before).le, Nat.le_refl _⟩
      next not_before => exact ⟨b, rfl, .inr rfl, Nat.le_refl _, Nat.not_lt.mp (not_before ∘ earlier.mpr)⟩
    obtain ⟨m, chosen, which, le_b, le_y⟩ := nearer
    rw [List.foldl_cons, chosen]
    obtain ⟨mem, least⟩ := ih (b := m) fun x hx => by
      rcases List.mem_cons.mp hx with e | hx
      · rcases which with w | w <;> rw [e, w] <;> assumption
      · exact h x (by simp [hx])
    have first := least m List.mem_cons_self
    refine ⟨?_, fun x hx => ?_⟩
    · rcases List.mem_cons.mp mem with e | hm
      · rw [e]
        rcases which with w | w <;> simp [w]
      · exact List.mem_cons_of_mem _ (List.mem_cons_of_mem _ hm)
    · rcases List.mem_cons.mp hx with e | hx
      · exact e ▸ first.trans le_b
      · rcases List.mem_cons.mp hx with e | hx
        · exact e ▸ first.trans le_y
        · exact least x (List.mem_cons_of_mem _ hx)

end

theorem execBubbleEnd_first {s : State} (some : s.trm.bubbles ≠ [])
    (h : ∀ x ∈ s.trm.bubbles, x.2 < 2 ^ 64 ∧ (x.2 + 2 ^ 64 - tstamp s) % 2 ^ 64 < 2 ^ 63) :
    ∃ b ∈ s.trm.bubbles, (∀ x ∈ s.trm.bubbles, (b.2 + 2 ^ 64 - tstamp s) % 2 ^ 64 ≤ (x.2 + 2 ^ 64 - tstamp s) % 2 ^ 64) ∧
      exec .bubbleEnd s = .next { s with trm := { s.trm with bubbles := s.trm.bubbles.erase b } } := by
  have now : tstamp s < 2 ^ 64 := Nat.mod_lt _ (by decide)
  have same : exec .bubbleEnd s = execBubbleEnd s := rfl
  rw [same]
  unfold execBubbleEnd
  generalize s.trm.bubbles = l at *
  cases l with
  | nil => exact absurd rfl some
  | cons b bs =>
    obtain ⟨mem, least⟩ := bubbleFirst_least now h
    exact ⟨_, mem, least, rfl⟩


/-! ## What a refreshed vein shows is read by no estimate (R257 to R262) -/

/-- A state without its registers and veins. -/
def beyondVeins (s : State) : State := { s with regs := [], veins := [] }

/-- From s to t only PX_VN_STAT and the veins have changed. -/
structure StatShown (s t : State) : Prop where
  regs : ∀ a, (∀ v < 16, Reg.vnStat v ≠ a) → rd t a = rd s a
  rest : beyondVeins t = beyondVeins s

namespace StatShown
variable {s t : State} (h : StatShown s t)
include h

theorem fld_eq {a : Nat} (ha : ∀ v < 16, Reg.vnStat v ≠ a) (f : Field) : fld t a f = fld s a f := fld_congr (h.regs a ha)

theorem above {a : Nat} (ha : 0x21000 ≤ a) : rd t a = rd s a := h.regs a fun v hv => by unfold Reg.vnStat; omega

theorem fld_above {a : Nat} (ha : 0x21000 ≤ a) (f : Field) : fld t a f = fld s a f := fld_congr (h.above ha)

theorem flag_above {a : Nat} (ha : 0x21000 ≤ a) (f : Field) : flag t a f = flag s a f := by
  unfold flag
  rw [h.fld_above ha]

theorem trm : t.trm = s.trm := (congrArg State.trm h.rest :)

theorem arr_eq (a : Nat) : arr t a = arr s a := by
  have same : t.arrays = s.arrays := (congrArg State.arrays h.rest :)
  unfold arr
  rw [same]

theorem micaNat_eq (x n : Nat) : micaNat t x n = micaNat s x n := by
  have same : t.mica = s.mica := (congrArg State.mica h.rest :)
  unfold micaNat micaRead
  rw [same]

/-! ### Tables and quantities (R260) -/

theorem inService_eq : inService t = inService s := by
  funext a
  unfold inService
  rw [h.fld_above (by decide)]

theorem arraysIn_eq : arraysIn t = arraysIn s := by
  unfold arraysIn
  rw [h.inService_eq]

theorem pgtRaw_eq (g : Nat) : pgtRaw t g = pgtRaw s g := by
  have groups (r : Nat) : regionGroups t r = regionGroups s r := by
    unfold regionGroups
    split <;> exact h.fld_above (by decide) _
  simp only [pgtRaw, pgtAddr, regionBase, h.micaNat_eq, groups]

theorem costGet_eq : costGet t = costGet s := by
  funext d
  simp only [costGet, costAddr, h.micaNat_eq, h.fld_above (a := Reg.trmCostCfg) (by decide)]

theorem tileMica_eq (f : TileF) (n : Nat) (passes : List Nat) : tileMica t f n passes = tileMica s f n passes := by
  have total (x lo : Nat) : streamTotal t (bits x lo 6) = streamTotal s (bits x lo 6) :=
    congrArg Desc.total (desc_congr (fun a ha _ => h.above (ha.trans' (by decide))) (Nat.mod_lt _ (by decide)))
  simp only [tileMica, h.micaNat_eq, total]

theorem tileQty_eq (f : TileF) : tileQty t f = tileQty s f := by
  have spare (a : Nat) (fl : Field) : flag t (Reg.tchSpare a) fl = flag s (Reg.tchSpare a) fl :=
    h.flag_above (by unfold Reg.tchSpare; omega) fl
  simp only [tileQty, claimN, spareClk, runPasses, maskGet, maskAddr, h.inService_eq, h.arraysIn_eq, spare, h.pgtRaw_eq,
    h.micaNat_eq, h.tileMica_eq, h.flag_above (a := Reg.shlCtrl) (by decide), h.fld_above (a := Reg.shlMaskCfg) (by decide),
    h.fld_above (a := Reg.trmCtrl) (by decide)]

theorem cmdQty_eq (ws : List W64) : cmdQty t ws = cmdQty s ws := by
  simp only [cmdQty, gradLink, claimN, imageLen, partLen, histCount, maskSlots, schedBytes, h.tileQty_eq, h.inService_eq,
    h.arraysIn_eq, h.pgtRaw_eq, h.fld_above (a := Reg.numHistCfg) (by decide), h.fld_above (a := Reg.shlMaskCfg) (by decide),
    h.fld_above (a := Reg.vnSchedVal) (by decide)]

/-! ### Estimates (R257, R262) -/

theorem frameOpp_eq : frameOpp t = frameOpp s := h.fld_above (by decide) _

theorem frameF_eq : frameF t = frameF s := by
  unfold frameF
  rw [h.frameOpp_eq, h.fld_above (by unfold Reg.trmOpp; omega)]

theorem activity_eq (srcs : List Nat) : activity t srcs = activity s srcs := by
  have act (i : Nat) (f : Field) : fld t (Reg.trmAct i) f = fld s (Reg.trmAct i) f :=
    h.fld_above (by unfold Reg.trmAct; omega) f
  simp only [activity, act]

theorem energyNum_eq (q : Qty) : energyNum t q = energyNum s q := by
  funext c
  simp only [energyNum, h.activity_eq, h.frameF_eq]

theorem estimate_eq (ws : List W64) : estimate t ws = estimate s ws := by
  have domain (q : Qty) : domainOf t q = domainOf s q := by
    simp only [domainOf, h.activity_eq, h.frameOpp_eq, h.trm]
  have fallback (q : Qty) : fallbackEntry t q = fallbackEntry s q := by
    unfold fallbackEntry
    rw [h.costGet_eq, h.frameOpp_eq, h.energyNum_eq]
  simp only [estimate, energyOf, effCap, h.cmdQty_eq, domain, h.costGet_eq, h.energyNum_eq, fallback, h.frameF_eq,
    h.fld_above (a := Reg.trmCap) (by decide)]

end StatShown


/-! ## The rule of the filler, as veins of fillers show that they run (R206, R224) -/

/-- From s to t only what veins of fillers show, and what they wait for, has changed. -/
structure FillersShown (s t : State) : Prop extends StatShown s t where
  stat  : ∀ v < 16, isFiller s (vTenant s v) = false → rd t (Reg.vnStat v) = rd s (Reg.vnStat v)
  veins : ∀ v, { vein t v with waitOn := (vein s v).waitOn, left := (vein s v).left } = vein s v

section
variable {s t : State}

theorem FillersShown.rfl' (s : State) : FillersShown s s := ⟨⟨fun _ _ => rfl, rfl⟩, fun _ _ _ => rfl, fun _ => rfl⟩

theorem FillersShown.trans {u : State} (h : FillersShown s t) (k : FillersShown t u)
    (tenants : ∀ v < 16, isFiller t (vTenant t v) = isFiller s (vTenant s v)) : FillersShown s u := by
  refine ⟨⟨fun a ha => (k.regs a ha).trans (h.regs a ha), k.rest.trans h.rest⟩,
    fun v hv hf => (k.stat v hv ((tenants v hv).trans hf)).trans (h.stat v hv hf), fun v => ?_⟩
  exact (congrArg (fun x : VeinSt => { x with waitOn := (vein s v).waitOn, left := (vein s v).left }) (k.veins v)).trans
      (h.veins v)

namespace FillersShown
variable (h : FillersShown s t)
include h

theorem tenant_eq (v : Nat) : vTenant t v = vTenant s v :=
  h.fld_eq (fun w _ => by unfold Reg.vnStat Reg.vnQcfg; omega) _

theorem isFiller_eq (n : Nat) : isFiller t n = isFiller s n := h.flag_above (by unfold Reg.vnTenant; omega) _

theorem filler_eq (v : Nat) : isFiller t (vTenant t v) = isFiller s (vTenant s v) := by
  rw [h.tenant_eq, h.isFiller_eq]

theorem eligible_eq (n : Nat) : eligible t n = eligible s n := by
  have tenant (f : Field) : fld t (Reg.vnTenant n) f = fld s (Reg.vnTenant n) f :=
    h.fld_above (by unfold Reg.vnTenant; omega) f
  simp only [eligible, frameNo, tenant, h.fld_above (a := Reg.crnFrame) (by decide)]

theorem nonFillerBlocked_eq : nonFillerBlocked t = nonFillerBlocked s := by
  refine Bool.eq_iff_iff.mpr ?_
  unfold nonFillerBlocked
  rw [List.all_eq_true, List.all_eq_true]
  refine forall₂_congr fun v hv => ?_
  have hv := List.mem_range.mp hv
  rw [h.filler_eq v, h.eligible_eq, h.tenant_eq v]
  cases filler : isFiller s (vTenant s v)
  · rw [show vState t v = vState s v from fld_congr (h.stat v hv filler)]
  · simp

theorem liveQ_eq : liveQ t = liveQ s := by
  have jobs (v : Nat) : (vein t v).jobs = (vein s v).jobs := (congrArg VeinSt.jobs (h.veins v) :)
  have groups (v : Nat) : (vein t v).groups = (vein s v).groups := (congrArg VeinSt.groups (h.veins v) :)
  simp only [liveQ, usedU, jobs, groups, h.trm]

theorem fillerMay_eq (est : Nat) : fillerMay t est = fillerMay s est := by
  have run : isRun t = isRun s := congrArg (· == Su.run) (congrArg State.su h.rest :)
  have now : frameNow t = frameNow s := by
    have crn : t.crn = s.crn := (congrArg State.crn h.rest :)
    simp only [frameNow, tstamp, crn, h.trm, h.frameF_eq]
  have idle (n : Nat) : idleEnergy t n = idleEnergy s n := by
    simp only [idleEnergy, idleDraw, h.costGet_eq, h.frameOpp_eq, h.frameF_eq, h.trm]
  have ends : (fun (m : Nat) a => max m (arr t a).cEnd) = fun m a => max m (arr s a).cEnd := by simp only [h.arr_eq]
  unfold fillerMay
  rw [run, h.trm, h.nonFillerBlocked_eq, h.liveQ_eq, now, idle, ends, h.fld_above (a := Reg.errEvstat) (by decide)]

theorem headCmd_eq (v : Nat) : headCmd t v = headCmd s v :=
  congrArg List.head? (congrArg VeinSt.held (h.veins v) :)

end FillersShown

theorem beyondVeins_setFld (s : State) (a : Nat) (f : Field) (n : Nat) : beyondVeins (setFld s a f n) = beyondVeins s := rfl

/-- Of a refreshed vein that is a filler's, its registers and itself have changed. -/
theorem refreshVein_rest {v : Nat} (hv : v < 16) (filler : isFiller s (vTenant s v) = true) :
    beyondVeins (refreshVein s v) = beyondVeins s := by
  unfold refreshVein
  extract_lets x n shown st live trm
  have rest : beyondVeins shown = beyondVeins s := beyondVeins_setFld ..
  have kept : isFiller shown (vTenant shown v) = true := by
    have tenant : vTenant shown v = vTenant s v :=
      fld_congr (rd_setFld_ne _ _ _ (by unfold Reg.vnStat Reg.vnQcfg; omega))
    rw [tenant, ← filler]
    unfold isFiller flag
    rw [fld_congr (rd_setFld_ne _ _ _ (Nat.ne_of_lt (by unfold Reg.vnStat Reg.vnTenant; omega)))]
  clear_value x n shown st live trm
  split
  · exact rest
  · split
    extract_lets masked ready
    have hready : ready = shown := if_neg (by simp [kept])
    rw [hready]
    unfold setWaiton setVState
    split
    · exact (beyondVeins_setFld ..).trans ((beyondVeins_setFld ..).trans rest)
    · exact (beyondVeins_setFld ..).trans ((beyondVeins_setFld ..).trans rest)

theorem refreshVein_shown {v : Nat} (hv : v < 16) (filler : isFiller s (vTenant s v) = true) :
    FillersShown s (refreshVein s v) := by
  refine ⟨⟨fun a ha => rd_refreshVein_ne (ha v hv), refreshVein_rest hv filler⟩, fun w _ hw => ?_, fun w => ?_⟩
  · refine rd_refreshVein_ne fun e => ?_
    have same : v = w := by unfold Reg.vnStat at e; omega
    subst same
    exact Bool.false_ne_true (hw.symm.trans filler)
  · obtain ⟨l, e⟩ := vein_refreshVein s v w
    rw [e]

/-- A vein whose head waits no longer. -/
def headFreed (s : State) (v : Nat) : State := refreshVein (setVein s v { vein s v with waitOn := 0 }) v

theorem headFreed_shown {v : Nat} (hv : v < 16) (filler : isFiller s (vTenant s v) = true) :
    FillersShown s (headFreed s v) := by
  have freed : FillersShown s (setVein s v { vein s v with waitOn := 0 }) := by
    refine ⟨⟨fun _ _ => rfl, rfl⟩, fun _ _ _ => rfl, fun w => ?_⟩
    rw [vein_setVein]
    split
    next e => rw [e]
    next => rfl
  exact freed.trans (refreshVein_shown hv filler) fun _ _ => rfl

theorem waitOn_headFreed (s : State) (v w : Nat) :
    (vein (headFreed s v) w).waitOn = if v = w then 0 else (vein s w).waitOn := by
  unfold headFreed
  rw [waitOn_refreshVein, vein_setVein]
  split <;> rfl

/-- May the head command of a filler's vein issue now? -/
def headMayFill (s : State) (v : Nat) : Bool :=
  match headCmd s v with | some c => fillerMay s (estimate s c.words).e | none => false

/-- What settleFillers does with a vein. -/
def settleFiller (s : State) (v : Nat) : State :=
  if (vein s v).waitOn = 8 && headMayFill s v then headFreed s v else s

theorem settleFillers_eq (s : State) : settleFillers s = (List.range 16).foldl settleFiller s := rfl

/-- A vein that may issue now waits no longer. -/
theorem settleFiller_frees {v : Nat} {c : Cmd} (waits : (vein s v).waitOn = 8) (head : headCmd s v = some c)
    (may : fillerMay s (estimate s c.words).e = true) : settleFiller s v = headFreed s v :=
  if_pos (by unfold headMayFill; rw [waits, head]; simp [may])

theorem waitOn_settleFiller (s : State) (v w : Nat) :
    (vein (settleFiller s v) w).waitOn = (vein s w).waitOn ∨ (v = w ∧ (vein (settleFiller s v) w).waitOn = 0) := by
  unfold settleFiller
  split
  · rw [waitOn_headFreed]
    split
    next e => exact .inr ⟨e, rfl⟩
    next => exact .inl rfl
  · exact .inl rfl

end

section
variable {s : State} (fillers : ∀ w < 16, (vein s w).waitOn = 8 → isFiller s (vTenant s w) = true)
include fillers

/-- As the veins are settled one by one, only fillers change, and a vein not yet settled waits as it did. -/
theorem settleFillers_shown {l : List Nat} (hl : ∀ v ∈ l, v < 16) : FillersShown s (l.foldl settleFiller s) ∧
    ∀ w, (vein (l.foldl settleFiller s) w).waitOn = (vein s w).waitOn ∨
      (w ∈ l ∧ (vein (l.foldl settleFiller s) w).waitOn = 0) := by
  induction l using List.reverseRecOn with
  | nil => exact ⟨.rfl' s, fun _ => .inl rfl⟩
  | append_singleton l v ih =>
    obtain ⟨shown, waits⟩ := ih fun w hw => hl w (by simp [hw])
    have hv : v < 16 := hl v (by simp)
    rw [List.foldl_append, List.foldl_cons, List.foldl_nil]
    generalize l.foldl settleFiller s = u at *
    constructor
    · unfold settleFiller
      split
      next frees =>
        have asked : (vein u v).waitOn = 8 := by simpa using (Bool.and_eq_true_iff.mp frees).1
        have before : (vein s v).waitOn = 8 := by
          rcases waits v with e | ⟨-, e⟩
          · exact e ▸ asked
          · rw [e] at asked
            cases asked
        have filler : isFiller u (vTenant u v) = true := (shown.filler_eq v).trans (fillers v hv before)
        exact shown.trans (headFreed_shown hv filler) fun w _ => shown.filler_eq w
      next => exact shown
    · intro w
      rcases waitOn_settleFiller u v w with e | ⟨same, e⟩
      · rcases waits w with k | ⟨hw, k⟩
        · exact .inl (e.trans k)
        · exact .inr ⟨by simp [hw], e.trans k⟩
      · exact .inr ⟨by simp [same], e⟩

/-- A vein of a filler whose head command may issue waits no longer. -/
theorem settleFillers_frees {v : Nat} {c : Cmd} (hv : v < 16) (waits : (vein s v).waitOn = 8) (head : headCmd s v = some c)
    (may : fillerMay s (estimate s c.words).e = true) : (vein (settleFillers s) v).waitOn = 0 := by
  obtain ⟨l, r, e⟩ := List.append_of_mem (List.mem_range.mpr hv)
  have apart : (l ++ v :: r).Nodup := e ▸ List.nodup_range
  have bound : ∀ w ∈ l, w < 16 := fun w hw => List.mem_range.mp (e ▸ List.mem_append_left _ hw)
  have later : v ∉ l := fun hl => (List.disjoint_of_nodup_append apart) hl List.mem_cons_self
  obtain ⟨shown, before⟩ := settleFillers_shown fillers bound
  rw [settleFillers_eq, e, List.foldl_append, List.foldl_cons]
  generalize l.foldl settleFiller s = u at *
  have still : (vein u v).waitOn = 8 := ((before v).resolve_right fun h => later h.1).trans waits
  rw [settleFiller_frees still ((shown.headCmd_eq v).trans head) (by rw [shown.fillerMay_eq, shown.estimate_eq]; exact may)]
  have freed : (vein (headFreed u v) v).waitOn = 0 := by rw [waitOn_headFreed, if_pos rfl]
  refine List.foldlRecOn (motive := fun x => (vein x v).waitOn = 0) _ _ freed fun x hx w _ => ?_
  exact (waitOn_settleFiller x w v).elim (·.trans hx) And.right

end

theorem settleFillers_book (s : State) : Books bookReg s (settleFillers s) :=
  book_foldl (book_refl s) fun _ _ hv hu => book_ite (refreshVein_book bookReg_covers (List.mem_range.mp hv) (setVein_book rfl hu)) hu


/-! ## A halted vein stands while others complete (R204, R227) -/

/-- What the completion of a command of vein w leaves alone. -/
structure OffHalt (w a : Nat) : Prop where
  stat  : Reg.vnStat w ≠ a
  seq   : Reg.vnSeq w ≠ a
  log   : OffRecord a
  count : Reg.errCnt ≠ a
  sum   : Reg.errSummary ≠ a
  atn   : Reg.errAtn ≠ a

theorem offHalt_vnStat {v w : Nat} (hv : v < 16) (ne : w ≠ v) : OffHalt w (Reg.vnStat v) := by
  refine ⟨?_, ?_, offRecord_vnStat hv, ?_, ?_, ?_⟩
  all_goals
    unfold Reg.vnStat
  · omega
  · unfold Reg.vnSeq
    omega
  · unfold Reg.errCnt
    omega
  · unfold Reg.errSummary
    omega
  · unfold Reg.errAtn
    omega

section
variable {s : State} {w a : Nat} (off : OffHalt w a)
include off

theorem rd_setVBase_off (st : Nat) : rd (setVBase s w st) a = rd s a := by
  unfold setVBase
  split
  · rfl
  · exact rd_setFld_ne _ _ _ off.stat

theorem rd_settleHalt_off : rd (settleHalt s w) a = rd s a := by
  unfold settleHalt
  extract_lets x
  clear_value x
  split
  · split
    extract_lets shown named halted
    have hshown : rd shown a = rd s a := rd_setFld_ne _ _ _ off.stat
    clear_value shown
    have hnamed : rd named a = rd s a := (rd_setFld_ne _ _ _ off.stat).trans hshown
    clear_value named
    have hhalted : rd halted a = rd s a := (rd_setFld_ne _ _ _ off.stat).trans ((rd_setVBase_off off _).trans hnamed)
    clear_value halted
    exact (rd_recordErr_contained rfl rfl off.log off.count off.sum off.atn).trans hhalted
  · rfl

theorem rd_beginHalt_off : rd (beginHalt s w) a = rd s a := by
  unfold beginHalt
  split
  · rfl
  · exact (rd_settleHalt_off off).trans (rd_setVBase_off off _)

theorem rd_retireList_off (js : List Job) : rd (retireList w js s).1 a = rd s a := by
  induction js generalizing s with
  | nil => rfl
  | cons j js ih =>
    have one : rd (retireOne s w j) a = rd s a := by
      unfold retireOne traceRetire
      extract_lets done told
      have htold : rd told a = rd s a := (rd_setFld_ne _ _ _ off.stat).trans (rd_setFld_ne _ _ _ off.seq)
      clear_value told
      split <;> exact htold
    unfold retireList
    split
    · exact ih.trans one
    · rfl

theorem rd_retire_off : rd (retire s w) a = rd s a := rd_retireList_off off (vein s w).jobs

end

/-- Up to what others wait for, a command that completes changes the books alone, and of those no other vein's. -/
theorem completeJob_unsettled {w : Nat} (hw : w < 16) (s : State) (seq : Nat) : ∃ u, completeJob s w seq = settleWaits u ∧
    Books bookReg s u ∧ ∀ a, OffHalt w a → rd u a = rd s a := by
  unfold completeJob
  extract_lets marked halted
  have books : Books bookReg s halted ∧ ∀ a, OffHalt w a → rd halted a = rd s a := by
    have hmarked : Books bookReg s marked := updJob_book (book_refl s)
    have same (a : Nat) : rd marked a = rd s a := rfl
    clear_value marked
    unfold halted
    split
    · split
      · exact ⟨beginHalt_book bookReg_covers hw hmarked, fun a off => (rd_beginHalt_off off).trans (same a)⟩
      · exact ⟨hmarked, fun a _ => same a⟩
    · exact ⟨hmarked, fun a _ => same a⟩
  obtain ⟨books, same⟩ := books
  clear_value halted
  refine ⟨_, rfl, refreshVein_book bookReg_covers hw (settleHalt_book bookReg_covers hw
    (retire_book bookReg_covers hw (bookReg_seq hw) books)), fun a off => ?_⟩
  exact (rd_refreshVein_ne off.stat).trans ((rd_settleHalt_off off).trans ((rd_retire_off off).trans (same a off)))

/-! ## The command by which a vein halts (R204) -/

theorem haltSeq_refreshVein (s : State) (v : Nat) :
    fld (refreshVein s v) (Reg.vnStat v) Fl.vnStat_HALTSEQ = fld s (Reg.vnStat v) Fl.vnStat_HALTSEQ := by
  unfold refreshVein
  extract_lets x n shown st live trm
  have hshown : fld shown (Reg.vnStat v) Fl.vnStat_HALTSEQ = fld s (Reg.vnStat v) Fl.vnStat_HALTSEQ :=
    fld_setFld_other _ _ _ _ _ (by decide) (by decide)
  clear_value x n shown st live trm
  have entered (u : State) (a b : Nat) (hu : rd u (Reg.vnStat v) = rd shown (Reg.vnStat v)) :
      fld (setWaiton (setVState u v a) v b) (Reg.vnStat v) Fl.vnStat_HALTSEQ = fld s (Reg.vnStat v) Fl.vnStat_HALTSEQ := by
    unfold setWaiton setVState
    rw [fld_setFld_other _ _ _ _ _ (by decide) (by decide), fld_setFld_other _ _ _ _ _ (by decide) (by decide)]
    exact (fld_congr hu).trans hshown
  split
  · exact hshown
  · split
    extract_lets masked ready
    split
    · exact entered _ _ _ rfl
    · refine entered _ _ _ ?_
      unfold ready
      split <;> rfl

section
variable {s : State} {v : Nat} {j : Job}

theorem settleHalt_names (hv : v < 16) (hj : (vein s v).jobs = [j]) (hd : j.done = true) (hh : jobHalts j = true)
    (hst : vBase s v = Vs.halting) : fld (settleHalt s v) (Reg.vnStat v) Fl.vnStat_HALTSEQ = j.seq % 2 ^ 32 := by
  have off : OffRecord (Reg.vnStat v) ∧ Reg.errCnt ≠ Reg.vnStat v ∧ Reg.errSummary ≠ Reg.vnStat v ∧
      Reg.errAtn ≠ Reg.vnStat v := by
    refine ⟨offRecord_vnStat hv, ?_⟩
    unfold Reg.errCnt Reg.errSummary Reg.errAtn Reg.vnStat
    omega
  obtain ⟨log, count, sum, atn⟩ := off
  unfold settleHalt
  rw [if_pos (by simp [hst, hj, hd]), hj, List.find?_cons_of_pos hh]
  dsimp only
  rw [fld_congr (rd_recordErr_contained (by rfl) (by rfl) log count sum atn)]
  unfold setWaiton
  rw [fld_setFld_other _ _ _ _ _ (by decide) (by decide)]
  generalize setFld s (Reg.vnStat v) Fl.vnStat_HALTSTAT (jobHaltStat j) = u
  have named : fld (setFld u (Reg.vnStat v) Fl.vnStat_HALTSEQ j.seq) (Reg.vnStat v) Fl.vnStat_HALTSEQ = j.seq % 2 ^ 32 :=
    fld_setFld_self _ _ _ _ (by decide)
  unfold setVBase setVState
  split
  · exact named
  · exact (fld_setFld_other _ _ _ _ _ (by decide) (by decide)).trans named

theorem beginHalt_names (hv : v < 16) (hj : (vein s v).jobs = [j]) (hd : j.done = true) (hh : jobHalts j = true)
    (hst : vState s v = Vs.ready ∨ vState s v = Vs.wait) :
    fld (beginHalt s v) (Reg.vnStat v) Fl.vnStat_HALTSEQ = j.seq % 2 ^ 32 := by
  have plain : vState s v ≠ Vs.suspended ∧ vState s v ≠ Vs.fenced := by
    rcases hst with e | e <;> rw [e] <;> decide
  have runs : ¬(vBase s v == Vs.off || vBase s v == Vs.halted) = true := by
    rw [vBase_of_plain plain]
    rcases hst with e | e <;> rw [e] <;> decide
  have unmasked : vMasked (leaveFrame s v) v = false := by
    unfold vMasked
    rw [show vState (leaveFrame s v) v = vState s v from rfl]
    simp [plain]
  unfold beginHalt
  rw [if_neg runs, setVBase, unmasked, if_neg Bool.false_ne_true]
  have halting : vState (setVState (leaveFrame s v) v Vs.halting) v = Vs.halting := vState_setVState _ _ (by decide)
  refine settleHalt_names hv ?_ hd hh ((vBase_of_plain (by rw [halting]; decide)).trans halting)
  rw [vein_setVState]
  exact (veinHeld_leaveFrame s v v).jobs.trans hj

end

/-- PX_VN_STAT of a vein that no mask hides shows it in HALTED, with a status, by a command. -/
structure HaltShown (s : State) (v stat seq : Nat) : Prop where
  halted    : HaltedWith s v stat
  by_       : fld s (Reg.vnStat v) Fl.vnStat_HALTSEQ = seq
  fenced    : (vein s v).fenced = false
  suspended : (vein s v).suspended = false

namespace HaltShown
variable {s t : State} {v stat seq : Nat} (h : HaltShown s v stat seq)
include h

theorem congr (hr : rd t (Reg.vnStat v) = rd s (Reg.vnStat v))
    (hm : (vein t v).fenced = (vein s v).fenced ∧ (vein t v).suspended = (vein s v).suspended) : HaltShown t v stat seq :=
  ⟨h.halted.congr hr, (fld_congr hr).trans h.by_, hm.1.trans h.fenced, hm.2.trans h.suspended⟩

theorem of_books (hr : rd t (Reg.vnStat v) = rd s (Reg.vnStat v)) (hb : Books bookReg s t) : HaltShown t v stat seq :=
  h.congr hr (book_masks hb v)

theorem refresh (hv : v < 16) : HaltShown (refreshVein s v) v stat seq := by
  have masks := book_masks (refreshVein_book bookReg_covers hv (book_refl s)) v
  refine ⟨refreshVein_halted h.halted h.fenced h.suspended, ?_, masks.1.trans h.fenced, masks.2.trans h.suspended⟩
  exact (haltSeq_refreshVein s v).trans h.by_

theorem headFreed (hv : v < 16) {w : Nat} (hw : w < 16) : HaltShown (headFreed s w) v stat seq := by
  have freed : HaltShown (setVein s w { vein s w with waitOn := 0 }) v stat seq :=
    h.of_books rfl (setVein_book rfl (book_refl s))
  unfold Machine.headFreed
  generalize setVein s w { vein s w with waitOn := 0 } = u at freed
  by_cases e : w = v
  · subst e
    exact freed.refresh hv
  · exact freed.of_books (rd_refreshVein_ne (offHalt_vnStat hv e).stat) (refreshVein_book bookReg_covers hw (book_refl _))

theorem settleWaits (hv : v < 16) : HaltShown (settleWaits s) v stat seq := by
  refine List.foldlRecOn (motive := fun u => HaltShown u v stat seq) _ _ h fun u hu w hw => ?_
  dsimp only
  split
  · exact hu.headFreed hv (List.mem_range.mp hw)
  · exact hu

theorem completeJob (hv : v < 16) {w : Nat} (hw : w < 16) (ne : w ≠ v) (q : Nat) :
    HaltShown (completeJob s w q) v stat seq := by
  obtain ⟨u, e, books, same⟩ := completeJob_unsettled hw s q
  rw [e]
  exact (h.of_books (same _ (offHalt_vnStat hv ne)) books).settleWaits hv

theorem endWait (hv : v < 16) {w : Nat} (hw : w < 16) (ne : w ≠ v) (code : Nat) :
    HaltShown (endWait s w code) v stat seq := by
  unfold Machine.endWait
  extract_lets x lost ended
  clear_value lost
  have hended : HaltShown ended v stat seq := by
    refine h.congr rfl ?_
    rw [show vein ended v = vein s v from (vein_setVein ..).trans (if_neg ne)]
    exact ⟨rfl, rfl⟩
  clear_value ended
  split
  · exact hended.of_books (rd_refreshVein_ne (offHalt_vnStat hv ne).stat) (refreshVein_book bookReg_covers hw (book_refl _))
  · extract_lets met told
    have hmet : HaltShown met v stat seq := by
      unfold met
      split
      · exact hended
      · exact hended.of_books rfl (addCond_book (book_refl _))
    clear_value met
    have htold : HaltShown told v stat seq := by
      unfold told
      split
      · exact hmet.of_books rfl (addCond_book (book_refl _))
      · exact hmet
    clear_value told
    exact htold.completeJob hv hw ne _

end HaltShown

/-- The vein's only command ends with a status that halts, whatever the vein's head waits for. -/
theorem completeJob_haltShown {s : State} {v : Nat} {j : Job} (hv : v < 16) (hj : (vein s v).jobs = [j])
    (hh : jobHalts j = true) (hst : vState s v = Vs.ready ∨ vState s v = Vs.wait) (hf : (vein s v).fenced = false)
    (hs : (vein s v).suspended = false) :
    HaltShown (completeJob s v j.seq) v (jobHaltStat j) (j.seq % 2 ^ 32) := by
  unfold completeJob
  extract_lets marked halted
  obtain ⟨k, hk, hd, hseq, hhk, hstat⟩ : ∃ k : Job, (vein marked v).jobs = [k] ∧ k.done = true ∧ k.seq = j.seq ∧
      jobHalts k = true ∧ jobHaltStat k = jobHaltStat j := by
    refine ⟨{ j with fin := true, done := true, nts := [], holds := [], ladders := [] }, ?_, rfl, rfl, hh, rfl⟩
    rw [show (vein marked v).jobs = _ from jobs_updJob_self .., hj]
    simp
  have masks : (vein marked v).fenced = false ∧ (vein marked v).suspended = false := by
    rw [show vein marked v = _ from vein_setVein_self ..]
    exact ⟨hf, hs⟩
  have hmst : vState marked v = Vs.ready ∨ vState marked v = Vs.wait := hst
  clear_value marked
  have hhalted : halted = beginHalt marked v := by
    have found : findJob marked v j.seq = some k := by
      unfold findJob
      rw [hk, List.find?_cons_of_pos (by simp [hseq])]
    have runs : vBase marked v ≠ Vs.halting := by
      rw [vBase_of_plain (by rcases hmst with e | e <;> rw [e] <;> decide)]
      rcases hmst with e | e <;> rw [e] <;> decide
    unfold halted
    rw [found]
    exact if_pos (by simp [hhk, runs])
  have held : VeinHeld (vein marked v) (vein halted v) := hhalted ▸ veinHeld_beginHalt ..
  obtain ⟨fenced, suspended, -⟩ := held.masks
  have stands : HaltShown halted v (jobHaltStat j) (j.seq % 2 ^ 32) :=
    ⟨hstat ▸ hhalted ▸ beginHalt_halts hv hk hd hhk hmst, hseq ▸ hhalted ▸ beginHalt_names hv hk hd hhk hmst,
      fenced.trans masks.1, suspended.trans masks.2⟩
  clear_value halted
  have retired : HaltShown (retire halted v) v (jobHaltStat j) (j.seq % 2 ^ 32) := by
    rw [retire_halts (held.jobs.trans hk) hhk]
    exact stands.of_books rfl (setVein_book rfl (book_refl _))
  have still : settleHalt (retire halted v) v = retire halted v := by
    have at_rest := retired.halted.1
    refine settleHalt_stands ?_
    rw [vBase_of_plain (by rw [at_rest]; decide), at_rest]
    decide
  rw [still]
  exact (retired.refresh hv).settleWaits hv


/-! ## A wait that has counted its last tick (R161) -/

section
variable {s : State} {k : Nat}

/-- A vein that is a waiter waits. -/
theorem waits_of_semWaiters {o w c : Nat} (h : (o, w, c, none) ∈ semWaiters s k) : w < 16 ∧ (vein s w).wait ≠ none := by
  unfold semWaiters at h
  dsimp only at h
  rcases List.mem_append.mp ((perm_sortBy _ _).mem_iff.mp h) with h | h
  · obtain ⟨x, hx, e⟩ := List.mem_filterMap.mp h
    split at e
    next waits =>
      split at e
      · obtain ⟨-, rfl, -⟩ : _ ∧ x = w ∧ _ := by simpa using e
        exact ⟨List.mem_range.mp hx, by simp [waits]⟩
      · cases e
    next => cases e
  · unfold psumWaiters at h
    obtain ⟨p, -, hp⟩ := List.mem_flatMap.mp h
    split at hp
    · cases hp
    · obtain ⟨x, -, e⟩ := List.mem_filterMap.mp hp
      simp at e

theorem semVal_ne_vnStat {v : Nat} (hv : v < 16) : Reg.semVal k ≠ Reg.vnStat v := by
  unfold Reg.semVal Reg.vnStat
  omega

end

namespace HaltShown
variable {s : State} {v stat seq : Nat} (h : HaltShown s v stat seq)
include h

theorem setFld_semVal (hv : v < 16) (k : Nat) (f : Field) (n : Nat) : HaltShown (setFld s (Reg.semVal k) f n) v stat seq :=
  h.congr (rd_setFld_ne _ _ _ (semVal_ne_vnStat hv)) (by rw [vein_setFld]; exact ⟨rfl, rfl⟩)

theorem updJob (w q : Nat) (f : Job → Job) : HaltShown (updJob s w q f) v stat seq :=
  h.of_books rfl (updJob_book (book_refl s))

theorem semWake (hv : v < 16) (idle : (vein s v).wait = none) (k n : Nat) : HaltShown (semWake k n s) v stat seq ∧
    (vein (semWake k n s) v).wait = none := by
  induction n generalizing s with
  | zero => exact ⟨h, idle⟩
  | succ n ih =>
    unfold Machine.semWake
    split
    · exact ⟨h, idle⟩
    next o w c tile ws first =>
      split
      · extract_lets taken
        have htaken : HaltShown taken v stat seq := h.setFld_semVal hv k _ _
        have waits : (vein taken v).wait = none := idle
        clear_value taken
        cases tile with
        | none =>
          obtain ⟨hw, waiting⟩ := waits_of_semWaiters (first ▸ List.mem_cons_self)
          have ne : w ≠ v := fun e => waiting (e ▸ idle)
          refine ih (htaken.endWait hv hw ne 0) ?_
          rw [wait_endWait hw, if_neg ne, waits]
        | some tile =>
          refine ih (htaken.updJob w _ _) ?_
          rw [book_wait (updJob_book (book_refl (R := bookReg) taken))]
          exact waits
      · exact ⟨h, idle⟩

theorem semSettle (hv : v < 16) (idle : (vein s v).wait = none) (k : Nat) : HaltShown (semSettle s k) v stat seq ∧
    (vein (semSettle s k) v).wait = none := by
  obtain ⟨shown, waits⟩ := h.semWake hv idle k (semWaiters s k).length
  unfold Machine.semSettle setWaiters
  generalize Machine.semWake k (semWaiters s k).length s = u at *
  exact ⟨shown.setFld_semVal hv k _ _, (congrArg VeinSt.wait (vein_setFld ..)).trans waits⟩

end HaltShown

/-- The vein shows WAIT, no mask hides it, and j is its only command in flight. -/
structure WaitsIn (s : State) (v : Nat) (j : Job) : Prop where
  alone     : (vein s v).jobs = [j]
  shown     : vState s v = Vs.wait
  fenced    : (vein s v).fenced = false
  suspended : (vein s v).suspended = false

section
variable {s : State} {v : Nat} {j : Job}

theorem WaitsIn.addCond (h : WaitsIn s v j) {code : Nat} (new : code ∉ j.conds) :
    WaitsIn (addCond s v j.seq code) v { j with conds := j.conds ++ [code] } := by
  have self : vein (Machine.addCond s v j.seq code) v = _ := vein_setVein_self ..
  refine ⟨?_, h.shown, ?_, ?_⟩
  · unfold Machine.addCond
    rw [jobs_updJob_self, h.alone]
    simp [new]
  · rw [self]
    exact h.fenced
  · rw [self]
    exact h.suspended

/-- A SEM_WAIT that ends with SEM_TIMEOUT halts its vein; a lost tick is met beside. -/
theorem WaitsIn.timesOut (h : WaitsIn s v j) (hv : v < 16) (hop : j.op = 0x0D) (hd : j.done = false) (hc : j.conds = []) :
    HaltShown (endWait s v St.semTimeout) v St.semTimeout (j.seq % 2 ^ 32) := by
  have found : (vein s v).jobs.find? (fun k => !k.done && [0x0D, 0x10, 0x11, 0x12].contains k.op) = some j := by
    rw [h.alone]
    exact List.find?_cons_of_pos (by rw [hd, hop]; rfl)
  unfold endWait
  extract_lets x lost ended
  rw [show x.jobs.find? _ = some j from found]
  dsimp only
  rw [if_neg (show ¬ St.semTimeout = 0 by decide)]
  have waits : WaitsIn ended v j := by
    have self : vein ended v = _ := vein_setVein_self ..
    refine ⟨?_, h.shown, ?_, ?_⟩ <;> rw [self]
    · exact h.alone
    · exact h.fenced
    · exact h.suspended
  clear_value lost ended
  have met := waits.addCond (code := St.semTimeout) (by simp [hc])
  obtain ⟨k, told, seq, halting, stat⟩ : ∃ k, WaitsIn (if lost = true
      then Machine.addCond (Machine.addCond ended v j.seq St.semTimeout) v j.seq St.tickLost
      else Machine.addCond ended v j.seq St.semTimeout) v k ∧
      k.seq = j.seq ∧ jobHalts k = true ∧ jobHaltStat k = St.semTimeout := by
    cases lost
    · refine ⟨_, met, rfl, ?_, ?_⟩
      · simp [jobHalts, condHalts, hc, halts, St.semTimeout]
      · simp [jobHaltStat, condHalts, hc, halts, St.semTimeout, maxOf]
    · refine ⟨_, met.addCond (code := St.tickLost) (by simp [hc]; decide), rfl, ?_, ?_⟩
      · simp [jobHalts, condHalts, hc, halts, St.semTimeout]
      · simp [jobHaltStat, condHalts, hc, halts, St.semTimeout, St.tickLost, St.wgenStale, maxOf]
  have halted := completeJob_haltShown hv told.alone halting (.inr told.shown) told.fenced told.suspended
  rw [stat, seq] at halted
  exact halted

end

theorem execSemTimeout_ends {s : State} {v : Fin 16} {k c n m o : Nat} (hw : (vein s v).wait = some (.sem k c n m o))
    (hn : n ≠ 0) (hm : n ≤ m) : exec (.semTimeout v) s = .next (semSettle (endWait s v St.semTimeout) k) := by
  refine congrArg Host.Outcome.next ?_
  unfold expireWait
  rw [hw]
  exact if_pos ⟨hn, hm⟩

theorem execYieldExpiry_ends {s : State} {v : Fin 16} {n : Nat} (hw : (vein s v).wait = some (.yield n)) :
    exec (.yieldExpiry v) s = .next (endWait s v 0) := by
  have same : exec (.yieldExpiry v) s = execYieldExpiry v s := rfl
  rw [same, execYieldExpiry, hw]

end Sys2Proof.Machine

namespace Sys2Proof.Proofs

open Sys2Proof.Machine

/-- Settles O19: the halt of SEM_TIMEOUT stands while its semaphore serves others, and only fillers move as FILLER_UNBLOCK
lets them go. -/
theorem waitsOfVeinsEnd : Obligations.WaitsOfVeinsEnd := by
  unfold Obligations.WaitsOfVeinsEnd
  refine fun s v => ⟨fun n hw => ⟨_, execYieldExpiry_ends hw, endWait_book v.isLt 0⟩, ?_, ?_, fun h => ?_, ?_⟩
  · intro k c n m o j hw hn hm alone hop hd hc hst hf hs
    have ended : HaltShown (endWait s v St.semTimeout) v St.semTimeout (j.seq % 2 ^ 32) :=
      WaitsIn.timesOut ⟨alone, hst, hf, hs⟩ v.isLt hop hd hc
    obtain ⟨shown, waits⟩ := ended.semSettle v.isLt ((wait_endWait v.isLt _ _).trans (if_pos rfl)) k
    exact ⟨_, execSemTimeout_ends hw hn hm, waits, shown.halted.1, shown.halted.2, shown.by_⟩
  · intro blocked fillers u
    have done : exec .fillerUnblock s = .next (settleFillers u) := if_pos blocked
    have kept : FillersShown u (settleFillers u) :=
      (settleFillers_shown (s := u) fillers (l := List.range 16) fun w hw => List.mem_range.mp hw).1
    refine ⟨_, done, ?_, congrArg TrmSt.blocked kept.trm, fun w hw c waits head may =>
      settleFillers_frees (s := u) fillers hw waits head may⟩
    have opened : Books bookReg s u := trm_book rfl (book_refl s)
    exact book_trans bookReg_covers opened (settleFillers_book u)
  · exact if_neg (by simp [h])
  · intro left some ahead
    exact execBubbleEnd_first some ahead

end Sys2Proof.Proofs

/-! PROOFS. Slipped and missed grid points and takeovers (R161, R232, R245, R246, R254): the registers of the Lodestone a
block follows, the veins that a grid point counts for, and the flood of a TAKEOVER, which touches the links alone. -/

namespace Sys2Proof.Machine

/-! ## What touches the links, or the veins, alone -/

theorem OnlyLinks.rd {s t : State} (h : OnlyLinks s t) (a : Nat) : rd t a = rd s a := by
  obtain ⟨L, rfl⟩ := h
  rfl

theorem OnlyLinks.fld {s t : State} (h : OnlyLinks s t) (a : Nat) (f : Field) : fld t a f = fld s a f := fld_congr (h.rd a)

theorem floodTaketakesonlyLinks (s : State) (from_ : Nat) : OnlyLinks s (floodTakeover s from_) :=
  OnlyLinks.foldl (fun u l => by
    split
    · exact .rfl' u
    · exact sendMsg_onlyLinks ..) _ s

/-- From s to t only the veins have changed. -/
def OnlyVeins (s t : State) : Prop := ∃ V, t = { s with veins := V }

theorem OnlyVeins.foldl {α : Type} {f : State → α → State} (hf : ∀ u x, OnlyVeins u (f u x)) (l : List α) (s : State) :
    OnlyVeins s (l.foldl f s) := by
  induction l generalizing s with
  | nil => exact ⟨s.veins, rfl⟩
  | cons x l ih =>
    obtain ⟨V, e⟩ := hf s x
    obtain ⟨W, k⟩ := ih (f s x)
    exact ⟨W, k.trans (by rw [e])⟩

theorem countWaits_onlyVeins (s : State) (slip : Bool) : OnlyVeins s (countWaits s slip) :=
  OnlyVeins.foldl (fun u v => by
    dsimp only
    split
    · split
      · exact ⟨u.veins, rfl⟩
      · exact ⟨_, rfl⟩
    · exact ⟨u.veins, rfl⟩) _ s

theorem loseTicks_onlyVeins (s : State) : OnlyVeins s (loseTicks s) :=
  OnlyVeins.foldl (fun u v => by
    dsimp only
    split
    · split
      · exact ⟨u.veins, rfl⟩
      · exact ⟨_, rfl⟩
    · exact ⟨_, rfl⟩
    · exact ⟨_, rfl⟩
    · exact ⟨u.veins, rfl⟩) _ s

/-! ## The registers of a block's Lodestone (R235, R252) -/

theorem setCrn_crn (s : State) (f : CairnSt → CairnSt) : (setCrn s f).crn = f s.crn := rfl

theorem setCrn_shows (s : State) (f : CairnSt → CairnSt) : isLode (setCrn s f) = isLode s ∧ lode (setCrn s f) = lode s ∧
    lockSt (setCrn s f) = lockSt s ∧ epochNo (setCrn s f) = epochNo s := ⟨rfl, rfl, rfl, rfl⟩

/-- PX_CRN_STATE with four of its fields written. -/
def stateWritten (s : State) (role : Bool) (l hops up : Nat) : State :=
  setFld (setFld (setFld (setFlag s Reg.crnState Fl.crnState_ROLE role) Reg.crnState Fl.crnState_LODE l)
    Reg.crnState Fl.crnState_HOPS hops) Reg.crnState Fl.crnState_UPLINK up

section
variable {s : State} {a : Nat}

theorem rd_stateWritten (role : Bool) (l hops up : Nat) (h : Reg.crnState ≠ a) :
    rd (stateWritten s role l hops up) a = rd s a := by
  unfold stateWritten setFlag
  rw [rd_setFld_ne _ _ _ h, rd_setFld_ne _ _ _ h, rd_setFld_ne _ _ _ h, rd_setFld_ne _ _ _ h]

theorem stateWritten_crn (s : State) (role : Bool) (l hops up : Nat) : (stateWritten s role l hops up).crn = s.crn := by
  unfold stateWritten setFlag
  rw [setFld_crn, setFld_crn, setFld_crn, setFld_crn]

theorem stateWritten_shows (s : State) (role : Bool) (l hops up : Nat) : isLode (stateWritten s role l hops up) = role ∧
    lode (stateWritten s role l hops up) = l % 2 ^ 10 ∧ lockSt (stateWritten s role l hops up) = lockSt s ∧
    epochNo (stateWritten s role l hops up) = epochNo s := by
  have same (f : Field) (n : Nat) (g : Field) (h : g.lo + g.width ≤ f.lo ∨ f.lo + f.width ≤ g.lo) (hg : g.lo + g.width ≤ 64)
      (u : State) : fld (setFld u Reg.crnState f n) Reg.crnState g = fld u Reg.crnState g := fld_setFld_other _ _ _ _ _ h hg
  unfold stateWritten isLode flag lode lockSt epochNo
  refine ⟨?_, ?_, ?_, ?_⟩
  · rw [same _ _ _ (by decide) (by decide), same _ _ _ (by decide) (by decide), same _ _ _ (by decide) (by decide)]
    exact flag_setFlag_self _ _ _ _ (by decide) (by decide)
  · rw [same _ _ _ (by decide) (by decide), same _ _ _ (by decide) (by decide)]
    exact fld_setFld_self _ _ _ _ (by decide)
  all_goals
    unfold setFlag
    rw [same _ _ _ (by decide) (by decide), same _ _ _ (by decide) (by decide), same _ _ _ (by decide) (by decide),
      same _ _ _ (by decide) (by decide)]

theorem becomeFollower_eq (s : State) (l : Nat) : becomeFollower s l = setCrn (stateWritten s false l 15 7) fun c =>
    { c with xch := none, rate := none, kids := [], tokens := [], closing := none, excluded := [], overdue := [], step := 0 } :=
  rfl

theorem becomeLode_eq (s : State) : becomeLode s = setCrn (setLock (stateWritten s true
      (stratum (setFlag s Reg.crnState Fl.crnState_ROLE true)) 0 7) 2) fun c =>
    { c with nbrs := [], xch := none, slew := 0, closing := none, tree := 0 } := rfl

theorem rd_setLock (k : Nat) (h : Reg.crnState ≠ a) : rd (setLock s k) a = rd s a := by
  unfold setLock
  rw [rd_setCrn, rd_setFld_ne _ _ _ h]

theorem setLock_crn (s : State) (k : Nat) : (setLock s k).crn = { s.crn with good := 0, bad := 0 } := by
  unfold setLock setCrn
  rw [setFld_crn]

theorem setLock_shows (s : State) (k : Nat) : isLode (setLock s k) = isLode s ∧ lode (setLock s k) = lode s ∧
    lockSt (setLock s k) = k % 2 ^ 2 ∧ epochNo (setLock s k) = epochNo s := by
  unfold setLock isLode flag lode lockSt epochNo
  rw [fld_setCrn, fld_setCrn, fld_setCrn, fld_setCrn, fld_setFld_other _ _ _ _ _ (by decide) (by decide),
    fld_setFld_other _ _ _ _ _ (by decide) (by decide), fld_setFld_self _ _ _ _ (by decide),
    fld_setFld_other _ _ _ _ _ (by decide) (by decide)]
  exact ⟨rfl, rfl, rfl, rfl⟩

theorem rd_becomeLode (h : Reg.crnState ≠ a) : rd (becomeLode s) a = rd s a := by
  rw [becomeLode_eq, rd_setCrn, rd_setLock _ h, rd_stateWritten _ _ _ _ h]

theorem becomeLode_time (s : State) : (becomeLode s).crn.time = s.crn.time := by
  rw [becomeLode_eq, setCrn_crn, setLock_crn, stateWritten_crn]

theorem becomeLode_shows (s : State) : isLode (becomeLode s) = true ∧ lode (becomeLode s) = stratum s ∧
    lockSt (becomeLode s) = 2 ∧ epochNo (becomeLode s) = epochNo s := by
  have own : stratum (setFlag s Reg.crnState Fl.crnState_ROLE true) = stratum s :=
    fld_congr (rd_setFld_ne _ _ _ (by decide))
  have small : stratum s % 2 ^ 10 = stratum s := Nat.mod_eq_of_lt (fld_lt ..)
  rw [becomeLode_eq, own]
  obtain ⟨role, lode, -, epoch⟩ := stateWritten_shows s true (stratum s) 0 7
  obtain ⟨role', lode', lock', epoch'⟩ := setLock_shows (stateWritten s true (stratum s) 0 7) 2
  obtain ⟨role'', lode'', lock'', epoch''⟩ := setCrn_shows (setLock (stateWritten s true (stratum s) 0 7) 2) fun c =>
    { c with nbrs := [], xch := none, slew := 0, closing := none, tree := 0 }
  exact ⟨role''.trans (role'.trans role), lode''.trans (lode'.trans (lode.trans small)), lock''.trans lock',
    epoch''.trans (epoch'.trans epoch)⟩

end

/-! ## A block follows another Lodestone (R235, R245, R246) -/

/-- t is s as a follower of a Lodestone: its time, epoch and frame stand, and so does its count of takeovers. -/
structure Follows (l : Nat) (s t : State) : Prop where
  role      : isLode t = false
  lode      : lode t = l % 2 ^ 10
  lock      : isLode s = false → lockSt t = lockSt s
  time      : t.crn.time = s.crn.time
  epoch     : epochNo t = epochNo s
  frame     : frameNo t = frameNo s
  takeovers : fld t Reg.crnCnt Fl.crnCnt_TAKEOVERS = fld s Reg.crnCnt Fl.crnCnt_TAKEOVERS

namespace Follows
variable {s t : State} {l : Nat} (h : Follows l s t)
include h

theorem setCrn {f : CairnSt → CairnSt} (hf : (f t.crn).time = t.crn.time) : Follows l s (setCrn t f) :=
  ⟨h.role, h.lode, h.lock, hf.trans h.time, h.epoch, h.frame, h.takeovers⟩

/-- What writes neither PX_CRN_STATE, the frame, the count nor time. -/
theorem congr {u : State} (crn : u.crn.time = t.crn.time) (state : rd u Reg.crnState = rd t Reg.crnState)
    (frame : rd u Reg.crnFrame = rd t Reg.crnFrame) (cnt : rd u Reg.crnCnt = rd t Reg.crnCnt) : Follows l s u :=
  ⟨(congrArg (· != 0) (fld_congr state)).trans h.role, (fld_congr state).trans h.lode,
    fun k => (fld_congr state).trans (h.lock k), crn.trans h.time, (fld_congr state).trans h.epoch,
    (fld_congr frame).trans h.frame, (fld_congr cnt).trans h.takeovers⟩

theorem setLock (was : isLode s = true) (k : Nat) : Follows l s (setLock t k) := by
  obtain ⟨role, lode, -, epoch⟩ := setLock_shows t k
  have same {a : Nat} (h : Reg.crnState ≠ a) := rd_setLock (s := t) k h
  have time : (Machine.setLock t k).crn.time = t.crn.time := by rw [setLock_crn]
  exact ⟨role.trans h.role, lode.trans h.lode, fun k => absurd (was.symm.trans k) (by decide), time.trans h.time,
    epoch.trans h.epoch, (fld_congr (same (by decide))).trans h.frame, (fld_congr (same (by decide))).trans h.takeovers⟩

end Follows

theorem becomeFollower_follows (s : State) (l : Nat) : Follows l s (becomeFollower s l) := by
  rw [becomeFollower_eq]
  obtain ⟨role, lode, lock, epoch⟩ := stateWritten_shows s false l 15 7
  have same {a : Nat} (h : Reg.crnState ≠ a) := rd_stateWritten (s := s) false l 15 7 h
  have time : (stateWritten s false l 15 7).crn.time = s.crn.time := by rw [stateWritten_crn]
  generalize stateWritten s false l 15 7 = u at *
  have written : Follows l s u :=
    ⟨role, lode, fun _ => lock, time, epoch, fld_congr (same (by decide)), fld_congr (same (by decide))⟩
  exact written.setCrn rfl

/-- A block that joins the other side of a partition: SPLIT and ATN_ERR are shown, and it joins at its next tick. -/
theorem joinSplit_shows (s : State) (inj : Bool) : (joinSplit s inj).crn = { s.crn with splitAt := true } ∧
    flag (joinSplit s inj) Reg.crnStat Fl.crnStat_SPLIT = true ∧ flag (joinSplit s inj) Reg.errAtn Fl.errAtn_ERR = true ∧
    ∀ a, OffRecord a → Reg.errCnt ≠ a → Reg.errSummary ≠ a → Reg.errAtn ≠ a → Reg.crnStat ≠ a →
      rd (joinSplit s inj) a = rd s a := by
  unfold joinSplit
  extract_lets split src recorded
  have hsplit : split.crn = s.crn ∧ flag split Reg.crnStat Fl.crnStat_SPLIT = true ∧
      ∀ a, Reg.crnStat ≠ a → rd split a = rd s a :=
    ⟨setFlag_crn .., flag_setFlag_self _ _ _ _ (by decide) (by decide), fun a ha => rd_setFld_ne _ _ _ ha⟩
  obtain ⟨crn, shown, same⟩ := hsplit
  clear_value split
  obtain ⟨-, atn, kept, regs⟩ := recordErr_sevFrame_shows (s := split)
    (r := { ErrRec.ofDet 2 0x17 with inj := inj }) rfl
  have hrec : recorded = recordErr split { ErrRec.ofDet 2 0x17 with inj := inj } := rfl
  rw [← hrec] at atn kept regs
  clear_value recorded
  have off : OffRecord Reg.crnStat := ⟨fun i => by unfold Reg.errLast Reg.crnStat; omega, by decide⟩
  refine ⟨?_, ?_, atn, fun a log cnt sum atn stat => (regs a log cnt sum atn).trans (same a stat)⟩
  · show { recorded.crn with splitAt := true } = _
    rw [kept, crn]
  · have stat := regs _ off (by decide) (by decide) (by decide)
    exact (congrArg (· != 0) (fld_congr stat)).trans shown

theorem Follows.joinSplit {s t : State} {l : Nat} (h : Follows l s t) (inj : Bool) : Follows l s (joinSplit t inj) := by
  obtain ⟨crn, -, -, same⟩ := joinSplit_shows t inj
  have off (a : Nat) (lo : 0x50000 ≤ a) (hi : a < 0x60000) : OffRecord a :=
    ⟨fun i => by unfold Reg.errLast; omega, by unfold Reg.errRingPtr; omega⟩
  have kept (a : Nat) (lo : 0x50000 ≤ a) (hi : a < 0x60000) (ne : Reg.crnStat ≠ a) :
      rd (Machine.joinSplit t inj) a = rd t a :=
    same a (off a lo hi) (by unfold Reg.errCnt; omega) (by unfold Reg.errSummary; omega) (by unfold Reg.errAtn; omega) ne
  exact h.congr (by rw [crn]) (kept _ (by decide) (by decide) (by decide)) (kept _ (by decide) (by decide) (by decide))
    (kept _ (by decide) (by decide) (by decide))

/-- A follower of the new Lodestone, for which no tick is announced. -/
def newFollower (s : State) (l : Nat) : State :=
  setCrn (becomeFollower s l) fun c => { c with tick := none, heard := false, decided := false }

theorem newFollower_follows (s : State) (l : Nat) : Follows l s (newFollower s l) :=
  (becomeFollower_follows s l).setCrn rfl

theorem newFollower_opened (s : State) (l : Nat) : (newFollower s l).crn.opened = s.crn.opened := by
  unfold newFollower
  rw [becomeFollower_eq]
  have crn := stateWritten_crn s false l 15 7
  generalize stateWritten s false l 15 7 = u at *
  rw [setCrn_crn, setCrn_crn]
  exact (congrArg CairnSt.opened crn :)

/-- The losing side of a partition, in an open frame. -/
def losesSplit (s : State) : State :=
  joinSplit (setCrn s fun c => { c with splitStep := true, missed := 0, lastG := none }) false

theorem losesSplit_crn (s : State) : (losesSplit s).crn =
    { s.crn with splitStep := true, missed := 0, lastG := none, splitAt := true } := (joinSplit_shows _ false).1

theorem adoptLode_eq (s : State) (l : Nat) : adoptLode s l = if s.crn.opened then losesSplit (newFollower s l)
    else if isLode s then setLock (newFollower s l) 0 else newFollower s l := by
  rw [← newFollower_opened s l]
  rfl

theorem adoptLode_follows (s : State) (l : Nat) : Follows l s (adoptLode s l) := by
  rw [adoptLode_eq]
  have base := newFollower_follows s l
  split
  · exact (base.setCrn rfl).joinSplit false
  · split
    next was => exact base.setLock was 0
    next => exact base

theorem adoptLode_tick (s : State) (l : Nat) : (adoptLode s l).crn.tick = none := by
  have base : (newFollower s l).crn.tick = none := rfl
  rw [adoptLode_eq]
  split
  · rw [losesSplit_crn]
    exact base
  · split
    · rw [setLock_crn]
      exact base
    · exact base

theorem adoptLode_splits {s : State} (h : s.crn.opened = true) (l : Nat) : (adoptLode s l).crn.splitAt = true ∧
    (adoptLode s l).crn.splitStep = true ∧ flag (adoptLode s l) Reg.crnStat Fl.crnStat_SPLIT = true ∧
    flag (adoptLode s l) Reg.errAtn Fl.errAtn_ERR = true := by
  rw [adoptLode_eq, if_pos h]
  have crn := losesSplit_crn (newFollower s l)
  obtain ⟨-, split, err, -⟩ := joinSplit_shows
    (setCrn (newFollower s l) fun c => { c with splitStep := true, missed := 0, lastG := none }) false
  exact ⟨by rw [crn], by rw [crn], split, err⟩

/-! ## TAKEOVER (R245, R246) -/

/-- A former Lodestone is FREE. -/
def freedLode (s u : State) : State := if isLode s then setLock u 0 else u

section
variable {s u : State}

theorem freedLode_crn (s u : State) : ∃ g b, (freedLode s u).crn = { u.crn with good := g, bad := b } := by
  unfold freedLode
  split
  · exact ⟨_, _, setLock_crn u 0⟩
  · exact ⟨_, _, rfl⟩

theorem rd_freedLode {a : Nat} (h : Reg.crnState ≠ a) : rd (freedLode s u) a = rd u a := by
  unfold freedLode
  split
  · exact rd_setLock 0 h
  · rfl

theorem lockSt_freedLode (h : isLode s = false → lockSt u = lockSt s) :
    lockSt (freedLode s u) = if isLode s then 0 else lockSt s := by
  unfold freedLode
  split
  · exact (setLock_shows u 0).2.2.1
  next was => exact h (Bool.eq_false_iff.mpr was)

theorem Follows.freedLode {m : Nat} (h : Follows m s u) : Follows m s (freedLode s u) := by
  unfold Machine.freedLode
  split
  next was => exact h.setLock was 0
  next => exact h

end

/-- The block follows the Lodestone of a TAKEOVER, before it counts and floods it. -/
def takenOver (s : State) (m : Nat) : State :=
  setCrn (freedLode s (if s.crn.missed = 0 then adoptLode s m else becomeFollower s m)) fun c => { c with missed := 0 }

section
variable {s : State} {m : Nat}

theorem takenOver_follows : Follows m s (takenOver s m) ∧
    lockSt (takenOver s m) = if isLode s then 0 else lockSt s := by
  have follows : Follows m s (if s.crn.missed = 0 then adoptLode s m else becomeFollower s m) := by
    split
    · exact adoptLode_follows s m
    · exact becomeFollower_follows s m
  unfold takenOver
  generalize (if s.crn.missed = 0 then adoptLode s m else becomeFollower s m) = u at *
  exact ⟨follows.freedLode.setCrn rfl, lockSt_freedLode follows.lock⟩

/-- Two Lodestones meet: the tick of the old one is off, and an open frame is a partition's losing side. -/
theorem takenOver_meets (h : s.crn.missed = 0) : (takenOver s m).crn.tick = none ∧ (s.crn.opened = true →
    (takenOver s m).crn.splitAt = true ∧ (takenOver s m).crn.splitStep = true ∧
    flag (takenOver s m) Reg.crnStat Fl.crnStat_SPLIT = true ∧ flag (takenOver s m) Reg.errAtn Fl.errAtn_ERR = true) := by
  unfold takenOver
  rw [if_pos h, setCrn_crn]
  have tick := adoptLode_tick s m
  have splits (opened : s.crn.opened = true) := adoptLode_splits opened m
  generalize adoptLode s m = u at *
  obtain ⟨g, b, crn⟩ := freedLode_crn s u
  have stat : rd (freedLode s u) Reg.crnStat = rd u Reg.crnStat := rd_freedLode (by decide)
  have atn : rd (freedLode s u) Reg.errAtn = rd u Reg.errAtn := rd_freedLode (by decide)
  generalize freedLode s u = w at *
  rw [crn]
  refine ⟨tick, fun opened => ?_⟩
  obtain ⟨at_, step, split, err⟩ := splits opened
  exact ⟨at_, step, (congrArg (· != 0) (fld_congr stat)).trans split, (congrArg (· != 0) (fld_congr atn)).trans err⟩

end

section
variable {s : State} {l : Fin 6} {src m epoch frame : Nat} (ha : linkActive s l = true) (hc : carries s l 0 = true)
  (live : crnLive s = true)
include ha hc live

/-- The state in which a TAKEOVER is read: its message is gone from the receive buffer. -/
theorem execTaketakesdrained : ∃ L, drainMsg s l.val 0 (msgType 6) = { s with links := L } ∧
    ∀ u : State, u = { s with links := L } → exec (.takeover l src m epoch frame) s = .next (
      if m % 1024 = lode u then
        if !isLode u && serialCmp epoch (epochNo u) 16 == 2 then
          floodTakeover (setFld u Reg.crnState Fl.crnState_EPOCH epoch) l.val
        else u
      else if !(m % 1024 < lode u || u.crn.missed > 0) then u
      else floodTakeover (incFld (takenOver u (m % 1024)) Reg.crnCnt Fl.crnCnt_TAKEOVERS 1) l.val) := by
  obtain ⟨L, e⟩ := drainMsg_onlyLinks s l.val 0 (msgType 6)
  refine ⟨L, e, fun u hu => congrArg Host.Outcome.next ?_⟩
  rw [onLink_passes ha hc, e, ← hu]
  have alive : crnLive u = true := hu ▸ live
  rw [alive]
  rfl

theorem execTaketakesown (h : m % 1024 = lode s) (own : isLode s = true ∨ serialCmp epoch (epochNo s) 16 ≠ 2) :
    exec (.takeover l src m epoch frame) s = .next (drainMsg s l.val 0 (msgType 6)) := by
  obtain ⟨L, e, run⟩ := execTaketakesdrained ha hc live (src := src) (m := m) (epoch := epoch) (frame := frame)
  obtain ⟨u, hu⟩ : ∃ u : State, u = { s with links := L } := ⟨_, rfl⟩
  have facts : lode u = lode s ∧ isLode u = isLode s ∧ epochNo u = epochNo s := by
    rw [hu]
    exact ⟨rfl, rfl, rfl⟩
  obtain ⟨lode, role, epoch⟩ := facts
  rw [run u hu, e, ← hu, lode, role, epoch, if_pos h, if_neg]
  rcases own with own | own <;> simp [own]

/-- One of the block's own Lodestone brings a later epoch, and goes on. -/
theorem execTaketakesepoch (h : m % 1024 = lode s) (role : isLode s = false) (later : serialCmp epoch (epochNo s) 16 = 2) :
    ∃ t, exec (.takeover l src m epoch frame) s = .next t ∧ epochNo t = epoch % 2 ^ 16 ∧ t.crn = s.crn ∧
      ∀ a, a ≠ Reg.crnState → rd t a = rd s a := by
  obtain ⟨L, -, run⟩ := execTaketakesdrained ha hc live (src := src) (m := m) (epoch := epoch) (frame := frame)
  obtain ⟨u, hu⟩ : ∃ u : State, u = { s with links := L } := ⟨_, rfl⟩
  have facts : lode u = lode s ∧ isLode u = false ∧ epochNo u = epochNo s ∧ u.crn = s.crn ∧ ∀ a, rd u a = rd s a := by
    rw [hu]
    exact ⟨rfl, role, rfl, rfl, fun _ => rfl⟩
  obtain ⟨same, follower, now, crn, regs⟩ := facts
  have goes := run u hu
  rw [if_pos (h.trans same.symm), if_pos (by rw [follower, now, later]; rfl)] at goes
  have flood := floodTaketakesonlyLinks (setFld u Reg.crnState Fl.crnState_EPOCH epoch) l.val
  refine ⟨_, goes, (flood.fld ..).trans (fld_setFld_self _ _ _ _ (by decide)), ?_, fun a ne => ?_⟩
  · rw [flood.crn, setFld_crn, crn]
  · rw [flood.rd, rd_setFld_ne _ _ _ (Ne.symm ne), regs]

/-- One of a better Lodestone, or of any while grid points are missed, is adopted, counted, and goes on. -/
theorem execTaketakesadopts (ne : m % 1024 ≠ lode s) (better : m % 1024 < lode s ∨ 0 < s.crn.missed) : ∃ L t,
    exec (.takeover l src m epoch frame) s = .next t ∧
    OnlyLinks (incFld (takenOver { s with links := L } (m % 1024)) Reg.crnCnt Fl.crnCnt_TAKEOVERS 1) t := by
  obtain ⟨L, -, run⟩ := execTaketakesdrained ha hc live (src := src) (m := m) (epoch := epoch) (frame := frame)
  obtain ⟨u, hu⟩ : ∃ u : State, u = { s with links := L } := ⟨_, rfl⟩
  have facts : lode u = lode s ∧ u.crn = s.crn := by
    rw [hu]
    exact ⟨rfl, rfl⟩
  have goes := run u hu
  rw [facts.1, facts.2, if_neg ne, if_neg (by simp; omega)] at goes
  refine ⟨L, _, goes, ?_⟩
  rw [← hu]
  exact floodTaketakesonlyLinks ..

end

theorem fld_incFld_self (s : State) (a : Nat) (f : Field) (n : Nat) (h : f.lo + f.width ≤ 64) :
    fld (incFld s a f n) a f = (fld s a f + n) % 2 ^ f.width := fld_setFld_self _ _ _ _ h

/-- An adopted TAKEOVER is counted. -/
theorem takenOver_counted {s t : State} {m : Nat} (h : OnlyLinks (incFld (takenOver s m) Reg.crnCnt Fl.crnCnt_TAKEOVERS 1) t) :
    t.crn = (takenOver s m).crn ∧ (∀ a, Reg.crnCnt ≠ a → rd t a = rd (takenOver s m) a) ∧
      fld t Reg.crnCnt Fl.crnCnt_TAKEOVERS = (fld s Reg.crnCnt Fl.crnCnt_TAKEOVERS + 1) % 2 ^ 16 := by
  have follows := (takenOver_follows (s := s) (m := m)).1
  generalize takenOver s m = u at *
  refine ⟨by rw [h.crn, incFld_crn], fun a ne => ?_, ?_⟩
  · rw [h.rd]
    exact rd_setFld_ne _ _ _ ne
  · rw [h.fld, fld_incFld_self _ _ _ _ (by decide), follows.takeovers]
    rfl

/-! ## Grid points that slip or pass unheard (R161, R237, R245, R254) -/

section
variable {s : State}

theorem gridNext_passGrid (s : State) : gridNext (passGrid s) = (gridNext s + periodTs s) % 2 ^ 64 :=
  fld_setFld_self _ _ _ _ (by decide)

theorem rd_passGrid {a : Nat} (h : Reg.crnGrid ≠ a) : rd (passGrid s) a = rd s a := by
  unfold passGrid
  rw [rd_setCrn, rd_setFld_ne _ _ _ h]

/-- What a grid point leaves of Cairn beside its registers. -/
theorem passGrid_crn (s : State) : ∃ o n d, (passGrid s).crn =
    { s.crn with heard := false, decided := false, owed := o, short := n, overdue := d } := by
  unfold passGrid
  rw [setCrn_crn, setFld_crn]
  exact ⟨_, _, _, rfl⟩

theorem passGrid_trm (s : State) : (passGrid s).trm = s.trm := by
  unfold passGrid
  rw [setCrn_trm, setFld_trm]

theorem passGrid_su (s : State) : (passGrid s).su = s.su := by
  unfold passGrid
  rw [setCrn_su, setFld_su]

/-- The budget of one more period. -/
def slipBudget (s : State) : State :=
  let ns := fld s Reg.crnPeriod Fl.crnPeriod_NS
  { s with trm := { s.trm with budget := s.trm.budget + effCap s * ns / 8, horizon := s.trm.horizon + ns * frameF s / 40 } }

/-- A follower counts the slip. -/
def slipCounted (s : State) : State := if isLode s then s else incFld s Reg.crnCnt Fl.crnCnt_SLIPS 1

theorem execGridSlip_opened (anchored : s.crn.anchored = true) (opened : s.crn.opened = true) (heard : s.crn.heard = true)
    (tick : s.crn.tick = none) (pol : policy s = 0) :
    exec .gridSlip s = .next (showQ (countWaits (slipBudget (passGrid (slipCounted s))) true)) := by
  refine congrArg Host.Outcome.next ((if_neg ?_).trans (if_neg ?_))
  · simp [anchored, heard, tick, pol]
  · simp [opened]

theorem slipCounted_shows (s : State) : (slipCounted s).crn = s.crn ∧ (slipCounted s).trm = s.trm ∧
    (∀ a, Reg.crnCnt ≠ a → rd (slipCounted s) a = rd s a) ∧
    fld (slipCounted s) Reg.crnCnt Fl.crnCnt_SLIPS =
      (fld s Reg.crnCnt Fl.crnCnt_SLIPS + if isLode s then 0 else 1) % 2 ^ 16 := by
  unfold slipCounted
  cases isLode s
  · exact ⟨incFld_crn .., incFld_trm .., fun a ne => rd_setFld_ne _ _ _ ne, fld_incFld_self _ _ _ _ (by decide)⟩
  · exact ⟨rfl, rfl, fun _ _ => rfl, (Nat.mod_eq_of_lt (fld_lt ..)).symm⟩

/-- The end of a slip: the veins count it and Q is shown. -/
theorem slipShown_rest (s : State) : (showQ (countWaits s true)).crn = s.crn ∧
    (showQ (countWaits s true)).trm = s.trm ∧ ∀ a, Reg.trmBudget ≠ a → rd (showQ (countWaits s true)) a = rd s a := by
  obtain ⟨V, e⟩ := countWaits_onlyVeins s true
  unfold showQ
  rw [e]
  refine ⟨?_, ?_, fun a ne => ?_⟩
  · rw [setFld_crn, setFld_crn]
  · rw [setFld_trm, setFld_trm]
  · rw [rd_setFld_ne _ _ _ ne, rd_setFld_ne _ _ _ ne]
    rfl

/-- What a slip leaves. -/
theorem slipped_shows (s : State) : ∃ t, t = showQ (countWaits (slipBudget (passGrid (slipCounted s))) true) ∧
    gridNext t = (gridNext s + periodTs s) % 2 ^ 64 ∧ frameNo t = frameNo s ∧ t.crn.opened = s.crn.opened ∧
    t.crn.heard = false ∧ t.crn.decided = false ∧
    t.trm.budget = s.trm.budget + effCap s * fld s Reg.crnPeriod Fl.crnPeriod_NS / 8 ∧
    fld t Reg.crnCnt Fl.crnCnt_SLIPS = (fld s Reg.crnCnt Fl.crnCnt_SLIPS + if isLode s then 0 else 1) % 2 ^ 16 := by
  obtain ⟨crn, trm, regs, slips⟩ := slipCounted_shows s
  generalize slipCounted s = u at *
  have next := gridNext_passGrid u
  have passed {a : Nat} (h : Reg.crnGrid ≠ a) : rd (passGrid u) a = rd u a := rd_passGrid h
  have energy := passGrid_trm u
  obtain ⟨o, n, d, cairn⟩ := passGrid_crn u
  generalize passGrid u = w at *
  obtain ⟨crn', trm', regs'⟩ := slipShown_rest (slipBudget w)
  generalize showQ (countWaits (slipBudget w) true) = t at *
  have off {a : Nat} (budget : Reg.trmBudget ≠ a) (grid : Reg.crnGrid ≠ a) (cnt : Reg.crnCnt ≠ a) (f : Field) :
      fld t a f = fld s a f := fld_congr ((regs' a budget).trans ((passed grid).trans (regs a cnt)))
  have kept : t.crn = w.crn := crn'
  have budget : t.trm.budget = w.trm.budget + effCap w * fld w Reg.crnPeriod Fl.crnPeriod_NS / 8 :=
    congrArg TrmSt.budget trm'
  have cap : effCap w = effCap s := fld_congr ((passed (by decide)).trans (regs _ (by decide)))
  have period : fld w Reg.crnPeriod Fl.crnPeriod_NS = fld s Reg.crnPeriod Fl.crnPeriod_NS :=
    fld_congr ((passed (by decide)).trans (regs _ (by decide)))
  refine ⟨t, rfl, ?_, off (by decide) (by decide) (by decide) _, ?_, ?_, ?_, ?_, ?_⟩
  · have grid : gridNext t = gridNext w := fld_congr (regs' _ (by decide))
    have from_ : gridNext u = gridNext s := fld_congr (regs _ (by decide))
    have span : periodTs u = periodTs s := congrArg (16 * ·) (fld_congr (regs _ (by decide)))
    rw [grid, next, from_, span]
  · rw [kept, cairn, crn]
  · rw [kept, cairn]
  · rw [kept, cairn]
  · rw [budget, cap, period, energy, trm]
  · rw [← slips]
    exact fld_congr ((regs' _ (by decide)).trans (passed (by decide)))

/-! ### A missed grid point -/

/-- A follower that heard nothing for a grid point. -/
def missCounted (s : State) : State := loseTicks (setCrn (passGrid s) fun c => { c with missed := c.missed + 1 })

/-- A takeover is counted, and no grid point is missed. -/
def countTakeover (s : State) : State := incFld (setCrn s fun c => { c with missed := 0 }) Reg.crnCnt Fl.crnCnt_TAKEOVERS 1

/-- A successor's time has come. -/
def succeeds (s : State) : State := countTakeover (becomeLode s)

theorem successorNo_congr {t : State} (h : ∀ a, Reg.crnGrid ≠ a → rd t a = rd s a) : successorNo t = successorNo s := by
  have cands : candidates t = candidates s := by
    have cand (n : Nat) : rd t (Reg.crnCand n) = rd s (Reg.crnCand n) := h _ (by unfold Reg.crnGrid Reg.crnCand; omega)
    simp only [candidates, cand]
  have lode : lode t = lode s := fld_congr (h _ (by decide))
  have own : stratum t = stratum s := fld_congr (h _ (by decide))
  unfold successorNo
  rw [cands, lode, own]

theorem missCounted_shows (s : State) : (∃ o n d, (missCounted s).crn =
      { s.crn with heard := false, decided := false, owed := o, short := n, overdue := d, missed := s.crn.missed + 1 }) ∧
    (missCounted s).su = s.su ∧ gridNext (missCounted s) = (gridNext s + periodTs s) % 2 ^ 64 ∧
    ∀ a, Reg.crnGrid ≠ a → rd (missCounted s) a = rd s a := by
  have next := gridNext_passGrid s
  have passed {a : Nat} (h : Reg.crnGrid ≠ a) : rd (passGrid s) a = rd s a := rd_passGrid h
  obtain ⟨o, n, d, crn⟩ := passGrid_crn s
  have su := passGrid_su s
  unfold missCounted
  generalize passGrid s = u at *
  obtain ⟨V, e⟩ := loseTicks_onlyVeins (setCrn u fun c => { c with missed := c.missed + 1 })
  rw [e]
  refine ⟨⟨o, n, d, ?_⟩, su, next, fun a h => passed h⟩
  show { u.crn with missed := u.crn.missed + 1 } = _
  rw [crn]

theorem execGridMiss_counts (live : crnLive s = true) (anchored : s.crn.anchored = true) (unheard : s.crn.heard = false)
    (tick : s.crn.tick = none) : execGridMiss s = .next (if isLode (passGrid s) then passGrid s else
      if successorNo (missCounted s) ≠ 0 && (missCounted s).crn.missed ≥ 3 * successorNo (missCounted s) &&
        (missCounted s).su != .fatal then floodTakeover (succeeds (missCounted s)) 6 else missCounted s) := by
  unfold execGridMiss
  rw [if_neg (by simp [live, anchored, unheard, tick])]
  unfold missCounted succeeds countTakeover
  rfl

theorem execGridMiss_eq (live : crnLive s = true) (anchored : s.crn.anchored = true) (unheard : s.crn.heard = false)
    (tick : s.crn.tick = none) : exec .gridMiss s = .next (if isLode s then passGrid s else
      if successorNo s ≠ 0 && s.crn.missed + 1 ≥ 3 * successorNo s && s.su != .fatal
      then floodTakeover (succeeds (missCounted s)) 6 else missCounted s) := by
  have role : isLode (passGrid s) = isLode s := congrArg (· != 0) (fld_congr (rd_passGrid (by decide)))
  obtain ⟨⟨o, n, d, crn⟩, su, -, regs⟩ := missCounted_shows s
  have missed : (missCounted s).crn.missed = s.crn.missed + 1 := by rw [crn]
  have goes : exec .gridMiss s = _ := execGridMiss_counts live anchored unheard tick
  rw [goes, role, successorNo_congr regs, missed, su]

theorem countTaketakesshows (s : State) : (countTakeover s).crn = { s.crn with missed := 0 } ∧
    fld (countTakeover s) Reg.crnCnt Fl.crnCnt_TAKEOVERS = (fld s Reg.crnCnt Fl.crnCnt_TAKEOVERS + 1) % 2 ^ 16 ∧
    ∀ a, Reg.crnCnt ≠ a → rd (countTakeover s) a = rd s a := by
  unfold countTakeover
  refine ⟨?_, ?_, fun a h => ?_⟩
  · rw [incFld_crn, setCrn_crn]
  · rw [fld_incFld_self _ _ _ _ (by decide), fld_setCrn]
    rfl
  · exact (rd_setFld_ne _ _ _ h).trans (rd_setCrn ..)

theorem succeeds_shows (u : State) : isLode (succeeds u) = true ∧ lode (succeeds u) = stratum u ∧ lockSt (succeeds u) = 2 ∧
    epochNo (succeeds u) = epochNo u ∧ (succeeds u).crn.missed = 0 ∧ (succeeds u).crn.time = u.crn.time ∧
    fld (succeeds u) Reg.crnCnt Fl.crnCnt_TAKEOVERS = (fld u Reg.crnCnt Fl.crnCnt_TAKEOVERS + 1) % 2 ^ 16 ∧
    ∀ a, Reg.crnState ≠ a → Reg.crnCnt ≠ a → rd (succeeds u) a = rd u a := by
  obtain ⟨role, lode, lock, epoch⟩ := becomeLode_shows u
  obtain ⟨crn, cnt, same⟩ := countTaketakesshows (becomeLode u)
  have state : rd (succeeds u) Reg.crnState = rd (becomeLode u) Reg.crnState := same _ (by decide)
  have kept : fld (becomeLode u) Reg.crnCnt Fl.crnCnt_TAKEOVERS = fld u Reg.crnCnt Fl.crnCnt_TAKEOVERS :=
    fld_congr (rd_becomeLode (by decide))
  refine ⟨(congrArg (· != 0) (fld_congr state)).trans role, (fld_congr state).trans lode, (fld_congr state).trans lock,
    (fld_congr state).trans epoch, congrArg CairnSt.missed crn, (congrArg CairnSt.time crn).trans (becomeLode_time u), ?_,
    fun a hs hc => (same a hc).trans (rd_becomeLode hs)⟩
  rw [← kept]
  exact cnt

end

/-- A follower that missed a grid point and goes on as it is. -/
theorem missCounted_follows (s : State) : gridNext (missCounted s) = (gridNext s + periodTs s) % 2 ^ 64 ∧
    (missCounted s).crn.time = s.crn.time ∧ frameNo (missCounted s) = frameNo s ∧ epochNo (missCounted s) = epochNo s ∧
    isLode (missCounted s) = isLode s ∧ (missCounted s).crn.missed = s.crn.missed + 1 := by
  obtain ⟨⟨o, n, d, crn⟩, -, next, regs⟩ := missCounted_shows s
  refine ⟨next, by rw [crn], fld_congr (regs _ (by decide)), fld_congr (regs _ (by decide)),
    congrArg (· != 0) (fld_congr (regs _ (by decide))), by rw [crn]⟩

/-- A successor that takes over keeps its time, epoch and frame, and counts it. -/
theorem floodTaketakessucceeds {s t : State} (h : OnlyLinks (succeeds (missCounted s)) t) :
    gridNext t = (gridNext s + periodTs s) % 2 ^ 64 ∧ t.crn.time = s.crn.time ∧ frameNo t = frameNo s ∧
    epochNo t = epochNo s ∧ isLode t = true ∧ lode t = stratum s ∧ lockSt t = 2 ∧ t.crn.missed = 0 ∧
    fld t Reg.crnCnt Fl.crnCnt_TAKEOVERS = (fld s Reg.crnCnt Fl.crnCnt_TAKEOVERS + 1) % 2 ^ 16 := by
  obtain ⟨-, -, -, regs⟩ := missCounted_shows s
  obtain ⟨next, time, frame, epoch, -, -⟩ := missCounted_follows s
  have own : stratum (missCounted s) = stratum s := fld_congr (regs _ (by decide))
  have cnt : fld (missCounted s) Reg.crnCnt Fl.crnCnt_TAKEOVERS = fld s Reg.crnCnt Fl.crnCnt_TAKEOVERS :=
    fld_congr (regs _ (by decide))
  obtain ⟨role, lode, lock, epoch', missed, time', taken, same⟩ := succeeds_shows (missCounted s)
  refine ⟨?_, ?_, ?_, ?_, ?_, ?_, ?_, ?_, ?_⟩
  · exact (fld_congr ((h.rd _).trans (same _ (by decide) (by decide)))).trans next
  · rw [h.crn, time', time]
  · exact (fld_congr ((h.rd _).trans (same _ (by decide) (by decide)))).trans frame
  · exact (h.fld ..).trans (epoch'.trans epoch)
  · exact (congrArg (· != 0) (h.fld ..)).trans role
  · exact (h.fld ..).trans (lode.trans own)
  · exact (h.fld ..).trans lock
  · rw [h.crn, missed]
  · rw [h.fld, taken, cnt]

/-- What a block shows once it has adopted the Lodestone of a TAKEOVER. -/
theorem execTaketakesshows {s : State} {l : Fin 6} {src m epoch frame : Nat} (ha : linkActive s l = true)
    (hc : carries s l 0 = true) (live : crnLive s = true) (ne : m % 1024 ≠ lode s)
    (better : m % 1024 < lode s ∨ 0 < s.crn.missed) :
    ∃ t, exec (.takeover l src m epoch frame) s = .next t ∧ lode t = m % 1024 ∧ isLode t = false ∧
      t.crn.missed = 0 ∧ t.crn.time = s.crn.time ∧ epochNo t = epochNo s ∧ frameNo t = frameNo s ∧
      lockSt t = (if isLode s then 0 else lockSt s) ∧ (s.crn.missed = 0 → t.crn.tick = none) ∧
      (s.crn.missed = 0 → s.crn.opened = true → t.crn.splitAt = true ∧ t.crn.splitStep = true ∧
        flag t Reg.crnStat Fl.crnStat_SPLIT = true ∧ flag t Reg.errAtn Fl.errAtn_ERR = true) ∧
      fld t Reg.crnCnt Fl.crnCnt_TAKEOVERS = (fld s Reg.crnCnt Fl.crnCnt_TAKEOVERS + 1) % 2 ^ 16 := by
  obtain ⟨L, t, goes, links⟩ := execTaketakesadopts ha hc live (src := src) (epoch := epoch) (frame := frame) ne better
  obtain ⟨crn, regs, counted⟩ := takenOver_counted links
  obtain ⟨follows, lock⟩ := takenOver_follows (s := { s with links := L }) (m := m % 1024)
  have meets (h : s.crn.missed = 0) := takenOver_meets (s := { s with links := L }) (m := m % 1024) h
  have missed : (takenOver { s with links := L } (m % 1024)).crn.missed = 0 := rfl
  generalize takenOver { s with links := L } (m % 1024) = u at *
  have state : rd t Reg.crnState = rd u Reg.crnState := regs _ (by decide)
  refine ⟨t, goes, (fld_congr state).trans (follows.lode.trans (Nat.mod_mod _ _)),
    (congrArg (· != 0) (fld_congr state)).trans follows.role, ?_, ?_, (fld_congr state).trans follows.epoch,
    (fld_congr (regs _ (by decide))).trans follows.frame, (fld_congr state).trans lock, fun h => ?_, fun h opened => ?_,
    counted⟩
  · rw [crn, missed]
  · rw [crn]
    exact follows.time
  · rw [crn]
    exact (meets h).1
  · obtain ⟨at_, step, split, err⟩ := (meets h).2 opened
    rw [crn]
    exact ⟨at_, step, (congrArg (· != 0) (fld_congr (regs _ (by decide)))).trans split,
      (congrArg (· != 0) (fld_congr (regs _ (by decide)))).trans err⟩

end Sys2Proof.Machine

namespace Sys2Proof.Proofs

open Sys2Proof.Machine

/-- Settles O33: what a slip, a missed grid point and a TAKEOVER write of Cairn; the flood of a TAKEOVER touches the links
alone. -/
theorem slipsMissesAndTakeovers : Obligations.SlipsMissesAndTakeovers := by
  unfold Obligations.SlipsMissesAndTakeovers
  intro s
  refine ⟨fun anchored opened heard tick pol => ?_, fun anchored opened heard tick pol => ?_, fun h => ?_,
    fun live anchored unheard tick => ⟨fun role => ?_, fun role => ?_⟩, fun h => ?_, fun l src m epoch frame ha hc live =>
      ⟨execTaketakesshows ha hc live, execTaketakesown ha hc live, execTaketakesepoch ha hc live⟩⟩
  · obtain ⟨t, ht, next, frame, still, heard', decided, budget, slips⟩ := slipped_shows s
    exact ⟨t, (execGridSlip_opened anchored opened heard tick pol).trans (congrArg _ ht.symm), next, frame, still.trans opened,
      heard', decided, budget, slips⟩
  · refine congrArg Host.Outcome.next ((if_neg ?_).trans (if_pos ?_))
    · simp [anchored, heard, tick, pol]
    · simp [opened]
  · refine congrArg Host.Outcome.next (if_pos ?_)
    rcases h with h | h <;> simp [h]
  · rw [execGridMiss_eq live anchored unheard tick, if_pos role]
  · intro i
    have goes := execGridMiss_eq live anchored unheard tick
    rw [if_neg (by simp [role])] at goes
    obtain ⟨next, time, frame, epoch, same, missed⟩ := missCounted_follows s
    by_cases takes : i ≠ 0 ∧ 3 * i ≤ s.crn.missed + 1 ∧ s.su ≠ .fatal
    · obtain ⟨some, late, runs⟩ := takes
      rw [if_pos (by simp [show successorNo s ≠ 0 from some, show 3 * successorNo s ≤ s.crn.missed + 1 from late, runs])] at goes
      obtain ⟨next, time, frame, epoch, leads⟩ := floodTaketakessucceeds (floodTaketakesonlyLinks (succeeds (missCounted s)) 6)
      exact ⟨_, goes, next, time, frame, epoch, fun h => absurd h (by omega), fun _ _ _ => leads⟩
    · rw [if_neg (by simpa [i] using takes)] at goes
      exact ⟨_, goes, next, time, frame, epoch, fun _ => ⟨same.trans role, missed⟩,
        fun some late runs => absurd ⟨some, late, runs⟩ takes⟩
  · exact congrArg Host.Outcome.next (if_pos (by simp [h]))

end Sys2Proof.Proofs

/-! PROOFS. Routed messages (R152, R154, R160, R292, R294): a message for this block leaves the receive buffer and is served,
one for another block goes on, waits or is dropped; what the acceptance of a stream's bytes leaves alone. -/

namespace Sys2Proof.Machine

/-! ## A message arrives on a channel of a link (R289, R294) -/

theorem releaseMsg_onlyLinks (s : State) (r : Routed) : OnlyLinks s (releaseMsg s r) := by
  unfold releaseMsg
  split
  · exact .rfl' s
  · exact drainMsg_onlyLinks ..

section
variable {s : State} {r : Routed} {l : Nat} {go : State → State} (arrived : r.arrived = some l)
  (ha : linkActive s l = true) (hc : carries s l (routedVc r.kind) = true)
include arrived ha hc

theorem onRoute_serves (here : r.hdr.dst = stratum s) : onRoute s r go = go (releaseMsg s r) := by
  unfold onRoute onChannel
  rw [arrived, Option.getD_some, ha, hc]
  exact if_pos here

theorem onRoute_forwards (away : r.hdr.dst ≠ stratum s) : onRoute s r go = forwardMsg s r := by
  unfold onRoute onChannel
  rw [arrived, Option.getD_some, ha, hc]
  exact if_neg away

end

section
variable {s : State} {r : Routed}

/-- A message goes where its route leads. -/
def routeOn (s : State) (r : Routed) : State :=
  match nextLink s r.hdr.dst (routedVc r.kind) r.arrived with
  | .via l => sendRouted (releaseMsg s r) l r
  | .wait => { s with transit := s.transit ++ [r] }
  | .fail => dropTransit (releaseMsg s r) r false

theorem forwardMsg_eq (hi : injOff s) : forwardMsg s r = routeOn s r := by
  unfold forwardMsg
  cases arrived : r.arrived with
  | none =>
    unfold routeOn
    rw [arrived]
    rfl
  | some l =>
    dsimp only
    rw [flint_off hi]
    unfold routeOn
    rw [arrived]
    rfl

theorem routeOn_via {d : Nat} (hop : nextLink s r.hdr.dst (routedVc r.kind) r.arrived = .via d) :
    routeOn s r = sendRouted (releaseMsg s r) d r := by
  unfold routeOn
  rw [hop]

theorem routeOn_wait (hop : nextLink s r.hdr.dst (routedVc r.kind) r.arrived = .wait) :
    routeOn s r = { s with transit := s.transit ++ [r] } := by
  unfold routeOn
  rw [hop]

theorem routeOn_fail (hop : nextLink s r.hdr.dst (routedVc r.kind) r.arrived = .fail) :
    routeOn s r = dropTransit (releaseMsg s r) r false := by
  unfold routeOn
  rw [hop]

/-! ## A message that no link can carry (R294) -/

/-- A message is counted as dropped. -/
def dropCounted (s : State) : State := incFld s Reg.xlDrop Fl.xlDrop_COUNT 1

/-- Its link shows LOOP where the route names it. -/
def loopShown (s : State) (r : Routed) : State :=
  match r.arrived with
  | some l => if routesBack s r.hdr.dst r.arrived then setFlag s (Reg.xlLnkStat l) Fl.xlLnkStat_LOOP true else s
  | none => s

/-- The record of a message that is dropped. -/
def dropRec (r : Routed) : ErrRec :=
  { ErrRec.ofDet 2 0x14 with tenant := some r.hdr.tenant, lkind := 2, loc := r.arrived.getD 0, inj := false }

theorem dropTransit_eq (s : State) (r : Routed) :
    dropTransit s r false = recordErr (loopShown (dropCounted s) r) (dropRec r) := rfl

theorem loopShown_rest (s : State) (r : Routed) : (loopShown s r).transit = s.transit ∧
    rd (loopShown s r) Reg.xlDrop = rd s Reg.xlDrop := by
  unfold loopShown
  split
  · split
    · exact ⟨setFlag_transit .., rd_setFld_ne _ _ _ (by unfold Reg.xlLnkStat Reg.xlDrop; omega)⟩
    · exact ⟨rfl, rfl⟩
  · exact ⟨rfl, rfl⟩

theorem loopShown_loop {l : Nat} (arrived : r.arrived = some l) (back : routesBack s r.hdr.dst (some l) = true) :
    flag (loopShown s r) (Reg.xlLnkStat l) Fl.xlLnkStat_LOOP = true := by
  unfold loopShown
  rw [arrived]
  dsimp only
  rw [if_pos back]
  exact flag_setFlag_self _ _ _ _ (by decide) (by decide)

theorem routesBack_congr {t : State} (h : ∀ n, rd t (Reg.xlRoute n) = rd s (Reg.xlRoute n)) (dst : Nat) (l : Option Nat) :
    routesBack t dst l = routesBack s dst l := by
  unfold routesBack routeEntry
  rw [h]

theorem dropCounted_shows (s : State) : (dropCounted s).transit = s.transit ∧
    fld (dropCounted s) Reg.xlDrop Fl.xlDrop_COUNT = (fld s Reg.xlDrop Fl.xlDrop_COUNT + 1) % 2 ^ Fl.xlDrop_COUNT.width ∧
    ∀ dst l, routesBack (dropCounted s) dst l = routesBack s dst l :=
  ⟨incFld_transit .., fld_incFld_self _ _ _ _ (by decide), routesBack_congr fun n =>
    rd_setFld_ne _ _ _ (by unfold Reg.xlDrop Reg.xlRoute; omega)⟩

theorem BooksFree.transit {t : State} (h : BooksFree s t) : t.transit = s.transit := by
  have rest := congrArg State.transit (Books.rest (t := { t with free := s.free }) h)
  exact rest

theorem dropRec_recorded (s : State) (r : Routed) : (recordErr s (dropRec r)).transit = s.transit ∧
    (∀ a, bookReg a = false → rd (recordErr s (dropRec r)) a = rd s a) ∧
    flag (recordErr s (dropRec r)) Reg.errAtn Fl.errAtn_ERR = true := by
  have plain : (dropRec r).sev = 2 := rfl
  obtain ⟨-, atn, -, -⟩ := recordErr_sevFrame_shows (s := s) plain
  have books : BooksFree s (recordErr s (dropRec r)) := recordErr_booksFree (by rw [plain]; decide)
  exact ⟨books.transit, fun a ha => books.regs ha, atn⟩

/-- A dropped message is counted and recorded. -/
theorem dropTransit_shows (s : State) (r : Routed) : (dropTransit s r false).transit = s.transit ∧
    fld (dropTransit s r false) Reg.xlDrop Fl.xlDrop_COUNT =
      (fld s Reg.xlDrop Fl.xlDrop_COUNT + 1) % 2 ^ Fl.xlDrop_COUNT.width ∧
    flag (dropTransit s r false) Reg.errAtn Fl.errAtn_ERR = true ∧
    ∀ l < 6, r.arrived = some l → routesBack s r.hdr.dst (some l) = true →
      flag (dropTransit s r false) (Reg.xlLnkStat l) Fl.xlLnkStat_LOOP = true := by
  obtain ⟨transit, counted, back⟩ := dropCounted_shows s
  rw [dropTransit_eq]
  generalize dropCounted s = u at *
  obtain ⟨kept, drop⟩ := loopShown_rest u r
  have loop (l : Nat) (arrived : r.arrived = some l) (h : routesBack s r.hdr.dst (some l) = true) :=
    loopShown_loop arrived ((back ..).trans h)
  generalize loopShown u r = w at *
  obtain ⟨held, same, atn⟩ := dropRec_recorded w r
  generalize recordErr w (dropRec r) = x at *
  refine ⟨held.trans (kept.trans transit), ?_, atn, fun l hl arrived h => ?_⟩
  · have drops : bookReg Reg.xlDrop = false := by decide
    rw [fld_congr (same _ drops), fld_congr drop, counted]
  · have off : ∀ l < 6, bookReg (Reg.xlLnkStat l) = false := by decide
    exact (congrArg (· != 0) (fld_congr (same _ (off l hl)))).trans (loop l arrived h)

end

/-! ## POST (R160, R292) -/

theorem OnlyLinks.veins {s t : State} (h : OnlyLinks s t) : t.veins = s.veins := by
  obtain ⟨L, rfl⟩ := h
  rfl

theorem OnlyLinks.injOff {s t : State} (h : OnlyLinks s t) (hi : injOff s) : injOff t := injOff_congr (fun _ => h.rd _) hi

theorem OnlyLinks.inSemRange {s t : State} (h : OnlyLinks s t) (n k : Nat) : inSemRange t n k = inSemRange s n k := by
  unfold Machine.inSemRange
  rw [h.fld, h.fld]

theorem semSet_rest (s : State) (k n : Nat) : { semSet s k n with regs := s.regs } = s := by
  have one (u : State) (f : Field) (n : Nat) (r : List (Nat × W64)) :
      { setFld u (Reg.semVal k) f n with regs := r } = { u with regs := r } := rfl
  unfold semSet
  rw [one, one]

/-- The record of a post that is refused. -/
def refuseRec (k src : Nat) (t : Option Nat) : ErrRec :=
  { ErrRec.ofDet 1 0x15 with tenant := t, lkind := 6, loc := k % 256 + (src <<< 16), inj := false }

/-- A post that is refused is counted; no semaphore changes. -/
theorem semRefuse_shows (s : State) (k src : Nat) (t : Option Nat) :
    (∀ j < 256, semValue (semRefuse s k src t false) j = semValue s j) ∧
    fld (semRefuse s k src t false) Reg.semRefused Fl.semRefused_COUNT =
      (fld s Reg.semRefused Fl.semRefused_COUNT + 1) % 2 ^ Fl.semRefused_COUNT.width := by
  have recorded : semRefuse s k src t false =
      recordErr (incFld s Reg.semRefused Fl.semRefused_COUNT 1) (refuseRec k src t) := rfl
  have counted : fld (incFld s Reg.semRefused Fl.semRefused_COUNT 1) Reg.semRefused Fl.semRefused_COUNT = _ :=
    fld_incFld_self _ _ _ _ (by decide)
  have others (a : Nat) (ne : Reg.semRefused ≠ a) : rd (incFld s Reg.semRefused Fl.semRefused_COUNT 1) a = rd s a :=
    rd_setFld_ne _ _ _ ne
  rw [recorded, ← counted]
  generalize incFld s Reg.semRefused Fl.semRefused_COUNT 1 = u at *
  have plain : (refuseRec k src t).sev = 1 := rfl
  have books : BooksFree u (recordErr u (refuseRec k src t)) := recordErr_booksFree (by rw [plain]; decide)
  generalize recordErr u (refuseRec k src t) = w at *
  refine ⟨fun j hj => fld_congr ((books.regs (bookReg_semVal hj)).trans (others _ ?_)), fld_congr (books.regs (by decide))⟩
  unfold Reg.semRefused Reg.semVal
  omega

/-- The message that a POST is. -/
def postIn (l : Fin 6) (h : RoutedHdr) : Routed := ⟨1, h, [], some l.val, none, none⟩

section
variable {s : State} {l : Fin 6} {dst src t k n : Nat} (ha : linkActive s l = true) (hc : carries s l 1 = true)
  (ht : t < 4) (hk : k < 256) (hn : n < 65536)
include ha hc ht hk hn

theorem execPost_serves : exec (.post l (stratum s) src t k n) s =
    .next (semPost (releaseMsg s (postIn l ⟨stratum s, src % 1024, t, k, n⟩)) k n t (src % 1024) none) := by
  have own : stratum s % 1024 = stratum s := Nat.mod_eq_of_lt (fld_lt ..)
  have same : exec (.post l (stratum s) src t k n) s = execPost l (stratum s) src t k n s := rfl
  rw [same]
  unfold execPost
  rw [own, Nat.mod_eq_of_lt ht, Nat.mod_eq_of_lt hk, Nat.mod_eq_of_lt hn]
  exact congrArg Host.Outcome.next (onRoute_serves rfl ha hc rfl)

theorem execPost_forwards (hdst : dst < 1024) (hsrc : src < 1024) (away : dst ≠ stratum s) :
    exec (.post l dst src t k n) s = .next (forwardMsg s (postIn l ⟨dst, src, t, k, n⟩)) := by
  have same : exec (.post l dst src t k n) s = execPost l dst src t k n s := rfl
  rw [same]
  unfold execPost
  rw [Nat.mod_eq_of_lt hdst, Nat.mod_eq_of_lt hsrc, Nat.mod_eq_of_lt ht, Nat.mod_eq_of_lt hk, Nat.mod_eq_of_lt hn]
  exact congrArg Host.Outcome.next (onRoute_forwards rfl ha hc away)

variable (hi : injOff s)
include hi

/-- In range, with nobody waiting: the amount is added. -/
theorem execPost_adds (hr : inSemRange s t k = true) (waiters : semWaiters s k = []) (fits : semValue s k + n ≤ 65535) :
    ∃ u, exec (.post l (stratum s) src t k n) s = .next u ∧ semValue u k = semValue s k + n ∧
      { u with regs := s.regs } = releaseMsg s (postIn l ⟨stratum s, src % 1024, t, k, n⟩) ∧
      ∀ a, a ≠ Reg.semVal k → rd u a = rd s a := by
  have goes := execPost_serves ha hc ht hk hn (src := src)
  have links := releaseMsg_onlyLinks s (postIn l ⟨stratum s, src % 1024, t, k, n⟩)
  generalize releaseMsg s (postIn l ⟨stratum s, src % 1024, t, k, n⟩) = v at *
  have quiet : NoWaiter v k := (noWaiter_of_nil waiters).of_veins links.veins
  have value : semValue v k = semValue s k := links.fld ..
  rw [semPost_ranged (links.injOff hi) ((links.inSemRange ..).trans hr), semRaise_fits quiet (by rw [value]; exact fits),
    value] at goes
  refine ⟨_, goes, semValue_semSet fits, ?_, fun a ne => (rd_semSet ne).trans (links.rd a)⟩
  rw [← links.regs]
  exact semSet_rest ..

/-- Out of range: it is counted and changes no semaphore. -/
theorem execPost_refused (hr : inSemRange s t k = false) : ∃ u, exec (.post l (stratum s) src t k n) s = .next u ∧
    (∀ j < 256, semValue u j = semValue s j) ∧ fld u Reg.semRefused Fl.semRefused_COUNT =
      (fld s Reg.semRefused Fl.semRefused_COUNT + 1) % 2 ^ Fl.semRefused_COUNT.width := by
  have goes := execPost_serves ha hc ht hk hn (src := src)
  have links := releaseMsg_onlyLinks s (postIn l ⟨stratum s, src % 1024, t, k, n⟩)
  generalize releaseMsg s (postIn l ⟨stratum s, src % 1024, t, k, n⟩) = v at *
  rw [semPost_outside (links.injOff hi) ((links.inSemRange ..).trans hr)] at goes
  obtain ⟨values, refused⟩ := semRefuse_shows v k (src % 1024) (some t)
  refine ⟨_, goes, fun j hj => (values j hj).trans (links.fld ..), refused.trans ?_⟩
  rw [links.fld]

end

/-! ## WRITE (R292) -/

/-- The message that a WRITE is, and the reply to it. -/
def writeIn (l : Fin 6) (h : RoutedHdr) (bs : List Byte) : Routed := ⟨4, h, bs, some l.val, none, none⟩

def replyOut (s : State) (kind : Nat) (h : RoutedHdr) : Routed :=
  ⟨kind, { h with dst := h.src, src := stratum s }, [], none, none, none⟩

theorem nextLink_congr {s t : State} (hr : t.regs = s.regs) (hs : t.su = s.su) (dst vc : Nat) (a : Option Nat) :
    nextLink t dst vc a = nextLink s dst vc a := by
  have words (x : Nat) : rd t x = rd s x := by unfold rd; rw [hr]
  have state (l : Nat) : linkState t l = linkState s l := fld_regs hr
  have active (l : Nat) : linkActive t l = linkActive s l := by
    unfold linkActive linksDriven pxRuns
    rw [state, hs]
  have mode (l b : Nat) : modeBit t l b = modeBit s l b := modeBit_congr hr l b
  have carried (l : Nat) : carries t l vc = carries s l vc := by
    unfold carries
    rw [mode, mode, mode]
  unfold nextLink routeEntry
  simp only [words, state, active, carried]

theorem sendRouted_onlyLinks (s : State) (l : Nat) (r : Routed) : OnlyLinks s (sendRouted s l r) := sendMsg_onlyLinks ..

theorem OnlyLinks.su {s t : State} (h : OnlyLinks s t) : t.su = s.su := by
  obtain ⟨L, rfl⟩ := h
  rfl

theorem OnlyLinks.inTenant {s t : State} (h : OnlyLinks s t) (n x k : Nat) : inTenant t n x k = inTenant s n x k := by
  obtain ⟨L, rfl⟩ := h
  rfl

section
variable {s : State} {l : Fin 6} {h : RoutedHdr} {bs : List Byte} {d : Nat}

/-- A reply goes out on the link of its route. -/
theorem replyWrite_sends {v : State} (hr : v.regs = s.regs) (hs : v.su = s.su) (via : nextLink s h.src 1 none = .via d)
    {kind : Nat} (hk : routedVc kind = 1) : replyWrite v kind h = sendRouted v d (replyOut s kind h) := by
  have own : stratum v = stratum s := fld_regs hr
  have hop : nextLink v h.src (routedVc kind) none = .via d := by
    rw [nextLink_congr hr hs, hk, via]
  unfold replyWrite forwardMsg
  dsimp only
  rw [if_neg (by decide), hop, own]
  rfl

variable (ha : linkActive s l = true) (hc : carries s l 2 = true) (here : h.dst = stratum s) (ht : h.tenant < 4)
  (hl : bs.length = h.lenM1 + 1) (via : nextLink s h.src 1 none = .via d)
include ha hc here ht hl

theorem execWrite_serves : exec (.write l h bs) s = .next (
    if inTenant s h.tenant h.offset bs.length then replyWrite (micaWrite (releaseMsg s (writeIn l h bs)) h.offset bs) 2 h
    else replyWrite (releaseMsg s (writeIn l h bs)) 3 h) := by
  have links := releaseMsg_onlyLinks s (writeIn l h bs)
  have goes : exec (.write l h bs) s = .next (if bs.length != h.lenM1 + 1 then s
      else onRoute s (writeIn l h bs) fun s =>
        if inTenant s (h.tenant % 4) h.offset bs.length then replyWrite (micaWrite s h.offset bs) 2 h
        else replyWrite s 3 h) := rfl
  rw [goes, if_neg (by simp [hl]), onRoute_serves (r := writeIn l h bs) rfl ha hc here, links.inTenant, Nat.mod_eq_of_lt ht]

include via

/-- Inside the partition its bytes are stored, and nothing else of Mica changes. -/
theorem execWrite_stores (inside : inTenant s h.tenant h.offset bs.length = true) :
    ∃ u, exec (.write l h bs) s = .next u ∧ (∀ k < bs.length, micaByte u (h.offset + k) = bs.getD k 0) ∧
      (∀ a, (a < h.offset ∨ h.offset + bs.length ≤ a) → micaByte u a = micaByte s a) ∧
      link u d = link (sendRouted (releaseMsg s (writeIn l h bs)) d (replyOut s 2 h)) d ∧
      { u with mica := s.mica, poison := s.poison, links := s.links } = s := by
  have goes := execWrite_serves ha hc here ht hl
  obtain ⟨L, e⟩ := releaseMsg_onlyLinks s (writeIn l h bs)
  generalize releaseMsg s (writeIn l h bs) = v at *
  have regs : (micaWrite v h.offset bs).regs = s.regs := by rw [e]; rfl
  have su : (micaWrite v h.offset bs).su = s.su := by rw [e]; rfl
  rw [if_pos inside, replyWrite_sends regs su via rfl] at goes
  have sent : link (sendRouted (micaWrite v h.offset bs) d (replyOut s 2 h)) d = link (sendRouted v d (replyOut s 2 h)) d :=
    link_sendMsg_congr rfl rfl
  obtain ⟨M, k⟩ := sendRouted_onlyLinks (micaWrite v h.offset bs) d (replyOut s 2 h)
  refine ⟨_, goes, fun i hi => ?_, fun a off => ?_, sent, ?_⟩
  · rw [k]
    refine (micaByte_micaWrite v h.offset bs _).trans ?_
    rw [if_pos (by omega), Nat.add_sub_cancel_left]
  · rw [k]
    refine (micaByte_micaWrite v h.offset bs _).trans ?_
    rw [if_neg (by omega), e]
    rfl
  · rw [k, e]
    rfl

/-- Outside it nothing is stored. -/
theorem execWrite_rejects (outside : inTenant s h.tenant h.offset bs.length = false) : exec (.write l h bs) s =
    .next (sendRouted (releaseMsg s (writeIn l h bs)) d (replyOut s 3 h)) := by
  have goes := execWrite_serves ha hc here ht hl
  have links := releaseMsg_onlyLinks s (writeIn l h bs)
  rw [goes, if_neg (by rw [outside]; decide), replyWrite_sends links.regs links.su via rfl]

end


/-! ## The list of remote writes as sequences end and room is given (R149, R154) -/

theorem BooksFree.writes {s t : State} (h : BooksFree s t) : t.writes = s.writes := by
  have rest := congrArg State.writes (Books.rest (t := { t with free := s.free }) h)
  exact rest

section
variable {R : Nat → Bool} {s t : State}

theorem book_writes (h : Books R s t) : t.writes = s.writes := (congrArg State.writes h.rest :)

theorem injOne_writes {det n : Nat} {x : InjSel} {busy : Bool} (acc : Option Nat × State) :
    (injOne det x busy acc n).2.writes = acc.2.writes := by
  obtain ⟨hit, u⟩ := acc
  unfold injOne
  split
  next hit u e =>
  cases e
  extract_lets mode met seen period noted fired cnt left
  have hnoted : noted.writes = u.writes := rfl
  clear_value noted
  have hfired : fired.writes = u.writes := (setFld_writes ..).trans hnoted
  clear_value fired
  have hleft : left.writes = u.writes := by
    unfold left
    split
    · exact (setFld_writes ..).trans hfired
    · exact hfired
  clear_value left met mode
  split
  · rfl
  · split
    · exact setFld_writes ..
    · split
      · exact hnoted
      · exact hleft

theorem flint_writes (s : State) (det : Nat) (x : InjSel) (busy : Bool) : (flint s det x busy).2.writes = s.writes :=
  List.foldlRecOn (motive := fun (u : Option Nat × State) => u.2.writes = s.writes) _ _ rfl
    fun u hu _ _ => (injOne_writes u).trans hu

theorem endWait_writes {v : Nat} (hv : v < 16) (code : Nat) : (endWait s v code).writes = s.writes :=
  (book_writes (endWait_book hv code)).trans (setVein_writes ..)

theorem semWake_writes (s : State) (k n : Nat) : (semWake k n s).writes = s.writes := by
  induction n generalizing s with
  | zero => rfl
  | succ n ih =>
    unfold semWake
    split
    · rfl
    next o v c tile ws e =>
      have hv : v < 16 := mem_semWaiters_lt (s := s) (k := k) (w := (o, v, c, tile)) (e ▸ List.mem_cons_self)
      split
      · extract_lets taken
        have htaken : taken.writes = s.writes := setFld_writes ..
        clear_value taken
        refine (ih _).trans ?_
        split
        · exact (endWait_writes hv 0).trans htaken
        · exact (book_writes (updJob_book (book_refl (R := bookReg) taken))).trans htaken
      · rfl

theorem semRaise_writes (s : State) (k val src : Nat) (n : Option Nat) : (semRaise s k val src n).writes = s.writes := by
  unfold semRaise
  extract_lets sum raised excess capped
  have hraised : raised.writes = s.writes := setFld_writes ..
  clear_value raised
  have hcapped : capped.writes = s.writes := by
    unfold capped
    split
    · exact (recordErr_booksFree (show (1 : Nat) ≠ 3 by decide)).writes.trans ((incFld_writes ..).trans hraised)
    · exact hraised
  clear_value capped
  unfold semSettle setWaiters
  exact (setFld_writes ..).trans ((semWake_writes ..).trans hcapped)

theorem semPost_writes (s : State) (k val n src : Nat) (v : Option Nat) : (semPost s k val n src v).writes = s.writes := by
  unfold semPost
  extract_lets sel r inj hit
  have hhit : hit.writes = s.writes := flint_writes ..
  clear_value hit
  split
  · unfold semRefuse
    exact (recordErr_booksFree (show (1 : Nat) ≠ 3 by decide)).writes.trans ((incFld_writes ..).trans hhit)
  · exact (semRaise_writes ..).trans hhit

theorem endPost_writes (s : State) (i : Nat) : (endPost s i).writes = s.writes := by
  unfold endPost
  extract_lets d
  split
  · rfl
  · split
    · split
      · exact semPost_writes ..
      · rfl
    · exact semPost_writes ..

theorem writeActivity_writes (s : State) (i : Nat) : (writeActivity s i).writes = s.writes := by
  unfold writeActivity
  extract_lets x shown
  have hshown : shown.writes = s.writes := setStrm_writes ..
  clear_value shown
  split
  · split
    · exact (setFld_writes ..).trans hshown
    · exact (setFld_writes ..).trans hshown
  · rfl

theorem startSeq_writes (s : State) (i p xb : Nat) : (startSeq s i p xb).writes = s.writes :=
  (setStrm_writes ..).trans (setFld_writes ..)

theorem settleMcast_writes (s : State) : (settleMcast s).writes = s.writes :=
  settleMcast_induction (P := fun u => u.writes = s.writes) (fun _ => rfl) fun _ _ _ hu => (wr_writes ..).trans hu

theorem settleWaits_writes (s : State) : (settleWaits s).writes = s.writes :=
  book_writes (settleWaits_book bookReg_covers (book_refl s))

theorem seqEnd_writes (s : State) (i : Nat) : (seqEnd s i).writes = s.writes := by
  unfold seqEnd
  extract_lets shown posted x taken flagged
  have hposted : posted.writes = s.writes := (endPost_writes ..).trans (writeActivity_writes ..)
  clear_value posted x
  have hflagged : flagged.writes = s.writes := (setFlag_writes ..).trans ((setStrm_writes ..).trans hposted)
  clear_value flagged
  split
  · exact (settleWaits_writes ..).trans ((startSeq_writes ..).trans hflagged)
  · split
    · exact (startSeq_writes ..).trans hposted
    · exact (settleMcast_writes ..).trans ((settleWaits_writes ..).trans ((setFld_writes ..).trans hposted))

theorem checkEnd_writes (s : State) (i : Nat) : (checkEnd s i).writes = s.writes := by
  have key (k : Nat) (u : State) : (endSeqs k u i).writes = u.writes := by
    induction k generalizing u with
    | zero => rfl
    | succ k ih =>
      unfold endSeqs
      split
      · exact (ih _).trans (seqEnd_writes u i)
      · rfl
  exact key _ s

end

/-! ## The requests of a stream as it gets room -/

/-- From s to t the requests of stream i and the list of remote writes stand. -/
structure RequestsKept (i : Nat) (s t : State) : Prop where
  outst  : (strm t i).outst = (strm s i).outst
  writes : t.writes = s.writes

namespace RequestsKept
variable {s t u : State} {i : Nat}

theorem rfl' (i : Nat) (s : State) : RequestsKept i s s := ⟨rfl, rfl⟩

theorem trans (h : RequestsKept i s t) (k : RequestsKept i t u) : RequestsKept i s u :=
  ⟨k.outst.trans h.outst, k.writes.trans h.writes⟩

theorem setStrm {x : StreamSt} (hx : x.outst = (strm s i).outst) : RequestsKept i s (setStrm s i x) :=
  ⟨by rw [strm_setStrm_self, hx], setStrm_writes ..⟩

theorem putByte (s : State) (i a : Nat) (b : Byte) (bad : Bool) : RequestsKept i s (putByte s i a b bad) := by
  unfold Machine.putByte
  extract_lets x w
  split
  · have marked : RequestsKept i s (Machine.setStrm s i { x with bad := x.bad.filter (· != w) ++ [w] }) := setStrm rfl
    exact ⟨marked.outst, marked.writes⟩
  · split <;> exact ⟨rfl, rfl⟩

theorem turnOut (s : State) (i : Nat) : RequestsKept i s (turnOut s i) := by
  unfold Machine.turnOut
  extract_lets x go kept
  split
  · exact .rfl' i s
  · refine List.foldlRecOn (motive := fun u => RequestsKept i s u) _ _ (setStrm rfl) fun u hu b _ => ?_
    dsimp only
    split
    · exact hu.trans ((putByte ..).trans (setStrm rfl))
    · exact hu

theorem extendOne (s : State) (i : Nat) : RequestsKept i s (extendOne s i) := by
  unfold Machine.extendOne
  extract_lets d x
  split
  · exact .rfl' i s
  · extract_lets p
    split
    · exact .rfl' i s
    · split
      · exact setStrm rfl
      · split
        · exact .rfl' i s
        · refine RequestsKept.trans ?_ (turnOut ..)
          exact setStrm rfl

theorem release (s : State) (i : Nat) : RequestsKept i s (release s i) := by
  unfold Machine.release
  extract_lets x
  split
  · exact .rfl' i s
  · exact setStrm rfl

theorem checkEnd (hi : i < 64) (s : State) : RequestsKept i s (checkEnd s i) :=
  ⟨(checkEnd_settled hi s).outst, checkEnd_writes s i⟩

theorem extend (hi : i < 64) (s : State) : RequestsKept i s (extend s i) := by
  have roomy := ((release s i).trans (extendOne ..)).trans (extendOne ..)
  unfold Machine.extend
  extract_lets t
  split
  · exact roomy.trans (checkEnd hi _)
  · exact roomy

end RequestsKept


/-! ## WACK and WNAK (R154, R292) -/

/-- The message that a reply is. -/
def replyIn (l : Fin 6) (kind : Nat) (h : RoutedHdr) : Routed := ⟨kind, h, [], some l.val, none, none⟩

theorem OnlyLinks.writes {s t : State} (h : OnlyLinks s t) : t.writes = s.writes := by
  obtain ⟨L, rfl⟩ := h
  rfl

theorem OnlyLinks.transit {s t : State} (h : OnlyLinks s t) : t.transit = s.transit := by
  obtain ⟨L, rfl⟩ := h
  rfl

/-- The acceptance of bytes of a stream: its request is off the list, which nothing else leaves. -/
theorem ackPos_acks {i : Nat} (hi : i < 64) (s : State) (p : Nat) : (ackPos s i p).writes = s.writes ∧
    ∀ r ∈ (strm (ackPos s i p) i).outst, r.pos ≠ p := by
  unfold ackPos
  extract_lets x
  have acked : (strm (setStrm s i { x with outst := x.outst.filter fun r => r.pos != p }) i).outst =
      x.outst.filter fun r => r.pos != p := congrArg StreamSt.outst (strm_setStrm_self ..)
  have writes : (setStrm s i { x with outst := x.outst.filter fun r => r.pos != p }).writes = s.writes := setStrm_writes ..
  generalize setStrm s i { x with outst := x.outst.filter fun r => r.pos != p } = u at *
  have kept := (RequestsKept.checkEnd hi u).trans (.extend hi _)
  refine ⟨kept.writes.trans writes, fun r hr => ?_⟩
  rw [kept.outst, acked] at hr
  simpa using (List.mem_filter.mp hr).2

/-- What a WACK does once it has left the receive buffer. -/
def takeWack (h : RoutedHdr) (s : State) : State :=
  match takeWrite h s.writes with
  | none => s
  | some (w, ws) => if w.stream < 64 then ackPos { s with writes := ws } w.stream w.pos else { s with writes := ws }

/-- What a WNAK does. -/
def takeWnak (h : RoutedHdr) (s : State) : State :=
  match takeWrite h s.writes with
  | none => s
  | some (w, ws) => if w.stream < 64 then haltStream { s with writes := ws } w.stream St.stateIllegal else { s with writes := ws }

section
variable {s : State} {l : Fin 6} {h : RoutedHdr} (ha : linkActive s l = true) (hc : carries s l 1 = true)
  (here : h.dst = stratum s)
include ha hc here

theorem execWack_serves : exec (.wack l h) s = .next (takeWack h (releaseMsg s (replyIn l 2 h))) := by
  have goes : exec (.wack l h) s = .next (onRoute s (replyIn l 2 h) (takeWack h)) := rfl
  rw [goes, onRoute_serves (r := replyIn l 2 h) rfl ha hc here]

theorem execWnak_serves : exec (.wnak l h) s = .next (takeWnak h (releaseMsg s (replyIn l 3 h))) := by
  have goes : exec (.wnak l h) s = .next (onRoute s (replyIn l 3 h) (takeWnak h)) := rfl
  rw [goes, onRoute_serves (r := replyIn l 3 h) rfl ha hc here]

theorem execWack_acks {w : OutWrite} {ws : List OutWrite} (found : takeWrite h s.writes = some (w, ws)) (hw : w.stream < 64) :
    ∃ u, exec (.wack l h) s = .next u ∧ u.writes = ws ∧ ∀ r ∈ (strm u w.stream).outst, r.pos ≠ w.pos := by
  have goes := execWack_serves ha hc here
  have links := releaseMsg_onlyLinks s (replyIn l 2 h)
  unfold takeWack at goes
  rw [links.writes, found] at goes
  dsimp only at goes
  rw [if_pos hw] at goes
  exact ⟨_, goes, ackPos_acks hw _ _⟩

theorem execWnak_halts {w : OutWrite} {ws : List OutWrite} (found : takeWrite h s.writes = some (w, ws)) (hw : w.stream < 64) :
    ∃ u, exec (.wnak l h) s = .next u ∧ sState u w.stream = Ss.halted ∧ (strm u w.stream).outst = [] ∧
      fld u (Reg.stmDescW7 w.stream) Fl.stmDescW7_LASTSTAT = St.stateIllegal := by
  have goes := execWnak_serves ha hc here
  have links := releaseMsg_onlyLinks s (replyIn l 3 h)
  unfold takeWnak at goes
  rw [links.writes, found] at goes
  dsimp only at goes
  rw [if_pos hw] at goes
  obtain ⟨state, stat, outst⟩ := haltStream_halts (code := St.stateIllegal) hw (by decide)
    { releaseMsg s (replyIn l 3 h) with writes := ws }
  exact ⟨_, goes, state, outst, stat⟩

/-- A reply that no write waits for leaves the receive buffer. -/
theorem execReply_unknown (unknown : takeWrite h s.writes = none) :
    exec (.wack l h) s = .next (releaseMsg s (replyIn l 2 h)) ∧
    exec (.wnak l h) s = .next (releaseMsg s (replyIn l 3 h)) := by
  have wack := execWack_serves ha hc here
  have wnak := execWnak_serves ha hc here
  unfold takeWack at wack
  unfold takeWnak at wnak
  rw [(releaseMsg_onlyLinks ..).writes, unknown] at wack wnak
  exact ⟨wack, wnak⟩

end

/-! ## Held messages (R294) -/

section
variable {s : State} {n : Nat} {r : Routed}

/-- The held message is off the list. -/
def untransit (s : State) (n : Nat) : State := { s with transit := s.transit.eraseIdx n }

theorem execRoutedForward_none (h : s.transit[n]? = none) : exec (.routedForward n) s = .next s := by
  have goes : exec (.routedForward n) s = execRoutedForward n s := rfl
  rw [goes]
  unfold execRoutedForward
  rw [h]

variable (held : s.transit[n]? = some r)
include held

theorem execRoutedForward_waits (hop : nextLink s r.hdr.dst (routedVc r.kind) r.arrived = .wait) :
    exec (.routedForward n) s = .next s := by
  have goes : exec (.routedForward n) s = execRoutedForward n s := rfl
  rw [goes]
  unfold execRoutedForward
  rw [held]
  dsimp only
  rw [hop]

theorem execRoutedForward_sends {d : Nat} (hop : nextLink s r.hdr.dst (routedVc r.kind) r.arrived = .via d)
    (hv : r.vein = none) (hs : r.stream = none) :
    exec (.routedForward n) s = .next (sendRouted (releaseMsg (untransit s n) r) d r) := by
  have goes : exec (.routedForward n) s = execRoutedForward n s := rfl
  rw [goes]
  unfold execRoutedForward
  rw [held]
  dsimp only
  rw [hop]
  dsimp only
  rw [hv, hs]
  rfl

theorem execRoutedForward_drops (hop : nextLink s r.hdr.dst (routedVc r.kind) r.arrived = .fail)
    (hv : r.vein = none) (hs : r.stream = none) :
    exec (.routedForward n) s = .next (dropTransit (releaseMsg (untransit s n) r) r false) := by
  have goes : exec (.routedForward n) s = execRoutedForward n s := rfl
  rw [goes]
  unfold execRoutedForward
  rw [held]
  dsimp only
  rw [hop]
  dsimp only
  rw [hv, hs]
  rfl

theorem execRoutedForward_halts {i : Nat} (hop : nextLink s r.hdr.dst (routedVc r.kind) r.arrived = .fail)
    (hv : r.vein = none) (hs : r.stream = some i) :
    exec (.routedForward n) s = .next (haltStream (untransit s n) i St.linkDown) := by
  have goes : exec (.routedForward n) s = execRoutedForward n s := rfl
  rw [goes]
  unfold execRoutedForward
  rw [held]
  dsimp only
  rw [hop]
  dsimp only
  rw [hv, hs]
  rfl

end

end Sys2Proof.Machine

namespace Sys2Proof.Proofs

open Sys2Proof.Machine

/-- Settles O39: each message by what it leaves of the block once it is out of the receive buffer. -/
theorem routedMessagesAreServed : Obligations.RoutedMessagesAreServed := by
  unfold Obligations.RoutedMessagesAreServed
  intro s l hi ha in_
  refine ⟨fun src t k n hc ht hk hn => ⟨execPost_adds ha hc ht hk hn hi, execPost_refused ha hc ht hk hn hi⟩, ?_, ?_, ?_, ?_, ?_⟩
  · intro dst src t k n d hc hdst hsrc ht hk hn away
    have goes := execPost_forwards ha hc ht hk hn hdst hsrc away
    rw [forwardMsg_eq hi] at goes
    refine ⟨fun hop => goes.trans (congrArg _ (routeOn_via hop)), fun hop => goes.trans (congrArg _ (routeOn_wait hop)),
      fun hop => ?_⟩
    have links := releaseMsg_onlyLinks s (postIn l ⟨dst, src, t, k, n⟩)
    obtain ⟨transit, count, atn, loop⟩ :=
      dropTransit_shows (releaseMsg s (postIn l ⟨dst, src, t, k, n⟩)) (postIn l ⟨dst, src, t, k, n⟩)
    refine ⟨_, goes.trans (congrArg _ (routeOn_fail hop)), count.trans ?_, transit.trans links.transit, atn, fun back =>
      loop l l.isLt rfl ((routesBack_congr (fun _ => links.rd _) ..).trans back)⟩
    rw [links.fld]
  · intro h bs d here ht hl hc via
    exact ⟨execWrite_stores ha hc here ht hl via, execWrite_rejects ha hc here ht hl via⟩
  · intro h w ws hc here found hw
    exact ⟨execWack_acks ha hc here found hw, execWnak_halts ha hc here found hw⟩
  · intro h hc here unknown
    exact execReply_unknown ha hc here unknown
  · intro n
    refine ⟨execRoutedForward_none, ?_⟩
    intro r held hop
    refine ⟨execRoutedForward_waits held, fun d via hv hs => execRoutedForward_sends held via hv hs, fun fail hv hs => ?_,
      fun i fail hv hs hlt => ?_⟩
    · have goes := execRoutedForward_drops held fail hv hs
      obtain ⟨transit, count, -, -⟩ := dropTransit_shows (releaseMsg (untransit s n) r) r
      have links := releaseMsg_onlyLinks (untransit s n) r
      refine ⟨_, goes, transit.trans ?_, count.trans ?_⟩
      · exact links.transit
      · rw [links.fld]
        rfl
    · obtain ⟨state, stat, -⟩ := haltStream_halts (code := St.linkDown) hlt (by decide) (untransit s n)
      exact ⟨_, execRoutedForward_halts held fail hv hs, state, stat⟩

end Sys2Proof.Proofs
